-- ==== Sys2Proof/Word.lean ====
section
/-! DEFINITION. The word types of the Dzivar (R4): bytes, 64-bit words, 32-bit instruction words. -/

namespace Sys2Proof

/-- R4: a byte is 8 bits. -/
abbrev Byte := BitVec 8

/-- R4: a word is 64 bits. -/
abbrev Word := BitVec 64

/-- R4: an instruction word is always 32 bits. -/
abbrev IWord := BitVec 32

/-- A 5-bit register field of an instruction word (R80, R83, R84). -/
abbrev Fld := BitVec 5

end Sys2Proof
end

