-- ==== Sys2Proof/Data.lean ====
section
/-! DEFINITION. The plain data that agents exchange: write keys, messages, parts, contributions, answers. They are
operands of the step rows of the opcode table and entries of the queues in State. -/

namespace Sys2Proof

/-- R223: the write key, compared component by component in this order. -/
structure WKey where
  stamp : Nat
  writer : Nat
  seg : Nat
  part : Nat
  idx : Nat
  deriving DecidableEq, Repr

/-- R294: the order key of a message or activation. `src` is 0 for the launch (which ranks below tile 0x000) and
t + 1 for tile t. -/
structure ActKey where
  stamp : Nat
  src : Nat
  seq : Nat
  deriving DecidableEq, Repr

/-- R234: a store-log record: physical address of its first byte, its data, its position in the segment. -/
structure Rec where
  pa : Nat
  data : List Byte
  idx : Nat
  /-- the record was marked by QFENCE (R256): the log search skips it -/
  marked : Bool
  /-- held in the overflow region (R236) -/
  ovf : Bool
  deriving DecidableEq, Repr

/-- R238: a segment's records for one home, with the launch tag and the key components they share. -/
structure Part where
  launchTag : Nat
  key : WKey
  vf : Nat
  recs : List Rec
  deriving DecidableEq, Repr

/-- Which part a PART_APPLY step applies: the k-th part in flight of this core's segment number n, or a part of another
core that reaches a home (the operand is what that core sent). -/
inductive PartSel where
  | own (seg : Nat) (k : Nat)
  | foreign (p : Part)
  deriving DecidableEq, Repr

/-- R328, KIND 0: a link message, with what its head flit carries for the receiver. -/
structure Msg where
  /-- destination logical core -/
  dest : BitVec 13
  /-- the destination tile chooses the core (R309) -/
  any : Bool
  mc : Bool
  cls : BitVec 4
  stamp : BitVec 48
  /-- source logical core -/
  score : BitVec 13
  handler : BitVec 56
  payload : List Word
  seq : Nat
  prom : Nat
  col : Bool
  /-- partition identifier of the sender -/
  part : BitVec 6
  /-- launch tag and leaf inherited by the task it starts (R38) -/
  tag : BitVec 16
  leaf : BitVec 24
  mig : Bool
  deriving DecidableEq, Repr

/-- R318: a deposit. -/
structure Deposit where
  core : BitVec 13
  frame : Nat
  word : Nat
  val : Word
  tid : Word
  orig : BitVec 13
  src : BitVec 13
  /-- R362: the partition of the sender -/
  part : BitVec 6
  deriving DecidableEq, Repr

/-- R44: what a migrating task carries, and nothing else. -/
structure MigTask where
  w : Vector Word 16
  pc : BitVec 56
  status : BitVec 8
  tid : Word
  origin : BitVec 13
  stamp : BitVec 48
  key : ActKey
  dest : BitVec 13
  /-- R306: the sweep colour of its message -/
  col : Bool
  /-- R362: the partition of the sender -/
  part : BitVec 6
  deriving DecidableEq, Repr

/-- R286: where a reduction packet comes from. -/
inductive NredFrom where
  | own
  | child (tile : Nat)
  deriving DecidableEq, Repr

/-- R285-R287: a contribution (one unit) or a child result (several). `vals` are the unfolded partials with their units
under fadd; otherwise it holds the one combined value. `missing` is the missing count of a LATE child result. -/
structure Contribution where
  tag : BitVec 16
  op : BitVec 3
  s32 : Bool
  src : NredFrom
  unit : Nat
  vals : List (Nat × Word)
  late : Bool
  resultLate : Bool
  missing : Nat
  /-- R287: a child's first partials, forwarded while it still counts -/
  more : Bool
  /-- R362: the partition of the sender -/
  part : BitVec 6
  deriving DecidableEq, Repr

/-- R286: a result multicast by the root. -/
structure NredRes where
  tag : BitVec 16
  op : BitVec 3
  s32 : Bool
  value : Word
  late : Bool
  miss : Nat
  laten : Nat
  deriving DecidableEq, Repr

/-- A request that reaches a home: this task's k-th outstanding one (tasks are named by frame), or another agent's. -/
inductive LoadSel where
  | own (frame k : Nat)
  | foreign (pa n : Nat)
  deriving DecidableEq, Repr

/-- R252: the eleven atomic operations by code, a 32-bit or 64-bit operand pair, at a physical address. -/
structure AmoReq where
  op : BitVec 4
  s32 : Bool
  pa : Nat
  v : Word
  e : Word
  deriving DecidableEq, Repr

inductive AmoSel where
  | own (frame k : Nat)
  | foreign (r : AmoReq) (vf : BitVec 6) (core : BitVec 13)
  deriving DecidableEq, Repr

/-- R229: an engine write of another agent, with the key of R223. -/
structure EngWrite where
  launchTag : Nat
  key : WKey
  vf : Nat
  pa : Nat
  data : List Byte
  deriving DecidableEq, Repr

/-- R261: who arrives on a barrier: the task of a frame of this core whose BARRIVE is in flight, the MROT at the head of
this core's queue, a task or an MROT of another core of the tile. -/
inductive Arrival where
  | ownTask (frame : Nat)
  | ownMrot
  | otherTask
  | otherMrot
  deriving DecidableEq, Repr

/-- R306: the figures of a sweep report. -/
structure SweepFig where
  sent : Nat
  received : Nat
  least : Nat
  commit : Nat
  deriving DecidableEq, Repr

/-- R376: a granule that a lazy fill makes present. -/
inductive Granule where
  | vreg (i : BitVec 4)
  | coef (f : BitVec 3) (g : Nat)
  | acc (a : Bool) (g : Nat)
  deriving DecidableEq, Repr

/-- Who misses the TLBs and needs a walk (R351): the fetch or the access of a task, a stream of a task, or the engine
operation at the head of a queue. -/
inductive WalkFor where
  | task (frame : Nat)
  | stream (frame : Nat) (k : BitVec 3)
  | engine (q : Nat)
  /-- R413: the tile's error agent -/
  | agent
  deriving DecidableEq, Repr

/-- R400, R401: where an error of a memory is found: a word of shared memory, of this core's TCM, of its coefficient pool, of a buffer of
its latch. -/
inductive ErrSite where
  | shared (pa : Nat)
  | tcm (word : Nat)
  | pool (k : Nat)
  | latch
  deriving DecidableEq, Repr

/-- R354: a fault message: of a walk in this cluster's fault table, or one that reaches this core from another cluster. -/
inductive FaultSel where
  | own (k : Nat)
  | foreign (words : List Word)
  deriving DecidableEq, Repr

/-- R349: the kinds of access that translation distinguishes. -/
inductive Access where
  | load
  | store
  | amo
  | fetch
  deriving DecidableEq, Repr

/-- R228, R241: how a sent message or deposit ended. -/
inductive SendEnd where
  | accepted
  | refused
  | big
  | dead
  deriving DecidableEq, Repr

/-- R326, R333: what the network interface injects: the k-th of the released operations of the message lane, or words of a queue
channel of the task of a frame, on the reply channel. -/
inductive InjSel where
  | message (k : Nat)
  | words (frame : Nat)
  deriving DecidableEq, Repr

/-- R228, R241, R275: which of what is under way has ended, and how. -/
structure SendAns where
  k : Nat
  how : SendEnd
  deriving DecidableEq, Repr

/-- R328, R329: what the head flit of a pip carries besides its promise: the messages injected before it, and its partition. -/
structure PipHead where
  after : Nat
  part : BitVec 6
  deriving DecidableEq, Repr

/-- R328, R335: who sends words on a queue channel. -/
structure Sender where
  core : BitVec 13
  part : BitVec 6
  deriving DecidableEq, Repr

/-- R154, R398: a register in which a parity error is found: a general one, or a vector register. -/
structure RegRef where
  vec : Bool
  r : BitVec 4
  deriving DecidableEq, Repr

/-- R20, R403: a link: between two clusters, a mesh or butterfly link or a die-to-die bridge; the bridge of a die to the hub die; a
Wilwick port. -/
inductive LinkSel where
  | clusters (x y : BitVec 6)
  | hub (die : BitVec 2)
  | wilwick (port : BitVec 4)
  deriving DecidableEq, Repr

/-- R400: what a scrub read finds in its burst. -/
inductive ScrubFind where
  | clean
  | single (pa : Nat)
  | double (pa : Nat)
  deriving DecidableEq, Repr

end Sys2Proof
end

