-- ==== Sys2Proof/Syntax.lean ====
section
/-! DEFINITION. The instruction set as syntax: one constructor for each row of the opcode table (R88, and the step rows
of 95_what_each_step_holds.md, which have no encoding and whose operands are what other agents supply). Register fields
keep the width of the word; the namespaces of R80, R83 and R84 are checked by WellFormed. -/

namespace Sys2Proof

inductive Instr where
  -- opcode 0x01 (R101)
  | add (a b c : Fld) | sub (a b c : Fld) | and (a b c : Fld) | or (a b c : Fld) | xor (a b c : Fld)
  | andn (a b c : Fld) | sll (a b c : Fld) | srl (a b c : Fld) | sra (a b c : Fld) | rol (a b c : Fld)
  | ror (a b c : Fld) | slt (a b c : Fld) | sltn (a b c : Fld) | min (a b c : Fld) | max (a b c : Fld)
  | minn (a b c : Fld) | maxn (a b c : Fld) | clz (a b : Fld) | ctz (a b : Fld) | popc (a b : Fld)
  | bswap (a b : Fld) | sel (a b c m : Fld)
  -- opcode 0x02 (R102, R103)
  | mul (a b c : Fld) | mulh (a b c : Fld) | mulhn (a b c : Fld) | div (a b c : Fld) | divn (a b c : Fld)
  | rem (a b c : Fld) | remn (a b c : Fld) | clmul (a b c : Fld) | clmulh (a b c : Fld)
  -- opcodes 0x03 to 0x0B (R104, R105)
  | addi (a b : Fld) (i : BitVec 16) | andi (a b : Fld) (i : BitVec 16) | ori (a b : Fld) (i : BitVec 16)
  | xori (a b : Fld) (i : BitVec 16) | slti (a b : Fld) (i : BitVec 16) | sltin (a b : Fld) (i : BitVec 16)
  | slli (a b : Fld) (n : BitVec 6) | srli (a b : Fld) (n : BitVec 6) | srai (a b : Fld) (n : BitVec 6)
  | roli (a b : Fld) (n : BitVec 6) | lhi (a : Fld) (i : BitVec 21) | pchi (a : Fld) (i : BitVec 21)
  -- opcodes 0x0C to 0x13 (R107 to R109)
  | jal (o : BitVec 26) | jalr (a b : Fld) (i : BitVec 14)
  | beq (a b : Fld) (o : BitVec 16) | bne (a b : Fld) (o : BitVec 16) | blt (a b : Fld) (o : BitVec 16)
  | bge (a b : Fld) (o : BitVec 16) | bltn (a b : Fld) (o : BitVec 16) | bgen (a b : Fld) (o : BitVec 16)
  -- opcodes 0x14 to 0x16 (R111)
  | ldp (a b : Fld) (sz : BitVec 2) (o : BitVec 14) | ldpx (a b : Fld) (sz : BitVec 2) (o : BitVec 14)
  | stp (a b : Fld) (sz : BitVec 2) (o : BitVec 14)
  -- opcodes 0x17 to 0x19 (R244)
  | ld (a b : Fld) (sz : BitVec 2) (p : BitVec 3) (na : Bool) (o : BitVec 10)
  | ldx (a b : Fld) (sz : BitVec 2) (p : BitVec 3) (na : Bool) (o : BitVec 10)
  | st (a b : Fld) (sz : BitVec 2) (p : BitVec 3) (o : BitVec 10)
  -- opcode 0x1A (R252)
  | amo (a b c : Fld) (op : BitVec 4) (p : BitVec 3) (s rl aq : Bool)
  -- opcode 0x1B (R246 to R257)
  | rel (p : BitVec 3) | acq (b : Fld) (p : BitVec 3) | acqTm (b c : Fld) (p : BitVec 3)
  | acqMap (b c : Fld) (p : BitVec 3) | acqBelow (b : Fld) (p : BitVec 3)
  | fence (d : Fld) (p : BitVec 3) | fenceF (d b c : Fld) (p : BitVec 3)
  | qfence (b : Fld) | logsn (a : Fld)
  -- opcode 0x1C (R285, R312)
  | send (a b c : Fld) (any x : Bool) | sendm (b : Fld) (any x : Bool) | sendc (a b : Fld) (x : Bool)
  | promise (b : Fld) | deposit (a b c : Fld) (x : Bool)
  | nred (a b c : Fld) (s : Bool) (op : BitVec 3) | nrwait (a b : Fld) (st : Bool)
  -- opcode 0x1D (R117, R319)
  | spawn (b c : Fld) (any : Bool) | wait (a b c : Fld) | migrate (b : Fld) (core : Bool)
  | setlah (a b c : Fld) | sweepW (a : Fld) | clmask (a b : Fld) | clunmask (a b : Fld)
  -- opcode 0x1E (R259)
  | binit (b : Fld) (n : BitVec 6) | barrive (a : Fld) (n : BitVec 6) (rl : Bool)
  | bwait (b : Fld) (n : BitVec 6) (aq : Bool) | btest (a : Fld) (n : BitVec 6)
  -- opcode 0x1F (R270)
  | sbind (a b : Fld) (tcm : Bool) | sunbind (a : Fld) | sstat (a b : Fld) (drain : Bool)
  | qbind (a b : Fld) | qunbind (a : Fld)
  -- opcode 0x20 (R277)
  | copy (b : Fld) | sgrun (b : Fld) | xstat (a b : Fld) (c : Bool) | xcancel (b : Fld)
  -- opcode 0x21 (R387)
  | blkref (a b : Fld) | blkrefNew (a b : Fld) | blkfree (a b : Fld) | blkcow (a b : Fld)
  | blkmoveTier (b c : Fld) | blkmoveGet (b : Fld) | blkmovePut (b : Fld) | blkstat (a b : Fld)
  -- opcode 0x22 (R114)
  | csrr (a : Fld) (n : BitVec 12) | csrw (a b : Fld) (n : BitVec 12) | csrset (a b : Fld) (n : BitVec 12)
  | csrclr (a b : Fld) (n : BitVec 12)
  -- opcode 0x23 (R121, R353, R356, R360, R379, R421)
  | trap (c : BitVec 15) | halt (b : Fld) | brk (c : BitVec 15) | dbgmark (b : Fld)
  | tlbinvPage (b c : Fld) | tlbinvAsid (c : Fld) | tlbinvVf (c : Fld)
  | asidset (a b : Fld) | asidsetNew (a b c : Fld) | swapwp (a b : Fld) | faultreply (a b c : Fld)
  | eread (a b : Fld)
  -- opcode 0x24 (R155); `f` is the format code, `s` .sat, `r` .rz, `m` .m, `n` .n
  | vadd (a b c : Fld) (s r m : Bool) (f : BitVec 3) | vsub (a b c : Fld) (s r m : Bool) (f : BitVec 3)
  | vmul (a b c : Fld) (s r m : Bool) (f : BitVec 3)
  | vmin (a b c : Fld) (n m : Bool) (f : BitVec 3) | vmax (a b c : Fld) (n m : Bool) (f : BitVec 3)
  | vfma (a b c d : Fld) (f : BitVec 3) | vfms (a b c d : Fld) (f : BitVec 3)
  | vabs (a b : Fld) (s m : Bool) (f : BitVec 3) | vneg (a b : Fld) (s m : Bool) (f : BitVec 3)
  -- opcode 0x25 (R156 to R158)
  | vand (a b c : Fld) (m : Bool) (f : BitVec 3) | vor (a b c : Fld) (m : Bool) (f : BitVec 3)
  | vxor (a b c : Fld) (m : Bool) (f : BitVec 3) | vshl (a b c : Fld) (m : Bool) (f : BitVec 3)
  | vshr (a b c : Fld) (n m : Bool) (f : BitVec 3)
  | vcmp (k : BitVec 3) (b c : Fld) (n m : Bool) (f : BitVec 3)
  | vsel (a b c : Fld) (f : BitVec 3) | vsetm (a b : Fld)
  -- opcode 0x26 (R159 to R161)
  | vcvt (a b : Fld) (e : BitVec 3) (p : BitVec 2) (s r : Bool) (f : BitVec 3)
  | vqnt (a b c : Fld) (p f : BitVec 3) | vdqnt (a b c : Fld) (p f : BitVec 3)
  -- opcode 0x27 (R162, R163)
  | vld (a b : Fld) (o : BitVec 10) | vst (a b : Fld) (o : BitVec 10)
  | vlds (a b : Fld) (o : BitVec 10) (p : BitVec 3) | vsts (a b : Fld) (o : BitVec 10) (p : BitVec 3)
  | vgath (a b c : Fld) (m : Bool) (f : BitVec 3) | vscat (a b c : Fld) (m : Bool) (f : BitVec 3)
  -- opcode 0x28 (R165)
  | vbcast (a b : Fld) (m : Bool) (f : BitVec 3) | vslide (a b c : Fld) (n : BitVec 5) (f : BitVec 3)
  | vperm (a b c : Fld) (m : Bool) (f : BitVec 3) | vins (a b c : Fld) (f : BitVec 3)
  | vext (a b c : Fld) (f : BitVec 3)
  -- opcode 0x29 (R166, R168)
  | vrsum (b : Fld) (m : Bool) (f : BitVec 3) | vrmax (b : Fld) (m : Bool) (f : BitVec 3)
  | vrmin (b : Fld) (m : Bool) (f : BitVec 3) | vramax (b : Fld) (m : Bool) (f : BitVec 3)
  | xget (a : Fld) (n : BitVec 4)
  -- opcode 0x2A (R169)
  | vtran (a b : Fld) (m : Bool) (g : BitVec 3)
  -- opcodes 0x2B to 0x2D (R181, R183, R188); `w` says that a barrier operand is given
  | mma (a b : Fld) (n : BitVec 6) (w : Bool) | mmas (a b : Fld) (n : BitVec 6) (w : Bool)
  | mzero (a : Fld) | mlatch (b : Fld) (n : BitVec 6) (w : Bool) | mrot (n : BitVec 6) | mstat (a : Fld)
  | mdrain (a b c : Fld) (s : Bool) (f : BitVec 3)
  -- opcodes 0x2E to 0x30 (R206); `k` and `l` are the .lr marks of fields B and C
  | fadd (a b c : Fld) (l k : Bool) | fsub (a b c : Fld) (l k : Bool) | fmul (a b c : Fld) (l k : Bool)
  | fscal (a b c : Fld) (k : Bool) | fcomp (a b c : Fld) (l k : Bool)
  | fint (a b : Fld) (k : Bool) | fdiff (a b : Fld) (k : Bool) | froot (a b : Fld) (k : Bool)
  | fext (a b : Fld) (k : Bool)
  | ffit (a b c : Fld) | feval (a b c : Fld) (m k : Bool) | fldc (a b : Fld) | fstc (b c : Fld) (k : Bool)
  | fdom (a b c : Fld) | ftrunc (a b c : Fld) (k : Bool) | fmov (a b : Fld) (k : Bool) | ffree (a : Fld)
  | flen (a b : Fld) (k : Bool)
  -- launch, sequencer and task steps (95_what_each_step_holds.md)
  | launchTake (q : BitVec 10) | messageArrival (m : Msg)
  | doneReceive (child : Nat) (status : BitVec 32) | migrationArrival (m : MigTask)
  | twatchExpiry (frame : Nat) | waitTimeout (frame : Nat)
  | granuleFill (frame : Nat) (g : Granule)
  -- column unit, reduction and matrix steps
  | vtranReply (frame : Nat) | xrWrite (frame : Nat)
  | accParityReplay (a : Bool)
  -- store log, homes and ordering steps
  | segmentShip (seg : Nat) | partApply (p : PartSel) | segmentAck (seg k : Nat) | homeLoad (l : LoadSel)
  | loadReply (frame k : Nat) | homeAmo (r : AmoSel) | amoReturn (frame k : Nat)
  | engineWrite (w : EngWrite) | inPlaceDeviceWrite (pa : Nat) (data : List Byte) | commitHorizon (h : BitVec 48)
  | acqRequest (reader : BitVec 13) (scope : BitVec 3)
  | acqAnswer (frame : Nat) (core : BitVec 13) (lines : List Nat)
  | barrierArrival (n : BitVec 6) (a : Arrival) | barrierWake (n : BitVec 6)
  -- stream, engine and reduction steps
  | streamFetch (frame : Nat) (k : BitVec 3) | streamDrain (frame : Nat) (k : BitVec 3)
  | engineOpStart (q : BitVec 4) | copyElement (q : BitVec 4) | chainElement (q : BitVec 4)
  | engineOpComplete (q : BitVec 4) | nredArrival (c : Contribution) | nredSlotTimeout (slot : Nat)
  | nredResult (r : NredRes)
  -- virtual-time steps
  | pipSend (l : Nat) | pipArrival (l prom : Nat) (hd : PipHead) | askSend (l : Nat)
  | askArrival (l carried : Nat) | sweepStart (colour : Bool)
  | sweepReport (child : Nat) (f : SweepFig) | sweepEnd (h commit : BitVec 48)
  | depositArrival (d : Deposit)
  | channelWordsArrival (ch : BitVec 3) (src : Sender) (words : List Word) | creditReturn (q : BitVec 3) (n : Nat)
  | deadLinkReroute (dest : BitVec 10) (reduction lost : Bool)
  -- translation, energy, partition and host steps
  | pageWalk (who : WalkFor) | faultMessage (f : FaultSel) | faultReplyArrival (token : Word) (retry : Bool)
  | refreshEnergyCharge (measured pages : Nat)
  | partitionReset (v : BitVec 6) | clasgWrite (c : BitVec 6) (v : Word)
  | wqcfgWrite (q : BitVec 10) (v : Word) | equotaWrite (f : BitVec 6) (v : Word) | estatResume (f : BitVec 6)
  | loadcmdWrite (f : BitVec 6) (v : Word) | hostRegisterWrite (f : BitVec 6) (off : BitVec 16) (v : Word)
  -- debug steps
  -- block-table steps
  -- error and service steps
  | parityReplay (frame : Nat) (x : RegRef) | scrub (f : ScrubFind) | flitCrcError (l : LinkSel) (within : Bool)
  | pairHashCompare (h : BitVec 64)
  | unassignedEncoding (w : IWord) | sendAccepted (a : SendAns)
  | primaryValueForward (r : BitVec 4) (v : Word)
  | cxlMemAccess (pa : Nat) (write : Option (List Byte))
  -- the instructions and steps without operands stand last (Lean numbers constructors with fields up to 244)
  | logdrop | endTask | yield | sweep | uret | eret | tlbinvHarvest | candidateRelease | doneSend | preemption
  | contextRestore | engineTrapDelivery | completionInterrupt | completionActivation | matrixCmdStart
  | matrixCmdComplete | mrotRotate | granuleRelease | flagWrite | acqSweepRequest | sweepwaitExpiry | sweepRequest
  | sweepRecount | holdingQueueDrain | brambleCopy | brambleReplay | dirtyLogMerge | energyFold | quantumExpiry
  | resetDrainComplete | dbgHalt | dbgResume | dbgStep | dbgSync | breakBitStop | pcMatchHandler | shadowTimeout
  | sampleRecord | blockEntryStep | blkmoveTransferEnd | blkmoveTierCommit | errorConsumed | activationRedelivery
  | pairTimeout | coreSpareSwap | columnSpareSwap | hbmLaneSpare | tileRetire | bringup | hbmRetrain
  | checkpointWriteback | packetInjection
  deriving DecidableEq, Repr

end Sys2Proof
end

