-- ==== Sys2Proof/WellFormed.lean ====
section
/-! DEFINITION. Which instructions an encoding admits: the operand namespaces of R80, R83 and R84, the formats, sizes and
options each description lists, and the assigned control registers (R90, R93). What fails here raises ILLEGAL at decode. -/

namespace Sys2Proof

/-- R80: a scalar source; q1 (25) cannot be read. -/
def srcOk (f : Fld) : Bool := f != 25
/-- R80: a scalar destination; q0 (24) cannot be written. -/
def dstOk (f : Fld) : Bool := f != 24
/-- w0 to w15 only. -/
def wOk (f : Fld) : Bool := f < 16
/-- R83: a vector destination written whole: v0-v15 or s0-s7. -/
def vdOk (f : Fld) : Bool := f < 24
/-- R150: a vector destination, which must be v0-v15 when the instruction runs masked or writes a part. -/
def vdmOk (f : Fld) (part : Bool) : Bool := if part then f < 16 else f < 24
/-- R84: f0 to f7. -/
def fOk (f : Fld) : Bool := f < 8
/-- R84: acc0 and acc1. -/
def accOk (f : Fld) : Bool := f < 2
/-- R270: s0 to s7. -/
def streamOk (f : Fld) : Bool := 16 ≤ f && f < 24
/-- R270: q2 to q7. -/
def queueOk (f : Fld) : Bool := 26 ≤ f

/-- R126: the floating formats FP32, BF16, FP16. -/
def isFloat3 (f : BitVec 3) : Bool := f < 3
/-- R126: any floating format. -/
def isFloat (f : BitVec 3) : Bool := f < 5
/-- R126: I8 or I32. -/
def isIntFmt (f : BitVec 3) : Bool := f == 5 || f == 6
/-- R155: the formats of the arithmetic, compare and reduction instructions. -/
def arithFmt (f : BitVec 3) : Bool := isFloat3 f || isIntFmt f
/-- R156: formats 0 to 6. -/
def notNq4 (f : BitVec 3) : Bool := f != 7

/-- R126: width in bits of a format code. -/
def fmtWidth (f : BitVec 3) : Nat :=
  match f.toNat with
  | 0 => 32 | 1 => 16 | 2 => 16 | 3 => 8 | 4 => 8 | 5 => 8 | 6 => 32 | _ => 4

/-- R159: the part number is below the width ratio. -/
def partOk (e f : BitVec 3) (p : BitVec 2) : Bool :=
  p.toNat < Nat.max (fmtWidth e) (fmtWidth f) / Nat.min (fmtWidth e) (fmtWidth f)

/-- R160: p runs to 7 for FP32 and to 3 for BF16 and FP16. -/
def nqPartOk (f p : BitVec 3) : Bool := isFloat3 f && (f == 0 || p < 4)

/-- R93: the assigned control-register numbers. -/
def csrAssigned (n : BitVec 12) : Bool :=
  n ≤ 0x00A || (0x010 ≤ n && n ≤ 0x017) || (0x100 ≤ n && n ≤ 0x105) || (0x200 ≤ n && n ≤ 0x201)
    || (0x300 ≤ n && n ≤ 0x304) || (0x400 ≤ n && n ≤ 0x402) || (0x500 ≤ n && n ≤ 0x501)
    || (0x600 ≤ n && n ≤ 0x601) || n == 0x700 || (0x710 ≤ n && n ≤ 0x71F) || (0xF00 ≤ n && n ≤ 0xF07)

/-- The steps of 95_what_each_step_holds.md that no word encodes. -/
def Instr.isStep : Instr → Bool
  | .launchTake .. | .messageArrival .. | .candidateRelease | .doneSend | .doneReceive .. | .migrationArrival ..
  | .twatchExpiry .. | .waitTimeout .. | .preemption | .contextRestore | .granuleFill .. | .engineTrapDelivery
  | .completionInterrupt | .completionActivation | .vtranReply .. | .xrWrite .. | .matrixCmdStart
  | .matrixCmdComplete | .mrotRotate | .accParityReplay .. | .granuleRelease | .segmentShip .. | .partApply ..
  | .segmentAck .. | .homeLoad .. | .loadReply .. | .homeAmo .. | .amoReturn .. | .flagWrite | .engineWrite ..
  | .inPlaceDeviceWrite .. | .commitHorizon .. | .acqRequest .. | .acqAnswer .. | .acqSweepRequest
  | .barrierArrival .. | .barrierWake .. | .streamFetch .. | .streamDrain .. | .engineOpStart .. | .copyElement ..
  | .chainElement .. | .engineOpComplete .. | .nredArrival .. | .nredSlotTimeout .. | .nredResult .. | .pipSend ..
  | .pipArrival .. | .askSend .. | .askArrival .. | .sweepwaitExpiry | .sweepRequest | .sweepStart ..
  | .sweepReport .. | .sweepRecount | .sweepEnd .. | .holdingQueueDrain | .brambleCopy | .brambleReplay
  | .depositArrival .. | .channelWordsArrival .. | .creditReturn .. | .deadLinkReroute .. | .pageWalk ..
  | .faultMessage .. | .faultReplyArrival .. | .dirtyLogMerge | .energyFold | .refreshEnergyCharge ..
  | .quantumExpiry | .partitionReset .. | .resetDrainComplete | .clasgWrite .. | .wqcfgWrite ..
  | .equotaWrite .. | .estatResume .. | .loadcmdWrite .. | .hostRegisterWrite .. | .dbgHalt | .dbgResume
  | .dbgStep | .dbgSync | .breakBitStop | .pcMatchHandler | .shadowTimeout | .sampleRecord | .blockEntryStep
  | .blkmoveTransferEnd | .blkmoveTierCommit | .parityReplay .. | .scrub .. | .flitCrcError .. | .errorConsumed
  | .activationRedelivery | .pairHashCompare .. | .pairTimeout | .coreSpareSwap | .columnSpareSwap
  | .hbmLaneSpare | .tileRetire | .bringup | .hbmRetrain | .unassignedEncoding .. | .packetInjection
  | .sendAccepted .. | .primaryValueForward .. | .checkpointWriteback | .cxlMemAccess .. => true
  | _ => false

/-- R90: the operand fields of an encoded instruction are of the classes its description accepts, and its format, size,
scope and option bits are ones the description lists. A step row has no fields to check. -/
def Instr.wf : Instr → Bool
  | .add a b c | .sub a b c | .and a b c | .or a b c | .xor a b c | .andn a b c | .sll a b c | .srl a b c
  | .sra a b c | .rol a b c | .ror a b c | .slt a b c | .sltn a b c | .min a b c | .max a b c | .minn a b c
  | .maxn a b c | .mul a b c | .mulh a b c | .mulhn a b c | .div a b c | .divn a b c | .rem a b c | .remn a b c
  | .clmul a b c | .clmulh a b c => dstOk a && srcOk b && srcOk c
  | .clz a b | .ctz a b | .popc a b | .bswap a b => dstOk a && srcOk b
  | .sel a b c m => dstOk a && srcOk b && srcOk c && srcOk m
  | .addi a b _ | .andi a b _ | .ori a b _ | .xori a b _ | .slti a b _ | .sltin a b _ => dstOk a && srcOk b
  | .slli a b _ | .srli a b _ | .srai a b _ | .roli a b _ => dstOk a && srcOk b
  | .lhi a _ | .pchi a _ => dstOk a
  | .jal _ => true
  | .jalr a b _ => dstOk a && wOk b
  | .beq a b _ | .bne a b _ | .blt a b _ | .bge a b _ | .bltn a b _ | .bgen a b _ => srcOk a && srcOk b
  | .ldp a b _ _ => dstOk a && wOk b
  | .ldpx a b sz _ => dstOk a && wOk b && sz != 3
  | .stp a b _ _ => srcOk a && wOk b
  | .ld a b _ _ _ _ => dstOk a && wOk b
  | .ldx a b sz _ _ _ => dstOk a && wOk b && sz != 3
  | .st a b _ _ _ => srcOk a && wOk b
  | .amo a b c op _ s _ _ =>
    dstOk a && wOk b && srcOk c && op < 11 && (op != 10 || s) && (op != 9 || srcOk a)
  | .rel _ => true
  | .acq b _ | .acqBelow b _ => wOk b
  | .acqTm b c _ | .acqMap b c _ => wOk b && wOk c
  | .fence d _ => dstOk d
  | .fenceF d b c _ => dstOk d && wOk b && srcOk c
  | .qfence b => wOk b
  | .logsn a => dstOk a
  | .logdrop => true
  | .send a b c _ _ | .deposit a b c _ => wOk a && wOk b && wOk c
  | .sendm b _ _ | .promise b => wOk b
  | .sendc a b _ => wOk a && wOk b
  | .nred a b c s op => wOk a && wOk b && wOk c && (op < 5 || s)
  | .nrwait a b _ => wOk a && wOk b
  | .spawn b c _ => wOk b && wOk c
  | .endTask | .yield | .sweep => true
  | .wait a b c | .setlah a b c => wOk a && wOk b && wOk c
  | .migrate b _ => wOk b
  | .sweepW a => wOk a
  | .clmask a b | .clunmask a b => wOk a && wOk b
  | .binit b _ | .bwait b _ _ => wOk b
  | .barrive a _ _ | .btest a _ => wOk a
  | .sbind a b _ => streamOk a && wOk b
  | .sunbind a => streamOk a
  | .sstat a b _ => dstOk a && streamOk b
  | .qbind a b => queueOk a && wOk b
  | .qunbind a => queueOk a
  | .copy b | .sgrun b | .xcancel b => wOk b
  | .xstat a b c => dstOk a && wOk b && (!c || b == 0)
  | .uret => true
  | .blkref a b | .blkrefNew a b | .blkfree a b | .blkcow a b | .blkstat a b => wOk a && wOk b
  | .blkmoveTier b c => wOk b && wOk c
  | .blkmoveGet b | .blkmovePut b => wOk b
  | .csrr a n => dstOk a && csrAssigned n
  | .csrw a b n | .csrset a b n | .csrclr a b n => dstOk a && srcOk b && csrAssigned n
  | .trap _ | .eret | .brk _ | .tlbinvHarvest => true
  | .halt b | .dbgmark b => wOk b
  | .tlbinvPage b c => wOk b && wOk c
  | .tlbinvAsid c | .tlbinvVf c => wOk c
  | .asidset a b | .swapwp a b | .eread a b => wOk a && wOk b
  | .asidsetNew a b c | .faultreply a b c => wOk a && wOk b && wOk c
  | .vadd a _ _ _ r m f | .vsub a _ _ _ r m f | .vmul a _ _ _ r m f =>
    vdmOk a m && arithFmt f && (!r || isFloat3 f)
  | .vmin a _ _ n m f | .vmax a _ _ n m f => vdmOk a m && arithFmt f && (!n || isIntFmt f)
  | .vfma a _ _ _ f | .vfms a _ _ _ f => vdOk a && arithFmt f
  | .vabs a _ s m f | .vneg a _ s m f => vdmOk a m && arithFmt f && (!s || isIntFmt f)
  | .vand a _ _ m f | .vor a _ _ m f | .vxor a _ _ m f => vdmOk a m && notNq4 f
  | .vshl a _ _ m f | .vshr a _ _ _ m f => vdmOk a m && isIntFmt f
  | .vcmp k _ _ n _ f => k != 7 && arithFmt f && (!n || isIntFmt f)
  | .vsel a _ _ f => vdOk a && notNq4 f
  | .vsetm a b => dstOk a && srcOk b
  | .vcvt a _ e p _ r f =>
    notNq4 e && notNq4 f && partOk e f p && vdmOk a (fmtWidth f < fmtWidth e) && (!r || isFloat e || isFloat f)
  | .vqnt a _ _ p f => vdmOk a true && nqPartOk f p
  | .vdqnt a _ _ p f => vdOk a && nqPartOk f p
  | .vld a b _ | .vlds a b _ _ => vdOk a && wOk b
  | .vst _ b _ | .vsts _ b _ _ => wOk b
  | .vgath a b _ m f => vdmOk a m && wOk b && notNq4 f
  | .vscat _ b _ _ f => wOk b && notNq4 f
  | .vbcast a b m f => vdmOk a m && srcOk b && notNq4 f
  | .vslide a _ _ n f => vdOk a && notNq4 f && (fmtWidth f != 32 || n ≤ 16)
  | .vperm a _ _ m f => vdmOk a m && notNq4 f
  | .vins a b c f => vdmOk a true && srcOk b && srcOk c && notNq4 f
  | .vext a _ c f => dstOk a && srcOk c && notNq4 f
  | .vrsum _ _ f | .vrmax _ _ f | .vrmin _ _ f | .vramax _ _ f => arithFmt f
  | .xget a _ => dstOk a
  | .vtran a _ m _ => vdmOk a m
  | .mma a b n w | .mmas a b n w => accOk a && wOk b && (w || n == 0)
  | .mzero a => accOk a
  | .mlatch b n w => wOk b && (w || n == 0)
  | .mrot _ => true
  | .mstat a => dstOk a
  | .mdrain a b c _ f => accOk a && wOk b && wOk c && notNq4 f
  | .fadd a b c _ _ | .fsub a b c _ _ | .fmul a b c _ _ | .fcomp a b c _ _ => fOk a && fOk b && fOk c
  | .fscal a b c _ | .ftrunc a b c _ => fOk a && fOk b && srcOk c
  | .fint a b _ | .fdiff a b _ | .fmov a b _ => fOk a && fOk b
  | .froot a b _ => vdOk a && fOk b
  | .fext a b _ | .flen a b _ => dstOk a && fOk b
  | .ffit a b c => fOk a && wOk b && srcOk c
  | .feval a b _ m _ => vdmOk a m && fOk b
  | .fldc a b => fOk a && wOk b
  | .fstc b c _ => fOk b && wOk c
  | .fdom a b c => fOk a && srcOk b && srcOk c
  | .ffree a => fOk a
  | i => i.isStep

end Sys2Proof
end

