-- ==== Sys2Proof/Decode.lean ====
section
/-! DEFINITION. Decoding of instruction words (R85 to R90) and the encoder, both written from the format tables of R85 and
the opcode map of R88. `decode` is total: what it refuses, it refuses by name. -/

namespace Sys2Proof

/-- Why a word encodes no instruction (R90). -/
inductive DecodeError where
  /-- major opcode 0x00 or 0x31 to 0x3F -/
  | opcode
  /-- a sub-operation, function or mod value that R87 and R88 do not list -/
  | function
  /-- a nonzero required-zero field -/
  | requiredZero
  /-- a register class, format, size, option or control-register number that the instruction does not accept -/
  | operand
  deriving DecidableEq, Repr

/-- R85: the fields of a word. -/
def opc (w : IWord) : BitVec 6 := w.extractLsb' 26 6
def fA (w : IWord) : Fld := w.extractLsb' 21 5
def fB (w : IWord) : Fld := w.extractLsb' 16 5
def fC (w : IWord) : Fld := w.extractLsb' 11 5
/-- format V: the field O at [10:6] -/
def fO (w : IWord) : Fld := w.extractLsb' 6 5
def bitAt (w : IWord) (k : Nat) : Bool := w.getLsbD k
/-- R84: a barrier operand, bits [4:0] in field C and bit 5 in flag [3] -/
def fBar (w : IWord) : BitVec 6 := (w.extractLsb' 3 1 ++ w.extractLsb' 11 5 : BitVec 6)

/-- R85, format R. -/
def fmtR (op : BitVec 6) (a b c : Fld) (sub : BitVec 6) (m : BitVec 5) : IWord := op ++ a ++ b ++ c ++ sub ++ m
/-- R85, formats I and B. -/
def fmtI (op : BitVec 6) (a b : Fld) (i : BitVec 16) : IWord := op ++ a ++ b ++ i
/-- R85, format MP. -/
def fmtMP (op : BitVec 6) (a b : Fld) (sz : BitVec 2) (o : BitVec 14) : IWord := op ++ a ++ b ++ sz ++ o
/-- R85, format MS. -/
def fmtMS (op : BitVec 6) (a b : Fld) (sz : BitVec 2) (p : BitVec 3) (n : Bool) (o : BitVec 10) : IWord :=
  op ++ a ++ b ++ sz ++ p ++ BitVec.ofBool n ++ o
/-- R85, format J. -/
def fmtJ (op : BitVec 6) (o : BitVec 26) : IWord := op ++ o
/-- R85, format U. -/
def fmtU (op : BitVec 6) (a : Fld) (i : BitVec 21) : IWord := op ++ a ++ i
/-- R85, format V. -/
def fmtV (op : BitVec 6) (a b c o : Fld) (f m : BitVec 3) : IWord := op ++ a ++ b ++ c ++ o ++ f ++ m
/-- R85, format X. -/
def fmtX (op : BitVec 6) (a b c : Fld) (fn : BitVec 4) (p : BitVec 3) (fl : BitVec 4) : IWord :=
  op ++ a ++ b ++ c ++ fn ++ p ++ fl
/-- R85, format C. -/
def fmtC (op : BitVec 6) (a b : Fld) (n : BitVec 12) (fl : BitVec 4) : IWord := op ++ a ++ b ++ n ++ fl

/-- R84: an X-format word whose field C and flag [3] hold a barrier operand. -/
def fmtBar (op : BitVec 6) (a b : Fld) (n : BitVec 6) (fn : BitVec 4) (fl : BitVec 3) : IWord :=
  fmtX op a b (n.extractLsb' 0 5) fn 0 (n.extractLsb' 5 1 ++ fl : BitVec 4)

/-- Four flag bits, [3] first. -/
def fl4 (a b c d : Bool) : BitVec 4 := BitVec.ofBool a ++ BitVec.ofBool b ++ BitVec.ofBool c ++ BitVec.ofBool d
def fl3 (a b c : Bool) : BitVec 3 := BitVec.ofBool a ++ BitVec.ofBool b ++ BitVec.ofBool c
/-- R152: the options of field O, [9] .n first. -/
def optO (n s r m : Bool) : Fld :=
  0#1 ++ BitVec.ofBool n ++ BitVec.ofBool s ++ BitVec.ofBool r ++ BitVec.ofBool m

/-- R84 to R88: the word of an instruction. A step row has no word: it encodes as 0x0000_0000, which no instruction has. -/
def encode : Instr → IWord
  | .add a b c => fmtR 0x01 a b c 0x00 0 | .sub a b c => fmtR 0x01 a b c 0x01 0
  | .and a b c => fmtR 0x01 a b c 0x02 0 | .or a b c => fmtR 0x01 a b c 0x03 0
  | .xor a b c => fmtR 0x01 a b c 0x04 0 | .andn a b c => fmtR 0x01 a b c 0x05 0
  | .sll a b c => fmtR 0x01 a b c 0x06 0 | .srl a b c => fmtR 0x01 a b c 0x07 0
  | .sra a b c => fmtR 0x01 a b c 0x08 0 | .rol a b c => fmtR 0x01 a b c 0x09 0
  | .ror a b c => fmtR 0x01 a b c 0x0A 0 | .slt a b c => fmtR 0x01 a b c 0x0B 0
  | .sltn a b c => fmtR 0x01 a b c 0x0C 0 | .min a b c => fmtR 0x01 a b c 0x0D 0
  | .max a b c => fmtR 0x01 a b c 0x0E 0 | .minn a b c => fmtR 0x01 a b c 0x0F 0
  | .maxn a b c => fmtR 0x01 a b c 0x10 0 | .clz a b => fmtR 0x01 a b 0 0x11 0
  | .ctz a b => fmtR 0x01 a b 0 0x12 0 | .popc a b => fmtR 0x01 a b 0 0x13 0
  | .bswap a b => fmtR 0x01 a b 0 0x14 0 | .sel a b c m => fmtR 0x01 a b c 0x15 m
  | .mul a b c => fmtR 0x02 a b c 0x00 0 | .mulh a b c => fmtR 0x02 a b c 0x01 0
  | .mulhn a b c => fmtR 0x02 a b c 0x02 0 | .div a b c => fmtR 0x02 a b c 0x03 0
  | .divn a b c => fmtR 0x02 a b c 0x04 0 | .rem a b c => fmtR 0x02 a b c 0x05 0
  | .remn a b c => fmtR 0x02 a b c 0x06 0 | .clmul a b c => fmtR 0x02 a b c 0x07 0
  | .clmulh a b c => fmtR 0x02 a b c 0x08 0
  | .addi a b i => fmtI 0x03 a b i | .andi a b i => fmtI 0x04 a b i | .ori a b i => fmtI 0x05 a b i
  | .xori a b i => fmtI 0x06 a b i | .slti a b i => fmtI 0x07 a b i | .sltin a b i => fmtI 0x08 a b i
  | .slli a b n => fmtI 0x09 a b (0#8 ++ 0#2 ++ n : BitVec 16)
  | .srli a b n => fmtI 0x09 a b (0#8 ++ 1#2 ++ n : BitVec 16)
  | .srai a b n => fmtI 0x09 a b (0#8 ++ 2#2 ++ n : BitVec 16)
  | .roli a b n => fmtI 0x09 a b (0#8 ++ 3#2 ++ n : BitVec 16)
  | .lhi a i => fmtU 0x0A a i | .pchi a i => fmtU 0x0B a i
  | .jal o => fmtJ 0x0C o | .jalr a b i => fmtI 0x0D a b (i ++ 0#2 : BitVec 16)
  | .beq a b o => fmtI 0x0E a b o | .bne a b o => fmtI 0x0F a b o | .blt a b o => fmtI 0x10 a b o
  | .bge a b o => fmtI 0x11 a b o | .bltn a b o => fmtI 0x12 a b o | .bgen a b o => fmtI 0x13 a b o
  | .ldp a b sz o => fmtMP 0x14 a b sz o | .ldpx a b sz o => fmtMP 0x15 a b sz o
  | .stp a b sz o => fmtMP 0x16 a b sz o
  | .ld a b sz p n o => fmtMS 0x17 a b sz p n o | .ldx a b sz p n o => fmtMS 0x18 a b sz p n o
  | .st a b sz p o => fmtMS 0x19 a b sz p false o
  | .amo a b c op p s rl aq => fmtX 0x1A a b c op p (fl4 false s rl aq)
  | .rel p => fmtX 0x1B 0 0 0 0x0 p 0
  | .acq b p => fmtX 0x1B 0 b 0 0x1 p 0 | .acqTm b c p => fmtX 0x1B 0 b c 0x1 p 1
  | .acqMap b c p => fmtX 0x1B 0 b c 0x1 p 2 | .acqBelow b p => fmtX 0x1B 0 b 0 0x1 p 3
  | .fence d p => fmtX 0x1B d 0 0 0x2 p 0 | .fenceF d b c p => fmtX 0x1B d b c 0x2 p 1
  | .qfence b => fmtX 0x1B 0 b 0 0x3 0 0 | .logsn a => fmtX 0x1B a 0 0 0x4 0 0
  | .logdrop => fmtX 0x1B 0 0 0 0x5 0 0
  | .send a b c y x => fmtX 0x1C a b c 0x0 0 (fl4 false false y x)
  | .sendm b y x => fmtX 0x1C 0 b 0 0x1 0 (fl4 false false y x)
  | .sendc a b x => fmtX 0x1C a b 0 0x2 0 (fl4 false false false x)
  | .promise b => fmtX 0x1C 0 b 0 0x3 0 0
  | .deposit a b c x => fmtX 0x1C a b c 0x4 0 (fl4 false false false x)
  | .nred a b c s op => fmtX 0x1C a b c 0x5 0 (BitVec.ofBool s ++ op : BitVec 4)
  | .nrwait a b t => fmtX 0x1C a b 0 0x6 0 (fl4 false false false t)
  | .spawn b c y => fmtX 0x1D 0 b c 0x0 0 (fl4 false false y false)
  | .endTask => fmtX 0x1D 0 0 0 0x1 0 0 | .yield => fmtX 0x1D 0 0 0 0x2 0 0
  | .wait a b c => fmtX 0x1D a b c 0x3 0 0
  | .migrate b c => fmtX 0x1D 0 b 0 0x4 0 (fl4 false false false c)
  | .setlah a b c => fmtX 0x1D a b c 0x5 0 0
  | .sweep => fmtX 0x1D 0 0 0 0x6 0 0 | .sweepW a => fmtX 0x1D a 0 0 0x6 0 1
  | .clmask a b => fmtX 0x1D a b 0 0x7 0 0 | .clunmask a b => fmtX 0x1D a b 0 0x8 0 0
  | .binit b n => fmtBar 0x1E 0 b n 0x0 0 | .barrive a n r => fmtBar 0x1E a 0 n 0x1 (fl3 false false r)
  | .bwait b n q => fmtBar 0x1E 0 b n 0x2 (fl3 false false q) | .btest a n => fmtBar 0x1E a 0 n 0x3 0
  | .sbind a b t => fmtX 0x1F a b 0 0x0 0 (fl4 false false false t)
  | .sunbind a => fmtX 0x1F a 0 0 0x1 0 0
  | .sstat a b d => fmtX 0x1F a b 0 0x2 0 (fl4 false false false d)
  | .qbind a b => fmtX 0x1F a b 0 0x3 0 0 | .qunbind a => fmtX 0x1F a 0 0 0x4 0 0
  | .copy b => fmtX 0x20 0 b 0 0x0 0 0 | .sgrun b => fmtX 0x20 0 b 0 0x1 0 0
  | .xstat a b c => fmtX 0x20 a b 0 0x2 0 (fl4 false false false c)
  | .xcancel b => fmtX 0x20 0 b 0 0x3 0 0 | .uret => fmtX 0x20 0 0 0 0x4 0 0
  | .blkref a b => fmtX 0x21 a b 0 0x0 0 0 | .blkrefNew a b => fmtX 0x21 a b 0 0x0 0 1
  | .blkfree a b => fmtX 0x21 a b 0 0x1 0 0 | .blkcow a b => fmtX 0x21 a b 0 0x2 0 0
  | .blkmoveTier b c => fmtX 0x21 0 b c 0x3 0 0 | .blkmoveGet b => fmtX 0x21 0 b 0 0x3 0 1
  | .blkmovePut b => fmtX 0x21 0 b 0 0x3 0 2 | .blkstat a b => fmtX 0x21 a b 0 0x4 0 0
  | .csrr a n => fmtC 0x22 a 0 n 0 | .csrw a b n => fmtC 0x22 a b n 1
  | .csrset a b n => fmtC 0x22 a b n 2 | .csrclr a b n => fmtC 0x22 a b n 3
  | .trap c => fmtX 0x23 (c.extractLsb' 10 5) (c.extractLsb' 5 5) (c.extractLsb' 0 5) 0x0 0 0
  | .eret => fmtX 0x23 0 0 0 0x1 0 0 | .halt b => fmtX 0x23 0 b 0 0x2 0 0
  | .brk c => fmtX 0x23 (c.extractLsb' 10 5) (c.extractLsb' 5 5) (c.extractLsb' 0 5) 0x3 0 0
  | .dbgmark b => fmtX 0x23 0 b 0 0x4 0 0
  | .tlbinvPage b c => fmtX 0x23 0 b c 0x5 0 0 | .tlbinvAsid c => fmtX 0x23 0 0 c 0x5 0 1
  | .tlbinvVf c => fmtX 0x23 0 0 c 0x5 0 2 | .tlbinvHarvest => fmtX 0x23 0 0 0 0x5 0 3
  | .asidset a b => fmtX 0x23 a b 0 0x6 0 0 | .asidsetNew a b c => fmtX 0x23 a b c 0x6 0 1
  | .swapwp a b => fmtX 0x23 a b 0 0x7 0 0 | .faultreply a b c => fmtX 0x23 a b c 0x8 0 0
  | .eread a b => fmtX 0x23 a b 0 0x9 0 0
  | .vadd a b c s r m f => fmtV 0x24 a b c (optO false s r m) f 0
  | .vsub a b c s r m f => fmtV 0x24 a b c (optO false s r m) f 1
  | .vmul a b c s r m f => fmtV 0x24 a b c (optO false s r m) f 2
  | .vmin a b c n m f => fmtV 0x24 a b c (optO n false false m) f 3
  | .vmax a b c n m f => fmtV 0x24 a b c (optO n false false m) f 4
  | .vfma a b c d f => fmtV 0x24 a b c d f 5 | .vfms a b c d f => fmtV 0x24 a b c d f 6
  | .vabs a b s m f => fmtV 0x24 a b 0 (optO false s false m) f 7
  | .vneg a b s m f => fmtV 0x24 a b 1 (optO false s false m) f 7
  | .vand a b c m f => fmtV 0x25 a b c (optO false false false m) f 0
  | .vor a b c m f => fmtV 0x25 a b c (optO false false false m) f 1
  | .vxor a b c m f => fmtV 0x25 a b c (optO false false false m) f 2
  | .vshl a b c m f => fmtV 0x25 a b c (optO false false false m) f 3
  | .vshr a b c n m f => fmtV 0x25 a b c (optO n false false m) f 4
  | .vcmp k b c n m f => fmtV 0x25 (0#2 ++ k : Fld) b c (optO n false false m) f 5
  | .vsel a b c f => fmtV 0x25 a b c 0 f 6 | .vsetm a b => fmtV 0x25 a b 0 0 0 7
  | .vcvt a b e p s r f => fmtV 0x26 a b (e ++ p : Fld) (optO false s r false) f 0
  | .vqnt a b c p f => fmtV 0x26 a b c (0#2 ++ p : Fld) f 1
  | .vdqnt a b c p f => fmtV 0x26 a b c (0#2 ++ p : Fld) f 2
  | .vld a b o => fmtV 0x27 a b (o.extractLsb' 5 5) (o.extractLsb' 0 5) 0 0
  | .vst a b o => fmtV 0x27 a b (o.extractLsb' 5 5) (o.extractLsb' 0 5) 0 1
  | .vlds a b o p => fmtV 0x27 a b (o.extractLsb' 5 5) (o.extractLsb' 0 5) p 2
  | .vsts a b o p => fmtV 0x27 a b (o.extractLsb' 5 5) (o.extractLsb' 0 5) p 3
  | .vgath a b c m f => fmtV 0x27 a b c (optO false false false m) f 4
  | .vscat a b c m f => fmtV 0x27 a b c (optO false false false m) f 5
  | .vbcast a b m f => fmtV 0x28 a b 0 (optO false false false m) f 0
  | .vslide a b c n f => fmtV 0x28 a b c n f 1
  | .vperm a b c m f => fmtV 0x28 a b c (optO false false false m) f 2
  | .vins a b c f => fmtV 0x28 a b c 0 f 3 | .vext a b c f => fmtV 0x28 a b c 0 f 4
  | .vrsum b m f => fmtV 0x29 0 b 0 (optO false false false m) f 0
  | .vrmax b m f => fmtV 0x29 0 b 0 (optO false false false m) f 1
  | .vrmin b m f => fmtV 0x29 0 b 0 (optO false false false m) f 2
  | .vramax b m f => fmtV 0x29 0 b 0 (optO false false false m) f 3
  | .xget a n => fmtV 0x29 a 0 0 (0#1 ++ n : Fld) 0 4
  | .vtran a b m g => fmtV 0x2A a b 0 (optO false false false m) 0 g
  | .mma a b n w => fmtBar 0x2B a b n 0x0 (fl3 false false w)
  | .mmas a b n w => fmtBar 0x2B a b n 0x1 (fl3 false false w)
  | .mzero a => fmtX 0x2C a 0 0 0x0 0 0 | .mlatch b n w => fmtBar 0x2C 0 b n 0x1 (fl3 false false w)
  | .mrot n => fmtBar 0x2C 0 0 n 0x2 0 | .mstat a => fmtX 0x2C a 0 0 0x3 0 0
  | .mdrain a b c s f => fmtX 0x2D a b c 0x0 0 (BitVec.ofBool s ++ f : BitVec 4)
  | .fadd a b c l k => fmtX 0x2E a b c 0x0 0 (fl4 false false l k)
  | .fsub a b c l k => fmtX 0x2E a b c 0x1 0 (fl4 false false l k)
  | .fmul a b c l k => fmtX 0x2E a b c 0x2 0 (fl4 false false l k)
  | .fscal a b c k => fmtX 0x2E a b c 0x3 0 (fl4 false false false k)
  | .fcomp a b c l k => fmtX 0x2E a b c 0x4 0 (fl4 false false l k)
  | .fint a b k => fmtX 0x2F a b 0 0x0 0 (fl4 false false false k)
  | .fdiff a b k => fmtX 0x2F a b 0 0x1 0 (fl4 false false false k)
  | .froot a b k => fmtX 0x2F a b 0 0x2 0 (fl4 false false false k)
  | .fext a b k => fmtX 0x2F a b 0 0x3 0 (fl4 false false false k)
  | .ffit a b c => fmtX 0x30 a b c 0x0 0 0
  | .feval a b c m k => fmtX 0x30 a b c 0x1 0 (fl4 false m false k)
  | .fldc a b => fmtX 0x30 a b 0 0x2 0 0
  | .fstc b c k => fmtX 0x30 0 b c 0x3 0 (fl4 false false false k)
  | .fdom a b c => fmtX 0x30 a b c 0x4 0 0
  | .ftrunc a b c k => fmtX 0x30 a b c 0x5 0 (fl4 false false false k)
  | .fmov a b k => fmtX 0x30 a b 0 0x6 0 (fl4 false false false k)
  | .ffree a => fmtX 0x30 a 0 0 0x7 0 0
  | .flen a b k => fmtX 0x30 a b 0 0x8 0 (fl4 false false false k)
  | _ => 0

/-- R87, R88: the sub-operations of opcode 0x01. -/
def rawAlu (w : IWord) (a b c : Fld) : Option Instr :=
  match (w.extractLsb' 5 6).toNat with
  | 0x00 => some (.add a b c) | 0x01 => some (.sub a b c) | 0x02 => some (.and a b c) | 0x03 => some (.or a b c)
  | 0x04 => some (.xor a b c) | 0x05 => some (.andn a b c) | 0x06 => some (.sll a b c) | 0x07 => some (.srl a b c)
  | 0x08 => some (.sra a b c) | 0x09 => some (.rol a b c) | 0x0A => some (.ror a b c) | 0x0B => some (.slt a b c)
  | 0x0C => some (.sltn a b c) | 0x0D => some (.min a b c) | 0x0E => some (.max a b c) | 0x0F => some (.minn a b c)
  | 0x10 => some (.maxn a b c) | 0x11 => some (.clz a b) | 0x12 => some (.ctz a b) | 0x13 => some (.popc a b)
  | 0x14 => some (.bswap a b) | 0x15 => some (.sel a b c (w.extractLsb' 0 5)) | _ => none

/-- R88: the sub-operations of opcode 0x02. -/
def rawMul (w : IWord) (a b c : Fld) : Option Instr :=
  match (w.extractLsb' 5 6).toNat with
  | 0 => some (.mul a b c) | 1 => some (.mulh a b c) | 2 => some (.mulhn a b c) | 3 => some (.div a b c)
  | 4 => some (.divn a b c) | 5 => some (.rem a b c) | 6 => some (.remn a b c) | 7 => some (.clmul a b c)
  | 8 => some (.clmulh a b c) | _ => none

/-- R87: SHIFTI. -/
def rawShift (w : IWord) (a b : Fld) : Option Instr :=
  match (w.extractLsb' 6 2).toNat with
  | 0 => some (.slli a b (w.extractLsb' 0 6)) | 1 => some (.srli a b (w.extractLsb' 0 6))
  | 2 => some (.srai a b (w.extractLsb' 0 6)) | _ => some (.roli a b (w.extractLsb' 0 6))

/-- R88: opcodes 0x1B to 0x1D. -/
def rawOrd (w : IWord) (a b c : Fld) : Option Instr :=
  let p := w.extractLsb' 4 3
  match (w.extractLsb' 7 4).toNat with
  | 0 => some (.rel p)
  | 1 => match (w.extractLsb' 0 2).toNat with
    | 0 => some (.acq b p) | 1 => some (.acqTm b c p) | 2 => some (.acqMap b c p) | _ => some (.acqBelow b p)
  | 2 => if bitAt w 0 then some (.fenceF a b c p) else some (.fence a p)
  | 3 => some (.qfence b) | 4 => some (.logsn a) | 5 => some .logdrop | _ => none

def rawMsg (w : IWord) (a b c : Fld) : Option Instr :=
  match (w.extractLsb' 7 4).toNat with
  | 0 => some (.send a b c (bitAt w 1) (bitAt w 0)) | 1 => some (.sendm b (bitAt w 1) (bitAt w 0))
  | 2 => some (.sendc a b (bitAt w 0)) | 3 => some (.promise b) | 4 => some (.deposit a b c (bitAt w 0))
  | 5 => some (.nred a b c (bitAt w 3) (w.extractLsb' 0 3)) | 6 => some (.nrwait a b (bitAt w 0)) | _ => none

def rawTask (w : IWord) (a b c : Fld) : Option Instr :=
  match (w.extractLsb' 7 4).toNat with
  | 0 => some (.spawn b c (bitAt w 1)) | 1 => some .endTask | 2 => some .yield | 3 => some (.wait a b c)
  | 4 => some (.migrate b (bitAt w 0)) | 5 => some (.setlah a b c)
  | 6 => if bitAt w 0 then some (.sweepW a) else some .sweep
  | 7 => some (.clmask a b) | 8 => some (.clunmask a b) | _ => none

/-- R88: opcodes 0x1E to 0x21. -/
def rawBar (w : IWord) (a b : Fld) : Option Instr :=
  match (w.extractLsb' 7 4).toNat with
  | 0 => some (.binit b (fBar w)) | 1 => some (.barrive a (fBar w) (bitAt w 0))
  | 2 => some (.bwait b (fBar w) (bitAt w 0)) | 3 => some (.btest a (fBar w)) | _ => none

def rawStrm (w : IWord) (a b : Fld) : Option Instr :=
  match (w.extractLsb' 7 4).toNat with
  | 0 => some (.sbind a b (bitAt w 0)) | 1 => some (.sunbind a) | 2 => some (.sstat a b (bitAt w 0))
  | 3 => some (.qbind a b) | 4 => some (.qunbind a) | _ => none

def rawXfer (w : IWord) (a b : Fld) : Option Instr :=
  match (w.extractLsb' 7 4).toNat with
  | 0 => some (.copy b) | 1 => some (.sgrun b) | 2 => some (.xstat a b (bitAt w 0)) | 3 => some (.xcancel b)
  | 4 => some .uret | _ => none

def rawBlk (w : IWord) (a b c : Fld) : Option Instr :=
  match (w.extractLsb' 7 4).toNat with
  | 0 => if bitAt w 0 then some (.blkrefNew a b) else some (.blkref a b)
  | 1 => some (.blkfree a b) | 2 => some (.blkcow a b)
  | 3 => match (w.extractLsb' 0 2).toNat with
    | 0 => some (.blkmoveTier b c) | 1 => some (.blkmoveGet b) | 2 => some (.blkmovePut b) | _ => none
  | 4 => some (.blkstat a b) | _ => none

/-- R88: opcodes 0x22 and 0x23. -/
def rawCsr (w : IWord) (a b : Fld) : Option Instr :=
  let n := w.extractLsb' 4 12
  match (w.extractLsb' 0 2).toNat with
  | 0 => some (.csrr a n) | 1 => some (.csrw a b n) | 2 => some (.csrset a b n) | _ => some (.csrclr a b n)

def rawSys (w : IWord) (a b c : Fld) : Option Instr :=
  match (w.extractLsb' 7 4).toNat with
  | 0 => some (.trap (w.extractLsb' 11 15)) | 1 => some .eret | 2 => some (.halt b)
  | 3 => some (.brk (w.extractLsb' 11 15)) | 4 => some (.dbgmark b)
  | 5 => match (w.extractLsb' 0 2).toNat with
    | 0 => some (.tlbinvPage b c) | 1 => some (.tlbinvAsid c) | 2 => some (.tlbinvVf c) | _ => some .tlbinvHarvest
  | 6 => if bitAt w 0 then some (.asidsetNew a b c) else some (.asidset a b)
  | 7 => some (.swapwp a b) | 8 => some (.faultreply a b c) | 9 => some (.eread a b) | _ => none

/-- R88, R152: opcode 0x24. -/
def rawVArith (w : IWord) (a b c : Fld) : Option Instr :=
  let f := w.extractLsb' 3 3
  let n := bitAt w 9; let s := bitAt w 8; let r := bitAt w 7; let m := bitAt w 6
  match (w.extractLsb' 0 3).toNat with
  | 0 => some (.vadd a b c s r m f) | 1 => some (.vsub a b c s r m f) | 2 => some (.vmul a b c s r m f)
  | 3 => some (.vmin a b c n m f) | 4 => some (.vmax a b c n m f) | 5 => some (.vfma a b c (fO w) f)
  | 6 => some (.vfms a b c (fO w) f)
  | _ => match c.toNat with | 0 => some (.vabs a b s m f) | 1 => some (.vneg a b s m f) | _ => none

def rawVLogic (w : IWord) (a b c : Fld) : Option Instr :=
  let f := w.extractLsb' 3 3
  let n := bitAt w 9; let m := bitAt w 6
  match (w.extractLsb' 0 3).toNat with
  | 0 => some (.vand a b c m f) | 1 => some (.vor a b c m f) | 2 => some (.vxor a b c m f)
  | 3 => some (.vshl a b c m f) | 4 => some (.vshr a b c n m f)
  | 5 => some (.vcmp (w.extractLsb' 21 3) b c n m f) | 6 => some (.vsel a b c f) | _ => some (.vsetm a b)

def rawVCvt (w : IWord) (a b c : Fld) : Option Instr :=
  let f := w.extractLsb' 3 3
  match (w.extractLsb' 0 3).toNat with
  | 0 => some (.vcvt a b (w.extractLsb' 13 3) (w.extractLsb' 11 2) (bitAt w 8) (bitAt w 7) f)
  | 1 => some (.vqnt a b c (w.extractLsb' 6 3) f) | 2 => some (.vdqnt a b c (w.extractLsb' 6 3) f) | _ => none

def rawVMem (w : IWord) (a b c : Fld) : Option Instr :=
  let o := w.extractLsb' 6 10
  let f := w.extractLsb' 3 3
  match (w.extractLsb' 0 3).toNat with
  | 0 => some (.vld a b o) | 1 => some (.vst a b o) | 2 => some (.vlds a b o f) | 3 => some (.vsts a b o f)
  | 4 => some (.vgath a b c (bitAt w 6) f) | 5 => some (.vscat a b c (bitAt w 6) f) | _ => none

def rawVPerm (w : IWord) (a b c : Fld) : Option Instr :=
  let f := w.extractLsb' 3 3
  match (w.extractLsb' 0 3).toNat with
  | 0 => some (.vbcast a b (bitAt w 6) f) | 1 => some (.vslide a b c (fO w) f)
  | 2 => some (.vperm a b c (bitAt w 6) f) | 3 => some (.vins a b c f) | 4 => some (.vext a b c f) | _ => none

def rawVRed (w : IWord) (a b : Fld) : Option Instr :=
  let f := w.extractLsb' 3 3
  let m := bitAt w 6
  match (w.extractLsb' 0 3).toNat with
  | 0 => some (.vrsum b m f) | 1 => some (.vrmax b m f) | 2 => some (.vrmin b m f) | 3 => some (.vramax b m f)
  | 4 => some (.xget a (w.extractLsb' 6 4)) | _ => none

/-- R88: opcodes 0x2B to 0x2D. -/
def rawMma (w : IWord) (a b : Fld) : Option Instr :=
  match (w.extractLsb' 7 4).toNat with
  | 0 => some (.mma a b (fBar w) (bitAt w 0)) | 1 => some (.mmas a b (fBar w) (bitAt w 0)) | _ => none

def rawMctl (w : IWord) (a b : Fld) : Option Instr :=
  match (w.extractLsb' 7 4).toNat with
  | 0 => some (.mzero a) | 1 => some (.mlatch b (fBar w) (bitAt w 0)) | 2 => some (.mrot (fBar w))
  | 3 => some (.mstat a) | _ => none

def rawMdrn (w : IWord) (a b c : Fld) : Option Instr :=
  match (w.extractLsb' 7 4).toNat with
  | 0 => some (.mdrain a b c (bitAt w 3) (w.extractLsb' 0 3)) | _ => none

/-- R206: opcodes 0x2E to 0x30. -/
def rawFalg (w : IWord) (a b c : Fld) : Option Instr :=
  let l := bitAt w 1; let k := bitAt w 0
  match (w.extractLsb' 7 4).toNat with
  | 0 => some (.fadd a b c l k) | 1 => some (.fsub a b c l k) | 2 => some (.fmul a b c l k)
  | 3 => some (.fscal a b c k) | 4 => some (.fcomp a b c l k) | _ => none

def rawFcalc (w : IWord) (a b : Fld) : Option Instr :=
  let k := bitAt w 0
  match (w.extractLsb' 7 4).toNat with
  | 0 => some (.fint a b k) | 1 => some (.fdiff a b k) | 2 => some (.froot a b k) | 3 => some (.fext a b k)
  | _ => none

def rawFio (w : IWord) (a b c : Fld) : Option Instr :=
  let k := bitAt w 0
  match (w.extractLsb' 7 4).toNat with
  | 0 => some (.ffit a b c) | 1 => some (.feval a b c (bitAt w 2) k) | 2 => some (.fldc a b) | 3 => some (.fstc b c k)
  | 4 => some (.fdom a b c) | 5 => some (.ftrunc a b c k) | 6 => some (.fmov a b k) | 7 => some (.ffree a)
  | 8 => some (.flen a b k) | _ => none

/-- R88: the instruction that the major opcode and the sub-operation, function or mod bits name, its operand fields read
from their places. The required-zero fields and the operand classes are checked by `decode`. -/
def decodeRaw (w : IWord) : Except DecodeError Instr :=
  let a := fA w; let b := fB w; let c := fC w
  let i16 : BitVec 16 := w.extractLsb' 0 16
  let sz : BitVec 2 := w.extractLsb' 14 2
  let o14 : BitVec 14 := w.extractLsb' 0 14
  let named (r : Option Instr) : Except DecodeError Instr :=
    match r with | some i => .ok i | none => .error .function
  match (opc w).toNat with
  | 0x01 => named (rawAlu w a b c) | 0x02 => named (rawMul w a b c)
  | 0x03 => .ok (.addi a b i16) | 0x04 => .ok (.andi a b i16) | 0x05 => .ok (.ori a b i16)
  | 0x06 => .ok (.xori a b i16) | 0x07 => .ok (.slti a b i16) | 0x08 => .ok (.sltin a b i16)
  | 0x09 => named (rawShift w a b)
  | 0x0A => .ok (.lhi a (w.extractLsb' 0 21)) | 0x0B => .ok (.pchi a (w.extractLsb' 0 21))
  | 0x0C => .ok (.jal (w.extractLsb' 0 26)) | 0x0D => .ok (.jalr a b (w.extractLsb' 2 14))
  | 0x0E => .ok (.beq a b i16) | 0x0F => .ok (.bne a b i16) | 0x10 => .ok (.blt a b i16)
  | 0x11 => .ok (.bge a b i16) | 0x12 => .ok (.bltn a b i16) | 0x13 => .ok (.bgen a b i16)
  | 0x14 => .ok (.ldp a b sz o14) | 0x15 => .ok (.ldpx a b sz o14) | 0x16 => .ok (.stp a b sz o14)
  | 0x17 => .ok (.ld a b sz (w.extractLsb' 11 3) (bitAt w 10) (w.extractLsb' 0 10))
  | 0x18 => .ok (.ldx a b sz (w.extractLsb' 11 3) (bitAt w 10) (w.extractLsb' 0 10))
  | 0x19 => .ok (.st a b sz (w.extractLsb' 11 3) (w.extractLsb' 0 10))
  | 0x1A => .ok (.amo a b c (w.extractLsb' 7 4) (w.extractLsb' 4 3) (bitAt w 2) (bitAt w 1) (bitAt w 0))
  | 0x1B => named (rawOrd w a b c) | 0x1C => named (rawMsg w a b c) | 0x1D => named (rawTask w a b c)
  | 0x1E => named (rawBar w a b) | 0x1F => named (rawStrm w a b) | 0x20 => named (rawXfer w a b)
  | 0x21 => named (rawBlk w a b c) | 0x22 => named (rawCsr w a b) | 0x23 => named (rawSys w a b c)
  | 0x24 => named (rawVArith w a b c) | 0x25 => named (rawVLogic w a b c) | 0x26 => named (rawVCvt w a b c)
  | 0x27 => named (rawVMem w a b c) | 0x28 => named (rawVPerm w a b c) | 0x29 => named (rawVRed w a b)
  | 0x2A => .ok (.vtran a b (bitAt w 6) (w.extractLsb' 0 3))
  | 0x2B => named (rawMma w a b) | 0x2C => named (rawMctl w a b) | 0x2D => named (rawMdrn w a b c)
  | 0x2E => named (rawFalg w a b c) | 0x2F => named (rawFcalc w a b) | 0x30 => named (rawFio w a b c)
  | _ => .error .opcode

/-- R90: the instruction of a word, or the reason it raises ILLEGAL. A word is its instruction's encoding, bit for bit:
a nonzero required-zero field therefore refuses it. -/
def decode (w : IWord) : Except DecodeError Instr :=
  match decodeRaw w with
  | .error e => .error e
  | .ok i =>
    if encode i != w then .error .requiredZero
    else if i.wf then .ok i
    else .error .operand

/-- R4: the instruction word of four bytes, the first at the lowest address. -/
def wordOfBytes (b0 b1 b2 b3 : Byte) : IWord := b3 ++ b2 ++ b1 ++ b0

/-- R90: what an agent that fetched a word executes: the decoded instruction, or the UNASSIGNED_ENCODING step. -/
def fetchedInstr (w : IWord) : Instr :=
  match decode w with
  | .ok i => i
  | .error _ => .unassignedEncoding w

/-- The bytes of a word numbered as the opcode table numbers it: bit 0 is the least significant bit of the first byte. -/
def tableByte (w k : Nat) : Byte := BitVec.ofNat 8 (w / 256 ^ k)

/-- The host's reading of a table word: its bytes as memory holds them, given to the decoder. -/
def decodeTableWord (nbits w : Nat) : Option Instr :=
  let v := w % 2 ^ nbits
  match decode (wordOfBytes (tableByte v 0) (tableByte v 1) (tableByte v 2) (tableByte v 3)) with
  | .ok i => some i
  | .error _ => none

end Sys2Proof
end

