-- ==== Sys2Proof/Config.lean ====
section
/-! DEFINITION. What the specification leaves to the implementation or leaves open: sizes it fixes stand beside their use;
the free values below have no body, so nothing can be proved about their values. -/

namespace Sys2Proof.Config

/-- R19: not timing itself, only the clock figure that CAP4 reports, in MHz. -/
def clockMHz : Nat := 1300

/-- A word the specification leaves open, numbered by `State.fresh` (log entry 8). -/
opaque freeWord : Nat → BitVec 64

/-- A physical or virtual base that firmware, the loader or the launch unit chooses (R237, R310, R437; log entry 20),
numbered by `State.fresh`. -/
opaque freeBase : Nat → BitVec 52

/-- The number of butterfly hops charged between two tiles of one cluster, or between a tile and its router: R367 charges
them and R442 gives cycles, but no rule numbers the hops (log entry 14). -/
opaque butterflyHops : Nat → Nat → Nat

/-- The rounding of a transcendental value that the interval evaluation of Machine/Trig.lean could not decide: function
code, operand bits (log entry 15). -/
opaque undecided : Nat → Nat → BitVec 32

end Sys2Proof.Config
end

