-- ==== Sys2Proof/Machine/State.lean ====
section
/-! DEFINITION. The state of the machine as plain data: the contexts of the modelled core, the core, its tile, the homes of
shared memory, the launch in force, and the host's registers (log entry 2). Every field's default is its value at reset; where the
specification gives none, INVENTORY.md and the named log entry say so. -/

namespace Sys2Proof.Machine

/-- A table from numbers to records, sparse, in ascending order of number. -/
abbrev Tab (α : Type) := List (Nat × α)

/-! ### Contexts -/

/-- R31, in the order of its table (R97, STALL counts from 0). -/
inductive TaskSt where
  | pending | ready | running | waitMsg | waitMem | faulted | preempted | ended
  deriving DecidableEq, Repr

/-- R263: a pattern, its fields decoded; lists run over the dimensions in use, innermost first. -/
structure Pattern where
  base : Nat
  sz : Nat
  out : Bool
  strides : List Int
  bounds : List (Int × Int)
  counts : List Int
  fill : Word
  deriving DecidableEq, Repr

/-- R267: a fetched stream element: a value, or what its pop meets instead. -/
inductive Elem where
  | val (v : Word)
  | range (l : Nat)
  | refused (va : Nat)
  | poison (pa : Nat)
  | lost (pa : Nat)
  deriving DecidableEq, Repr

/-- R268: a pushed element the stream unit has not completed: linear index, value, record position for shared memory. -/
structure Pushed where
  l : Nat
  v : Word
  idx : Nat
  deriving DecidableEq, Repr

/-- R266: a bound stream. -/
structure Stream where
  pat : Pattern
  tcm : Bool
  pos : Nat
  fetched : List Elem
  pushed : List Pushed
  /-- R268: what keeps an earlier push from completing, which the next push or seal reports: cause and TVAL -/
  bad : Option (BitVec 6 × Nat)
  /-- R268: the oldest push misses translation: the task faults (page) -/
  miss : Bool := false
  deriving DecidableEq, Repr

/-- R275, R335: a queue-register binding. `words` holds what an outbound register has not sent, or what a class binding has
received; an inbound channel's words stand in the core's buffer. -/
structure QBind where
  outb : Bool
  cls : Option (BitVec 4)
  ch : BitVec 3
  peer : BitVec 13
  words : List Word
  credits : Nat
  /-- R275: words that have left and that the peer's network interface has not accepted -/
  flying : Nat := 0
  /-- R332: of a class binding, the inbox places of its messages, each with the words not yet popped -/
  parts : List (Nat × Nat) := []
  deriving DecidableEq, Repr

/-- R245: an outstanding load. `own` holds the bytes taken from the task's own records at issue (R225). -/
structure LoadPend where
  vec : Bool
  dst : Fld
  sz : Nat
  sext : Bool
  pa : Nat
  own : List (Option Byte)
  fill : Bool
  reply : Option (Option (List Byte))
  poisoned : Bool
  /-- R231, R326: its place among the task's memory requests -/
  num : Nat := 0
  /-- R333: fence markers that its task had placed when it issued -/
  marks : Nat := 0
  deriving DecidableEq, Repr

/-- R253: an outstanding atomic; `after` is the last segment whose acknowledgement it awaits (`.rl`);
`failed` marks one that was lost or refused, which has been counted then (R251). -/
structure AmoPend where
  dst : Fld
  req : AmoReq
  after : Option Nat
  aq : Bool
  ret : Option Word
  failed : Bool
  poisoned : Bool
  num : Nat := 0
  marks : Nat := 0
  deriving DecidableEq, Repr

/-- R311: a held operation. -/
inductive Held where
  | msg (m : Msg)
  | mcast (m : Msg) (cvec : Word) (tmask : BitVec 16)
  | spawn (m : Msg)
  | deposit (d : Deposit)
  deriving DecidableEq, Repr

/-- A trap that waits for a boundary (R91): its cause, DETAIL and TVAL. -/
structure PendTrap where
  cause : BitVec 6
  detail : BitVec 8
  val : Word
  /-- the transfer it belongs to, where that names a handler (R279), by the segment and the part of its key -/
  op : Option (Nat × Nat)
  deriving DecidableEq, Repr

/-- R279: a completion that waits for its task: handler, transfer identifier, status. -/
structure Compl where
  handler : BitVec 56
  xid : Word
  status : Word
  /-- the transfer, by the segment and the part of its key (R223) -/
  op : Nat × Nat
  deriving DecidableEq, Repr

/-- Why a context does not issue: the instruction at its PC waits (R31, R32). What a phase keeps is what the instruction has
done before its wait (log entry 9). -/
inductive Wait where
  /-- R81, R98: an operand is not ready: scalar sources and destinations, vector sources and destinations -/
  | operand (ss sd vs vd : List Fld)
  /-- R245: an operand is the destination of a load that has missed -/
  | load
  /-- R98: a unit is busy: 0 the loads, 1 the pending XR writes (R167), 2 the column-unit requests (R171), 3 matrix commands
  that have not started (R190) -/
  | busy (k : BitVec 2)
  /-- R168: the XSEQ that XGET waits for -/
  | xget (n : BitVec 4)
  /-- R191, R268, R392: bytes of TCM that a stream or an engine has not finished with -/
  | tcmBusy (a n : Nat)
  /-- R422: the shadow context runs for this task -/
  | shadow
  /-- R119: passed over until another context issues -/
  | yielded
  /-- R236: log space for a record of so many bytes -/
  | logSpace (n : Nat)
  /-- R358: the dirty log is full -/
  | dirtyFull
  /-- R118, R273, R274: pushed elements or words of these registers are drained -/
  | drain (fs : List Fld)
  /-- R120: the mask, whether a timeout runs, and whether it has run out -/
  | event (mask : BitVec 8) (timed expired : Bool)
  /-- R118: END waits for its pushed elements -/
  | ending (fs : List Fld)
  /-- R45: the same before a migration, with its destination, where it has one -/
  | leave (seg : Nat) (dest : Option (BitVec 13))
  /-- R261: acknowledgement of segments up to this number -/
  | acks (seg : Nat)
  /-- R356: the same before a reply to a fault, with its token and its answer -/
  | reply (seg : Nat) (token ans : Word)
  /-- R250: the same for a FENCE, with the address and the value of its flag -/
  | fence (seg : Nat) (flag : Option (Nat × Word))
  /-- R250: the flag write, once issued -/
  | flag (seg : Nat) (pa : Nat) (v : Word) (done : Bool)
  /-- R249: the cores whose answers are not yet in, the own segments awaited, and the lines received -/
  | acq (cores : List (BitVec 13)) (own : List Nat) (lines : List Nat)
  | acqBelow (t : Nat)
  /-- R256: the mask -/
  | qfence (mask : Word)
  | bwait (n : BitVec 6) (p : BitVec 16)
  | nrwait (tag : BitVec 16)
  /-- R323: the number of sweeps ended when a sweep that counts has ended -/
  | sweep (after : Nat)
  /-- R321: completions and traps before MIGRATE -/
  | migrate
  /-- R174, R175 -/
  | mxContext
  | mxQueue
  /-- R388: the entry step of a block instruction -/
  | block (ans : Option Word) (trap : Option PendTrap)
  /-- R351: the walk of an access; `refused` once answered REFUSE -/
  | walk (va : Nat) (acc : Access) (refused : Bool)
  /-- R376: a lazy fill -/
  | fill (g : Granule)
  /-- R353, R360: with the identifier that an ASIDSET names -/
  | translations (id : BitVec 16)
  deriving DecidableEq, Repr

/-- R199: a function register: domain, length, first granule, and its granules that a lazy restore has not filled. -/
structure FReg where
  a : BitVec 32 := 0xBF800000
  b : BitVec 32 := 0x3F800000
  n : BitVec 9 := 0
  p : BitVec 8 := 0
  absent : BitVec 32 := 0
  deriving DecidableEq, Repr

/-- R169, R171, R172: an outstanding column-unit request: its place in the core's order, destination, operand, function, lanes that
it writes. -/
structure VtPend where
  num : Nat
  vd : Fld
  src : BitVec 512
  fn : BitVec 3
  mask : BitVec 16
  deriving DecidableEq, Repr

/-- R167: a cross-register write that completes in issue order. -/
structure XrPend where
  val : Word
  deriving DecidableEq, Repr

/-- R23 to R34, R92 to R94: a task with the state it holds. -/
structure Task where
  st : TaskSt := .ended
  frame : Nat := 0
  slot : Option (Fin 4) := none
  wait : Option Wait := none
  /-- w0 to w15; w0 is read as zero whatever stands here (R80) -/
  w : Vector Word 16 := Vector.replicate 16 0
  pc : BitVec 56 := 0
  mig : Bool := false
  esc : Bool := false
  pair : Bool := false
  hvy : Bool := false
  priv : BitVec 2 := 0
  inu : Bool := false
  tid : Word := 0
  origin : BitVec 13 := 0
  stamp : BitVec 48 := 0
  key : ActKey := { stamp := 0, src := 0, seq := 0 }
  wp : BitVec 17 := 0
  lahCls : BitVec 4 := 0
  tcDetail : BitVec 8 := 0
  tcAsync : Bool := false
  tcCause : BitVec 6 := 0
  tepc : BitVec 54 := 0
  tval : Word := 0
  uepc : BitVec 54 := 0
  xferid : Word := 0
  /-- R280: the status of the transfer XFERID names -/
  xstatus : Word := 0
  fmta : BitVec 3 := 3
  fmtb : BitVec 3 := 3
  sclaSeq : BitVec 16 := 0
  sclaPtr : BitVec 17 := 0
  sclbSeq : BitVec 16 := 0
  sclbPtr : BitVec 17 := 0
  ftol : BitVec 32 := 0x33800000
  fmaxn : BitVec 9 := 256
  nrt : BitVec 5 := 0
  fmore : Bool := false
  fout : Bool := false
  fx : Bool := false
  classMask : BitVec 16 := 0
  depl : Bool := false
  /-- R339: deposits that have arrived and wait for the instructions issued before them: word and value, oldest first -/
  deposits : List (Nat × Word) := []
  /-- the payload (R82) and the words of it not yet popped -/
  payload : List Word := []
  /-- R309: the place of its message in the inbox -/
  inboxAt : Option Nat := none
  q0 : List Word := []
  q1 : List Word := []
  qs : Vector (Option QBind) 6 := Vector.replicate 6 none
  streams : Vector (Option Stream) 8 := Vector.replicate 8 none
  v : Vector (BitVec 512) 16 := Vector.replicate 16 0
  /-- R151: the vector registers that a lazy restore has not filled -/
  vAbsent : BitVec 16 := 0
  vmask : Word := 0xFFFFFFFFFFFFFFFF
  xr : Word := 0
  xseq : BitVec 4 := 0
  xrPend : List XrPend := []
  vtPend : List VtPend := []
  f : Vector FReg 8 := Vector.replicate 8 {}
  openSeg : Nat := 0
  recs : List Rec := []
  recCtr : Nat := 0
  /-- R244: the greatest publication floor of the open segment's records -/
  floor : BitVec 3 := 0
  /-- R223: engine operations issued while the segment was open -/
  partCtr : Nat := 0
  held : List Held := []
  loads : List LoadPend := []
  amos : List AmoPend := []
  /-- memory requests made by loads and atomics: numbers the next one (R230, R231) -/
  reqNum : Nat := 0
  /-- R333: fence markers placed by its seals, ACQ, QFENCE and MIGRATE -/
  marks : Nat := 0
  /-- R261: BARRIVE arrivals on their way to the barrier: destination register and barrier -/
  arrives : List (Fld × BitVec 6) := []
  /-- R256: words that engine operations of the task have written since the last QFENCE of their queue: queue, word, key -/
  wrote : List (Nat × Nat × WKey) := []
  /-- R228: sends released and not yet accepted -/
  sentOut : Nat := 0
  /-- R251: failures since the last FENCE: count, BIG, REFUSED, DEAD -/
  fails : Nat := 0
  failBig : Bool := false
  failRefused : Bool := false
  failDead : Bool := false
  traps : List PendTrap := []
  comps : List Compl := []
  redel : Nat := 0
  /-- R405: the workspace as the activation start wrote it -/
  startPc : BitVec 56 := 0
  startW : Vector Word 16 := Vector.replicate 16 0
  startMig : Bool := false
  startXferid : Word := 0
  /-- R404: an error the activation has consumed: DETAIL and VAL, ADDR of its entry -/
  errPend : Option (BitVec 8 × Word × Word) := none
  /-- R411: an action of the activation has passed its comparison -/
  pairEsc : Bool := false
  /-- R405, R406: the activation waits for its redelivery -/
  recover : Bool := false
  /-- R420: the instruction here ignores its break bit once; R422: it does not match again -/
  brkSkip : Bool := false
  /-- the instruction that waits here has been charged (log entry 9) -/
  paid : Bool := false
  /-- R91: an ENGINE trap has been taken at this boundary -/
  trapTaken : Bool := false
  pcmSkip : Bool := false
  /-- R420, R421, R425: stopped for the debugger -/
  stopped : Bool := false
  /-- R422: this context is the shadow context -/
  shadow : Bool := false
  /-- R116: the values of TRAPVEC, LOGOVF, SPILLOVF that the task has written and its core has not yet applied -/
  ownTrapvec : Option (BitVec 54) := none
  ownLogovf : Option (BitVec 50) := none
  ownSpillovf : Option (BitVec 50) := none
  deriving DecidableEq, Repr

/-! ### The core -/

/-- R237, R440: where a physical address has its home. -/
inductive Home where
  | spm (tile bank : Nat)
  | sram (die slice : Nat)
  | hbm (die stack : Nat)
  | lpddr
  deriving DecidableEq, Repr

/-- R238: the records of a sealed segment for one home; `st` 0 in flight, 1 performed, 2 acknowledged;
`failed` marks a part that was lost or refused, which has been counted then (R251). -/
structure SegPart where
  home : Option Home
  recs : List Rec
  st : Nat
  failed : Bool
  deriving DecidableEq, Repr

/-- R226, R238: a sealed segment that is not acknowledged. -/
structure Sealed where
  num : Nat
  stamp : Nat
  tid : Word
  origin : BitVec 13
  scope : BitVec 3
  bytes : Nat
  recs : List Rec
  shipped : Bool
  parts : List SegPart
  /-- R226: the number of the task's next memory request when it was sealed -/
  upTo : Nat
  /-- R251: the stores of it that have been counted as failures -/
  lostIdx : List Nat
  deriving DecidableEq, Repr

/-- R242: a view-cache line; the most recently used line of a set stands first. -/
structure VLine where
  line : Nat
  data : List Byte
  /-- R401: words of the line that hold the poison mark -/
  poison : List Nat
  deriving DecidableEq, Repr

/-- R350: a cached translation. -/
structure Tlb where
  vf : BitVec 6
  asid : BitVec 16
  gen : BitVec 4
  va : Nat
  bits : Nat
  pa : Nat
  r : Bool
  w : Bool
  x : Bool
  t : Bool
  /-- rights of the stage-2 leaf -/
  r2 : Bool
  w2 : Bool
  x2 : Bool
  mig : Bool
  d : Bool
  leaf1 : Nat
  leaf2 : Nat
  deriving DecidableEq, Repr

/-- R255: an operation of an engine queue. -/
inductive EngKind where
  | copy (src dst : Pattern) (stcm dtcm scl : Bool) (srec drec : Word)
  | chain (head : Nat)
  | get (handle : Word) (off tadr len sadr : Nat)
  | put (handle : Word) (off tadr len sadr : Nat)
  | tier (handle : Word) (t : Word)
  | blkref (handle : Word)
  | blkrefNew (t : Word)
  | blkfree (handle : Word)
  | blkcow (pa : Nat)
  | nred (c : Contribution)
  deriving DecidableEq, Repr

/-- What an entry step has left of a block operation (R390, R392, R393): the handle, the entry used, the block remembered, its
generation, the spare entry. -/
structure BlkProg where
  handle : Word
  entry : Nat
  pbn : Nat
  tier : Bool
  gen : BitVec 24
  spare : Nat
  deriving DecidableEq, Repr

structure EngOp where
  kind : EngKind
  tid : Word
  origin : BitVec 13
  stamp : Nat
  seg : Nat
  part : Nat
  priv : BitVec 2
  mig : Bool
  xid : Word
  handler : BitVec 56
  started : Bool
  cancelled : Bool
  moved : Nat
  /-- chain address reached (R283) -/
  at_ : Nat
  /-- stop code and pending trap, once it has stopped (R278) -/
  code : Nat
  stop : Option PendTrap
  finished : Bool
  prog : Option BlkProg
  /-- R276: scale records moved; R283: bytes of the chain element moved, the element in hand (source, destination, length, next), and
  the bytes of the whole operation -/
  sub : Nat
  elem : Option (Nat × Nat × Nat × Nat)
  bytes : Nat
  deriving DecidableEq, Repr

/-- R279: a completion whose task has ended, with what its activation takes over. -/
structure Orphan where
  compl : Compl
  traps : List PendTrap
  stamp : BitVec 48
  priv : BitVec 2
  tag : BitVec 16
  leaf : BitVec 24
  deriving DecidableEq, Repr

/-- R398: a retired instruction in the replay queue: the general register it writes, 0 for none. -/
structure Replay where
  frame : Nat
  reg : BitVec 4
  /-- R154: the vector register that it writes in place of a general one -/
  vreg : Option (BitVec 4)
  deriving DecidableEq, Repr

/-- R200, R202: a run of granules of the coefficient pool: its first granule, its length, the task and register it belongs to,
and, once released, how many instructions of the core have yet to retire before it returns to the pool. -/
structure PoolRun where
  at_ : Nat
  len : Nat
  frame : Nat
  reg : BitVec 3
  rel : Option Nat
  deriving DecidableEq, Repr

/-- R173: a buffer of the B latch: its tile, its format and, for an NQ4 tile, its scale codes and super-scale. Bytes beyond the
list are zero. -/
structure Latch where
  fmt : BitVec 3 := 3
  tile : List Byte := []
  codes : List Byte := []
  sup : BitVec 32 := 0
  deriving DecidableEq, Repr

inductive MxFn where
  | mma | mmas | mzero | mlatch | mrot | mdrain
  deriving DecidableEq, Repr

/-- R175: a matrix command that has not completed. The formats and record addresses are those of the task at issue, which
hold until the command starts (R190). -/
structure MxCmd where
  fn : MxFn
  /-- acc1 -/
  acc : Bool
  /-- the tile address -/
  base : Nat
  fmta : BitVec 3
  fmtb : BitVec 3
  ptrA : Nat
  ptrB : Nat
  bar : Option (BitVec 6)
  barPhase : BitVec 16
  /-- MDRAIN: destination, address of the absolute maximum, format, saturation -/
  dst : Word
  amax : Word
  fmt : BitVec 3
  sat : Bool
  tid : Word
  origin : BitVec 13
  stamp : Nat
  seg : Nat
  part : Nat
  priv : BitVec 2
  started : Bool
  /-- MDRAIN: units of 64 bytes written -/
  moved : Nat
  deriving DecidableEq, Repr

/-- R410: an action of a pair, by what performs it: part k of a segment; the next send of a task; an engine operation or a unit of a
drain, by its task's open segment and part; an atomic, by its number; a flag write, a migration of a task. -/
inductive PairWhat where
  | part (seg k : Nat)
  | send (tid : Word) (origin : BitVec 13)
  | engine (tid : Word) (origin : BitVec 13) (seg part : Nat)
  | unit (tid : Word) (origin : BitVec 13) (seg part k : Nat)
  | amo (tid : Word) (origin : BitVec 13) (num : Nat)
  | flag (tid : Word) (origin : BitVec 13)
  | mig (tid : Word) (origin : BitVec 13)
  deriving DecidableEq, Repr

/-- R411: an action whose hash has gone to the router of the primary's tile, with the task that it belongs to. -/
structure PairItem where
  what : PairWhat
  tid : Word
  origin : BitVec 13
  hash : BitVec 64
  deriving DecidableEq, Repr

/-- R197: a command in an accumulator's history: its A tile and the scale record it read. -/
structure MxHist where
  a : Nat
  n : Nat
  rec_ : Option Nat
  deriving DecidableEq, Repr

/-- R173, R174, R187, R195, R197, R198: the matrix context of the core. An accumulator's list is row by row; elements beyond it
are zero. `seqA` and `seqB` are the sequence numbers of an owner that has ended. -/
structure MxCtx where
  owner : Option (Word × BitVec 13) := none
  queue : List MxCmd := []
  acc0 : List (BitVec 32) := []
  acc1 : List (BitVec 32) := []
  k0 : Bool := false
  k1 : Bool := false
  absent0 : BitVec 16 := 0
  absent1 : BitVec 16 := 0
  cur : Latch := {}
  load : Latch := {}
  hist0 : List MxHist := []
  hist1 : List MxHist := []
  /-- R197: the base of an accumulator is a checkpoint, not an MZERO or an MMAS -/
  chk0 : Bool := false
  chk1 : Bool := false
  done : BitVec 8 := 0
  disc : Nat := 0
  err : Bool := false
  seqA : BitVec 16 := 0
  seqB : BitVec 16 := 0
  deriving DecidableEq, Repr

/-- R309: a message or pad of the inbox: its offset, its length, whether its space is still in use. -/
structure InChunk where
  off : Nat
  len : Nat
  live : Bool
  deriving DecidableEq, Repr

structure CoreSt where
  /-- R14: this core's logical identifier, and its function (log entry 7) -/
  id : BitVec 13 := 0
  vf : BitVec 6 := 0
  /-- R18: bytes not listed read 0 (log entry 5) -/
  tcm : List Host.Cell := []
  /-- R401: poisoned TCM words, by number -/
  tcmPoison : List Nat := []
  /-- R400: corrected errors of the TCM -/
  tcmFixed : Nat := 0
  vcache : List VLine := []
  segCtr : Nat := 0
  sealed : List Sealed := []
  /-- R236: bytes in use in the overflow region -/
  ovf : Nat := 0
  mweight : BitVec 4 := 1
  twWall : Bool := false
  twLimit : BitVec 32 := 0
  asid : BitVec 16 := 0
  asidGen : BitVec 4 := 0
  dbgctl : BitVec 5 := 0
  /-- R419: the break bits of the instruction lines that the core holds, by `lineKey`; R424: SYNC drops them (log entry 26) -/
  brkLines : Tab (BitVec 16) := []
  pcmEn : BitVec 16 := 0
  pcmSlot : Vector (BitVec 6) 16 := Vector.replicate 16 0
  pcmPc : Vector (BitVec 54) 16 := Vector.replicate 16 0
  /-- R200: the coefficient pool, 256 granules of eight singles, by slot; and the runs that count as occupied -/
  pool : Tab (BitVec 32) := []
  runs : List PoolRun := []
  /-- R200, R401: slots of the pool that hold an uncorrectable error -/
  poolPoison : List Nat := []
  /-- R410, R411: actions of this core that wait for the comparison, oldest first, and actions that have passed it -/
  pairQ : List PairItem := []
  pairOk : List PairWhat := []
  /-- R398: the last eight retired instructions, newest first; `dst` is the register that the instruction in issue writes -/
  replay : List Replay := []
  dst : BitVec 4 := 0
  vdst : Option (BitVec 4) := none
  mx : MxCtx := {}
  /-- R174, R198: the context of a pre-empted owner, which it reclaims when it is restored -/
  mxSaved : Option MxCtx := none
  /-- R249: requests of other cores that await this core's segments: reader, segments, lines -/
  acqPend : List (BitVec 13 × List Nat × List Nat) := []
  /-- R249: the lines that acknowledged segments of the launch touched, each with the scope of its segment -/
  ackedLines : List (BitVec 3 × Nat) := []
  /-- R309: the messages and pads of the inbox, oldest first, and where the next one goes -/
  inbox : List InChunk := []
  inboxTail : Nat := 0
  serial : BitVec 24 := 0
  itlb : List Tlb := []
  dtlb : List Tlb := []
  dirty : List (Nat × Nat) := []
  /-- R335: inbound channel buffers with the source core of each word -/
  chan : Vector (List (BitVec 13 × Word)) 8 := Vector.replicate 8 []
  orphans : List Orphan := []
  eng : Vector (List EngOp) 16 := Vector.replicate 16 []
  /-- R422: the shadow context's registers, kept from handler to handler, and its match point while it runs -/
  shW : Vector Word 16 := Vector.replicate 16 0
  shMatch : Option (Fin 16) := none
  /-- R424: the halted core issues one instruction -/
  dbgStep : Bool := false
  /-- R29: the bramble thread is ready -/
  bramble : Bool := false
  preempt : Bool := false
  deriving DecidableEq, Repr

/-! ### The tile and its cluster -/

/-- R258. -/
structure Bar where
  init : Bool := false
  ring : Bool := false
  count : BitVec 12 := 0
  arr : BitVec 12 := 0
  phase : BitVec 16 := 0
  deriving DecidableEq, Repr

/-- R298: where a candidate's payload is held: the inbox, at an offset; the holding queue, in order of arrival; the heap. -/
inductive CandAt where
  | inbox | holding | heap
  deriving DecidableEq, Repr

/-- R27, R298: a candidate: its key, the class of its link (none for the launch link and the local link), its core, and the
workspace values its activation start writes. -/
structure Cand where
  key : ActKey
  cls : Option (BitVec 4)
  core : BitVec 13
  pc : BitVec 56
  mig : Bool
  priv : BitVec 2
  w1 : Word
  w2 : Word
  w3 : Word
  payload : List Word
  tag : BitVec 16
  leaf : BitVec 24
  xferid : Word
  traps : List PendTrap
  place : CandAt
  bytes : Nat
  off : Nat
  handler0 : Bool
  deriving DecidableEq, Repr

/-- R295, R301: an inbound link: effective promise, ask outstanding. -/
structure InLink where
  src : Nat
  cls : BitVec 4
  prom : Nat
  asked : Bool
  deriving DecidableEq, Repr

/-- R295, R303, R304: an outbound link: the value last sent, a kept ask, whether a pip has been sent. -/
structure OutLink where
  dst : Nat
  cls : BitVec 4
  sent : Nat
  kept : Option Nat
  pipped : Bool
  deriving DecidableEq, Repr

/-- A pip that waits for its AFTER count (R329). -/
structure PendPip where
  src : Nat
  cls : BitVec 4
  prom : Nat
  after : Nat
  deriving DecidableEq, Repr

/-- R351: a requester that waits on a walk: what misses, and for which function, task and page, so that another task of its frame or
another operation of its queue is not taken for it. -/
structure Asker where
  who : WalkFor
  vf : BitVec 6
  tid : Word
  origin : BitVec 13
  page : Nat
  deriving DecidableEq, Repr

/-- R286: a reduction slot. -/
structure RedSlot where
  tag : BitVec 16
  op : BitVec 3
  s32 : Bool
  units : List Nat
  kids : List Nat
  vals : List (Nat × Word)
  late : Bool
  missing : Nat
  laten : Nat
  deriving DecidableEq, Repr

/-- R286: an owed record: tag, units merged, units owed, children owed. -/
structure Owed where
  tag : BitVec 16
  merged : List Nat
  units : List Nat
  kids : List Nat
  deriving DecidableEq, Repr

/-- R351, R354: a walk that waits in the fault table. -/
structure FaultRec where
  walker : Nat
  serial : Nat
  vf : BitVec 6
  asid : BitVec 16
  gen : BitVec 4
  va : Nat
  word0 : Nat
  lvl : Nat
  perm : Bool
  malf : Bool
  s2walk : Bool
  s2 : Bool
  acc : Access
  who : List Asker
  core : BitVec 13
  posted : Bool
  toCore : BitVec 13
  deriving DecidableEq, Repr

/-- A packet that has left this tile for another agent (R326): kept for that agent to see. -/
inductive Packet where
  | msg (m : Msg) (seq prom : Nat) (col : Bool)
  | mcast (m : Msg) (cvec : Word) (tmask : BitVec 16) (prom : Nat) (col : Bool)
  | pip (dst : Nat) (cls : BitVec 4) (prom after : Nat) (sweep : Bool)
  | ask (src : Nat) (cls : BitVec 4) (prom : Nat)
  | deposit (d : Deposit)
  | words (peer : BitVec 13) (ch : BitVec 3) (ws : List Word)
  | image (core : BitVec 13)
  | credit (peer : BitVec 13) (ch : BitVec 3) (n : Nat)
  | migrate (m : MigTask)
  | acqReq (core : BitVec 13) (scope : BitVec 3)
  | acqAns (core : BitVec 13) (lines : List Nat)
  | doneMsg (parent : Nat) (status : BitVec 32)
  | sweepUp (parent : Nat) (f : SweepFig)
  | sweepReq
  | sweepStart (colour : Bool)
  | sweepRecount
  | sweepEnd (h commit : Nat)
  | red (c : Contribution) (missing : Nat)
  | redRes (r : NredRes)
  | fault (core : BitVec 13) (words : List Word)
  | faultAns (token : Word) (retry : Bool)
  | pairHash (h : BitVec 64)
  | stopVf (v : BitVec 6) (cause : BitVec 2)
  | freeze (on : Bool)
  | start (c : Cand)
  | harvest (vf : BitVec 6)
  | tlbDrop (vf : BitVec 6) (asid : Option (BitVec 16)) (va : Option Nat)
  | asidRoot (vf : BitVec 6) (id : BitVec 16) (root : Word)
  | busy (n : Nat)
  | launchReg (n : BitVec 12) (v : Word)
  deriving DecidableEq, Repr

/-- An injected send, by its sender's TID and origin, or a migration message, by the task's stamp and frame. -/
inductive Unacc where
  | send (tid : Word) (origin : BitVec 13)
  | mig (stamp frame : Nat)
  | words (tid : Word) (origin : BitVec 13) (k n : Nat)
  deriving DecidableEq, Repr

/-- The tile of the core: its control registers, its barriers, the sequencer, the links, the sweep, the reductions, its done word, the
meter, the second-level TLB and the fault table of its cluster. -/
structure TileSt where
  pquant : BitVec 48 := 1024
  pint : BitVec 32 := 512
  sweepwait : BitVec 32 := 65536
  trto : BitVec 32 := 16384
  uflags : BitVec 8 := 0
  bars : Vector Bar 64 := Vector.replicate 64 {}
  cands : List Cand := []
  overflow : List Cand := []
  /-- R326: migration messages accepted whose tasks wait for a frame -/
  migBuf : List MigTask := []
  inLinks : List InLink := []
  recv : Tab Nat := []
  pendPips : List PendPip := []
  outLinks : List OutLink := []
  pairSeq : Tab Nat := []
  localSeq : Nat := 0
  launchProm : Nat := 0
  inject : List Held := []
  /-- who sent each entry of `inject`: TID and origin -/
  injectBy : List (Word × BitVec 13) := []
  /-- R333: the fence markers among them, by the number of entries before each -/
  injectMarks : List Nat := []
  /-- what has been injected and not yet accepted, oldest first (R228, R44) -/
  unaccepted : List Unacc := []
  lah : Tab Nat := []
  colour : Bool := false
  sentCnt : Nat × Nat := (0, 0)
  recvCnt : Nat × Nat := (0, 0)
  mred : Nat := 281474976710655
  horizon : Nat := 0
  commit : Nat := 0
  /-- R305, R306: a sweep runs; sweeps ended; the request is up; the children's figures of this round -/
  sweeping : Bool := false
  sweepsEnded : Nat := 0
  sweepsStarted : Nat := 0
  sweepWanted : Bool := false
  reports : List (Nat × SweepFig) := []
  /-- R286: reduction slots, results, owed records -/
  redSlots : List RedSlot := []
  redTab : Tab NredRes := []
  owed : List Owed := []
  /-- R42: this tile's own done word -/
  escl : Bool := false
  ffail : Bool := false
  late : Bool := false
  pmis : Bool := false
  retd : Bool := false
  errs : BitVec 16 := 0
  /-- R413: entries that wait for the translation of the error record -/
  errQ : List (List Byte) := []
  /-- R41: the tile's children that have reported, with their done words -/
  kidsDone : List (Nat × BitVec 32) := []
  doneSent : Bool := false
  meter : Tab Nat := []
  cal : BitVec 16 := 0x8000
  halted : Bool := false
  frozen : Bool := false
  /-- R302: stamps of the tasks on the tile's other cores -/
  otherStamps : List Nat := []
  otherBusy : Bool := false
  /-- R239: stamps of the sealed segments and unperformed engine operations of the tile's other cores; R260: barriers on which their tasks
  and matrix commands wait; R309: free bytes of their inboxes, by slot -/
  otherCommits : List Nat := []
  otherWaits : List (BitVec 6) := []
  otherFree : Tab Nat := []
  l2tlb : List Tlb := []
  faults : List FaultRec := []
  walkSerial : Nat := 0
  /-- R353, R360: answers of the other clusters that its TLBINV and ASIDSET await -/
  dropsOut : Nat := 0
  retired : Bool := false
  /-- R408: the partner tile has retired -/
  unpaired : Bool := false
  spareCore : Bool := false
  spareCol : Bool := false
  deriving DecidableEq, Repr

/-! ### Homes -/

/-- R224, R240: the tag of a word: the launch and the key that set it. -/
structure TagEnt where
  launch : Nat
  key : WKey
  deriving DecidableEq, Repr

/-- R393: a move of a block in progress, or one whose old copy still drains: function, entry, spare entry. -/
structure MoveRec where
  vf : BitVec 6
  entry : Nat
  spare : Nat
  committed : Bool
  deriving DecidableEq, Repr

structure HomeSt where
  /-- R440: bytes not listed read 0 (log entry 5) -/
  mem : List Host.Cell := []
  /-- by 8-byte word number; a word not listed has the least tag -/
  tags : Tab TagEnt := []
  poison : List Nat := []
  /-- R400: corrected errors, by controller, slice and scratchpad bank (`unitNum`) -/
  corrected : Tab Nat := []
  /-- R403: dead links, by their ends: clusters; 64 plus a die for its end at the hub die; 128 plus a port for both ends of a Wilwick link -/
  deadLinks : List (Nat × Nat) := []
  deadMask : BitVec 64 := 0
  retx : Tab Nat := []
  laneSpares : Tab Nat := []
  /-- R20: redundant rows in use, by array -/
  rowSpares : Tab Nat := []
  /-- R393: the move records of the dies -/
  moves : List MoveRec := []
  out : List Packet := []
  deriving DecidableEq, Repr

/-! ### Launch, functions, host -/

/-- R35. -/
structure Level where
  dom : BitVec 3
  scope : BitVec 3
  lg : Nat
  deriving DecidableEq, Repr

/-- R433: a link-map entry. -/
structure LinkEnt where
  cls : BitVec 4
  from0 : Nat
  from1 : Nat
  to0 : Nat
  to1 : Nat
  deriving DecidableEq, Repr

/-- R437: a leaf map of the placement. -/
structure LeafMap where
  launch : Nat
  leaf0 : Nat
  leaf1 : Nat
  core0 : Nat
  per : Nat
  deriving DecidableEq, Repr

/-- R433 to R437: the launch that this core's tile serves. -/
structure Launch where
  live : Bool := false
  tag : BitVec 16 := 0
  vf : BitVec 6 := 0
  svc : Bool := false
  wq : BitVec 10 := 0
  idx : Nat := 0
  levels : List Level := []
  stamp : BitVec 48 := 0
  frames : Nat := 8
  logsize : Nat := 32768
  inbox : Nat := 4096
  spill : Nat := 256
  /-- R61: bytes of the .tcm image of this core's role, rounded up -/
  image : Nat := 0
  migratory : Bool := false
  paired : Bool := false
  entry : BitVec 56 := 0
  trapvec : BitVec 54 := 0
  logovf : BitVec 50 := 0
  spillovf : BitVec 50 := 0
  /-- R116: values of the launch registers on their way, applied at the next activation start -/
  trapvecNext : BitVec 54 := 0
  logovfNext : BitVec 50 := 0
  spillovfNext : BitVec 50 := 0
  errrec : Nat := 0
  slices : Nat := 0
  classtab : List (BitVec 8) := []
  lahDecl : Tab Nat := []
  links : List LinkEnt := []
  leaves : List LeafMap := []
  /-- R310: base of the heaps (log entry 20) -/
  heapBase : Nat := 0
  deriving DecidableEq, Repr

/-- R371, R383, R418, R429: the window registers of a function. -/
structure VfRegs where
  vfctl : BitVec 2 := 0
  ctxbase : BitVec 31 := 0
  ecnt : Word := 0
  equota : Word := 0xFFFFFFFFFFFFFFFF
  code : BitVec 16 := 0
  cause : BitVec 2 := 0
  saving : Bool := false
  stopped : Bool := false
  epages : Word := 0
  btbase : BitVec 36 := 0
  btcnt : BitVec 32 := 0
  btfreeL : BitVec 32 := 0xFFFFFFFF
  btfreeH : BitVec 32 := 0xFFFFFFFF
  btnfreeL : BitVec 32 := 0
  btnfreeH : BitVec 32 := 0
  brkmap : BitVec 49 := 0
  brkva : BitVec 40 := 0
  brklen : BitVec 16 := 0
  dbgtid : Word := 0
  dbgtmask : Word := 0
  dbgcmd : BitVec 63 := 0
  dbgbusy : Bool := false
  mhtab : BitVec 53 := 0
  smpint : BitVec 32 := 0
  trbase : Vector (BitVec 29) 4 := Vector.replicate 4 0
  svccore : BitVec 13 := 0
  svchand : BitVec 54 := 0
  loadcmd : BitVec 46 := 0
  loadBusy : Bool := false
  loadst : BitVec 8 := 0
  /-- the placement in force (R437): leaf maps, and the role of each core -/
  leaves : List LeafMap := []
  roles : List (Nat × Nat) := []
  images : Tab Nat := []
  /-- R348: the root of its stage 2 (log entry 18) -/
  s2root : BitVec 52 := 0
  deriving DecidableEq, Repr

/-- R352: an entry of the ASID table (log entry 18). -/
structure AsidEnt where
  root : BitVec 52 := 0
  gen : BitVec 4 := 0
  count : Nat := 0
  deriving DecidableEq, Repr

/-- R430, R431. -/
structure Wq where
  en : Bool := false
  pri : BitVec 2 := 0
  svc : Bool := false
  vf : BitVec 6 := 0
  asid : BitVec 16 := 0
  qbase : BitVec 41 := 0
  qctl : BitVec 4 := 0
  tail : BitVec 32 := 0
  head : BitVec 32 := 0
  deriving DecidableEq, Repr

/-- R363. -/
structure Clasg where
  mode : BitVec 2 := 0
  quantum : BitVec 16 := 1000
  nshr : BitVec 2 := 0
  shr0 : BitVec 6 := 0
  shr1 : BitVec 6 := 0
  shr2 : BitVec 6 := 0
  shr3 : BitVec 6 := 0
  /-- R365: which sharer is resident -/
  cur : Nat := 0
  deriving DecidableEq, Repr

/-- R37, R434: a launch that runs on the package, for the launch unit. -/
structure RunInfo where
  tag : BitVec 16
  vf : BitVec 6
  wq : BitVec 10
  idx : Nat
  /-- ranges of cores that hold leaves -/
  cores : List (Nat × Nat)
  svc : Bool
  paired : Bool
  /-- R354: its first activation has started -/
  started : Bool
  deriving DecidableEq, Repr

structure HostSt where
  vfs : Tab VfRegs := []
  /-- numbered 65,536 times the function plus the identifier -/
  asids : Tab AsidEnt := []
  wqs : Tab Wq := []
  clasg : Tab Clasg := []
  running : List RunInfo := []
  /-- R352: the function and the identifier to which a launch has bound each core -/
  bound : Tab (BitVec 6 × BitVec 16) := []
  /-- R432: the queue whose record was taken last -/
  rr : Nat := 1023
  /-- R94, R439: retired tiles, and the replacement request -/
  retiredTiles : List Nat := []
  replReq : Bool := false
  /-- R438 (log entry 19) -/
  devStep : BitVec 8 := 0
  devFail : Bool := false
  deriving DecidableEq, Repr

/-- One turn of the machine (log entry 3): the core issues; it issues while the tasks of some frames await a result's latency or a busy
unit and are passed over (R98, log entry 4); a step of the opcode table comes, the environment supplying its operands; or the environment
says what the state does not hold: a write of a launch-held register by another core of the launch, or of a tile's register by another
core of the tile (R96, R116); the stamps of the tasks on the tile's other cores and whether those cores still have work outstanding; the
commit stamps, waits and inbox room of those cores (R239, R260, R309); that a launch of another root has started its first activation or
completed; a TLBINV or an ASIDSET of another core, or the answer to one of this core (R353, R359 to R361); that another tile has retired (R21, R408); the energy that other
tiles fold (R369); that a memory meets an error (R397, R400). -/
inductive Turn where
  | core
  | late (frames : List Nat)
  | event (i : Instr)
  | others (stamps : List Nat) (busy : Bool)
  | ended (tag : BitVec 16)
  | launchReg (n : BitVec 12) (v : Word)
  | tileReg (n : BitVec 12) (set clr : Word)
  | otherCores (commits : List Nat) (waits : List (BitVec 6)) (room : Tab Nat)
  | started (tag : BitVec 16)
  | tlbDrop (vf : BitVec 6) (asid : Option (BitVec 16)) (va : Option Nat)
  | harvest (vf : BitVec 6)
  | dropped
  | asidRoot (vf : BitVec 6) (id : BitVec 16) (root : Word)
  | asidCount (vf : BitVec 6) (id : BitVec 16) (n : Nat)
  | tileGone (tile : Nat)
  | energy (v : BitVec 6) (n : Nat)
  | memError (x : ErrSite) (double : Bool)
  deriving DecidableEq, Repr

/-- R365, R374, R375: what a switch of sharers has saved of a function on this core and tile (log entry 16). -/
structure SavedCtx where
  vf : BitVec 6
  /-- the scratchpads of the cluster, their tags and poison marks -/
  spm : List Host.Cell
  spmTags : Tab TagEnt
  spmPoison : List Nat
  tasks : List Task
  core : CoreSt
  tile : TileSt
  launch : Launch
  /-- R357: walks of its requesters that have been refused since -/
  refused : List Asker
  deriving DecidableEq, Repr

structure State where
  /-- the context that issues (R30); the core's other tasks -/
  cur : Task := {}
  rest : List Task := []
  core : CoreSt := {}
  tile : TileSt := {}
  home : HomeSt := {}
  launch : Launch := {}
  host : HostSt := {}
  saved : List SavedCtx := []
  /-- turns laid down by the environment, first to come first; with none, `step` chooses (log entry 3) -/
  sched : List Turn := []
  /-- numbers the free values used (log entry 8) -/
  fresh : Nat := 0
  deriving DecidableEq, Repr

/-- The machine right after reset: nothing runs (R27, R92 to R94, R258, R371, R431; log entries 1, 5, 6, 7, 13, 18, 19). -/
def State.reset : State := {}

/-- Why the machine stops. -/
inductive Fault where
  /-- raised by no meaning: the specification gives every instruction of this device an effect, so no step ends in a fault -/
  | none
  deriving DecidableEq, Repr

/-- Why an instruction is not executed. -/
inductive Refusal where
  /-- raised by an arm of exec whose instruction has no meaning yet (safe) -/
  | notModelled (mnemonic : String)
  deriving DecidableEq, Repr

end Sys2Proof.Machine
end

