-- ==== Sys2Proof/Machine/Mem.lean ====
section
/-! DEFINITION. Tables and byte memories as canonical lists, and little-endian words over them (R4). -/

namespace Sys2Proof.Machine

/-- The record a table holds for a number. -/
def tabGet? {α : Type} (t : Tab α) (k : Nat) : Option α :=
  match t with
  | [] => none
  | (j, x) :: r => if j = k then some x else tabGet? r k

/-- As `tabGet?`, with the record of a number that is not listed. -/
def tabGet {α : Type} (t : Tab α) (d : α) (k : Nat) : α := (tabGet? t k).getD d

def tabSet {α : Type} (t : Tab α) (k : Nat) (x : α) : Tab α :=
  match t with
  | [] => [(k, x)]
  | (j, y) :: r => if k < j then (k, x) :: (j, y) :: r else if k = j then (k, x) :: r else (j, y) :: tabSet r k x

def tabDel {α : Type} (t : Tab α) (k : Nat) : Tab α :=
  match t with
  | [] => []
  | (j, y) :: r => if k = j then r else (j, y) :: tabDel r k

/-- What an address that no entry lists reads as (log entry 5). -/
def unlisted : Byte := 0

/-- The byte at an address. -/
def memGet (m : List Host.Cell) (a : Nat) : Byte :=
  match m with
  | [] => unlisted
  | (j, x) :: r => if j = a then x else memGet r a

/-- The memory after a byte is written; writing the unlisted value removes the entry. -/
def memPut (m : List Host.Cell) (a : Nat) (b : Byte) : List Host.Cell :=
  match m with
  | [] => if b = unlisted then [] else [(a, b)]
  | (j, x) :: r =>
    if a < j then (if b = unlisted then (j, x) :: r else (a, b) :: (j, x) :: r)
    else if a = j then (if b = unlisted then r else (a, b) :: r)
    else (j, x) :: memPut r a b

/-- The canonical form: addresses rise strictly from `lo`, and no entry holds the unlisted value. -/
def memWfFrom (lo : Nat) (m : List Host.Cell) : Bool :=
  match m with
  | [] => true
  | (a, b) :: r => decide (lo ≤ a) && b != unlisted && memWfFrom (a + 1) r

/-- Equal memories are equal lists under this form. -/
def Memory.wf (m : List Host.Cell) : Bool := memWfFrom 0 m

def memGetN (m : List Host.Cell) (a : Nat) : Nat → List Byte
  | 0 => []
  | n + 1 => memGet m a :: memGetN m (a + 1) n

def memPutN (m : List Host.Cell) (a : Nat) : List Byte → List Host.Cell
  | [] => m
  | b :: bs => memPutN (memPut m a b) (a + 1) bs

/-- R4: the number of a little-endian byte sequence. -/
def leNat : List Byte → Nat
  | [] => 0
  | b :: bs => b.toNat + 256 * leNat bs

/-- R4: the n low bytes of a number, the least significant first. -/
def leBytes (n v : Nat) : List Byte :=
  match n with
  | 0 => []
  | n + 1 => BitVec.ofNat 8 v :: leBytes n (v / 256)

def leWord (bs : List Byte) : Word := BitVec.ofNat 64 (leNat bs)

/-- The low n bytes sign-extended to a word (R111, R244). -/
def sextBytes (n : Nat) (v : Nat) : Word :=
  if n = 0 then 0 else (BitVec.ofNat (8 * n) v).signExtend 64

def zextBytes (n : Nat) (v : Nat) : Word := BitVec.ofNat 64 (v % 2 ^ (8 * n))

/-- The least element of a list under a measure. -/
def leastBy {α : Type} (lt : α → α → Bool) : List α → Option α
  | [] => none
  | x :: r =>
    match leastBy lt r with
    | none => some x
    | some y => if lt y x then some y else some x

/-- R294: order of keys. -/
def keyLt (a b : ActKey) : Bool :=
  a.stamp < b.stamp || (a.stamp == b.stamp && (a.src < b.src || (a.src == b.src && a.seq < b.seq)))

/-- R223: order of write keys, component by component. -/
def wkeyLt (a b : WKey) : Bool :=
  a.stamp < b.stamp || (a.stamp == b.stamp && (a.writer < b.writer || (a.writer == b.writer &&
    (a.seg < b.seg || (a.seg == b.seg && (a.part < b.part || (a.part == b.part && a.idx < b.idx)))))))

/-- R293: infinity. -/
def inf48 : Nat := 2 ^ 48 - 1

/-- R293: a sum of a stamp and a lookahead. -/
def satAdd (a b : Nat) : Nat := if a + b ≥ inf48 then inf48 else a + b

def minList (l : List Nat) : Nat := l.foldl Nat.min inf48

/-! ### Places (R14 to R17, R440) -/

def tileOf (core : BitVec 13) : Nat := core.toNat / 8
def slotOf (core : BitVec 13) : Nat := core.toNat % 8
def clusterOf (tile : Nat) : Nat := tile / 16
def clusterX (c : Nat) : Nat := c % 8
def clusterY (c : Nat) : Nat := c / 8
/-- R14. -/
def dieOf (c : Nat) : Nat := 2 * (if clusterY c ≥ 4 then 1 else 0) + (if clusterX c ≥ 4 then 1 else 0)

/-- R17, R237, R440: the home of a local physical address, of a scratchpad its bank; none where no memory lies. -/
def homeOf (pa : Nat) : Option Home :=
  let l := pa % 2 ^ 42
  if l < 0x10000000000 then
    if l % 0x4000000000 < 3 * 0xC00000000 then some (.hbm (l / 0x4000000000) (l % 0x4000000000 / 0xC00000000))
    else none
  else if 0x20000000000 ≤ l ∧ l < 0x30000000000 then some .lpddr
  else if 0x30000000000 ≤ l ∧ l < 0x30000000000 + 4 * 0x4000000 then
    some (.sram ((l - 0x30000000000) / 0x4000000) (l / 256 % 16))
  else if 0x31000000000 ≤ l ∧ l < 0x31000000000 + 1024 * 0x80000 then some (.spm ((l - 0x31000000000) / 0x80000) (l / 8 % 32))
  else none

/-- R17: the cluster that holds a slice of a die. -/
def sliceCluster (die slice : Nat) : Nat :=
  8 * (4 * (die / 2) + slice / 4) + (4 * (die % 2) + slice % 4)

/-- R16: the cluster that hops to a home are counted to, from a die. -/
def homeCluster (fromDie : Nat) (h : Home) : Nat :=
  match h with
  | .spm t _ => clusterOf t
  | .sram d n => sliceCluster d n
  | .hbm d k =>
    let x := if d % 2 = 0 then 0 else 7
    let y := if d < 2 then k else 7 - k
    8 * y + x
  | .lpddr => 8 * (if fromDie < 2 then 3 else 4) + (if fromDie % 2 = 0 then 3 else 4)

/-- R47: whether a home lies in a scope, counted from a tile (log entry 12). -/
def homeInScope (tile : Nat) (scope : BitVec 3) (h : Home) : Bool :=
  match scope.toNat with
  | 0 => false
  | 1 => match h with | .spm t _ => t == tile | _ => false
  | 2 => match h with | .spm t _ => t / 4 == tile / 4 | _ => false
  | 3 => match h with | .spm t _ => clusterOf t == clusterOf tile | _ => false
  | 4 =>
    match h with
    | .spm t _ => dieOf (clusterOf t) == dieOf (clusterOf tile)
    | .sram d _ => d == dieOf (clusterOf tile)
    | .hbm d _ => d == dieOf (clusterOf tile)
    | .lpddr => false
  | _ => true

/-- R47: whether a core lies in a scope, counted from another core. -/
def coreInScope (a : BitVec 13) (scope : BitVec 3) (b : BitVec 13) : Bool :=
  match scope.toNat with
  | 0 => a == b
  | 1 => tileOf a == tileOf b
  | 2 => tileOf a / 4 == tileOf b / 4
  | 3 => clusterOf (tileOf a) == clusterOf (tileOf b)
  | 4 => dieOf (clusterOf (tileOf a)) == dieOf (clusterOf (tileOf b))
  | _ => true

/-- R325: mesh hops and bridge crossings of the dimension-order path between two clusters. -/
def meshHops (a b : Nat) : Nat :=
  let d (p q : Nat) : Nat := if p ≥ q then p - q else q - p
  d (clusterX a) (clusterX b) + d (clusterY a) (clusterY b)
def bridges (a b : Nat) : Nat :=
  (if (clusterX a < 4) == (clusterX b < 4) then 0 else 1) + (if (clusterY a < 4) == (clusterY b < 4) then 0 else 1)

/-- R325: the clusters of the dimension-order path from one cluster to another, x first; `swap` for the other order (R441). -/
def lineTo (p q : Nat) : List Nat :=
  if p ≤ q then (List.range (q - p + 1)).map (· + p) else (List.range (p - q + 1)).map (fun k => p - k)
def path (a b : Nat) (swap : Bool) : List Nat :=
  let xa := clusterX a; let ya := clusterY a; let xb := clusterX b; let yb := clusterY b
  if swap then (lineTo ya yb).map (fun y => 8 * y + xa) ++ ((lineTo xa xb).map (fun x => 8 * yb + x)).drop 1
  else (lineTo xa xb).map (fun x => 8 * ya + x) ++ ((lineTo ya yb).map (fun y => 8 * y + xb)).drop 1

/-- R403: whether a path between two clusters crosses a dead link. -/
def crossesDead (dead : List (Nat × Nat)) (p : List Nat) : Bool :=
  match p with
  | a :: b :: r => dead.contains (a, b) || dead.contains (b, a) || crossesDead dead (b :: r)
  | _ => false

end Sys2Proof.Machine
end

