-- ==== Sys2Proof/Machine/Mmu.lean ====
section
/-! DEFINITION. Page tables and the translations cached from them (R345 to R352). Walks read memory at its home. -/

namespace Sys2Proof.Machine

/-- R354: what a walk that stops reports. -/
structure WalkFault where
  word0 : Nat
  lvl : Nat
  perm : Bool
  malf : Bool
  s2walk : Bool
  s2 : Bool
  deriving DecidableEq, Repr

/-- R347: a table entry, its address and its level. -/
structure Pte where
  e : Word
  at_ : Nat
  lvl : Nat
  deriving DecidableEq, Repr

/-- R346: bits of the page that a leaf at a level maps. -/
def pageBits (lvl : Nat) : Nat := 46 - 10 * lvl

/-- R347. -/
def pteAddr (e : Word) : Nat := (e.extractLsb' 13 39).toNat * 8192

/-- R347: the conditions under which a valid entry is malformed. -/
def pteMalformed (e : Word) (lvl : Nat) : Bool :=
  e.extractLsb' 52 10 != 0 || e.extractLsb' 6 7 != 0 || (e.getLsbD 1 && lvl == 0) || (!e.getLsbD 1 && lvl == 3)
    || (e.getLsbD 1 && pteAddr e % 2 ^ pageBits lvl != 0)

/-- R241, R348, R401: the entry at an address as a walker reads it; none where the read fails: `deny` says which addresses are refused,
lost to a dead link, or poisoned. -/
def readPte (deny : Nat → Bool) (h : HomeSt) (pa : Nat) : Option Word :=
  if deny pa then none else some (leWord (memGetN h.mem pa 8))

/-- One level of a walk: a leaf, a next node, or a fault. -/
def pteStep (deny : Nat → Bool) (h : HomeSt) (pa lvl : Nat) : Except Bool (Word × Bool) :=
  match readPte deny h pa with
  | none => .error true
  | some e =>
    if !e.getLsbD 0 then .error false
    else if pteMalformed e lvl then .error true
    else .ok (e, e.getLsbD 1)

/-- R348, Stage2: `left` levels remain. A failure gives the level and whether the entry was malformed. -/
def walk2From (deny : Nat → Bool) (h : HomeSt) (node g : Nat) (lvl : Nat) : Nat → Except (Nat × Bool) Pte
  | 0 => .error (lvl, true)
  | left + 1 =>
    let pa := node + g / 2 ^ pageBits lvl % 1024 * 8
    match pteStep deny h pa lvl with
    | .error malf => .error (lvl, malf)
    | .ok (e, true) => .ok { e := e, at_ := pa, lvl := lvl }
    | .ok (e, false) => walk2From deny h (pteAddr e) g (lvl + 1) left

/-- R348: Stage2; none of a leaf for the physical function, whose stage 2 is the identity. -/
def stage2 (deny : Nat → Bool) (h : HomeSt) (vf : BitVec 6) (root g : Nat) : Except (Nat × Bool) (Nat × Option Pte) :=
  if vf = 0 then .ok (g, none)
  else if root = 0 then .error (0, false)
  else
    match walk2From deny h root g 0 4 with
    | .error f => .error f
    | .ok p => .ok (pteAddr p.e + g % 2 ^ pageBits p.lvl, some p)

/-- R348: the stage-1 walk, each of its entries read through stage 2. -/
def walk1From (deny : Nat → Bool) (h : HomeSt) (vf : BitVec 6) (root2 node va : Nat) (lvl : Nat) : Nat → Except WalkFault Pte
  | 0 => .error { word0 := va, lvl := lvl, perm := false, malf := true, s2walk := false, s2 := false }
  | left + 1 =>
    let ga := node + va / 2 ^ pageBits lvl % 1024 * 8
    match stage2 deny h vf root2 ga with
    | .error (l2, malf) =>
      .error { word0 := ga, lvl := l2, perm := false, malf := malf, s2walk := true, s2 := true }
    | .ok (pa, _) =>
      match pteStep deny h pa lvl with
      | .error malf =>
        .error { word0 := va, lvl := lvl, perm := false, malf := malf, s2walk := false, s2 := false }
      | .ok (e, true) => .ok { e := e, at_ := pa, lvl := lvl }
      | .ok (e, false) => walk1From deny h vf root2 (pteAddr e) va (lvl + 1) left

/-- R349: whether an access needs read, write, execute. -/
def needR : Access → Bool
  | .load => true | .store => false | .amo => true | .fetch => false
def needW : Access → Bool
  | .load => false | .store => true | .amo => true | .fetch => false
def needX : Access → Bool
  | .fetch => true | _ => false

/-- R349: the rights of the stage-1 leaf. -/
def rights1 (e : Tlb) (acc : Access) (priv : BitVec 2) : Bool :=
  (!needR acc || e.r) && (!needW acc || e.w) && (!needX acc || e.x) && (priv != 0 || e.t)

/-- R349: the rights of the stage-2 leaf. -/
def rights2 (e : Tlb) (acc : Access) : Bool :=
  (!needR acc || e.r2) && (!needW acc || e.w2) && (!needX acc || e.x2)

/-- R348, R350: the whole walk of a virtual address. -/
def walkVa (deny : Nat → Bool) (h : HomeSt) (vf : BitVec 6) (asid : BitVec 16) (gen : BitVec 4) (root1 root2 va : Nat) :
    Except WalkFault Tlb :=
  if root1 = 0 then .error { word0 := va, lvl := 0, perm := false, malf := false, s2walk := false, s2 := false }
  else
    match walk1From deny h vf root2 root1 va 0 4 with
    | .error f => .error f
    | .ok p =>
      let g := pteAddr p.e + va % 2 ^ pageBits p.lvl
      match stage2 deny h vf root2 g with
      | .error (l2, malf) =>
        .error { word0 := g, lvl := l2, perm := false, malf := malf, s2walk := false, s2 := true }
      | .ok (pa, q) =>
        let bits := match q with | none => pageBits p.lvl | some q => Nat.min (pageBits p.lvl) (pageBits q.lvl)
        let bit2 (k : Nat) : Bool := match q with | none => true | some q => q.e.getLsbD k
        .ok { vf := vf, asid := asid, gen := gen, va := va - va % 2 ^ bits, bits := bits, pa := pa - pa % 2 ^ bits,
              r := p.e.getLsbD 2, w := p.e.getLsbD 3, x := p.e.getLsbD 4, t := p.e.getLsbD 5,
              r2 := bit2 2, w2 := bit2 3, x2 := bit2 4, mig := p.e.getLsbD 63,
              d := p.e.getLsbD 62 && bit2 62, leaf1 := p.at_, leaf2 := match q with | none => 0 | some q => q.at_ }

/-- R350, R352: an entry that covers an address for a function and a binding. -/
def tlbMatches (vf : BitVec 6) (asid : BitVec 16) (gen : BitVec 4) (va : Nat) (e : Tlb) : Bool :=
  e.vf == vf && e.asid == asid && e.gen == gen && e.va ≤ va && va < e.va + 2 ^ e.bits

def tlbFind (l : List Tlb) (vf : BitVec 6) (asid : BitVec 16) (gen : BitVec 4) (va : Nat) : Option Tlb :=
  l.find? (tlbMatches vf asid gen va)

/-- R350: the 1,024 sets of eight ways of the second-level TLB, by page number (log entry 10). -/
def l2Set (e : Tlb) : Nat := e.va / 2 ^ e.bits % 1024
/-- A list with at most n entries of a set. -/
def capSet (k : Nat) : Nat → List Tlb → List Tlb
  | _, [] => []
  | n, x :: r => if l2Set x = k then (match n with | 0 => capSet k 0 r | n + 1 => x :: capSet k n r) else x :: capSet k n r
def l2Fill (l : List Tlb) (e : Tlb) : List Tlb := e :: capSet (l2Set e) 7 (l.filter (fun x => x != e))

/-- R350: a fill; the oldest entry leaves a full structure (log entry 10). -/
def tlbFill (cap : Nat) (l : List Tlb) (e : Tlb) : List Tlb := (e :: l.filter (fun x => x != e)).take cap

/-- R350: the address an entry translates to. -/
def tlbAddr (e : Tlb) (va : Nat) : Nat := e.pa + (va - e.va)

end Sys2Proof.Machine
end

