-- ==== Sys2Proof/Machine/Ops.lean ====
section
/-! DEFINITION. The named operations that meanings share: how an instruction ends, energy charges, the homes of shared
memory, TCM with the register cache over it, error entries, the end of a task, taking a trap and returning from one,
translation. -/

namespace Sys2Proof.Machine

/-- How an instruction ends short of completing. -/
inductive Stop where
  /-- a trap (R91, R97): cause, DETAIL, TVAL, and the state with what was charged before it -/
  | trap (cause : BitVec 6) (detail : BitVec 8) (val : Word) (s : State)
  /-- it waits: the state of R31 it waits in, and why -/
  | wait (st : TaskSt) (w : Wait) (s : State)
  /-- R265: element l of the stream of a field lies out of range; the elements before it move first, those of an output with the values
  given -/
  | xrange (f : Fld) (l : Nat) (vals : List Word) (s : State)
  /-- the activation consumes an error (R404): DETAIL, VAL and ADDR of its entry -/
  | err (detail : BitVec 8) (val addr : Word) (s : State)
  deriving DecidableEq, Repr

/-- What an instruction's meaning answers before it is finished. -/
abbrev Res (α : Type) := Except Stop α

/-! ### Trap causes (R97) -/

def cILLEGAL : BitVec 6 := 0x01
def cPRIV : BitVec 6 := 0x02
def cALIGN : BitVec 6 := 0x03
def cACCESS : BitVec 6 := 0x04
def cQUEUE : BitVec 6 := 0x05
def cSTREAM : BitVec 6 := 0x06
def cXRANGE : BitVec 6 := 0x07
def cHGEN : BitVec 6 := 0x08
def cBLOCK : BitVec 6 := 0x09
def cFDOM : BitVec 6 := 0x0A
def cFPOOL : BitVec 6 := 0x0B
def cSCALESEQ : BitVec 6 := 0x0C
def cMIGSTATE : BitVec 6 := 0x0D
def cLAHVIOL : BitVec 6 := 0x0E
def cMCAST : BitVec 6 := 0x0F
def cLOGOVF : BitVec 6 := 0x10
def cSPILLOVF : BitVec 6 := 0x11
def cSTALL : BitVec 6 := 0x12
def cBARRIER : BitVec 6 := 0x13
def cCLASS : BitVec 6 := 0x14
def cENGINE : BitVec 6 := 0x15
def cTRAPI : BitVec 6 := 0x16
def cBREAKI : BitVec 6 := 0x17

def trapR {α : Type} (cause : BitVec 6) (val : Word) (s : State) : Res α := .error (.trap cause 0 val s)
def trapD {α : Type} (cause : BitVec 6) (detail : BitVec 8) (val : Word) (s : State) : Res α :=
  .error (.trap cause detail val s)

/-! ### Small accessors -/

/-- Change the context that issues. -/
def State.onCur (s : State) (f : Task → Task) : State := { s with cur := f s.cur }
def State.onCore (s : State) (f : CoreSt → CoreSt) : State := { s with core := f s.core }
def State.onTile (s : State) (f : TileSt → TileSt) : State := { s with tile := f s.tile }
def State.onHome (s : State) (f : HomeSt → HomeSt) : State := { s with home := f s.home }
def State.onHost (s : State) (f : HostSt → HostSt) : State := { s with host := f s.host }

/-- The tile that holds this core (R14), its cluster, its die. -/
def State.tileId (s : State) : Nat := tileOf s.core.id
def State.clusterId (s : State) : Nat := clusterOf s.tileId
def State.dieId (s : State) : Nat := dieOf s.clusterId

/-- The registers of a function (R371). -/
def State.vfReg (s : State) (v : BitVec 6) : VfRegs := tabGet s.host.vfs {} v.toNat
def State.setVf (s : State) (v : BitVec 6) (r : VfRegs) : State :=
  s.onHost fun h => { h with vfs := tabSet h.vfs v.toNat r }

/-- R352: the table entry of an address space. -/
def asidIdx (vf : BitVec 6) (id : BitVec 16) : Nat := vf.toNat * 65536 + id.toNat
def State.asidEnt (s : State) (vf : BitVec 6) (id : BitVec 16) : AsidEnt := tabGet s.host.asids {} (asidIdx vf id)
def State.setAsid (s : State) (vf : BitVec 6) (id : BitVec 16) (e : AsidEnt) : State :=
  s.onHost fun h => { h with asids := tabSet h.asids (asidIdx vf id) e }

/-- R116: the launch registers as the issuing task sees them: its own writes at once, others once the core has applied them. -/
def State.trapvec (s : State) : BitVec 54 := s.cur.ownTrapvec.getD s.launch.trapvec
def State.logovf (s : State) : BitVec 50 := s.cur.ownLogovf.getD s.launch.logovf
def State.spillovf (s : State) : BitVec 50 := s.cur.ownSpillovf.getD s.launch.spillovf

/-- A write of a launch register on its way (R116). -/
def putLaunchReg (n : BitVec 12) (x : Word) (s : State) : State :=
  match n.toNat with
  | 0x100 => { s with launch := { s.launch with trapvecNext := x.extractLsb' 2 54 } }
  | 0x500 => { s with launch := { s.launch with logovfNext := x.extractLsb' 6 50 } }
  | 0x501 => { s with launch := { s.launch with spillovfNext := x.extractLsb' 6 50 } }
  | _ => s

/-- A fresh free value (log entry 8). -/
def State.free (s : State) : Word × State := (Config.freeWord s.fresh, { s with fresh := s.fresh + 1 })

/-- The tasks of the core: the issuing context and the others, the ended ones left out. -/
def State.tasks (s : State) : List Task := (s.cur :: s.rest).filter fun t => t.st != .ended && !t.shadow

/-- Two names of one task (R38). -/
def sameTask (t : Task) (tid : Word) (origin : BitVec 13) : Bool := t.tid == tid && t.origin == origin

/-- Apply a change to the tasks of the core that a test selects. -/
def State.mapTasks (s : State) (p : Task → Bool) (f : Task → Task) : State :=
  { s with cur := if p s.cur then f s.cur else s.cur, rest := s.rest.map fun t => if p t then f t else t }

/-! ### General registers -/

/-- R23, R80: w0 reads zero. -/
def Task.getW (t : Task) (k : BitVec 4) : Word := if k = 0 then 0 else t.w[k.toNat]
/-- R80: a write of w0 is discarded. -/
def Task.setW (t : Task) (k : BitVec 4) (x : Word) : Task :=
  if k = 0 then t else { t with w := t.w.set k.toNat x }

def State.getW (s : State) (k : BitVec 4) : Word := s.cur.getW k
def State.setW (s : State) (k : BitVec 4) (x : Word) : State := s.onCur fun t => t.setW k x

/-- The low four bits of a field that names w0 to w15. -/
def wIdx (f : Fld) : BitVec 4 := f.extractLsb' 0 4
/-- A field that names w0 to w15 (R248, R312, R319). -/
def State.rw (s : State) (f : Fld) : Word := s.getW (wIdx f)
def State.ww (s : State) (f : Fld) (x : Word) : State := s.setW (wIdx f) x

/-- R24: the status byte. -/
def Task.statusByte (t : Task) : BitVec 8 :=
  BitVec.ofBool t.mig ++ BitVec.ofBool t.esc ++ BitVec.ofBool t.pair ++ BitVec.ofBool t.hvy ++ t.priv
    ++ BitVec.ofBool t.inu ++ 0#1

/-- R24: word k of a workspace; word 0 shows the PC as the context holds it (log entry 21). -/
def Task.wsWord (t : Task) (k : Nat) : Word :=
  if k = 0 then t.statusByte ++ (t.pc.extractLsb' 2 54 ++ 0#2 : BitVec 56) else t.getW (BitVec.ofNat 4 k)

/-! ### Energy (R367, R368) -/

inductive Charge where
  | alu | mul | div | br | tcm | smem | amo | ord | msg | task | bar | strm | xfer | blk | csr | sys | valu | vcvt
  | vmem | vperm | vred | vtran | mma8 | mma16 | mctl | mdrn | falg | fcalc | fio
  deriving DecidableEq, Repr

/-- R368, in femtojoules. -/
def Charge.nominal : Charge → Nat
  | .alu => 1200 | .mul => 3600 | .div => 30000 | .br => 1400 | .tcm => 2500 | .smem => 4000 | .amo => 6000
  | .ord => 3000 | .msg => 5000 | .task => 4000 | .bar => 3000 | .strm => 4000 | .xfer => 20000 | .blk => 25000
  | .csr => 1200 | .sys => 5000 | .valu => 14000 | .vcvt => 10000 | .vmem => 9000 | .vperm => 8000 | .vred => 12000
  | .vtran => 60000 | .mma8 => 31200000 | .mma16 => 96000000 | .mctl => 400000 | .mdrn => 3000000
  | .falg => 20000 | .fcalc => 20000 | .fio => 30000

/-- R367: the tile's meter charges n events of some nominal energy to a function, each rounded down. -/
def chargeMany (vf : BitVec 6) (n nominal : Nat) (s : State) : State :=
  s.onTile fun t =>
    let x := tabGet t.meter 0 vf.toNat + n * (nominal * t.cal.toNat / 2 ^ 15)
    { t with meter := tabSet t.meter vf.toNat x }
def chargeTo (vf : BitVec 6) (nominal : Nat) (s : State) : State := chargeMany vf 1 nominal s

/-- R370, R398: a cost of which no rule gives the energy (log entry 8). -/
def chargeOpen (vf : BitVec 6) (s : State) : State :=
  let (x, s) := s.free
  chargeTo vf (x.toNat % 2 ^ 32) s

def charge (c : Charge) (s : State) : State := chargeTo s.core.vf c.nominal s

/-- R99, R249: an instruction that waits and is taken up again is charged once (log entry 9). -/
def chargeOnce (c : Charge) (s : State) : State :=
  if s.cur.paid then s else (charge c s).onCur fun t => { t with paid := true }

/-- R368: MSRAM, MHBM, MLPD, per 64 bytes. -/
def tierCost : Home → Nat
  | .spm _ _ => 40000 | .sram _ _ => 40000 | .hbm _ _ => 1120000 | .lpddr => 2100000

/-- R367: `units` units of 64 bytes at a home. -/
def chargeHome (h : Home) (units : Nat) (s : State) : State := chargeMany s.core.vf units (tierCost h) s

/-- R367, R368: a packet of some flits between this tile and a cluster: NHOP for each flit and hop, NBRG for each flit and crossing. -/
def chargeNet (cluster flits : Nat) (s : State) : State :=
  let a := s.clusterId
  chargeMany s.core.vf (flits * bridges a cluster) 300000
    (chargeMany s.core.vf (flits * (meshHops a cluster + Config.butterflyHops s.tileId cluster)) 100000 s)

/-- R328: flits of a packet with so many payload bytes. -/
def flits (payload : Nat) : Nat := 1 + (payload - 64 + 127) / 128

/-- An access to a home: its packets both ways and its units. -/
def chargeAccess (pa n : Nat) (s : State) : State :=
  match homeOf pa with
  | none => s
  | some h => chargeHome h ((n + 63) / 64) (chargeNet (homeCluster s.dieId h) (1 + flits n) s)

/-! ### Homes (R224, R229, R230, R240, R241, R401) -/

/-- R403, R241: whether a packet between this tile and the home of an address would cross a dead link. -/
def lostTo (s : State) (pa : Nat) : Bool :=
  match homeOf pa with
  | none => false
  | some h => crossesDead s.home.deadLinks (path s.clusterId (homeCluster s.dieId h) false)

/-- R241: of a read, the request or the reply. -/
def lostRead (s : State) (pa : Nat) : Bool :=
  lostTo s pa ||
  match homeOf pa with
  | none => false
  | some h => crossesDead s.home.deadLinks (path (homeCluster s.dieId h) s.clusterId false)

/-- R363, R365: the resident partition of a cluster. -/
def residentOf (s : State) (c : Nat) : BitVec 6 :=
  let g := tabGet s.host.clasg {} c
  if g.mode == 1 then g.shr0
  else if g.mode == 2 then (([g.shr0, g.shr1, g.shr2, g.shr3])[g.cur]?).getD g.shr0
  else 0

/-- R21, R440: an address without memory. -/
def noMemory (s : State) (pa : Nat) : Bool :=
  match homeOf pa with
  | none => true
  | some (.spm t _) => s.host.retiredTiles.contains t
  | some _ => false
/-- R241, R364, R365, R366, R440: whether an access of a function from some cluster is refused, by its home or by the router before
it. -/
def refusedFrom (s : State) (cluster : Nat) (vf : BitVec 6) (pa : Nat) : Bool :=
  s.home.deadMask.getLsbD vf.toNat || noMemory s pa ||
  match homeOf pa with
  | some (.spm t _) =>
    residentOf s (clusterOf t) != vf || ((tabGet s.host.clasg {} (clusterOf t)).mode == 2 && clusterOf t != cluster)
  | _ => false
/-- The same from this cluster. -/
def refusedAt (s : State) (vf : BitVec 6) (pa : Nat) : Bool := refusedFrom s s.clusterId vf pa

/-- R241, R348, R401: the addresses that a walker of this cluster cannot read for a function. -/
def walkDeny (s : State) (vf : BitVec 6) (pa : Nat) : Bool :=
  lostRead s pa || refusedAt s vf pa || s.home.poison.contains (pa / 8)

/-- R401: any poisoned word in a range. -/
def anyPoison (poison : List Nat) (a n : Nat) : Bool :=
  poison.any fun k => k * 8 < a + n && a < k * 8 + 8

/-- R401: the poison marks after an applied write: a whole word clears its mark. -/
def poisonAfter (poison : List Nat) (a n : Nat) : List Nat :=
  poison.filter fun k => !(decide (a ≤ k * 8) && decide (k * 8 + 8 ≤ a + n))

/-- R222: an in-place write, neither testing nor changing a tag. -/
def homePut (h : HomeSt) (pa : Nat) (bs : List Byte) : HomeSt :=
  { h with mem := memPutN h.mem pa bs, poison := poisonAfter h.poison pa bs.length }

/-- R224, R240: whether a keyed write to a word is applied. -/
def tagBeaten (h : HomeSt) (launch : Nat) (key : WKey) (word : Nat) : Bool :=
  match tabGet? h.tags word with
  | none => true
  | some t => t.launch != launch || wkeyLt t.key key

/-- R224: a keyed write of bytes that lie in one word. -/
def homeKeyed (h : HomeSt) (launch : Nat) (key : WKey) (pa : Nat) (bs : List Byte) : HomeSt :=
  if tagBeaten h launch key (pa / 8) then
    { homePut h pa bs with tags := tabSet h.tags (pa / 8) { launch := launch, key := key } }
  else h

/-- A keyed write of any aligned length, word by word (R234: a 64-byte record covers eight words). -/
def homeKeyedN (h : HomeSt) (launch : Nat) (key : WKey) (pa : Nat) (bs : List Byte) (bump : Bool) : Nat → HomeSt
  | 0 => h
  | n + 1 =>
    let k := 8 - pa % 8
    if bs.length ≤ k then homeKeyed h launch key pa bs
    else homeKeyedN (homeKeyed h launch key pa (bs.take k)) launch
      (if bump then { key with idx := key.idx + 1 } else key) (pa + k) (bs.drop k) bump n

/-! ### TCM and the register cache (R25, R26, R111 to R113) -/

/-- R26: the context whose live workspace holds a TCM byte. -/
def State.wsOwner (s : State) (a : Nat) : Option Task :=
  s.tasks.find? fun t => t.wp.toNat ≤ a && a < t.wp.toNat + 128

def byteOf (x : Word) (k : Nat) : Byte := x.extractLsb' (8 * k) 8
def setByte (x : Word) (k : Nat) (b : Byte) : Word :=
  (x &&& ~~~((0xFF : Word) <<< (8 * k))) ||| (b.setWidth 64 <<< (8 * k))

/-- One TCM byte as an instruction or an engine reads it. -/
def tcmByte (s : State) (a : Nat) : Byte :=
  match s.wsOwner a with
  | some t => byteOf (t.wsWord ((a - t.wp.toNat) / 8)) ((a - t.wp.toNat) % 8)
  | none => memGet s.core.tcm a

def tcmBytes (s : State) (a : Nat) : Nat → List Byte
  | 0 => []
  | n + 1 => tcmByte s a :: tcmBytes s (a + 1) n

/-- R24, R26: a context with one byte of its workspace written. Of word 0 only MIG and the PC are writable. -/
def Task.putWsByte (t : Task) (off : Nat) (b : Byte) : Task :=
  let x := setByte (t.wsWord (off / 8)) (off % 8) b
  if off / 8 = 0 then { t with mig := x.getLsbD 63, pc := x.extractLsb' 2 54 ++ 0#2 }
  else t.setW (BitVec.ofNat 4 (off / 8)) x

def tcmPutByte (s : State) (a : Nat) (b : Byte) : State :=
  match s.wsOwner a with
  | some o => s.mapTasks (fun t => t.st != .ended && !t.shadow && t.wp == o.wp) fun t => t.putWsByte (a - t.wp.toNat) b
  | none => s.onCore fun c => { c with tcm := memPut c.tcm a b }

def tcmPutBytes (s : State) (a : Nat) : List Byte → State
  | [] => s
  | b :: bs => tcmPutBytes (tcmPutByte s a b) (a + 1) bs

/-- R61: the carve-outs of the launch: run queue, spill stacks, store log, inbox. -/
def State.spillBase (s : State) : Nat := s.launch.image + 128 * s.launch.frames
def State.logBase (s : State) : Nat := s.spillBase + s.launch.frames * s.launch.spill
def State.inboxBase (s : State) : Nat := s.logBase + s.launch.logsize
def State.inboxEnd (s : State) : Nat := s.inboxBase + s.launch.inbox
/-- R28. -/
def State.spillBot (s : State) (frame : Nat) : Nat := s.spillBase + frame * s.launch.spill

def overlaps (a n b m : Nat) : Bool := a < b + m && b < a + n

/-- R197: a write to the tile or scale record of a command held in a history waits for a checkpoint, which empties the
history. -/
def histTouch (a n : Nat) (l : List MxHist) : List MxHist :=
  if l.any fun h => overlaps a n h.a h.n || (match h.rec_ with | none => false | some r => overlaps a n r 72) then [] else l
/-- R197: a history that a checkpoint has emptied leaves the checkpoint as the base. -/
def chkAfter (chk : Bool) (before after : List MxHist) : Bool := chk || (!before.isEmpty && after.isEmpty)
def mxTouch (a n : Nat) (m : MxCtx) : MxCtx :=
  let h0 := histTouch a n m.hist0
  let h1 := histTouch a n m.hist1
  { m with hist0 := h0, hist1 := h1, chk0 := chkAfter m.chk0 m.hist0 h0, chk1 := chkAfter m.chk1 m.hist1 h1 }

/-- A TCM write with its effect on poison marks (R401) and on the matrix histories. -/
def tcmPut (s : State) (a : Nat) (bs : List Byte) : State :=
  (tcmPutBytes s a bs).onCore fun c =>
    { c with tcmPoison := poisonAfter c.tcmPoison a bs.length, mx := mxTouch a bs.length c.mx }

/-- R112: what a task below service privilege may not write. -/
def storeRefused112 (s : State) (priv : BitVec 2) (a n : Nat) : Bool :=
  priv == 0 && ((s.launch.live && overlaps a n s.logBase (s.inboxEnd - s.logBase)) ||
    s.tasks.any fun t => overlaps a n t.wp.toNat 8)

/-- R26: word 0 of a workspace that is live in a ready or running slot. -/
def storeRefused26 (s : State) (a n : Nat) : Bool :=
  s.tasks.any fun t => overlaps a n t.wp.toNat 8 && t.slot.isSome && (t.st == .ready || t.st == .running)

/-- R191, R268, R392: whether a stream of a task has pushed and not written a byte of a range. -/
def elemCoord (p : Pattern) (l : Nat) : List Int :=
  match p.counts with
  | [] => []
  | cs =>
    (cs.foldl (fun (acc : Nat × List Int) c =>
      let n := c.natAbs
      let j : Int := Int.ofNat (acc.1 % n)
      (acc.1 / n, acc.2 ++ [if c < 0 then -j else j])) (l, [])).2

/-- R265: whether an element lies in bounds, and its address. -/
def elemInb (p : Pattern) (l : Nat) : Bool :=
  ((elemCoord p l).zip p.bounds).all fun x => x.2.1 ≤ x.1 && x.1 < x.2.2
def elemAddr (p : Pattern) (l : Nat) : Int :=
  ((elemCoord p l).zip p.strides).foldl (fun a x => a + x.1 * x.2) (Int.ofNat p.base)

/-- The stream that a field s0 to s7 names. -/
def strmOf (t : Task) (f : Fld) : Option Stream := (t.streams[f.toNat - 16]?).join
def setStrm (f : Fld) (x : Option Stream) (t : Task) : Task :=
  { t with streams := t.streams.setIfInBounds (f.toNat - 16) x }

/-- R268: one element pushed: it takes its place in the open segment when it will become a record. -/
def pushElem (f : Fld) (st : Stream) (x : Word) (s : State) : State :=
  let inb := elemInb st.pat st.pos
  let st' := { st with pos := st.pos + 1,
                       pushed := if inb then st.pushed ++ [{ l := st.pos, v := x, idx := s.cur.recCtr }] else st.pushed }
  s.onCur fun t => setStrm f (some st') { t with recCtr := if inb && !st.tcm then t.recCtr + 1 else t.recCtr }

/-- R10, R265: the elements before element l of a stream have moved: those of an input are popped, those of an output pushed. -/
def moveBefore (f : Fld) (l : Nat) (vals : List Word) (s : State) : State :=
  match strmOf s.cur f with
  | none => s
  | some st =>
    if st.pat.out then
      vals.foldl (fun s x => match strmOf s.cur f with | none => s | some st => pushElem f st x s) s
    else s.onCur (setStrm f (some { st with pos := Nat.max st.pos l, fetched := st.fetched.drop (l - st.pos) }))

def streamBusy (st : Stream) (a n : Nat) : Bool :=
  st.tcm && st.pat.out && st.pushed.any fun e =>
    elemInb st.pat e.l && overlaps a n (elemAddr st.pat e.l).toNat (2 ^ st.pat.sz)

def engBusy (c : CoreSt) (a n : Nat) : Bool :=
  c.eng.toList.any fun q => q.any fun o =>
    match o.kind with
    | .get _ _ ta len _ => o.started && !o.finished && overlaps a n (ta + o.moved) (len - o.moved)
    | .put _ _ ta len _ => o.started && !o.finished && overlaps a n (ta + o.moved) (len - o.moved)
    | _ => false

/-- R176: bytes of a tile in a format. -/
def tileBytes (f : BitVec 3) : Nat := 4096 * fmtWidth f / 8

/-- R188, R191: a byte of a pending MDRAIN's destination in TCM. -/
def drainBusy (c : CoreSt) (a n : Nat) : Bool :=
  c.mx.queue.any fun m => m.fn == .mdrain && m.dst.getLsbD 63 &&
    overlaps a n ((m.dst.extractLsb' 0 17).toNat + 64 * m.moved) (tileBytes m.fmt - 64 * m.moved)

/-- R191: a byte of a tile or scale record that a queued command has yet to read. -/
def mxSource (c : CoreSt) (a n : Nat) : Bool :=
  c.mx.queue.any fun m => !m.started &&
    match m.fn with
    | .mlatch => overlaps a n m.base (tileBytes m.fmtb) || (m.fmtb == 7 && overlaps a n m.ptrB 72)
    | .mma => overlaps a n m.base (tileBytes m.fmta) || (m.fmta == 7 && overlaps a n m.ptrA 72)
    | .mmas => overlaps a n m.base (tileBytes m.fmta) || (m.fmta == 7 && overlaps a n m.ptrA 72)
    | _ => false

/-- R98, R169, R253: a scalar field, stream or queue register to which something outstanding has yet to write: a load, an atomic, an
arrival, a column-unit request. -/
def wBusy (t : Task) (f : Fld) : Bool :=
  f != 0 && (t.loads.any (fun l => (!l.vec || decide (16 ≤ f)) && l.dst == f) ||
    t.amos.any (fun a => a.dst == f) ||
    t.arrives.any (fun a => a.1 == f) ||
    (decide (16 ≤ f) && t.vtPend.any fun p => p.vd == f))
/-- R98: a register that an outstanding load has yet to write. -/
def wLoading (t : Task) (f : Fld) : Bool := f != 0 && t.loads.any fun l => (!l.vec || decide (16 ≤ f)) && l.dst == f

/-- R26: bytes of a live workspace whose register an earlier instruction of its task has yet to write. -/
def wsBusy (s : State) (a n : Nat) : Bool :=
  s.tasks.any fun t => (List.range 16).any fun k => wBusy t (BitVec.ofNat 5 k) && overlaps a n (t.wp.toNat + 8 * k) 8

/-- A TCM range that a stream, a transfer, a drain or an outstanding register write of the core has not finished with. -/
def tcmBusy (s : State) (a n : Nat) : Bool :=
  s.tasks.any (fun t => t.streams.toList.any fun x => match x with | none => false | some st => streamBusy st a n)
    || engBusy s.core a n || drainBusy s.core a n || wsBusy s a n

/-- What a write of TCM waits for as well (R191). -/
def tcmBusyW (s : State) (a n : Nat) : Bool := tcmBusy s a n || mxSource s.core a n

/-- An instruction's read of TCM: it stalls behind pushed elements, and a poisoned word is consumed (R401). -/
def tcmRead (s : State) (a n : Nat) : Res (List Byte) :=
  if tcmBusy s a n then .error (.wait s.cur.st (.tcmBusy a n) s)
  else if anyPoison s.core.tcmPoison a n then
    let (x, s) := s.free
    .error (.err 1 x 0 s)
  else .ok (tcmBytes s a n)

/-- An instruction's write of TCM. -/
def tcmWrite (s : State) (a : Nat) (bs : List Byte) : Res State :=
  if tcmBusyW s a bs.length then .error (.wait s.cur.st (.tcmBusy a bs.length) s) else .ok (tcmPut s a bs)

/-! ### Error records (R412, R413) -/

/-- An address of the launch's address space, translated for a device agent without filling a TLB. -/
def agentXlat (s : State) (va : Nat) : Option Nat :=
  let e := s.asidEnt s.core.vf s.core.asid
  match walkVa (walkDeny s s.core.vf) s.home s.core.vf s.core.asid e.gen e.root.toNat (s.vfReg s.core.vf).s2root.toNat va with
  | .error _ => none
  | .ok t => if t.r && t.w && t.r2 && t.w2 then some (tlbAddr t va) else none
/-- R413: whether it faults (page) instead: a walk that ends in a fault, or a right that stage 2 withholds. -/
def agentFaults (s : State) (va : Nat) : Bool :=
  let e := s.asidEnt s.core.vf s.core.asid
  match walkVa (walkDeny s s.core.vf) s.home s.core.vf s.core.asid e.gen e.root.toNat (s.vfReg s.core.vf).s2root.toNat va with
  | .error _ => true
  | .ok t => t.r && t.w && !(t.r2 && t.w2)
theorem agentFaults_of_some {s : State} {va pa : Nat} (h : agentXlat s va = some pa) : agentFaults s va = false := by
  simp only [agentXlat, agentFaults] at *
  split at h
  · cases h
  · split at h
    · simp_all
    · cases h

/-- R412: the bytes of an entry. -/
def errEntryBytes (kind redel : BitVec 8) (cause : BitVec 6) (detail : BitVec 8) (core : BitVec 13)
    (tid addr val : Word) : List Byte :=
  let info : Word := kind ++ redel ++ cause ++ 0#2 ++ detail ++ 0#19 ++ core
  leBytes 8 info.toNat ++ leBytes 8 tid.toNat ++ leBytes 8 addr.toNat ++ leBytes 8 val.toNat

def satInc16 (x : BitVec 16) : BitVec 16 := if x = 0xFFFF then x else x + 1

/-- R42: one more error recorded against the tile. -/
def errCount (n : Nat) (s : State) : State :=
  s.onTile fun t => { t with errs := if t.errs.toNat + n > 0xFFFF then 0xFFFF else t.errs + BitVec.ofNat 16 n }

/-- R413: an index is reserved and the entry written, or a drop counted; none where the record faults (page). -/
def errWrite (bytes : List Byte) (s : State) : Option State :=
  if agentFaults s s.launch.errrec then none
  else
    match agentXlat s s.launch.errrec with
    | none => some s
    | some pa =>
      if refusedAt s s.core.vf pa || anyPoison s.home.poison pa 32 then some s
      else
        let next := leNat (memGetN s.home.mem pa 8)
        let cap := leNat (memGetN s.home.mem (pa + 8) 8)
        let h := homePut s.home pa (leBytes 8 (next + 1))
        let drop (h : HomeSt) : HomeSt := homePut h (pa + 16) (leBytes 8 (leNat (memGetN h.mem (pa + 16) 8) + 1))
        if next ≥ cap then some { s with home := drop h }
        else if agentFaults s (s.launch.errrec + 32 + 32 * next) then none
        else
          match agentXlat s (s.launch.errrec + 32 + 32 * next) with
          | none => some { s with home := drop h }
          | some q =>
            if refusedAt s s.core.vf q || anyPoison h.poison q 32 then some { s with home := drop h }
            else some { s with home := homePut h q bytes }

/-- R413: an entry that waits for a translation, behind those that wait. -/
def errLater (bytes : List Byte) (s : State) : State := s.onTile fun t => { t with errQ := t.errQ ++ [bytes] }

/-- R413: the tile's error agent takes an entry. -/
def errEntry (bytes : List Byte) (s : State) : State :=
  let s := errCount 1 s
  if s.launch.errrec = 0 then s
  else if s.tile.errQ.isEmpty then (errWrite bytes s).getD (errLater bytes s)
  else errLater bytes s

/-- R413: the entries that wait are written, in order, until one faults again. -/
def flushErr : List (List Byte) → State → State
  | [], s => s.onTile fun t => { t with errQ := [] }
  | b :: l, s => match errWrite b s with
    | none => s.onTile fun t => { t with errQ := b :: l }
    | some s => flushErr l s
/-- R413: an entry that is refused: its index is taken, and it is dropped where that can be written. -/
def errDrop (s : State) : State :=
  match agentXlat s s.launch.errrec with
  | none => s
  | some pa =>
    let add (a : Nat) (h : HomeSt) : HomeSt := homePut h a (leBytes 8 (leNat (memGetN h.mem a 8) + 1))
    if refusedAt s s.core.vf pa || anyPoison s.home.poison pa 32 then s else s.onHome fun h => add (pa + 16) (add pa h)

/-- R123, R412: the entry of an escalated trap of a task. -/
def trapEntry (t : Task) (cause : BitVec 6) (detail : BitVec 8) (tepc : Word) (val : Word) (s : State) : State :=
  let s := errEntry (errEntryBytes 1 (BitVec.ofNat 8 t.redel) cause detail s.core.id t.tid tepc val) s
  s.onTile fun x => { x with escl := true }

/-! ### The end of a task -/

/-- R202: the granules of a run, freed. -/
def freeRuns (frame : Nat) (c : CoreSt) : CoreSt := { c with runs := c.runs.filter fun r => r.frame != frame }

/-- R174: whether a task owns the matrix context. -/
def ownsMx (c : CoreSt) (t : Task) : Bool := c.mx.owner == some (t.tid, t.origin)

/-- R174: at its owner's end the context is released, once its queue has drained. -/
def releaseMx (t : Task) (c : CoreSt) : CoreSt :=
  if !ownsMx c t then c
  else if c.mx.queue.isEmpty then { c with mx := {} }
  else { c with mx := { c.mx with seqA := t.sclaSeq, seqB := t.sclbSeq } }

/-- R309: bytes of inbox space of a message with a payload of n bytes. -/
def msgBytes (n : Nat) : Nat := 16 + (n + 15) / 16 * 16

/-- R118, R279: the completions of an ended task become activations; each takes the traps of its transfer with it. -/
def orphansOf (t : Task) : List Orphan :=
  t.comps.map fun c => { compl := c, traps := t.traps.filter (fun p => p.op == some c.op), stamp := t.stamp,
                         priv := t.priv, tag := t.tid.extractLsb' 48 16, leaf := t.tid.extractLsb' 24 24 }

/-- R118: engine traps that no handler's activation takes escalate, with a TEPC of 0. -/
def escalateTraps (t : Task) : List PendTrap → State → State
  | [], s => s
  | p :: ps, s => escalateTraps t ps (if p.op.isNone && p.cause != cSTALL then trapEntry t p.cause p.detail 0 p.val s else s)

/-- R337: the oldest word of an inbound channel buffer, and the credit that its pop returns (R335). -/
def popChan (ch : BitVec 3) (k : Nat) (s : State) : List Word × State :=
  let buf := s.core.chan[ch.toNat]
  let peer := match buf with | [] => 0 | x :: _ => x.1
  let s := s.onCore fun c => { c with chan := c.chan.set ch.toNat (buf.drop k) }
  ((buf.take k).map (·.2), s.onHome fun h => { h with out := h.out ++ [.credit peer ch k] })

/-- R118, R275, R335: the words an inbound channel binding leaves behind are discarded and their credits returned. -/
def dropInbound (q : QBind) (s : State) : State :=
  if q.outb || q.cls.isSome || (s.core.chan[q.ch.toNat]).isEmpty then s
  else (popChan q.ch (s.core.chan[q.ch.toNat]).length s).2

/-- R26: when a context leaves its workspace, TCM holds what the register cache held. -/
def wsBytes (t : Task) : List Byte := ((List.range 16).map fun k => leBytes 8 (t.wsWord k).toNat).flatten
def flushWs (t : Task) (s : State) : State :=
  if t.shadow then s else s.onCore fun c => { c with tcm := memPutN c.tcm t.wp.toNat (wsBytes t) }

/-- R309: space freed out of order is reclaimed when the region's head reaches it. -/
def reclaim : List InChunk → List InChunk
  | [] => []
  | x :: l => if x.live then x :: l else reclaim l
def freeChunk (off : Nat) (c : CoreSt) : CoreSt :=
  { c with inbox := reclaim (c.inbox.map fun x => if x.off == off && x.live then { x with live := false } else x) }
def freeChunk? (off : Option Nat) (c : CoreSt) : CoreSt := match off with | none => c | some k => freeChunk k c

/-- R332: a word popped from a class binding; the last one of a message frees its inbox space. -/
def popPart : List (Nat × Nat) → List (Nat × Nat) × Option Nat
  | [] => ([], none)
  | (off, n) :: l => if n ≤ 1 then (l, some off) else ((off, n - 1) :: l, none)

/-- R275: what a binding leaves behind when it is unbound or its task ends. -/
def dropBinding (q : QBind) (s : State) : State :=
  (dropInbound q s).onCore fun c => q.parts.foldl (fun c p => freeChunk p.1 c) c

/-- R251: whether a task has failures to report. -/
def anyFail (t : Task) : Bool := t.failBig || t.failRefused || t.failDead
/-- R42, R251: failures that no FENCE reports are reported by the tile. -/
def reportFails (t : Task) (s : State) : State :=
  if anyFail t then errCount t.fails (s.onTile fun x => { x with ffail := true }) else s

/-- What every end of a task frees (R118, R309), with the failures it has not reported (R251). -/
def endCur (s : State) : State :=
  let t := s.cur
  let s := escalateTraps t t.traps s
  let s := s.onCore fun c => freeChunk? t.inboxAt { releaseMx t (freeRuns t.frame c) with
    orphans := c.orphans ++ orphansOf t }
  let s := reportFails t s
  let s := flushWs t ((t.qs.toList.filterMap id).foldl (fun s q => dropBinding q s) s)
  { s with cur := { t with st := .ended, wait := none, slot := none, streams := Vector.replicate 8 none,
                           qs := Vector.replicate 6 none, hvy := false, recs := [], held := [], traps := [],
                           comps := [], fails := 0, inboxAt := none, deposits := [] } }

/-- R234, R236: bytes that records take in the overflow region. -/
def ovfBytes (recs : List Rec) : Nat :=
  ((recs.filter fun r => r.ovf).map fun r => if r.data.length > 8 then 80 else 16).sum

/-- R123, R404: a task that ends on an error: what it has not published is discarded. -/
def discardCur (s : State) : State :=
  let n := ovfBytes s.cur.recs
  (s.onCur fun t => { t with recs := [], held := [] }).onCore fun c => { c with ovf := c.ovf - n }

/-! ### Traps (R121 to R123) -/

/-- The PC as a 64-bit value. -/
def Task.pcW (t : Task) : Word := t.pc.setWidth 64

/-- R123: whether a trap escalates instead of entering the handler. -/
def escalates (s : State) (async : Bool) : Bool :=
  s.trapvec == 0 || (!async && s.cur.pc.extractLsb' 2 54 == s.trapvec)

/-- R423: the handler of the shadow context is abandoned: EN of its match point clears, an entry is written, and the
instrumented task proceeds. -/
def shadowLeave (s : State) : State :=
  match s.rest.find? (fun t => t.wait == some Wait.shadow) with
  | none => { s with cur := { s.cur with st := .ended } }
  | some _ =>
    let back (t : Task) : Task := if t.wait == some Wait.shadow then { t with wait := none, pcmSkip := true, st := .ready } else t
    { s with cur := { s.cur with st := .ended }, rest := s.rest.map back,
             core := { s.core with shW := s.cur.w, shMatch := none } }

def shadowAbandon (s : State) : State :=
  let tid := match s.rest.find? (fun t => t.wait == some Wait.shadow) with | some t => t.tid | none => s.cur.tid
  let m := s.core.shMatch
  let s := errEntry (errEntryBytes 1 0 0 0x80 s.core.id tid 0 0) s
  let s := shadowLeave s
  match m with
  | none => s
  | some m => s.onCore fun c => { c with pcmEn := c.pcmEn &&& ~~~(1#16 <<< m.val) }

/-- R122: trap entry. -/
def enterTrap (cause : BitVec 6) (detail : BitVec 8) (async : Bool) (val : Word) (s : State) : State :=
  s.onCur fun t => { t with tcDetail := detail, tcAsync := async, tcCause := cause, tepc := t.pc.extractLsb' 2 54,
                            tval := val, pc := s.trapvec ++ 0#2, wait := none, paid := false, trapTaken := false,
                            st := .running }

/-- R119: once another context has issued, a task that yielded is no longer passed over. -/
def unyield (t : Task) : Task := if t.wait == some Wait.yielded then { t with wait := none } else t
/-- R119: the issuing context has issued an instruction. -/
def issued (s : State) : State := { s with rest := s.rest.map unyield }

/-- R122, R123: taking a trap: the one entry that every cause uses. A trap that an instruction raises is its issue (R119). -/
def takeTrap (cause : BitVec 6) (detail : BitVec 8) (async : Bool) (val : Word) (s : State) : State :=
  let s := if async || cause == cSTALL then s else issued s
  if s.cur.shadow then shadowAbandon s
  else if escalates s async then
    endCur (discardCur (trapEntry s.cur cause detail s.cur.pcW val s))
  else enterTrap cause detail async val s

/-- R121: the return from a trap. -/
def returnTrap (s : State) : State := s.onCur fun t => { t with pc := t.tepc ++ 0#2, brkSkip := true, trapTaken := false }

/-! ### Finishing an instruction -/

/-- Whether an instruction that waits so has been issued (R99); the others wait before their issue. -/
def Wait.issued : Wait → Bool
  | .drain _ | .event .. | .ending _ | .leave .. | .acks _ | .reply .. | .fence .. | .flag .. | .acq .. | .acqBelow _ | .qfence _ | .bwait .. | .nrwait _
  | .sweep _ | .block .. | .translations _ => true
  | .operand .. | .load | .busy _ | .xget _ | .tcmBusy .. | .shadow | .yielded | .logSpace _ | .dirtyFull | .migrate | .mxContext
  | .mxQueue | .walk .. | .fill _ => false

/-- R32: a task that blocks with HVY clear gives up its slot. -/
def blockCur (st : TaskSt) (w : Wait) (s : State) : State :=
  let s := if w.issued then issued s else s
  let keeps := s.cur.hvy || st == .running || st == .ready ||
    (match w with | .fill _ => true | .operand .. => true | .busy _ => true | .xget _ => true | .tcmBusy .. => true | .shadow => true | _ => false)
  s.onCur fun t => { t with st := st, wait := some w, slot := if keeps then t.slot else none }

/-- R202, R398: the replay queue takes a retired instruction, and released runs come nearer to their return. -/
def retireCore (frame : Nat) (c : CoreSt) : CoreSt :=
  { c with replay := ({ frame := frame, reg := c.dst, vreg := c.vdst } :: c.replay).take 8,
           runs := c.runs.map fun r => { r with rel := r.rel.map (· - 1) } }

/-- An instruction that has retired. -/
def retire (s : State) : State :=
  { s with core := retireCore s.cur.frame s.core,
           cur := { s.cur with wait := if s.cur.wait == some Wait.yielded then s.cur.wait else none,
                               st := if s.cur.st == .ended then .ended
                                     else if s.cur.wait == some Wait.yielded then .ready else .running,
                               brkSkip := false, pcmSkip := false, paid := false, trapTaken := false },
           rest := s.rest.map unyield }

/-- R404: the activation consumes an error; ERROR_CONSUMED follows at once. -/
def consume (detail : BitVec 8) (val addr : Word) (s : State) : State :=
  s.onCur fun t => { t with errPend := some (detail, val, addr), wait := none, paid := false, st := .ready }

/-- The outcome of an instruction. -/
def finish (r : Res State) : Host.Outcome State Fault Refusal :=
  match r with
  | .ok s => .next (retire s)
  | .error (.trap c d v s) => .next (takeTrap c d false v s)
  | .error (.wait st w s) => .next (blockCur st w s)
  | .error (.xrange f l vals s) => .next (takeTrap cXRANGE 0 false (BitVec.ofNat 64 l) (moveBefore f l vals s))
  | .error (.err d v a s) => .next (consume d v a s)

/-- The PC moved past the instruction. -/
def advance (s : State) : State := s.onCur fun t => { t with pc := t.pc + 4 }

/-- R34. -/
def setHvy (s : State) : State := s.onCur fun t => { t with hvy := true }

/-- The outcome of an event step. -/
def done (s : State) : Host.Outcome State Fault Refusal := .next s

/-! ### Translation of a task's access (R345 to R358) -/

/-- R350: the entry that serves an access of this core, with the TLBs as they then stand: the second-level TLB fills the
core's own. -/
def tlbLookup (s : State) (fetch : Bool) (va : Nat) : Option (Tlb × State) :=
  let own := if fetch then s.core.itlb else s.core.dtlb
  match tlbFind own s.core.vf s.core.asid s.core.asidGen va with
  | some e => some (e, s)
  | none =>
    match tlbFind s.tile.l2tlb s.core.vf s.core.asid s.core.asidGen va with
    | none => none
    | some e =>
      some (e, s.onCore fun c =>
        if fetch then { c with itlb := tlbFill 32 c.itlb e } else { c with dtlb := tlbFill 64 c.dtlb e })

/-- R234, R236, R358: bytes of log space in use. -/
def recBytes (recs : List Rec) : Nat :=
  let own := recs.filter fun r => !r.ovf
  if own.isEmpty then 0 else 32 + (own.map fun r => if r.data.length > 8 then 80 else 16).sum
def logUsed (s : State) : Nat :=
  (s.core.sealed.map fun g => g.bytes).sum + (s.tasks.map fun t => recBytes t.recs).sum + 16 * s.core.dirty.length
def logFree (s : State) : Nat := s.launch.logsize - logUsed s

/-- R358: the first write through an entry whose D copy is 0. -/
def markDirty (s : State) (e : Tlb) : Res State :=
  if e.d then .ok s
  else if s.core.dirty.length ≥ 64 then .error (.wait .waitMem .dirtyFull s)
  else
    let set (l : List Tlb) : List Tlb := l.map fun x => if x == e then { x with d := true } else x
    .ok ((s.onCore fun c => { c with dirty := c.dirty ++ [(e.leaf1, e.leaf2)], dtlb := set c.dtlb }).onTile
      fun t => { t with l2tlb := set t.l2tlb })

/-- R349: the translation of an access of the issuing task. A miss, or a stage-2 refusal, faults (page); a stage-1 refusal
traps with ACCESS. -/
def translate (acc : Access) (va : Nat) (s : State) : Res (Nat × Tlb × State) :=
  if s.cur.wait == some (.walk va acc true) then trapR cACCESS (BitVec.ofNat 64 va) s
  else
    match tlbLookup s (acc == .fetch) va with
    | none => .error (.wait .faulted (.walk va acc false) s)
    | some (e, s) =>
      if !rights1 e acc s.cur.priv then trapR cACCESS (BitVec.ofNat 64 va) s
      else if !rights2 e acc then .error (.wait .faulted (.walk va acc false) s)
      else if needW acc then
        match markDirty s e with
        | .error x => .error x
        | .ok s => .ok (tlbAddr e va, e, s)
      else .ok (tlbAddr e va, e, s)

/-- R436: an address of another package needs scope .fabric and its grant. -/
def packageOk (s : State) (scope : BitVec 3) (pa : Nat) : Bool :=
  pa < 2 ^ 42 || (scope == 7 && (s.core.vf == 0 || (s.vfReg s.core.vf).vfctl.getLsbD 1))

/-- R349, R436: the translation of an access at a scope: one whose address names another package needs .fabric and its grant. -/
def translateAt (acc : Access) (scope : BitVec 3) (va : Nat) (s : State) : Res (Nat × Tlb × State) :=
  match translate acc va s with
  | .error e => .error e
  | .ok (pa, e, s) => if packageOk s scope pa then .ok (pa, e, s) else trapR cACCESS (BitVec.ofNat 64 va) s

/-- R243, R364: the highest scope a task may name is that of level 0 of its launch, and .host and .fabric need grants. -/
def scopeOk (s : State) (scope : BitVec 3) : Bool :=
  (match s.launch.levels with | [] => true | l :: _ => scope ≤ l.scope) &&
  (scope != 6 || s.core.vf == 0 || (s.vfReg s.core.vf).vfctl.getLsbD 0) &&
  (scope != 7 || s.core.vf == 0 || (s.vfReg s.core.vf).vfctl.getLsbD 1)

/-- R36: the launch's default scope is that of its innermost level. -/
def defaultScope (s : State) : BitVec 3 := match s.launch.levels.getLast? with | none => 0 | some l => l.scope

/-- R362: whether a tile lies in the partition of this core's function. -/
def inPartition (s : State) (tile : Nat) : Bool :=
  let g := tabGet s.host.clasg {} (clusterOf tile)
  let sharers := [g.shr0, g.shr1, g.shr2, g.shr3].take (g.nshr.toNat + 1)
  if g.mode == 1 then g.shr0 == s.core.vf
  else if g.mode == 2 then sharers.contains s.core.vf
  else s.core.vf == 0

end Sys2Proof.Machine
end

