-- ==== Sys2Proof/Machine/Operands.lean ====
section
/-! DEFINITION. Operand fields (R80 to R84): what reading and writing a field does, stream and queue registers included
(R81, R82, R266 to R268, R335 to R338). An instruction takes all of its operands or none: an operand that is not ready
leaves the state as it was. -/

namespace Sys2Proof.Machine

/-- R263: length of a pattern (R264). -/
def Pattern.len (p : Pattern) : Nat := p.counts.foldl (fun a c => a * c.natAbs) 1

def queueOf (t : Task) (f : Fld) : Option QBind := (t.qs[f.toNat - 26]?).join
def setQueue (f : Fld) (x : Option QBind) (t : Task) : Task := { t with qs := t.qs.setIfInBounds (f.toNat - 26) x }

/-- The value of a field as TVAL holds it (R97). -/
def fldW (f : Fld) : Word := f.setWidth 64

def vBusy (t : Task) (f : Fld) : Bool :=
  t.loads.any (fun l => l.vec && l.dst == f) || t.vtPend.any fun p => p.vd == f

/-- An operand that is not ready. -/
def notReady {α : Type} (st : TaskSt) (s : State) : Res α := .error (.wait st (.operand [] [] [] []) s)

/-- R98: a unit is busy. -/
def unitBusy {α : Type} (k : BitVec 2) (s : State) : Res α :=
  .error (.wait (if s.cur.st == .ready then .ready else .running) (.busy k) s)

/-- R271: the stream traps. -/
def strmTrap {α : Type} (detail : BitVec 8) (f : Fld) (s : State) : Res α := trapD cSTREAM detail (fldW f) s

/-- R98: the state a task shows while a register holds it back. -/
def heldBack (s : State) : TaskSt := if s.cur.st == .ready then .ready else .running

/-- R31, R98, R245: a register that is not written yet: the destination of a load that has missed puts its reader in the state waiting
on memory; another one holds it back. -/
def regWait {α : Type} (f : Fld) (s : State) : Res α :=
  if wLoading s.cur f then .error (.wait .waitMem .load s) else notReady (heldBack s) s

/-- R266: the bound input stream a field names, or the trap of R81 and R271. -/
def inStream (f : Fld) (s : State) : Res Stream :=
  match strmOf s.cur f with
  | none => strmTrap 0x05 f s
  | some st =>
    if st.pat.out then strmTrap 0x04 f s
    else if st.pos ≥ st.pat.len then strmTrap 0x03 f s
    else .ok st

def outStream (f : Fld) (s : State) : Res Stream :=
  match strmOf s.cur f with
  | none => strmTrap 0x05 f s
  | some st =>
    if !st.pat.out then strmTrap 0x04 f s
    else match st.bad with
      | some b => trapR b.1 (BitVec.ofNat 64 b.2) s
      | none => if st.pos ≥ st.pat.len then strmTrap 0x03 f s else .ok st

/-- What an element popped from the stream of a field gives (R265, R268, R401). -/
def elemVal (f : Fld) (e : Elem) (s : State) : Res Word :=
  match e with
  | .val v => .ok v
  | .range l => .error (.xrange f l [] s)
  | .refused va => trapR cACCESS (BitVec.ofNat 64 va) s
  | .poison pa => let (x, s) := s.free; .error (.err 1 x (BitVec.ofNat 64 pa) s)
  | .lost pa => .error (.err 3 0 (BitVec.ofNat 64 pa) s)

/-- R266: a scalar read pops one element. -/
def popStream (f : Fld) (s : State) : Res (Word × State) :=
  match inStream f s with
  | .error e => .error e
  | .ok st =>
    match st.fetched with
    | [] => notReady .waitMem s
    | e :: r =>
      match elemVal f e s with
      | .error e => .error e
      | .ok v => .ok (v, s.onCur (setStrm f (some { st with pos := st.pos + 1, fetched := r })))

/-- R80, R81: a pop of q2 to q7. -/
def popQueue (f : Fld) (s : State) : Res (Word × State) :=
  match queueOf s.cur f with
  | none => trapR cQUEUE (fldW f) s
  | some q =>
    if q.outb then trapR cQUEUE (fldW f) s
    else match q.cls with
      | some _ =>
        match q.words with
        | [] => notReady .waitMsg s
        | x :: r =>
          let (ps, off) := popPart q.parts
          .ok (x, (s.onCur (setQueue f (some { q with words := r, parts := ps }))).onCore (freeChunk? off))
      | none =>
        match (popChan q.ch 1 s) with
        | ([x], s') => .ok (x, s')
        | _ => notReady .waitMsg s

/-- R80: a read of a scalar field. -/
def readS (f : Fld) (s : State) : Res (Word × State) :=
  if f < 16 then (if wBusy s.cur f then regWait f s else .ok (s.rw f, s))
  else if f < 24 then popStream f s
  else if f = 24 then
    match s.cur.q0 with
    | [] => trapR cQUEUE 24 s
    | x :: r => .ok (x, s.onCur fun t => { t with q0 := r })
  else if f = 25 then trapR cILLEGAL 25 s
  else popQueue f s

/-- R265, R112: an in-bounds output element must lie in its space, and in TCM outside the protected parts. -/
def pushOk (f : Fld) (st : Stream) (l : Nat) (s : State) : Res Unit :=
  if !elemInb st.pat l then .ok ()
  else
    let a := elemAddr st.pat l
    let n : Nat := 2 ^ st.pat.sz
    if a < 0 || a + n > (if st.tcm then 131072 else 2 ^ 56) then .error (.xrange f l [] s)
    else if st.tcm && (storeRefused112 s s.cur.priv a.toNat n || storeRefused26 s a.toNat n) then
      trapR cACCESS (BitVec.ofNat 64 a.toNat) s
    else .ok ()

/-- R266: elements that the buffer of a bound register holds. -/
def strmCap (st : Stream) : Nat := 128 / 2 ^ st.pat.sz

/-- R80, R81: whether a scalar destination has room. -/
def roomS (f : Fld) (s : State) : Res Unit :=
  if wBusy s.cur f then regWait f s
  else if f < 16 then .ok ()
  else if f < 24 then
    match outStream f s with
    | .error e => .error e
    | .ok st =>
      match pushOk f st st.pos s with
      | .error e => .error e
      | .ok _ => if st.pushed.length ≥ strmCap st then notReady .waitMem s else .ok ()
  else if f = 25 then (if s.cur.q1.length ≥ 8 then trapR cQUEUE 25 s else .ok ())
  else if f = 24 then trapR cILLEGAL 24 s
  else
    match queueOf s.cur f with
    | none => trapR cQUEUE (fldW f) s
    | some q =>
      if !q.outb then trapR cQUEUE (fldW f) s
      else if q.words.length ≥ 8 then notReady .waitMsg s
      else .ok ()

/-- R80: a write of a scalar field. -/
def writeS (f : Fld) (x : Word) (s : State) : State :=
  if f < 16 then s.ww f x
  else if f < 24 then
    match strmOf s.cur f with
    | none => s
    | some st => pushElem f st x s
  else if f = 25 then s.onCur fun t => { t with q1 := t.q1 ++ [x] }
  else if f = 24 then s
  else
    match queueOf s.cur f with
    | none => s
    | some q => s.onCur (setQueue f (some { q with words := q.words ++ [x] }))

/-! ### Vector fields (R83) -/

/-- Elements packed from the least significant end, each of `bits` bits. -/
def packBits (bits : Nat) : List Nat → Nat
  | [] => 0
  | x :: r => x % 2 ^ bits + 2 ^ bits * packBits bits r

/-- R266: the next strip of an input stream: 64/s elements, padded with FILL. -/
def popStrip (f : Fld) (s : State) : Res (BitVec 512 × State) :=
  match inStream f s with
  | .error e => .error e
  | .ok st =>
    let n := 64 / 2 ^ st.pat.sz
    let k := Nat.min n (st.pat.len - st.pos)
    if st.fetched.length < k && !(st.fetched.any fun e => match e with | .val _ => false | _ => true) then notReady .waitMem s
    else
      match (st.fetched.take k).mapM (fun e => elemVal f e s) with
      | .error e => .error e
      | .ok vs =>
        let all := vs.map (·.toNat) ++ List.replicate (n - k) st.pat.fill.toNat
        .ok (BitVec.ofNat 512 (packBits (8 * 2 ^ st.pat.sz) all),
             s.onCur (setStrm f (some { st with pos := st.pos + k, fetched := st.fetched.drop k })))

/-- R338: a read of c0 to c7. -/
def popTag (f : Fld) (s : State) : Res (BitVec 512 × State) :=
  let ch : BitVec 3 := f.extractLsb' 0 3
  if s.cur.qs.toList.any (fun q => match q with | none => false | some q => !q.outb && q.cls.isNone && q.ch == ch) then
    if s.core.chan[ch.toNat].length < 8 then notReady .waitMsg s
    else
      let (ws, s) := popChan ch 8 s
      .ok (BitVec.ofNat 512 (packBits 64 (ws.map (·.toNat))), s)
  else trapR cQUEUE (fldW f) s

def State.getV (s : State) (f : Fld) : BitVec 512 := (s.cur.v[f.toNat]?).getD 0
def State.setV (s : State) (f : Fld) (x : BitVec 512) : State :=
  s.onCur fun t => { t with v := t.v.setIfInBounds f.toNat x, vAbsent := t.vAbsent &&& ~~~(1#16 <<< f.toNat) }

/-- R151: a read of an absent vector register waits for its fill. -/
def vPresent (f : Fld) (s : State) : Res Unit :=
  if s.cur.vAbsent.getLsbD f.toNat then .error (.wait .waitMem (.fill (.vreg (wIdx f))) s) else .ok ()

/-- As `regWait`, for a vector register. -/
def vregWait {α : Type} (f : Fld) (s : State) : Res α :=
  if s.cur.loads.any (fun l => l.vec && l.dst == f) then .error (.wait .waitMem .load s) else notReady (heldBack s) s

/-- R83: a read of a vector field. -/
def readV (f : Fld) (s : State) : Res (BitVec 512 × State) :=
  if f < 16 then
    if vBusy s.cur f then vregWait f s
    else match vPresent f s with
      | .error e => .error e
      | .ok _ => .ok (s.getV f, s)
  else if f < 24 then popStrip f s
  else popTag f s

/-- R83, R150: whether a vector destination has room; a destination written in part must be present. -/
def roomV (f : Fld) (part : Bool) (s : State) : Res Unit :=
  if f < 16 then
    if vBusy s.cur f then vregWait f s
    else if part then vPresent f s
    else .ok ()
  else if wBusy s.cur f then notReady (heldBack s) s
  else
    match outStream f s with
    | .error e => .error e
    | .ok st =>
      let k := Nat.min (64 / 2 ^ st.pat.sz) (st.pat.len - st.pos)
      match (List.range k).mapM (fun j => pushOk f st (st.pos + j) s) with
      | .error (.xrange f l vals s) =>
        if st.pushed.length + (l - st.pos) > strmCap st then notReady .waitMem s else .error (.xrange f l vals s)
      | .error e => .error e
      | .ok _ => if st.pushed.length + k > strmCap st then notReady .waitMem s else .ok ()

/-- R266: the elements of a strip pushed; those beyond the end of the pattern are dropped. -/
def pushStrip (f : Fld) (x : BitVec 512) (sz : Nat) (k : Nat) : Nat → State → State
  | 0, s => s
  | n + 1, s =>
    let s :=
      match strmOf s.cur f with
      | none => s
      | some st => if st.pos < st.pat.len then pushElem f st (BitVec.ofNat 64 ((x.toNat / 2 ^ (8 * 2 ^ sz * k)) % 2 ^ (8 * 2 ^ sz))) s else s
    pushStrip f x sz (k + 1) n s

/-- R83: a write of a whole vector field. -/
def writeV (f : Fld) (x : BitVec 512) (s : State) : State :=
  if f < 16 then s.setV f x
  else match strmOf s.cur f with
    | none => s
    | some st => pushStrip f x st.pat.sz 0 (64 / 2 ^ st.pat.sz) s

/-! ### All or nothing (R81) -/

/-- A stop found among the operands leaves the state as it was before any of them was taken. -/
def Stop.at (x : Stop) (s : State) (ss sd vs vd : List Fld) : Stop :=
  match x with
  | .trap c d v _ => .trap c d v s
  | .xrange f l vals _ => .xrange f l vals s
  | .wait st (.operand ..) _ => .wait st (.operand ss sd vs vd) s
  | .wait st w _ => .wait st w s
  | .err d v a s' => .err d v a { s with fresh := s'.fresh }

/-- Read scalar fields in order. -/
def readAllS : List Fld → State → Res (List Word × State)
  | [], s => .ok ([], s)
  | f :: r, s =>
    match readS f s with
    | .error e => .error e
    | .ok (x, s) =>
      match readAllS r s with
      | .error e => .error e
      | .ok (xs, s) => .ok (x :: xs, s)

def readAllV : List Fld → State → Res (List (BitVec 512) × State)
  | [], s => .ok ([], s)
  | f :: r, s =>
    match readV f s with
    | .error e => .error e
    | .ok (x, s) =>
      match readAllV r s with
      | .error e => .error e
      | .ok (xs, s) => .ok (x :: xs, s)

def roomAllS : List Fld → State → Res Unit
  | [], _ => .ok ()
  | f :: r, s => match roomS f s with | .error e => .error e | .ok _ => roomAllS r s

/-- R81: the scalar sources of an instruction, taken together once its destinations have room. -/
def takeS (srcs dsts : List Fld) (s : State) : Res (List Word × State) :=
  match readAllS srcs s with
  | .error e => .error (e.at s srcs dsts [] [])
  | .ok r =>
    match roomAllS dsts s with
    | .error e => .error (e.at s srcs dsts [] [])
    | .ok _ => .ok r

/-- As `takeS`, for vector sources, scalar sources and one vector destination (`part`: masked or partial). -/
def takeV (vsrcs srcs : List Fld) (vd : Option (Fld × Bool)) (dsts : List Fld) (s : State) :
    Res (List (BitVec 512) × List Word × State) :=
  let vds := match vd with | none => [] | some d => [d.1]
  let fix (e : Stop) : Stop := e.at s srcs dsts vsrcs vds
  match readAllV vsrcs s with
  | .error e => .error (fix e)
  | .ok (vs, s1) =>
    match readAllS srcs s1 with
    | .error e => .error (fix e)
    | .ok (xs, s2) =>
      match (match vd with | none => (.ok () : Res Unit) | some (f, part) => roomV f part s) with
      | .error e => .error (fix e)
      | .ok _ =>
        match roomAllS dsts s with
        | .error e => .error (fix e)
        | .ok _ => .ok (vs, xs, s2)

/-- R81, R98: whether the operands an instruction waits for are ready now (a trap counts as ready, and so does a load that has missed,
which gives the task its proper wait). -/
def operandsReady (ss sd vs vd : List Fld) (s : State) : Bool :=
  match takeV vs ss (vd.head?.map fun f => (f, false)) sd s with
  | .error (.wait _ (.operand ..) _) => false
  | _ => true

/-! ### Strips that leave their range (R10, R265) -/

/-- An output stream without limits in place of one that is bound, which shows the elements of a strip. -/
def probeStream (f : Fld) (s : State) : State :=
  match strmOf s.cur f with
  | none => s
  | some st =>
    let p : Pattern := { base := 0, sz := st.pat.sz, out := true, strides := [0], bounds := [(0, 64)], counts := [64], fill := 0 }
    s.onCur (setStrm f (some { pat := p, tcm := false, pos := 0, fetched := [], pushed := [], bad := none }))

/-- An instruction whose vector destination may be a stream: where element L of its strip traps with XRANGE, the elements before it
have moved. What they hold is what the instruction writes to a stream without limits; its other operands stay untaken (log entry 88). -/
def stripRun (vd : Fld) (run : State → Res State) (s : State) : Res State :=
  match run s with
  | .error (.xrange f l [] s1) =>
    match strmOf s.cur vd with
    | none => .error (.xrange f l [] s1)
    | some st =>
      if f == vd && st.pat.out then
        match run (probeStream vd s) with
        | .ok t => .error (.xrange f l (((strmOf t.cur vd).elim [] fun x => x.pushed.map (·.v)).take (l - st.pos)) s1)
        | .error _ => .error (.xrange f l [] s1)
      else .error (.xrange f l [] s1)
  | r => r

/-- Where no element leaves its range the wrapper changes nothing. -/
theorem stripRun_of {vd : Fld} {run : State → Res State} {s : State} (h : ∀ f l t, run s ≠ .error (.xrange f l [] t)) :
    stripRun vd run s = run s := by
  unfold stripRun
  split
  · rename_i f l s1 e; exact absurd e (h f l s1)
  · rfl
theorem stripRun_ok {vd : Fld} {run : State → Res State} {s t : State} (h : run s = .ok t) : stripRun vd run s = .ok t := by
  rw [stripRun_of (by intro f l t; rw [h]; intro e; cases e), h]

end Sys2Proof.Machine
end

