-- ==== Sys2Proof/Machine/Flags.lean ====
section
/-! DEFINITION. The conditions that instructions compute: comparisons (R101, R104, R107) and the sticky bits of FSTAT (R94).
The machine has no flag register. -/

namespace Sys2Proof.Machine

/-- A condition as a word. -/
def flagW (b : Bool) : Word := if b then 1 else 0

/-- R101, R107: signed and unsigned order of words. -/
def ltS (a b : Word) : Bool := a.slt b
def ltU (a b : Word) : Bool := a.ult b

/-- R94: FSTAT: NRT, FMORE, FOUT, FX. -/
def Task.fstat (t : Task) : Word :=
  (0#51 ++ t.nrt ++ 0#5 ++ BitVec.ofBool t.fmore ++ BitVec.ofBool t.fout ++ BitVec.ofBool t.fx : BitVec 64)

/-- R114: the W1C bits of FSTAT, cleared where the written value has ones. -/
def Task.clearFstat (t : Task) (v : Word) : Task :=
  { t with fmore := t.fmore && !v.getLsbD 2, fout := t.fout && !v.getLsbD 1, fx := t.fx && !v.getLsbD 0 }

end Sys2Proof.Machine
end

