-- ==== Sys2Proof/Machine/Alu.lean ====
section
/-! DEFINITION. Register arithmetic and logic, immediate forms and upper immediates: opcodes 0x01 and 0x03 to 0x0B (R100,
R101, R104, R105). Each meaning pops its sources in order, charges ALU and writes its destination last (R81). -/

namespace Sys2Proof.Machine

/-- R81: an instruction that reads B and C, charges its class and writes A with a function of them. -/
def rrr (c : Charge) (f : Word → Word → Word) (fa fb fc : Fld) (s : State) : Res State :=
  match takeS [fb, fc] [fa] s with
  | .error e => .error e
  | .ok ([a, b], s) => .ok (advance (writeS fa (f a b) (charge c s)))
  | .ok (_, s) => .ok s

/-- As `rrr`, for instructions that read B alone. -/
def rr (c : Charge) (f : Word → Word) (fa fb : Fld) (s : State) : Res State :=
  match takeS [fb] [fa] s with
  | .error e => .error e
  | .ok ([a], s) => .ok (advance (writeS fa (f a) (charge c s)))
  | .ok (_, s) => .ok s

/-- R101: shift amounts are taken modulo 64. -/
def shAmt (b : Word) : Nat := b.toNat % 64

/-- R101: leading zero bits among the n low bits. -/
def clzFrom (a : Word) : Nat → Nat
  | 0 => 0
  | n + 1 => if a.getLsbD n then 0 else 1 + clzFrom a n
def clzW (a : Word) : Word := BitVec.ofNat 64 (clzFrom a 64)

def ctzFrom (a : Word) (k : Nat) : Nat → Nat
  | 0 => 0
  | n + 1 => if a.getLsbD k then 0 else 1 + ctzFrom a (k + 1) n
def ctzW (a : Word) : Word := BitVec.ofNat 64 (ctzFrom a 0 64)

def popcFrom (a : Word) : Nat → Nat
  | 0 => 0
  | n + 1 => (if a.getLsbD n then 1 else 0) + popcFrom a n
def popcW (a : Word) : Word := BitVec.ofNat 64 (popcFrom a 64)

/-- R101: byte k of the result is byte 7 - k. -/
def bswapW (a : Word) : Word := leWord (leBytes 8 a.toNat).reverse

/-! ### Opcode 0x01 -/

/-- R101. -/
def aluAdd (a b : Word) : Word := a + b
def execAdd (a b c : Fld) (s : State) : Host.Outcome State Fault Refusal := finish (rrr .alu aluAdd a b c s)
/-- R101. -/
def aluSub (a b : Word) : Word := a - b
def execSub (a b c : Fld) (s : State) : Host.Outcome State Fault Refusal := finish (rrr .alu aluSub a b c s)
/-- R101. -/
def aluAnd (a b : Word) : Word := a &&& b
def execAnd (a b c : Fld) (s : State) : Host.Outcome State Fault Refusal := finish (rrr .alu aluAnd a b c s)
/-- R101. -/
def aluOr (a b : Word) : Word := a ||| b
def execOr (a b c : Fld) (s : State) : Host.Outcome State Fault Refusal := finish (rrr .alu aluOr a b c s)
/-- R101. -/
def aluXor (a b : Word) : Word := a ^^^ b
def execXor (a b c : Fld) (s : State) : Host.Outcome State Fault Refusal := finish (rrr .alu aluXor a b c s)
/-- R101. -/
def aluAndn (a b : Word) : Word := a &&& ~~~b
def execAndn (a b c : Fld) (s : State) : Host.Outcome State Fault Refusal := finish (rrr .alu aluAndn a b c s)
/-- R101. -/
def aluSll (a b : Word) : Word := a <<< shAmt b
def execSll (a b c : Fld) (s : State) : Host.Outcome State Fault Refusal := finish (rrr .alu aluSll a b c s)
/-- R101. -/
def aluSrl (a b : Word) : Word := a >>> shAmt b
def execSrl (a b c : Fld) (s : State) : Host.Outcome State Fault Refusal := finish (rrr .alu aluSrl a b c s)
/-- R101. -/
def aluSra (a b : Word) : Word := a.sshiftRight (shAmt b)
def execSra (a b c : Fld) (s : State) : Host.Outcome State Fault Refusal := finish (rrr .alu aluSra a b c s)
/-- R101. -/
def aluRol (a b : Word) : Word := a.rotateLeft (shAmt b)
def execRol (a b c : Fld) (s : State) : Host.Outcome State Fault Refusal := finish (rrr .alu aluRol a b c s)
/-- R101. -/
def aluRor (a b : Word) : Word := a.rotateRight (shAmt b)
def execRor (a b c : Fld) (s : State) : Host.Outcome State Fault Refusal := finish (rrr .alu aluRor a b c s)
/-- R101. -/
def aluSlt (a b : Word) : Word := flagW (ltS a b)
def execSlt (a b c : Fld) (s : State) : Host.Outcome State Fault Refusal := finish (rrr .alu aluSlt a b c s)
/-- R101. -/
def aluSltn (a b : Word) : Word := flagW (ltU a b)
def execSltn (a b c : Fld) (s : State) : Host.Outcome State Fault Refusal := finish (rrr .alu aluSltn a b c s)
/-- R101. -/
def aluMin (a b : Word) : Word := if ltS b a then b else a
def execMin (a b c : Fld) (s : State) : Host.Outcome State Fault Refusal := finish (rrr .alu aluMin a b c s)
/-- R101. -/
def aluMax (a b : Word) : Word := if ltS a b then b else a
def execMax (a b c : Fld) (s : State) : Host.Outcome State Fault Refusal := finish (rrr .alu aluMax a b c s)
/-- R101. -/
def aluMinn (a b : Word) : Word := if ltU b a then b else a
def execMinn (a b c : Fld) (s : State) : Host.Outcome State Fault Refusal := finish (rrr .alu aluMinn a b c s)
/-- R101. -/
def aluMaxn (a b : Word) : Word := if ltU a b then b else a
def execMaxn (a b c : Fld) (s : State) : Host.Outcome State Fault Refusal := finish (rrr .alu aluMaxn a b c s)
/-- R101. -/
def execClz (a b : Fld) (s : State) : Host.Outcome State Fault Refusal := finish (rr .alu clzW a b s)
/-- R101. -/
def execCtz (a b : Fld) (s : State) : Host.Outcome State Fault Refusal := finish (rr .alu ctzW a b s)
/-- R101. -/
def execPopc (a b : Fld) (s : State) : Host.Outcome State Fault Refusal := finish (rr .alu popcW a b s)
/-- R101. -/
def execBswap (a b : Fld) (s : State) : Host.Outcome State Fault Refusal := finish (rr .alu bswapW a b s)
/-- R101: SEL reads B, C and then M. -/
def execSel (a b c m : Fld) (s : State) : Host.Outcome State Fault Refusal :=
  finish (match takeS [b, c, m] [a] s with
    | .error e => .error e
    | .ok ([x, y, k], s) => .ok (advance (writeS a (if k != 0 then x else y) (charge .alu s)))
    | .ok (_, s) => .ok s)

/-! ### Immediates (R87, R104) -/

/-- R104. -/
def execAddi (a b : Fld) (i : BitVec 16) (s : State) : Host.Outcome State Fault Refusal :=
  finish (rr .alu (fun x => x + i.signExtend 64) a b s)
/-- R104. -/
def execAndi (a b : Fld) (i : BitVec 16) (s : State) : Host.Outcome State Fault Refusal :=
  finish (rr .alu (fun x => x &&& i.setWidth 64) a b s)
/-- R104. -/
def execOri (a b : Fld) (i : BitVec 16) (s : State) : Host.Outcome State Fault Refusal :=
  finish (rr .alu (fun x => x ||| i.setWidth 64) a b s)
/-- R104. -/
def execXori (a b : Fld) (i : BitVec 16) (s : State) : Host.Outcome State Fault Refusal :=
  finish (rr .alu (fun x => x ^^^ i.setWidth 64) a b s)
/-- R104. -/
def execSlti (a b : Fld) (i : BitVec 16) (s : State) : Host.Outcome State Fault Refusal :=
  finish (rr .alu (fun x => flagW (ltS x (i.signExtend 64))) a b s)
/-- R104. -/
def execSltin (a b : Fld) (i : BitVec 16) (s : State) : Host.Outcome State Fault Refusal :=
  finish (rr .alu (fun x => flagW (ltU x (i.setWidth 64))) a b s)
/-- R104. -/
def execSlli (a b : Fld) (n : BitVec 6) (s : State) : Host.Outcome State Fault Refusal :=
  finish (rr .alu (fun x => x <<< n.toNat) a b s)
/-- R104. -/
def execSrli (a b : Fld) (n : BitVec 6) (s : State) : Host.Outcome State Fault Refusal :=
  finish (rr .alu (fun x => x >>> n.toNat) a b s)
/-- R104. -/
def execSrai (a b : Fld) (n : BitVec 6) (s : State) : Host.Outcome State Fault Refusal :=
  finish (rr .alu (fun x => x.sshiftRight n.toNat) a b s)
/-- R104. -/
def execRoli (a b : Fld) (n : BitVec 6) (s : State) : Host.Outcome State Fault Refusal :=
  finish (rr .alu (fun x => x.rotateLeft n.toNat) a b s)

/-! ### Upper immediates (R105) -/

/-- An instruction that reads no register and writes A. -/
def rzero (x : State → Word) (a : Fld) (s : State) : Res State :=
  match takeS [] [a] s with
  | .error e => .error e
  | .ok (_, s) => .ok (advance (writeS a (x s) (charge .alu s)))

/-- R105. -/
def upperImm (i : BitVec 21) : Word := i.signExtend 64 <<< 16
def execLhi (a : Fld) (i : BitVec 21) (s : State) : Host.Outcome State Fault Refusal :=
  finish (rzero (fun _ => upperImm i) a s)
def execPchi (a : Fld) (i : BitVec 21) (s : State) : Host.Outcome State Fault Refusal :=
  finish (rzero (fun s => s.cur.pcW + upperImm i) a s)

end Sys2Proof.Machine
end

