-- ==== Sys2Proof/Machine/Tcm.lean ====
section
/-! DEFINITION. Private memory: LDP, LDPX, STP (R111, R112) and the spill overflow of base register w14 (R378). -/

namespace Sys2Proof.Machine

/-- R378: whether an access with a base field and an effective address is a spill overflow of the task's frame. -/
def isSpill (s : State) (b : Fld) (ea : Int) : Bool :=
  let bot : Int := (s.spillBot s.cur.frame : Int)
  b == 14 && bot - 65536 ≤ ea && ea < bot

/-- R378: the virtual address a spill overflow is redirected to. -/
def spillVa (s : State) (ea : Int) : Nat :=
  s.spillovf.toNat * 64 + (s.core.id.toNat * 64 + s.cur.frame) * 65536
    + (ea - (s.spillBot s.cur.frame : Int) + 65536).toNat

/-- R241, R251: an access that a dead link loses or its home refuses is a failure of the task; n stores or atomics count. -/
def accessFails (n : Nat) (dead : Bool) (t : Task) : Task :=
  { t with fails := t.fails + n, failDead := t.failDead || dead, failRefused := t.failRefused || !dead }
def writeFails (dead : Bool) (t : Task) : Task := accessFails 1 dead t
def readFails (dead : Bool) (t : Task) : Task := accessFails 0 dead t

/-- R241, R404: a read of a home by a task: lost or refused, it is a failure and is consumed, as one that is poisoned; else its bytes. -/
def homeRead (s : State) (pa n : Nat) : Res (List Byte) :=
  if lostRead s pa || refusedAt s s.core.vf pa then
    .error (.err 3 0 (BitVec.ofNat 64 pa) (s.onCur (readFails (lostRead s pa))))
  else if anyPoison s.home.poison pa n then
    let (x, s) := s.free
    .error (.err 1 x (BitVec.ofNat 64 (pa - pa % 8)) s)
  else .ok (memGetN s.home.mem pa n)

/-- R222: an in-place write by a task. -/
def homeWrite (s : State) (pa : Nat) (bs : List Byte) : State :=
  if lostTo s pa then s.onCur (writeFails true)
  else if refusedAt s s.core.vf pa then s.onCur (writeFails false)
  else s.onHome fun h => homePut h pa bs

/-- R378: a spill overflow's read, after the alignment check. -/
def spillRead (s : State) (ea : Int) (n : Nat) : Res (List Byte × State) :=
  if s.spillovf = 0 then trapR cSPILLOVF (BitVec.ofInt 64 ea) s
  else
    match translateAt .load 0 (spillVa s ea) s with
    | .error e => .error e
    | .ok (pa, _, s) =>
      match homeRead s pa n with
      | .error e => .error e
      | .ok bs => .ok (bs, chargeAccess pa n s)

def spillWrite (s : State) (ea : Int) (bs : List Byte) : Res State :=
  if s.spillovf = 0 then trapR cSPILLOVF (BitVec.ofInt 64 ea) s
  else
    match translateAt .store 0 (spillVa s ea) s with
    | .error e => .error e
    | .ok (pa, _, s) => .ok (homeWrite (chargeAccess pa bs.length s) pa bs)

/-- R111: effective address, exact. -/
def eaOf (base : Word) (off : Int) (n : Nat) : Int := (base.toNat : Int) + off * (n : Int)

/-- R111, R162, R378: the checked read of an address of TCM. -/
def tcmLoad (b : Fld) (ea : Int) (n : Nat) (s : State) : Res (List Byte × State) :=
  if ea % (n : Int) != 0 then trapR cALIGN (BitVec.ofInt 64 ea) s
  else if isSpill s b ea then spillRead s ea n
  else if ea < 0 || ea + n > 131072 then trapR cACCESS (BitVec.ofInt 64 ea) s
  else
    match tcmRead s ea.toNat n with
    | .error e => .error e
    | .ok bs => .ok (bs, s)

/-- R111, R112, R162: the checked write. -/
def tcmStore (b : Fld) (ea : Int) (bs : List Byte) (s : State) : Res State :=
  let n := bs.length
  if ea % (n : Int) != 0 then trapR cALIGN (BitVec.ofInt 64 ea) s
  else if isSpill s b ea then spillWrite s ea bs
  else if ea < 0 || ea + n > 131072 then trapR cACCESS (BitVec.ofInt 64 ea) s
  else if storeRefused112 s s.cur.priv ea.toNat n || storeRefused26 s ea.toNat n then
    trapR cACCESS (BitVec.ofInt 64 ea) s
  else tcmWrite s ea.toNat bs

/-- R111: LDP and LDPX. The destination is checked before anything is read. -/
def loadTcm (ext : Nat → Nat → Word) (a b : Fld) (sz : BitVec 2) (o : BitVec 14) (s : State) : Res State :=
  match takeS [b] [a] s with
  | .error e => .error e
  | .ok ([x], s) =>
    let n := 2 ^ sz.toNat
    match tcmLoad b (eaOf x o.toInt n) n (chargeOnce .tcm s) with
    | .error e => .error e
    | .ok (bs, s) => .ok (advance (writeS a (ext n (leNat bs)) s))
  | .ok (_, s) => .ok s

def execLdp (a b : Fld) (sz : BitVec 2) (o : BitVec 14) (s : State) : Host.Outcome State Fault Refusal :=
  finish (loadTcm sextBytes a b sz o s)
def execLdpx (a b : Fld) (sz : BitVec 2) (o : BitVec 14) (s : State) : Host.Outcome State Fault Refusal :=
  finish (loadTcm zextBytes a b sz o s)

/-- What leaves the core but the credits that its reads return. -/
def sentWork (l : List Packet) : List Packet := l.filter fun p => match p with | .credit _ _ _ => false | _ => true

/-- The operands of an instruction untaken: streams, queues, and what their reads changed, the credits that they returned too. -/
def State.untake (s0 s : State) : State :=
  { s with cur := { s.cur with streams := s0.cur.streams, qs := s0.cur.qs, q0 := s0.cur.q0 },
           core := { s.core with chan := s0.core.chan, inbox := s0.core.inbox },
           home := { s.home with out := s0.home.out ++ (sentWork s.home.out).drop (sentWork s0.home.out).length } }

/-- A stop of a later check leaves the operands untaken and keeps the charge (R81, R97). -/
def Stop.back (x : Stop) (s0 : State) : Stop :=
  match x with
  | .trap c d v s => .trap c d v (s0.untake s)
  | .wait st w s => .wait st w (s0.untake s)
  | .err d v a s => .err d v a (s0.untake s)
  | .xrange f l vals s => .xrange f l vals (s0.untake s)

/-- R111: STP. -/
def execStp (a b : Fld) (sz : BitVec 2) (o : BitVec 14) (s : State) : Host.Outcome State Fault Refusal :=
  finish (
    match takeS [b, a] [] s with
    | .error e => .error e
    | .ok ([x, d], s1) =>
      let n := 2 ^ sz.toNat
      match tcmStore b (eaOf x o.toInt n) (leBytes n d.toNat) (chargeOnce .tcm s1) with
      | .error e => .error (e.back s)
      | .ok s => .ok (advance s)
    | .ok (_, s) => .ok s)

end Sys2Proof.Machine
end

