-- ==== Sys2Proof/Machine/Pair.lean ====
section
/-! DEFINITION. Paired activations (R407 to R411): the canonical form and the hash of an action, and its withholding until the hashes of
both copies match. -/

namespace Sys2Proof.Machine

/-- R407, R408: this tile runs copies of paired activations; its partner has not retired. -/
def paired (s : State) : Bool := s.launch.paired && !s.tile.unpaired
/-- R407: the tiles of the primaries are those whose member bit 1 is 0. -/
def secondary (s : State) : Bool := paired s && s.tileId / 2 % 2 == 1
/-- R407: the core that runs the other copy. -/
def partner (c : BitVec 13) : BitVec 13 := c ^^^ 0x14

/-- R407: the tile and the core whose activations this core runs: at the secondary those of the primary. -/
def pairCore (s : State) : BitVec 13 := if secondary s then partner s.core.id else s.core.id
def pairTile (s : State) : Nat := tileOf (pairCore s)
/-- The core of this tile that runs the activations of a core. -/
def hereCore (s : State) (c : BitVec 13) : BitVec 13 := if secondary s then partner c else c

/-! ### The hash (R410) -/

/-- One bit of CRC-64 of ECMA-182, the most significant first. -/
def crcBit (c : BitVec 64) : BitVec 64 := if c.msb then (c <<< 1) ^^^ 0x42F0E1EBA9EA3693 else c <<< 1
def crcBits (c : BitVec 64) : Nat → BitVec 64
  | 0 => c
  | n + 1 => crcBits (crcBit c) n
def crcByte (c : BitVec 64) (b : Byte) : BitVec 64 := crcBits (c ^^^ (b.setWidth 64 <<< 56)) 8
def crc64 (bs : List Byte) : BitVec 64 := bs.foldl crcByte 0

/-! ### The canonical form (R410) -/

/-- R328: head-flit bits [511:192] of a link message. -/
def headFlit (cvec : Word) (tmask : BitVec 16) (m : Msg) (pair : Bool) : BitVec 320 :=
  cvec ++ tmask ++ m.stamp ++ BitVec.ofNat 48 m.prom ++ m.handler ++ BitVec.ofNat 32 m.seq ++ BitVec.ofNat 16 (8 * m.payload.length) ++
    m.dest ++ m.score ++ m.cls ++ m.part ++ BitVec.ofBool pair ++ BitVec.ofBool m.col ++ BitVec.ofBool m.mc ++ BitVec.ofBool m.any

/-- The bytes of payload words (R4). -/
def wordBytes (ws : List Word) : List Byte := (ws.map fun w => leBytes 8 w.toNat).flatten

/-- A message as it is hashed: SCORE, PAIR and SEQ are 0; the promise and the colour are drawn at injection and stand at 0
(log entry 89). -/
def hashedMsg (cvec : Word) (tmask : BitVec 16) (m : Msg) : List Byte :=
  leBytes 40 (headFlit cvec tmask { m with score := 0, seq := 0, prom := 0, col := false } false).toNat ++ wordBytes m.payload

/-- R318, R328: a deposit's head flit names its core and sender; its payload is the words of its instruction (log entry 89). -/
def hashedDeposit (d : Deposit) : List Byte :=
  hashedMsg 0 0 { dest := d.core, any := false, mc := false, cls := 0, stamp := 0, score := 0, handler := 0,
                  payload := [0#19 ++ d.orig ++ 0#4 ++ BitVec.ofNat 4 d.word ++ 0#2 ++ BitVec.ofNat 6 d.frame ++ 0#3 ++ d.core,
                              d.val, d.tid], seq := 0, prom := 0, col := false,
                  part := d.part, tag := 0, leaf := 0, mig := false }

def hashedHeld : Held → List Byte
  | .msg m => hashedMsg 0 0 m
  | .mcast m cv tm => hashedMsg cv tm m
  | .spawn m => hashedMsg 0 0 m
  | .deposit d => hashedDeposit d

/-- A segment part: the address, the size and the padded data of each record. -/
def hashedRec (r : Rec) : List Byte :=
  leBytes 8 r.pa ++ leBytes 1 r.data.length ++ r.data ++
    List.replicate ((if r.data.length > 8 then 64 else 8) - r.data.length) 0
def hashedPart (p : SegPart) : List Byte := (p.recs.map hashedRec).flatten

/-- A migration message's payload (R44). -/
def hashedMig (m : MigTask) : List Byte :=
  wordBytes (m.w.toList.drop 1 ++ [m.status ++ m.pc, m.tid, m.origin.setWidth 64, m.stamp.setWidth 64, BitVec.ofNat 64 m.key.stamp,
    BitVec.ofNat 64 m.key.src, BitVec.ofNat 64 m.key.seq])

/-- An instruction word and two values: an AMO or NRED, its address or tag and its operand. -/
def hashedOp (i : Instr) (a v : Word) : List Byte := leBytes 4 (encode i).toNat ++ leBytes 8 a.toNat ++ leBytes 8 v.toNat
/-- An engine operation or block instruction: its parameter block or descriptor, then the instruction word. -/
def hashedBlock (i : Instr) (bs : List Byte) : List Byte := bs ++ leBytes 4 (encode i).toNat

/-! ### Withholding (R410, R411) -/

/-- R411: an action is released: its hash goes to the router of the primary's tile, and the action waits for the comparison. -/
def pairRelease (what : PairWhat) (tid : Word) (origin : BitVec 13) (bs : List Byte) (s : State) : State :=
  if !paired s then s
  else
    (s.onCore fun c => { c with pairQ := c.pairQ ++ [{ what := what, tid := tid, origin := origin, hash := crc64 bs }] }).onHome fun h =>
      { h with out := h.out ++ [.pairHash (crc64 bs)] }
/-- R410: the same for an action of the issuing task. -/
def pairCur (what : PairWhat) (bs : List Byte) (s : State) : State := pairRelease what s.cur.tid s.cur.origin bs s

/-- R410: an action proceeds once the comparison has matched. -/
def mayAct (what : PairWhat) (s : State) : Bool := !paired s || s.core.pairOk.contains what
/-- The action is performed. -/
def acted (what : PairWhat) (s : State) : State :=
  if !paired s then s else s.onCore fun c => { c with pairOk := c.pairOk.erase what }

/-- R410: a whole list of actions of one task, in order. -/
def pairAll (tid : Word) (origin : BitVec 13) (l : List (PairWhat × List Byte)) (s : State) : State :=
  l.foldl (fun s x => pairRelease x.1 tid origin x.2 s) s

/-- Outside paired launches nothing is withheld and nothing is hashed. -/
theorem pairRelease_off {what : PairWhat} {tid : Word} {origin : BitVec 13} {bs : List Byte} {s : State} (h : paired s = false) :
    pairRelease what tid origin bs s = s := by simp [pairRelease, h]
theorem pairCur_off {what : PairWhat} {bs : List Byte} {s : State} (h : paired s = false) : pairCur what bs s = s := pairRelease_off h
theorem mayAct_off {what : PairWhat} {s : State} (h : paired s = false) : mayAct what s = true := by simp [mayAct, h]
theorem acted_off {what : PairWhat} {s : State} (h : paired s = false) : acted what s = s := by simp [acted, h]
theorem pairAll_off {tid : Word} {origin : BitVec 13} {l : List (PairWhat × List Byte)} {s : State} (h : paired s = false) :
    pairAll tid origin l s = s := by
  unfold pairAll
  induction l with
  | nil => rfl
  | cons x l ih => rw [List.foldl_cons, pairRelease_off h]; exact ih

end Sys2Proof.Machine
end

