-- ==== Sys2Proof/Machine/Log.lean ====
section
/-! DEFINITION. The store log: appending records, searching them, sealing segments, releasing held sends (R225 to R228, R234
to R238, R311), the view cache (R242), and migration, which seals before it leaves (R44 to R46). -/

namespace Sys2Proof.Machine

def maxScope (a b : BitVec 3) : BitVec 3 := if a < b then b else a

/-- R234: log bytes of a record. -/
def recSize (n : Nat) : Nat := if n > 8 then 80 else 16

/-- R236: the virtual address of the next byte of the core's overflow region, 1 MiB at LOGOVF + core * 2^20. -/
def ovfVa (s : State) : Nat := s.logovf.toNat * 64 + (s.core.id ++ 0#20).toNat + s.core.ovf

/-- R236, R378: bytes written in place at a translated virtual address, the part beyond a page at the translation of its own page. -/
def putInPlace (va pa : Nat) (bs : List Byte) (s : State) : Res State :=
  let k := 65536 - va % 65536
  if bs.length ≤ k then .ok (homeWrite s pa bs)
  else
    match translateAt .store 0 (va + k) s with
    | .error e => .error e
    | .ok (q, _, s) => .ok (homeWrite (homeWrite s pa (bs.take k)) q (bs.drop k))

/-- R234: a record as the overflow region holds it: its address, its size and position in one word, its data (log entry 28). -/
def recBytesOf (r : Rec) : List Byte :=
  leBytes 8 (r.pa + r.data.length * 2 ^ 56) ++ r.data ++ List.replicate (recSize r.data.length - 8 - r.data.length) 0

/-- A record added to the open segment. -/
def pushRec (r : Rec) (scope : BitVec 3) (s : State) : State :=
  s.onCur fun t => { t with recs := t.recs ++ [r], floor := maxScope t.floor scope }

/-- R236: whether the overflow region takes n more bytes. -/
def ovfTakes (s : State) (n : Nat) : Bool := s.logovf != 0 && decide (s.core.ovf + n ≤ 2 ^ 20)

/-- R236: a record that the log has no room for lies in the overflow region, written in place. -/
def appendOvf (va : Nat) (r : Rec) (scope : BitVec 3) (s : State) : Res State :=
  let size := recSize r.data.length
  if ovfTakes s size then
    match translateAt .store 0 (ovfVa s) s with
    | .error e => .error e
    | .ok (q, _, s1) =>
      match putInPlace (ovfVa s) q (recBytesOf r) s1 with
      | .error e => .error e
      | .ok s => .ok (pushRec { r with ovf := true } scope (s.onCore fun c => { c with ovf := c.ovf + size }))
  else trapR cLOGOVF (BitVec.ofNat 64 va) s

/-- R234, R236: append a record of a store to `va` at position `idx`. A segment's header takes its space with the first record that lies in
the log, and none in the overflow region (log entry 28). -/
def appendAt (va pa idx : Nat) (data : List Byte) (scope : BitVec 3) (s : State) : Res State :=
  let size := recSize data.length
  let need := size + (if (s.cur.recs.filter fun r => !r.ovf).isEmpty then 32 else 0)
  let r : Rec := { pa := pa, data := data, idx := idx, marked := false, ovf := false }
  if need ≤ logFree s then .ok (pushRec r scope s)
  else if s.core.sealed.any fun g => g.bytes > 0 then .error (.wait .waitMem (.logSpace need) s)
  else appendOvf va r scope s

/-- R223: a store's record takes the next position of its segment. -/
def appendRec (va pa : Nat) (data : List Byte) (scope : BitVec 3) (s : State) : Res State :=
  match appendAt va pa s.cur.recCtr data scope s with
  | .error e => .error e
  | .ok s => .ok (s.onCur fun t => { t with recCtr := t.recCtr + 1 })

/-! ### The log search (R225) -/

/-- The byte a record holds for an address. -/
def recByte (r : Rec) (a : Nat) : Option Byte :=
  if r.marked || a < r.pa then none else r.data[a - r.pa]?

/-- The last record of a list that holds an address. -/
def lastByte (rs : List Rec) (a : Nat) : Option Byte := rs.foldl (fun o r => (recByte r a).or o) none

/-- Records sorted by position. -/
def insRec (r : Rec) : List Rec → List Rec
  | [] => [r]
  | x :: l => if r.idx < x.idx then r :: x :: l else x :: insRec r l
def sortRecs (l : List Rec) : List Rec := l.foldl (fun a r => insRec r a) []

/-- R225: a task's own records, in ascending key: its sealed segments by number, then its open one. -/
def recsOf (s : State) (t : Task) : List Rec :=
  ((s.core.sealed.filter fun g => sameTask t g.tid g.origin).map fun g => sortRecs g.recs).flatten ++ sortRecs t.recs

/-- What a task's records hold of some bytes. -/
def bytesOf (s : State) (t : Task) (pa n : Nat) : List (Option Byte) :=
  (List.range n).map fun i => lastByte (recsOf s t) (pa + i)
def ownBytes (s : State) (pa n : Nat) : List (Option Byte) := bytesOf s s.cur pa n

/-! ### The view cache (R242) -/

def lineOf (pa : Nat) : Nat := pa / 64
/-- R242: sixty-four sets of four ways, the least recently used line leaving. -/
def vcFill (l : VLine) (vc : List VLine) : List VLine :=
  let others := vc.filter fun x => x.line != l.line
  let set := others.filter fun x => x.line % 64 == l.line % 64
  let keep := (set.take 3).map (·.line)
  l :: others.filter fun x => x.line % 64 != l.line % 64 || keep.contains x.line
def vcTouch (line : Nat) (vc : List VLine) : List VLine :=
  match vc.find? fun x => x.line == line with
  | none => vc
  | some l => l :: vc.filter fun x => x.line != line
def vcDrop (line : Nat) (vc : List VLine) : List VLine := vc.filter fun x => x.line != line
def vcDropAll (lines : List Nat) (vc : List VLine) : List VLine := vc.filter fun x => !lines.contains x.line

/-- A line as its home holds it. -/
def homeLine (h : HomeSt) (line : Nat) : VLine :=
  { line := line, data := memGetN h.mem (line * 64) 64,
    poison := h.poison.filter fun k => k / 8 == line }

/-- Bytes written into a line from an offset on. -/
def putLine (off : Nat) (bs : List Byte) (l : List Byte) : List Byte := l.take off ++ bs ++ l.drop (off + bs.length)

/-- R225, R242: a load served from the home fills its line (`fill`), or writes the value read into a line that is present. -/
def vcAfterHome (fill : Bool) (h : HomeSt) (pa n : Nat) (vc : List VLine) : List VLine :=
  if fill then vcFill (homeLine h (lineOf pa)) vc
  else
    vcTouch (lineOf pa) (vc.map fun x =>
      if x.line == lineOf pa then { x with data := putLine (pa % 64) (memGetN h.mem pa n) x.data, poison := poisonAfter x.poison pa n }
      else x)

/-- Bytes of a load: own records first, the rest from one line (R225). -/
def mergeBytes (own : List (Option Byte)) (line : List Byte) : List Byte :=
  (own.zip line).map fun x => x.1.getD x.2

/-! ### Sealing (R226, R235, R246) -/

/-- R333: a fence marker of the network interface, for the requests of the task and the released operations. -/
def placeMark (s : State) : State :=
  (s.onCur fun t => { t with marks := t.marks + 1 }).onTile fun x =>
    if x.inject.isEmpty then x else { x with injectMarks := x.injectMarks ++ [x.inject.length] }

/-- R311: the held operations of the issuing task go to the network interface in issue order, those of a paired activation to be
compared first (R410). -/
def pushHeld (s : State) : State :=
  let t := s.cur
  pairAll t.tid t.origin (t.held.map fun h => (.send t.tid t.origin, hashedHeld h))
    ((s.onTile fun x => { x with inject := x.inject ++ t.held,
                                 injectBy := x.injectBy ++ t.held.map fun _ => (t.tid, t.origin) }).onCur fun t =>
      { t with sentOut := t.sentOut + (t.held.filter fun h => match h with | .spawn _ => false | _ => true).length, held := [] })

/-- R311, R333: a release of the held operations. -/
def releaseHeld (s : State) : State := if s.cur.held.isEmpty then s else placeMark (pushHeld s)

/-- R268: what an unfinished push to shared memory makes a seal do. -/
def sharedPushes (t : Task) : List Fld :=
  (List.range 8).filterMap fun k =>
    match (t.streams[k]?).join with
    | none => none
    | some st => if st.pat.out && !st.tcm && (!st.pushed.isEmpty || wBusy t (BitVec.ofNat 5 (16 + k))) then some (BitVec.ofNat 5 (16 + k)) else none
def badPush (t : Task) : Option (BitVec 6 × Nat) :=
  t.streams.toList.findSome? fun x => match x with | none => none | some st => st.bad

/-- R235: the number of the next segment; a counter that would pass its end escalates the launch, and of the number that its segments
then take no rule speaks: 0 (log entry 94). -/
def nextSeg (s : State) : Nat × State :=
  if s.core.segCtr ≥ 2 ^ 40 then
    (0, (errEntry (errEntryBytes 5 (BitVec.ofNat 8 s.cur.redel) 0 0 s.core.id s.cur.tid 0 0) s).onTile fun t =>
      { t with escl := true })
  else (s.core.segCtr, s.onCore fun c => { c with segCtr := c.segCtr + 1 })

/-- R17, R237: a record as its homes take it: one of 64 bytes in a scratchpad covers eight banks. -/
def recPieces (r : Rec) : List Rec :=
  match homeOf r.pa with
  | some (.spm _ _) =>
    if r.data.length > 8 then
      (List.range (r.data.length / 8)).map fun k => { r with pa := r.pa + 8 * k, data := (r.data.drop (8 * k)).take 8 }
    else [r]
  | _ => [r]
/-- R238: one part for each home, its records in index order. -/
def partsOf (recs : List Rec) : List SegPart :=
  let rs := (recs.map recPieces).flatten
  ((rs.map fun r => homeOf r.pa).dedup).map fun h =>
    { home := h, recs := sortRecs (rs.filter fun r => homeOf r.pa == h), st := 0, failed := false }

/-- R410: the parts of a segment that is published go to be compared. -/
def pairParts (g : Sealed) (s : State) : State :=
  pairAll g.tid g.origin ((partsOf g.recs).zipIdx.map fun x => (.part g.num x.2, hashedPart x.1)) s

/-- R226, R235, R244, R333: the open segment sealed as one unit and the next one opened. An empty segment is acknowledged at once
(R238). -/
def sealNow (scope : BitVec 3) (s : State) : State :=
  let t := s.cur
  let g : Sealed := { num := t.openSeg, stamp := t.stamp.toNat, tid := t.tid, origin := t.origin,
                      scope := maxScope scope t.floor, bytes := recBytes t.recs, recs := t.recs, shipped := false, parts := [],
                      upTo := t.reqNum, lostIdx := [] }
  let s := if t.recs.isEmpty then s else pairParts g (s.onCore fun c => { c with sealed := c.sealed ++ [g] })
  let (n, s) := nextSeg s
  (placeMark s).onCur fun t => { t with openSeg := n, recs := [], recCtr := 0, floor := 0, partCtr := 0 }

/-- R268: a seal waits until every earlier push to shared memory is a complete record. -/
def sealReady (s : State) : Res Unit :=
  match badPush s.cur with
  | some b => trapR b.1 (BitVec.ofNat 64 b.2) s
  | none => if (sharedPushes s.cur).isEmpty then .ok () else .error (.wait .waitMem (.drain (sharedPushes s.cur)) s)

/-- R246, R311: a seal with the release of the held sends, by every instruction but END. -/
def sealRelease (scope : BitVec 3) (s : State) : Res State :=
  match sealReady s with
  | .error e => .error e
  | .ok _ => .ok ((releaseHeld (sealNow scope s)).onCur fun t => { t with esc := true })

/-- R311: an instruction that lets the activation escape without being a release point releases what it holds first. -/
def escapeCur (s : State) : State := (releaseHeld s).onCur fun t => { t with esc := true }

/-- R238: whether the task has no sealed, unacknowledged segment up to a number. -/
def segsAcked (s : State) (upTo : Nat) : Bool :=
  !s.core.sealed.any fun g => sameTask s.cur g.tid g.origin && g.num ≤ upTo

/-- The number of the last segment the task sealed, just after a seal. -/
def lastSealed (before : State) : Nat := before.cur.openSeg

/-! ### Places of a launch, and migration (R44 to R46) -/

/-- R76, R437: the cores of a leaf map. -/
def leafCores (m : LeafMap) : Nat × Nat := (m.core0, m.core0 + (m.leaf1 - m.leaf0) / Nat.max 1 m.per)

/-- R37: whether a tile holds a leaf of the launch. -/
def tileHasLeaf (l : Launch) (tile : Nat) : Bool :=
  l.leaves.any fun m => let (a, b) := leafCores m; a ≤ tile * 8 + 7 && tile * 8 ≤ b

/-- R46, R407: the tiles of a cluster among which its agent chooses. -/
def migTiles (s : State) (cluster : Nat) : List Nat :=
  ((List.range 16).map fun k => cluster * 16 + k).filter fun t =>
    tileHasLeaf s.launch t && !s.host.retiredTiles.contains t && (!s.launch.paired || t / 2 % 2 == 0)

/-- R46: the destination that the agent of the home's cluster chooses. Which tile has the most free frames, and which of its
cores the fewest in use, is known there alone: a free value limited to the cores that may be chosen (log entry 22). -/
def migDest (s : State) (pa : Nat) : Option (BitVec 13) :=
  match homeOf pa with
  | none => none
  | some h =>
    let ts := migTiles s (homeCluster s.dieId h)
    let x := Config.freeWord s.fresh
    match ts[x.toNat % ts.length]? with
    | none => none
    | some t => some (BitVec.ofNat 13 (t * 8 + x.toNat / 1024 % 8))

/-- R44: what a task carries. -/
def migMsg (t : Task) (pc : BitVec 56) (dest : BitVec 13) : MigTask :=
  { w := t.w, pc := pc, status := t.statusByte, tid := t.tid, origin := t.origin, stamp := t.stamp, key := t.key, dest := dest,
    col := false, part := 0 }

def bump (s : State) : State := { s with fresh := s.fresh + 1 }

/-- R306: a message or migration message leaves in the tile's colour. -/
def countSent (stamp : Nat) (t : TileSt) : TileSt :=
  { t with sentCnt := if t.colour then (t.sentCnt.1, t.sentCnt.2 + 1) else (t.sentCnt.1 + 1, t.sentCnt.2),
           mred := Nat.min t.mred stamp }

/-- R44: the migration message leaves; the frame stays taken until it is accepted. -/
def sendMigration (dest : BitVec 13) (pc : BitVec 56) (s : State) : State :=
  let t := s.cur
  let m := { migMsg t pc dest with col := s.tile.colour, part := s.core.vf }
  -- the secondary's copy of the message is discarded (R410)
  let s := (if secondary s then flushWs t s else (flushWs t s).onHome fun h => { h with out := h.out ++ [.migrate m] }).onCore
    (freeChunk? t.inboxAt)
  let s := s.onTile fun x => { countSent t.stamp.toNat x with unaccepted := x.unaccepted ++ [.mig t.stamp.toNat t.frame] }
  let s := reportFails t s
  { s with cur := { t with st := .ended, wait := none, slot := none } }

/-- R44: what the task has issued has written its destinations, so the message carries them. -/
def written (t : Task) : Bool := t.loads.isEmpty && t.amos.isEmpty && t.arrives.isEmpty && t.vtPend.isEmpty && t.xrPend.isEmpty

/-- R45, R410: the task leaves for another core; the message of a paired activation is compared first. -/
def leave (n : Nat) (d : BitVec 13) (pc : BitVec 56) (s : State) : Res State :=
  let what : PairWhat := .mig s.cur.tid s.cur.origin
  if mayAct what s then .ok (sendMigration d pc (acted what s))
  else
    .error (.wait .waitMem (.leave n (some d))
      (if s.core.pairQ.any (fun x => x.what == what) then s
       else pairCur what (hashedMig (migMsg s.cur pc (if secondary s then partner d else d))) s))

/-- R44, R45: the wait for the acknowledgements, and then the departure, or none. -/
def migrateGo (n : Nat) (dest : Option (BitVec 13)) (pc : BitVec 56) (s : State) : Res State :=
  if !segsAcked s n || !written s.cur then .error (.wait .waitMem (.leave n dest) s)
  else
    match dest with
    | none => .ok (s.onCur fun t => { t with pc := pc })
    | some d => if d == s.core.id then .ok (s.onCur fun t => { t with pc := pc }) else leave n d pc s

/-- R45, R321: seal at the default scope, release, escape, wait for the acknowledgements, then leave or stay. -/
def migrateTo (dest : Option (BitVec 13)) (pc : BitVec 56) (s : State) : Res State :=
  match s.cur.wait with
  | some (.leave n d) => migrateGo n d pc s
  | _ =>
    match sealRelease (defaultScope s) s with
    | .error e => .error e
    | .ok s1 => migrateGo (lastSealed s) dest pc (bump s1)

/-- R279, R321: whether an operation of the task that names a handler is outstanding. -/
def handlerOut (s : State) : Bool :=
  s.core.eng.toList.any fun q => q.any fun o => sameTask s.cur o.tid o.origin && o.handler != 0

/-- R45: the automatic migration that an access to a migratory page causes, if it takes place; one that has begun goes on. -/
def autoDest (s : State) (e : Tlb) (pa : Nat) : Option (BitVec 13) :=
  let t := s.cur
  let cluster := match homeOf pa with | none => s.clusterId | some h => homeCluster s.dieId h
  match t.wait with
  | some (.leave _ d) => d
  | _ =>
    if t.mig && e.mig && cluster != s.clusterId && !t.hvy && !t.inu && t.classMask == 0 && t.q1.isEmpty && !wBusy t 25
        && !handlerOut s && t.traps.isEmpty && t.comps.isEmpty then migDest s pa
    else none

end Sys2Proof.Machine
end

