-- ==== Sys2Proof/Machine/Num.lean ====
section
/-! DEFINITION. Number formats (R126 to R132), exact arithmetic on their values, and the one rounding (R133 to R136); the NQ4
levels, scales and quantisation (R137 to R141). -/

namespace Sys2Proof.Machine

/-- R129: the value of a pattern: a NaN, an infinity, or (−1)^neg × m × 2^e. A zero keeps its sign. -/
inductive FV where
  | nan
  | inf (neg : Bool)
  | fin (neg : Bool) (m : Nat) (e : Int)
  deriving DecidableEq, Repr

/-- R128: exponent width, fraction width, bias, and whether the format has infinities. -/
structure Fmt where
  eb : Nat
  p : Nat
  bias : Nat
  infs : Bool
  deriving DecidableEq, Repr

/-- R126, R128: the floating formats by code. -/
def fmtOf (f : BitVec 3) : Fmt :=
  match f.toNat with
  | 0 => { eb := 8, p := 23, bias := 127, infs := true }
  | 1 => { eb := 8, p := 7, bias := 127, infs := true }
  | 2 => { eb := 5, p := 10, bias := 15, infs := true }
  | 3 => { eb := 4, p := 3, bias := 7, infs := false }
  | _ => { eb := 5, p := 2, bias := 15, infs := true }

def fp32 : Fmt := fmtOf 0
def Fmt.width (F : Fmt) : Nat := 1 + F.eb + F.p
def Fmt.emax (F : Fmt) : Nat := 2 ^ F.eb - 1
/-- The exponent of the least subnormal (R129). -/
def Fmt.qmin (F : Fmt) : Int := 1 - (F.bias : Int) - (F.p : Int)
/-- R128: the largest finite value, as a fraction with hidden bit and an exponent. -/
def Fmt.maxM (F : Fmt) : Nat := if F.infs then 2 ^ (F.p + 1) - 1 else 2 ^ (F.p + 1) - 2
def Fmt.maxQ (F : Fmt) : Int := ((if F.infs then F.emax - 1 else F.emax : Nat) : Int) - (F.bias : Int) - (F.p : Int)

/-- R129. -/
def decodeF (F : Fmt) (x : Nat) : FV :=
  let f := x % 2 ^ F.p
  let e := x / 2 ^ F.p % 2 ^ F.eb
  let s := x / 2 ^ (F.p + F.eb) % 2 == 1
  if e = 0 then .fin s f F.qmin
  else if e = F.emax ∧ F.infs then (if f = 0 then .inf s else .nan)
  else if e = F.emax ∧ f = 2 ^ F.p - 1 then .nan
  else .fin s (2 ^ F.p + f) ((e : Int) - (F.bias : Int) - (F.p : Int))

/-- R128, R130: the canonical NaN. -/
def canonNaN (F : Fmt) : Nat :=
  if F.infs then (if F.p = 2 then 0x7E else F.emax * 2 ^ F.p + 2 ^ (F.p - 1)) else F.emax * 2 ^ F.p + (2 ^ F.p - 1)

def signBit (F : Fmt) (neg : Bool) : Nat := if neg then 2 ^ (F.p + F.eb) else 0

/-- The pattern of a fraction and exponent that the format holds exactly. -/
def packF (F : Fmt) (neg : Bool) (m : Nat) (q : Int) : Nat :=
  if m < 2 ^ F.p then signBit F neg + m
  else signBit F neg + (q + F.bias + F.p).toNat * 2 ^ F.p + (m - 2 ^ F.p)

def maxBits (F : Fmt) (neg : Bool) : Nat := packF F neg F.maxM F.maxQ

/-- R135: an infinite input. -/
def infBits (F : Fmt) (sat neg : Bool) : Nat :=
  if sat then maxBits F neg
  else if F.infs then signBit F neg + F.emax * 2 ^ F.p
  else canonNaN F

/-- R135: an overflow. -/
def ovfBits (F : Fmt) (rz sat neg : Bool) : Nat := if rz || sat then maxBits F neg else infBits F false neg

/-- floor(log2(n / d)) for positive n and d. -/
def log2Rat (n d : Nat) : Int :=
  let l : Int := (Nat.log2 n : Int) - (Nat.log2 d : Int)
  let ge : Bool := if l ≥ 0 then d * 2 ^ l.toNat ≤ n else d ≤ n * 2 ^ (-l).toNat
  if ge then l else l - 1

/-- n / d rounded to an integer, to nearest with ties to even, or toward zero (R133). -/
def roundDiv (rz : Bool) (n d : Nat) : Nat :=
  let m := n / d
  let r := n % d
  if rz then m
  else if 2 * r > d || (2 * r == d && m % 2 == 1) then m + 1 else m

/-- n / d × 2^e as a quotient of naturals. -/
def scaleRat (n d : Nat) (e : Int) : Nat × Nat := if e ≥ 0 then (n * 2 ^ e.toNat, d) else (n, d * 2 ^ (-e).toNat)

/-- R133, R134: the one rounding of the exact value (−1)^neg × (n / d) × 2^e to a format. -/
def roundRat (F : Fmt) (rz sat neg : Bool) (n d : Nat) (e : Int) : Nat :=
  if n = 0 then signBit F neg
  else
    let q := max (log2Rat n d + e - F.p) F.qmin
    let (a, b) := scaleRat n d (e - q)
    let m := roundDiv rz a b
    let (m, q) := if m = 2 ^ (F.p + 1) then (2 ^ F.p, q + 1) else (m, q)
    if q > F.maxQ || (q == F.maxQ && m > F.maxM) then ovfBits F rz sat neg
    else packF F neg m q

/-- R133 to R135: a value rounded to a format. -/
def roundF (F : Fmt) (rz sat : Bool) (x : FV) : Nat :=
  match x with
  | .nan => canonNaN F
  | .inf neg => infBits F sat neg
  | .fin neg m e => roundRat F rz sat neg m 1 e

/-! ### Exact arithmetic (R125) -/

def FV.neg : FV → FV
  | .nan => .nan
  | .inf s => .inf (!s)
  | .fin s m e => .fin (!s) m e

def FV.abs : FV → FV
  | .nan => .nan
  | .inf _ => .inf false
  | .fin _ m e => .fin false m e

def FV.isNeg : FV → Bool
  | .nan => false
  | .inf s => s
  | .fin s _ _ => s

/-- Two dyadic magnitudes over one exponent. -/
def alignM (m1 : Nat) (e1 : Int) (m2 : Nat) (e2 : Int) : Nat × Nat × Int :=
  if e1 ≤ e2 then (m1, m2 * 2 ^ (e2 - e1).toNat, e1) else (m1 * 2 ^ (e1 - e2).toNat, m2, e2)

/-- The exact sum; a sum that cancels is +0, and a sum of zeros of one sign keeps it (R133). -/
def FV.add (a b : FV) : FV :=
  match a, b with
  | .nan, _ => .nan
  | _, .nan => .nan
  | .inf s, .inf t => if s == t then .inf s else .nan
  | .inf s, _ => .inf s
  | _, .inf t => .inf t
  | .fin s m e, .fin t n f =>
    let (x, y, g) := alignM m e n f
    if s == t then .fin s (x + y) g
    else if x > y then .fin s (x - y) g
    else if y > x then .fin t (y - x) g
    else .fin false 0 g

def FV.mul (a b : FV) : FV :=
  match a, b with
  | .nan, _ => .nan
  | _, .nan => .nan
  | .inf s, .inf t => .inf (s != t)
  | .inf s, .fin t n _ => if n = 0 then .nan else .inf (s != t)
  | .fin s m _, .inf t => if m = 0 then .nan else .inf (s != t)
  | .fin s m e, .fin t n f => .fin (s != t) (m * n) (e + f)

def FV.sub (a b : FV) : FV := a.add b.neg

/-- R131: comparison of values; none when unordered. -/
def FV.cmp (a b : FV) : Option Ordering :=
  match a, b with
  | .nan, _ => none
  | _, .nan => none
  | .inf s, .inf t => some (if s == t then .eq else if s then .lt else .gt)
  | .inf s, _ => some (if s then .lt else .gt)
  | _, .inf t => some (if t then .gt else .lt)
  | .fin s m e, .fin t n f =>
    let (x, y, _) := alignM m e n f
    let i : Int := if s then -(x : Int) else x
    let j : Int := if t then -(y : Int) else y
    some (if i < j then .lt else if i = j then .eq else .gt)

def FV.lt (a b : FV) : Bool := a.cmp b == some .lt
def FV.le (a b : FV) : Bool := a.cmp b == some .lt || a.cmp b == some .eq
def FV.eq (a b : FV) : Bool := a.cmp b == some .eq

/-- The exact sum of a list, from +0 of the empty list; the caller gives sums of one term or more. -/
def FV.sum : List FV → FV
  | [] => .fin false 0 0
  | [x] => x
  | x :: r => x.add (FV.sum r)

def zeroFV : FV := .fin false 0 0
def intFV (i : Int) : FV := .fin (i < 0) i.natAbs 0

/-- R131: fmax (NaN wins) and fmaxn (NaN loses) on patterns. A result that is one of the operands keeps its bits
(log entry 11). -/
def fmaxF (F : Fmt) (a b : Nat) : Nat :=
  match (decodeF F a).cmp (decodeF F b) with
  | none => canonNaN F
  | some .lt => b
  | some .gt => a
  | some .eq => if (decodeF F a).isNeg then b else a

def isNaNF (F : Fmt) (a : Nat) : Bool := decodeF F a == .nan

def fmaxnF (F : Fmt) (a b : Nat) : Nat :=
  if isNaNF F a && isNaNF F b then canonNaN F
  else if isNaNF F a then b
  else if isNaNF F b then a
  else fmaxF F a b

/-- The least of two values by the same rules, -0 below +0 (R155). -/
def fminF (F : Fmt) (a b : Nat) : Nat :=
  match (decodeF F a).cmp (decodeF F b) with
  | none => canonNaN F
  | some .lt => a
  | some .gt => b
  | some .eq => if (decodeF F a).isNeg then a else b

/-! ### Conversions (R136) -/

def clampInt (lo hi : Int) (x : Int) : Int := if x < lo then lo else if x > hi then hi else x

/-- Two's complement at a width. -/
def intOf (bits x : Nat) : Int :=
  let x := x % 2 ^ bits
  if x < 2 ^ (bits - 1) then x else (x : Int) - 2 ^ bits
def natOf (bits : Nat) (i : Int) : Nat := (i % 2 ^ bits).toNat

/-- A value rounded to an integer and clamped to a width. -/
def roundInt (rz : Bool) (bits : Nat) (x : FV) : Int :=
  let lo : Int := -(2 ^ (bits - 1))
  let hi : Int := 2 ^ (bits - 1) - 1
  match x with
  | .nan => 0
  | .inf neg => if neg then lo else hi
  | .fin neg m e =>
    let (a, b) := scaleRat m 1 e
    let k : Int := (roundDiv rz a b : Nat)
    clampInt lo hi (if neg then -k else k)

/-- R136: an element converted between two formats 0 to 6. -/
def convert (ff ft : BitVec 3) (rz sat : Bool) (x : Nat) : Nat :=
  if isFloat ff then
    let v := decodeF (fmtOf ff) x
    if isFloat ft then roundF (fmtOf ft) rz sat v else natOf (fmtWidth ft) (roundInt rz (fmtWidth ft) v)
  else
    let i := intOf (fmtWidth ff) x
    if isFloat ft then roundF (fmtOf ft) rz sat (intFV i)
    else
      let w := fmtWidth ft
      natOf w (clampInt (-(2 ^ (w - 1))) (2 ^ (w - 1) - 1) i)

/-! ### NQ4 (R137 to R141) -/

/-- R137: magnitudes in units of 2^-15. -/
def nqMag (k : Nat) : Nat :=
  match k with
  | 0 => 1379 | 1 => 4172 | 2 => 7064 | 3 => 10184 | 4 => 13656 | 5 => 17776 | 6 => 23184 | _ => 32768

def nqLevel (c : Nat) : FV := .fin (c / 8 % 2 == 1) (nqMag (c % 8)) (-15)

/-- R140: block factor and effective scale. -/
def nqFactor (code : Nat) : FV := .fin false (code + 1) (-8)
def nqScale (super : Nat) (code : Nat) : Nat := roundF fp32 false false ((decodeF fp32 super).mul (nqFactor code))

/-- R138: an element converted to a floating format, the exact product rounded once. -/
def nqValue (F : Fmt) (c : Nat) (b : FV) : Nat := roundF F false false ((nqLevel c).mul b)

/-- R139: the code of a value against a finite, nonzero effective scale. -/
def nqQuant (x : FV) (b : FV) : Nat :=
  match x, b with
  | .nan, _ => 0
  | .inf neg, _ => if neg then 0xF else 0x7
  | .fin neg m e, .fin _ n f =>
    -- |x| > |B| (m(k) + m(k+1)) / 2, both sides in units of 2^-16
    let idx := ((List.range 7).filter fun k =>
      let (l, r, _) := alignM (m * 65536) e (n * (nqMag k + nqMag (k + 1))) f
      l > r).length
    (if neg then 8 else 0) + idx
  | .fin neg _ _, _ => if neg then 8 else 0

end Sys2Proof.Machine
end

