-- ==== Sys2Proof/Machine/Shared.lean ====
section
/-! DEFINITION. Shared memory: LD, LDX, ST (R244, R245) and AMO (R252, R253). -/

namespace Sys2Proof.Machine

/-- The word of an instruction, for the TVAL of ILLEGAL and PRIV (R97). -/
def instrW (i : Instr) : Word := (encode i).setWidth 64

/-- R89, R91, R243: a check that comes before every run-time cause. -/
def privCheck (ok : Bool) (i : Instr) (s : State) : Res Unit :=
  if ok then .ok () else trapR cPRIV (instrW i) s

/-- R243. -/
def needScope (p : BitVec 3) (i : Instr) (s : State) : Res Unit := privCheck (scopeOk s p) i s

/-- R244, R252, R390: alignment and range of a shared effective address. -/
def checkEa (ea : Int) (n : Nat) (s : State) : Res Unit :=
  if ea % (n : Int) != 0 then trapR cALIGN (BitVec.ofInt 64 ea) s
  else if ea < 0 || ea + n > 2 ^ 56 then trapR cACCESS (BitVec.ofInt 64 ea) s
  else .ok ()

/-- R253: later loads wait for the return of an AMO with `.aq`. -/
def aqPending (t : Task) : Bool := t.amos.any fun a => a.aq

/-- Two ranges that share a word. -/
def wordsMeet (a n b m : Nat) : Bool := decide (a / 8 ≤ (b + m - 1) / 8) && decide (b / 8 ≤ (a + n - 1) / 8)
def amoBytes (r : AmoReq) : Nat := if r.s32 then 4 else 8

/-- R231, R253: loads and atomics of a task on some word that have not returned: a later load of the word is served by its home. -/
def wordInFlight (t : Task) (pa n : Nat) : Bool :=
  (t.loads.any fun l => wordsMeet l.pa l.sz pa n) || t.amos.any fun a => wordsMeet a.req.pa (amoBytes a.req) pa n

/-- R325, R333: whether an earlier request goes before a later one: one of the same word (R231); one to the same home that is of the
same kind or that a fence marker separates. -/
def goesBefore (kind : Bool) (m0 pa0 n0 m1 pa1 n1 : Nat) : Bool :=
  wordsMeet pa0 n0 pa1 n1 || (homeOf pa0 == homeOf pa1 && (kind || decide (m0 < m1)))

/-- Requests of a task are performed in the order in which they were issued where the lane keeps it (`goesBefore`). An atomic that
waits for acknowledgements has not left its core (R253). Whether a request numbered `num`, an atomic or a load, may be performed at its
home. -/
def requestTurn (t : Task) (amo : Bool) (num marks pa n : Nat) : Bool :=
  !(t.loads.any fun l => l.num < num && l.reply.isNone && goesBefore (!amo) l.marks l.pa l.sz marks pa n) &&
  !t.amos.any fun a => a.num < num && a.after.isNone && a.ret.isNone && !a.poisoned &&
    goesBefore amo a.marks a.req.pa (amoBytes a.req) marks pa n
def pushLoad (l : LoadPend) (t : Task) : Task :=
  { t with loads := t.loads ++ [{ l with num := t.reqNum, marks := t.marks }], reqNum := t.reqNum + 1 }
def pushAmo (a : AmoPend) (t : Task) : Task :=
  { t with amos := t.amos ++ [{ a with num := t.reqNum, marks := t.marks }], reqNum := t.reqNum + 1 }

/-- Where a load takes the bytes that no own record holds (R225, R242, R244). -/
inductive LoadFrom where
  | own
  | cached (l : VLine)
  | home
  deriving DecidableEq, Repr

/-- R244: whether the home of an address lies within a fresh scope. -/
def freshHome (s : State) (pa : Nat) (p : BitVec 3) : Bool :=
  match homeOf pa with | none => true | some h => homeInScope s.tileId p h

/-- R242: whether a load that the home serves fills a line: one with `.na`, or whose fresh scope includes the home, allocates none. -/
def fills (s : State) (pa : Nat) (p : BitVec 3) (na : Bool) : Bool := !na && !freshHome s pa p

def loadSource (s : State) (pa n : Nat) (p : BitVec 3) (na : Bool) : LoadFrom :=
  if (ownBytes s pa n).all (·.isSome) then .own
  else
    match s.core.vcache.find? fun l => l.line == lineOf pa with
    | none => .home
    | some l => if na || freshHome s pa p || wordInFlight s.cur pa n then .home else .cached l

/-- The bytes of a load that the core serves by itself: own records over a view-cache line. -/
def serveLocal (s : State) (pa n : Nat) (l : Option VLine) : List Byte :=
  let line := match l with | none => List.replicate n 0 | some l => (l.data.drop (pa % 64)).take n
  mergeBytes (ownBytes s pa n) line

/-- The translated address of a load or store, after its checks (R244, R436). -/
def sharedAddr (acc : Access) (ea : Int) (n : Nat) (p : BitVec 3) (s : State) : Res (Nat × Tlb × State) :=
  match checkEa ea n s with
  | .error e => .error e
  | .ok _ =>
    match translate acc ea.toNat s with
    | .error e => .error e
    | .ok (pa, e, s) => if packageOk s p pa then .ok (pa, e, s) else trapR cACCESS (BitVec.ofInt 64 ea) s

def loadExt (sext : Bool) (n : Nat) (bs : List Byte) : Word :=
  if sext then sextBytes n (leNat bs) else zextBytes n (leNat bs)

/-- R244, R245: a load whose address is known: served at once by the core, or outstanding until its home replies. -/
def loadAt (sext na : Bool) (a : Fld) (pa n : Nat) (p : BitVec 3) (s : State) : Res State :=
  match loadSource s pa n p na with
  | .own => .ok (advance (writeS a (loadExt sext n (serveLocal s pa n none)) (charge .smem s)))
  | .cached l =>
    if l.poison.contains (pa / 8) then
      let (x, s) := (charge .smem s).free
      .error (.err 1 x (BitVec.ofNat 64 (pa - pa % 8)) s)
    else
      let s' := s.onCore fun c => { c with vcache := vcTouch l.line c.vcache }
      .ok (advance (writeS a (loadExt sext n (serveLocal s pa n (some l))) (charge .smem s')))
  | .home =>
    if s.cur.loads.length ≥ 16 then unitBusy 0 s
    else
      .ok (advance ((chargeAccess pa n (charge .smem s)).onCur (pushLoad
        { vec := false, dst := a, sz := n, sext := sext, pa := pa, own := ownBytes s pa n, fill := fills s pa p na,
          reply := none, poisoned := false })))

/-- R244: LD and LDX. -/
def loadShared (sext : Bool) (i : Instr) (a b : Fld) (sz : BitVec 2) (p : BitVec 3) (na : Bool) (o : BitVec 10)
    (s : State) : Res State :=
  match needScope p i s with
  | .error e => .error e
  | .ok _ =>
    match takeS [b] [a] s with
    | .error e => .error e
    | .ok ([x], s) =>
      let n := 2 ^ sz.toNat
      if aqPending s.cur then unitBusy 0 s
      else
        match sealReady s with
        | .error e => .error e
        | .ok _ =>
        match sharedAddr .load (eaOf x o.toInt n) n p s with
        | .error e => .error e
        | .ok (pa, e, s) =>
          match autoDest s e pa with
          | some d => migrateTo (some d) s.cur.pc s
          | none => loadAt sext na a pa n p s
    | .ok (_, s) => .ok s

def execLd (a b : Fld) (sz : BitVec 2) (p : BitVec 3) (na : Bool) (o : BitVec 10) (s : State) :
    Host.Outcome State Fault Refusal := finish (loadShared true (.ld a b sz p na o) a b sz p na o s)
def execLdx (a b : Fld) (sz : BitVec 2) (p : BitVec 3) (na : Bool) (o : BitVec 10) (s : State) :
    Host.Outcome State Fault Refusal := finish (loadShared false (.ldx a b sz p na o) a b sz p na o s)

/-- R244: ST. -/
def storeShared (i : Instr) (a b : Fld) (sz : BitVec 2) (p : BitVec 3) (o : BitVec 10) (s : State) : Res State :=
  match needScope p i s with
  | .error e => .error e
  | .ok _ =>
    match takeS [b, a] [] s with
    | .error e => .error e
    | .ok ([x, d], s1) =>
      let n := 2 ^ sz.toNat
      let ea := eaOf x o.toInt n
      match sharedAddr .store ea n p s1 with
      | .error e => .error (e.back s)
      | .ok (pa, e, s1) =>
        match autoDest s1 e pa with
        | some dest => (migrateTo (some dest) s1.cur.pc s1).mapError (·.back s)
        | none =>
          match appendRec ea.toNat pa (leBytes n d.toNat) p (chargeOnce .smem s1) with
          | .error e => .error (e.back s)
          | .ok s => .ok (advance s)
    | .ok (_, s) => .ok s

def execSt (a b : Fld) (sz : BitVec 2) (p : BitVec 3) (o : BitVec 10) (s : State) :
    Host.Outcome State Fault Refusal := finish (storeShared (.st a b sz p o) a b sz p o s)

/-! ### Atomics -/

/-- R253: the new value of an n-bit word. -/
def amoNew (op : BitVec 4) (n old v e : Nat) : Nat :=
  match op.toNat with
  | 0 => (old + v) % 2 ^ n
  | 1 => old &&& v
  | 2 => old ||| v
  | 3 => old ^^^ v
  | 4 => if intOf n old ≤ intOf n v then old else v
  | 5 => if intOf n old ≥ intOf n v then old else v
  | 6 => Nat.min old v
  | 7 => Nat.max old v
  | 8 => v
  | 9 => if old = e then v else old
  | _ => fmaxF fp32 old v

/-- R230, R253: an atomic at its home, as one indivisible step: the old value, and the home afterwards. -/
def amoAtHome (r : AmoReq) (h : HomeSt) : Nat × HomeSt :=
  let n := if r.s32 then 32 else 64
  let old := leNat (memGetN h.mem r.pa (n / 8))
  let new := amoNew r.op n old (r.v.toNat % 2 ^ n) (r.e.toNat % 2 ^ n)
  (old, { h with mem := memPutN h.mem r.pa (leBytes (n / 8) new) })

/-- R241, R253, R401: what an atomic meets at its home; `unheard`: it is performed and its return is lost. -/
inductive AmoEnd where
  | value (old : Nat) (h : HomeSt)
  | unheard (h : HomeSt)
  | lost
  | refused
  | poison
  deriving DecidableEq, Repr

def amoPerform (s : State) (r : AmoReq) : AmoEnd :=
  if lostTo s r.pa then .lost
  else if refusedAt s s.core.vf r.pa then .refused
  else if anyPoison s.home.poison r.pa (if r.s32 then 4 else 8) then .poison
  else
    let (old, h) := amoAtHome r s.home
    if lostRead s r.pa then .unheard h else .value old h

/-- R252: the operand fields an atomic reads. -/
def amoSrcs (a b c : Fld) (op : BitVec 4) : List Fld := if op = 9 then [b, c, a] else [b, c]

/-- R253: the effects of an atomic on its own core, at issue. -/
def amoCore (pa : Nat) (aq : Bool) (c : CoreSt) : CoreSt :=
  { c with vcache := if aq then [] else vcDrop (lineOf pa) c.vcache }

/-- R253: an atomic whose seal, if any, has been made; `after` is that segment. The task goes on; the destination is written when the
atomic returns. -/
def amoIssue (a : Fld) (r : AmoReq) (aq : Bool) (after : Option Nat) (s : State) : State :=
  advance ((s.onCore (amoCore r.pa aq)).onCur (pushAmo
    { dst := a, req := r, after := after, aq := aq, ret := none, failed := false, poisoned := false }))

/-- R253: AMO. -/
def amo (i : Instr) (a b c : Fld) (op : BitVec 4) (p : BitVec 3) (s32 rl aq : Bool) (s : State) : Res State :=
  match needScope p i s with
  | .error e => .error e
  | .ok _ =>
    match takeS (amoSrcs a b c op) [a] s with
    | .error e => .error e
    | .ok (x :: v :: e, s1) =>
      let n := if s32 then 4 else 8
      match sharedAddr .amo (x.toNat : Int) n p s1 with
      | .error e => .error (e.back s)
      | .ok (pa, tlb, s1) =>
        match autoDest s1 tlb pa with
        | some dest => (migrateTo (some dest) s1.cur.pc s1).mapError (·.back s)
        | none =>
          let r : AmoReq := { op := op, s32 := s32, pa := pa, v := v, e := (e.head?).getD 0 }
          let s2 := if s1.cur.paid then s1 else chargeAccess pa n (chargeOnce .amo s1)
          let compare (s : State) : State := pairCur (.amo s.cur.tid s.cur.origin s.cur.reqNum) (hashedOp i x v) s
          if rl then
            match sealRelease p s2 with
            | .error e => .error (e.back s)
            | .ok s3 => .ok (amoIssue a r aq (some (lastSealed s2)) (compare s3))
          else .ok (amoIssue a r aq none (compare (escapeCur s2)))
    | .ok (_, s) => .ok s

def execAmo (a b c : Fld) (op : BitVec 4) (p : BitVec 3) (s32 rl aq : Bool) (s : State) :
    Host.Outcome State Fault Refusal := finish (amo (.amo a b c op p s32 rl aq) a b c op p s32 rl aq s)

end Sys2Proof.Machine
end

