-- ==== Sys2Proof/Machine/Order.lean ====
section
/-! DEFINITION. Publishing, acquiring and fences: opcode 0x1B (R246 to R251, R256, R257), and the barriers, opcode 0x1E
(R258 to R262). -/

namespace Sys2Proof.Machine

/-- A register field that names w0 to w15 and whose value is there (R98, R245). -/
def needRegs (fs : List Fld) (s : State) : Res Unit :=
  if fs.any (wLoading s.cur) then .error (.wait .waitMem .load s)
  else if fs.any (wBusy s.cur) then .error (.wait (heldBack s) (.operand fs [] [] []) s)
  else .ok ()

/-- R246: REL. -/
def rel (i : Instr) (p : BitVec 3) (s : State) : Res State :=
  match needScope p i s with
  | .error e => .error e
  | .ok _ =>
    match sealRelease p (chargeOnce .ord s) with
    | .error e => .error e
    | .ok s => .ok (advance s)

def execRel (p : BitVec 3) (s : State) : Host.Outcome State Fault Refusal := finish (rel (.rel p) p s)

/-! ### ACQ -/

/-- The lines that records touch. -/
def recLines (rs : List Rec) : List Nat := (rs.map fun r => lineOf r.pa).dedup

/-- R227, R249: which of this core's sealed segments an ACQ of a reader awaits: those whose scope includes the reader. -/
def awaited (s : State) (reader : BitVec 13) : List Sealed :=
  s.core.sealed.filter fun g => coreInScope s.core.id g.scope reader

/-- R249: the lines of an answer to a reader: those that this core's segments touched, acknowledged or still awaited. -/
def answerLines (s : State) (reader : BitVec 13) : List Nat :=
  (((s.core.ackedLines.filter fun x => coreInScope s.core.id x.1 reader).map (·.2)) ++
    recLines ((awaited s reader).map (·.recs)).flatten).dedup

/-- R227, R249, R362: the cores to which a request goes. -/
def acqCores (s : State) (p : BitVec 3) (cores : List (BitVec 13)) : List (BitVec 13) :=
  cores.dedup.filter fun c => coreInScope s.core.id p c && inPartition s (tileOf c) &&
    (tileHasLeaf s.launch (tileOf c) || tileOf c == s.tileId)

/-- R249: whether this core's segments that an ACQ awaits are acknowledged. -/
def ownAcked (own : List Nat) (s : State) : Bool := !s.core.sealed.any fun g => own.contains g.num

/-- R249, steps 4 and 5: the ACQ ends once nothing more is awaited and the loads before it have been performed (R231). -/
def acqGo (cs : List (BitVec 13)) (own : List Nat) (lines : List Nat) (s : State) : Res State :=
  if cs.isEmpty && ownAcked own s && s.cur.loads.isEmpty then .ok (advance (s.onCore fun c => { c with vcache := vcDropAll lines c.vcache }))
  else .error (.wait .waitMem (.acq cs own lines) s)

/-- R249, steps 2, 4 and 5, for the forms that name cores. -/
def acqSet (i : Instr) (p : BitVec 3) (cores : State → Res (List (BitVec 13))) (s : State) : Res State :=
  match needScope p i s with
  | .error e => .error e
  | .ok _ =>
    match s.cur.wait with
    | some (.acq cs own lines) => acqGo cs own lines s
    | _ =>
      match cores s with
      | .error e => .error e
      | .ok cs =>
        let cs := acqCores s p cs
        let s := chargeOnce .ord s
        let others := cs.filter fun c => c != s.core.id
        let mine := if cs.contains s.core.id then awaited s s.core.id else []
        let own := mine.map (·.num)
        let s := s.onHome fun h => { h with out := h.out ++ others.map fun c => .acqReq c p }
        acqGo others own (if cs.contains s.core.id then answerLines s s.core.id else []) (placeMark s)

def execAcq (b : Fld) (p : BitVec 3) (s : State) : Host.Outcome State Fault Refusal :=
  finish (acqSet (.acq b p) p (fun s => match needRegs [b] s with
    | .error e => .error e
    | .ok _ => .ok [(s.rw b).extractLsb' 0 13]) s)

/-- R248, form 1. -/
def execAcqTm (b c : Fld) (p : BitVec 3) (s : State) : Host.Outcome State Fault Refusal :=
  finish (acqSet (.acqTm b c p) p (fun s => match needRegs [b, c] s with
    | .error e => .error e
    | .ok _ => .ok (((List.range 8).filter fun k => (s.rw c).getLsbD k).map fun k =>
        ((s.rw b).extractLsb' 0 10 ++ BitVec.ofNat 3 k : BitVec 13))) s)

/-- R248: the cores whose bits are set in a bitmap of words. -/
def bitmapCores (ws : List Word) : List (BitVec 13) :=
  ((ws.zipIdx.map fun x => ((List.range 64).filter fun j => x.1.getLsbD j).map fun j => BitVec.ofNat 13 (64 * x.2 + j))).flatten

def readWords (s : State) (a : Nat) : Nat → Res (List Word)
  | 0 => .ok []
  | n + 1 =>
    match tcmRead s a 8 with
    | .error e => .error e
    | .ok bs =>
      match readWords s (a + 8) n with
      | .error e => .error e
      | .ok ws => .ok (leWord bs :: ws)

/-- R248, form 2, with its checks in order. -/
def acqBitmap (b c : Fld) (s : State) : Res (List (BitVec 13)) :=
  match needRegs [b, c] s with
  | .error e => .error e
  | .ok _ =>
    let a := s.rw b
    let n := s.rw c
    if n < 1 || n > 128 then trapR cACCESS a s
    else if a.toNat % 8 != 0 then trapR cALIGN a s
    else if a.toNat + 8 * n.toNat > 131072 then trapR cACCESS a s
    else
      match readWords s a.toNat n.toNat with
      | .error e => .error e
      | .ok ws => .ok (bitmapCores ws)

def execAcqMap (b c : Fld) (p : BitVec 3) (s : State) : Host.Outcome State Fault Refusal :=
  finish (acqSet (.acqMap b c p) p (acqBitmap b c) s)

/-- R305: a request for a sweep goes up the tree. -/
def wantSweep (s : State) : State := s.onTile fun t => { t with sweepWanted := true }

/-- R227, R231, R249, form 3: the ACQ ends once the commit horizon has reached its stamp and the loads before it have been performed;
`ask` asks for a sweep where the horizon is below. -/
def acqBelowGo (t : Nat) (ask : Bool) (s : State) : Res State :=
  if s.tile.commit ≥ t && s.cur.loads.isEmpty then .ok (advance (s.onCore fun c => { c with vcache := [] }))
  else .error (.wait .waitMem (.acqBelow t) (if ask && s.tile.commit < t then wantSweep s else s))

/-- R227, R249, form 3: below a stamp. -/
def acqBelow (i : Instr) (b : Fld) (p : BitVec 3) (s : State) : Res State :=
  match needScope p i s with
  | .error e => .error e
  | .ok _ =>
    match s.cur.wait with
    | some (.acqBelow t) => acqBelowGo t false s
    | _ =>
      match needRegs [b] s with
      | .error e => .error e
      | .ok _ => acqBelowGo (Nat.min ((s.rw b).toNat % 2 ^ 48) s.cur.stamp.toNat) true (placeMark (chargeOnce .ord s))

def execAcqBelow (b : Fld) (p : BitVec 3) (s : State) : Host.Outcome State Fault Refusal :=
  finish (acqBelow (.acqBelow b p) b p s)

/-! ### FENCE -/

/-- R228, R231, R250: everything of the task up to a seal is acknowledged, returned or accepted. -/
def fenceDone (s : State) (seg : Nat) : Bool :=
  segsAcked s seg && s.cur.loads.isEmpty && s.cur.amos.isEmpty && s.cur.sentOut == 0

/-- R251: the status of the failures since the last FENCE. -/
def fenceStatus (t : Task) (noflag : Bool) : Word :=
  (BitVec.ofNat 16 (Nat.min t.fails 0xFFFF) ++ 0#44 ++ BitVec.ofBool noflag ++ BitVec.ofBool t.failBig
    ++ BitVec.ofBool t.failRefused ++ BitVec.ofBool t.failDead : BitVec 64)

/-- R250, R251: the status returned and the failures reported. -/
def fenceEnd (d : Fld) (noflag : Bool) (s : State) : State :=
  let st := fenceStatus s.cur noflag
  let s := s.onCur fun t => { t with fails := 0, failBig := false, failRefused := false, failDead := false }
  let s := if st != 0 then s.onTile fun t => { t with ffail := true } else s
  advance (writeS d st s)

/-- R250: the checks of `.f`, made before the seal, give the flag's physical address. -/
def flagAddr (b : Fld) (scope : BitVec 3) (s : State) : Res (Nat × State) :=
  let x := s.rw b
  if x.toNat % 8 != 0 then trapR cALIGN x s
  else if x.toNat ≥ 2 ^ 56 then trapR cACCESS x s
  else
    match translateAt .amo scope x.toNat s with
    | .error e => .error e
    | .ok (pa, _, s) => .ok (pa, s)

/-- R250: the fence after its seal: it waits, then ends or asks for its flag write, which a paired activation has compared first
(R410). -/
def fenceWait (d : Fld) (flag : Option (Nat × Word)) (seg : Nat) (s : State) : Res State :=
  if !fenceDone s seg then .error (.wait .waitMem (.fence seg flag) s)
  else
    match flag with
    | none => .ok (fenceEnd d false s)
    | some (pa, v) =>
      if anyFail s.cur then .ok (fenceEnd d true s)
      else .error (.wait .waitMem (.flag seg pa v false) (pairCur (.flag s.cur.tid s.cur.origin) (leBytes 8 pa ++ leBytes 8 v.toNat) s))

/-- R250: the flag of `.f`: its address, translated once and before the seal, and its value. -/
def flagOf (f : Option (Fld × Fld)) (p : BitVec 3) (vs : List Word) (s : State) : Res (Option (Nat × Word) × State) :=
  match f with
  | none => .ok (none, s)
  | some (b, _) =>
    match flagAddr b p s with
    | .error e => .error e
    | .ok (pa, s) => .ok (some (pa, vs.headD 0), s)

/-- R250: FENCE, with and without `.f`. -/
def fence (i : Instr) (d : Fld) (p : BitVec 3) (f : Option (Fld × Fld)) (s : State) : Res State :=
  match needScope p i s with
  | .error e => .error e
  | .ok _ =>
    let srcs := match f with | none => [] | some (_, c) => [c]
    match needRegs (match f with | none => [] | some (b, _) => [b]) s with
    | .error e => .error e
    | .ok _ =>
      match takeS srcs [d] s with
      | .error e => .error e
      | .ok (vs, s1) =>
        match s1.cur.wait with
        | some (.fence n flag) => (fenceWait d flag n s1).mapError (·.back s)
        | some (.flag _ _ _ true) => .ok (advance (writeS d 0 s1))
        | some (.flag n pa v false) => .error (Stop.back (.wait .waitMem (.flag n pa v false) s1) s)
        | _ =>
          match flagOf f p vs s1 with
          | .error e => .error (e.back s)
          | .ok (flag, s1) =>
            match sealRelease p (chargeOnce .ord s1) with
            | .error e => .error (e.back s)
            | .ok s2 => (fenceWait d flag (lastSealed s1) s2).mapError (·.back s)

def execFence (d : Fld) (p : BitVec 3) (s : State) : Host.Outcome State Fault Refusal :=
  finish (fence (.fence d p) d p none s)
def execFenceF (d b c : Fld) (p : BitVec 3) (s : State) : Host.Outcome State Fault Refusal :=
  finish (fence (.fenceF d b c p) d p (some (b, c)) s)

/-! ### QFENCE, LOGSN, LOGDROP -/

/-- R256: the operations of the task in a queue that are not performed. -/
def queueBusy (s : State) (q : Nat) : Bool :=
  if q = 8 then s.core.mx.queue.any fun c => c.tid == s.cur.tid && c.origin == s.cur.origin
  else ((s.core.eng[q]?).getD []).any fun o => sameTask s.cur o.tid o.origin

/-- R256, step 3: the key of a record of the task. -/
def recKey (s : State) (seg : Nat) (r : Rec) : WKey :=
  { stamp := s.cur.stamp.toNat, writer := s.core.id.toNat, seg := seg, part := 0, idx := r.idx }

def markRec (s : State) (wrote : List (Nat × WKey)) (seg : Nat) (r : Rec) : Rec :=
  if wrote.any fun w => overlaps r.pa r.data.length (w.1 * 8) 8 && wkeyLt (recKey s seg r) w.2 then { r with marked := true }
  else r

def qfenceEnd (mask : Word) (s : State) : State :=
  let mine := (s.cur.wrote.filter fun w => mask.getLsbD w.1).map (·.2)
  let s1 := s.onCore fun c =>
    { c with vcache := vcDropAll (mine.map fun w => w.1 / 8) c.vcache,
             sealed := c.sealed.map fun g =>
               if sameTask s.cur g.tid g.origin then { g with recs := g.recs.map (markRec s mine g.num) } else g }
  s1.onCur fun t => { t with recs := t.recs.map (markRec s mine t.openSeg), wrote := t.wrote.filter fun w => !mask.getLsbD w.1 }

/-- R256: the queues of a mask with operations of the task that are not performed. -/
def busyQueues (mask : Word) (s : State) : List Nat := (List.range 16).filter fun q => mask.getLsbD q && queueBusy s q
def qfenceGo (mask : Word) (s : State) : Res State :=
  if (busyQueues mask s).isEmpty then .ok (advance (qfenceEnd mask s)) else .error (.wait .waitMem (.qfence mask) s)

/-- R256. -/
def qfence (b : Fld) (s : State) : Res State :=
  match s.cur.wait with
  | some (.qfence mask) => qfenceGo mask s
  | _ =>
    match needRegs [b] s with
    | .error e => .error e
    | .ok _ => qfenceGo (s.rw b) (placeMark (chargeOnce .ord s))

def execQfence (b : Fld) (s : State) : Host.Outcome State Fault Refusal := finish (qfence b s)

/-- R257. -/
def logsnWord (s : State) : Word :=
  (0#8 ++ BitVec.ofNat 16 (Nat.min s.core.sealed.length 0xFFFF) ++ BitVec.ofNat 40 s.cur.openSeg : BitVec 64)
def execLogsn (a : Fld) (s : State) : Host.Outcome State Fault Refusal :=
  finish (match takeS [] [a] s with
    | .error e => .error e
    | .ok (_, s) => .ok (advance (writeS a (logsnWord s) (charge .ord s))))

/-- R257: pushes to shared memory are records of the open segment, so they are discarded with it. -/
def dropPushes (t : Task) : Task :=
  { t with streams := t.streams.map fun x => x.map fun st => if st.pat.out && !st.tcm then { st with pushed := [] } else st }
def execLogdrop (s : State) : Host.Outcome State Fault Refusal :=
  let n := ovfBytes s.cur.recs
  finish (.ok (advance (((charge .ord s).onCore fun c => { c with ovf := c.ovf - n }).onCur fun t =>
    { dropPushes t with recs := [], recCtr := 0, floor := 0 })))

/-! ### Barriers -/

def State.bar (s : State) (n : BitVec 6) : Bar := s.tile.bars[n.toNat]
def State.setBar (s : State) (n : BitVec 6) (b : Bar) : State := s.onTile fun t => { t with bars := t.bars.set n.toNat b }

/-- R258: the state that BTEST reads. -/
def Bar.word (b : Bar) : Word :=
  (BitVec.ofBool b.init ++ BitVec.ofBool b.ring ++ 0#18 ++ b.count ++ 0#4 ++ b.arr ++ b.phase : BitVec 64)

def barTrap {α : Type} (n : BitVec 6) (s : State) : Res α := trapR cBARRIER (n.setWidth 64) s

/-- R260: whether a task or a matrix command of a core of the tile waits on a barrier. -/
def barWaited (s : State) (n : BitVec 6) : Bool :=
  s.tasks.any (fun t => match t.wait with | some (.bwait m _) => m == n | _ => false) ||
    s.core.mx.queue.any (fun c => c.bar == some n && (!c.started || c.fn == .mrot)) || s.tile.otherWaits.contains n

/-- R260. -/
def binit (b : Fld) (n : BitVec 6) (s : State) : Res State :=
  match needRegs [b] s with
  | .error e => .error e
  | .ok _ =>
    let c := s.rw b
    let bar := s.bar n
    if bar.arr != 0 || barWaited s n then barTrap n s
    else if c > 4095 then barTrap n s
    else
      let bar := if c = 0 then { bar with init := false } else { bar with init := true, count := c.extractLsb' 0 12 }
      .ok (advance ((charge .bar s).setBar n bar))

def execBinit (b : Fld) (n : BitVec 6) (s : State) : Host.Outcome State Fault Refusal := finish (binit b n s)

/-- R261: one arrival: the phase it joins, and the barrier after it. -/
def barArrive (b : Bar) : BitVec 16 × Bar :=
  if b.arr + 1 = b.count then (b.phase, { b with arr := 0, phase := b.phase + 1, ring := false })
  else (b.phase, { b with arr := b.arr + 1 })

/-- R261: BARRIVE sends its arrival; the destination register is written when it reaches the barrier. -/
def barrive (i : Instr) (a : Fld) (n : BitVec 6) (rl : Bool) (s : State) : Res State :=
  let arrive (s : State) : Res State :=
    .ok (advance (s.onCur fun t => { t with arrives := t.arrives ++ [(a, n)] }))
  match privCheck (!rl || scopeOk s 1) i s with
  | .error e => .error e
  | .ok _ =>
    match needRegs [a] s with
    | .error e => .error e
    | .ok _ =>
      match s.cur.wait with
      | some (.acks k) => if segsAcked s k then arrive s else .error (.wait .waitMem (.acks k) s)
      | _ =>
        if !(s.bar n).init || (s.bar n).ring then barTrap n s
        else
          let s1 := chargeOnce .bar s
          if rl then
            match sealRelease 1 s1 with
            | .error e => .error e
            | .ok s2 => if segsAcked s2 (lastSealed s1) then arrive s2 else .error (.wait .waitMem (.acks (lastSealed s1)) s2)
          else arrive s1

def execBarrive (a : Fld) (n : BitVec 6) (rl : Bool) (s : State) : Host.Outcome State Fault Refusal :=
  finish (barrive (.barrive a n rl) a n rl s)

/-- R262: whether the phase named has completed. -/
def phasePassed (b : Bar) (p : BitVec 16) : Bool := 1 ≤ (b.phase - p).toNat && (b.phase - p).toNat ≤ 32767

/-- R262: a phase is awaited, or has passed. -/
def bwaitGo (n : BitVec 6) (p : BitVec 16) (aq : Bool) (s : State) : Res State :=
  if phasePassed (s.bar n) p then .ok (advance (if aq then s.onCore fun c => { c with vcache := [] } else s))
  else .error (.wait .waitMsg (.bwait n p) s)

/-- R262. -/
def bwait (b : Fld) (n : BitVec 6) (aq : Bool) (s : State) : Res State :=
  match s.cur.wait with
  | some (.bwait _ p) => bwaitGo n p aq s
  | _ =>
    match needRegs [b] s with
    | .error e => .error e
    | .ok _ =>
      if !(s.bar n).init then barTrap n s
      else bwaitGo n ((s.rw b).extractLsb' 0 16) aq (chargeOnce .bar s)

def execBwait (b : Fld) (n : BitVec 6) (aq : Bool) (s : State) : Host.Outcome State Fault Refusal :=
  finish (bwait b n aq s)

/-- R262: BTEST. -/
def execBtest (a : Fld) (n : BitVec 6) (s : State) : Host.Outcome State Fault Refusal :=
  finish (match needRegs [a] s with
    | .error e => .error e
    | .ok _ => .ok (advance ((charge .bar s).ww a (s.bar n).word)))

end Sys2Proof.Machine
end

