-- ==== Sys2Proof/Machine/Csr.lean ====
section
/-! DEFINITION. Control registers (R92 to R96, R39, R114 to R116): every number of R93, its privileges, what it reads and
what a write changes. -/

namespace Sys2Proof.Machine

/-- R93: the lowest privilege that may read or write; none where no privilege may. -/
structure CsrAcc where
  read : Option (BitVec 2)
  write : Option (BitVec 2)
  deriving DecidableEq, Repr

def csrAcc (n : BitVec 12) : CsrAcc :=
  match n.toNat with
  | 0x000 | 0x003 => { read := some 0, write := some 0 }
  | 0x005 | 0x006 | 0x007 | 0x008 => { read := some 0, write := some 1 }
  | 0x009 => { read := some 0, write := some 0 }
  | 0x100 | 0x105 => { read := some 0, write := some 1 }
  | 0x101 | 0x102 | 0x103 | 0x104 => { read := some 0, write := some 0 }
  | 0x300 | 0x301 | 0x302 | 0x303 | 0x304 => { read := some 0, write := some 0 }
  | 0x400 | 0x401 | 0x402 => { read := some 0, write := some 0 }
  | 0x500 | 0x501 => { read := some 0, write := some 1 }
  | 0x600 => { read := some 1, write := none }
  | 0x700 => { read := some 1, write := some 1 }
  | k => if 0x710 ≤ k ∧ k ≤ 0x71F then { read := some 1, write := some 1 } else { read := some 0, write := none }

/-- Which of the four operations of opcode 0x22. -/
inductive CsrOp where
  | read | write | set | clear
  deriving DecidableEq, Repr

/-- R93: UFLAGS at task privilege takes CSRSET alone. -/
def csrWriteOk (n : BitVec 12) (op : CsrOp) (priv : BitVec 2) : Bool :=
  if n = 0x009 ∧ op ≠ .set then decide (1 ≤ priv)
  else match (csrAcc n).write with | none => false | some p => decide (p ≤ priv)
def csrReadOk (n : BitVec 12) (priv : BitVec 2) : Bool :=
  match (csrAcc n).read with | none => false | some p => decide (p ≤ priv)

/-- R39: the coordinate of a leaf at a level: the digit of its leaf index. -/
def lvlWord (ls : List Level) (leaf k : Nat) : Word :=
  match ls[k]? with
  | none => 0
  | some l =>
    let below := ((ls.drop (k + 1)).map (·.lg)).sum
    let crd := leaf / 2 ^ below % 2 ^ l.lg
    (0#28 ++ l.dom ++ l.scope ++ BitVec.ofNat 14 (2 ^ l.lg) ++ 0#3 ++ BitVec.ofNat 13 crd : BitVec 64)

/-- R94: CAP0 to CAP7. -/
def capWord (h : HostSt) (k : Nat) : Word :=
  let r := h.retiredTiles.length
  match k with
  | 0 => (0#16 ++ BitVec.ofNat 16 (1024 - r) ++ BitVec.ofNat 16 (8192 - 8 * r) ++ 0x0001#16 : BitVec 64)
  | 1 => (0#32 ++ 512#16 ++ 64#8 ++ 4#8 : BitVec 64)
  | 2 => (0#16 ++ 256#16 ++ 1024#16 ++ 576#16 : BitVec 64)
  | 3 => (0#47 ++ BitVec.ofBool h.replReq ++ BitVec.ofNat 16 r : BitVec 64)
  | 4 => (0#32 ++ 12#8 ++ 63#8 ++ BitVec.ofNat 16 Config.clockMHz : BitVec 64)
  | _ => 0

/-- R322, R94: the tile's current lookahead of a class; none where no link of the class is declared. -/
def lahOf (s : State) (c : BitVec 4) : Option Nat := tabGet? s.tile.lah c.toNat

def sclWord (seq : BitVec 16) (ptr : BitVec 17) : Word := (0#16 ++ seq ++ 0#15 ++ ptr : BitVec 64)

def pcmWord (c : CoreSt) (k : Nat) : Word :=
  (BitVec.ofBool (c.pcmEn.getLsbD k) ++ 0#1 ++ (c.pcmSlot[k]?).getD 0 ++ (c.pcmPc[k]?).getD 0 ++ 0#2 : BitVec 64)

/-- R93, R94: what a read of a control register returns. -/
def csrRead (n : BitVec 12) (s : State) : Word :=
  let t := s.cur
  match n.toNat with
  | 0x000 => t.statusByte.setWidth 64
  | 0x001 => t.tid
  | 0x002 => t.stamp.setWidth 64
  | 0x003 => (0#12 ++ t.lahCls ++ BitVec.ofNat 48 ((lahOf s t.lahCls).getD 0) : BitVec 64)
  | 0x004 => t.wp.setWidth 64
  | 0x005 => s.tile.pquant.setWidth 64
  | 0x006 => s.tile.pint.setWidth 64
  | 0x007 => s.tile.sweepwait.setWidth 64
  | 0x008 => s.tile.trto.setWidth 64
  | 0x009 => s.tile.uflags.setWidth 64
  | 0x00A => t.origin.setWidth 64
  | 0x100 => (0#8 ++ s.trapvec ++ 0#2 : BitVec 64)
  | 0x101 => (0#48 ++ t.tcDetail ++ BitVec.ofBool t.tcAsync ++ 0#1 ++ t.tcCause : BitVec 64)
  | 0x102 => (0#8 ++ t.tepc ++ 0#2 : BitVec 64)
  | 0x103 => t.tval
  | 0x104 => (0#8 ++ t.uepc ++ 0#2 : BitVec 64)
  | 0x105 => (0#31 ++ BitVec.ofBool s.core.twWall ++ s.core.twLimit : BitVec 64)
  | 0x200 => t.xferid
  | 0x201 => t.xseq.setWidth 64
  | 0x300 => t.fmta.setWidth 64
  | 0x301 => t.fmtb.setWidth 64
  | 0x302 => sclWord t.sclaSeq t.sclaPtr
  | 0x303 => sclWord t.sclbSeq t.sclbPtr
  | 0x304 => s.core.mweight.setWidth 64
  | 0x400 => t.ftol.setWidth 64
  | 0x401 => t.fmaxn.setWidth 64
  | 0x402 => t.fstat
  | 0x500 => (0#8 ++ s.logovf ++ 0#6 : BitVec 64)
  | 0x501 => (0#8 ++ s.spillovf ++ 0#6 : BitVec 64)
  | 0x600 => (0#44 ++ s.core.asidGen ++ s.core.asid : BitVec 64)
  | 0x601 => (s.vfReg s.core.vf).ecnt
  | 0x700 => s.core.dbgctl.setWidth 64
  | k =>
    if 0x010 ≤ k ∧ k ≤ 0x017 then lvlWord s.launch.levels (t.tid.extractLsb' 24 24).toNat (k - 0x010)
    else if 0x710 ≤ k ∧ k ≤ 0x71F then pcmWord s.core (k - 0x710)
    else if 0xF00 ≤ k ∧ k ≤ 0xF07 then capWord s.host (k - 0xF00)
    else 0

/-- R93: FMAXN clamps the whole value. -/
def clampFmaxn (x : Word) : BitVec 9 := if x = 0 then 1 else if x > 256 then 256 else x.extractLsb' 0 9

/-- R92: the registers whose writes set HVY. -/
def csrHeavy (n : BitVec 12) : Bool :=
  n == 0x300 || n == 0x301 || n == 0x302 || n == 0x303 || n == 0x400 || n == 0x401 || n == 0x402

/-- R116: the writing task sees its write of a launch register at once. -/
def seeLaunchReg (n : BitVec 12) (x : Word) (t : Task) : Task :=
  match n.toNat with
  | 0x100 => { t with ownTrapvec := some (x.extractLsb' 2 54) }
  | 0x500 => { t with ownLogovf := some (x.extractLsb' 6 50) }
  | 0x501 => { t with ownSpillovf := some (x.extractLsb' 6 50) }
  | _ => t
/-- R116: a write of a launch register: it travels down the tree, and the writing task sees it at once. -/
def writeLaunchReg (n : BitVec 12) (x : Word) (s : State) : State :=
  ((putLaunchReg n x s).onCur (seeLaunchReg n x)).onHome fun h => { h with out := h.out ++ [.launchReg n x] }

/-- R93, R94, R114, R116: a write of `x` to the writable fields; `v` is the operand, for W1C fields, and `clears` says that the
operation clears them. -/
def csrPut (n : BitVec 12) (x v : Word) (clears : Bool) (s : State) : State :=
  match n.toNat with
  | 0x000 => s.onCur fun t => { t with mig := x.getLsbD 7 }
  | 0x003 => s.onCur fun t => { t with lahCls := x.extractLsb' 48 4 }
  | 0x005 => s.onTile fun t => { t with pquant := x.extractLsb' 0 48 }
  | 0x006 => s.onTile fun t => { t with pint := x.extractLsb' 0 32 }
  | 0x007 => s.onTile fun t => { t with sweepwait := x.extractLsb' 0 32 }
  | 0x008 => s.onTile fun t => { t with trto := x.extractLsb' 0 32 }
  | 0x009 => s.onTile fun t => { t with uflags := x.extractLsb' 0 8 }
  | 0x100 => writeLaunchReg n x s
  | 0x101 => s.onCur fun t =>
      { t with tcDetail := x.extractLsb' 8 8, tcAsync := x.getLsbD 7, tcCause := x.extractLsb' 0 6 }
  | 0x102 => s.onCur fun t => { t with tepc := x.extractLsb' 2 54 }
  | 0x103 => s.onCur fun t => { t with tval := x }
  | 0x104 => s.onCur fun t => { t with uepc := x.extractLsb' 2 54 }
  | 0x105 => s.onCore fun c => { c with twWall := x.getLsbD 32, twLimit := x.extractLsb' 0 32 }
  | 0x300 => s.onCur fun t => { t with fmta := x.extractLsb' 0 3 }
  | 0x301 => s.onCur fun t => { t with fmtb := x.extractLsb' 0 3 }
  | 0x302 => s.onCur fun t => { t with sclaSeq := x.extractLsb' 32 16, sclaPtr := x.extractLsb' 0 17 }
  | 0x303 => s.onCur fun t => { t with sclbSeq := x.extractLsb' 32 16, sclbPtr := x.extractLsb' 0 17 }
  | 0x304 => s.onCore fun c => { c with mweight := x.extractLsb' 0 4 }
  | 0x400 => s.onCur fun t => { t with ftol := x.extractLsb' 0 32 }
  | 0x401 => s.onCur fun t => { t with fmaxn := clampFmaxn x }
  | 0x402 => if clears then s.onCur fun t => t.clearFstat v else s
  | 0x500 => writeLaunchReg n x s
  | 0x501 => writeLaunchReg n x s
  | 0x700 => s.onCore fun c => { c with dbgctl := x.extractLsb' 0 5 }
  | k =>
    if 0x710 ≤ k ∧ k ≤ 0x71F then
      s.onCore fun c => { c with
        pcmEn := if x.getLsbD 63 then c.pcmEn ||| (1#16 <<< (k - 0x710)) else c.pcmEn &&& ~~~(1#16 <<< (k - 0x710)),
        pcmSlot := c.pcmSlot.setIfInBounds (k - 0x710) (x.extractLsb' 56 6),
        pcmPc := c.pcmPc.setIfInBounds (k - 0x710) (x.extractLsb' 2 54) }
    else s

/-- R96, R116: an access of another core of the tile to a tile-held register: the bits that it sets and those that it clears. -/
def tileRegWrite (n : BitVec 12) (set clr : Word) (s : State) : State :=
  if 0x005 ≤ n.toNat ∧ n.toNat ≤ 0x009 then csrPut n ((csrRead n s &&& ~~~clr) ||| set) 0 false s else s

/-- R114: the value that an operation writes. -/
def csrNew (op : CsrOp) (old v : Word) : Word :=
  match op with
  | .read => old
  | .write => v
  | .set => old ||| v
  | .clear => old &&& ~~~v

/-- R115: whether the operation writes. -/
def csrWrites (op : CsrOp) (b : Fld) : Bool :=
  match op with | .read => false | .write => true | .set => b != 0 | .clear => b != 0

/-- R115: the privilege checks of an access. -/
def csrAllowed (op : CsrOp) (n : BitVec 12) (a b : Fld) (priv : BitVec 2) : Bool :=
  (a == 0 || csrReadOk n priv) && (!csrWrites op b || csrWriteOk n op priv)

/-- R114, R115: the register after an operation that writes. -/
def csrApply (op : CsrOp) (n : BitVec 12) (old v : Word) (s : State) : State :=
  let s := csrPut n (csrNew op old v) v (op != .set) s
  if csrHeavy n then setHvy s else s

/-- R190: the registers that matrix commands sample. -/
def csrMatrix (n : BitVec 12) : Bool := 0x300 ≤ n && n ≤ 0x303

/-- R114: the four instructions. -/
def csrAccess (op : CsrOp) (i : Instr) (n : BitVec 12) (a b : Fld) (s : State) : Res State :=
  match privCheck (csrAllowed op n a b s.cur.priv) i s with
  | .error e => .error e
  | .ok _ =>
    if csrMatrix n && s.core.mx.queue.any (fun c => !c.started) then unitBusy 3 s else
    match takeS (if op = .read then [] else [b]) [a] s with
    | .error e => .error e
    | .ok (vs, s) =>
      let old := csrRead n s
      let v := vs.headD 0
      let s := charge .csr s
      .ok (advance (writeS a old (if csrWrites op b then csrApply op n old v s else s)))

def execCsrr (a : Fld) (n : BitVec 12) (s : State) : Host.Outcome State Fault Refusal :=
  finish (csrAccess .read (.csrr a n) n a 0 s)
def execCsrw (a b : Fld) (n : BitVec 12) (s : State) : Host.Outcome State Fault Refusal :=
  finish (csrAccess .write (.csrw a b n) n a b s)
def execCsrset (a b : Fld) (n : BitVec 12) (s : State) : Host.Outcome State Fault Refusal :=
  finish (csrAccess .set (.csrset a b n) n a b s)
def execCsrclr (a b : Fld) (n : BitVec 12) (s : State) : Host.Outcome State Fault Refusal :=
  finish (csrAccess .clear (.csrclr a b n) n a b s)

end Sys2Proof.Machine
end

