-- ==== Sys2Proof/Machine/Msg.lean ====
section
/-! DEFINITION. Messages, promises, deposits and reductions: opcode 0x1C (R285, R288, R302, R311 to R318). -/

namespace Sys2Proof.Machine

/-! ### Held operations (R311) -/

/-- Payload words of a held operation. -/
def Held.payload : Held → List Word
  | .msg m => m.payload
  | .mcast m _ _ => m.payload
  | .spawn m => m.payload
  | .deposit _ => []

/-- R311: bytes that a held operation counts for. -/
def Held.bytes (h : Held) : Nat := 16 + 8 * h.payload.length

def coreHeld (s : State) : Nat := ((s.cur :: s.rest).map fun t => (t.held.map Held.bytes).sum).sum

/-- An operation held behind those that its task already holds. -/
def hold (h : Held) (s : State) : State := s.onCur fun t => { t with held := t.held ++ [h] }

/-- R311: hold or release an operation: express, escaped or beyond the core's capacity, it is released, and an express
release is a release point. -/
def sendOp (h : Held) (express : Bool) (s : State) : State :=
  if s.cur.esc then pushHeld (hold h s)
  else if express || coreHeld s + h.bytes > 8192 then (releaseHeld (hold h s)).onCur fun t => { t with esc := true }
  else hold h s

/-! ### Promises (R296, R301, R302) -/

/-- Stamps of held operations that carry a task. -/
def Held.stamp? : Held → Option Nat
  | .msg m => some m.stamp.toNat
  | .mcast m _ _ => some m.stamp.toNat
  | .spawn m => some m.stamp.toNat
  | .deposit _ => none

/-- R302: the stamps of the tile's tasks, those migrating out and the completions of ended tasks included. -/
def taskStamps (s : State) : List Nat :=
  s.tasks.map (·.stamp.toNat) ++ s.tile.otherStamps ++ s.tile.migBuf.map (·.stamp.toNat) ++ s.core.orphans.map (·.stamp.toNat) ++
    s.tile.unaccepted.filterMap fun u => match u with | .mig st _ => some st | _ => none

/-- R298, R302: the stamps of the tile's candidates, wherever their payloads are held. -/
def candStamps (s : State) : List Nat :=
  (s.tile.cands ++ s.tile.overflow).map (·.key.stamp)

/-- The least stamp of a spawned activation that has been released and is not yet a candidate. -/
def spawnStamps (s : State) : List Nat :=
  s.tile.inject.filterMap fun h => match h with | .spawn m => some m.stamp.toNat | _ => none

/-- R302. -/
def lowOf (s : State) : Nat :=
  minList (taskStamps s ++ candStamps s ++ spawnStamps s ++ s.tile.inLinks.map (·.prom) ++ [s.tile.launchProm] ++
    if s.launch.migratory then [s.tile.horizon] else [])

/-- R302: messages on a link that are held or not yet injected. -/
def linkStamps (s : State) (dst : Nat) (cls : BitVec 4) : List Nat :=
  (((s.cur :: s.rest).map (·.held)).flatten ++ s.tile.inject).filterMap fun h =>
    match h with
    | .msg m => if tileOf m.dest == dst && m.cls == cls then some m.stamp.toNat else none
    | .mcast m cv tm => if cv.getLsbD (clusterOf dst) && tm.getLsbD (dst % 16) && m.cls == cls then some m.stamp.toNat else none
    | _ => none

/-- R302: the promise on an outbound link. -/
def pOut (s : State) (dst : Nat) (cls : BitVec 4) : Nat :=
  Nat.min (satAdd (lowOf s) ((lahOf s cls).getD inf48)) (minList (linkStamps s dst cls))

/-- R303, R329: a pip on an outbound link, with the pair counter as it stands. The links are the primary's (R410). -/
def sendPip (sweep : Bool) (p : Nat) (l : OutLink) (s : State) : State :=
  if secondary s then s else
  let after := tabGet s.tile.pairSeq 0 l.dst
  let s := chargeNet (clusterOf l.dst) 1 (s.onHome fun h => { h with out := h.out ++ [.pip l.dst l.cls p after sweep] })
  s.onTile fun t => { t with outLinks := t.outLinks.map fun x =>
    if x == l then { x with sent := Nat.max x.sent p, pipped := true, kept := none } else x }

def sendPips (ls : List OutLink) (s : State) : State := ls.foldl (fun s l => sendPip false (pOut s l.dst l.cls) l s) s

/-- R317: PROMISE. -/
def promise (b : Fld) (s : State) : Res State :=
  match needRegs [b] s with
  | .error e => .error e
  | .ok _ =>
    let x := s.rw b
    let ls := s.tile.outLinks.filter fun l => x.getLsbD 63 || l.cls == x.extractLsb' 0 4
    .ok (advance (sendPips ls (charge .msg s)))
def execPromise (b : Fld) (s : State) : Host.Outcome State Fault Refusal := finish (promise b s)

/-! ### SEND -/

/-- R313. -/
def destCls (d : Word) : BitVec 4 := d.extractLsb' 16 4
def destCore (d : Word) : BitVec 13 := d.extractLsb' 0 13

/-- R295: whether the issuing tile has an outbound link of a class to a tile. -/
def hasLink (s : State) (dst : Nat) (cls : BitVec 4) : Bool := s.tile.outLinks.any fun l => l.dst == dst && l.cls == cls

/-- R314: the checks on a handler and a stamp. -/
def checkHandler (h st : Word) (least : Nat) (s : State) : Res Unit :=
  if h.toNat % 4 != 0 then trapR cALIGN h s
  else if h.toNat ≥ 2 ^ 56 then trapR cACCESS h s
  else if st.toNat ≥ inf48 || st.toNat < least then trapR cLAHVIOL st s
  else .ok ()

/-- R314: the checks on a destination word, handler and stamp, in order. -/
def checkSend (d h st : Word) (s : State) : Res Unit :=
  if d.extractLsb' 20 44 != 0 || d.extractLsb' 13 3 != 0 then trapR cACCESS d s
  else if !inPartition s (tileOf (destCore d)) then trapR cACCESS d s
  else if !hasLink s (tileOf (destCore d)) (destCls d) then trapR cCLASS ((destCls d).setWidth 64) s
  else checkHandler h st (satAdd s.cur.stamp.toNat ((lahOf s (destCls d)).getD 0)) s

/-- R294, R328: the message a task sends; its sequence number, promise and colour are set at injection. -/
def mkMsg (s : State) (dest : BitVec 13) (cls : BitVec 4) (any mc : Bool) (h st : Word) (payload : List Word) : Msg :=
  { dest := dest, any := any, mc := mc, cls := cls, stamp := st.extractLsb' 0 48, score := s.core.id,
    handler := h.extractLsb' 0 56, payload := payload, seq := 0, prom := 0, col := false, part := s.core.vf,
    tag := s.cur.tid.extractLsb' 48 16, leaf := s.cur.tid.extractLsb' 24 24, mig := false }

/-- R314: SEND. -/
def send (a b c : Fld) (any x : Bool) (s : State) : Res State :=
  match needRegs [a, b, c, 25] s with
  | .error e => .error e
  | .ok _ =>
    let d := s.rw a
    match checkSend d (s.rw b) (s.rw c) s with
    | .error e => .error e
    | .ok _ =>
      let m := mkMsg s (destCore d) (destCls d) any false (s.rw b) (s.rw c) s.cur.q1
      .ok (advance (sendOp (.msg m) x ((charge .msg s).onCur fun t => { t with q1 := [] })))
def execSend (a b c : Fld) (any x : Bool) (s : State) : Host.Outcome State Fault Refusal := finish (send a b c any x s)

/-! ### Descriptors in TCM (R315, R316) -/

def wordsAt (ws : List Word) (k : Nat) : Word := ws.getD k 0

/-- A descriptor of some words: its address must be 32-byte aligned and within TCM. -/
def readDesc (x : Word) (n : Nat) (s : State) : Res (List Word) :=
  if x.toNat % 32 != 0 then trapR cALIGN x s
  else if x.toNat + 8 * n > 131072 then trapR cACCESS x s
  else readWords s x.toNat n

/-- R315: the payload that word 3 names; a length that is no multiple of 8 or out of range traps with ACCESS (log entry 96). -/
def descPayload (x w3 w2 : Word) (s : State) : Res (List Word) :=
  let addr := (w3.extractLsb' 0 17).toNat
  let len := (w3.extractLsb' 32 16).toNat
  if addr % 8 != 0 then trapR cALIGN x s
  else if addr + len > 131072 then trapR cACCESS x s
  else if w3.extractLsb' 17 15 != 0 || w3.extractLsb' 48 16 != 0 || w2.extractLsb' 48 16 != 0 then trapR cACCESS x s
  else if len % 8 != 0 || len > 32752 then trapR cACCESS x s
  else readWords s addr (len / 8)

/-- R315: SENDM. -/
def sendm (b : Fld) (any x : Bool) (s : State) : Res State :=
  match needRegs [b] s with
  | .error e => .error e
  | .ok _ =>
    let p := s.rw b
    match readDesc p 4 s with
    | .error e => .error e
    | .ok ws =>
      match descPayload p (wordsAt ws 3) (wordsAt ws 2) s with
      | .error e => .error e
      | .ok pl =>
        let d := wordsAt ws 0
        match checkSend d (wordsAt ws 1) (wordsAt ws 2) s with
        | .error e => .error e
        | .ok _ =>
          let m := mkMsg s (destCore d) (destCls d) any false (wordsAt ws 1) (wordsAt ws 2) pl
          .ok (advance (sendOp (.msg m) x (charge .msg s)))
def execSendm (b : Fld) (any x : Bool) (s : State) : Host.Outcome State Fault Refusal := finish (sendm b any x s)

/-- R316: the tiles of a multicast. -/
def mcastTiles (cvec : Word) (mask : BitVec 16) : List Nat :=
  (((List.range 64).filter fun c => cvec.getLsbD c).map fun c =>
    ((List.range 16).filter fun t => mask.getLsbD t).map fun t => c * 16 + t).flatten

/-- R316: the set clusters that lie outside the partition. -/
def outsideClusters (s : State) (cvec : Word) : Word :=
  (List.range 64).foldl (fun a c => if cvec.getLsbD c && !inPartition s (c * 16) then a ||| (1#64 <<< c) else a) 0

/-- R316: SENDC. The descriptor's own alignment and range come before the check for EMPTY, since it is read first; the reserved bits of
its destination word come after the payload, with that word as TVAL (log entry 96). -/
def sendc (a b : Fld) (x : Bool) (s : State) : Res State :=
  match needRegs [a, b] s with
  | .error e => .error e
  | .ok _ =>
    let p := s.rw b
    match readDesc p 5 s with
    | .error e => .error e
    | .ok ws =>
      let d := wordsAt ws 0
      let mask : BitVec 16 := d.extractLsb' 0 16
      let cvec := wordsAt ws 4
      if cvec = 0 || mask = 0 then .ok (advance ((charge .msg s).ww a 1))
      else if outsideClusters s cvec != 0 then trapR cMCAST (outsideClusters s cvec) s
      else if (mcastTiles cvec mask).any fun t => !hasLink s t (destCls d) then trapR cCLASS ((destCls d).setWidth 64) s
      else
        match descPayload p (wordsAt ws 3) (wordsAt ws 2) s with
        | .error e => .error e
        | .ok pl =>
          if d.extractLsb' 20 44 != 0 then trapR cACCESS d s
          else
            match checkHandler (wordsAt ws 1) (wordsAt ws 2)
                (satAdd s.cur.stamp.toNat ((lahOf s (destCls d)).getD 0)) s with
            | .error e => .error e
            | .ok _ =>
              let m := mkMsg s 0 (destCls d) true true (wordsAt ws 1) (wordsAt ws 2) pl
              .ok (advance (sendOp (.mcast m cvec mask) x ((charge .msg s).ww a 0)))
def execSendc (a b : Fld) (x : Bool) (s : State) : Host.Outcome State Fault Refusal := finish (sendc a b x s)

/-! ### DEPOSIT (R318) -/

def depositOk (d : Word) (s : State) : Bool :=
  d.extractLsb' 45 19 == 0 && d.extractLsb' 28 4 == 0 && d.extractLsb' 22 2 == 0 && d.extractLsb' 13 3 == 0 &&
    d.extractLsb' 24 4 != 0 && decide ((d.extractLsb' 16 6).toNat < s.launch.frames) && inPartition s (tileOf (destCore d))

def deposit (a b c : Fld) (x : Bool) (s : State) : Res State :=
  match needRegs [a, b, c] s with
  | .error e => .error e
  | .ok _ =>
    let d := s.rw a
    if !depositOk d s then trapR cACCESS d s
    else
      let dep : Deposit := { core := destCore d, frame := (d.extractLsb' 16 6).toNat, word := (d.extractLsb' 24 4).toNat,
                             val := s.rw b, tid := s.rw c, orig := d.extractLsb' 32 13, src := s.core.id,
                             part := s.core.vf }
      .ok (advance (sendOp (.deposit dep) x (charge .msg s)))
def execDeposit (a b c : Fld) (x : Bool) (s : State) : Host.Outcome State Fault Refusal := finish (deposit a b c x s)

/-! ### Reductions (R284 to R288) -/

/-- R35: leaves of a launch. -/
def leafCount (l : Launch) : Nat := 2 ^ (l.levels.map (·.lg)).sum

/-- R284, R285: the unit of a contribution, and whether the task's leaf holds it. -/
def nredUnit (s : State) (x : Word) : Nat × Bool :=
  let leaf := (s.cur.tid.extractLsb' 24 24).toNat
  if s.launch.slices = 0 then (leaf, true)
  else
    let u := (x.extractLsb' 0 24).toNat
    (u, decide (u < s.launch.slices) && u * leafCount s.launch / s.launch.slices == leaf)

/-- An engine operation of the issuing task with the key R223 fixes (R229). -/
def mkOp (s : State) (k : EngKind) (xid : Word) (handler : BitVec 56) : EngOp :=
  { kind := k, tid := s.cur.tid, origin := s.cur.origin, stamp := s.cur.stamp.toNat, seg := s.cur.openSeg,
    part := s.cur.partCtr, priv := s.cur.priv, mig := s.cur.mig, xid := xid, handler := handler, started := false,
    cancelled := false, moved := 0, at_ := 0, code := 0, stop := none, finished := false, prog := none, sub := 0,
    elem := none, bytes := 0 }

def pushEng (q : Fin 16) (o : EngOp) (s : State) : State :=
  s.onCore fun c => { c with eng := c.eng.set q.val (c.eng[q.val] ++ [o]) }

/-- R223: an engine operation takes the next part of the open segment; part 2^32 - 1 is reserved, so the operation that would
take it seals the segment first. -/
def takePart (s : State) : Res State :=
  if s.cur.partCtr + 1 < 2 ^ 32 - 1 then .ok (s.onCur fun t => { t with partCtr := t.partCtr + 1 })
  else
    match sealRelease (defaultScope s) s with
    | .error e => .error e
    | .ok s => .ok (s.onCur fun t => { t with partCtr := 1 })

/-- An operation enters a queue with the task's key. -/
def enqueue (q : Fin 16) (k : EngKind) (xid : Word) (handler : BitVec 56) (s : State) : Res State :=
  match takePart s with
  | .error e => .error e
  | .ok s => .ok (pushEng q (mkOp s k xid handler) s)

/-- R410, R411: the engine operation just enqueued goes to be compared. -/
def pairEngine (bs : List Byte) (s : State) : State :=
  pairCur (.engine s.cur.tid s.cur.origin s.cur.openSeg (s.cur.partCtr)) bs s

/-- R410: the operations of a pair that are compared: those that write shared memory, and every block operation. -/
def kindPaired : EngKind → Bool
  | .copy _ _ _ dtcm _ _ _ => !dtcm
  | _ => true

/-- An operation enters a queue, its canonical bytes with it where it is to be compared. -/
def enqueueOp (q : Fin 16) (k : EngKind) (xid : Word) (handler : BitVec 56) (bs : List Byte) (s : State) : Res State :=
  match enqueue q k xid handler s with
  | .error e => .error e
  | .ok s => .ok (if kindPaired k then pairEngine bs s else s)

def nred (a b c : Fld) (s32 : Bool) (op : BitVec 3) (s : State) : Res State :=
  match needRegs [a, b, c] s with
  | .error e => .error e
  | .ok _ =>
    let (u, own) := nredUnit s (s.rw a)
    let v := if s32 then (s.rw b).extractLsb' 0 32 |>.setWidth 64 else s.rw b
    let k : Contribution := { tag := (s.rw c).extractLsb' 0 16, op := op, s32 := s32, src := .own, unit := u,
                              vals := [(u, v)], late := false, resultLate := false, missing := 0,
                              more := false, part := s.core.vf }
    let s1 := chargeOnce .msg s
    if own then
      match enqueueOp 10 (.nred k) 0 0 (hashedOp (.nred a b c s32 op) (k.tag.setWidth 64) v) s1 with
      | .error e => .error e
      | .ok s => .ok (advance s)
    else .ok (advance (errCount 1 s1))
def execNred (a b c : Fld) (s32 : Bool) (op : BitVec 3) (s : State) : Host.Outcome State Fault Refusal :=
  finish (nred a b c s32 op s)

/-- R286: the result table's entry of a tag. -/
def redResult (s : State) (tag : BitVec 16) : Option NredRes :=
  match tabGet? s.tile.redTab (tag.toNat % 16) with
  | none => none
  | some r => if r.tag == tag then some r else none

/-- R288. -/
def nredValue (r : NredRes) : Word :=
  if r.s32 then
    if r.op < 3 then (r.value.extractLsb' 0 32).signExtend 64 else (r.value.extractLsb' 0 32).setWidth 64
  else r.value
def nredStatus (r : NredRes) : Word :=
  (BitVec.ofBool r.late ++ 0#15 ++ BitVec.ofNat 16 (Nat.min r.miss 0xFFFF) ++ BitVec.ofNat 16 r.laten ++ 0#16 : BitVec 64)

/-- R288: the result of a tag is awaited, or read. -/
def nrwaitGo (a : Fld) (tag : BitVec 16) (st : Bool) (s : State) : Res State :=
  match redResult s tag with
  | none => .error (.wait .waitMsg (.nrwait tag) s)
  | some r => .ok (advance (s.ww a (if st then nredStatus r else nredValue r)))

def nrwait (a b : Fld) (st : Bool) (s : State) : Res State :=
  match s.cur.wait with
  | some (.nrwait tag) => nrwaitGo a tag st s
  | _ =>
    match needRegs [a, b] s with
    | .error e => .error e
    | .ok _ => nrwaitGo a ((s.rw b).extractLsb' 0 16) st (chargeOnce .msg s)
def execNrwait (a b : Fld) (st : Bool) (s : State) : Host.Outcome State Fault Refusal := finish (nrwait a b st s)

end Sys2Proof.Machine
end

