-- ==== Sys2Proof/Machine/Tasks.lean ====
section
/-! DEFINITION. Task instructions: opcode 0x1D (R117 to R120, R319 to R324), and TRAP and ERET (R121). -/

namespace Sys2Proof.Machine

/-- R273, R274: an output stream that is not drained, or to which something outstanding has yet to push. -/
def strmUndrained (t : Task) (f : Fld) (st : Stream) : Bool := st.pat.out && (!st.pushed.isEmpty || wBusy t f)
/-- R275: an outbound queue register with words that its peer's network interface has not accepted. -/
def queueUndrained (t : Task) (f : Fld) (q : QBind) : Bool := q.outb && (!q.words.isEmpty || decide (q.flying > 0) || wBusy t f)

/-- R273, R274: output streams and outbound queues of the task that are not drained. -/
def undrained (t : Task) : List Fld :=
  ((List.range 8).filterMap fun k =>
    match (t.streams[k]?).join with
    | none => none
    | some st => if strmUndrained t (BitVec.ofNat 5 (16 + k)) st then some (BitVec.ofNat 5 (16 + k)) else none) ++
  (List.range 6).filterMap fun k =>
    match (t.qs[k]?).join with
    | none => none
    | some q => if queueUndrained t (BitVec.ofNat 5 (26 + k)) q then some (BitVec.ofNat 5 (26 + k)) else none

/-- R118: END. In the shadow context it only returns control (R422). -/
def endT (s : State) : Res State :=
  let s1 := chargeOnce .task s
  if s.cur.shadow then .ok (shadowLeave s1)
  else match badPush s.cur with
    | some b => trapR b.1 (BitVec.ofNat 64 b.2) s1
    | none =>
      if !(undrained s.cur).isEmpty then .error (.wait .waitMem (.ending (undrained s.cur)) s1)
      else .ok (endCur (releaseHeld (sealNow (defaultScope s1) s1)))
def execEndTask (s : State) : Host.Outcome State Fault Refusal := finish (endT s)

/-- R32, R119: the ready task of least key that has a frame and no slot. -/
def slotless (l : List Task) : Option Task :=
  leastBy (fun a b => keyLt a.key b.key) (l.filter fun t => t.st == .ready && t.slot.isNone && !t.shadow)

/-- R119: YIELD. -/
def execYield (s : State) : Host.Outcome State Fault Refusal :=
  let s := advance (charge .task s)
  let s :=
    if s.cur.hvy then s
    else match slotless s.rest with
      | none => s
      | some t =>
        { s with cur := { s.cur with slot := none },
                 rest := s.rest.map fun x => if x == t then { x with slot := s.cur.slot } else x }
  finish (.ok (s.onCur fun t => { t with wait := some .yielded, st := .ready }))

/-- R120: the events that hold now. -/
def queueEvent (s : State) (k : Nat) : Bool :=
  match (s.cur.qs[k - 2]?).join with
  | none => false
  | some q =>
    if q.outb then q.words.length < 8
    else match q.cls with
      | some _ => !q.words.isEmpty
      | none => !(s.core.chan[q.ch.toNat]).isEmpty
def eventBit (s : State) (k : Nat) : Bool :=
  if k = 0 then s.cur.depl else if k = 1 then false else queueEvent s k
def events (s : State) (m : BitVec 8) : BitVec 8 :=
  (List.range 8).foldl (fun a k => if m.getLsbD k && eventBit s k then a ||| (1#8 <<< k) else a) 0

/-- R120: the result is written and the deposit latch, if reported, cleared. -/
def waitEnd (a : Fld) (ev : Word) (s : State) : State :=
  advance ((if ev.getLsbD 0 then s.onCur fun t => { t with depl := false } else s).ww a ev)

/-- R120: the events of a mask are awaited; `gone` says that the timeout has run out. -/
def waitGo (a : Fld) (m : BitVec 8) (timed gone : Bool) (s : State) : Res State :=
  if events s m != 0 || (m == 0 && !timed) then .ok (waitEnd a ((events s m).setWidth 64) s)
  else if gone then .ok (waitEnd a (1#64 <<< 63) s)
  else .error (.wait .waitMsg (.event m timed false) s)

/-- R120: the first queue register that a mask names and that is unbound. -/
def unboundIn (t : Task) (m : BitVec 8) : Option Nat :=
  ((List.range 6).map (· + 2)).find? fun k => m.getLsbD k && ((t.qs[k - 2]?).join).isNone

/-- R120: WAIT. The mask and the timeout are read at issue. -/
def waitT (a b c : Fld) (s : State) : Res State :=
  match s.cur.wait with
  | some (.event m timed gone) => waitGo a m timed gone s
  | _ =>
    match needRegs [a, b, c] s with
    | .error e => .error e
    | .ok _ =>
      let s1 := chargeOnce .task s
      let m : BitVec 8 := (s.rw b).extractLsb' 0 8 &&& 0xFD
      match unboundIn s.cur m with
      | some k => trapR cQUEUE (BitVec.ofNat 64 (24 + k)) s1
      | none => waitGo a m (s.rw c != 0) false s1
def execWait (a b c : Fld) (s : State) : Host.Outcome State Fault Refusal := finish (waitT a b c s)

/-- R320: SPAWN. -/
def spawn (b c : Fld) (any : Bool) (s : State) : Res State :=
  match needRegs [b, c, 25] s with
  | .error e => .error e
  | .ok _ =>
    match checkHandler (s.rw b) (s.rw c) s.cur.stamp.toNat s with
    | .error e => .error e
    | .ok _ =>
      let m := { mkMsg s s.core.id 0 any false (s.rw b) (s.rw c) s.cur.q1 with mig := s.cur.mig }
      .ok (advance (sendOp (.spawn m) false ((charge .task s).onCur fun t => { t with q1 := [] })))
def execSpawn (b c : Fld) (any : Bool) (s : State) : Host.Outcome State Fault Refusal := finish (spawn b c any s)

/-- R92, R321: what MIGRATE waits for before it issues: operations that name a handler, their traps and their completions, which are
delivered at the boundary before it, unless INU holds them back. -/
def migHeld (s : State) : Bool := handlerOut s || !s.cur.traps.isEmpty || (!s.cur.comps.isEmpty && !s.cur.inu)

/-- R321: what MIGRATE refuses. -/
def migRefused (s : State) : Bool :=
  !s.launch.migratory || s.cur.hvy || s.cur.inu || s.cur.classMask != 0 || !s.cur.q1.isEmpty

/-- R321: the checks on a named core. -/
def migCoreOk (s : State) (x : Word) : Bool :=
  let t := tileOf (x.extractLsb' 0 13)
  x.extractLsb' 13 51 == 0 && inPartition s t && tileHasLeaf s.launch t && (!s.launch.paired || t / 2 % 2 == 0)

/-- R321: MIGRATE. -/
def migrate (b : Fld) (core : Bool) (s : State) : Res State :=
  match s.cur.wait with
  | some (.leave n d) => migrateGo n d (s.cur.pc + 4) s
  | _ =>
  match needRegs [b, 25] s with
  | .error e => .error e
  | .ok _ =>
    if migHeld s then .error (.wait .waitMem .migrate s)
    else if migRefused s then trapR cMIGSTATE (s.cur.statusByte.setWidth 64) s
    else
      let x := s.rw b
      let next := s.cur.pc + 4
      if core then
        if !migCoreOk s x then trapR cACCESS x s
        else migrateTo (some (x.extractLsb' 0 13)) next (chargeOnce .task s)
      else if x.toNat ≥ 2 ^ 56 then trapR cACCESS x s
      else
        match translate .load x.toNat s with
        | .error e => .error e
        | .ok (pa, _, s) => migrateTo (migDest s pa) next (chargeOnce .task s)
def execMigrate (b : Fld) (core : Bool) (s : State) : Host.Outcome State Fault Refusal := finish (migrate b core s)

/-- R322: SETLAH. -/
def setlah (a b c : Fld) (s : State) : Res State :=
  match needRegs [a, b, c] s with
  | .error e => .error e
  | .ok _ =>
    let cls : BitVec 4 := (s.rw b).extractLsb' 0 4
    let l := (s.rw c).toNat
    match lahOf s cls with
    | none => trapR cCLASS (cls.setWidth 64) s
    | some old =>
      if l ≥ inf48 then trapR cLAHVIOL (s.rw c) s
      else
        let s1 := charge .task s
        if l < old then .ok (advance (s1.ww a (BitVec.ofNat 64 (2 ^ 63 + old))))
        else .ok (advance ((s1.onTile fun t => { t with lah := tabSet t.lah cls.toNat l }).ww a (BitVec.ofNat 64 old)))
def execSetlah (a b c : Fld) (s : State) : Host.Outcome State Fault Refusal := finish (setlah a b c s)

/-- R323: SWEEP. -/
def execSweep (s : State) : Host.Outcome State Fault Refusal := finish (.ok (advance (wantSweep (charge .task s))))

/-- R323: SWEEP.w waits for a sweep that started after its request to end. -/
def sweepW (a : Fld) (s : State) : Res State :=
  match needRegs [a] s with
  | .error e => .error e
  | .ok _ =>
    let s1 := chargeOnce .task s
    match s.cur.wait with
    | some (.sweep n) =>
      if s.tile.sweepsEnded ≥ n then .ok (advance (s1.ww a (BitVec.ofNat 64 s.tile.horizon)))
      else .error (.wait .waitMsg (.sweep n) s1)
    | _ => .error (.wait .waitMsg (.sweep (s.tile.sweepsStarted + 1)) (wantSweep s1))
def execSweepW (a : Fld) (s : State) : Host.Outcome State Fault Refusal := finish (sweepW a s)

/-- R324: CLMASK and CLUNMASK. -/
def maskOp (f : BitVec 16 → BitVec 16 → BitVec 16) (a b : Fld) (s : State) : Res State :=
  match needRegs [a, b] s with
  | .error e => .error e
  | .ok _ =>
    let old := s.cur.classMask
    let m : BitVec 16 := (s.rw b).extractLsb' 0 16
    .ok (advance (((charge .task s).onCur fun t => { t with classMask := f old m }).ww a (old.setWidth 64)))
def execClmask (a b : Fld) (s : State) : Host.Outcome State Fault Refusal := finish (maskOp (fun o m => o ||| m) a b s)
def execClunmask (a b : Fld) (s : State) : Host.Outcome State Fault Refusal := finish (maskOp (fun o m => o &&& ~~~m) a b s)

/-- R121: TRAP. -/
def execTrap (c : BitVec 15) (s : State) : Host.Outcome State Fault Refusal :=
  finish (trapR cTRAPI (c.setWidth 64) (charge .sys s))

/-- R121: ERET. -/
def execEret (s : State) : Host.Outcome State Fault Refusal :=
  let s := charge .sys s
  .next { returnTrap s with rest := s.rest.map unyield }

end Sys2Proof.Machine
end

