-- ==== Sys2Proof/Machine/Stream.lean ====
section
/-! DEFINITION. Stream and queue bindings: opcode 0x1F (R263 to R275, R335, R336), and the pattern descriptors that the copy
engine shares. -/

namespace Sys2Proof.Machine

/-! ### Descriptors (R263, R264) -/

def wordIn (bs : List Byte) (off : Nat) : Word := leWord ((bs.drop off).take 8)
def singleIn (bs : List Byte) (off : Nat) : BitVec 32 := BitVec.ofNat 32 (leNat ((bs.drop off).take 4))

/-- The pattern of 96 bytes, every field decoded. -/
def patternOf (bs : List Byte) : Pattern :=
  let ctl := wordIn bs 0
  let ds := List.range ((ctl.extractLsb' 60 2).toNat + 1)
  let sz := (ctl.extractLsb' 56 2).toNat
  { base := (ctl.extractLsb' 0 56).toNat, sz := sz, out := ctl.getLsbD 58,
    strides := ds.map fun d => ((wordIn bs (16 + 8 * d)).extractLsb' 0 48).toInt,
    bounds := ds.map fun d => ((singleIn bs (48 + 8 * d)).toInt, (singleIn bs (52 + 8 * d)).toInt),
    counts := ds.map fun d => (singleIn bs (80 + 4 * d)).toInt,
    fill := BitVec.ofNat 64 ((wordIn bs 8).toNat % 2 ^ (8 * 2 ^ sz)) }

def patMalformed (bs : List Byte) (p : Pattern) : Bool :=
  (wordIn bs 0).extractLsb' 62 2 != 0 || (wordIn bs 0).getLsbD 59 || decide (p.len ≥ 2 ^ 48)

/-- R265: BASE and the strides are multiples of the element size. -/
def patAligned (p : Pattern) : Bool :=
  p.base % 2 ^ p.sz == 0 && p.strides.all fun x => x % (2 ^ p.sz : Nat) == 0

/-! ### Blocks read at issue (R272, R278) -/

/-- Shared bytes read at their home, in pieces of 32 bytes, each within a page. -/
def readShared (va : Nat) (s : State) : Nat → Res (List Byte × State)
  | 0 => .ok ([], s)
  | n + 1 =>
    match translateAt .load 0 va s with
    | .error e => .error e
    | .ok (pa, _, s) =>
      match homeRead s pa 32 with
      | .error e => .error e
      | .ok bs =>
        match readShared (va + 32) s n with
        | .error e => .error e
        | .ok (r, s) => .ok (bs ++ r, s)

/-- R272, R278: the checks on the address of a block of 32·k bytes, and its bytes. -/
def readBlock (d : Word) (align k : Nat) (s : State) : Res (List Byte × State) :=
  let n := 32 * k
  if d.getLsbD 63 && d.extractLsb' 17 46 != 0 then trapR cACCESS d s
  else if d.toNat % align != 0 then trapR cALIGN d s
  else if d.getLsbD 63 then
    let a := (d.extractLsb' 0 17).toNat
    if a + n > 131072 then trapR cACCESS d s
    else
      match tcmRead s a n with
      | .error e => .error e
      | .ok bs => .ok (bs, s)
  else if d.toNat + n > 2 ^ 56 then trapR cACCESS d s
  else readShared d.toNat s k

/-! ### SBIND, SUNBIND, SSTAT -/

/-- R272. -/
def sbind (a b : Fld) (tcm : Bool) (s : State) : Res State :=
  match needRegs [b] s with
  | .error e => .error e
  | .ok _ =>
    match readBlock (s.rw b) 32 3 s with
    | .error e => .error e
    | .ok (bs, s) =>
      let p := patternOf bs
      if (strmOf s.cur a).isSome then strmTrap 0x01 a s
      else if patMalformed bs p then strmTrap 0x02 a s
      else if !patAligned p then trapR cALIGN (BitVec.ofNat 64 p.base) s
      else
        let st : Stream := { pat := p, tcm := tcm, pos := 0, fetched := [], pushed := [], bad := none }
        .ok (advance (setHvy ((charge .strm s).onCur (setStrm a (some st)))))
def execSbind (a b : Fld) (tcm : Bool) (s : State) : Host.Outcome State Fault Refusal := finish (sbind a b tcm s)

/-- R273, R274: pushed elements are first written or appended. A refused translation among them traps as a seal would. -/
def drained (a : Fld) (st : Stream) (s : State) : Res Unit :=
  match st.bad with
  | some b => trapR b.1 (BitVec.ofNat 64 b.2) s
  | none => if strmUndrained s.cur a st then .error (.wait .waitMem (.drain [a]) s) else .ok ()

/-- R273. -/
def sunbind (a : Fld) (s : State) : Res State :=
  match strmOf s.cur a with
  | none => strmTrap 0x05 a s
  | some st =>
    let s := chargeOnce .strm s
    match drained a st s with
    | .error e => .error e
    | .ok _ => .ok (advance (s.onCur (setStrm a none)))
def execSunbind (a : Fld) (s : State) : Host.Outcome State Fault Refusal := finish (sunbind a s)

/-- R274. -/
def sstatWord (st : Stream) : Word :=
  (BitVec.ofBool true ++ BitVec.ofBool st.pat.out ++ BitVec.ofBool (decide (st.pos ≥ st.pat.len)) ++ BitVec.ofBool st.tcm
    ++ BitVec.ofNat 12 (st.pushed.length + st.fetched.length) ++ BitVec.ofNat 48 st.pos : BitVec 64)

def sstat (a b : Fld) (drain : Bool) (s : State) : Res State :=
  match takeS [] [a] s with
  | .error e => .error e
  | .ok _ =>
    match strmOf s.cur b with
    | none => strmTrap 0x05 b s
    | some st =>
      let s := chargeOnce .strm s
      match (if drain then drained b st s else .ok ()) with
      | .error e => .error e
      | .ok _ => .ok (advance (writeS a (sstatWord st) s))
def execSstat (a b : Fld) (drain : Bool) (s : State) : Host.Outcome State Fault Refusal := finish (sstat a b drain s)

/-! ### QBIND, QUNBIND -/

def queueTrap {α : Type} (f : Fld) (s : State) : Res α := trapR cQUEUE (fldW f) s

/-- R275: a binding word with a reserved bit set. -/
def qbindMalformed (x : Word) : Bool :=
  x.extractLsb' 19 43 != 0 || x.extractLsb' 13 3 != 0 ||
    (x.getLsbD 62 && (x.extractLsb' 16 3 != 0 || x.extractLsb' 4 9 != 0))

/-- R336: whether another class binding of the core holds a class. -/
def clsBound (s : State) (k : BitVec 4) : Bool :=
  s.tasks.any fun t => t.qs.toList.any fun q => match q with | none => false | some q => q.cls == some k

/-- R335: words of a wrong source are discarded from a buffer and their credits returned; each return tells the sender's next FENCE
(log entry 56). -/
def dropWrong (ch : BitVec 3) (peer : BitVec 13) (s : State) : State :=
  let buf := s.core.chan[ch.toNat]
  let wrong := buf.filter fun x => x.1 != peer
  (s.onCore fun c => { c with chan := c.chan.set ch.toNat (buf.filter fun x => x.1 == peer) }).onHome fun h =>
    { h with out := h.out ++ wrong.map fun x => .credit x.1 ch 1 }

/-- R275, R336. -/
def qbind (a b : Fld) (s : State) : Res State :=
  match needRegs [b] s with
  | .error e => .error e
  | .ok _ =>
    let x := s.rw b
    let out := x.getLsbD 63
    let cls := x.getLsbD 62
    let ch : BitVec 3 := x.extractLsb' 16 3
    let peer : BitVec 13 := x.extractLsb' 0 13
    if (queueOf s.cur a).isSome || qbindMalformed x then queueTrap a s
    else if cls && out then queueTrap a s
    else if cls && clsBound s (x.extractLsb' 0 4) then queueTrap a s
    else if !cls && !inPartition s (tileOf peer) then trapR cACCESS x s
    else
      let q : QBind := { outb := out, cls := if cls then some (x.extractLsb' 0 4) else none, ch := ch, peer := peer,
                         words := [], credits := 8 }
      let s := setHvy ((charge .strm s).onCur (setQueue a (some q)))
      .ok (advance (if out || cls then s else dropWrong ch peer s))
def execQbind (a b : Fld) (s : State) : Host.Outcome State Fault Refusal := finish (qbind a b s)

/-- R275. -/
def qunbind (a : Fld) (s : State) : Res State :=
  match queueOf s.cur a with
  | none => queueTrap a s
  | some q =>
    let s := chargeOnce .strm s
    if queueUndrained s.cur a q then .error (.wait .waitMem (.drain [a]) s)
    else .ok (advance ((dropBinding q s).onCur (setQueue a none)))
def execQunbind (a : Fld) (s : State) : Host.Outcome State Fault Refusal := finish (qunbind a s)

end Sys2Proof.Machine
end

