-- ==== Sys2Proof/Machine/Xfer.lean ====
section
/-! DEFINITION. Copies and chains at issue, their status and their cancellation, and the return from a completion handler:
opcode 0x20 (R276 to R281). -/

namespace Sys2Proof.Machine

/-- R276: the queue that a parameter block names. -/
def pbQueue (bs : List Byte) : Fin 16 := ⟨(wordIn bs 192).toNat % 4, by omega⟩
def pbHandler (bs : List Byte) : BitVec 56 := (wordIn bs 200).extractLsb' 2 54 ++ 0#2
def pbXid (bs : List Byte) : Word := wordIn bs 208

/-- R278: an operation that may write shared memory escapes when it issues. -/
def issueXfer (i : Instr) (k : EngKind) (bs : List Byte) (s : State) : Res State :=
  match enqueueOp (pbQueue bs) k (pbXid bs) (pbHandler bs) (hashedBlock i bs) (escapeCur s) with
  | .error e => .error e
  | .ok s => .ok (advance s)

/-- R278: COPY's checks on its block, in order. -/
def copyOp (pb : Word) (bs : List Byte) (s : State) : Res EngKind :=
  let sb := bs.take 96
  let db := (bs.drop 96).take 96
  let src := patternOf sb
  let dst := patternOf db
  let ctrl := wordIn bs 192
  let scl := ctrl.getLsbD 2
  if patMalformed sb src || patMalformed db dst then trapD cACCESS 0x10 pb s
  else if src.sz != dst.sz || src.len != dst.len || (scl && (src.sz != 3 || src.len % 256 != 0)) then trapD cACCESS 0x11 pb s
  else if !patAligned src || !patAligned dst then trapR cALIGN pb s
  else .ok (.copy src dst (ctrl.getLsbD 3) (ctrl.getLsbD 4) scl (wordIn bs 216) (wordIn bs 224))

/-- R278: COPY. -/
def copyI (b : Fld) (s : State) : Res State :=
  match needRegs [b] s with
  | .error e => .error e
  | .ok _ =>
    match readBlock (s.rw b) 64 8 s with
    | .error e => .error e
    | .ok (bs, s1) =>
      match copyOp (s.rw b) bs s1 with
      | .error e => .error e
      | .ok k => issueXfer (.copy b) k bs (chargeOnce .xfer s1)
def execCopy (b : Fld) (s : State) : Host.Outcome State Fault Refusal := finish (copyI b s)

/-- R278: SGRUN. -/
def sgrun (b : Fld) (s : State) : Res State :=
  match needRegs [b] s with
  | .error e => .error e
  | .ok _ =>
    match readBlock (s.rw b) 64 8 s with
    | .error e => .error e
    | .ok (bs, s1) =>
      let head := (wordIn bs 0).toNat
      if head % 64 != 0 then trapR cALIGN (s.rw b) s1 else issueXfer (.sgrun b) (.chain head) bs (chargeOnce .xfer s1)
def execSgrun (b : Fld) (s : State) : Host.Outcome State Fault Refusal := finish (sgrun b s)

/-- R281: the state of the task's operations in a queue. -/
def xstatWord (s : State) (q : Nat) : Word :=
  if q < 4 || q == 10 then
    let l := (s.core.eng[q]?).getD []
    let n := (l.filter fun o => sameTask s.cur o.tid o.origin).length
    let moved := match l with | [] => 0 | o :: _ => if sameTask s.cur o.tid o.origin then o.moved else 0
    (0#16 ++ BitVec.ofNat 16 n ++ BitVec.ofNat 32 moved : BitVec 64)
  else 0

/-- R280, R281: XSTAT. -/
def xstat (a b : Fld) (c : Bool) (s : State) : Res State :=
  match needRegs (if c then [] else [b]) s with
  | .error e => .error e
  | .ok _ =>
    match takeS [] [a] s with
    | .error e => .error e
    | .ok _ =>
      let x := if c then (if s.cur.xferid = 0 then 0 else s.cur.xstatus) else xstatWord s ((s.rw b).toNat % 16)
      .ok (advance (writeS a x (charge .xfer s)))
def execXstat (a b : Fld) (c : Bool) (s : State) : Host.Outcome State Fault Refusal := finish (xstat a b c s)

/-- R281: XCANCEL. -/
def cancelIn (t : Task) (xid : Word) (l : List EngOp) : List EngOp :=
  l.map fun o => if sameTask t o.tid o.origin && o.xid == xid then { o with cancelled := true } else o
def xcancel (b : Fld) (s : State) : Res State :=
  match needRegs [b] s with
  | .error e => .error e
  | .ok _ =>
    let x := s.rw b
    .ok (advance ((charge .xfer s).onCore fun c =>
      { c with eng := c.eng.mapIdx fun q l => if q < 4 then cancelIn s.cur x l else l }))
def execXcancel (b : Fld) (s : State) : Host.Outcome State Fault Refusal := finish (xcancel b s)

/-- R280: URET. -/
def uret (s : State) : Res State :=
  let s := charge .xfer s
  if !s.cur.inu then trapR cACCESS (s.cur.uepc ++ 0#2 : BitVec 56).toNat s
  else .ok (s.onCur fun t => { t with pc := t.uepc ++ 0#2, inu := false, xferid := 0 })
def execUret (s : State) : Host.Outcome State Fault Refusal := finish (uret s)

end Sys2Proof.Machine
end

