-- ==== Sys2Proof/Machine/Block.lean ====
section
/-! DEFINITION. Block instructions at issue: opcode 0x21 (R384 to R394), and the table entries they name. The entry steps of queue
9 are in EvBlock.lean. -/

namespace Sys2Proof.Machine

/-! ### Entries (R385) -/

structure BlkEntry where
  next : BitVec 32
  refcnt : BitVec 16
  drain : BitVec 16
  gen : BitVec 24
  state : BitVec 2
  cow : Bool
  tier : Bool
  pbn : BitVec 36
  deriving DecidableEq, Repr

def entryOf (w0 w1 : Word) : BlkEntry :=
  { next := w1.extractLsb' 32 32, refcnt := w1.extractLsb' 16 16, drain := w1.extractLsb' 0 16,
    gen := w0.extractLsb' 40 24, state := w0.extractLsb' 38 2, cow := w0.getLsbD 37, tier := w0.getLsbD 36,
    pbn := w0.extractLsb' 0 36 }
def BlkEntry.w0 (e : BlkEntry) : Word := (e.gen ++ e.state ++ BitVec.ofBool e.cow ++ BitVec.ofBool e.tier ++ e.pbn : BitVec 64)
def BlkEntry.w1 (e : BlkEntry) : Word := (e.next ++ e.refcnt ++ e.drain : BitVec 64)

/-- R383: the physical address of entry i of this function's table. -/
def entryPa (s : State) (i : Nat) : Nat := (s.vfReg s.core.vf).btbase.toNat * 65536 + 16 * i
/-- R440: an entry whose home refuses the function holds no reference, and a write of it is refused (log entry 90). -/
def getEntry (s : State) (i : Nat) : BlkEntry :=
  let a := entryPa s i
  if refusedAt s s.core.vf a then entryOf 0 0
  else entryOf (leWord (memGetN s.home.mem a 8)) (leWord (memGetN s.home.mem (a + 8) 8))
/-- R386: an entry step writes in place and leaves tags alone; the secondary's is discarded (R410). -/
def putEntry (i : Nat) (e : BlkEntry) (s : State) : State :=
  let a := entryPa s i
  if secondary s || refusedAt s s.core.vf a then s
  else s.onHome fun h => homePut (homePut h a (leBytes 8 e.w0.toNat)) (a + 8) (leBytes 8 e.w1.toNat)

/-- R384. -/
def hIndex (h : Word) : Nat := (h.extractLsb' 0 32).toNat
def hGen (h : Word) : BitVec 24 := h.extractLsb' 32 24
def handleOf (gen : BitVec 24) (i : Nat) : Word := (0#8 ++ gen ++ BitVec.ofNat 32 i : BitVec 64)

/-- R386: whether the table has an entry for a handle. -/
def hInRange (s : State) (h : Word) : Bool :=
  (s.vfReg s.core.vf).btbase != 0 && decide (hIndex h < (s.vfReg s.core.vf).btcnt.toNat)

/-! ### The synchronous instructions (R388 to R390) -/

/-- R388: what the waiting instruction does when its entry step has answered. -/
def blockAnswer (a : Fld) (ans : Option Word) (trap : Option PendTrap) (s : State) : Res State :=
  match trap with
  | some p => trapD p.cause p.detail p.val s
  | none =>
    match ans with
    | some x => .ok (advance (s.ww a x))
    | none => .error (.wait .waitMem (.block none none) s)

/-- R388: an operation enters queue 9 and its task waits for the entry step. -/
def blockIssue (i : Instr) (x : Word) (k : EngKind) (s : State) : Res State :=
  match enqueueOp 9 k 0 0 (hashedBlock i (leBytes 8 x.toNat)) (escapeCur (chargeOnce .blk s)) with
  | .error e => .error e
  | .ok s => .error (.wait .waitMem (.block none none) s)

def blockSync (a b : Fld) (issue : Word → State → Res State) (s : State) : Res State :=
  match needRegs [a, b] s with
  | .error e => .error e
  | .ok _ =>
    match s.cur.wait with
    | some (.block ans trap) => blockAnswer a ans trap s
    | _ => issue (s.rw b) s

def execBlkref (a b : Fld) (s : State) : Host.Outcome State Fault Refusal :=
  finish (blockSync a b (fun h s => blockIssue (.blkref a b) h (.blkref h) s) s)
def execBlkfree (a b : Fld) (s : State) : Host.Outcome State Fault Refusal :=
  finish (blockSync a b (fun h s => blockIssue (.blkfree a b) h (.blkfree h) s) s)

/-- R389: a tier operand above 1 traps. -/
def execBlkrefNew (a b : Fld) (s : State) : Host.Outcome State Fault Refusal :=
  finish (blockSync a b (fun t s => if t > 1 then trapD cBLOCK 0x07 t s else blockIssue (.blkrefNew a b) t (.blkrefNew t) s) s)

/-- R390: the slot's address. -/
def blkcow (i : Instr) (va : Word) (s : State) : Res State :=
  if va.toNat % 8 != 0 then trapR cALIGN va s
  else if va.toNat ≥ 2 ^ 56 then trapR cACCESS va s
  else
    match translateAt .amo 0 va.toNat s with
    | .error e => .error e
    | .ok (pa, _, s) => blockIssue i va (.blkcow pa) s
def execBlkcow (a b : Fld) (s : State) : Host.Outcome State Fault Refusal := finish (blockSync a b (blkcow (.blkcow a b)) s)

/-! ### Transfers (R391, R393) -/

def blockAsync (k : EngKind) (escapes : Bool) (bs : List Byte) (s : State) : Res State :=
  let s := chargeOnce .blk s
  match enqueueOp 9 k 0 0 bs (if escapes then escapeCur s else s) with
  | .error e => .error e
  | .ok s => .ok (advance s)

/-- R393: a tier above 1 fails as an operation does. -/
def execBlkmoveTier (b c : Fld) (s : State) : Host.Outcome State Fault Refusal :=
  finish (match needRegs [b, c] s with
    | .error e => .error e
    | .ok _ => 
      blockAsync (.tier (s.rw b) (s.rw c)) true (hashedBlock (.blkmoveTier b c) (wordBytes [s.rw b, s.rw c])) s)

/-- R391: BLKMOVE.get and BLKMOVE.put at issue. -/
def blkmove (get : Bool) (b : Fld) (s : State) : Res State :=
  match needRegs [b] s with
  | .error e => .error e
  | .ok _ =>
    let d := s.rw b
    if d.toNat % 32 != 0 then trapR cALIGN d s
    else if d.toNat + 32 > 131072 then trapR cACCESS d s
    else
      match readWords s d.toNat 3 with
      | .error e => .error e
      | .ok ws =>
        let w1 := wordsAt ws 1
        let w2 := wordsAt ws 2
        let off := (w1.extractLsb' 0 16).toNat
        let ta := (w1.extractLsb' 32 17).toNat
        let len := (w2.extractLsb' 0 17).toNat
        let sa := (w2.extractLsb' 32 17).toNat
        if ta % 64 != 0 || sa % 8 != 0 then trapR cALIGN d s
        else if w1.extractLsb' 16 16 != 0 || w1.extractLsb' 49 15 != 0 || w2.extractLsb' 17 15 != 0
            || w2.extractLsb' 49 15 != 0 || off % 64 != 0 || len % 64 != 0 || len == 0 || decide (off + len > 65536)
            || decide (ta + len > 131072) || decide (sa + 8 > 131072) then trapR cACCESS d s
        else if get && (storeRefused112 s s.cur.priv ta len || storeRefused112 s s.cur.priv sa 8) then trapR cACCESS d s
        else
          let h := wordsAt ws 0
          blockAsync (if get then .get h off ta len sa else .put h off ta len sa) (!get)
            (hashedBlock (if get then .blkmoveGet b else .blkmovePut b) (wordBytes ws)) s
def execBlkmoveGet (b : Fld) (s : State) : Host.Outcome State Fault Refusal := finish (blkmove true b s)
def execBlkmovePut (b : Fld) (s : State) : Host.Outcome State Fault Refusal := finish (blkmove false b s)

/-! ### BLKSTAT (R394) -/

/-- R393: the spare entry of a committed move of entry i, which still drains. -/
def oldCopy (s : State) (i : Nat) : Option MoveRec :=
  s.home.moves.find? fun m => m.vf == s.core.vf && m.entry == i && m.committed

def blkstatWord (s : State) (h : Word) : Word :=
  let e := getEntry s (hIndex h)
  (e.gen ++ e.state ++ BitVec.ofBool e.cow ++ BitVec.ofBool e.tier ++ BitVec.ofBool (e.gen != hGen h)
    ++ BitVec.ofBool (oldCopy s (hIndex h)).isSome ++ 0#2 ++ e.refcnt ++ e.drain : BitVec 64)

def blkstat (a b : Fld) (s : State) : Res State :=
  match needRegs [a, b] s with
  | .error e => .error e
  | .ok _ =>
    let h := s.rw b
    if !hInRange s h then trapD cBLOCK 0x01 h (charge .blk s)
    else .ok (advance ((charge .blk s).ww a (blkstatWord s h)))
def execBlkstat (a b : Fld) (s : State) : Host.Outcome State Fault Refusal := finish (blkstat a b s)

end Sys2Proof.Machine
end

