-- ==== Sys2Proof/Machine/Branch.lean ====
section
/-! DEFINITION. Branches and jumps: opcodes 0x0C to 0x13 (R107 to R109). -/

namespace Sys2Proof.Machine

/-- The PC of the instruction plus a signed number of words, exact (R107, R108). -/
def relTarget (s : State) (words : Int) : Int := (s.cur.pc.toNat : Int) + words * 4

/-- A jump to an exact address, which must lie in [0, 2^56) (R107). A trap leaves the operands untaken (R97): it keeps only
the charge, in `back`. -/
def jumpTo (t : Int) (back s : State) : Res State :=
  if t < 0 || t ≥ 2 ^ 56 then trapR cACCESS (BitVec.ofInt 64 t) back
  else .ok (s.onCur fun x => { x with pc := BitVec.ofInt 56 t })

/-- R107: a branch reads A and then B. -/
def branch (taken : Word → Word → Bool) (a b : Fld) (o : BitVec 16) (s : State) : Res State :=
  match takeS [a, b] [] s with
  | .error e => .error e
  | .ok ([x, y], s1) =>
    if taken x y then jumpTo (relTarget s o.toInt) (charge .br s) (charge .br s1) else .ok (advance (charge .br s1))
  | .ok (_, s) => .ok s

def execBeq (a b : Fld) (o : BitVec 16) (s : State) : Host.Outcome State Fault Refusal :=
  finish (branch (fun x y => x == y) a b o s)
def execBne (a b : Fld) (o : BitVec 16) (s : State) : Host.Outcome State Fault Refusal :=
  finish (branch (fun x y => x != y) a b o s)
def execBlt (a b : Fld) (o : BitVec 16) (s : State) : Host.Outcome State Fault Refusal :=
  finish (branch (fun x y => ltS x y) a b o s)
def execBge (a b : Fld) (o : BitVec 16) (s : State) : Host.Outcome State Fault Refusal :=
  finish (branch (fun x y => !ltS x y) a b o s)
def execBltn (a b : Fld) (o : BitVec 16) (s : State) : Host.Outcome State Fault Refusal :=
  finish (branch (fun x y => ltU x y) a b o s)
def execBgen (a b : Fld) (o : BitVec 16) (s : State) : Host.Outcome State Fault Refusal :=
  finish (branch (fun x y => !ltU x y) a b o s)

/-- R108: the link register is w15. -/
def execJal (o : BitVec 26) (s : State) : Host.Outcome State Fault Refusal :=
  finish (
    if wBusy s.cur 15 then regWait 15 s
    else
      let link := s.cur.pcW + 4
      match jumpTo (relTarget s o.toInt) (charge .br s) (charge .br s) with
      | .error e => .error e
      | .ok s => .ok (s.ww 15 link))

/-- R109: the target comes from the old value of Reg(B); ALIGN is checked before ACCESS. The immediate is four times the
field the encoding leaves free (R87). -/
def execJalr (a b : Fld) (i : BitVec 14) (s : State) : Host.Outcome State Fault Refusal :=
  finish (
    match takeS [b] [a] s with
    | .error e => .error e
    | .ok ([x], s) =>
      let s := charge .br s
      let t : Int := (x.toNat : Int) + i.toInt * 4
      let link := s.cur.pcW + 4
      if (BitVec.ofInt 64 t).extractLsb' 0 2 != 0 then trapR cALIGN (BitVec.ofInt 64 t) s
      else
        match jumpTo t s s with
        | .error e => .error e
        | .ok s => .ok (writeS a link s)
    | .ok (_, s) => .ok s)

end Sys2Proof.Machine
end

