-- ==== Sys2Proof/Machine/Debug.lean ====
section
/-! DEFINITION. Break bits, matching, halts and the state-change log (R418 to R428). -/

namespace Sys2Proof.Machine

/-- R418. -/
def matchesDbg (r : VfRegs) (t : Task) : Bool := (t.tid &&& r.dbgtmask) == (r.dbgtid &&& r.dbgtmask)

def brkEn (s : State) : Bool := s.core.dbgctl.getLsbD 0
def brkTask (s : State) : Bool := s.core.dbgctl.getLsbD 1
def scLog (s : State) : Bool := s.core.dbgctl.getLsbD 3

/-- R419. -/
def breakBit (s : State) (va : Nat) : Bool :=
  let r := s.vfReg s.core.vf
  let base := r.brkva.toNat * 65536
  if r.brkmap = 0 || va < base || va ≥ base + r.brklen.toNat * 65536 then false
  else
    let a := r.brkmap.toNat * 8 + (va - base) / 32
    !refusedAt s s.core.vf a && (memGet s.home.mem a).getLsbD ((va - base) / 4 % 8)

/-- R419: the number of the instruction line at an address: function, address space, 64-byte line. -/
def lineKey (s : State) (va : Nat) : Nat := (s.core.vf.toNat * 65536 + s.core.asid.toNat) * 2 ^ 50 + va / 64
/-- The break bits of the sixteen instructions of a line, as the bitmap has them. -/
def lineBits (s : State) (va : Nat) : BitVec 16 :=
  BitVec.ofNat 16 (((List.range 16).map fun k => if breakBit s (va / 64 * 64 + 4 * k) then 2 ^ k else 0).sum)
/-- R419: a line's break bits are read when it is filled and stay with it until SYNC (log entry 26). -/
def fillLine (va : Nat) (s : State) : State :=
  match tabGet? s.core.brkLines (lineKey s va) with
  | some _ => s
  | none => s.onCore fun c => { c with brkLines := tabSet c.brkLines (lineKey s va) (lineBits s va) }
/-- The break bit in force at an address: of the line held, else of the bitmap, from which the line is filled now. -/
def breakMark (s : State) (va : Nat) : Bool :=
  match tabGet? s.core.brkLines (lineKey s va) with
  | some b => b.getLsbD (va / 4 % 16)
  | none => breakBit s va
/-- R424: SYNC drops the instruction lines of the function's cores. -/
def dropLines (v : BitVec 6) (s : State) : State :=
  if s.core.vf == v then s.onCore fun c => { c with brkLines := [] } else s

/-- R425, R426: a debug halt of this tile; the launch's freeze flag goes up its tree, and a paired launch's partner halts too. -/
def haltTile (s : State) : State :=
  (s.onTile fun t => { t with halted := true, frozen := true }).onHome fun h => { h with out := h.out ++ [.freeze true] }

/-- R420, R421: the task stops with its PC where it stands; `skip` says that on resume the instruction there runs. -/
def stopTask (skip : Bool) (s : State) : State :=
  haltTile (s.onCur fun t => { t with stopped := true, brkSkip := skip })

/-! ### The state-change log (R427, R428) -/

/-- R427: the ring of this core. -/
def ringPa (s : State) : Nat :=
  let c := s.clusterId
  let n := 4 * (clusterY c % 4) + clusterX c % 4
  let base := ((s.vfReg s.core.vf).trbase[s.dieId]?).getD 0
  base.toNat * 2 ^ 23 + (128 * n + s.core.id.toNat % 128) * 4096

def logWord (delta : BitVec 24) (ctx : BitVec 3) (state : BitVec 4) (value : BitVec 32) : Word :=
  (delta ++ ctx ++ state ++ 0#1 ++ value : BitVec 64)

/-- One record in the ring, then the count. -/
def ringPut (w0 w1 : Word) (s : State) : State :=
  let a := ringPa s
  let k := leNat (memGetN s.home.mem a 8)
  let at_ := a + 16 + 16 * (k % 255)
  if refusedAt s s.core.vf a || refusedAt s s.core.vf at_ then s
  else s.onHome fun h => homePut (homePut h at_ (leBytes 8 w0.toNat ++ leBytes 8 w1.toNat)) a (leBytes 8 ((k + 1) % 2 ^ 32))

/-- A record; the cycles since the last one are a free value (log entry 4). -/
def slog (tid : Word) (ctx : BitVec 3) (state : BitVec 4) (value : BitVec 32) (s : State) : State :=
  if !scLog s then s
  else
    let (d, s) := s.free
    let delta : BitVec 24 := d.extractLsb' 0 24
    if delta = 0xFFFFFF then
      let (c, s) := s.free
      ringPut tid (logWord delta ctx state value) (ringPut c (logWord delta ctx 15 value) s)
    else ringPut tid (logWord delta ctx state value) s

/-- R428: the number of a context and of its state. -/
def ctxNum (t : Task) : BitVec 3 := if t.shadow then 5 else match t.slot with | some k => BitVec.ofNat 3 k.val | none => 7
def stNum (t : Task) (halted : Bool) : Option (BitVec 4) :=
  if halted && t.st != .ended then some 8
  else
    match t.st with
    | .pending => none | .ready => some 1 | .running => some 2 | .waitMsg => some 3 | .waitMem => some 4
    | .faulted => some 5 | .preempted => some 6 | .ended => some 7
def pcValue (t : Task) : BitVec 32 := t.pc.extractLsb' 2 32

/-- The record of a context whose state differs from what it was. -/
def slogTask (before : State) (t : Task) (s : State) : State :=
  match stNum t s.tile.halted with
  | none => s
  | some n =>
    let old := (before.cur :: before.rest).find? fun u => u.frame == t.frame && u.tid == t.tid && u.shadow == t.shadow
    if (match old with | none => none | some u => stNum u before.tile.halted) == some n then s
    else slog t.tid (ctxNum t) n (pcValue t) s

/-- R29, R428: the bramble thread is ready, or idles; its PC is open (log entry 8). -/
def slogBramble (before s : State) : State :=
  if before.core.bramble == s.core.bramble then s
  else
    let (x, s) := s.free
    slog 0 4 (if s.core.bramble then 1 else 0) (x.extractLsb' 0 32) s

/-- R427: the records of the states that contexts entered in a step. -/
def slogDiff (before after : State) : State :=
  if !scLog after then after else slogBramble before ((after.cur :: after.rest).foldl (fun s t => slogTask before t s) after)

end Sys2Proof.Machine
end

