-- ==== Sys2Proof/Machine/Sys.lean ====
section
/-! DEFINITION. System instructions: opcode 0x23 but TRAP and ERET (R89, R353, R356, R360, R379 to R382, R421), and the stop of
a function (R372), which HALT shares with the energy controller. -/

namespace Sys2Proof.Machine

/-- R89. -/
def needService (i : Instr) (s : State) : Res Unit := privCheck (decide (1 ≤ s.cur.priv)) i s

/-! ### Stopping a function (R371, R372, R374) -/

/-- R371. -/
def estatWord (r : VfRegs) : Word :=
  (r.code ++ 0#40 ++ r.cause ++ 0#3 ++ 0#1 ++ BitVec.ofBool r.saving ++ BitVec.ofBool r.stopped : BitVec 64)

/-- R372: a function that is running is stopped; one without a context area has nothing to save (R374). -/
def stopVf (v : BitVec 6) (cause : BitVec 2) (s : State) : State :=
  let r := s.vfReg v
  if r.cause != 0 then s
  else if r.ctxbase = 0 then s.setVf v { r with cause := cause, stopped := true }
  else
    let s := s.setVf v { r with cause := cause, saving := true }
    let s := s.onHome fun h => { h with out := h.out ++ [.stopVf v cause] }
    if s.core.vf == v then s.onCore fun c => { c with preempt := true } else s

/-- R380: HALT. -/
def halt (i : Instr) (b : Fld) (s : State) : Res State :=
  match needService i s with
  | .error e => .error e
  | .ok _ =>
    match needRegs [b] s with
    | .error e => .error e
    | .ok _ =>
      let v : BitVec 6 := (s.rw b).extractLsb' 0 6
      if v = 0 || (s.core.vf != 0 && v != s.core.vf) then trapR cPRIV (instrW i) s
      else
        let s1 := charge .sys s
        let r := s1.vfReg v
        .ok (advance (if r.cause = 0 then stopVf v 2 (s1.setVf v { r with code := (s.rw b).extractLsb' 16 16 }) else s1))
def execHalt (b : Fld) (s : State) : Host.Outcome State Fault Refusal := finish (halt (.halt b) b s)

/-! ### BREAK and DBGMARK (R421) -/

def execBrk (c : BitVec 15) (s : State) : Host.Outcome State Fault Refusal :=
  let _ := c
  let s1 := charge .sys s
  finish (if brkEn s && !brkTask s && matchesDbg (s.vfReg s.core.vf) s.cur && !s.cur.shadow then .ok (stopTask false s1)
    else trapR cBREAKI s.cur.pcW s1)

def execDbgmark (b : Fld) (s : State) : Host.Outcome State Fault Refusal :=
  finish (match needRegs [b] s with
    | .error e => .error e
    | .ok _ => .ok (advance (slog s.cur.tid (ctxNum s.cur) 14 ((s.rw b).extractLsb' 0 32) (charge .sys s))))

/-! ### TLBINV (R360, R361) and the dirty log (R358, R359) -/

def dropTlb (p : Tlb → Bool) (s : State) : State :=
  (s.onCore fun c => { c with itlb := c.itlb.filter fun e => !p e, dtlb := c.dtlb.filter fun e => !p e }).onTile fun t =>
    { t with l2tlb := t.l2tlb.filter fun e => !p e }

/-- R353, R360: what every other cluster does as well, whose answer the instruction awaits. -/
def tellOthers (p : Packet) (s : State) : State :=
  (s.onHome fun h => { h with out := h.out ++ [p] }).onTile fun t => { t with dropsOut := t.dropsOut + 1 }
def othersGo (s : State) : Res State :=
  if s.tile.dropsOut = 0 then .ok (advance s) else .error (.wait .waitMem (.translations 0) s)

/-- R360: TLBINV does its part at issue and blocks until the other clusters have answered. -/
def tlbinv (i : Instr) (fs : List Fld) (f : State → Res State) (s : State) : Res State :=
  match needService i s with
  | .error e => .error e
  | .ok _ =>
    match s.cur.wait with
    | some (.translations _) => othersGo s
    | _ =>
      match needRegs fs s with
      | .error e => .error e
      | .ok _ =>
        match f s with
        | .error e => .error e
        | .ok s => othersGo (charge .sys s)

def covers (va : Nat) (e : Tlb) : Bool := decide (e.va ≤ va) && decide (va < e.va + 2 ^ e.bits)

def execTlbinvPage (b c : Fld) (s : State) : Host.Outcome State Fault Refusal :=
  finish (tlbinv (.tlbinvPage b c) [b, c] (fun s =>
    let va := (s.rw b).toNat % 2 ^ 56
    let id : BitVec 16 := (s.rw c).extractLsb' 0 16
    .ok (tellOthers (.tlbDrop s.core.vf (some id) (some va)) (dropTlb (fun e => e.vf == s.core.vf && e.asid == id && covers va e) s))) s)
def execTlbinvAsid (c : Fld) (s : State) : Host.Outcome State Fault Refusal :=
  finish (tlbinv (.tlbinvAsid c) [c] (fun s =>
    let id : BitVec 16 := (s.rw c).extractLsb' 0 16
    .ok (tellOthers (.tlbDrop s.core.vf (some id) none) (dropTlb (fun e => e.vf == s.core.vf && e.asid == id) s))) s)
def execTlbinvVf (c : Fld) (s : State) : Host.Outcome State Fault Refusal :=
  finish (tlbinv (.tlbinvVf c) [c] (fun s =>
    let v : BitVec 6 := (s.rw c).extractLsb' 0 6
    if s.core.vf != 0 && v != s.core.vf then trapR cPRIV (instrW (.tlbinvVf c)) s
    else .ok (tellOthers (.tlbDrop v none none) (dropTlb (fun e => e.vf == v) s))) s)

/-- R359: D set in place at the homes of a record's leaf entries. -/
def setD (pa : Nat) (h : HomeSt) : HomeSt :=
  if pa = 0 then h else { h with mem := memPut h.mem (pa + 7) (memGet h.mem (pa + 7) ||| 0x40) }
def mergeDirty (s : State) : State :=
  let put (pa : Nat) (h : HomeSt) : HomeSt := if noMemory s pa then h else setD pa h
  (s.onHome fun h => s.core.dirty.foldl (fun h r => put r.2 (put r.1 h)) h).onCore fun c => { c with dirty := [] }
def execTlbinvHarvest (s : State) : Host.Outcome State Fault Refusal :=
  finish (tlbinv .tlbinvHarvest [] (fun s =>
    .ok (tellOthers (.harvest s.core.vf) (mergeDirty s))) s)

/-! ### ASIDSET (R352, R353) -/

def asidWord (c : CoreSt) : Word := (0#44 ++ c.asidGen ++ c.asid : BitVec 64)

/-- R351: a task as the requester of a walk. -/
def askTask (s : State) (t : Task) (va : Nat) : Asker :=
  { who := .task t.frame, vf := s.core.vf, tid := t.tid, origin := t.origin, page := va / 65536 }
/-- R353: a translation of this core that has neither completed nor faulted. -/
def inFlight (s : State) : Bool :=
  s.rest.any fun t => match t.wait with
    | some (.walk va _ _) => !s.tile.faults.any fun f => f.who.contains (askTask s t va)
    | _ => false

/-- R352: one core fewer, or one more, is bound to an identifier. -/
def leaveAsid (vf : BitVec 6) (id : BitVec 16) (s : State) : State :=
  let e := s.asidEnt vf id
  s.setAsid vf id { e with count := e.count - 1 }
def joinAsid (vf : BitVec 6) (id : BitVec 16) (s : State) : State :=
  let e := s.asidEnt vf id
  s.setAsid vf id { e with count := e.count + 1 }
/-- R352: this core takes an identifier with its generation. -/
def takeAsid (id : BitVec 16) (s : State) : State :=
  let s := joinAsid s.core.vf id s
  s.onCore fun c => { c with asid := id, asidGen := (s.asidEnt s.core.vf id).gen }
/-- R352: this core bound to an identifier in place of its own. -/
def bindAsid (id : BitVec 16) (s : State) : State := takeAsid id (leaveAsid s.core.vf s.core.asid s)

/-- R353: an address space takes a new root and the next generation; at the wrap every entry and walk of it is dropped. -/
def renewAsid (vf : BitVec 6) (id : BitVec 16) (root : Word) (s : State) : State :=
  let e := s.asidEnt vf id
  let g := e.gen + 1
  let s := s.setAsid vf id { e with root := root.extractLsb' 0 52, gen := g }
  if g = 0 then
    (dropTlb (fun e => e.vf == vf && e.asid == id) s).onTile fun t =>
      { t with faults := t.faults.filter fun f => !(f.vf == vf && f.asid == id) }
  else s

/-- R353: the end of ASIDSET; with `.new` it also waits for the other dies. -/
def asidBind (a : Fld) (id : BitVec 16) (new : Bool) (s : State) : Res State :=
  if inFlight s || (new && s.tile.dropsOut != 0) then .error (.wait .waitMem (.translations id) s)
  else .ok (advance ((bindAsid id s).ww a (asidWord s.core)))

def asidset (i : Instr) (a b : Fld) (c : Option Fld) (s : State) : Res State :=
  match needService i s with
  | .error e => .error e
  | .ok _ =>
    match needRegs (match c with | none => [a, b] | some c => [a, b, c]) s with
    | .error e => .error e
    | .ok _ =>
      let id : BitVec 16 := (s.rw b).extractLsb' 0 16
      match s.cur.wait, c with
      | some (.translations id), _ => asidBind a id c.isSome s
      | _, none => asidBind a id false (chargeOnce .sys s)
      | _, some c =>
        let root := s.rw c
        if root.toNat % 8192 != 0 || decide (root.toNat ≥ 2 ^ 52) then trapR cACCESS root s
        else
          let s1 := chargeOnce .sys s
          let n := (s.asidEnt s.core.vf id).count
          if n > 0 && id != s.core.asid then .ok (advance (s1.ww a (BitVec.ofNat 64 (2 ^ 63 + n))))
          else asidBind a id true (tellOthers (.asidRoot s.core.vf id root) (renewAsid s.core.vf id root s1))
def execAsidset (a b : Fld) (s : State) : Host.Outcome State Fault Refusal := finish (asidset (.asidset a b) a b none s)
def execAsidsetNew (a b c : Fld) (s : State) : Host.Outcome State Fault Refusal :=
  finish (asidset (.asidsetNew a b c) a b (some c) s)

/-! ### SWAPWP (R381) -/

/-- R381: the saved context: {PC + 4, status byte} and the registers. -/
def swapOut (s : State) : State := flushWs { s.cur with pc := s.cur.pc + 4 } s

/-- The context that TCM holds at an address. -/
def swapIn (n : BitVec 17) (s : State) : State :=
  let word (k : Nat) : Word := leWord (memGetN s.core.tcm (n.toNat + 8 * k) 8)
  s.onCur fun t => { t with wp := n, w := Vector.ofFn (fun k => if k.val = 0 then 0 else word k.val),
                            mig := (word 0).getLsbD 63, pc := (word 0).extractLsb' 2 54 ++ 0#2 }

/-- R26, R381: the registers that the switch stores. -/
def allW : List Fld := (List.range 16).map (BitVec.ofNat 5)

def swapwp (i : Instr) (a b : Fld) (s : State) : Res State :=
  match needService i s with
  | .error e => .error e
  | .ok _ =>
    match needRegs (a :: b :: allW) s with
    | .error e => .error e
    | .ok _ =>
      let x := s.rw b
      let n := x.toNat
      if n % 128 != 0 then trapR cALIGN x s
      else if n + 128 > 131072 then trapR cACCESS x s
      else if (s.launch.live && overlaps n 128 s.logBase (s.inboxEnd - s.logBase))
          || s.rest.any (fun t => t.st != .ended && t.wp.toNat == n) then trapR cACCESS x s
      else
        match tcmRead s n 128 with
        | .error e => .error e
        | .ok _ =>
          let old := s.cur.wp
          .ok ((swapIn (x.extractLsb' 0 17) (swapOut (charge .sys s))).ww a (old.setWidth 64))
def execSwapwp (a b : Fld) (s : State) : Host.Outcome State Fault Refusal := finish (swapwp (.swapwp a b) a b s)

/-! ### FAULTREPLY (R356) -/

/-- R354. -/
def faultToken (cluster : Nat) (f : FaultRec) : Word := BitVec.ofNat 64 (f.walker % 64 + 64 * cluster + 4096 * (f.serial % 2 ^ 20))

/-- R356: whether the walk that a token names waits for this core; of another cluster's table only that cluster knows: a free
value. -/
def faultWaits (token : Word) (s : State) : Bool × State :=
  if (token.extractLsb' 6 6).toNat = s.clusterId then
    (s.tile.faults.any fun f => faultToken s.clusterId f == token && f.posted && f.toCore == s.core.id, s)
  else
    let (x, s) := s.free
    (x.getLsbD 0, s)

/-- R356: once the segments are acknowledged, the walk is answered. -/
def replyGo (a : Fld) (n : Nat) (token ans : Word) (s : State) : Res State :=
  if !segsAcked s n then .error (.wait .waitMem (.reply n token ans) s)
  else
    let (ok, s) := faultWaits token s
    if ok then .ok (advance ((s.onHome fun h => { h with out := h.out ++ [.faultAns token (ans == 0)] }).ww a 0))
    else .ok (advance (s.ww a 1))

def faultreply (i : Instr) (a b c : Fld) (s : State) : Res State :=
  match needService i s with
  | .error e => .error e
  | .ok _ =>
    match needRegs [a, b, c] s with
    | .error e => .error e
    | .ok _ =>
      match s.cur.wait with
      | some (.reply n token ans) => replyGo a n token ans s
      | _ =>
        if s.rw c > 1 then trapR cACCESS (s.rw c) s
        else
          let s1 := chargeOnce .sys s
          match sealRelease 5 s1 with
          | .error e => .error e
          | .ok s2 => replyGo a (lastSealed s1) (s.rw b) (s.rw c) s2
def execFaultreply (a b c : Fld) (s : State) : Host.Outcome State Fault Refusal :=
  finish (faultreply (.faultreply a b c) a b c s)

/-! ### EREAD (R382) -/

def ereadWord (v : BitVec 6) (sel : BitVec 2) (s : State) : Word :=
  match sel.toNat with
  | 0 => (s.vfReg v).ecnt
  | 1 => (s.vfReg v).equota
  | 2 => estatWord (s.vfReg v)
  | _ => BitVec.ofNat 64 (tabGet s.tile.meter 0 v.toNat)

def eread (i : Instr) (a b : Fld) (s : State) : Res State :=
  match needService i s with
  | .error e => .error e
  | .ok _ =>
    match needRegs [a, b] s with
    | .error e => .error e
    | .ok _ =>
      let v : BitVec 6 := (s.rw b).extractLsb' 0 6
      if s.core.vf != 0 && v != s.core.vf then trapR cPRIV (instrW i) s
      else
        let s1 := charge .sys s
        .ok (advance (s1.ww a (ereadWord v ((s.rw b).extractLsb' 8 2) s1)))
def execEread (a b : Fld) (s : State) : Host.Outcome State Fault Refusal := finish (eread (.eread a b) a b s)

end Sys2Proof.Machine
end

