-- ==== Sys2Proof/Machine/Trig.lean ====
section
/-! DEFINITION. The functions of the column unit, correctly rounded to FP32 (R169, R170). Rational and algebraic results are
rounded exactly. Transcendental values are enclosed between two fixed-point bounds, of 320 fraction bits at first and of twice as many
each time the two round to different patterns (log entry 15). -/

namespace Sys2Proof.Machine

/-- Fixed point with p fraction bits. -/
def fxOne (p : Nat) : Int := 2 ^ p
def fxMul (p : Nat) (a b : Int) : Int := a * b / fxOne p
def fxOf (p : Nat) (n d : Int) : Int := n * fxOne p / d

/-- The sum of (±)^k q^(2k+1) / (2k+1), from the term k on; `q` holds the power. -/
def oddSeries (p : Nat) (alt : Bool) (z2 : Int) (k : Nat) (q : Int) : Nat → Int
  | 0 => 0
  | n + 1 =>
    let t := q / (2 * k + 1 : Nat)
    (if alt && k % 2 == 1 then -t else t) + oddSeries p alt z2 (k + 1) (fxMul p q z2) n

def fxAtanh (p : Nat) (z : Int) : Int := oddSeries p false (fxMul p z z) 0 z (p / 4 + 50)
def fxAtan (p : Nat) (z : Int) : Int := oddSeries p true (fxMul p z z) 0 z (p / 4 + 50)
def fxLn2 (p : Nat) : Int := 2 * fxAtanh p (fxOf p 1 3)
/-- Machin's formula. -/
def fxPi (p : Nat) : Int := 16 * fxAtan p (fxOf p 1 5) - 4 * fxAtan p (fxOf p 1 239)

/-- The sum of t^k / k! from the term k on. -/
def expSeries (p : Nat) (t : Int) (k : Nat) (term : Int) : Nat → Int
  | 0 => 0
  | n + 1 => term + expSeries p t (k + 1) (fxMul p term t / (k + 1 : Nat)) n
def fxExp (p : Nat) (t : Int) : Int := expSeries p t 0 (fxOne p) (p / 4 + 20)

/-- The alternating sum of t^(2k+j) / (2k+j)!, for the sine (j = 1) and the cosine (j = 0). -/
def trigSeries (p : Nat) (t2 : Int) (j k : Nat) (term : Int) : Nat → Int
  | 0 => 0
  | n + 1 =>
    (if k % 2 == 1 then -term else term) +
      trigSeries p t2 j (k + 1) (fxMul p term t2 / ((2 * k + j + 1) * (2 * k + j + 2) : Nat)) n
def fxSin (p : Nat) (t : Int) : Int := trigSeries p (fxMul p t t) 1 0 t (p / 8 + 30)
def fxCos (p : Nat) (t : Int) : Int := trigSeries p (fxMul p t t) 0 0 (fxOne p) (p / 8 + 30)

/-- A bound for the error of every value above, in units of 2^-p. -/
def fxErr : Int := 2 ^ 30

/-- A fixed-point value of p fraction bits times g/n and 2^e, rounded to FP32. -/
def roundFx (p : Nat) (v : Int) (g n : Nat) (e : Int) : Nat := roundRat fp32 false false (decide (v < 0)) (v.natAbs * g) n (e - p)

/-- The pattern to which a value, times g/n and 2^e, rounds: `f p` is the value to within `err` units of 2^-p. The bounds are taken at p,
and again at twice as many bits where they do not decide; `last` answers where none of the precisions does. -/
def roundBy (f : Nat → Int) (err : Int) (g n : Nat) (e : Int) (last : Nat → Nat) : Nat → Nat → Nat
  | p, 0 => last p
  | p, k + 1 =>
    if roundFx p (f p - err) g n e = roundFx p (f p + err) g n e then roundFx p (f p) g n e
    else roundBy f err g n e last (2 * p) k

/-- A transcendental value, rounded; `key` names it where 5,120 bits do not decide. -/
def decideFx (f : Nat → Int) (e : Int) (key : Nat × Nat) : Nat :=
  roundBy f fxErr 1 1 e (fun _ => (Config.undecided key.1 key.2).toNat) 320 5

/-- A sum of fractions of roots of unity of order at most 1,024, rounded: some precision of these always decides (log entry 15). -/
def roundAlg (f : Nat → Int) (err : Int) (g n : Nat) (e : Int) : Nat :=
  roundBy f err g n e (fun p => roundFx p (f p) g n e) 320 11

/-! ### The eight functions -/

def nan32 : Nat := canonNaN fp32
def inf32 (neg : Bool) : Nat := infBits fp32 false neg
def one32 (neg : Bool) : Nat := signBit fp32 neg + 0x3F800000

/-- floor and remainder of a finite value m × 2^e: an integer, and a fraction of fxOne. -/
def splitFx (p : Nat) (neg : Bool) (m : Nat) (e : Int) : Int × Int :=
  let v : Int := (if neg then -(m : Int) else m)
  if e ≥ 0 then (v * 2 ^ e.toNat, 0)
  else (v / 2 ^ (-e).toNat, (v % 2 ^ (-e).toNat) * fxOne p / 2 ^ (-e).toNat)

def vExp2 (x : Nat) : Nat :=
  match decodeF fp32 x with
  | .nan => nan32
  | .inf neg => if neg then 0 else inf32 false
  | .fin neg m e =>
    if m = 0 then one32 false
    else
      -- |x| of 256 and more overflows or underflows
      let big : Bool := (Nat.log2 m : Int) + e ≥ 8
      if big then (if neg then 0 else inf32 false)
      else
        let (n, f) := splitFx 320 neg m e
        if f = 0 then roundRat fp32 false false false 1 1 n
        else decideFx (fun p => fxExp p (fxMul p (splitFx p neg m e).2 (fxLn2 p))) n (0, x)

def vLog2 (x : Nat) : Nat :=
  match decodeF fp32 x with
  | .nan => nan32
  | .inf neg => if neg then nan32 else inf32 false
  | .fin neg m e =>
    if m = 0 then inf32 true
    else if neg then nan32
    else
      let l := Nat.log2 m
      let k : Int := (l : Int) + e
      if m = 2 ^ l then roundF fp32 false false (intFV k)
      else
        decideFx (fun p => k * fxOne p + 2 * fxAtanh p (fxOf p ((m : Int) - 2 ^ l) ((m : Int) + 2 ^ l)) * fxOne p / fxLn2 p) 0 (1, x)

def vRecip (x : Nat) : Nat :=
  match decodeF fp32 x with
  | .nan => nan32
  | .inf neg => signBit fp32 neg
  | .fin neg m e => if m = 0 then inf32 neg else roundRat fp32 false false neg 1 m (-e)

/-- A square root from a radicand n × 2^(-2k), n with at least 100 bits: its floor, with a half added where it is not exact, so
that it rounds as the root does. -/
def rootBits (n : Nat) (exact : Bool) (k : Int) : Nat :=
  let q := Nat.sqrt n
  roundRat fp32 false false false (2 * q + (if exact && q * q == n then 0 else 1)) 1 (-k - 1)

def vSqrt (x : Nat) : Nat :=
  match decodeF fp32 x with
  | .nan => nan32
  | .inf neg => if neg then nan32 else inf32 false
  | .fin neg m e =>
    if m = 0 then signBit fp32 neg
    else if neg then nan32
    else
      let e' := if e % 2 = 0 then e else e - 1
      let m' := if e % 2 = 0 then m else 2 * m
      rootBits (m' * 2 ^ 120) true (60 - e' / 2)

def vRsqrt (x : Nat) : Nat :=
  match decodeF fp32 x with
  | .nan => nan32
  | .inf neg => if neg then nan32 else 0
  | .fin neg m e =>
    if m = 0 then inf32 neg
    else if neg then nan32
    else
      let e' := if e % 2 = 0 then e else e - 1
      let m' := if e % 2 = 0 then m else 2 * m
      rootBits (2 ^ 200 / m') (2 ^ 200 % m' == 0) (100 + e' / 2)

/-- x modulo 2, as a fraction of fxOne in [0, 2). Sixteen and more binary digits of the input lie below the point only where
|x| is below 2^24. -/
def mod2Fx (p : Nat) (neg : Bool) (m : Nat) (e : Int) : Int :=
  let (n, f) := splitFx p neg m e
  n % 2 * fxOne p + f

/-- sin(π t) for t in [0, 2) as a fraction of fxOne, with its sign; none where it is 0 or ±1 exactly. -/
def fxSinPi (p : Nat) (t : Int) : Int :=
  let one := fxOne p
  let (s, t) := if t ≥ one then (true, t - one) else (false, t)
  let t := if 2 * t > one then one - t else t
  -- t in [0, 1/2]
  let v := if 4 * t > one then fxCos p (fxMul p (one / 2 - t) (fxPi p)) else fxSin p (fxMul p t (fxPi p))
  if s then -v else v

def vSinpi (x : Nat) : Nat :=
  match decodeF fp32 x with
  | .nan => nan32
  | .inf _ => nan32
  | .fin neg m e =>
    let t := mod2Fx 320 neg m e
    let one := fxOne 320
    if t % one = 0 then signBit fp32 (neg && m != 0)
    else if 2 * t = one then one32 false
    else if 2 * t = 3 * one then one32 true
    else decideFx (fun p => fxSinPi p (mod2Fx p neg m e)) 0 (5, x)

def vCospi (x : Nat) : Nat :=
  match decodeF fp32 x with
  | .nan => nan32
  | .inf _ => nan32
  | .fin neg m e =>
    let t := mod2Fx 320 neg m e
    let one := fxOne 320
    if t = 0 then one32 false
    else if t = one then one32 true
    else if 2 * t = one || 2 * t = 3 * one then 0
    else decideFx (fun p => fxSinPi p ((mod2Fx p neg m e + fxOne p / 2) % (2 * fxOne p))) 0 (6, x)

/-- e^y by six squarings, for y in [0, 32]. -/
def fxExpBig (p : Nat) (y : Int) : Int :=
  let sq (v : Int) : Int := fxMul p v v
  sq (sq (sq (sq (sq (sq (fxExp p (y / 64)))))))
/-- tanh of a value n + f, f a fraction of fxOne. -/
def fxTanh (p : Nat) (n f : Int) : Int :=
  let b := fxExpBig p (2 * (n * fxOne p + f))
  (b - fxOne p) * fxOne p / (b + fxOne p)

def vTanh (x : Nat) : Nat :=
  match decodeF fp32 x with
  | .nan => nan32
  | .inf neg => one32 neg
  | .fin neg m e =>
    if m = 0 then signBit fp32 neg
    else if (Nat.log2 m : Int) + e ≥ 4 then one32 neg
    else
      let v (p : Nat) : Int := let (n, f) := splitFx p false m e; fxTanh p n f
      decideFx (fun p => if neg then -(v p) else v p) 0 (7, x)

/-- R169: the column unit's function by its code. -/
def columnFn (fn : BitVec 3) (x : Nat) : Nat :=
  match fn.toNat with
  | 0 => vExp2 x | 1 => vLog2 x | 2 => vRecip x | 3 => vRsqrt x
  | 4 => vSqrt x | 5 => vSinpi x | 6 => vCospi x | _ => vTanh x

end Sys2Proof.Machine
end

