-- ==== Sys2Proof/Machine/Vector.lean ====
section
/-! DEFINITION. Vector instructions: opcodes 0x24 to 0x2A (R149 to R172). -/

namespace Sys2Proof.Machine

/-! ### Elements (R127, R150) -/

def elem (w : Nat) (x : BitVec 512) (i : Nat) : Nat := x.toNat / 2 ^ (w * i) % 2 ^ w
def ofElems (w : Nat) (l : List Nat) : BitVec 512 := BitVec.ofNat 512 (packBits w l)

/-- Element by element, an inactive element keeping its old value. -/
def vmap (w : Nat) (active : Nat → Bool) (old : BitVec 512) (f : Nat → Nat) : BitVec 512 :=
  ofElems w ((List.range (512 / w)).map fun i => if active i then f i else elem w old i)

/-- R150: whether element i is active. -/
def activeOf (s : State) (m : Bool) (i : Nat) : Bool := !m || s.cur.vmask.getLsbD i

def src1 (vs : List (BitVec 512)) : BitVec 512 := vs.headD 0
def src2 (vs : List (BitVec 512)) : BitVec 512 := (vs.drop 1).headD 0
def src3 (vs : List (BitVec 512)) : BitVec 512 := (vs.drop 2).headD 0

/-- An instruction that reads vector and scalar sources and writes one vector destination: operands in the order of R81, the
charge, the result, HVY (R34). `part` says that part of the destination keeps its value. -/
def vOpRun (c : Charge) (vsrcs srcs : List Fld) (vd : Fld) (part : Bool)
    (f : List (BitVec 512) → List Word → BitVec 512 → BitVec 512) (s : State) : Res State :=
  match takeV vsrcs srcs (some (vd, part)) [] s with
  | .error e => .error e
  | .ok (vs, xs, s1) => .ok (advance (setHvy (writeV vd (f vs xs (s.getV vd)) (charge c s1))))

/-- The same, with the strip that a stream destination takes (R10, R265). -/
def vOp (c : Charge) (vsrcs srcs : List Fld) (vd : Fld) (part : Bool)
    (f : List (BitVec 512) → List Word → BitVec 512 → BitVec 512) (s : State) : Res State :=
  stripRun vd (vOpRun c vsrcs srcs vd part f) s

/-! ### Opcode 0x24 (R155) -/

/-- Round or narrow the exact result of an element operation. -/
def vNarrow (f : BitVec 3) (rz sat : Bool) (fl : FV) (i : Int) : Nat :=
  if isFloat f then roundF (fmtOf f) rz sat fl
  else
    let w := fmtWidth f
    natOf w (if sat then clampInt (-(2 ^ (w - 1))) (2 ^ (w - 1) - 1) i else i)

def vArith (f : BitVec 3) (rz sat : Bool) (ff : FV → FV → FV) (fi : Int → Int → Int) (x y : Nat) : Nat :=
  let w := fmtWidth f
  vNarrow f rz sat (if isFloat f then ff (decodeF (fmtOf f) x) (decodeF (fmtOf f) y) else zeroFV)
    (fi (intOf w x) (intOf w y))

/-- An element operation on two sources. -/
def vBin (c : Charge) (a b d : Fld) (m : Bool) (f : BitVec 3) (g : Nat → Nat → Nat) (s : State) : Res State :=
  let w := fmtWidth f
  vOp c [b, d] [] a m (fun vs _ old => vmap w (activeOf s m) old fun i => g (elem w (src1 vs) i) (elem w (src2 vs) i)) s

def execVadd (a b c : Fld) (st r m : Bool) (f : BitVec 3) (s : State) : Host.Outcome State Fault Refusal :=
  finish (vBin .valu a b c m f (vArith f r st FV.add (· + ·)) s)
def execVsub (a b c : Fld) (st r m : Bool) (f : BitVec 3) (s : State) : Host.Outcome State Fault Refusal :=
  finish (vBin .valu a b c m f (vArith f r st FV.sub (· - ·)) s)
def execVmul (a b c : Fld) (st r m : Bool) (f : BitVec 3) (s : State) : Host.Outcome State Fault Refusal :=
  finish (vBin .valu a b c m f (vArith f r st FV.mul (· * ·)) s)

/-- Minimum and maximum; `n` takes integers as unsigned. -/
def vMinMax (mx : Bool) (n : Bool) (f : BitVec 3) (x y : Nat) : Nat :=
  if isFloat f then (if mx then fmaxF (fmtOf f) x y else fminF (fmtOf f) x y)
  else
    let w := fmtWidth f
    let le : Bool := if n then decide (x ≤ y) else decide (intOf w x ≤ intOf w y)
    if le == mx then y else x
def execVmin (a b c : Fld) (n m : Bool) (f : BitVec 3) (s : State) : Host.Outcome State Fault Refusal :=
  finish (vBin .valu a b c m f (vMinMax false n f) s)
def execVmax (a b c : Fld) (n m : Bool) (f : BitVec 3) (s : State) : Host.Outcome State Fault Refusal :=
  finish (vBin .valu a b c m f (vMinMax true n f) s)

/-- The fused forms round once. -/
def vFused (neg : Bool) (f : BitVec 3) (x y z : Nat) : Nat :=
  let w := fmtWidth f
  let F := fmtOf f
  let zf := decodeF F z
  let zi := intOf w z
  vNarrow f false false
    (if isFloat f then ((decodeF F x).mul (decodeF F y)).add (if neg then zf.neg else zf) else zeroFV)
    (intOf w x * intOf w y + (if neg then -zi else zi))
def vFma (neg : Bool) (a b c d : Fld) (f : BitVec 3) (s : State) : Res State :=
  let w := fmtWidth f
  vOp .valu [b, c, d] [] a false (fun vs _ old => vmap w (fun _ => true) old fun i =>
    vFused neg f (elem w (src1 vs) i) (elem w (src2 vs) i) (elem w (src3 vs) i)) s
def execVfma (a b c d : Fld) (f : BitVec 3) (s : State) : Host.Outcome State Fault Refusal :=
  finish (vFma false a b c d f s)
def execVfms (a b c d : Fld) (f : BitVec 3) (s : State) : Host.Outcome State Fault Refusal :=
  finish (vFma true a b c d f s)

/-- An element operation on one source. -/
def vUn (c : Charge) (a b : Fld) (m : Bool) (f : BitVec 3) (g : Nat → Nat) (s : State) : Res State :=
  let w := fmtWidth f
  vOp c [b] [] a m (fun vs _ old => vmap w (activeOf s m) old fun i => g (elem w (src1 vs) i)) s
def vSign (f : BitVec 3) (st : Bool) (ff : FV → FV) (fi : Int → Int) (x : Nat) : Nat :=
  vNarrow f false st (if isFloat f then ff (decodeF (fmtOf f) x) else zeroFV) (fi (intOf (fmtWidth f) x))
def execVabs (a b : Fld) (st m : Bool) (f : BitVec 3) (s : State) : Host.Outcome State Fault Refusal :=
  finish (vUn .valu a b m f (vSign f st FV.abs (fun i => if i < 0 then -i else i)) s)
def execVneg (a b : Fld) (st m : Bool) (f : BitVec 3) (s : State) : Host.Outcome State Fault Refusal :=
  finish (vUn .valu a b m f (vSign f st FV.neg (fun i => -i)) s)

/-! ### Opcode 0x25 (R156 to R158) -/

def execVand (a b c : Fld) (m : Bool) (f : BitVec 3) (s : State) : Host.Outcome State Fault Refusal :=
  finish (vBin .valu a b c m f (fun x y => x &&& y) s)
def execVor (a b c : Fld) (m : Bool) (f : BitVec 3) (s : State) : Host.Outcome State Fault Refusal :=
  finish (vBin .valu a b c m f (fun x y => x ||| y) s)
def execVxor (a b c : Fld) (m : Bool) (f : BitVec 3) (s : State) : Host.Outcome State Fault Refusal :=
  finish (vBin .valu a b c m f (fun x y => x ^^^ y) s)

/-- R156: the shift amount is the low log2(w) bits. -/
def vShl (f : BitVec 3) (x y : Nat) : Nat :=
  let w := fmtWidth f
  x * 2 ^ (y % w) % 2 ^ w
def vShr (n : Bool) (f : BitVec 3) (x y : Nat) : Nat :=
  let w := fmtWidth f
  if n then x / 2 ^ (y % w) else natOf w (intOf w x / 2 ^ (y % w))
def execVshl (a b c : Fld) (m : Bool) (f : BitVec 3) (s : State) : Host.Outcome State Fault Refusal :=
  finish (vBin .valu a b c m f (vShl f) s)
def execVshr (a b c : Fld) (n m : Bool) (f : BitVec 3) (s : State) : Host.Outcome State Fault Refusal :=
  finish (vBin .valu a b c m f (vShr n f) s)

/-- R157: the order of two elements; none when unordered. -/
def vOrder (n : Bool) (f : BitVec 3) (x y : Nat) : Option Ordering :=
  if isFloat f then (decodeF (fmtOf f) x).cmp (decodeF (fmtOf f) y)
  else
    let w := fmtWidth f
    let i : Int := if n then (x : Int) else intOf w x
    let j : Int := if n then (y : Int) else intOf w y
    some (if i < j then .lt else if i = j then .eq else .gt)
def vCond (k : BitVec 3) (o : Option Ordering) : Bool :=
  match k.toNat with
  | 0 => o == some .eq
  | 1 => o != some .eq
  | 2 => o == some .lt
  | 3 => o == some .lt || o == some .eq
  | 4 => o == some .gt
  | 5 => o == some .gt || o == some .eq
  | _ => o == none

/-- R157: the mask that VCMP writes: bits 0 to N - 1 by the condition, the others 0. -/
def vcmpMask (k : BitVec 3) (n m : Bool) (f : BitVec 3) (old : Word) (x y : BitVec 512) : Word :=
  let w := fmtWidth f
  BitVec.ofNat 64 (packBits 1 ((List.range (512 / w)).map fun i =>
    if vCond k (vOrder n f (elem w x i) (elem w y i)) && (!m || old.getLsbD i) then 1 else 0))
def vcmp (k : BitVec 3) (b c : Fld) (n m : Bool) (f : BitVec 3) (s : State) : Res State :=
  match takeV [b, c] [] none [] s with
  | .error e => .error e
  | .ok (vs, _, s) =>
    .ok (advance (setHvy ((charge .valu s).onCur fun t =>
      { t with vmask := vcmpMask k n m f t.vmask (src1 vs) (src2 vs) })))
def execVcmp (k : BitVec 3) (b c : Fld) (n m : Bool) (f : BitVec 3) (s : State) : Host.Outcome State Fault Refusal :=
  finish (vcmp k b c n m f s)

/-- R158. -/
def vsel (a b c : Fld) (f : BitVec 3) (s : State) : Res State :=
  let w := fmtWidth f
  vOp .valu [b, c] [] a false (fun vs _ old => vmap w (fun _ => true) old fun i =>
    if s.cur.vmask.getLsbD i then elem w (src1 vs) i else elem w (src2 vs) i) s
def execVsel (a b c : Fld) (f : BitVec 3) (s : State) : Host.Outcome State Fault Refusal := finish (vsel a b c f s)

def vsetm (a b : Fld) (s : State) : Res State :=
  match takeS [b] [a] s with
  | .error e => .error e
  | .ok (xs, s) =>
    .ok (advance (setHvy ((writeS a s.cur.vmask (charge .valu s)).onCur fun t => { t with vmask := xs.headD 0 })))
def execVsetm (a b : Fld) (s : State) : Host.Outcome State Fault Refusal := finish (vsetm a b s)

/-! ### Opcode 0x26 (R159 to R161) -/

/-- R159: the converted register: `e` is the source format, `f` the destination's. -/
def vcvtReg (e f : BitVec 3) (p : Nat) (r st : Bool) (src old : BitVec 512) : BitVec 512 :=
  let ws := fmtWidth e
  let wd := fmtWidth f
  let n := 512 / Nat.max ws wd
  if wd < ws then
    vmap wd (fun i => decide (p * n ≤ i) && decide (i < p * n + n)) old fun i => convert e f r st (elem ws src (i - p * n))
  else vmap wd (fun _ => true) old fun i => convert e f r st (elem ws src (if ws < wd then p * n + i else i))
def execVcvt (a b : Fld) (e : BitVec 3) (p : BitVec 2) (st r : Bool) (f : BitVec 3) (s : State) :
    Host.Outcome State Fault Refusal :=
  finish (vOp .vcvt [b] [] a (decide (fmtWidth f < fmtWidth e)) (fun vs _ old => vcvtReg e f p.toNat r st (src1 vs) old) s)

/-- R160: whether a block's parameters are invalid before its scale is chosen. -/
def vqntBad (sup a : FV) : Bool :=
  (match sup with | .fin neg m _ => neg || m == 0 | _ => true) || a == .nan || a.lt zeroFV

/-- R160: the least block code whose effective scale reaches the absolute maximum. -/
def vqntCode (sup : Nat) (a : FV) : Nat :=
  ((List.range 256).find? fun k => a.le (decodeF fp32 (nqScale sup k))).getD 255

/-- R160: the block's code, its effective scale, and whether it is invalid. -/
def vqntScale (vb : BitVec 512) : Nat × FV × Bool :=
  let sup := elem 32 vb 0
  let a := decodeF fp32 (elem 32 vb 1)
  if vqntBad (decodeF fp32 sup) a then (255, zeroFV, true)
  else
    let k := vqntCode sup a
    let b := decodeF fp32 (nqScale sup k)
    if b.eq zeroFV then (255, zeroFV, true) else (k, b, false)

def xrResult (k : Nat) (bad : Bool) : Word := BitVec.ofNat 64 (k + if bad then 2 ^ 63 else 0)

/-- R167: a write of XR that waits its turn. -/
def xrPush (x : Word) (t : Task) : Task := { t with xrPend := t.xrPend ++ [{ val := x }] }

def vqnt (a b c : Fld) (p f : BitVec 3) (s : State) : Res State :=
  if s.cur.xrPend.length ≥ 15 then unitBusy 1 s
  else
    match takeV [b, c] [] (some (a, true)) [] s with
    | .error e => .error e
    | .ok (vs, _, s1) =>
      let w := fmtWidth f
      let n := 512 / w
      let lo := p.toNat * n
      let (k, sc, bad) := vqntScale (src2 vs)
      let x := vmap 4 (fun i => decide (lo ≤ i) && decide (i < lo + n)) (s.getV a) fun i =>
        if bad then 0 else nqQuant (decodeF (fmtOf f) (elem w (src1 vs) (i - lo))) sc
      .ok (advance (setHvy ((writeV a x (charge .vcvt s1)).onCur (xrPush (xrResult k bad)))))
def execVqnt (a b c : Fld) (p f : BitVec 3) (s : State) : Host.Outcome State Fault Refusal := finish (stripRun a (vqnt a b c p f) s)

/-- R161. -/
def vdqntReg (f : BitVec 3) (p : Nat) (va vb : BitVec 512) : BitVec 512 :=
  let w := fmtWidth f
  let n := 512 / w
  let b := decodeF fp32 (nqScale (elem 32 vb 0) (elem 32 vb 1 % 256))
  vmap w (fun _ => true) 0 fun i => nqValue (fmtOf f) (elem 4 va (p * n + i)) b
def execVdqnt (a b c : Fld) (p f : BitVec 3) (s : State) : Host.Outcome State Fault Refusal :=
  finish (vOp .vcvt [b, c] [] a false (fun vs _ _ => vdqntReg f p.toNat (src1 vs) (src2 vs)) s)

/-! ### Opcode 0x27 (R162 to R164) -/

def bytesV (bs : List Byte) : BitVec 512 := BitVec.ofNat 512 (leNat bs)
def vBytes (x : BitVec 512) : List Byte := leBytes 64 x.toNat

/-- R162: VLD. -/
def vld (a b : Fld) (o : BitVec 10) (s : State) : Res State :=
  match takeV [] [b] (some (a, false)) [] s with
  | .error e => .error e
  | .ok (_, xs, s) =>
    match tcmLoad b (eaOf (xs.headD 0) o.toInt 64) 64 (chargeOnce .vmem s) with
    | .error e => .error e
    | .ok (bs, s) => .ok (advance (setHvy (writeV a (bytesV bs) s)))
def execVld (a b : Fld) (o : BitVec 10) (s : State) : Host.Outcome State Fault Refusal := finish (stripRun a (vld a b o) s)

/-- R162: VST. -/
def vst (a b : Fld) (o : BitVec 10) (s : State) : Res State :=
  match takeV [a] [b] none [] s with
  | .error e => .error e
  | .ok (vs, xs, s1) =>
    match tcmStore b (eaOf (xs.headD 0) o.toInt 64) (vBytes (src1 vs)) (chargeOnce .vmem s1) with
    | .error e => .error (e.back s)
    | .ok s => .ok (advance (setHvy s))
def execVst (a b : Fld) (o : BitVec 10) (s : State) : Host.Outcome State Fault Refusal := finish (vst a b o s)

/-- R162, R245: a vector load whose address is known. -/
def vloadAt (a : Fld) (pa : Nat) (p : BitVec 3) (s : State) : Res State :=
  let ready (bs : List Byte) (s : State) : Res State := .ok (advance (setHvy (writeV a (bytesV bs) s)))
  match loadSource s pa 64 p false with
  | .own => ready (serveLocal s pa 64 none) (chargeOnce .vmem s)
  | .cached l =>
    if !l.poison.isEmpty then
      let (x, s) := (chargeOnce .vmem s).free
      .error (.err 1 x (BitVec.ofNat 64 (8 * l.poison.headD 0)) s)
    else
      ready (serveLocal s pa 64 (some l)) ((chargeOnce .vmem s).onCore fun c => { c with vcache := vcTouch l.line c.vcache })
  | .home =>
    let charged := chargeAccess pa 64 (chargeOnce .vmem s)
    if s.cur.loads.length ≥ 16 then unitBusy 0 s
    else
      .ok (advance (setHvy (charged.onCur (pushLoad
        { vec := true, dst := a, sz := 64, sext := false, pa := pa, own := ownBytes s pa 64, fill := fills s pa p false,
          reply := none, poisoned := false }))))

/-- R162: VLDS. -/
def vlds (i : Instr) (a b : Fld) (o : BitVec 10) (p : BitVec 3) (s : State) : Res State :=
  match needScope p i s with
  | .error e => .error e
  | .ok _ =>
    match takeV [] [b] (some (a, false)) [] s with
    | .error e => .error e
    | .ok (_, xs, s) =>
      if aqPending s.cur then unitBusy 0 s
      else
        match sealReady s with
        | .error e => .error e
        | .ok _ =>
          match sharedAddr .load (eaOf (xs.headD 0) o.toInt 64) 64 p s with
          | .error e => .error e
          | .ok (pa, e, s) =>
            match autoDest s e pa with
            | some d => migrateTo (some d) s.cur.pc s
            | none => vloadAt a pa p s
def execVlds (a b : Fld) (o : BitVec 10) (p : BitVec 3) (s : State) : Host.Outcome State Fault Refusal :=
  finish (stripRun a (vlds (.vlds a b o p) a b o p) s)

/-- R162: VSTS appends one record of 64 bytes. -/
def vsts (i : Instr) (a b : Fld) (o : BitVec 10) (p : BitVec 3) (s : State) : Res State :=
  match needScope p i s with
  | .error e => .error e
  | .ok _ =>
    match takeV [a] [b] none [] s with
    | .error e => .error e
    | .ok (vs, xs, s1) =>
      let ea := eaOf (xs.headD 0) o.toInt 64
      match sharedAddr .store ea 64 p s1 with
      | .error e => .error (e.back s)
      | .ok (pa, e, s1) =>
        match autoDest s1 e pa with
        | some dest => (migrateTo (some dest) s1.cur.pc s1).mapError (·.back s)
        | none =>
          match appendRec ea.toNat pa (vBytes (src1 vs)) p (chargeOnce .vmem s1) with
          | .error e => .error (e.back s)
          | .ok s => .ok (advance (setHvy s))
def execVsts (a b : Fld) (o : BitVec 10) (p : BitVec 3) (s : State) : Host.Outcome State Fault Refusal :=
  finish (vsts (.vsts a b o p) a b o p s)

/-- R163: the addresses of the active elements, in ascending element. -/
def gathAddrs (s : State) (m : Bool) (w : Nat) (base : Nat) (vi : BitVec 512) : List (Nat × Nat) :=
  ((List.range (512 / w)).filter (activeOf s m)).map fun i => (i, base + elem w vi i * (w / 8))

/-- R163: the first active element that the checks refuse. -/
def gathBad (s : State) (store : Bool) (n : Nat) (l : List (Nat × Nat)) : Option Nat :=
  (l.find? fun x => decide (x.2 + n > 131072) ||
    (store && (storeRefused112 s s.cur.priv x.2 n || storeRefused26 s x.2 n))).map (·.2)

/-- The elements at addresses of TCM. -/
def gathRead (s : State) (n : Nat) : List (Nat × Nat) → Res (List (Nat × Nat))
  | [] => .ok []
  | x :: l =>
    match tcmRead s x.2 n with
    | .error e => .error e
    | .ok bs =>
      match gathRead s n l with
      | .error e => .error e
      | .ok r => .ok ((x.1, leNat bs) :: r)

/-- R163: VGATH. -/
def vgath (a b c : Fld) (m : Bool) (f : BitVec 3) (s : State) : Res State :=
  match takeV [c] [b] (some (a, m)) [] s with
  | .error e => .error e
  | .ok (vs, xs, s1) =>
    let w := fmtWidth f
    let base := xs.headD 0
    if base.toNat % (w / 8) != 0 then trapR cALIGN base s
    else
      let l := gathAddrs s m w base.toNat (src1 vs)
      match gathBad s false (w / 8) l with
      | some ea => trapR cACCESS (BitVec.ofNat 64 ea) s
      | none =>
        match gathRead s (w / 8) l with
        | .error e => .error (e.back s)
        | .ok r =>
          let x := vmap w (fun _ => true) 0 fun i => ((r.find? fun y => y.1 == i).map (·.2)).getD (elem w (s.getV a) i)
          .ok (advance (setHvy (writeV a x (charge .vmem s1))))
def execVgath (a b c : Fld) (m : Bool) (f : BitVec 3) (s : State) : Host.Outcome State Fault Refusal :=
  finish (stripRun a (vgath a b c m f) s)

/-- R163: VSCAT writes in ascending element. -/
def scatWrite (w : Nat) (x : BitVec 512) (l : List (Nat × Nat)) (s : State) : State :=
  l.foldl (fun s y => tcmPut s y.2 (leBytes (w / 8) (elem w x y.1))) s
def vscat (a b c : Fld) (m : Bool) (f : BitVec 3) (s : State) : Res State :=
  match takeV [c, a] [b] none [] s with
  | .error e => .error e
  | .ok (vs, xs, s1) =>
    let w := fmtWidth f
    let base := xs.headD 0
    if base.toNat % (w / 8) != 0 then trapR cALIGN base s
    else
      let l := gathAddrs s m w base.toNat (src1 vs)
      match gathBad s true (w / 8) l with
      | some ea => trapR cACCESS (BitVec.ofNat 64 ea) s
      | none =>
        match l.find? fun y => tcmBusyW s y.2 (w / 8) with
        | some y => .error (.wait s.cur.st (.tcmBusy y.2 (w / 8)) s)
        | none => .ok (advance (setHvy (scatWrite w (src2 vs) l (charge .vmem s1))))
def execVscat (a b c : Fld) (m : Bool) (f : BitVec 3) (s : State) : Host.Outcome State Fault Refusal :=
  finish (vscat a b c m f s)

/-! ### Opcode 0x28 (R165) -/

def execVbcast (a b : Fld) (m : Bool) (f : BitVec 3) (s : State) : Host.Outcome State Fault Refusal :=
  let w := fmtWidth f
  finish (vOp .vperm [] [b] a m (fun _ xs old => vmap w (activeOf s m) old fun _ => (xs.headD 0).toNat % 2 ^ w) s)

/-- Element i + n of the sequence of two registers. -/
def slideReg (w n : Nat) (va vb : BitVec 512) : BitVec 512 :=
  let k := 512 / w
  vmap w (fun _ => true) 0 fun i => if i + n < k then elem w va (i + n) else elem w vb (i + n - k)
def execVslide (a b c : Fld) (n : BitVec 5) (f : BitVec 3) (s : State) : Host.Outcome State Fault Refusal :=
  finish (vOp .vperm [b, c] [] a false (fun vs _ _ => slideReg (fmtWidth f) n.toNat (src1 vs) (src2 vs)) s)

def execVperm (a b c : Fld) (m : Bool) (f : BitVec 3) (s : State) : Host.Outcome State Fault Refusal :=
  let w := fmtWidth f
  finish (vOp .vperm [b, c] [] a m (fun vs _ old => vmap w (activeOf s m) old fun i =>
    elem w (src1 vs) (elem w (src2 vs) i % (512 / w))) s)

def execVins (a b c : Fld) (f : BitVec 3) (s : State) : Host.Outcome State Fault Refusal :=
  let w := fmtWidth f
  finish (vOp .vperm [] [b, c] a true (fun _ xs old =>
    vmap w (fun i => i == ((xs.drop 1).headD 0).toNat % (512 / w)) old fun _ => (xs.headD 0).toNat % 2 ^ w) s)

def vextWord (f : BitVec 3) (x : BitVec 512) (k : Word) : Word :=
  let w := fmtWidth f
  let e := elem w x (k.toNat % (512 / w))
  if isFloat f then BitVec.ofNat 64 e else BitVec.ofInt 64 (intOf w e)
def vext (a b c : Fld) (f : BitVec 3) (s : State) : Res State :=
  match takeV [b] [c] none [a] s with
  | .error e => .error e
  | .ok (vs, xs, s) => .ok (advance (setHvy (writeS a (vextWord f (src1 vs) (xs.headD 0)) (charge .vperm s))))
def execVext (a b c : Fld) (f : BitVec 3) (s : State) : Host.Outcome State Fault Refusal := finish (vext a b c f s)

/-! ### Opcode 0x29 (R166 to R168) -/

/-- The active elements of a register. -/
def activeElems (s : State) (m : Bool) (w : Nat) (x : BitVec 512) : List Nat :=
  ((List.range (512 / w)).filter (activeOf s m)).map (elem w x)

def vrsumWord (f : BitVec 3) (l : List Nat) : Word :=
  if isFloat f then BitVec.ofNat 64 (roundF fp32 false false (FV.sum (l.map (decodeF (fmtOf f)))))
  else BitVec.ofInt 64 ((l.map (intOf (fmtWidth f))).sum)
def vrmaxWord (f : BitVec 3) (l : List Nat) : Word :=
  let w := fmtWidth f
  if isFloat f then BitVec.ofNat 64 (l.foldl (fmaxF (fmtOf f)) (infBits (fmtOf f) false true))
  else BitVec.ofInt 64 ((l.map (intOf w)).foldl max (-(2 ^ (w - 1))))
def vrminWord (f : BitVec 3) (l : List Nat) : Word :=
  let w := fmtWidth f
  if isFloat f then BitVec.ofNat 64 (l.foldl (fminF (fmtOf f)) (infBits (fmtOf f) false false))
  else BitVec.ofInt 64 ((l.map (intOf w)).foldl min (2 ^ (w - 1) - 1))
def vramaxWord (f : BitVec 3) (l : List Nat) : Word :=
  let w := fmtWidth f
  if isFloat f then BitVec.ofNat 64 ((l.map fun x => x % 2 ^ (w - 1)).foldl (fmaxF (fmtOf f)) 0)
  else BitVec.ofNat 64 ((l.map fun x => (intOf w x).natAbs).foldl Nat.max 0)

/-- R166, R167: a reduction's value takes its place among the writes of XR. -/
def vReduce (b : Fld) (m : Bool) (f : BitVec 3) (g : List Nat → Word) (s : State) : Res State :=
  if s.cur.xrPend.length ≥ 15 then unitBusy 1 s
  else
    match takeV [b] [] none [] s with
    | .error e => .error e
    | .ok (vs, _, s1) =>
      .ok (advance (setHvy ((charge .vred s1).onCur (xrPush (g (activeElems s m (fmtWidth f) (src1 vs)))))))
def execVrsum (b : Fld) (m : Bool) (f : BitVec 3) (s : State) : Host.Outcome State Fault Refusal :=
  finish (vReduce b m f (vrsumWord f) s)
def execVrmax (b : Fld) (m : Bool) (f : BitVec 3) (s : State) : Host.Outcome State Fault Refusal :=
  finish (vReduce b m f (vrmaxWord f) s)
def execVrmin (b : Fld) (m : Bool) (f : BitVec 3) (s : State) : Host.Outcome State Fault Refusal :=
  finish (vReduce b m f (vrminWord f) s)
def execVramax (b : Fld) (m : Bool) (f : BitVec 3) (s : State) : Host.Outcome State Fault Refusal :=
  finish (vReduce b m f (vramaxWord f) s)

/-- R168: XGET. -/
def xget (a : Fld) (n : BitVec 4) (s : State) : Res State :=
  match takeS [] [a] s with
  | .error e => .error e
  | .ok _ =>
    let d := (n - s.cur.xseq).toNat
    let read (s : State) : Res State := .ok (advance (setHvy (writeS a s.cur.xr (chargeOnce .vred s))))
    if s.cur.wait == some (.xget n) && d == 0 then read s
    else if d = 0 || d > s.cur.xrPend.length then read s
    else .error (.wait (heldBack s) (.xget n) s)
def execXget (a : Fld) (n : BitVec 4) (s : State) : Host.Outcome State Fault Refusal := finish (xget a n s)

/-! ### Opcode 0x2A (R169 to R172) -/

/-- R171: the core's requests that are outstanding. -/
def vtOut (s : State) : List VtPend := (s.tasks.map (·.vtPend)).flatten
def vtNext (s : State) : Nat := ((vtOut s).map (·.num)).foldl Nat.max 0 + 1

/-- R169: the result of a request. -/
def columnReg (fn : BitVec 3) (mask : BitVec 16) (x old : BitVec 512) : BitVec 512 :=
  vmap 32 (fun i => mask.getLsbD i) old fun i => columnFn fn (elem 32 x i)

/-- R169: VTRAN. The request is outstanding until its reply writes the destination, a register or a stream. -/
def vtran (a b : Fld) (m : Bool) (g : BitVec 3) (s : State) : Res State :=
  if (vtOut s).length ≥ 4 then unitBusy 2 s
  else
    match takeV [b] [] (some (a, m)) [] s with
    | .error e => .error e
    | .ok (vs, _, s1) =>
      let mask : BitVec 16 := if m then s.cur.vmask.extractLsb' 0 16 else 0xFFFF
      .ok (advance ((setHvy (charge .vtran s1)).onCur fun t => { t with vtPend := t.vtPend ++
        [{ num := vtNext s, vd := a, src := src1 vs, fn := g, mask := mask }] }))
/-- R10, R265: where an element of the strip leaves its range, the elements before it move as the instruction traps. -/
def vtranNow (a b : Fld) (m : Bool) (g : BitVec 3) (s : State) : Res State :=
  match vtran a b m g s with
  | .error e => .error e
  | .ok s => .ok ((s.cur.vtPend.getLast?.elim s fun r => writeV r.vd (columnReg r.fn r.mask r.src 0) s))
def execVtran (a b : Fld) (m : Bool) (g : BitVec 3) (s : State) : Host.Outcome State Fault Refusal :=
  finish (match stripRun a (vtranNow a b m g) s with
    | .error e => .error e
    | .ok _ => vtran a b m g s)

end Sys2Proof.Machine
end

