-- ==== Sys2Proof/Machine/Matrix.lean ====
section
/-! DEFINITION. Matrix instructions at issue: opcodes 0x2B to 0x2D (R173 to R192), the arithmetic of their commands (R176 to R180,
R188), and the checks at a command's start (R181, R185, R195, R196). The steps of the commands are in EvMatrix.lean. -/

namespace Sys2Proof.Machine

/-! ### The context (R173, R174) -/

/-- R174: a claim finds the context empty. -/
def claimMx (s : State) : State := s.onCore fun c => { c with mx := { owner := some (s.cur.tid, s.cur.origin) } }

/-- R195: a command that the task issues before the trap of an error is taken is discarded and counted. -/
def discardMx (s : State) : State := s.onCore fun c => { c with mx := { c.mx with disc := Nat.min 255 (c.mx.disc + 1) } }

/-- R173, R174: what a matrix instruction waits for before its checks. -/
def mxReady (s : State) : Res State :=
  match s.core.mx.owner with
  | none => .ok (claimMx s)
  | some _ =>
    if !ownsMx s.core s.cur then .error (.wait .waitMem .mxContext s)
    else if s.core.mx.queue.length ≥ 8 then .error (.wait (heldBack s) .mxQueue s)
    else .ok s

/-- A command of the issuing task. -/
def mkCmd (s : State) (fn : MxFn) (acc : Fld) (base : Nat) : MxCmd :=
  { fn := fn, acc := acc == 1, base := base, fmta := s.cur.fmta, fmtb := s.cur.fmtb, ptrA := s.cur.sclaPtr.toNat,
    ptrB := s.cur.sclbPtr.toNat, bar := none, barPhase := 0, dst := 0, amax := 0, fmt := 0, sat := false,
    tid := s.cur.tid, origin := s.cur.origin, stamp := s.cur.stamp.toNat, seg := s.cur.openSeg, part := s.cur.partCtr,
    priv := s.cur.priv, started := false, moved := 0 }

def pushCmd (m : MxCmd) (s : State) : State := s.onCore fun c => { c with mx := { c.mx with queue := c.mx.queue ++ [m] } }

/-- R175, R223: the command enters the queue as the task's next engine operation; HVY is set (R174). -/
def mxEnqueue (f : State → MxCmd) (escapes : Bool) (s : State) : Res State :=
  match takePart s with
  | .error e => .error e
  | .ok s =>
    let s := if escapes then escapeCur s else s
    .ok (advance (setHvy (pushCmd (f s) s)))

/-- R173, R174, R195: an instruction that issues a command, with its own checks. -/
def mxIssue (checks : State → Res Unit) (f : State → MxCmd) (escapes : Bool) (c : Option Charge) (s : State) : Res State :=
  match mxReady s with
  | .error e => .error e
  | .ok s1 =>
    if s1.core.mx.err then .ok (advance (setHvy (discardMx s1)))
    else
      match checks s with
      | .error e => .error e
      | .ok _ => mxEnqueue f escapes (match c with | none => s1 | some c => chargeOnce c s1)

/-! ### Issue -/

/-- R181: the checks on a tile address and a barrier. -/
def tileCheck (a : Word) (bar : Option (BitVec 6)) (s : State) : Res Unit :=
  if a.toNat % 64 != 0 then trapR cALIGN a s
  else if a.toNat ≥ 131072 then trapR cACCESS a s
  else match bar with
    | none => .ok ()
    | some n => if !(s.bar n).init then barTrap n s else .ok ()

def barOf (n : BitVec 6) (w : Bool) : Option (BitVec 6) := if w then some n else none
def withBar (n : BitVec 6) (w : Bool) (s : State) (m : MxCmd) : MxCmd :=
  { m with bar := barOf n w, barPhase := (s.bar n).phase }

/-- R181, R185: MMA, MMAS and MLATCH. -/
def mxTile (fn : MxFn) (acc b : Fld) (n : BitVec 6) (w : Bool) (c : Option Charge) (s : State) : Res State :=
  match needRegs [b] s with
  | .error e => .error e
  | .ok _ =>
    mxIssue (tileCheck (s.rw b) (barOf n w)) (fun s => withBar n w s (mkCmd s fn acc (s.rw b).toNat)) false c s
def execMma (a b : Fld) (n : BitVec 6) (w : Bool) (s : State) : Host.Outcome State Fault Refusal :=
  finish (mxTile .mma a b n w none s)
def execMmas (a b : Fld) (n : BitVec 6) (w : Bool) (s : State) : Host.Outcome State Fault Refusal :=
  finish (mxTile .mmas a b n w none s)
def execMlatch (b : Fld) (n : BitVec 6) (w : Bool) (s : State) : Host.Outcome State Fault Refusal :=
  finish (mxTile .mlatch 0 b n w (some .mctl) s)

/-- R184: MZERO. -/
def execMzero (a : Fld) (s : State) : Host.Outcome State Fault Refusal :=
  finish (mxIssue (fun _ => .ok ()) (fun s => mkCmd s .mzero a 0) false (some .mctl) s)

/-- R186: MROT needs a barrier of eight arrivals. -/
def execMrot (n : BitVec 6) (s : State) : Host.Outcome State Fault Refusal :=
  finish (mxIssue (fun s => if (s.bar n).init && (s.bar n).count == 8 then .ok () else barTrap n s)
    (fun s => withBar n true s (mkCmd s .mrot 0 0)) false (some .mctl) s)

/-- R182, R186: whether the head command waits on its barrier. -/
def headWaits (s : State) : Option (BitVec 6) :=
  match s.core.mx.queue with
  | [] => none
  | m :: _ =>
    match m.bar with
    | none => none
    | some n => if (m.started && m.fn != .mrot) || phasePassed (s.bar n) m.barPhase then none else some n

/-- R187. -/
def mstatWord (s : State) : Word :=
  let m := s.core.mx
  (0#24 ++ m.done ++ BitVec.ofNat 8 m.disc ++ BitVec.ofNat 5 m.hist1.length ++ BitVec.ofNat 5 m.hist0.length
    ++ BitVec.ofBool m.k1 ++ BitVec.ofBool m.k0 ++ BitVec.ofBool (headWaits s).isSome ++ 0#1 ++ (headWaits s).getD 0
    ++ BitVec.ofNat 4 m.queue.length : BitVec 64)
def mstat (a : Fld) (s : State) : Res State :=
  match takeS [] [a] s with
  | .error e => .error e
  | .ok _ => .ok (advance (setHvy (writeS a (mstatWord s) (charge .mctl s))))
def execMstat (a : Fld) (s : State) : Host.Outcome State Fault Refusal := finish (mstat a s)

/-- R188: the issue checks of MDRAIN. -/
def mdrainCheck (d x : Word) (f : BitVec 3) (s : State) : Res Unit :=
  let n := tileBytes f
  let am (s : State) : Res Unit :=
    if x.toNat % 4 != 0 then trapR cALIGN x s else if x.toNat ≥ 2 ^ 56 then trapR cACCESS x s else .ok ()
  if d.getLsbD 63 then
    let t := (d.extractLsb' 0 17).toNat
    if d.extractLsb' 17 46 != 0 then trapR cACCESS d s
    else if t % 64 != 0 then trapR cALIGN d s
    else if t + n > 131072 || storeRefused112 s s.cur.priv t n then trapR cACCESS d s
    else am s
  else if d.toNat % 64 != 0 then trapR cALIGN d s
  else if d.toNat + n > 2 ^ 56 then trapR cACCESS d s
  else am s

/-- R188: MDRAIN; one that writes shared memory escapes (R254). -/
def mdrain (a b c : Fld) (st : Bool) (f : BitVec 3) (s : State) : Res State :=
  match needRegs [b, c] s with
  | .error e => .error e
  | .ok _ =>
    let d := s.rw b
    let x := s.rw c
    mxIssue (mdrainCheck d x f) (fun s => { mkCmd s .mdrain a 0 with dst := d, amax := x, fmt := f, sat := st })
      (!d.getLsbD 63 || x != 0) (some .mdrn) s
def execMdrain (a b c : Fld) (st : Bool) (f : BitVec 3) (s : State) : Host.Outcome State Fault Refusal :=
  finish (mdrain a b c st f s)

/-! ### Tiles and scale records (R142, R176) -/

/-- Element i of packed bytes. -/
def packedElem (w : Nat) (bs : List Byte) (i : Nat) : Nat :=
  if w = 4 then (bs.getD (i / 2) 0).toNat / 16 ^ (i % 2) % 16
  else leNat ((bs.drop (i * (w / 8))).take (w / 8))

/-- R142: a scale record: codes, super-scale, sequence number. -/
structure ScaleRec where
  codes : List Byte
  sup : BitVec 32
  seq : BitVec 16
  deriving DecidableEq, Repr
/-- R142: the record at an address. No rule says what a PTR does that is not 8-byte aligned: its 72 bytes are read where it points (log
entry 92). -/
def scaleRec (s : State) (a : Nat) : ScaleRec :=
  let bs := tcmBytes s a 72
  { codes := bs.take 64, sup := BitVec.ofNat 32 (leNat ((bs.drop 64).take 4)),
    seq := BitVec.ofNat 16 (leNat ((bs.drop 68).take 2)) }

/-- R177: the classes of format pairs. -/
inductive MxClass where
  | float8 | int8 | float16
  deriving DecidableEq, Repr
def mxClass (fa fb : BitVec 3) : Option MxClass :=
  let f8 (f : BitVec 3) : Bool := f == 3 || f == 4 || f == 7
  let f16 (f : BitVec 3) : Bool := f == 1 || f == 2
  if f8 fa && f8 fb then some .float8
  else if fa == 5 && fb == 5 then some .int8
  else if f16 fa && f16 fb then some .float16
  else none

/-! ### Summation (R178 to R180) -/

/-- value(x) of an element. -/
def mxValue (f : BitVec 3) (x : Nat) : FV := if f = 7 then nqLevel x else decodeF (fmtOf f) x

def rne32 (x : FV) : FV := decodeF fp32 (roundF fp32 false false x)

/-- Two rows of 64 elements. -/
structure MxRows where
  fa : BitVec 3
  fb : BitVec 3
  a : List Nat
  b : List Nat
  fac : FV
  sup : FV
  deriving DecidableEq, Repr

def mxProducts (r : MxRows) : List FV :=
  (r.a.zip r.b).map fun x => (mxValue r.fa x.1).mul (mxValue r.fb x.2)

/-- R178: the sum of an element of the 8-bit float class. -/
def mxDot8 (r : MxRows) : FV :=
  let d := FV.sum (mxProducts r)
  if r.fa = 7 ∨ r.fb = 7 then rne32 ((rne32 (d.mul r.fac)).mul r.sup) else d

/-- R180: one level of the tree. -/
def treeLevel : List FV → List FV
  | x :: y :: l => rne32 (x.add y) :: treeLevel l
  | l => l
def mxDot16 (r : MxRows) : FV :=
  ((treeLevel (treeLevel (treeLevel (treeLevel (treeLevel (treeLevel (mxProducts r))))))).head?).getD zeroFV

/-- R179. -/
def mxDotI (r : MxRows) : Int := ((r.a.zip r.b).map fun x => intOf 8 x.1 * intOf 8 x.2).sum

/-- One element of the accumulator after a command; `old` is none for MMAS. -/
def mxElem (k : MxClass) (r : MxRows) (old : Option (BitVec 32)) : BitVec 32 :=
  let f (d : FV) : BitVec 32 :=
    BitVec.ofNat 32 (roundF fp32 false false (match old with | none => d | some o => (decodeF fp32 o.toNat).add d))
  match k with
  | .float8 => f (mxDot8 r)
  | .float16 => f (mxDot16 r)
  | .int8 => BitVec.ofInt 32 ((match old with | none => 0 | some o => o.toInt) + mxDotI r)

/-- R140, R178: the factor of a row or column; 1 where the operand is not NQ4. -/
def blockFac (f : BitVec 3) (codes : List Byte) (j : Nat) : FV :=
  if f = 7 then nqFactor (codes.getD j 0).toNat else .fin false 1 0
def superOf (f : BitVec 3) (sup : BitVec 32) : FV := if f = 7 then decodeF fp32 sup.toNat else .fin false 1 0

/-- The rows that give element (m, n). -/
def mxRows (fa : BitVec 3) (a : List Byte) (ra : ScaleRec) (l : Latch) (m n : Nat) : MxRows :=
  { fa := fa, fb := l.fmt,
    a := (List.range 64).map fun k => packedElem (fmtWidth fa) a (64 * m + k),
    b := (List.range 64).map fun k => packedElem (fmtWidth l.fmt) l.tile (64 * n + k),
    fac := (blockFac fa ra.codes m).mul (blockFac l.fmt l.codes n),
    sup := (superOf fa ra.sup).mul (superOf l.fmt l.sup) }

/-- R178 to R180: the accumulator after an MMA or MMAS. -/
def mxCompute (k : MxClass) (set : Bool) (fa : BitVec 3) (a : List Byte) (ra : ScaleRec) (l : Latch)
    (acc : List (BitVec 32)) : List (BitVec 32) :=
  (List.range 4096).map fun i =>
    mxElem k (mxRows fa a ra l (i / 64) (i % 64)) (if set then none else some (acc.getD i 0))

/-! ### Starting a command (R181, R185, R195) -/

def MxCtx.acc (m : MxCtx) (a : Bool) : List (BitVec 32) := if a then m.acc1 else m.acc0
def MxCtx.kind (m : MxCtx) (a : Bool) : Bool := if a then m.k1 else m.k0
def MxCtx.absent (m : MxCtx) (a : Bool) : BitVec 16 := if a then m.absent1 else m.absent0
def MxCtx.hist (m : MxCtx) (a : Bool) : List MxHist := if a then m.hist1 else m.hist0
def MxCtx.chk (m : MxCtx) (a : Bool) : Bool := if a then m.chk1 else m.chk0
/-- An accumulator written whole: its contents, its kind, its history, whether its base is a checkpoint; it is present afterwards (R184,
R197, R198). -/
def MxCtx.setAcc (m : MxCtx) (a : Bool) (x : List (BitVec 32)) (k : Bool) (h : List MxHist) (chk : Bool) : MxCtx :=
  if a then { m with acc1 := x, k1 := k, hist1 := h, absent1 := 0, chk1 := chk }
  else { m with acc0 := x, k0 := k, hist0 := h, absent0 := 0, chk0 := chk }

/-- R196, R143: why a command fails at its start: cause and TVAL. -/
abbrev MxFail := BitVec 6 × Word
def mxErr (code detail : Nat) : MxFail := (cENGINE, BitVec.ofNat 64 (8 * 2 ^ 60 + code * 2 ^ 48 + detail % 2 ^ 48))
def seqFail (want got : BitVec 16) : MxFail := (cSCALESEQ, (0#32 ++ want ++ got : BitVec 64))

/-- The sequence number expected for an operand: that of the live owner, or of one that has ended. -/
def seqOf (s : State) (m : MxCmd) (b : Bool) : BitVec 16 :=
  match s.tasks.find? fun t => sameTask t m.tid m.origin with
  | some t => if b then t.sclbSeq else t.sclaSeq
  | none => if b then s.core.mx.seqB else s.core.mx.seqA

def seqBump (m : MxCmd) (b : Bool) (s : State) : State :=
  let s := s.mapTasks (fun t => t.st != .ended && sameTask t m.tid m.origin) fun t =>
    if b then { t with sclbSeq := t.sclbSeq + 1 } else { t with sclaSeq := t.sclaSeq + 1 }
  s.onCore fun c =>
    { c with mx := if b then { c.mx with seqB := c.mx.seqB + 1 } else { c.mx with seqA := c.mx.seqA + 1 } }

/-- R181: the checks of MMA and MMAS at the start, in order. -/
def mmaCheck (s : State) (m : MxCmd) : Option MxFail :=
  let lf := s.core.mx.cur.fmt
  match mxClass m.fmta lf with
  | none => some (mxErr 1 (m.fmta.toNat * 8 + lf.toNat))
  | some _ =>
    if lf != m.fmtb then some (mxErr 2 lf.toNat)
    else if m.base + tileBytes m.fmta > 131072 then some (mxErr 3 m.base)
    else if m.fmta != 7 then none
    else if m.ptrA + 72 > 131072 then some (mxErr 3 m.ptrA)
    else if (scaleRec s m.ptrA).seq != seqOf s m false then some (seqFail (seqOf s m false) (scaleRec s m.ptrA).seq)
    else none

/-- R185: the checks of MLATCH at the start, in order. -/
def mlatchCheck (s : State) (m : MxCmd) : Option MxFail :=
  if m.fmtb == 0 || m.fmtb == 6 then some (mxErr 1 (m.fmtb.toNat * 8))
  else if m.base + tileBytes m.fmtb > 131072 then some (mxErr 3 m.base)
  else if m.fmtb != 7 then none
  else if m.ptrB + 72 > 131072 then some (mxErr 3 m.ptrB)
  else if (scaleRec s m.ptrB).seq != seqOf s m true then some (seqFail (seqOf s m true) (scaleRec s m.ptrB).seq)
  else none

/-- R197: an accumulator's history with one more command; a seventeenth takes a checkpoint first. -/
def histAdd (h : MxHist) (l : List MxHist) : List MxHist := if l.length ≥ 16 then [h] else l ++ [h]

/-- R178 to R181: the effect of an MMA or MMAS that has passed its checks. -/
def mmaRun (s : State) (m : MxCmd) : State :=
  let c := s.core.mx
  let set := m.fn == .mmas
  let nq := m.fmta == 7
  let ra : ScaleRec := if nq then scaleRec s m.ptrA else { codes := [], sup := 0, seq := 0 }
  match mxClass m.fmta c.cur.fmt with
  | none => s
  | some k =>
    let x := mxCompute k set m.fmta (tcmBytes s m.base (tileBytes m.fmta)) ra c.cur (c.acc m.acc)
    let h : MxHist := { a := m.base, n := tileBytes m.fmta, rec_ := if nq then some m.ptrA else none }
    let chk := !set && (c.chk m.acc || decide ((c.hist m.acc).length ≥ 16))
    let s := s.onCore fun co =>
      { co with mx := co.mx.setAcc m.acc x (k == .int8) (if set then [] else histAdd h (c.hist m.acc)) chk }
    let s := charge (if k == .float16 then .mma16 else .mma8) s
    if nq then seqBump m false s else s

/-- R185: the tile that MLATCH reads. -/
def mlatchRun (s : State) (m : MxCmd) : State :=
  let nq := m.fmtb == 7
  let r := scaleRec s m.ptrB
  let l : Latch := { fmt := m.fmtb, tile := tcmBytes s m.base (tileBytes m.fmtb), codes := if nq then r.codes else [],
                     sup := if nq then r.sup else 0 }
  let s := s.onCore fun c => { c with mx := { c.mx with load := l } }
  if nq then seqBump m true s else s

/-- R185, R197: the loading buffer becomes current; a checkpoint precedes it where a history holds a command of the old tile. -/
def latchSwitch (l : Latch) (m : MxCtx) : MxCtx :=
  { m with cur := l, hist0 := [], hist1 := [], chk0 := chkAfter m.chk0 m.hist0 [], chk1 := chkAfter m.chk1 m.hist1 [] }

/-! ### Draining (R188) -/

/-- |x| as FP32. -/
def drainAbs (k : Bool) (x : BitVec 32) : Nat :=
  if k then roundF fp32 false false (intFV x.toInt.natAbs) else x.toNat % 2 ^ 31
def drainMax (k : Bool) (acc : List (BitVec 32)) : Nat :=
  (List.range 4096).foldl (fun a i => fmaxF fp32 a (drainAbs k (acc.getD i 0))) 0
/-- Bytes of unit u of the output. -/
def drainUnit (k : Bool) (f : BitVec 3) (sat : Bool) (acc : List (BitVec 32)) (u : Nat) : List Byte :=
  let w := fmtWidth f
  let n := 512 / w
  vBytes (ofElems w ((List.range n).map fun i => convert (if k then 6 else 0) f false sat (acc.getD (u * n + i) 0).toNat))

end Sys2Proof.Machine
end

