-- ==== Sys2Proof/Machine/Func.lean ====
section
/-! DEFINITION. Function-register instructions: opcodes 0x2E to 0x30 (R199 to R218): the coefficient pool, truncation, and the
arithmetic of each instruction. -/

namespace Sys2Proof.Machine

/-! ### Registers and the pool (R199 to R202) -/

def fIdx (f : Fld) : BitVec 3 := f.extractLsb' 0 3
def Task.freg (t : Task) (f : Fld) : FReg := (t.f[(fIdx f).toNat]?).getD {}
def setFreg (f : Fld) (r : FReg) (t : Task) : Task := { t with f := t.f.setIfInBounds (fIdx f).toNat r }

/-- R200: granules of a length. -/
def granules (n : Nat) : Nat := (n + 7) / 8

/-- The coefficients of a register, as FP32 patterns. -/
def coefsOf (c : CoreSt) (r : FReg) : List Nat :=
  (List.range r.n.toNat).map fun i => (tabGet c.pool 0 (8 * r.p.toNat + i)).toNat

def poolUsed (c : CoreSt) : Nat := (c.runs.map (·.len)).sum
def poolFree (c : CoreSt) : Nat := 256 - poolUsed c

/-- R200: the lowest gap of g granules from granule `lo` on, between runs in ascending order. -/
def gapFrom (g lo : Nat) : List PoolRun → Option Nat
  | [] => if lo + g ≤ 256 then some lo else none
  | r :: rs => if lo + g ≤ Nat.min r.at_ 256 then some lo else gapFrom g (r.at_ + r.len) rs

/-- R200: the runs moved toward granule 0, in ascending order. -/
def packRuns (next : Nat) : List PoolRun → List PoolRun
  | [] => []
  | r :: rs => { r with at_ := next } :: packRuns (next + r.len) rs

/-- The slots of a run copied to a new pool. -/
def copySlots (old : Tab (BitVec 32)) (src dst n : Nat) (acc : Tab (BitVec 32)) : Tab (BitVec 32) :=
  (List.range n).foldl (fun a i => tabSet a (dst + i) (tabGet old 0 (src + i))) acc

/-- R401: a poisoned slot keeps its mark when its run moves. -/
def movePoison (old new : List PoolRun) (l : List Nat) : List Nat :=
  l.filterMap fun k => (old.zip new).findSome? fun x =>
    if 8 * x.1.at_ ≤ k && k < 8 * (x.1.at_ + x.1.len) then some (k - 8 * x.1.at_ + 8 * x.2.at_) else none
/-- R200: compaction changes places and no value. -/
def compactPool (s : State) : State :=
  let old := s.core.runs
  let new := packRuns 0 old
  let pool := (old.zip new).foldl (fun a x => copySlots s.core.pool (8 * x.1.at_) (8 * x.2.at_) (8 * x.1.len) a) []
  let s := s.onCore fun c => { c with runs := new, pool := pool, poolPoison := movePoison old new c.poolPoison }
  (new.filter fun r => r.rel.isNone).foldl (fun s r =>
    s.mapTasks (fun t => t.frame == r.frame && t.st != .ended && !t.shadow) fun t =>
      setFreg (r.reg.setWidth 5) { t.freg (r.reg.setWidth 5) with p := BitVec.ofNat 8 r.at_ } t) s

/-- R200: room for g granules, at the lowest place long enough. -/
def allocPool (g : Nat) (s : State) : Option (Nat × State) :=
  if poolFree s.core < g then none
  else
    match gapFrom g 0 s.core.runs with
    | some p => some (p, s)
    | none =>
      let s := compactPool s
      (gapFrom g 0 s.core.runs).map fun p => (p, s)

/-- R202: a register's granules wait for its instruction to leave the replay queue, whose own retirement counts first. -/
def releaseRuns (frame : Nat) (k : BitVec 3) (l : List PoolRun) : List PoolRun :=
  l.map fun r => if r.frame == frame && r.reg == k && r.rel.isNone then { r with rel := some 9 } else r
/-- R202: a register emptied; it keeps its domain. -/
def releaseF (f : Fld) (s : State) : State :=
  (s.onCore fun c => { c with runs := releaseRuns s.cur.frame (fIdx f) c.runs }).onCur fun t =>
    setFreg f { t.freg f with n := 0, absent := 0 } t
def releaseAll (l : List Fld) (s : State) : State := l.foldl (fun s f => releaseF f s) s

def insertRun (r : PoolRun) : List PoolRun → List PoolRun
  | [] => [r]
  | x :: l => if r.at_ < x.at_ then r :: x :: l else x :: insertRun r l

/-- R201, R202: a register takes a result; sources marked `.lr` become empty. `s0` is the state that a trap leaves, as
every trap of a function instruction does: nothing is charged (log entry 48). -/
def storeF (s0 : State) (f : Fld) (a b : BitVec 32) (cs : List Nat) (lrs : List Fld) (s : State) : Res State :=
  let g := granules cs.length
  match allocPool g s with
  | none => trapR cFPOOL (BitVec.ofNat 64 g) s0
  | some (p, s) =>
    let s := releaseAll (f :: lrs) s
    let s := s.onCore fun c => { c with
      runs := insertRun { at_ := p, len := g, frame := s.cur.frame, reg := fIdx f, rel := none } c.runs,
      pool := (cs.zip (List.range cs.length)).foldl (fun t x => tabSet t (8 * p + x.2) (BitVec.ofNat 32 x.1)) c.pool,
      poolPoison := c.poolPoison.filter fun k => k < 8 * p || 8 * p + cs.length ≤ k }
    .ok (s.onCur (setFreg f { a := a, b := b, n := BitVec.ofNat 9 cs.length, p := BitVec.ofNat 8 p }))

/-! ### Arithmetic on patterns -/

def fpv (x : Nat) : FV := decodeF fp32 x
def rne (x : FV) : Nat := roundF fp32 false false x
def halfFV (x : FV) : FV := x.mul (.fin false 1 (-1))
def isZeroFV : FV → Bool
  | .fin _ m _ => m == 0
  | _ => false
def isFinFV : FV → Bool
  | .fin .. => true
  | _ => false

/-- RNE32 of an exact quotient by a finite value that is not zero; an exact zero is +0. -/
def divRne (x y : FV) (d : Nat) : Nat :=
  match x, y with
  | .nan, _ => canonNaN fp32
  | .inf s, _ => infBits fp32 false (s != y.isNeg)
  | .fin s m e, .fin t n f => if m = 0 then 0 else roundRat fp32 false false (s != t) m (n * d) (e - f)
  | .fin .., _ => 0

/-- R215: the recurrence over c(k) for k from the last down to 1. -/
def clenStep (t : FV) (uv : FV × FV) (c : Nat) : FV × FV :=
  (fpv (rne ((((FV.fin false 2 0).mul (t.mul uv.1)).sub uv.2).add (fpv c))), uv.1)
def clenshaw (cs : List Nat) (t : Nat) : Nat :=
  let (u, v) := ((cs.drop 1).reverse).foldl (clenStep (fpv t)) (zeroFV, zeroFV)
  rne ((((fpv t).mul u).sub v).add (fpv (cs.headD 0)))

/-! ### Truncation (R203) -/

/-- The tails from tail(m) = +0 down to tail(1), the last first. -/
def tailsOf (cs : List Nat) : List Nat :=
  (((cs.drop 1).reverse).foldl (fun acc c => rne ((fpv (acc.headD 0)).add (fpv c).abs) :: acc) [0])

/-- The length that FTOL leaves. -/
def truncLen (ftol : BitVec 32) (cs : List Nat) : Nat :=
  let sum := rne (FV.sum (cs.map fun c => (fpv c).abs))
  let theta := fpv (rne ((fpv ftol.toNat).mul (fpv sum)))
  if theta == .nan || fpv sum == .inf false then cs.length
  else
    match (tailsOf cs).findIdx? fun t => (fpv t).le theta with
    | some k => k + 1
    | none => cs.length

/-- The coefficients kept, and whether FX is set. -/
def truncF (t : Task) (cs : List Nat) : List Nat × Bool :=
  let k := truncLen t.ftol cs
  if k > t.fmaxn.toNat then (cs.take t.fmaxn.toNat, true) else (cs.take k, false)

def setFx (x : Bool) (s : State) : State := s.onCur fun t => { t with fx := t.fx || x }

/-! ### Sources and results -/

def fdomTrap {α : Type} (detail : BitVec 8) (f : Fld) (s : State) : Res α := trapD cFDOM detail (fldW f) s

/-- R207: the first empty source. -/
def needFull : List Fld → State → Res Unit
  | [], _ => .ok ()
  | f :: r, s => if (s.cur.freg f).n = 0 then fdomTrap 0x03 f s else needFull r s

/-- R205: an absent granule of a source is filled first. -/
def needPresent : List Fld → State → Res Unit
  | [], _ => .ok ()
  | f :: r, s =>
    match (List.range 32).find? fun g => (s.cur.freg f).absent.getLsbD g with
    | some g => .error (.wait .waitMem (.fill (.coef (fIdx f) g)) s)
    | none => needPresent r s

/-- R200, R401, R404: a source with an uncorrectable slot is consumed. -/
def poolBad (c : CoreSt) (r : FReg) : Bool := c.poolPoison.any fun k => 8 * r.p.toNat ≤ k && k < 8 * r.p.toNat + r.n.toNat
def needClean (l : List Fld) (s : State) : Res Unit :=
  if l.any fun f => poolBad s.core (s.cur.freg f) then
    let (x, s) := s.free
    .error (.err 1 x 0 s)
  else .ok ()
def needReady (l : List Fld) (s : State) : Res Unit :=
  match needPresent l s with
  | .error e => .error e
  | .ok _ => needClean l s

def fSources (l : List Fld) (s : State) : Res Unit :=
  match needFull l s with
  | .error e => .error e
  | .ok _ => needReady l s

/-- R204: once per granule of the larger of the longest source and the result. -/
def chargeN (c : Charge) : Nat → State → State
  | 0, s => s
  | n + 1, s => chargeN c n (charge c s)
def fCharge (c : Charge) (srcs : List Fld) (n : Nat) (s : State) : State :=
  chargeN c (Nat.max 1 (granules (((srcs.map fun f => (s.cur.freg f).n.toNat)).foldl Nat.max n))) s

/-- The fields that carry `.lr`. -/
def lrOf (f : Fld) (on : Bool) : List Fld := if on then [f] else []

/-- The end of an instruction whose result is a register: truncated, charged, stored. -/
def fResult (s0 : State) (c : Charge) (srcs : List Fld) (fa : Fld) (a b : BitVec 32) (cs : List Nat) (trunc fx : Bool)
    (lrs : List Fld) (s : State) : Res State :=
  let (cs, x) := if trunc then truncF s.cur cs else (cs, false)
  match storeF s0 fa a b cs lrs (fCharge c srcs cs.length s) with
  | .error e => .error e
  | .ok s => .ok (advance (setHvy (setFx (x || fx) s)))

/-! ### Opcode 0x2E (R208, R209) -/

/-- R208: FADD, FSUB and FMUL: one shape. -/
def fBin (f : List Nat → List Nat → List Nat) (a b c : Fld) (l k : Bool) (s : State) : Res State :=
  match needFull [b, c] s with
  | .error e => .error e
  | .ok _ =>
    let p := s.cur.freg b
    let q := s.cur.freg c
    if p.a != q.a || p.b != q.b then fdomTrap 0x01 c s
    else
      match needReady [b, c] s with
      | .error e => .error e
      | .ok _ =>
        fResult s .falg [b, c] a p.a p.b (f (coefsOf s.core p) (coefsOf s.core q)) true false (lrOf b k ++ lrOf c l) s

def addCoefs (neg : Bool) (p q : List Nat) : List Nat :=
  (List.range (Nat.max p.length q.length)).map fun i =>
    let y := fpv (q.getD i 0)
    rne ((fpv (p.getD i 0)).add (if neg then y.neg else y))

/-- The pairs of indices whose products make coefficient i. -/
def mulPairs (n m i : Nat) : List (Nat × Nat) :=
  ((List.range (i + 1)).map fun j => (j, i - j)).filter (fun x => x.1 < n && x.2 < m)
    ++ (((List.range n).map fun j => (j, j - i)).filter fun x => i ≤ x.1 && x.2 < m)
    ++ (if i = 0 then [] else ((List.range m).map fun k => (k - i, k)).filter fun x => i ≤ x.2 && x.1 < n)
def mulCoefs (p q : List Nat) : List Nat :=
  (List.range (p.length + q.length - 1)).map fun i =>
    rne (halfFV (FV.sum ((mulPairs p.length q.length i).map fun x => (fpv (p.getD x.1 0)).mul (fpv (q.getD x.2 0)))))

def execFadd (a b c : Fld) (l k : Bool) (s : State) : Host.Outcome State Fault Refusal :=
  finish (fBin (addCoefs false) a b c l k s)
def execFsub (a b c : Fld) (l k : Bool) (s : State) : Host.Outcome State Fault Refusal :=
  finish (fBin (addCoefs true) a b c l k s)
def execFmul (a b c : Fld) (l k : Bool) (s : State) : Host.Outcome State Fault Refusal :=
  finish (fBin mulCoefs a b c l k s)

/-- R208: FSCAL. A trap of its scalar operand (R81) comes before that of an empty source (log entry 93). -/
def fscal (a b c : Fld) (k : Bool) (s : State) : Res State :=
  match takeS [c] [] s with
  | .error e => .error e
  | .ok (xs, s1) =>
    match fSources [b] s with
    | .error e => .error e
    | .ok _ =>
      let p := s.cur.freg b
      let x := fpv ((xs.headD 0).toNat % 2 ^ 32)
      fResult s .falg [b] a p.a p.b ((coefsOf s.core p).map fun y => rne (x.mul (fpv y))) true false (lrOf b k) s1
def execFscal (a b c : Fld) (k : Bool) (s : State) : Host.Outcome State Fault Refusal := finish (fscal a b c k s)

/-! ### Exact cosines (R209, R214) -/

/-- cos(2π e / N) in fixed point, to within `fxErr`. -/
def fxCosTurn (e n p : Nat) : Int := fxSinPi p (((2 * e : Nat) * fxOne p / (n : Int) + fxOne p / 2) % (2 * fxOne p))

/-- R209: RNE32(cos(π (j + 1/2) / m)). -/
def tauOf (j m : Nat) : Nat :=
  let e := 2 * j + 1
  if e = m then 0 else roundAlg (fxCosTurn e (4 * m)) fxErr 1 1 0

/-- The power of a prime that divides N. -/
def primePart (p n : Nat) : Nat → Nat
  | 0 => 1
  | k + 1 => if n % p = 0 then p * primePart p (n / p) k else 1
def primesOf (n : Nat) : List Nat :=
  (List.range (n + 1)).filter fun p => decide (2 ≤ p) && n % p == 0 && (List.range p).all fun d => decide (d < 2) || p % d != 0

/-- A sum of N-th roots of unity, as its list of N integer coefficients, with the power ζ^a of each class modulo N/p whose
place a has the greatest digit at p replaced by minus the sum of the others. Once every prime divisor has been taken, the powers
left are a basis of the N-th cyclotomic field. -/
def reduceAt (n p : Nat) (v : List Int) : List Int :=
  let q := primePart p n n
  let top := q - q / p
  (List.range n).map fun a =>
    if a % q ≥ top then 0
    else
      let t := ((List.range p).map fun k => (a + k * (n / p)) % n).find? fun x => x % q ≥ top
      v.getD a 0 - (match t with | none => 0 | some x => v.getD x 0)

/-- The sum where it is rational. -/
def rationalOf (n : Nat) (v : List Int) : Option Int :=
  let r := (primesOf n).foldl (fun v p => reduceAt n p v) v
  if (r.drop 1).all (· == 0) then some (r.headD 0) else none

/-- A finite sample in units of 2^-149. -/
def unitsOf (x : FV) : Int :=
  match x with
  | .fin s m e => let k : Int := (m : Int) * 2 ^ (e + 149).toNat
                  if s then -k else k
  | _ => 0

/-- R214: the exponents k (2j + 1) modulo 4n. -/
def dctExps (n k : Nat) : List Nat := (List.range n).map fun j => k * (2 * j + 1) % (4 * n)
/-- Twice the sum of y(j) cos(2π e(j) / 4n) as a sum of roots of unity. -/
def dctVec (n : Nat) (l : List (Int × Nat)) : List Int :=
  l.foldl (fun v x => (v.modify x.2 (· + x.1)).modify ((4 * n - x.2) % (4 * n)) (· + x.1)) (List.replicate (4 * n) 0)

/-- An exact zero: -0 only where every term is -0 (R133). -/
def dctZero (n : Nat) (ys : List Nat) (es : List Nat) : Nat :=
  signBit fp32 ((ys.zip es).all fun x => isZeroFV (fpv x.1) && ((fpv x.1).isNeg != (decide (n < x.2) && decide (x.2 < 3 * n))))

/-- R214: c(k) for finite samples: the exact sum, rounded once. -/
def dctCoef (ys : List Nat) (k : Nat) : Nat :=
  let n := ys.length
  let es := dctExps n k
  let l := (ys.map fun y => unitsOf (fpv y)).zip es
  let g : Nat := if k = 0 then 1 else 2
  match rationalOf (4 * n) (dctVec n l) with
  | some r => if r = 0 then dctZero n ys es else roundRat fp32 false false (decide (r < 0)) (r.natAbs * g) (2 * n) (-149)
  | none =>
    roundAlg (fun p => (l.map fun x => x.1 * fxCosTurn x.2 (4 * n) p).sum) ((l.map fun x => (x.1.natAbs : Int)).sum * fxErr) g n (-149)

/-- R214: Transform. -/
def transformF (ys : List Nat) : List Nat :=
  if ys.any fun y => !isFinFV (fpv y) then ys.map fun _ => canonNaN fp32
  else (List.range ys.length).map (dctCoef ys)

/-! ### FCOMP (R209) -/

/-- The enclosure of the inner function lies in the outer domain. -/
def enclosed (g : FReg) (hs : List Nat) : Bool :=
  let h0 := fpv (hs.headD 0)
  let r := FV.sum (zeroFV :: (hs.drop 1).map fun c => (fpv c).abs)
  hs.all (fun c => isFinFV (fpv c)) && !(h0.sub r).lt (fpv g.a.toNat) && !(fpv g.b.toNat).lt (h0.add r)

/-- (2y − a − b) / (b − a), exact, rounded once (R209, R215). -/
def toUnit (r : FReg) (y : FV) : Nat :=
  let a := fpv r.a.toNat
  let b := fpv r.b.toNat
  divRne ((((FV.fin false 2 0).mul y).sub a).sub b) (b.sub a) 1

def compCoefs (g : FReg) (gs hs : List Nat) : List Nat × Bool :=
  let m0 := (gs.length - 1) * (hs.length - 1) + 1
  let m := Nat.min m0 256
  (transformF ((List.range m).map fun j => clenshaw gs (toUnit g (fpv (clenshaw hs (tauOf j m))))), decide (m0 > 256))

def fcomp (a b c : Fld) (l k : Bool) (s : State) : Res State :=
  match fSources [b, c] s with
  | .error e => .error e
  | .ok _ =>
    let g := s.cur.freg b
    let h := s.cur.freg c
    let hs := coefsOf s.core h
    if !enclosed g hs then fdomTrap 0x02 c s
    else
      let (cs, fx) := compCoefs g (coefsOf s.core g) hs
      fResult s .falg [b, c] a h.a h.b cs true fx (lrOf b k ++ lrOf c l) s
def execFcomp (a b c : Fld) (l k : Bool) (s : State) : Host.Outcome State Fault Refusal := finish (fcomp a b c l k s)

/-! ### Opcode 0x2F (R210 to R213) -/

/-- R210: d(0) to d(n), before d(0) is halved, from d(k + 2) down; `cs` runs from c(n − 1) down to c(1). -/
def derivFrom : List Nat → Nat → List FV → List FV
  | [], _, ds => ds
  | c :: r, k, ds => derivFrom r (k - 1) (((ds.drop 1).headD zeroFV).add ((FV.fin false (2 * k) 0).mul (fpv c)) :: ds)
def derivCoefs (cs : List Nat) : List FV :=
  let ds := derivFrom (cs.drop 1).reverse (cs.length - 1) [zeroFV, zeroFV]
  match ds with
  | [] => [zeroFV]
  | d :: r => (halfFV d :: r).take (Nat.max (cs.length - 1) 1)

/-- An instruction with one function source and a register result. -/
def fUn (f : FReg → List Nat → List Nat) (a b : Fld) (k : Bool) (s : State) : Res State :=
  match fSources [b] s with
  | .error e => .error e
  | .ok _ =>
    let p := s.cur.freg b
    fResult s .fcalc [b] a p.a p.b (f p (coefsOf s.core p)) true false (lrOf b k) s

def FReg.lo (r : FReg) : FV := fpv r.a.toNat
def FReg.hi (r : FReg) : FV := fpv r.b.toNat
def FReg.span (r : FReg) : FV := r.hi.sub r.lo

def diffCoefs (r : FReg) (cs : List Nat) : List Nat :=
  (derivCoefs cs).map fun d => divRne ((FV.fin false 2 0).mul d) r.span 1

/-- R211: 4k E(k). -/
def intTerm (r : FReg) (cs : List Nat) (k : Nat) : FV :=
  let c (i : Nat) : FV := fpv (cs.getD i 0)
  let prev := if k = 1 then (FV.fin false 2 0).mul (c 0) else c (k - 1)
  r.span.mul (prev.sub (c (k + 1)))

def lcmTo : Nat → Nat
  | 0 => 1
  | n + 1 => Nat.lcm (n + 1) (lcmTo n)

def intCoefs (r : FReg) (cs : List Nat) : List Nat :=
  let n := cs.length
  let d := lcmTo n
  let ks := (List.range n).map (· + 1)
  let neg0 := FV.sum (ks.map fun k =>
    let x := (intTerm r cs k).mul (.fin false (d / k) 0)
    if k % 2 = 1 then x else x.neg)
  divRne neg0 (.fin false 1 0) (4 * d) :: ks.map fun k => divRne (intTerm r cs k) (.fin false 1 0) (4 * k)

def execFdiff (a b : Fld) (k : Bool) (s : State) : Host.Outcome State Fault Refusal := finish (fUn diffCoefs a b k s)
def execFint (a b : Fld) (k : Bool) (s : State) : Host.Outcome State Fault Refusal := finish (fUn intCoefs a b k s)

/-- R212: the sum of magnitudes, rounded upward. -/
def roundUp (x : FV) : Nat :=
  match x with
  | .fin _ m e =>
    let r := roundRat fp32 true false false m 1 e
    if (fpv r).lt x then r + 1 else r
  | x => roundF fp32 false false x
def extWord (cs : List Nat) : Word := BitVec.ofNat 64 (roundUp (FV.sum (cs.map fun c => (fpv c).abs)))

def fext (a b : Fld) (k : Bool) (s : State) : Res State :=
  match takeS [] [a] s with
  | .error e => .error e
  | .ok _ =>
    match fSources [b] s with
    | .error e => .error e
    | .ok _ =>
      let x := extWord (coefsOf s.core (s.cur.freg b))
      .ok (advance (setHvy (writeS a x (releaseAll (lrOf b k) (fCharge .fcalc [b] 0 s)))))
def execFext (a b : Fld) (k : Bool) (s : State) : Host.Outcome State Fault Refusal := finish (fext a b k s)

/-- R213: an entry of the list of roots. -/
inductive RootEnt where
  | point (t : Nat)
  | bracket (lo hi : Nat)
  deriving DecidableEq, Repr

def gridT (i : Nat) : Nat := rne ((FV.fin true 1 0).add (.fin false i (-7)))

def rootEnts (ys : List Nat) : List RootEnt :=
  ((List.range 257).map fun i =>
    let y := fpv (ys.getD i 0)
    let z := fpv (ys.getD (i + 1) 0)
    if isZeroFV y then [RootEnt.point (gridT i)]
    else if i < 256 && !isZeroFV z && y.isNeg != z.isNeg then [.bracket (gridT i) (gridT (i + 1))]
    else []).flatten

def midT (lo hi : Nat) : Nat := rne (halfFV ((fpv lo).add (fpv hi)))

/-- The bisection: the bracket left, and the root where it is found. -/
def bisectT (cs : List Nat) (lo hi : Nat) : Nat → Nat × Nat × Option Nat
  | 0 => (lo, hi, none)
  | n + 1 =>
    let mid := midT lo hi
    let y := fpv (clenshaw cs mid)
    if y == .nan || isZeroFV y then (lo, hi, some mid)
    else if y.isNeg == (fpv (clenshaw cs lo)).isNeg then bisectT cs mid hi n
    else bisectT cs lo mid n

/-- RNE32(t − g / s). -/
def newtonT (t g s : FV) : Nat := divRne ((t.mul s).sub g) s 1

def polishT (cs ds : List Nat) (lo hi : Nat) (t : Nat) : Nat → Nat
  | 0 => t
  | n + 1 =>
    let g := fpv (clenshaw cs t)
    let d := fpv (clenshaw ds t)
    if !isFinFV g || !isFinFV d || isZeroFV d then t
    else
      let t2 := newtonT (fpv t) g d
      if (fpv t2).lt (fpv lo) || (fpv hi).lt (fpv t2) || (fpv t2).eq (fpv t) then t
      else polishT cs ds lo hi t2 n

def rootT (cs ds : List Nat) : RootEnt → Nat
  | .point t => t
  | .bracket lo hi =>
    match bisectT cs lo hi 16 with
    | (_, _, some t) => t
    | (lo, hi, none) => polishT cs ds lo hi (midT lo hi) 4

/-- The value of a root in the domain. -/
def rootX (r : FReg) (t : Nat) : Nat := rne (halfFV ((r.lo.add r.hi).add (r.span.mul (fpv t))))

/-- R213: the lanes, NRT, and whether FMORE is set. -/
def rootsOf (r : FReg) (cs : List Nat) : List Nat × Nat × Bool :=
  let ys := (List.range 257).map fun i => clenshaw cs (gridT i)
  if ys.any fun y => isNaNF fp32 y then ([], 0, false)
  else
    let ents := rootEnts ys
    let ds := (derivCoefs cs).map rne
    let l := (ents.take 16).map fun e => rootX r (rootT cs ds e)
    (l, l.length, decide (ents.length > 16))

def froot (a b : Fld) (k : Bool) (s : State) : Res State :=
  match takeV [] [] (some (a, false)) [] s with
  | .error e => .error e
  | .ok _ =>
    match fSources [b] s with
    | .error e => .error e
    | .ok _ =>
      let p := s.cur.freg b
      let (l, n, more) := rootsOf p (coefsOf s.core p)
      let s := releaseAll (lrOf b k) (fCharge .fcalc [b] 0 s)
      let s := writeV a (vmap 32 (fun _ => true) 0 fun i => l.getD i (canonNaN fp32)) s
      .ok (advance (setHvy (s.onCur fun t => { t with nrt := BitVec.ofNat 5 n, fmore := t.fmore || more })))
def execFroot (a b : Fld) (k : Bool) (s : State) : Host.Outcome State Fault Refusal := finish (stripRun a (froot a b k) s)

/-! ### Opcode 0x30 (R214 to R218) -/

def singles (bs : List Byte) (n : Nat) : List Nat := (List.range n).map fun i => leNat ((bs.drop (4 * i)).take 4)

/-- R214: FFIT. -/
def ffit (a b c : Fld) (s : State) : Res State :=
  match takeS [b, c] [] s with
  | .error e => .error e
  | .ok (xs, s1) =>
    let ea := xs.headD 0
    let n := ((xs.drop 1).headD 0).toNat
    if n < 1 || n > 256 then fdomTrap 0x05 a s
    else if ea.toNat % 4 != 0 then trapR cALIGN ea s
    else if ea.toNat + 4 * n > 131072 then trapR cACCESS ea s
    else
      match tcmRead s ea.toNat (4 * n) with
      | .error e => .error e
      | .ok bs =>
        let r := s.cur.freg a
        fResult s .fio [] a r.a r.b (transformF (singles bs n)) true false [] s1
def execFfit (a b c : Fld) (s : State) : Host.Outcome State Fault Refusal := finish (ffit a b c s)

/-- R215: one lane of FEVAL; none outside the domain. -/
def evalLane (r : FReg) (cs : List Nat) (x : Nat) : Option Nat :=
  let v := fpv x
  if v == .nan || v.lt r.lo || r.hi.lt v then none else some (clenshaw cs (toUnit r v))

def feval (a b c : Fld) (m k : Bool) (s : State) : Res State :=
  match takeV [c] [] (some (a, m)) [] s with
  | .error e => .error e
  | .ok (vs, _, s1) =>
    match fSources [b] s with
    | .error e => .error e
    | .ok _ =>
      let p := s.cur.freg b
      let cs := coefsOf s.core p
      let lane (i : Nat) : Option Nat := evalLane p cs (elem 32 (src1 vs) i)
      let out := (List.range 16).any fun i => activeOf s m i && (lane i).isNone
      let s1 := releaseAll (lrOf b k) (fCharge .fio [b] 0 s1)
      let s1 := writeV a (vmap 32 (activeOf s m) (s.getV a) fun i => (lane i).getD (canonNaN fp32)) s1
      .ok (advance (setHvy (s1.onCur fun t => { t with fout := t.fout || out })))
def execFeval (a b c : Fld) (m k : Bool) (s : State) : Host.Outcome State Fault Refusal := finish (stripRun a (feval a b c m k) s)

/-- R199: a domain that a register may have. -/
def domOk (a b : BitVec 32) : Bool :=
  isFinFV (fpv a.toNat) && isFinFV (fpv b.toNat) && (fpv a.toNat).lt (fpv b.toNat)

def single (bs : List Byte) (k : Nat) : BitVec 32 := BitVec.ofNat 32 (leNat ((bs.drop k).take 4))

/-- R217: FLDC. -/
def fldc (a b : Fld) (s : State) : Res State :=
  match takeS [b] [] s with
  | .error e => .error e
  | .ok (xs, _) =>
    let ea := xs.headD 0
    if ea.toNat % 16 != 0 then trapR cALIGN ea s
    else if ea.toNat + 16 > 131072 then trapR cACCESS ea s
    else
      match tcmRead s ea.toNat 16 with
      | .error e => .error e
      | .ok h =>
        let n := (single h 8).toNat
        if n < 1 || n > 256 then fdomTrap 0x05 a s
        else if ea.toNat + 16 + 4 * n > 131072 then trapR cACCESS ea s
        else if !domOk (single h 0) (single h 4) then fdomTrap 0x04 a s
        else
          match tcmRead s (ea.toNat + 16) (4 * n) with
          | .error e => .error e
          | .ok bs => fResult s .fio [] a (single h 0) (single h 4) (singles bs n) false false [] s
def execFldc (a b : Fld) (s : State) : Host.Outcome State Fault Refusal := finish (fldc a b s)

/-- R216: the bytes of a coefficient record. -/
def coefRecord (r : FReg) (cs : List Nat) : List Byte :=
  leBytes 4 r.a.toNat ++ leBytes 4 r.b.toNat ++ leBytes 4 cs.length ++ leBytes 4 0 ++ (cs.map (leBytes 4)).flatten

/-- R217: FSTC. -/
def fstc (b c : Fld) (k : Bool) (s : State) : Res State :=
  match takeS [c] [] s with
  | .error e => .error e
  | .ok (xs, _) =>
    match fSources [b] s with
    | .error e => .error e
    | .ok _ =>
      let r := s.cur.freg b
      let ea := xs.headD 0
      let n := 16 + 4 * r.n.toNat
      if ea.toNat % 16 != 0 then trapR cALIGN ea s
      else if ea.toNat + n > 131072 then trapR cACCESS ea s
      else if storeRefused112 s s.cur.priv ea.toNat n || storeRefused26 s ea.toNat n then trapR cACCESS ea s
      else
        match tcmWrite s ea.toNat (coefRecord r (coefsOf s.core r)) with
        | .error e => .error e
        | .ok s => .ok (advance (setHvy (releaseAll (lrOf b k) (fCharge .fio [b] 0 s))))
def execFstc (b c : Fld) (k : Bool) (s : State) : Host.Outcome State Fault Refusal := finish (fstc b c k s)

/-- R218: FDOM. -/
def fdom (a b c : Fld) (s : State) : Res State :=
  match takeS [b, c] [] s with
  | .error e => .error e
  | .ok (xs, s1) =>
    let x : BitVec 32 := (xs.headD 0).setWidth 32
    let y : BitVec 32 := ((xs.drop 1).headD 0).setWidth 32
    if !domOk x y then fdomTrap 0x04 a s
    else
      .ok (advance (setHvy ((fCharge .fio [a] 0 s1).onCur fun t => setFreg a { t.freg a with a := x, b := y } t)))
def execFdom (a b c : Fld) (s : State) : Host.Outcome State Fault Refusal := finish (fdom a b c s)

/-- R218: FTRUNC. -/
def ftrunc (a b c : Fld) (k : Bool) (s : State) : Res State :=
  match takeS [c] [] s with
  | .error e => .error e
  | .ok (xs, s1) =>
    match fSources [b] s with
    | .error e => .error e
    | .ok _ =>
      let p := s.cur.freg b
      let cs := coefsOf s.core p
      let n := (xs.headD 0).toNat
      fResult s .fio [b] a p.a p.b (if n = 0 then cs else cs.take (Nat.min n 256)) (decide (n = 0)) false (lrOf b k) s1
def execFtrunc (a b c : Fld) (k : Bool) (s : State) : Host.Outcome State Fault Refusal := finish (ftrunc a b c k s)

/-- R218: FMOV. -/
def fmov (a b : Fld) (k : Bool) (s : State) : Res State :=
  match fSources [b] s with
  | .error e => .error e
  | .ok _ =>
    let p := s.cur.freg b
    fResult s .fio [b] a p.a p.b (coefsOf s.core p) false false (lrOf b k) s
def execFmov (a b : Fld) (k : Bool) (s : State) : Host.Outcome State Fault Refusal := finish (fmov a b k s)

/-- R218: FFREE. -/
def execFfree (a : Fld) (s : State) : Host.Outcome State Fault Refusal :=
  finish (.ok (advance (setHvy (releaseF a (fCharge .fio [a] 0 s)))))

/-- R218: what FLEN reads. -/
def flenWord (c : CoreSt) (r : FReg) : Word :=
  (0#23 ++ BitVec.ofNat 9 (poolFree c) ++ 0#7 ++ BitVec.ofNat 9 (granules r.n.toNat) ++ 0#7 ++ r.n : BitVec 64)
def flen (a b : Fld) (k : Bool) (s : State) : Res State :=
  match takeS [] [a] s with
  | .error e => .error e
  | .ok _ =>
    let x := flenWord s.core (s.cur.freg b)
    .ok (advance (setHvy (writeS a x (releaseAll (lrOf b k) (fCharge .fio [b] 0 s)))))
def execFlen (a b : Fld) (k : Bool) (s : State) : Host.Outcome State Fault Refusal := finish (flen a b k s)

end Sys2Proof.Machine
end

