-- ==== Sys2Proof/Machine/EvBase.lean ====
section
/-! DEFINITION. What the steps of other agents share: contexts found by frame, and what an operation outstanding at its task's end
still owes. A step whose conditions do not hold changes nothing (log entry 3). -/

namespace Sys2Proof.Machine

/-- The first context that a test selects, changed. -/
def updFirst (p : Task → Bool) (f : Task → Task) : List Task → List Task
  | [] => []
  | t :: l => if p t then f t :: l else t :: updFirst p f l
def State.updCtx (s : State) (p : Task → Bool) (f : Task → Task) : State :=
  if p s.cur then { s with cur := f s.cur } else { s with rest := updFirst p f s.rest }
def State.findCtx (s : State) (p : Task → Bool) : Option Task := (s.cur :: s.rest).find? p

/-- A live task of a frame. -/
def liveAt (frame : Nat) (t : Task) : Bool := t.frame == frame && t.st != .ended && !t.shadow

/-- R241, R251: a failure of a task of n stores or atomics, reported by its tile once the task has ended. -/
def failOf (t : Task) (n : Nat) (dead : Bool) (s : State) : State :=
  if t.st == .ended then errCount n (s.onTile fun x => { x with ffail := true })
  else s.updCtx (fun u => u.frame == t.frame && u.tid == t.tid && u.origin == t.origin && u.st != .ended && !u.shadow)
    (accessFails n dead)
/-- The same for the task of a name, which may have ended. -/
def failNamed (tid : Word) (origin : BitVec 13) (n : Nat) (dead : Bool) (s : State) : State :=
  match s.findCtx fun t => t.st != .ended && !t.shadow && sameTask t tid origin with
  | none => errCount n (s.onTile fun x => { x with ffail := true })
  | some t => failOf t n dead s

/-- R401, R404: an error that the activation consumes, before its next instruction. -/
def errOf (detail : BitVec 8) (val addr : Word) (t : Task) : Task :=
  if t.errPend.isSome then t else { t with errPend := some (detail, val, addr) }

/-- R238: whether a task has no sealed, unacknowledged segment up to a number. -/
def ackedOf (s : State) (t : Task) (upTo : Nat) : Bool :=
  !s.core.sealed.any fun g => sameTask t g.tid g.origin && g.num ≤ upTo

def emit (p : Packet) (s : State) : State := s.onHome fun h => { h with out := h.out ++ [p] }

/-- R11, R268: a task is blocked while a push of one of its streams misses translation. -/
def strmMissing (t : Task) : Bool := t.streams.toList.any fun x => match x with | none => false | some st => st.miss

/-- A task that waits is woken: ready, with what its instruction has done kept (R31). -/
def wake (t : Task) : Task := { t with st := if strmMissing t then .faulted else .ready }

/-- An operation of another agent carried out as if a context of the core issued it: the context is put in place of the issuing
one and back. -/
def asCtx (k : Nat) (f : State → State) (s : State) : State :=
  match s.rest[k]? with
  | none => s
  | some t =>
    let r := f { s with cur := t, rest := s.rest.set k s.cur }
    match r.rest[k]? with
    | none => r
    | some c => { r with cur := c, rest := r.rest.set k r.cur }
/-- As the live task of a frame. -/
def asFrame (frame : Nat) (f : State → State) (s : State) : State :=
  if liveAt frame s.cur then f s
  else match s.rest.findIdx? (liveAt frame) with
    | none => s
    | some k => asCtx k f s

/-- R403: whether a packet to a tile would cross a dead link. -/
def lostToTile (s : State) (tile : Nat) : Bool :=
  crossesDead s.home.deadLinks (path s.clusterId (clusterOf tile) false)

/-! ### The spanning tree (R40) -/

/-- The tiles that hold a leaf of the launch, in ascending order. -/
def treeTiles (s : State) : List Nat := (List.range 1024).filter (tileHasLeaf s.launch)

/-- The lowest-numbered participating tile that shares a place with a tile. -/
def headBy (ps : List Nat) (place : Nat → Nat) (t : Nat) : Nat := (ps.find? fun p => place p == place t).getD t
/-- A tile's parent; none for the root. -/
def treeParent (ps : List Nat) (t : Nat) : Option Nat :=
  let g := headBy ps (· / 4) t
  let c := headBy ps clusterOf t
  let d := headBy ps (fun p => dieOf (clusterOf p)) t
  let r := ps.headD t
  if t != g then some g else if t != c then some c else if t != d then some d else if t != r then some r else none
def treeKids (ps : List Nat) (t : Nat) : List Nat := ps.filter fun p => treeParent ps p == some t
/-- A tile and the tiles above it. -/
def treeChain (ps : List Nat) (t : Nat) : Nat → List Nat
  | 0 => [t]
  | n + 1 => match treeParent ps t with | none => [t] | some p => t :: treeChain ps p n
/-- A tile and the tiles below it. -/
def treeUnder (ps : List Nat) (t : Nat) : List Nat := ps.filter fun p => (treeChain ps p 4).contains t
def State.parent (s : State) : Option Nat := treeParent (treeTiles s) s.tileId
def State.kids (s : State) : List Nat := treeKids (treeTiles s) s.tileId

/-! ### The done and sweep channel (R441) -/

/-- R441: both paths to a tile cross a dead link. -/
def bothDead (s : State) (tile : Nat) : Bool :=
  crossesDead s.home.deadLinks (path s.clusterId (clusterOf tile) false) &&
    crossesDead s.home.deadLinks (path s.clusterId (clusterOf tile) true)

/-- R441, R292: a packet lost on both paths. -/
def controlLost (tile : Nat) (reduction : Bool) (s : State) : State :=
  let s := errEntry (errEntryBytes 6 0 0 1 s.core.id 0 (BitVec.ofNat 64 tile) 1) s
  if reduction then s.onTile fun t => { t with ffail := true } else s

/-- R367: a packet of one flit on its way to a tile. -/
def chargeTile (tile : Nat) (s : State) : State := chargeNet (clusterOf tile) 1 s

/-- R441: a packet of the channel to a tile. -/
def controlTo (reduction : Bool) (tile : Nat) (p : Packet) (s : State) : State :=
  if bothDead s tile then controlLost tile reduction s else emit p (chargeTile tile s)
def control (tile : Nat) (p : Packet) (s : State) : State := controlTo false tile p s
/-- R292: a reduction packet to the parent. -/
def controlRed (c : Contribution) (missing : Nat) (s : State) : State :=
  match s.parent with
  | none => s
  | some p => controlTo true p (.red c missing) s
/-- A packet multicast to the tiles of the launch: the copies of those that no path reaches are lost. -/
def controlAll (p : Packet) (s : State) : State :=
  ((treeTiles s).filter fun t => t != s.tileId).foldl
    (fun s t => if bothDead s t then controlLost t false s else chargeTile t s) (emit p s)

/-! ### What a horizon may not pass (R239, R302) -/

/-- R239: the least stamp among sealed segments and unperformed engine operations. -/
def commitFig (s : State) : Nat :=
  minList (s.core.sealed.map (·.stamp) ++ (s.core.eng.toList.map fun q => q.map fun o => o.stamp).flatten ++
    s.core.mx.queue.map (·.stamp) ++ (match s.core.mxSaved with | none => [] | some m => m.queue.map (·.stamp)) ++ s.tile.otherCommits)

/-- R302, the first two terms; and, so that the horizon passes no message still to exist (R306), the sends that are released and have
not been injected, whose tasks may have ended (log entry 98). -/
def localLow (s : State) : Nat := minList (taskStamps s ++ candStamps s ++ s.tile.inject.filterMap Held.stamp?)

/-! ### Leaves -/

/-- R433: the leaves of the launch that a tile holds. -/
def tileLeaves (l : Launch) (t : Nat) : List Nat :=
  (l.leaves.map fun m =>
    let lo := m.leaf0 + (8 * t - m.core0) * m.per
    let hi := Nat.min (m.leaf1 + 1) (m.leaf0 + (8 * t + 8 - m.core0) * m.per)
    (List.range (hi - lo)).map (· + lo)).flatten

end Sys2Proof.Machine
end

