-- ==== Sys2Proof/Machine/EvHome.lean ====
section
/-! DEFINITION. Steps of the homes, the log agent, acquiring and the barriers (R224 to R230, R237 to R253, R258 to R262, R443). -/

namespace Sys2Proof.Machine

/-! ### Loads (R244, R443) -/

def modIdx {α : Type} (l : List α) (k : Nat) (f : α → α) : List α := l.modify k f

/-- R401, R443: an own load reaches its home. -/
def loadAtHome (s : State) (l : LoadPend) : LoadPend :=
  if lostRead s l.pa || refusedAt s s.core.vf l.pa then { l with reply := some none }
  else if anyPoison s.home.poison l.pa l.sz then { l with reply := some none, poisoned := true }
  else { l with reply := some (some (memGetN s.home.mem l.pa l.sz)) }

def loadWaits (frame k : Nat) (t : Task) : Bool :=
  t.frame == frame && !t.shadow && (match t.loads[k]? with | none => false | some l => l.reply.isNone)

/-- HOME_LOAD (R231): another agent's load changes nothing here. -/
def loadMay (k : Nat) (t : Task) : Bool :=
  match t.loads[k]? with | none => false | some l => requestTurn t false l.num l.marks l.pa l.sz

/-- What the load's reply brings besides its value: the line filled, or the value in a line that is present (R225, R242; log entry 17), or
a failure that the task's next FENCE reports (R241). -/
def loadBrings (t : Task) (l : LoadPend) (s : State) : State :=
  if lostRead s l.pa then failOf t 0 true s
  else if refusedAt s s.core.vf l.pa then failOf t 0 false s
  else if anyPoison s.home.poison l.pa l.sz then s
  else s.onCore fun c => { c with vcache := vcAfterHome l.fill s.home l.pa l.sz c.vcache }
/-- R409: what the primary's read of n words gives, which this core does not know (log entry 89). -/
def primaryBytes (n : Nat) (s : State) : List Byte × State :=
  (((List.range n).map fun k => leBytes 8 (Config.freeWord (s.fresh + k)).toNat).flatten, { s with fresh := s.fresh + n })
/-- R409: at the secondary the value of a load comes from the primary: that of a general register by PRIMARY_VALUE_FORWARD, another
here. -/
def loadForward (p : Task → Bool) (k : Nat) (l : LoadPend) (s : State) : State :=
  if !l.vec && decide (l.dst < 16) then s
  else
    let (bs, s) := primaryBytes 8 s
    s.updCtx p fun t => { t with loads := modIdx t.loads k fun l => { l with reply := some (some (bs.take l.sz)) } }
def homeLoad (frame k : Nat) (s : State) : State :=
  let p (t : Task) : Bool := loadWaits frame k t && loadMay k t
  match s.findCtx p with
  | none => s
  | some t =>
    match t.loads[k]? with
    | none => s
    | some l =>
      if secondary s then loadForward p k l s else loadBrings t l (s.updCtx p fun t => { t with loads := modIdx t.loads k (loadAtHome s) })
def execHomeLoad (l : LoadSel) (s : State) : Host.Outcome State Fault Refusal :=
  match l with
  | .foreign _ _ => done s
  | .own frame k => done (homeLoad frame k s)

/-- R162, R244: the value of a load in its register, or pushed to its stream. -/
def loadWrite (l : LoadPend) (bs : List Byte) (s : State) : State :=
  let v := mergeBytes l.own bs
  if l.vec then writeV l.dst (bytesV v) s else writeS l.dst (loadExt l.sext l.sz v) s

/-- A load that has returned; a task that waits for one is woken (R245). -/
def dropLoad (k : Nat) (t : Task) : Task :=
  let t := { t with loads := t.loads.eraseIdx k }
  if t.wait == some .load && t.st == .waitMem then wake t else t

def loadReplied (frame k : Nat) (t : Task) : Bool :=
  t.frame == frame && !t.shadow && (match t.loads[k]? with | none => false | some l => l.reply.isSome)

/-- LOAD_REPLY: the value is written, or the activation consumes what came instead (R241, R401). -/
def loadReply (frame k : Nat) (s : State) : State :=
  match s.findCtx (loadReplied frame k) with
  | none => s
  | some t =>
    match t.loads[k]? with
    | none => s
    | some l =>
      match l.reply with
      | none => s
      | some (some bs) =>
        (asFrame frame (loadWrite l bs) s).updCtx (loadReplied frame k) (dropLoad k)
      | some none =>
        let (x, s') := s.free
        if l.poisoned then
          s'.updCtx (loadReplied frame k) fun t => errOf 1 x (BitVec.ofNat 64 (l.pa - l.pa % 8)) (dropLoad k t)
        else s.updCtx (loadReplied frame k) fun t => errOf 3 0 (BitVec.ofNat 64 l.pa) (dropLoad k t)
def execLoadReply (frame k : Nat) (s : State) : Host.Outcome State Fault Refusal := done (loadReply frame k s)

/-! ### Atomics (R230, R253) -/

def amoWaits (frame k : Nat) (t : Task) : Bool :=
  t.frame == frame && !t.shadow &&
    (match t.amos[k]? with | none => false | some a => a.ret.isNone && !a.poisoned)

/-- R230, R231, R253: an atomic may be performed once the segments it awaits are acknowledged and the task's earlier atomics to its home
are performed; one with `.aq`, once its earlier loads are. A paired activation's is compared first, and is the primary's (R410). -/
def amoMay (s : State) (t : Task) (k : Nat) (a : AmoPend) : Bool :=
  (match a.after with | none => true | some n => ackedOf s t n) &&
  !((t.amos.take k).any fun b => b.ret.isNone && !b.poisoned && homeOf b.req.pa == homeOf a.req.pa) &&
  !(a.aq && t.loads.any fun l => decide (l.num < a.num) && l.reply.isNone) &&
  requestTurn t true a.num a.marks a.req.pa (amoBytes a.req) && mayAct (.amo t.tid t.origin a.num) s && !secondary s

def homeAmo (frame k : Nat) (s : State) : State :=
  match s.findCtx (amoWaits frame k) with
  | none => s
  | some t =>
    match t.amos[k]? with
    | none => s
    | some a =>
      if secondary s && decide (16 ≤ a.dst) && mayAct (.amo t.tid t.origin a.num) s then
        -- R409: the primary's value for a stream or queue register (log entry 89)
        let (x, s) := s.free
        acted (.amo t.tid t.origin a.num) (s.updCtx (amoWaits frame k) fun t =>
          { t with amos := modIdx t.amos k fun a => { a with ret := some x } })
      else if !amoMay s t k a then s
      else
        let set (f : AmoPend → AmoPend) (s : State) : State :=
          acted (.amo t.tid t.origin a.num) (s.updCtx (amoWaits frame k) fun t => { t with amos := modIdx t.amos k f })
        match amoPerform s a.req with
        | .value old h => set (fun a => { a with ret := some (BitVec.ofNat 64 old) }) { s with home := h }
        | .unheard h => failOf t 1 true (set (fun a => { a with ret := some 0, failed := true }) { s with home := h })
        | .lost => failOf t 1 true (set (fun a => { a with ret := some 0, failed := true }) s)
        | .refused => failOf t 1 false (set (fun a => { a with ret := some 0, failed := true }) s)
        | .poison => set (fun a => { a with poisoned := true }) s

/-- HOME_AMO. Another core's atomic is performed for its effect on memory. -/
def execHomeAmo (r : AmoSel) (s : State) : Host.Outcome State Fault Refusal :=
  match r with
  | .own frame k => done (homeAmo frame k s)
  | .foreign r vf core =>
    if refusedFrom s (clusterOf (tileOf core)) vf r.pa || anyPoison s.home.poison r.pa (amoBytes r) then done s
    else done { s with home := (amoAtHome r s.home).2 }

def amoReturns (frame k : Nat) (t : Task) : Bool :=
  t.frame == frame && !t.shadow && (match t.amos[k]? with | none => false | some a => a.ret.isSome || a.poisoned)

/-- AMO_RETURN: a line of its word filled before the return serves no later load, with `.aq` no line at all (R230, R242, R253). -/
def amoReturn (frame k : Nat) (s : State) : State :=
  match s.findCtx (amoReturns frame k) with
  | none => s
  | some t =>
    match t.amos[k]? with
    | none => s
    | some a =>
      let drop (t : Task) : Task := { t with amos := t.amos.eraseIdx k }
      let s := s.onCore (amoCore a.req.pa a.aq)
      match a.ret with
      | some v => (asFrame frame (writeS a.dst v) s).updCtx (amoReturns frame k) drop
      | none =>
        let (x, s) := s.free
        s.updCtx (amoReturns frame k) fun t => errOf 1 x (BitVec.ofNat 64 (a.req.pa - a.req.pa % 8)) (drop t)
def execAmoReturn (frame k : Nat) (s : State) : Host.Outcome State Fault Refusal := done (amoReturn frame k s)

/-! ### Segments (R226, R238, R247) -/

def segKey (s : State) (g : Sealed) : WKey :=
  { stamp := g.stamp, writer := s.core.id.toNat, seg := g.num, part := 0, idx := 0 }

/-- R226: the loads that its task issued before it was sealed have returned. -/
def shipReady (s : State) (g : Sealed) : Bool :=
  !g.shipped && !(s.cur :: s.rest).any fun t => sameTask t g.tid g.origin && !t.shadow && t.loads.any fun l => decide (l.num < g.upTo)

/-- R247: the ready segment of least key. -/
def nextShip (s : State) : Option Sealed :=
  leastBy (fun a b => wkeyLt (segKey s a) (segKey s b)) (s.core.sealed.filter (shipReady s))

/-- R367: a part's packet, whose payload is its records as the log holds them (R234), and the units it touches. -/
def chargePart (p : SegPart) (s : State) : State :=
  match p.home with
  | none => s
  | some h =>
    let n := (p.recs.map fun r => recSize r.data.length).sum
    chargeHome h (recLines p.recs).length (chargeNet (homeCluster s.dieId h) (1 + flits n) s)

def segmentShip (seg : Nat) (s : State) : State :=
  match nextShip s with
  | none => s
  | some g =>
    if g.num != seg then s
    else
      let ps := partsOf g.recs
      let s := ps.foldl (fun s p => chargePart p s) s
      s.onCore fun c => { c with sealed := c.sealed.map fun x => if x.num == seg then { x with shipped := true, parts := ps } else x }
def execSegmentShip (seg : Nat) (s : State) : Host.Outcome State Fault Refusal := done (segmentShip seg s)

def homeRecs (launch : Nat) (key : WKey) (l : List Rec) (h : HomeSt) : HomeSt :=
  l.foldl (fun h r => homeKeyedN h launch { key with idx := r.idx } r.pa r.data false 9) h

def setPart (seg k : Nat) (f : SegPart → SegPart) (s : State) : State :=
  s.onCore fun c => { c with sealed := c.sealed.map fun x => if x.num == seg then { x with parts := modIdx x.parts k f } else x }

/-- R251: the stores that a lost or refused part fails, each counted once. -/
def newLost (g : Sealed) (p : SegPart) : List Nat := ((p.recs.map (·.idx)).dedup).filter fun i => !g.lostIdx.contains i
/-- R241, R251: a part that does not reach its home, or that the home refuses. -/
def partFails (g : Sealed) (p : SegPart) (dead : Bool) (s : State) : State :=
  failNamed g.tid g.origin (newLost g p).length dead (s.onCore fun c =>
    { c with sealed := c.sealed.map fun x => if x.num == g.num then { x with lostIdx := x.lostIdx ++ newLost g p } else x })

/-- R238, R241: an own part at its home; R410: that of a paired activation is compared first, and the secondary's copy discarded. -/
def partApplyOwn (seg k : Nat) (s : State) : State :=
  match s.core.sealed.find? fun g => g.num == seg with
  | none => s
  | some g =>
    match g.parts[k]? with
    | none => s
    | some p =>
      if p.st != 0 || !mayAct (.part seg k) s then s
      else
        let pa := match p.recs with | [] => 0 | r :: _ => r.pa
        let s := acted (.part seg k) s
        let failed := setPart seg k (fun p => { p with st := 1, failed := true }) s
        if secondary s then setPart seg k (fun p => { p with st := 1 }) s
        else if lostTo s pa then partFails g p true failed
        else if refusedAt s s.core.vf pa then partFails g p false failed
        else (setPart seg k (fun p => { p with st := 1 }) s).onHome (homeRecs s.launch.tag.toNat (segKey s g) p.recs)

/-- PART_APPLY. -/
def execPartApply (p : PartSel) (s : State) : Host.Outcome State Fault Refusal :=
  match p with
  | .own seg k => done (partApplyOwn seg k s)
  | .foreign p =>
    let ok := p.recs.all fun r => !refusedFrom s (clusterOf (p.key.writer / 8)) (BitVec.ofNat 6 p.vf) r.pa
    done (if ok then s.onHome (homeRecs p.launchTag p.key p.recs) else s)

/-- R249: the answers that no longer await a segment. -/
def answerAcq (s : State) : State :=
  let ready (x : BitVec 13 × List Nat × List Nat) : Bool := ownAcked x.2.1 s
  let now := s.core.acqPend.filter ready
  (s.onCore fun c => { c with acqPend := c.acqPend.filter fun x => !ready x }).onHome fun h =>
    { h with out := h.out ++ now.map fun x => .acqAns x.1 x.2.2 }

/-- SEGMENT_ACK: a wholly acknowledged segment frees its space and invalidates its lines (R238). -/
def segmentAck (seg k : Nat) (s : State) : State :=
  match s.core.sealed.find? fun g => g.num == seg with
  | none => s
  | some g =>
    match g.parts[k]? with
    | none => s
    | some p =>
      if p.st != 1 then s
      else
        let s := setPart seg k (fun p => { p with st := 2 }) s
        if (modIdx g.parts k fun p => { p with st := 2 }).all fun p => p.st == 2 then
          answerAcq (s.onCore fun c =>
            { c with sealed := c.sealed.filter (fun x => x.num != seg), ovf := c.ovf - ovfBytes g.recs,
                     ackedLines := (c.ackedLines ++ (recLines g.recs).map fun l => (g.scope, l)).dedup,
                     vcache := vcDropAll (recLines g.recs) c.vcache })
        else s
def execSegmentAck (seg k : Nat) (s : State) : Host.Outcome State Fault Refusal := done (segmentAck seg k s)

/-! ### The flag write, engine writes, in-place writes, the commit horizon -/

def flagWaits (t : Task) : Bool := match t.wait with | some (.flag _ _ _ false) => !t.shadow | _ => false
/-- R410: a paired activation's flag write is compared first. -/
def flagReady (s : State) (t : Task) : Bool := flagWaits t && mayAct (.flag t.tid t.origin) s

/-- FLAG_WRITE (R224, R228, R250). -/
def flagWrite (s : State) : State :=
  match s.findCtx (flagReady s) with
  | none => s
  | some t =>
    match t.wait with
    | some (.flag seg pa v false) =>
      let passed (s : State) : State :=
        acted (.flag t.tid t.origin) (s.updCtx (flagReady s) fun t => { t with wait := some (.flag seg pa v true) })
      if secondary s then passed s
      else
      let s := chargeAccess pa 8 s
      if lostTo s pa then failOf t 1 true (passed s)
      else if refusedAt s s.core.vf pa then failOf t 1 false (passed s)
      else
        let key : WKey := { stamp := t.stamp.toNat, writer := s.core.id.toNat, seg := seg, part := 2 ^ 32 - 1, idx := 0 }
        (passed s).onHome fun h => homeKeyed h s.launch.tag.toNat key pa (leBytes 8 v.toNat)
    | _ => s
def execFlagWrite (s : State) : Host.Outcome State Fault Refusal := done (flagWrite s)

/-- ENGINE_WRITE: of another agent (R229). -/
def execEngineWrite (w : EngWrite) (s : State) : Host.Outcome State Fault Refusal :=
  done (if refusedFrom s (clusterOf (w.key.writer / 8)) (BitVec.ofNat 6 w.vf) w.pa then s
    else s.onHome fun h => homeKeyedN h w.launchTag w.key w.pa w.data true (w.data.length + 1))

/-- IN_PLACE_DEVICE_WRITE (R222). -/
def execInPlaceDeviceWrite (pa : Nat) (data : List Byte) (s : State) : Host.Outcome State Fault Refusal :=
  done (if noMemory s pa then s else s.onHome fun h => homePut h pa data)

/-- COMMIT_HORIZON: the tags below it are dropped (R239). It lies above no stamp of a task or an activation of this tile, nor of its
sealed segments and engine operations. -/
def execCommitHorizon (h : BitVec 48) (s : State) : Host.Outcome State Fault Refusal :=
  done (if h.toNat > Nat.min (commitFig s) (localLow s) then s else s.onHome fun x => { x with tags := x.tags.filter fun e => !(e.2.launch == s.launch.tag.toNat && e.2.key.stamp < h.toNat) })

/-! ### Acquiring (R227, R249) -/

/-- ACQ_REQUEST: another core asks this one. -/
def execAcqRequest (reader : BitVec 13) (scope : BitVec 3) (s : State) : Host.Outcome State Fault Refusal :=
  let l := if coreInScope reader scope s.core.id then awaited s reader else []
  if l.isEmpty then done (emit (.acqAns reader (if coreInScope reader scope s.core.id then answerLines s reader else [])) s)
  else done (s.onCore fun c => { c with acqPend := c.acqPend ++ [(reader, l.map (·.num), answerLines s reader)] })

/-- ACQ_ANSWER. -/
def execAcqAnswer (frame : Nat) (core : BitVec 13) (lines : List Nat) (s : State) : Host.Outcome State Fault Refusal :=
  done (s.updCtx (liveAt frame) fun t =>
    match t.wait with
    | some (.acq cs own ls) => if cs.contains core then { t with wait := some (.acq (cs.erase core) own (ls ++ lines)) } else t
    | _ => t)

/-- ACQ_SWEEP_REQUEST. -/
def execAcqSweepRequest (s : State) : Host.Outcome State Fault Refusal :=
  done (if s.tasks.any fun t => match t.wait with | some (.acqBelow n) => decide (s.tile.commit < n) | _ => false
    then wantSweep s else s)

/-! ### Barriers (R186, R261, R262) -/

def arrivesOn (n : BitVec 6) (t : Task) : Bool := t.arrives.any fun a => a.2 == n

/-- R186: the MROT at the head of the queue that has not arrived. -/
def mrotWaits (s : State) (n : BitVec 6) : Bool :=
  match s.core.mx.queue with
  | [] => false
  | m :: _ => m.fn == .mrot && !m.started && m.bar == some n

/-- R186: an MROT arrival gives the phase to the ring, unless it completes it. -/
def ringArrive (b : Bar) : Bar :=
  let (_, b') := barArrive b
  if b'.arr = 0 then b' else { b' with ring := true }

/-- The phase that an MROT joins is the one at its arrival. -/
def startMrot (s : State) (n : BitVec 6) : State :=
  s.onCore fun c => { c with mx := { c.mx with queue :=
    match c.mx.queue with
    | [] => []
    | m :: q => { m with started := true, barPhase := (s.bar n).phase } :: q } }

def barrierArrival (n : BitVec 6) (a : Arrival) (s : State) : State :=
  if !(s.bar n).init then s
  else
    match a with
    | .otherTask => if (s.bar n).ring then s else s.setBar n (barArrive (s.bar n)).2
    | .otherMrot => s.setBar n (ringArrive (s.bar n))
    | .ownMrot => if mrotWaits s n then (startMrot s n).setBar n (ringArrive (s.bar n)) else s
    | .ownTask frame =>
      let p (t : Task) : Bool := t.frame == frame && !t.shadow && arrivesOn n t
      match s.findCtx p with
      | none => s
      | some t =>
        match t.arrives.find? fun x => x.2 == n with
        | none => s
        | some x =>
          -- R186: the barrier has gone to a ring since the BARRIVE was issued (log entry 91)
          if (s.bar n).ring then
            s.updCtx p fun t => { t with arrives := t.arrives.erase x,
                                         traps := t.traps ++ [{ cause := cBARRIER, detail := 0, val := n.setWidth 64, op := none }] }
          else
          let (ph, b) := barArrive (s.bar n)
          (s.updCtx p fun t => { t.setW (wIdx x.1) (ph.setWidth 64) with arrives := t.arrives.erase x }).setBar n b
def execBarrierArrival (n : BitVec 6) (a : Arrival) (s : State) : Host.Outcome State Fault Refusal :=
  done (barrierArrival n a s)

/-- BARRIER_WAKE. -/
def execBarrierWake (n : BitVec 6) (s : State) : Host.Outcome State Fault Refusal :=
  done (s.mapTasks (fun t => t.st == .waitMsg && (match t.wait with | some (.bwait m p) => m == n && phasePassed (s.bar n) p | _ => false))
    wake)

end Sys2Proof.Machine
end

