-- ==== Sys2Proof/Machine/EvEngine.lean ====
section
/-! DEFINITION. Engines: how an operation reads and writes memory (R229, R241, R254, R401), the copy and chain engines of queues 0 to 3
(R276 to R283), completion and its delivery (R279, R91). -/

namespace Sys2Proof.Machine

/-! ### Accesses of an operation -/

/-- What keeps an engine's access from being made. -/
inductive EStop where
  /-- a translation is missing: the engine faults (page) -/
  | miss (va : Nat) (acc : Access)
  /-- R278: a translation is refused -/
  | refuse (va : Nat)
  /-- R401: a poisoned word is read -/
  | bad (pa : Nat)
  /-- R241: a read is lost to a dead link, or refused -/
  | gone (pa : Nat) (dead : Bool)
  /-- R358: the dirty log is full -/
  | busy
  deriving DecidableEq, Repr

abbrev ERes (α : Type) := Except EStop α

/-- R349, R358: the translation of an engine's access, under its task's privilege. -/
def engXlat (acc : Access) (va : Nat) (priv : BitVec 2) (s : State) : ERes (Nat × State) :=
  match tlbLookup s false va with
  | none => .error (.miss va acc)
  | some (e, s) =>
    if !rights1 e acc priv || decide (tlbAddr e va ≥ 2 ^ 42) then .error (.refuse va)
    else if !rights2 e acc then .error (.miss va acc)
    else if needW acc then
      match markDirty s e with
      | .error _ => .error .busy
      | .ok s => .ok (tlbAddr e va, s)
    else .ok (tlbAddr e va, s)

/-- R241, R254, R401: bytes of shared memory as their home answers an engine. -/
def homeBytes (pa n : Nat) (s : State) : ERes (List Byte) :=
  if lostRead s pa then .error (.gone pa true)
  else if refusedAt s s.core.vf pa then .error (.gone pa false)
  else if anyPoison s.home.poison pa n then .error (.bad pa)
  else .ok (memGetN s.home.mem pa n)
/-- The same with its charge (R367). -/
def engReadPa (pa n : Nat) (s : State) : ERes (List Byte × State) :=
  match homeBytes pa n s with
  | .error e => .error e
  | .ok bs => .ok (bs, chargeAccess pa n s)

/-- Bytes read in a space: TCM, where a poisoned word has no physical address, or shared memory. -/
def engRead (tcm : Bool) (a n : Nat) (priv : BitVec 2) (s : State) : ERes (List Byte × State) :=
  if tcm then (if anyPoison s.core.tcmPoison a n then .error (.bad 0) else .ok (tcmBytes s a n, s))
  else
    match engXlat .load a priv s with
    | .error e => .error e
    | .ok (pa, s) => engReadPa pa n s

/-- Who writes: a queue, the task and key of its operation, the index of the write (R223). -/
structure EngKey where
  queue : Nat
  tid : Word
  origin : BitVec 13
  stamp : Nat
  seg : Nat
  part : Nat
  idx : Nat
  deriving DecidableEq, Repr

def EngKey.key (k : EngKey) (s : State) : WKey :=
  { stamp := k.stamp, writer := s.core.id.toNat, seg := k.seg, part := k.part, idx := k.idx }

/-- R256: the words written, for the task's next QFENCE. -/
def noteWrote (k : EngKey) (pa n : Nat) (s : State) : State :=
  let ws := (List.range ((pa + n + 7) / 8 - pa / 8)).map fun i => (k.queue, pa / 8 + i, { k.key s with idx := k.idx + i })
  s.updCtx (fun t => t.st != .ended && !t.shadow && sameTask t k.tid k.origin) fun t => { t with wrote := t.wrote ++ ws }

/-- R229, R241: bytes written at their home with the operation's key, word by word; the secondary's are discarded (R410). -/
def homeWriteKeyed (k : EngKey) (pa : Nat) (bs : List Byte) (s : State) : State :=
  if secondary s then noteWrote k pa bs.length s
  else if lostTo s pa then failNamed k.tid k.origin 1 true s
  else if refusedAt s s.core.vf pa then failNamed k.tid k.origin 1 false s
  else
    noteWrote k pa bs.length
      (s.onHome fun h => homeKeyedN h s.launch.tag.toNat (k.key s) pa bs true (bs.length + 1))
/-- The same with its charge (R367). -/
def engWritePa (k : EngKey) (pa : Nat) (bs : List Byte) (s : State) : State :=
  homeWriteKeyed k pa bs (chargeAccess pa bs.length s)

def engWrite (k : EngKey) (tcm : Bool) (a : Nat) (bs : List Byte) (priv : BitVec 2) (s : State) : ERes State :=
  if tcm then .ok (tcmPut s a bs)
  else
    match engXlat .store a priv s with
    | .error e => .error e
    | .ok (pa, s) => .ok (engWritePa k pa bs s)

/-! ### Queues -/

def State.queue (s : State) (q : Nat) : List EngOp := (s.core.eng[q]?).getD []
def setQueueOps (q : Nat) (l : List EngOp) (s : State) : State :=
  s.onCore fun c => { c with eng := c.eng.setIfInBounds q l }
def setHead (q : Nat) (f : EngOp → EngOp) (s : State) : State :=
  setQueueOps q (match s.queue q with | [] => [] | o :: l => f o :: l) s

def opKey (q : Nat) (o : EngOp) (idx : Nat) : EngKey :=
  { queue := q, tid := o.tid, origin := o.origin, stamp := o.stamp, seg := o.seg, part := o.part, idx := idx }

/-- R97, R278: the ENGINE trap of an operation. -/
def engTrap (q code : Nat) (detail : Nat) : PendTrap :=
  { cause := cENGINE, detail := 0, val := BitVec.ofNat 64 (q * 2 ^ 60 + code * 2 ^ 48 + detail % 2 ^ 48), op := none }

/-- The head of a queue stops: its completion code, and its trap. -/
def stopHead (q code : Nat) (t : Option PendTrap) (s : State) : State :=
  setHead q (fun o => { o with code := code, stop := t, finished := true }) s

/-- R241: a lost or refused read of the operation at the head of a queue is a failure of its task. -/
def headFails (q : Nat) (dead : Bool) (s : State) : State :=
  match s.queue q with
  | [] => s
  | o :: _ => failNamed o.tid o.origin 0 dead s

/-- R241, R278, R401: what a stop does to the head of queue 0 to 3; a miss or a full dirty log leaves it to go on later. -/
def copyStop (q : Nat) (e : EStop) (s : State) : State :=
  match e with
  | .refuse va => stopHead q 3 (some (engTrap q 0x010 va)) s
  | .bad pa => stopHead q 3 (some (engTrap q 0x012 pa)) s
  | .gone pa dead => stopHead q 3 (some (engTrap q 0x012 pa)) (headFails q dead s)
  | .miss _ _ => s
  | .busy => s

/-- R374, R425: engines stand still while their core is pre-empted or its tile halted. -/
def engHeld (s : State) : Bool := s.core.preempt || s.tile.halted

/-- R410: how an engine operation is named among the actions of a pair. -/
def opWhat (o : EngOp) : PairWhat := .engine o.tid o.origin o.seg o.part
/-- R410: an operation that is to be compared first waits for its comparison. -/
def opMay (o : EngOp) (s : State) : Bool := !kindPaired o.kind || mayAct (opWhat o) s
def opActed (o : EngOp) (s : State) : State := if kindPaired o.kind then acted (opWhat o) s else s

/-- ENGINE_OP_START: the head of a queue, whose predecessor's writes are all performed (R254). A cancelled operation never
starts (R281), and one of a pair whose comparison is out does not start yet (R410). -/
def engineOpStart (q : Nat) (s : State) : State :=
  match s.queue q with
  | [] => s
  | o :: _ =>
    if o.started || o.cancelled || engHeld s || q = 9 || !opMay o s then s
    else setHead q (fun o => { o with started := true, at_ := match o.kind with | .chain h => h | _ => 0 }) (opActed o s)
def execEngineOpStart (q : BitVec 4) (s : State) : Host.Outcome State Fault Refusal := done (engineOpStart q.toNat s)

/-! ### Copies (R265, R276, R278) -/

def xrangeStop (q l : Nat) (s : State) : State :=
  stopHead q 1 (some { cause := cXRANGE, detail := 0, val := BitVec.ofNat 64 l, op := none }) s

/-- R265: whether an element is out of range. -/
def elemOut (p : Pattern) (tcm : Bool) (l : Nat) : Bool :=
  let a := elemAddr p l
  elemInb p l && (decide (a < 0) || decide (a + (2 ^ p.sz : Nat) > (if tcm then 131072 else 2 ^ 56)))

/-- R145, R276: the words of a scale record, moved in ascending order; an address beyond its space is refused. -/
def moveRec (k : EngKey) (priv : BitVec 2) (src dst : Word) (off : Nat) (s : State) : Nat → ERes State
  | 0 => .ok s
  | n + 1 =>
    let at_ (w : Word) : Nat := (w.extractLsb' 0 63).toNat + off
    let out (w : Word) : Bool := decide (at_ w + 8 > (if w.getLsbD 63 then 131072 else 2 ^ 56))
    if out src then .error (.refuse (at_ src))
    else if out dst then .error (.refuse (at_ dst))
    else
      match engRead (src.getLsbD 63) (at_ src) 8 priv s with
      | .error e => .error e
      | .ok (bs, s) =>
        match engWrite k (dst.getLsbD 63) (at_ dst) bs priv s with
        | .error e => .error e
        | .ok s => moveRec { k with idx := k.idx + 1 } priv src dst (off + 8) s n

/-- R265, R278: element l of a copy moved; its index is the number of words that the operation has written (R223). -/
def moveElem (q : Nat) (o : EngOp) (src dst : Pattern) (stcm dtcm : Bool) (l : Nat) (s : State) : ERes State :=
  let n := 2 ^ src.sz
  let value : ERes (List Byte × State) :=
    if elemInb src l then engRead stcm (elemAddr src l).toNat n o.priv s else .ok (leBytes n src.fill.toNat, s)
  match value with
  | .error e => .error e
  | .ok (bs, s) =>
    if elemInb dst l then engWrite (opKey q o o.bytes) dtcm (elemAddr dst l).toNat bs o.priv s else .ok s

/-- One element of the copy at the head, or the record of a tile that is complete; then the end. -/
def copyStep (q : Nat) (o : EngOp) (src dst : Pattern) (stcm dtcm scl : Bool) (srec drec : Word) (s : State) :
    State × Option EStop :=
  let l := o.moved
  if o.cancelled then (stopHead q 2 none s, none)
  else if scl && decide (o.sub < l / 256) then
    let k := o.sub
    match moveRec (opKey q o o.bytes) o.priv srec drec (72 * k) s 9 with
    | .error e => (copyStop q e s, some e)
    | .ok s => (setHead q (fun o => { o with sub := k + 1, bytes := o.bytes + 9 }) s, none)
  else if l ≥ src.len then (stopHead q 0 none s, none)
  else if elemOut src stcm l || elemOut dst dtcm l then (xrangeStop q l s, none)
  else
    match moveElem q o src dst stcm dtcm l s with
    | .error e => (copyStop q e s, some e)
    | .ok s => (setHead q (fun o => { o with moved := l + 1, bytes := o.bytes + (if elemInb dst l then 1 else 0) }) s, none)

/-! ### Chains (R282, R283) -/

/-- R367: byte i of a run that starts at an address is charged where the run enters a 64-byte unit. -/
def chargeRunUnit (start i pa : Nat) (s : State) : State :=
  if i = 0 || (start + i) % 64 = 0 then chargeAccess pa 1 s else s

/-- Byte i of a chain element, read and written at its homes. -/
def chainByte (k : EngKey) (priv : BitVec 2) (src dst i : Nat) (s : State) : ERes State :=
  match engXlat .load (src + i) priv s with
  | .error e => .error e
  | .ok (a, s) =>
    match homeBytes a 1 s with
    | .error e => .error e
    | .ok bs =>
      match engXlat .store (dst + i) priv (chargeRunUnit src i a s) with
      | .error e => .error e
      | .ok (b, s) => .ok (homeWriteKeyed k b bs (chargeRunUnit dst i b s))

/-- The bytes of the element in hand, one by one in ascending address order; the index counts them over the whole operation (R283). -/
def chainMove (q : Nat) (priv : BitVec 2) (src dst : Nat) (s : State) : Nat → State × Option EStop
  | 0 => (s, none)
  | n + 1 =>
    match s.queue q with
    | [] => (s, none)
    | o :: _ =>
      match chainByte (opKey q o o.bytes) priv src dst o.sub s with
      | .error e => (s, some e)
      | .ok s =>
        chainMove q priv src dst (setHead q (fun o => { o with sub := o.sub + 1, bytes := o.bytes + 1 }) s) n

/-- R283: the element done: its number advances, the walker goes to the next one or stops at the 2^20th. -/
def chainNext (q : Nat) (o : EngOp) (next : Nat) (s : State) : State :=
  let e := o.moved + 1
  let s := setHead q (fun o => { o with moved := e, at_ := next, elem := none, sub := 0 }) s
  if e = 2 ^ 20 then stopHead q 3 (some (engTrap q 0x011 o.at_)) s else s

/-- R282: a chain element: next, skip, predicate address, mask, source, destination, length. -/
structure ChainElem where
  next : Nat
  skip : Bool
  pred : Nat
  mask : Word
  src : Nat
  dst : Nat
  len : Nat
  deriving DecidableEq, Repr
def chainElem (bs : List Byte) : ChainElem :=
  let w := wordIn bs 0
  { next := (w.extractLsb' 6 50).toNat * 64, skip := w.getLsbD 63, pred := ((wordIn bs 8).extractLsb' 3 53).toNat * 8,
    mask := wordIn bs 16, src := (wordIn bs 24).toNat, dst := (wordIn bs 32).toNat, len := (singleIn bs 40).toNat }

/-- R283: whether an element is skipped. -/
def chainSkips (o : EngOp) (e : ChainElem) (s : State) : ERes (Bool × State) :=
  if !e.skip then .ok (false, s)
  else
    match engRead false e.pred 8 o.priv s with
    | .error x => .error x
    | .ok (bs, s) => .ok ((leWord bs &&& e.mask) != 0, s)

/-- The element in hand moved to its end. -/
def chainFinish (q : Nat) (o : EngOp) (src dst len next : Nat) (s : State) : State × Option EStop :=
  match chainMove q o.priv src dst s (len - o.sub) with
  | (s, some e) => (copyStop q e s, some e)
  | (s, none) => (chainNext q o next s, none)

def chainStep (q : Nat) (o : EngOp) (s : State) : State × Option EStop :=
  match o.elem with
  | some (src, dst, len, next) => chainFinish q o src dst len next s
  | none =>
      if o.cancelled then (stopHead q 2 none s, none)
      else if o.at_ = 0 then (stopHead q 0 none s, none)
      else
        match engRead false o.at_ 64 o.priv s with
        | .error e => (copyStop q e s, some e)
        | .ok (bs, s1) =>
          let e := chainElem bs
          match chainSkips o e s1 with
          | .error x => (copyStop q x s, some x)
          | .ok (true, s2) => (chainNext q o e.next s2, none)
          | .ok (false, s2) =>
            if e.src + e.len > 2 ^ 56 || e.dst + e.len > 2 ^ 56 then (xrangeStop q o.moved s2, none)
            else
              chainFinish q o e.src e.dst e.len e.next
                (setHead q (fun o => { o with elem := some (e.src, e.dst, e.len, e.next), sub := 0 }) s2)

/-- The next step of the operation at the head of queue 0 to 3, and what keeps it. -/
def xferStep (q : Nat) (s : State) : State × Option EStop :=
  match s.queue q with
  | [] => (s, none)
  | o :: _ =>
    if !o.started || o.finished || engHeld s then (s, none)
    else
      match o.kind with
      | .copy src dst st dt scl sr dr => copyStep q o src dst st dt scl sr dr s
      | .chain _ => chainStep q o s
      | _ => (s, none)

def headKind (q : Nat) (copy : Bool) (s : State) : Bool :=
  match s.queue q with
  | [] => false
  | o :: _ => match o.kind with | .copy .. => copy | .chain _ => !copy | _ => false

/-- COPY_ELEMENT. -/
def execCopyElement (q : BitVec 4) (s : State) : Host.Outcome State Fault Refusal :=
  done (if headKind q.toNat true s then (xferStep q.toNat s).1 else s)
/-- CHAIN_ELEMENT. -/
def execChainElement (q : BitVec 4) (s : State) : Host.Outcome State Fault Refusal :=
  done (if headKind q.toNat false s then (xferStep q.toNat s).1 else s)

/-! ### Completion (R279) -/

def complStatus (q : Nat) (o : EngOp) : Word :=
  (BitVec.ofNat 4 q ++ BitVec.ofNat 4 o.code ++ 0#8 ++ BitVec.ofNat 48 o.moved : BitVec 64)

/-- R97, R118, R279: a trap goes to its task while that runs; else it escalates. -/
def deliverTrap (tid : Word) (origin : BitVec 13) (p : PendTrap) (s : State) : State :=
  let live (t : Task) : Bool := t.st != .ended && !t.shadow && sameTask t tid origin
  if (s.findCtx live).isSome then s.updCtx live fun t => { t with traps := t.traps ++ [p] }
  else trapEntry { tid := tid, origin := origin } p.cause p.detail 0 p.val s

/-- R279: the completion of the head, and the trap that stopped it. -/
def deliverDone (q : Nat) (o : EngOp) (s : State) : State :=
  let live (t : Task) : Bool := t.st != .ended && !t.shadow && sameTask t o.tid o.origin
  let c : Compl := { handler := o.handler, xid := o.xid, status := complStatus q o, op := (o.seg, o.part) }
  if o.handler = 0 then
    match o.stop with
    | none => s
    | some p => deliverTrap o.tid o.origin p s
  else
    let ps := match o.stop with | none => [] | some p => [{ p with op := some (o.seg, o.part) }]
    if (s.findCtx live).isSome then
      s.updCtx live fun t => { t with comps := t.comps ++ [c], traps := t.traps ++ ps }
    else
      s.onCore fun x => { x with orphans := x.orphans ++
        [{ compl := c, traps := ps, stamp := BitVec.ofNat 48 o.stamp, priv := o.priv, tag := o.tid.extractLsb' 48 16,
           leaf := o.tid.extractLsb' 24 24 }] }

/-- ENGINE_OP_COMPLETE: every write is performed, or the operation has stopped, or it was cancelled before it started. -/
def engineOpComplete (q : Nat) (s : State) : State :=
  match s.queue q with
  | [] => s
  | o :: l =>
    let o := if o.cancelled && !o.started then { o with code := 2, finished := true } else o
    if !o.finished || engHeld s then s else deliverDone q o (setQueueOps q l s)
def execEngineOpComplete (q : BitVec 4) (s : State) : Host.Outcome State Fault Refusal := done (engineOpComplete q.toNat s)

/-- R195: after the trap of a matrix error is taken, the queue of its task accepts commands again. -/
def mxTrapTaken (p : PendTrap) (s : State) : State :=
  if ownsMx s.core s.cur && (p.cause == cSCALESEQ || (p.cause == cENGINE && p.val.extractLsb' 60 4 == 8)) then
    s.onCore fun c => { c with mx := { c.mx with err := false } }
  else s

/-- ENGINE_TRAP_DELIVERY: at a boundary of the issuing task, one at each (R91). A STALL waits among the traps and is taken as a synchronous one
(R95). -/
def execEngineTrapDelivery (s : State) : Host.Outcome State Fault Refusal :=
  match s.cur.traps with
  | [] => done s
  | p :: ps =>
    if s.cur.st == .ended || s.cur.shadow then done s
    else done ((takeTrap p.cause p.detail (p.cause != cSTALL) p.val
      ((mxTrapTaken p s).onCur fun t => { t with traps := ps, wait := none, paid := false })).onCur fun t => { t with trapTaken := true })

/-- COMPLETION_INTERRUPT (R279, R280). -/
def execCompletionInterrupt (s : State) : Host.Outcome State Fault Refusal :=
  match s.cur.comps with
  | [] => done s
  | c :: cs =>
    if s.cur.inu || s.cur.st == .ended || s.cur.shadow then done s
    else done (s.onCur fun t =>
      { t with comps := cs, uepc := t.pc.extractLsb' 2 54, xferid := c.xid, xstatus := c.status, inu := true,
               pc := c.handler, wait := none, paid := false, st := .running })

end Sys2Proof.Machine
end

