-- ==== Sys2Proof/Machine/EvStream.lean ====
section
/-! DEFINITION. Steps of the stream unit (R265 to R269), of the queue channels (R335 to R337), and of the column unit and the
cross register (R167, R172). -/

namespace Sys2Proof.Machine

/-! ### STREAM_FETCH (R266, R267) -/

def strmFld (k : BitVec 3) : Fld := BitVec.ofNat 5 (16 + k.toNat)

def lastBad (l : List Elem) : Bool := match l.getLast? with | none => false | some (.val _) => false | some _ => true

/-- R267: an element of shared memory, read as LD.na reads. -/
def fetchShared (s : State) (t : Task) (va n : Nat) : ERes (Elem × State) :=
  match engXlat .load va t.priv s with
  | .error (.refuse va) => .ok (.refused va, s)
  | .error e => .error e
  | .ok (pa, s) =>
    let own := bytesOf s t pa n
    if own.all (·.isSome) then .ok (.val (zextBytes n (leNat (mergeBytes own (List.replicate n 0)))), s)
    else if secondary s then
      let (bs, s) := primaryBytes 1 s
      .ok (.val (zextBytes n (leNat (bs.take n))), s)
    else if lostRead s pa || refusedAt s s.core.vf pa then .ok (.lost pa, s.onCur (readFails (lostRead s pa)))
    else if anyPoison s.home.poison pa n then .ok (.poison (pa - pa % 8), s)
    else
      let s' := chargeAccess pa n s
      .ok (.val (zextBytes n (leNat (mergeBytes own (memGetN s.home.mem pa n)))),
        s'.onCore fun c => { c with vcache := vcAfterHome false s.home pa n c.vcache })

/-- The next element of an input stream. -/
def fetchElem (s : State) (t : Task) (st : Stream) (l : Nat) : ERes (Elem × State) :=
  let p := st.pat
  let n := 2 ^ p.sz
  if !elemInb p l then .ok (.val p.fill, s)
  else if elemOut p st.tcm l then .ok (.range l, s)
  else if st.tcm then
    let a := (elemAddr p l).toNat
    .ok (if anyPoison s.core.tcmPoison a n then .poison 0 else .val (zextBytes n (leNat (tcmBytes s a n))), s)
  else fetchShared s t (elemAddr p l).toNat n

/-- One fetch for the issuing context, and what keeps it. -/
def fetchCur (k : BitVec 3) (s : State) : State × Option EStop :=
  let f := strmFld k
  match strmOf s.cur f with
  | none => (s, none)
  | some st =>
    let l := st.pos + st.fetched.length
    if st.pat.out || st.fetched.length ≥ strmCap st || l ≥ st.pat.len || lastBad st.fetched || s.cur.st == .preempted then (s, none)
    else
      match fetchElem s s.cur st l with
      | .error e => (s, some e)
      | .ok (e, s) => (s.onCur (setStrm f (some { st with fetched := st.fetched ++ [e] })), none)

/-! ### STREAM_DRAIN (R268) -/

/-- R268: a push that misses translation faults (page) for its task, which is blocked. -/
def drainMiss (f : Fld) (s : State) : State :=
  match strmOf s.cur f with
  | none => s
  | some st => s.onCur fun t =>
    setStrm f (some { st with miss := true }) { t with st := if t.st == .ready || t.st == .running then .faulted else t.st }
/-- The miss is over. -/
def missOver (t : Task) : Task :=
  if t.st == .faulted && !(match t.wait with | some (.walk ..) => true | _ => false) then wake t else t

def drainEnd (f : Fld) (s : State) : State :=
  match strmOf s.cur f with
  | none => s
  | some st => s.onCur fun t => missOver (setStrm f (some { st with pushed := st.pushed.drop 1, bad := none, miss := false }) t)

def drainBad (f : Fld) (b : BitVec 6 × Nat) (s : State) : State :=
  match strmOf s.cur f with
  | none => s
  | some st => s.onCur fun t => missOver (setStrm f (some { st with bad := some b, miss := false }) t)

/-- R268: a pushed element of shared memory becomes a record at the position its push took. -/
def drainShared (f : Fld) (e : Pushed) (va n : Nat) (s : State) : State × Option EStop :=
  match engXlat .store va s.cur.priv s with
  | .error (.refuse va) => (drainBad f (cACCESS, va) s, none)
  | .error (.miss va acc) => (drainMiss f s, some (.miss va acc))
  | .error x => (s, some x)
  | .ok (pa, s1) =>
    match appendAt va pa e.idx (leBytes n e.v.toNat) 0 s1 with
    | .ok s2 => (drainEnd f s2, none)
    | .error (.trap c _ v _) => (drainBad f (c, v.toNat) s, none)
    | .error (.wait _ (.walk va acc _) _) => (drainMiss f s, some (.miss va acc))
    | .error _ => (s, some .busy)

def drainCur (k : BitVec 3) (s : State) : State × Option EStop :=
  let f := strmFld k
  match strmOf s.cur f with
  | none => (s, none)
  | some st =>
    match st.pushed with
    | [] => (s, none)
    | e :: _ =>
      let n := 2 ^ st.pat.sz
      let a := (elemAddr st.pat e.l).toNat
      if st.tcm then
        if mxSource s.core a n then (s, none) else (drainEnd f (tcmPut s a (leBytes n e.v.toNat)), none)
      else drainShared f e a n s

/-- The next step of a task's stream. -/
def streamStep (frame : Nat) (k : BitVec 3) (s : State) : Option EStop :=
  let go (s : State) : Option EStop :=
    match (fetchCur k s).2 with | some e => some e | none => (drainCur k s).2
  if liveAt frame s.cur then go s
  else match s.rest.findIdx? (liveAt frame) with
    | none => none
    | some i => match s.rest[i]? with
      | none => none
      | some t => go { s with cur := t, rest := s.rest.set i s.cur }

def execStreamFetch (frame : Nat) (k : BitVec 3) (s : State) : Host.Outcome State Fault Refusal :=
  done (asFrame frame (fun s => (fetchCur k s).1) s)
def execStreamDrain (frame : Nat) (k : BitVec 3) (s : State) : Host.Outcome State Fault Refusal :=
  done (asFrame frame (fun s => (drainCur k s).1) s)

/-! ### Queue channels (R335, R337) -/

/-- R335: the live inbound binding of a channel. -/
def inboundOf (s : State) (ch : BitVec 3) : Option QBind :=
  (s.tasks.map fun t => t.qs.toList.filterMap id).flatten.find? fun q => !q.outb && q.cls.isNone && q.ch == ch

/-- R364: what a packet of another partition meets here. -/
def foreignPart (s : State) (part : BitVec 6) : Bool := part != s.core.vf || s.home.deadMask.getLsbD part.toNat

/-- CHANNEL_WORDS_ARRIVAL: words of a wrong source are discarded and their credits returned. -/
def channelWords (ch : BitVec 3) (src : Sender) (ws : List Word) (s : State) : State :=
  if foreignPart s src.part then s
  else if (match inboundOf s ch with | none => false | some q => q.peer != src.core) then emit (.credit src.core ch ws.length) s
  else
    s.onCore fun c => { c with chan := c.chan.set ch.toNat ((c.chan[ch.toNat] ++ ws.map fun w => (src.core, w)).take 8) }
def execChannelWordsArrival (ch : BitVec 3) (src : Sender) (words : List Word) (s : State) : Host.Outcome State Fault Refusal :=
  done (channelWords ch src words s)

/-- CREDIT_RETURN: to the outbound binding of a channel that has given credits out. -/
def owesCredit (ch : BitVec 3) (q : QBind) : Bool := q.outb && q.cls.isNone && q.ch == ch && decide (q.credits < 8)
def addCredit (ch : BitVec 3) (n : Nat) (t : Task) : Task :=
  { t with qs := t.qs.map fun q => q.map fun q => if owesCredit ch q then { q with credits := Nat.min 8 (q.credits + n) } else q }
def execCreditReturn (q : BitVec 3) (n : Nat) (s : State) : Host.Outcome State Fault Refusal :=
  done (s.updCtx (fun t => t.st != .ended && !t.shadow && t.qs.toList.any fun x => match x with | none => false | some b => owesCredit q b)
    (addCredit q n))

/-- R335: words of an outbound channel that credits allow to leave. -/
def sendable (q : QBind) : Nat := if q.outb && q.cls.isNone then Nat.min q.words.length q.credits else 0
def sendWords (k : Nat) (s : State) : State :=
  match (s.cur.qs[k]?).join with
  | none => s
  | some q =>
    let n := sendable q
    if n = 0 then s
    else
      let s := chargeNet (clusterOf (tileOf q.peer)) 1 (emit (.words q.peer q.ch (q.words.take n)) (s.onCur fun t =>
        { t with qs := t.qs.setIfInBounds k
                   (some { q with words := q.words.drop n, credits := q.credits - n, flying := q.flying + n }) }))
      if lostToTile s (tileOf q.peer) then
        s.onCur fun t => readFails true { t with qs := t.qs.setIfInBounds k (some { q with words := q.words.drop n, credits := q.credits - n }) }
      else s.onTile fun t => { t with unaccepted := t.unaccepted ++ [.words s.cur.tid s.cur.origin k n] }

/-! ### The column unit and the cross register (R167, R172) -/

def vtFirst (t : Task) : Option VtPend := t.vtPend.head?

/-- R169, R172: a request's reply writes the active lanes of its register, or pushes its strip. -/
def vtranWrite (r : VtPend) (s : State) : State :=
  writeV r.vd (columnReg r.fn r.mask r.src (if r.vd < 16 then s.getV r.vd else 0)) s

/-- VTRAN_REPLY: the oldest request of the task; replies of a core come in issue order (R171). -/
def vtranReply (frame : Nat) (s : State) : State :=
  let p (t : Task) : Bool := liveAt frame t && !t.vtPend.isEmpty
  match (s.findCtx p).bind vtFirst with
  | none => s
  | some r =>
    if (vtOut s).any fun x => x.num < r.num then s
    else asFrame frame (vtranWrite r) (s.updCtx p fun t => { t with vtPend := t.vtPend.drop 1 })
def execVtranReply (frame : Nat) (s : State) : Host.Outcome State Fault Refusal := done (vtranReply frame s)

/-- XR_WRITE; R168: it is held while an XGET has yet to read the write before it. -/
def execXrWrite (frame : Nat) (s : State) : Host.Outcome State Fault Refusal :=
  done (s.updCtx (fun t => liveAt frame t && !t.xrPend.isEmpty && t.wait != some (.xget t.xseq)) fun t =>
    match t.xrPend with
    | [] => t
    | x :: r => { t with xr := x.val, xseq := t.xseq + 1, xrPend := r })

/-! ### GRANULE_FILL, GRANULE_RELEASE (R151, R198, R202, R205, R376) -/

/-- GRANULE_FILL: the granule is present; its value stands where it stood (log entry 16). Filling is charged to the physical
function (R370). -/
def granuleFill (frame : Nat) (g : Granule) (s : State) : State :=
  let p := liveAt frame
  let s := chargeOpen 0 s
  match g with
  | .vreg i => s.updCtx p fun t => { t with vAbsent := t.vAbsent &&& ~~~(1#16 <<< i.toNat) }
  | .coef f k => s.updCtx p fun t => setFreg (f.setWidth 5) { t.freg (f.setWidth 5) with
      absent := (t.freg (f.setWidth 5)).absent &&& ~~~(1#32 <<< k) } t
  | .acc a k => s.onCore fun c => { c with mx :=
      if a then { c.mx with absent1 := c.mx.absent1 &&& ~~~(1#16 <<< k) }
      else { c.mx with absent0 := c.mx.absent0 &&& ~~~(1#16 <<< k) } }
def execGranuleFill (frame : Nat) (g : Granule) (s : State) : Host.Outcome State Fault Refusal :=
  done (granuleFill frame g s)

/-- GRANULE_RELEASE (R202): runs whose instruction has left the replay queue return to the pool. -/
def releaseGranules (s : State) : State := s.onCore fun c => { c with runs := c.runs.filter fun r => r.rel != some 0 }
def execGranuleRelease (s : State) : Host.Outcome State Fault Refusal := done (releaseGranules s)

end Sys2Proof.Machine
end

