-- ==== Sys2Proof/Machine/EvNred.lean ====
section
/-! DEFINITION. Network reductions at this tile's router (R146, R147, R284 to R288, R292). -/

namespace Sys2Proof.Machine

/-- R285: the combination of two partials, 32 or 64 bits wide, of operations 0 to 6. -/
def nredCombine (op : BitVec 3) (s32 : Bool) (a b : Word) : Word :=
  let w := if s32 then 32 else 64
  let x := a.toNat % 2 ^ w
  let y := b.toNat % 2 ^ w
  BitVec.ofNat 64 <|
    match op.toNat with
    | 0 => if intOf w x ≥ intOf w y then x else y
    | 1 => if intOf w x ≤ intOf w y then x else y
    | 2 => (x + y) % 2 ^ w
    | 3 => x &&& y
    | 4 => x ||| y
    | 5 => fmaxF fp32 x y
    | 6 => fmaxnF fp32 x y
    | _ => x

def insVal (x : Nat × Word) : List (Nat × Word) → List (Nat × Word)
  | [] => [x]
  | y :: l => if x.1 < y.1 then x :: y :: l else y :: insVal x l

/-- R286, R287: partials merged: under fadd they stay unfolded, in ascending unit; otherwise they combine to one. A prefix folded
on the way has the bits of the fold made here (R146). -/
def nredMerge (op : BitVec 3) (s32 : Bool) (a b : List (Nat × Word)) : List (Nat × Word) :=
  if op = 7 then b.foldl (fun l x => insVal x l) a
  else
    match a ++ b with
    | [] => []
    | x :: l => [l.foldl (fun p y => (p.1, nredCombine op s32 p.2 y.2)) x]

/-- R146, R287: the value of the result: the left fold of the units present, in ascending order. -/
def nredFold (op : BitVec 3) (l : List (Nat × Word)) : Word :=
  match l with
  | [] => 0
  | x :: r =>
    if op = 7 then BitVec.ofNat 64 (r.foldl (fun a y => rne ((fpv a).add (fpv (y.2.toNat % 2 ^ 32)))) (x.2.toNat % 2 ^ 32))
    else x.2

/-! ### What a node expects (R284, R286) -/

/-- R284: the units whose leaves a tile holds. -/
def tileUnits (l : Launch) (t : Nat) : List Nat :=
  if l.slices = 0 then tileLeaves l t
  else
    let n := leafCount l
    ((tileLeaves l t).map fun leaf =>
      -- the slices j with floor(j N / n) = leaf
      let lo := (leaf * l.slices + n - 1) / n
      let hi := ((leaf + 1) * l.slices + n - 1) / n
      (List.range (hi - lo)).map (· + lo)).flatten

def ownUnits (s : State) : List Nat := tileUnits s.launch s.tileId
/-- Units below a child. -/
def unitsUnder (s : State) (t : Nat) : Nat :=
  ((treeUnder (treeTiles s) t).map fun p => (tileUnits s.launch p).length).sum

def slotFull (s : State) (r : RedSlot) : Bool :=
  r.units.length + r.kids.length == (ownUnits s).length + (s.kids).length

/-! ### Forwarding -/

/-- R286: the units a slot lacks. -/
def slotMissing (s : State) (r : RedSlot) : Nat :=
  ((ownUnits s).filter fun u => !r.units.contains u).length
    + ((s.kids.filter fun k => !r.kids.contains k).map (unitsUnder s)).sum + r.missing

/-- R286: the record of what a slot that forwards LATE leaves owed. A node keeps 16; the oldest is dropped. -/
def owedOf (s : State) (r : RedSlot) : Owed :=
  { tag := r.tag, merged := r.units, units := (ownUnits s).filter fun u => !r.units.contains u,
    kids := s.kids.filter fun k => !r.kids.contains k }
def owedAdd (o : Owed) (l : List Owed) : List Owed := (o :: l).take 16
/-- R286: a record that owes nothing; only the root keeps it. -/
def Owed.idle (o : Owed) : Bool := o.units.isEmpty && o.kids.isEmpty

/-- R286: the root forms the result and multicasts it; its result table keeps it in place of the entry's earlier contents, and
with that the owed records of the entry go. -/
def storeResult (r : NredRes) (t : TileSt) : TileSt :=
  let k := r.tag.toNat % 16
  { t with redTab := tabSet t.redTab k r, owed := t.owed.filter fun o => o.tag.toNat % 16 != k }

def rootResult (r : RedSlot) (missing : Nat) : NredRes :=
  { tag := r.tag, op := r.op, s32 := r.s32, value := nredFold r.op r.vals, late := missing != 0 || r.late,
    miss := Nat.min missing 0xFFFF, laten := r.laten }

/-- What a node sends on: one result from its place as a child. -/
def nodeResult (s : State) (r : RedSlot) (late : Bool) (missing : Nat) : Contribution :=
  { tag := r.tag, op := r.op, s32 := r.s32, src := .child s.tileId, unit := 0, vals := r.vals, late := false,
    resultLate := late, missing := missing, more := false, part := s.core.vf }

/-! ### The limit of a slot under fadd (R287) -/

/-- The units 0 to j - 1 that the first partials of a list fold. -/
def prefixLen : List (Nat × Word) → Nat → Nat
  | [], j => j
  | x :: l, j => if x.1 = j then prefixLen l (j + 1) else j
/-- The partials of a slot that are not folded. -/
def unfolded (l : List (Nat × Word)) : List (Nat × Word) := l.drop (prefixLen l 0)

/-- A slot below the root that holds 64 unfolded partials forwards them and keeps counting. -/
def spill (r : RedSlot) (s : State) : RedSlot × State :=
  if r.op != 7 || (s.parent).isNone || decide ((unfolded r.vals).length < 64) then (r, s)
  else ({ r with vals := r.vals.take (prefixLen r.vals 0) },
        controlRed { nodeResult s r false 0 with vals := unfolded r.vals, more := true } 0 s)

/-- R286: a slot forwards and is freed: `timeout` says that its timer has run out. -/
def forwardSlot (r : RedSlot) (timeout : Bool) (s : State) : State :=
  let missing := if timeout then slotMissing s r else r.missing
  let late := timeout || r.late
  let s := s.onTile fun t => { t with redSlots := t.redSlots.erase r, late := t.late || late }
  let s' :=
    match s.parent with
    | none =>
      let res := { rootResult r missing with late := late }
      controlAll (.redRes res) (s.onTile (storeResult res))
    | some _ => controlRed (nodeResult s r late missing) missing s
  if late then
    let o := owedOf s r
    if (s.parent).isSome && o.idle then s'
    else s'.onTile fun t => { t with owed := owedAdd o t.owed }
  else s'

/-! ### Arrivals -/

/-- R286: whether an owed record still owes an arrival. -/
def owes (c : Contribution) (o : Owed) : Bool :=
  o.tag == c.tag && (match c.src with | .own => o.units.contains c.unit | .child k => o.kids.contains k)
def strike (c : Contribution) (o : Owed) : Owed :=
  match c.src with
  | .own => { o with units := o.units.erase c.unit }
  | .child k => { o with kids := o.kids.erase k }

/-- R286: the arrival is struck from the oldest record that owes it; the first partials of a child leave it owed (R287). A record that
owes nothing is kept only at the root. -/
def strikeOne (c : Contribution) : List Owed → List Owed
  | [] => []
  | o :: l => if !(l.any (owes c)) && owes c o then strike c o :: l else o :: strikeOne c l
def strikeAll (root : Bool) (c : Contribution) (l : List Owed) : List Owed :=
  if c.more then l else (strikeOne c l).filter fun o => root || !o.idle

/-- R286: an arrival of a unit that the node has merged for the tag. -/
def doubled (s : State) (c : Contribution) : Bool :=
  match c.src with
  | .own => s.tile.redSlots.any (fun r => r.tag == c.tag && r.units.contains c.unit) ||
      s.tile.owed.any fun o => o.tag == c.tag && o.merged.contains c.unit
  | .child _ => false

/-- R286: a late arrival: sent on, marked late; at the root counted in LATEN while the result of its use has not left, else in
ERRS. The open slot of a tag is of the use of a late arrival where it has merged a result flagged LATE; of one that a record of the
root owes, the result has left. -/
def lateArrival (c : Contribution) (owed : Bool) (s : State) : State :=
  match s.parent with
  | some _ => controlRed { c with late := true, part := s.core.vf } 0 s
  | none =>
    let here (r : RedSlot) : Bool := r.tag == c.tag && r.late
    if !owed && s.tile.redSlots.any here then
      s.onTile fun t => { t with redSlots := t.redSlots.map fun r => if here r then { r with laten := r.laten + 1 } else r }
    else errCount 1 s

/-- An arrival merged into a slot. -/
def mergeSlot (c : Contribution) (r : RedSlot) : RedSlot :=
  { r with vals := nredMerge r.op r.s32 r.vals c.vals, late := r.late || c.resultLate, missing := r.missing + c.missing,
           units := match c.src with | .own => r.units ++ [c.unit] | .child _ => r.units,
           kids := match c.src with | .own => r.kids | .child k => if c.more then r.kids else r.kids ++ [k] }

def newSlot (c : Contribution) : RedSlot :=
  mergeSlot c { tag := c.tag, op := c.op, s32 := c.s32, units := [], kids := [], vals := [], late := false, missing := 0, laten := 0 }

/-- R286, step 4: merged into the open slot of its tag, or a new one; none where all sixteen are taken. -/
def mergeArrival (c : Contribution) (s : State) : Option State :=
  let fwd (r : RedSlot) (s : State) : State := if slotFull s r then forwardSlot r false s else s
  match s.tile.redSlots.find? fun r => r.tag == c.tag with
  | some r =>
    let (r', s) := spill (mergeSlot c r) s
    some (fwd r' (s.onTile fun t => { t with redSlots := t.redSlots.map fun x => if x == r then r' else x }))
  | none =>
    if s.tile.redSlots.length ≥ 16 then none
    else
      let (r', s) := spill (newSlot c) s
      some (fwd r' (s.onTile fun t => { t with redSlots := t.redSlots ++ [r'] }))

/-- R286: the decision on an arrival; none while it waits for a slot. -/
def decideArrival (c : Contribution) (s : State) : Option State :=
  if c.late then some (lateArrival c false s)
  else if s.tile.owed.any (owes c) then
    some (lateArrival c true (s.onTile fun t => { t with owed := strikeAll (s.parent).isNone c t.owed }))
  else if doubled s c then some (errCount 1 s)
  else mergeArrival c s

/-- NRED_ARRIVAL: an own contribution is the head of the collective queue, and its operation is performed with its decision
(R285). -/
def nredArrival (c : Contribution) (s : State) : State :=
  match c.src with
  | .child _ => if foreignPart s c.part then s else (decideArrival c s).getD s
  | .own =>
    match s.queue 10 with
    | [] => s
    | o :: _ =>
      if o.started && !o.finished && o.kind == .nred c && !engHeld s then
        -- the secondary's copy is discarded (R410)
        if secondary s then stopHead 10 0 none s
        else
          match decideArrival c s with
          | none => s
          | some s => stopHead 10 0 none s
      else s
def execNredArrival (c : Contribution) (s : State) : Host.Outcome State Fault Refusal := done (nredArrival c s)

/-- NRED_SLOT_TIMEOUT; a freeze holds the timer (R426). -/
def execNredSlotTimeout (slot : Nat) (s : State) : Host.Outcome State Fault Refusal :=
  match s.tile.redSlots[slot]? with
  | none => done s
  | some r => done (if s.tile.frozen then s else forwardSlot r true s)

/-- NRED_RESULT: the root's result reaches this tile (R286, R288). -/
def execNredResult (r : NredRes) (s : State) : Host.Outcome State Fault Refusal :=
  done (s.onTile fun t => { t with redTab := tabSet t.redTab (r.tag.toNat % 16) r })

end Sys2Proof.Machine
end

