-- ==== Sys2Proof/Machine/EvMatrix.lean ====
section
/-! DEFINITION. Steps of the matrix unit (R175, R181 to R189, R195 to R199, R399). A command's effect is visible from its start; what
waits for its completion waits for MATRIX_CMD_COMPLETE. -/

namespace Sys2Proof.Machine

def onMx (f : MxCtx → MxCtx) (s : State) : State := s.onCore fun c => { c with mx := f c.mx }

/-- R174: the context of an owner that has ended is released once its queue has drained. -/
def mxSettle (s : State) : State :=
  match s.core.mx.owner with
  | none => s
  | some (t, o) =>
    if s.core.mx.queue.isEmpty && !s.tasks.any (fun x => sameTask x t o) then onMx (fun _ => {}) s else s

/-- R195: the i-th command fails: it and the commands behind it leave the queue, and its trap goes to its task (R118). -/
def mxFail (i : Nat) (m : MxCmd) (f : MxFail) (s : State) : State :=
  let behind := s.core.mx.queue.length - i - 1
  let live := s.tasks.any fun x => sameTask x m.tid m.origin
  let s := onMx (fun c => { c with queue := c.queue.take i, disc := Nat.min 255 behind, err := live }) s
  mxSettle (deliverTrap m.tid m.origin { cause := f.1, detail := 0, val := f.2, op := none } s)

/-! ### MATRIX_CMD_START -/

/-- R182: a command waits at the head of its queue for the phase of its barrier. -/
def mxReleased (s : State) (m : MxCmd) : Bool :=
  match m.bar with
  | none => true
  | some n => phasePassed (s.bar n) m.barPhase

/-- R198: the accumulator that a command reads is present. -/
def mxPresent (s : State) (m : MxCmd) : Bool :=
  match m.fn with
  | .mma => s.core.mx.absent m.acc == 0
  | .mdrain => s.core.mx.absent m.acc == 0
  | _ => true

/-- R175: which command may start: the head, or an MLATCH behind a running MMA or MMAS. An MROT starts by its arrival (R186). -/
def mxNext (s : State) : Option (Nat × MxCmd) :=
  match s.core.mx.queue with
  | [] => none
  | m :: r =>
    if !m.started then (if m.fn != .mrot && mxReleased s m && mxPresent s m then some (0, m) else none)
    else
      match r with
      | [] => none
      | l :: _ =>
        if (m.fn == .mma || m.fn == .mmas) && l.fn == .mlatch && !l.started && l.bar.isNone then some (1, l) else none

def markStarted (i : Nat) (s : State) : State :=
  onMx (fun c => { c with queue := modIdx c.queue i fun m => { m with started := true } }) s

/-- The tile and the record that a command reads: whether one holds a poisoned word (R401), the record first. -/
def mxPoison (s : State) (m : MxCmd) : Option Bool :=
  let f := if m.fn == .mlatch then m.fmtb else m.fmta
  let p := if m.fn == .mlatch then m.ptrB else m.ptrA
  if f == 7 && anyPoison s.core.tcmPoison p 72 then some true
  else if anyPoison s.core.tcmPoison m.base (tileBytes f) then some false
  else none

/-- The start checks of a command, with what a poisoned operand adds. -/
def mxStartCheck (s : State) (m : MxCmd) : Option MxFail :=
  let c := if m.fn == .mlatch then mlatchCheck s m else mmaCheck s m
  match c with
  | some f => if f.1 == cSCALESEQ && mxPoison s m == some true then some (mxErr 5 0) else some f
  | none => if (mxPoison s m).isSome then some (mxErr 5 0) else none

/-- What a command that starts does. -/
def mxStart (i : Nat) (m : MxCmd) (s : State) : State :=
  match m.fn with
  | .mzero => markStarted i (onMx (fun c => c.setAcc m.acc [] false [] false) s)
  | .mrot => s
  | .mdrain => markStarted i s
  | .mlatch =>
    match mxStartCheck s m with
    | some f => mxFail i m f s
    | none => markStarted i (mlatchRun s m)
  | .mma =>
    match mxStartCheck s m with
    | some f => mxFail i m f s
    | none => markStarted i (mmaRun s m)
  | .mmas =>
    match mxStartCheck s m with
    | some f => mxFail i m f s
    | none => markStarted i (mmaRun s m)

def matrixCmdStart (s : State) : State :=
  if engHeld s then s
  else
    match mxNext s with
    | none => s
    | some (i, m) => mxStart i m s
/-- MATRIX_CMD_START. -/
def execMatrixCmdStart (s : State) : Host.Outcome State Fault Refusal := done (matrixCmdStart s)

/-! ### MATRIX_CMD_COMPLETE -/

/-- The head has completed (R187: DONE). -/
def mxPop (s : State) : State := mxSettle (onMx (fun c => { c with queue := c.queue.drop 1, done := c.done + 1 }) s)

/-- R198, R410: what is compared of unit k of a pair's drain into shared memory; the unit after the last is the atomic. -/
def unitWhat (m : MxCmd) (k : Nat) : PairWhat := .unit m.tid m.origin m.seg m.part k
/-- A unit whose hash has gone, once, to be compared. -/
def unitAsk (m : MxCmd) (k : Nat) (bs : List Byte) (s : State) : State :=
  if s.core.pairQ.any fun x => x.what == unitWhat m k then s else pairRelease (unitWhat m k) m.tid m.origin bs s

def mxKey (m : MxCmd) (idx : Nat) : EngKey :=
  { queue := 8, tid := m.tid, origin := m.origin, stamp := m.stamp, seg := m.seg, part := m.part, idx := idx }

/-- R189: the absolute maximum, once every unit is written. -/
def drainAmo (m : MxCmd) (s : State) : State × Option EStop :=
  if m.amax = 0 then (mxPop s, none)
  else
    match engXlat .amo m.amax.toNat m.priv s with
    | .error (.refuse va) => (mxFail 0 m (mxErr 4 va) s, none)
    | .error e => (s, some e)
    | .ok (pa, s1) =>
      let x := drainMax (s.core.mx.kind m.acc) (s.core.mx.acc m.acc)
      let what := unitWhat m m.moved
      if !mayAct what s then (unitAsk m m.moved (leBytes 8 pa ++ leBytes 8 x) s, none)
      else if secondary s then (mxPop (acted what s), none)
      else
      let s1 := acted what (chargeAccess pa 4 s1)
      match amoPerform s1 { op := 10, s32 := true, pa := pa, v := BitVec.ofNat 64 x, e := 0 } with
      | .value _ h => (mxPop { s1 with home := h }, none)
      | .unheard h => (mxPop (failNamed m.tid m.origin 1 true { s1 with home := h }), none)
      | .lost => (mxPop (failNamed m.tid m.origin 1 true s1), none)
      | .refused => (mxPop (failNamed m.tid m.origin 1 false s1), none)
      | .poison => (mxFail 0 m (mxErr 5 pa) s1, none)

/-- R188, R189: the next 64 bytes of the head MDRAIN, or its end. -/
def drainStep (m : MxCmd) (s : State) : State × Option EStop :=
  if tileBytes m.fmt ≤ 64 * m.moved then drainAmo m s
  else
    let bs := drainUnit (s.core.mx.kind m.acc) m.fmt m.sat (s.core.mx.acc m.acc) m.moved
    let tcm := m.dst.getLsbD 63
    let a := (if tcm then (m.dst.extractLsb' 0 17).toNat else m.dst.toNat) + 64 * m.moved
    let what := unitWhat m m.moved
    if !tcm && !mayAct what s then (unitAsk m m.moved (bs ++ leBytes 8 a) s, none)
    else
    match engWrite (mxKey m (8 * m.moved)) tcm a bs m.priv (if tcm then s else acted what s) with
    | .error (.refuse va) => (mxFail 0 m (mxErr 4 va) s, none)
    | .error (.bad pa) => (mxFail 0 m (mxErr 5 pa) s, none)
    | .error e => (s, some e)
    | .ok s => (onMx (fun c => { c with queue := modIdx c.queue 0 fun m => { m with moved := m.moved + 1 } }) s, none)

/-- The completion of the head, or the next unit of a drain; and what keeps it. -/
def mxComplete (s : State) : State × Option EStop :=
  match s.core.mx.queue with
  | [] => (s, none)
  | m :: _ =>
    if !m.started then (s, none)
    else
      match m.fn with
      | .mrot => (s, none)
      | .mlatch => (mxPop (onMx (fun c => latchSwitch c.load c) s), none)
      | .mdrain => if engHeld s then (s, none) else drainStep m s
      | .mma => (mxPop s, none)
      | .mmas => (mxPop s, none)
      | .mzero => (mxPop s, none)
/-- MATRIX_CMD_COMPLETE. -/
def execMatrixCmdComplete (s : State) : Host.Outcome State Fault Refusal := done (mxComplete s).1

/-! ### MROT_ROTATE, ACC_PARITY_REPLAY -/

/-- The latch of another core, of which this core knows nothing (log entry 8). -/
def freeLatch (s : State) : Latch × State :=
  let w (k : Nat) : Word := Config.freeWord (s.fresh + k)
  ({ fmt := (w 0).extractLsb' 0 3, sup := (w 1).extractLsb' 0 32,
     codes := (List.range 64).map fun k => (w (2 + k)).extractLsb' 0 8,
     tile := (List.range 8192).map fun k => (w (66 + k)).extractLsb' 0 8 }, { s with fresh := s.fresh + 8258 })

/-- MROT_ROTATE (R186): the phase that the MROT joined has completed. -/
def mrotRotate (s : State) : State :=
  match s.core.mx.queue with
  | [] => s
  | m :: _ =>
    if m.fn == .mrot && m.started && mxReleased s m then
      let (l, s) := freeLatch s
      mxPop (onMx (latchSwitch l) s)
    else s
def execMrotRotate (s : State) : Host.Outcome State Fault Refusal := done (mrotRotate s)

/-- ACC_PARITY_REPLAY: the replay gives the bits of the first run (R197). Whether a base that is a checkpoint is intact is open (log
entry 8), and where it is not the owner consumes the error (R399, R404); another base always is. -/
def accParityReplay (a : Bool) (s : State) : State :=
  if !s.core.mx.chk a then s
  else
    let (x, s) := s.free
    if !x.getLsbD 0 then s
    else
      match s.core.mx.owner with
      | none => s
      | some (t, o) => s.updCtx (fun u => u.st != .ended && !u.shadow && sameTask u t o) (errOf 1 0 0)
def execAccParityReplay (a : Bool) (s : State) : Host.Outcome State Fault Refusal := done (accParityReplay a s)

end Sys2Proof.Machine
end

