-- ==== Sys2Proof/Machine/EvBlock.lean ====
section
/-! DEFINITION. Steps of the block-table queue, queue 9 (R386, R388 to R393). -/

namespace Sys2Proof.Machine

/-! ### Free lists (R383, R386) -/

def noEntry : BitVec 32 := 0xFFFFFFFF
def freeHead (r : VfRegs) (tier : Bool) : BitVec 32 := if tier then r.btfreeH else r.btfreeL
def setFree (tier : Bool) (head : BitVec 32) (d : BitVec 32) (r : VfRegs) : VfRegs :=
  if tier then { r with btfreeH := head, btnfreeH := r.btnfreeH + d } else { r with btfreeL := head, btnfreeL := r.btnfreeL + d }

/-- An entry joins the free list of its tier. -/
def pushFree (i : Nat) (s : State) : State :=
  let e := getEntry s i
  let r := s.vfReg s.core.vf
  if secondary s then s
  else (putEntry i { e with next := freeHead r e.tier } s).setVf s.core.vf (setFree e.tier (BitVec.ofNat 32 i) 1 r)

/-- The head of a free list leaves it. -/
def popFree (tier : Bool) (s : State) : Option (Nat × State) :=
  let r := s.vfReg s.core.vf
  let h := freeHead r tier
  if h == noEntry then none
  else if secondary s then some (h.toNat, s)
  else some (h.toNat, s.setVf s.core.vf (setFree tier (getEntry s h.toNat).next (-1) r))

/-- R386: Alloc. -/
def blkAlloc (tier : Bool) (s : State) : Option (Nat × State) :=
  match popFree tier s with
  | none => none
  | some (i, s) =>
    let e := getEntry s i
    some (i, putEntry i { e with gen := e.gen + 1, refcnt := 1, drain := 0, cow := false, state := 1 } s)

/-- R386: a freed entry that nothing uses returns to its list. -/
def blkRetire (i : Nat) (e : BlkEntry) (s : State) : State :=
  if e.drain = 0 then pushFree i (putEntry i { e with state := 0, cow := false } s) else putEntry i { e with state := 3 } s

def dropMove (p : MoveRec → Bool) (s : State) : State := s.onHome fun h => { h with moves := h.moves.filter fun m => !p m }

/-- R386: an abandoned move gives its spare entry back. -/
def abandonMove (i : Nat) (s : State) : State :=
  match s.home.moves.find? fun m => m.vf == s.core.vf && m.entry == i && !m.committed with
  | none => s
  | some m => pushFree m.spare (dropMove (· == m) s)

/-- R386: Drop. -/
def blkDrop (i : Nat) (s : State) : State :=
  let e := getEntry s i
  let n := e.refcnt - 1
  if n != 0 then putEntry i { e with refcnt := n } s
  else
    let s := if e.state == 2 then abandonMove i s else s
    blkRetire i { e with refcnt := 0 } s

/-- R392, R393: one transfer less uses the block of an entry. -/
def decDrain (i : Nat) (s : State) : State :=
  let e := getEntry s i
  let e := { e with drain := e.drain - 1 }
  if e.drain = 0 && e.state == 3 then
    pushFree i (putEntry i { e with state := 0, cow := false } (dropMove (fun m => m.vf == s.core.vf && m.spare == i && m.committed) s))
  else putEntry i e s

/-- R392: the entry that now holds a remembered block. -/
def holderOf (p : BlkProg) (s : State) : Nat :=
  let e := getEntry s p.entry
  if e.pbn.toNat = p.pbn && e.tier == p.tier then p.entry
  else match oldCopy s p.entry with | none => p.entry | some m => m.spare

/-! ### Answers and failures (R388, R392) -/

/-- The head of queue 9 leaves it; what a comparison had let go is over with it (R410). -/
def blkPop (s : State) : State :=
  match s.queue 9 with
  | [] => s
  | o :: l => opActed o (setQueueOps 9 l s)

def waitsBlock (o : EngOp) (t : Task) : Bool := t.st != .ended && !t.shadow && sameTask t o.tid o.origin

/-- The entry step of a synchronous instruction answers. -/
def blkAnswer (o : EngOp) (ans : Option Word) (trap : Option PendTrap) (s : State) : State :=
  (blkPop s).updCtx (waitsBlock o) fun t => { t with wait := some (.block ans trap) }

def blkTrap (detail : BitVec 8) (h : Word) : PendTrap := { cause := cBLOCK, detail := detail, val := h, op := none }
def hgenTrap (h : Word) : PendTrap := { cause := cHGEN, detail := 0, val := h, op := none }

/-- R386: Check, with BLOCK or HGEN for a stale handle. -/
def blkCheck (h : Word) (stale : PendTrap) (s : State) : Option PendTrap :=
  if !hInRange s h then some (blkTrap 0x01 h)
  else
    let e := getEntry s (hIndex h)
    if e.gen != hGen h || e.refcnt == 0 then some stale else none

/-- R392: a transfer or a move that fails; a transfer writes its status word. -/
def blkFail (o : EngOp) (p : PendTrap) (sadr : Option Nat) (s : State) : State :=
  let s := match sadr with
    | none => s
    | some a => tcmPut s a (leBytes 8 (if p.cause == cHGEN then 2 ^ 61 else 2 ^ 60))
  deliverTrap o.tid o.origin p (blkPop s)

/-! ### BLOCK_ENTRY_STEP -/

/-- R389. -/
def blkrefStep (o : EngOp) (h : Word) (s : State) : State :=
  match blkCheck h (blkTrap 0x02 h) s with
  | some p => blkAnswer o none (some p) s
  | none =>
    let e := getEntry s (hIndex h)
    if e.refcnt == 0xFFFF then blkAnswer o none (some (blkTrap 0x03 h)) s
    else
      let n := e.refcnt + 1
      blkAnswer o (some (n.setWidth 64)) none (putEntry (hIndex h) { e with refcnt := n, cow := e.cow || decide (n ≥ 2) } s)
def blkrefNewStep (o : EngOp) (t : Word) (s : State) : State :=
  match blkAlloc (t == 1) s with
  | none => blkAnswer o none (some (blkTrap 0x04 t)) s
  | some (i, s) => blkAnswer o (some (handleOf (getEntry s i).gen i)) none s
def blkfreeStep (o : EngOp) (h : Word) (s : State) : State :=
  match blkCheck h (blkTrap 0x02 h) s with
  | some p => blkAnswer o none (some p) s
  | none =>
    let n := (getEntry s (hIndex h)).refcnt - 1
    blkAnswer o (some (n.setWidth 64)) none (blkDrop (hIndex h) s)

/-- R390, R401, R404: an error that BLKCOW's access to its slot meets. -/
def cowConsume (o : EngOp) (pa : Nat) (s : State) : State :=
  let (x, s') := s.free
  let f (t : Task) : Task :=
    if anyPoison s.home.poison pa 8 then errOf 1 x (BitVec.ofNat 64 pa) t else errOf 3 0 (BitVec.ofNat 64 pa) t
  let s' := if lostRead s pa || refusedAt s s.core.vf pa then failNamed o.tid o.origin 0 (lostRead s pa) s' else s'
  (blkPop s').updCtx (waitsBlock o) fun t => wake { f t with wait := none }
def slotBad (pa : Nat) (s : State) : Bool := lostRead s pa || refusedAt s s.core.vf pa || anyPoison s.home.poison pa 8

def blkcowStart (o : EngOp) (pa : Nat) (s : State) : State :=
  if slotBad pa s then cowConsume o pa s
  else
    let s := chargeAccess pa 8 s
    let h := leWord (memGetN s.home.mem pa 8)
    match blkCheck h (blkTrap 0x02 h) s with
    | some p => blkAnswer o none (some p) s
    | none =>
      let i := hIndex h
      let e := getEntry s i
      if e.refcnt == 1 then blkAnswer o (some 1) none (putEntry i { e with cow := false } s)
      else
        match blkAlloc e.tier s with
        | none => blkAnswer o none (some (blkTrap 0x04 h)) s
        | some (n, s) =>
          setHead 9 (fun o => { o with prog := some { handle := h, entry := i, pbn := e.pbn.toNat, tier := e.tier, gen := e.gen,
                                                      spare := n } })
            (putEntry i { e with drain := e.drain + 1 } s)

def blockPa (pbn off : Nat) : Nat := pbn * 65536 + off

/-- R401: a poisoned read stops the operation; what it holds is given back. -/
def blkPoison (o : EngOp) (pa : Nat) (s : State) : State := deliverTrap o.tid o.origin (engTrap 9 0x012 pa) (blkPop s)
/-- R241: a read that is lost or refused stops it in the same way, and is a failure of its task. -/
def blkStop (o : EngOp) (e : EStop) (pa : Nat) (s : State) : State :=
  blkPoison o pa (match e with | .gone _ dead => failNamed o.tid o.origin 0 dead s | _ => s)

/-- R390: a unit of the copy, or the step at the slot's home that ends it. -/
def blkcowGo (o : EngOp) (pa : Nat) (p : BlkProg) (s : State) : State :=
  if o.moved < 65536 then
    match engReadPa (blockPa p.pbn o.moved) 64 s with
    | .error e =>
      (blkStop o e (blockPa p.pbn o.moved) (blkDrop p.spare (decDrain (holderOf p s) s))).updCtx (waitsBlock o)
        fun t => wake { t with wait := none }
    | .ok (bs, s) =>
      setHead 9 (fun o => { o with moved := o.moved + 64 })
        (engWritePa (opKey 9 o (o.moved / 8)) (blockPa (getEntry s p.spare).pbn.toNat o.moved) bs s)
  else
    let s := decDrain (holderOf p s) s
    if slotBad pa s then cowConsume o pa (blkDrop p.spare s)
    else
      let s := chargeAccess pa 8 s
      if leWord (memGetN s.home.mem pa 8) == p.handle then
        let h' : Word := (p.handle.extractLsb' 56 8 ++ (0#56 : BitVec 56)) ||| handleOf (getEntry s p.spare).gen p.spare
        blkAnswer o (some 0) none (blkDrop p.entry (s.onHome fun h => homePut h pa (leBytes 8 h'.toNat)))
      else blkAnswer o (some 2) none (blkDrop p.spare s)

/-- R392: the entry step of a transfer. -/
def moveStart (o : EngOp) (put : Bool) (h : Word) (sadr : Nat) (s : State) : State :=
  match blkCheck h (hgenTrap h) s with
  | some p => blkFail o p (some sadr) s
  | none =>
    let e := getEntry s (hIndex h)
    if put && h.getLsbD 56 then blkFail o (blkTrap 0x06 h) (some sadr) s
    else if put && e.cow then blkFail o (blkTrap 0x05 h) (some sadr) s
    else if put && e.state == 2 then s
    else
      setHead 9 (fun o => { o with started := true, prog := some { handle := h, entry := hIndex h, pbn := e.pbn.toNat, tier := e.tier,
                                                                   gen := e.gen, spare := 0 } })
        (putEntry (hIndex h) { e with drain := e.drain + 1 } s)

/-- R392: a unit of a transfer. -/
def moveUnit (o : EngOp) (put : Bool) (off tadr len : Nat) (p : BlkProg) (s : State) : State :=
  if o.moved ≥ len then s
  else
    let pa := blockPa p.pbn (off + o.moved)
    let t := tadr + o.moved
    let next (s : State) : State := setHead 9 (fun o => { o with moved := o.moved + 64 }) s
    if put then
      match engRead true t 64 0 s with
      | .error _ => blkPoison o 0 (decDrain (holderOf p s) s)
      | .ok (bs, s) => next (engWritePa (opKey 9 o (o.moved / 8)) pa bs s)
    else
      match engReadPa pa 64 s with
      | .error e => blkStop o e pa (decDrain (holderOf p s) s)
      | .ok (bs, s) => next (tcmPut s t bs)

/-- R393: the die whose block agent keeps the move records of a table. -/
def tableDie (s : State) (v : BitVec 6) : Nat :=
  match homeOf ((s.vfReg v).btbase.toNat * 65536) with | some (.hbm d _) => d | _ => 0
def movesFull (s : State) : Bool :=
  decide ((s.home.moves.filter fun m => tableDie s m.vf == tableDie s s.core.vf).length ≥ 256)

/-- R393: the start of a move. -/
def tierStart (o : EngOp) (h t : Word) (s : State) : State :=
  if t > 1 then blkFail o (blkTrap 0x07 h) none s
  else if secondary s then blkPop s
  else
    match blkCheck h (hgenTrap h) s with
    | some p => blkFail o p none s
    | none =>
      let i := hIndex h
      let e := getEntry s i
      if e.tier == (t == 1) then blkPop s
      else if e.state == 2 || (oldCopy s i).isSome || movesFull s then s
      else
        match popFree (t == 1) s with
        | none => blkFail o (blkTrap 0x04 h) none s
        | some (n, s) =>
          setHead 9 (fun o => { o with prog := some { handle := h, entry := i, pbn := e.pbn.toNat, tier := e.tier, gen := e.gen, spare := n } })
            ((putEntry i { e with state := 2 } s).onHome fun x =>
              { x with moves := x.moves ++ [{ vf := s.core.vf, entry := i, spare := n, committed := false }] })

/-- R393: whether the move of the head still stands. -/
def moveLives (p : BlkProg) (s : State) : Bool :=
  s.home.moves.contains { vf := s.core.vf, entry := p.entry, spare := p.spare, committed := false }

/-- R393: words copied with their merge tags. -/
def copyTags (src dst : Nat) (h : HomeSt) : Nat → HomeSt
  | 0 => h
  | n + 1 =>
    let ts := match tabGet? h.tags src with | none => tabDel h.tags dst | some t => tabSet h.tags dst t
    copyTags (src + 1) (dst + 1) { h with tags := ts } n

/-- R367, R387: 64 bytes from one home to another. -/
def chargeUnit (src dst : Nat) (s : State) : State :=
  match homeOf src, homeOf dst with
  | some a, some b =>
    let ca := homeCluster s.dieId a
    let cb := homeCluster s.dieId b
    chargeHome a 1 (chargeHome b 1 (chargeTo s.core.vf (flits 64 *
      ((meshHops ca cb + Config.butterflyHops (1024 + ca) cb) * 100000 + bridges ca cb * 300000)) s))
  | _, _ => s

/-- R393: a unit of the copy. A move that has been abandoned is over. -/
def tierUnit (o : EngOp) (p : BlkProg) (s : State) : State :=
  if !moveLives p s then blkPop s
  else if o.moved ≥ 65536 then s
  else
    let src := blockPa p.pbn o.moved
    let dst := blockPa (getEntry s p.spare).pbn.toNat o.moved
    let give (s : State) : State := putEntry p.entry { getEntry s p.entry with state := 1 } (abandonMove p.entry s)
    if refusedAt s s.core.vf src || refusedAt s s.core.vf dst then
      blkStop o (.gone src false) (if refusedAt s s.core.vf src then src else dst) (give s)
    else if anyPoison s.home.poison src 64 then blkPoison o src (give s)
    else
      setHead 9 (fun o => { o with moved := o.moved + 64 })
        ((chargeUnit src dst s).onHome fun h => copyTags (src / 8) (dst / 8) (homePut h dst (memGetN h.mem src 64)) 8)

/-- R409, R410: a synchronous step of the secondary takes its result from the primary; only a trap is its own. -/
def syncStep (o : EngOp) (r s : State) : State :=
  let trapped (t : Task) : Bool := waitsBlock o t && (match t.wait with | some (.block _ (some _)) => true | _ => false)
  if secondary s && !(r.findCtx trapped).isSome then s else r

def blockEntryStep (s : State) : State :=
  match s.queue 9 with
  | [] => s
  | o :: _ =>
    if engHeld s || !opMay o s then s
    else
      match o.kind, o.prog with
      | .blkref h, _ => syncStep o (blkrefStep o h s) s
      | .blkrefNew t, _ => syncStep o (blkrefNewStep o t s) s
      | .blkfree h, _ => syncStep o (blkfreeStep o h s) s
      | .blkcow pa, none => syncStep o (blkcowStart o pa s) s
      | .blkcow pa, some p => syncStep o (blkcowGo o pa p s) s
      | .get h _ _ _ sa, none => moveStart o false h sa s
      | .get _ off ta len _, some p => moveUnit o false off ta len p s
      | .put h _ _ _ sa, none => moveStart o true h sa s
      | .put _ off ta len _, some p => moveUnit o true off ta len p s
      | .tier h t, none => tierStart o h t s
      | .tier _ _, some p => tierUnit o p s
      | _, _ => s
/-- BLOCK_ENTRY_STEP: the entry step of the operation at the head of queue 9, or the next 64-byte unit of its copy. -/
def execBlockEntryStep (s : State) : Host.Outcome State Fault Refusal := done (blockEntryStep s)

/-! ### BLKMOVE_TRANSFER_END, BLKMOVE_TIER_COMMIT -/

def transferEnd (p : BlkProg) (len sadr : Nat) (s : State) : State :=
  let s := decDrain (holderOf p s) s
  let e := getEntry s p.entry
  let freed := e.gen != p.gen || e.refcnt == 0
  blkPop (tcmPut s sadr (leBytes 8 (2 ^ 63 + (if freed then 2 ^ 62 else 0) + len)))

def blkmoveTransferEnd (s : State) : State :=
  match s.queue 9 with
  | [] => s
  | o :: _ =>
    match o.kind, o.prog with
    | .get _ _ _ len sa, some p => if o.moved < len || engHeld s then s else transferEnd p len sa s
    | .put _ _ _ len sa, some p => if o.moved < len || engHeld s then s else transferEnd p len sa s
    | _, _ => s
def execBlkmoveTransferEnd (s : State) : Host.Outcome State Fault Refusal := done (blkmoveTransferEnd s)

/-- R393: the commit. -/
def tierCommit (p : BlkProg) (s : State) : State :=
  let e := getEntry s p.entry
  let n := getEntry s p.spare
  let s := putEntry p.entry { e with pbn := n.pbn, tier := n.tier, drain := 0, state := 1 } s
  let n' := { n with pbn := e.pbn, tier := e.tier, drain := e.drain, state := 3 }
  let own (m : MoveRec) : Bool := m == { vf := s.core.vf, entry := p.entry, spare := p.spare, committed := false }
  if e.drain = 0 then pushFree p.spare (putEntry p.spare { n' with state := 0 } (dropMove own s))
  else
    (putEntry p.spare n' s).onHome fun h => { h with moves := h.moves.map fun m => if own m then { m with committed := true } else m }

def blkmoveTierCommit (s : State) : State :=
  match s.queue 9 with
  | [] => s
  | o :: _ =>
    match o.kind, o.prog with
    | .tier _ _, some p => if o.moved < 65536 || engHeld s || !moveLives p s then s else blkPop (tierCommit p s)
    | _, _ => s
def execBlkmoveTierCommit (s : State) : Host.Outcome State Fault Refusal := done (blkmoveTierCommit s)

end Sys2Proof.Machine
end

