-- ==== Sys2Proof/Machine/EvStart.lean ====
section
/-! DEFINITION. Candidates, their release and the start of activations (R27, R28, R294 to R300, R309, R310, R332). What the other cores
of the tile hold is not in the state: a candidate for one of them waits for a turn of the environment (log entry 3). -/

namespace Sys2Proof.Machine

/-! ### The inbox (R309) -/

/-- Where a message of n bytes goes: the pad before it, its offset; none where it does not fit without wrapping. -/
def inboxPlace (c : CoreSt) (size n : Nat) : Option (Option InChunk × Nat) :=
  let t := c.inboxTail
  let pad : InChunk := { off := t, len := size - t, live := false }
  match c.inbox with
  | [] => if n ≤ size - t then some (none, t) else if n ≤ size then some (none, 0) else none
  | x :: _ =>
    if t < x.off then (if n ≤ x.off - t then some (none, t) else none)
    else if t = x.off then none
    else if n ≤ size - t then some (none, t)
    else if n ≤ x.off then some (some pad, 0)
    else none

/-- A message in its place; what its 16 bytes of header hold is open (log entry 8). -/
def inboxPut (off : Nat) (pad : Option InChunk) (payload : List Word) (s : State) : State :=
  let n := msgBytes (8 * payload.length)
  let next := if off + n = s.launch.inbox then 0 else off + n
  let a := s.inboxBase + off
  let hdr := (Config.freeWord s.fresh).toNat + 2 ^ 64 * (Config.freeWord (s.fresh + 1)).toNat
  let bs := leBytes 16 hdr ++ (payload.map fun w => leBytes 8 w.toNat).flatten
  let s := { s with fresh := s.fresh + 2 }
  (tcmPut s a bs).onCore fun c =>
    { c with inbox := c.inbox ++ pad.toList ++ [{ off := off, len := n, live := true }], inboxTail := next }

/-- A candidate's payload enters its core's inbox, where it fits. The inboxes of other cores are not in the state. -/
def enterInbox (c : Cand) (s : State) : Option (Cand × State) :=
  if c.core != s.core.id || c.bytes = 0 then some ({ c with place := .inbox }, s)
  else
    match inboxPlace s.core s.launch.inbox c.bytes with
    | none => none
    | some (pad, off) => some ({ c with place := .inbox, off := off }, inboxPut off pad c.payload s)

/-! ### The table, the holding queue, the heap (R298, R299, R309, R310) -/

def allCands (s : State) : List Cand := s.tile.cands ++ s.tile.overflow
def inPlace (p : CandAt) (c : Cand) : Bool := c.place == p
def heapBytes (s : State) : Nat := ((((allCands s).filter (inPlace .heap))).map (·.bytes)).sum
def heapUsed (s : State) : Bool := (allCands s).any (inPlace .heap)
def holdingOf (s : State) : List Cand := (allCands s).filter (inPlace .holding)

/-- R29: the bramble thread is ready when the holding queue is full or the heap holds something to replay, and else idles. -/
def brambleIdle (s : State) : State :=
  s.onCore fun c => { c with bramble := decide ((holdingOf s).length ≥ 16) || heapUsed s }

/-- Where an arriving candidate's payload is held; none where it must wait on its link. -/
def placeCand (c : Cand) (s : State) : Option (Cand × State) :=
  if c.core != s.core.id then some ({ c with place := .inbox }, s)
  else if heapUsed s then
    (if heapBytes s + c.bytes ≤ 2 ^ 20 then some ({ c with place := .heap }, s) else none)
  else
    let hold : Option (Cand × State) := if (holdingOf s).length ≥ 16 then none else some ({ c with place := .holding }, s)
    if (holdingOf s).isEmpty then (match enterInbox c s with | some r => some r | none => hold) else hold

def candLt (a b : Cand) : Bool := keyLt a.key b.key
def lowestCand (s : State) : Option Cand := leastBy candLt s.tile.cands
def highestCand (s : State) : Option Cand := leastBy (fun a b => candLt b a) s.tile.cands
def leastOverflow (s : State) : Option Cand := leastBy candLt s.tile.overflow

/-- R299: a candidate whose table entry goes to another; its payload moves to the heap. -/
def evict (h : Cand) (s : State) : State :=
  let s := if h.place == .inbox && h.core == s.core.id && h.bytes != 0 then s.onCore (freeChunk h.off) else s
  s.onTile fun t => { t with cands := t.cands.erase h, overflow := t.overflow ++ [{ h with place := .heap }] }

def above (c : Cand) : Option Cand → Bool
  | none => false
  | some x => candLt x c

/-- R299: while an overflow candidate exists, or with the table full, a key above the least overflow key or the table's highest goes to
the heap. -/
def toHeap (c : Cand) (s : State) : Bool :=
  (!s.tile.overflow.isEmpty || decide (s.tile.cands.length ≥ 256)) && (above c (leastOverflow s) || above c (highestCand s))

/-- R299: an arriving candidate is kept; none where back-pressure holds it on its link. -/
def addCand (c : Cand) (s : State) : Option State :=
  let full := decide (s.tile.cands.length ≥ 256)
  if toHeap c s then
    if heapBytes s + c.bytes ≤ 2 ^ 20 then
      some (brambleIdle (s.onTile fun t => { t with overflow := t.overflow ++ [{ c with place := .heap }] }))
    else none
  else
    let s := match full, highestCand s with | true, some h => evict h s | _, _ => s
    match placeCand c s with
    | none => none
    | some (c, s) => some (brambleIdle (s.onTile fun t => { t with cands := t.cands ++ [c] }))

/-- R309: a message that exceeds the whole inbox less 16 bytes. -/
def tooBig (s : State) (m : Msg) : Bool := decide (msgBytes (8 * m.payload.length) + 16 > s.launch.inbox)

/-- R27, R331: whether a class starts migratory tasks. -/
def classMig (s : State) (cls : BitVec 4) : Bool :=
  s.launch.migratory && (match s.launch.classtab[cls.toNat]? with | none => false | some b => b.getLsbD 7)

/-- R309: free inbox bytes of a core of the tile; an inbox of which the environment has said nothing is empty, as a launch finds it. -/
def inboxFree (s : State) (slot : Nat) : Nat :=
  if slot = s.core.id.toNat % 8 then s.launch.inbox - (s.core.inbox.map (·.len)).sum
  else tabGet s.tile.otherFree s.launch.inbox slot
/-- R309: the slot with the most, the lower one on a tie. -/
def roomiest (s : State) : Nat := (List.range 8).foldl (fun a k => if inboxFree s k > inboxFree s a then k else a) 0

/-- R309: the core that takes a message; with ANY or in a multicast the tile chooses. -/
def chooseCore (any : Bool) (dest : BitVec 13) (s : State) : BitVec 13 :=
  if any then BitVec.ofNat 13 (s.tileId * 8 + roomiest s) else hereCore s dest

def mkCand (s : State) (m : Msg) (key : ActKey) (cls : Option (BitVec 4)) (core : BitVec 13) : Cand :=
  { key := key, cls := cls, core := core, pc := m.handler,
    mig := match cls with | none => m.mig | some c => classMig s c, priv := if s.launch.svc then 1 else 0,
    w1 := BitVec.ofNat 64 (8 * m.payload.length), w2 := m.score.setWidth 64,
    w3 := match cls with | none => 0 | some c => c.setWidth 64, payload := m.payload, tag := m.tag, leaf := m.leaf,
    xferid := 0, traps := [], place := .inbox, bytes := msgBytes (8 * m.payload.length), off := 0,
    handler0 := cls.isSome && m.handler == 0 }

/-- R294: a local activation, or a message of a self-link. -/
def addLocal (m : Msg) (cls : Option (BitVec 4)) (s : State) : Option State :=
  let core := chooseCore (m.any || m.mc) m.dest s
  let key : ActKey := { stamp := m.stamp.toNat, src := pairTile s + 1, seq := s.tile.localSeq }
  (addCand (mkCand s m key cls core) s).map fun s => s.onTile fun t => { t with localSeq := t.localSeq + 1 }

/-- COMPLETION_ACTIVATION: a new activation of the issuing core, with the keys and registers of R279; where back-pressure holds it, it
waits. -/
def completionCand (s : State) (o : Orphan) : Cand :=
  { key := { stamp := o.stamp.toNat, src := pairTile s + 1, seq := s.tile.localSeq }, cls := none, core := s.core.id,
    pc := o.compl.handler, mig := false, priv := o.priv, w1 := o.compl.status, w2 := (pairCore s).setWidth 64, w3 := 0, payload := [],
    tag := o.tag, leaf := o.leaf, xferid := o.compl.xid, traps := o.traps.map fun p => { p with op := none }, place := .inbox,
    bytes := 0, off := 0, handler0 := false }
def completionActivation (s : State) : State :=
  match s.core.orphans with
  | [] => s
  | o :: os =>
    match addCand (completionCand s o) (s.onCore fun x => { x with orphans := os }) with
    | none => s
    | some s => s.onTile fun t => { t with localSeq := t.localSeq + 1 }
def execCompletionActivation (s : State) : Host.Outcome State Fault Refusal := done (completionActivation s)

/-! ### The start of an activation (R27, R28) -/

/-- Frames in use: those of tasks, and of tasks migrating out (R44). -/
def frameUsed (s : State) (k : Nat) : Bool :=
  s.tasks.any (fun t => t.frame == k) || s.tile.unaccepted.any fun u => match u with | .mig _ f => f == k | _ => false
def freeFrame (s : State) : Option Nat := (List.range s.launch.frames).find? fun k => !frameUsed s k

/-- R116: launch registers on their way are in force at an activation start. -/
def applyLaunchRegs (s : State) : State :=
  let seen (t : Task) : Task := { t with ownTrapvec := none, ownLogovf := none, ownSpillovf := none }
  { s with launch := { s.launch with trapvec := s.launch.trapvecNext, logovf := s.launch.logovfNext, spillovf := s.launch.spillovfNext },
           cur := seen s.cur, rest := s.rest.map seen }

def wpOf (s : State) (frame : Nat) : Nat := s.launch.image + 128 * frame

/-- R27: the workspace of a new task. -/
def startW (s : State) (c : Cand) (frame : Nat) : Vector Word 16 :=
  (((((Vector.replicate 16 0).set 1 c.w1).set 2 c.w2).set 3 c.w3).set 14
    (BitVec.ofNat 64 (s.spillBot frame + s.launch.spill)))

def newTask (s : State) (c : Cand) (frame seg : Nat) : Task :=
  { st := .ready, frame := frame, w := startW s c frame, pc := c.pc, mig := c.mig, pair := s.launch.paired, priv := c.priv,
    tid := (c.tag ++ c.leaf ++ s.core.serial : BitVec 64), origin := pairCore s, stamp := BitVec.ofNat 48 c.key.stamp,
    key := c.key, wp := BitVec.ofNat 17 (wpOf s frame), xferid := c.xferid, xstatus := if c.xferid = 0 then 0 else c.w1,
    payload := c.payload, q0 := c.payload, inboxAt := if c.bytes = 0 then none else some c.off, openSeg := seg,
    traps := c.traps, startPc := c.pc, startW := startW s c frame, startMig := c.mig, startXferid := c.xferid }

/-- A context that has ended and for which nothing is outstanding. -/
def gone (t : Task) : Bool := t.st == .ended && t.amos.isEmpty && t.loads.isEmpty && t.arrives.isEmpty

/-- A new workspace stands in place of what the frame held (R401). -/
def addTask (t : Task) (s : State) : State :=
  { s.onCore (fun c => { c with tcmPoison := poisonAfter c.tcmPoison t.wp.toNat 128, mx := mxTouch t.wp.toNat 128 c.mx })
      with rest := s.rest.filter (fun x => !gone x) ++ [t] }

def startTask (c : Cand) (frame : Nat) (s : State) : State :=
  let (seg, s) := nextSeg (applyLaunchRegs s)
  addTask (newTask s c frame seg) (s.onCore fun x => { x with serial := x.serial + 1 })

/-- R44, R46, R92: a task that arrives by migration: what it carries, and reset values. -/
def arrivedTask (s : State) (m : MigTask) (frame seg : Nat) : Task :=
  { st := .ready, frame := frame, w := m.w, pc := m.pc, mig := m.status.getLsbD 7, esc := m.status.getLsbD 6,
    pair := m.status.getLsbD 5, hvy := m.status.getLsbD 4, priv := m.status.extractLsb' 2 2, inu := m.status.getLsbD 1,
    tid := m.tid, origin := m.origin, stamp := m.stamp, key := m.key, wp := BitVec.ofNat 17 (wpOf s frame), openSeg := seg,
    startPc := m.pc, startW := m.w, startMig := m.status.getLsbD 7 }

/-- R118, R46: a free frame goes to the pending task of least key. -/
def grantFrame (s : State) : Option State :=
  match leastBy (fun a b => keyLt a.key b.key) (s.tile.migBuf.filter fun m => m.dest == pairCore s), freeFrame s with
  | some m, some frame =>
    let (seg, s) := nextSeg s
    some (addTask (arrivedTask s m frame seg) (s.onTile fun t => { t with migBuf := t.migBuf.erase m }))
  | _, _ => none

/-! ### CANDIDATE_RELEASE (R300, R332) -/

/-- R296: the promise of the local link; a task that has migrated out and is not yet accepted has ended here (log entry 97). -/
def localProm (s : State) : Nat :=
  minList (s.tasks.map (·.stamp.toNat) ++ s.tile.otherStamps ++ s.tile.migBuf.map (·.stamp.toNat) ++
    ((allCands s).filter fun c => c.key.src == pairTile s + 1).map (·.key.stamp) ++ spawnStamps s)

/-- R300: an inbound link by its source, class, promise. -/
structure LinkProm where
  src : Nat
  cls : Option (BitVec 4)
  prom : Nat
  deriving DecidableEq, Repr
def linkProms (s : State) : List LinkProm :=
  { src := 0, cls := none, prom := s.tile.launchProm } :: { src := pairTile s + 1, cls := none, prom := localProm s } ::
    s.tile.inLinks.map fun l => { src := l.src + 1, cls := some l.cls, prom := l.prom }

/-- R300: whether a link lets a candidate go. The launch link and the local link are told by their sources. -/
def linkAllows (s : State) (c : Cand) (l : LinkProm) : Bool :=
  let own := l.src == c.key.src && (c.key.src == 0 || c.key.src == pairTile s + 1 || l.cls == c.cls)
  if own || decide (l.src > c.key.src) then decide (l.prom ≥ c.key.stamp) else decide (l.prom > c.key.stamp)

/-- R324: a core's effective mask. -/
def coreMask (s : State) : BitVec 16 := s.tasks.foldl (fun a t => a ||| t.classMask) 0
def candMasked (s : State) (c : Cand) : Bool :=
  c.core == s.core.id && (match c.cls with | none => false | some k => (coreMask s).getLsbD k.toNat)

/-- R336: the class binding that takes a handler-0 message. -/
def bindsClass (cls : BitVec 4) (t : Task) : Option Nat :=
  if t.st == .ended || t.shadow then none
  else t.qs.toList.findIdx? fun q => match q with | none => false | some b => b.cls == some cls
def classBinding (s : State) (cls : BitVec 4) : Bool := (s.cur :: s.rest).any fun t => (bindsClass cls t).isSome

/-- R332: the words of a handler-0 message enter the queue. -/
def deliverWords (c : Cand) (cls : BitVec 4) (s : State) : State :=
  if c.payload.isEmpty then s.onCore (freeChunk c.off)
  else
    s.updCtx (fun t => (bindsClass cls t).isSome) fun t =>
      match bindsClass cls t with
      | none => t
      | some k =>
        match (t.qs[k]?).join with
        | none => t
        | some q => { t with qs := t.qs.setIfInBounds k (some { q with words := q.words ++ c.payload,
                                                                       parts := q.parts ++ [(c.off, c.payload.length)] }) }

def dropCand (c : Cand) (s : State) : State := s.onTile fun t => { t with cands := t.cands.erase c }

/-- R300: the conditions but those of the core. -/
def mayRelease (s : State) (c : Cand) : Bool :=
  c.place == .inbox && !candMasked s c && (linkProms s).all (linkAllows s c) &&
    (match leastOverflow s with | none => true | some o => candLt c o) && s.launch.live && !s.core.preempt

/-- R354: an activation of a launch has started. -/
def launchStarted (tag : BitVec 16) (s : State) : State :=
  s.onHost fun h => { h with running := h.running.map fun r => if r.tag == tag then { r with started := true } else r }

/-- What the release of the lowest candidate does; a task of another core is known by its stamp alone. -/
def releaseCand (c : Cand) (s : State) : State :=
  if c.core != s.core.id then
    let s := dropCand c s
    if c.handler0 then s
    else (launchStarted s.launch.tag s).onTile fun t => { t with otherStamps := t.otherStamps ++ [c.key.stamp] }
  else if c.handler0 then
    match c.cls with
    | none => s
    | some k => if classBinding s k then deliverWords c k (dropCand c s) else s
  else
    match freeFrame s with
    | none => s
    | some f => launchStarted s.launch.tag (startTask c f (dropCand c s))

/-- CANDIDATE_RELEASE: a freed frame goes first to a task that waits for one (R118). -/
def candidateRelease (s : State) : State :=
  match grantFrame s with
  | some s => s
  | none =>
    match lowestCand s with
    | none => s
    | some c => if mayRelease s c then releaseCand c s else s
def execCandidateRelease (s : State) : Host.Outcome State Fault Refusal := done (candidateRelease s)

/-! ### HOLDING_QUEUE_DRAIN, BRAMBLE_COPY, BRAMBLE_REPLAY -/

def replaceCand (a b : Cand) (s : State) : State :=
  s.onTile fun t => { t with cands := t.cands.map (fun x => if x == a then b else x),
                             overflow := t.overflow.map (fun x => if x == a then b else x) }

/-- HOLDING_QUEUE_DRAIN: the message that arrived first. -/
def holdingDrain (s : State) : State :=
  match holdingOf s with
  | [] => s
  | c :: _ =>
    match enterInbox c s with
    | none => s
    | some (c', s) => replaceCand c c' s
def execHoldingQueueDrain (s : State) : Host.Outcome State Fault Refusal := done (holdingDrain s)

def brambleHeld (s : State) : Bool := s.core.preempt || (s.tile.halted && s.core.dbgctl.getLsbD 4)

/-- BRAMBLE_COPY: as much of the holding queue as the heap has room for. -/
def brambleCopy (s : State) : State :=
  if (holdingOf s).length < 16 || brambleHeld s then s
  else
    brambleIdle ((holdingOf s).foldl (fun s c =>
      if heapBytes s + c.bytes ≤ 2 ^ 20 then replaceCand c { c with place := .heap } s else s) s)
def execBrambleCopy (s : State) : Host.Outcome State Fault Refusal := done (brambleCopy s)

/-- BRAMBLE_REPLAY: an overflow candidate returns to the table, or the least heap message of the table enters the inbox. -/
def brambleReplay (s : State) : State :=
  if brambleHeld s then s
  else
    match leastOverflow s with
    | some c =>
      if s.tile.cands.length < 256 then
        brambleIdle (s.onTile fun t => { t with cands := t.cands ++ [c], overflow := t.overflow.erase c })
      else replay s
    | none => replay s
where
  replay (s : State) : State :=
    match leastBy candLt (s.tile.cands.filter (inPlace .heap)) with
    | none => s
    | some c =>
      match enterInbox c s with
      | none => s
      | some (c', s) => brambleIdle (replaceCand c c' s)
def execBrambleReplay (s : State) : Host.Outcome State Fault Refusal := done (brambleReplay s)

end Sys2Proof.Machine
end

