-- ==== Sys2Proof/Machine/EvMsg.lean ====
section
/-! DEFINITION. Steps of messages: their arrival, injection and acceptance, deposits, migration (R294, R298, R301, R306, R309, R311,
R318, R326, R329, R333, R339, R364, R403). -/

namespace Sys2Proof.Machine

/-! ### Promises received (R301, R329) -/

/-- R329: whether a receive counter has reached a value, modulo 2^32. -/
def reached (have_ want : Nat) : Bool := decide ((have_ + 2 ^ 32 - want % 2 ^ 32) % 2 ^ 32 < 2 ^ 31)

/-- R301, R304: a promise received on a link raises it and closes its ask. -/
def raiseProm (src : Nat) (cls : BitVec 4) (p : Nat) (s : State) : State :=
  s.onTile fun t => { t with inLinks := t.inLinks.map fun l =>
    if l.src == src && l.cls == cls then { l with prom := Nat.max l.prom p, asked := false } else l }

/-- R329: the pips whose counts are reached are applied. -/
def applyPips (src : Nat) (s : State) : State :=
  let n := tabGet s.tile.recv 0 src
  let now := s.tile.pendPips.filter fun p => p.src == src && reached n p.after
  let s := s.onTile fun t => { t with pendPips := t.pendPips.filter fun p => !(p.src == src && reached n p.after) }
  now.foldl (fun s p => raiseProm p.src p.cls p.prom s) s

/-! ### MESSAGE_ARRIVAL -/

/-- R306. -/
def countReceived (col : Bool) (t : TileSt) : TileSt :=
  { t with recvCnt := if col then (t.recvCnt.1, t.recvCnt.2 + 1) else (t.recvCnt.1 + 1, t.recvCnt.2) }

/-- R403: a gap in the numbers of a pair: a LINK entry with the source tile and the messages lost. -/
def seqGap (src have_ seq : Nat) (s : State) : State :=
  let lost := (seq + 2 ^ 32 - have_ % 2 ^ 32) % 2 ^ 32
  (errEntry (errEntryBytes 6 0 0 0 s.core.id 0 (BitVec.ofNat 64 src) (BitVec.ofNat 64 lost)) s).onTile fun t =>
    { t with recv := tabSet t.recv src (have_ + lost) }

/-- A message has been taken from its link (R301, R306, R329). The counter is kept whole, so that the order of arrival decides between
keys where the 32 bits of the packets wrap (R294). -/
def linkMessage (src : Nat) (m : Msg) (s : State) : State :=
  let s := s.onTile fun t => countReceived m.col { t with recv := tabSet t.recv src (tabGet t.recv 0 src + 1) }
  applyPips src (raiseProm src m.cls m.prom s)

/-- R298, R309, R329, R364, R403. -/
def messageArrival (m : Msg) (s : State) : State :=
  let src := tileOf m.score
  if foreignPart s m.part || s.tile.retired
      || (!m.any && !m.mc && decide (tileOf m.dest ≠ pairTile s)) || decide (src = pairTile s) then s
  else
    let have_ := tabGet s.tile.recv 0 src
    let s1 := if !m.mc && m.seq != have_ % 2 ^ 32 then seqGap src have_ m.seq s else s
    let n := tabGet s1.tile.recv 0 src
    if tooBig s1 m then linkMessage src m s1
    else
      let key : ActKey := { stamp := m.stamp.toNat, src := src + 1, seq := n }
      match addCand (mkCand s1 m key (some m.cls) (chooseCore (m.any || m.mc) m.dest s1)) s1 with
      | none => s
      | some s2 => linkMessage src m s2
def execMessageArrival (m : Msg) (s : State) : Host.Outcome State Fault Refusal := done (messageArrival m s)

/-! ### DEPOSIT_ARRIVAL (R318, R339) -/

def depositTo (d : Deposit) (t : Task) : Bool := liveAt d.frame t && t.tid == d.tid && t.origin == d.orig

/-- R318, R339: a deposit in its word. -/
def putDeposit (x : Nat × Word) (t : Task) : Task := { t.setW (BitVec.ofNat 4 x.1) x.2 with depl := true }
/-- R339: a target that is blocked or stalled is written at once. -/
def stalled (t : Task) : Bool := match t.wait with | none => false | some .yielded => false | some _ => true

/-- R339: a target that runs is written once every instruction that it has issued has written its destination, before its next
instruction issues; until then the deposit is kept, behind those that wait. -/
def takeDeposit (x : Nat × Word) (t : Task) : Task :=
  if t.deposits.isEmpty && (stalled t || written t) then putDeposit x t else { t with deposits := t.deposits ++ [x] }
/-- The deposits of a task whose instructions have written their destinations. -/
def settleDeposits (t : Task) : Task :=
  if written t then { t.deposits.foldl (fun t x => putDeposit x t) t with deposits := [] } else t

/-- The deposit, and whether it found its task. -/
def depositNow (d : Deposit) (s : State) : State × Bool :=
  ((s.updCtx (depositTo d) (takeDeposit (d.word, d.val))), (s.findCtx (depositTo d)).isSome)

/-- DEPOSIT_ARRIVAL. -/
def execDepositArrival (d : Deposit) (s : State) : Host.Outcome State Fault Refusal :=
  done (if d.core != pairCore s || foreignPart s d.part then s else (depositNow d s).1)

/-! ### SEND_ACCEPTED (R228, R241, R251) -/

def sendFail (e : SendEnd) (t : Task) : Task :=
  match e with
  | .accepted => t
  | .refused => { t with fails := t.fails + 1, failRefused := true }
  | .big => { t with fails := t.fails + 1, failBig := true, failRefused := true }
  | .dead => { t with fails := t.fails + 1, failDead := true }

/-- What the end of a send says to its task, or to the tile where the task has ended (R241). -/
def sendNote (tid : Word) (origin : BitVec 13) (e : SendEnd) (f : Task → Task) (s : State) : State :=
  let live (t : Task) : Bool := t.st != .ended && !t.shadow && sameTask t tid origin
  if (s.findCtx live).isSome then s.updCtx live fun t => f (sendFail e t)
  else if e == .accepted then s
  else errCount 1 (s.onTile fun x => { x with ffail := true })
/-- A send of a task has ended. -/
def sendEnded (tid : Word) (origin : BitVec 13) (e : SendEnd) (s : State) : State :=
  sendNote tid origin e (fun t => { t with sentOut := t.sentOut - 1 }) s

/-- R251, R335: words of a channel that were not taken are no store, atomic or send: they are reported and not counted. -/
def wordsFail (e : SendEnd) (t : Task) : Task := match e with | .accepted => t | .dead => readFails true t | _ => readFails false t
/-- R275: words that the peer's network interface has accepted, or refused. -/
def wordsEnded (tid : Word) (origin : BitVec 13) (k n : Nat) (e : SendEnd) (s : State) : State :=
  s.updCtx (fun t => t.st != .ended && !t.shadow && sameTask t tid origin) fun t =>
    wordsFail e { t with qs := t.qs.setIfInBounds k (((t.qs[k]?).join).map fun q => { q with flying := q.flying - n }) }

/-- SEND_ACCEPTED: one of what has been injected and not accepted: a send, the words of a channel, or a migration message, whose frame is
then free (R44). -/
def sendAccepted (k : Nat) (e : SendEnd) (s : State) : State :=
  match s.tile.unaccepted[k]? with
  | none => s
  | some u =>
    let s := s.onTile fun t => { t with unaccepted := t.unaccepted.eraseIdx k }
    match u with
    | .send tid origin => sendEnded tid origin e s
    | .words tid origin q n => wordsEnded tid origin q n e s
    | .mig _ _ => if e == .accepted then s else errCount 1 (s.onTile fun x => { x with ffail := true })
def execSendAccepted (a : SendAns) (s : State) : Host.Outcome State Fault Refusal := done (sendAccepted a.k a.how s)

/-! ### PACKET_INJECTION (R294, R302, R306, R311, R333) -/

/-- R294, R302, R306: what the head flit of a copy of a link message draws. One that a dead link discards is not counted for sweeps,
which wait for what is counted to be received. -/
def drawSeq (dst : Nat) (m : Msg) (s : State) : State :=
  let lost := lostToTile s dst
  s.onTile fun t => (if lost then id else countSent m.stamp.toNat)
    { t with pairSeq := tabSet t.pairSeq dst ((tabGet t.pairSeq 0 dst + 1) % 2 ^ 32),
             outLinks := t.outLinks.map fun l => if l.dst == dst && l.cls == m.cls then { l with sent := Nat.max l.sent m.prom } else l }

def waitAccept (by_ : Word × BitVec 13) (s : State) : State :=
  s.onTile fun t => { t with unaccepted := t.unaccepted ++ [.send by_.1 by_.2] }

def headMsg (s : State) (m : Msg) (prom : Nat) : Msg := { m with prom := prom, col := s.tile.colour }

/-- A unicast to another tile. -/
def injectMsg (by_ : Word × BitVec 13) (m : Msg) (s : State) : State :=
  let dst := tileOf m.dest
  let m := { headMsg s m (pOut s dst m.cls) with seq := tabGet s.tile.pairSeq 0 dst }
  let s := chargeNet (clusterOf dst) (flits (8 * m.payload.length)) (drawSeq dst m s)
  if lostToTile s dst then sendEnded by_.1 by_.2 .dead s
  else emit (.msg m m.seq m.prom m.col) (waitAccept by_ s)

/-- R316, R330: one packet; each copy takes the number of its own pair. The one promise that it carries is the least of its links' (log
entry 95). -/
def injectMcast (by_ : Word × BitVec 13) (m : Msg) (cvec : Word) (mask : BitVec 16) (s : State) : State :=
  let ts := (mcastTiles cvec mask).filter fun t => t != s.tileId
  let m := headMsg s m (minList (ts.map fun t => pOut s t m.cls))
  let s := ts.foldl (fun s t => chargeNet (clusterOf t) (flits (8 * m.payload.length)) (drawSeq t m s)) s
  if ts.isEmpty then sendEnded by_.1 by_.2 .accepted s
  else if ts.any (lostToTile s) then emit (.mcast m cvec mask m.prom m.col) (sendEnded by_.1 by_.2 .dead s)
  else emit (.mcast m cvec mask m.prom m.col) (waitAccept by_ s)

/-- Entry k leaves the injection queue; the markers behind it come nearer. -/
def popInject (k : Nat) (s : State) : State :=
  s.onTile fun t => { t with inject := t.inject.eraseIdx k, injectBy := t.injectBy.eraseIdx k,
                             injectMarks := (t.injectMarks.map fun m => if m > k then m - 1 else m).filter (· != 0) }

/-- R309: the tile's own copy of a multicast that exceeds its inbox. -/
def bigCopy (by_ : Word × BitVec 13) (s : State) : State := sendNote by_.1 by_.2 .big id s

/-- A message of a self-link takes the local path (R314). -/
def injectSelf (by_ : Word × BitVec 13) (m : Msg) (s : State) : Option State :=
  if tooBig s m then some (sendEnded by_.1 by_.2 .big s)
  else (addLocal m (some m.cls) s).map (sendEnded by_.1 by_.2 .accepted)

/-- A released operation, which has left the queue, goes; none where back-pressure holds it. -/
def injectOp (h : Held) (by_ : Word × BitVec 13) (s : State) : Option State :=
  match h with
  | .msg m => if tileOf m.dest == s.tileId then injectSelf by_ m s else some (injectMsg by_ m s)
  | .mcast m cv tm =>
    if (mcastTiles cv tm).contains s.tileId then
      (if tooBig s m then some (bigCopy by_ s) else addLocal m (some m.cls) s).map (injectMcast by_ m cv tm)
    else some (injectMcast by_ m cv tm s)
  | .spawn m => if tooBig s m then some (errCount 1 (s.onTile fun x => { x with ffail := true })) else addLocal m none s
  | .deposit d =>
    if d.core == s.core.id then
      let (s2, ok) := depositNow d s
      some (sendEnded by_.1 by_.2 (if ok then .accepted else .refused) s2)
    else
      let s2 := chargeNet (clusterOf (tileOf d.core)) 1 s
      some (if lostToTile s (tileOf d.core) then sendEnded by_.1 by_.2 .dead s2 else emit (.deposit d) (waitAccept by_ s2))

/-- R407, R410: a released operation of the secondary: what goes to the pair's own tile comes to both copies, and the rest is
discarded. -/
def mirrorOp (h : Held) (by_ : Word × BitVec 13) (s : State) : Option State :=
  match h with
  | .msg m => if tileOf m.dest == pairTile s then injectSelf by_ m s else some (sendEnded by_.1 by_.2 .accepted s)
  | .mcast m cv tm =>
    if !(mcastTiles cv tm).contains (pairTile s) then some (sendEnded by_.1 by_.2 .accepted s)
    else (if tooBig s m then some (bigCopy by_ s) else addLocal m (some m.cls) s).map (sendEnded by_.1 by_.2 .accepted)
  | .spawn _ => injectOp h by_ s
  | .deposit d => if d.core == pairCore s then injectOp (.deposit { d with core := s.core.id }) by_ s
                  else some (sendEnded by_.1 by_.2 .accepted s)

/-! ### The order of the message lane (R333) -/

/-- The tiles to which an operation goes. -/
def heldTiles (s : State) : Held → List Nat
  | .msg m => [tileOf m.dest]
  | .mcast _ cv tm => mcastTiles cv tm
  | .spawn _ => [s.tileId]
  | .deposit d => [tileOf d.core]
def isLink : Held → Bool
  | .msg _ => true
  | .mcast .. => true
  | _ => false
/-- Whether a packet stays behind an earlier one: one of the same destination and kind, or a link message to a tile of its own. -/
def staysBehind (s : State) (a b : Held) : Bool :=
  let meet := (heldTiles s a).any fun t => (heldTiles s b).contains t
  meet && (isLink a ||
    match a, b with
    | .spawn _, .spawn _ => true
    | .deposit x, .deposit y => x.core == y.core
    | _, _ => false)

/-- R333: whether entry k may go before those ahead of it. -/
def mayOvertake (s : State) (k : Nat) (h : Held) : Bool :=
  decide (k ≤ 16) && !(s.tile.injectMarks.any fun m => decide (0 < m) && decide (m ≤ k)) &&
    !(s.tile.inject.take k).any fun a => staysBehind s a h
/-- R410: entry k has passed its comparison: those of its task pass in order. -/
def sendMay (s : State) (k : Nat) (by_ : Word × BitVec 13) : Bool :=
  !paired s || decide (s.core.pairOk.count (.send by_.1 by_.2) > (s.tile.injectBy.take k).count by_)

/-- Entry k of the message lane leaves. -/
def injectAt (k : Nat) (s : State) : State :=
  match s.tile.inject[k]? with
  | none => s
  | some h =>
    let by_ := (s.tile.injectBy[k]?).getD (0, 0)
    if !mayOvertake s k h || !sendMay s k by_ then s
    else
      let s1 := acted (.send by_.1 by_.2) (popInject k s)
      ((if secondary s then mirrorOp else injectOp) h by_ s1).getD s

/-- R335: the first queue register of a task that has words its credits let go. -/
def wordsToSend (t : Task) : Option Nat :=
  if t.st == .ended || t.shadow then none
  else t.qs.toList.findIdx? fun q => match q with | none => false | some b => decide (sendable b > 0)
def sendWordsCur (s : State) : State :=
  match wordsToSend s.cur with
  | none => s
  | some k => sendWords k s

/-- One operation of the message lane leaves, or words of a queue channel on the reply channel (R326). -/
def inject (x : InjSel) (s : State) : State :=
  match x with
  | .message k => injectAt k s
  | .words frame => asFrame frame sendWordsCur s
/-- R326, R333: what of the message lane and of the queue channels may leave now. -/
def injectable (s : State) : List InjSel :=
  ((List.range s.tile.inject.length).map (InjSel.message ·) ++
    (s.tasks.filter fun t => (wordsToSend t).isSome).map fun t => InjSel.words t.frame).filter fun x => inject x s != s

/-- PACKET_INJECTION: one of what may leave. R333 lets any of several go first: a free value. -/
def packetInjection (s : State) : State :=
  match injectable s with
  | [] => s
  | [x] => inject x s
  | xs =>
    let (f, s) := s.free
    inject (xs.getD (f.toNat % xs.length) (.message 0)) s
def execPacketInjection (s : State) : Host.Outcome State Fault Refusal := done (packetInjection s)

/-! ### MIGRATION_ARRIVAL (R46, R326) -/

/-- MIGRATION_ARRIVAL: the task is queued as pending, and takes a frame at once where one is free. -/
def migrationArrival (m : MigTask) (s : State) : State :=
  if tileOf m.dest != pairTile s || foreignPart s m.part || s.tile.migBuf.length ≥ 16 then s
  else
    let s := s.onTile (countReceived m.col)
    if m.dest != pairCore s then s.onTile fun t => { t with otherStamps := t.otherStamps ++ [m.stamp.toNat] }
    else
      let s := s.onTile fun t => { t with migBuf := t.migBuf ++ [m] }
      if s.core.preempt then s else (grantFrame s).getD s
def execMigrationArrival (m : MigTask) (s : State) : Host.Outcome State Fault Refusal := done (migrationArrival m s)

end Sys2Proof.Machine
end

