-- ==== Sys2Proof/Machine/EvVt.lean ====
section
/-! DEFINITION. Virtual time and completion: pips, asks, sweeps, done messages (R41 to R43, R239, R292, R302 to R307, R329, R435,
R441). -/

namespace Sys2Proof.Machine

/-! ### Pips and asks (R303, R304, R329) -/

/-- R303: a pip answers a kept ask, or the promise has risen by PQUANT; what PINT adds is time (log entry 4). -/
def pipDue (s : State) (l : OutLink) : Bool :=
  let p := pOut s l.dst l.cls
  (match l.kept with | none => false | some k => decide (p > k)) || (decide (p > l.sent) && decide (p ≥ l.sent + s.tile.pquant.toNat))

/-- PIP_SEND. -/
def pipSend (l : Nat) (s : State) : State :=
  match s.tile.outLinks[l]? with
  | none => s
  | some x => if pipDue s x then sendPip false (pOut s x.dst x.cls) x s else s
def execPipSend (l : Nat) (s : State) : Host.Outcome State Fault Refusal := done (pipSend l s)

/-- PIP_ARRIVAL: applied once every message its sender had injected has come (R329); the ask of its link is closed. -/
def pipArrival (l prom : Nat) (hd : PipHead) (s : State) : State :=
  match s.tile.inLinks[l]? with
  | none => s
  | some x =>
    if foreignPart s hd.part then s
    else if reached (tabGet s.tile.recv 0 x.src) hd.after then raiseProm x.src x.cls prom s
    else
      s.onTile fun t => { t with
        inLinks := t.inLinks.map fun y => if y == x then { y with asked := false } else y,
        pendPips := t.pendPips ++ [{ src := x.src, cls := x.cls, prom := prom, after := hd.after }] }
def execPipArrival (l prom : Nat) (hd : PipHead) (s : State) : Host.Outcome State Fault Refusal := done (pipArrival l prom hd s)

/-- R300, R304: whether an inbound link holds the lowest candidate. -/
def heldBy (s : State) (x : InLink) : Bool :=
  match lowestCand s with
  | none => false
  | some c => !linkAllows s c { src := x.src + 1, cls := some x.cls, prom := x.prom }

/-- R304: an ask is due: the link holds the lowest candidate, or it attains low(d) while an ask is kept. -/
def askDue (s : State) (x : InLink) : Bool :=
  !x.asked && (heldBy s x || (s.tile.outLinks.any (fun l => l.kept.isSome) && x.prom == lowOf s))

/-- ASK_SEND. -/
def askSend (l : Nat) (s : State) : State :=
  match s.tile.inLinks[l]? with
  | none => s
  | some x =>
    if askDue s x && !secondary s then
      emit (.ask x.src x.cls x.prom) (chargeTile x.src (s.onTile fun t =>
        { t with inLinks := t.inLinks.map fun y => if y == x then { y with asked := true } else y }))
    else s
def execAskSend (l : Nat) (s : State) : Host.Outcome State Fault Refusal := done (askSend l s)

/-- ASK_ARRIVAL: answered at once, or kept. -/
def askArrival (l carried : Nat) (s : State) : State :=
  match s.tile.outLinks[l]? with
  | none => s
  | some x =>
    let p := pOut s x.dst x.cls
    if p > carried then sendPip false p x s
    else s.onTile fun t => { t with outLinks := t.outLinks.map fun y => if y == x then { y with kept := some carried } else y }
def execAskArrival (l carried : Nat) (s : State) : Host.Outcome State Fault Refusal := done (askArrival l carried s)

/-! ### The done and sweep channel (R441) -/

def isBroadcast : Packet → Bool
  | .launchReg .. => true
  | _ => false
/-- DEAD_LINK_REROUTE: a packet of the channel met a dead link and goes the other way. The tile that sends a done, sweep or reduction
packet finds its loss when it sends it; here it finds that of a copy of a launch-register broadcast that no path carries. -/
def execDeadLinkReroute (dest : BitVec 10) (reduction lost : Bool) (s : State) : Host.Outcome State Fault Refusal :=
  done (if lost && !reduction && bothDead s dest.toNat && s.home.out.any isBroadcast then controlLost dest.toNat false s else s)

/-! ### Sweeps (R239, R305 to R307) -/

/-- R41, condition 1: the tile holds no task and no activation. -/
def tileIdle (s : State) : Bool :=
  s.tasks.isEmpty && s.tile.otherStamps.isEmpty && s.tile.migBuf.isEmpty && (allCands s).isEmpty && s.core.orphans.isEmpty &&
    (spawnStamps s).isEmpty
/-- R41, condition 2: every inbound link promises infinity. -/
def linksDone (s : State) : Bool := (s.tile.launchProm :: s.tile.inLinks.map (·.prom)).all fun p => decide (p ≥ inf48)

/-- SWEEPWAIT_EXPIRY: the timer has run out (R305); a freeze holds it (R426). -/
def execSweepwaitExpiry (s : State) : Host.Outcome State Fault Refusal :=
  done (if s.launch.live && !s.tile.frozen && ((lowestCand s).isSome || (tileIdle s && !linksDone s)) then wantSweep s else s)

/-- SWEEP_REQUEST: a request on its way up the tree. -/
def execSweepRequest (s : State) : Host.Outcome State Fault Refusal :=
  done (match s.parent with
    | none => wantSweep s
    | some p =>
      let s1 := s.onTile fun t => { t with sweepWanted := false }
      if secondary s then s1 else control p .sweepReq s1)

/-- R306: the figures of the tile and the subtrees that have reported, of the colour that is not the new one. -/
def sweepFig (s : State) : SweepFig :=
  let t := s.tile
  let fs := t.reports.map (·.2)
  let pick (x : Nat × Nat) : Nat := if t.colour then x.1 else x.2
  { sent := pick t.sentCnt + (fs.map (·.sent)).sum, received := pick t.recvCnt + (fs.map (·.received)).sum,
    least := minList (t.mred :: localLow s :: fs.map (·.least)), commit := minList (commitFig s :: fs.map (·.commit)) }

def allReported (s : State) : Bool := s.kids.all fun k => s.tile.reports.any fun r => r.1 == k

/-- R306, step 2: a tile whose children have all reported reports to its parent. -/
def reportUp (s : State) : State :=
  match s.parent with
  | none => s
  | some p => if allReported s && !secondary s then control p (.sweepUp p (sweepFig s)) s else s

def forward (p : Packet) (s : State) : State := s.kids.foldl (fun s k => control k p s) s

/-- SWEEP_START. -/
def sweepStart (colour : Bool) (s : State) : State :=
  if s.tile.colour == colour || s.tile.sweeping || (s.parent.isNone && !s.tile.sweepWanted) then s
  else
    let s := s.onTile fun t => { t with
      colour := colour, mred := inf48, sweeping := true, reports := [], sweepsStarted := t.sweepsStarted + 1,
      sweepWanted := if s.parent.isNone then false else t.sweepWanted,
      sentCnt := if colour then (t.sentCnt.1, 0) else (0, t.sentCnt.2),
      recvCnt := if colour then (t.recvCnt.1, 0) else (0, t.recvCnt.2) }
    let s := forward (.sweepStart colour) s
    if s.kids.isEmpty then reportUp s else s
def execSweepStart (colour : Bool) (s : State) : Host.Outcome State Fault Refusal := done (sweepStart colour s)

/-- SWEEP_REPORT: of a child. -/
def sweepReport (child : Nat) (f : SweepFig) (s : State) : State :=
  if !s.tile.sweeping || !s.kids.contains child || s.tile.reports.any (fun r => r.1 == child) then s
  else reportUp (s.onTile fun t => { t with reports := t.reports ++ [(child, f)] })
def execSweepReport (child : Nat) (f : SweepFig) (s : State) : Host.Outcome State Fault Refusal := done (sweepReport child f s)

/-- R306, step 3, at the root: the sums of the round agree. -/
def sumsAgree (s : State) : Bool := (sweepFig s).sent == (sweepFig s).received

/-- SWEEP_RECOUNT: the root asks again, or a tile hears it. -/
def sweepRecount (s : State) : State :=
  if !s.tile.sweeping || (s.parent.isNone && (!allReported s || sumsAgree s)) then s
  else
    let s := forward .sweepRecount (s.onTile fun t => { t with reports := [] })
    if s.kids.isEmpty then reportUp s else s
def execSweepRecount (s : State) : Host.Outcome State Fault Refusal := done (sweepRecount s)

/-- R297: the least declared lookahead. -/
def leastLah (s : State) : Nat := minList (s.launch.lahDecl.map (·.2))

/-- R307: the sweep pips. -/
def sweepPips (h : Nat) (s : State) : State :=
  s.tile.outLinks.foldl (fun s l => sendPip true (Nat.max (pOut s l.dst l.cls) (satAdd h (leastLah s))) l s) s

/-- R306: at the root the horizons are those of the round. -/
def endAgrees (h commit : Nat) (s : State) : Bool :=
  s.parent.isSome ||
    (allReported s && sumsAgree s && decide (h = (sweepFig s).least) && decide (commit = Nat.min (sweepFig s).least (sweepFig s).commit))

/-- SWEEP_END. -/
def sweepEnd (h commit : Nat) (s : State) : State :=
  if !s.tile.sweeping || !endAgrees h commit s then s
  else
    let s := s.onTile fun t => { t with horizon := h, commit := commit, sweeping := false, reports := [],
                                        sweepsEnded := t.sweepsEnded + 1 }
    sweepPips h (forward (.sweepEnd h commit) s)
def execSweepEnd (h commit : BitVec 48) (s : State) : Host.Outcome State Fault Refusal := done (sweepEnd h.toNat commit.toNat s)

/-! ### Done messages (R41, R42) -/

/-- R41: the conditions. R292: a router has handed on what it sends toward the root when that stands among the packets, so that only an
open slot is still to come. R413: the entries of the tile are written first. R407: the partner tile is no part of the tree, and whether it is idle the environment says with the tile's
other cores. -/
def mayFinish (s : State) : Bool :=
  s.launch.live && !secondary s && !s.tile.doneSent && tileIdle s && linksDone s && !s.tile.otherBusy &&
    s.core.sealed.isEmpty && (s.cur :: s.rest).all (fun t => t.amos.isEmpty) &&
    s.core.eng.toList.all (fun q => q.isEmpty) && s.core.mx.queue.isEmpty && ((s.parent).isNone || s.tile.redSlots.isEmpty) &&
    s.tile.inject.isEmpty && s.tile.unaccepted.isEmpty && s.tile.errQ.isEmpty && s.kids.all fun k => s.tile.kidsDone.any fun d => d.1 == k

/-- R42: the tile's own word. -/
def doneWord (t : TileSt) : BitVec 32 :=
  BitVec.ofBool t.escl ++ BitVec.ofBool t.ffail ++ BitVec.ofBool t.late ++ BitVec.ofBool t.pmis ++ BitVec.ofBool t.retd ++ 0#3 ++
    t.uflags ++ t.errs
/-- R42: two words combined. -/
def joinDone (a b : BitVec 32) : BitVec 32 :=
  (a.extractLsb' 16 16 ||| b.extractLsb' 16 16) ++
    BitVec.ofNat 16 (Nat.min 0xFFFF ((a.extractLsb' 0 16).toNat + (b.extractLsb' 0 16).toNat))
def statusWord (s : State) : BitVec 32 := s.tile.kidsDone.foldl (fun a d => joinDone a d.2) (doneWord s.tile)

/-- R431, R435: an entry of a queue's completion ring, written in place. -/
def completionEntry (q : BitVec 10) (idx : Nat) (tag : BitVec 16) (status : BitVec 32) (code : BitVec 8) (s : State) : State :=
  let w := tabGet s.host.wqs {} q.toNat
  let n := 2 ^ w.qctl.toNat
  let a := w.qbase.toNat * 2048 + 2048 * n + 16 * (idx % n)
  let lo : Word := 1#1 ++ 0#15 ++ tag ++ status
  if noMemory s a then s else s.onHome fun h => homePut h a (leBytes 8 lo.toNat ++ leBytes 8 code.toNat)

/-- R37, R239: a launch that has completed leaves its tiles, its core's binding (R352) and its tags. -/
def launchOver (tag : BitVec 16) (s : State) : State :=
  let s := s.onHost fun h => { h with running := h.running.filter fun r => r.tag != tag }
  let s := s.onHome fun h => { h with tags := h.tags.filter fun e => e.2.launch != tag.toNat }
  if s.launch.live && s.launch.tag == tag then { s with launch := { s.launch with live := false } } else s

/-- DONE_SEND. The root writes the completion record as the launch's last act. -/
def doneSend (s : State) : State :=
  if !mayFinish s then s
  else
    let st := statusWord s
    let s1 := s.onTile fun t => { t with doneSent := true }
    match s.parent with
    | some p => control p (.doneMsg p st) s1
    | none => launchOver s.launch.tag (completionEntry s.launch.wq s.launch.idx s.launch.tag st 0 s1)
def execDoneSend (s : State) : Host.Outcome State Fault Refusal := done (doneSend s)

/-- DONE_RECEIVE. -/
def execDoneReceive (child : Nat) (status : BitVec 32) (s : State) : Host.Outcome State Fault Refusal :=
  done (if s.kids.contains child && !s.tile.kidsDone.any (fun d => d.1 == child) then
    s.onTile fun t => { t with kidsDone := t.kidsDone ++ [(child, status)] } else s)

end Sys2Proof.Machine
end

