-- ==== Sys2Proof/Machine/EvLaunch.lean ====
section
/-! DEFINITION. The launch unit and the loader: LAUNCH_TAKE and LOADCMD_WRITE (R35 to R40, R61, R295 to R297, R407, R415, R430 to
R437). -/

namespace Sys2Proof.Machine

/-! ### Launch records (R433) -/

/-- The record as a list of bytes, read at its home. -/
abbrev RecBytes := List Byte
def rw64 (r : RecBytes) (off : Nat) : Word := leWord ((r.drop off).take 8)
def rw32 (r : RecBytes) (off : Nat) : BitVec 32 := BitVec.ofNat 32 (leNat ((r.drop off).take 4))

def recDescs (r : RecBytes) : List (BitVec 32) := (List.range 8).map fun k => rw32 r (4 * k)
def descLevel (d : BitVec 32) : Level := { dom := d.extractLsb' 29 3, scope := d.extractLsb' 26 3, lg := (d.extractLsb' 21 4).toNat }
def recLevels (r : RecBytes) : List Level := ((recDescs r).filter fun d => d.getLsbD 25).map descLevel
def recStamp (r : RecBytes) : BitVec 48 := (rw64 r 0x020).extractLsb' 0 48
def recCfg (r : RecBytes) : Word := rw64 r 0x028
def recFrames (r : RecBytes) : Nat := ((recCfg r).extractLsb' 0 7).toNat
def recRole (r : RecBytes) : Nat := ((rw64 r 0x030).extractLsb' 56 8).toNat
def recPaired (r : RecBytes) : Bool := (recCfg r).getLsbD 63
def recMigratory (r : RecBytes) : Bool := (recCfg r).getLsbD 62
def recAfter (r : RecBytes) : List Word := (List.range 4).map fun k => rw64 r (0x050 + 8 * k)
def recLah (r : RecBytes) : Tab Nat :=
  (List.range 16).filterMap fun c =>
    let w := rw64 r (0x080 + 8 * c)
    if w.getLsbD 63 then some (c, (w.extractLsb' 0 48).toNat) else none
def linkEnt (lo hi : Word) : LinkEnt :=
  { cls := lo.extractLsb' 0 4, from0 := (lo.extractLsb' 8 24).toNat, from1 := (lo.extractLsb' 32 24).toNat,
    to0 := (hi.extractLsb' 0 24).toNat, to1 := (hi.extractLsb' 24 24).toNat }
def recLinks (r : RecBytes) : List LinkEnt :=
  (List.range 64).filterMap fun k =>
    let hi := rw64 r (0x108 + 16 * k)
    if hi.getLsbD 63 then some (linkEnt (rw64 r (0x100 + 16 * k)) hi) else none

/-! ### Validation (R434) -/

inductive LaunchCode where
  | ok | format | depfail | levels | place | links | lahcycle | reset
  deriving DecidableEq, Repr
def LaunchCode.num : LaunchCode → BitVec 8
  | .ok => 0 | .format => 1 | .depfail => 2 | .levels => 3 | .place => 4 | .links => 5 | .lahcycle => 6 | .reset => 7

def between (a x b : Nat) : Bool := decide (a ≤ x) && decide (x ≤ b)

/-- R434, step 1. -/
def formatBad (r : RecBytes) : Bool :=
  let c := recCfg r
  let f (lo w : Nat) : Nat := (c.extractLsb' lo w).toNat
  (rw64 r 0x020).extractLsb' 48 16 != 0 || recStamp r == 0xFFFFFFFFFFFF
    || c.getLsbD 7 || c.extractLsb' 30 32 != 0
    || !between 4 (f 0 7) 64 || !between 4 (f 8 8) 64 || !between 4 (f 16 8) 128 || !between 1 (f 24 6) 32
    || (rw64 r 0x030).extractLsb' 0 2 != 0
    || (rw64 r 0x038).extractLsb' 0 2 != 0 || (rw64 r 0x038).extractLsb' 56 8 != 0
    || (rw64 r 0x040).extractLsb' 0 6 != 0 || (rw64 r 0x040).extractLsb' 56 8 != 0
    || (rw64 r 0x048).extractLsb' 25 39 != 0 || decide ((rw64 r 0x048).toNat > 2 ^ 24)
    || (recAfter r).any (fun a => a.extractLsb' 52 12 != 0 || a.extractLsb' 0 4 != 0)
    || ((r.drop 0x070).take 16).any (fun b => b.extractLsb' 0 5 != 0)
    || (List.range 16).any (fun k => (rw64 r (0x080 + 8 * k)).extractLsb' 48 15 != 0)
    || (List.range 64).any (fun k =>
        (rw64 r (0x100 + 16 * k)).extractLsb' 4 4 != 0 || (rw64 r (0x100 + 16 * k)).extractLsb' 56 8 != 0 ||
        (rw64 r (0x108 + 16 * k)).extractLsb' 48 15 != 0)
    || (r.drop 0x500).any (fun b => b != 0)

/-- R434, step 2. -/
def depFailed (s : State) (r : RecBytes) : Bool :=
  (recAfter r).any fun a => a != 0 && leWord (memGetN s.home.mem (a.toNat + 8) 8) &&& 0xFF != 0

/-- R36: the declared levels stand without gaps from level 0. -/
def noGaps : List (BitVec 32) → Bool
  | [] => true
  | d :: l => if d.getLsbD 25 then d.extractLsb' 0 21 == 0 && noGaps l else (d :: l).all fun x => x == 0
/-- R36: each level's domain lies within that of the level outside it. -/
def nested : List Level → Bool
  | a :: b :: l => decide (b.dom ≤ a.dom) && nested (b :: l)
  | _ => true
def levelsBad (r : RecBytes) : Bool :=
  let ls := recLevels r
  !noGaps (recDescs r) || ls.isEmpty || !nested ls || decide ((ls.map (·.lg)).sum > 24) ||
    ls.any fun l => decide (l.dom ≥ 6) || decide (l.lg ≥ 14) || decide (l.scope < l.dom)

/-- R76: the core of a leaf. -/
def coreOfLeaf (ms : List LeafMap) (i : Nat) : Option Nat :=
  (ms.find? fun m => between m.leaf0 i m.leaf1).map fun m => m.core0 + (i - m.leaf0) / Nat.max 1 m.per

/-- R35: the unit of a domain that holds a core. -/
def unitOf (dom : BitVec 3) (core : Nat) : Nat :=
  match dom.toNat with
  | 0 => core
  | 1 => core / 8
  | 2 => core / 32
  | 3 => core / 128
  | 4 => dieOf (core / 128)
  | _ => 0

/-- R36: the leaves that share their coordinates down to level k stay in one unit of its domain. -/
def honoured (ls : List Level) (ms : List LeafMap) : Bool :=
  let n := 2 ^ (ls.map (·.lg)).sum
  (List.range ls.length).all fun k =>
    match ls[k]? with
    | none => true
    | some l =>
      let below := 2 ^ ((ls.drop (k + 1)).map (·.lg)).sum
      (List.range n).all fun i =>
        (coreOfLeaf ms i).map (unitOf l.dom) == (coreOfLeaf ms (i / below * below)).map (unitOf l.dom)

/-- R433: the leaf maps of one launch number of the placement in force. -/
def mapsOf (v : VfRegs) (n : Nat) : List LeafMap := v.leaves.filter fun m => m.launch == n
def leavesIn (m : LeafMap) : List Nat := (List.range (m.leaf1 + 1 - m.leaf0)).map (· + m.leaf0)

/-- R76: every leaf mapped exactly once, no other one, to a core whose role is that of ENTRY. -/
def mapsFit (v : VfRegs) (r : RecBytes) (ms : List LeafMap) : Bool :=
  let n := 2 ^ ((recLevels r).map (·.lg)).sum
  (ms.all fun m => decide (m.leaf1 < n)) && (List.range n).all fun i =>
    (ms.filter fun m => between m.leaf0 i m.leaf1).length == 1 &&
      (match coreOfLeaf ms i with
       | none => false
       | some c => decide (c < 8192) && v.roles.any fun x => x == (c, recRole r))

/-- A record does not say which launch of the container it is: one that fits it, a free choice among several (log entry 23). -/
def chooseMaps (s : State) (v : VfRegs) (r : RecBytes) : List LeafMap :=
  let ns := ((v.leaves.map (·.launch)).dedup).filter fun n => mapsFit v r (mapsOf v n)
  match ns[(Config.freeWord s.fresh).toNat % ns.length]? with
  | none => []
  | some n => mapsOf v n

def mapTiles (ms : List LeafMap) : List Nat :=
  (List.range 1024).filter fun t => ms.any fun m => let (a, b) := leafCores m; decide (a ≤ t * 8 + 7) && decide (t * 8 ≤ b)
def partnerTile (t : Nat) : Nat := if t / 2 % 2 = 0 then t + 2 else t - 2

/-- R362: whether a tile lies in the partition of a function. -/
def inPartitionOf (s : State) (v : BitVec 6) (tile : Nat) : Bool :=
  let g := tabGet s.host.clasg {} (clusterOf tile)
  if g.mode == 1 then g.shr0 == v
  else if g.mode == 2 then ([g.shr0, g.shr1, g.shr2, g.shr3].take (g.nshr.toNat + 1)).contains v
  else v == 0

/-- R434, step 4: R36, R365, R407, R415. -/
def placeBad (s : State) (v : BitVec 6) (r : RecBytes) (ms : List LeafMap) : Bool :=
  let ts := mapTiles ms
  let cs := (ts.map clusterOf).dedup
  ms.isEmpty || !honoured (recLevels r) ms || ts.any (fun t => s.host.retiredTiles.contains t) ||
    (cs.any (fun c => (tabGet s.host.clasg {} c).mode == 2) && decide (cs.length > 1)) ||
    (recPaired r && ts.any fun t =>
      t / 2 % 2 != 0 || s.host.retiredTiles.contains (partnerTile t) || !inPartitionOf s v (partnerTile t))

/-- R295: a link as source tile, class, destination tile. -/
abbrev Edge := Nat × BitVec 4 × Nat
def leafTiles (ms : List LeafMap) (a b : Nat) : List Nat :=
  (mapTiles ms).filter fun t => ms.any fun m => (leavesIn m).any fun i =>
    between a i b && (match coreOfLeaf ms i with | none => false | some c => c / 8 == t)
def edgesOf (ms : List LeafMap) (ls : List LinkEnt) : List Edge :=
  ((ls.map fun l => ((leafTiles ms l.from0 l.from1).map fun a => (leafTiles ms l.to0 l.to1).map fun b => (a, l.cls, b)).flatten).flatten).dedup

/-- R434, step 5. -/
def linksBad (lah : Tab Nat) (ls : List LinkEnt) (es : List Edge) (ts : List Nat) : Bool :=
  ls.any (fun l => (tabGet? lah l.cls.toNat).isNone) ||
    ts.any fun t => decide ((es.filter fun e => e.2.2 == t).length > 32) || decide ((es.filter fun e => e.1 == t).length > 128)

/-- R297: tiles that a zero-lookahead link enters from a tile that is still kept; what no cycle feeds is dropped round by round. -/
def keepFed (es : List Edge) (ts : List Nat) : Nat → List Nat
  | 0 => ts
  | n + 1 => keepFed es (ts.filter fun t => es.any fun e => e.2.2 == t && ts.contains e.1) n
def lahCycle (lah : Tab Nat) (es : List Edge) (ts : List Nat) : Bool :=
  let z := es.filter fun e => tabGet? lah e.2.1.toNat == some 0
  !(keepFed z ts (ts.length + 1)).isEmpty

def validate (s : State) (v : BitVec 6) (r : RecBytes) (ms : List LeafMap) : LaunchCode :=
  let lah := recLah r
  let es := edgesOf ms (recLinks r)
  if formatBad r then .format
  else if depFailed s r then .depfail
  else if levelsBad r then .levels
  else if placeBad s v r ms then .place
  else if linksBad lah (recLinks r) es (mapTiles ms) then .links
  else if lahCycle lah es (mapTiles ms) then .lahcycle
  else .ok

/-! ### Eligibility and choice (R432) -/

def headPa (w : Wq) : Nat := w.qbase.toNat * 2048 + 2048 * (w.head.toNat % 2 ^ w.qctl.toNat)
def headRec (s : State) (w : Wq) : RecBytes := memGetN s.home.mem (headPa w) 2048

/-- R37: tiles that a running launch holds, its reserved partners included. -/
def runTiles (r : RunInfo) : List Nat :=
  let ts := (List.range 1024).filter fun t => r.cores.any fun c => decide (c.1 ≤ t * 8 + 7) && decide (t * 8 ≤ c.2)
  if r.paired then ts ++ ts.map partnerTile else ts

def takesTiles (r : RecBytes) (ms : List LeafMap) : List Nat :=
  if recPaired r then mapTiles ms ++ (mapTiles ms).map partnerTile else mapTiles ms

/-- R432: an AFTER entry that still holds a reference holds nothing back (R434 refuses its record). -/
def afterDone (s : State) (a : Word) : Bool :=
  a == 0 || a.getLsbD 63 || (leWord (memGetN s.home.mem a.toNat 8)).getLsbD 63

/-- R37, R365: whether a tile is held against a function by a launch that has not completed. On a shared cluster the rule holds for the
resident sharer, and a record of another one waits for its turn (log entry 99). -/
def tileHeld (s : State) (v : BitVec 6) (t : Nat) : Bool :=
  let c := clusterOf t
  if (tabGet s.host.clasg {} c).mode == 2 then
    residentOf s c != v || s.host.running.any fun x => x.vf == v && (runTiles x).contains t
  else s.host.running.any fun x => (runTiles x).contains t

def eligible (s : State) (w : Wq) : Bool :=
  let f := s.vfReg w.vf
  let r := headRec s w
  w.en && decide (w.head.toNat < w.tail.toNat) && (recAfter r).all (afterDone s) && f.cause == 0 && !s.home.deadMask.getLsbD w.vf.toNat && !f.loadBusy &&
    decide (f.ecnt ≤ f.equota) && f.ctxbase != 0 &&
    !(takesTiles r (chooseMaps s f r)).any (tileHeld s w.vf)

/-- R432: the queue whose head the unit takes. -/
def chosenQueue (s : State) : Option Nat :=
  let qs := s.host.wqs.filter fun x => eligible s x.2
  let top := (qs.map fun x => x.2.pri.toNat).foldl Nat.max 0
  (leastBy (fun a b => decide ((a.1 + 1023 - s.host.rr) % 1024 < (b.1 + 1023 - s.host.rr) % 1024))
    (qs.filter fun x => x.2.pri.toNat == top)).map (·.1)

/-! ### The start of a launch (R27, R37, R295, R296, R434) -/

/-- R38: a tag that no live launch has; which one is open (log entry 8). -/
def freshTag (s : State) : BitVec 16 :=
  let x : BitVec 16 := (Config.freeWord (s.fresh + 1)).extractLsb' 0 16
  match (List.range 65536).find? fun k => !s.host.running.any fun r => r.tag == x + BitVec.ofNat 16 k with
  | none => x
  | some k => x + BitVec.ofNat 16 k

def roundUpN (n k : Nat) : Nat := (n + k - 1) / k * k

/-- R61: the `.tcm` image of a core, rounded up; none where no role stands. -/
def imageOf (v : VfRegs) (core : Nat) : Nat :=
  match v.roles.find? fun x => x.1 == core with
  | none => 0
  | some (_, role) => roundUpN (tabGet v.images 0 role) 128

def launchOf (s : State) (q : Nat) (w : Wq) (r : RecBytes) (ms : List LeafMap) (tag : BitVec 16) : Launch :=
  let c := recCfg r
  let f (lo n : Nat) : Nat := (c.extractLsb' lo n).toNat
  let tv := (rw64 r 0x038).extractLsb' 2 54
  { live := true, tag := tag, vf := w.vf, svc := w.svc, wq := BitVec.ofNat 10 q, idx := w.head.toNat, levels := recLevels r,
    stamp := recStamp r, frames := f 0 7, logsize := 1024 * f 8 8, inbox := 256 * f 16 8, spill := 128 * f 24 6,
    image := imageOf (s.vfReg w.vf)
      (if recPaired r && s.tileId / 2 % 2 == 1 then partner s.core.id else s.core.id).toNat, migratory := recMigratory r, paired := recPaired r,
    entry := (rw64 r 0x030).extractLsb' 2 54 ++ 0#2, trapvec := tv, trapvecNext := tv, errrec := (rw64 r 0x040).toNat,
    slices := (rw64 r 0x048).toNat, classtab := (r.drop 0x070).take 16, lahDecl := recLah r, links := recLinks r, leaves := ms,
    heapBase := (Config.freeBase s.fresh).toNat }

/-- R295: the links of a tile; what comes on a self-link comes on the local link (R296). R303: of a link that has carried nothing, the
value last sent counts as the launch stamp, as the promise that its receiver holds does (log entry 100). -/
def inLinksOf (es : List Edge) (t stamp : Nat) : List InLink :=
  (es.filter fun e => e.2.2 == t && e.1 != t).map fun e => { src := e.1, cls := e.2.1, prom := stamp, asked := false }
def outLinksOf (es : List Edge) (t stamp : Nat) : List OutLink :=
  (es.filter fun e => e.1 == t).map fun e => { dst := e.2.2, cls := e.2.1, sent := stamp, kept := none, pipped := false }

/-- R37: the tile as a launch finds it. What belongs to the hardware stays. -/
def launchTile (t : TileSt) (l : Launch) (es : List Edge) (tile : Nat) : TileSt :=
  { inLinks := inLinksOf es tile l.stamp.toNat, outLinks := outLinksOf es tile l.stamp.toNat, launchProm := inf48,
    lah := l.lahDecl, horizon := l.stamp.toNat, meter := t.meter, cal := t.cal, halted := t.halted, frozen := t.frozen,
    l2tlb := t.l2tlb, faults := t.faults, walkSerial := t.walkSerial, dropsOut := t.dropsOut, retired := t.retired,
    spareCore := t.spareCore, spareCol := t.spareCol }

/-- R27: an initial activation of a leaf. -/
def initialCand (l : Launch) (leaf core : Nat) : Cand :=
  { key := { stamp := l.stamp.toNat, src := 0, seq := leaf }, cls := none, core := BitVec.ofNat 13 core, pc := l.entry,
    mig := l.migratory, priv := if l.svc then 1 else 0, w1 := 0, w2 := 0, w3 := 0, payload := [], tag := l.tag,
    leaf := BitVec.ofNat 24 leaf, xferid := 0, traps := [], place := .inbox, bytes := 0, off := 0, handler0 := false }

def addInitial (l : Launch) (s : State) : State :=
  let ls := ((l.leaves.map leavesIn).flatten).filter fun i =>
    match coreOfLeaf l.leaves i with | none => false | some c => c / 8 == pairTile s
  ls.foldl (fun s i =>
    match coreOfLeaf l.leaves i with
    | none => s
    | some c => (addCand (initialCand l i (hereCore s (BitVec.ofNat 13 c)).toNat) s).getD s) s

/-- R352: a core leaves the identifier that it was bound to, if any; this core's is the one that it holds. -/
def leaveOld (core : Nat) (s : State) : State :=
  match tabGet? s.host.bound core with
  | none => s
  | some b => if core = s.core.id.toNat then leaveAsid s.core.vf s.core.asid s else leaveAsid b.1 b.2 s
/-- R352, R434: the cores of a launch are bound; this core then takes its identifier itself. -/
def bindCores (vf : BitVec 6) (asid : BitVec 16) (ts : List Nat) (s : State) : State :=
  (ts.map fun t => (List.range 8).map fun k => 8 * t + k).flatten.foldl (fun s c =>
    let s := leaveOld c s
    (if c = s.core.id.toNat then s else joinAsid vf asid s).onHost fun h => { h with bound := tabSet h.bound c (vf, asid) }) s

/-- R74, R235, R310, R422, R434: the core as a launch finds it: its function and binding, its segment counter, its inbox. Dirty records that
await their merge stay (R358). -/
def launchCore (asid : BitVec 16) (vf : BitVec 6) (s : State) : State :=
  takeAsid asid (s.onCore fun c =>
    { c with vf := vf, segCtr := 0, serial := 0, sealed := [], ovf := 0, inbox := [], inboxTail := 0, acqPend := [], ackedLines := [], orphans := [],
             pairQ := [], pairOk := [], mxSaved := none, shW := Vector.replicate 16 0, shMatch := none, bramble := false })

def startLaunch (q : Nat) (w : Wq) (r : RecBytes) (ms : List LeafMap) (s : State) : State :=
  let tag := freshTag s
  let l := launchOf s q w r ms tag
  let ts := takesTiles r ms
  let mine := ts.contains s.tileId
  let s := { s with fresh := s.fresh + 2 }
  let s := s.onHost fun h => { h with running := h.running ++
    [{ tag := tag, vf := w.vf, wq := BitVec.ofNat 10 q, idx := w.head.toNat, cores := ms.map leafCores, svc := w.svc, paired := l.paired,
       started := false }] }
  let s := bindCores w.vf w.asid ts s
  if !mine then s
  else
    let s := launchCore w.asid w.vf { s with launch := l, cur := {}, rest := [] }
    addInitial l (s.onTile fun t => launchTile t l (edgesOf ms l.links) (pairTile s))

/-- LAUNCH_TAKE: the unit takes the head record of the queue it chooses; a refused one gets its completion record at once. -/
def launchTake (q : Nat) (s : State) : State :=
  if chosenQueue s != some q then s
  else
    let w := tabGet s.host.wqs {} q
    let r := headRec s w
    let ms := chooseMaps s (s.vfReg w.vf) r
    let s1 := s.onHost fun h => { h with wqs := tabSet h.wqs q { w with head := w.head + 1 }, rr := q }
    match validate s w.vf r ms with
    | .ok => startLaunch q w r ms s1
    | c => completionEntry (BitVec.ofNat 10 q) w.head.toNat 0 0 c.num s1
def execLaunchTake (q : BitVec 10) (s : State) : Host.Outcome State Fault Refusal := done (launchTake q.toNat s)

/-! ### LOADCMD_WRITE (R437) -/

def cw32 (s : State) (pa off : Nat) : Nat := leNat (memGetN s.home.mem (pa + off) 4)
def cw64 (s : State) (pa off : Nat) : Nat := leNat (memGetN s.home.mem (pa + off) 8)

/-- Step 1: the header. -/
def containerBad (s : State) (pa : Nat) : Bool :=
  cw32 s pa 0 != 0x3158494A || cw32 s pa 4 != 1 || cw64 s pa 8 < 208 || cw64 s pa 56 != cw64 s pa 8 - 144

/-- Part k of role r: offset and size. -/
def rolePart (s : State) (pa r k : Nat) : Nat × Nat :=
  let e := pa + cw64 s pa 24 + 64 * r + 8 * k
  (cw32 s e 0, cw32 s e 4)

/-- What firmware chooses for a role: physical and virtual bases of code and data (log entry 20). -/
structure RoleBase where
  text : Nat
  data : Nat
  vtext : Nat
  vdata : Nat
  deriving DecidableEq, Repr
def roleBase (s : State) (r : Nat) : RoleBase :=
  let b (k : Nat) : Nat := (Config.freeBase (s.fresh + 4 * r + k)).toNat / 65536 * 65536
  { text := b 0, data := b 1, vtext := b 2, vdata := b 3 }

def copyPart (pa : Nat) (p : Nat × Nat) (dst : Nat) (s : State) : State :=
  s.onHome fun h => homePut h dst (memGetN h.mem (pa + p.1) p.2)

/-- A word of memory, or of this core's image in TCM, with a base added. -/
def relocHome (a base : Nat) (s : State) : State := s.onHome fun h => homePut h a (leBytes 8 (leNat (memGetN h.mem a 8) + base))
def relocTcm (a base : Nat) (s : State) : State := tcmPut s a (leBytes 8 (leNat (tcmBytes s a 8) + base))

/-- Step 2 for a relocation entry: the base of the named section is added to a word. In which section the word stands the entry does
not say: a free choice among those that hold such an offset (log entry 24). -/
def relocate (s : State) (pa r : Nat) (b : RoleBase) (mine : Bool) (e : Word) : State :=
  let off := (e.extractLsb' 0 62).toNat
  let ro := (rolePart s pa r 1).2
  let base : Nat := match (e.extractLsb' 62 2).toNat with | 0 => b.vtext | 1 => b.vdata | 2 => b.vdata + ro | _ => 0
  let ks := (List.range 4).filter fun k => decide (off + 8 ≤ (rolePart s pa r k).2)
  let (x, s1) := s.free
  match ks[x.toNat % ks.length]? with
  | none => s
  | some 0 => relocHome (b.text + off) base s1
  | some 1 => relocHome (b.data + off) base s1
  | some 2 => relocHome (b.data + ro + off) base s1
  | some _ => if mine then relocTcm off base s1 else s1

/-- R77: the cores of a role in ascending order: the one at position p hands the image on to those at positions p times the fanout, plus 1
up to plus the fanout. -/
def bootKids (cores : List Nat) (fanout p : Nat) : List Nat := (List.range fanout).filterMap fun k => cores[p * fanout + 1 + k]?

/-- Step 3: the image of this core's role reaches its TCM, and goes on to those below it in the boot tree. -/
def loadImage (pa r fanout : Nat) (cores : List Nat) (s : State) : State :=
  match cores.findIdx? (· == s.core.id.toNat) with
  | none => s
  | some k =>
    let p := rolePart s pa r 3
    (bootKids cores fanout k).foldl (fun s c => emit (.image (BitVec.ofNat 13 c)) s) (tcmPut s 0 (memGetN s.home.mem (pa + p.1) p.2))

/-- Steps 2 and 3 for a role. -/
def loadRole (pa r : Nat) (b : RoleBase) (roles : List (Nat × Nat)) (s : State) : State :=
  let cores := (roles.filter fun x => x.2 == r).map (·.1)
  let ro := rolePart s pa r 1
  let s := copyPart pa (rolePart s pa r 0) b.text s
  let s := copyPart pa ro b.data s
  let s := copyPart pa (rolePart s pa r 2) (b.data + ro.2) s
  let s := loadImage pa r (leNat (memGetN s.home.mem (pa + cw64 s pa 40 + r) 1)) cores s
  let rel := rolePart s pa r 4
  (List.range (rel.2 / 8)).foldl (fun s k =>
    relocate s pa r b (cores.contains s.core.id.toNat) (BitVec.ofNat 64 (cw64 s pa (rel.1 + 8 * k)))) s

/-- R437: the role of each core, and the leaf maps. -/
def readRoles (s : State) (pa : Nat) : List (Nat × Nat) :=
  let p := cw64 s pa 32
  (List.range 8192).filterMap fun c =>
    let r := leNat (memGetN s.home.mem (pa + p + 2 * c) 2)
    if r = 0xFFFF then none else some (c, r)
def readLeaves (s : State) (pa : Nat) : List LeafMap :=
  let p := cw64 s pa 32 + 16384
  (List.range (cw32 s pa p)).map fun k =>
    let e := p + 8 + 24 * k
    { launch := cw32 s pa e, leaf0 := cw32 s pa (e + 4), leaf1 := cw32 s pa (e + 8), core0 := cw32 s pa (e + 12), per := cw32 s pa (e + 16) }

/-- Step 4 for a launch record: ENTRY, TRAPVEC and a relative ERRREC take the bases of their role. Whether a record's ERRREC is relative
the record does not show: a free choice; a TRAPVEC or an ERRREC of 0 is taken for none and stays 0 (log entry 24). -/
def relocRecord (pa : Nat) (rel : Bool) (base : Nat → RoleBase) (n : Nat) (s : State) : State :=
  let a := pa + cw64 s pa 48 + 2048 * n
  let e := leWord (memGetN s.home.mem (a + 0x30) 8)
  let tv := leWord (memGetN s.home.mem (a + 0x38) 8)
  let er := leWord (memGetN s.home.mem (a + 0x40) 8)
  let b := base (e.extractLsb' 56 8).toNat
  let e' := e + BitVec.ofNat 64 b.vtext
  let tv' := if tv = 0 then 0 else tv + BitVec.ofNat 64 b.vtext
  let role := (e.extractLsb' 56 8).toNat
  let er' := if er = 0 || !rel then er else er + BitVec.ofNat 64 (b.vdata + (rolePart s pa role 1).2)
  s.onHome fun h => homePut (homePut (homePut h (a + 0x30) (leBytes 8 e'.toNat)) (a + 0x38) (leBytes 8 tv'.toNat)) (a + 0x40) (leBytes 8 er'.toNat)
def errrecBad (s : State) (pa n : Nat) : Bool := leNat (memGetN s.home.mem (pa + cw64 s pa 48 + 2048 * n + 0x40) 8) % 64 != 0

def setLoadst (f : BitVec 6) (code : BitVec 8) (s : State) : State := s.setVf f { s.vfReg f with loadst := code, loadBusy := false }

/-- LOADCMD_WRITE. Whether the signature verifies, and whether firmware finds room and each image arrives, is open (log entry 20). -/
def loadContainer (f : BitVec 6) (v : Word) (s : State) : State :=
  let pa := (v.extractLsb' 6 46).toNat * 64
  let x := Config.freeWord s.fresh
  let s1 := { s with fresh := s.fresh + 1 }
  let s1 := s1.setVf f { s1.vfReg f with loadcmd := v.extractLsb' 6 46 }
  if containerBad s1 pa then setLoadst f 1 s1
  else if x.getLsbD 0 then setLoadst f 2 s1
  else if x.getLsbD 1 then setLoadst f 3 s1
  else if x.getLsbD 2 then setLoadst f 4 s1
  else
    let base (r : Nat) : RoleBase := roleBase s1 r
    let nr := cw32 s1 pa 16
    let nl := cw32 s1 pa 20
    let roles := readRoles s1 pa
    let s2 := (List.range nr).foldl (fun s r => loadRole pa r (base r) roles s) { s1 with fresh := s1.fresh + 4 * nr }
    let s3 := (List.range nl).foldl (fun s n => relocRecord pa (x.getLsbD (3 + n % 61)) base n s) s2
    if (List.range nl).any (errrecBad s3 pa) then setLoadst f 3 s3
    else
      let images : Tab Nat := (List.range nr).map fun r => (r, (rolePart s3 pa r 3).2)
      setLoadst f 0 (s3.setVf f { s3.vfReg f with leaves := readLeaves s3 pa, roles := roles, images := images })
def execLoadcmdWrite (f : BitVec 6) (v : Word) (s : State) : Host.Outcome State Fault Refusal := done (loadContainer f v s)

end Sys2Proof.Machine
end

