-- ==== Sys2Proof/Machine/EvXlat.lean ====
section
/-! DEFINITION. Steps of translation: walks, the fault table, fault messages and their replies, the merge of the dirty log (R348 to R359). -/

namespace Sys2Proof.Machine

/-! ### Who misses -/

/-- A requester's miss: the address, the access, the privilege it is made under. -/
structure Miss where
  va : Nat
  acc : Access
  priv : BitVec 2
  deriving DecidableEq, Repr

def stopMiss (priv : BitVec 2) : Option EStop → Option Miss
  | some (.miss va acc) => some { va := va, acc := acc, priv := priv }
  | _ => none

def taskMiss (t : Task) : Option Miss :=
  match t.wait with
  | some (.walk va acc false) => some { va := va, acc := acc, priv := t.priv }
  | _ => none

/-- R413: where the error record faults (page) for the tile's error agent. -/
def errMiss (s : State) : Option Miss :=
  if s.tile.errQ.isEmpty then none
  else if agentFaults s s.launch.errrec then some { va := s.launch.errrec, acc := .amo, priv := 1 }
  else
    match agentXlat s s.launch.errrec with
    | none => none
    | some pa =>
      let va := s.launch.errrec + 32 + 32 * leNat (memGetN s.home.mem pa 8)
      if agentFaults s va then some { va := va, acc := .amo, priv := 1 } else none

/-- The miss that a requester waits for; none where it has none. -/
def missOf (w : WalkFor) (s : State) : Option Miss :=
  match w with
  | .task f => (s.findCtx (liveAt f)).bind taskMiss
  | .stream f k => (s.findCtx (liveAt f)).bind fun t => stopMiss t.priv (streamStep f k s)
  | .engine q =>
    if q = 8 then (s.core.mx.queue.head?).bind fun m => stopMiss m.priv (mxComplete s).2
    else ((s.queue q).head?).bind fun o => stopMiss o.priv (xferStep q s).2
  | .agent => errMiss s

/-- The task for which a requester acts. -/
def askerTask (w : WalkFor) (s : State) : Option (Word × BitVec 13) :=
  match w with
  | .task f => (s.findCtx (liveAt f)).map fun t => (t.tid, t.origin)
  | .stream f _ => (s.findCtx (liveAt f)).map fun t => (t.tid, t.origin)
  | .engine q =>
    if q = 8 then (s.core.mx.queue.head?).map fun m => (m.tid, m.origin) else ((s.queue q).head?).map fun o => (o.tid, o.origin)
  | .agent => none
/-- R345, R351: a requester with what it misses. -/
def askerOf (w : WalkFor) (m : Miss) (s : State) : Asker :=
  let n := (askerTask w s).getD (0, 0)
  { who := w, vf := s.core.vf, tid := n.1, origin := n.2, page := m.va / 65536 }

/-- R349: the rights that the walker tests. -/
def missRights1 (e : Tlb) (m : Miss) : Bool := rights1 e m.acc m.priv
def missRights2 (e : Tlb) (m : Miss) : Bool := rights2 e m.acc

/-! ### PAGE_WALK (R348 to R351) -/

/-- R351: walks of one page are merged. -/
def samePage (s : State) (va : Nat) (f : FaultRec) : Bool :=
  f.vf == s.core.vf && f.asid == s.core.asid && f.gen == s.core.asidGen && f.va / 65536 == va / 65536

/-- R354: what the stage-2 leaf of an address that lacks a right is reported with. -/
def permFault (s : State) (va : Nat) : WalkFault :=
  let vf := s.core.vf
  let root2 := (s.vfReg vf).s2root.toNat
  let e := s.asidEnt vf s.core.asid
  match walk1From (walkDeny s vf) s.home vf root2 e.root.toNat va 0 4 with
  | .error f => f
  | .ok p =>
    let g := pteAddr p.e + va % 2 ^ pageBits p.lvl
    let lvl := match stage2 (walkDeny s vf) s.home vf root2 g with | .ok (_, some q) => q.lvl | _ => 0
    { word0 := g, lvl := lvl, perm := true, malf := false, s2walk := false, s2 := true }

/-- R351: a walk that faults waits in the table; which walker it has left is open (log entry 8). With the table full the miss waits
for a walker. -/
def addFault (w : WalkFor) (m : Miss) (f : WalkFault) (s : State) : State :=
  if s.tile.faults.length ≥ 256 then s
  else
    let (x, s) := s.free
    let r : FaultRec := { walker := x.toNat % 64, serial := s.tile.walkSerial, vf := s.core.vf, asid := s.core.asid,
                          gen := s.core.asidGen, va := m.va, word0 := f.word0, lvl := f.lvl, perm := f.perm, malf := f.malf,
                          s2walk := f.s2walk, s2 := f.s2, acc := m.acc, who := [askerOf w m s], core := s.core.id, posted := false,
                          toCore := 0 }
    s.onTile fun t => { t with faults := t.faults ++ [r], walkSerial := t.walkSerial + 1 }

/-- A walk that ends: the TLBs are filled, and the tasks that miss in its page try again. -/
def fillTlbs (m : Miss) (e : Tlb) (s : State) : State :=
  let s := s.onTile fun t => { t with l2tlb := l2Fill t.l2tlb e }
  let s := s.onCore fun c =>
    if m.acc == .fetch then { c with itlb := tlbFill 32 c.itlb e } else { c with dtlb := tlbFill 64 c.dtlb e }
  s.mapTasks (fun t => t.st == .faulted && (match taskMiss t with | none => false | some x => x.va / 65536 == m.va / 65536)) wake

/-- The walk of a miss, some addresses of which cannot be read. -/
def walkOf (deny : Nat → Bool) (m : Miss) (s : State) : Except WalkFault Tlb :=
  let vf := s.core.vf
  let e := s.asidEnt vf s.core.asid
  walkVa deny s.home vf s.core.asid s.core.asidGen e.root.toNat (s.vfReg vf).s2root.toNat m.va

/-- R241: a walk that a lost or refused read stops is a failure of the task for which the requester acts. -/
def noteWalk (w : WalkFor) (m : Miss) (s : State) : State :=
  let pois (pa : Nat) : Bool := s.home.poison.contains (pa / 8)
  let n := (askerTask w s).getD (0, 0)
  if w == .agent || walkOf (walkDeny s s.core.vf) m s == walkOf pois m s then s
  else failNamed n.1 n.2 0 (decide (walkOf (fun pa => pois pa || lostRead s pa) m s ≠ walkOf pois m s)) s

def walkMiss (w : WalkFor) (m : Miss) (s : State) : State :=
  match walkOf (walkDeny s s.core.vf) m s with
  | .error f => addFault w m f (noteWalk w m s)
  | .ok e => if missRights1 e m && !missRights2 e m then addFault w m (permFault s m.va) s else fillTlbs m e s

/-- PAGE_WALK. The error agent writes what waits once its record is translated (R413). -/
def pageWalk (w : WalkFor) (s : State) : State :=
  match missOf w s with
  | none => if w == .agent then flushErr s.tile.errQ s else s
  | some m =>
    let a := askerOf w m s
    if s.tile.faults.any fun f => samePage s m.va f && f.who.contains a then s
    else if s.tile.faults.any (samePage s m.va) then
      s.onTile fun t => { t with faults := t.faults.map fun f => if samePage s m.va f then { f with who := f.who ++ [a] } else f }
    else walkMiss w m s
def execPageWalk (w : WalkFor) (s : State) : Host.Outcome State Fault Refusal := done (pageWalk w s)

/-! ### Replies (R356, R357) -/

/-- R356: a refused stream element. -/
def streamRefused (k : BitVec 3) (va : Nat) (s : State) : State :=
  let f := strmFld k
  match strmOf s.cur f with
  | none => s
  | some st =>
    if st.pat.out then drainBad f (cACCESS, va) s
    else s.onCur (setStrm f (some { st with fetched := st.fetched ++ [.refused va] }))

/-- R356: a merged requester that is refused: it fails where it still misses on that page; that of a sharer which is switched out
keeps the answer until the sharer comes in (R33, R357). -/
def refuseFor (s : State) (a : Asker) : State :=
  if a.vf != s.core.vf then
    { s with saved := s.saved.map fun x => if x.vf == a.vf then { x with refused := x.refused ++ [a] } else x }
  else
  match missOf a.who s with
  | none => s
  | some m =>
    if askerOf a.who m s != a then s else
    match a.who with
    | .task f =>
      s.updCtx (liveAt f) fun t =>
        { t with wait := some (.walk m.va m.acc true), st := if t.st == .preempted then .preempted else .ready }
    | .stream f k => asFrame f (streamRefused k m.va) s
    | .engine q =>
      if q = 8 then (match s.core.mx.queue with | [] => s | c :: _ => mxFail 0 c (mxErr 4 m.va) s)
      else copyStop q (.refuse m.va) s
    | .agent => (errDrop s).onTile fun t => { t with errQ := t.errQ.drop 1 }

/-- A walk leaves the fault table: its requesters walk again, or fail. -/
def settleFault (f : FaultRec) (retry : Bool) (s : State) : State :=
  let s := s.onTile fun t => { t with faults := t.faults.erase f }
  if retry then s else f.who.foldl refuseFor s

/-- FAULT_REPLY_ARRIVAL. A reply of this core leaves the reply channel. -/
def faultReplyArrival (token : Word) (retry : Bool) (s : State) : State :=
  let s := s.onHome fun h => { h with out := h.out.erase (.faultAns token retry) }
  match s.tile.faults.find? fun f => f.posted && faultToken s.clusterId f == token with
  | none => s
  | some f => settleFault f retry s
def execFaultReplyArrival (token : Word) (retry : Bool) (s : State) : Host.Outcome State Fault Refusal :=
  done (faultReplyArrival token retry s)

/-! ### FAULT_MESSAGE (R354, R355) -/

/-- R354: the function whose service core receives a fault. -/
def faultVf (f : FaultRec) : BitVec 6 := if f.s2 then 0 else f.vf

/-- R354: a service launch of a function is resident on its service core. -/
def svcResident (s : State) (v : BitVec 6) : Bool :=
  let c := (s.vfReg v).svccore.toNat
  s.host.running.any fun r => r.svc && r.started && r.vf == v && r.cores.any fun x => decide (x.1 ≤ c) && decide (c ≤ x.2)

def isEngine : WalkFor → Bool
  | .task _ => false
  | _ => true

/-- R354: the payload. -/
def faultWords (s : State) (f : FaultRec) : List Word :=
  let flags : Word := (f.asid ++ f.gen ++ 0#12 ++ f.core ++ BitVec.ofNat 3 f.lvl ++ 0#7 ++ BitVec.ofBool f.perm ++
    BitVec.ofBool f.malf ++ BitVec.ofBool f.s2walk ++ BitVec.ofBool f.s2 ++ BitVec.ofBool (f.who.any fun a => isEngine a.who) ++
    BitVec.ofBool (needX f.acc) ++ BitVec.ofBool (needW f.acc) ++ 0#2 : BitVec 64)
  [BitVec.ofNat 64 f.word0, BitVec.ofNat 64 f.va, flags, faultToken s.clusterId f]

/-- R354: the activation of the service launch on this core. Its source, class and leaf no rule gives (log entry 25). -/
def faultCand (s : State) (ws : List Word) (hand : BitVec 54) : Cand :=
  let x := Config.freeWord s.fresh
  { key := { stamp := s.launch.stamp.toNat, src := s.tileId + 1, seq := s.tile.localSeq }, cls := none, core := s.core.id,
    pc := hand ++ 0#2, mig := false, priv := 1, w1 := 32, w2 := (x.extractLsb' 0 13).setWidth 64,
    w3 := (x.extractLsb' 13 4).setWidth 64, payload := ws, tag := s.launch.tag, leaf := x.extractLsb' 17 24, xferid := 0,
    traps := [], place := .inbox, bytes := 0, off := 0, handler0 := false }

def markPosted (f : FaultRec) (core : BitVec 13) (s : State) : State :=
  s.onTile fun t => { t with faults := t.faults.map fun x => if x == f then { x with posted := true, toCore := core } else x }

/-- A task of the resident service launch, where this core runs one of that function and has a frame free. -/
def startFault (v : BitVec 6) (ws : List Word) (hand : BitVec 54) (s : State) : Option State :=
  if !s.launch.live || !s.launch.svc || s.launch.vf != v || s.core.preempt then none
  else
    match freeFrame s with
    | none => none
    | some k =>
      some (startTask (faultCand s ws hand) k
        ({ s with fresh := s.fresh + 1 }.onTile fun t => { t with localSeq := t.localSeq + 1 }))

/-- A fault of this cluster's table is posted, or refused at once. -/
def postFault (f : FaultRec) (s : State) : State :=
  let v := faultVf f
  let r := s.vfReg v
  if f.posted then s
  else if r.svchand = 0 || !svcResident s v then settleFault f false s
  else if r.svccore == s.core.id then (startFault v (faultWords s f) r.svchand (markPosted f s.core.id s)).getD s
  else emit (.fault r.svccore (faultWords s f)) (markPosted f r.svccore s)

/-- R355: bit 5 of word 2 says that the fault is one of stage 2, and so whose service core this core is. -/
def foreignFault (ws : List Word) (s : State) : State :=
  let v : BitVec 6 := if ((ws[2]?).getD 0).getLsbD 5 then 0 else s.core.vf
  let r := s.vfReg v
  if r.svchand = 0 || !svcResident s v then emit (.faultAns ((ws[3]?).getD 0) false) s
  else if r.svccore == s.core.id then (startFault v ws r.svchand s).getD s
  else s

/-- FAULT_MESSAGE. -/
def execFaultMessage (f : FaultSel) (s : State) : Host.Outcome State Fault Refusal :=
  match f with
  | .own k => done (match s.tile.faults[k]? with | none => s | some f => postFault f s)
  | .foreign ws => done (foreignFault ws s)

/-! ### DIRTY_LOG_MERGE (R359) -/

def execDirtyLogMerge (s : State) : Host.Outcome State Fault Refusal :=
  done (if s.core.dirty.length ≥ 32 then mergeDirty s else s)

end Sys2Proof.Machine
end

