-- ==== Sys2Proof/Machine/EvPart.lean ====
section
/-! DEFINITION. Steps of energy metering (R369 to R372), of pre-emption and restore (R374 to R377), of shared clusters (R365) and of the
reset of a function (R366). -/

namespace Sys2Proof.Machine

/-! ### Energy -/

/-- R371: energy added to a function's counter, in nanojoules. -/
def addEcnt (v : BitVec 6) (n : Nat) (s : State) : State :=
  let r := s.vfReg v
  s.setVf v { r with ecnt := r.ecnt + BitVec.ofNat 64 n }

/-- R369: every function's whole nanojoules leave the accumulator. -/
def foldMeter (s : State) : State :=
  let s1 := s.tile.meter.foldl (fun s x => addEcnt (BitVec.ofNat 6 x.1) (x.2 / 1000000) s) s
  s1.onTile fun t => { t with meter := t.meter.map fun x => (x.1, x.2 % 1000000) }

/-- R370: idle and leakage energy, of which no rule gives the amounts (log entry 8): of each cluster to its resident partition, an
unassigned one's and the hub die's to the physical function. -/
def idleOne (v : BitVec 6) (s : State) : State :=
  let (x, s) := s.free
  addEcnt v (x.toNat % 2 ^ 32) s
def chargeIdle (s : State) : State := idleOne 0 ((List.range 64).foldl (fun s c => idleOne (residentOf s c) s) s)

/-- R372: the comparison at each fold. -/
def overQuota (r : VfRegs) : Bool := r.cause == 0 && decide (r.ecnt.toNat > r.equota.toNat)
def quotaStops (s : State) : State :=
  s.host.vfs.foldl (fun s x =>
    let v : BitVec 6 := BitVec.ofNat 6 x.1
    if v != 0 && overQuota (s.vfReg v) then stopVf v 1 s else s) s

/-- ENERGY_FOLD. -/
def execEnergyFold (s : State) : Host.Outcome State Fault Refusal := done (quotaStops (chargeIdle (foldMeter s)))

/-- REFRESH_ENERGY_CHARGE: the energy measured of a tier and its pages (R370). -/
def refreshCharge (measured pages : Nat) (s : State) : State :=
  let share (r : VfRegs) : Nat := if pages = 0 then 0 else measured * r.epages.toNat / pages
  let vs := s.host.vfs.filter fun x => x.1 != 0
  let paid := (vs.map fun x => share x.2).sum
  addEcnt 0 (measured - paid) (vs.foldl (fun s x => addEcnt (BitVec.ofNat 6 x.1) (share x.2) s) s)
def execRefreshEnergyCharge (measured pages : Nat) (s : State) : Host.Outcome State Fault Refusal :=
  done (refreshCharge measured pages s)

/-! ### PREEMPTION (R33, R91, R372, R375) -/

/-- R269: the pushed elements of a task are written or appended, but for those that something keeps from it. -/
def pushesDone (t : Task) : Bool :=
  t.streams.toList.all fun x => match x with | none => true | some st => st.pushed.isEmpty || st.bad.isSome || st.miss

/-- R404, R406: an error of an instruction that was issued is to be decided before a pre-emption saves the context. -/
def undecided (t : Task) : Bool := t.errPend.isSome && !t.recover && t.st != .ended && t.st != .preempted
/-- R99, R154, R253, R269: what the core has issued has written its destinations and decided its errors, and what it has pushed is
written. -/
def quiet (s : State) : Bool := s.tasks.all fun t => written t && pushesDone t && !undecided t

/-- R186: an arrival taken back; a ring's phase that has no arrival left is open again. -/
def barLeave (b : Bar) : Bar := { b with arr := b.arr - 1, ring := b.ring && b.arr != 1 }

/-- R198: a pending MROT arrival whose phase has not completed is withdrawn. -/
def withdrawMrot (s : State) : State :=
  match s.core.mx.queue with
  | [] => s
  | m :: _ =>
    match m.bar with
    | none => s
    | some n =>
      if m.fn == .mrot && m.started && !mxReleased s m then
        (onMx (fun c => { c with queue := modIdx c.queue 0 fun m => { m with started := false } }) s).setBar n
          (barLeave (s.bar n))
      else s

/-- R249, R288, R323: waits that a pre-emption abandons; after the restore their instructions issue their requests again, and are charged
once (R249). -/
def leavesWait : Wait → Bool
  | .acq .. | .acqBelow _ | .nrwait _ | .sweep _ => true
  | .operand .. | .load | .busy _ | .xget _ | .tcmBusy .. | .shadow | .yielded | .logSpace _ | .dirtyFull | .drain _ | .event ..
  | .ending _ | .leave .. | .acks _ | .reply .. | .fence .. | .flag .. | .qfence _ | .bwait .. | .migrate | .mxContext | .mxQueue | .block ..
  | .walk .. | .fill _ | .translations _ => false

/-- R269: fetched elements that have not been popped are discarded. -/
def unfetch (st : Stream) : Stream := if st.pat.out then st else { st with fetched := [] }

/-- R33, R269, R339: a task stopped at its boundary. -/
def stopOne (t : Task) : Task :=
  if t.st == .ended then t
  else
    let t := settleDeposits t
    { t with st := .preempted, wait := if t.wait.any leavesWait then none else t.wait, streams := t.streams.map (·.map unfetch) }

/-- R198: the matrix context of the owner is saved and released; the accumulators that are saved become the base (R197). -/
def saveMx (c : CoreSt) : CoreSt :=
  if c.mx.owner.isNone then c
  else { c with mxSaved := some { c.mx with hist0 := [], hist1 := [], chk0 := true, chk1 := true }, mx := {} }

/-- R202: a pre-emption returns the granules that wait for the replay queue. -/
def stopTasks (s : State) : State :=
  { s with cur := stopOne s.cur, rest := s.rest.map stopOne,
           core := saveMx { s.core with runs := s.core.runs.filter fun r => r.rel.isNone } }

def markSaved (r : VfRegs) : VfRegs := if r.saving then { r with saving := false, stopped := true } else r

/-- PREEMPTION: this core's contexts are saved where they stand (log entry 16). Of a function that this core does not run, the last
context has been saved (log entry 2). -/
def preemption (s : State) : State :=
  let s := s.onHost fun h => { h with vfs := h.vfs.map fun x => if x.1 == s.core.vf.toNat then x else (x.1, markSaved x.2) }
  if s.core.preempt && quiet s then
    let s := chargeOpen 0 (stopTasks (withdrawMrot s))
    s.setVf s.core.vf (markSaved (s.vfReg s.core.vf))
  else s
def execPreemption (s : State) : Host.Outcome State Fault Refusal := done (preemption s)

/-! ### CONTEXT_RESTORE (R33, R376, R377) -/

/-- R33: whether the event that a context waits for has come. What a wait for an operand meets the instruction finds by itself. -/
def eventCome (s : State) (t : Task) : Wait → Bool
  | .operand ss sd vs vd => operandsReady ss sd vs vd { s with cur := t }
  | .event m _ gone => gone || events { s with cur := t } m != 0
  | .bwait n p => phasePassed (s.bar n) p
  | .drain fs | .ending fs => !fs.any fun f => (undrained t).contains f
  | .acks n | .leave n _ | .reply n _ _ => segsAcked { s with cur := t } n
  | .fence n _ => fenceDone { s with cur := t } n
  | .flag _ _ _ b => b
  | .qfence m => (busyQueues m { s with cur := t }).isEmpty
  | .migrate => !migHeld { s with cur := t }
  | .mxContext => s.core.mx.owner.isNone
  | .mxQueue => decide (s.core.mx.queue.length < 8)
  | .logSpace n => decide (n ≤ logFree s)
  | .dirtyFull => decide (s.core.dirty.length < 64)
  | .block a p => a.isSome || p.isSome
  | .translations _ => !inFlight s && s.tile.dropsOut == 0
  | .load | .busy _ | .xget _ | .tcmBusy .. | .shadow | .yielded | .walk .. | .fill _ | .acq .. | .acqBelow _ | .nrwait _ | .sweep _ => true

/-- R31: the state of a context whose event has not come. -/
def waitsIn (s : State) (t : Task) : Wait → TaskSt
  | .operand ss sd vs vd =>
    match takeV vs ss (vd.head?.map fun f => (f, false)) sd { s with cur := t } with
    | .error (.wait .waitMsg _ _) => .waitMsg
    | .error (.wait .waitMem _ _) => .waitMem
    | _ => .ready
  | .event .. | .bwait .. => .waitMsg
  | _ => .waitMem

/-- R33: the state of R31 that a restored context enters: ready where its event has come. -/
def restoredSt (s : State) (t : Task) : TaskSt :=
  match t.wait with
  | none => .ready
  | some w => if eventCome s t w then .ready else waitsIn s t w

/-- R199, R376: the granules of a function register that hold coefficients. -/
def allGranules (r : FReg) : BitVec 32 := BitVec.ofNat 32 (2 ^ ((r.n.toNat + 7) / 8) - 1)

/-- R376: the heavy state of an ordinary context is marked absent; at service privilege the restore is eager (R377). -/
def markAbsent (t : Task) : Task :=
  if t.priv != 0 || !t.hvy then t
  else { t with vAbsent := 0xFFFF, f := t.f.map fun r => { r with absent := allGranules r } }

def restoreTask (s : State) (t : Task) : Task :=
  if t.st != .preempted then t
  else if t.shadow then { markAbsent t with st := .running }
  else if strmMissing t then { markAbsent t with st := .faulted }
  else { markAbsent t with st := restoredSt s t }

/-- R174, R198: the owner reclaims its context, with its queue and its latch (log entry 81). -/
def reclaimMx (s : State) : State :=
  match s.core.mxSaved with
  | none => s
  | some m => s.onCore fun c => { c with mx := m, mxSaved := none }
/-- R198: the accumulators of an ordinary owner. -/
def absentMx (s : State) : State :=
  match s.core.mx.owner with
  | none => s
  | some (t, o) =>
    if s.tasks.any fun u => sameTask u t o && u.priv != 0 then s
    else onMx (fun c => { c with absent0 := 0xFFFF, absent1 := 0xFFFF }) s

def restoreCore (s : State) : State :=
  let s := if s.core.mxSaved.isSome then absentMx (reclaimMx s) else s
  { s with cur := restoreTask s s.cur, rest := s.rest.map (restoreTask s) }.onCore fun c => { c with preempt := false }

/-- CONTEXT_RESTORE: of a function that runs again. -/
def contextRestore (s : State) : State :=
  if s.core.preempt && (s.vfReg s.core.vf).cause == 0 then restoreCore (chargeOpen 0 s) else s
def execContextRestore (s : State) : Host.Outcome State Fault Refusal := done (contextRestore s)

/-- CHECKPOINT_WRITEBACK: a checkpoint in the core area holds what the context holds (R377; log entry 16); the cost is the physical
function's (R370). -/
def execCheckpointWriteback (s : State) : Host.Outcome State Fault Refusal := done (chargeOpen 0 s)

/-! ### EQUOTA_WRITE, ESTAT_RESUME (R372) -/

/-- R366: a function that is being reset stays stopped. -/
def resetting (s : State) (v : BitVec 6) : Bool := s.home.deadMask.getLsbD v.toNat

def resumeVf (v : BitVec 6) (s : State) : State :=
  s.setVf v { s.vfReg v with cause := 0, saving := false, stopped := false }

def equotaWrite (v : BitVec 6) (x : Word) (s : State) : State :=
  let r := s.vfReg v
  let s := s.setVf v { r with equota := x }
  if r.cause == 1 && decide (x.toNat > r.ecnt.toNat) && !resetting s v then resumeVf v s else s
def execEquotaWrite (v : BitVec 6) (x : Word) (s : State) : Host.Outcome State Fault Refusal := done (equotaWrite v x s)

def execEstatResume (v : BitVec 6) (s : State) : Host.Outcome State Fault Refusal :=
  done (if (s.vfReg v).cause == 2 && !resetting s v then resumeVf v s else s)

/-! ### QUANTUM_EXPIRY (R365) -/

/-- R440: whether an address lies in a scratchpad of a cluster. -/
def inSpm (c pa : Nat) : Bool := decide (0x31000000000 + c * 0x800000 ≤ pa) && decide (pa < 0x31000000000 + (c + 1) * 0x800000)
def spmWord (c w : Nat) : Bool := inSpm c (8 * w)

/-- The homes without the contents of some scratchpads. -/
def clearSpm (p : Nat → Bool) (h : HomeSt) : HomeSt :=
  { h with mem := h.mem.filter fun x => !p x.1, tags := h.tags.filter fun x => !p (8 * x.1), poison := h.poison.filter fun w => !p (8 * w) }

/-- Cells put back into a memory. -/
def putCells (m : List Host.Cell) (l : List Host.Cell) : List Host.Cell := l.foldl (fun m x => memPut m x.1 x.2) m
def putTags (m : Tab TagEnt) (l : Tab TagEnt) : Tab TagEnt := l.foldl (fun m x => tabSet m x.1 x.2) m

def saveCtx (s : State) : SavedCtx :=
  let c := s.clusterId
  { vf := s.core.vf, spm := s.home.mem.filter fun x => inSpm c x.1, spmTags := s.home.tags.filter fun x => spmWord c x.1,
    spmPoison := s.home.poison.filter (spmWord c), tasks := s.cur :: s.rest, core := s.core, tile := s.tile, launch := s.launch,
    refused := [] }

/-- What of a tile belongs to the hardware and not to the sharer. -/
def keepTile (old new : TileSt) : TileSt :=
  { new with meter := old.meter, cal := old.cal, l2tlb := old.l2tlb, faults := old.faults, walkSerial := old.walkSerial,
             dropsOut := old.dropsOut, retired := old.retired, unpaired := old.unpaired, spareCore := old.spareCore, spareCol := old.spareCol, halted := new.halted }

/-- The state of a sharer that comes in: what was saved of it, or nothing. -/
def incoming (s : State) (v : BitVec 6) : SavedCtx :=
  (s.saved.find? fun x => x.vf == v).getD
    { vf := v, spm := [], spmTags := [], spmPoison := [], tasks := [], core := { id := s.core.id, vf := v }, tile := {}, launch := {},
      refused := [] }

def switchTo (v : BitVec 6) (s : State) : State :=
  let out := saveCtx s
  let x := incoming s v
  let h := clearSpm (inSpm s.clusterId) s.home
  let s1 : State :=
    { s with cur := x.tasks.headD {}, rest := x.tasks.drop 1, launch := x.launch, tile := keepTile s.tile x.tile,
             core := { x.core with itlb := s.core.itlb, dtlb := s.core.dtlb, brkLines := s.core.brkLines },
             home := { h with mem := putCells h.mem x.spm, tags := putTags h.tags x.spmTags, poison := h.poison ++ x.spmPoison },
             saved := out :: s.saved.filter fun y => y.vf != v && y.vf != out.vf }
  x.refused.foldl refuseFor (if (s1.vfReg v).cause == 0 then restoreCore s1 else s1.onCore fun c => { c with preempt := true })

/-- The next sharer in turn that is not stopped. -/
def nextSharer (s : State) (g : Clasg) : Option Nat :=
  let l := [g.shr0, g.shr1, g.shr2, g.shr3]
  let n := g.nshr.toNat + 1
  ((List.range (n - 1)).map fun k => (g.cur + 1 + k) % n).find? fun k =>
    match l[k]? with | none => false | some v => (s.vfReg v).cause == 0 && !(s.vfReg v).stopped

/-- QUANTUM_EXPIRY, of this core's cluster, once what the sharer has sealed is shipped and acknowledged (R233). -/
def quantumExpiry (s : State) : State :=
  let c := s.clusterId
  let g := tabGet s.host.clasg {} c
  if g.mode != 2 || !quiet s || !s.core.sealed.isEmpty then s
  else
    match nextSharer s g with
    | none => s
    | some k =>
      match [g.shr0, g.shr1, g.shr2, g.shr3][k]? with
      | none => s
      | some v =>
        let s := s.onHost fun h => { h with clasg := tabSet h.clasg c { g with cur := k } }
        switchTo v (chargeOpen 0 (stopTasks (withdrawMrot s)))
def execQuantumExpiry (s : State) : Host.Outcome State Fault Refusal := done (quantumExpiry s)

/-! ### PARTITION_RESET, RESET_DRAIN_COMPLETE (R366, R435) -/

/-- R366, step 4: the clusters that are zeroed. -/
def zeroed (s : State) (v : BitVec 6) (c : Nat) : Bool :=
  (tabGet s.host.clasg {} c).mode != 0 && (tabGet s.host.clasg {} c).mode != 3 && residentOf s c == v

/-- Steps 1 and 4 on this core. -/
def zeroCore (c : CoreSt) : CoreSt :=
  { c with tcm := [], tcmPoison := [], vcache := [], sealed := [], ovf := 0, pool := [], runs := [], poolPoison := [], mx := {},
           mxSaved := none, pairQ := [], pairOk := [], acqPend := [], ackedLines := [], inbox := [],
           inboxTail := 0, dirty := [], chan := Vector.replicate 8 [], orphans := [], eng := Vector.replicate 16 [], replay := [],
           shMatch := none, dbgStep := false, bramble := false, preempt := false }
/-- Steps 1 and 4 on its tile: barriers, sequencer tables, what is held. -/
def zeroTile (t : TileSt) : TileSt :=
  { t with bars := Vector.replicate 64 {}, cands := [], overflow := [], migBuf := [], inLinks := [], recv := [], pendPips := [],
           outLinks := [], pairSeq := [], inject := [], injectBy := [], injectMarks := [], unaccepted := [], lah := [], reports := [], redSlots := [],
           redTab := [], owed := [], errQ := [], sweeping := false, sweepWanted := false, otherStamps := [], otherBusy := false,
           otherCommits := [], otherWaits := [], otherFree := [] }
def zeroOwn (s : State) : State :=
  { s with cur := {}, rest := [], launch := {}, core := zeroCore s.core, tile := zeroTile s.tile }

/-- PARTITION_RESET: steps 1 to 4. -/
def partitionReset (v : BitVec 6) (s : State) : State :=
  let mine := s.core.vf == v || zeroed s v s.clusterId
  let zero (pa : Nat) : Bool := (List.range 64).any fun c => zeroed s v c && inSpm c pa
  let s0 : State := { s with saved := s.saved.filter fun x => x.vf != v }
  let s1 := if mine then zeroOwn s0 else s0
  let s2 := (dropTlb (fun e => e.vf == v) s1).onTile fun t => { t with faults := t.faults.filter fun f => f.vf != v }
  let s3 := s2.onHome fun h => { clearSpm zero h with deadMask := h.deadMask ||| (1#64 <<< v.toNat) }
  s3.setVf v { s3.vfReg v with stopped := true, saving := false }
def execPartitionReset (v : BitVec 6) (s : State) : Host.Outcome State Fault Refusal := done (partitionReset v s)

/-- R435: a launch of a function that has been reset; of its status word no rule gives the value (log entry 8). -/
def endReset (s : State) (r : RunInfo) : State :=
  let (x, s) := s.free
  launchOver r.tag (completionEntry r.wq r.idx r.tag (x.extractLsb' 0 32) 7 s)

/-- Step 5 for one function. -/
def resetEnd (v : BitVec 6) (s : State) : State :=
  let s := s.setVf v { s.vfReg v with cause := 3, stopped := true, saving := false }
  (s.host.running.filter fun r => r.vf == v).foldl endReset s

/-- RESET_DRAIN_COMPLETE. -/
def resetDrain (s : State) : State :=
  let vs := (List.range 64).filter fun v => s.home.deadMask.getLsbD v
  let s := vs.foldl (fun s v => resetEnd (BitVec.ofNat 6 v) s) s
  s.onHome fun h => { h with deadMask := 0 }
def execResetDrainComplete (s : State) : Host.Outcome State Fault Refusal := done (resetDrain s)

end Sys2Proof.Machine
end

