-- ==== Sys2Proof/Machine/EvHost.lean ====
section
/-! DEFINITION. Steps of the host interface (R363, R371, R383, R418, R424, R429 to R431) and of bring-up (R438). -/

namespace Sys2Proof.Machine

/-! ### CLASG_WRITE (R363) -/

def clasgOf (x : Word) : Clasg :=
  { mode := if x.extractLsb' 62 2 = 3 then 0 else x.extractLsb' 62 2, quantum := x.extractLsb' 32 16, nshr := x.extractLsb' 30 2,
    shr0 := x.extractLsb' 0 6, shr1 := x.extractLsb' 8 6, shr2 := x.extractLsb' 16 6, shr3 := x.extractLsb' 24 6 }

/-- The partitions that a value names. -/
def clasgNames (g : Clasg) : List (BitVec 6) :=
  if g.mode == 1 then [g.shr0]
  else if g.mode == 2 then [g.shr0, g.shr1, g.shr2, g.shr3].take (g.nshr.toNat + 1)
  else []

def clasgWrite (c : BitVec 6) (x : Word) (s : State) : State :=
  let new := clasgOf x
  if (clasgNames (tabGet s.host.clasg {} c.toNat) ++ clasgNames new).all fun v => (s.vfReg v).stopped then
    s.onHost fun h => { h with clasg := tabSet h.clasg c.toNat new }
  else s
def execClasgWrite (c : BitVec 6) (x : Word) (s : State) : Host.Outcome State Fault Refusal := done (clasgWrite c x s)

/-! ### WQCFG_WRITE (R430) -/

def wqcfgWrite (q : BitVec 10) (x : Word) (s : State) : State :=
  let w := tabGet s.host.wqs {} q.toNat
  let w' : Wq := { w with en := x.getLsbD 63, pri := x.extractLsb' 60 2, svc := x.getLsbD 59, vf := x.extractLsb' 48 6,
                          asid := x.extractLsb' 0 16 }
  if w.head == w.tail && !w.en then s.onHost fun h => { h with wqs := tabSet h.wqs q.toNat w' } else s
def execWqcfgWrite (q : BitVec 10) (x : Word) (s : State) : Host.Outcome State Fault Refusal := done (wqcfgWrite q x s)

/-! ### HOST_REGISTER_WRITE -/

/-- R374: whether a function has a saved context. -/
def hasSaved (s : State) (v : BitVec 6) : Bool :=
  s.saved.any (fun x => x.vf == v) || (s.core.vf == v && s.tasks.any fun t => t.st == .preempted)

/-- R424: a command. -/
def dbgOp (r : VfRegs) : BitVec 3 := r.dbgcmd.extractLsb' 60 3
def dbgKnown (x : Word) : Bool := decide (1 ≤ (x.extractLsb' 60 3).toNat) && decide ((x.extractLsb' 60 3).toNat ≤ 4)

/-- R371, R383, R418, R429: a function's registers after a write at an offset below 0x8000. The registers with a step of their own
are written by that step. -/
def winWrite (s : State) (v : BitVec 6) (off : Nat) (x : Word) (r : VfRegs) : VfRegs :=
  match off with
  | 0x00 => { r with vfctl := x.extractLsb' 0 2 }
  | 0x08 => if hasSaved s v then r else { r with ctxbase := x.extractLsb' 21 31 }
  | 0x10 => { r with ecnt := x }
  | 0x28 => { r with epages := x }
  | 0x30 => if r.stopped then { r with btbase := x.extractLsb' 16 36 } else r
  | 0x38 => if r.stopped then { r with btcnt := x.extractLsb' 0 32 } else r
  | 0x40 => if r.stopped then { r with btfreeH := x.extractLsb' 32 32, btfreeL := x.extractLsb' 0 32 } else r
  | 0x48 => if r.stopped then { r with btnfreeH := x.extractLsb' 32 32, btnfreeL := x.extractLsb' 0 32 } else r
  | 0x50 => { r with brkmap := x.extractLsb' 3 49 }
  | 0x58 => { r with brkva := x.extractLsb' 16 40 }
  | 0x60 => { r with brklen := x.extractLsb' 0 16 }
  | 0x68 => { r with dbgtid := x }
  | 0x70 => { r with dbgtmask := x }
  | 0x78 => if r.dbgbusy || !dbgKnown x then r else { r with dbgcmd := x.extractLsb' 0 63, dbgbusy := true }
  | 0x80 => { r with mhtab := x.extractLsb' 3 53 }
  | 0x88 => { r with smpint := x.extractLsb' 0 32 }
  | 0xB0 => if r.stopped then { r with svccore := x.extractLsb' 0 13 } else r
  | 0xB8 => if r.stopped then { r with svchand := x.extractLsb' 2 54 } else r
  | k => if 0x90 ≤ k ∧ k ≤ 0xA8 ∧ k % 8 = 0 then { r with trbase := r.trbase.setIfInBounds ((k - 0x90) / 8) (x.extractLsb' 23 29) } else r

/-- R431: the ring registers of a queue of the function. -/
def ringWrite (v : BitVec 6) (q k : Nat) (x : Word) (s : State) : State :=
  let w := tabGet s.host.wqs {} q
  let put (w : Wq) : State := s.onHost fun h => { h with wqs := tabSet h.wqs q w }
  if w.vf != v then s
  else
    match k with
    | 0x00 => if w.head == w.tail then put { w with qbase := x.extractLsb' 11 41 } else s
    | 0x08 => if w.head == w.tail then put { w with qctl := x.extractLsb' 0 4 } else s
    | 0x10 => put { w with tail := x.extractLsb' 0 32 }
    | _ => s

/-- R438: where memory training has failed the package exposes only the physical function. -/
def exposed (s : State) (v : BitVec 6) : Bool := v == 0 || !(s.host.devFail && s.host.devStep == 3)

def hostWrite (v : BitVec 6) (off : Nat) (x : Word) (s : State) : State :=
  if !exposed s v then s
  else if off ≥ 0x8000 then ringWrite v ((off - 0x8000) / 32) (off % 32) x s
  else s.setVf v (winWrite s v off x (s.vfReg v))
def execHostRegisterWrite (f : BitVec 6) (off : BitVec 16) (x : Word) (s : State) : Host.Outcome State Fault Refusal :=
  done (hostWrite f off.toNat x s)

/-! ### CXL_MEM_ACCESS (R5, R222, R432) -/

/-- R365: the scratchpad of a shared cluster. -/
def sharedSpm (s : State) (pa : Nat) : Bool :=
  match homeOf pa with
  | some (.spm t _) => (tabGet s.host.clasg {} (clusterOf t)).mode == 2
  | _ => false
/-- A write of the host is performed in place at its home; a read changes nothing here. A write with no memory behind it (R440), or to
the scratchpad of a shared cluster (R365), is refused. -/
def cxlAccess (pa : Nat) (w : Option (List Byte)) (s : State) : State :=
  match w with
  | some bs => if noMemory s pa || sharedSpm s pa then s else s.onHome fun h => homePut h pa bs
  | none => s
def execCxlMemAccess (pa : Nat) (w : Option (List Byte)) (s : State) : Host.Outcome State Fault Refusal :=
  done (cxlAccess pa w s)

/-! ### BRINGUP, HBM_RETRAIN (R438) -/

/-- R438: step 3 steers up to four lanes of each channel to its spares; which is open (log entry 8). -/
def trainLanes (s : State) : State :=
  let put (l : Tab Nat) (c : Nat) : Tab Nat := tabSet l (4096 + c) ((Config.freeWord (s.fresh + c)).toNat % 5)
  { s with fresh := s.fresh + 384 }.onHome fun h => { h with laneSpares := (List.range 384).foldl put h.laneSpares }
/-- R20, R414, R438: step 4 replaces what its self-test finds failing: this tile's core, its cluster's column unit; and maps the rows of
an array that are recorded to redundant ones (log entry 8). -/
def selfTest (x : Word) (s : State) : State :=
  let k := (x.extractLsb' 3 16).toNat
  (s.onTile fun t => { t with spareCore := t.spareCore || x.getLsbD 1, spareCol := t.spareCol || x.getLsbD 2 }).onHome fun h =>
    { h with rowSpares := tabSet h.rowSpares k (tabGet h.rowSpares 0 k + (x.extractLsb' 19 8).toNat) }

/-- R403, R438: step 2 repairs a lane of a bridge (log entry 8). -/
def bridgeLane (x : Word) (s : State) : State :=
  if !x.getLsbD 1 then s else s.onHome fun h => { h with laneSpares := tabSet h.laneSpares (8192 + x.toNat / 4 % 4) 1 }

/-- BRINGUP: the next step; whether it fails, and the CAL that step 5 sets, is open (log entries 8, 13). -/
def bringup (s : State) : State :=
  if s.host.devFail || decide (s.host.devStep.toNat ≥ 7) then s
  else
    let n := s.host.devStep + 1
    let (x, s) := s.free
    let s := s.onHost fun h => { h with devStep := n }
    if x.getLsbD 0 then s.onHost fun h => { h with devFail := true, replReq := h.replReq || n == 3 }
    else if n == 2 then bridgeLane x s
    else if n == 3 then trainLanes s
    else if n == 4 then selfTest x s
    else if n == 5 then s.onTile fun t => { t with cal := x.extractLsb' 1 16 }
    else s
def execBringup (s : State) : Host.Outcome State Fault Refusal := done (bringup s)

/-- HBM_RETRAIN pauses a channel and changes nothing (log entry 4). -/
def execHbmRetrain (s : State) : Host.Outcome State Fault Refusal := done s

end Sys2Proof.Machine
end

