-- ==== Sys2Proof/Machine/EvError.lean ====
section
/-! DEFINITION. Steps of errors and recovery (R398 to R415), and the stall and timeout steps of a task (R94, R95, R120). -/

namespace Sys2Proof.Machine

/-! ### TWATCH_EXPIRY, WAIT_TIMEOUT -/

/-- R97: the state of R31, numbered in the order of its table. -/
def stallNum : TaskSt → Word
  | .pending => 0 | .ready => 1 | .running => 2 | .waitMsg => 3 | .waitMem => 4 | .faulted => 5 | .preempted => 6 | .ended => 7

/-- R95: an instruction that cannot return, and a task that stalls for the shadow context, keep their wait. -/
def keepsWait : Option Wait → Bool
  | some (.flag _ _ _ true) => true
  | some (.ending _) => true
  | some .shadow => true
  | _ => false

/-- R95: the task leaves its wait; the trap is taken at its next boundary. -/
def stallTask (wall : Bool) (t : Task) : Task :=
  let p : PendTrap := { cause := cSTALL, detail := if wall then 1 else 0, val := stallNum t.st, op := none }
  if keepsWait t.wait then { t with traps := t.traps ++ [p] }
  else { t with traps := t.traps ++ [p], wait := none, paid := false, st := if t.st == .running then .running else .ready }

/-- TWATCH_EXPIRY: cycles are not counted here (log entry 4); a disabled watch, a frozen launch and a pre-empted task count none. -/
def twatchExpiry (frame : Nat) (s : State) : State :=
  if s.core.twLimit = 0 || s.tile.frozen then s
  else s.updCtx (fun t => liveAt frame t && t.st != .preempted && t.st != .pending) (stallTask s.core.twWall)
def execTwatchExpiry (frame : Nat) (s : State) : Host.Outcome State Fault Refusal := done (twatchExpiry frame s)

/-- WAIT_TIMEOUT. -/
def timedOut (t : Task) : Task :=
  match t.wait with
  | some (.event m true false) => { t with wait := some (.event m true true), st := .ready }
  | _ => t
def execWaitTimeout (frame : Nat) (s : State) : Host.Outcome State Fault Refusal :=
  done (s.updCtx (fun t => liveAt frame t && t.st != .preempted) timedOut)

/-! ### Actions of a pair that do not proceed (R410, R411) -/

/-- The entry of the injection queue that the next comparison of a task's sends is about: those that have passed stand before it. -/
def nextSend (by_ : Word × BitVec 13) (s : State) : Option Nat :=
  let n := s.core.pairOk.count (.send by_.1 by_.2)
  (((s.tile.injectBy.zipIdx).filter fun x => x.1 == by_).map (·.2))[n]?

/-- An action is withdrawn: a part is not applied, a send not injected, an operation, a drain or an atomic not performed. -/
def dropAction (what : PairWhat) (s : State) : State :=
  match what with
  | .part seg k => setPart seg k (fun p => { p with st := Nat.max p.st 1 }) s
  | .send tid origin =>
    match nextSend (tid, origin) s with
    | none => s
    | some k => sendEnded tid origin .accepted (popInject k s)
  | .engine tid origin seg part =>
    s.onCore fun c => { c with eng := c.eng.map fun q => q.filter fun o =>
      !(o.tid == tid && o.origin == origin && o.seg == seg && o.part == part) }
  | .unit .. => mxPop s
  | .amo tid origin n => s.mapTasks (fun t => sameTask t tid origin) fun t => { t with amos := t.amos.filter fun a => a.num != n }
  | .flag .. | .mig .. => s

/-- The item leaves the router, and its action does not proceed. -/
def dropItem (x : PairItem) (s : State) : State := dropAction x.what (s.onCore fun c => { c with pairQ := c.pairQ.erase x })
/-- R405: what a task has withheld is discarded with it. -/
def dropItems (t : Task) (s : State) : State :=
  (s.core.pairQ.filter fun x => sameTask t x.tid x.origin).foldl (fun s x => dropItem x s) s

/-! ### ERROR_CONSUMED (R404), ACTIVATION_REDELIVERY (R405, R406) -/

def errorEntry (kind : BitVec 8) (t : Task) (e : BitVec 8 × Word × Word) (s : State) : State :=
  errEntry (errEntryBytes kind (BitVec.ofNat 8 t.redel) 0 e.1 s.core.id t.tid e.2.2 e.2.1) s

/-- R404: the activation ends. -/
def endOnError (e : BitVec 8 × Word × Word) (s : State) : State :=
  let kind : BitVec 8 := if s.cur.esc then 3 else 4
  endCur (discardCur (dropItems s.cur ((errorEntry kind s.cur e s).onTile fun x => { x with escl := true })))

/-- R405, steps 1 and 2. -/
def dropWork (s : State) : State :=
  let t := s.cur
  let s := (t.qs.toList.filterMap id).foldl (fun s q => dropBinding q s) (discardCur (dropItems t s))
  let s := s.onCore fun c => let c := freeRuns t.frame c; if ownsMx c t then { c with mx := {} } else c
  s.onCur fun t => { t with q1 := [], streams := Vector.replicate 8 none, qs := Vector.replicate 6 none, classMask := 0, loads := [],
                            vtPend := [], xrPend := [], recCtr := 0, partCtr := 0, floor := 0, wrote := [], wait := none, paid := false, trapTaken := false, deposits := [],
                            f := Vector.replicate 8 {}, recover := true, st := .waitMem }

/-- ERROR_CONSUMED, by the issuing activation, or after the restore of one that is saved (R406); an error of a match handler is its task's. -/
def errorConsumed (s : State) : State :=
  match s.cur.errPend with
  | none => s
  | some e =>
    if s.cur.st == .ended || s.cur.st == .preempted || s.cur.recover then s
    else if s.cur.shadow then
      let give (t : Task) : Task := if t.wait == some Wait.shadow then errOf e.1 e.2.1 e.2.2 t else t
      shadowAbandon { s with rest := s.rest.map give, cur := { s.cur with errPend := none } }
    else if !s.cur.esc && decide (s.cur.redel < 2) then dropWork s
    else endOnError e (s.onCur fun t => { t with errPend := none })
def execErrorConsumed (s : State) : Host.Outcome State Fault Refusal := done (errorConsumed s)

/-- R92, R93, R151, R199, R405: the registers that an activation start resets are reset for the second run as for the first. -/
def resetRegs (t : Task) : Task :=
  let z : Task := {}
  { t with lahCls := 0, tcDetail := 0, tcAsync := false, tcCause := 0, tepc := 0, tval := 0, uepc := 0, xstatus := 0, fmta := z.fmta,
           fmtb := z.fmtb, sclaSeq := 0, sclaPtr := 0, sclbSeq := 0, sclbPtr := 0, ftol := z.ftol, fmaxn := z.fmaxn, nrt := 0,
           fmore := false, fout := false, fx := false, v := z.v, vAbsent := 0, vmask := z.vmask, xr := 0, xseq := 0 }

/-- R405, steps 3 and 4. -/
def restart (t0 : Task) : Task :=
  let t := resetRegs t0
  { t with w := t.startW, pc := t.startPc, mig := t.startMig, xferid := t.startXferid,
           xstatus := if t.startXferid = 0 then 0 else t.startW[1], hvy := false, inu := false, depl := false,
           q0 := t.payload, errPend := none, recover := false, pairEsc := false, redel := t.redel + 1, st := .ready }

def mayRestart (s : State) (t : Task) : Bool := t.recover && t.st != .ended && t.st != .preempted && !t.stopped && !s.tile.halted

/-- ACTIVATION_REDELIVERY. -/
def redelivery (s : State) : State :=
  match s.findCtx (mayRestart s) with
  | none => s
  | some t =>
    let e := t.errPend.getD (0, 0, 0)
    let s1 := errorEntry 2 t e (s.updCtx (mayRestart s) restart)
    if e.1 == 2 then s1.onTile fun x => { x with pmis := true } else s1
def execActivationRedelivery (s : State) : Host.Outcome State Fault Refusal := done (redelivery s)

/-! ### PARITY_REPLAY, SCRUB (R398, R402) -/

/-- R154, R398: whether an instruction in the queue wrote a register: a general one, or a vector register. -/
def produces (frame : Nat) (vec : Bool) (r : BitVec 4) (e : Replay) : Bool :=
  e.frame == frame && (if vec then e.vreg == some r else e.reg == r && r != 0)
/-- PARITY_REPLAY: a producer in the queue runs again and gives the same bits; else the activation consumes the error. -/
def parityReplay (frame : Nat) (vec : Bool) (r : BitVec 4) (s : State) : State :=
  if s.core.replay.any (produces frame vec r) then chargeOpen 0 s
  else
    let (x, s) := s.free
    s.updCtx (liveAt frame) (errOf 1 x 0)
def execParityReplay (frame : Nat) (x : RegRef) (s : State) : Host.Outcome State Fault Refusal := done (parityReplay frame x.vec x.r s)

/-- R400: a number for each controller, slice and scratchpad bank. -/
def unitNum (pa : Nat) : Nat :=
  match homeOf pa with
  | none => 0
  | some .lpddr => 1
  | some (.hbm d k) => 16 + 4 * d + k
  | some (.sram d k) => 64 + 16 * d + k
  | some (.spm t b) => 256 + 32 * t + b
def addMark (k : Nat) (l : List Nat) : List Nat := if l.contains k then l else l ++ [k]

/-- R399 to R401: an error that a memory meets: a single one is corrected and counted, a double one poisons its word; one of the latch is
consumed by the owner of the matrix context. -/
def memError (x : ErrSite) (double : Bool) (s : State) : State :=
  match x, double with
  | .shared pa, false => s.onHome fun h => { h with corrected := tabSet h.corrected (unitNum pa) (tabGet h.corrected 0 (unitNum pa) + 1) }
  | .shared pa, true => s.onHome fun h => { h with poison := addMark (pa / 8) h.poison }
  | .tcm _, false => s.onCore fun c => { c with tcmFixed := c.tcmFixed + 1 }
  | .tcm k, true => s.onCore fun c => { c with tcmPoison := addMark k c.tcmPoison }
  | .pool k, true => s.onCore fun c => { c with poolPoison := addMark k c.poolPoison }
  | .latch, true =>
    (match s.core.mx.owner with
     | none => s
     | some (t, o) => s.updCtx (fun u => u.st != .ended && !u.shadow && sameTask u t o) (errOf 1 0 0))
  | _, false => s

/-- SCRUB. A word already poisoned keeps its mark. -/
def scrub (f : ScrubFind) (s : State) : State :=
  match f with
  | .clean => s
  | .single pa => memError (.shared pa) false s
  | .double pa => memError (.shared pa) true s
def execScrub (f : ScrubFind) (s : State) : Host.Outcome State Fault Refusal := done (scrub f s)

/-! ### FLIT_CRC_ERROR (R20, R403) -/

/-- A number for each link. -/
def linkNum : LinkSel → Nat
  | .clusters x y => if x.toNat ≤ y.toNat then x.toNat * 64 + y.toNat else y.toNat * 64 + x.toNat
  | .hub d => 8192 + d.toNat
  | .wilwick p => 8448 + p.toNat
/-- R20: the links with a spare lane: the bridges and the Wilwick links. -/
def hasLane : LinkSel → Bool
  | .clusters x y => dieOf x.toNat != dieOf y.toNat
  | .hub _ => true
  | .wilwick _ => true
def linkEnds : LinkSel → Nat × Nat
  | .clusters x y => (x.toNat, y.toNat)
  | .hub d => (64 + d.toNat, 64 + d.toNat)
  | .wilwick p => (128 + p.toNat, 128 + p.toNat)

/-- FLIT_CRC_ERROR on a link; `within` says that the retransmissions counted before lie within 1 ms (log entry 4). -/
def flitError (l : LinkSel) (within : Bool) (s : State) : State :=
  let k := linkNum l
  let n := if within then tabGet s.home.retx 0 k + 1 else 1
  if n < 16 then s.onHome fun h => { h with retx := tabSet h.retx k n }
  else if hasLane l && tabGet s.home.laneSpares 0 k == 0 then
    (s.onHome fun h => { h with retx := tabSet h.retx k 0, laneSpares := tabSet h.laneSpares k 1 }).onHost
      fun h => { h with replReq := true }
  else s.onHome fun h => { h with retx := tabSet h.retx k 0, deadLinks := h.deadLinks ++ [linkEnds l] }
def execFlitCrcError (l : LinkSel) (within : Bool) (s : State) : Host.Outcome State Fault Refusal := done (flitError l within s)

/-! ### PAIR_HASH_COMPARE, PAIR_TIMEOUT (R410, R411), PRIMARY_VALUE_FORWARD (R409) -/

/-- R411: the activation of a withheld action has consumed an error; the action itself has not marked it escaped. One that has ended
escaped, and ends on the error as R404 states. -/
def mismatch (x : PairItem) (s : State) : State :=
  let p (t : Task) : Bool := t.st != .ended && !t.shadow && sameTask t x.tid x.origin
  if (s.findCtx p).isSome then s.updCtx p fun t => errOf 2 0 0 { t with esc := t.pairEsc }
  else (errEntry (errEntryBytes 3 0 0 2 s.core.id x.tid 0 0) s).onTile fun t => { t with escl := true }

/-- R411: the action proceeds. -/
def matched (x : PairItem) (s : State) : State :=
  (s.onCore fun c => { c with pairQ := c.pairQ.erase x, pairOk := c.pairOk ++ [x.what] }).updCtx
    (fun t => t.st != .ended && !t.shadow && sameTask t x.tid x.origin) fun t => { t with pairEsc := true }

/-- PAIR_HASH_COMPARE: the partner's hash of the oldest action that waits is compared with this core's. -/
def pairHashCompare (h : BitVec 64) (s : State) : State :=
  match s.core.pairQ with
  | [] => s
  | x :: _ => if x.hash == h then matched x s else mismatch x (dropItem x s)
def execPairHashCompare (h : BitVec 64) (s : State) : Host.Outcome State Fault Refusal := done (pairHashCompare h s)

/-- PAIR_TIMEOUT: the clock stands still under a freeze and a pre-emption. -/
def pairTimeout (s : State) : State :=
  match s.core.pairQ with
  | [] => s
  | x :: _ => if s.tile.frozen || s.core.preempt then s else mismatch x (dropItem x s)
def execPairTimeout (s : State) : Host.Outcome State Fault Refusal := done (pairTimeout s)

/-- What of a task the primary's value in a register answers: an atomic, a load, or a block instruction that waits. -/
def awaitsAmo (r : BitVec 4) (t : Task) : Option Nat := t.amos.findIdx? fun a => a.dst == r.setWidth 5 && a.ret.isNone && !a.poisoned
def awaitsLoad (r : BitVec 4) (t : Task) : Option Nat := t.loads.findIdx? fun l => !l.vec && l.dst == r.setWidth 5 && l.reply.isNone
def awaitsBlock (t : Task) : Bool := t.wait == some (.block none none)

/-- R409: the value in place of what the task awaits; with nothing outstanding, in its register. -/
def forwardCur (r : BitVec 4) (v : Word) (s : State) : State :=
  match awaitsAmo r s.cur, awaitsLoad r s.cur with
  | some k, _ =>
    acted (.amo s.cur.tid s.cur.origin ((s.cur.amos[k]?).elim 0 (·.num)))
      (s.onCur fun t => { t with amos := modIdx t.amos k fun a => { a with ret := some v } })
  | none, some k => (s.onCur (dropLoad k)).setW r v
  | none, none =>
    if awaitsBlock s.cur then blkPop (s.onCur fun t => { t with wait := some (.block (some v) none) }) else s.setW r v

/-- PRIMARY_VALUE_FORWARD: at a secondary core (R407) the value takes the place of its own; a task that awaits one comes first. -/
def primaryForward (r : BitVec 4) (v : Word) (s : State) : State :=
  let waits (t : Task) : Bool := t.st != .ended && ((awaitsAmo r t).isSome || (awaitsLoad r t).isSome || awaitsBlock t)
  if !secondary s then s
  else if waits s.cur then forwardCur r v s
  else match s.rest.findIdx? waits with
    | none => s.setW r v
    | some k => asCtx k (forwardCur r v) s
def execPrimaryValueForward (r : BitVec 4) (v : Word) (s : State) : Host.Outcome State Fault Refusal := done (primaryForward r v s)

/-! ### TILE_RETIRE elsewhere (R21, R408) -/

/-- R21, R408: another tile has retired. The partner of a tile that runs a paired launch leaves it unpaired, and an entry says so. -/
def tileGone (t : Nat) (s : State) : State :=
  if t = s.tileId || s.host.retiredTiles.contains t then s
  else
    let s1 := s.onHost fun h => { h with retiredTiles := h.retiredTiles ++ [t], replReq := true }
    if paired s && s.launch.live && decide (t = tileOf (partner s.core.id)) then
      (errEntry (errEntryBytes 8 0 0 0 s.core.id 0 0 0) s1).onTile (fun x => { x with unpaired := true }) |>.onCore
        fun c => { c with pairQ := [], pairOk := [] }
    else s1

/-! ### Spares and retirement (R414 to R416) -/

/-- CORE_SPARE_SWAP: the contexts are saved and restored for this core alone. -/
def coreSpareSwap (s : State) : State :=
  if s.tile.spareCore || !quiet s then s
  else
    let s := chargeOpen 0 (if s.core.preempt then s else restoreCore (stopTasks (withdrawMrot s)))
    (s.onTile fun t => { t with spareCore := true }).onHost fun h => { h with replReq := true }
def execCoreSpareSwap (s : State) : Host.Outcome State Fault Refusal := done (coreSpareSwap s)

/-- COLUMN_SPARE_SWAP: the cluster's one spare is in use. -/
def execColumnSpareSwap (s : State) : Host.Outcome State Fault Refusal :=
  done ((s.onTile fun t => { t with spareCol := true }).onHost fun h => { h with replReq := true })

/-- HBM_LANE_SPARE: of a channel of which the step does not say the number (log entry 8); each has four spares (R438). -/
def hbmLaneSpare (s : State) : State :=
  let (x, s) := s.free
  let k := 4096 + x.toNat % 384
  let n := Nat.min 4 (tabGet s.home.laneSpares 0 k + 1)
  (s.onHome fun h => { h with laneSpares := tabSet h.laneSpares k n }).onHost fun h => { h with replReq := h.replReq || n == 4 }
def execHbmLaneSpare (s : State) : Host.Outcome State Fault Refusal := done (hbmLaneSpare s)

/-- R415: every task of the core ends as an escaped one does. -/
def endAll (s : State) : Nat → State
  | 0 => s
  | n + 1 =>
    let f (s : State) : State := if s.cur.st == .ended then s else endCur (discardCur s)
    endAll (asCtx n f s) n
def endTasks (s : State) : State :=
  let s := if s.cur.st == .ended then s else endCur (discardCur s)
  endAll s s.rest.length

/-- R416: what waits on the tile is lost with it. -/
def emptyTile (t : TileSt) : TileSt :=
  { t with cands := [], overflow := [], migBuf := [], inject := [], injectBy := [], injectMarks := [], otherStamps := [],
           otherBusy := false, otherCommits := [], otherWaits := [], otherFree := [], retired := true,
           retd := true, escl := true }

/-- R415: the tasks of a launch end on the tile, whose work gets one entry. -/
def retireWork (s : State) : State :=
  let s := if s.launch.live then errEntry (errEntryBytes 7 0 0 0 s.core.id 0 0 0) s else s
  (endTasks s).onTile emptyTile
/-- R415: the same for a sharer that is switched out. -/
def retireSaved : List SavedCtx → State → State
  | [], s => s
  | x :: l, s =>
    let z := retireWork { s with cur := x.tasks.headD {}, rest := x.tasks.drop 1, core := x.core, tile := x.tile, launch := x.launch }
    let y : SavedCtx := { x with tasks := z.cur :: z.rest, core := z.core, tile := z.tile }
    retireSaved l { s with home := z.home, fresh := z.fresh, saved := s.saved.map fun w => if w.vf == x.vf then y else w }

/-- TILE_RETIRE: of a tile whose spare core is in use. -/
def tileRetire (s : State) : State :=
  if !s.tile.spareCore || s.tile.retired then s
  else
    let s := retireSaved s.saved s
    (retireWork s).onHost fun h => { h with retiredTiles := h.retiredTiles ++ [s.tileId], replReq := true }
def execTileRetire (s : State) : Host.Outcome State Fault Refusal := done (tileRetire s)

/-! ### UNASSIGNED_ENCODING (R90) -/

/-- A fetched word that encodes no instruction; a word that encodes one is none of these. -/
def execUnassignedEncoding (w : IWord) (s : State) : Host.Outcome State Fault Refusal :=
  match decode w with
  | .ok _ => done s
  | .error _ => done (takeTrap cILLEGAL 0 false (w.setWidth 64) s)

end Sys2Proof.Machine
end

