-- ==== Sys2Proof/Machine/EvDebug.lean ====
section
/-! DEFINITION. Steps of the debugger and of trace (R420 to R427). A command is the one that a function's DBGCMD holds. -/

namespace Sys2Proof.Machine

/-! ### Commands (R424, R425) -/

/-- The function whose command of an operation has not completed. -/
def cmdOf (s : State) (op : BitVec 3) : Option (BitVec 6) :=
  (s.host.vfs.find? fun x => x.2.dbgbusy && dbgOp x.2 == op).map fun x => BitVec.ofNat 6 x.1
def cmdDone (v : BitVec 6) (s : State) : State := s.setVf v { s.vfReg v with dbgbusy := false }
def cmdTile (s : State) (v : BitVec 6) : Nat := ((s.vfReg v).dbgcmd.extractLsb' 0 10).toNat
def cmdCore (s : State) (v : BitVec 6) : BitVec 13 := (s.vfReg v).dbgcmd.extractLsb' 10 13

/-- R425: a halt of a tile of a paired launch halts its partner as well. -/
def haltsHere (s : State) (tile : Nat) : Bool := tile == s.tileId || (paired s && tile == tileOf (partner s.core.id))

/-- DBG_HALT. Another tile's halt shows here as the freeze flag alone (R426). -/
def dbgHalt (s : State) : State :=
  match cmdOf s 1 with
  | none => s
  | some v =>
    cmdDone v (if !inPartitionOf s v (cmdTile s v) then s
      else if haltsHere s (cmdTile s v) then haltTile s
      else s.onTile fun t => { t with frozen := true })
def execDbgHalt (s : State) : Host.Outcome State Fault Refusal := done (dbgHalt s)

/-- R420, R421: a task that the debugger lets go on: past a BREAK, or at an instruction whose break bit it then ignores. -/
def unstop (t : Task) : Task := if t.stopped then { t with stopped := false, pc := if t.brkSkip then t.pc else t.pc + 4 } else t
def unstopAll (s : State) : State := { s with cur := unstop s.cur, rest := s.rest.map unstop }

/-- DBG_RESUME. That no other tile of the launch is halted is taken as given (log entry 2). -/
def resumeTile (s : State) : State :=
  emit (.freeze false) ((unstopAll s).onTile fun t => { t with halted := false, frozen := false })
def dbgResume (s : State) : State :=
  match cmdOf s 2 with
  | none => s
  | some v =>
    cmdDone v (if !inPartitionOf s v (cmdTile s v) then s
      else if haltsHere s (cmdTile s v) then resumeTile s
      else s.onTile fun t => { t with frozen := t.halted })
def execDbgResume (s : State) : Host.Outcome State Fault Refusal := done (dbgResume s)

/-- DBG_STEP: the core issues one instruction (Step.lean), and the command completes with it. A core that does not stand halted has
nothing to step. -/
def dbgStep (s : State) : State :=
  match cmdOf s 3 with
  | none => s
  | some v =>
    if cmdCore s v == s.core.id && s.tile.halted then (unstopAll s).onCore fun c => { c with dbgStep := true }
    else cmdDone v s
def execDbgStep (s : State) : Host.Outcome State Fault Refusal := done (dbgStep s)

/-- The step of a halted core is over. -/
def stepOver (s : State) : State :=
  let s := s.onCore fun c => { c with dbgStep := false }
  match cmdOf s 3 with
  | none => s
  | some v => cmdDone v s

/-- DBG_SYNC: the instruction lines are dropped, so that a changed bitmap takes effect (R419, R424). -/
def execDbgSync (s : State) : Host.Outcome State Fault Refusal :=
  done (match cmdOf s 4 with | none => s | some v => cmdDone v (dropLines v s))

/-! ### BREAK_BIT_STOP (R420) -/

/-- R420: whether the break bit acts on the issuing context. -/
def brkHits (s : State) : Bool :=
  brkEn s && !s.cur.brkSkip && !s.cur.shadow && s.cur.st != .ended && s.cur.st != .preempted && !s.cur.stopped &&
    matchesDbg (s.vfReg s.core.vf) s.cur && breakMark s s.cur.pc.toNat

def breakStop (s : State) : State :=
  if !brkHits s then s
  else if brkTask s then takeTrap cBREAKI 0 false s.cur.pcW s
  else stopTask true s
def execBreakBitStop (s : State) : Host.Outcome State Fault Refusal := done (breakStop s)

/-! ### PC_MATCH_HANDLER, SHADOW_TIMEOUT (R422, R423) -/

def shadowLive (s : State) : Bool := (s.cur :: s.rest).any fun t => t.shadow && t.st != .ended

/-- R422: the match point of the issuing context: the lowest of those that match. -/
def pcMatch (s : State) : Option (Fin 16) :=
  if !s.core.dbgctl.getLsbD 2 || s.cur.pcmSkip || s.cur.shadow || shadowLive s || s.cur.st == .ended || s.cur.st == .preempted
      || s.cur.stopped then none
  else (List.finRange 16).find? fun k => s.core.pcmEn.getLsbD k.val && s.core.pcmPc[k] == s.cur.pc.extractLsb' 2 54

/-- R422: the entry of the match-handler table, read as LD.na reads. -/
def matchEntry (m : Fin 16) (s : State) : Res (Word × State) :=
  let va := (s.vfReg s.core.vf).mhtab.toNat * 8 + 8 * (s.core.pcmSlot[m]).toNat
  match sharedAddr .load va 8 7 s with
  | .error e => .error e
  | .ok (pa, _, s) =>
    let own := ownBytes s pa 8
    if own.all (·.isSome) then .ok (leWord (mergeBytes own (List.replicate 8 0)), s)
    else
      match homeRead s pa 8 with
      | .error e => .error e
      | .ok bs => .ok (leWord (mergeBytes own bs), chargeAccess pa 8 s)

/-- R422: the shadow context takes the core; its task stalls. -/
def startShadow (m : Fin 16) (entry : Word) (s : State) : State :=
  let t := s.cur
  let w := (((s.core.shW.set 1 t.tid).set 2 t.pcW).set 3 (t.wp.setWidth 64)).set 4 (BitVec.ofNat 64 m.val)
  let sh : Task := { st := .running, frame := t.frame, w := w, pc := entry.extractLsb' 2 54 ++ 0#2, priv := t.priv, tid := t.tid,
                     origin := t.origin, stamp := t.stamp, key := t.key, shadow := true }
  { s with cur := sh, rest := { t with wait := some .shadow, st := .ready } :: s.rest, core := { s.core with shMatch := some m } }

/-- PC_MATCH_HANDLER. -/
def execPcMatchHandler (s : State) : Host.Outcome State Fault Refusal :=
  match pcMatch s with
  | none => done s
  | some m =>
    match matchEntry m s with
    | .ok (e, s) => done (startShadow m e s)
    | .error e => finish (.error e)

/-- SHADOW_TIMEOUT: cycles are not counted here (log entry 4). -/
def shadowTimeout (s : State) : State :=
  if s.cur.shadow then (if s.cur.st == .ended then s else shadowAbandon s)
  else match s.rest.findIdx? fun t => t.shadow && t.st != .ended with
    | none => s
    | some k => asCtx k shadowAbandon s
def execShadowTimeout (s : State) : Host.Outcome State Fault Refusal := done (shadowTimeout s)

/-! ### SAMPLE_RECORD (R427) -/

/-- SAMPLE_RECORD: the context that issued, or the idle core. -/
def sampleRecord (s : State) : State :=
  if (s.vfReg s.core.vf).smpint = 0 then s
  else if s.cur.st == .running then slog s.cur.tid (ctxNum s.cur) 13 (pcValue s.cur) s
  else slog 0 7 0 0 s
def execSampleRecord (s : State) : Host.Outcome State Fault Refusal := done (sampleRecord s)

end Sys2Proof.Machine
end

