-- ==== Sys2Proof/Machine/MulDiv.lean ====
section
/-! DEFINITION. Opcode 0x02: multiply, divide and carry-less multiply (R102, R103). -/

namespace Sys2Proof.Machine

/-- R102: the carry-less product of two words, over the n low bits of the second. -/
def clmulFrom (a : Nat) (b : Word) : Nat → Nat
  | 0 => 0
  | n + 1 => (if b.getLsbD n then a * 2 ^ n else 0) ^^^ clmulFrom a b n
def clmulFull (a b : Word) : Nat := clmulFrom a.toNat b 64

/-- R102. -/
def mulLo (a b : Word) : Word := a * b
def mulHiS (a b : Word) : Word := BitVec.ofInt 64 ((a.toInt * b.toInt) / 2 ^ 64)
def mulHiU (a b : Word) : Word := BitVec.ofNat 64 (a.toNat * b.toNat / 2 ^ 64)
def clmulLo (a b : Word) : Word := BitVec.ofNat 64 (clmulFull a b)
def clmulHi (a b : Word) : Word := BitVec.ofNat 64 (clmulFull a b / 2 ^ 64)

/-- R103: signed quotient and remainder, toward zero. -/
def divS (a b : Word) : Word :=
  if b = 0 then 0xFFFFFFFFFFFFFFFF
  else if a = 0x8000000000000000 ∧ b = 0xFFFFFFFFFFFFFFFF then a
  else BitVec.ofInt 64 (a.toInt.tdiv b.toInt)
def remS (a b : Word) : Word :=
  if b = 0 then a
  else if a = 0x8000000000000000 ∧ b = 0xFFFFFFFFFFFFFFFF then 0
  else BitVec.ofInt 64 (a.toInt - a.toInt.tdiv b.toInt * b.toInt)
/-- R103: unsigned quotient and remainder. -/
def divU (a b : Word) : Word := if b = 0 then 0xFFFFFFFFFFFFFFFF else BitVec.ofNat 64 (a.toNat / b.toNat)
def remU (a b : Word) : Word := if b = 0 then a else BitVec.ofNat 64 (a.toNat - a.toNat / b.toNat * b.toNat)

def execMul (a b c : Fld) (s : State) : Host.Outcome State Fault Refusal := finish (rrr .mul mulLo a b c s)
def execMulh (a b c : Fld) (s : State) : Host.Outcome State Fault Refusal := finish (rrr .mul mulHiS a b c s)
def execMulhn (a b c : Fld) (s : State) : Host.Outcome State Fault Refusal := finish (rrr .mul mulHiU a b c s)
def execDiv (a b c : Fld) (s : State) : Host.Outcome State Fault Refusal := finish (rrr .div divS a b c s)
def execDivn (a b c : Fld) (s : State) : Host.Outcome State Fault Refusal := finish (rrr .div divU a b c s)
def execRem (a b c : Fld) (s : State) : Host.Outcome State Fault Refusal := finish (rrr .div remS a b c s)
def execRemn (a b c : Fld) (s : State) : Host.Outcome State Fault Refusal := finish (rrr .div remU a b c s)
def execClmul (a b c : Fld) (s : State) : Host.Outcome State Fault Refusal := finish (rrr .mul clmulLo a b c s)
def execClmulh (a b c : Fld) (s : State) : Host.Outcome State Fault Refusal := finish (rrr .mul clmulHi a b c s)

end Sys2Proof.Machine
end

