-- ==== Sys2Proof/Machine/Dispatch.lean ====
section
/-! DEFINITION. The dispatch: one arm per instruction, one meaning per arm. -/

namespace Sys2Proof.Machine

def exec (i : Instr) (s : State) : Host.Outcome State Fault Refusal :=
  match i with
  | .add a b c => Sys2Proof.Machine.execAdd a b c s
  | .sub a b c => Sys2Proof.Machine.execSub a b c s
  | .and a b c => Sys2Proof.Machine.execAnd a b c s
  | .or a b c => Sys2Proof.Machine.execOr a b c s
  | .xor a b c => Sys2Proof.Machine.execXor a b c s
  | .andn a b c => Sys2Proof.Machine.execAndn a b c s
  | .sll a b c => Sys2Proof.Machine.execSll a b c s
  | .srl a b c => Sys2Proof.Machine.execSrl a b c s
  | .sra a b c => Sys2Proof.Machine.execSra a b c s
  | .rol a b c => Sys2Proof.Machine.execRol a b c s
  | .ror a b c => Sys2Proof.Machine.execRor a b c s
  | .slt a b c => Sys2Proof.Machine.execSlt a b c s
  | .sltn a b c => Sys2Proof.Machine.execSltn a b c s
  | .min a b c => Sys2Proof.Machine.execMin a b c s
  | .max a b c => Sys2Proof.Machine.execMax a b c s
  | .minn a b c => Sys2Proof.Machine.execMinn a b c s
  | .maxn a b c => Sys2Proof.Machine.execMaxn a b c s
  | .clz a b => Sys2Proof.Machine.execClz a b s
  | .ctz a b => Sys2Proof.Machine.execCtz a b s
  | .popc a b => Sys2Proof.Machine.execPopc a b s
  | .bswap a b => Sys2Proof.Machine.execBswap a b s
  | .sel a b c m => Sys2Proof.Machine.execSel a b c m s
  | .mul a b c => Sys2Proof.Machine.execMul a b c s
  | .mulh a b c => Sys2Proof.Machine.execMulh a b c s
  | .mulhn a b c => Sys2Proof.Machine.execMulhn a b c s
  | .div a b c => Sys2Proof.Machine.execDiv a b c s
  | .divn a b c => Sys2Proof.Machine.execDivn a b c s
  | .rem a b c => Sys2Proof.Machine.execRem a b c s
  | .remn a b c => Sys2Proof.Machine.execRemn a b c s
  | .clmul a b c => Sys2Proof.Machine.execClmul a b c s
  | .clmulh a b c => Sys2Proof.Machine.execClmulh a b c s
  | .addi a b imm => Sys2Proof.Machine.execAddi a b imm s
  | .andi a b imm => Sys2Proof.Machine.execAndi a b imm s
  | .ori a b imm => Sys2Proof.Machine.execOri a b imm s
  | .xori a b imm => Sys2Proof.Machine.execXori a b imm s
  | .slti a b imm => Sys2Proof.Machine.execSlti a b imm s
  | .sltin a b imm => Sys2Proof.Machine.execSltin a b imm s
  | .slli a b n => Sys2Proof.Machine.execSlli a b n s
  | .srli a b n => Sys2Proof.Machine.execSrli a b n s
  | .srai a b n => Sys2Proof.Machine.execSrai a b n s
  | .roli a b n => Sys2Proof.Machine.execRoli a b n s
  | .lhi a imm => Sys2Proof.Machine.execLhi a imm s
  | .pchi a imm => Sys2Proof.Machine.execPchi a imm s
  | .jal o => Sys2Proof.Machine.execJal o s
  | .jalr a b imm => Sys2Proof.Machine.execJalr a b imm s
  | .beq a b o => Sys2Proof.Machine.execBeq a b o s
  | .bne a b o => Sys2Proof.Machine.execBne a b o s
  | .blt a b o => Sys2Proof.Machine.execBlt a b o s
  | .bge a b o => Sys2Proof.Machine.execBge a b o s
  | .bltn a b o => Sys2Proof.Machine.execBltn a b o s
  | .bgen a b o => Sys2Proof.Machine.execBgen a b o s
  | .ldp a b sz o => Sys2Proof.Machine.execLdp a b sz o s
  | .ldpx a b sz o => Sys2Proof.Machine.execLdpx a b sz o s
  | .stp a b sz o => Sys2Proof.Machine.execStp a b sz o s
  | .ld a b sz p na o => Sys2Proof.Machine.execLd a b sz p na o s
  | .ldx a b sz p na o => Sys2Proof.Machine.execLdx a b sz p na o s
  | .st a b sz p o => Sys2Proof.Machine.execSt a b sz p o s
  | .amo a b c op p z rl aq => Sys2Proof.Machine.execAmo a b c op p z rl aq s
  | .rel p => Sys2Proof.Machine.execRel p s
  | .acq b p => Sys2Proof.Machine.execAcq b p s
  | .acqTm b c p => Sys2Proof.Machine.execAcqTm b c p s
  | .acqMap b c p => Sys2Proof.Machine.execAcqMap b c p s
  | .acqBelow b p => Sys2Proof.Machine.execAcqBelow b p s
  | .fence d p => Sys2Proof.Machine.execFence d p s
  | .fenceF d b c p => Sys2Proof.Machine.execFenceF d b c p s
  | .qfence b => Sys2Proof.Machine.execQfence b s
  | .logsn a => Sys2Proof.Machine.execLogsn a s
  | .send a b c any x => Sys2Proof.Machine.execSend a b c any x s
  | .sendm b any x => Sys2Proof.Machine.execSendm b any x s
  | .sendc a b x => Sys2Proof.Machine.execSendc a b x s
  | .promise b => Sys2Proof.Machine.execPromise b s
  | .deposit a b c x => Sys2Proof.Machine.execDeposit a b c x s
  | .nred a b c z op => Sys2Proof.Machine.execNred a b c z op s
  | .nrwait a b st => Sys2Proof.Machine.execNrwait a b st s
  | .spawn b c any => Sys2Proof.Machine.execSpawn b c any s
  | .wait a b c => Sys2Proof.Machine.execWait a b c s
  | .migrate b core => Sys2Proof.Machine.execMigrate b core s
  | .setlah a b c => Sys2Proof.Machine.execSetlah a b c s
  | .sweepW a => Sys2Proof.Machine.execSweepW a s
  | .clmask a b => Sys2Proof.Machine.execClmask a b s
  | .clunmask a b => Sys2Proof.Machine.execClunmask a b s
  | .binit b n => Sys2Proof.Machine.execBinit b n s
  | .barrive a n rl => Sys2Proof.Machine.execBarrive a n rl s
  | .bwait b n aq => Sys2Proof.Machine.execBwait b n aq s
  | .btest a n => Sys2Proof.Machine.execBtest a n s
  | .sbind a b tcm => Sys2Proof.Machine.execSbind a b tcm s
  | .sunbind a => Sys2Proof.Machine.execSunbind a s
  | .sstat a b drain => Sys2Proof.Machine.execSstat a b drain s
  | .qbind a b => Sys2Proof.Machine.execQbind a b s
  | .qunbind a => Sys2Proof.Machine.execQunbind a s
  | .copy b => Sys2Proof.Machine.execCopy b s
  | .sgrun b => Sys2Proof.Machine.execSgrun b s
  | .xstat a b c => Sys2Proof.Machine.execXstat a b c s
  | .xcancel b => Sys2Proof.Machine.execXcancel b s
  | .blkref a b => Sys2Proof.Machine.execBlkref a b s
  | .blkrefNew a b => Sys2Proof.Machine.execBlkrefNew a b s
  | .blkfree a b => Sys2Proof.Machine.execBlkfree a b s
  | .blkcow a b => Sys2Proof.Machine.execBlkcow a b s
  | .blkmoveTier b c => Sys2Proof.Machine.execBlkmoveTier b c s
  | .blkmoveGet b => Sys2Proof.Machine.execBlkmoveGet b s
  | .blkmovePut b => Sys2Proof.Machine.execBlkmovePut b s
  | .blkstat a b => Sys2Proof.Machine.execBlkstat a b s
  | .csrr a n => Sys2Proof.Machine.execCsrr a n s
  | .csrw a b n => Sys2Proof.Machine.execCsrw a b n s
  | .csrset a b n => Sys2Proof.Machine.execCsrset a b n s
  | .csrclr a b n => Sys2Proof.Machine.execCsrclr a b n s
  | .trap c => Sys2Proof.Machine.execTrap c s
  | .halt b => Sys2Proof.Machine.execHalt b s
  | .brk c => Sys2Proof.Machine.execBrk c s
  | .dbgmark b => Sys2Proof.Machine.execDbgmark b s
  | .tlbinvPage b c => Sys2Proof.Machine.execTlbinvPage b c s
  | .tlbinvAsid c => Sys2Proof.Machine.execTlbinvAsid c s
  | .tlbinvVf c => Sys2Proof.Machine.execTlbinvVf c s
  | .asidset a b => Sys2Proof.Machine.execAsidset a b s
  | .asidsetNew a b c => Sys2Proof.Machine.execAsidsetNew a b c s
  | .swapwp a b => Sys2Proof.Machine.execSwapwp a b s
  | .faultreply a b c => Sys2Proof.Machine.execFaultreply a b c s
  | .eread a b => Sys2Proof.Machine.execEread a b s
  | .vadd a b c z r m f => Sys2Proof.Machine.execVadd a b c z r m f s
  | .vsub a b c z r m f => Sys2Proof.Machine.execVsub a b c z r m f s
  | .vmul a b c z r m f => Sys2Proof.Machine.execVmul a b c z r m f s
  | .vmin a b c n m f => Sys2Proof.Machine.execVmin a b c n m f s
  | .vmax a b c n m f => Sys2Proof.Machine.execVmax a b c n m f s
  | .vfma a b c d f => Sys2Proof.Machine.execVfma a b c d f s
  | .vfms a b c d f => Sys2Proof.Machine.execVfms a b c d f s
  | .vabs a b z m f => Sys2Proof.Machine.execVabs a b z m f s
  | .vneg a b z m f => Sys2Proof.Machine.execVneg a b z m f s
  | .vand a b c m f => Sys2Proof.Machine.execVand a b c m f s
  | .vor a b c m f => Sys2Proof.Machine.execVor a b c m f s
  | .vxor a b c m f => Sys2Proof.Machine.execVxor a b c m f s
  | .vshl a b c m f => Sys2Proof.Machine.execVshl a b c m f s
  | .vshr a b c n m f => Sys2Proof.Machine.execVshr a b c n m f s
  | .vcmp k b c n m f => Sys2Proof.Machine.execVcmp k b c n m f s
  | .vsel a b c f => Sys2Proof.Machine.execVsel a b c f s
  | .vsetm a b => Sys2Proof.Machine.execVsetm a b s
  | .vcvt a b e p z r f => Sys2Proof.Machine.execVcvt a b e p z r f s
  | .vqnt a b c p f => Sys2Proof.Machine.execVqnt a b c p f s
  | .vdqnt a b c p f => Sys2Proof.Machine.execVdqnt a b c p f s
  | .vld a b o => Sys2Proof.Machine.execVld a b o s
  | .vst a b o => Sys2Proof.Machine.execVst a b o s
  | .vlds a b o p => Sys2Proof.Machine.execVlds a b o p s
  | .vsts a b o p => Sys2Proof.Machine.execVsts a b o p s
  | .vgath a b c m f => Sys2Proof.Machine.execVgath a b c m f s
  | .vscat a b c m f => Sys2Proof.Machine.execVscat a b c m f s
  | .vbcast a b m f => Sys2Proof.Machine.execVbcast a b m f s
  | .vslide a b c n f => Sys2Proof.Machine.execVslide a b c n f s
  | .vperm a b c m f => Sys2Proof.Machine.execVperm a b c m f s
  | .vins a b c f => Sys2Proof.Machine.execVins a b c f s
  | .vext a b c f => Sys2Proof.Machine.execVext a b c f s
  | .vrsum b m f => Sys2Proof.Machine.execVrsum b m f s
  | .vrmax b m f => Sys2Proof.Machine.execVrmax b m f s
  | .vrmin b m f => Sys2Proof.Machine.execVrmin b m f s
  | .vramax b m f => Sys2Proof.Machine.execVramax b m f s
  | .xget a n => Sys2Proof.Machine.execXget a n s
  | .vtran a b m g => Sys2Proof.Machine.execVtran a b m g s
  | .mma a b n w => Sys2Proof.Machine.execMma a b n w s
  | .mmas a b n w => Sys2Proof.Machine.execMmas a b n w s
  | .mzero a => Sys2Proof.Machine.execMzero a s
  | .mlatch b n w => Sys2Proof.Machine.execMlatch b n w s
  | .mrot n => Sys2Proof.Machine.execMrot n s
  | .mstat a => Sys2Proof.Machine.execMstat a s
  | .mdrain a b c z f => Sys2Proof.Machine.execMdrain a b c z f s
  | .fadd a b c l k => Sys2Proof.Machine.execFadd a b c l k s
  | .fsub a b c l k => Sys2Proof.Machine.execFsub a b c l k s
  | .fmul a b c l k => Sys2Proof.Machine.execFmul a b c l k s
  | .fscal a b c k => Sys2Proof.Machine.execFscal a b c k s
  | .fcomp a b c l k => Sys2Proof.Machine.execFcomp a b c l k s
  | .fint a b k => Sys2Proof.Machine.execFint a b k s
  | .fdiff a b k => Sys2Proof.Machine.execFdiff a b k s
  | .froot a b k => Sys2Proof.Machine.execFroot a b k s
  | .fext a b k => Sys2Proof.Machine.execFext a b k s
  | .ffit a b c => Sys2Proof.Machine.execFfit a b c s
  | .feval a b c m k => Sys2Proof.Machine.execFeval a b c m k s
  | .fldc a b => Sys2Proof.Machine.execFldc a b s
  | .fstc b c k => Sys2Proof.Machine.execFstc b c k s
  | .fdom a b c => Sys2Proof.Machine.execFdom a b c s
  | .ftrunc a b c k => Sys2Proof.Machine.execFtrunc a b c k s
  | .fmov a b k => Sys2Proof.Machine.execFmov a b k s
  | .ffree a => Sys2Proof.Machine.execFfree a s
  | .flen a b k => Sys2Proof.Machine.execFlen a b k s
  | .launchTake q => Sys2Proof.Machine.execLaunchTake q s
  | .messageArrival m => Sys2Proof.Machine.execMessageArrival m s
  | .doneReceive child status => Sys2Proof.Machine.execDoneReceive child status s
  | .migrationArrival m => Sys2Proof.Machine.execMigrationArrival m s
  | .twatchExpiry frame => Sys2Proof.Machine.execTwatchExpiry frame s
  | .waitTimeout frame => Sys2Proof.Machine.execWaitTimeout frame s
  | .granuleFill frame g => Sys2Proof.Machine.execGranuleFill frame g s
  | .vtranReply frame => Sys2Proof.Machine.execVtranReply frame s
  | .xrWrite frame => Sys2Proof.Machine.execXrWrite frame s
  | .accParityReplay a => Sys2Proof.Machine.execAccParityReplay a s
  | .segmentShip seg => Sys2Proof.Machine.execSegmentShip seg s
  | .partApply p => Sys2Proof.Machine.execPartApply p s
  | .segmentAck seg k => Sys2Proof.Machine.execSegmentAck seg k s
  | .homeLoad l => Sys2Proof.Machine.execHomeLoad l s
  | .loadReply frame k => Sys2Proof.Machine.execLoadReply frame k s
  | .homeAmo r => Sys2Proof.Machine.execHomeAmo r s
  | .amoReturn frame k => Sys2Proof.Machine.execAmoReturn frame k s
  | .engineWrite w => Sys2Proof.Machine.execEngineWrite w s
  | .inPlaceDeviceWrite pa data => Sys2Proof.Machine.execInPlaceDeviceWrite pa data s
  | .commitHorizon h => Sys2Proof.Machine.execCommitHorizon h s
  | .acqRequest reader scope => Sys2Proof.Machine.execAcqRequest reader scope s
  | .acqAnswer frame core lines => Sys2Proof.Machine.execAcqAnswer frame core lines s
  | .barrierArrival n a => Sys2Proof.Machine.execBarrierArrival n a s
  | .barrierWake n => Sys2Proof.Machine.execBarrierWake n s
  | .streamFetch frame k => Sys2Proof.Machine.execStreamFetch frame k s
  | .streamDrain frame k => Sys2Proof.Machine.execStreamDrain frame k s
  | .engineOpStart q => Sys2Proof.Machine.execEngineOpStart q s
  | .copyElement q => Sys2Proof.Machine.execCopyElement q s
  | .chainElement q => Sys2Proof.Machine.execChainElement q s
  | .engineOpComplete q => Sys2Proof.Machine.execEngineOpComplete q s
  | .nredArrival c => Sys2Proof.Machine.execNredArrival c s
  | .nredSlotTimeout slot => Sys2Proof.Machine.execNredSlotTimeout slot s
  | .nredResult r => Sys2Proof.Machine.execNredResult r s
  | .pipSend l => Sys2Proof.Machine.execPipSend l s
  | .pipArrival l prom hd => Sys2Proof.Machine.execPipArrival l prom hd s
  | .askSend l => Sys2Proof.Machine.execAskSend l s
  | .askArrival l carried => Sys2Proof.Machine.execAskArrival l carried s
  | .sweepStart colour => Sys2Proof.Machine.execSweepStart colour s
  | .sweepReport child f => Sys2Proof.Machine.execSweepReport child f s
  | .sweepEnd h commit => Sys2Proof.Machine.execSweepEnd h commit s
  | .depositArrival d => Sys2Proof.Machine.execDepositArrival d s
  | .channelWordsArrival ch src words => Sys2Proof.Machine.execChannelWordsArrival ch src words s
  | .creditReturn q n => Sys2Proof.Machine.execCreditReturn q n s
  | .deadLinkReroute dest reduction lost => Sys2Proof.Machine.execDeadLinkReroute dest reduction lost s
  | .pageWalk who => Sys2Proof.Machine.execPageWalk who s
  | .faultMessage f => Sys2Proof.Machine.execFaultMessage f s
  | .faultReplyArrival token retry => Sys2Proof.Machine.execFaultReplyArrival token retry s
  | .refreshEnergyCharge measured pages => Sys2Proof.Machine.execRefreshEnergyCharge measured pages s
  | .partitionReset v => Sys2Proof.Machine.execPartitionReset v s
  | .clasgWrite c v => Sys2Proof.Machine.execClasgWrite c v s
  | .wqcfgWrite q v => Sys2Proof.Machine.execWqcfgWrite q v s
  | .equotaWrite f v => Sys2Proof.Machine.execEquotaWrite f v s
  | .estatResume f => Sys2Proof.Machine.execEstatResume f s
  | .loadcmdWrite f v => Sys2Proof.Machine.execLoadcmdWrite f v s
  | .hostRegisterWrite f off v => Sys2Proof.Machine.execHostRegisterWrite f off v s
  | .parityReplay frame x => Sys2Proof.Machine.execParityReplay frame x s
  | .scrub f => Sys2Proof.Machine.execScrub f s
  | .flitCrcError l within => Sys2Proof.Machine.execFlitCrcError l within s
  | .pairHashCompare h => Sys2Proof.Machine.execPairHashCompare h s
  | .unassignedEncoding w => Sys2Proof.Machine.execUnassignedEncoding w s
  | .sendAccepted a => Sys2Proof.Machine.execSendAccepted a s
  | .primaryValueForward r v => Sys2Proof.Machine.execPrimaryValueForward r v s
  | .cxlMemAccess pa write => Sys2Proof.Machine.execCxlMemAccess pa write s
  | .logdrop => Sys2Proof.Machine.execLogdrop s
  | .endTask => Sys2Proof.Machine.execEndTask s
  | .yield => Sys2Proof.Machine.execYield s
  | .sweep => Sys2Proof.Machine.execSweep s
  | .uret => Sys2Proof.Machine.execUret s
  | .eret => Sys2Proof.Machine.execEret s
  | .tlbinvHarvest => Sys2Proof.Machine.execTlbinvHarvest s
  | .candidateRelease => Sys2Proof.Machine.execCandidateRelease s
  | .doneSend => Sys2Proof.Machine.execDoneSend s
  | .preemption => Sys2Proof.Machine.execPreemption s
  | .contextRestore => Sys2Proof.Machine.execContextRestore s
  | .engineTrapDelivery => Sys2Proof.Machine.execEngineTrapDelivery s
  | .completionInterrupt => Sys2Proof.Machine.execCompletionInterrupt s
  | .completionActivation => Sys2Proof.Machine.execCompletionActivation s
  | .matrixCmdStart => Sys2Proof.Machine.execMatrixCmdStart s
  | .matrixCmdComplete => Sys2Proof.Machine.execMatrixCmdComplete s
  | .mrotRotate => Sys2Proof.Machine.execMrotRotate s
  | .granuleRelease => Sys2Proof.Machine.execGranuleRelease s
  | .flagWrite => Sys2Proof.Machine.execFlagWrite s
  | .acqSweepRequest => Sys2Proof.Machine.execAcqSweepRequest s
  | .sweepwaitExpiry => Sys2Proof.Machine.execSweepwaitExpiry s
  | .sweepRequest => Sys2Proof.Machine.execSweepRequest s
  | .sweepRecount => Sys2Proof.Machine.execSweepRecount s
  | .holdingQueueDrain => Sys2Proof.Machine.execHoldingQueueDrain s
  | .brambleCopy => Sys2Proof.Machine.execBrambleCopy s
  | .brambleReplay => Sys2Proof.Machine.execBrambleReplay s
  | .dirtyLogMerge => Sys2Proof.Machine.execDirtyLogMerge s
  | .energyFold => Sys2Proof.Machine.execEnergyFold s
  | .quantumExpiry => Sys2Proof.Machine.execQuantumExpiry s
  | .resetDrainComplete => Sys2Proof.Machine.execResetDrainComplete s
  | .dbgHalt => Sys2Proof.Machine.execDbgHalt s
  | .dbgResume => Sys2Proof.Machine.execDbgResume s
  | .dbgStep => Sys2Proof.Machine.execDbgStep s
  | .dbgSync => Sys2Proof.Machine.execDbgSync s
  | .breakBitStop => Sys2Proof.Machine.execBreakBitStop s
  | .pcMatchHandler => Sys2Proof.Machine.execPcMatchHandler s
  | .shadowTimeout => Sys2Proof.Machine.execShadowTimeout s
  | .sampleRecord => Sys2Proof.Machine.execSampleRecord s
  | .blockEntryStep => Sys2Proof.Machine.execBlockEntryStep s
  | .blkmoveTransferEnd => Sys2Proof.Machine.execBlkmoveTransferEnd s
  | .blkmoveTierCommit => Sys2Proof.Machine.execBlkmoveTierCommit s
  | .errorConsumed => Sys2Proof.Machine.execErrorConsumed s
  | .activationRedelivery => Sys2Proof.Machine.execActivationRedelivery s
  | .pairTimeout => Sys2Proof.Machine.execPairTimeout s
  | .coreSpareSwap => Sys2Proof.Machine.execCoreSpareSwap s
  | .columnSpareSwap => Sys2Proof.Machine.execColumnSpareSwap s
  | .hbmLaneSpare => Sys2Proof.Machine.execHbmLaneSpare s
  | .tileRetire => Sys2Proof.Machine.execTileRetire s
  | .bringup => Sys2Proof.Machine.execBringup s
  | .hbmRetrain => Sys2Proof.Machine.execHbmRetrain s
  | .checkpointWriteback => Sys2Proof.Machine.execCheckpointWriteback s
  | .packetInjection => Sys2Proof.Machine.execPacketInjection s

end Sys2Proof.Machine
end

