-- ==== Sys2Proof/Machine/Issue.lean ====
section
/-! DEFINITION. The issue of an instruction: which context the core chooses (R30 to R32), what happens at the boundary before its next
instruction (R91, R404, R420, R422), the fetch and the decoded instruction. -/

namespace Sys2Proof.Machine

/-! ### Fetch (R110, R241, R401) -/

/-- The word at a context's PC. -/
def fetchWord (s : State) : Res (IWord × State) :=
  let va := s.cur.pc.toNat
  match translate .fetch va s with
  | .error e => .error e
  | .ok (pa, _, s) =>
    if pa ≥ 2 ^ 42 then trapR cACCESS s.cur.pcW s
    else
      match homeRead s pa 4 with
      | .error e => .error e
      | .ok _ =>
        .ok (wordOfBytes (memGet s.home.mem pa) (memGet s.home.mem (pa + 1)) (memGet s.home.mem (pa + 2)) (memGet s.home.mem (pa + 3)),
          fillLine va s)

/-! ### The decoded instruction -/

/-- R423: what a match handler may run. -/
def shadowMay (w : IWord) : Bool :=
  let o := (opc w).toNat
  (decide (1 ≤ o) && decide (o ≤ 0x16)) || (o == 0x1D && w.extractLsb' 7 4 == 1) || (o == 0x22 && w.extractLsb' 0 2 == 0) ||
    (o == 0x23 && w.extractLsb' 7 4 == 4)

/-- R398: the general register that an instruction writes, 0 for none. -/
def destReg (w : IWord) : BitVec 4 :=
  let o := (opc w).toNat
  let a := fA w
  let scalar := (decide (1 ≤ o) && decide (o ≤ 0x0B)) || o == 0x0D || o == 0x14 || o == 0x15 || o == 0x17 || o == 0x18 ||
    (decide (0x1A ≤ o) && decide (o ≤ 0x23)) || (o == 0x28 && w.extractLsb' 0 3 == 4) || (o == 0x29 && w.extractLsb' 0 3 == 4) ||
    (o == 0x25 && w.extractLsb' 0 3 == 7) || (o == 0x2C && w.extractLsb' 7 4 == 3) || (o == 0x30 && w.extractLsb' 7 4 == 8)
  if o = 0x0C then 15 else if scalar && a < 16 then wIdx a else 0

/-- R154, R398: the vector register that an instruction writes. -/
def destVec (w : IWord) : Option (BitVec 4) :=
  let o := (opc w).toNat
  let k := (w.extractLsb' 0 3).toNat
  let vector := o == 0x24 || (o == 0x25 && k != 5 && k != 7) || o == 0x26 || (o == 0x27 && (k == 0 || k == 2 || k == 4)) ||
    (o == 0x28 && decide (k < 4)) || o == 0x2A
  if vector && fA w < 16 then some (wIdx (fA w)) else none

/-- The fetched word runs. -/
def runWord (w : IWord) (s : State) : Host.Outcome State Fault Refusal :=
  if s.cur.shadow && !shadowMay w then done (shadowAbandon s)
  else exec (fetchedInstr w) (s.onCore fun c => { c with dst := destReg w, vdst := destVec w })

/-- R423: a fetch of a match handler that misses translation abandons it. -/
def fetchRun (s : State) : Host.Outcome State Fault Refusal :=
  match fetchWord s with
  | .ok (w, s) => runWord w s
  | .error e => if s.cur.shadow then done (shadowAbandon s) else finish (.error e)

/-! ### The boundary (R91) -/

/-- Waits of an instruction that has not issued, or that waits for what happens at a boundary. -/
def atBoundary : Option Wait → Bool
  | none => true
  | some w =>
    match w with
    | .operand .. | .load | .busy _ | .xget _ | .tcmBusy .. | .yielded | .fill _ | .walk .. | .logSpace _ | .dirtyFull | .mxContext
    | .mxQueue | .migrate => true
    | _ => false

/-- R91: a pending trap is taken, one at each boundary; MIGRATE waits for them all (R321). -/
def trapDue (t : Task) : Bool := !t.traps.isEmpty && (!t.trapTaken || t.wait == some .migrate)

/-- What comes before the instruction at the PC. -/
def boundaryStep (s : State) : Option Instr :=
  let t := s.cur
  if t.errPend.isSome then some .errorConsumed
  else if t.shadow || !atBoundary t.wait then none
  else if trapDue t then some .engineTrapDelivery
  else if !t.comps.isEmpty && !t.inu then some .completionInterrupt
  else if (pcMatch s).isSome then some .pcMatchHandler
  else if brkHits s then some .breakBitStop
  else none

/-- R31: a chosen context runs. -/
def running (s : State) : State :=
  s.onCur fun t => { t with st := .running, wait := if t.wait == some Wait.yielded then none else t.wait }

/-- The context in `cur` issues. -/
def issueCur (s : State) : Host.Outcome State Fault Refusal :=
  let s := running s
  match boundaryStep s with
  | some i => exec i s
  | none => fetchRun s

/-! ### Which context (R30 to R32) -/

/-- The k-th context brought into `cur`: 0 is the one there. -/
def bring (k : Nat) (s : State) : State :=
  match k with
  | 0 => s
  | k + 1 =>
    match s.rest[k]? with
    | none => s
    | some t => { s with cur := t, rest := if gone s.cur then s.rest.eraseIdx k else s.rest.set k s.cur }

/-- Whether the instruction that waits at the PC would now do more than wait. -/
def progress (s : State) : Bool :=
  match issueCur s with
  | .next s' => s'.cur.wait != s.cur.wait || s'.cur.pc != s.cur.pc || s'.cur.st == .ended
  | _ => true

/-- Whether the context in `cur` has nothing left to wait for. A barrier wakes by BARRIER_WAKE, a walk by its own steps. -/
def waitOver (s : State) : Bool :=
  match s.cur.wait with
  | none => true
  | some .shadow => false
  | some .yielded => true
  | some (.walk _ _ _) => s.cur.st != .faulted
  | some (.bwait _ _) => s.cur.st == .ready
  | some _ => progress s

/-- R339, R268: an arrived deposit goes before the next instruction, and so does a push that misses translation. -/
def issuable (s : State) : Bool :=
  (s.cur.st == .ready || s.cur.st == .running) && s.cur.slot.isSome && !s.cur.stopped && !s.cur.recover && !s.cur.shadow &&
    s.cur.deposits.isEmpty && !strmMissing s.cur && waitOver s

/-- R31: a blocked context whose event has come. -/
def wakes (s : State) : Bool :=
  (s.cur.st == .waitMsg || s.cur.st == .waitMem) && !s.cur.recover && !s.cur.stopped && !s.cur.shadow && s.cur.wait.isSome && waitOver s

def contexts (s : State) : List Nat := List.range (s.rest.length + 1)

/-- R30, R119: a context that may issue, as the choice compares it. -/
structure Choice where
  yields : Bool
  key : ActKey
  slot : Nat
  pos : Nat
  deriving DecidableEq, Repr
def choiceLt (a b : Choice) : Bool :=
  if a.yields != b.yields then b.yields
  else keyLt a.key b.key || (a.key == b.key && decide (a.slot < b.slot))
def choiceOf (s : State) (k : Nat) : Option Choice :=
  let s' := bring k s
  if issuable s' then
    some { yields := s'.cur.wait == some Wait.yielded, key := s'.cur.key,
           slot := match s'.cur.slot with | none => 4 | some x => x.val, pos := k }
  else none

/-- A context with an error to consume comes first (R404); then the shadow context; then the least key. -/
def errorAt (s : State) : Option Nat :=
  (contexts s).find? fun k => undecided (bring k s).cur
def shadowAt (s : State) : Option Nat :=
  (contexts s).find? fun k => let t := (bring k s).cur; t.shadow && t.st == .running
/-- R98: tasks of the frames in `late` are passed over. -/
def passedOver (late : List Nat) (s : State) (k : Nat) : Bool := late.contains (bring k s).cur.frame
def chosen (late : List Nat) (s : State) : Option Nat :=
  match errorAt s with
  | some k => some k
  | none =>
    match shadowAt s with
    | some k => some k
    | none => (leastBy choiceLt (((contexts s).filter fun k => !passedOver late s k).filterMap (choiceOf s))).map (·.pos)

/-! ### Waking and slots (R31, R32) -/

/-- R32: a slot that no context holds. -/
def freeSlot (s : State) : Option (Fin 4) := (List.finRange 4).find? fun k => !s.tasks.any fun t => t.slot == some k

/-- R32: the ready task of least key that has a frame and no slot. -/
def wantsSlot (t : Task) : Bool := t.st == .ready && t.slot.isNone && !t.shadow
def slotFor (s : State) : Option Task :=
  leastBy (fun a b => keyLt a.key b.key) ((s.cur :: s.rest).filter wantsSlot)

def wakeAt (s : State) : Option Nat := (contexts s).find? fun k => wakes (bring k s)

/-- R339: deposits that wait no longer. -/
def depositDue (t : Task) : Bool := !t.deposits.isEmpty && written t

/-- Granules that are due back (R202), deposits applied (R339), a context woken, or a slot given; none where nothing is due. -/
def settle (s : State) : Option State :=
  if s.core.runs.any fun r => r.rel == some 0 then some (releaseGranules s)
  else if s.tasks.any depositDue then some (s.mapTasks depositDue settleDeposits)
  else
  match wakeAt s with
  | some k => some ((bring k s).onCur wake)
  | none =>
    match freeSlot s, slotFor s with
    | some k, some t => some (s.updCtx (fun u => wantsSlot u && u.frame == t.frame) fun u => { u with slot := some k })
    | _, _ => none

/-- R31: a context that is no longer chosen is ready. -/
def demote (t : Task) : Task := if t.st == .running && !t.shadow then { t with st := .ready } else t

/-- The chosen context issues; with none the core idles. -/
def issueChosen (late : List Nat) (s : State) : Host.Outcome State Fault Refusal :=
  match chosen late s with
  | none => .next (s.onCur demote)
  | some k =>
    if k = 0 then issueCur s else issueCur (bring k (s.onCur demote))

/-- R424, R425: whether the core issues at all. -/
def coreStands (s : State) : Bool := (s.tile.halted && !s.core.dbgStep) || s.core.preempt || s.tile.retired

/-- R154, R168: a pre-emption waits for the pending writes of XR, the next of which waits for this XGET to read XR before it. -/
def xgetHolds (t : Task) : Bool := t.wait == some (.xget t.xseq) && !t.xrPend.isEmpty && !t.shadow && t.st != .ended && t.st != .preempted
def issueXget (s : State) : Host.Outcome State Fault Refusal :=
  match (contexts s).find? fun k => xgetHolds (bring k s).cur with
  | none => .next s
  | some k => fetchRun (running (bring k s))
/-- R406: and for the errors of what was issued before it. -/
def issueStopping (s : State) : Host.Outcome State Fault Refusal :=
  match errorAt s with
  | some k => issueCur (bring k s)
  | none => issueXget s

/-- R30, item 1: what the bramble thread does when it issues. -/
def brambleStep (s : State) : State := if brambleCopy s == s then brambleReplay s else brambleCopy s
def brambleRuns (s : State) : Bool := s.core.bramble && !s.tile.retired && brambleStep s != s

/-- One issue of the core: of the bramble thread, if it is ready, else of a context (R30). -/
def issue (late : List Nat) (s : State) : Host.Outcome State Fault Refusal :=
  if brambleRuns s then .next (brambleStep s)
  else if s.core.preempt && !s.tile.retired then issueStopping s
  else if coreStands s then .next s
  else
    match settle s with
    | some s => .next s
    | none => issueChosen late s

/-- R424: a halted core has issued its one instruction. -/
def endStep (r : Host.Outcome State Fault Refusal) : Host.Outcome State Fault Refusal :=
  match r with
  | .next s => .next (if s.core.dbgStep then stepOver s else s)
  | x => x

/-- R424, with the step of a halted core. -/
def coreTurn (late : List Nat) (s : State) : Host.Outcome State Fault Refusal :=
  if s.core.dbgStep && !brambleRuns s && (settle s).isNone then endStep (issue late s) else issue late s

end Sys2Proof.Machine
end

