-- ==== Sys2Proof/Machine/Sched.lean ====
section
/-! DEFINITION. What the device's other units do when the environment lays down no turn (log entry 3): the first step of a fixed list that
changes the state. -/

namespace Sys2Proof.Machine

/-- A step of the device as far as it changes the state. -/
def changes (s : State) (i : Instr) : Bool :=
  match exec i s with
  | .next s' => s' != s
  | _ => true

def idx {α : Type} (l : List α) : List Nat := List.range l.length
def ifDo (b : Bool) (l : List Instr) : List Instr := if b then l else []

/-- Loads, atomics, arrivals, column units and the cross register of one context. -/
def ctxSteps (s : State) (t : Task) : List Instr :=
  if t.shadow then []
  else
    (idx t.loads).map (fun k => .homeLoad (.own t.frame k)) ++ (idx t.loads).map (fun k => .loadReply t.frame k) ++
    (idx t.amos).map (fun k => .homeAmo (.own t.frame k)) ++ (idx t.amos).map (fun k => .amoReturn t.frame k) ++
    t.arrives.map (fun a => .barrierArrival a.2 (.ownTask t.frame)) ++
    ifDo (!t.vtPend.isEmpty) [.vtranReply t.frame] ++
    ifDo (!t.xrPend.isEmpty && !s.tasks.any fun u => u.frame == t.frame && u.wait == some (.xget u.xseq)) [.xrWrite t.frame]

/-- The streams of one context. -/
def strmSteps (t : Task) : List Instr :=
  if t.shadow || t.st == .ended then []
  else
    ((List.range 8).map fun k =>
      match (t.streams[k]?).join with
      | none => []
      | some st =>
        if st.pat.out then [Instr.streamDrain t.frame (BitVec.ofNat 3 k), .pageWalk (.stream t.frame (BitVec.ofNat 3 k))]
        else [.streamFetch t.frame (BitVec.ofNat 3 k), .pageWalk (.stream t.frame (BitVec.ofNat 3 k))]).flatten

/-- R376: fills that an instruction or a matrix command waits for. -/
def absentOf (m : BitVec 16) : List Nat := (List.range 16).filter fun k => m.getLsbD k
def fillSteps (s : State) : List Instr :=
  (s.tasks.map fun t =>
    match t.wait with
    | some (.fill g) => [Instr.granuleFill t.frame g]
    | _ => []).flatten.filter (fun i =>
      match i with
      | .granuleFill f (.vreg k) => s.tasks.any fun t => t.frame == f && t.vAbsent.getLsbD k.toNat
      | .granuleFill f (.coef r g) => s.tasks.any fun t => t.frame == f && (t.f[r.toNat]).absent.getLsbD g
      | _ => false) ++
  match s.core.mx.queue with
  | [] => []
  | m :: _ => if m.started || mxPresent s m then [] else (absentOf (s.core.mx.absent m.acc)).map fun k => .granuleFill 0 (.acc m.acc k)

/-- Sealed segments on their way. -/
def segSteps (s : State) : List Instr :=
  (s.core.sealed.map fun g =>
    Instr.segmentShip g.num :: ((idx g.parts).map (fun k => Instr.partApply (.own g.num k)) ++
      (idx g.parts).map fun k => Instr.segmentAck g.num k)).flatten

/-- The engines, the matrix unit, the reduction tree. -/
def engSteps (s : State) : List Instr :=
  ((List.range 16).map fun q =>
    if (s.queue q).isEmpty then []
    else [Instr.engineOpStart (BitVec.ofNat 4 q), .copyElement (BitVec.ofNat 4 q), .chainElement (BitVec.ofNat 4 q),
          .engineOpComplete (BitVec.ofNat 4 q), .pageWalk (.engine q)]).flatten ++
  (match s.queue 10 with
   | o :: _ => (match o.kind with | .nred c => [Instr.nredArrival c] | _ => [])
   | [] => []) ++
  ifDo (!(s.queue 9).isEmpty) [.blockEntryStep, .blkmoveTransferEnd] ++ ifDo (!s.home.moves.isEmpty) [.blkmoveTierCommit] ++
  (match s.core.mx.queue with
   | [] => []
   | m :: _ =>
     [Instr.matrixCmdStart, .matrixCmdComplete, .mrotRotate, .pageWalk (.engine 8)] ++
       (match m.bar with | none => [] | some n => [.barrierArrival n .ownMrot]))

/-- Translation. -/
def xlatSteps (s : State) : List Instr :=
  (s.tasks.filterMap fun t => if (taskMiss t).isSome && t.st == .faulted then some (Instr.pageWalk (.task t.frame)) else none) ++
  ifDo (!s.tile.errQ.isEmpty) [.pageWalk .agent] ++ (idx s.tile.faults).map (fun k => .faultMessage (.own k)) ++
  (s.home.out.filterMap fun p => match p with
    | .faultAns tok r => if (tok.extractLsb' 6 6).toNat = s.clusterId then some (Instr.faultReplyArrival tok r) else none
    | _ => none) ++
  [.dirtyLogMerge]

/-- R306, R307: what the root of the tree, or a tile that wants a sweep, does next. -/
def sweepSteps (s : State) : List Instr :=
  match s.parent with
  | some _ => ifDo s.tile.sweepWanted [.sweepRequest]
  | none =>
    if !s.tile.sweeping then ifDo (s.tile.sweepWanted && s.launch.live) [.sweepStart (!s.tile.colour)]
    else
      let f := sweepFig s
      [.sweepEnd (BitVec.ofNat 48 f.least) (BitVec.ofNat 48 (Nat.min f.least f.commit)), .sweepRecount]

/-- A pre-emption that has not taken effect (R91). -/
def mustStop (s : State) : Bool := s.core.preempt && (s.tasks.any (fun t => t.st != .preempted) || (s.vfReg s.core.vf).saving)

/-- The tile: barriers, messages, candidates, promises, the end of the launch. -/
def tileSteps (s : State) : List Instr :=
  (s.tasks.filterMap fun t => match t.wait with | some (.bwait n _) => some (Instr.barrierWake n) | _ => none) ++
  [.packetInjection, .holdingQueueDrain] ++ ifDo s.core.bramble [.brambleCopy, .brambleReplay] ++
  ifDo (match lowestCand s with | none => !s.tile.migBuf.isEmpty | some c => c.core == s.core.id || !s.tile.migBuf.isEmpty) [.candidateRelease] ++
  [.granuleRelease, .completionActivation] ++
  (idx s.tile.outLinks).map (fun l => .pipSend l) ++ (idx s.tile.inLinks).map (fun l => .askSend l) ++
  sweepSteps s ++ [.doneSend, .activationRedelivery]

/-- Every step that may be due, in the order in which they are tried. -/
def internalSteps (s : State) : List Instr :=
  ifDo (mustStop s) [.preemption] ++ [.contextRestore] ++ ((s.cur :: s.rest).map (ctxSteps s)).flatten ++ [.flagWrite] ++ segSteps s ++
    engSteps s ++ ((s.cur :: s.rest).map strmSteps).flatten ++ fillSteps s ++ xlatSteps s ++ tileSteps s

/-! ### What a turn of the environment says (log entry 3) -/

/-- R353, R360, R361: a TLBINV of another core: the entries of a function, of one of its address spaces, of one page. -/
def dropCached (vf : BitVec 6) (asid : Option (BitVec 16)) (va : Option Nat) (s : State) : State :=
  dropTlb (fun e => e.vf == vf && (match asid with | none => true | some a => e.asid == a) &&
    (match va with | none => true | some x => covers x e)) s
/-- R359: a TLBINV.harvest of another core of the function merges what this core has logged for it, also while it is switched out. -/
def harvestSaved (vf : BitVec 6) (s : State) : State :=
  let put (pa : Nat) (h : HomeSt) : HomeSt := if noMemory s pa then h else setD pa h
  let recs := ((s.saved.filter fun x => x.vf == vf).map fun x => x.core.dirty).flatten
  let clean (x : SavedCtx) : SavedCtx := if x.vf == vf then { x with core := { x.core with dirty := [] } } else x
  { s with saved := s.saved.map clean, home := recs.foldl (fun h r => put r.2 (put r.1 h)) s.home }
def harvested (vf : BitVec 6) (s : State) : State := harvestSaved vf (if s.core.vf == vf then mergeDirty s else s)
/-- R353, R360: another cluster has answered. -/
def answered (s : State) : State := s.onTile fun t => { t with dropsOut := t.dropsOut - 1 }
/-- R369: nanojoules that other tiles fold into a function's register. -/
def energyFolded (v : BitVec 6) (n : Nat) (s : State) : State := quotaStops (addEcnt v n s)

def pickInternal (s : State) : Option Instr := (internalSteps s).find? (changes s)

end Sys2Proof.Machine
end

