-- ==== Sys2Proof/Machine/Step.lean ====
section
/-! DEFINITION. One step of the machine, and where a program's first instruction is put. -/

namespace Sys2Proof.Machine

/-- R427: the state-change log after a step. -/
def logged (before : State) (r : Host.Outcome State Fault Refusal) : Host.Outcome State Fault Refusal :=
  match r with
  | .next s => .next (slogDiff before s)
  | x => x

/-- With no turn laid down: a step of the device that is due, else an issue of the core (log entry 3). -/
def ownTurn (s : State) : Host.Outcome State Fault Refusal :=
  match pickInternal s with
  | some i => exec i s
  | none => coreTurn [] s

/-- A turn of the environment. -/
def takeTurn (t : Turn) (s : State) : Host.Outcome State Fault Refusal :=
  match t with
  | .core => coreTurn [] s
  | .late frames => coreTurn frames s
  | .event i => exec i s
  | .others stamps busy => .next (s.onTile fun x => { x with otherStamps := stamps, otherBusy := busy })
  | .ended tag => .next (launchOver tag s)
  | .launchReg n v => .next (putLaunchReg n v s)
  | .tileReg n set clr => .next (tileRegWrite n set clr s)
  | .otherCores commits waits room => .next (s.onTile fun x => { x with otherCommits := commits, otherWaits := waits, otherFree := room })
  | .started tag => .next (launchStarted tag s)
  | .tlbDrop vf asid va => .next (dropCached vf asid va s)
  | .harvest vf => .next (harvested vf s)
  | .dropped => .next (answered s)
  | .asidRoot vf id root => .next (renewAsid vf id root s)
  | .asidCount vf id n => .next (s.setAsid vf id { s.asidEnt vf id with count := n })
  | .tileGone t => .next (tileGone t s)
  | .energy v n => .next (energyFolded v n s)
  | .memError x double => .next (memError x double s)

/-- One step. -/
def step (s : State) : Host.Outcome State Fault Refusal :=
  match s.sched with
  | [] => logged s (ownTurn s)
  | t :: ts => logged s (takeTurn t { s with sched := ts })

/-- Where `withFetchWord` puts the word: a page that no table maps, and HBM behind it. -/
def fetchVa : Nat := 0x100000
def fetchPa : Nat := 0x200000
def fetchTlb (s : State) : Tlb :=
  { vf := s.core.vf, asid := s.core.asid, gen := s.core.asidGen, va := fetchVa, bits := 16, pa := fetchPa, r := true, w := true,
    x := true, t := true, r2 := true, w2 := true, x2 := true, mig := false, d := true, leaf1 := 0, leaf2 := 0 }

/-- The context that fetches the word. -/
def fetchTask (t : Task) : Task :=
  { t with st := .running, slot := some 0, wait := none, pc := BitVec.ofNat 56 fetchVa, traps := [], comps := [], errPend := none,
           recover := false, shadow := false, stopped := false, brkSkip := true, pcmSkip := true, deposits := [],
           streams := if strmMissing t then t.streams.map (·.map fun x => { x with miss := false }) else t.streams }

/-- The state with an instruction placed where the next step fetches (log entry 1): the first context runs, its page is translated, the
core is neither halted nor pre-empted and has nothing else due, and the next turn is the core's. -/
def State.withFetchWord (s : State) (nbits w : Nat) : State :=
  let v := w % 2 ^ nbits
  let bytes := [tableByte v 0, tableByte v 1, tableByte v 2, tableByte v 3]
  { s with cur := fetchTask s.cur, rest := [], sched := [.core],
           core := { s.core with itlb := [fetchTlb s], preempt := false, dbgStep := false, bramble := false,
                                 runs := s.core.runs.filter fun r => r.rel != some 0 },
           tile := { s.tile with halted := false, retired := false },
           home := { homePut s.home fetchPa (bytes ++ List.replicate 4 0) with deadMask := 0, deadLinks := [] } }

end Sys2Proof.Machine
end

