-- ==== Sys2Proof/Safety.lean ====
section
/-! DEFINITION. What the statements about the machine are written in: the invariant that every step keeps, what an instruction leaves
unchanged, and the values, checks and effects of the rules, written apart from the meanings. -/

namespace Sys2Proof.Machine

/-! ### The invariant -/

/-- Every byte memory of the state is in canonical form: the homes, the TCM of the core, and the TCM that a switch of sharers keeps. -/
def State.memOk (s : State) : Bool :=
  Memory.wf s.home.mem && Memory.wf s.core.tcm && s.saved.all fun x => Memory.wf x.core.tcm

/-! ### Frames -/

/-- A context without its general registers, its PC and the notes of its issue: what an instruction that only writes general
registers leaves alone. -/
def Task.kept (t : Task) : Task :=
  { t with w := Vector.replicate 16 0, pc := 0, st := .running, wait := none, brkSkip := false, pcmSkip := false, paid := false, trapTaken := false }

/-- A core without what every retired instruction changes (R202, R398). -/
def CoreSt.kept (c : CoreSt) : CoreSt := { c with replay := [], runs := c.runs.map fun r => { r with rel := none } }

/-- A tile without its energy meter (R367). -/
def TileSt.kept (t : TileSt) : TileSt := { t with meter := [] }

/-- R25, R26: an address in the workspace of the issuing context, where its registers are seen. -/
def State.ownWs (s : State) (a : Nat) : Prop := s.cur.wp.toNat ≤ a ∧ a < s.cur.wp.toNat + 128

/-- What an instruction leaves unchanged when it completes: every other general register than those named; everything of its context but
the registers, the PC and the notes of its issue; the other contexts, but for R119; the core, but for what every retired instruction
changes; the tile, but for the meter; the homes, the launch, the host and what a switch has saved; every byte of shared memory, and every
byte of TCM outside the window of its own registers. -/
structure Frame (regs : List (BitVec 4)) (s t : State) : Prop where
  registers : ∀ k, k ∉ regs → t.getW k = s.getW k
  context : t.cur.kept = s.cur.kept
  others : t.rest = s.rest.map unyield
  core : t.core.kept = s.core.kept
  tile : t.tile.kept = s.tile.kept
  home : t.home = s.home
  launch : t.launch = s.launch
  host : t.host = s.host
  saved : t.saved = s.saved
  sched : t.sched = s.sched
  fresh : t.fresh = s.fresh
  shared : ∀ a, memGet t.home.mem a = memGet s.home.mem a
  tcm : ∀ a, ¬ s.ownWs a → tcmByte t a = tcmByte s a

/-! ### Registers (R80 to R105) -/

/-- An instruction that reads some fields and writes one: its sources in the order in which it reads them (R81), its destination, its
charge class (R99), and the value of its result, from the PC and the sources. -/
structure RegOp where
  srcs : List Fld
  dst : Fld
  cls : Charge
  val : Nat → List Word → Word

/-- An operation on the first source. -/
def un (f : Word → Word) (_ : Nat) (xs : List Word) : Word := f (xs.headD 0)

/-- An operation on the first two sources. -/
def bi (f : Word → Word → Word) (_ : Nat) (xs : List Word) : Word := f (xs.headD 0) ((xs.drop 1).headD 0)

/-- A truth value as a word. -/
def truth (p : Prop) [Decidable p] : Word := if p then 1 else 0

/-- R102: bit k of the carry-less product: the parity of the pairs of set bits whose places add to k. -/
def clBit (a b : Word) (k : Nat) : Bool :=
  ((List.range 64).filter fun i => decide (i ≤ k) && a.getLsbD (k - i) && b.getLsbD i).length % 2 == 1

/-- R102: 64 bits of the carry-less product, from bit `lo` on. -/
def clWord (a b : Word) (lo : Nat) : Word := BitVec.ofFnLE fun k : Fin 64 => clBit a b (lo + k.val)

/-- R101 to R105: the arithmetic of registers, written with whole numbers. -/
def regOp : Instr → Option RegOp
  | .add a b c => some ⟨[b, c], a, .alu, bi fun x y => BitVec.ofNat 64 (x.toNat + y.toNat)⟩
  | .sub a b c => some ⟨[b, c], a, .alu, bi fun x y => BitVec.ofInt 64 (x.toInt - y.toInt)⟩
  | .and a b c => some ⟨[b, c], a, .alu, bi fun x y => x &&& y⟩
  | .or a b c => some ⟨[b, c], a, .alu, bi fun x y => x ||| y⟩
  | .xor a b c => some ⟨[b, c], a, .alu, bi fun x y => x ^^^ y⟩
  | .andn a b c => some ⟨[b, c], a, .alu, bi fun x y => x ^^^ (x &&& y)⟩
  | .sll a b c => some ⟨[b, c], a, .alu, bi fun x y => BitVec.ofNat 64 (x.toNat * 2 ^ (y.toNat % 64))⟩
  | .srl a b c => some ⟨[b, c], a, .alu, bi fun x y => BitVec.ofNat 64 (x.toNat / 2 ^ (y.toNat % 64))⟩
  | .sra a b c => some ⟨[b, c], a, .alu, bi fun x y => BitVec.ofInt 64 (x.toInt / 2 ^ (y.toNat % 64))⟩
  | .rol a b c => some ⟨[b, c], a, .alu, bi fun x y =>
      BitVec.ofNat 64 (x.toNat * 2 ^ (y.toNat % 64) + x.toNat / 2 ^ (64 - y.toNat % 64))⟩
  | .ror a b c => some ⟨[b, c], a, .alu, bi fun x y =>
      BitVec.ofNat 64 (x.toNat / 2 ^ (y.toNat % 64) + x.toNat * 2 ^ (64 - y.toNat % 64))⟩
  | .slt a b c => some ⟨[b, c], a, .alu, bi fun x y => truth (x.toInt < y.toInt)⟩
  | .sltn a b c => some ⟨[b, c], a, .alu, bi fun x y => truth (x.toNat < y.toNat)⟩
  | .min a b c => some ⟨[b, c], a, .alu, bi fun x y => BitVec.ofInt 64 (Min.min x.toInt y.toInt)⟩
  | .max a b c => some ⟨[b, c], a, .alu, bi fun x y => BitVec.ofInt 64 (Max.max x.toInt y.toInt)⟩
  | .minn a b c => some ⟨[b, c], a, .alu, bi fun x y => BitVec.ofNat 64 (Min.min x.toNat y.toNat)⟩
  | .maxn a b c => some ⟨[b, c], a, .alu, bi fun x y => BitVec.ofNat 64 (Max.max x.toNat y.toNat)⟩
  | .clz a b => some ⟨[b], a, .alu, un fun x => if x = 0 then 64 else BitVec.ofNat 64 (63 - x.toNat.log2)⟩
  | .ctz a b => some ⟨[b], a, .alu, un fun x => BitVec.ofNat 64 (((List.range 64).find? fun k => x.getLsbD k).getD 64)⟩
  | .popc a b => some ⟨[b], a, .alu, un fun x => BitVec.ofNat 64 ((List.range 64).filter fun k => x.getLsbD k).length⟩
  | .bswap a b => some ⟨[b], a, .alu, un fun x => leWord (leBytes 8 x.toNat).reverse⟩
  | .sel a b c m => some ⟨[b, c, m], a, .alu, fun _ xs => if (xs.drop 2).headD 0 = 0 then (xs.drop 1).headD 0 else xs.headD 0⟩
  | .mul a b c => some ⟨[b, c], a, .mul, bi fun x y => BitVec.ofInt 64 (x.toInt * y.toInt)⟩
  | .mulh a b c => some ⟨[b, c], a, .mul, bi fun x y => BitVec.ofInt 64 (x.toInt * y.toInt / 2 ^ 64)⟩
  | .mulhn a b c => some ⟨[b, c], a, .mul, bi fun x y => BitVec.ofNat 64 (x.toNat * y.toNat / 2 ^ 64)⟩
  | .div a b c => some ⟨[b, c], a, .div, bi fun x y =>
      if y = 0 then BitVec.ofInt 64 (-1) else BitVec.ofInt 64 (x.toInt.tdiv y.toInt)⟩
  | .divn a b c => some ⟨[b, c], a, .div, bi fun x y =>
      if y = 0 then BitVec.ofInt 64 (-1) else BitVec.ofNat 64 (x.toNat / y.toNat)⟩
  | .rem a b c => some ⟨[b, c], a, .div, bi fun x y => if y = 0 then x else BitVec.ofInt 64 (x.toInt.tmod y.toInt)⟩
  | .remn a b c => some ⟨[b, c], a, .div, bi fun x y => if y = 0 then x else BitVec.ofNat 64 (x.toNat % y.toNat)⟩
  | .clmul a b c => some ⟨[b, c], a, .mul, bi fun x y => clWord x y 0⟩
  | .clmulh a b c => some ⟨[b, c], a, .mul, bi fun x y => clWord x y 64⟩
  | .addi a b i => some ⟨[b], a, .alu, un fun x => BitVec.ofInt 64 (x.toInt + i.toInt)⟩
  | .andi a b i => some ⟨[b], a, .alu, un fun x => x &&& BitVec.ofNat 64 i.toNat⟩
  | .ori a b i => some ⟨[b], a, .alu, un fun x => x ||| BitVec.ofNat 64 i.toNat⟩
  | .xori a b i => some ⟨[b], a, .alu, un fun x => x ^^^ BitVec.ofNat 64 i.toNat⟩
  | .slti a b i => some ⟨[b], a, .alu, un fun x => truth (x.toInt < i.toInt)⟩
  | .sltin a b i => some ⟨[b], a, .alu, un fun x => truth (x.toNat < i.toNat)⟩
  | .slli a b n => some ⟨[b], a, .alu, un fun x => BitVec.ofNat 64 (x.toNat * 2 ^ n.toNat)⟩
  | .srli a b n => some ⟨[b], a, .alu, un fun x => BitVec.ofNat 64 (x.toNat / 2 ^ n.toNat)⟩
  | .srai a b n => some ⟨[b], a, .alu, un fun x => BitVec.ofInt 64 (x.toInt / 2 ^ n.toNat)⟩
  | .roli a b n => some ⟨[b], a, .alu, un fun x => BitVec.ofNat 64 (x.toNat * 2 ^ n.toNat + x.toNat / 2 ^ (64 - n.toNat))⟩
  | .lhi a i => some ⟨[], a, .alu, fun _ _ => BitVec.ofInt 64 (i.toInt * 2 ^ 16)⟩
  | .pchi a i => some ⟨[], a, .alu, fun pc _ => BitVec.ofInt 64 (pc + i.toInt * 2 ^ 16)⟩
  | _ => none

/-- R107: a branch: its sources, its offset in words, and its condition, written with whole numbers. -/
structure Branch where
  a : Fld
  b : Fld
  off : Int
  cond : Word → Word → Bool

/-- R107: the six branches. -/
def branchOp : Instr → Option Branch
  | .beq a b o => some ⟨a, b, o.toInt, fun x y => decide (x.toNat = y.toNat)⟩
  | .bne a b o => some ⟨a, b, o.toInt, fun x y => decide (x.toNat ≠ y.toNat)⟩
  | .blt a b o => some ⟨a, b, o.toInt, fun x y => decide (x.toInt < y.toInt)⟩
  | .bge a b o => some ⟨a, b, o.toInt, fun x y => decide (y.toInt ≤ x.toInt)⟩
  | .bltn a b o => some ⟨a, b, o.toInt, fun x y => decide (x.toNat < y.toNat)⟩
  | .bgen a b o => some ⟨a, b, o.toInt, fun x y => decide (y.toNat ≤ x.toNat)⟩
  | _ => none

/-! ### Completion -/

/-- The energy of an instruction, charged to the function of the core (R367). -/
def State.charged (s t : State) (cost : Nat) : Prop :=
  tabGet t.tile.meter 0 s.core.vf.toNat = tabGet s.tile.meter 0 s.core.vf.toNat + cost * s.tile.cal.toNat / 2 ^ 15 ∧
  ∀ v, v ≠ s.core.vf.toNat → tabGet t.tile.meter 0 v = tabGet s.tile.meter 0 v

/-- The issuing context begins an instruction: it runs, and no earlier phase of the instruction has been charged (log entry 9). -/
def State.starts (s : State) : Prop := s.cur.st = .running ∧ s.cur.wait = none ∧ s.cur.paid = false

/-- The issuing context is running its instruction (R31). -/
def State.issues (s : State) : Prop := s.cur.st = .running ∧ s.cur.wait ≠ some .yielded

/-- R80: a context after a scalar field of it is written. -/
def Task.put (f : Fld) (x : Word) (t : Task) : Task := (writeS f x { State.reset with cur := t }).cur

/-- The state in which an instruction has completed whose own effect is the change `f` of its context: charged, the PC moved on, retired. -/
def State.completes (c : Charge) (f : Task → Task) (s : State) : State := retire (advance ((chargeOnce c s).onCur f))

/-- R226, R235, R246, R311: the open segment of the issuing task sealed at a scope, its held sends released, its activation escaped. -/
def State.published (p : BitVec 3) (s : State) : State := (releaseHeld (sealNow p s)).onCur fun t => { t with esc := true }

/-- A state whose issuing context has been charged for its instruction. -/
def State.paid (c : Charge) (s : State) : State := (charge c s).onCur fun t => { t with paid := true }

/-- An instruction at the PC completed. -/
def State.retired (s : State) : State := retire (advance s)

/-- A state with the energy of another on its meter. -/
def State.paying (s v : State) : State := s.onTile fun t => { t with meter := v.tile.meter }

/-! ### Private memory -/

/-- R111: the effective address of an access of n bytes, exact. -/
def address (x : Word) (o : Int) (n : Nat) : Int := (x.toNat : Int) + o * n

/-- R111: an address that the TCM serves: aligned, inside it, no spill overflow of the frame (R378). -/
def State.inTcm (s : State) (b : Fld) (ea : Int) (n : Nat) : Prop :=
  ea % (n : Int) = 0 ∧ 0 ≤ ea ∧ ea + n ≤ 131072 ∧ isSpill s b ea = false

/-- R24, R26: a byte of word 0 of a task's workspace, where its status and PC stand. -/
def State.wordZero (s : State) (x : Nat) : Prop := ∃ t ∈ s.tasks, t.wp.toNat ≤ x ∧ x < t.wp.toNat + 8

/-- A context without what a store to its workspace may change (R24). -/
def Task.bare (t : Task) : Task := { t with w := Vector.replicate 16 0, pc := 0, mig := false }

/-- The byte that the last of some stores covering an address leaves there. -/
def stored (l : List (Nat × List Byte)) (x : Nat) : Option Byte :=
  l.foldl (fun o w => if w.1 ≤ x ∧ x < w.1 + w.2.length then w.2[x - w.1]? else o) none

/-- What an instruction that stores bytes at addresses of TCM does, and what it leaves unchanged: the PC moves on; the bytes stand at
their addresses and every other byte of TCM, where the registers of every workspace are seen too (R25), reads as before; whole words
written lose their poison mark (R401); the histories of the matrix unit see the writes (R191); the task is heavy where the instruction
makes it so (R34). -/
structure State.Stores (u : State) (cost : Nat) (heavy : Bool) (l : List (Nat × List Byte)) (t : State) : Prop where
  pc : t.cur.pc = u.cur.pc + 4
  energy : u.charged t cost
  bytes : ∀ x, ¬ u.wordZero x → tcmByte t x = (stored l x).getD (tcmByte u x)
  poison : t.core.tcmPoison =
    l.foldl (fun p w => p.filter fun k : Nat => decide ¬ (w.1 ≤ 8 * k ∧ 8 * k + 8 ≤ w.1 + w.2.length)) u.core.tcmPoison
  history : t.core.mx = l.foldl (fun m w => mxTouch w.1 w.2.length m) u.core.mx
  core : { t.core.kept with tcm := u.core.tcm, tcmPoison := u.core.tcmPoison, mx := u.core.mx } = u.core.kept
  context : t.cur.kept = ({ u.cur with hvy := u.cur.hvy || heavy } : Task).kept
  others : t.rest.map Task.bare = u.rest.map fun x => (unyield x).bare
  tile : t.tile.kept = u.tile.kept
  home : t.home = u.home
  launch : t.launch = u.launch
  host : t.host = u.host
  saved : t.saved = u.saved
  sched : t.sched = u.sched
  fresh : t.fresh = u.fresh

/-! ### Shared memory -/

/-- R244: n bytes as a word, sign-extended or zero-extended. -/
def extend (sext : Bool) (n : Nat) (bs : List Byte) : Word :=
  if sext then (BitVec.ofNat (8 * n) (leNat bs)).signExtend 64 else BitVec.ofNat 64 (leNat bs % 2 ^ (8 * n))

/-- R244, R252, R349, R436: an access of n bytes at an exact address passes its checks, translates to a physical address and stays on
this core (R45): the state with the translation done, the entry, the physical address. -/
structure State.Reaches (acc : Access) (p : BitVec 3) (s : State) (ea : Int) (n : Nat) (u : State) (e : Tlb) (pa : Nat) : Prop where
  aligned : ea % (n : Int) = 0
  low : 0 ≤ ea
  high : ea + n ≤ 2 ^ 56
  xlat : translate acc ea.toNat s = .ok (pa, e, u)
  package : packageOk u p pa = true
  stays : autoDest u e pa = none

/-- R253: the table of the atomics. -/
def atomicNew (op : BitVec 4) {n : Nat} (old v e : BitVec n) : BitVec n :=
  match op.toNat with
  | 0 => old + v
  | 1 => old &&& v
  | 2 => old ||| v
  | 3 => old ^^^ v
  | 4 => if v.slt old then v else old
  | 5 => if old.slt v then v else old
  | 6 => if v < old then v else old
  | 7 => if old < v then v else old
  | 8 => v
  | 9 => if old = e then v else old
  | _ => BitVec.ofNat n (fmaxF fp32 old.toNat v.toNat)

/-- R245: a context after load number k of it has returned; a task that waited for a load is woken. -/
def Task.loaded (k : Nat) (t : Task) : Task :=
  { t with loads := t.loads.eraseIdx k,
           st := if t.wait = some .load ∧ t.st = .waitMem then (if strmMissing t then .faulted else .ready) else t.st }

/-! ### Ordering -/

/-- R248: the cores that an ACQ names, when its registers and its bitmap can be read. -/
def State.named (s : State) : Instr → Option (BitVec 3 × List (BitVec 13))
  | .acq b p => if wBusy s.cur b then none else some (p, [(s.rw b).extractLsb' 0 13])
  | .acqTm b c p =>
    if wBusy s.cur b || wBusy s.cur c then none
    else some (p, ((List.range 8).filter fun k => (s.rw c).getLsbD k).map fun k => ((s.rw b).extractLsb' 0 10 ++ BitVec.ofNat 3 k : BitVec 13))
  | .acqMap b c p =>
    if wBusy s.cur b || wBusy s.cur c then none
    else if 1 ≤ (s.rw c).toNat ∧ (s.rw c).toNat ≤ 128 ∧ (s.rw b).toNat % 8 = 0 ∧ (s.rw b).toNat + 8 * (s.rw c).toNat ≤ 131072 then
      match readWords s (s.rw b).toNat (s.rw c).toNat with
      | .ok ws => some (p, bitmapCores ws)
      | .error _ => none
    else none
  | _ => none

/-- R251: the status word of a fence. -/
def fenceWord (t : Task) (noflag : Bool) : Word :=
  BitVec.ofNat 64 (Min.min t.fails 65535 * 2 ^ 48 + noflag.toNat * 8 + t.failBig.toNat * 4 + t.failRefused.toNat * 2 + t.failDead.toNat)

/-- R251: a fence that ends: its status written, the failures reported. -/
def State.fenced (s : State) (d : Fld) (noflag : Bool) : State :=
  let w := fenceWord s.cur noflag
  let u := s.onCur fun t => { t with fails := 0, failBig := false, failRefused := false, failDead := false }
  (if w = 0 then u else u.onTile fun t => { t with ffail := true }).onCur (Task.put d w)

/-! ### Messages -/

/-- R314: the checks of a send, in their order. -/
def sendTrap (s : State) (d h st : Word) : Option (BitVec 6 × Word) :=
  let core : BitVec 13 := d.extractLsb' 0 13
  let cls : BitVec 4 := d.extractLsb' 16 4
  if 2 ^ 20 ≤ d.toNat ∨ 2 ^ 13 ≤ d.toNat % 2 ^ 16 then some (0x04, d)
  else if inPartition s (tileOf core) = false then some (0x04, d)
  else if hasLink s (tileOf core) cls = false then some (0x14, cls.setWidth 64)
  else if h.toNat % 4 ≠ 0 then some (0x03, h)
  else if 2 ^ 56 ≤ h.toNat then some (0x04, h)
  else if 2 ^ 48 - 1 ≤ st.toNat ∨ st.toNat < satAdd s.cur.stamp.toNat ((lahOf s cls).getD 0) then some (0x0E, st)
  else none

/-! ### Queues -/

/-- R223, R229: an operation in an engine queue behind what stands there, with the key of its task and the next part of its open
segment. -/
def State.queued (q : Fin 16) (k : EngKind) (xid : Word) (handler : BitVec 56) (s : State) : State :=
  let v := s.onCur fun t => { t with partCtr := t.partCtr + 1 }
  v.onCore fun c => { c with eng := c.eng.set q.val (c.eng[q.val] ++ [mkOp v k xid handler]) }

/-- R410, R411: the same operation, with the canonical bytes it is compared by where the launch is paired. -/
def State.queuedOp (q : Fin 16) (k : EngKind) (xid : Word) (handler : BitVec 56) (bs : List Byte) (s : State) : State :=
  let v := s.queued q k xid handler
  if kindPaired k then pairEngine bs v else v

/-- R311: the held sends released, the activation escaped. -/
def State.escaped (s : State) : State := (releaseHeld s).onCur fun t => { t with esc := true }

/-! ### Control registers -/

/-- The control-register instruction of an operation. -/
def csrInstr (op : CsrOp) (a b : Fld) (n : BitVec 12) : Instr :=
  match op with
  | .read => .csrr a n | .write => .csrw a b n | .set => .csrset a b n | .clear => .csrclr a b n

/-- R93, R94: the writable fields of a control register, each its lowest bit and its width. -/
def csrFields (n : Nat) : List (Nat × Nat) :=
  match n with
  | 0x000 => [(7, 1)] | 0x003 => [(48, 4)] | 0x005 => [(0, 48)] | 0x006 => [(0, 32)] | 0x007 => [(0, 32)] | 0x008 => [(0, 32)]
  | 0x009 => [(0, 8)] | 0x100 => [(2, 54)] | 0x101 => [(0, 6), (7, 1), (8, 8)] | 0x102 => [(2, 54)] | 0x103 => [(0, 64)]
  | 0x104 => [(2, 54)] | 0x105 => [(0, 33)] | 0x300 => [(0, 3)] | 0x301 => [(0, 3)] | 0x302 => [(0, 17), (32, 16)]
  | 0x303 => [(0, 17), (32, 16)] | 0x304 => [(0, 4)] | 0x400 => [(0, 32)] | 0x500 => [(6, 50)] | 0x501 => [(6, 50)] | 0x700 => [(0, 5)]
  | k => if 0x710 ≤ k ∧ k ≤ 0x71F then [(2, 54), (56, 6), (63, 1)] else []

/-! ### Vectors -/

/-- R127: element k of a vector of elements of w bits. -/
def lane (w : Nat) (x : BitVec 512) (k : Nat) : BitVec w := x.extractLsb' (w * k) w

/-- R136, R155: an integer as an element: wrapped, or clamped to the range of the element. -/
def laneInt (w : Nat) (sat : Bool) (z : Int) : BitVec w :=
  if sat then BitVec.ofInt w (Max.max (-(2 ^ (w - 1))) (Min.min (2 ^ (w - 1) - 1) z)) else BitVec.ofInt w z

/-- R125, R133 to R135: the exact value of an operation on a floating format, rounded once. -/
def laneFloat (f : BitVec 3) (rz sat : Bool) (v : FV) : BitVec (fmtWidth f) := BitVec.ofNat _ (roundF (fmtOf f) rz sat v)

/-- The value of an element of a floating format. -/
def laneFV (f : BitVec 3) (x : BitVec (fmtWidth f)) : FV := decodeF (fmtOf f) x.toNat

/-- An instruction that writes a vector: its vector sources, its scalar sources, its destination, whether part of the destination keeps
its value, its charge, the width of its elements, the elements it writes under the mask, and their values. -/
structure VecOp where
  vsrcs : List Fld
  srcs : List Fld
  dst : Fld
  part : Bool
  cls : Charge
  w : Nat
  writes : Word → List Word → Nat → Bool
  val : Word → List (BitVec 512) → List Word → Nat → BitVec w

/-- A vector source by its place. -/
def vsrc (vs : List (BitVec 512)) (k : Nat) : BitVec 512 := (vs.drop k).headD 0

/-- A scalar source by its place. -/
def xsrc (xs : List Word) (k : Nat) : Word := (xs.drop k).headD 0

/-- Two sources, element by element, under the mask where m is set. -/
def vec2 (a b c : Fld) (m : Bool) (w : Nat) (g : BitVec w → BitVec w → BitVec w) : VecOp :=
  { vsrcs := [b, c], srcs := [], dst := a, part := m, cls := .valu, w := w, writes := fun mask _ k => !m || mask.getLsbD k,
    val := fun _ vs _ k => g (lane w (vsrc vs 0) k) (lane w (vsrc vs 1) k) }

/-- R155: element arithmetic: on the exact values of a floating format, rounded once, or on integers. -/
def arith (a b c : Fld) (st r m : Bool) (f : BitVec 3) (gf : FV → FV → FV) (gi : Int → Int → Int) : VecOp :=
  vec2 a b c m (fmtWidth f) fun x y =>
    if isFloat f then laneFloat f r st (gf (laneFV f x) (laneFV f y)) else laneInt _ st (gi x.toInt y.toInt)

/-- R131, R155: the greater or the lesser of two elements; a NaN wins, and -0 is below +0. -/
def extreme (mx n : Bool) (f : BitVec 3) (x y : BitVec (fmtWidth f)) : BitVec (fmtWidth f) :=
  if isFloat f then
    if laneFV f x = .nan ∨ laneFV f y = .nan then BitVec.ofNat _ (canonNaN (fmtOf f))
    else if (laneFV f x).lt (laneFV f y) ∨ ((laneFV f x).eq (laneFV f y) ∧ (laneFV f x).isNeg) then (if mx then y else x)
    else (if mx then x else y)
  else if n then (if x.toNat ≤ y.toNat then (if mx then y else x) else (if mx then x else y))
  else (if x.toInt ≤ y.toInt then (if mx then y else x) else (if mx then x else y))

/-- R155: a multiply and an add with one rounding; `neg` subtracts. -/
def fused (neg : Bool) (a b c d : Fld) (f : BitVec 3) : VecOp :=
  { vsrcs := [b, c, d], srcs := [], dst := a, part := false, cls := .valu, w := fmtWidth f, writes := fun _ _ _ => true,
    val := fun _ vs _ k =>
      let x := lane (fmtWidth f) (vsrc vs 0) k
      let y := lane (fmtWidth f) (vsrc vs 1) k
      let z := lane (fmtWidth f) (vsrc vs 2) k
      if isFloat f then
        laneFloat f false false (((laneFV f x).mul (laneFV f y)).add (if neg then (laneFV f z).neg else laneFV f z))
      else laneInt _ false (x.toInt * y.toInt + (if neg then -z.toInt else z.toInt)) }

/-- R155: element arithmetic on one source. -/
def unary (a b : Fld) (m : Bool) (f : BitVec 3) (st : Bool) (gf : FV → FV) (gi : Int → Int) : VecOp :=
  { vsrcs := [b], srcs := [], dst := a, part := m, cls := .valu, w := fmtWidth f, writes := fun mask _ k => !m || mask.getLsbD k,
    val := fun _ vs _ k =>
      let x := lane (fmtWidth f) (vsrc vs 0) k
      if isFloat f then laneFloat f false st (gf (laneFV f x)) else laneInt _ st (gi x.toInt) }

/-- R155 to R165: the instructions that compute a vector element by element. -/
def vecOp : Instr → Option VecOp
  | .vadd a b c st r m f => some (arith a b c st r m f FV.add (· + ·))
  | .vsub a b c st r m f => some (arith a b c st r m f (fun x y => x.add y.neg) (· - ·))
  | .vmul a b c st r m f => some (arith a b c st r m f FV.mul (· * ·))
  | .vmin a b c n m f => some (vec2 a b c m _ (extreme false n f))
  | .vmax a b c n m f => some (vec2 a b c m _ (extreme true n f))
  | .vfma a b c d f => some (fused false a b c d f)
  | .vfms a b c d f => some (fused true a b c d f)
  | .vabs a b st m f => some (unary a b m f st FV.abs fun i => (i.natAbs : Int))
  | .vneg a b st m f => some (unary a b m f st FV.neg fun i => -i)
  | .vand a b c m f => some (vec2 a b c m (fmtWidth f) (· &&& ·))
  | .vor a b c m f => some (vec2 a b c m (fmtWidth f) (· ||| ·))
  | .vxor a b c m f => some (vec2 a b c m (fmtWidth f) (· ^^^ ·))
  | .vshl a b c m f => some (vec2 a b c m (fmtWidth f) fun x y => BitVec.ofNat _ (x.toNat * 2 ^ (y.toNat % fmtWidth f)))
  | .vshr a b c n m f => some (vec2 a b c m (fmtWidth f) fun x y =>
      if n then BitVec.ofNat _ (x.toNat / 2 ^ (y.toNat % fmtWidth f)) else BitVec.ofInt _ (x.toInt / 2 ^ (y.toNat % fmtWidth f)))
  | .vsel a b c f => some
      { vsrcs := [b, c], srcs := [], dst := a, part := false, cls := .valu, w := fmtWidth f, writes := fun _ _ _ => true,
        val := fun mask vs _ k => lane _ (if mask.getLsbD k then vsrc vs 0 else vsrc vs 1) k }
  | .vcvt a b e p st r f =>
      let ws := fmtWidth e
      let wd := fmtWidth f
      let n := 512 / Nat.max ws wd
      some
      { vsrcs := [b], srcs := [], dst := a, part := decide (wd < ws), cls := .vcvt, w := wd,
        writes := fun _ _ k => !decide (wd < ws) || (decide (p.toNat * n ≤ k) && decide (k < p.toNat * n + n)),
        val := fun _ vs _ k =>
          BitVec.ofNat _ (convert e f r st (lane ws (vsrc vs 0) (if wd < ws then k - p.toNat * n else if ws < wd then p.toNat * n + k else k)).toNat) }
  | .vdqnt a b c p f =>
      let w := fmtWidth f
      some
      { vsrcs := [b, c], srcs := [], dst := a, part := false, cls := .vcvt, w := w, writes := fun _ _ _ => true,
        val := fun _ vs _ k =>
          let scale := decodeF fp32 (roundF fp32 false false ((decodeF fp32 (lane 32 (vsrc vs 1) 0).toNat).mul
            (.fin false ((lane 32 (vsrc vs 1) 1).toNat % 256 + 1) (-8))))
          laneFloat f false false ((nqLevel (lane 4 (vsrc vs 0) (p.toNat * (512 / w) + k)).toNat).mul scale) }
  | .vbcast a b m f => some
      { vsrcs := [], srcs := [b], dst := a, part := m, cls := .vperm, w := fmtWidth f, writes := fun mask _ k => !m || mask.getLsbD k,
        val := fun _ _ xs _ => BitVec.ofNat _ (xsrc xs 0).toNat }
  | .vslide a b c n f =>
      let w := fmtWidth f
      some
      { vsrcs := [b, c], srcs := [], dst := a, part := false, cls := .vperm, w := w, writes := fun _ _ _ => true,
        val := fun _ vs _ k => if k + n.toNat < 512 / w then lane w (vsrc vs 0) (k + n.toNat) else lane w (vsrc vs 1) (k + n.toNat - 512 / w) }
  | .vperm a b c m f => some (
      let w := fmtWidth f
      { vsrcs := [b, c], srcs := [], dst := a, part := m, cls := .vperm, w := w, writes := fun mask _ k => !m || mask.getLsbD k,
        val := fun _ vs _ k => lane w (vsrc vs 0) ((lane w (vsrc vs 1) k).toNat % (512 / w)) })
  | .vins a b c f => some
      { vsrcs := [], srcs := [b, c], dst := a, part := true, cls := .vperm, w := fmtWidth f,
        writes := fun _ xs k => decide (k = (xsrc xs 1).toNat % (512 / fmtWidth f)), val := fun _ _ xs _ => BitVec.ofNat _ (xsrc xs 0).toNat }
  | _ => none

/-- R155, R157: the condition of VCMP on two elements; unordered elements meet `ne` and `un` alone. -/
def compares (k : BitVec 3) (n : Bool) (f : BitVec 3) (x y : BitVec (fmtWidth f)) : Bool :=
  if isFloat f ∧ (laneFV f x = .nan ∨ laneFV f y = .nan) then k.toNat == 1 || decide (6 ≤ k.toNat)
  else
    let lt : Bool := if isFloat f then (laneFV f x).lt (laneFV f y) else if n then decide (x.toNat < y.toNat) else decide (x.toInt < y.toInt)
    let eq : Bool := if isFloat f then (laneFV f x).eq (laneFV f y) else decide (x = y)
    match k.toNat with
    | 0 => eq | 1 => !eq | 2 => lt | 3 => lt || eq | 4 => !lt && !eq | 5 => !lt | _ => false

/-- R166: the active elements of a source, in ascending order. -/
def actives (w : Nat) (m : Bool) (mask : Word) (x : BitVec 512) : List (BitVec w) :=
  ((List.range (512 / w)).filter fun k => !m || mask.getLsbD k).map (lane w x)

/-- R166: the value of a reduction, as the four instructions give it. -/
def reduces : Instr → Option (Fld × Bool × BitVec 3 × (List Nat → Word))
  | .vrsum b m f => some (b, m, f, fun l =>
      if isFloat f then BitVec.ofNat 64 (roundF fp32 false false (FV.sum (l.map (decodeF (fmtOf f)))))
      else BitVec.ofInt 64 ((l.map (intOf (fmtWidth f))).sum))
  | .vrmax b m f => some (b, m, f, fun l =>
      if isFloat f then BitVec.ofNat 64 (l.foldl (fmaxF (fmtOf f)) (infBits (fmtOf f) false true))
      else BitVec.ofInt 64 ((l.map (intOf (fmtWidth f))).foldl max (-(2 ^ (fmtWidth f - 1)))))
  | .vrmin b m f => some (b, m, f, fun l =>
      if isFloat f then BitVec.ofNat 64 (l.foldl (fminF (fmtOf f)) (infBits (fmtOf f) false false))
      else BitVec.ofInt 64 ((l.map (intOf (fmtWidth f))).foldl min (2 ^ (fmtWidth f - 1) - 1)))
  | .vramax b m f => some (b, m, f, fun l =>
      if isFloat f then BitVec.ofNat 64 ((l.map fun x => x % 2 ^ (fmtWidth f - 1)).foldl (fmaxF (fmtOf f)) 0)
      else BitVec.ofNat 64 ((l.map fun x => (intOf (fmtWidth f) x).natAbs).foldl max 0))
  | _ => none

/-- The state in which a vector load has completed: the bytes, least significant first, stand in its destination; the task is heavy (R34). -/
def State.vloads (a : Fld) (bs : List Byte) (s : State) : State :=
  ((writeV a (BitVec.ofNat 512 (leNat bs)) s).onCur fun t => { t with hvy := true }).retired

/-- R150, R163: the active elements of a gather or a scatter, in ascending order, with their addresses. -/
def gathers (w : Nat) (m : Bool) (mask : Word) (base : Word) (vi : BitVec 512) : List (Nat × Nat) :=
  ((List.range (512 / w)).filter fun k => !m || mask.getLsbD k).map fun k => (k, base.toNat + (lane w vi k).toNat * (w / 8))

/-! ### The matrix unit -/

/-- R174: the matrix context is free or the issuing task's, with room in its queue. -/
def State.mxMine (s : State) : Prop :=
  s.core.mx.owner = none ∨ (s.core.mx.owner = some (s.cur.tid, s.cur.origin) ∧ s.core.mx.queue.length < 8)

/-- R174: the context after a claim: accumulators zero of kind F, latches zero of format 3, no queue, no history. -/
def State.mxClaimed (s : State) : State :=
  if s.core.mx.owner = none then s.onCore fun c => { c with mx := { owner := some (s.cur.tid, s.cur.origin) } } else s

/-- R175, R223: a command in the matrix queue, with the next part of the task's open segment; the task is heavy (R34). -/
def State.commanded (fn : MxFn) (acc : Fld) (base : Nat) (bar : Option (BitVec 6)) (phase : BitVec 16) (dst amax : Word) (f : BitVec 3)
    (sat : Bool) (s : State) : State :=
  let m : MxCmd :=
    { fn := fn, acc := acc == 1, base := base, fmta := s.cur.fmta, fmtb := s.cur.fmtb, ptrA := s.cur.sclaPtr.toNat,
      ptrB := s.cur.sclbPtr.toNat, bar := bar, barPhase := phase, dst := dst, amax := amax, fmt := f, sat := sat,
      tid := s.cur.tid, origin := s.cur.origin, stamp := s.cur.stamp.toNat, seg := s.cur.openSeg, part := s.cur.partCtr + 1,
      priv := s.cur.priv, started := false, moved := 0 }
  ((s.onCur fun t => { t with partCtr := t.partCtr + 1, hvy := true }).onCore fun c =>
    { c with mx := { c.mx with queue := c.mx.queue ++ [m] } }).retired

/-- R176: the bytes of a tile. -/
def tileLen (f : BitVec 3) : Nat := 4096 * fmtWidth f / 8

/-- R174: the core with its matrix context changed. -/
def State.onMatrix (f : MxCtx → MxCtx) (s : State) : State := s.onCore fun c => { c with mx := f c.mx }

/-- R173: the accumulator a command names, element by element. -/
def MxCtx.element (m : MxCtx) (a : Bool) (i : Nat) : BitVec 32 := (if a then m.acc1 else m.acc0).getD i 0

/-- R174: a command has completed: it leaves the queue and is counted; the context of an owner that has ended is released with the last. -/
def State.popped (r : List MxCmd) (s : State) : State :=
  if r = [] ∧ s.core.mx.owner ≠ none ∧ ∀ x ∈ s.tasks, s.core.mx.owner ≠ some (x.tid, x.origin) then s.onMatrix fun _ => {}
  else s.onMatrix fun c => { c with queue := r, done := c.done + 1 }

/-! ### Function registers -/

/-- R199, R200: the coefficients that a function register of the issuing task holds. -/
def State.coefs (s : State) (f : Fld) : List (BitVec 32) :=
  (List.range (s.cur.freg f).n.toNat).map fun i => tabGet s.core.pool 0 (8 * (s.cur.freg f).p.toNat + i)

/-- R207, R205, R401: a function source that an instruction may read: not empty, its granules present, no slot of it uncorrectable. -/
def State.full (s : State) (f : Fld) : Prop := (s.cur.freg f).n ≠ 0 ∧ (s.cur.freg f).absent = 0 ∧
  ∀ k ∈ s.core.poolPoison, ¬ (8 * (s.cur.freg f).p.toNat ≤ k ∧ k < 8 * (s.cur.freg f).p.toNat + (s.cur.freg f).n.toNat)

/-- R201 to R204: what an instruction whose result is a function register does: the domain and the coefficients of the result; the
sources marked `.lr` become empty; FX is kept or set; the vector unit makes the task heavy (R34). Where the pool has a gap long enough no
other slot of it changes and every other register of the task is as it was. -/
structure State.Computes (s : State) (cls : Charge) (srcs : List Fld) (dst : Fld) (a b : BitVec 32) (cs : List Nat) (fx : Bool)
    (lrs : List Fld) (t : State) : Prop where
  domain : (t.cur.freg dst).a = a ∧ (t.cur.freg dst).b = b
  length : (t.cur.freg dst).n.toNat = cs.length
  present : (t.cur.freg dst).absent = 0
  coefs : t.coefs dst = cs.map (BitVec.ofNat 32)
  marked : ∀ f ∈ lrs, fIdx f ≠ fIdx dst → (t.cur.freg f).n = 0
  fx : t.cur.fx = (s.cur.fx || fx)
  heavy : t.cur.hvy = true
  pc : t.cur.pc = s.cur.pc + 4
  place : ∀ p, gapFrom ((cs.length + 7) / 8) 0 s.core.runs = some p →
    (∀ k, ¬ (8 * p ≤ k ∧ k < 8 * p + cs.length) → tabGet t.core.pool 0 k = tabGet s.core.pool 0 k) ∧
    ∀ f, fIdx f ≠ fIdx dst → (∀ g ∈ lrs, fIdx f ≠ fIdx g) → t.cur.freg f = s.cur.freg f
  energy : t.tile = (fCharge cls srcs cs.length s).tile
  registers : t.cur.w = s.cur.w ∧ t.cur.v = s.cur.v ∧ t.cur.streams = s.cur.streams ∧ t.cur.qs = s.cur.qs
  rest : t.home = s.home ∧ t.launch = s.launch ∧ t.host = s.host ∧ t.saved = s.saved ∧ t.core.tcm = s.core.tcm ∧ t.core.mx = s.core.mx ∧
    t.core.sealed = s.core.sealed ∧ t.core.vcache = s.core.vcache ∧ t.core.eng = s.core.eng

/-- R203: the result truncated, with its length and FX. -/
def truncated (t : Task) (cs : List Nat) : List Nat × Bool :=
  let len := truncLen t.ftol cs
  (cs.take (Nat.min len t.fmaxn.toNat), decide (t.fmaxn.toNat < len))

/-- FP32 values and their rounding (R133). -/
def value (x : BitVec 32) : FV := decodeF fp32 x.toNat

/-- R133: a value rounded to the nearest FP32 pattern. -/
def nearest (x : FV) : Nat := roundF fp32 false false x

/-- The fields that carry the mark `.lr`. -/
def lastReads (f : Fld) (on : Bool) : List Fld := if on then [f] else []

/-! ### Issue -/

/-- R30 to R32, R91: the core issues; the context in `cur` is the one it chooses, and nothing comes before its next instruction. -/
def State.proceeds (late : List Nat) (s : State) : Prop :=
  brambleRuns s = false ∧ coreStands s = false ∧ s.core.dbgStep = false ∧ settle s = none ∧ chosen late s = some 0 ∧ boundaryStep (running s) = none ∧
    s.cur.shadow = false

end Sys2Proof.Machine
end

