-- ==== Sys2Proof/Certificates/Slice0/Obligations.lean ====
section
/-! DEFINITION. The statements for the provers, in the vocabulary of `Safety`. -/

open Sys2Proof Sys2Proof.Machine

/-- R85 to R90: every well-formed instruction is read back from its word, with every operand at every value its encoding admits; and a
word that decodes is the word of the instruction it decodes to, which is well-formed. -/
def Obligations.DecodeEncode : Prop :=
  (∀ i : Instr, i.isStep = false → i.wf = true → decode (encode i) = .ok i) ∧
  ∀ (w : IWord) (i : Instr), decode w = .ok i → encode i = w ∧ i.wf = true ∧ i.isStep = false

/-- R65, R79, R85 to R90: words written out field by field: format RI, format B, format R with a modifier, and words that are ILLEGAL. -/
def Obligations.EncodingSamples : Prop :=
  decode (0b000011_00011_00000_0000000000010000 : BitVec 32) = .ok (.addi 3 0 16) ∧
  decode (0b000011_00011_00011_1111111111111111 : BitVec 32) = .ok (.addi 3 3 (-1)) ∧
  decode (0b001111_00011_00000_1111111111111111 : BitVec 32) = .ok (.bne 3 0 (-1)) ∧
  decode (0b001110_00001_00010_1111111111111000 : BitVec 32) = .ok (.beq 1 2 (-8)) ∧
  decode (0b000001_00001_00010_00011_000000_00000 : BitVec 32) = .ok (.add 1 2 3) ∧
  (∀ w : IWord, (w.toNat / 2 ^ 26 = 0 ∨ 0x31 ≤ w.toNat / 2 ^ 26) → ∀ i, decode w ≠ .ok i) ∧
  (∀ i, decode 0x04221801 ≠ .ok i) ∧ (∀ i, decode 0x042202C0 ≠ .ok i) ∧
  ∀ w : IWord, w.toNat / 2 ^ 26 = 0x2E → w.extractLsb' 21 5 = 9 → ∀ i, decode w ≠ .ok i

/-- Every step of the machine keeps its byte memories in canonical form. -/
def Obligations.StepKeepsMemory : Prop :=
 ∀ s t : State, s.memOk = true → step s = .next t → t.memOk = true

/-- R6, R92 to R94, R258, R371, R383, R431: what reset leaves, where the specification gives it; and the memories are in canonical form.
-/
def Obligations.ResetState : Prop :=
  State.reset.memOk = true ∧
  (∀ n ∈ [0x003, 0x009, 0x101, 0x102, 0x103, 0x104, 0x105, 0x200, 0x201, 0x302, 0x303, 0x402, 0x500, 0x501, 0x600, 0x601, 0x700, 0x710, 0x71F],
    csrRead (BitVec.ofNat 12 n) State.reset = 0) ∧
  csrRead 0x005 State.reset = 1024 ∧ csrRead 0x006 State.reset = 512 ∧ csrRead 0x007 State.reset = 65536 ∧
  csrRead 0x008 State.reset = 16384 ∧ csrRead 0x300 State.reset = 3 ∧ csrRead 0x301 State.reset = 3 ∧ csrRead 0x304 State.reset = 1 ∧
  csrRead 0x400 State.reset = 0x33800000 ∧ csrRead 0x401 State.reset = 256 ∧
  (∀ k : Fin 64, State.reset.tile.bars[k] = {}) ∧
  (∀ v : BitVec 6, let r := State.reset.vfReg v
    r.vfctl = 0 ∧ r.ctxbase = 0 ∧ r.ecnt = 0 ∧ r.equota = 0xFFFFFFFFFFFFFFFF ∧ r.code = 0 ∧ r.cause = 0 ∧ r.saving = false ∧
    r.stopped = false ∧ r.epages = 0) ∧
  (∀ q, let r := tabGet State.reset.host.wqs {} q; r.qbase = 0 ∧ r.qctl = 0 ∧ r.tail = 0 ∧ r.head = 0)

/-- R10, R90, R110: a step is the decoded instruction: the word at the PC of the chosen context is read from memory through the
translation, its first byte the least significant; what it decodes to is executed, ILLEGAL where it decodes to nothing; the break bits of
its line are read where the core does not hold the line (R419); and R427 logs what changed. A turn of the environment executes the step
that it names. -/
def Obligations.StepRunsDecoded : Prop :=
  (∀ (s u : State) (late : List Nat) (ts : List Turn) (e : Tlb) (pa : Nat),
    ((s.sched = .core :: ts ∧ late = []) ∨ s.sched = .late late :: ts ∨ (s.sched = [] ∧ pickInternal s = none ∧ late = [] ∧ ts = [])) →
    let r := { s with sched := ts }
    r.proceeds late → translate .fetch r.cur.pc.toNat (running r) = .ok (pa, e, u) →
    pa < 2 ^ 42 → lostRead u pa = false → refusedAt u u.core.vf pa = false → anyPoison u.home.poison pa 4 = false →
    let w : IWord := memGet u.home.mem (pa + 3) ++ memGet u.home.mem (pa + 2) ++ memGet u.home.mem (pa + 1) ++ memGet u.home.mem pa
    let v := (fillLine r.cur.pc.toNat u).onCore fun c => { c with dst := destReg w, vdst := destVec w }
    (∀ i, decode w = .ok i → step s = logged s (exec i v)) ∧
    ((∀ i, decode w ≠ .ok i) → step s = logged s (exec (.unassignedEncoding w) v))) ∧
  ∀ (s : State) (i : Instr) (ts : List Turn), s.sched = .event i :: ts → step s = logged s (exec i { s with sched := ts })

/-- R30: of the contexts that may issue, the core takes the one of least activation key, of equal keys the one in the lower slot; one that
yields (R119) only when no other may issue. -/
def Obligations.ContextChosen : Prop :=
  ∀ (s : State) (k : Nat), errorAt s = none → shadowAt s = none → chosen [] s = some k →
    k ≤ s.rest.length ∧ issuable (bring k s) = true ∧
    ∀ j ≤ s.rest.length, issuable (bring j s) = true →
      let a := (bring k s).cur
      let b := (bring j s).cur
      (a.wait = some .yielded → b.wait = some .yielded) ∧
      ((a.wait = some .yielded ↔ b.wait = some .yielded) → keyLt b.key a.key = false ∧
        (b.key = a.key → ∀ x y, a.slot = some x → b.slot = some y → x ≤ y))

/-- R80 to R83, R266, R335: what reading a field gives: w0 reads 0; a stream pops its next element, zero-extended, or traps with STREAM
where it is unbound, an output, or exhausted; q0 pops the payload of the activation, in order, and traps with QUEUE after its last word;
q2 to q7 pop the words of their binding in the order of their arrival, or trap with QUEUE where it is unbound or outbound. A vector field
pops a strip, padded with FILL. Fields are read in their order, and an instruction takes all of its operands or none. R80, R81, R266,
R335: what writing a field does: w0 discards; a bound output stream takes an element at its position; q1 appends to the outgoing message,
of at most 8 words; an outbound queue register holds at most 8 words; the wrong direction traps. -/
def Obligations.FieldReads : Prop :=
  ((∀ (f : Fld) (s : State), f < 16 → wBusy s.cur f = false → takeS [f] [] s = .ok ([if wIdx f = 0 then 0 else s.rw f], s)) ∧
   (∀ (f : Fld) (s : State), 16 ≤ f → f < 24 →
     let trap (d : BitVec 8) : Res (List Word × State) := .error (.trap 0x06 d (f.setWidth 64) s)
     (strmOf s.cur f = none → takeS [f] [] s = trap 5) ∧
     ∀ st, strmOf s.cur f = some st →
       (st.pat.out = true → takeS [f] [] s = trap 4) ∧
       (st.pat.out = false → st.pat.len ≤ st.pos → takeS [f] [] s = trap 3) ∧
       (st.pat.out = false → st.pos < st.pat.len →
         (∀ v l, st.fetched = .val v :: l →
           takeS [f] [] s = .ok ([v], s.onCur (setStrm f (some { st with pos := st.pos + 1, fetched := l })))) ∧
         (st.fetched = [] → takeS [f] [] s = .error (.wait .waitMem (.operand [f] [] [] []) s)) ∧
         (∀ (vs : List Word) (l : List Elem), st.fetched = vs.map .val ++ l →
           let n := 64 / 2 ^ st.pat.sz
           vs.length = Nat.min n (st.pat.len - st.pos) →
           takeV [f] [] none [] s = .ok ([BitVec.ofNat 512 (packBits (8 * 2 ^ st.pat.sz)
               (vs.map (·.toNat) ++ List.replicate (n - vs.length) st.pat.fill.toNat))], [],
             s.onCur (setStrm f (some { st with pos := st.pos + vs.length, fetched := l })))))) ∧
   (∀ (s : State), (∀ x l, s.cur.q0 = x :: l → takeS [24] [] s = .ok ([x], s.onCur fun t => { t with q0 := l })) ∧
     (s.cur.q0 = [] → takeS [24] [] s = .error (.trap 0x05 0 24 s))) ∧
   (∀ (f : Fld) (s : State), 26 ≤ f →
     (queueOf s.cur f = none → takeS [f] [] s = .error (.trap 0x05 0 (f.setWidth 64) s)) ∧
     ∀ q, queueOf s.cur f = some q →
       (q.outb = true → takeS [f] [] s = .error (.trap 0x05 0 (f.setWidth 64) s)) ∧
       (q.outb = false → q.cls = none → ∀ p x l, s.core.chan[q.ch.toNat] = (p, x) :: l →
         takeS [f] [] s = .ok ([x], (s.onCore fun c => { c with chan := c.chan.set q.ch.toNat l }).onHome
           fun h => { h with out := h.out ++ [.credit p q.ch 1] })) ∧
       (q.outb = false → q.cls = none → s.core.chan[q.ch.toNat] = [] →
         takeS [f] [] s = .error (.wait .waitMsg (.operand [f] [] [] []) s)) ∧
       (q.outb = false → ∀ k x l, q.cls = some k → q.words = x :: l →
         ∃ u, takeS [f] [] s = .ok ([x], u) ∧ ∃ q', queueOf u.cur f = some q' ∧ q'.words = l)) ∧
   (∀ (b c : Fld) (s u v : State) (x y : Word), takeS [b] [] s = .ok ([x], u) → takeS [c] [] u = .ok ([y], v) →
     takeS [b, c] [] s = .ok ([x, y], v)) ∧
   ∀ (srcs dsts : List Fld) (s : State) (e : Stop), takeS srcs dsts s = .error e →
     (∃ c d v, e = .trap c d v s) ∨ (∃ f l vs, e = .xrange f l vs s) ∨ (∃ st w, e = .wait st w s) ∨ ∃ d v a n, e = .err d v a { s with fresh := n }) ∧
  ((∀ (f : Fld) (s : State) (x : Word), f < 16 → wBusy s.cur f = false →
     takeS [] [f] s = .ok ([], s) ∧ ∀ k, (writeS f x s).getW k = if k = wIdx f ∧ k ≠ 0 then x else s.getW k) ∧
   (∀ (f : Fld) (s : State) (x : Word), 16 ≤ f → f < 24 → wBusy s.cur f = false →
     let trap (d : BitVec 8) : Res (List Word × State) := .error (.trap 0x06 d (f.setWidth 64) s)
     (strmOf s.cur f = none → takeS [] [f] s = trap 5) ∧
     ∀ st, strmOf s.cur f = some st →
       (st.pat.out = false → takeS [] [f] s = trap 4) ∧
       (st.pat.out = true → st.bad = none → st.pat.len ≤ st.pos → takeS [] [f] s = trap 3) ∧
       ∃ st', strmOf (writeS f x s).cur f = some st' ∧ st'.pos = st.pos + 1 ∧ st'.pat = st.pat ∧
         st'.pushed = if elemInb st.pat st.pos then st.pushed ++ [⟨st.pos, x, s.cur.recCtr⟩] else st.pushed) ∧
   (∀ (s : State) (x : Word), wBusy s.cur 25 = false →
     (s.cur.q1.length < 8 → takeS [] [25] s = .ok ([], s)) ∧
     (8 ≤ s.cur.q1.length → takeS [] [25] s = .error (.trap 0x05 0 25 s)) ∧
     writeS 25 x s = s.onCur fun t => { t with q1 := t.q1 ++ [x] }) ∧
   ∀ (f : Fld) (s : State) (x : Word), 26 ≤ f → wBusy s.cur f = false →
     (queueOf s.cur f = none → takeS [] [f] s = .error (.trap 0x05 0 (f.setWidth 64) s)) ∧
     ∀ q, queueOf s.cur f = some q →
       (q.outb = false → takeS [] [f] s = .error (.trap 0x05 0 (f.setWidth 64) s)) ∧
       (q.outb = true → q.words.length < 8 → takeS [] [f] s = .ok ([], s)) ∧
       (q.outb = true → 8 ≤ q.words.length → takeS [] [f] s = .error (.wait .waitMsg (.operand [] [f] [] []) s)) ∧
       queueOf (writeS f x s).cur f = some { q with words := q.words ++ [x] })

/-- R101 to R105: the 43 instructions of register arithmetic, their operands general registers. R81, R101 to R105: the same instructions
over every kind of field: sources taken in their order, the destination written last. -/
def Obligations.RegisterArithmetic : Prop :=
  (∀ (i : Instr) (r : RegOp) (s : State), regOp i = some r → (∀ f ∈ r.dst :: r.srcs, f < 16 ∧ wBusy s.cur f = false) → s.issues →
     ∃ t, exec i s = .next t ∧
       t.getW (wIdx r.dst) = (if wIdx r.dst = 0 then 0 else r.val s.cur.pc.toNat (r.srcs.map s.rw)) ∧
       t.cur.pc = s.cur.pc + 4 ∧ s.charged t r.cls.nominal ∧ Frame [wIdx r.dst] s t) ∧
  (∀ (i : Instr) (r : RegOp) (s u : State) (xs : List Word), regOp i = some r → takeS r.srcs [r.dst] s = .ok (xs, u) →
     exec i s = .next (retire (advance (writeS r.dst (r.val s.cur.pc.toNat xs) (charge r.cls u)))))

/-- R107: a branch, taken or not, to an address of the address space. R107, R122: a taken branch whose target lies outside the address
space traps with ACCESS and the target. -/
def Obligations.Branches : Prop :=
  (∀ (i : Instr) (b : Branch) (s u : State) (x y : Word), branchOp i = some b → takeS [b.a, b.b] [] s = .ok ([x, y], u) → u.issues →
     let target : Int := (s.cur.pc.toNat : Int) + 4 * (if b.cond x y then b.off else 1)
     (0 ≤ target ∧ target < 2 ^ 56 ∨ ¬ b.cond x y) →
     ∃ t, exec i s = .next t ∧ t.cur.pc = BitVec.ofInt 56 target ∧ s.charged t 1400 ∧ Frame [] u t) ∧
  (∀ (i : Instr) (b : Branch) (s u : State) (x y : Word), branchOp i = some b → takeS [b.a, b.b] [] s = .ok ([x, y], u) →
     b.cond x y → ((s.cur.pc.toNat : Int) + 4 * b.off < 0 ∨ 2 ^ 56 ≤ (s.cur.pc.toNat : Int) + 4 * b.off) →
     exec i s = .next (takeTrap 0x04 0 false (BitVec.ofInt 64 ((s.cur.pc.toNat : Int) + 4 * b.off)) (charge .br s)))

/-- R108: JAL. R107, R108, R122: a JAL whose target lies outside the address space traps with ACCESS and the target, and writes no link.
R109: JALR, from the old value of its base; its destination is any field it may write (R81). -/
def Obligations.Jumps : Prop :=
  (∀ (o : BitVec 26) (s : State), s.issues → wBusy s.cur 15 = false →
     0 ≤ (s.cur.pc.toNat : Int) + 4 * o.toInt → (s.cur.pc.toNat : Int) + 4 * o.toInt < 2 ^ 56 →
     ∃ t, exec (.jal o) s = .next t ∧ t.getW 15 = BitVec.ofNat 64 (s.cur.pc.toNat + 4) ∧
       t.cur.pc = BitVec.ofInt 56 ((s.cur.pc.toNat : Int) + 4 * o.toInt) ∧ s.charged t 1400 ∧ Frame [15] s t) ∧
  (∀ (o : BitVec 26) (s : State), wBusy s.cur 15 = false →
     let target : Int := (s.cur.pc.toNat : Int) + 4 * o.toInt
     (target < 0 ∨ 2 ^ 56 ≤ target) →
     exec (.jal o) s = .next (takeTrap 0x04 0 false (BitVec.ofInt 64 target) (charge .br s))) ∧
  (∀ (a b : Fld) (i : BitVec 14) (s : State) (x : Word), takeS [b] [a] s = .ok ([x], s) →
     let target : Int := (x.toNat : Int) + 4 * i.toInt
     let link := BitVec.ofNat 64 (s.cur.pc.toNat + 4)
     (target % 4 = 0 → 0 ≤ target → target < 2 ^ 56 →
       exec (.jalr a b i) s =
         .next (retire ((charge .br s).onCur fun t => { Task.put a link t with pc := BitVec.ofInt 56 target })) ∧
       (a < 16 → s.issues →
         ∃ t, exec (.jalr a b i) s = .next t ∧ t.getW (wIdx a) = (if wIdx a = 0 then 0 else link) ∧
           t.cur.pc = BitVec.ofInt 56 target ∧ s.charged t 1400 ∧ Frame [wIdx a] s t)) ∧
     (target % 4 ≠ 0 → exec (.jalr a b i) s = .next (takeTrap 0x03 0 false (BitVec.ofInt 64 target) (charge .br s))) ∧
     (target % 4 = 0 → (target < 0 ∨ 2 ^ 56 ≤ target) →
       exec (.jalr a b i) s = .next (takeTrap 0x04 0 false (BitVec.ofInt 64 target) (charge .br s))))

/-- The frame of every instruction whose own effect is a change of its context (R99, R119, R202, R398). -/
def Obligations.CompletionFrame : Prop :=
  ∀ (c : Charge) (f : Task → Task) (s : State), s.starts →
    f { s.cur with paid := true } = { f s.cur with paid := true } → (f s.cur).st = .running → (f s.cur).wait = none → (f s.cur).wp = s.cur.wp →
    (s.completes c f).cur.pc = (f s.cur).pc + 4 ∧ s.charged (s.completes c f) c.nominal ∧ Frame [] (s.onCur f) (s.completes c f)

/-- R111: LDP sign-extends and LDPX zero-extends the bytes that TCM holds. R111, R112, R378: where LDP, LDPX and STP trap: misaligned;
outside TCM; a store of a task below service privilege to the protected parts, or of any task to word 0 of a live workspace. No operand is
taken (R81). -/
def Obligations.PrivateLoads : Prop :=
  (∀ (a b : Fld) (sz : BitVec 2) (o : BitVec 14) (s : State) (x : Word), s.starts → takeS [b] [a] s = .ok ([x], s) →
     let n := 2 ^ sz.toNat
     let ea := address x o.toInt n
     s.inTcm b ea n → tcmBusy s ea.toNat n = false → anyPoison s.core.tcmPoison ea.toNat n = false →
     exec (.ldp a b sz o) s =
       .next (s.completes .tcm (Task.put a ((BitVec.ofNat (8 * n) (leNat (tcmBytes s ea.toNat n))).signExtend 64))) ∧
     exec (.ldpx a b sz o) s = .next (s.completes .tcm (Task.put a (BitVec.ofNat 64 (leNat (tcmBytes s ea.toNat n)))))) ∧
  (∀ (a b : Fld) (sz : BitVec 2) (o : BitVec 14) (s u : State) (x d : Word), s.starts →
     let n := 2 ^ sz.toNat
     let ea := address x o.toInt n
     let trap (c : BitVec 6) := Host.Outcome.next (takeTrap c 0 false (BitVec.ofInt 64 ea) (chargeOnce .tcm s))
     (takeS [b] [a] s = .ok ([x], s) →
       (ea % (n : Int) ≠ 0 → exec (.ldp a b sz o) s = trap 0x03 ∧ exec (.ldpx a b sz o) s = trap 0x03) ∧
       (ea % (n : Int) = 0 → isSpill s b ea = false → (ea < 0 ∨ 131072 < ea + n) →
         exec (.ldp a b sz o) s = trap 0x04 ∧ exec (.ldpx a b sz o) s = trap 0x04)) ∧
     (takeS [b, a] [] s = .ok ([x, d], u) →
       (ea % (n : Int) ≠ 0 → exec (.stp a b sz o) s = trap 0x03) ∧
       (ea % (n : Int) = 0 → isSpill s b ea = false → (ea < 0 ∨ 131072 < ea + n) → exec (.stp a b sz o) s = trap 0x04) ∧
       (s.inTcm b ea n → (storeRefused112 s s.cur.priv ea.toNat n = true ∨ storeRefused26 s ea.toNat n = true) →
         exec (.stp a b sz o) s = trap 0x04)))

/-- R111, R112, R401: STP writes the low bytes of its source at the effective address, least significant first, and nothing else. -/
def Obligations.PrivateStore : Prop :=
  ∀ (a b : Fld) (sz : BitVec 2) (o : BitVec 14) (s u : State) (x d : Word), takeS [b, a] [] s = .ok ([x, d], u) →
    u.starts → u.memOk = true → u.cur.slot.isSome = true →
    let n := 2 ^ sz.toNat
    let ea := address x o.toInt n
    u.inTcm b ea n → storeRefused112 u u.cur.priv ea.toNat n = false → storeRefused26 u ea.toNat n = false →
    tcmBusyW u ea.toNat n = false →
    ∃ t, exec (.stp a b sz o) s = .next t ∧ u.Stores 2500 false [(ea.toNat, leBytes n d.toNat)] t

/-- R378: an LDP, LDPX or STP whose base is w14 and whose aligned address falls in the 64 KiB below the frame's spill stack traps with
SPILLOVF where there is no spill overflow area, and else is performed in place at its address of that area. -/
def Obligations.SpillOverflow : Prop :=
  ∀ (a : Fld) (sz : BitVec 2) (o : BitVec 14) (s : State) (x d : Word), s.starts →
    let n := 2 ^ sz.toNat
    let ea := address x o.toInt n
    let bot : Int := (s.spillBot s.cur.frame : Int)
    let va := s.spillovf.toNat * 64 + (s.core.id.toNat * 64 + s.cur.frame) * 2 ^ 16 + (ea - bot + 65536).toNat
    let z := chargeOnce .tcm s
    ea % (n : Int) = 0 → bot - 65536 ≤ ea → ea < bot →
    (takeS [14] [a] s = .ok ([x], s) →
      (s.spillovf = 0 → exec (.ldp a 14 sz o) s = .next (takeTrap 0x11 0 false (BitVec.ofInt 64 ea) z) ∧
        exec (.ldpx a 14 sz o) s = .next (takeTrap 0x11 0 false (BitVec.ofInt 64 ea) z)) ∧
      (s.spillovf ≠ 0 → ∀ pa e u, translateAt .load 0 va z = .ok (pa, e, u) → lostRead u pa = false →
        refusedAt u u.core.vf pa = false → anyPoison u.home.poison pa n = false →
        let v := leNat (memGetN u.home.mem pa n)
        exec (.ldp a 14 sz o) s = .next (retire (advance (writeS a ((BitVec.ofNat (8 * n) v).signExtend 64) (chargeAccess pa n u)))) ∧
        exec (.ldpx a 14 sz o) s = .next (retire (advance (writeS a (BitVec.ofNat 64 v) (chargeAccess pa n u)))))) ∧
    (takeS [14, a] [] s = .ok ([x, d], s) →
      (s.spillovf = 0 → exec (.stp a 14 sz o) s = .next (takeTrap 0x11 0 false (BitVec.ofInt 64 ea) z)) ∧
      (s.spillovf ≠ 0 → ∀ pa e u, translateAt .store 0 va z = .ok (pa, e, u) → lostTo u pa = false → refusedAt u u.core.vf pa = false →
        exec (.stp a 14 sz o) s = .next (retire (advance ((chargeAccess pa n u).onHome fun h => homePut h pa (leBytes n d.toNat))))))

/-- R225, R242, R244, R245: LD and LDX: the task's own records first, then the view cache where the load may use it, else the home, whose
reply writes the destination. A line that is absent is filled where neither `.na` nor the fresh scope forbids it. R225, R231, R242, R443:
a load that its task has issued reaches its home, in its turn: the bytes that stand there come back, and fill its line or refresh them in
a line that is present. LOAD_REPLY then writes the destination, a register, a stream or a queue, from the task's own bytes over those of
the home. -/
def Obligations.SharedLoads : Prop :=
  (∀ (sext : Bool) (a b : Fld) (sz : BitVec 2) (p : BitVec 3) (na : Bool) (o : BitVec 10) (s u : State) (x : Word) (e : Tlb) (pa : Nat),
     s.starts → scopeOk s p = true → takeS [b] [a] s = .ok ([x], s) → aqPending s.cur = false → badPush s.cur = none →
     sharedPushes s.cur = [] →
     let n := 2 ^ sz.toNat
     s.Reaches .load p (address x o.toInt n) n u e pa →
     let run := exec (if sext then .ld a b sz p na o else .ldx a b sz p na o) s
     let own := ownBytes u pa n
     let inScope := freshHome u pa p
     let line := u.core.vcache.find? fun l => l.line == pa / 64
     (own.all (·.isSome) = true →
       run = .next (u.completes .smem (Task.put a (extend sext n (own.map fun x => x.getD 0))))) ∧
     (own.all (·.isSome) = false →
       (∀ l, line = some l → na = false → inScope = false → wordInFlight u.cur pa n = false → l.poison.contains (pa / 8) = false →
         run = .next ((u.onCore fun c => { c with vcache := vcTouch (pa / 64) c.vcache }).completes .smem
           (Task.put a (extend sext n ((own.zip ((l.data.drop (pa % 64)).take n)).map fun x => x.1.getD x.2))))) ∧
       ((line = none ∨ na = true ∨ inScope = true ∨ wordInFlight u.cur pa n = true) → u.cur.loads.length < 16 →
         run = .next ((u.completes .smem fun t =>
           { t with loads := t.loads ++ [{ vec := false, dst := a, sz := n, sext := sext, pa := pa, own := own, fill := !na && !inScope,
                                           reply := none, poisoned := false, num := t.reqNum, marks := t.marks }],
                    reqNum := t.reqNum + 1 }).paying (chargeAccess pa n (charge .smem u)))))) ∧
  (∀ (frame k : Nat) (s : State) (l : LoadPend) (bs : List Byte), s.cur.loads[k]? = some l → s.cur.frame = frame → s.cur.shadow = false →
     (l.reply = none → loadMay k s.cur = true → secondary s = false → lostRead s l.pa = false → refusedAt s s.core.vf l.pa = false →
       anyPoison s.home.poison l.pa l.sz = false →
       exec (.homeLoad (.own frame k)) s = .next ((s.onCur fun t =>
         { t with loads := t.loads.modify k fun l => { l with reply := some (some (memGetN s.home.mem l.pa l.sz)) } }).onCore fun c =>
           { c with vcache :=
               if l.fill then vcFill (homeLine s.home (l.pa / 64)) c.vcache
               else vcTouch (l.pa / 64) (c.vcache.map fun x => if x.line = l.pa / 64 then
                 { x with data := putLine (l.pa % 64) (memGetN s.home.mem l.pa l.sz) x.data, poison := poisonAfter x.poison l.pa l.sz }
                 else x) })) ∧
     (l.reply = some (some bs) → s.cur.st ≠ .ended → l.vec = false → l.sz ∈ [1, 2, 4, 8] →
       exec (.loadReply frame k) s = .next (s.onCur fun t =>
         (t.put l.dst (extend l.sext l.sz ((l.own.zip bs).map fun x => x.1.getD x.2))).loaded k)) ∧
     (l.reply = some (some bs) → s.cur.st ≠ .ended → l.vec = true →
       exec (.loadReply frame k) s = .next ((writeV l.dst (bytesV ((l.own.zip bs).map fun x => x.1.getD x.2)) s).onCur fun t => t.loaded k)))

/-- R223, R234, R244: ST appends one record to the open segment: physical address, data, position; the floor rises to its scope. R226,
R235, R238, R244, R246: REL seals: the records of the open segment become a sealed segment with its number, published at the greater of
its scope and its floor; the next segment opens with the core's next number; the sends held go to the network; the activation escapes; a
fence marker is placed for the seal and one for the release (R333). -/
def Obligations.SharedStores : Prop :=
  (∀ (a b : Fld) (sz : BitVec 2) (p : BitVec 3) (o : BitVec 10) (s u v : State) (x d : Word) (e : Tlb) (pa : Nat),
     u.starts → scopeOk s p = true → takeS [b, a] [] s = .ok ([x, d], u) →
     let n := 2 ^ sz.toNat
     u.Reaches .store p (address x o.toInt n) n v e pa →
     16 + (if (v.cur.recs.filter fun r => !r.ovf).isEmpty then 32 else 0) ≤ logFree v →
     exec (.st a b sz p o) s = .next (v.completes .smem fun t =>
       { t with recs := t.recs ++ [{ pa := pa, data := leBytes n d.toNat, idx := t.recCtr, marked := false, ovf := false }],
                floor := if t.floor < p then p else t.floor, recCtr := t.recCtr + 1 })) ∧
  (∀ (p : BitVec 3) (s : State), s.starts → scopeOk s p = true → badPush s.cur = none → sharedPushes s.cur = [] →
     exec (.rel p) s = .next ((s.paid .ord).published p).retired ∧
     (s.core.segCtr < 2 ^ 40 → paired s = false →
       let t := s.published p
       t.core.sealed = s.core.sealed ++ (if s.cur.recs = [] then [] else
         [{ num := s.cur.openSeg, stamp := s.cur.stamp.toNat, tid := s.cur.tid, origin := s.cur.origin,
            scope := if p < s.cur.floor then s.cur.floor else p, bytes := recBytes s.cur.recs, recs := s.cur.recs, shipped := false,
            parts := [], upTo := s.cur.reqNum, lostIdx := [] }]) ∧
       t.cur = { s.cur with openSeg := s.core.segCtr, recs := [], recCtr := 0, floor := 0, partCtr := 0, held := [], esc := true,
                            sentOut := t.cur.sentOut, marks := if s.cur.held = [] then s.cur.marks + 1 else s.cur.marks + 2 } ∧
       t.core = { s.core with sealed := t.core.sealed, segCtr := s.core.segCtr + 1 } ∧
       t.tile = { s.tile with inject := s.tile.inject ++ s.cur.held, injectBy := t.tile.injectBy, injectMarks := t.tile.injectMarks } ∧
       t.rest = s.rest ∧ t.home = s.home ∧ t.launch = s.launch ∧ t.host = s.host ∧ t.fresh = s.fresh))

/-- R230, R252, R253: AMO: it escapes, or seals with `.rl`; its line leaves the view cache, with `.aq` every line; the request is on its
way to its home, with `.rl` behind the acknowledgement of the segments sealed, and one of a paired activation is compared first (R410).
R230, R253: an atomic at its home: its word takes the new value of the table, its tag and every other byte stay, and the old value is what
returns; that of a paired activation is performed by the primary alone, once compared (R410). A request lost on the way or refused leaves
memory, counts as a failure and returns 0; one that meets poison returns none (R241, R251, R401). R242, R253: AMO_RETURN writes the old
value and drops the line of its word once more, with `.aq` every line. -/
def Obligations.Atomics : Prop :=
  (∀ (a b c : Fld) (op : BitVec 4) (p : BitVec 3) (s32 rl aq : Bool) (s u v : State) (x d : Word) (es : List Word) (e : Tlb) (pa : Nat),
     takeS (if op = 9 then [b, c, a] else [b, c]) [a] s = .ok (x :: d :: es, u) → u.starts → scopeOk s p = true →
     (rl = true → badPush u.cur = none ∧ sharedPushes u.cur = []) →
     let n := if s32 then 4 else 8
     u.Reaches .amo p (x.toNat : Int) n v e pa →
     let w := chargeAccess pa n (v.paid .amo)
     let y := if rl then w.published p else (releaseHeld w).onCur fun t => { t with esc := true }
     let z := pairCur (.amo y.cur.tid y.cur.origin y.cur.reqNum) (hashedOp (.amo a b c op p s32 rl aq) x d) y
     exec (.amo a b c op p s32 rl aq) s = .next (((z.onCore fun k =>
         { k with vcache := if aq then [] else k.vcache.filter fun l => l.line ≠ pa / 64 }).onCur fun t =>
         { t with amos := t.amos ++ [{ dst := a, req := { op := op, s32 := s32, pa := pa, v := d, e := es.headD 0 },
                                       after := if rl then some v.cur.openSeg else none, aq := aq, ret := none, failed := false,
                                       poisoned := false, num := t.reqNum, marks := t.marks }], reqNum := t.reqNum + 1 }).retired)) ∧
  (∀ (frame k : Nat) (s : State) (a : AmoPend), s.memOk = true →
     amoWaits frame k s.cur = true → s.cur.amos[k]? = some a → amoMay s s.cur k a = true → a.req.op < 11 →
     let n := if a.req.s32 then 4 else 8
     let old := BitVec.ofNat (8 * n) (leNat (memGetN s.home.mem a.req.pa n))
     let run := exec (.homeAmo (.own frame k)) s
     let what : PairWhat := .amo s.cur.tid s.cur.origin a.num
     let turned (f : AmoPend → AmoPend) (t : Task) : Task := { t with amos := t.amos.modify k f }
     (lostTo s a.req.pa = true → s.cur.st ≠ .ended →
       run = .next ((acted what s).onCur fun t => accessFails 1 true (turned (fun a => { a with ret := some 0, failed := true }) t))) ∧
     (lostTo s a.req.pa = false → refusedAt s s.core.vf a.req.pa = true → s.cur.st ≠ .ended →
       run = .next ((acted what s).onCur fun t => accessFails 1 false (turned (fun a => { a with ret := some 0, failed := true }) t))) ∧
     (lostTo s a.req.pa = false → refusedAt s s.core.vf a.req.pa = false → anyPoison s.home.poison a.req.pa n = true →
       run = .next ((acted what s).onCur (turned fun a => { a with poisoned := true }))) ∧
     (lostRead s a.req.pa = false → refusedAt s s.core.vf a.req.pa = false → anyPoison s.home.poison a.req.pa n = false →
       ∃ t, run = .next t ∧ t.cur = turned (fun a => { a with ret := some (old.setWidth 64) }) s.cur ∧
         t = { acted what s with cur := t.cur, home := { s.home with mem := t.home.mem } } ∧
         ∀ x, memGet t.home.mem x = if a.req.pa ≤ x ∧ x < a.req.pa + n
           then (atomicNew a.req.op old (a.req.v.setWidth (8 * n)) (a.req.e.setWidth (8 * n))).extractLsb' (8 * (x - a.req.pa)) 8
           else memGet s.home.mem x)) ∧
  (∀ (frame k : Nat) (s : State) (a : AmoPend) (v : Word), s.cur.amos[k]? = some a → s.cur.frame = frame → s.cur.shadow = false →
     s.cur.st ≠ .ended → a.ret = some v →
     exec (.amoReturn frame k) s = .next (
       (s.onCore fun c => { c with vcache := if a.aq then [] else c.vcache.filter fun l => l.line ≠ a.req.pa / 64 }).onCur fun t =>
         { t.put a.dst v with amos := t.amos.eraseIdx k }))

/-- R224, R240, R401: a keyed write of bytes within one word, here an engine write of another agent: it is applied when the word's tag is
of another launch or lower, and sets bytes and tag; else it changes nothing. An in-place write of the device tests and sets no tag (R222).
R224, R239: once the commit horizon reaches h, which lies above no stamp of this tile's activations, segments and engine operations, the
tags of the launch below it are dropped, and no other. -/
def Obligations.KeyedWrites : Prop :=
  (∀ (w : EngWrite) (s : State), s.memOk = true → refusedFrom s (clusterOf (w.key.writer / 8)) (BitVec.ofNat 6 w.vf) w.pa = false →
     w.pa % 8 + w.data.length ≤ 8 →
     let tag := tabGet? s.home.tags (w.pa / 8)
     ((∀ g, tag = some g → g.launch ≠ w.launchTag ∨ wkeyLt g.key w.key = true) →
       ∃ t, exec (.engineWrite w) s = .next t ∧ tabGet? t.home.tags (w.pa / 8) = some { launch := w.launchTag, key := w.key } ∧
         (∀ k, k ≠ w.pa / 8 → tabGet? t.home.tags k = tabGet? s.home.tags k) ∧
         (∀ x, memGet t.home.mem x = if w.pa ≤ x ∧ x < w.pa + w.data.length then w.data.getD (x - w.pa) 0 else memGet s.home.mem x) ∧
         t = { s with home := { s.home with mem := t.home.mem, tags := t.home.tags, poison := t.home.poison } }) ∧
     (∀ g, tag = some g → g.launch = w.launchTag → wkeyLt g.key w.key = false → exec (.engineWrite w) s = .next s) ∧
     (∃ t, exec (.inPlaceDeviceWrite w.pa w.data) s = .next t ∧ t.home.tags = s.home.tags ∧
         (∀ x, memGet t.home.mem x = if w.pa ≤ x ∧ x < w.pa + w.data.length then w.data.getD (x - w.pa) 0 else memGet s.home.mem x) ∧
         t = { s with home := { s.home with mem := t.home.mem, poison := t.home.poison } })) ∧
  (∀ (h : BitVec 48) (s : State),
     (h.toNat ≤ commitFig s → h.toNat ≤ localLow s → ∃ t, exec (.commitHorizon h) s = .next t ∧
       (∀ e, e ∈ t.home.tags ↔ e ∈ s.home.tags ∧ ¬ (e.2.launch = s.launch.tag.toNat ∧ e.2.key.stamp < h.toNat)) ∧
       t = { s with home := { s.home with tags := t.home.tags } }) ∧
     ((commitFig s < h.toNat ∨ localLow s < h.toNat) → exec (.commitHorizon h) s = .next s))

/-- R226, R238, R241, R247: a sealed segment ships in its turn, one part for each home; a part that reaches its home is applied record by
record, with the key of its segment, that of a paired activation once it has been compared (R410); the acknowledgement of its last part
frees the segment and drops its lines. -/
def Obligations.SegmentSteps : Prop :=
  ∀ (s : State) (g : Sealed), g ∈ s.core.sealed → (∀ x ∈ s.core.sealed, x.num = g.num → x = g) →
    (nextShip s = some g →
      exec (.segmentShip g.num) s = .next ((s.onCore fun c => { c with sealed := c.sealed.map fun x =>
        if x.num = g.num then { x with shipped := true, parts := partsOf g.recs } else x }).paying
          ((partsOf g.recs).foldl (fun s p => chargePart p s) s))) ∧
    (∀ k p r l, g.parts[k]? = some p → p.st = 0 → p.recs = r :: l → mayAct (.part g.num k) s = true → secondary s = false →
      lostTo s r.pa = false → refusedAt s s.core.vf r.pa = false →
      exec (.partApply (.own g.num k)) s = .next (((acted (.part g.num k) s).onCore fun c => { c with sealed := c.sealed.map fun x =>
        if x.num = g.num then { x with parts := x.parts.modify k fun p => { p with st := 1 } } else x }).onHome fun h =>
          p.recs.foldl (fun h r => homeKeyedN h s.launch.tag.toNat
            { stamp := g.stamp, writer := s.core.id.toNat, seg := g.num, part := 0, idx := r.idx } r.pa r.data false 9) h)) ∧
    (∀ k p, g.parts[k]? = some p → p.st = 1 → (∀ q ∈ g.parts.eraseIdx k, q.st = 2) →
      ∃ t, exec (.segmentAck g.num k) s = .next t ∧ t.core.sealed = s.core.sealed.filter (fun x => x.num ≠ g.num) ∧
        (∀ l ∈ t.core.vcache, l ∈ s.core.vcache ∧ ∀ r ∈ g.recs, l.line ≠ r.pa / 64))

/-- R227, R249: the ACQ forms that name cores send a request to each other core in scope, and await this core's own segments; when every
answer is in, those are acknowledged and the task's loads have returned (R231), the lines listed leave the view cache. A fence marker is
placed for later requests (R333). R227, R231, R239, R249: ACQ below a stamp completes once the commit horizon has reached it and the
task's loads have returned, and empties the view cache; until then it waits, and where the horizon is below asks for a sweep, as
ACQ_SWEEP_REQUEST does again. R249: another core's request is answered at once when none of this core's segments is awaited, else kept; an
answer that comes here leaves one core less to await, and adds its lines. -/
def Obligations.Acquire : Prop :=
  (∀ (i : Instr) (p : BitVec 3) (names : List (BitVec 13)) (s : State), s.named i = some (p, names) → scopeOk s p = true →
     let cs := acqCores s p names
     let others := cs.filter fun c => c != s.core.id
     let mine := if cs.contains s.core.id then awaited s s.core.id else []
     let own := mine.map (·.num)
     let lines := if cs.contains s.core.id then answerLines s s.core.id else []
     let asked := placeMark ((s.paid .ord).onHome fun h => { h with out := h.out ++ others.map fun c => .acqReq c p })
     (s.starts → others = [] → ownAcked own s = true → s.cur.loads = [] →
       exec i s = .next (asked.onCore fun c => { c with vcache := c.vcache.filter fun l => !lines.contains l.line }).retired) ∧
     (s.starts → (others ≠ [] ∨ ownAcked own s = false ∨ s.cur.loads ≠ []) →
       exec i s = .next (blockCur .waitMem (.acq others own lines) asked)) ∧
     (∀ o l, s.cur.wait = some (.acq [] o l) → ownAcked o s = true → s.cur.loads = [] →
       exec i s = .next (s.onCore fun c => { c with vcache := c.vcache.filter fun x => !l.contains x.line }).retired)) ∧
  (∀ (b : Fld) (p : BitVec 3) (s : State), scopeOk s p = true →
     (wBusy s.cur b = false → s.starts →
       let t := Min.min ((s.rw b).toNat % 2 ^ 48) s.cur.stamp.toNat
       let u := placeMark (s.paid .ord)
       (t ≤ s.tile.commit → s.cur.loads = [] → exec (.acqBelow b p) s = .next (u.onCore fun c => { c with vcache := [] }).retired) ∧
       (t ≤ s.tile.commit → s.cur.loads ≠ [] → exec (.acqBelow b p) s = .next (blockCur .waitMem (.acqBelow t) u)) ∧
       (s.tile.commit < t → exec (.acqBelow b p) s =
         .next (blockCur .waitMem (.acqBelow t) (u.onTile fun x => { x with sweepWanted := true })))) ∧
     (∀ n, s.cur.wait = some (.acqBelow n) → n ≤ s.tile.commit → s.cur.loads = [] →
       exec (.acqBelow b p) s = .next (s.onCore fun c => { c with vcache := [] }).retired) ∧
     (∀ y ∈ s.tasks, ∀ n, y.wait = some (.acqBelow n) → s.tile.commit < n →
       exec .acqSweepRequest s = .next (s.onTile fun x => { x with sweepWanted := true }))) ∧
  (∀ (s : State),
     (∀ (reader : BitVec 13) (scope : BitVec 3), coreInScope reader scope s.core.id = true → awaited s reader = [] →
       exec (.acqRequest reader scope) s =
         .next (s.onHome fun h => { h with out := h.out ++ [.acqAns reader (answerLines s reader)] })) ∧
     (∀ (reader : BitVec 13) (scope : BitVec 3), coreInScope reader scope s.core.id = true → awaited s reader ≠ [] →
       exec (.acqRequest reader scope) s = .next (s.onCore fun c => { c with acqPend := c.acqPend ++
         [(reader, (awaited s reader).map (·.num), answerLines s reader)] })) ∧
     (∀ (core : BitVec 13) (lines : List Nat) (cs : List (BitVec 13)) (own : List Nat) (ls : List Nat),
       s.cur.wait = some (.acq cs own ls) → s.cur.st ≠ .ended → s.cur.shadow = false → core ∈ cs →
       exec (.acqAnswer s.cur.frame core lines) s = .next (s.onCur fun t => { t with wait := some (.acq (cs.erase core) own (ls ++ lines)) })))

/-- R228, R231, R250, R251: FENCE publishes, waits until every segment, load, atomic and send of the task is acknowledged, and returns the
status of its failures; with `.f` it translates its flag's address before the seal, and after the wait has its flag written, unless
something failed. R224, R228, R250: the flag word is written with the key of its segment, part 2^32 - 1; that of a paired activation once
it has been compared (R410). -/
def Obligations.Fences : Prop :=
  (∀ (d : Fld) (p : BitVec 3) (s : State), scopeOk s p = true →
     (takeS [] [d] s = .ok ([], s) → s.starts → badPush s.cur = none → sharedPushes s.cur = [] →
       let u := (s.paid .ord).published p
       (fenceDone u s.cur.openSeg = true → exec (.fence d p) s = .next (u.fenced d false).retired) ∧
       (fenceDone u s.cur.openSeg = false →
         exec (.fence d p) s = .next (blockCur .waitMem (.fence s.cur.openSeg none) u))) ∧
     (∀ n, takeS [] [d] s = .ok ([], s) → s.cur.wait = some (.fence n none) → fenceDone s n = true →
       exec (.fence d p) s = .next (s.fenced d false).retired) ∧
     (∀ b c v pa e w, takeS [c] [d] s = .ok ([v], s) → wBusy s.cur b = false → s.starts → badPush s.cur = none →
       sharedPushes s.cur = [] → (s.rw b).toNat % 8 = 0 → (s.rw b).toNat < 2 ^ 56 →
       translateAt .amo p (s.rw b).toNat s = .ok (pa, e, w) →
       let u := (w.paid .ord).published p
       (fenceDone u s.cur.openSeg = true → anyFail u.cur = true → exec (.fenceF d b c p) s = .next (u.fenced d true).retired) ∧
       (fenceDone u s.cur.openSeg = true → anyFail u.cur = false →
         exec (.fenceF d b c p) s = .next (blockCur .waitMem (.flag s.cur.openSeg pa v false)
           (pairCur (.flag u.cur.tid u.cur.origin) (leBytes 8 pa ++ leBytes 8 v.toNat) u))) ∧
       (fenceDone u s.cur.openSeg = false →
         exec (.fenceF d b c p) s = .next (blockCur .waitMem (.fence s.cur.openSeg (some (pa, v))) u))) ∧
     (∀ b c v n pa x, takeS [c] [d] s = .ok ([v], s) → wBusy s.cur b = false → s.cur.wait = some (.fence n (some (pa, x))) →
       fenceDone s n = true →
       (anyFail s.cur = true → exec (.fenceF d b c p) s = .next (s.fenced d true).retired) ∧
       (anyFail s.cur = false → exec (.fenceF d b c p) s = .next (blockCur .waitMem (.flag n pa x false)
         (pairCur (.flag s.cur.tid s.cur.origin) (leBytes 8 pa ++ leBytes 8 x.toNat) s)))) ∧
     (∀ b c v n pa x, takeS [c] [d] s = .ok ([v], s) → wBusy s.cur b = false → s.cur.wait = some (.flag n pa x true) →
       exec (.fenceF d b c p) s = .next (s.onCur (Task.put d 0)).retired)) ∧
  (∀ (s : State) (n pa : Nat) (v : Word), s.cur.wait = some (.flag n pa v false) → s.cur.shadow = false →
     let what : PairWhat := .flag s.cur.tid s.cur.origin
     mayAct what s = true → secondary s = false → lostTo s pa = false → refusedAt s s.core.vf pa = false →
     exec .flagWrite s = .next ((((acted what s).onCur fun t => { t with wait := some (.flag n pa v true) }).onHome fun h =>
       homeKeyed h s.launch.tag.toNat { stamp := s.cur.stamp.toNat, writer := s.core.id.toNat, seg := n, part := 2 ^ 32 - 1, idx := 0 } pa
         (leBytes 8 v.toNat)).paying (chargeAccess pa 8 s)))

/-- R256, R257: QFENCE completes when no operation of the task is in a queue it names, drops the lines that they wrote and marks the
records that they outrank; its mask is read once (R98). LOGSN reads the log; LOGDROP empties the open segment and keeps its number. -/
def Obligations.LogInstructions : Prop :=
  ∀ (s : State),
    let drained (mask : Word) : Prop := ∀ q < 16, mask.getLsbD q = true → queueBusy s q = false
    let ends (mask : Word) (b : Fld) : Prop :=
      let lines := (s.cur.wrote.filter fun w => mask.getLsbD w.1).map fun w => w.2.1 / 8
      ∃ t, exec (.qfence b) s = .next t ∧ t.core.vcache = s.core.vcache.filter (fun l => !lines.contains l.line) ∧
        t.cur.wrote = s.cur.wrote.filter (fun w => !mask.getLsbD w.1) ∧ t.cur.pc = s.cur.pc + 4 ∧
        t.cur.recs = s.cur.recs.map (markRec s ((s.cur.wrote.filter fun w => mask.getLsbD w.1).map (·.2)) s.cur.openSeg)
    (∀ b, wBusy s.cur b = false → s.starts → drained (s.rw b) → ends (s.rw b) b) ∧
    (∀ b mask, s.cur.wait = some (.qfence mask) → drained mask → ends mask b) ∧
    (∀ b, wBusy s.cur b = false → s.starts → ¬ drained (s.rw b) →
      exec (.qfence b) s = .next (blockCur .waitMem (.qfence (s.rw b)) (placeMark (s.paid .ord)))) ∧
    (∀ a, takeS [] [a] s = .ok ([], s) → s.cur.paid = false → s.cur.openSeg < 2 ^ 40 →
      exec (.logsn a) s = .next (s.completes .ord (Task.put a
        (BitVec.ofNat 64 (Min.min s.core.sealed.length 65535 * 2 ^ 40 + s.cur.openSeg))))) ∧
    (s.starts → ∃ t, exec .logdrop s = .next t ∧ t.cur.recs = [] ∧ t.cur.recCtr = 0 ∧ t.cur.openSeg = s.cur.openSeg ∧
      t.cur.held = s.cur.held ∧ t.cur.esc = s.cur.esc ∧ t.core.sealed = s.core.sealed ∧ t.cur.pc = s.cur.pc + 4 ∧ s.charged t 3000)

/-- R259 to R262: BINIT sets a barrier up or down; BARRIVE sends one arrival, with `.rl` once its segments are acknowledged; BWAIT passes
when the phase has, with `.aq` emptying the view cache, else waits; BTEST reads the barrier. R186, R261, R262: an arrival on a barrier
adds one, and the last of the count ends the phase; the arriving task's register receives the phase that its arrival joined, and tasks
that wait on a phase gone by are woken. -/
def Obligations.Barriers : Prop :=
  (∀ (a : Fld) (n : BitVec 6) (s : State), wBusy s.cur a = false → s.starts →
     let b := s.tile.bars[n.toNat]
     let x := s.rw a
     (b.arr = 0 → barWaited s n = false → x.toNat ≤ 4095 →
       let c : Bar := if x = 0 then { b with init := false } else { b with init := true, count := x.extractLsb' 0 12 }
       exec (.binit a n) s = .next ((s.onTile fun t => { t with bars := t.bars.set n.toNat c }).completes .bar id)) ∧
     ((b.arr ≠ 0 ∨ barWaited s n = true ∨ 4095 < x.toNat) → exec (.binit a n) s = .next (takeTrap 0x13 0 false (n.setWidth 64) s)) ∧
     (b.init = true → b.ring = false → exec (.barrive a n false) s = .next (s.completes .bar fun t => { t with arrives := t.arrives ++ [(a, n)] })) ∧
     (b.init = true → b.ring = false → scopeOk s 1 = true → badPush s.cur = none → sharedPushes s.cur = [] →
       let u := (s.paid .bar).published 1
       (segsAcked u s.cur.openSeg = true →
         exec (.barrive a n true) s = .next (u.onCur fun t => { t with arrives := t.arrives ++ [(a, n)] }).retired) ∧
       (segsAcked u s.cur.openSeg = false → exec (.barrive a n true) s = .next (blockCur .waitMem (.acks s.cur.openSeg) u))) ∧
     ((b.init = false ∨ b.ring = true) → exec (.barrive a n false) s = .next (takeTrap 0x13 0 false (n.setWidth 64) s)) ∧
     (∀ aq, b.init = true →
       let gone := (b.phase.toNat + 65536 - (x.toNat % 65536)) % 65536
       (1 ≤ gone → gone ≤ 32767 →
         exec (.bwait a n aq) s = .next ((s.onCore fun c => { c with vcache := if aq then [] else c.vcache }).completes .bar id)) ∧
       (gone = 0 ∨ 32767 < gone → exec (.bwait a n aq) s = .next (blockCur .waitMsg (.bwait n (x.extractLsb' 0 16)) (s.paid .bar)))) ∧
     (∀ aq, b.init = false → exec (.bwait a n aq) s = .next (takeTrap 0x13 0 false (n.setWidth 64) s)) ∧
     exec (.btest a n) s = .next (s.completes .bar fun t => t.setW (wIdx a)
       (BitVec.ofNat 64 (b.init.toNat * 2 ^ 63 + b.ring.toNat * 2 ^ 62 + b.count.toNat * 2 ^ 32 + b.arr.toNat * 2 ^ 16 + b.phase.toNat)))) ∧
  (∀ (n : BitVec 6) (s : State),
     let b := s.tile.bars[n.toNat]
     let last := decide (b.arr + 1 = b.count)
     let next : Bar := if last then { b with arr := 0, phase := b.phase + 1, ring := false } else { b with arr := b.arr + 1 }
     let set (x : Bar) : State := s.onTile fun t => { t with bars := t.bars.set n.toNat x }
     (b.init = false → ∀ a, exec (.barrierArrival n a) s = .next s) ∧
     (b.init = true → b.ring = false → exec (.barrierArrival n .otherTask) s = .next (set next)) ∧
     (b.init = true → b.arr < b.count → exec (.barrierArrival n .otherMrot) s = .next (set (if last then next else { next with ring := true }))) ∧
     (b.init = true → ∀ m q, s.core.mx.queue = m :: q → m.fn = .mrot → m.started = false → m.bar = some n → b.arr < b.count →
       exec (.barrierArrival n .ownMrot) s = .next ((set (if last then next else { next with ring := true })).onCore fun c =>
         { c with mx := { c.mx with queue := { m with started := true, barPhase := b.phase } :: q } })) ∧
     (b.init = true → b.ring = false → ∀ x, s.cur.arrives.find? (fun x => x.2 == n) = some x → s.cur.shadow = false →
       exec (.barrierArrival n (.ownTask s.cur.frame)) s = .next ((set next).onCur fun t =>
         { t.setW (wIdx x.1) (b.phase.setWidth 64) with arrives := t.arrives.erase x })) ∧
     (b.init = true → b.ring = true → exec (.barrierArrival n .otherTask) s = .next s) ∧
     ∃ t, exec (.barrierWake n) s = .next t ∧ (∀ p, s.cur.st = .waitMsg → s.cur.wait = some (.bwait n p) →
       (b.phase - p).toNat ≠ 0 → (b.phase - p).toNat ≤ 32767 → t.cur = { s.cur with st := if strmMissing s.cur then .faulted else .ready }))

/-- R311, R333: an operation that a task sends is held until its release point; an escaped activation has none, an express one is its own,
and so is one that the core's holding buffer has no room for. Those of a paired activation go to be compared (R410). -/
def Obligations.HeldOperations : Prop :=
  ∀ (h : Held) (x : Bool) (s : State),
    let ops := s.cur.held ++ [h]
    let queued : State := { s with
      tile := { s.tile with inject := s.tile.inject ++ ops, injectBy := s.tile.injectBy ++ ops.map (fun _ => (s.cur.tid, s.cur.origin)) }
      cur := { s.cur with
        held := []
        sentOut := s.cur.sentOut + (ops.filter fun h => match h with | .spawn _ => false | _ => true).length } }
    let out := pairAll s.cur.tid s.cur.origin (ops.map fun h => (.send s.cur.tid s.cur.origin, hashedHeld h)) queued
    (s.cur.esc = true → sendOp h x s = out) ∧
    (s.cur.esc = false → (x = true ∨ 8192 < coreHeld s + h.bytes) →
      sendOp h x s = (placeMark out).onCur fun t => { t with esc := true }) ∧
    (s.cur.esc = false → x = false → coreHeld s + h.bytes ≤ 8192 →
      sendOp h x s = { s with cur := { s.cur with held := s.cur.held ++ [h] } })

/-- R309, R313, R314: SEND hands the words of q1 to the destination, or traps with the first check that fails and sends nothing. R315,
R316: SENDM and SENDC read a descriptor of 4 or 5 words and a payload from TCM; SENDC writes 0, or 1 and sends nothing when no tile is
named. -/
def Obligations.SendInstructions : Prop :=
  (∀ (a b c : Fld) (any x : Bool) (s : State), wBusy s.cur a = false → wBusy s.cur b = false → wBusy s.cur c = false →
     wBusy s.cur 25 = false → s.starts →
     (sendTrap s (s.rw a) (s.rw b) (s.rw c) = none →
       let m : Msg := { dest := (s.rw a).extractLsb' 0 13, any := any, mc := false, cls := (s.rw a).extractLsb' 16 4,
                        stamp := (s.rw c).extractLsb' 0 48, score := s.core.id, handler := (s.rw b).extractLsb' 0 56, payload := s.cur.q1,
                        seq := 0, prom := 0, col := false, part := s.core.vf, tag := s.cur.tid.extractLsb' 48 16,
                        leaf := s.cur.tid.extractLsb' 24 24, mig := false }
       exec (.send a b c any x) s = .next (sendOp (.msg m) x ((charge .msg s).onCur fun t => { t with q1 := [] })).retired) ∧
     (∀ cause v, sendTrap s (s.rw a) (s.rw b) (s.rw c) = some (cause, v) → exec (.send a b c any x) s = .next (takeTrap cause 0 false v s))) ∧
  (∀ (a b : Fld) (any x : Bool) (s : State) (ws pl : List Word), wBusy s.cur a = false → wBusy s.cur b = false → s.starts →
     let p := s.rw b
     let d := wordsAt ws 0
     let msg (dest : BitVec 13) (any mc : Bool) : Msg :=
       { dest := dest, any := any, mc := mc, cls := d.extractLsb' 16 4, stamp := (wordsAt ws 2).extractLsb' 0 48, score := s.core.id,
         handler := (wordsAt ws 1).extractLsb' 0 56, payload := pl, seq := 0, prom := 0, col := false, part := s.core.vf,
         tag := s.cur.tid.extractLsb' 48 16, leaf := s.cur.tid.extractLsb' 24 24, mig := false }
     (readDesc p 4 s = .ok ws → descPayload p (wordsAt ws 3) (wordsAt ws 2) s = .ok pl →
       sendTrap s d (wordsAt ws 1) (wordsAt ws 2) = none →
       exec (.sendm b any x) s = .next (sendOp (.msg (msg (d.extractLsb' 0 13) any false)) x (charge .msg s)).retired) ∧
     (readDesc p 5 s = .ok ws → (wordsAt ws 4 = 0 ∨ d.extractLsb' 0 16 = 0) →
       exec (.sendc a b x) s = .next (s.completes .msg fun t => t.setW (wIdx a) 1)) ∧
     (readDesc p 5 s = .ok ws → wordsAt ws 4 ≠ 0 → d.extractLsb' 0 16 ≠ 0 → outsideClusters s (wordsAt ws 4) = 0 →
       (∀ c < 64, (wordsAt ws 4).getLsbD c = true → ∀ t < 16, d.getLsbD t = true → hasLink s (16 * c + t) (d.extractLsb' 16 4) = true) →
       descPayload p (wordsAt ws 3) (wordsAt ws 2) s = .ok pl → d.toNat < 2 ^ 20 →
       checkHandler (wordsAt ws 1) (wordsAt ws 2) (satAdd s.cur.stamp.toNat ((lahOf s (d.extractLsb' 16 4)).getD 0)) s = .ok () →
       exec (.sendc a b x) s = .next (sendOp (.mcast (msg 0 true true) (wordsAt ws 4) (d.extractLsb' 0 16)) x
         ((charge .msg s).ww a 0)).retired))

/-- R284, R285, R288, R302, R317, R318: PROMISE sends a pip on each outbound link of its class; DEPOSIT sends one word; NRED enqueues a
contribution on queue 10 when its leaf holds the unit, else counts an error; NRWAIT returns a result once the tile has it. -/
def Obligations.TileMessages : Prop :=
  ∀ (a b c : Fld) (x : Bool) (s : State), wBusy s.cur a = false → wBusy s.cur b = false → wBusy s.cur c = false → s.starts →
    exec (.promise b) s = .next (sendPips (s.tile.outLinks.filter fun l => (s.rw b).getLsbD 63 || l.cls == (s.rw b).extractLsb' 0 4)
      (charge .msg s)).retired ∧
    (depositOk (s.rw a) s = true → exec (.deposit a b c x) s = .next (sendOp (.deposit
      { core := (s.rw a).extractLsb' 0 13, frame := ((s.rw a).extractLsb' 16 6).toNat, word := ((s.rw a).extractLsb' 24 4).toNat,
        val := s.rw b, tid := s.rw c, orig := (s.rw a).extractLsb' 32 13, src := s.core.id, part := s.core.vf }) x (charge .msg s)).retired) ∧
    (depositOk (s.rw a) s = false → exec (.deposit a b c x) s = .next (takeTrap 0x04 0 false (s.rw a) s)) ∧
    (∀ s32 op, s.cur.partCtr + 1 < 2 ^ 32 - 1 → (nredUnit s (s.rw a)).2 = true →
      let u := (nredUnit s (s.rw a)).1
      let k : Contribution := { tag := (s.rw c).extractLsb' 0 16, op := op, s32 := s32, src := .own, unit := u,
                                vals := [(u, if s32 then BitVec.ofNat 64 ((s.rw b).toNat % 2 ^ 32) else s.rw b)], late := false,
                                resultLate := false, missing := 0, more := false, part := s.core.vf }
      let v := (s.paid .msg).onCur fun t => { t with partCtr := t.partCtr + 1 }
      exec (.nred a b c s32 op) s = .next (pairEngine (hashedOp (.nred a b c s32 op) ((s.rw c).extractLsb' 0 16 |>.setWidth 64)
        (if s32 then BitVec.ofNat 64 ((s.rw b).toNat % 2 ^ 32) else s.rw b)) (pushEng 10 (mkOp v (.nred k) 0 0) v)).retired) ∧
    (∀ s32 op, (nredUnit s (s.rw a)).2 = false → exec (.nred a b c s32 op) s = .next (errCount 1 (s.paid .msg)).retired) ∧
    (∀ st r, redResult s ((s.rw b).extractLsb' 0 16) = some r →
      exec (.nrwait a b st) s = .next (s.completes .msg fun t => t.setW (wIdx a) (if st then nredStatus r else nredValue r))) ∧
    (∀ st, redResult s ((s.rw b).extractLsb' 0 16) = none →
      exec (.nrwait a b st) s = .next (blockCur .waitMsg (.nrwait ((s.rw b).extractLsb' 0 16)) (s.paid .msg)))

/-- R117, R320: SPAWN hands the words of q1 to a new activation of this core or tile, with its own mark of migration, at a stamp no lower
than its own. -/
def Obligations.Spawn : Prop :=
  ∀ (b c : Fld) (any : Bool) (s : State), wBusy s.cur b = false → wBusy s.cur c = false → wBusy s.cur 25 = false → s.starts →
    let h := s.rw b
    let st := s.rw c
    (h.toNat % 4 = 0 → h.toNat < 2 ^ 56 → s.cur.stamp.toNat ≤ st.toNat → st.toNat < 2 ^ 48 - 1 →
      exec (.spawn b c any) s = .next (sendOp (.spawn
        { dest := s.core.id, any := any, mc := false, cls := 0, stamp := st.extractLsb' 0 48, score := s.core.id,
          handler := h.extractLsb' 0 56, payload := s.cur.q1, seq := 0, prom := 0, col := false, part := s.core.vf,
          tag := s.cur.tid.extractLsb' 48 16, leaf := s.cur.tid.extractLsb' 24 24, mig := s.cur.mig }) false
        ((charge .task s).onCur fun t => { t with q1 := [] })).retired) ∧
    (h.toNat % 4 ≠ 0 → exec (.spawn b c any) s = .next (takeTrap 0x03 0 false h s)) ∧
    (h.toNat % 4 = 0 → 2 ^ 56 ≤ h.toNat → exec (.spawn b c any) s = .next (takeTrap 0x04 0 false h s)) ∧
    (h.toNat % 4 = 0 → h.toNat < 2 ^ 56 → (2 ^ 48 - 1 ≤ st.toNat ∨ st.toNat < s.cur.stamp.toNat) →
      exec (.spawn b c any) s = .next (takeTrap 0x0E 0 false st s))

/-- R118, R246, R311: END, once its streams and queues are drained: the open segment sealed at the launch's default scope, the held sends
released, the task ended and its frame, slot, streams and queues given up. In the shadow context it returns control (R422). -/
def Obligations.EndOfTask : Prop :=
  ∀ (s : State), s.starts →
    (s.cur.shadow = false → badPush s.cur = none → undrained s.cur = [] →
      let u := releaseHeld (sealNow (defaultScope s) (s.paid .task))
      exec .endTask s = .next (retire (endCur u)) ∧
      (retire (endCur u)).cur.st = .ended ∧ (retire (endCur u)).cur.slot = none ∧ (retire (endCur u)).cur.recs = [] ∧
      (retire (endCur u)).cur.held = [] ∧ (retire (endCur u)).cur.hvy = false ∧
      (retire (endCur u)).cur.streams = Vector.replicate 8 none ∧ (retire (endCur u)).cur.qs = Vector.replicate 6 none) ∧
    (s.cur.shadow = false → badPush s.cur = none → undrained s.cur ≠ [] →
      exec .endTask s = .next (blockCur .waitMem (.ending (undrained s.cur)) (s.paid .task))) ∧
    (s.cur.shadow = true → exec .endTask s = .next (retire (shadowLeave (s.paid .task))))

/-- R119, R120, R323, R324: YIELD passes the slot to the ready task of least key that has none; WAIT returns the events that hold, or that
its time is over, with its operands read at issue (R98); SWEEP asks for a sweep, and SWEEP.w returns the horizon once a sweep that began
after it has ended; CLMASK and CLUNMASK return the old mask. -/
def Obligations.TaskInstructions : Prop :=
  ∀ (a b c : Fld) (s : State), wBusy s.cur a = false → wBusy s.cur b = false → wBusy s.cur c = false →
    (s.starts → (s.cur.hvy = true ∨ slotless s.rest = none) →
      exec .yield s = .next (retire ((advance (charge .task s)).onCur fun t => { t with wait := some .yielded, st := .ready }))) ∧
    (s.starts → ∀ y, s.cur.hvy = false → slotless s.rest = some y →
      exec .yield s = .next (retire { advance (charge .task s) with
        cur := { s.cur with pc := s.cur.pc + 4, slot := none, wait := some .yielded, st := .ready },
        rest := s.rest.map fun x => if x = y then { x with slot := s.cur.slot } else x })) ∧
    (let ends (x : Word) (u : State) : State := (u.onCur fun t => { t.setW (wIdx a) x with depl := t.depl && !x.getLsbD 0 }).retired
     let bound (m : BitVec 8) : Prop := ∀ k, 2 ≤ k → k < 8 → m.getLsbD k = true → ((s.cur.qs[k - 2]?).join).isSome = true
     (s.starts → let m : BitVec 8 := (s.rw b).extractLsb' 0 8 &&& 0xFD
      bound m →
      ((events s m ≠ 0 ∨ (m = 0 ∧ s.rw c = 0)) → exec (.wait a b c) s = .next (ends ((events s m).setWidth 64) (s.paid .task))) ∧
      (events s m = 0 → (m ≠ 0 ∨ s.rw c ≠ 0) →
        exec (.wait a b c) s = .next (blockCur .waitMsg (.event m (s.rw c != 0) false) (s.paid .task)))) ∧
     (∀ m timed gone, s.cur.wait = some (.event m timed gone) →
      (events s m ≠ 0 → exec (.wait a b c) s = .next (ends ((events s m).setWidth 64) s)) ∧
      (events s m = 0 → (m ≠ 0 ∨ timed = true) → gone = true →
        exec (.wait a b c) s = .next (ends (BitVec.ofNat 64 (2 ^ 63)) s)))) ∧
    (s.starts → exec .sweep s = .next ((s.onTile fun t => { t with sweepWanted := true }).completes .task id)) ∧
    (s.starts → exec (.sweepW a) s = .next (blockCur .waitMsg (.sweep (s.tile.sweepsStarted + 1))
      ((s.paid .task).onTile fun t => { t with sweepWanted := true }))) ∧
    (∀ n, s.cur.wait = some (.sweep n) → n ≤ s.tile.sweepsEnded →
      exec (.sweepW a) s = .next ((chargeOnce .task s).onCur fun t => t.setW (wIdx a) (BitVec.ofNat 64 s.tile.horizon)).retired) ∧
    (s.starts → exec (.clmask a b) s = .next (s.completes .task fun t =>
      { t with classMask := t.classMask ||| (s.rw b).extractLsb' 0 16 }.setW (wIdx a) (t.classMask.setWidth 64))) ∧
    (s.starts → exec (.clunmask a b) s = .next (s.completes .task fun t =>
      { t with classMask := t.classMask &&& ~~~(s.rw b).extractLsb' 0 16 }.setW (wIdx a) (t.classMask.setWidth 64)))

/-- R293, R322: SETLAH raises the lookahead of a class, and returns the old value, with bit 63 where it would lower it. -/
def Obligations.SetLookahead : Prop :=
  ∀ (a b c : Fld) (s : State), wBusy s.cur a = false → wBusy s.cur b = false → wBusy s.cur c = false → s.starts →
    let cls : BitVec 4 := (s.rw b).extractLsb' 0 4
    let l := (s.rw c).toNat
    (lahOf s cls = none → exec (.setlah a b c) s = .next (takeTrap 0x14 0 false (cls.setWidth 64) s)) ∧
    (∀ old, lahOf s cls = some old →
      (2 ^ 48 - 1 ≤ l → exec (.setlah a b c) s = .next (takeTrap 0x0E 0 false (s.rw c) s)) ∧
      (l < 2 ^ 48 - 1 → l < old →
        exec (.setlah a b c) s = .next (s.completes .task fun t => t.setW (wIdx a) (BitVec.ofNat 64 (2 ^ 63 + old)))) ∧
      (l < 2 ^ 48 - 1 → old ≤ l → exec (.setlah a b c) s = .next
        ((s.onTile fun t => { t with lah := tabSet t.lah cls.toNat l }).completes .task fun t => t.setW (wIdx a) (BitVec.ofNat 64 old))))

/-- R44, R46, R321: MIGRATE to a named core: published, it leaves once its segments are acknowledged and what it has outstanding has
returned, compared first where it is paired (R410), or stays when the core is its own; a task that may not leave traps with MIGSTATE and
its status. -/
def Obligations.Migrate : Prop :=
  ∀ (b : Fld) (s : State), wBusy s.cur b = false → wBusy s.cur 25 = false →
    let core : BitVec 13 := (s.rw b).extractLsb' 0 13
    let what : PairWhat := .mig s.cur.tid s.cur.origin
    (s.starts → migHeld s = false → migRefused s = true →
      exec (.migrate b true) s = .next (takeTrap 0x0D 0 false (s.cur.statusByte.setWidth 64) s)) ∧
    (s.starts → migHeld s = false → migRefused s = false → migCoreOk s (s.rw b) = false →
      exec (.migrate b true) s = .next (takeTrap 0x04 0 false (s.rw b) s)) ∧
    (s.starts → migHeld s = false → migRefused s = false → migCoreOk s (s.rw b) = true → badPush s.cur = none →
      sharedPushes s.cur = [] →
      let p := (s.paid .task).published (defaultScope s)
      let u := { p with fresh := p.fresh + 1 }
      (segsAcked u s.cur.openSeg = true → written u.cur = true → core = s.core.id →
        exec (.migrate b true) s = .next (retire (u.onCur fun t => { t with pc := s.cur.pc + 4 }))) ∧
      (segsAcked u s.cur.openSeg = true → written u.cur = true → core ≠ s.core.id →
        mayAct (.mig u.cur.tid u.cur.origin) u = true →
        exec (.migrate b true) s = .next (retire (sendMigration core (s.cur.pc + 4) (acted (.mig u.cur.tid u.cur.origin) u)))) ∧
      (segsAcked u s.cur.openSeg = false ∨ written u.cur = false →
        exec (.migrate b true) s = .next (blockCur .waitMem (.leave s.cur.openSeg (some core)) u))) ∧
    (∀ k n d, s.cur.wait = some (.leave n (some d)) → segsAcked s n = true → written s.cur = true →
      (d = s.core.id → exec (.migrate b k) s = .next (retire (s.onCur fun t => { t with pc := s.cur.pc + 4 }))) ∧
      (d ≠ s.core.id → mayAct what s = true →
        exec (.migrate b k) s = .next (retire (sendMigration d (s.cur.pc + 4) (acted what s))))) ∧
    (s.starts → migHeld s = false → migRefused s = false → (s.rw b).toNat < 2 ^ 56 →
      ∀ pa e u, translate .load (s.rw b).toNat s = .ok (pa, e, u) →
      badPush s.cur = none → sharedPushes s.cur = [] → migDest u pa = none →
      let p := (u.paid .task).published (defaultScope u)
      let v := { p with fresh := p.fresh + 1 }
      segsAcked v s.cur.openSeg = true → written v.cur = true →
        exec (.migrate b false) s = .next (retire (v.onCur fun t => { t with pc := s.cur.pc + 4 })))

/-- R272 to R275, R335, R336: SBIND, SUNBIND, SSTAT, QBIND and QUNBIND. -/
def Obligations.StreamInstructions : Prop :=
  ∀ (a b : Fld) (s : State), wBusy s.cur b = false →
    (∀ tcm bs u, readBlock (s.rw b) 32 3 s = .ok (bs, u) →
      let p := patternOf bs
      let w0 := leNat (bs.take 8)
      let bad : Prop := 2 ^ 62 ≤ w0 ∨ w0 / 2 ^ 59 % 2 = 1 ∨ 2 ^ 48 ≤ p.len
      let aligned : Prop := p.base % 2 ^ p.sz = 0 ∧ ∀ x ∈ p.strides, x % (2 ^ p.sz : Nat) = 0
      ((strmOf u.cur a).isSome = true → exec (.sbind a b tcm) s = .next (takeTrap 0x06 0x01 false (a.setWidth 64) u)) ∧
      (strmOf u.cur a = none → bad → exec (.sbind a b tcm) s = .next (takeTrap 0x06 0x02 false (a.setWidth 64) u)) ∧
      (strmOf u.cur a = none → ¬ bad → ¬ aligned → exec (.sbind a b tcm) s = .next (takeTrap 0x03 0 false (BitVec.ofNat 64 p.base) u)) ∧
      (strmOf u.cur a = none → ¬ bad → aligned → exec (.sbind a b tcm) s = .next ((charge .strm u).onCur fun t =>
        { t with streams := t.streams.setIfInBounds (a.toNat - 16)
                   (some { pat := p, tcm := tcm, pos := 0, fetched := [], pushed := [], bad := none }), hvy := true }).retired)) ∧
    (strmOf s.cur a = none → exec (.sunbind a) s = .next (takeTrap 0x06 0x05 false (a.setWidth 64) s)) ∧
    (∀ st, strmOf s.cur a = some st → st.bad = none → s.cur.paid = false →
      let u := s.paid .strm
      ((st.pat.out = false ∨ (st.pushed = [] ∧ wBusy s.cur a = false)) → exec (.sunbind a) s =
        .next (s.completes .strm fun t => { t with streams := t.streams.setIfInBounds (a.toNat - 16) none })) ∧
      (st.pat.out = true → (st.pushed ≠ [] ∨ wBusy s.cur a = true) → exec (.sunbind a) s = .next (blockCur .waitMem (.drain [a]) u))) ∧
    (∀ dr d st u, takeS [] [d] s = .ok ([], u) → strmOf s.cur a = some st → st.bad = none → s.cur.paid = false →
      (dr = false ∨ st.pat.out = false ∨ (st.pushed = [] ∧ wBusy s.cur a = false)) →
      exec (.sstat d a dr) s = .next (s.completes .strm (Task.put d (BitVec.ofNat 64 (2 ^ 63 + (if st.pat.out then 2 ^ 62 else 0)
        + (if st.pat.len ≤ st.pos then 2 ^ 61 else 0) + (if st.tcm then 2 ^ 60 else 0)
        + 2 ^ 48 * ((st.pushed.length + st.fetched.length) % 2 ^ 12) + st.pos % 2 ^ 48))))) ∧
    (let x := s.rw b
     let ch : BitVec 3 := x.extractLsb' 16 3
     let peer : BitVec 13 := x.extractLsb' 0 13
     let bad : Prop := (queueOf s.cur a).isSome = true ∨ qbindMalformed x = true ∨ (x.getLsbD 62 = true ∧ x.getLsbD 63 = true) ∨
       (x.getLsbD 62 = true ∧ ∃ t ∈ s.tasks, ∃ q, some q ∈ t.qs.toList ∧ q.cls = some (x.extractLsb' 0 4))
     let bound (cls : Option (BitVec 4)) : State := (charge .strm s).onCur fun t => { t with
       qs := t.qs.setIfInBounds (a.toNat - 26) (some { outb := x.getLsbD 63, cls := cls, ch := ch, peer := peer, words := [], credits := 8 }),
       hvy := true }
     (bad → exec (.qbind a b) s = .next (takeTrap 0x05 0 false (a.setWidth 64) s)) ∧
     (¬ bad → x.getLsbD 62 = true → exec (.qbind a b) s = .next (bound (some (x.extractLsb' 0 4))).retired) ∧
     (¬ bad → x.getLsbD 62 = false → inPartition s (tileOf peer) = false → exec (.qbind a b) s = .next (takeTrap 0x04 0 false x s)) ∧
     (¬ bad → x.getLsbD 62 = false → inPartition s (tileOf peer) = true → x.getLsbD 63 = true →
       exec (.qbind a b) s = .next (bound none).retired) ∧
     (¬ bad → x.getLsbD 62 = false → inPartition s (tileOf peer) = true → x.getLsbD 63 = false →
       exec (.qbind a b) s = .next (((bound none).onCore fun c => { c with
         chan := c.chan.set ch.toNat (s.core.chan[ch.toNat].filter fun y => y.1 == peer) }).onHome fun h => { h with
         out := h.out ++ (s.core.chan[ch.toNat].filter fun y => y.1 != peer).map fun y => .credit y.1 ch 1 }).retired)) ∧
    (queueOf s.cur a = none → exec (.qunbind a) s = .next (takeTrap 0x05 0 false (a.setWidth 64) s)) ∧
    (∀ q, queueOf s.cur a = some q → s.cur.paid = false → (q.outb = true ∧ (q.words ≠ [] ∨ 0 < q.flying ∨ wBusy s.cur a = true)) →
      exec (.qunbind a) s = .next (blockCur .waitMem (.drain [a]) (s.paid .strm))) ∧
    (∀ q, queueOf s.cur a = some q → s.cur.paid = false → ¬ (q.outb = true ∧ (q.words ≠ [] ∨ 0 < q.flying ∨ wBusy s.cur a = true)) →
      exec (.qunbind a) s = .next ((dropBinding q (s.paid .strm)).onCur fun t =>
        { t with qs := t.qs.setIfInBounds (a.toNat - 26) none }).retired ∧
      (q.outb = true → q.parts = [] → dropBinding q (s.paid .strm) = s.paid .strm))

/-- R276, R278 to R281: COPY, SGRUN, XSTAT, XCANCEL and URET. -/
def Obligations.TransferInstructions : Prop :=
  ∀ (a b : Fld) (s : State), wBusy s.cur b = false →
    (∀ bs u, readBlock (s.rw b) 64 8 s = .ok (bs, u) → u.cur.paid = false → u.cur.partCtr + 1 < 2 ^ 32 - 1 →
      let word (k : Nat) : Word := leWord ((bs.drop k).take 8)
      let q : Fin 16 := ⟨(word 192).toNat % 4, by omega⟩
      let issued (i : Instr) (k : EngKind) : State :=
        ((u.paid .xfer).escaped.queuedOp q k (word 208) ((word 200).extractLsb' 2 54 ++ 0#2) (hashedBlock i bs)).retired
      let src := patternOf (bs.take 96)
      let dst := patternOf ((bs.drop 96).take 96)
      let bad := patMalformed (bs.take 96) src || patMalformed ((bs.drop 96).take 96) dst
      let scl := (word 192).getLsbD 2
      let fits : Prop := src.sz = dst.sz ∧ src.len = dst.len ∧ (scl = true → src.sz = 3 ∧ src.len % 256 = 0)
      (bad = true → exec (.copy b) s = .next (takeTrap 0x04 0x10 false (s.rw b) u)) ∧
      (bad = false → ¬ fits → exec (.copy b) s = .next (takeTrap 0x04 0x11 false (s.rw b) u)) ∧
      (bad = false → fits → (patAligned src = false ∨ patAligned dst = false) →
        exec (.copy b) s = .next (takeTrap 0x03 0 false (s.rw b) u)) ∧
      (bad = false → fits → patAligned src = true → patAligned dst = true → exec (.copy b) s =
        .next (issued (.copy b) (.copy src dst ((word 192).getLsbD 3) ((word 192).getLsbD 4) scl (word 216) (word 224)))) ∧
      ((word 0).toNat % 64 ≠ 0 → exec (.sgrun b) s = .next (takeTrap 0x03 0 false (s.rw b) u)) ∧
      ((word 0).toNat % 64 = 0 → exec (.sgrun b) s = .next (issued (.sgrun b) (.chain (word 0).toNat)))) ∧
    (∀ u, takeS [] [a] s = .ok ([], u) →
      let q := (s.rw b).toNat % 16
      let mine (o : EngOp) : Bool := sameTask s.cur o.tid o.origin
      let ops := (s.core.eng[q]?).getD []
      let moved := match ops.head? with | none => 0 | some o => if mine o then o.moved else 0
      exec (.xstat a b true) s = .next ((charge .xfer s).onCur
        (Task.put a (if s.cur.xferid = 0 then 0 else s.cur.xstatus))).retired ∧
      exec (.xstat a b false) s = .next ((charge .xfer s).onCur (Task.put a (if q < 4 ∨ q = 10 then
        BitVec.ofNat 64 ((ops.filter mine).length % 2 ^ 16 * 2 ^ 32 + moved % 2 ^ 32) else 0))).retired) ∧
    (∃ e, exec (.xcancel b) s = .next ((charge .xfer s).onCore fun c => { c with eng := e }).retired ∧
      ∀ q (h : q < 16), e[q] = if q < 4 then s.core.eng[q].map fun o =>
        if sameTask s.cur o.tid o.origin = true ∧ o.xid = s.rw b then { o with cancelled := true } else o else s.core.eng[q]) ∧
    (s.cur.inu = false → exec .uret s = .next (takeTrap 0x04 0 false (BitVec.ofNat 64 (s.cur.uepc.toNat * 4)) (charge .xfer s))) ∧
    (s.cur.inu = true → exec .uret s =
      .next (retire ((charge .xfer s).onCur fun t => { t with pc := s.cur.uepc ++ 0#2, inu := false, xferid := 0 })))

/-- R384 to R394: the block instructions. Each that names an entry enters queue 9 and waits for the answer of its entry step; then it
writes the answer, or takes the trap. -/
def Obligations.BlockInstructions : Prop :=
  ∀ (a b c : Fld) (s : State), wBusy s.cur a = false → wBusy s.cur b = false → wBusy s.cur c = false →
    let x := s.rw b
    let sync : List Instr := [.blkref a b, .blkrefNew a b, .blkfree a b, .blkcow a b]
    let waits (i : Instr) (k : EngKind) (u : State) : State :=
      blockCur .waitMem (.block none none) ((u.paid .blk).escaped.queuedOp 9 k 0 0 (hashedBlock i (leBytes 8 x.toNat)))
    (s.starts → s.cur.partCtr + 1 < 2 ^ 32 - 1 →
      exec (.blkref a b) s = .next (waits (.blkref a b) (.blkref x) s) ∧ exec (.blkfree a b) s = .next (waits (.blkfree a b) (.blkfree x) s) ∧
      (x.toNat ≤ 1 → exec (.blkrefNew a b) s = .next (waits (.blkrefNew a b) (.blkrefNew x) s)) ∧
      (∀ pa e u, x.toNat % 8 = 0 → x.toNat < 2 ^ 56 → translateAt .amo 0 x.toNat s = .ok (pa, e, u) →
        exec (.blkcow a b) s = .next (waits (.blkcow a b) (.blkcow pa) u)) ∧
      exec (.blkmoveTier b c) s = .next ((s.paid .blk).escaped.queuedOp 9 (.tier x (s.rw c)) 0 0
        (hashedBlock (.blkmoveTier b c) (wordBytes [x, s.rw c]))).retired) ∧
    (s.starts → 1 < x.toNat → exec (.blkrefNew a b) s = .next (takeTrap 0x09 0x07 false x s)) ∧
    (s.starts → x.toNat % 8 ≠ 0 → exec (.blkcow a b) s = .next (takeTrap 0x03 0 false x s)) ∧
    (s.starts → x.toNat % 8 = 0 → 2 ^ 56 ≤ x.toNat → exec (.blkcow a b) s = .next (takeTrap 0x04 0 false x s)) ∧
    (∀ i ∈ sync, ∀ r, s.cur.wait = some (.block (some r) none) → exec i s = .next (s.onCur fun t => t.setW (wIdx a) r).retired) ∧
    (∀ i ∈ sync, ∀ r p, s.cur.wait = some (.block r (some p)) → exec i s = .next (takeTrap p.cause p.detail false p.val s)) ∧
    (∀ ws, x.toNat % 32 = 0 → x.toNat + 32 ≤ 131072 → readWords s x.toNat 3 = .ok ws → s.starts → s.cur.partCtr + 1 < 2 ^ 32 - 1 →
      let w1 := (wordsAt ws 1).toNat
      let w2 := (wordsAt ws 2).toNat
      let off := w1 % 2 ^ 16
      let ta := w1 / 2 ^ 32
      let len := w2 % 2 ^ 32
      let sa := w2 / 2 ^ 32
      let fits : Prop := w1 / 2 ^ 16 % 2 ^ 16 = 0 ∧ off % 64 = 0 ∧ len % 64 = 0 ∧ 0 < len ∧ off + len ≤ 65536 ∧ ta + len ≤ 131072 ∧
        sa + 8 ≤ 131072
      ((ta % 64 ≠ 0 ∨ sa % 8 ≠ 0) → exec (.blkmovePut b) s = .next (takeTrap 0x03 0 false x s)) ∧
      (ta % 64 = 0 → sa % 8 = 0 → ¬ fits → exec (.blkmovePut b) s = .next (takeTrap 0x04 0 false x s)) ∧
      (ta % 64 = 0 → sa % 8 = 0 → fits → exec (.blkmovePut b) s =
        .next ((s.paid .blk).escaped.queuedOp 9 (.put (wordsAt ws 0) off ta len sa) 0 0 (hashedBlock (.blkmovePut b) (wordBytes ws))).retired) ∧
      (ta % 64 = 0 → sa % 8 = 0 → fits → storeRefused112 s s.cur.priv ta len = false → storeRefused112 s s.cur.priv sa 8 = false →
        exec (.blkmoveGet b) s = .next ((s.paid .blk).queuedOp 9 (.get (wordsAt ws 0) off ta len sa) 0 0 (hashedBlock (.blkmoveGet b) (wordBytes ws))).retired)) ∧
    (let r := s.vfReg s.core.vf
     let i := x.toNat % 2 ^ 32
     ((r.btbase = 0 ∨ r.btcnt.toNat ≤ i) → exec (.blkstat a b) s = .next (takeTrap 0x09 0x01 false x (charge .blk s))) ∧
     (r.btbase ≠ 0 → i < r.btcnt.toNat →
       let e := getEntry s i
       exec (.blkstat a b) s = .next ((charge .blk s).onCur fun t => t.setW (wIdx a) (BitVec.ofNat 64 (e.gen.toNat * 2 ^ 40
         + e.state.toNat * 2 ^ 38 + e.cow.toNat * 2 ^ 37 + e.tier.toNat * 2 ^ 36
         + (if e.gen.toNat = x.toNat / 2 ^ 32 % 2 ^ 24 then 0 else 2 ^ 35) + (if (oldCopy s i).isSome then 2 ^ 34 else 0)
         + e.refcnt.toNat * 2 ^ 16 + e.drain.toNat)) ).retired))

/-- R92, R93, R114 to R116: an access to a control register with general registers as its operands returns the old value, and a write
reads back in the fields that it may write. FMAXN stores the clamped value, FSTAT clears the bits it is given, and a write of matrix or
function state makes the task heavy. A failed check of privilege traps with PRIV. -/
def Obligations.ControlRegisters : Prop :=
  ∀ (op : CsrOp) (a b : Fld) (n : BitVec 12) (s : State),
    (csrAllowed op n a b s.cur.priv = false →
      exec (csrInstr op a b n) s = .next (takeTrap 0x02 0 false ((encode (csrInstr op a b n)).setWidth 64) s)) ∧
    (csrAllowed op n a b s.cur.priv = true → (csrMatrix n = false ∨ ∀ c ∈ s.core.mx.queue, c.started = true) →
      ∀ vs u, takeS (if op = .read then [] else [b]) [a] s = .ok (vs, u) → exec (csrInstr op a b n) s = .next
        ((if csrWrites op b then csrApply op n (csrRead n u) (vs.headD 0) (charge .csr u) else charge .csr u).onCur (Task.put a (csrRead n u))).retired) ∧
    (csrAllowed op n a b s.cur.priv = true → (csrMatrix n = false ∨ ∀ c ∈ s.core.mx.queue, c.started = true) →
      a < 16 → b < 16 → wBusy s.cur a = false → wBusy s.cur b = false → s.issues →
      let v := s.rw b
      let new : Word := match op with | .read => csrRead n s | .write => v | .set => csrRead n s ||| v | .clear => csrRead n s &&& ~~~v
      let writes : Prop := op = .write ∨ (op = .set ∧ b ≠ 0) ∨ (op = .clear ∧ b ≠ 0)
      ∃ t, exec (csrInstr op a b n) s = .next t ∧ t.getW (wIdx a) = (if wIdx a = 0 then 0 else csrRead n s) ∧ t.cur.pc = s.cur.pc + 4 ∧
        s.charged t 1200 ∧
        (¬ writes → Frame [wIdx a] s t) ∧
        (writes → (∀ k, k ≠ wIdx a → t.getW k = s.getW k) ∧ t.core.tcm = s.core.tcm ∧ t.home.mem = s.home.mem ∧ t.rest = s.rest.map unyield) ∧
        (writes → ∀ f ∈ csrFields n.toNat, (csrRead n t).extractLsb' f.1 f.2 = new.extractLsb' f.1 f.2) ∧
        (writes → n = 0x401 → csrRead n t = if new = 0 then 1 else if 256 < new.toNat then 256 else new) ∧
        (writes → n = 0x402 → csrRead n t = if op = .set then csrRead n s else csrRead n s &&& ~~~(v &&& 7)) ∧
        (writes → csrHeavy n = true → t.cur.hvy = true))

/-- R121 to R123: a trap of any cause enters the handler, keeping the registers, the stamp, the identity and the privilege; with no
handler, or at the handler's own first instruction, it escalates: the error agent records it, and the task ends with nothing more
published. TRAP takes the trap TRAPI with its code; ERET returns to TEPC and changes no control register. R412, R413: an entry of the
error agent: it takes an index from NEXT, and writes its 32 bytes at that entry, or adds 1 to DROP where the record is full; every other
byte of memory stays. -/
def Obligations.TrapEntry : Prop :=
  ((∀ (cause : BitVec 6) (detail : BitVec 8) (async : Bool) (v : Word) (s : State), s.cur.shadow = false →
     let w : State := if async = true ∨ cause = 0x12 then s else { s with rest := s.rest.map unyield }
     (s.trapvec ≠ 0 ∧ (async = true ∨ s.cur.pc.toNat / 4 ≠ s.trapvec.toNat) →
       takeTrap cause detail async v s = { w with cur := { s.cur with
         tcDetail := detail, tcAsync := async, tcCause := cause, tepc := BitVec.ofNat 54 (s.cur.pc.toNat / 4), tval := v,
         pc := BitVec.ofNat 56 (4 * s.trapvec.toNat), wait := none, paid := false, trapTaken := false, st := .running } }) ∧
     ((s.trapvec = 0 ∨ (async = false ∧ s.cur.pc.toNat / 4 = s.trapvec.toNat)) →
       let t := takeTrap cause detail async v s
       t.cur.st = .ended ∧ t.cur.recs = [] ∧ t.cur.held = [] ∧ t.tile.escl = true ∧
       (s.cur.traps = [] → anyFail s.cur = false →
         let u := errEntry (errEntryBytes 1 (BitVec.ofNat 8 s.cur.redel) cause detail s.core.id s.cur.tid (BitVec.ofNat 64 s.cur.pc.toNat) v) w
         t.home.mem = u.home.mem ∧ t.tile.errs = u.tile.errs))) ∧
   (∀ (c : BitVec 15) (s : State), exec (.trap c) s = .next (takeTrap 0x16 0 false (BitVec.ofNat 64 c.toNat) (charge .sys s))) ∧
   (∀ (s : State), exec .eret s = .next { charge .sys s with
     cur := { s.cur with pc := BitVec.ofNat 56 (4 * s.cur.tepc.toNat), brkSkip := true, trapTaken := false }, rest := s.rest.map unyield })) ∧
  (∀ (bytes : List Byte) (s : State) (pa : Nat), s.launch.errrec ≠ 0 → s.tile.errQ = [] → agentXlat s s.launch.errrec = some pa →
     refusedAt s s.core.vf pa = false → anyPoison s.home.poison pa 32 = false → bytes.length = 32 → Memory.wf s.home.mem = true →
     let word (a : Nat) : Nat := leNat (memGetN s.home.mem a 8)
     let n := word pa
     let t := errEntry bytes s
     let byte (v k : Nat) : Byte := BitVec.ofNat 8 (v / 256 ^ k)
     t.tile.errs.toNat = Nat.min 65535 (s.tile.errs.toNat + 1) ∧
     (word (pa + 8) ≤ n → ∀ x, memGet t.home.mem x = if pa ≤ x ∧ x < pa + 8 then byte (n + 1) (x - pa)
       else if pa + 16 ≤ x ∧ x < pa + 24 then byte (word (pa + 16) + 1) (x - pa - 16) else memGet s.home.mem x) ∧
     (∀ q, n < word (pa + 8) → agentXlat s (s.launch.errrec + 32 + 32 * n) = some q → refusedAt s s.core.vf q = false →
       anyPoison s.home.poison q 32 = false → ∀ x, memGet t.home.mem x = if q ≤ x ∧ x < q + 32 then bytes.getD (x - q) 0
         else if pa ≤ x ∧ x < pa + 8 then byte (n + 1) (x - pa) else memGet s.home.mem x))

/-- R89: an instruction that needs service privilege traps with PRIV at task privilege. R353, R356, R360, R379 to R382, R421: the system
instructions, with service privilege where they need it. -/
def Obligations.SystemInstructions : Prop :=
  (∀ (a b c : Fld) (s : State), s.cur.priv = 0 →
     ∀ i ∈ [Instr.halt b, .tlbinvPage b c, .tlbinvAsid c, .tlbinvVf c, .tlbinvHarvest, .asidset a b, .asidsetNew a b c, .swapwp a b,
       .faultreply a b c, .eread a b],
       exec i s = .next (takeTrap 0x02 0 false ((encode i).setWidth 64) s)) ∧
  (∀ (a b c : Fld) (s : State), wBusy s.cur a = false → wBusy s.cur b = false → wBusy s.cur c = false →
     let v : BitVec 6 := (s.rw b).extractLsb' 0 6
     let x := s.rw b
     let done (u : State) : State := ((charge .sys u)).retired
     let drop (p : Tlb → Bool) (vf : BitVec 6) (id : Option (BitVec 16)) (va : Option Nat) : State :=
       { s with core := { s.core with itlb := s.core.itlb.filter fun e => !p e, dtlb := s.core.dtlb.filter fun e => !p e },
                tile := { s.tile with l2tlb := s.tile.l2tlb.filter fun e => !p e, dropsOut := s.tile.dropsOut + 1 },
                home := { s.home with out := s.home.out ++ [.tlbDrop vf id va] } }
     let awaits (u : State) : State := blockCur .waitMem (.translations 0) u
     let merged (pa : Nat) (h : HomeSt) : HomeSt := if noMemory s pa then h else setD pa h
     (∀ k, brkEn s = true ∧ brkTask s = false ∧ matchesDbg (s.vfReg s.core.vf) s.cur = true ∧ s.cur.shadow = false →
       exec (.brk k) s = .next (retire { charge .sys s with
         cur := { s.cur with stopped := true, brkSkip := false },
         tile := { (charge .sys s).tile with halted := true, frozen := true },
         home := { s.home with out := s.home.out ++ [.freeze true] } })) ∧
     (∀ k, ¬ (brkEn s = true ∧ brkTask s = false ∧ matchesDbg (s.vfReg s.core.vf) s.cur = true ∧ s.cur.shadow = false) →
       exec (.brk k) s = .next (takeTrap 0x17 0 false (BitVec.ofNat 64 s.cur.pc.toNat) (charge .sys s))) ∧
     (scLog s = false → exec (.dbgmark b) s = .next (done s)) ∧
     (scLog s = true → exec (.dbgmark b) s = .next (slog s.cur.tid (ctxNum s.cur) 14 (x.extractLsb' 0 32) (charge .sys s)).retired) ∧
     (s.cur.priv ≠ 0 →
       ((v = 0 ∨ (s.core.vf ≠ 0 ∧ v ≠ s.core.vf)) →
         exec (.halt b) s = .next (takeTrap 0x02 0 false ((encode (.halt b)).setWidth 64) s)) ∧
       (v ≠ 0 → (s.core.vf = 0 ∨ v = s.core.vf) → (s.vfReg v).cause ≠ 0 → exec (.halt b) s = .next (done s)) ∧
       (v ≠ 0 → (s.core.vf = 0 ∨ v = s.core.vf) → (s.vfReg v).cause = 0 →
         exec (.halt b) s = .next (stopVf v 2 ((charge .sys s).setVf v { s.vfReg v with code := x.extractLsb' 16 16 })).retired) ∧
       (s.cur.wait = none →
         (let va := x.toNat % 2 ^ 56
          exec (.tlbinvPage b c) s = .next (awaits (charge .sys (drop (fun e => e.vf == s.core.vf && e.asid == (s.rw c).extractLsb' 0 16
            && decide (e.va ≤ va ∧ va < e.va + 2 ^ e.bits)) s.core.vf (some ((s.rw c).extractLsb' 0 16)) (some va))))) ∧
         exec (.tlbinvAsid b) s = .next (awaits (charge .sys (drop (fun e => e.vf == s.core.vf && e.asid == x.extractLsb' 0 16) s.core.vf
           (some (x.extractLsb' 0 16)) none))) ∧
         ((s.core.vf = 0 ∨ v = s.core.vf) → exec (.tlbinvVf b) s = .next (awaits (charge .sys (drop (fun e => e.vf == v) v none none)))) ∧
         (s.core.vf ≠ 0 → v ≠ s.core.vf → exec (.tlbinvVf b) s = .next (takeTrap 0x02 0 false ((encode (.tlbinvVf b)).setWidth 64) s)) ∧
         exec .tlbinvHarvest s = .next (awaits (charge .sys { s with
           core := { s.core with dirty := [] }, tile := { s.tile with dropsOut := s.tile.dropsOut + 1 },
           home := { (s.core.dirty.foldl (fun h r => merged r.2 (merged r.1 h)) s.home) with out := s.home.out ++ [.harvest s.core.vf] } }))) ∧
       (∀ n, s.cur.wait = some (.translations n) → ∀ i ∈ [Instr.tlbinvPage b c, .tlbinvAsid b, .tlbinvVf b, .tlbinvHarvest],
         exec i s = .next (if s.tile.dropsOut = 0 then s.retired else awaits s)) ∧
       ((s.core.vf = 0 ∨ v = s.core.vf) → exec (.eread a b) s = .next ((charge .sys s).onCur fun t => t.setW (wIdx a)
         (if x.toNat / 256 % 4 = 0 then (s.vfReg v).ecnt else if x.toNat / 256 % 4 = 1 then (s.vfReg v).equota
          else if x.toNat / 256 % 4 = 2 then estatWord (s.vfReg v)
          else BitVec.ofNat 64 (tabGet (charge .sys s).tile.meter 0 v.toNat))).retired) ∧
       (s.core.vf ≠ 0 → v ≠ s.core.vf → exec (.eread a b) s = .next (takeTrap 0x02 0 false ((encode (.eread a b)).setWidth 64) s))))

/-- R352, R353: ASIDSET binds the core to an address space once no translation is in flight; ASIDSET.new renews its root and generation
first, unless another core is bound to it, and waits until the other dies have answered. -/
def Obligations.AddressSpace : Prop :=
  ∀ (a b c : Fld) (s : State), wBusy s.cur a = false → wBusy s.cur b = false → wBusy s.cur c = false → s.cur.priv ≠ 0 →
    let id : BitVec 16 := (s.rw b).extractLsb' 0 16
    let vf := s.core.vf
    let root := s.rw c
    let old : Word := BitVec.ofNat 64 (s.core.asidGen.toNat * 65536 + s.core.asid.toNat)
    let u := s.paid .sys
    let bound (n : BitVec 16) (u : State) : State := ((bindAsid n u).onCur fun t => t.setW (wIdx a) old).retired
    (s.starts →
      (inFlight s = false → exec (.asidset a b) s = .next (bound id u)) ∧
      (inFlight s = true → exec (.asidset a b) s = .next (blockCur .waitMem (.translations id) u)) ∧
      ((root.toNat % 8192 ≠ 0 ∨ 2 ^ 52 ≤ root.toNat) → exec (.asidsetNew a b c) s = .next (takeTrap 0x04 0 false root s)) ∧
      (root.toNat % 8192 = 0 → root.toNat < 2 ^ 52 → 0 < (s.asidEnt vf id).count → id ≠ s.core.asid →
        exec (.asidsetNew a b c) s = .next (u.onCur fun t => t.setW (wIdx a) (BitVec.ofNat 64 (2 ^ 63 + (s.asidEnt vf id).count))).retired) ∧
      (root.toNat % 8192 = 0 → root.toNat < 2 ^ 52 → ((s.asidEnt vf id).count = 0 ∨ id = s.core.asid) →
        let v := renewAsid vf id root u
        exec (.asidsetNew a b c) s = .next (blockCur .waitMem (.translations id) { v with
          home := { v.home with out := v.home.out ++ [.asidRoot vf id root] }, tile := { v.tile with dropsOut := v.tile.dropsOut + 1 } }))) ∧
    (∀ n, s.cur.wait = some (.translations n) →
      exec (.asidset a b) s = .next (if inFlight s = true then blockCur .waitMem (.translations n) s else bound n s) ∧
      exec (.asidsetNew a b c) s = .next (if inFlight s = true ∨ s.tile.dropsOut ≠ 0 then blockCur .waitMem (.translations n) s else bound n s)) ∧
    (let e := s.asidEnt vf id
     let v := renewAsid vf id root s
     v.asidEnt vf id = { e with root := root.extractLsb' 0 52, gen := e.gen + 1 } ∧
     (e.gen ≠ 15 → v = s.setAsid vf id { e with root := root.extractLsb' 0 52, gen := e.gen + 1 })) ∧
    (let v := bindAsid id s
     v.core.asid = id ∧ v.core.asidGen = (s.asidEnt vf id).gen ∧
     (id ≠ s.core.asid → (v.asidEnt vf id).count = (s.asidEnt vf id).count + 1 ∧
       (v.asidEnt vf s.core.asid).count = (s.asidEnt vf s.core.asid).count - 1))

/-- R381: SWAPWP leaves the workspace, whose registers, PC and status byte TCM then holds, and enters another. -/
def Obligations.SwapWorkspace : Prop :=
  ∀ (a b : Fld) (s : State), (∀ f, wBusy s.cur f = false) → s.cur.priv ≠ 0 → s.cur.shadow = false →
    let x := s.rw b
    let n := x.toNat
    let taken : Prop := (s.launch.live = true ∧ overlaps n 128 s.logBase (s.inboxEnd - s.logBase) = true) ∨
      ∃ t ∈ s.rest, t.st ≠ .ended ∧ t.wp.toNat = n
    (n % 128 ≠ 0 → exec (.swapwp a b) s = .next (takeTrap 0x03 0 false x s)) ∧
    (n % 128 = 0 → (131072 < n + 128 ∨ taken) → exec (.swapwp a b) s = .next (takeTrap 0x04 0 false x s)) ∧
    (n % 128 = 0 → n + 128 ≤ 131072 → ¬ taken → tcmBusy s n 128 = false → anyPoison s.core.tcmPoison n 128 = false →
      Memory.wf s.core.tcm = true → s.issues → s.cur.wp.toNat ≠ n → s.cur.wp.toNat % 128 = 0 →
      let word (k : Nat) : Word := leWord (memGetN s.core.tcm (n + 8 * k) 8)
      ∃ t, exec (.swapwp a b) s = .next t ∧ t.cur.wp.toNat = n ∧
        (∀ k : BitVec 4, k ≠ 0 → t.getW k = if k = wIdx a then BitVec.ofNat 64 s.cur.wp.toNat else word k.toNat) ∧
        t.cur.pc = (word 0).extractLsb' 2 54 ++ 0#2 ∧ t.cur.mig = (word 0).getLsbD 63 ∧
        (∀ k : BitVec 4, k ≠ 0 → leWord (memGetN t.core.tcm (s.cur.wp.toNat + 8 * k.toNat) 8) = s.getW k) ∧
        leWord (memGetN t.core.tcm s.cur.wp.toNat 8) =
          (s.cur.statusByte ++ ((s.cur.pc + 4).extractLsb' 2 54 ++ 0#2 : BitVec 56) : BitVec 64) ∧
        (∀ y, (y < s.cur.wp.toNat ∨ s.cur.wp.toNat + 128 ≤ y) → memGet t.core.tcm y = memGet s.core.tcm y))

/-- R356: FAULTREPLY seals at package scope and waits for its segments; then it answers the walk that its token names, and returns 0, or 1
for a stale token. Whether a token of another cluster is stale only that cluster knows: a free value (log entry 36). -/
def Obligations.FaultReply : Prop :=
  ∀ (a b c : Fld) (s : State), wBusy s.cur a = false → wBusy s.cur b = false → wBusy s.cur c = false → s.cur.priv ≠ 0 →
    let reply (token ans : Word) (u : State) : State :=
      let r : Bool × State := if token.toNat / 64 % 64 = u.clusterId then
          (u.tile.faults.any fun f => faultToken u.clusterId f == token && f.posted && f.toCore == u.core.id, u)
        else (u.free.1.getLsbD 0, u.free.2)
      if r.1 = true then ((r.2.onHome fun h => { h with out := h.out ++ [.faultAns token (ans == 0)] }).onCur fun t => t.setW (wIdx a) 0).retired
      else (r.2.onCur fun t => t.setW (wIdx a) 1).retired
    (s.starts → 1 < (s.rw c).toNat → exec (.faultreply a b c) s = .next (takeTrap 0x04 0 false (s.rw c) s)) ∧
    (s.starts → (s.rw c).toNat ≤ 1 → badPush s.cur = none → sharedPushes s.cur = [] →
      let u := (s.paid .sys).published 5
      exec (.faultreply a b c) s = .next (if segsAcked u s.cur.openSeg = true then reply (s.rw b) (s.rw c) u
        else blockCur .waitMem (.reply s.cur.openSeg (s.rw b) (s.rw c)) u)) ∧
    (∀ n token ans, s.cur.wait = some (.reply n token ans) → exec (.faultreply a b c) s =
      .next (if segsAcked s n = true then reply token ans s else blockCur .waitMem (.reply n token ans) s))

/-- R83, R149, R150, R155 to R161, R165: 22 vector instructions over every kind of field: each element written has the value of the rule,
every other keeps its old value; the task is heavy (R34). -/
def Obligations.VectorElements : Prop :=
  ∀ (i : Instr) (r : VecOp) (s u : State) (vs : List (BitVec 512)) (xs : List Word), vecOp i = some r →
    takeV r.vsrcs r.srcs (some (r.dst, r.part)) [] s = .ok (vs, xs, u) →
    ∃ x : BitVec 512, exec i s = .next ((writeV r.dst x (charge r.cls u)).onCur fun t => { t with hvy := true }).retired ∧
      ∀ k, k < 512 / r.w → lane r.w x k =
        if r.writes s.cur.vmask xs k then r.val s.cur.vmask vs xs k else lane r.w ((s.cur.v[r.dst.toNat]?).getD 0) k

/-- R157, R158, R160, R165 to R168: VCMP, VSETM, VEXT, the reductions, VQNT and XGET; XR_WRITE applies the writes of XR in issue order,
one at a time, and holds the next while an XGET has yet to read (R168). -/
def Obligations.VectorScalars : Prop :=
  ∀ (a b c : Fld) (k : BitVec 3) (n m : Bool) (f p : BitVec 3) (s : State),
    let heavy (u : State) : State := (u.onCur fun t => { t with hvy := true }).retired
    (∀ vs xs u, takeV [b, c] [] none [] s = .ok (vs, xs, u) → ∃ mask : Word,
      exec (.vcmp k b c n m f) s = .next (heavy ((charge .valu u).onCur fun t => { t with vmask := mask })) ∧
      ∀ j < 64, mask.getLsbD j = (decide (j < 512 / fmtWidth f) && (!m || s.cur.vmask.getLsbD j) &&
        compares k n f (lane _ (vsrc vs 0) j) (lane _ (vsrc vs 1) j))) ∧
    (∀ xs u, takeS [b] [a] s = .ok (xs, u) →
      exec (.vsetm a b) s = .next (heavy ((charge .valu u).onCur fun t => { Task.put a t.vmask t with vmask := xsrc xs 0 }))) ∧
    (∀ vs xs u, takeV [b] [c] none [a] s = .ok (vs, xs, u) →
      let x := lane (fmtWidth f) (vsrc vs 0) ((xsrc xs 0).toNat % (512 / fmtWidth f))
      exec (.vext a b c f) s = .next (heavy ((charge .vperm u).onCur
        (Task.put a (if isFloat f then BitVec.ofNat 64 x.toNat else BitVec.ofInt 64 x.toInt))))) ∧
    (∀ i b m f g, reduces i = some (b, m, f, g) → s.cur.xrPend.length < 15 → ∀ vs xs u, takeV [b] [] none [] s = .ok (vs, xs, u) →
      exec i s = .next (heavy ((charge .vred u).onCur fun t =>
        { t with xrPend := t.xrPend ++ [{ val := g ((actives (fmtWidth f) m s.cur.vmask (vsrc vs 0)).map (·.toNat)) }] }))) ∧
    (s.cur.xrPend.length < 15 → ∀ vs xs u, takeV [b, c] [] (some (a, true)) [] s = .ok (vs, xs, u) →
      let sup := decodeF fp32 (lane 32 (vsrc vs 1) 0).toNat
      let amax := decodeF fp32 (lane 32 (vsrc vs 1) 1).toNat
      let scale (j : Nat) : Nat := roundF fp32 false false (sup.mul (.fin false (j + 1) (-8)))
      let code := ((List.range 256).find? fun j => amax.le (decodeF fp32 (scale j))).getD 255
      let bad := (match sup with | .fin neg m _ => neg || m == 0 | _ => true) || amax == .nan || amax.lt zeroFV ||
        (decodeF fp32 (scale code)).eq zeroFV
      let w := fmtWidth f
      ∃ x : BitVec 512, exec (.vqnt a b c p f) s = .next (heavy ((writeV a x (charge .vcvt u)).onCur fun t =>
          { t with xrPend := t.xrPend ++ [{ val := if bad then BitVec.ofNat 64 (2 ^ 63 + 255) else BitVec.ofNat 64 code }] })) ∧
        ∀ j < 128, lane 4 x j = if p.toNat * (512 / w) ≤ j ∧ j < p.toNat * (512 / w) + 512 / w then
            (if bad then 0 else BitVec.ofNat 4 (nqQuant (decodeF (fmtOf f) (lane w (vsrc vs 0) (j - p.toNat * (512 / w))).toNat)
              (decodeF fp32 (scale code))))
          else lane 4 ((s.cur.v[a.toNat]?).getD 0) j) ∧
    (∀ (q : BitVec 4) u, takeS [] [a] s = .ok ([], u) →
      let d := (q.toNat + 16 - s.cur.xseq.toNat) % 16
      ((d = 0 ∨ s.cur.xrPend.length < d) → s.cur.paid = false → exec (.xget a q) s =
        .next (s.completes .vred fun t => { Task.put a t.xr t with hvy := true })) ∧
      (0 < d → d ≤ s.cur.xrPend.length → s.cur.wait = none → s.cur.st = .running →
        exec (.xget a q) s = .next (blockCur .running (.xget q) s))) ∧
    (∀ x r, s.cur.st ≠ .ended → s.cur.shadow = false → s.cur.xrPend = x :: r → s.cur.wait ≠ some (.xget s.cur.xseq) →
      exec (.xrWrite s.cur.frame) s = .next (s.onCur fun t => { t with xr := x.val, xseq := t.xseq + 1, xrPend := r }))

/-- R169 to R172: VTRAN sends the active elements to the column unit, at most 4 requests of a core at a time; VTRAN_REPLY writes the lanes
of the register, or pushes the strip with zeros in its inactive lanes, the replies of a core in issue order. -/
def Obligations.ColumnUnit : Prop :=
  ∀ (a b : Fld) (m : Bool) (g : BitVec 3) (s : State),
    let mask : BitVec 16 := if m then s.cur.vmask.extractLsb' 0 16 else 0xFFFF
    let out := (s.tasks.map (·.vtPend)).flatten
    (∀ vs xs u, out.length < 4 → takeV [b] [] (some (a, m)) [] s = .ok (vs, xs, u) →
      let req : VtPend := { num := (out.map (·.num)).foldl max 0 + 1, vd := a, src := vsrc vs 0, fn := g, mask := mask }
      exec (.vtran a b m g) s = .next ((charge .vtran u).onCur fun t => { t with hvy := true, vtPend := t.vtPend ++ [req] }).retired) ∧
    (∀ r l, s.cur.st ≠ .ended → s.cur.shadow = false → s.cur.vtPend = r :: l → (∀ x ∈ out, r.num ≤ x.num) → ∃ x : BitVec 512,
      (r.vd < 16 → exec (.vtranReply s.cur.frame) s = .next (s.onCur fun t =>
        { t with v := t.v.setIfInBounds r.vd.toNat x, vAbsent := t.vAbsent &&& ~~~(1#16 <<< r.vd.toNat), vtPend := l })) ∧
      (¬ r.vd < 16 → exec (.vtranReply s.cur.frame) s = .next (writeV r.vd x (s.onCur fun t => { t with vtPend := l }))) ∧
      ∀ k < 16, lane 32 x k = if r.mask.getLsbD k then BitVec.ofNat 32 (columnFn r.fn (lane 32 r.src k).toNat)
        else if r.vd < 16 then lane 32 ((s.cur.v[r.vd.toNat]?).getD 0) k else 0)

/-- R113, R162, R163: VLD, VST, VGATH and VSCAT: the bytes of TCM they read and write; a masked element of a gather keeps its old value;
of two elements scattered to one address the higher remains. R162, R225, R234, R244, R245: VLDS reads its 64 bytes as LD does, the task's
own records first; VSTS appends one record of 64 bytes. -/
def Obligations.VectorMemory : Prop :=
  ((∀ (a b : Fld) (o : BitVec 10) (s : State) (x : Word), s.starts → takeV [] [b] (some (a, false)) [] s = .ok ([], [x], s) →
     let ea := address x o.toInt 64
     s.inTcm b ea 64 → tcmBusy s ea.toNat 64 = false → anyPoison s.core.tcmPoison ea.toNat 64 = false →
     exec (.vld a b o) s = .next ((s.paid .vmem).vloads a (tcmBytes s ea.toNat 64))) ∧
   (∀ (a b : Fld) (o : BitVec 10) (s u : State) (x : Word) (d : BitVec 512), takeV [a] [b] none [] s = .ok ([d], [x], u) →
     u.starts → u.memOk = true → u.cur.slot.isSome = true →
     let ea := address x o.toInt 64
     u.inTcm b ea 64 → storeRefused112 u u.cur.priv ea.toNat 64 = false → storeRefused26 u ea.toNat 64 = false →
     tcmBusyW u ea.toNat 64 = false →
     ∃ t, exec (.vst a b o) s = .next t ∧ u.Stores 9000 true [(ea.toNat, leBytes 64 d.toNat)] t) ∧
   (∀ (a b c : Fld) (m : Bool) (f : BitVec 3) (s u : State) (base : Word) (vi : BitVec 512),
     takeV [c] [b] (some (a, m)) [] s = .ok ([vi], [base], u) →
     let w := fmtWidth f
     let l := gathers w m s.cur.vmask base vi
     base.toNat % (w / 8) = 0 →
     (∀ y ∈ l, y.2 + w / 8 ≤ 131072 ∧ tcmBusy s y.2 (w / 8) = false ∧ anyPoison s.core.tcmPoison y.2 (w / 8) = false) →
     ∃ x : BitVec 512, exec (.vgath a b c m f) s = .next ((writeV a x (charge .vmem u)).onCur fun t => { t with hvy := true }).retired ∧
       ∀ k, k < 512 / w → lane w x k =
         if !m || s.cur.vmask.getLsbD k then BitVec.ofNat w (leNat (tcmBytes s (base.toNat + (lane w vi k).toNat * (w / 8)) (w / 8)))
         else lane w ((s.cur.v[a.toNat]?).getD 0) k) ∧
   (∀ (a b c : Fld) (m : Bool) (f : BitVec 3) (s u : State) (base : Word) (vi d : BitVec 512),
     takeV [c, a] [b] none [] s = .ok ([vi, d], [base], u) → u.starts → u.memOk = true → u.cur.slot.isSome = true →
     let w := fmtWidth f
     let l := gathers w m s.cur.vmask base vi
     base.toNat % (w / 8) = 0 →
     (∀ y ∈ l, y.2 + w / 8 ≤ 131072 ∧ storeRefused112 s s.cur.priv y.2 (w / 8) = false ∧ storeRefused26 s y.2 (w / 8) = false ∧
       storeRefused26 u y.2 (w / 8) = false ∧ tcmBusyW s y.2 (w / 8) = false) →
     ∃ t, exec (.vscat a b c m f) s = .next t ∧ u.Stores 9000 true (l.map fun y => (y.2, leBytes (w / 8) (lane w d y.1).toNat)) t)) ∧
  ((∀ (a b : Fld) (o : BitVec 10) (p : BitVec 3) (s u : State) (x : Word) (e : Tlb) (pa : Nat),
     s.starts → scopeOk s p = true → takeV [] [b] (some (a, false)) [] s = .ok ([], [x], s) → aqPending s.cur = false →
     badPush s.cur = none → sharedPushes s.cur = [] → s.Reaches .load p (address x o.toInt 64) 64 u e pa →
     let run := exec (.vlds a b o p) s
     let own := ownBytes u pa 64
     let inScope := freshHome u pa p
     let line := u.core.vcache.find? fun l => l.line == pa / 64
     (own.all (·.isSome) = true → run = .next ((u.paid .vmem).vloads a (own.map fun x => x.getD 0))) ∧
     (own.all (·.isSome) = false →
       (∀ l, line = some l → inScope = false → wordInFlight u.cur pa 64 = false → l.poison = [] →
         run = .next (((u.paid .vmem).onCore fun c => { c with vcache := vcTouch (pa / 64) c.vcache }).vloads a
           ((own.zip ((l.data.drop (pa % 64)).take 64)).map fun x => x.1.getD x.2))) ∧
       ((line = none ∨ inScope = true ∨ wordInFlight u.cur pa 64 = true) → u.cur.loads.length < 16 →
         run = .next ((u.completes .vmem fun t =>
           { t with loads := t.loads ++ [{ vec := true, dst := a, sz := 64, sext := false, pa := pa, own := own, fill := !inScope,
                                           reply := none, poisoned := false, num := t.reqNum, marks := t.marks }],
                    reqNum := t.reqNum + 1, hvy := true }).paying (chargeAccess pa 64 (charge .vmem u)))))) ∧
   (∀ (a b : Fld) (o : BitVec 10) (p : BitVec 3) (s u v : State) (x : Word) (d : BitVec 512) (e : Tlb) (pa : Nat),
     u.starts → scopeOk s p = true → takeV [a] [b] none [] s = .ok ([d], [x], u) →
     u.Reaches .store p (address x o.toInt 64) 64 v e pa →
     80 + (if (v.cur.recs.filter fun r => !r.ovf).isEmpty then 32 else 0) ≤ logFree v →
     exec (.vsts a b o p) s = .next (v.completes .vmem fun t =>
       { t with recs := t.recs ++ [{ pa := pa, data := leBytes 64 d.toNat, idx := t.recCtr, marked := false, ovf := false }],
                floor := if t.floor < p then p else t.floor, recCtr := t.recCtr + 1, hvy := true })))

/-- R174, R175, R181, R184 to R188, R195: the matrix instructions at issue: the context claimed, the checks in their order, the command
queued; after an engine error the command is counted and discarded; MSTAT reads the state of the context. -/
def Obligations.MatrixInstructions : Prop :=
  (∀ (acc b c : Fld) (n : BitVec 6) (w st : Bool) (f : BitVec 3) (s : State), s.starts → wBusy s.cur b = false → wBusy s.cur c = false →
    s.mxMine →
    let u := s.mxClaimed
    let a := s.rw b
    let bar := if w then some n else none
    let ph := (s.bar n).phase
    let trap (c : BitVec 6) (v : Word) : Host.Outcome State Fault Refusal := .next (takeTrap c 0 false v s)
    (u.core.mx.err = true → ∀ i ∈ [Instr.mma acc b n w, .mmas acc b n w, .mlatch b n w, .mzero acc, .mrot n, .mdrain acc b c st f],
      exec i s = .next ((u.onCur fun t => { t with hvy := true }).onCore fun c =>
        { c with mx := { c.mx with disc := Nat.min 255 (c.mx.disc + 1) } }).retired) ∧
    (u.core.mx.err = false → s.cur.partCtr + 1 < 2 ^ 32 - 1 →
      (∀ i ∈ [Instr.mma acc b n w, .mmas acc b n w, .mlatch b n w],
        (a.toNat % 64 ≠ 0 → exec i s = trap 0x03 a) ∧
        (a.toNat % 64 = 0 → 131072 ≤ a.toNat → exec i s = trap 0x04 a) ∧
        (a.toNat % 64 = 0 → a.toNat < 131072 → w = true → (s.bar n).init = false → exec i s = trap 0x13 (n.setWidth 64))) ∧
      (a.toNat % 64 = 0 → a.toNat < 131072 → (w = true → (s.bar n).init = true) →
        exec (.mma acc b n w) s = .next (u.commanded .mma acc a.toNat bar ph 0 0 0 false) ∧
        exec (.mmas acc b n w) s = .next (u.commanded .mmas acc a.toNat bar ph 0 0 0 false) ∧
        exec (.mlatch b n w) s = .next ((u.paid .mctl).commanded .mlatch 0 a.toNat bar ph 0 0 0 false)) ∧
      exec (.mzero acc) s = .next ((u.paid .mctl).commanded .mzero acc 0 none 0 0 0 0 false) ∧
      (¬ ((s.bar n).init = true ∧ (s.bar n).count = 8) → exec (.mrot n) s = trap 0x13 (n.setWidth 64)) ∧
      ((s.bar n).init = true → (s.bar n).count = 8 →
        exec (.mrot n) s = .next ((u.paid .mctl).commanded .mrot 0 0 (some n) ph 0 0 0 false)) ∧
      (let x := s.rw c
       let tcm := a.getLsbD 63
       let t := a.toNat % 2 ^ 17
       let hole : Prop := a.toNat / 2 ^ 17 ≠ 2 ^ 46
       let base := if tcm then t else a.toNat
       let fits : Prop := if tcm then t + tileLen f ≤ 131072 ∧ storeRefused112 s s.cur.priv t (tileLen f) = false
         else a.toNat + tileLen f ≤ 2 ^ 56
       (tcm = true → hole → exec (.mdrain acc b c st f) s = trap 0x04 a) ∧
       (¬ (tcm = true ∧ hole) → base % 64 ≠ 0 → exec (.mdrain acc b c st f) s = trap 0x03 a) ∧
       (¬ (tcm = true ∧ hole) → base % 64 = 0 → ¬ fits → exec (.mdrain acc b c st f) s = trap 0x04 a) ∧
       (¬ (tcm = true ∧ hole) → base % 64 = 0 → fits → x.toNat % 4 ≠ 0 → exec (.mdrain acc b c st f) s = trap 0x03 x) ∧
       (¬ (tcm = true ∧ hole) → base % 64 = 0 → fits → x.toNat % 4 = 0 → 2 ^ 56 ≤ x.toNat →
         exec (.mdrain acc b c st f) s = trap 0x04 x) ∧
       (¬ (tcm = true ∧ hole) → base % 64 = 0 → fits → x.toNat % 4 = 0 → x.toNat < 2 ^ 56 →
         exec (.mdrain acc b c st f) s = .next ((if tcm = true ∧ x = 0 then u.paid .mdrn else (u.paid .mdrn).escaped).commanded
           .mdrain acc 0 none 0 a x f st))))) ∧
  (∀ (d : Fld) (s : State), takeS [] [d] s = .ok ([], s) →
    let m := s.core.mx
    let waits := match m.queue with
      | [] => none
      | q :: _ => match q.bar with
        | none => none
        | some n => if (q.started && q.fn != MxFn.mrot) || phasePassed (s.bar n) q.barPhase then none else some n
    exec (.mstat d) s = .next ((charge .mctl s).onCur fun t => { Task.put d (BitVec.ofNat 64 (m.done.toNat * 2 ^ 32 + m.disc % 256 * 2 ^ 24
      + m.hist1.length % 32 * 2 ^ 19 + m.hist0.length % 32 * 2 ^ 14 + m.k1.toNat * 2 ^ 13 + m.k0.toNat * 2 ^ 12
      + (waits.map fun n => 2 ^ 11 + n.toNat * 2 ^ 4).getD 0 + m.queue.length % 16)) t with hvy := true }).retired)

/-- R174, R175, R177 to R181, R184, R185, R188: the commands of the matrix unit, when they start and when they complete. -/
def Obligations.MatrixCommands : Prop :=
  ∀ (s : State) (m : MxCmd) (r : List MxCmd), s.core.preempt = false → s.tile.halted = false → s.core.mx.queue = m :: r →
    let mx := s.core.mx
    let going : List MxCmd := { m with started := true } :: r
    let free : Prop := ∀ n, m.bar = some n → phasePassed (s.bar n) m.barPhase = true
    (m.started = false → free →
      (m.fn = .mzero → ∃ t, exec .matrixCmdStart s = .next t ∧ t.core.mx.queue = going ∧
        (∀ i, t.core.mx.element m.acc i = 0 ∧ t.core.mx.element (!m.acc) i = mx.element (!m.acc) i) ∧
        (if m.acc then t.core.mx.k1 = false ∧ t.core.mx.k0 = mx.k0 else t.core.mx.k0 = false ∧ t.core.mx.k1 = mx.k1) ∧
        ∀ x, tcmByte t x = tcmByte s x) ∧
      (m.fn = .mdrain → (if m.acc then mx.absent1 else mx.absent0) = 0 → exec .matrixCmdStart s = .next (s.onMatrix fun c => { c with queue := going })) ∧
      (m.fn = .mma ∨ m.fn = .mmas → (m.fn = .mma → (if m.acc then mx.absent1 else mx.absent0) = 0) →
        let old (i : Nat) : Option (BitVec 32) := if m.fn = .mmas then none else some (mx.element m.acc i)
        let a (i k : Nat) : Byte := tcmByte s (m.base + (64 * (i / 64) + k))
        let b (i k : Nat) : Byte := mx.cur.tile.getD (64 * (i % 64) + k) 0
        let reads : Prop := m.base + 4096 ≤ 131072 ∧ anyPoison s.core.tcmPoison m.base 4096 = false
        (m.fmta = 5 → m.fmtb = 5 → mx.cur.fmt = 5 → reads →
          ∃ t, exec .matrixCmdStart s = .next t ∧ t.core.mx.queue = going ∧ (if m.acc then t.core.mx.k1 else t.core.mx.k0) = true ∧
            ∀ i, i < 4096 → t.core.mx.element (!m.acc) i = mx.element (!m.acc) i ∧ t.core.mx.element m.acc i =
              BitVec.ofInt 32 (((old i).map (·.toInt)).getD 0 + ((List.range 64).map fun k => (a i k).toInt * (b i k).toInt).sum)) ∧
        (∀ f g : BitVec 3, (f = 3 ∨ f = 4) → (g = 3 ∨ g = 4) → m.fmta = f → m.fmtb = g → mx.cur.fmt = g → reads →
          ∃ t, exec .matrixCmdStart s = .next t ∧ t.core.mx.queue = going ∧ (if m.acc then t.core.mx.k1 else t.core.mx.k0) = false ∧
            ∀ i, i < 4096 → t.core.mx.element (!m.acc) i = mx.element (!m.acc) i ∧
              let d := FV.sum ((List.range 64).map fun k => (decodeF (fmtOf f) (a i k).toNat).mul (decodeF (fmtOf g) (b i k).toNat))
              t.core.mx.element m.acc i =
                BitVec.ofNat 32 (roundF fp32 false false (((old i).map fun o => (decodeF fp32 o.toNat).add d).getD d)))) ∧
      (m.fn = .mlatch → m.fmtb ∈ [1, 2, 3, 4, 5] → m.base + tileLen m.fmtb ≤ 131072 → anyPoison s.core.tcmPoison m.base (tileLen m.fmtb) = false →
        exec .matrixCmdStart s = .next (s.onMatrix fun c =>
          { c with queue := going, load := { fmt := m.fmtb, tile := tcmBytes s m.base (tileLen m.fmtb), codes := [], sup := 0 } }))) ∧
    (m.started = true →
      (m.fn = .mma ∨ m.fn = .mmas ∨ m.fn = .mzero → exec .matrixCmdComplete s = .next (s.popped r)) ∧
      (m.fn = .mlatch → exec .matrixCmdComplete s =
        .next ((s.onMatrix fun c =>
          { c with cur := c.load, hist0 := [], hist1 := [], chk0 := c.chk0 || !c.hist0.isEmpty, chk1 := c.chk1 || !c.hist1.isEmpty }).popped r)) ∧
      (m.fn = .mdrain → m.dst.getLsbD 63 = true → 64 * m.moved < tileLen m.fmt →
        exec .matrixCmdComplete s = .next ((tcmPut s (m.dst.toNat % 2 ^ 17 + 64 * m.moved)
          (drainUnit (if m.acc then mx.k1 else mx.k0) m.fmt m.sat (if m.acc then mx.acc1 else mx.acc0) m.moved)).onMatrix fun c =>
            { c with queue := { m with moved := m.moved + 1 } :: r })) ∧
      (m.fn = .mdrain → tileLen m.fmt ≤ 64 * m.moved → m.amax = 0 → exec .matrixCmdComplete s = .next (s.popped r)) ∧
      (m.fn = .mrot → free → ∃ l, exec .mrotRotate s =
        .next (({ s with fresh := s.fresh + 8258 }.onMatrix fun c =>
          { c with cur := l, hist0 := [], hist1 := [], chk0 := c.chk0 || !c.hist0.isEmpty, chk1 := c.chk1 || !c.hist1.isEmpty }).popped r))) ∧
    (∀ x, (if x then mx.chk1 else mx.chk0) = false → exec (.accParityReplay x) s = .next s) ∧
    (∀ x, (if x then mx.chk1 else mx.chk0) = true → ∃ t, exec (.accParityReplay x) s = .next t ∧ t.core.mx = mx ∧ t.fresh = s.fresh + 1 ∧ t.tile = s.tile ∧ t.home = s.home ∧
      ((Config.freeWord s.fresh).getLsbD 0 = false → t = { s with fresh := s.fresh + 1 }))

/-- R201 to R203, R207 to R211, R218: the function instructions whose result is a function register computed from function registers: the
value, the truncation, the pool; where they trap with FDOM and FPOOL. -/
def Obligations.FunctionAlgebra : Prop :=
  ∀ (a b c : Fld) (l k : Bool) (s : State), s.starts →
    let p := s.cur.freg b
    let q := s.cur.freg c
    let x (i : Nat) : FV := value ((s.coefs b).getD i 0)
    let y (i : Nat) : FV := value ((s.coefs c).getD i 0)
    let n := Nat.max p.n.toNat q.n.toNat
    let two : List Instr := [.fadd a b c l k, .fsub a b c l k, .fmul a b c l k]
    let one : List Instr := [.fdiff a b k, .fint a b k, .fmov a b k]
    let trap (cz : BitVec 6) (d : BitVec 8) (v : Word) : Host.Outcome State Fault Refusal := .next (takeTrap cz d false v s)
    let stores (i : Instr) (cls : Charge) (srcs : List Fld) (da db : BitVec 32) (r : List Nat × Bool) (lrs : List Fld) : Prop :=
      (poolFree s.core < (r.1.length + 7) / 8 → exec i s = trap 0x0B 0 (BitVec.ofNat 64 ((r.1.length + 7) / 8))) ∧
      ((r.1.length + 7) / 8 ≤ poolFree s.core → ∃ t, exec i s = .next t ∧
        s.Computes cls srcs a da db r.1 r.2 lrs t)
    (p.n = 0 → ∀ i ∈ two ++ one ++ [.fcomp a b c l k], exec i s = trap 0x0A 0x03 (b.setWidth 64)) ∧
    (p.n ≠ 0 → q.n = 0 → ∀ i ∈ two ++ [.fcomp a b c l k], exec i s = trap 0x0A 0x03 (c.setWidth 64)) ∧
    (p.n ≠ 0 → q.n ≠ 0 → (p.a ≠ q.a ∨ p.b ≠ q.b) → ∀ i ∈ two, exec i s = trap 0x0A 0x01 (c.setWidth 64)) ∧
    (s.full b → s.full c → p.a = q.a → p.b = q.b →
      let lrs := lastReads b k ++ lastReads c l
      stores (.fadd a b c l k) .falg [b, c] p.a p.b (truncated s.cur ((List.range n).map fun i => nearest ((x i).add (y i)))) lrs ∧
      stores (.fsub a b c l k) .falg [b, c] p.a p.b (truncated s.cur ((List.range n).map fun i => nearest ((x i).add (y i).neg))) lrs ∧
      stores (.fmul a b c l k) .falg [b, c] p.a p.b (truncated s.cur ((List.range (p.n.toNat + q.n.toNat - 1)).map fun i =>
        nearest ((FV.sum ((mulPairs p.n.toNat q.n.toNat i).map fun z => (x z.1).mul (y z.2))).mul (.fin false 1 (-1))))) lrs) ∧
    (s.full b → s.full c →
      let gs := (s.coefs b).map (·.toNat)
      let hs := (s.coefs c).map (·.toNat)
      (enclosed p hs = false → exec (.fcomp a b c l k) s = trap 0x0A 0x02 (c.setWidth 64)) ∧
      (enclosed p hs = true →
        let m0 := (p.n.toNat - 1) * (q.n.toNat - 1) + 1
        let m := Nat.min m0 256
        let r := truncated s.cur (transformF ((List.range m).map fun j => clenshaw gs (toUnit p (fpv (clenshaw hs (tauOf j m))))))
        stores (.fcomp a b c l k) .falg [b, c] q.a q.b (r.1, r.2 || decide (256 < m0)) (lastReads b k ++ lastReads c l))) ∧
    (s.full b →
      let cs := (s.coefs b).map (·.toNat)
      stores (.fdiff a b k) .fcalc [b] p.a p.b (truncated s.cur (diffCoefs p cs)) (lastReads b k) ∧
      stores (.fint a b k) .fcalc [b] p.a p.b (truncated s.cur (intCoefs p cs)) (lastReads b k) ∧
      stores (.fmov a b k) .fio [b] p.a p.b (cs, false) (lastReads b k))

/-- R201 to R203, R207, R208, R214, R216 to R218: the function instructions that take scalar operands or records. -/
def Obligations.FunctionRecords : Prop :=
  ∀ (a b c : Fld) (k : Bool) (s : State), s.starts →
    let trap (cz : BitVec 6) (d : BitVec 8) (v : Word) : Host.Outcome State Fault Refusal := .next (takeTrap cz d false v s)
    let stores (i : Instr) (u : State) (cls : Charge) (srcs : List Fld) (da db : BitVec 32) (r : List Nat × Bool) (lrs : List Fld) : Prop :=
      (poolFree s.core < (r.1.length + 7) / 8 → exec i s = trap 0x0B 0 (BitVec.ofNat 64 ((r.1.length + 7) / 8))) ∧
      ((r.1.length + 7) / 8 ≤ poolFree s.core → ∃ t, exec i s = .next t ∧ u.Computes cls srcs a da db r.1 r.2 lrs t)
    let p := s.cur.freg b
    let words (ea n : Nat) : List Nat := (List.range n).map fun i => leNat (tcmBytes s (ea + 4 * i) 4)
    let readable (ea n : Nat) : Prop := tcmBusy s ea n = false ∧ anyPoison s.core.tcmPoison ea n = false
    (∀ u x, takeS [c] [] s = .ok ([x], u) → s.full b →
      stores (.fscal a b c k) u .falg [b] p.a p.b (truncated s.cur ((s.coefs b).map fun y =>
        nearest ((value (x.setWidth 32)).mul (value y)))) (lastReads b k) ∧
      stores (.ftrunc a b c k) u .fio [b] p.a p.b (if x = 0 then truncated s.cur ((s.coefs b).map (·.toNat))
        else (((s.coefs b).map (·.toNat)).take (Nat.min x.toNat 256), false)) (lastReads b k)) ∧
    (∀ u x y, takeS [b, c] [] s = .ok ([x, y], u) →
      let n := y.toNat
      ((n < 1 ∨ 256 < n) → exec (.ffit a b c) s = trap 0x0A 0x05 (a.setWidth 64)) ∧
      (1 ≤ n → n ≤ 256 → x.toNat % 4 ≠ 0 → exec (.ffit a b c) s = trap 0x03 0 x) ∧
      (1 ≤ n → n ≤ 256 → x.toNat % 4 = 0 → 131072 < x.toNat + 4 * n → exec (.ffit a b c) s = trap 0x04 0 x) ∧
      (1 ≤ n → n ≤ 256 → x.toNat % 4 = 0 → x.toNat + 4 * n ≤ 131072 → readable x.toNat (4 * n) →
        stores (.ffit a b c) u .fio [] (s.cur.freg a).a (s.cur.freg a).b (truncated s.cur (transformF (words x.toNat n))) [])) ∧
    (∀ u x, takeS [b] [] s = .ok ([x], u) →
      let n := leNat (tcmBytes s (x.toNat + 8) 4)
      let da : BitVec 32 := BitVec.ofNat 32 (leNat (tcmBytes s x.toNat 4))
      let db : BitVec 32 := BitVec.ofNat 32 (leNat (tcmBytes s (x.toNat + 4) 4))
      let ready : Prop := x.toNat % 16 = 0 ∧ x.toNat + 16 ≤ 131072 ∧ readable x.toNat 16
      (x.toNat % 16 ≠ 0 → exec (.fldc a b) s = trap 0x03 0 x) ∧
      (x.toNat % 16 = 0 → 131072 < x.toNat + 16 → exec (.fldc a b) s = trap 0x04 0 x) ∧
      (ready → (n < 1 ∨ 256 < n) → exec (.fldc a b) s = trap 0x0A 0x05 (a.setWidth 64)) ∧
      (ready → 1 ≤ n → n ≤ 256 → 131072 < x.toNat + 16 + 4 * n → exec (.fldc a b) s = trap 0x04 0 x) ∧
      (ready → 1 ≤ n → n ≤ 256 → x.toNat + 16 + 4 * n ≤ 131072 → domOk da db = false → exec (.fldc a b) s = trap 0x0A 0x04 (a.setWidth 64)) ∧
      (ready → 1 ≤ n → n ≤ 256 → x.toNat + 16 + 4 * n ≤ 131072 → domOk da db = true → readable (x.toNat + 16) (4 * n) →
        stores (.fldc a b) s .fio [] da db (words (x.toNat + 16) n, false) [])) ∧
    (∀ u x, takeS [c] [] s = .ok ([x], u) → s.full b →
      let n := 16 + 4 * p.n.toNat
      let rec_ := leBytes 4 p.a.toNat ++ leBytes 4 p.b.toNat ++ leBytes 4 p.n.toNat ++ leBytes 4 0 ++
        ((s.coefs b).map fun y => leBytes 4 y.toNat).flatten
      (x.toNat % 16 ≠ 0 → exec (.fstc b c k) s = trap 0x03 0 x) ∧
      (x.toNat % 16 = 0 → (131072 < x.toNat + n ∨ storeRefused112 s s.cur.priv x.toNat n = true ∨ storeRefused26 s x.toNat n = true) →
        exec (.fstc b c k) s = trap 0x04 0 x) ∧
      (x.toNat % 16 = 0 → x.toNat + n ≤ 131072 → storeRefused112 s s.cur.priv x.toNat n = false → storeRefused26 s x.toNat n = false →
        tcmBusyW s x.toNat n = false → exec (.fstc b c k) s =
          .next ((releaseAll (lastReads b k) (fCharge .fio [b] 0 (tcmPut s x.toNat rec_))).onCur fun t => { t with hvy := true }).retired)) ∧
    (∀ u x y, takeS [b, c] [] s = .ok ([x, y], u) →
      let da : BitVec 32 := x.setWidth 32
      let db : BitVec 32 := y.setWidth 32
      let ok : Prop := isFinFV (value da) = true ∧ isFinFV (value db) = true ∧ (value da).lt (value db) = true
      (¬ ok → exec (.fdom a b c) s = trap 0x0A 0x04 (a.setWidth 64)) ∧
      (ok → exec (.fdom a b c) s = .next ((fCharge .fio [a] 0 u).onCur fun t =>
        { t with f := t.f.setIfInBounds (a.toNat % 8) { t.freg a with a := da, b := db }, hvy := true }).retired))

/-- R200, R202, R207, R212, R213, R215, R218: the function instructions that read a register out, and FFREE. R206 to R218: the worked
examples of the function registers: f1 = 2 T1 + 2 T3 on [-2, 2]. -/
def Obligations.FunctionReads : Prop :=
  (∀ (a b c : Fld) (m k : Bool) (s : State), s.starts →
     let p := s.cur.freg b
     let cs := (s.coefs b).map (·.toNat)
     let heavy (u : State) : State := (u.onCur fun t => { t with hvy := true }).retired
     let after (cls : Charge) (u : State) : State := releaseAll (lastReads b k) (fCharge cls [b] 0 u)
     exec (.ffree a) s = .next (heavy (((fCharge .fio [a] 0 s).onCore fun co => { co with runs := co.runs.map fun r =>
         if r.frame = s.cur.frame ∧ r.reg = (a.extractLsb' 0 3) ∧ r.rel = none then PoolRun.mk r.at_ r.len r.frame r.reg (some 9) else r }).onCur fun t =>
           { t with f := t.f.setIfInBounds (a.toNat % 8) { t.freg a with n := 0, absent := 0 } })) ∧
     (takeS [] [a] s = .ok ([], s) →
       exec (.flen a b k) s = .next (heavy ((after .fio s).onCur (Task.put a
         (BitVec.ofNat 64 (p.n.toNat + (p.n.toNat + 7) / 8 * 2 ^ 16 + (256 - (s.core.runs.map (·.len)).sum) * 2 ^ 32))))) ∧
       (s.full b → exec (.fext a b k) s = .next (heavy ((after .fcalc s).onCur (Task.put a
         (BitVec.ofNat 64 (roundUp (FV.sum ((s.coefs b).map fun x => (value x).abs)))))))) ∧
       (p.n = 0 → exec (.fext a b k) s = .next (takeTrap 0x0A 0x03 false (b.setWidth 64) s))) ∧
     (∀ u, takeV [] [] (some (a, false)) [] s = .ok ([], [], u) → s.full b →
       let r := rootsOf p cs
       ∃ x : BitVec 512, exec (.froot a b k) s = .next (heavy ((writeV a x (after .fcalc s)).onCur fun t =>
           { t with nrt := BitVec.ofNat 5 r.2.1, fmore := t.fmore || r.2.2 })) ∧
         ∀ i, i < 16 → lane 32 x i = BitVec.ofNat 32 (r.1.getD i 0x7FC00000)) ∧
     (∀ u y, takeV [c] [] (some (a, m)) [] s = .ok ([y], [], u) → s.full b →
       let runs (i : Nat) : Bool := !m || s.cur.vmask.getLsbD i
       let v (i : Nat) : FV := value (lane 32 y i)
       let outside (i : Nat) : Bool := decide (v i = .nan) || (v i).lt (value p.a) || (value p.b).lt (v i)
       ∃ x : BitVec 512, exec (.feval a b c m k) s = .next (heavy ((writeV a x (after .fio u)).onCur fun t =>
           { t with fout := t.fout || (List.range 16).any fun i => runs i && outside i })) ∧
         ∀ i, i < 16 → lane 32 x i = if runs i then
             (if outside i then 0x7FC00000 else BitVec.ofNat 32 (clenshaw cs (toUnit p (v i))))
           else lane 32 ((s.cur.v[a.toNat]?).getD 0) i)) ∧
  (let f1 : List Nat := [0, 0x40000000, 0, 0x40000000]
   let dom : FReg := { a := 0xC0000000, b := 0x40000000, n := 4, p := 0 }
   mulCoefs f1 f1 = [0x40800000, 0, 0x40C00000, 0, 0x40800000, 0, 0x40000000] ∧
   diffCoefs dom f1 = [0x40800000, 0, 0x40C00000] ∧
   intCoefs dom f1 = [0xBF000000, 0, 0, 0, 0x3F000000] ∧
   extWord f1 = 0x40800000 ∧ clenshaw f1 (toUnit dom (fpv 0x3F800000)) = 0xBF800000 ∧
   clenshaw f1 (toUnit dom (fpv 0xC0000000)) = 0xC0800000 ∧ enclosed dom f1 = false)

/-- R27, R28, R37, R294, R298, R299, R300, R301, R309, R310, R329, R332, R432, R434: a launch is taken or refused; a message of a link
becomes a candidate, its payload in the inbox; the least candidate that every link lets go starts a task in a free frame; what the inbox
had no room for waits in the holding queue, and in the heap that the bramble thread keeps; a migrating task takes a free frame. -/
def Obligations.ActivationSteps : Prop :=
  ∀ s : State,
    -- MESSAGE_ARRIVAL
    (∀ m : Msg,
      let src := tileOf m.score
      let n := tabGet s.tile.recv 0 src
      let len := 16 + (8 * m.payload.length + 15) / 16 * 16
      let off := s.core.inboxTail
      let cand : Cand :=
        { key := { stamp := m.stamp.toNat, src := src + 1, seq := n }, cls := some m.cls, core := s.core.id,
          pc := m.handler, mig := classMig s m.cls, priv := if s.launch.svc then 1 else 0, w1 := BitVec.ofNat 64 (8 * m.payload.length),
          w2 := m.score.setWidth 64, w3 := m.cls.setWidth 64, payload := m.payload, tag := m.tag, leaf := m.leaf, xferid := 0, traps := [],
          place := .inbox, bytes := len, off := off, handler0 := m.handler == 0 }
      s.memOk = true → m.part = s.core.vf → s.home.deadMask.getLsbD m.part.toNat = false → s.tile.retired = false → m.any = false → m.mc = false →
      tileOf m.dest = pairTile s → hereCore s m.dest = s.core.id → src ≠ pairTile s → m.seq = n % 2 ^ 32 → len + 16 ≤ s.launch.inbox → s.core.inbox = [] → len ≤ s.launch.inbox - off →
      s.tile.cands.length < 256 → s.tile.overflow = [] → (∀ c ∈ s.tile.cands, c.place = .inbox) → s.tile.pendPips = [] →
      ∃ t, exec (.messageArrival m) s = .next t ∧
        t.tile.cands = s.tile.cands ++ [cand] ∧
        tabGet t.tile.recv 0 src = n + 1 ∧
        t.tile.inLinks = (s.tile.inLinks.map fun l =>
          if l.src = src ∧ l.cls = m.cls then { l with prom := Nat.max l.prom m.prom, asked := false } else l) ∧
        (if m.col then t.tile.recvCnt = (s.tile.recvCnt.1, s.tile.recvCnt.2 + 1) else t.tile.recvCnt = (s.tile.recvCnt.1 + 1, s.tile.recvCnt.2)) ∧
        ∀ k, k < 8 * m.payload.length → ¬ s.wordZero (s.inboxBase + off + (16 + k)) →
          tcmByte t (s.inboxBase + off + (16 + k)) = BitVec.ofNat 8 ((m.payload.getD (k / 8) 0).toNat / 256 ^ (k % 8))) ∧
    -- CANDIDATE_RELEASE
    (∀ (c : Cand) (f : Nat), (∀ m ∈ s.tile.migBuf, m.dest ≠ pairCore s) → lowestCand s = some c → c.place = .inbox → c.core = s.core.id →
      c.handler0 = false → candMasked s c = false → (∀ l ∈ linkProms s, linkAllows s c l = true) →
      (∀ o ∈ s.tile.overflow, keyLt c.key o.key = true) → s.launch.live = true → s.core.preempt = false → freeFrame s = some f →
      s.core.segCtr < 2 ^ 40 →
      ∃ t k, exec .candidateRelease s = .next t ∧
        t.rest = ((s.rest.map fun x => { x with ownTrapvec := none, ownLogovf := none, ownSpillovf := none }).filter fun x => !gone x) ++ [k] ∧ t.tile.cands = s.tile.cands.erase c ∧
        k.st = .ready ∧ k.frame = f ∧ k.pc = c.pc ∧ k.priv = c.priv ∧ k.mig = c.mig ∧ k.esc = false ∧ k.hvy = false ∧ k.inu = false ∧
        k.pair = s.launch.paired ∧ k.w.toList = [0, c.w1, c.w2, c.w3, 0, 0, 0, 0, 0, 0, 0, 0, 0, 0,
          BitVec.ofNat 64 (s.spillBot f + s.launch.spill), 0] ∧
        k.tid = (c.tag ++ c.leaf ++ s.core.serial : BitVec 64) ∧ k.origin = pairCore s ∧ k.stamp = BitVec.ofNat 48 c.key.stamp ∧
        k.wp = BitVec.ofNat 17 (s.launch.image + 128 * f) ∧ k.q0 = c.payload ∧ k.openSeg = s.core.segCtr ∧ k.recs = [] ∧ k.held = [] ∧
        t.core.segCtr = s.core.segCtr + 1 ∧ t.core.serial = s.core.serial + 1 ∧ t.launch.trapvec = s.launch.trapvecNext ∧
        t.launch.logovf = s.launch.logovfNext ∧ t.launch.spillovf = s.launch.spillovfNext) ∧
    -- MIGRATION_ARRIVAL
    (∀ (m : MigTask) (f : Nat), tileOf m.dest = pairTile s → foreignPart s m.part = false → m.dest = pairCore s → s.tile.migBuf = [] → s.core.preempt = false →
      freeFrame s = some f → s.core.segCtr < 2 ^ 40 →
      ∃ t k, exec (.migrationArrival m) s = .next t ∧ t.tile.migBuf = [] ∧ t.rest = (s.rest.filter fun x => !gone x) ++ [k] ∧
        k.st = .ready ∧ k.frame = f ∧ k.w = m.w ∧ k.pc = m.pc ∧ k.statusByte = m.status &&& 0xFE ∧ k.tid = m.tid ∧ k.origin = m.origin ∧
        k.stamp = m.stamp ∧ k.key = m.key ∧ k.recs = [] ∧ k.held = []) ∧
    (∀ m : MigTask, tileOf m.dest = pairTile s → foreignPart s m.part = false → m.dest = pairCore s → s.tile.migBuf.length < 16 → freeFrame s = none →
      ∃ t, exec (.migrationArrival m) s = .next t ∧ t.tile.migBuf = s.tile.migBuf ++ [m] ∧ t.rest = s.rest ∧ t.core = s.core) ∧
    -- HOLDING_QUEUE_DRAIN
    (∀ c l, holdingOf s = c :: l → c.core = s.core.id → c.bytes = 16 + (8 * c.payload.length + 15) / 16 * 16 → s.core.inbox = [] →
      c.bytes ≤ s.launch.inbox - s.core.inboxTail →
      ∃ t, exec .holdingQueueDrain s = .next t ∧
        t.tile.cands = (s.tile.cands.map fun x => if x = c then { c with place := .inbox, off := s.core.inboxTail } else x) ∧
        t.core.inbox = [{ off := s.core.inboxTail, len := c.bytes, live := true }]) ∧
    -- BRAMBLE_COPY and BRAMBLE_REPLAY
    (s.core.preempt = false → s.tile.halted = false →
      (∃ t, exec .brambleCopy s = .next t ∧
        List.Forall₂ (fun c d : Cand => d = c ∨ (c.place = .holding ∧ 16 ≤ (holdingOf s).length ∧ d = { c with place := .heap })) s.tile.cands
          t.tile.cands ∧ t.cur = s.cur ∧ t.rest = s.rest ∧ t.core.inbox = s.core.inbox) ∧
      (∀ c, leastOverflow s = some c → s.tile.cands.length < 256 → ∃ t, exec .brambleReplay s = .next t ∧
        t.tile.cands = s.tile.cands ++ [c] ∧ t.tile.overflow = s.tile.overflow.erase c ∧ t.cur = s.cur ∧ t.rest = s.rest)) ∧
    -- LAUNCH_TAKE
    (∀ q : BitVec 10,
      let w := tabGet s.host.wqs {} q.toNat
      let r := headRec s w
      let ms := chooseMaps s (s.vfReg w.vf) r
      let taken := { s with host := { s.host with wqs := tabSet s.host.wqs q.toNat { w with head := w.head + 1 }, rr := q.toNat } }
      (chosenQueue s ≠ some q.toNat → exec (.launchTake q) s = .next s) ∧
      (chosenQueue s = some q.toNat → validate s w.vf r ms ≠ .ok →
        exec (.launchTake q) s = .next (completionEntry q w.head.toNat 0 0 (validate s w.vf r ms).num taken)) ∧
      (chosenQueue s = some q.toNat → validate s w.vf r ms = .ok → s.tileId ∈ mapTiles ms →
        ∃ t, exec (.launchTake q) s = .next t ∧ t.launch.live = true ∧ t.launch.vf = w.vf ∧ t.launch.stamp = recStamp r ∧
          t.launch.frames = recFrames r ∧ t.launch.levels = recLevels r ∧ t.launch.leaves = ms ∧ t.launch.entry = (rw64 r 0x030).extractLsb' 2 54 ++ 0#2 ∧
          t.core.vf = w.vf ∧ t.core.segCtr = 0 ∧ t.core.sealed = [] ∧ t.rest = [] ∧
          t.host.wqs = tabSet s.host.wqs q.toNat { w with head := w.head + 1 } ∧
          (t.host.running.map (·.idx)) = (s.host.running.map (·.idx)) ++ [w.head.toNat] ∧
          ∀ c ∈ t.tile.cands, c.key.stamp = (recStamp r).toNat ∧ c.key.src = 0 ∧ c.pc = t.launch.entry ∧ c.tag = t.launch.tag))

/-- R294, R302, R306, R311, R318, R329, R335, R337, R339, R241, R251, R403, R405, R406: what arrives for a task of the core, what leaves
the tile, what is counted. -/
def Obligations.MessageSteps : Prop :=
  ∀ s : State,
    -- DEPOSIT_ARRIVAL
    (∀ d : Deposit, d.core = pairCore s → foreignPart s d.part = false → depositTo d s.cur = true →
      (s.cur.deposits = [] → stalled s.cur = true ∨ written s.cur = true → exec (.depositArrival d) s =
        .next { s with cur := { s.cur.setW (BitVec.ofNat 4 d.word) d.val with depl := true } }) ∧
      (s.cur.deposits ≠ [] ∨ (stalled s.cur = false ∧ written s.cur = false) → exec (.depositArrival d) s =
        .next { s with cur := { s.cur with deposits := s.cur.deposits ++ [(d.word, d.val)] } })) ∧
    (∀ d : Deposit, d.core = pairCore s → foreignPart s d.part = false → (∀ t ∈ s.cur :: s.rest, depositTo d t = false) →
      exec (.depositArrival d) s = .next s) ∧
    (∀ d : Deposit, d.core ≠ pairCore s ∨ foreignPart s d.part = true → exec (.depositArrival d) s = .next s) ∧
    (∀ t : Task, written t = true → (settleDeposits t).deposits = [] ∧
      ∀ x, t.deposits = [x] → settleDeposits t = { t.setW (BitVec.ofNat 4 x.1) x.2 with depl := true, deposits := [] }) ∧
    -- SEND_ACCEPTED
    (∀ (k : Nat) (e : SendEnd) (tid : Word) (origin : BitVec 13), s.tile.unaccepted[k]? = some (.send tid origin) →
      s.cur.st ≠ .ended → s.cur.shadow = false → sameTask s.cur tid origin = true →
      exec (.sendAccepted ⟨k, e⟩) s = .next { s with
        tile := { s.tile with unaccepted := s.tile.unaccepted.eraseIdx k }, cur := { sendFail e s.cur with sentOut := s.cur.sentOut - 1 } } ∧
      (sendFail .accepted s.cur = s.cur) ∧
      (e ≠ .accepted → (sendFail e s.cur).fails = s.cur.fails + 1 ∧ (sendFail e s.cur).failDead = (s.cur.failDead || e == .dead) ∧
        (sendFail e s.cur).failRefused = (s.cur.failRefused || e == .refused || e == .big) ∧ (sendFail e s.cur).failBig = (s.cur.failBig || e == .big))) ∧
    (∀ (k : Nat) (e : SendEnd) (tid : Word) (origin : BitVec 13), s.tile.unaccepted[k]? = some (.send tid origin) → e ≠ .accepted →
      (∀ t ∈ s.cur :: s.rest, (t.st == .ended || t.shadow || !sameTask t tid origin) = true) →
      ∃ t, exec (.sendAccepted ⟨k, e⟩) s = .next t ∧ t.tile.ffail = true ∧ t.tile.unaccepted = s.tile.unaccepted.eraseIdx k) ∧
    (∀ (k q n : Nat) (tid : Word) (origin : BitVec 13), s.tile.unaccepted[k]? = some (.words tid origin q n) →
      s.cur.st ≠ .ended → s.cur.shadow = false → sameTask s.cur tid origin = true →
      exec (.sendAccepted ⟨k, .accepted⟩) s = .next { s with
        tile := { s.tile with unaccepted := s.tile.unaccepted.eraseIdx k },
        cur := { s.cur with qs := s.cur.qs.setIfInBounds q (((s.cur.qs[q]?).join).map fun b => { b with flying := b.flying - n }) } }) ∧
    (∀ k x f : Nat, s.tile.unaccepted[k]? = some (.mig x f) → exec (.sendAccepted ⟨k, .accepted⟩) s =
      .next { s with tile := { s.tile with unaccepted := s.tile.unaccepted.eraseIdx k } }) ∧
    -- PACKET_INJECTION
    (injectable s = [] → exec .packetInjection s = .next s) ∧
    (∀ x, injectable s = [x] → exec .packetInjection s = .next (inject x s)) ∧
    (∀ x y l, injectable s = x :: y :: l → ∃ z ∈ injectable s, exec .packetInjection s = .next (inject z { s with fresh := s.fresh + 1 })) ∧
    (∀ (k : Nat) (m : Msg) (b : Word × BitVec 13), s.tile.inject[k]? = some (.msg m) → s.tile.injectBy[k]? = some b → paired s = false →
      mayOvertake s k (.msg m) = true → tileOf m.dest ≠ s.tileId → lostToTile s (tileOf m.dest) = false →
      let dst := tileOf m.dest
      let n := tabGet s.tile.pairSeq 0 dst
      let left := s.tile.inject.eraseIdx k
      let p := pOut { s with tile := { s.tile with inject := left, injectBy := s.tile.injectBy.eraseIdx k } } dst m.cls
      let t := inject (.message k) s
      (k = 0 → s.tile.inject.length = 1 → (∀ c ∈ s.tasks, wordsToSend c = none) → exec .packetInjection s = .next t) ∧
        t.home.out = s.home.out ++ [.msg { m with prom := p, col := s.tile.colour, seq := n } n p s.tile.colour] ∧
        t.tile.inject = left ∧ t.tile.injectBy = s.tile.injectBy.eraseIdx k ∧ t.tile.unaccepted = s.tile.unaccepted ++ [.send b.1 b.2] ∧
        tabGet t.tile.pairSeq 0 dst = (n + 1) % 2 ^ 32 ∧ t.tile.mred = Nat.min s.tile.mred m.stamp.toNat ∧
        t.tile.sentCnt = (if s.tile.colour then (s.tile.sentCnt.1, s.tile.sentCnt.2 + 1) else (s.tile.sentCnt.1 + 1, s.tile.sentCnt.2)) ∧
        t.cur = s.cur ∧ t.rest = s.rest) ∧
    (∀ (k : Nat) (h : Held), s.tile.inject[k]? = some h → mayOvertake s k h = false → inject (.message k) s = s ∧ .message k ∉ injectable s) ∧
    (∀ (k : Nat) (h : Held), s.tile.inject[k]? = some h → 16 < k ∨ (∃ m ∈ s.tile.injectMarks, 0 < m ∧ m ≤ k) ∨
      (∃ a ∈ s.tile.inject.take k, staysBehind s a h = true) → mayOvertake s k h = false) ∧
    -- CHANNEL_WORDS_ARRIVAL, CREDIT_RETURN
    (∀ (ch : BitVec 3) (src : BitVec 13) (ws : List Word) (part : BitVec 6), foreignPart s part = false →
      ((∀ q, inboundOf s ch = some q → q.peer = src) → exec (.channelWordsArrival ch ⟨src, part⟩ ws) s = .next { s with core := { s.core with
        chan := s.core.chan.set ch.toNat ((s.core.chan[ch.toNat] ++ ws.map fun w => (src, w)).take 8) } }) ∧
      (∀ q, inboundOf s ch = some q → q.peer ≠ src → exec (.channelWordsArrival ch ⟨src, part⟩ ws) s = .next { s with home := { s.home with
        out := s.home.out ++ [.credit src ch ws.length] } })) ∧
    (∀ (ch : BitVec 3) (src : BitVec 13) (ws : List Word) (part : BitVec 6), foreignPart s part = true →
      exec (.channelWordsArrival ch ⟨src, part⟩ ws) s = .next s) ∧
    (∀ (ch : BitVec 3) (n : Nat) (i : Fin 4) (b : QBind), s.cur.st ≠ .ended → s.cur.shadow = false → s.cur.qs[i] = some b →
      b.outb = true → b.cls = none → b.ch = ch → b.credits < 8 →
      ∃ t, exec (.creditReturn ch n) s = .next t ∧ t.cur.qs[i] = some { b with credits := Nat.min 8 (b.credits + n) } ∧ t.rest = s.rest ∧
        t.core = s.core ∧ t.tile = s.tile ∧ t.home = s.home) ∧
    -- DEAD_LINK_REROUTE
    (∀ (d : BitVec 10) (red lost : Bool), lost = false ∨ red = true ∨ bothDead s d.toNat = false →
      exec (.deadLinkReroute d red lost) s = .next s) ∧
    (∀ d : BitVec 10, bothDead s d.toNat = true → (∃ p ∈ s.home.out, isBroadcast p = true) → exec (.deadLinkReroute d false true) s =
      .next (errEntry (errEntryBytes 6 0 0 1 s.core.id 0 (BitVec.ofNat 64 d.toNat) 1) s)) ∧
    -- FLIT_CRC_ERROR
    (∀ (l : LinkSel) (within : Bool),
      let k := linkNum l
      let n := if within then tabGet s.home.retx 0 k + 1 else 1
      (n < 16 → exec (.flitCrcError l within) s = .next { s with home := { s.home with retx := tabSet s.home.retx k n } }) ∧
      (16 ≤ n → hasLane l = true → tabGet s.home.laneSpares 0 k = 0 → exec (.flitCrcError l within) s = .next { s with
        home := { s.home with retx := tabSet s.home.retx k 0, laneSpares := tabSet s.home.laneSpares k 1 }, host := { s.host with replReq := true } }) ∧
      (16 ≤ n → hasLane l = false ∨ tabGet s.home.laneSpares 0 k ≠ 0 → exec (.flitCrcError l within) s = .next { s with
        home := { s.home with retx := tabSet s.home.retx k 0, deadLinks := s.home.deadLinks ++ [linkEnds l] } }))

/-- R292, R301 to R307, R329, R441: promises, asks and pips of the links. R41, R42, R239, R305 to R307, R435: sweeps and the end of a
launch. -/
def Obligations.PromiseSteps : Prop :=
  (∀ s : State,
     (∀ (l : Nat) (x : OutLink), s.tile.outLinks[l]? = some x →
       let p := pOut s x.dst x.cls
       let out := s.home.out ++ [.pip x.dst x.cls p (tabGet s.tile.pairSeq 0 x.dst) false]
       let sent := if secondary s then s else (chargeNet (clusterOf x.dst) 1 { s with home := { s.home with out := out } }).onTile fun t => { t with
         outLinks := t.outLinks.map fun y => if y == x then { y with sent := Nat.max y.sent p, pipped := true, kept := none } else y }
       -- PIP_SEND
       ((x.kept.any fun k => decide (p > k)) = true ∨ (p > x.sent ∧ p ≥ x.sent + s.tile.pquant.toNat) → exec (.pipSend l) s = .next sent) ∧
       ((x.kept.any fun k => decide (p > k)) = false → ¬ (p > x.sent ∧ p ≥ x.sent + s.tile.pquant.toNat) → exec (.pipSend l) s = .next s) ∧
       -- ASK_ARRIVAL
       (∀ carried, (p > carried → exec (.askArrival l carried) s = .next sent) ∧
         (p ≤ carried → exec (.askArrival l carried) s = .next { s with tile := { s.tile with
           outLinks := s.tile.outLinks.map fun y => if y == x then { y with kept := some carried } else y } }))) ∧
     (∀ (l : Nat) (x : InLink), s.tile.inLinks[l]? = some x →
       -- ASK_SEND
       (askDue s x = true → secondary s = false → exec (.askSend l) s =
         .next (emit (.ask x.src x.cls x.prom) (chargeNet (clusterOf x.src) 1 { s with tile := { s.tile with
           inLinks := s.tile.inLinks.map fun y => if y == x then { y with asked := true } else y } }))) ∧
       (askDue s x = false ∨ secondary s = true → exec (.askSend l) s = .next s) ∧
       -- PIP_ARRIVAL
       (∀ p after part, foreignPart s part = true → exec (.pipArrival l p ⟨after, part⟩) s = .next s) ∧
       (∀ p after part, foreignPart s part = false →
         (reached (tabGet s.tile.recv 0 x.src) after = true → exec (.pipArrival l p ⟨after, part⟩) s = .next { s with tile := { s.tile with
           inLinks := s.tile.inLinks.map fun y => if y.src == x.src && y.cls == x.cls then { y with prom := Nat.max y.prom p, asked := false } else y } }) ∧
         (reached (tabGet s.tile.recv 0 x.src) after = false → exec (.pipArrival l p ⟨after, part⟩) s = .next { s with tile := { s.tile with
           inLinks := s.tile.inLinks.map fun y => if y == x then { y with asked := false } else y,
           pendPips := s.tile.pendPips ++ [{ src := x.src, cls := x.cls, prom := p, after := after }] } })))) ∧
  (∀ s : State,
     -- SWEEPWAIT_EXPIRY
     ((s.launch.live = true → s.tile.frozen = false → (lowestCand s).isSome = true ∨ (tileIdle s = true ∧ linksDone s = false) →
         exec .sweepwaitExpiry s = .next { s with tile := { s.tile with sweepWanted := true } }) ∧
       (s.tile.frozen = true → exec .sweepwaitExpiry s = .next s)) ∧
     -- SWEEP_REQUEST
     ((s.parent = none → exec .sweepRequest s = .next { s with tile := { s.tile with sweepWanted := true } }) ∧
       (∀ p, s.parent = some p →
         let heard : State := { s with tile := { s.tile with sweepWanted := false } }
         (secondary s = true → exec .sweepRequest s = .next heard) ∧
         (secondary s = false → bothDead s p = false → exec .sweepRequest s = .next (emit .sweepReq (chargeNet (clusterOf p) 1 heard))) ∧
         (secondary s = false → bothDead s p = true → exec .sweepRequest s =
           .next (errEntry (errEntryBytes 6 0 0 1 s.core.id 0 (BitVec.ofNat 64 p) 1) heard)))) ∧
     -- SWEEP_START
     (∀ col : Bool, s.tile.colour ≠ col → s.tile.sweeping = false → (s.parent = none → s.tile.sweepWanted = true) → (∀ k ∈ s.kids, bothDead s k = false) →
       s.kids ≠ [] →
       let cut (x : Nat × Nat) : Nat × Nat := if col then (x.1, 0) else (0, x.2)
       ∃ t e, exec (.sweepStart col) s = .next t ∧
         t.tile = { s.tile with
           meter := e, colour := col, mred := inf48, sweeping := true, reports := [], sweepsStarted := s.tile.sweepsStarted + 1,
           sweepWanted := if s.parent.isNone then false else s.tile.sweepWanted, sentCnt := cut s.tile.sentCnt, recvCnt := cut s.tile.recvCnt } ∧
         t.home.out = s.home.out ++ s.kids.map fun _ => .sweepStart col) ∧
     -- SWEEP_REPORT
     (∀ (k : Nat) (f : SweepFig), s.tile.sweeping = true → k ∈ s.kids → (∀ r ∈ s.tile.reports, r.1 ≠ k) → (∃ o ∈ s.kids, o ≠ k ∧ ∀ r ∈ s.tile.reports, r.1 ≠ o) →
       exec (.sweepReport k f) s = .next { s with tile := { s.tile with reports := s.tile.reports ++ [(k, f)] } }) ∧
     (∀ (k p : Nat) (f : SweepFig), s.tile.sweeping = true → s.kids = [k] → s.tile.reports = [] → s.parent = some p → secondary s = false → bothDead s p = false →
       let pick (x : Nat × Nat) : Nat := if s.tile.colour then x.1 else x.2
       let fig : SweepFig := { sent := pick s.tile.sentCnt + f.sent, received := pick s.tile.recvCnt + f.received,
                               least := minList [s.tile.mred, localLow s, f.least], commit := minList [commitFig s, f.commit] }
       exec (.sweepReport k f) s = .next (emit (.sweepUp p fig) (chargeNet (clusterOf p) 1 { s with tile := { s.tile with reports := [(k, f)] } }))) ∧
     -- SWEEP_RECOUNT
     (s.tile.sweeping = true → s.parent.isSome = true → s.kids ≠ [] → (∀ k ∈ s.kids, bothDead s k = false) →
       ∃ t e, exec .sweepRecount s = .next t ∧ t.tile = { s.tile with reports := [], meter := e } ∧ t.cur = s.cur ∧ t.rest = s.rest ∧
         t.core = s.core ∧ t.home.out = s.home.out ++ s.kids.map fun _ => .sweepRecount) ∧
     -- SWEEP_END
     (∀ h commit : BitVec 48, s.tile.sweeping = true → s.parent.isSome = true → s.kids = [] →
       ∃ t, exec (.sweepEnd h commit) s = .next t ∧ t.tile.horizon = h.toNat ∧ t.tile.commit = commit.toNat ∧ t.tile.sweeping = false ∧
         t.tile.reports = [] ∧ t.tile.sweepsEnded = s.tile.sweepsEnded + 1 ∧ t.tile.outLinks.length = s.tile.outLinks.length) ∧
     -- DONE_RECEIVE
     (∀ (k : Nat) (st : BitVec 32), k ∈ s.kids → (∀ d ∈ s.tile.kidsDone, d.1 ≠ k) →
       exec (.doneReceive k st) s = .next { s with tile := { s.tile with kidsDone := s.tile.kidsDone ++ [(k, st)] } }) ∧
     -- DONE_SEND
     ((mayFinish s = false → exec .doneSend s = .next s) ∧
       (∀ p, mayFinish s = true → s.parent = some p → bothDead s p = false → exec .doneSend s =
         .next (emit (.doneMsg p (statusWord s)) (chargeNet (clusterOf p) 1 { s with tile := { s.tile with doneSent := true } }))) ∧
       (mayFinish s = true → s.parent = none → ∃ t, exec .doneSend s = .next t ∧ t.launch.live = false ∧ t.tile.doneSent = true ∧
         (∀ r ∈ t.host.running, r.tag ≠ s.launch.tag) ∧
         (∀ e ∈ t.home.tags, e.2.launch ≠ s.launch.tag.toNat) ∧
         let w := tabGet s.host.wqs {} s.launch.wq.toNat
         let n := 2 ^ w.qctl.toNat
         let a := w.qbase.toNat * 2048 + 2048 * n + 16 * (s.launch.idx % n)
         (noMemory s a = false → t.home.mem = memPutN s.home.mem a (leBytes 8 ((1#1 ++ 0#15 ++ s.launch.tag ++ statusWord s : BitVec 64)).toNat ++ leBytes 8 0)))))

/-- R91, R93, R97, R151, R202, R254, R265 to R268, R276, R278 to R283, R374, R425: streams move their elements, the heads of the engine
queues start, move and end, and what they end with reaches its task. -/
def Obligations.EngineSteps : Prop :=
  ∀ s : State,
    -- STREAM_FETCH
    (∀ (k : BitVec 3) (st : Stream), s.cur.st ≠ .ended → s.cur.st ≠ .preempted → s.cur.shadow = false → strmOf s.cur (strmFld k) = some st →
      let l := st.pos + st.fetched.length
      let n := 2 ^ st.pat.sz
      let a := (elemAddr st.pat l).toNat
      st.pat.out = false → st.fetched.length < strmCap st → l < st.pat.len → lastBad st.fetched = false →
      (elemInb st.pat l = false → exec (.streamFetch s.cur.frame k) s =
        .next { s with cur := setStrm (strmFld k) (some { st with fetched := st.fetched ++ [.val st.pat.fill] }) s.cur }) ∧
      (elemInb st.pat l = true → st.tcm = true → elemOut st.pat true l = false → anyPoison s.core.tcmPoison a n = false →
        exec (.streamFetch s.cur.frame k) s = .next { s with cur := setStrm (strmFld k) (some { st with
          fetched := st.fetched ++ [.val (zextBytes n (leNat (tcmBytes s a n)))] }) s.cur })) ∧
    -- STREAM_DRAIN
    (∀ (k : BitVec 3) (st : Stream) (e : Pushed) (r : List Pushed), s.memOk = true → s.cur.st ≠ .ended → s.cur.shadow = false →
      strmOf s.cur (strmFld k) = some st → st.pushed = e :: r → st.tcm = true →
      let n := 2 ^ st.pat.sz
      let a := (elemAddr st.pat e.l).toNat
      mxSource s.core a n = false →
      ∃ t, exec (.streamDrain s.cur.frame k) s = .next t ∧ strmOf t.cur (strmFld k) = some { st with pushed := r, bad := none, miss := false } ∧
        ∀ b, ¬ s.wordZero b → tcmByte t b = if a ≤ b ∧ b < a + n then (leBytes n e.v.toNat).getD (b - a) 0 else tcmByte s b) ∧
    -- ENGINE_OP_START
    (∀ (q : BitVec 4) (o : EngOp) (l : List EngOp), s.queue q.toNat = o :: l → o.started = false → o.cancelled = false → engHeld s = false → q ≠ 9 →
      (opMay o s = false → exec (.engineOpStart q) s = .next s) ∧
      (∀ h, opMay o s = true → o.kind = .chain h →
        exec (.engineOpStart q) s = .next (setQueueOps q.toNat ({ o with started := true, at_ := h } :: l) (opActed o s))) ∧
      (opMay o s = true → (∀ h, o.kind ≠ .chain h) →
        exec (.engineOpStart q) s = .next (setQueueOps q.toNat ({ o with started := true, at_ := 0 } :: l) (opActed o s)))) ∧
    -- COPY_ELEMENT
    (∀ (q : BitVec 4) (o : EngOp) (l : List EngOp) (src dst : Pattern) (st dt scl : Bool) (sr dr : Word), s.queue q.toNat = o :: l →
      o.kind = .copy src dst st dt scl sr dr → o.started = true → o.finished = false → engHeld s = false → o.cancelled = false →
      (scl = true → o.moved / 256 ≤ o.sub) →
      (src.len ≤ o.moved →
        exec (.copyElement q) s = .next (setQueueOps q.toNat ({ o with code := 0, stop := none, finished := true } :: l) s)) ∧
      (o.moved < src.len → elemOut src st o.moved = true ∨ elemOut dst dt o.moved = true → exec (.copyElement q) s = .next (xrangeStop q.toNat o.moved s)) ∧
      (o.moved < src.len → elemOut src st o.moved = false → elemOut dst dt o.moved = false → elemInb src o.moved = false → elemInb dst o.moved = true →
        dt = true → exec (.copyElement q) s = .next (setHead q.toNat (fun o' => { o' with moved := o.moved + 1, bytes := o'.bytes + 1 })
          (tcmPut s (elemAddr dst o.moved).toNat (leBytes (2 ^ src.sz) src.fill.toNat))))) ∧
    -- CHAIN_ELEMENT
    (∀ (q : BitVec 4) (o : EngOp) (l : List EngOp) (h : Nat), s.queue q.toNat = o :: l → o.kind = .chain h → o.started = true → o.finished = false →
      engHeld s = false → o.cancelled = false → o.elem = none →
      (o.at_ = 0 → exec (.chainElement q) s = .next (setQueueOps q.toNat ({ o with code := 0, stop := none, finished := true } :: l) s)) ∧
      (∀ bs u v, o.at_ ≠ 0 → engRead false o.at_ 64 o.priv s = .ok (bs, u) → chainSkips o (chainElem bs) u = .ok (true, v) →
        exec (.chainElement q) s = .next (chainNext q.toNat o (chainElem bs).next v)) ∧
      (∀ bs u v, o.at_ ≠ 0 → engRead false o.at_ 64 o.priv s = .ok (bs, u) → chainSkips o (chainElem bs) u = .ok (false, v) →
        2 ^ 56 < (chainElem bs).src + (chainElem bs).len ∨ 2 ^ 56 < (chainElem bs).dst + (chainElem bs).len → exec (.chainElement q) s = .next (xrangeStop q.toNat o.moved v))) ∧
    -- ENGINE_OP_COMPLETE
    (∀ (q : BitVec 4) (o : EngOp) (l : List EngOp), s.queue q.toNat = o :: l → o.finished = true → engHeld s = false →
      (o.cancelled = false ∨ o.started = true) →
      (o.handler = 0 → o.stop = none → exec (.engineOpComplete q) s = .next (setQueueOps q.toNat l s)) ∧
      (o.handler ≠ 0 → o.stop = none → s.cur.st ≠ .ended → s.cur.shadow = false → sameTask s.cur o.tid o.origin = true →
        let status : Word := BitVec.ofNat 4 q.toNat ++ BitVec.ofNat 4 o.code ++ 0#8 ++ BitVec.ofNat 48 o.moved
        ∃ t, exec (.engineOpComplete q) s = .next t ∧ t.cur.comps = s.cur.comps ++ [{ handler := o.handler, xid := o.xid, status := status, op := (o.seg, o.part) }] ∧
          t.core = (setQueueOps q.toNat l s).core ∧ t.rest = s.rest)) ∧
    -- COMPLETION_INTERRUPT, COMPLETION_ACTIVATION
    (∀ c cs, s.cur.comps = c :: cs → s.cur.st ≠ .ended → s.cur.shadow = false →
      (s.cur.inu = false → ∃ t, exec .completionInterrupt s = .next t ∧ t.cur.pc = c.handler ∧ t.cur.uepc = s.cur.pc.extractLsb' 2 54 ∧
        t.cur.xferid = c.xid ∧ t.cur.xstatus = c.status ∧ t.cur.inu = true ∧ t.cur.comps = cs ∧ t.cur.w = s.cur.w ∧ t.rest = s.rest ∧
        t.core = s.core ∧ t.tile = s.tile ∧ t.home = s.home) ∧
      (s.cur.inu = true → exec .completionInterrupt s = .next s)) ∧
    (∀ o os, s.core.orphans = o :: os → s.tile.cands.length < 256 → s.tile.overflow = [] → (∀ c ∈ s.tile.cands, c.place = .inbox) →
      ∃ t c, exec .completionActivation s = .next t ∧ t.core.orphans = os ∧ t.tile.cands = s.tile.cands ++ [c] ∧ t.tile.localSeq = s.tile.localSeq + 1 ∧
        c.key = { stamp := o.stamp.toNat, src := pairTile s + 1, seq := s.tile.localSeq } ∧ c.core = s.core.id ∧ c.pc = o.compl.handler ∧
        c.mig = false ∧ c.priv = o.priv ∧ c.w1 = o.compl.status ∧ c.w2 = (pairCore s).setWidth 64 ∧ c.xferid = o.compl.xid ∧ c.payload = []) ∧
    -- ENGINE_TRAP_DELIVERY
    (∀ p ps, s.cur.traps = p :: ps → s.cur.st ≠ .ended → s.cur.shadow = false → ownsMx s.core s.cur = false →
      exec .engineTrapDelivery s = .next ((takeTrap p.cause p.detail (p.cause != cSTALL) p.val
        { s with cur := { s.cur with traps := ps, wait := none, paid := false } }).onCur fun t => { t with trapTaken := true })) ∧
    -- GRANULE_FILL, GRANULE_RELEASE
    (∀ i : BitVec 4, s.cur.st ≠ .ended → s.cur.shadow = false →
      ∃ t, exec (.granuleFill s.cur.frame (.vreg i)) s = .next t ∧ t.cur = { s.cur with vAbsent := s.cur.vAbsent &&& ~~~(1#16 <<< i.toNat) } ∧
        t.rest = s.rest ∧ t.core = s.core ∧ t.home = s.home) ∧
    exec .granuleRelease s = .next { s with core := { s.core with runs := s.core.runs.filter fun r => r.rel != some 0 } }

/-- R284 to R288, R386, R389, R392, R393: a contribution finds its slot; a slot forwards, late at its timeout; a result reaches the tile;
the head of the block queue takes its step; a transfer and a move end. -/
def Obligations.ReductionSteps : Prop :=
  ∀ s : State,
    (∀ (c : Contribution) (k : Nat), c.src = .child k → foreignPart s c.part = true → exec (.nredArrival c) s = .next s) ∧
    (∀ (c : Contribution) (k : Nat), c.src = .child k → foreignPart s c.part = false → c.late = false → (∀ o ∈ s.tile.owed, owes c o = false) →
      (∀ r ∈ s.tile.redSlots, r.tag ≠ c.tag) → s.tile.redSlots.length < 16 → slotFull s (newSlot c) = false →
      (c.op ≠ 7 ∨ s.parent = none ∨ (unfolded (newSlot c).vals).length < 64) →
      exec (.nredArrival c) s = .next { s with tile := { s.tile with redSlots := s.tile.redSlots ++ [newSlot c] } } ∧
      (newSlot c).kids = (if c.more then [] else [k]) ∧ (newSlot c).units = [] ∧ (newSlot c).op = c.op ∧ (newSlot c).late = c.resultLate ∧ (newSlot c).missing = c.missing) ∧
    (∀ (c : Contribution) (k : Nat), c.src = .child k → foreignPart s c.part = false → c.late = false → (∀ o ∈ s.tile.owed, owes c o = false) →
      (∀ r ∈ s.tile.redSlots, r.tag ≠ c.tag) → s.tile.redSlots.length = 16 → exec (.nredArrival c) s = .next s) ∧
    (∀ (n : Nat) (r : RedSlot), s.tile.redSlots[n]? = some r → s.tile.frozen = false → s.parent = none → (∀ d ∈ treeTiles s, bothDead s d = false) →
      let missing := slotMissing s r
      let res : NredRes := { tag := r.tag, op := r.op, s32 := r.s32, value := nredFold r.op r.vals, late := true, miss := Nat.min missing 0xFFFF,
                             laten := r.laten }
      ∃ t, exec (.nredSlotTimeout n) s = .next t ∧ t.home.out = s.home.out ++ [.redRes res] ∧ t.tile.redSlots = s.tile.redSlots.erase r ∧
        t.tile.late = true ∧ tabGet? t.tile.redTab (r.tag.toNat % 16) = some res ∧ t.cur = s.cur ∧ t.rest = s.rest) ∧
    (∀ r : NredRes, exec (.nredResult r) s = .next { s with tile := { s.tile with redTab := tabSet s.tile.redTab (r.tag.toNat % 16) r } }) ∧
    (∀ (o : EngOp) (l : List EngOp), s.queue 9 = o :: l → engHeld s = false → secondary s = false → opMay o s = true →
      -- BLOCK_ENTRY_STEP
      (∀ h, o.kind = .blkref h → blkCheck h (blkTrap 0x02 h) s = none → (getEntry s (hIndex h)).refcnt ≠ 0xFFFF →
        let e := getEntry s (hIndex h)
        exec .blockEntryStep s = .next (blkAnswer o (some ((e.refcnt + 1).setWidth 64)) none
          (putEntry (hIndex h) { e with refcnt := e.refcnt + 1, cow := e.cow || decide (e.refcnt + 1 ≥ 2) } s))) ∧
      (∀ h, o.kind = .blkref h → blkCheck h (blkTrap 0x02 h) s = none → (getEntry s (hIndex h)).refcnt = 0xFFFF →
        exec .blockEntryStep s = .next (blkAnswer o none (some (blkTrap 0x03 h)) s)) ∧
      (∀ h, o.kind = .blkfree h → blkCheck h (blkTrap 0x02 h) s = none → (getEntry s (hIndex h)).refcnt ≠ 1 →
        let e := getEntry s (hIndex h)
        exec .blockEntryStep s = .next (blkAnswer o (some ((e.refcnt - 1).setWidth 64)) none
          (putEntry (hIndex h) { e with refcnt := e.refcnt - 1 } s))) ∧
      (∀ w, o.kind = .blkrefNew w → freeHead (s.vfReg s.core.vf) (w == 1) = noEntry →
        exec .blockEntryStep s = .next (blkAnswer o none (some (blkTrap 0x04 w)) s)) ∧
      (∀ h off ta len sa, o.kind = .get h off ta len sa → o.prog = none → blkCheck h (hgenTrap h) s = none →
        let e := getEntry s (hIndex h)
        let p : BlkProg := { handle := h, entry := hIndex h, pbn := e.pbn.toNat, tier := e.tier, gen := e.gen, spare := 0 }
        exec .blockEntryStep s = .next (setHead 9 (fun o => { o with started := true, prog := some p })
          (putEntry (hIndex h) { e with drain := e.drain + 1 } s))) ∧
      -- BLKMOVE_TRANSFER_END
      (∀ h off ta len sa p, o.kind = .get h off ta len sa ∨ o.kind = .put h off ta len sa → o.prog = some p → len ≤ o.moved →
        let z := decDrain (holderOf p s) s
        let e := getEntry z p.entry
        exec .blkmoveTransferEnd s = .next (blkPop (tcmPut z sa (leBytes 8 (2 ^ 63 + (if e.gen != p.gen || e.refcnt == 0 then 2 ^ 62 else 0) + len))))) ∧
      -- BLKMOVE_TIER_COMMIT
      (∀ h w p, o.kind = .tier h w → o.prog = some p → 65536 ≤ o.moved → moveLives p s = true → (getEntry s p.entry).drain ≠ 0 →
        let e := getEntry s p.entry
        let n := getEntry s p.spare
        let put := putEntry p.spare { n with pbn := e.pbn, tier := e.tier, drain := e.drain, state := 3 }
          (putEntry p.entry { e with pbn := n.pbn, tier := n.tier, drain := 0, state := 1 } s)
        let own : MoveRec := { vf := s.core.vf, entry := p.entry, spare := p.spare, committed := false }
        exec .blkmoveTierCommit s = .next (blkPop { put with home := { put.home with
          moves := put.home.moves.map fun m => if m == own then { m with committed := true } else m } })))

/-- R348 to R351, R354 to R356, R359: a miss that no walk serves is walked, and the TLBs filled; a walk that faults waits in the table,
and its message goes to the service core; the reply lets its requesters walk again; the dirty log is merged. -/
def Obligations.TranslationSteps : Prop :=
  ∀ s : State,
    -- PAGE_WALK
    (∀ w, missOf w s = none → w ≠ .agent → exec (.pageWalk w) s = .next s) ∧
    (∀ (w : WalkFor) (m : Miss), missOf w s = some m → (∀ f ∈ s.tile.faults, samePage s m.va f = false) →
      let root := (s.asidEnt s.core.vf s.core.asid).root.toNat
      let walkBy (deny : Nat → Bool) : Except WalkFault Tlb :=
        walkVa deny s.home s.core.vf s.core.asid s.core.asidGen root (s.vfReg s.core.vf).s2root.toNat m.va
      let walk := walkBy (walkDeny s s.core.vf)
      (∀ e, walk = .ok e → rights1 e m.acc m.priv = false ∨ rights2 e m.acc = true →
        ∃ t, exec (.pageWalk w) s = .next t ∧ t.tile = { s.tile with l2tlb := l2Fill s.tile.l2tlb e } ∧
          t.core = (if m.acc = .fetch then { s.core with itlb := tlbFill 32 s.core.itlb e } else { s.core with dtlb := tlbFill 64 s.core.dtlb e }) ∧
          t.home = s.home ∧ (∀ n : Miss, s.cur.st = .faulted → taskMiss s.cur = some n → n.va / 65536 = m.va / 65536 → t.cur = wake s.cur)) ∧
      (∀ f, walk = .error f → s.tile.faults.length < 256 →
        let z := noteWalk w m s
        ∃ t r, exec (.pageWalk w) s = .next t ∧ t.tile.faults = s.tile.faults ++ [r] ∧ t.tile.walkSerial = s.tile.walkSerial + 1 ∧ r.va = m.va ∧
          r.acc = m.acc ∧ r.vf = s.core.vf ∧ r.asid = s.core.asid ∧ r.gen = s.core.asidGen ∧ r.who = [askerOf w m z] ∧ r.posted = false ∧
          r.word0 = f.word0 ∧ r.lvl = f.lvl ∧ r.perm = f.perm ∧ r.malf = f.malf ∧ r.s2 = f.s2 ∧ t.cur = z.cur ∧ t.rest = z.rest ∧ t.core = s.core ∧
          (walkBy (fun pa => s.home.poison.contains (pa / 8)) = walk → z = s))) ∧
    (∀ (w : WalkFor) (m : Miss) (f : FaultRec), missOf w s = some m → s.tile.faults = [f] → samePage s m.va f = true →
      let a := askerOf w m s
      (a ∉ f.who → exec (.pageWalk w) s = .next { s with tile := { s.tile with faults := [{ f with who := f.who ++ [a] }] } }) ∧
      (a ∈ f.who → exec (.pageWalk w) s = .next s)) ∧
    -- FAULT_MESSAGE
    (∀ (k : Nat) (f : FaultRec), s.tile.faults[k]? = some f → f.posted = false →
      let r := s.vfReg (if f.s2 then 0 else f.vf)
      (r.svchand ≠ 0 → svcResident s (if f.s2 then 0 else f.vf) = true → r.svccore ≠ s.core.id →
        ∃ t, exec (.faultMessage (.own k)) s = .next t ∧ t.home.out = s.home.out ++ [.fault r.svccore (faultWords s f)] ∧
          t.tile.faults = (s.tile.faults.map fun x => if x == f then { x with posted := true, toCore := r.svccore } else x) ∧ t.cur = s.cur ∧ t.rest = s.rest) ∧
      (r.svchand = 0 → f.who = [] → exec (.faultMessage (.own k)) s = .next { s with tile := { s.tile with faults := s.tile.faults.erase f } })) ∧
    -- FAULT_REPLY_ARRIVAL
    (∀ (token : Word) (f : FaultRec), s.tile.faults = [f] → f.posted = true → faultToken s.clusterId f = token →
      exec (.faultReplyArrival token true) s =
        .next { s with tile := { s.tile with faults := [] }, home := { s.home with out := s.home.out.erase (.faultAns token true) } } ∧
      (∀ m, f.who = [askerOf (.task s.cur.frame) m s] → s.cur.st = .faulted → s.cur.shadow = false → taskMiss s.cur = some m →
        ∃ t, exec (.faultReplyArrival token false) s = .next t ∧ t.tile.faults = [] ∧ t.cur.st = .ready ∧ t.cur.wait = some (.walk m.va m.acc true) ∧
          t.rest = s.rest)) ∧
    (∀ (token : Word) (b : Bool), (∀ f ∈ s.tile.faults, ¬ (f.posted = true ∧ faultToken s.clusterId f = token)) →
      exec (.faultReplyArrival token b) s = .next { s with home := { s.home with out := s.home.out.erase (.faultAns token b) } }) ∧
    -- DIRTY_LOG_MERGE
    (32 ≤ s.core.dirty.length →
      let put (pa : Nat) (h : HomeSt) : HomeSt := if noMemory s pa then h else setD pa h
      exec .dirtyLogMerge s =
        .next { s with core := { s.core with dirty := [] }, home := s.core.dirty.foldl (fun h r => put r.2 (put r.1 h)) s.home }) ∧
    (s.core.dirty.length < 32 → exec .dirtyLogMerge s = .next s)

/-- R363, R365, R366, R370 to R372, R374 to R377, R435: energy is folded; a function that exceeds its quota stops, is saved and runs
again; the sharers of a cluster take turns; a function is reset. -/
def Obligations.PartitionSteps : Prop :=
  ∀ s : State,
    -- ENERGY_FOLD, REFRESH_ENERGY_CHARGE
    (∃ t, exec .energyFold s = .next t ∧ t.tile.meter = (s.tile.meter.map fun x => (x.1, x.2 % 1000000)) ∧ t.cur = s.cur ∧ t.rest = s.rest ∧
      t.core.tcm = s.core.tcm ∧ t.home.mem = s.home.mem) ∧
    (∀ (measured pages f : Nat) (r : VfRegs), 0 < f → f < 64 → 0 < pages → s.host.vfs = [(f, r)] →
      let share := measured * r.epages.toNat / pages
      ∃ t, exec (.refreshEnergyCharge measured pages) s = .next t ∧ t.vfReg (BitVec.ofNat 6 f) = { r with ecnt := r.ecnt + BitVec.ofNat 64 share } ∧
        (t.vfReg 0).ecnt = BitVec.ofNat 64 (measured - share) ∧ t.cur = s.cur ∧ t.core = s.core ∧ t.tile = s.tile ∧ t.home = s.home) ∧
    -- EQUOTA_WRITE, ESTAT_RESUME
    (∀ (v : BitVec 6) (x : Word),
      let r := s.vfReg v
      (r.cause = 1 ∧ r.ecnt.toNat < x.toNat ∧ resetting s v = false → ∃ t, exec (.equotaWrite v x) s = .next t ∧
        t.vfReg v = { r with equota := x, cause := 0, saving := false, stopped := false } ∧ t.core = s.core ∧ t.cur = s.cur) ∧
      (¬ (r.cause = 1 ∧ r.ecnt.toNat < x.toNat ∧ resetting s v = false) → exec (.equotaWrite v x) s = .next (s.setVf v { r with equota := x })) ∧
      (r.cause = 2 → resetting s v = false → exec (.estatResume v) s = .next (s.setVf v { r with cause := 0, saving := false, stopped := false })) ∧
      (r.cause ≠ 2 ∨ resetting s v = true → exec (.estatResume v) s = .next s)) ∧
    -- PREEMPTION, CONTEXT_RESTORE
    (∃ t, exec .preemption s = .next t ∧ t.home = s.home ∧
      (∀ v : BitVec 6, v ≠ s.core.vf → (s.vfReg v).saving = true → t.vfReg v = { s.vfReg v with saving := false, stopped := true }) ∧
      (s.core.preempt = false ∨ quiet s = false → t.cur = s.cur ∧ t.rest = s.rest ∧ t.core = s.core) ∧
      (s.core.preempt = true → quiet s = true → s.core.mx.queue = [] → t.cur = stopOne s.cur ∧ t.rest = s.rest.map stopOne ∧
        t.core = saveMx { s.core with runs := s.core.runs.filter fun r => r.rel.isNone } ∧
        ((s.vfReg s.core.vf).saving = true → t.vfReg s.core.vf = { s.vfReg s.core.vf with saving := false, stopped := true }))) ∧
    (∀ x : Task, (x.st = .ended → stopOne x = x) ∧ (x.st ≠ .ended → (stopOne x).st = .preempted ∧ (stopOne x).pc = x.pc ∧
      (stopOne x).wait = (if x.wait.any leavesWait then none else x.wait) ∧ (x.deposits = [] → (stopOne x).w = x.w) ∧
      ∀ k : Fin 8, (stopOne x).streams[k] = x.streams[k].map unfetch)) ∧
    (∀ c : CoreSt, (c.mx.owner = none → saveMx c = c) ∧
      (∀ o, c.mx.owner = some o → (saveMx c).mx = {} ∧ ∃ m, (saveMx c).mxSaved = some m ∧ m.owner = some o ∧ m.acc0 = c.mx.acc0 ∧ m.acc1 = c.mx.acc1 ∧
        m.queue = c.mx.queue ∧ m.hist0 = [] ∧ m.hist1 = [])) ∧
    (s.core.preempt = true → (s.vfReg s.core.vf).cause = 0 → s.core.mxSaved = none →
      let z := chargeOpen 0 s
      ∃ t, exec .contextRestore s = .next t ∧ t.core = { s.core with preempt := false } ∧ t.cur = restoreTask z s.cur ∧
        t.rest = s.rest.map (restoreTask z)) ∧
    (s.core.preempt = true → (s.vfReg s.core.vf).cause = 0 → ∀ m, s.core.mxSaved = some m →
      ∃ t, exec .contextRestore s = .next t ∧ t.core.preempt = false ∧ t.core.mxSaved = none ∧ t.core.mx.owner = m.owner ∧
        t.core.mx.queue = m.queue ∧ t.core.mx.acc0 = m.acc0 ∧ t.core.mx.acc1 = m.acc1) ∧
    (s.core.preempt = false ∨ (s.vfReg s.core.vf).cause ≠ 0 → exec .contextRestore s = .next s) ∧
    (∀ t : Task, t.st = .preempted → t.shadow = false → strmMissing t = false →
      (restoreTask s t).pc = t.pc ∧ (restoreTask s t).w = t.w ∧ (restoreTask s t).wait = t.wait ∧
      (t.wait = none → (restoreTask s t).st = .ready) ∧
      (∀ w, t.wait = some w → (restoreTask s t).st = if eventCome s t w then .ready else waitsIn s t w)) ∧
    (∀ t : Task, t.hvy = true → t.priv = 0 → (markAbsent t).vAbsent = 0xFFFF ∧ (markAbsent t).v = t.v ∧ (markAbsent t).w = t.w ∧
      ∀ k : Fin 8, (markAbsent t).f[k].absent = allGranules t.f[k]) ∧
    (∃ t, exec .checkpointWriteback s = .next t ∧ t.cur = s.cur ∧ t.rest = s.rest ∧ t.core = s.core ∧ t.home = s.home) ∧
    -- QUANTUM_EXPIRY
    ((tabGet s.host.clasg {} s.clusterId).mode ≠ 2 ∨ quiet s = false ∨ s.core.sealed ≠ [] → exec .quantumExpiry s = .next s) ∧
    (∀ (g : Clasg) (k : Nat) (v : BitVec 6), g = tabGet s.host.clasg {} s.clusterId → g.mode = 2 → quiet s = true → s.core.sealed = [] → (incoming s v).refused = [] → nextSharer s g = some k →
      [g.shr0, g.shr1, g.shr2, g.shr3][k]? = some v → s.core.mx.queue = [] →
      ∃ t x, exec .quantumExpiry s = .next t ∧ (tabGet t.host.clasg {} s.clusterId).cur = k ∧ t.core.vf = (incoming s v).core.vf ∧
        t.launch = (incoming s v).launch ∧ t.saved.head? = some x ∧ x.vf = s.core.vf ∧ x.core.tcm = s.core.tcm ∧ x.launch = s.launch) ∧
    -- PARTITION_RESET, RESET_DRAIN_COMPLETE
    (∀ v : BitVec 6,
      ∃ t, exec (.partitionReset v) s = .next t ∧ t.home.deadMask = s.home.deadMask ||| (1#64 <<< v.toNat) ∧
        (t.vfReg v).stopped = true ∧ (t.vfReg v).saving = false ∧ t.tile.l2tlb = (s.tile.l2tlb.filter fun e => !(e.vf == v)) ∧
        t.saved = (s.saved.filter fun x => x.vf != v) ∧
        (s.core.vf = v ∨ zeroed s v s.clusterId = true → t.cur = {} ∧ t.rest = [] ∧ t.core.tcm = [] ∧ t.launch.live = false ∧ t.tile.cands = []) ∧
        (s.core.vf ≠ v → zeroed s v s.clusterId = false → t.cur = s.cur ∧ t.rest = s.rest ∧ t.core.tcm = s.core.tcm ∧ t.launch = s.launch)) ∧
    (s.home.deadMask = 0 → exec .resetDrainComplete s = .next s) ∧
    (∃ t, exec .resetDrainComplete s = .next t ∧ t.home.deadMask = 0 ∧ t.core = s.core ∧ t.cur = s.cur ∧ t.rest = s.rest)

/-- R5, R77, R222, R363, R371, R383, R418, R424, R429 to R431, R437, R438: what the host writes, and bring-up. -/
def Obligations.HostSteps : Prop :=
  ∀ s : State,
    -- CLASG_WRITE
    (∀ (c : BitVec 6) (x : Word),
      let ok := (clasgNames (tabGet s.host.clasg {} c.toNat) ++ clasgNames (clasgOf x)).all fun v => (s.vfReg v).stopped
      (ok = true → exec (.clasgWrite c x) s = .next { s with host := { s.host with clasg := tabSet s.host.clasg c.toNat (clasgOf x) } }) ∧
      (ok = false → exec (.clasgWrite c x) s = .next s)) ∧
    -- WQCFG_WRITE
    (∀ (q : BitVec 10) (x : Word),
      let w := tabGet s.host.wqs {} q.toNat
      let w' : Wq := { w with en := x.getLsbD 63, pri := x.extractLsb' 60 2, svc := x.getLsbD 59, vf := x.extractLsb' 48 6, asid := x.extractLsb' 0 16 }
      (w.head = w.tail → w.en = false → exec (.wqcfgWrite q x) s = .next { s with host := { s.host with wqs := tabSet s.host.wqs q.toNat w' } }) ∧
      (w.head ≠ w.tail ∨ w.en = true → exec (.wqcfgWrite q x) s = .next s)) ∧
    -- HOST_REGISTER_WRITE
    (∀ (v : BitVec 6) (x : Word),
      let r := s.vfReg v
      let sets (off : BitVec 16) (r' : VfRegs) : Prop := exposed s v = true → exec (.hostRegisterWrite v off x) s = .next (s.setVf v r')
      (∀ off, exposed s v = false → exec (.hostRegisterWrite v off x) s = .next s) ∧
      sets 0x00 { r with vfctl := x.extractLsb' 0 2 } ∧ sets 0x10 { r with ecnt := x } ∧ sets 0x28 { r with epages := x } ∧
      (hasSaved s v = false → sets 0x08 { r with ctxbase := x.extractLsb' 21 31 }) ∧
      (r.stopped = true → sets 0x30 { r with btbase := x.extractLsb' 16 36 } ∧ sets 0x38 { r with btcnt := x.extractLsb' 0 32 } ∧
        sets 0xB0 { r with svccore := x.extractLsb' 0 13 } ∧ sets 0xB8 { r with svchand := x.extractLsb' 2 54 }) ∧
      (r.stopped = false → sets 0x30 r ∧ sets 0x38 r ∧ sets 0xB0 r ∧ sets 0xB8 r) ∧
      sets 0x50 { r with brkmap := x.extractLsb' 3 49 } ∧ sets 0x58 { r with brkva := x.extractLsb' 16 40 } ∧ sets 0x60 { r with brklen := x.extractLsb' 0 16 } ∧
      sets 0x68 { r with dbgtid := x } ∧ sets 0x70 { r with dbgtmask := x } ∧ sets 0x80 { r with mhtab := x.extractLsb' 3 53 } ∧
      sets 0x88 { r with smpint := x.extractLsb' 0 32 } ∧
      (r.dbgbusy = false → (x.extractLsb' 60 3).toNat ∈ [1, 2, 3, 4] → sets 0x78 { r with dbgcmd := x.extractLsb' 0 63, dbgbusy := true }) ∧
      (r.dbgbusy = true ∨ (x.extractLsb' 60 3).toNat ∉ [1, 2, 3, 4] → sets 0x78 r)) ∧
    (∀ (v : BitVec 6) (x : Word) (q : Nat), q < 1024 → exposed s v = true →
      let w := tabGet s.host.wqs {} q
      let put (w' : Wq) : State := { s with host := { s.host with wqs := tabSet s.host.wqs q w' } }
      w.vf = v → exec (.hostRegisterWrite v (BitVec.ofNat 16 (0x8000 + 32 * q + 0x10)) x) s = .next (put { w with tail := x.extractLsb' 0 32 }) ∧
        (w.head = w.tail → exec (.hostRegisterWrite v (BitVec.ofNat 16 (0x8000 + 32 * q)) x) s = .next (put { w with qbase := x.extractLsb' 11 41 }))) ∧
    -- CXL_MEM_ACCESS
    (∀ (pa : Nat) (bs : List Byte), exec (.cxlMemAccess pa none) s = .next s ∧
      (∀ d h, homeOf pa = some (.hbm d h) → ∃ t, exec (.cxlMemAccess pa (some bs)) s = .next t ∧ t.home.mem = memPutN s.home.mem pa bs ∧ t.cur = s.cur ∧
        t.rest = s.rest ∧ t.core = s.core ∧ t.tile = s.tile ∧ t.home.tags = s.home.tags)) ∧
    -- LOADCMD_WRITE
    (∀ (f : BitVec 6) (x : Word),
      let pa := (x.extractLsb' 6 46).toNat * 64
      (containerBad s pa = true → ∃ t, exec (.loadcmdWrite f x) s = .next t ∧
        t.vfReg f = { s.vfReg f with loadcmd := x.extractLsb' 6 46, loadst := 1, loadBusy := false } ∧ t.core = s.core ∧ t.home = s.home) ∧
      (containerBad s pa = false → ∃ t, exec (.loadcmdWrite f x) s = .next t ∧ (t.vfReg f).loadBusy = false ∧
        ((t.vfReg f).loadst = 2 ∨ (t.vfReg f).loadst = 3 ∨ (t.vfReg f).loadst = 4 ∨
          ((t.vfReg f).loadst = 0 ∧ (t.vfReg f).leaves = readLeaves t pa ∧ (t.vfReg f).roles = readRoles s pa)))) ∧
    -- BRINGUP, HBM_RETRAIN
    (∃ t, exec .bringup s = .next t ∧ (t.host.devStep = s.host.devStep ∨ t.host.devStep = s.host.devStep + 1) ∧ t.cur = s.cur ∧ t.rest = s.rest ∧
      t.core = s.core ∧ t.home.mem = s.home.mem ∧ (s.host.devFail = false → s.host.devStep.toNat < 7 → t.host.devStep = s.host.devStep + 1) ∧
      (s.host.devFail = true ∨ 7 ≤ s.host.devStep.toNat → t = s)) ∧
    exec .hbmRetrain s = .next s

/-- R90, R94, R95, R120, R398, R402, R404 to R411, R414 to R416: a stalled task leaves its wait; an error that an activation consumes ends
it or makes it run again from its start; what is corrected, compared, replaced and retired. -/
def Obligations.ErrorSteps : Prop :=
  ∀ s : State,
    -- TWATCH_EXPIRY, WAIT_TIMEOUT
    (s.core.twLimit ≠ 0 → s.tile.frozen = false → s.cur.shadow = false → s.cur.st = .waitMsg ∨ s.cur.st = .waitMem → keepsWait s.cur.wait = false →
      exec (.twatchExpiry s.cur.frame) s = .next { s with cur := { s.cur with
        traps := s.cur.traps ++ [{ cause := 0x12, detail := if s.core.twWall then 1 else 0, val := if s.cur.st = .waitMsg then 3 else 4, op := none }],
        wait := none, paid := false, st := .ready } }) ∧
    (s.core.twLimit ≠ 0 → s.tile.frozen = false → s.cur.shadow = false → s.cur.st = .waitMsg ∨ s.cur.st = .waitMem → keepsWait s.cur.wait = true →
      exec (.twatchExpiry s.cur.frame) s = .next { s with cur := { s.cur with
        traps := s.cur.traps ++ [{ cause := 0x12, detail := if s.core.twWall then 1 else 0, val := if s.cur.st = .waitMsg then 3 else 4, op := none }] } }) ∧
    (s.core.twLimit = 0 ∨ s.tile.frozen = true → exec (.twatchExpiry s.cur.frame) s = .next s) ∧
    (∀ m, s.cur.wait = some (.event m true false) → s.cur.st = .waitMsg → s.cur.shadow = false →
      exec (.waitTimeout s.cur.frame) s = .next { s with cur := { s.cur with wait := some (.event m true true), st := .ready } }) ∧
    -- ERROR_CONSUMED
    (s.cur.errPend = none → exec .errorConsumed s = .next s) ∧
    (s.cur.st = .preempted → exec .errorConsumed s = .next s) ∧
    (∀ e, s.cur.errPend = some e → s.cur.st ≠ .ended → s.cur.st ≠ .preempted → s.cur.recover = false → s.cur.shadow = false →
      (s.cur.esc = true ∨ 2 ≤ s.cur.redel → ∃ t, exec .errorConsumed s = .next t ∧ t.cur.st = .ended ∧ t.cur.recs = [] ∧ t.cur.held = [] ∧ t.tile.escl = true) ∧
      (s.cur.esc = false → s.cur.redel < 2 → ∃ t, exec .errorConsumed s = .next t ∧ t.cur.recover = true ∧ t.cur.st = .waitMem ∧ t.cur.recs = [] ∧
        t.cur.held = [] ∧ t.cur.loads = [] ∧ t.cur.partCtr = 0 ∧ t.cur.errPend = some e ∧ t.cur.w = s.cur.w ∧ t.cur.redel = s.cur.redel ∧
        (s.core.pairQ = [] → t.rest = s.rest))) ∧
    -- ACTIVATION_REDELIVERY
    (∀ e, s.cur.recover = true → s.cur.errPend = some e → s.cur.st = .waitMem → s.cur.stopped = false → s.tile.halted = false →
      ∃ t, exec .activationRedelivery s = .next t ∧ t.cur.w = s.cur.startW ∧ t.cur.pc = s.cur.startPc ∧ t.cur.mig = s.cur.startMig ∧ t.cur.redel = s.cur.redel + 1 ∧
        t.cur.st = .ready ∧ t.cur.recover = false ∧ t.cur.errPend = none ∧ t.cur.q0 = s.cur.payload ∧ t.cur.hvy = false ∧ t.cur.tid = s.cur.tid ∧
        t.cur.stamp = s.cur.stamp ∧ t.cur.openSeg = s.cur.openSeg ∧ t.rest = s.rest ∧ (e.1 = 2 → t.tile.pmis = true)) ∧
    -- PARITY_REPLAY
    (∀ (vec : Bool) (r : BitVec 4), s.cur.st ≠ .ended → s.cur.shadow = false →
      ((∃ e ∈ s.core.replay, produces s.cur.frame vec r e = true) → ∃ t, exec (.parityReplay s.cur.frame ⟨vec, r⟩) s = .next t ∧ t.cur = s.cur ∧
        t.rest = s.rest ∧ t.core = s.core) ∧
      ((∀ e ∈ s.core.replay, produces s.cur.frame vec r e = false) → s.cur.errPend = none →
        ∃ t x, exec (.parityReplay s.cur.frame ⟨vec, r⟩) s = .next t ∧ t.cur = { s.cur with errPend := some (1, x, 0) } ∧ t.rest = s.rest ∧ t.core = s.core)) ∧
    (∀ (f : Nat) (r : BitVec 4) (e : Replay), (produces f false r e = true ↔ e.frame = f ∧ e.reg = r ∧ r ≠ 0) ∧
      (produces f true r e = true ↔ e.frame = f ∧ e.vreg = some r)) ∧
    -- SCRUB
    (exec (.scrub .clean) s = .next s ∧ ∀ pa,
      exec (.scrub (.single pa)) s = .next { s with home := { s.home with
        corrected := tabSet s.home.corrected (unitNum pa) (tabGet s.home.corrected 0 (unitNum pa) + 1) } } ∧
      (pa / 8 ∉ s.home.poison → exec (.scrub (.double pa)) s = .next { s with home := { s.home with poison := s.home.poison ++ [pa / 8] } }) ∧
      (pa / 8 ∈ s.home.poison → exec (.scrub (.double pa)) s = .next s)) ∧
    -- PAIR_HASH_COMPARE, PAIR_TIMEOUT, PRIMARY_VALUE_FORWARD
    (s.core.pairQ = [] → (∀ h : BitVec 64, exec (.pairHashCompare h) s = .next s) ∧ exec .pairTimeout s = .next s) ∧
    (∀ (x : PairItem) (l : List PairItem), s.core.pairQ = x :: l → s.cur.st ≠ .ended → s.cur.shadow = false → sameTask s.cur x.tid x.origin = true →
      (∃ t, exec (.pairHashCompare x.hash) s = .next t ∧ t.core = { s.core with pairQ := l, pairOk := s.core.pairOk ++ [x.what] } ∧
        t.cur = { s.cur with pairEsc := true } ∧ t.rest = s.rest ∧ t.home = s.home ∧ t.tile = s.tile) ∧
      (s.cur.errPend = none →
        (∀ h : BitVec 64, x.hash ≠ h → ∃ t, exec (.pairHashCompare h) s = .next t ∧ t.core.pairQ = l ∧ t.core.pairOk = s.core.pairOk ∧
          t.cur.errPend = some (2, 0, 0) ∧ t.cur.esc = s.cur.pairEsc ∧ t.cur.w = s.cur.w ∧ t.home = s.home) ∧
        (s.tile.frozen = false → s.core.preempt = false → ∃ t, exec .pairTimeout s = .next t ∧ t.core.pairQ = l ∧ t.core.pairOk = s.core.pairOk ∧
          t.cur.errPend = some (2, 0, 0) ∧ t.cur.esc = s.cur.pairEsc ∧ t.cur.w = s.cur.w ∧ t.home = s.home))) ∧
    (s.tile.frozen = true ∨ s.core.preempt = true → exec .pairTimeout s = .next s) ∧
    (∀ (r : BitVec 4) (v : Word), secondary s = false → exec (.primaryValueForward r v) s = .next s) ∧
    (∀ (r : BitVec 4) (v : Word), secondary s = true →
      ((∀ t ∈ s.cur :: s.rest, t.st = .ended ∨ (awaitsAmo r t = none ∧ awaitsLoad r t = none ∧ awaitsBlock t = false)) →
        exec (.primaryValueForward r v) s = .next (s.setW r v)) ∧
      (∀ k, s.cur.st ≠ .ended → awaitsAmo r s.cur = some k → ∃ t, exec (.primaryValueForward r v) s = .next t ∧
        t.cur = { s.cur with amos := modIdx s.cur.amos k fun a => { a with ret := some v } } ∧ t.rest = s.rest ∧ t.home = s.home) ∧
      (∀ k, s.cur.st ≠ .ended → awaitsAmo r s.cur = none → awaitsLoad r s.cur = some k →
        exec (.primaryValueForward r v) s = .next ({ s with cur := dropLoad k s.cur }.setW r v))) ∧
    -- CORE_SPARE_SWAP, COLUMN_SPARE_SWAP, HBM_LANE_SPARE
    (s.tile.spareCore = false → quiet s = true → s.core.preempt = true →
      ∃ t, exec .coreSpareSwap s = .next t ∧ t.tile.spareCore = true ∧ t.host.replReq = true ∧ t.cur = s.cur ∧ t.rest = s.rest ∧ t.core = s.core ∧
        t.home = s.home) ∧
    (s.tile.spareCore = false → quiet s = true → s.core.preempt = false → s.core.mx.queue = [] → s.core.mx.owner = none → s.core.mxSaved = none →
      let z := stopTasks s
      ∃ t, exec .coreSpareSwap s = .next t ∧ t.tile.spareCore = true ∧ t.host.replReq = true ∧ t.cur = restoreTask z z.cur ∧
        t.rest = z.rest.map (restoreTask z) ∧ t.core = { z.core with preempt := false } ∧ t.home = s.home) ∧
    (s.tile.spareCore = true ∨ quiet s = false → exec .coreSpareSwap s = .next s) ∧
    exec .columnSpareSwap s = .next { s with tile := { s.tile with spareCol := true }, host := { s.host with replReq := true } } ∧
    (∃ t k n, exec .hbmLaneSpare s = .next t ∧ k < 384 ∧ n = Nat.min 4 (tabGet s.home.laneSpares 0 (4096 + k) + 1) ∧
      t.home = { s.home with laneSpares := tabSet s.home.laneSpares (4096 + k) n } ∧ t.host.replReq = (s.host.replReq || n == 4) ∧ t.cur = s.cur ∧ t.core = s.core) ∧
    -- TILE_RETIRE
    (s.tile.spareCore = true → s.tile.retired = false → s.cur.st = .ended → s.rest = [] → s.launch.live = false → s.saved = [] →
      exec .tileRetire s = .next { s with tile := emptyTile s.tile, host := { s.host with retiredTiles := s.host.retiredTiles ++ [s.tileId], replReq := true } }) ∧
    (s.tile.spareCore = false ∨ s.tile.retired = true → exec .tileRetire s = .next s) ∧
    -- UNASSIGNED_ENCODING
    (∀ w : IWord, ((∃ i, decode w = .ok i) → exec (.unassignedEncoding w) s = .next s) ∧
      ((∀ i, decode w ≠ .ok i) → exec (.unassignedEncoding w) s = .next (takeTrap 0x01 0 false (w.setWidth 64) s)))

/-- R424 to R426: the debugger's commands. -/
def Obligations.DebugCommands : Prop :=
  ∀ s : State,
    -- DBG_HALT
    (cmdOf s 1 = none → exec .dbgHalt s = .next s) ∧
    (∀ v : BitVec 6, cmdOf s 1 = some v →
      (inPartitionOf s v (cmdTile s v) = false → exec .dbgHalt s = .next (cmdDone v s)) ∧
      (inPartitionOf s v (cmdTile s v) = true → haltsHere s (cmdTile s v) = true → exec .dbgHalt s = .next (cmdDone v { s with
        tile := { s.tile with halted := true, frozen := true }, home := { s.home with out := s.home.out ++ [.freeze true] } })) ∧
      (inPartitionOf s v (cmdTile s v) = true → haltsHere s (cmdTile s v) = false → exec .dbgHalt s = .next (cmdDone v { s with
        tile := { s.tile with frozen := true } }))) ∧
    -- DBG_RESUME
    (cmdOf s 2 = none → exec .dbgResume s = .next s) ∧
    (∀ v : BitVec 6, cmdOf s 2 = some v →
      (inPartitionOf s v (cmdTile s v) = false → exec .dbgResume s = .next (cmdDone v s)) ∧
      (inPartitionOf s v (cmdTile s v) = true → haltsHere s (cmdTile s v) = true → exec .dbgResume s = .next (cmdDone v { s with
        cur := unstop s.cur, rest := s.rest.map unstop, tile := { s.tile with halted := false, frozen := false },
        home := { s.home with out := s.home.out ++ [.freeze false] } })) ∧
      (inPartitionOf s v (cmdTile s v) = true → haltsHere s (cmdTile s v) = false → exec .dbgResume s = .next (cmdDone v { s with
        tile := { s.tile with frozen := s.tile.halted } }))) ∧
    -- DBG_STEP
    (cmdOf s 3 = none → exec .dbgStep s = .next s) ∧
    (∀ v : BitVec 6, cmdOf s 3 = some v →
      (cmdCore s v = s.core.id → s.tile.halted = true → exec .dbgStep s = .next { s with
        cur := unstop s.cur, rest := s.rest.map unstop, core := { s.core with dbgStep := true } }) ∧
      (cmdCore s v ≠ s.core.id ∨ s.tile.halted = false → exec .dbgStep s = .next (cmdDone v s))) ∧
    -- DBG_SYNC
    (cmdOf s 4 = none → exec .dbgSync s = .next s) ∧
    (∀ v : BitVec 6, cmdOf s 4 = some v →
      (s.core.vf = v → exec .dbgSync s = .next (cmdDone v { s with core := { s.core with brkLines := [] } })) ∧
      (s.core.vf ≠ v → exec .dbgSync s = .next (cmdDone v s))) ∧
    (∀ (v : BitVec 6) (u : State), (cmdDone v u).vfReg v = { u.vfReg v with dbgbusy := false } ∧
      ∀ w, w ≠ v → (cmdDone v u).vfReg w = u.vfReg w) ∧
    (∀ t : Task, (t.stopped = false → unstop t = t) ∧
      (t.stopped = true → unstop t = { t with stopped := false, pc := if t.brkSkip then t.pc else t.pc + 4 }))

/-- R419 to R423, R427: the break bit, the match handler and its timeout, and the sample. -/
def Obligations.DebugEvents : Prop :=
  ∀ s : State,
    -- BREAK_BIT_STOP
    (brkHits s = true → brkTask s = false → exec .breakBitStop s = .next { s with
      cur := { s.cur with stopped := true, brkSkip := true },
      tile := { s.tile with halted := true, frozen := true }, home := { s.home with out := s.home.out ++ [.freeze true] } }) ∧
    (brkHits s = true → brkTask s = true → exec .breakBitStop s = .next (takeTrap 0x17 0 false (s.cur.pc.setWidth 64) s)) ∧
    (brkHits s = false → exec .breakBitStop s = .next s) ∧
    -- PC_MATCH_HANDLER
    (∀ (m : Fin 16) (e : Word) (u : State), pcMatch s = some m → matchEntry m s = .ok (e, u) →
      ∃ t, exec .pcMatchHandler s = .next t ∧ t.cur.shadow = true ∧ t.cur.st = .running ∧ t.cur.pc = e.extractLsb' 2 54 ++ 0#2 ∧ t.cur.priv = u.cur.priv ∧
        t.cur.w[1] = u.cur.tid ∧ t.cur.w[2] = u.cur.pc.setWidth 64 ∧ t.cur.w[3] = u.cur.wp.setWidth 64 ∧ t.cur.w[4] = BitVec.ofNat 64 m.val ∧
        t.rest = { u.cur with wait := some .shadow, st := .ready } :: u.rest ∧ t.core.shMatch = some m) ∧
    (pcMatch s = none → exec .pcMatchHandler s = .next s) ∧
    -- SHADOW_TIMEOUT
    (∀ (m : Fin 16) (t0 : Task), s.cur.shadow = true → s.cur.st ≠ .ended → s.core.shMatch = some m → s.rest = [t0] → t0.wait = some .shadow →
      ∃ t, exec .shadowTimeout s = .next t ∧ t.cur.st = .ended ∧ t.rest = [{ t0 with wait := none, pcmSkip := true, st := .ready }] ∧
        t.core.pcmEn = s.core.pcmEn &&& ~~~(1#16 <<< m.val) ∧ t.core.shW = s.cur.w ∧ t.core.shMatch = none) ∧
    (s.cur.shadow = false → (∀ t ∈ s.rest, t.shadow = false) → exec .shadowTimeout s = .next s) ∧
    -- SAMPLE_RECORD
    ((s.vfReg s.core.vf).smpint = 0 → exec .sampleRecord s = .next s) ∧
    ((s.vfReg s.core.vf).smpint ≠ 0 → s.cur.st = .running →
      exec .sampleRecord s = .next (slog s.cur.tid (ctxNum s.cur) 13 (s.cur.pc.extractLsb' 2 32) s)) ∧
    ((s.vfReg s.core.vf).smpint ≠ 0 → s.cur.st ≠ .running → exec .sampleRecord s = .next (slog 0 7 0 0 s))
end

