-- ==== Sys2Proof/Laws/State.lean ====
section
/-! SUPPORT. The named updates of State, field by field: what each changes and what it leaves alone. -/

namespace Sys2Proof.Machine

/-! ### Changes of one component -/

@[simp] theorem State.onCur_cur (s : State) (f : Task → Task) : (s.onCur f).cur = f s.cur := rfl
@[simp] theorem State.onCur_rest (s : State) (f : Task → Task) : (s.onCur f).rest = s.rest := rfl
@[simp] theorem State.onCur_core (s : State) (f : Task → Task) : (s.onCur f).core = s.core := rfl
@[simp] theorem State.onCur_tile (s : State) (f : Task → Task) : (s.onCur f).tile = s.tile := rfl
@[simp] theorem State.onCur_home (s : State) (f : Task → Task) : (s.onCur f).home = s.home := rfl
@[simp] theorem State.onCur_launch (s : State) (f : Task → Task) : (s.onCur f).launch = s.launch := rfl
@[simp] theorem State.onCur_host (s : State) (f : Task → Task) : (s.onCur f).host = s.host := rfl
@[simp] theorem State.onCur_saved (s : State) (f : Task → Task) : (s.onCur f).saved = s.saved := rfl
@[simp] theorem State.onCur_sched (s : State) (f : Task → Task) : (s.onCur f).sched = s.sched := rfl
@[simp] theorem State.onCur_fresh (s : State) (f : Task → Task) : (s.onCur f).fresh = s.fresh := rfl
@[simp] theorem State.onCore_cur (s : State) (f : CoreSt → CoreSt) : (s.onCore f).cur = s.cur := rfl
@[simp] theorem State.onCore_rest (s : State) (f : CoreSt → CoreSt) : (s.onCore f).rest = s.rest := rfl
@[simp] theorem State.onCore_core (s : State) (f : CoreSt → CoreSt) : (s.onCore f).core = f s.core := rfl
@[simp] theorem State.onCore_tile (s : State) (f : CoreSt → CoreSt) : (s.onCore f).tile = s.tile := rfl
@[simp] theorem State.onCore_home (s : State) (f : CoreSt → CoreSt) : (s.onCore f).home = s.home := rfl
@[simp] theorem State.onCore_launch (s : State) (f : CoreSt → CoreSt) : (s.onCore f).launch = s.launch := rfl
@[simp] theorem State.onCore_host (s : State) (f : CoreSt → CoreSt) : (s.onCore f).host = s.host := rfl
@[simp] theorem State.onCore_saved (s : State) (f : CoreSt → CoreSt) : (s.onCore f).saved = s.saved := rfl
@[simp] theorem State.onCore_sched (s : State) (f : CoreSt → CoreSt) : (s.onCore f).sched = s.sched := rfl
@[simp] theorem State.onCore_fresh (s : State) (f : CoreSt → CoreSt) : (s.onCore f).fresh = s.fresh := rfl
@[simp] theorem State.onTile_cur (s : State) (f : TileSt → TileSt) : (s.onTile f).cur = s.cur := rfl
@[simp] theorem State.onTile_rest (s : State) (f : TileSt → TileSt) : (s.onTile f).rest = s.rest := rfl
@[simp] theorem State.onTile_core (s : State) (f : TileSt → TileSt) : (s.onTile f).core = s.core := rfl
@[simp] theorem State.onTile_tile (s : State) (f : TileSt → TileSt) : (s.onTile f).tile = f s.tile := rfl
@[simp] theorem State.onTile_home (s : State) (f : TileSt → TileSt) : (s.onTile f).home = s.home := rfl
@[simp] theorem State.onTile_launch (s : State) (f : TileSt → TileSt) : (s.onTile f).launch = s.launch := rfl
@[simp] theorem State.onTile_host (s : State) (f : TileSt → TileSt) : (s.onTile f).host = s.host := rfl
@[simp] theorem State.onTile_saved (s : State) (f : TileSt → TileSt) : (s.onTile f).saved = s.saved := rfl
@[simp] theorem State.onTile_sched (s : State) (f : TileSt → TileSt) : (s.onTile f).sched = s.sched := rfl
@[simp] theorem State.onTile_fresh (s : State) (f : TileSt → TileSt) : (s.onTile f).fresh = s.fresh := rfl
@[simp] theorem State.onHome_cur (s : State) (f : HomeSt → HomeSt) : (s.onHome f).cur = s.cur := rfl
@[simp] theorem State.onHome_rest (s : State) (f : HomeSt → HomeSt) : (s.onHome f).rest = s.rest := rfl
@[simp] theorem State.onHome_core (s : State) (f : HomeSt → HomeSt) : (s.onHome f).core = s.core := rfl
@[simp] theorem State.onHome_tile (s : State) (f : HomeSt → HomeSt) : (s.onHome f).tile = s.tile := rfl
@[simp] theorem State.onHome_home (s : State) (f : HomeSt → HomeSt) : (s.onHome f).home = f s.home := rfl
@[simp] theorem State.onHome_launch (s : State) (f : HomeSt → HomeSt) : (s.onHome f).launch = s.launch := rfl
@[simp] theorem State.onHome_host (s : State) (f : HomeSt → HomeSt) : (s.onHome f).host = s.host := rfl
@[simp] theorem State.onHome_saved (s : State) (f : HomeSt → HomeSt) : (s.onHome f).saved = s.saved := rfl
@[simp] theorem State.onHome_sched (s : State) (f : HomeSt → HomeSt) : (s.onHome f).sched = s.sched := rfl
@[simp] theorem State.onHome_fresh (s : State) (f : HomeSt → HomeSt) : (s.onHome f).fresh = s.fresh := rfl
@[simp] theorem State.onHost_cur (s : State) (f : HostSt → HostSt) : (s.onHost f).cur = s.cur := rfl
@[simp] theorem State.onHost_rest (s : State) (f : HostSt → HostSt) : (s.onHost f).rest = s.rest := rfl
@[simp] theorem State.onHost_core (s : State) (f : HostSt → HostSt) : (s.onHost f).core = s.core := rfl
@[simp] theorem State.onHost_tile (s : State) (f : HostSt → HostSt) : (s.onHost f).tile = s.tile := rfl
@[simp] theorem State.onHost_home (s : State) (f : HostSt → HostSt) : (s.onHost f).home = s.home := rfl
@[simp] theorem State.onHost_launch (s : State) (f : HostSt → HostSt) : (s.onHost f).launch = s.launch := rfl
@[simp] theorem State.onHost_host (s : State) (f : HostSt → HostSt) : (s.onHost f).host = f s.host := rfl
@[simp] theorem State.onHost_saved (s : State) (f : HostSt → HostSt) : (s.onHost f).saved = s.saved := rfl
@[simp] theorem State.onHost_sched (s : State) (f : HostSt → HostSt) : (s.onHost f).sched = s.sched := rfl
@[simp] theorem State.onHost_fresh (s : State) (f : HostSt → HostSt) : (s.onHost f).fresh = s.fresh := rfl

/-! ### Registers of a function and address spaces (R352, R371) -/

@[simp] theorem State.setVf_cur (s : State) (v : BitVec 6) (r : VfRegs) : (s.setVf v r).cur = s.cur := rfl
@[simp] theorem State.setVf_rest (s : State) (v : BitVec 6) (r : VfRegs) : (s.setVf v r).rest = s.rest := rfl
@[simp] theorem State.setVf_core (s : State) (v : BitVec 6) (r : VfRegs) : (s.setVf v r).core = s.core := rfl
@[simp] theorem State.setVf_tile (s : State) (v : BitVec 6) (r : VfRegs) : (s.setVf v r).tile = s.tile := rfl
@[simp] theorem State.setVf_home (s : State) (v : BitVec 6) (r : VfRegs) : (s.setVf v r).home = s.home := rfl
@[simp] theorem State.setVf_launch (s : State) (v : BitVec 6) (r : VfRegs) : (s.setVf v r).launch = s.launch := rfl
@[simp] theorem State.setVf_host (s : State) (v : BitVec 6) (r : VfRegs) : (s.setVf v r).host = { s.host with vfs := tabSet s.host.vfs v.toNat r } := rfl
@[simp] theorem State.setVf_saved (s : State) (v : BitVec 6) (r : VfRegs) : (s.setVf v r).saved = s.saved := rfl
@[simp] theorem State.setVf_sched (s : State) (v : BitVec 6) (r : VfRegs) : (s.setVf v r).sched = s.sched := rfl
@[simp] theorem State.setVf_fresh (s : State) (v : BitVec 6) (r : VfRegs) : (s.setVf v r).fresh = s.fresh := rfl
@[simp] theorem State.setAsid_cur (s : State) (v : BitVec 6) (i : BitVec 16) (e : AsidEnt) : (s.setAsid v i e).cur = s.cur := rfl
@[simp] theorem State.setAsid_rest (s : State) (v : BitVec 6) (i : BitVec 16) (e : AsidEnt) : (s.setAsid v i e).rest = s.rest := rfl
@[simp] theorem State.setAsid_core (s : State) (v : BitVec 6) (i : BitVec 16) (e : AsidEnt) : (s.setAsid v i e).core = s.core := rfl
@[simp] theorem State.setAsid_tile (s : State) (v : BitVec 6) (i : BitVec 16) (e : AsidEnt) : (s.setAsid v i e).tile = s.tile := rfl
@[simp] theorem State.setAsid_home (s : State) (v : BitVec 6) (i : BitVec 16) (e : AsidEnt) : (s.setAsid v i e).home = s.home := rfl
@[simp] theorem State.setAsid_launch (s : State) (v : BitVec 6) (i : BitVec 16) (e : AsidEnt) : (s.setAsid v i e).launch = s.launch := rfl
@[simp] theorem State.setAsid_host (s : State) (v : BitVec 6) (i : BitVec 16) (e : AsidEnt) : (s.setAsid v i e).host = { s.host with asids := tabSet s.host.asids (asidIdx v i) e } := rfl
@[simp] theorem State.setAsid_saved (s : State) (v : BitVec 6) (i : BitVec 16) (e : AsidEnt) : (s.setAsid v i e).saved = s.saved := rfl
@[simp] theorem State.setAsid_sched (s : State) (v : BitVec 6) (i : BitVec 16) (e : AsidEnt) : (s.setAsid v i e).sched = s.sched := rfl
@[simp] theorem State.setAsid_fresh (s : State) (v : BitVec 6) (i : BitVec 16) (e : AsidEnt) : (s.setAsid v i e).fresh = s.fresh := rfl

/-! ### The issuing context -/

@[simp] theorem State.setW_cur (s : State) (k : BitVec 4) (x : Word) : (s.setW k x).cur = s.cur.setW k x := rfl
@[simp] theorem State.setW_rest (s : State) (k : BitVec 4) (x : Word) : (s.setW k x).rest = s.rest := rfl
@[simp] theorem State.setW_core (s : State) (k : BitVec 4) (x : Word) : (s.setW k x).core = s.core := rfl
@[simp] theorem State.setW_tile (s : State) (k : BitVec 4) (x : Word) : (s.setW k x).tile = s.tile := rfl
@[simp] theorem State.setW_home (s : State) (k : BitVec 4) (x : Word) : (s.setW k x).home = s.home := rfl
@[simp] theorem State.setW_launch (s : State) (k : BitVec 4) (x : Word) : (s.setW k x).launch = s.launch := rfl
@[simp] theorem State.setW_host (s : State) (k : BitVec 4) (x : Word) : (s.setW k x).host = s.host := rfl
@[simp] theorem State.setW_saved (s : State) (k : BitVec 4) (x : Word) : (s.setW k x).saved = s.saved := rfl
@[simp] theorem State.setW_sched (s : State) (k : BitVec 4) (x : Word) : (s.setW k x).sched = s.sched := rfl
@[simp] theorem State.setW_fresh (s : State) (k : BitVec 4) (x : Word) : (s.setW k x).fresh = s.fresh := rfl
@[simp] theorem State.ww_cur (s : State) (f : Fld) (x : Word) : (s.ww f x).cur = s.cur.setW (wIdx f) x := rfl
@[simp] theorem State.ww_rest (s : State) (f : Fld) (x : Word) : (s.ww f x).rest = s.rest := rfl
@[simp] theorem State.ww_core (s : State) (f : Fld) (x : Word) : (s.ww f x).core = s.core := rfl
@[simp] theorem State.ww_tile (s : State) (f : Fld) (x : Word) : (s.ww f x).tile = s.tile := rfl
@[simp] theorem State.ww_home (s : State) (f : Fld) (x : Word) : (s.ww f x).home = s.home := rfl
@[simp] theorem State.ww_launch (s : State) (f : Fld) (x : Word) : (s.ww f x).launch = s.launch := rfl
@[simp] theorem State.ww_host (s : State) (f : Fld) (x : Word) : (s.ww f x).host = s.host := rfl
@[simp] theorem State.ww_saved (s : State) (f : Fld) (x : Word) : (s.ww f x).saved = s.saved := rfl
@[simp] theorem State.ww_sched (s : State) (f : Fld) (x : Word) : (s.ww f x).sched = s.sched := rfl
@[simp] theorem State.ww_fresh (s : State) (f : Fld) (x : Word) : (s.ww f x).fresh = s.fresh := rfl
@[simp] theorem advance_cur (s : State) : (advance s).cur = { s.cur with pc := s.cur.pc + 4 } := rfl
@[simp] theorem advance_rest (s : State) : (advance s).rest = s.rest := rfl
@[simp] theorem advance_core (s : State) : (advance s).core = s.core := rfl
@[simp] theorem advance_tile (s : State) : (advance s).tile = s.tile := rfl
@[simp] theorem advance_home (s : State) : (advance s).home = s.home := rfl
@[simp] theorem advance_launch (s : State) : (advance s).launch = s.launch := rfl
@[simp] theorem advance_host (s : State) : (advance s).host = s.host := rfl
@[simp] theorem advance_saved (s : State) : (advance s).saved = s.saved := rfl
@[simp] theorem advance_sched (s : State) : (advance s).sched = s.sched := rfl
@[simp] theorem advance_fresh (s : State) : (advance s).fresh = s.fresh := rfl
@[simp] theorem setHvy_cur (s : State) : (setHvy s).cur = { s.cur with hvy := true } := rfl
@[simp] theorem setHvy_rest (s : State) : (setHvy s).rest = s.rest := rfl
@[simp] theorem setHvy_core (s : State) : (setHvy s).core = s.core := rfl
@[simp] theorem setHvy_tile (s : State) : (setHvy s).tile = s.tile := rfl
@[simp] theorem setHvy_home (s : State) : (setHvy s).home = s.home := rfl
@[simp] theorem setHvy_launch (s : State) : (setHvy s).launch = s.launch := rfl
@[simp] theorem setHvy_host (s : State) : (setHvy s).host = s.host := rfl
@[simp] theorem setHvy_saved (s : State) : (setHvy s).saved = s.saved := rfl
@[simp] theorem setHvy_sched (s : State) : (setHvy s).sched = s.sched := rfl
@[simp] theorem setHvy_fresh (s : State) : (setHvy s).fresh = s.fresh := rfl
@[simp] theorem State.setV_cur (s : State) (f : Fld) (x : BitVec 512) : (s.setV f x).cur = { s.cur with v := s.cur.v.setIfInBounds f.toNat x, vAbsent := s.cur.vAbsent &&& ~~~(1#16 <<< f.toNat) } := rfl
@[simp] theorem State.setV_rest (s : State) (f : Fld) (x : BitVec 512) : (s.setV f x).rest = s.rest := rfl
@[simp] theorem State.setV_core (s : State) (f : Fld) (x : BitVec 512) : (s.setV f x).core = s.core := rfl
@[simp] theorem State.setV_tile (s : State) (f : Fld) (x : BitVec 512) : (s.setV f x).tile = s.tile := rfl
@[simp] theorem State.setV_home (s : State) (f : Fld) (x : BitVec 512) : (s.setV f x).home = s.home := rfl
@[simp] theorem State.setV_launch (s : State) (f : Fld) (x : BitVec 512) : (s.setV f x).launch = s.launch := rfl
@[simp] theorem State.setV_host (s : State) (f : Fld) (x : BitVec 512) : (s.setV f x).host = s.host := rfl
@[simp] theorem State.setV_saved (s : State) (f : Fld) (x : BitVec 512) : (s.setV f x).saved = s.saved := rfl
@[simp] theorem State.setV_sched (s : State) (f : Fld) (x : BitVec 512) : (s.setV f x).sched = s.sched := rfl
@[simp] theorem State.setV_fresh (s : State) (f : Fld) (x : BitVec 512) : (s.setV f x).fresh = s.fresh := rfl

/-! ### Energy, free values, packets -/

@[simp] theorem chargeTo_cur (v : BitVec 6) (n : Nat) (s : State) : (chargeTo v n s).cur = s.cur := rfl
@[simp] theorem chargeTo_rest (v : BitVec 6) (n : Nat) (s : State) : (chargeTo v n s).rest = s.rest := rfl
@[simp] theorem chargeTo_core (v : BitVec 6) (n : Nat) (s : State) : (chargeTo v n s).core = s.core := rfl
@[simp] theorem chargeTo_tile (v : BitVec 6) (n : Nat) (s : State) : (chargeTo v n s).tile = { s.tile with meter := tabSet s.tile.meter v.toNat (tabGet s.tile.meter 0 v.toNat + n * s.tile.cal.toNat / 2 ^ 15) } := by simp [chargeTo, chargeMany]
@[simp] theorem chargeTo_home (v : BitVec 6) (n : Nat) (s : State) : (chargeTo v n s).home = s.home := rfl
@[simp] theorem chargeTo_launch (v : BitVec 6) (n : Nat) (s : State) : (chargeTo v n s).launch = s.launch := rfl
@[simp] theorem chargeTo_host (v : BitVec 6) (n : Nat) (s : State) : (chargeTo v n s).host = s.host := rfl
@[simp] theorem chargeTo_saved (v : BitVec 6) (n : Nat) (s : State) : (chargeTo v n s).saved = s.saved := rfl
@[simp] theorem chargeTo_sched (v : BitVec 6) (n : Nat) (s : State) : (chargeTo v n s).sched = s.sched := rfl
@[simp] theorem chargeTo_fresh (v : BitVec 6) (n : Nat) (s : State) : (chargeTo v n s).fresh = s.fresh := rfl
@[simp] theorem charge_cur (c : Charge) (s : State) : (charge c s).cur = s.cur := rfl
@[simp] theorem charge_rest (c : Charge) (s : State) : (charge c s).rest = s.rest := rfl
@[simp] theorem charge_core (c : Charge) (s : State) : (charge c s).core = s.core := rfl
@[simp] theorem charge_tile (c : Charge) (s : State) : (charge c s).tile = (chargeTo s.core.vf c.nominal s).tile := rfl
@[simp] theorem charge_home (c : Charge) (s : State) : (charge c s).home = s.home := rfl
@[simp] theorem charge_launch (c : Charge) (s : State) : (charge c s).launch = s.launch := rfl
@[simp] theorem charge_host (c : Charge) (s : State) : (charge c s).host = s.host := rfl
@[simp] theorem charge_saved (c : Charge) (s : State) : (charge c s).saved = s.saved := rfl
@[simp] theorem charge_sched (c : Charge) (s : State) : (charge c s).sched = s.sched := rfl
@[simp] theorem charge_fresh (c : Charge) (s : State) : (charge c s).fresh = s.fresh := rfl
@[simp] theorem chargeOpen_cur (v : BitVec 6) (s : State) : (chargeOpen v s).cur = s.cur := rfl
@[simp] theorem chargeOpen_rest (v : BitVec 6) (s : State) : (chargeOpen v s).rest = s.rest := rfl
@[simp] theorem chargeOpen_core (v : BitVec 6) (s : State) : (chargeOpen v s).core = s.core := rfl
@[simp] theorem chargeOpen_tile (v : BitVec 6) (s : State) : (chargeOpen v s).tile = (chargeTo v ((Config.freeWord s.fresh).toNat % 2 ^ 32) s).tile := rfl
@[simp] theorem chargeOpen_home (v : BitVec 6) (s : State) : (chargeOpen v s).home = s.home := rfl
@[simp] theorem chargeOpen_launch (v : BitVec 6) (s : State) : (chargeOpen v s).launch = s.launch := rfl
@[simp] theorem chargeOpen_host (v : BitVec 6) (s : State) : (chargeOpen v s).host = s.host := rfl
@[simp] theorem chargeOpen_saved (v : BitVec 6) (s : State) : (chargeOpen v s).saved = s.saved := rfl
@[simp] theorem chargeOpen_sched (v : BitVec 6) (s : State) : (chargeOpen v s).sched = s.sched := rfl
@[simp] theorem chargeOpen_fresh (v : BitVec 6) (s : State) : (chargeOpen v s).fresh = s.fresh + 1 := rfl
@[simp] theorem emit_cur (p : Packet) (s : State) : (emit p s).cur = s.cur := rfl
@[simp] theorem emit_rest (p : Packet) (s : State) : (emit p s).rest = s.rest := rfl
@[simp] theorem emit_core (p : Packet) (s : State) : (emit p s).core = s.core := rfl
@[simp] theorem emit_tile (p : Packet) (s : State) : (emit p s).tile = s.tile := rfl
@[simp] theorem emit_home (p : Packet) (s : State) : (emit p s).home = { s.home with out := s.home.out ++ [p] } := rfl
@[simp] theorem emit_launch (p : Packet) (s : State) : (emit p s).launch = s.launch := rfl
@[simp] theorem emit_host (p : Packet) (s : State) : (emit p s).host = s.host := rfl
@[simp] theorem emit_saved (p : Packet) (s : State) : (emit p s).saved = s.saved := rfl
@[simp] theorem emit_sched (p : Packet) (s : State) : (emit p s).sched = s.sched := rfl
@[simp] theorem emit_fresh (p : Packet) (s : State) : (emit p s).fresh = s.fresh := rfl
@[simp] theorem onMx_cur (f : MxCtx → MxCtx) (s : State) : (onMx f s).cur = s.cur := rfl
@[simp] theorem onMx_rest (f : MxCtx → MxCtx) (s : State) : (onMx f s).rest = s.rest := rfl
@[simp] theorem onMx_core (f : MxCtx → MxCtx) (s : State) : (onMx f s).core = { s.core with mx := f s.core.mx } := rfl
@[simp] theorem onMx_tile (f : MxCtx → MxCtx) (s : State) : (onMx f s).tile = s.tile := rfl
@[simp] theorem onMx_home (f : MxCtx → MxCtx) (s : State) : (onMx f s).home = s.home := rfl
@[simp] theorem onMx_launch (f : MxCtx → MxCtx) (s : State) : (onMx f s).launch = s.launch := rfl
@[simp] theorem onMx_host (f : MxCtx → MxCtx) (s : State) : (onMx f s).host = s.host := rfl
@[simp] theorem onMx_saved (f : MxCtx → MxCtx) (s : State) : (onMx f s).saved = s.saved := rfl
@[simp] theorem onMx_sched (f : MxCtx → MxCtx) (s : State) : (onMx f s).sched = s.sched := rfl
@[simp] theorem onMx_fresh (f : MxCtx → MxCtx) (s : State) : (onMx f s).fresh = s.fresh := rfl
@[simp] theorem State.free_cur (s : State) : (s.free).2.cur = s.cur := rfl
@[simp] theorem State.free_rest (s : State) : (s.free).2.rest = s.rest := rfl
@[simp] theorem State.free_core (s : State) : (s.free).2.core = s.core := rfl
@[simp] theorem State.free_tile (s : State) : (s.free).2.tile = s.tile := rfl
@[simp] theorem State.free_home (s : State) : (s.free).2.home = s.home := rfl
@[simp] theorem State.free_launch (s : State) : (s.free).2.launch = s.launch := rfl
@[simp] theorem State.free_host (s : State) : (s.free).2.host = s.host := rfl
@[simp] theorem State.free_saved (s : State) : (s.free).2.saved = s.saved := rfl
@[simp] theorem State.free_sched (s : State) : (s.free).2.sched = s.sched := rfl
@[simp] theorem State.free_fresh (s : State) : (s.free).2.fresh = s.fresh + 1 := rfl
@[simp] theorem State.free_value (s : State) : (s.free).1 = Config.freeWord s.fresh := rfl

/-! ### Retirement (R202, R398) -/

@[simp] theorem retire_cur (s : State) : (retire s).cur = { s.cur with wait := if s.cur.wait == some Wait.yielded then s.cur.wait else none, st := if s.cur.st == .ended then .ended else if s.cur.wait == some Wait.yielded then .ready else .running, brkSkip := false, pcmSkip := false, paid := false, trapTaken := false } := rfl
@[simp] theorem retire_rest (s : State) : (retire s).rest = s.rest.map unyield := rfl
@[simp] theorem retire_core (s : State) : (retire s).core = retireCore s.cur.frame s.core := rfl
@[simp] theorem retire_tile (s : State) : (retire s).tile = s.tile := rfl
@[simp] theorem retire_home (s : State) : (retire s).home = s.home := rfl
@[simp] theorem retire_launch (s : State) : (retire s).launch = s.launch := rfl
@[simp] theorem retire_host (s : State) : (retire s).host = s.host := rfl
@[simp] theorem retire_saved (s : State) : (retire s).saved = s.saved := rfl
@[simp] theorem retire_sched (s : State) : (retire s).sched = s.sched := rfl
@[simp] theorem retire_fresh (s : State) : (retire s).fresh = s.fresh := rfl

/-! ### A general register written (R80): every other field of the context stays -/

@[simp] theorem Task.setW_st (t : Task) (k : BitVec 4) (x : Word) : (t.setW k x).st = t.st := by unfold Task.setW; split <;> rfl
@[simp] theorem Task.setW_frame (t : Task) (k : BitVec 4) (x : Word) : (t.setW k x).frame = t.frame := by unfold Task.setW; split <;> rfl
@[simp] theorem Task.setW_slot (t : Task) (k : BitVec 4) (x : Word) : (t.setW k x).slot = t.slot := by unfold Task.setW; split <;> rfl
@[simp] theorem Task.setW_wait (t : Task) (k : BitVec 4) (x : Word) : (t.setW k x).wait = t.wait := by unfold Task.setW; split <;> rfl
@[simp] theorem Task.setW_pc (t : Task) (k : BitVec 4) (x : Word) : (t.setW k x).pc = t.pc := by unfold Task.setW; split <;> rfl
@[simp] theorem Task.setW_mig (t : Task) (k : BitVec 4) (x : Word) : (t.setW k x).mig = t.mig := by unfold Task.setW; split <;> rfl
@[simp] theorem Task.setW_esc (t : Task) (k : BitVec 4) (x : Word) : (t.setW k x).esc = t.esc := by unfold Task.setW; split <;> rfl
@[simp] theorem Task.setW_pair (t : Task) (k : BitVec 4) (x : Word) : (t.setW k x).pair = t.pair := by unfold Task.setW; split <;> rfl
@[simp] theorem Task.setW_hvy (t : Task) (k : BitVec 4) (x : Word) : (t.setW k x).hvy = t.hvy := by unfold Task.setW; split <;> rfl
@[simp] theorem Task.setW_priv (t : Task) (k : BitVec 4) (x : Word) : (t.setW k x).priv = t.priv := by unfold Task.setW; split <;> rfl
@[simp] theorem Task.setW_inu (t : Task) (k : BitVec 4) (x : Word) : (t.setW k x).inu = t.inu := by unfold Task.setW; split <;> rfl
@[simp] theorem Task.setW_tid (t : Task) (k : BitVec 4) (x : Word) : (t.setW k x).tid = t.tid := by unfold Task.setW; split <;> rfl
@[simp] theorem Task.setW_origin (t : Task) (k : BitVec 4) (x : Word) : (t.setW k x).origin = t.origin := by unfold Task.setW; split <;> rfl
@[simp] theorem Task.setW_stamp (t : Task) (k : BitVec 4) (x : Word) : (t.setW k x).stamp = t.stamp := by unfold Task.setW; split <;> rfl
@[simp] theorem Task.setW_key (t : Task) (k : BitVec 4) (x : Word) : (t.setW k x).key = t.key := by unfold Task.setW; split <;> rfl
@[simp] theorem Task.setW_wp (t : Task) (k : BitVec 4) (x : Word) : (t.setW k x).wp = t.wp := by unfold Task.setW; split <;> rfl
@[simp] theorem Task.setW_lahCls (t : Task) (k : BitVec 4) (x : Word) : (t.setW k x).lahCls = t.lahCls := by unfold Task.setW; split <;> rfl
@[simp] theorem Task.setW_tcDetail (t : Task) (k : BitVec 4) (x : Word) : (t.setW k x).tcDetail = t.tcDetail := by unfold Task.setW; split <;> rfl
@[simp] theorem Task.setW_tcAsync (t : Task) (k : BitVec 4) (x : Word) : (t.setW k x).tcAsync = t.tcAsync := by unfold Task.setW; split <;> rfl
@[simp] theorem Task.setW_tcCause (t : Task) (k : BitVec 4) (x : Word) : (t.setW k x).tcCause = t.tcCause := by unfold Task.setW; split <;> rfl
@[simp] theorem Task.setW_tepc (t : Task) (k : BitVec 4) (x : Word) : (t.setW k x).tepc = t.tepc := by unfold Task.setW; split <;> rfl
@[simp] theorem Task.setW_tval (t : Task) (k : BitVec 4) (x : Word) : (t.setW k x).tval = t.tval := by unfold Task.setW; split <;> rfl
@[simp] theorem Task.setW_uepc (t : Task) (k : BitVec 4) (x : Word) : (t.setW k x).uepc = t.uepc := by unfold Task.setW; split <;> rfl
@[simp] theorem Task.setW_xferid (t : Task) (k : BitVec 4) (x : Word) : (t.setW k x).xferid = t.xferid := by unfold Task.setW; split <;> rfl
@[simp] theorem Task.setW_xstatus (t : Task) (k : BitVec 4) (x : Word) : (t.setW k x).xstatus = t.xstatus := by unfold Task.setW; split <;> rfl
@[simp] theorem Task.setW_fmta (t : Task) (k : BitVec 4) (x : Word) : (t.setW k x).fmta = t.fmta := by unfold Task.setW; split <;> rfl
@[simp] theorem Task.setW_fmtb (t : Task) (k : BitVec 4) (x : Word) : (t.setW k x).fmtb = t.fmtb := by unfold Task.setW; split <;> rfl
@[simp] theorem Task.setW_sclaSeq (t : Task) (k : BitVec 4) (x : Word) : (t.setW k x).sclaSeq = t.sclaSeq := by unfold Task.setW; split <;> rfl
@[simp] theorem Task.setW_sclaPtr (t : Task) (k : BitVec 4) (x : Word) : (t.setW k x).sclaPtr = t.sclaPtr := by unfold Task.setW; split <;> rfl
@[simp] theorem Task.setW_sclbSeq (t : Task) (k : BitVec 4) (x : Word) : (t.setW k x).sclbSeq = t.sclbSeq := by unfold Task.setW; split <;> rfl
@[simp] theorem Task.setW_sclbPtr (t : Task) (k : BitVec 4) (x : Word) : (t.setW k x).sclbPtr = t.sclbPtr := by unfold Task.setW; split <;> rfl
@[simp] theorem Task.setW_ftol (t : Task) (k : BitVec 4) (x : Word) : (t.setW k x).ftol = t.ftol := by unfold Task.setW; split <;> rfl
@[simp] theorem Task.setW_fmaxn (t : Task) (k : BitVec 4) (x : Word) : (t.setW k x).fmaxn = t.fmaxn := by unfold Task.setW; split <;> rfl
@[simp] theorem Task.setW_nrt (t : Task) (k : BitVec 4) (x : Word) : (t.setW k x).nrt = t.nrt := by unfold Task.setW; split <;> rfl
@[simp] theorem Task.setW_fmore (t : Task) (k : BitVec 4) (x : Word) : (t.setW k x).fmore = t.fmore := by unfold Task.setW; split <;> rfl
@[simp] theorem Task.setW_fout (t : Task) (k : BitVec 4) (x : Word) : (t.setW k x).fout = t.fout := by unfold Task.setW; split <;> rfl
@[simp] theorem Task.setW_fx (t : Task) (k : BitVec 4) (x : Word) : (t.setW k x).fx = t.fx := by unfold Task.setW; split <;> rfl
@[simp] theorem Task.setW_classMask (t : Task) (k : BitVec 4) (x : Word) : (t.setW k x).classMask = t.classMask := by unfold Task.setW; split <;> rfl
@[simp] theorem Task.setW_depl (t : Task) (k : BitVec 4) (x : Word) : (t.setW k x).depl = t.depl := by unfold Task.setW; split <;> rfl
@[simp] theorem Task.setW_deposits (t : Task) (k : BitVec 4) (x : Word) : (t.setW k x).deposits = t.deposits := by unfold Task.setW; split <;> rfl
@[simp] theorem Task.setW_payload (t : Task) (k : BitVec 4) (x : Word) : (t.setW k x).payload = t.payload := by unfold Task.setW; split <;> rfl
@[simp] theorem Task.setW_inboxAt (t : Task) (k : BitVec 4) (x : Word) : (t.setW k x).inboxAt = t.inboxAt := by unfold Task.setW; split <;> rfl
@[simp] theorem Task.setW_q0 (t : Task) (k : BitVec 4) (x : Word) : (t.setW k x).q0 = t.q0 := by unfold Task.setW; split <;> rfl
@[simp] theorem Task.setW_q1 (t : Task) (k : BitVec 4) (x : Word) : (t.setW k x).q1 = t.q1 := by unfold Task.setW; split <;> rfl
@[simp] theorem Task.setW_qs (t : Task) (k : BitVec 4) (x : Word) : (t.setW k x).qs = t.qs := by unfold Task.setW; split <;> rfl
@[simp] theorem Task.setW_streams (t : Task) (k : BitVec 4) (x : Word) : (t.setW k x).streams = t.streams := by unfold Task.setW; split <;> rfl
@[simp] theorem Task.setW_v (t : Task) (k : BitVec 4) (x : Word) : (t.setW k x).v = t.v := by unfold Task.setW; split <;> rfl
@[simp] theorem Task.setW_vAbsent (t : Task) (k : BitVec 4) (x : Word) : (t.setW k x).vAbsent = t.vAbsent := by unfold Task.setW; split <;> rfl
@[simp] theorem Task.setW_vmask (t : Task) (k : BitVec 4) (x : Word) : (t.setW k x).vmask = t.vmask := by unfold Task.setW; split <;> rfl
@[simp] theorem Task.setW_xr (t : Task) (k : BitVec 4) (x : Word) : (t.setW k x).xr = t.xr := by unfold Task.setW; split <;> rfl
@[simp] theorem Task.setW_xseq (t : Task) (k : BitVec 4) (x : Word) : (t.setW k x).xseq = t.xseq := by unfold Task.setW; split <;> rfl
@[simp] theorem Task.setW_xrPend (t : Task) (k : BitVec 4) (x : Word) : (t.setW k x).xrPend = t.xrPend := by unfold Task.setW; split <;> rfl
@[simp] theorem Task.setW_vtPend (t : Task) (k : BitVec 4) (x : Word) : (t.setW k x).vtPend = t.vtPend := by unfold Task.setW; split <;> rfl
@[simp] theorem Task.setW_f (t : Task) (k : BitVec 4) (x : Word) : (t.setW k x).f = t.f := by unfold Task.setW; split <;> rfl
@[simp] theorem Task.setW_openSeg (t : Task) (k : BitVec 4) (x : Word) : (t.setW k x).openSeg = t.openSeg := by unfold Task.setW; split <;> rfl
@[simp] theorem Task.setW_recs (t : Task) (k : BitVec 4) (x : Word) : (t.setW k x).recs = t.recs := by unfold Task.setW; split <;> rfl
@[simp] theorem Task.setW_recCtr (t : Task) (k : BitVec 4) (x : Word) : (t.setW k x).recCtr = t.recCtr := by unfold Task.setW; split <;> rfl
@[simp] theorem Task.setW_floor (t : Task) (k : BitVec 4) (x : Word) : (t.setW k x).floor = t.floor := by unfold Task.setW; split <;> rfl
@[simp] theorem Task.setW_partCtr (t : Task) (k : BitVec 4) (x : Word) : (t.setW k x).partCtr = t.partCtr := by unfold Task.setW; split <;> rfl
@[simp] theorem Task.setW_held (t : Task) (k : BitVec 4) (x : Word) : (t.setW k x).held = t.held := by unfold Task.setW; split <;> rfl
@[simp] theorem Task.setW_loads (t : Task) (k : BitVec 4) (x : Word) : (t.setW k x).loads = t.loads := by unfold Task.setW; split <;> rfl
@[simp] theorem Task.setW_amos (t : Task) (k : BitVec 4) (x : Word) : (t.setW k x).amos = t.amos := by unfold Task.setW; split <;> rfl
@[simp] theorem Task.setW_reqNum (t : Task) (k : BitVec 4) (x : Word) : (t.setW k x).reqNum = t.reqNum := by unfold Task.setW; split <;> rfl
@[simp] theorem Task.setW_marks (t : Task) (k : BitVec 4) (x : Word) : (t.setW k x).marks = t.marks := by unfold Task.setW; split <;> rfl
@[simp] theorem Task.setW_arrives (t : Task) (k : BitVec 4) (x : Word) : (t.setW k x).arrives = t.arrives := by unfold Task.setW; split <;> rfl
@[simp] theorem Task.setW_wrote (t : Task) (k : BitVec 4) (x : Word) : (t.setW k x).wrote = t.wrote := by unfold Task.setW; split <;> rfl
@[simp] theorem Task.setW_sentOut (t : Task) (k : BitVec 4) (x : Word) : (t.setW k x).sentOut = t.sentOut := by unfold Task.setW; split <;> rfl
@[simp] theorem Task.setW_fails (t : Task) (k : BitVec 4) (x : Word) : (t.setW k x).fails = t.fails := by unfold Task.setW; split <;> rfl
@[simp] theorem Task.setW_failBig (t : Task) (k : BitVec 4) (x : Word) : (t.setW k x).failBig = t.failBig := by unfold Task.setW; split <;> rfl
@[simp] theorem Task.setW_failRefused (t : Task) (k : BitVec 4) (x : Word) : (t.setW k x).failRefused = t.failRefused := by unfold Task.setW; split <;> rfl
@[simp] theorem Task.setW_failDead (t : Task) (k : BitVec 4) (x : Word) : (t.setW k x).failDead = t.failDead := by unfold Task.setW; split <;> rfl
@[simp] theorem Task.setW_traps (t : Task) (k : BitVec 4) (x : Word) : (t.setW k x).traps = t.traps := by unfold Task.setW; split <;> rfl
@[simp] theorem Task.setW_comps (t : Task) (k : BitVec 4) (x : Word) : (t.setW k x).comps = t.comps := by unfold Task.setW; split <;> rfl
@[simp] theorem Task.setW_redel (t : Task) (k : BitVec 4) (x : Word) : (t.setW k x).redel = t.redel := by unfold Task.setW; split <;> rfl
@[simp] theorem Task.setW_startPc (t : Task) (k : BitVec 4) (x : Word) : (t.setW k x).startPc = t.startPc := by unfold Task.setW; split <;> rfl
@[simp] theorem Task.setW_startW (t : Task) (k : BitVec 4) (x : Word) : (t.setW k x).startW = t.startW := by unfold Task.setW; split <;> rfl
@[simp] theorem Task.setW_startMig (t : Task) (k : BitVec 4) (x : Word) : (t.setW k x).startMig = t.startMig := by unfold Task.setW; split <;> rfl
@[simp] theorem Task.setW_startXferid (t : Task) (k : BitVec 4) (x : Word) : (t.setW k x).startXferid = t.startXferid := by unfold Task.setW; split <;> rfl
@[simp] theorem Task.setW_errPend (t : Task) (k : BitVec 4) (x : Word) : (t.setW k x).errPend = t.errPend := by unfold Task.setW; split <;> rfl
@[simp] theorem Task.setW_pairEsc (t : Task) (k : BitVec 4) (x : Word) : (t.setW k x).pairEsc = t.pairEsc := by unfold Task.setW; split <;> rfl
@[simp] theorem Task.setW_recover (t : Task) (k : BitVec 4) (x : Word) : (t.setW k x).recover = t.recover := by unfold Task.setW; split <;> rfl
@[simp] theorem Task.setW_brkSkip (t : Task) (k : BitVec 4) (x : Word) : (t.setW k x).brkSkip = t.brkSkip := by unfold Task.setW; split <;> rfl
@[simp] theorem Task.setW_paid (t : Task) (k : BitVec 4) (x : Word) : (t.setW k x).paid = t.paid := by unfold Task.setW; split <;> rfl
@[simp] theorem Task.setW_trapTaken (t : Task) (k : BitVec 4) (x : Word) : (t.setW k x).trapTaken = t.trapTaken := by unfold Task.setW; split <;> rfl
@[simp] theorem Task.setW_pcmSkip (t : Task) (k : BitVec 4) (x : Word) : (t.setW k x).pcmSkip = t.pcmSkip := by unfold Task.setW; split <;> rfl
@[simp] theorem Task.setW_stopped (t : Task) (k : BitVec 4) (x : Word) : (t.setW k x).stopped = t.stopped := by unfold Task.setW; split <;> rfl
@[simp] theorem Task.setW_shadow (t : Task) (k : BitVec 4) (x : Word) : (t.setW k x).shadow = t.shadow := by unfold Task.setW; split <;> rfl
@[simp] theorem Task.setW_ownTrapvec (t : Task) (k : BitVec 4) (x : Word) : (t.setW k x).ownTrapvec = t.ownTrapvec := by unfold Task.setW; split <;> rfl
@[simp] theorem Task.setW_ownLogovf (t : Task) (k : BitVec 4) (x : Word) : (t.setW k x).ownLogovf = t.ownLogovf := by unfold Task.setW; split <;> rfl
@[simp] theorem Task.setW_ownSpillovf (t : Task) (k : BitVec 4) (x : Word) : (t.setW k x).ownSpillovf = t.ownSpillovf := by unfold Task.setW; split <;> rfl

theorem Task.getW_setW_same (t : Task) (k : BitVec 4) (x : Word) (h : k ≠ 0) : (t.setW k x).getW k = x := by
  simp [Task.getW, Task.setW, show ¬ k = 0#4 from h]

theorem Task.getW_setW_other (t : Task) (j k : BitVec 4) (x : Word) (h : j ≠ k) : (t.setW k x).getW j = t.getW j := by
  have h' : ¬ k.toNat = j.toNat := fun e => h (BitVec.eq_of_toNat_eq e.symm)
  unfold Task.getW Task.setW
  split
  · rfl
  · split
    · rfl
    · simp [h']

/-- R80: w0 reads zero whatever is done to it. -/
@[simp] theorem Task.getW_zero (t : Task) : t.getW 0 = 0 := rfl
@[simp] theorem Task.setW_zero (t : Task) (x : Word) : t.setW 0 x = t := rfl

end Sys2Proof.Machine
end

