-- ==== Sys2Proof/Laws/Memory.lean ====
section
/-! SUPPORT. The canonical form of a memory: every operation over memories keeps it, reads see the last write, and memories that read
alike are equal data. -/

namespace Sys2Proof.Machine

theorem memWfFrom_mono {lo lo' : Nat} {m : List Host.Cell} (h : memWfFrom lo m = true) (hl : lo' ≤ lo) :
    memWfFrom lo' m = true := by
  cases m with
  | nil => rfl
  | cons x r =>
    simp only [memWfFrom, Bool.and_eq_true, decide_eq_true_eq] at h ⊢
    exact ⟨⟨by omega, h.1.2⟩, h.2⟩

/-- A byte below the first listed address is not listed. -/
theorem memGet_below {lo a : Nat} {m : List Host.Cell} (h : memWfFrom lo m = true) (ha : a < lo) : memGet m a = unlisted := by
  induction m generalizing lo with
  | nil => rfl
  | cons x r ih =>
    simp only [memWfFrom, Bool.and_eq_true, decide_eq_true_eq] at h
    have hx : ¬ x.1 = a := by omega
    simp only [memGet, if_neg hx]
    exact ih h.2 (by omega)

theorem memPut_wfFrom {lo : Nat} {m : List Host.Cell} (a : Nat) (b : Byte) (h : memWfFrom lo m = true) (ha : lo ≤ a) :
    memWfFrom lo (memPut m a b) = true := by
  induction m generalizing lo with
  | nil =>
    unfold memPut
    split
    · rfl
    · simp_all [memWfFrom]
  | cons x r ih =>
    simp only [memWfFrom, Bool.and_eq_true, decide_eq_true_eq] at h
    unfold memPut
    split
    · split
      · simp_all [memWfFrom]
      · next h1 h2 =>
        simp only [memWfFrom, Bool.and_eq_true, decide_eq_true_eq]
        exact ⟨⟨ha, by simpa using h2⟩, ⟨by omega, h.1.2⟩, h.2⟩
    · split
      · split
        · exact memWfFrom_mono h.2 (by omega)
        · next h1 h2 h3 =>
          simp only [memWfFrom, Bool.and_eq_true, decide_eq_true_eq]
          exact ⟨⟨ha, by simpa using h3⟩, by rw [h2]; exact h.2⟩
      · simp only [memWfFrom, Bool.and_eq_true, decide_eq_true_eq]
        exact ⟨h.1, ih h.2 (by omega)⟩

theorem memPut_wf {m : List Host.Cell} (a : Nat) (b : Byte) (h : Memory.wf m = true) : Memory.wf (memPut m a b) = true :=
  memPut_wfFrom a b h (Nat.zero_le a)

theorem memPutN_wf {m : List Host.Cell} (a : Nat) (bs : List Byte) (h : Memory.wf m = true) : Memory.wf (memPutN m a bs) = true := by
  induction bs generalizing m a with
  | nil => exact h
  | cons b bs ih => exact ih (a + 1) (memPut_wf a b h)

theorem memFilter_wfFrom {lo : Nat} {m : List Host.Cell} (p : Host.Cell → Bool) (h : memWfFrom lo m = true) :
    memWfFrom lo (m.filter p) = true := by
  induction m generalizing lo with
  | nil => rfl
  | cons x r ih =>
    simp only [memWfFrom, Bool.and_eq_true, decide_eq_true_eq] at h
    rw [List.filter_cons]
    split
    · simp only [memWfFrom, Bool.and_eq_true, decide_eq_true_eq]
      exact ⟨h.1, ih h.2⟩
    · exact memWfFrom_mono (ih h.2) (by omega)

theorem memFilter_wf {m : List Host.Cell} (p : Host.Cell → Bool) (h : Memory.wf m = true) : Memory.wf (m.filter p) = true :=
  memFilter_wfFrom p h

theorem putCells_wf {m : List Host.Cell} (l : List Host.Cell) (h : Memory.wf m = true) : Memory.wf (putCells m l) = true := by
  unfold putCells
  induction l generalizing m with
  | nil => exact h
  | cons x l ih => exact ih (memPut_wf x.1 x.2 h)

/-! ### Reads after writes -/

theorem memGet_memPut_same {lo : Nat} {m : List Host.Cell} (a : Nat) (b : Byte) (h : memWfFrom lo m = true) :
    memGet (memPut m a b) a = b := by
  induction m generalizing lo with
  | nil =>
    unfold memPut
    split
    · simp_all [memGet]
    · simp [memGet]
  | cons x r ih =>
    simp only [memWfFrom, Bool.and_eq_true, decide_eq_true_eq] at h
    unfold memPut
    split
    · split
      · next h1 h2 =>
        have hx : ¬ x.1 = a := by omega
        simp only [memGet, if_neg hx, h2]
        exact memGet_below h.2 (by omega)
      · simp [memGet]
    · split
      · next h1 h2 =>
        split
        · next h3 => rw [h3]; exact memGet_below h.2 (by omega)
        · simp [memGet]
      · next h1 h2 =>
        have hx : ¬ x.1 = a := fun e => h2 e.symm
        simp only [memGet, if_neg hx]
        exact ih h.2

theorem memGet_memPut_other {lo : Nat} {m : List Host.Cell} (a c : Nat) (b : Byte) (h : memWfFrom lo m = true) (hc : c ≠ a) :
    memGet (memPut m a b) c = memGet m c := by
  have hca : ¬ a = c := fun e => hc e.symm
  induction m generalizing lo with
  | nil =>
    unfold memPut
    split
    · rfl
    · simp [memGet, hca]
  | cons x r ih =>
    simp only [memWfFrom, Bool.and_eq_true, decide_eq_true_eq] at h
    unfold memPut
    split
    · split
      · rfl
      · simp [memGet, hca]
    · split
      · next h1 h2 =>
        have hx : ¬ x.1 = c := by omega
        split
        · simp [memGet, hx]
        · simp [memGet, hx, hca]
      · simp only [memGet]
        split
        · rfl
        · exact ih h.2

/-- Bytes outside the range that is written. -/
theorem memGet_memPutN_outside {m : List Host.Cell} (a c : Nat) (bs : List Byte) (h : Memory.wf m = true)
    (hc : c < a ∨ a + bs.length ≤ c) : memGet (memPutN m a bs) c = memGet m c := by
  induction bs generalizing m a with
  | nil => rfl
  | cons b bs ih =>
    simp only [List.length_cons] at hc
    rw [memPutN, ih (a + 1) (memPut_wf a b h) (by omega)]
    exact memGet_memPut_other a c b h (by omega)

/-- Bytes inside it. -/
theorem memGet_memPutN_inside {m : List Host.Cell} (a k : Nat) (bs : List Byte) (h : Memory.wf m = true) (hk : k < bs.length) :
    memGet (memPutN m a bs) (a + k) = bs[k] := by
  induction bs generalizing m a k with
  | nil => simp at hk
  | cons b bs ih =>
    rw [memPutN]
    cases k with
    | zero =>
      rw [memGet_memPutN_outside (a + 1) (a + 0) bs (memPut_wf a b h) (by omega)]
      exact memGet_memPut_same a b h
    | succ k =>
      have e : a + (k + 1) = a + 1 + k := by omega
      rw [e, ih (a + 1) k (memPut_wf a b h) (by simpa using hk)]
      simp

/-- Memories in canonical form that read alike are equal. -/
theorem mem_ext {lo : Nat} {m n : List Host.Cell} (hm : memWfFrom lo m = true) (hn : memWfFrom lo n = true)
    (h : ∀ a, memGet m a = memGet n a) : m = n := by
  induction m generalizing lo n with
  | nil =>
    cases n with
    | nil => rfl
    | cons y n =>
      simp only [memWfFrom, Bool.and_eq_true, decide_eq_true_eq, bne_iff_ne, ne_eq] at hn
      have := h y.1
      simp only [memGet, if_true] at this
      exact absurd this.symm hn.1.2
  | cons x m ih =>
    simp only [memWfFrom, Bool.and_eq_true, decide_eq_true_eq, bne_iff_ne, ne_eq] at hm
    cases n with
    | nil =>
      have := h x.1
      simp only [memGet, if_true] at this
      exact absurd this hm.1.2
    | cons y n =>
      simp only [memWfFrom, Bool.and_eq_true, decide_eq_true_eq, bne_iff_ne, ne_eq] at hn
      have key : x.1 = y.1 := by
        rcases Nat.lt_trichotomy x.1 y.1 with lt | eq | gt
        · have := h x.1
          have hy : ¬ y.1 = x.1 := by omega
          simp only [memGet, if_true, if_neg hy] at this
          rw [memGet_below hn.2 (by omega)] at this
          exact absurd this hm.1.2
        · exact eq
        · have := h y.1
          have hx : ¬ x.1 = y.1 := by omega
          simp only [memGet, if_true, if_neg hx] at this
          rw [memGet_below hm.2 (by omega)] at this
          exact absurd this.symm hn.1.2
      have val : x.2 = y.2 := by
        have := h x.1
        simpa [memGet, key] using this
      have hxy : x = y := Prod.ext key val
      subst hxy
      congr 1
      refine ih hm.2 hn.2 fun a => ?_
      by_cases ha : a < x.1 + 1
      · rw [memGet_below hm.2 ha, memGet_below hn.2 ha]
      · have := h a
        have hx : ¬ x.1 = a := by omega
        simpa only [memGet, if_neg hx] using this

end Sys2Proof.Machine
end

