-- ==== Sys2Proof/Laws/Canonical.lean ====
section
/-! SUPPORT. Which updates of the state keep every memory in canonical form. -/

namespace Sys2Proof.Machine

/-- The state a stop carries. -/
def Stop.state : Stop → State
  | .trap _ _ _ s => s
  | .wait _ _ s => s
  | .xrange _ _ _ s => s
  | .err _ _ _ s => s

theorem memOk_mk (cur rest core tile home launch host saved sched fresh) :
    (State.mk cur rest core tile home launch host saved sched fresh).memOk =
      (Memory.wf home.mem && Memory.wf core.tcm && saved.all fun x => Memory.wf x.core.tcm) := rfl

theorem memOk_home {s : State} (h : s.memOk = true) : Memory.wf s.home.mem = true := by simp_all [State.memOk]
theorem memOk_tcm {s : State} (h : s.memOk = true) : Memory.wf s.core.tcm = true := by simp_all [State.memOk]
theorem memOk_saved {s : State} (h : s.memOk = true) : (s.saved.all fun x => Memory.wf x.core.tcm) = true := by
  simp only [State.memOk, Bool.and_eq_true] at h; exact h.2

theorem memOk_of {s : State} (a : Memory.wf s.home.mem = true) (b : Memory.wf s.core.tcm = true)
    (c : (s.saved.all fun x => Memory.wf x.core.tcm) = true) : s.memOk = true := by simp only [State.memOk, a, b, c, Bool.and_self]

theorem onCur_mem (s : State) (f : Task → Task) : (s.onCur f).memOk = s.memOk := rfl
theorem onTile_mem (s : State) (f : TileSt → TileSt) : (s.onTile f).memOk = s.memOk := rfl
theorem onHost_mem (s : State) (f : HostSt → HostSt) : (s.onHost f).memOk = s.memOk := rfl
theorem onCore_mem (s : State) (f : CoreSt → CoreSt) :
    (s.onCore f).memOk = (Memory.wf s.home.mem && Memory.wf (f s.core).tcm && s.saved.all fun x => Memory.wf x.core.tcm) := rfl
theorem onHome_mem (s : State) (f : HomeSt → HomeSt) :
    (s.onHome f).memOk = (Memory.wf (f s.home).mem && Memory.wf s.core.tcm && s.saved.all fun x => Memory.wf x.core.tcm) := rfl
theorem free_mem (s : State) : (s.free).2.memOk = s.memOk := rfl

theorem trapR_err {α : Type} (c : BitVec 6) (v : Word) {s : State} {x : Stop} (hs : s.memOk = true)
    (h : (trapR c v s : Res α) = .error x) : x.state.memOk = true := by
  cases h; exact hs
theorem trapD_err {α : Type} (c : BitVec 6) (d : BitVec 8) (v : Word) {s : State} {x : Stop} (hs : s.memOk = true)
    (h : (trapD c d v s : Res α) = .error x) : x.state.memOk = true := by
  cases h; exact hs

/-! ### Homes -/

theorem homePut_wf {h : HomeSt} (pa : Nat) (bs : List Byte) (w : Memory.wf h.mem = true) : Memory.wf (homePut h pa bs).mem = true :=
  memPutN_wf pa bs w

theorem homeKeyed_wf {h : HomeSt} (l : Nat) (k : WKey) (pa : Nat) (bs : List Byte) (w : Memory.wf h.mem = true) :
    Memory.wf (homeKeyed h l k pa bs).mem = true := by
  unfold homeKeyed
  split
  · exact homePut_wf pa bs w
  · exact w

theorem homeKeyedN_wf {h : HomeSt} (l : Nat) (k : WKey) (pa : Nat) (bs : List Byte) (b : Bool) (n : Nat)
    (w : Memory.wf h.mem = true) : Memory.wf (homeKeyedN h l k pa bs b n).mem = true := by
  induction n generalizing h k pa bs with
  | zero => exact w
  | succ n ih =>
    unfold homeKeyedN
    dsimp only
    split
    · exact homeKeyed_wf _ _ _ _ w
    · exact ih _ _ _ (homeKeyed_wf _ _ _ _ w)

theorem amoAtHome_wf {h : HomeSt} (r : AmoReq) (w : Memory.wf h.mem = true) : Memory.wf (amoAtHome r h).2.mem = true :=
  memPutN_wf _ _ w

theorem setD_wf {h : HomeSt} (pa : Nat) (w : Memory.wf h.mem = true) : Memory.wf (setD pa h).mem = true := by
  unfold setD
  split
  · exact w
  · exact memPut_wf _ _ w

theorem homeRecs_wf {h : HomeSt} (l : Nat) (k : WKey) (rs : List Rec) (w : Memory.wf h.mem = true) :
    Memory.wf (homeRecs l k rs h).mem = true := by
  unfold homeRecs
  induction rs generalizing h with
  | nil => exact w
  | cons r rs ih => exact ih (homeKeyedN_wf _ _ _ _ _ _ w)

theorem clearSpm_wf {h : HomeSt} (p : Nat → Bool) (w : Memory.wf h.mem = true) : Memory.wf (clearSpm p h).mem = true :=
  memFilter_wf _ w

theorem copyTags_mem (src dst : Nat) (h : HomeSt) (n : Nat) : (copyTags src dst h n).mem = h.mem := by
  induction n generalizing src dst h with
  | zero => rfl
  | succ n ih => exact ih _ _ _

/-- R230: an atomic's outcome at its home. -/
theorem amoPerform_value_wf {s : State} {r : AmoReq} {old : Nat} {h : HomeSt} (w : Memory.wf s.home.mem = true)
    (e : amoPerform s r = .value old h) : Memory.wf h.mem = true := by
  unfold amoPerform at e
  have := amoAtHome_wf r w
  grind
theorem amoPerform_unheard_wf {s : State} {r : AmoReq} {h : HomeSt} (w : Memory.wf s.home.mem = true)
    (e : amoPerform s r = .unheard h) : Memory.wf h.mem = true := by
  unfold amoPerform at e
  have := amoAtHome_wf r w
  grind

/-! ### The core -/

theorem freeRuns_tcm (n : Nat) (c : CoreSt) : (freeRuns n c).tcm = c.tcm := rfl
theorem releaseMx_tcm (t : Task) (c : CoreSt) : (releaseMx t c).tcm = c.tcm := by
  unfold releaseMx; split
  · rfl
  · split <;> rfl
theorem freeChunk_tcm (n : Nat) (c : CoreSt) : (freeChunk n c).tcm = c.tcm := rfl
theorem freeChunk?_tcm (o : Option Nat) (c : CoreSt) : (freeChunk? o c).tcm = c.tcm := by unfold freeChunk?; split <;> rfl
theorem retireCore_tcm (n : Nat) (c : CoreSt) : (retireCore n c).tcm = c.tcm := rfl
theorem amoCore_tcm (pa : Nat) (aq : Bool) (c : CoreSt) : (amoCore pa aq c).tcm = c.tcm := rfl

/-- A change applied once for each entry of a list. -/
theorem foldl_mem {α : Type} (f : State → α → State) (l : List α) {s : State} (hf : ∀ t x, t.memOk = true → (f t x).memOk = true)
    (h : s.memOk = true) : (l.foldl f s).memOk = true := by
  induction l generalizing s with
  | nil => exact h
  | cons x l ih => exact ih (hf s x h)

theorem foldl_chunks_tcm (l : List (Nat × Nat)) (c : CoreSt) : (l.foldl (fun c p => freeChunk p.1 c) c).tcm = c.tcm := by
  induction l generalizing c with
  | nil => rfl
  | cons x l ih => exact ih _

theorem foldl_setD_wf (s : State) (l : List (Nat × Nat)) {h : HomeSt} (w : Memory.wf h.mem = true) :
    Memory.wf (l.foldl (fun h r => (fun pa h => if noMemory s pa then h else setD pa h) r.2
      ((fun pa h => if noMemory s pa then h else setD pa h) r.1 h)) h).mem = true := by
  induction l generalizing h with
  | nil => exact w
  | cons x l ih =>
    apply ih
    dsimp only
    split <;> split <;> first | exact w | exact setD_wf _ w | exact setD_wf _ (setD_wf _ w)

end Sys2Proof.Machine
end

