-- ==== Sys2Proof/Laws/Arith.lean ====
section
/-! SUPPORT. The arithmetic of registers as whole numbers (R101 to R105). -/

namespace Sys2Proof.Machine

theorem aluAdd_eq (x y : Word) : aluAdd x y = BitVec.ofNat 64 (x.toNat + y.toNat) := by
  apply BitVec.eq_of_toNat_eq; simp [aluAdd]

theorem aluSub_eq (x y : Word) : aluSub x y = BitVec.ofInt 64 (x.toInt - y.toInt) := by
  apply BitVec.eq_of_toInt_eq; simp [aluSub, BitVec.toInt_sub]

theorem aluAndn_eq (x y : Word) : aluAndn x y = x ^^^ (x &&& y) := by
  ext i h
  simp [aluAndn]
  cases x[i] <;> simp

theorem sll_eq (x : Word) (n : Nat) : x <<< n = BitVec.ofNat 64 (x.toNat * 2 ^ n) := by
  apply BitVec.eq_of_toNat_eq; simp [Nat.shiftLeft_eq]

theorem srl_eq (x : Word) (n : Nat) : x >>> n = BitVec.ofNat 64 (x.toNat / 2 ^ n) := by
  apply BitVec.eq_of_toNat_eq; simp [Nat.shiftRight_eq_div_pow]
  have := x.isLt
  exact (Nat.mod_eq_of_lt (Nat.lt_of_le_of_lt (Nat.div_le_self _ _) this)).symm

theorem sra_eq (x : Word) (n : Nat) : x.sshiftRight n = BitVec.ofInt 64 (x.toInt / 2 ^ n) := by
  apply BitVec.eq_of_toInt_eq
  rw [BitVec.toInt_sshiftRight, Int.shiftRight_eq_div_pow, BitVec.toInt_ofInt]
  have h1 : x.toInt < 2 ^ 63 := x.toInt_lt
  have h2 : -2 ^ 63 ≤ x.toInt := x.le_toInt
  have hp : (1 : Int) ≤ 2 ^ n := by exact_mod_cast Nat.one_le_two_pow
  symm
  have e : ((2 ^ n : Nat) : Int) = 2 ^ n := by push_cast; rfl
  rw [e]
  apply Int.bmod_eq_of_le
  · have : x.toInt / 2 ^ n ≥ -2 ^ 63 := Int.le_ediv_of_mul_le (by positivity) (by nlinarith)
    simpa using this
  · have : x.toInt / 2 ^ n < 2 ^ 63 := Int.ediv_lt_of_lt_mul (by positivity) (by nlinarith)
    simpa using this

theorem rol_eq (x : Word) (n : Nat) (h : n < 64) : x.rotateLeft n = BitVec.ofNat 64 (x.toNat * 2 ^ n + x.toNat / 2 ^ (64 - n)) := by
  apply BitVec.eq_of_toNat_eq
  have hx := x.isLt
  have hb : x.toNat >>> (64 - n) < 2 ^ n := by
    rw [Nat.shiftRight_eq_div_pow]
    apply Nat.div_lt_of_lt_mul
    rw [← Nat.pow_add]; simpa [Nat.sub_add_cancel (Nat.le_of_lt h)] using hx
  have h64 : x.toNat >>> (64 - n) % 2 ^ 64 = x.toNat >>> (64 - n) :=
    Nat.mod_eq_of_lt (Nat.lt_of_lt_of_le hb (Nat.pow_le_pow_right (by decide) (Nat.le_of_lt h)))
  rw [BitVec.toNat_rotateLeft, Nat.mod_eq_of_lt h, BitVec.toNat_ofNat, ← Nat.shiftRight_eq_div_pow, ← Nat.shiftLeft_eq,
    Nat.shiftLeft_add_eq_or_of_lt hb, Nat.or_mod_two_pow, h64]

theorem ror_eq (x : Word) (n : Nat) (h : n < 64) : x.rotateRight n = BitVec.ofNat 64 (x.toNat / 2 ^ n + x.toNat * 2 ^ (64 - n)) := by
  apply BitVec.eq_of_toNat_eq
  have hx := x.isLt
  have hb : x.toNat >>> n < 2 ^ (64 - n) := by
    rw [Nat.shiftRight_eq_div_pow]
    apply Nat.div_lt_of_lt_mul
    rw [← Nat.pow_add]; simpa [Nat.add_sub_cancel' (Nat.le_of_lt h)] using hx
  have h64 : x.toNat >>> n % 2 ^ 64 = x.toNat >>> n :=
    Nat.mod_eq_of_lt (Nat.lt_of_lt_of_le hb (Nat.pow_le_pow_right (by decide) (Nat.sub_le _ _)))
  rw [BitVec.toNat_rotateRight, Nat.mod_eq_of_lt h, BitVec.toNat_ofNat, ← Nat.shiftRight_eq_div_pow, ← Nat.shiftLeft_eq, Nat.add_comm,
    Nat.shiftLeft_add_eq_or_of_lt hb, Nat.or_mod_two_pow, h64, Nat.or_comm]

theorem ltS_iff (x y : Word) : ltS x y = decide (x.toInt < y.toInt) := by simp [ltS, BitVec.slt]

theorem ltU_iff (x y : Word) : ltU x y = decide (x.toNat < y.toNat) := by simp [ltU, BitVec.ult]

theorem flagW_eq (p : Prop) [Decidable p] : flagW (decide p) = truth p := by simp [flagW, truth]

theorem ofInt_toInt (x : Word) : BitVec.ofInt 64 x.toInt = x := BitVec.ofInt_toInt

theorem aluMin_eq (x y : Word) : aluMin x y = BitVec.ofInt 64 (Min.min x.toInt y.toInt) := by
  unfold aluMin; rw [ltS_iff]
  by_cases h : y.toInt < x.toInt
  · simp [h, Int.min_eq_right (Int.le_of_lt h)]
  · simp [h, Int.min_eq_left (Int.not_lt.mp h)]

theorem aluMax_eq (x y : Word) : aluMax x y = BitVec.ofInt 64 (Max.max x.toInt y.toInt) := by
  unfold aluMax; rw [ltS_iff]
  by_cases h : x.toInt < y.toInt
  · simp [h, Int.max_eq_right (Int.le_of_lt h)]
  · simp [h, Int.max_eq_left (Int.not_lt.mp h)]

theorem aluMinn_eq (x y : Word) : aluMinn x y = BitVec.ofNat 64 (Min.min x.toNat y.toNat) := by
  unfold aluMinn; rw [ltU_iff]
  by_cases h : y.toNat < x.toNat
  · simp [h, Nat.min_eq_right (Nat.le_of_lt h)]
  · simp [h, Nat.min_eq_left (Nat.not_lt.mp h)]

theorem aluMaxn_eq (x y : Word) : aluMaxn x y = BitVec.ofNat 64 (Max.max x.toNat y.toNat) := by
  unfold aluMaxn; rw [ltU_iff]
  by_cases h : x.toNat < y.toNat
  · simp [h, Nat.max_eq_right (Nat.le_of_lt h)]
  · simp [h, Nat.max_eq_left (Nat.not_lt.mp h)]

theorem mulLo_eq (x y : Word) : mulLo x y = BitVec.ofInt 64 (x.toInt * y.toInt) := by
  apply BitVec.eq_of_toInt_eq; simp [mulLo, BitVec.toInt_mul]

theorem divS_eq (x y : Word) : divS x y = if y = 0 then BitVec.ofInt 64 (-1) else BitVec.ofInt 64 (x.toInt.tdiv y.toInt) := by
  unfold divS
  by_cases h : y = 0
  · simp [h]
  · by_cases k : x = 0x8000000000000000 ∧ y = 0xFFFFFFFFFFFFFFFF
    · obtain ⟨rfl, rfl⟩ := k; decide
    · rw [if_neg h, if_neg k, if_neg h]

theorem remS_eq (x y : Word) : remS x y = if y = 0 then x else BitVec.ofInt 64 (x.toInt.tmod y.toInt) := by
  unfold remS
  by_cases h : y = 0
  · simp [h]
  · by_cases k : x = 0x8000000000000000 ∧ y = 0xFFFFFFFFFFFFFFFF
    · obtain ⟨rfl, rfl⟩ := k; decide
    · simp only [h, k, if_false]
      have := Int.mul_tdiv_add_tmod x.toInt y.toInt
      congr 1
      rw [Int.mul_comm]; omega

theorem divU_eq (x y : Word) : divU x y = if y = 0 then BitVec.ofInt 64 (-1) else BitVec.ofNat 64 (x.toNat / y.toNat) := by
  unfold divU; split <;> simp

theorem remU_eq (x y : Word) : remU x y = if y = 0 then x else BitVec.ofNat 64 (x.toNat % y.toNat) := by
  unfold remU; split
  · rfl
  · congr 1
    have := Nat.div_add_mod x.toNat y.toNat
    rw [Nat.mul_comm]; omega

theorem shl_ofInt (z : Int) (n : Nat) : BitVec.ofInt 64 z <<< n = BitVec.ofInt 64 (z * 2 ^ n) := by
  rw [BitVec.shiftLeft_eq_mul_twoPow, BitVec.ofInt_mul]
  congr 1
  apply BitVec.eq_of_toNat_eq
  have : ((2:Int) ^ n) = ((2 ^ n : Nat) : Int) := by push_cast; rfl
  rw [this, BitVec.ofInt_natCast]
  simp

theorem upperImm_eq (i : BitVec 21) : upperImm i = BitVec.ofInt 64 (i.toInt * 2 ^ 16) := by
  rw [← shl_ofInt]; rfl

theorem clzFrom_eq (x : Word) (n : Nat) (hn : n ≤ 64) (hx : x.toNat < 2 ^ n) :
    clzFrom x n = if x = 0 then n else n - 1 - x.toNat.log2 := by
  induction n with
  | zero =>
    have : x = 0 := BitVec.eq_of_toNat_eq (by simpa using hx)
    simp [this, clzFrom]
  | succ n ih =>
    unfold clzFrom
    by_cases h : x.getLsbD n
    · have hge : 2 ^ n ≤ x.toNat := Nat.ge_two_pow_of_testBit h
      have h0 : x ≠ 0 := by intro e; subst e; simp at h
      have : x.toNat.log2 = n := by
        apply Nat.log2_eq_iff (by omega) |>.mpr
        exact ⟨hge, hx⟩
      rw [if_pos h, if_neg h0, this]; omega
    · have hlt : x.toNat < 2 ^ n := by
        by_contra hc
        exact h (Nat.testBit_of_two_pow_le_and_two_pow_add_one_gt (Nat.not_lt.mp hc) hx)
      rw [if_neg h, ih (by omega) hlt]
      by_cases h0 : x = 0
      · rw [if_pos h0, if_pos h0]; omega
      · have h1 : x.toNat ≠ 0 := fun e => h0 (BitVec.eq_of_toNat_eq e)
        have : x.toNat.log2 < n := (Nat.log2_lt h1).mpr hlt
        rw [if_neg h0, if_neg h0]; omega

theorem clzW_eq (x : Word) : clzW x = if x = 0 then 64 else BitVec.ofNat 64 (63 - x.toNat.log2) := by
  unfold clzW; rw [clzFrom_eq x 64 (by decide) x.isLt]
  split <;> rfl

theorem ctzFrom_eq (x : Word) (k n : Nat) :
    ctzFrom x k n = (((List.range n).find? fun j => x.getLsbD (k + j))).getD n := by
  induction n generalizing k with
  | zero => rfl
  | succ n ih =>
    unfold ctzFrom
    rw [List.range_succ_eq_map, List.find?_cons]
    by_cases h : x.getLsbD k
    · simp [h]
    · rw [ih]
      simp only [h, Nat.add_zero, List.find?_map, Function.comp_def]
      have e : (fun j => x.getLsbD (k + Nat.succ j)) = fun j => x.getLsbD (k + 1 + j) := by
        funext j; congr 1; omega
      rw [e]
      cases (List.range n).find? fun j => x.getLsbD (k + 1 + j) <;> simp <;> omega

theorem ctzW_eq (x : Word) : ctzW x = BitVec.ofNat 64 (((List.range 64).find? fun k => x.getLsbD k).getD 64) := by
  unfold ctzW; rw [ctzFrom_eq]; simp

theorem popcFrom_eq (x : Word) (n : Nat) : popcFrom x n = ((List.range n).filter fun k => x.getLsbD k).length := by
  induction n with
  | zero => rfl
  | succ n ih =>
    unfold popcFrom
    rw [List.range_succ, List.filter_append, List.length_append, ih]
    cases h : x.getLsbD n <;> simp [h] ; omega

theorem popcW_eq (x : Word) : popcW x = BitVec.ofNat 64 ((List.range 64).filter fun k => x.getLsbD k).length := by
  unfold popcW; rw [popcFrom_eq]

theorem clmulFrom_testBit (a : Nat) (b : Word) (n k : Nat) :
    (clmulFrom a b n).testBit k =
      (((List.range n).filter fun i => decide (i ≤ k) && a.testBit (k - i) && b.getLsbD i).length % 2 == 1) := by
  induction n with
  | zero => simp [clmulFrom]
  | succ n ih =>
    unfold clmulFrom
    rw [Nat.testBit_xor, ih, List.range_succ, List.filter_append, List.length_append]
    have hb : (if b.getLsbD n then a * 2 ^ n else 0).testBit k = (decide (n ≤ k) && a.testBit (k - n) && b.getLsbD n) := by
      cases h : b.getLsbD n <;> simp [Nat.testBit_mul_two_pow]
    rw [hb]
    generalize (List.filter _ (List.range n)).length = m
    cases h : (decide (n ≤ k) && a.testBit (k - n) && b.getLsbD n)
    · have : List.filter (fun i => decide (i ≤ k) && a.testBit (k - i) && b.getLsbD i) [n] = [] := by simp [h]
      rw [this]; simp
    · have : List.filter (fun i => decide (i ≤ k) && a.testBit (k - i) && b.getLsbD i) [n] = [n] := by simp [h]
      rw [this]
      simp only [List.length_singleton]
      rcases Nat.mod_two_eq_zero_or_one m with e | e
      · have : (m + 1) % 2 = 1 := by omega
        simp [e, this]
      · have : (m + 1) % 2 = 0 := by omega
        simp [e, this]

theorem clmul_bit (a b : Word) (k : Nat) : (clmulFull a b).testBit k = clBit a b k := by
  unfold clmulFull clBit
  rw [clmulFrom_testBit]
  rfl

theorem clmulLo_eq (a b : Word) : clmulLo a b = clWord a b 0 := by
  apply BitVec.eq_of_getLsbD_eq
  intro i hi
  unfold clmulLo clWord
  rw [BitVec.getLsbD_ofFnLE, dif_pos hi, BitVec.getLsbD_ofNat]
  simp [hi, clmul_bit]

theorem clmulHi_eq (a b : Word) : clmulHi a b = clWord a b 64 := by
  apply BitVec.eq_of_getLsbD_eq
  intro i hi
  unfold clmulHi clWord
  rw [BitVec.getLsbD_ofFnLE, dif_pos hi, BitVec.getLsbD_ofNat, Nat.testBit_div_two_pow]
  simp [hi, clmul_bit, Nat.add_comm]

theorem zext_eq {n : Nat} (i : BitVec n) : (i.setWidth 64 : Word) = BitVec.ofNat 64 i.toNat := by
  apply BitVec.eq_of_toNat_eq; simp

theorem addi_eq (x : Word) (i : BitVec 16) : x + i.signExtend 64 = BitVec.ofInt 64 (x.toInt + i.toInt) := by
  rw [BitVec.ofInt_add, BitVec.ofInt_toInt]; rfl

theorem pchi_eq (p : BitVec 56) (i : BitVec 21) : (p.setWidth 64 : Word) + upperImm i = BitVec.ofInt 64 (p.toNat + i.toInt * 2 ^ 16) := by
  rw [upperImm_eq, BitVec.ofInt_add, BitVec.ofInt_natCast, zext_eq]

theorem zext_toNat (i : BitVec 16) : (i.setWidth 64 : Word).toNat = i.toNat := by
  simp; have := i.isLt; omega

theorem sext_toInt (i : BitVec 16) : (i.signExtend 64 : Word).toInt = i.toInt := BitVec.toInt_signExtend_of_le (by decide)

end Sys2Proof.Machine
end

