-- ==== Sys2Proof/Laws/Retire.lean ====
section
/-! SUPPORT. Tables, the energy meter, what an instruction that only writes registers leaves alone, and what completing one adds. -/

namespace Sys2Proof.Machine

theorem tabGet_tabSet_same {α : Type} (t : Tab α) (d : α) (k : Nat) (x : α) : tabGet (tabSet t k x) d k = x := by
  unfold tabGet
  induction t with
  | nil => simp [tabSet, tabGet?]
  | cons p r ih =>
    obtain ⟨j, y⟩ := p
    unfold tabSet
    split
    · simp [tabGet?]
    · split
      · simp [tabGet?]
      · rename_i h1 h2
        have : ¬ j = k := fun e => h2 e.symm
        simp [tabGet?, this]; exact ih

theorem tabGet?_tabSet_other {α : Type} (t : Tab α) (k : Nat) (x : α) {i : Nat} (h : i ≠ k) : tabGet? (tabSet t k x) i = tabGet? t i := by
  induction t with
  | nil => simp [tabSet, tabGet?, Ne.symm h]
  | cons p r ih =>
    obtain ⟨j, y⟩ := p
    unfold tabSet
    split
    · simp [tabGet?, Ne.symm h]
    · split
      · rename_i h1 h2
        subst h2
        simp [tabGet?, Ne.symm h]
      · simp [tabGet?, ih]

theorem tabGet_tabSet_other {α : Type} (t : Tab α) (d : α) (k : Nat) (x : α) {i : Nat} (h : i ≠ k) :
    tabGet (tabSet t k x) d i = tabGet t d i := by unfold tabGet; rw [tabGet?_tabSet_other _ _ _ h]

theorem unyield_fields (t : Task) : (unyield t).wp = t.wp ∧ (unyield t).st = t.st ∧ (unyield t).shadow = t.shadow ∧
    (unyield t).wsWord = t.wsWord := by
  unfold unyield; split <;> exact ⟨rfl, rfl, rfl, rfl⟩

/-- A TCM byte that the issuing context's registers do not stand for reads as the others hold it. -/
theorem tcmByte_eq {s t : State} {a : Nat} (hc : t.core.tcm = s.core.tcm) (hr : t.rest = s.rest.map unyield)
    (hw : t.cur.wp = s.cur.wp) (ha : ¬ s.ownWs a) : tcmByte t a = tcmByte s a := by
  have own : ∀ u : State, u.cur.wp = s.cur.wp → u.wsOwner a =
      (u.rest.filter fun x => x.st != .ended && !x.shadow).find? fun x => x.wp.toNat ≤ a && a < x.wp.toNat + 128 := by
    intro u hu
    unfold State.wsOwner State.tasks
    rw [List.filter_cons]
    split
    · rw [List.find?_cons]
      have : (decide (u.cur.wp.toNat ≤ a) && decide (a < u.cur.wp.toNat + 128)) = false := by
        rw [hu]
        unfold State.ownWs at ha
        simp only [Bool.and_eq_false_iff, decide_eq_false_iff_not]
        omega
      rw [this]
    · rfl
  unfold tcmByte
  rw [own t hw, own s rfl, hr, hc]
  have e : ∀ l : List Task, ((l.map unyield).filter fun x => x.st != .ended && !x.shadow).find? (fun x => decide (x.wp.toNat ≤ a) && decide (a < x.wp.toNat + 128))
      = ((l.filter fun x => x.st != .ended && !x.shadow).find? fun x => decide (x.wp.toNat ≤ a) && decide (a < x.wp.toNat + 128)).map unyield := by
    intro l
    induction l with
    | nil => rfl
    | cons x l ih =>
      obtain ⟨h1, h2, h3, _⟩ := unyield_fields x
      simp only [List.map_cons, List.filter_cons, h2, h3]
      split
      · simp only [List.find?_cons, h1]
        split
        · rfl
        · exact ih
      · exact ih
  rw [e]
  cases h : (s.rest.filter fun x => x.st != .ended && !x.shadow).find? fun x => decide (x.wp.toNat ≤ a) && decide (a < x.wp.toNat + 128) with
  | none => rfl
  | some x =>
    obtain ⟨h1, _, _, h4⟩ := unyield_fields x
    simp [h1, h4]

theorem retire_cur_running {s : State} (h : s.cur.st ≠ .ended) (h2 : s.cur.wait ≠ some .yielded) :
    (retire s).cur = { s.cur with st := .running, wait := none, brkSkip := false, pcmSkip := false, paid := false, trapTaken := false } := by
  have e : (s.cur.wait == some Wait.yielded) = false := by simpa using h2
  have e2 : (s.cur.st == TaskSt.ended) = false := by simpa using h
  unfold retire
  simp [e, e2]

theorem charge_charged (c : Charge) (s : State) : s.charged (charge c s) c.nominal := by
  refine ⟨?_, fun v h => ?_⟩
  · show tabGet (tabSet s.tile.meter s.core.vf.toNat _) 0 s.core.vf.toNat = _
    rw [tabGet_tabSet_same, Nat.one_mul]
  · exact tabGet_tabSet_other _ _ _ _ h

/-- The state in which an instruction has written one general register and completed. -/
def State.wrote (s : State) (c : Charge) (a : Fld) (v : Word) : State := retire (advance (writeS a v (charge c s)))

theorem wrote_cur {s : State} (hs : s.issues) (c : Charge) (a : Fld) (v : Word) (ha : a < 16) :
    (s.wrote c a v).cur = { s.cur.setW (wIdx a) v with pc := s.cur.pc + 4, st := .running, wait := none, brkSkip := false,
                                                             pcmSkip := false, paid := false, trapTaken := false } := by
  obtain ⟨h1, h2⟩ := hs
  have e : (advance (writeS a v (charge c s))).cur = { s.cur.setW (wIdx a) v with pc := s.cur.pc + 4 } := by
    unfold writeS; rw [if_pos ha]
    unfold advance State.onCur State.ww State.setW Task.setW
    split <;> rfl
  have g1 : (s.cur.setW (wIdx a) v).st = s.cur.st := by unfold Task.setW; split <;> rfl
  have g2 : (s.cur.setW (wIdx a) v).wait = s.cur.wait := by unfold Task.setW; split <;> rfl
  unfold State.wrote
  rw [retire_cur_running, e]
  · rw [e]; show (s.cur.setW (wIdx a) v).st ≠ _; rw [g1, h1]; decide
  · rw [e]; show (s.cur.setW (wIdx a) v).wait ≠ _; rw [g2]; exact h2

theorem setW_kept (t : Task) (k : BitVec 4) (v : Word) : (t.setW k v).kept = t.kept := by
  unfold Task.setW; split <;> rfl

theorem setW_wp (t : Task) (k : BitVec 4) (v : Word) : (t.setW k v).wp = t.wp := by
  unfold Task.setW; split <;> rfl

theorem runs_kept (c : CoreSt) (n : Nat) : (retireCore n c).kept = c.kept := by
  unfold retireCore CoreSt.kept
  simp [List.map_map, Function.comp_def]

theorem wrote_frame {s : State} (hs : s.issues) (c : Charge) (a : Fld) (v : Word) (ha : a < 16) :
    Frame [wIdx a] s (s.wrote c a v) := by
  have hc := wrote_cur hs c a v ha
  have hw : writeS a v (charge c s) = (charge c s).ww a v := by unfold writeS; rw [if_pos ha]
  have hcore : (s.wrote c a v).core = retireCore (advance (writeS a v (charge c s))).cur.frame s.core := by
    unfold State.wrote; rw [hw]; rfl
  have hrest : (s.wrote c a v).rest = s.rest.map unyield := by unfold State.wrote; rw [hw]; rfl
  have hhome : (s.wrote c a v).home = s.home := by unfold State.wrote; rw [hw]; rfl
  refine ⟨?_, ?_, hrest, ?_, ?_, hhome, ?_, ?_, ?_, ?_, ?_, ?_, ?_⟩
  · intro k hk
    show (s.wrote c a v).cur.getW k = s.cur.getW k
    rw [hc]
    have : k ≠ wIdx a := by simpa using hk
    exact Task.getW_setW_other s.cur _ _ v this
  · show (s.wrote c a v).cur.kept = s.cur.kept
    rw [hc, ← setW_kept s.cur (wIdx a) v]; rfl
  · show (s.wrote c a v).core.kept = _
    rw [hcore]; exact runs_kept _ _
  · unfold State.wrote; rw [hw]; rfl
  · unfold State.wrote; rw [hw]; rfl
  · unfold State.wrote; rw [hw]; rfl
  · unfold State.wrote; rw [hw]; rfl
  · unfold State.wrote; rw [hw]; rfl
  · unfold State.wrote; rw [hw]; rfl
  · intro x; rw [hhome]
  · intro x hx
    refine tcmByte_eq ?_ hrest ?_ hx
    · rw [hcore]; rfl
    · rw [hc]; exact setW_wp _ _ _

theorem wrote_charged (s : State) (c : Charge) (a : Fld) (v : Word) (ha : a < 16) : s.charged (s.wrote c a v) c.nominal := by
  have hw : writeS a v (charge c s) = (charge c s).ww a v := by unfold writeS; rw [if_pos ha]
  have : (s.wrote c a v).tile = (charge c s).tile := by unfold State.wrote; rw [hw]; rfl
  unfold State.charged; rw [this]; exact charge_charged c s

theorem issues_charge {s : State} (h : s.issues) (c : Charge) : (charge c s).issues := h

/-- A state that keeps all but registers and the PC, once retired. -/
theorem retired_frame {s v : State} (hs : s.issues) (c : Charge) (ks : List (BitVec 4)) (hk : v.cur.kept = s.cur.kept)
    (h1 : v.cur.st = s.cur.st) (h2 : v.cur.wait = s.cur.wait) (hg : ∀ k, k ∉ ks → v.getW k = s.getW k)
    (he : v = { charge c s with cur := v.cur }) (hw : v.cur.wp = s.cur.wp) :
    s.charged (retire v) c.nominal ∧ (retire v).cur.pc = v.cur.pc ∧ (∀ k, (retire v).getW k = v.getW k) ∧
      Frame ks s (retire v) := by
  have hc : (retire v).cur = { v.cur with st := .running, wait := none, brkSkip := false, pcmSkip := false, paid := false, trapTaken := false } := by
    apply retire_cur_running
    · rw [h1, hs.1]; decide
    · rw [h2]; exact hs.2
  have hgw : ∀ k, (retire v).getW k = v.getW k := by intro k; show (retire v).cur.getW k = _; rw [hc]; rfl
  have hcore : (retire v).core = retireCore v.cur.frame s.core := by rw [he]; rfl
  have hrest : (retire v).rest = s.rest.map unyield := by rw [he]; rfl
  have hhome : (retire v).home = s.home := by rw [he]; rfl
  have htile : (retire v).tile = (charge c s).tile := by rw [he]; rfl
  refine ⟨?_, ?_, hgw, ?_⟩
  · unfold State.charged; rw [htile]; exact charge_charged c s
  · rw [hc]
  · refine ⟨fun k h => (hgw k).trans (hg k h), ?_, hrest, ?_, ?_, hhome, ?_, ?_, ?_, ?_, ?_, ?_, ?_⟩
    · show (retire v).cur.kept = s.cur.kept
      rw [hc, ← hk]; rfl
    · show (retire v).core.kept = _
      rw [hcore]; exact runs_kept _ _
    · show (retire v).tile.kept = _
      rw [htile]; rfl
    · rw [he]; rfl
    · rw [he]; rfl
    · rw [he]; rfl
    · rw [he]; rfl
    · rw [he]; rfl
    · intro x; rw [hhome]
    · intro x hx
      refine tcmByte_eq ?_ hrest ?_ hx
      · rw [hcore]; rfl
      · rw [hc]; exact hw

theorem bool_eq_of_iff {p q : Bool} (h : p = true ↔ q = true) : p = q := by cases p <;> cases q <;> simp_all

theorem pc_next (p : BitVec 56) : p + 4 = BitVec.ofInt 56 ((p.toNat : Int) + 4 * 1) := by
  apply BitVec.eq_of_toNat_eq
  have e : ((p.toNat : Int) + 4 * 1) = ((p.toNat + 4 : Nat) : Int) := by push_cast; ring
  rw [e, BitVec.ofInt_natCast]; simp

theorem goto_frame {s : State} (hs : s.issues) (p : BitVec 56) :
    s.charged (retire ((charge .br s).onCur fun x => { x with pc := p })) 1400 ∧
    (retire ((charge .br s).onCur fun x => { x with pc := p })).cur.pc = p ∧
    Frame [] s (retire ((charge .br s).onCur fun x => { x with pc := p })) := by
  obtain ⟨a, b, _, d⟩ := retired_frame (v := (charge .br s).onCur fun x => { x with pc := p }) hs .br [] rfl rfl rfl (fun _ _ => rfl) rfl rfl
  exact ⟨a, b, d⟩

theorem link_val (p : BitVec 56) : (p.setWidth 64 : Word) + 4 = BitVec.ofNat 64 (p.toNat + 4) := by
  apply BitVec.eq_of_toNat_eq; simp

theorem chargeOnce_first {s : State} (h : s.cur.paid = false) (c : Charge) :
    chargeOnce c s = (charge c s).onCur fun t => { t with paid := true } := by unfold chargeOnce; rw [h]; rfl

theorem completes_eq {s : State} (h : s.starts) (c : Charge) (f : Task → Task)
    (hp : f { s.cur with paid := true } = { f s.cur with paid := true }) :
    s.completes c f = retire { charge c s with cur := { f s.cur with pc := (f s.cur).pc + 4, paid := true } } := by
  unfold State.completes
  rw [chargeOnce_first h.2.2]
  show retire { charge c s with cur := { f { s.cur with paid := true } with pc := (f { s.cur with paid := true }).pc + 4 } } = _
  rw [hp]

theorem setW_paid (k : BitVec 4) (x : Word) (t : Task) : Task.setW { t with paid := true } k x = { t.setW k x with paid := true } := by
  unfold Task.setW; split <;> rfl

theorem retire_pc {s : State} : (retire s).cur.pc = s.cur.pc := rfl

end Sys2Proof.Machine
end

