-- ==== Sys2Proof/Laws/Operand.lean ====
section
/-! SUPPORT. What taking the operands of an instruction does (R80 to R83, R97). -/

namespace Sys2Proof.Machine

theorem readS_w {s : State} {f : Fld} (h : f < 16) (hb : wBusy s.cur f = false) : readS f s = .ok (s.rw f, s) := by
  unfold readS; rw [if_pos h, hb]; rfl

theorem roomS_w {s : State} {f : Fld} (h : f < 16) (hb : wBusy s.cur f = false) : roomS f s = .ok () := by
  unfold roomS; rw [if_pos h, hb]; rfl

theorem readAllS_w {s : State} (l : List Fld) (h : ∀ f ∈ l, f < 16) (hb : ∀ f ∈ l, wBusy s.cur f = false) :
    readAllS l s = .ok (l.map s.rw, s) := by
  induction l with
  | nil => rfl
  | cons f l ih =>
    unfold readAllS
    rw [readS_w (h f (by simp)) (hb f (by simp))]
    simp only
    rw [ih (fun g hg => h g (by simp [hg])) (fun g hg => hb g (by simp [hg]))]
    rfl

theorem roomAllS_w {s : State} (l : List Fld) (h : ∀ f ∈ l, f < 16) (hb : ∀ f ∈ l, wBusy s.cur f = false) : roomAllS l s = .ok () := by
  induction l with
  | nil => rfl
  | cons f l ih =>
    unfold roomAllS
    rw [roomS_w (h f (by simp)) (hb f (by simp))]
    exact ih (fun g hg => h g (by simp [hg])) (fun g hg => hb g (by simp [hg]))

theorem takeS_w {s : State} (src dst : List Fld) (h : ∀ f ∈ dst ++ src, f < 16) (hb : ∀ f ∈ dst ++ src, wBusy s.cur f = false) :
    takeS src dst s = .ok (src.map s.rw, s) := by
  unfold takeS
  rw [readAllS_w src (fun f hf => h f (by simp [hf])) (fun f hf => hb f (by simp [hf]))]
  simp only
  rw [roomAllS_w dst (fun f hf => h f (by simp [hf])) (fun f hf => hb f (by simp [hf]))]

/-- Every instruction of `regOp` is its table's row over the operands it takes. -/
def regVal (s : State) (r : RegOp) (xs : List Word) : Word := r.val s.cur.pc.toNat xs

theorem takeS_length {src dst : List Fld} {s u : State} {xs : List Word} (h : takeS src dst s = .ok (xs, u)) : xs.length = src.length := by
  have key : ∀ (l : List Fld) (s u : State) (xs : List Word), readAllS l s = .ok (xs, u) → xs.length = l.length := by
    intro l
    induction l with
    | nil => intro s u xs h; cases h; rfl
    | cons f l ih =>
      intro s u xs h
      unfold readAllS at h
      split at h
      · cases h
      · split at h
        · cases h
        · rename_i hh; cases h; simp [ih _ _ _ hh]
  unfold takeS at h
  split at h
  · cases h
  · split at h
    · cases h
    · cases h; exact key _ _ _ _ ‹_›

theorem finish_ok (s : State) : finish (.ok s) = .next (retire s) := rfl

theorem rrr_eq {c : Charge} {f : Word → Word → Word} {fa fb fc : Fld} {s u : State} {xs : List Word}
    (h : takeS [fb, fc] [fa] s = .ok (xs, u)) :
    rrr c f fa fb fc s = .ok (advance (writeS fa (f (xs.headD 0) ((xs.drop 1).headD 0)) (charge c u))) := by
  have := takeS_length h
  match xs, this with
  | [x, y], _ => unfold rrr; rw [h]; rfl

theorem rr_eq {c : Charge} {f : Word → Word} {fa fb : Fld} {s u : State} {xs : List Word}
    (h : takeS [fb] [fa] s = .ok (xs, u)) : rr c f fa fb s = .ok (advance (writeS fa (f (xs.headD 0)) (charge c u))) := by
  have := takeS_length h
  match xs, this with
  | [x], _ => unfold rr; rw [h]; rfl

theorem rzero_eq {x : State → Word} {fa : Fld} {s u : State} {xs : List Word}
    (h : takeS [] [fa] s = .ok (xs, u)) : rzero x fa s = .ok (advance (writeS fa (x s) (charge .alu u))) := by
  unfold rzero; rw [h]
  have : u = s := by
    unfold takeS at h
    split at h
    · cases h
    · split at h
      · cases h
      · rename_i hh _ _ _; cases h; cases ‹readAllS [] s = _›; rfl
  rw [this]

theorem regWait_ne {α : Type} {f : Fld} {s : State} {r : α} (h : regWait f s = .ok r) : False := by
  unfold regWait notReady at h
  split at h <;> cases h

/-- What `untake` does where nothing but credits has left the core. -/
theorem untake_eq {s u : State} (h : sentWork u.home.out = sentWork s.home.out) : s.untake u =
    { u with cur := { u.cur with streams := s.cur.streams, qs := s.cur.qs, q0 := s.cur.q0 },
             core := { u.core with chan := s.core.chan, inbox := s.core.inbox },
             home := { u.home with out := s.home.out } } := by
  unfold State.untake; rw [h, List.drop_length, List.append_nil]

theorem sentWork_credit (l : List Packet) (p : BitVec 13) (c : BitVec 3) (n : Nat) : sentWork (l ++ [.credit p c n]) = sentWork l := by
  simp [sentWork]

/-- R81: what the reading of operands changes is what an instruction that does not complete gives back. -/
theorem readS_untake {f : Fld} {s u : State} {x : Word} (h : readS f s = .ok (x, u)) : s.untake u = s := by
  unfold readS at h
  split at h
  · split at h
    · exact (regWait_ne h).elim
    · cases h; exact untake_eq rfl
  · split at h
    · unfold popStream at h
      split at h
      · cases h
      · split at h
        · cases h
        · split at h
          · cases h
          · cases h; exact untake_eq rfl
    · split at h
      · split at h
        · cases h
        · cases h; exact untake_eq rfl
      · split at h
        · cases h
        · unfold popQueue at h
          split at h
          · cases h
          · split at h
            · cases h
            · split at h
              · split at h
                · cases h
                · dsimp only at h
                  cases h
                  unfold freeChunk?
                  simp only [State.onCore, State.onCur]
                  split <;> exact untake_eq rfl
              · split at h
                · rename_i hp
                  unfold popChan at hp
                  dsimp only at hp
                  simp only [Prod.mk.injEq] at hp
                  obtain ⟨_, rfl⟩ := hp
                  cases h
                  exact untake_eq (sentWork_credit _ _ _ _)
                · cases h

theorem untake_trans {s t u : State} (h : t.untake u = t) (g : s.untake t = s) : s.untake u = s := by
  have len : ∀ {a b : State}, a.untake b = a → (sentWork b.home.out).length ≤ (sentWork a.home.out).length := by
    intro a b e
    have e1 : a.home.out ++ (sentWork b.home.out).drop (sentWork a.home.out).length = a.home.out :=
      congrArg (fun x : State => x.home.out) e
    have e2 := congrArg List.length e1
    rw [List.length_append, List.length_drop] at e2
    omega
  have e : s.untake u = { s.untake (t.untake u) with home := { (s.untake (t.untake u)).home with
      out := s.home.out ++ (sentWork u.home.out).drop (sentWork s.home.out).length } } := rfl
  rw [e, h, g, List.drop_eq_nil_of_le (Nat.le_trans (len h) (len g)), List.append_nil]

theorem readAllS_untake {l : List Fld} : ∀ {s u : State} {xs : List Word}, readAllS l s = .ok (xs, u) → s.untake u = s := by
  induction l with
  | nil => intro s u xs h; cases h; exact untake_eq rfl
  | cons f l ih =>
    intro s u xs h
    unfold readAllS at h
    split at h
    · cases h
    · split at h
      · cases h
      · cases h
        exact untake_trans (ih ‹_›) (readS_untake ‹_›)

theorem takeS_untake {src dst : List Fld} {s u : State} {xs : List Word} (h : takeS src dst s = .ok (xs, u)) : s.untake u = s := by
  unfold takeS at h
  split at h
  · cases h
  · split at h
    · cases h
    · cases h; exact readAllS_untake ‹_›

theorem takeS_pc {src dst : List Fld} {s u : State} {xs : List Word} (h : takeS src dst s = .ok (xs, u)) :
    u.cur.pc = s.cur.pc ∧ u.core.vf = s.core.vf ∧ u.tile = s.tile := by
  have e := takeS_untake h
  exact ⟨by rw [← e]; rfl, by rw [← e]; rfl, by rw [← e]; rfl⟩

theorem branch_eq {taken : Word → Word → Bool} {a b : Fld} {o : BitVec 16} {s u : State} {x y : Word}
    (h : takeS [a, b] [] s = .ok ([x, y], u)) :
    branch taken a b o s = if taken x y then jumpTo (relTarget s o.toInt) (charge .br s) (charge .br u) else .ok (advance (charge .br u)) := by
  unfold branch; rw [h]

theorem ofInt_low (z : Int) : (BitVec.ofInt 64 z).extractLsb' 0 2 = 0 ↔ z % 4 = 0 := by
  constructor
  · intro h
    have := congrArg BitVec.toNat h
    simp at this
    omega
  · intro h
    apply BitVec.eq_of_toNat_eq
    simp
    omega

/-- A write of a scalar field changes the issuing context alone. -/
theorem writeS_put (a : Fld) (x : Word) (s : State) : writeS a x s = s.onCur (Task.put a x) := by
  unfold Task.put writeS
  split
  · rfl
  · split
    · dsimp only
      show _ = { s with cur := State.cur (match strmOf s.cur a with | none => _ | some st => pushElem a st x _) }
      cases h : strmOf s.cur a with
      | none => rfl
      | some st => rfl
    · split
      · rfl
      · split
        · rfl
        · dsimp only
          show _ = { s with cur := State.cur (match queueOf s.cur a with | none => _ | some q => _) }
          cases h : queueOf s.cur a with
          | none => rfl
          | some st => rfl

theorem put_pc (a : Fld) (x : Word) (t : Task) (p : BitVec 56) : Task.put a x { t with pc := p } = { Task.put a x t with pc := p } := by
  unfold Task.put writeS
  split
  · unfold State.ww State.setW State.onCur Task.setW
    dsimp only; split <;> rfl
  · split
    · dsimp only
      have e : strmOf { t with pc := p } a = strmOf t a := rfl
      rw [e]
      cases strmOf t a with
      | none => rfl
      | some st => rfl
    · split
      · rfl
      · split
        · rfl
        · dsimp only
          have e : queueOf { t with pc := p } a = queueOf t a := rfl
          rw [e]
          cases queueOf t a with
          | none => rfl
          | some st => rfl

theorem takeS_one_reg {s : State} {a b : Fld} (ha : a < 16) (hb : b < 16) (wa : wBusy s.cur a = false) (wb : wBusy s.cur b = false) :
    takeS [b] [a] s = .ok ([s.rw b], s) := takeS_w [b] [a] (by simp; exact ⟨ha, hb⟩) (by simp [wa, wb])

theorem writeS_w {a : Fld} (ha : a < 16) (x : Word) (s : State) : writeS a x s = s.onCur fun t => t.setW (wIdx a) x := by
  unfold writeS; rw [if_pos ha]; rfl

theorem wLoading_off {t : Task} {b : Fld} (h : wBusy t b = false) : wLoading t b = false := by
  unfold wBusy at h; unfold wLoading
  simp only [Bool.and_eq_false_iff, Bool.or_eq_false_iff] at h ⊢
  rcases h with h | h
  · exact .inl h
  · exact .inr h.1.1.1

theorem needRegs1 {s : State} {b : Fld} (h : wBusy s.cur b = false) : needRegs [b] s = .ok () := by
  unfold needRegs; simp [h, wLoading_off h]

theorem needRegs2 {s : State} {b c : Fld} (h : wBusy s.cur b = false) (g : wBusy s.cur c = false) : needRegs [b, c] s = .ok () := by
  unfold needRegs; simp [h, g, wLoading_off h, wLoading_off g]

theorem needRegs3 {s : State} {a b c : Fld} (h : wBusy s.cur a = false) (g : wBusy s.cur b = false) (k : wBusy s.cur c = false) :
    needRegs [a, b, c] s = .ok () := by unfold needRegs; simp [h, g, k, wLoading_off h, wLoading_off g, wLoading_off k]

theorem regs_ok {fs : List Fld} {s : State} (h : fs.any (wBusy s.cur) = false) : needRegs fs s = .ok () := by
  unfold needRegs
  have g : fs.any (wLoading s.cur) = false := by
    rw [List.any_eq_false] at h ⊢
    intro f hf
    rw [wLoading_off (by simpa using h f hf)]; decide
  rw [h, g]; rfl

theorem readV_untake {f : Fld} {s u : State} {x : BitVec 512} (h : readV f s = .ok (x, u)) : s.untake u = s := by
  unfold readV at h
  split at h
  · split at h
    · unfold vregWait notReady at h
      split at h <;> cases h
    · split at h
      · cases h
      · cases h; exact untake_eq rfl
  · split at h
    · unfold popStrip at h
      split at h
      · cases h
      · dsimp only at h
        split at h
        · cases h
        · split at h
          · cases h
          · cases h; exact untake_eq rfl
    · unfold popTag at h
      dsimp only at h
      split at h
      · split at h
        · cases h
        · unfold popChan at h
          cases h; exact untake_eq (sentWork_credit _ _ _ _)
      · cases h

theorem readAllV_untake {l : List Fld} : ∀ {s u : State} {xs : List (BitVec 512)}, readAllV l s = .ok (xs, u) → s.untake u = s := by
  induction l with
  | nil => intro s u xs h; cases h; exact untake_eq rfl
  | cons f l ih =>
    intro s u xs h
    unfold readAllV at h
    split at h
    · cases h
    · split at h
      · cases h
      · cases h
        exact untake_trans (ih ‹_›) (readV_untake ‹_›)

theorem takeV_untake {vsrcs srcs dsts : List Fld} {vd : Option (Fld × Bool)} {s u : State} {vs : List (BitVec 512)} {xs : List Word}
    (h : takeV vsrcs srcs vd dsts s = .ok (vs, xs, u)) : s.untake u = s := by
  unfold takeV at h
  dsimp only at h
  split at h
  · cases h
  · split at h
    · cases h
    · split at h
      · cases h
      · split at h
        · cases h
        · cases h
          exact untake_trans (readAllS_untake ‹_›) (readAllV_untake ‹_›)

theorem readS_strm {f : Fld} (h1 : 16 ≤ f) (h2 : f < 24) (s : State) : readS f s = popStream f s := by
  unfold readS
  rw [if_neg (by bv_omega), if_pos h2]

theorem readS_q {f : Fld} (h1 : 26 ≤ f) (s : State) : readS f s = popQueue f s := by
  unfold readS
  rw [if_neg (by bv_omega), if_neg (by bv_omega), if_neg (by bv_omega), if_neg (by bv_omega)]

theorem mapM_val (f : Fld) (s : State) : ∀ vs : List Word, (vs.map Elem.val).mapM (fun e => elemVal f e s) = (.ok vs : Res (List Word)) := by
  intro vs
  induction vs with
  | nil => rfl
  | cons v vs ih =>
    rw [List.map_cons, List.mapM_cons, ih]
    rfl

end Sys2Proof.Machine
end

