-- ==== Sys2Proof/Laws/Private.lean ====
section
/-! SUPPORT. TCM: its bytes, the workspaces that stand in it, and what a store to it does (R24 to R26, R111, R191, R401). -/

namespace Sys2Proof.Machine

theorem leNat_lt (l : List Byte) : leNat l < 256 ^ l.length := by
  induction l with
  | nil => simp [leNat]
  | cons b l ih =>
    unfold leNat
    have := b.isLt
    rw [List.length_cons, Nat.pow_succ]
    omega

theorem tcmBytes_length (s : State) (a n : Nat) : (tcmBytes s a n).length = n := by
  induction n generalizing a with
  | zero => rfl
  | succ n ih => simp [tcmBytes, ih]

/-- The state as an instruction that has been charged sees it. -/
def State.paidFor (c : Charge) (s : State) : State := { charge c s with cur := { s.cur with paid := true } }

theorem chargeOnce_paid {s : State} (h : s.starts) (c : Charge) : chargeOnce c s = s.paidFor c := chargeOnce_first h.2.2 c

theorem any_paid (c : Charge) (s : State) (p : Task → Bool) (hp : p { s.cur with paid := true } = p s.cur) :
    (s.paidFor c).tasks.any p = s.tasks.any p := by
  unfold State.tasks State.paidFor
  simp only [List.filter_cons]
  split <;> simp [List.any_cons, charge, chargeTo, chargeMany, State.onTile, hp]

theorem wsOwner_paid (c : Charge) (s : State) (a : Nat) :
    (s.paidFor c).wsOwner a = s.wsOwner a ∨
      (s.wsOwner a = some s.cur ∧ (s.paidFor c).wsOwner a = some { s.cur with paid := true }) := by
  unfold State.wsOwner State.tasks State.paidFor
  simp only [List.filter_cons, charge, chargeTo, chargeMany, State.onTile]
  by_cases g : (s.cur.st != TaskSt.ended && !s.cur.shadow) = true
  · simp only [g, if_true, List.find?_cons]
    by_cases h : (decide (s.cur.wp.toNat ≤ a) && decide (a < s.cur.wp.toNat + 128)) = true
    · right; simp only [h]; exact ⟨trivial, trivial⟩
    · left; simp only [h]
  · left; simp only [g, if_false]; rfl

theorem tcmByte_paid (c : Charge) (s : State) (a : Nat) : tcmByte (s.paidFor c) a = tcmByte s a := by
  unfold tcmByte
  rcases wsOwner_paid c s a with h | ⟨h, g⟩
  · rw [h]; rfl
  · rw [h, g]; rfl

theorem tcmBytes_paid (c : Charge) (s : State) (a n : Nat) : tcmBytes (s.paidFor c) a n = tcmBytes s a n := by
  induction n generalizing a with
  | zero => rfl
  | succ n ih => unfold tcmBytes; rw [ih, tcmByte_paid]

theorem wsBusy_paid (c : Charge) (s : State) (a n : Nat) : wsBusy (s.paidFor c) a n = wsBusy s a n := by
  unfold wsBusy; rw [any_paid c s _ rfl]

theorem tcmBusy_paid (c : Charge) (s : State) (a n : Nat) : tcmBusy (s.paidFor c) a n = tcmBusy s a n := by
  unfold tcmBusy
  rw [any_paid c s _ rfl, wsBusy_paid]; rfl

theorem tcmBusyW_paid (c : Charge) (s : State) (a n : Nat) : tcmBusyW (s.paidFor c) a n = tcmBusyW s a n := by
  unfold tcmBusyW; rw [tcmBusy_paid]; rfl

theorem refused112_paid (c : Charge) (s : State) (p : BitVec 2) (a n : Nat) : storeRefused112 (s.paidFor c) p a n = storeRefused112 s p a n := by
  unfold storeRefused112; rw [any_paid c s _ rfl]; rfl

theorem refused26_paid (c : Charge) (s : State) (a n : Nat) : storeRefused26 (s.paidFor c) a n = storeRefused26 s a n := by
  unfold storeRefused26; rw [any_paid c s _ rfl]

theorem sext_eq (n v : Nat) (h : n ≠ 0) : sextBytes n v = (BitVec.ofNat (8 * n) v).signExtend 64 := by
  unfold sextBytes; rw [if_neg h]

theorem tcmLoad_ok {s : State} {b : Fld} {ea : Int} {n : Nat} (h : s.inTcm b ea n) (hb : tcmBusy s ea.toNat n = false)
    (hp : anyPoison s.core.tcmPoison ea.toNat n = false) (c : Charge) :
    tcmLoad b ea n (s.paidFor c) = .ok (tcmBytes s ea.toNat n, s.paidFor c) := by
  obtain ⟨h1, h2, h3, h4⟩ := h
  unfold tcmLoad
  have e1 : (ea % (n : Int) != 0) = false := by simpa using h1
  have e2 : isSpill (s.paidFor c) b ea = false := h4
  have e3 : (decide (ea < 0) || decide (ea + n > 131072)) = false := by simp; omega
  rw [e1, e2, e3]
  unfold tcmRead
  rw [tcmBusy_paid, hb]
  have e4 : anyPoison (s.paidFor c).core.tcmPoison ea.toNat n = false := hp
  rw [e4, tcmBytes_paid]
  rfl

theorem zext_small (n v : Nat) (hn : n ≤ 8) (hv : v < 256 ^ n) : zextBytes n v = BitVec.ofNat 64 v := by
  unfold zextBytes
  have : (2:Nat) ^ (8 * n) = 256 ^ n := by rw [Nat.pow_mul]
  rw [this, Nat.mod_eq_of_lt hv]

theorem byteOf_setByte_same (x : Word) (b : Byte) {k : Nat} (hk : k < 8) : byteOf (setByte x k b) k = b := by
  unfold byteOf setByte
  ext i hi
  simp only [BitVec.getElem_extractLsb', BitVec.getLsbD_or, BitVec.getLsbD_and, BitVec.getLsbD_not, BitVec.getLsbD_shiftLeft, BitVec.getLsbD_setWidth]
  have h1 : 8 * k + i < 64 := by omega
  have h2 : ¬ 8 * k + i < 8 * k := by omega
  have h3 : 8 * k + i - 8 * k = i := by omega
  have h4 : i < 64 := by omega
  have : (0xFF : Word).getLsbD i = true := by
    have : ∀ j : Fin 8, (0xFF : Word).getLsbD j.val = true := by decide
    exact this ⟨i, hi⟩
  simp only [h1, h2, h3, h4, this]
  simp [BitVec.getLsbD_eq_getElem hi]

theorem byteOf_setByte_other (x : Word) (b : Byte) {k j : Nat} (hk : k < 8) (hj : j < 8) (h : j ≠ k) : byteOf (setByte x k b) j = byteOf x j := by
  unfold byteOf setByte
  ext i hi
  simp only [BitVec.getElem_extractLsb', BitVec.getLsbD_or, BitVec.getLsbD_and, BitVec.getLsbD_not, BitVec.getLsbD_shiftLeft, BitVec.getLsbD_setWidth]
  have h1 : 8 * j + i < 64 := by omega
  by_cases g : 8 * j + i < 8 * k
  · simp [g, h1]
  · have g2 : 8 ≤ 8 * j + i - 8 * k := by omega
    have : (0xFF : Word).getLsbD (8 * j + i - 8 * k) = false := by
      show (BitVec.ofNat 64 255).getLsbD _ = false
      rw [BitVec.getLsbD_ofNat]
      have : Nat.testBit 255 (8 * j + i - 8 * k) = false := by
        apply Nat.testBit_lt_two_pow
        calc 255 < 2 ^ 8 := by decide
          _ ≤ _ := Nat.pow_le_pow_right (by decide) g2
      simp [this]
    have e2 : b.getLsbD (8 * j + i - 8 * k) = false := BitVec.getLsbD_of_ge _ _ g2
    simp only [this, e2, h1]; simp

/-- A byte of a context's workspace outside word 0, after a byte of it is written. -/
theorem wsByte_put (t : Task) (off x : Nat) (b : Byte) (ho : off < 128) (hx : x < 128) (hx8 : 8 ≤ x) :
    byteOf ((t.putWsByte off b).wsWord (x / 8)) (x % 8) = if x = off then b else byteOf (t.wsWord (x / 8)) (x % 8) := by
  have e0 : x / 8 ≠ 0 := by omega
  have en : BitVec.ofNat 4 (x / 8) ≠ 0 := by
    intro h; have := congrArg BitVec.toNat h
    rw [BitVec.toNat_ofNat, Nat.mod_eq_of_lt (by omega)] at this
    exact e0 this
  unfold Task.putWsByte
  dsimp only
  by_cases h0 : off / 8 = 0
  · rw [if_pos h0, if_neg (by omega)]
    unfold Task.wsWord; rw [if_neg e0, if_neg e0]; rfl
  · rw [if_neg h0]
    by_cases hw : x / 8 = off / 8
    · have : (t.setW (BitVec.ofNat 4 (off / 8)) (setByte (t.wsWord (off / 8)) (off % 8) b)).wsWord (off / 8) = setByte (t.wsWord (off / 8)) (off % 8) b := by
        rw [hw] at en
        generalize setByte (t.wsWord (off / 8)) (off % 8) b = y
        unfold Task.wsWord
        rw [if_neg h0]
        exact Task.getW_setW_same _ _ _ en
      rw [hw, this]
      by_cases e : x = off
      · subst e; rw [if_pos rfl]; exact byteOf_setByte_same _ _ (Nat.mod_lt _ (by decide))
      · rw [if_neg e]; exact byteOf_setByte_other _ _ (Nat.mod_lt _ (by decide)) (Nat.mod_lt _ (by decide)) (by omega)
    · rw [if_neg (by intro h; exact hw (by rw [h]))]
      have hne : BitVec.ofNat 4 (x / 8) ≠ BitVec.ofNat 4 (off / 8) := by
        intro h; have := congrArg BitVec.toNat h
        rw [BitVec.toNat_ofNat, BitVec.toNat_ofNat, Nat.mod_eq_of_lt (by omega), Nat.mod_eq_of_lt (by omega)] at this
        exact hw this
      generalize setByte (t.wsWord (off / 8)) (off % 8) b = y
      have : (t.setW (BitVec.ofNat 4 (off / 8)) y).wsWord (x / 8) = t.wsWord (x / 8) := by
        unfold Task.wsWord; rw [if_neg e0, if_neg e0]
        exact Task.getW_setW_other _ _ _ _ hne
      rw [this]

theorem bare_fields {t u : Task} (h : t.bare = u.bare) : t.st = u.st ∧ t.wait = u.wait ∧ t.wp = u.wp ∧ t.shadow = u.shadow := by
  refine ⟨?_, ?_, ?_, ?_⟩
  · show t.bare.st = u.bare.st; rw [h]
  · show t.bare.wait = u.bare.wait; rw [h]
  · show t.bare.wp = u.bare.wp; rw [h]
  · show t.bare.shadow = u.bare.shadow; rw [h]

theorem putWs_same (t : Task) (o : Nat) (b : Byte) : (t.putWsByte o b).wp = t.wp ∧ (t.putWsByte o b).st = t.st ∧ (t.putWsByte o b).shadow = t.shadow ∧
   (t.putWsByte o b).bare = t.bare := by
  unfold Task.putWsByte
  dsimp only
  split
  · exact ⟨rfl, rfl, rfl, rfl⟩
  · unfold Task.setW; split <;> exact ⟨rfl, rfl, rfl, rfl⟩

/-- The tasks after a change of some of them that keeps their places and their states. -/
theorem tasks_mapTasks (s : State) (p : Task → Bool) (f : Task → Task) (h : ∀ t, (f t).st = t.st ∧ (f t).shadow = t.shadow) :
    (s.mapTasks p f).tasks = s.tasks.map fun t => if p t then f t else t := by
  unfold State.tasks State.mapTasks
  have : ∀ l : List Task, (l.map fun t => if p t then f t else t).filter (fun t => t.st != .ended && !t.shadow) =
      (l.filter fun t => t.st != .ended && !t.shadow).map fun t => if p t then f t else t := by
    intro l
    induction l with
    | nil => rfl
    | cons x l ih =>
      have e : ((if p x then f x else x).st != .ended && !(if p x then f x else x).shadow) = (x.st != .ended && !x.shadow) := by
        split
        · rw [(h x).1, (h x).2]
        · rfl
      simp only [List.map_cons, List.filter_cons, e]
      split
      · simp [ih]
      · exact ih
  exact this (s.cur :: s.rest)

theorem find_map {p : Task → Bool} {f : Task → Task} (l : List Task) (h : ∀ t, p (f t) = p t) : (l.map f).find? p = (l.find? p).map f := by
  induction l with
  | nil => rfl
  | cons x l ih =>
    simp only [List.map_cons, List.find?_cons, h]
    split
    · rfl
    · exact ih

theorem tcmByte_put (s : State) (a x : Nat) (b : Byte) (hm : Memory.wf s.core.tcm = true) (hx : ¬ s.wordZero x) :
    tcmByte (tcmPutByte s a b) x = if x = a then b else tcmByte s x := by
  cases ha : s.wsOwner a with
  | none =>
    have e : tcmPutByte s a b = s.onCore fun c => { c with tcm := memPut c.tcm a b } := by unfold tcmPutByte; rw [ha]
    rw [e]
    have e2 : (s.onCore fun c => { c with tcm := memPut c.tcm a b }).wsOwner x = s.wsOwner x := rfl
    unfold tcmByte; rw [e2]
    by_cases h : x = a
    · subst h; rw [ha, if_pos rfl]; exact memGet_memPut_same _ _ hm
    · rw [if_neg h]
      cases s.wsOwner x with
      | none => exact memGet_memPut_other _ _ _ hm h
      | some t => rfl
  | some o =>
    have e : tcmPutByte s a b = s.mapTasks (fun t => t.st != .ended && !t.shadow && t.wp == o.wp) fun t => t.putWsByte (a - t.wp.toNat) b := by
      unfold tcmPutByte; rw [ha]
    have ho := List.find?_some ha
    simp only [Bool.and_eq_true, decide_eq_true_eq] at ho
    have ho2 : ∃ y ∈ s.tasks, y = o := ⟨o, List.mem_of_find?_eq_some ha, rfl⟩
    have mem := List.mem_of_find?_eq_some ha
    let F : Task → Task := fun t => if (t.st != .ended && !t.shadow && t.wp == o.wp) then t.putWsByte (a - t.wp.toNat) b else t
    have hF : ∀ t, (F t).wp = t.wp := by
      intro t
      by_cases hh : (t.st != .ended && !t.shadow && t.wp == o.wp) = true
      · show Task.wp (if _ then _ else _) = _
        rw [if_pos hh]; exact (putWs_same _ _ _).1
      · show Task.wp (if _ then _ else _) = _
        rw [if_neg hh]
    have ho3 : (tcmPutByte s a b).wsOwner x = (s.wsOwner x).map F := by
      rw [e]; unfold State.wsOwner
      rw [tasks_mapTasks _ _ _ (fun t => ⟨(putWs_same _ _ _).2.1, (putWs_same _ _ _).2.2.1⟩)]
      refine find_map (f := F) _ ?_
      intro t; rw [hF]
    unfold tcmByte; rw [ho3]
    have hcore : (tcmPutByte s a b).core = s.core := by rw [e]; rfl
    rw [hcore]
    cases hox : s.wsOwner x with
    | none =>
      have : x ≠ a := by intro h; rw [h, ha] at hox; cases hox
      rw [if_neg this]; rfl
    | some t =>
      have ht := List.find?_some hox
      simp only [Bool.and_eq_true, decide_eq_true_eq] at ht
      have mt := List.mem_of_find?_eq_some hox
      have h8 : 8 ≤ x - t.wp.toNat := by
        by_contra hh
        exact hx ⟨t, mt, ht.1, by omega⟩
      have hlive : (t.st != .ended && !t.shadow) = true := (List.mem_filter.mp mt).2
      simp only [Option.map_some, hF]
      by_cases hw : t.wp = o.wp
      · have e3 : F t = t.putWsByte (a - t.wp.toNat) b := by
          show (if _ then _ else _) = _
          rw [if_pos]; simp only [hlive, Bool.true_and]; rw [hw]; exact beq_self_eq_true _
        rw [e3, wsByte_put _ _ _ _ (by rw [hw]; omega) (by omega) h8]
        by_cases hxa : x = a
        · rw [if_pos hxa, if_pos (by rw [hxa])]
        · rw [if_neg hxa, if_neg (by rw [hw] at ht h8 ⊢; omega)]
      · have e3 : F t = t := by
          show (if _ then _ else _) = _
          rw [if_neg]; simp [hw]
        rw [e3]
        have : x ≠ a := by
          intro h; rw [h, ha] at hox; cases hox; exact hw rfl
        rw [if_neg this]

theorem put_tasks (s : State) (a : Nat) (b : Byte) : ∃ F : Task → Task, (∀ t, (F t).bare = t.bare) ∧
    (tcmPutByte s a b).cur = F s.cur ∧ (tcmPutByte s a b).rest = s.rest.map F ∧ (tcmPutByte s a b).tasks = s.tasks.map F ∧
    tcmPutByte s a b = { s with cur := (tcmPutByte s a b).cur, rest := (tcmPutByte s a b).rest, core := { s.core with tcm := (tcmPutByte s a b).core.tcm } } ∧
    (∀ t, (∀ o, s.wsOwner a = some o → o.wp = t.wp → t.shadow = false → t.wp.toNat + 8 ≤ a) → (F t).pc = t.pc ∧ (F t).mig = t.mig) := by
  unfold tcmPutByte
  cases ha : s.wsOwner a with
  | none =>
    refine ⟨id, fun _ => rfl, rfl, ?_, ?_, rfl, fun _ _ => ⟨rfl, rfl⟩⟩
    · simp [State.onCore]
    · simp [State.onCore, State.tasks]
  | some o =>
    refine ⟨fun t => if (t.st != .ended && !t.shadow && t.wp == o.wp) then t.putWsByte (a - t.wp.toNat) b else t, ?_, rfl, rfl, ?_, rfl, ?_⟩
    · intro t; dsimp only; split
      · exact (putWs_same _ _ _).2.2.2
      · rfl
    · exact tasks_mapTasks _ _ _ (fun t => ⟨(putWs_same _ _ _).2.1, (putWs_same _ _ _).2.2.1⟩)
    · intro t h
      dsimp only
      split
      · rename_i hh
        simp only [Bool.and_eq_true, beq_iff_eq] at hh
        have := h o rfl hh.2.symm (by simpa using hh.1.2)
        unfold Task.putWsByte
        dsimp only
        rw [if_neg (by omega)]
        unfold Task.setW; split <;> exact ⟨rfl, rfl⟩
      · exact ⟨rfl, rfl⟩

/-- One context has the same workspace as another, but for word 0. -/
def Task.sameWs (y z : Task) : Prop := z.wp = y.wp ∧ z.w = y.w

theorem find_sameWs {l m : List Task} (h : List.Forall₂ Task.sameWs l m) (x : Nat) :
    Option.Rel Task.sameWs (l.find? fun t => t.wp.toNat ≤ x && x < t.wp.toNat + 128) (m.find? fun t => t.wp.toNat ≤ x && x < t.wp.toNat + 128) := by
  induction h with
  | nil => exact .none
  | cons h _ ih =>
    simp only [List.find?_cons, h.1]
    split
    · exact .some h
    · exact ih

/-- TCM outside word 0 of every workspace depends on the places and the registers of the tasks alone. -/
theorem tcmByte_sameWs {s t : State} {x : Nat} (ht : List.Forall₂ Task.sameWs s.tasks t.tasks)
    (hc : t.core.tcm = s.core.tcm) (hx : ¬ s.wordZero x) : tcmByte t x = tcmByte s x := by
  have e : Option.Rel Task.sameWs (s.wsOwner x) (t.wsOwner x) := find_sameWs ht x
  unfold tcmByte; rw [hc]
  cases h : s.wsOwner x with
  | none => rw [h] at e; cases g : t.wsOwner x with
    | none => rfl
    | some z => rw [g] at e; cases e
  | some y =>
    rw [h] at e
    cases g : t.wsOwner x with
    | none => rw [g] at e; cases e
    | some z =>
      rw [g] at e
      cases e with
      | some e =>
        have hy := List.find?_some h
        simp only [Bool.and_eq_true, decide_eq_true_eq] at hy
        have h8 : ¬ (x - y.wp.toNat) / 8 = 0 := by
          intro h0
          exact hx ⟨y, List.mem_of_find?_eq_some h, hy.1, by omega⟩
        show byteOf (z.wsWord ((x - z.wp.toNat) / 8)) _ = byteOf (y.wsWord ((x - y.wp.toNat) / 8)) _
        rw [e.1]
        unfold Task.wsWord
        rw [if_neg h8, if_neg h8]
        unfold Task.getW; rw [e.2]

theorem tasks_sameWs {s t : State} (hc : Task.sameWs s.cur t.cur) (he : (t.cur.st = .ended ↔ s.cur.st = .ended)) (hs : t.cur.shadow = s.cur.shadow)
    {F : Task → Task} (hr : t.rest = s.rest.map F) (hF : ∀ y, Task.sameWs y (F y) ∧ (F y).st = y.st ∧ (F y).shadow = y.shadow) :
    List.Forall₂ Task.sameWs s.tasks t.tasks := by
  unfold State.tasks
  rw [hr]
  have key : ∀ l : List Task, List.Forall₂ Task.sameWs (l.filter fun t => t.st != .ended && !t.shadow)
      ((l.map F).filter fun t => t.st != .ended && !t.shadow) := by
    intro l
    induction l with
    | nil => exact .nil
    | cons x l ih =>
      simp only [List.map_cons, List.filter_cons, (hF x).2.1, (hF x).2.2]
      split
      · exact .cons (hF x).1 ih
      · exact ih
  have e : (t.cur.st != TaskSt.ended && !t.cur.shadow) = (s.cur.st != TaskSt.ended && !s.cur.shadow) := by
    rw [hs]
    by_cases h : s.cur.st = .ended
    · rw [h, he.mpr h]
    · have : ¬ t.cur.st = .ended := fun g => h (he.mp g)
      have a : (t.cur.st != TaskSt.ended) = true := by simpa using this
      have b : (s.cur.st != TaskSt.ended) = true := by simpa using h
      rw [a, b]
  simp only [List.filter_cons, e]
  split
  · exact .cons hc (key _)
  · exact key _

theorem wordZero_put {s : State} {a x : Nat} {b : Byte} (h : ¬ s.wordZero x) : ¬ (tcmPutByte s a b).wordZero x := by
  obtain ⟨F, hF, _, _, ht, _⟩ := put_tasks s a b
  rintro ⟨t, mt, h1⟩
  rw [ht] at mt
  obtain ⟨y, my, rfl⟩ := List.mem_map.mp mt
  have : (F y).wp = y.wp := by have := congrArg Task.wp (hF y); exact this
  rw [this] at h1
  exact h ⟨y, my, h1⟩

theorem put_wf {s : State} (a : Nat) (b : Byte) (h : Memory.wf s.core.tcm = true) : Memory.wf (tcmPutByte s a b).core.tcm = true := by
  unfold tcmPutByte
  split
  · exact h
  · exact memPut_wf _ _ h

theorem tcmBytes_put (bs : List Byte) : ∀ (s : State) (a x : Nat), Memory.wf s.core.tcm = true → ¬ s.wordZero x →
    tcmByte (tcmPutBytes s a bs) x = if a ≤ x ∧ x < a + bs.length then bs.getD (x - a) 0 else tcmByte s x := by
  induction bs with
  | nil => intro s a x _ _; rw [if_neg (by simp)]; rfl
  | cons b bs ih =>
    intro s a x hm hx
    unfold tcmPutBytes
    rw [ih _ _ _ (put_wf _ _ hm) (wordZero_put hx), tcmByte_put _ _ _ _ hm hx]
    by_cases h1 : x = a
    · subst h1
      rw [if_neg (by omega), if_pos rfl, if_pos (by simp)]; simp
    · by_cases h2 : a + 1 ≤ x ∧ x < a + 1 + bs.length
      · rw [if_pos h2, if_pos (by simp; omega)]
        have : x - a = x - (a + 1) + 1 := by omega
        rw [this, List.getD_cons_succ]
      · rw [if_neg h2, if_neg h1, if_neg (by simp; omega)]

theorem leBytes_getD (n : Nat) : ∀ (v k : Nat), k < n → (leBytes n v).getD k 0 = BitVec.ofNat 8 (v / 256 ^ k) := by
  induction n with
  | zero => intro v k h; omega
  | succ n ih =>
    intro v k h
    unfold leBytes
    cases k with
    | zero => simp
    | succ k => rw [List.getD_cons_succ, ih _ _ (by omega), Nat.div_div_eq_div_mul, Nat.pow_succ, Nat.mul_comm]

theorem leBytes_length (n v : Nat) : (leBytes n v).length = n := by
  induction n generalizing v with
  | zero => rfl
  | succ n ih => simp [leBytes, ih]

/-- Two states alike but for the contexts and the bytes of TCM. -/
def State.alike (s t : State) : Prop :=
  { t.core with tcm := [] } = { s.core with tcm := [] } ∧ t.tile = s.tile ∧ t.home = s.home ∧ t.launch = s.launch ∧ t.host = s.host ∧
    t.saved = s.saved ∧ t.sched = s.sched ∧ t.fresh = s.fresh

theorem State.alike_trans {s t u : State} (h : s.alike t) (g : t.alike u) : s.alike u :=
  ⟨g.1.trans h.1, g.2.1.trans h.2.1, g.2.2.1.trans h.2.2.1, g.2.2.2.1.trans h.2.2.2.1, g.2.2.2.2.1.trans h.2.2.2.2.1,
   g.2.2.2.2.2.1.trans h.2.2.2.2.2.1, g.2.2.2.2.2.2.1.trans h.2.2.2.2.2.2.1, g.2.2.2.2.2.2.2.trans h.2.2.2.2.2.2.2⟩

theorem put_alike (s : State) (a : Nat) (b : Byte) : s.alike (tcmPutByte s a b) := by
  unfold tcmPutByte
  split
  · exact ⟨rfl, rfl, rfl, rfl, rfl, rfl, rfl, rfl⟩
  · exact ⟨rfl, rfl, rfl, rfl, rfl, rfl, rfl, rfl⟩

theorem puts_tasks (bs : List Byte) : ∀ (s : State) (a : Nat), ∃ F : Task → Task, (∀ t, (F t).bare = t.bare) ∧
    (tcmPutBytes s a bs).cur = F s.cur ∧ (tcmPutBytes s a bs).rest = s.rest.map F ∧
    s.alike (tcmPutBytes s a bs) := by
  induction bs with
  | nil => intro s a; exact ⟨id, fun _ => rfl, rfl, (List.map_id _).symm, ⟨rfl, rfl, rfl, rfl, rfl, rfl, rfl, rfl⟩⟩
  | cons b bs ih =>
    intro s a
    obtain ⟨F, h1, h2, h3, _, h5, _⟩ := put_tasks s a b
    obtain ⟨G, g1, g2, g3, g4⟩ := ih (tcmPutByte s a b) (a + 1)
    refine ⟨G ∘ F, fun t => (g1 _).trans (h1 t), ?_, ?_, ?_⟩
    · unfold tcmPutBytes; rw [g2, h2]; rfl
    · unfold tcmPutBytes; rw [g3, h3, List.map_map]
    · exact State.alike_trans (put_alike s a b) g4

/-- A store that touches no byte of word 0 of the issuing task's workspace leaves its PC and its mark. -/
theorem puts_pc (bs : List Byte) : ∀ (s : State) (a : Nat),
    (s.cur.shadow = false → ∀ t ∈ s.tasks, t.wp = s.cur.wp → overlaps a bs.length t.wp.toNat 8 = false) →
    (tcmPutBytes s a bs).cur.pc = s.cur.pc ∧ (tcmPutBytes s a bs).cur.mig = s.cur.mig := by
  induction bs with
  | nil => intro s a _; exact ⟨rfl, rfl⟩
  | cons b bs ih =>
    intro s a h
    obtain ⟨F, h1, h2, h3, h4, h5, h6⟩ := put_tasks s a b
    have hwp : ∀ t, (F t).wp = t.wp := by
      intro t; show (F t).bare.wp = t.bare.wp; rw [h1]
    have hp := h6 s.cur (by
      intro o ho hw hsh
      have mo := List.mem_of_find?_eq_some ho
      have hoo := List.find?_some ho
      simp only [Bool.and_eq_true, decide_eq_true_eq] at hoo
      have := h hsh o mo hw
      unfold overlaps at this
      simp only [Bool.and_eq_false_iff, decide_eq_false_iff_not, List.length_cons] at this
      rw [← hw]; omega)
    have := ih (tcmPutByte s a b) (a + 1) (by
      intro hsh t mt hw
      rw [h2] at hsh
      rw [show (F s.cur).shadow = s.cur.shadow from (bare_fields (h1 s.cur)).2.2.2] at hsh
      rw [h4] at mt
      obtain ⟨y, my, rfl⟩ := List.mem_map.mp mt
      rw [hwp, h2, hwp] at hw
      have := h hsh y my hw
      rw [hwp]
      unfold overlaps at this ⊢
      simp only [Bool.and_eq_false_iff, decide_eq_false_iff_not, List.length_cons] at this ⊢
      omega)
    unfold tcmPutBytes
    rw [this.1, this.2, h2]; exact hp

theorem tcmStore_ok {s : State} {b : Fld} {ea : Int} {bs : List Byte} (h : s.inTcm b ea bs.length)
    (h1 : storeRefused112 s s.cur.priv ea.toNat bs.length = false) (h2 : storeRefused26 s ea.toNat bs.length = false)
    (hb : tcmBusyW s ea.toNat bs.length = false) (c : Charge) :
    tcmStore b ea bs (s.paidFor c) = .ok (tcmPut (s.paidFor c) ea.toNat bs) := by
  obtain ⟨g1, g2, g3, g4⟩ := h
  unfold tcmStore
  have e1 : (ea % (bs.length : Int) != 0) = false := by simpa using g1
  have e2 : isSpill (s.paidFor c) b ea = false := g4
  have e3 : (decide (ea < 0) || decide (ea + bs.length > 131072)) = false := by simp; omega
  have e4 : storeRefused112 (s.paidFor c) (s.paidFor c).cur.priv ea.toNat bs.length = false := by rw [refused112_paid]; exact h1
  have e5 : storeRefused26 (s.paidFor c) ea.toNat bs.length = false := by rw [refused26_paid]; exact h2
  dsimp only
  rw [e1, e2, e3, e4, e5]
  unfold tcmWrite
  rw [tcmBusyW_paid, hb]
  rfl

theorem paid_sameWs (c : Charge) (s : State) : List.Forall₂ Task.sameWs s.tasks (s.paidFor c).tasks :=
  tasks_sameWs (F := id) ⟨rfl, rfl⟩ Iff.rfl rfl (List.map_id _).symm (fun _ => ⟨⟨rfl, rfl⟩, rfl, rfl⟩)

theorem wordZero_sameWs {s t : State} (h : List.Forall₂ Task.sameWs s.tasks t.tasks) {x : Nat} (hx : ¬ s.wordZero x) : ¬ t.wordZero x := by
  rintro ⟨z, mz, h1⟩
  have : ∀ {l m : List Task}, List.Forall₂ Task.sameWs l m → z ∈ m → ∃ y ∈ l, y.wp = z.wp := by
    intro l m h
    induction h with
    | nil => intro hz; cases hz
    | cons h _ ih =>
      intro hz
      cases hz with
      | head => exact ⟨_, List.mem_cons_self, h.1.symm⟩
      | tail _ hz => obtain ⟨y, my, e⟩ := ih hz; exact ⟨y, List.mem_cons_of_mem _ my, e⟩
  obtain ⟨y, my, e⟩ := this h mz
  exact hx ⟨y, my, by rw [e]; exact h1⟩

theorem wordZero_puts {x : Nat} (bs : List Byte) : ∀ {s : State} {a : Nat}, ¬ s.wordZero x → ¬ (tcmPutBytes s a bs).wordZero x := by
  induction bs with
  | nil => intro s a h; exact h
  | cons b bs ih => intro s a h; exact ih (wordZero_put h)

theorem takeS_two_regs {s : State} {a b : Fld} (ha : a < 16) (hb : b < 16) (wa : wBusy s.cur a = false) (wb : wBusy s.cur b = false) :
    takeS [b, a] [] s = .ok ([s.rw b, s.rw a], s) := takeS_w [b, a] [] (by simp; exact ⟨hb, ha⟩) (by simp [wa, wb])

theorem bare_kept {t u : Task} (h : t.bare = u.bare) (hm : t.mig = u.mig) : t.kept = u.kept := by
  have : ∀ t : Task, t.kept = { t.bare with mig := t.mig, st := .running, wait := none, brkSkip := false, pcmSkip := false, paid := false, trapTaken := false } := fun _ => rfl
  rw [this t, this u, h, hm]

/-- A state charged once, its mark kept as given. -/
def State.payAs (p : Bool) (c : Charge) (s : State) : State := { charge c s with cur := { s.cur with paid := p } }

theorem any_payAs (b : Bool) (c : Charge) (s : State) (p : Task → Bool) (hp : p { s.cur with paid := b } = p s.cur) :
    (s.payAs b c).tasks.any p = s.tasks.any p := by
  unfold State.tasks State.payAs
  simp only [List.filter_cons]
  split <;> simp [List.any_cons, charge, chargeTo, chargeMany, State.onTile, hp]

theorem refused26_payAs (b : Bool) (c : Charge) (s : State) (a n : Nat) : storeRefused26 (s.payAs b c) a n = storeRefused26 s a n := by
  unfold storeRefused26; rw [any_payAs b c s _ rfl]

theorem payAs_sameWs (b : Bool) (c : Charge) (s : State) : List.Forall₂ Task.sameWs s.tasks (s.payAs b c).tasks :=
  tasks_sameWs (F := id) ⟨rfl, rfl⟩ Iff.rfl rfl (List.map_id _).symm (fun _ => ⟨⟨rfl, rfl⟩, rfl, rfl⟩)

/-- Several stores, one after the other. -/
def putAll (l : List (Nat × List Byte)) (s : State) : State := l.foldl (fun s w => tcmPut s w.1 w.2) s

/-- What several stores do before the instruction retires. -/
structure Puts (l : List (Nat × List Byte)) (s v : State) : Prop where
  tasks : ∃ F : Task → Task, (∀ t, (F t).bare = t.bare) ∧ v.cur = F s.cur ∧ v.rest = s.rest.map F
  pc : (∀ w ∈ l, s.cur.shadow = false → ∀ t ∈ s.tasks, t.wp = s.cur.wp → overlaps w.1 w.2.length t.wp.toNat 8 = false) →
    v.cur.pc = s.cur.pc ∧ v.cur.mig = s.cur.mig
  wf : Memory.wf v.core.tcm = true
  zero : ∀ x, ¬ s.wordZero x → ¬ v.wordZero x
  bytes : ∀ (o : Option Byte) (x : Nat) (r : Byte), ¬ s.wordZero x → tcmByte s x = o.getD r →
    tcmByte v x = (l.foldl (fun o w => if w.1 ≤ x ∧ x < w.1 + w.2.length then w.2[x - w.1]? else o) o).getD r
  poison : v.core.tcmPoison = l.foldl (fun p w => poisonAfter p w.1 w.2.length) s.core.tcmPoison
  history : v.core.mx = l.foldl (fun m w => mxTouch w.1 w.2.length m) s.core.mx
  core : ({ v.core with tcm := s.core.tcm, tcmPoison := s.core.tcmPoison, mx := s.core.mx } : CoreSt) = s.core
  rest : v.tile = s.tile ∧ v.home = s.home ∧ v.launch = s.launch ∧ v.host = s.host ∧ v.saved = s.saved ∧
    v.sched = s.sched ∧ v.fresh = s.fresh

theorem puts_zero (bs : List Byte) : ∀ {s : State} {a x : Nat}, ¬ s.wordZero x → ¬ (tcmPutBytes s a bs).wordZero x := wordZero_puts bs

theorem puts_wf (bs : List Byte) : ∀ (s : State) (a : Nat), Memory.wf s.core.tcm = true → Memory.wf (tcmPutBytes s a bs).core.tcm = true := by
  induction bs with
  | nil => intro s a h; exact h
  | cons b bs ih => intro s a h; exact ih _ _ (put_wf _ _ h)

theorem puts_all (l : List (Nat × List Byte)) : ∀ s : State, Memory.wf s.core.tcm = true → Puts l s (putAll l s) := by
  induction l with
  | nil =>
    intro s h
    exact ⟨⟨id, fun _ => rfl, rfl, (List.map_id _).symm⟩, fun _ => ⟨rfl, rfl⟩, h, fun _ h => h, fun _ _ _ _ h => h, rfl, rfl, rfl,
      ⟨rfl, rfl, rfl, rfl, rfl, rfl, rfl⟩⟩
  | cons w l ih =>
    intro s h
    obtain ⟨F, f1, f2, f3, f4⟩ := puts_tasks w.2 s w.1
    have hp := puts_pc w.2 s w.1
    have hz : ∀ x, ¬ s.wordZero x → ¬ (tcmPut s w.1 w.2).wordZero x := fun x hx => puts_zero w.2 hx
    have hb : ∀ x, ¬ s.wordZero x → tcmByte (tcmPut s w.1 w.2) x = if w.1 ≤ x ∧ x < w.1 + w.2.length then w.2.getD (x - w.1) 0 else tcmByte s x :=
      fun x hx => tcmBytes_put w.2 s w.1 x h hx
    have hw : Memory.wf (tcmPut s w.1 w.2).core.tcm = true := puts_wf w.2 s w.1 h
    have hq : (tcmPut s w.1 w.2).core.tcmPoison = poisonAfter s.core.tcmPoison w.1 w.2.length := by
      show poisonAfter (tcmPutBytes s w.1 w.2).core.tcmPoison _ _ = _
      rw [show (tcmPutBytes s w.1 w.2).core.tcmPoison = s.core.tcmPoison from (by have e := congrArg CoreSt.tcmPoison f4.1; exact e)]
    have hx : (tcmPut s w.1 w.2).core.mx = mxTouch w.1 w.2.length s.core.mx := by
      show mxTouch _ _ (tcmPutBytes s w.1 w.2).core.mx = _
      rw [show (tcmPutBytes s w.1 w.2).core.mx = s.core.mx from (by have e := congrArg CoreSt.mx f4.1; exact e)]
    have hc : ({ (tcmPut s w.1 w.2).core with tcm := s.core.tcm, tcmPoison := s.core.tcmPoison, mx := s.core.mx } : CoreSt) = s.core := by
      have := congrArg (fun c : CoreSt => ({ c with tcm := s.core.tcm, tcmPoison := s.core.tcmPoison, mx := s.core.mx } : CoreSt)) f4.1
      exact this
    have g := ih (tcmPut s w.1 w.2) hw
    obtain ⟨G, g1, g2, g3⟩ := g.tasks
    have h2 : (tcmPut s w.1 w.2).cur = F s.cur := f2
    have h3 : (tcmPut s w.1 w.2).rest = s.rest.map F := f3
    refine ⟨⟨G ∘ F, fun t => (g1 _).trans (f1 t), ?_, ?_⟩, ?_, g.wf, fun x hx => g.zero x (hz x hx), ?_, ?_, ?_, ?_, ?_⟩
    · show (putAll l (tcmPut s w.1 w.2)).cur = _; rw [g2, h2]; rfl
    · show (putAll l (tcmPut s w.1 w.2)).rest = _; rw [g3, h3, List.map_map]
    · intro hh
      have p1 : (tcmPut s w.1 w.2).cur.pc = s.cur.pc ∧ (tcmPut s w.1 w.2).cur.mig = s.cur.mig := hp (hh w List.mem_cons_self)
      have hwp : ∀ t, (F t).wp = t.wp := by intro t; show (F t).bare.wp = t.bare.wp; rw [f1]
      have hfs : ∀ t, (F t).shadow = t.shadow := fun t => (bare_fields (f1 t)).2.2.2
      have hst : ∀ t, (F t).st = t.st := fun t => (bare_fields (f1 t)).1
      have hts : (tcmPut s w.1 w.2).tasks = s.tasks.map F := by
        unfold State.tasks
        rw [h2, h3, ← List.map_cons, List.filter_map]
        congr 1
        apply List.filter_congr
        intro x _
        simp only [Function.comp, hst, hfs]
      have p2 := g.pc (by
        intro w' m' hsh t mt hw'
        rw [h2, hfs] at hsh
        rw [hts] at mt
        obtain ⟨y, my, rfl⟩ := List.mem_map.mp mt
        rw [hwp, h2, hwp] at hw'
        rw [hwp]
        exact hh w' (List.mem_cons_of_mem _ m') hsh y my hw')
      exact ⟨p2.1.trans p1.1, p2.2.trans p1.2⟩
    · intro o x r hx' ho
      show tcmByte (putAll l (tcmPut s w.1 w.2)) x = _
      rw [List.foldl_cons]
      refine g.bytes _ x r (hz x hx') ?_
      rw [hb x hx']
      by_cases hin : w.1 ≤ x ∧ x < w.1 + w.2.length
      · rw [if_pos hin, if_pos hin]
        have hl : x - w.1 < w.2.length := by omega
        rw [List.getElem?_eq_getElem hl, List.getD_eq_getElem?_getD, List.getElem?_eq_getElem hl]; rfl
      · rw [if_neg hin, if_neg hin, ho]
    · show (putAll l (tcmPut s w.1 w.2)).core.tcmPoison = _
      rw [g.poison, hq]; rfl
    · show (putAll l (tcmPut s w.1 w.2)).core.mx = _
      rw [g.history, hx]; rfl
    · show ({ (putAll l (tcmPut s w.1 w.2)).core with tcm := s.core.tcm, tcmPoison := s.core.tcmPoison, mx := s.core.mx } : CoreSt) = _
      have := congrArg (fun c : CoreSt => ({ c with tcm := s.core.tcm, tcmPoison := s.core.tcmPoison, mx := s.core.mx } : CoreSt)) g.core
      exact this.trans hc
    · obtain ⟨_, a2, a3, a4, a5, a6, a7, a8⟩ := f4
      obtain ⟨b2, b3, b4, b5, b6, b7, b8⟩ := g.rest
      exact ⟨b2.trans a2, b3.trans a3, b4.trans a4, b5.trans a5, b6.trans a6, b7.trans a7, b8.trans a8⟩

theorem poison_step (p : List Nat) (a n : Nat) : poisonAfter p a n = p.filter fun k : Nat => decide ¬ (a ≤ 8 * k ∧ 8 * k + 8 ≤ a + n) := by
  unfold poisonAfter
  congr 1; funext k
  rw [Bool.eq_iff_iff]
  simp only [Bool.not_eq_true', Bool.and_eq_false_iff, decide_eq_false_iff_not, decide_eq_true_eq]
  omega

/-- An instruction that stores and completes. -/
theorem stores_ok {s : State} (hs : s.starts) (hm : s.memOk = true) (hsl : s.cur.slot.isSome = true) (c : Charge) (p hv : Bool)
    (l : List (Nat × List Byte)) (h2 : ∀ w ∈ l, storeRefused26 s w.1 w.2.length = false) :
    s.Stores c.nominal hv l (retire (advance ((putAll l (s.payAs p c)).onCur fun t => { t with hvy := t.hvy || hv }))) := by
  have hmw : Memory.wf (s.payAs p c).core.tcm = true := by
    unfold State.memOk at hm; simp only [Bool.and_eq_true] at hm
    show Memory.wf s.core.tcm = true
    grind
  have P := puts_all l (s.payAs p c) hmw
  obtain ⟨F, f1, f2, f3⟩ := P.tasks
  have hpc := P.pc (by
    intro w mw hsh t mt hw
    have r26 : storeRefused26 (s.payAs p c) w.1 w.2.length = false := by rw [refused26_payAs]; exact h2 w mw
    have hsh' : s.cur.shadow = false := hsh
    have hcur : (s.payAs p c).cur ∈ (s.payAs p c).tasks := by
      unfold State.tasks; apply List.mem_filter.mpr
      refine ⟨List.mem_cons_self, ?_⟩
      show (s.cur.st != .ended && !s.cur.shadow) = true
      rw [hs.1, hsh']; rfl
    unfold storeRefused26 at r26
    have := List.any_eq_false.mp r26 _ hcur
    have hr : (s.payAs p c).cur.st = .running := hs.1
    have hsl' : (s.payAs p c).cur.slot.isSome = true := hsl
    rw [hr, hsl'] at this
    rw [hw]
    simpa using this)
  generalize putAll l (s.payAs p c) = v at P f2 f3 hpc
  have hcur : v.cur.bare = ({ s.cur with paid := p } : Task).bare := by rw [f2]; exact f1 _
  have e1 : v.cur.st = s.cur.st := (bare_fields hcur).1
  have e2 : v.cur.wait = s.cur.wait := (bare_fields hcur).2.1
  have hc : (retire (advance (v.onCur fun t => { t with hvy := t.hvy || hv }))).cur =
      { v.cur with pc := v.cur.pc + 4, hvy := v.cur.hvy || hv, st := .running, wait := none, brkSkip := false, pcmSkip := false, paid := false, trapTaken := false } := by
    rw [retire_cur_running]
    · rfl
    · show v.cur.st ≠ _; rw [e1, hs.1]; decide
    · show v.cur.wait ≠ _; rw [e2, hs.2.1]; decide
  obtain ⟨a2, a3, a4, a5, a6, a7, a8⟩ := P.rest
  generalize hW : advance (v.onCur fun t => { t with hvy := t.hvy || hv }) = W at hc
  have hWc : W.core = v.core := by rw [← hW]; rfl
  have hWr : W.rest = v.rest := by rw [← hW]; rfl
  have hWt : W.tile = v.tile := by rw [← hW]; rfl
  have hWh : W.home = v.home ∧ W.launch = v.launch ∧ W.host = v.host ∧ W.saved = v.saved ∧ W.sched = v.sched ∧ W.fresh = v.fresh := by
    rw [← hW]; exact ⟨rfl, rfl, rfl, rfl, rfl, rfl⟩
  have hrest : (retire W).rest = v.rest.map unyield := by rw [← hWr]; rfl
  have htile : (retire W).tile = (charge c s).tile := by show W.tile = _; rw [hWt]; exact a2
  obtain ⟨w3, w4, w5, w6, w7, w8⟩ := hWh
  refine ⟨?_, ?_, ?_, ?_, ?_, ?_, ?_, ?_, ?_, w3.trans a3, w4.trans a4, w5.trans a5, w6.trans a6, w7.trans a7, w8.trans a8⟩
  · rw [hc, hpc.1]; rfl
  · unfold State.charged; rw [htile]; exact charge_charged c s
  · intro x hx
    have x1 := wordZero_sameWs (payAs_sameWs p c s) hx
    have x2 := P.zero x x1
    have e := tcmByte_sameWs (s := v) (t := retire W) (x := x) (tasks_sameWs (F := unyield)
      (by rw [hc]; exact ⟨rfl, rfl⟩) (by rw [hc, e1, hs.1]) (by rw [hc]) hrest (fun y => by
        obtain ⟨q1, q2, q3, _⟩ := unyield_fields y
        exact ⟨⟨q1, by unfold unyield; split <;> rfl⟩, q2, q3⟩)) (by rw [← hWc]; rfl) x2
    rw [e]
    refine P.bytes none x _ x1 ?_
    show _ = tcmByte s x
    exact tcmByte_sameWs (payAs_sameWs p c s) rfl hx
  · have : (retire W).core.tcmPoison = v.core.tcmPoison := by rw [← hWc]; rfl
    rw [this, P.poison]
    congr 1; funext q w; exact poison_step _ _ _
  · have : (retire W).core.mx = v.core.mx := by rw [← hWc]; rfl
    rw [this, P.history]; rfl
  · have : (retire W).core.kept = W.core.kept := runs_kept _ _
    rw [this, hWc]
    exact congrArg CoreSt.kept P.core
  · rw [hc]
    have hk := bare_kept hcur hpc.2
    have : ∀ t : Task, ({ t with pc := t.pc + 4, hvy := t.hvy || hv, st := .running, wait := none, brkSkip := false, pcmSkip := false, paid := false, trapTaken := false } : Task).kept =
        { t.kept with hvy := t.kept.hvy || hv } := fun _ => rfl
    rw [this, hk]; rfl
  · rw [hrest, f3, List.map_map, List.map_map]
    apply List.map_congr_left
    intro x _
    show (unyield (F x)).bare = (unyield x).bare
    have e5 : ∀ y : Task, (unyield y).bare = unyield y.bare := by
      intro y; unfold unyield
      have e6 : y.bare.wait = y.wait := rfl
      rw [e6]
      by_cases h : (y.wait == some Wait.yielded) = true
      · rw [if_pos h, if_pos h]; rfl
      · rw [if_neg h, if_neg h]
    rw [e5, e5, f1]
  · rw [htile]; rfl

theorem hvy_false (s : State) : (s.onCur fun t => { t with hvy := t.hvy || false }) = s := by
  unfold State.onCur
  simp only [Bool.or_false]

end Sys2Proof.Machine
end

