-- ==== Sys2Proof/Laws/SharedMemory.lean ====
section
/-! SUPPORT. Shared accesses, segments and fences (R241 to R251). -/

namespace Sys2Proof.Machine

theorem completes_charge {s : State} (h : s.cur.paid = false) (c : Charge) (f : Task → Task)
    (hf : ∀ t, f { t with paid := true } = { f t with paid := true }) : s.completes c f = retire (advance ((charge c s).onCur f)) := by
  unfold State.completes
  rw [chargeOnce_first h]
  show retire { charge c s with cur := { f { s.cur with paid := true } with pc := (f { s.cur with paid := true }).pc + 4 } } = _
  rw [hf]; rfl

theorem put_paid (a : Fld) (x : Word) (t : Task) : Task.put a x { t with paid := true } = { Task.put a x t with paid := true } := by
  unfold Task.put writeS
  split
  · unfold State.ww State.setW State.onCur Task.setW
    dsimp only; split <;> rfl
  · split
    · dsimp only
      have e : strmOf { t with paid := true } a = strmOf t a := rfl
      rw [e]
      cases strmOf t a with
      | none => rfl
      | some st => rfl
    · split
      · rfl
      · split
        · rfl
        · dsimp only
          have e : queueOf { t with paid := true } a = queueOf t a := rfl
          rw [e]
          cases queueOf t a with
          | none => rfl
          | some st => rfl

theorem retire_put {s : State} (h : s.cur.paid = false) (c : Charge) (a : Fld) (x : Word) :
    retire (advance (writeS a x (charge c s))) = s.completes c (Task.put a x) := by
  rw [completes_charge h c _ (put_paid a x), writeS_put]

theorem translate_cur {acc : Access} {va : Nat} {s u : State} {pa : Nat} {e : Tlb} (h : translate acc va s = .ok (pa, e, u)) :
    u.cur = s.cur ∧ u.rest = s.rest := by
  have lk : ∀ {f : Bool} {v : Nat} {e : Tlb} {u : State}, tlbLookup s f v = some (e, u) → u.cur = s.cur ∧ u.rest = s.rest := by
    intro f v e u h
    unfold tlbLookup at h
    dsimp only at h
    split at h
    · cases h; exact ⟨rfl, rfl⟩
    · split at h
      · cases h
      · cases h; exact ⟨rfl, rfl⟩
  have md : ∀ {s u : State} {e : Tlb}, markDirty s e = .ok u → u.cur = s.cur ∧ u.rest = s.rest := by
    intro s u e h
    unfold markDirty at h
    split at h
    · cases h; exact ⟨rfl, rfl⟩
    · split at h
      · cases h
      · cases h; exact ⟨rfl, rfl⟩
  unfold translate at h
  split at h
  · cases h
  · split at h
    · cases h
    · rename_i hl
      split at h
      · cases h
      · split at h
        · cases h
        · split at h
          · split at h
            · cases h
            · rename_i hm
              cases h
              exact ⟨(md hm).1.trans (lk hl).1, (md hm).2.trans (lk hl).2⟩
          · cases h; exact lk hl

theorem sharedAddr_ok {acc : Access} {p : BitVec 3} {s u : State} {ea : Int} {n : Nat} {e : Tlb} {pa : Nat}
    (h : s.Reaches acc p ea n u e pa) : sharedAddr acc ea n p s = .ok (pa, e, u) := by
  unfold sharedAddr checkEa
  have e1 : (ea % (n : Int) != 0) = false := by simpa using h.aligned
  have e2 : (decide (ea < 0) || decide (ea + n > 2 ^ 56)) = false := by
    have := h.low; have := h.high; simp; omega
  rw [e1, e2]
  simp only [Bool.false_eq_true, if_false, h.xlat, h.package, if_true]

theorem needScope_ok {s : State} {p : BitVec 3} (h : scopeOk s p = true) (i : Instr) : needScope p i s = .ok () := by
  unfold needScope privCheck; rw [if_pos h]

theorem sealReady_ok {s : State} (h1 : badPush s.cur = none) (h2 : sharedPushes s.cur = []) : sealReady s = .ok () := by
  unfold sealReady; rw [h1, h2]; rfl

theorem loadExt_eq (sext : Bool) (k : BitVec 2) (bs : List Byte) : loadExt sext (2 ^ k.toNat) bs = extend sext (2 ^ k.toNat) bs := by
  unfold loadExt extend sextBytes zextBytes
  have : (2:Nat) ^ k.toNat ≠ 0 := by positivity
  rw [if_neg this]

theorem mergeBytes_own (own : List (Option Byte)) : ∀ (z : List Byte), own.all (·.isSome) = true → own.length = z.length → mergeBytes own z = own.map fun x => x.getD 0 := by
  unfold mergeBytes
  induction own with
  | nil => intro z _ _; rfl
  | cons x l ih =>
    intro z h hl
    cases z with
    | nil => cases hl
    | cons y z =>
      simp only [List.all_cons, Bool.and_eq_true] at h
      simp only [List.zip_cons_cons, List.map_cons]
      rw [ih z h.2 (by simpa using hl)]
      cases x with
      | none => cases h.1
      | some v => rfl

theorem ownBytes_length (s : State) (pa n : Nat) : (ownBytes s pa n).length = n := by
  unfold ownBytes bytesOf; simp

theorem chargeAccess_paying (pa n : Nat) (s : State) : chargeAccess pa n s = s.paying (chargeAccess pa n s) := by
  unfold chargeAccess
  split
  · rfl
  · rfl

theorem tasks_map_paid {α : Type} (c : Charge) (s : State) (g : Task → α) (hg : ∀ t, g { t with paid := true } = g t) :
    (s.paidFor c).tasks.map g = s.tasks.map g := by
  unfold State.tasks State.paidFor
  simp only [List.filter_cons]
  split <;> simp [charge, chargeTo, chargeMany, State.onTile, hg]

theorem logFree_paid (c : Charge) (s : State) : logFree (s.paidFor c) = logFree s := by
  unfold logFree logUsed
  rw [tasks_map_paid c s _ (fun _ => rfl)]; rfl

theorem maxScope_eq (a b : BitVec 3) : maxScope a b = if a < b then b else a := rfl

theorem appendAt_room {va pa idx : Nat} {data : List Byte} {p : BitVec 3} {s : State}
    (h : recSize data.length + (if (s.cur.recs.filter fun r => !r.ovf).isEmpty then 32 else 0) ≤ logFree s) :
    appendAt va pa idx data p s = .ok (pushRec { pa := pa, data := data, idx := idx, marked := false, ovf := false } p s) := by
  unfold appendAt
  exact if_pos h

theorem sealRelease_ok {s : State} (h1 : badPush s.cur = none) (h2 : sharedPushes s.cur = []) (p : BitVec 3) :
    sealRelease p s = .ok (s.published p) := by
  unfold sealRelease; rw [sealReady_ok h1 h2]; rfl

theorem chargeOnce_paid' {s : State} (h : s.cur.paid = false) (c : Charge) : chargeOnce c s = s.paid c := chargeOnce_first h c

/-- R333: what a fence marker changes. -/
theorem placeMark_eq (s : State) : placeMark s = { s with
    cur := { s.cur with marks := s.cur.marks + 1 },
    tile := { s.tile with injectMarks :=
      if s.tile.inject.isEmpty then s.tile.injectMarks else s.tile.injectMarks ++ [s.tile.inject.length] } } := by
  unfold placeMark State.onTile State.onCur
  dsimp only
  split <;> rfl

theorem pairParts_off {g : Sealed} {s : State} (h : paired s = false) : pairParts g s = s := pairAll_off h

/-- R235, R246, R333: what a seal does where no pair is compared. -/
theorem sealNow_off {s : State} {p : BitVec 3} (hp : paired s = false) (hc : s.core.segCtr < 2 ^ 40) :
    sealNow p s = { s with
      cur := { s.cur with marks := s.cur.marks + 1, openSeg := s.core.segCtr, recs := [], recCtr := 0, floor := 0, partCtr := 0 },
      core := { s.core with
        sealed := s.core.sealed ++ (if s.cur.recs = [] then [] else
          [{ num := s.cur.openSeg, stamp := s.cur.stamp.toNat, tid := s.cur.tid, origin := s.cur.origin,
             scope := if p < s.cur.floor then s.cur.floor else p, bytes := recBytes s.cur.recs, recs := s.cur.recs, shipped := false,
             parts := [], upTo := s.cur.reqNum, lostIdx := [] }]),
        segCtr := s.core.segCtr + 1 },
      tile := { s.tile with injectMarks :=
        if s.tile.inject.isEmpty then s.tile.injectMarks else s.tile.injectMarks ++ [s.tile.inject.length] } } := by
  have hn : ∀ x : State, x.core.segCtr = s.core.segCtr → nextSeg x = (x.core.segCtr, x.onCore fun c => { c with segCtr := c.segCtr + 1 }) := by
    intro x hx; unfold nextSeg; rw [if_neg (by rw [hx]; omega)]
  unfold sealNow
  dsimp only
  rw [pairParts_off (s := s.onCore _) hp]
  by_cases hr : s.cur.recs = []
  · have hr' : s.cur.recs.isEmpty = true := by rw [hr]; rfl
    rw [if_pos hr', hn _ rfl, if_pos hr, List.append_nil, placeMark_eq]
    rfl
  · have hr' : ¬ s.cur.recs.isEmpty = true := by simpa using hr
    rw [if_neg hr', hn (s.onCore _) rfl, if_neg hr, placeMark_eq]
    rfl

theorem pushHeld_off {s : State} (hp : paired s = false) : pushHeld s =
    (s.onTile fun x => { x with inject := x.inject ++ s.cur.held, injectBy := x.injectBy ++ s.cur.held.map fun _ => (s.cur.tid, s.cur.origin) }).onCur
      fun t => { t with sentOut := t.sentOut + (s.cur.held.filter fun h => match h with | .spawn _ => false | _ => true).length, held := [] } := by
  unfold pushHeld
  exact pairAll_off hp

theorem vcDrop_eq (l : Nat) (v : List VLine) : vcDrop l v = v.filter fun x => x.line ≠ l := by
  unfold vcDrop; congr 1; funext x; simp [bne, Bool.beq_eq_decide_eq]

theorem amoCore_eq (pa : Nat) (aq : Bool) (c : CoreSt) :
    amoCore pa aq c = { c with vcache := if aq then [] else c.vcache.filter fun l => l.line ≠ pa / 64 } := by
  unfold amoCore; rw [vcDrop_eq]; rfl

theorem updCtx_cur {s : State} {p : Task → Bool} (h : p s.cur = true) (f : Task → Task) : s.updCtx p f = s.onCur f := by
  unfold State.updCtx; rw [if_pos h]; rfl

theorem findCtx_cur {s : State} {p : Task → Bool} (h : p s.cur = true) : s.findCtx p = some s.cur := by
  unfold State.findCtx; rw [List.find?_cons, h]

theorem modify_congr {α : Type} {l : List α} {k : Nat} {x : α} {f g : α → α} (h : l[k]? = some x) (e : f x = g x) :
    l.modify k f = l.modify k g := by
  apply List.ext_getElem?
  intro j
  rw [List.getElem?_modify, List.getElem?_modify]
  by_cases hj : k = j
  · subst hj; simp [h, e]
  · simp [hj]

theorem dropLoad_eq (k : Nat) (t : Task) : dropLoad k t = t.loaded k := by
  unfold dropLoad Task.loaded wake
  dsimp only
  by_cases h : t.wait = some .load ∧ t.st = .waitMem
  · rw [if_pos (by simpa using h), if_pos h]; rfl
  · rw [if_neg (by simpa using h), if_neg h]

theorem asFrame_cur {s : State} {frame : Nat} (hf : s.cur.frame = frame) (hs : s.cur.shadow = false) (he : s.cur.st ≠ .ended)
    (f : State → State) : asFrame frame f s = f s := by
  unfold asFrame liveAt
  rw [if_pos]
  rw [hf, hs]; simpa using he

/-- What a context keeps when a field of it is written. -/
theorem put_same (f : Fld) (x : Word) (t : Task) :
    (t.put f x).frame = t.frame ∧ (t.put f x).shadow = t.shadow ∧ (t.put f x).loads = t.loads ∧ (t.put f x).amos = t.amos := by
  unfold Task.put writeS
  split
  · unfold State.ww State.setW State.onCur Task.setW
    dsimp only; split <;> exact ⟨rfl, rfl, rfl, rfl⟩
  · split
    · dsimp only
      split <;> exact ⟨rfl, rfl, rfl, rfl⟩
    · split
      · exact ⟨rfl, rfl, rfl, rfl⟩
      · split
        · exact ⟨rfl, rfl, rfl, rfl⟩
        · dsimp only
          split <;> exact ⟨rfl, rfl, rfl, rfl⟩

/-- The same for a vector field. -/
theorem pushStrip_same (f : Fld) (x : BitVec 512) (sz : Nat) (n : Nat) : ∀ (k : Nat) (s : State),
    (pushStrip f x sz k n s).cur.frame = s.cur.frame ∧ (pushStrip f x sz k n s).cur.shadow = s.cur.shadow ∧
      (pushStrip f x sz k n s).cur.loads = s.cur.loads := by
  induction n with
  | zero => exact fun k s => ⟨rfl, rfl, rfl⟩
  | succ n ih =>
    intro k s
    unfold pushStrip
    dsimp only
    split
    · exact ih _ _
    · split
      · exact ih _ _
      · exact ih _ _

theorem writeV_same (f : Fld) (x : BitVec 512) (s : State) : (writeV f x s).cur.frame = s.cur.frame ∧
    (writeV f x s).cur.shadow = s.cur.shadow ∧ (writeV f x s).cur.loads = s.cur.loads := by
  unfold writeV
  split
  · exact ⟨rfl, rfl, rfl⟩
  · split
    · exact ⟨rfl, rfl, rfl⟩
    · exact pushStrip_same _ _ _ _ _ _

theorem intOf_toInt (n : Nat) (hn : 0 < n) (x : BitVec n) : intOf n x.toNat = x.toInt := by
  unfold intOf
  dsimp only
  rw [Nat.mod_eq_of_lt x.isLt, BitVec.toInt_eq_toNat_cond]
  have h2 : (2:Nat) ^ n = 2 * 2 ^ (n - 1) := by rw [← Nat.pow_succ']; congr 1; omega
  have : (x.toNat < 2 ^ (n - 1)) ↔ (2 * x.toNat < 2 ^ n) := by omega
  by_cases h : x.toNat < 2 ^ (n - 1)
  · rw [if_pos h, if_pos (this.mp h)]
  · rw [if_neg h, if_neg (fun g => h (this.mpr g))]; push_cast; rfl

theorem amoNew_eq (op : BitVec 4) (n : Nat) (hn : 0 < n) (old v e : BitVec n) :
    BitVec.ofNat n (amoNew op n old.toNat v.toNat e.toNat) = atomicNew op old v e := by
  have hs : ∀ x y : BitVec n, (intOf n x.toNat ≤ intOf n y.toNat) ↔ ¬ (y.slt x = true) := by
    intro x y; rw [intOf_toInt n hn, intOf_toInt n hn, BitVec.slt]; simp
  have hlt : ∀ x y : BitVec n, (x < y) ↔ x.toNat < y.toNat := fun _ _ => Iff.rfl
  unfold amoNew atomicNew
  generalize op.toNat = k
  match k with
  | 0 => apply BitVec.eq_of_toNat_eq; simp [BitVec.toNat_add]
  | 1 => apply BitVec.eq_of_toNat_eq; simp only [BitVec.toNat_ofNat, BitVec.toNat_and]; rw [Nat.mod_eq_of_lt]; rw [← BitVec.toNat_and]; exact (old &&& v).isLt
  | 2 => apply BitVec.eq_of_toNat_eq; simp only [BitVec.toNat_ofNat, BitVec.toNat_or]; rw [Nat.mod_eq_of_lt]; rw [← BitVec.toNat_or]; exact (old ||| v).isLt
  | 3 => apply BitVec.eq_of_toNat_eq; simp only [BitVec.toNat_ofNat, BitVec.toNat_xor]; rw [Nat.mod_eq_of_lt]; rw [← BitVec.toNat_xor]; exact (old ^^^ v).isLt
  | 4 =>
    show BitVec.ofNat n (if intOf n old.toNat ≤ intOf n v.toNat then old.toNat else v.toNat) = if v.slt old then v else old
    by_cases h : v.slt old = true
    · rw [if_neg (by rw [hs]; simpa using h), if_pos h, BitVec.ofNat_toNat, BitVec.setWidth_eq]
    · rw [if_pos (by rw [hs]; exact h), if_neg h, BitVec.ofNat_toNat, BitVec.setWidth_eq]
  | 5 =>
    show BitVec.ofNat n (if intOf n v.toNat ≤ intOf n old.toNat then old.toNat else v.toNat) = if old.slt v then v else old
    by_cases h : old.slt v = true
    · rw [if_neg (by rw [hs]; simpa using h), if_pos h, BitVec.ofNat_toNat, BitVec.setWidth_eq]
    · rw [if_pos (by rw [hs]; exact h), if_neg h, BitVec.ofNat_toNat, BitVec.setWidth_eq]
  | 6 =>
    show BitVec.ofNat n (Nat.min old.toNat v.toNat) = if v < old then v else old
    by_cases h : v < old
    · rw [if_pos h]; rw [hlt] at h
      rw [show Nat.min old.toNat v.toNat = v.toNat from Nat.min_eq_right (by omega), BitVec.ofNat_toNat, BitVec.setWidth_eq]
    · rw [if_neg h]; rw [hlt] at h
      rw [show Nat.min old.toNat v.toNat = old.toNat from Nat.min_eq_left (by omega), BitVec.ofNat_toNat, BitVec.setWidth_eq]
  | 7 =>
    show BitVec.ofNat n (Nat.max old.toNat v.toNat) = if old < v then v else old
    by_cases h : old < v
    · rw [if_pos h]; rw [hlt] at h
      rw [show Nat.max old.toNat v.toNat = v.toNat from Nat.max_eq_right (by omega), BitVec.ofNat_toNat, BitVec.setWidth_eq]
    · rw [if_neg h]; rw [hlt] at h
      rw [show Nat.max old.toNat v.toNat = old.toNat from Nat.max_eq_left (by omega), BitVec.ofNat_toNat, BitVec.setWidth_eq]
  | 8 => show BitVec.ofNat n v.toNat = v; rw [BitVec.ofNat_toNat, BitVec.setWidth_eq]
  | 9 =>
    show BitVec.ofNat n (if old.toNat = e.toNat then v.toNat else old.toNat) = if old = e then v else old
    by_cases h : old = e
    · rw [if_pos (by rw [h]), if_pos h, BitVec.ofNat_toNat, BitVec.setWidth_eq]
    · rw [if_neg (fun g => h (BitVec.eq_of_toNat_eq g)), if_neg h, BitVec.ofNat_toNat, BitVec.setWidth_eq]
  | k + 10 => rfl

theorem byte_of_word (w n k : Nat) (hk : k < n) : BitVec.ofNat 8 (w / 256 ^ k) = (BitVec.ofNat (8 * n) w).extractLsb' (8 * k) 8 := by
  ext i hi
  rw [BitVec.getElem_extractLsb', BitVec.getLsbD_ofNat, ← BitVec.getLsbD_eq_getElem hi, BitVec.getLsbD_ofNat]
  have h1 : 8 * k + i < 8 * n := by omega
  have h2 : (256:Nat) ^ k = 2 ^ (8 * k) := by rw [Nat.pow_mul]
  rw [h2, ← Nat.shiftRight_eq_div_pow, Nat.testBit_shiftRight]
  simp [h1, hi]

theorem memGetN_length (m : List Host.Cell) (a n : Nat) : (memGetN m a n).length = n := by
  induction n generalizing a with
  | zero => rfl
  | succ n ih => simp [memGetN, ih]

theorem acted_onCur (what : PairWhat) (s : State) (f : Task → Task) : acted what (s.onCur f) = (acted what s).onCur f := by
  unfold acted
  have : paired (s.onCur f) = paired s := rfl
  rw [this]; split <;> rfl

theorem acted_cur (what : PairWhat) (s : State) : (acted what s).cur = s.cur := by unfold acted; split <;> rfl

theorem acted_home (what : PairWhat) (s : State) (h : HomeSt) :
    acted what { s with home := h } = { acted what s with home := h } := by
  unfold acted
  have : paired { s with home := h } = paired s := rfl
  rw [this]; split <;> rfl

theorem tabGet?_tabSet_same {α : Type} (t : Tab α) (k : Nat) (x : α) : tabGet? (tabSet t k x) k = some x := by
  induction t with
  | nil => simp [tabSet, tabGet?]
  | cons p r ih =>
    obtain ⟨j, y⟩ := p
    unfold tabSet
    split
    · simp [tabGet?]
    · split
      · simp [tabGet?]
      · rename_i h1 h2
        have : ¬ j = k := fun e => h2 e.symm
        simp [tabGet?, this]; exact ih

theorem memPutN_read {m : List Host.Cell} (h : Memory.wf m = true) (a : Nat) (bs : List Byte) (x : Nat) :
    memGet (memPutN m a bs) x = if a ≤ x ∧ x < a + bs.length then bs.getD (x - a) 0 else memGet m x := by
  by_cases hx : a ≤ x ∧ x < a + bs.length
  · rw [if_pos hx]
    obtain ⟨j, rfl⟩ : ∃ j, x = a + j := ⟨x - a, by omega⟩
    have hj : j < bs.length := by omega
    rw [memGet_memPutN_inside _ _ _ h hj, show a + j - a = j by omega, List.getD_eq_getElem _ _ hj]
  · rw [if_neg hx]; exact memGet_memPutN_outside _ _ _ h (by omega)

theorem chargePart_paying (p : SegPart) (s : State) : chargePart p s = s.paying (chargePart p s) := by
  unfold chargePart; split <;> rfl

theorem chargeParts_paying (ps : List SegPart) : ∀ s : State, ps.foldl (fun s p => chargePart p s) s = s.paying (ps.foldl (fun s p => chargePart p s) s) := by
  induction ps with
  | nil => intro s; rfl
  | cons p ps ih =>
    intro s
    rw [List.foldl_cons, ih, chargePart_paying]; rfl

theorem beq_iff_if {α : Type} (x y : Nat) (a b : α) : (if (x == y) = true then a else b) = if x = y then a else b := by
  by_cases h : x = y <;> simp [h]

/-- How the cores an ACQ names are read. -/
theorem named_acq {s : State} {i : Instr} {p : BitVec 3} {names : List (BitVec 13)} (h : s.named i = some (p, names)) :
    ∃ f, exec i s = finish (acqSet i p f s) ∧ f s = .ok names := by
  unfold State.named at h
  split at h
  · split at h
    · cases h
    · rename_i hb
      cases h
      exact ⟨_, rfl, by rw [needRegs1 (by simpa using hb)]⟩
  · split at h
    · cases h
    · rename_i hb
      cases h
      simp only [Bool.or_eq_true, not_or, Bool.not_eq_true] at hb
      exact ⟨_, rfl, by rw [needRegs2 hb.1 hb.2]⟩
  · split at h
    · cases h
    · rename_i b c p hb
      simp only [Bool.or_eq_true, not_or, Bool.not_eq_true] at hb
      split at h
      · rename_i hc
        split at h
        · rename_i ws hw
          cases h
          refine ⟨_, rfl, ?_⟩
          show acqBitmap b c s = _
          unfold acqBitmap
          rw [needRegs2 hb.1 hb.2]
          dsimp only
          have e1 : (decide (s.rw c < 1) || decide (s.rw c > 128)) = false := by
            simp only [Bool.or_eq_false_iff, decide_eq_false_iff_not, BitVec.lt_def, gt_iff_lt]
            have : (1 : Word).toNat = 1 := rfl
            have : (128 : Word).toNat = 128 := rfl
            omega
          rw [e1, if_neg (by decide), if_neg (by simp [hc.2.2.1]), if_neg (by omega), hw]
        · cases h
      · cases h
  · cases h

theorem vcDropAll_eq (l : List Nat) (v : List VLine) : vcDropAll l v = v.filter fun x => !l.contains x.line := rfl

theorem fenceStatus_eq (t : Task) (b : Bool) : fenceStatus t b = fenceWord t b := by
  unfold fenceStatus fenceWord
  apply BitVec.eq_of_toNat_eq
  have hm : Nat.min t.fails 0xFFFF ≤ 65535 := Nat.min_le_right _ _
  have hm' : Nat.min t.fails 0xFFFF = Min.min t.fails 65535 := rfl
  simp only [BitVec.toNat_append, BitVec.toNat_ofNat, BitVec.toNat_ofBool, BitVec.toNat_zero]
  rw [← hm', Nat.mod_eq_of_lt (by omega : Nat.min t.fails 0xFFFF < 2 ^ 16)]
  generalize Nat.min t.fails 0xFFFF = m at hm
  have e : ∀ x y k : Nat, y < 2 ^ k → x <<< k ||| y = x * 2 ^ k + y := by
    intro x y k h; rw [Nat.shiftLeft_eq, Nat.mul_comm, Nat.two_pow_add_eq_or_of_lt h]
  have hb : ∀ x : Bool, x.toNat < 2 ^ 1 := by intro x; cases x <;> decide
  rw [e _ _ 1 (hb _), e _ _ 1 (hb _), e _ _ 1 (hb _), e _ _ 1 (hb _), e _ _ 44 (by decide)]
  have h1 := hb b; have h2 := hb t.failBig; have h3 := hb t.failRefused; have h4 := hb t.failDead
  omega

theorem fenceEnd_eq (d : Fld) (b : Bool) (s : State) : retire (fenceEnd d b s) = (s.fenced d b).retired := by
  unfold fenceEnd State.fenced State.retired
  dsimp only
  rw [fenceStatus_eq, writeS_put]
  by_cases h : fenceWord s.cur b = 0
  · rw [if_pos h, if_neg (by simp [h])]
  · rw [if_neg h, if_pos (by simpa using h)]

/-- A state that differs from another in nothing that its operands' reading touches, but for packets that are no credits. -/
structure Beyond (s u : State) : Prop where
  streams : u.cur.streams = s.cur.streams
  qs : u.cur.qs = s.cur.qs
  q0 : u.cur.q0 = s.cur.q0
  chan : u.core.chan = s.core.chan
  inbox : u.core.inbox = s.core.inbox
  out : ∃ l, u.home.out = s.home.out ++ l ∧ sentWork l = l

theorem Beyond.refl (s : State) : Beyond s s := ⟨rfl, rfl, rfl, rfl, rfl, [], by simp, rfl⟩

theorem Beyond.of {s u : State} (h1 : u.cur = s.cur) (h4 : u.core.chan = s.core.chan) (h5 : u.core.inbox = s.core.inbox)
    (h6 : u.home.out = s.home.out) : Beyond s u :=
  ⟨by rw [h1], by rw [h1], by rw [h1], h4, h5, [], by rw [h6]; simp, rfl⟩

theorem Beyond.trans {s t u : State} (h : Beyond s t) (g : Beyond t u) : Beyond s u := by
  obtain ⟨l, l1, l2⟩ := h.out
  obtain ⟨m, m1, m2⟩ := g.out
  refine ⟨g.streams.trans h.streams, g.qs.trans h.qs, g.q0.trans h.q0, g.chan.trans h.chan, g.inbox.trans h.inbox, l ++ m, ?_, ?_⟩
  · rw [m1, l1, List.append_assoc]
  · unfold sentWork at *; rw [List.filter_append, l2, m2]

theorem Beyond.untake {s u : State} (h : Beyond s u) : s.untake u = u := by
  obtain ⟨l, l1, l2⟩ := h.out
  have : s.home.out ++ (sentWork u.home.out).drop (sentWork s.home.out).length = u.home.out := by
    have e : sentWork (s.home.out ++ l) = sentWork s.home.out ++ l := by
      conv => rhs; rw [← l2]
      unfold sentWork; rw [List.filter_append]
    rw [l1, e, List.drop_left]
  unfold State.untake
  rw [this, ← h.streams, ← h.qs, ← h.q0, ← h.chan, ← h.inbox]

theorem translate_beyond {acc : Access} {va : Nat} {s u : State} {pa : Nat} {e : Tlb} (h : translate acc va s = .ok (pa, e, u)) :
    Beyond s u := by
  have lk : ∀ {f : Bool} {v : Nat} {e : Tlb} {u : State}, tlbLookup s f v = some (e, u) → Beyond s u := by
    intro f v e u h
    unfold tlbLookup at h
    dsimp only at h
    split at h
    · cases h; exact Beyond.of rfl rfl rfl rfl
    · split at h
      · cases h
      · cases h; split <;> exact Beyond.of rfl rfl rfl rfl
  have md : ∀ {v u : State} {e : Tlb}, Beyond s v → markDirty v e = .ok u → Beyond s u := by
    intro v u e hv h
    unfold markDirty at h
    split at h
    · cases h; exact hv
    · split at h
      · cases h
      · cases h; exact hv.trans (Beyond.of rfl rfl rfl rfl)
  unfold translate at h
  split at h
  · cases h
  · split at h
    · cases h
    · rename_i hl
      split at h
      · cases h
      · split at h
        · cases h
        · split at h
          · split at h
            · cases h
            · rename_i hm
              cases h
              exact md (lk hl) hm
          · cases h; exact lk hl

theorem translate_untake {acc : Access} {va : Nat} {s u : State} {pa : Nat} {e : Tlb} (h : translate acc va s = .ok (pa, e, u)) :
    s.untake u = u := (translate_beyond h).untake

theorem translateAt_beyond {acc : Access} {p : BitVec 3} {va : Nat} {s u : State} {pa : Nat} {e : Tlb}
    (h : translateAt acc p va s = .ok (pa, e, u)) : Beyond s u := by
  unfold translateAt at h
  split at h
  · cases h
  · rename_i ht
    split at h
    · cases h; exact translate_beyond ht
    · cases h

theorem translateAt_cur {acc : Access} {p : BitVec 3} {va : Nat} {s u : State} {pa : Nat} {e : Tlb}
    (h : translateAt acc p va s = .ok (pa, e, u)) : u.cur = s.cur := by
  unfold translateAt at h
  split at h
  · cases h
  · rename_i ht
    split at h
    · cases h; exact (translate_cur ht).1
    · cases h

theorem homePut_out (h : HomeSt) (pa : Nat) (bs : List Byte) : (homePut h pa bs).out = h.out := rfl

theorem home_only {s u : State} {g : HomeSt} (h : ({ s with home := g } : State) = u) (e : g.out = s.home.out) :
    u.cur = s.cur ∧ u.core = s.core ∧ u.home.out = s.home.out := by
  rw [← h]; exact ⟨rfl, rfl, e⟩

theorem errWrite_out {b : List Byte} {s u : State} (h : errWrite b s = some u) : u.cur = s.cur ∧ u.core = s.core ∧ u.home.out = s.home.out := by
  unfold errWrite at h
  split at h
  · cases h
  · split at h
    · rw [← Option.some.inj h]; exact ⟨rfl, rfl, rfl⟩
    · split at h
      · rw [← Option.some.inj h]; exact ⟨rfl, rfl, rfl⟩
      · dsimp only at h
        split at h
        · exact home_only (Option.some.inj h) (by simp only [homePut_out])
        · split at h
          · cases h
          · split at h
            · exact home_only (Option.some.inj h) (by simp only [homePut_out])
            · split at h
              · exact home_only (Option.some.inj h) (by simp only [homePut_out])
              · exact home_only (Option.some.inj h) (by simp only [homePut_out])

theorem errEntry_out (b : List Byte) (s : State) : (errEntry b s).cur = s.cur ∧ (errEntry b s).core = s.core ∧ (errEntry b s).home.out = s.home.out := by
  unfold errEntry
  dsimp only
  split
  · exact ⟨rfl, rfl, rfl⟩
  · split
    · cases h : errWrite b (errCount 1 s) with
      | none => exact ⟨rfl, rfl, rfl⟩
      | some u =>
        obtain ⟨a, b, c⟩ := errWrite_out h
        exact ⟨a, b, c⟩
    · exact ⟨rfl, rfl, rfl⟩

theorem nextSeg_beyond (v : State) : Beyond v (nextSeg v).2 := by
  unfold nextSeg
  split
  · obtain ⟨a, b, c⟩ := errEntry_out (errEntryBytes 5 (BitVec.ofNat 8 v.cur.redel) 0 0 v.core.id v.cur.tid 0 0) v
    exact Beyond.of a (congrArg CoreSt.chan b) (congrArg CoreSt.inbox b) c
  · exact Beyond.of rfl rfl rfl rfl

theorem placeMark_beyond (s : State) : Beyond s (placeMark s) := by
  rw [placeMark_eq]; exact ⟨rfl, rfl, rfl, rfl, rfl, [], by simp, rfl⟩

theorem pairRelease_beyond (w : PairWhat) (t : Word) (o : BitVec 13) (bs : List Byte) (s : State) : Beyond s (pairRelease w t o bs s) := by
  unfold pairRelease
  split
  · exact Beyond.refl s
  · exact ⟨rfl, rfl, rfl, rfl, rfl, [.pairHash (crc64 bs)], rfl, rfl⟩

theorem pairAll_beyond (t : Word) (o : BitVec 13) (l : List (PairWhat × List Byte)) : ∀ s : State, Beyond s (pairAll t o l s) := by
  induction l with
  | nil => exact Beyond.refl
  | cons x l ih => intro s; exact (pairRelease_beyond x.1 t o x.2 s).trans (ih _)

theorem releaseHeld_beyond (s : State) : Beyond s (releaseHeld s) := by
  unfold releaseHeld
  split
  · exact Beyond.refl s
  · refine Beyond.trans ?_ (placeMark_beyond _)
    unfold pushHeld
    refine Beyond.trans ?_ (pairAll_beyond _ _ _ _)
    exact ⟨rfl, rfl, rfl, rfl, rfl, [], by simp [State.onCur, State.onTile], rfl⟩

theorem sealNow_beyond (p : BitVec 3) (s : State) : Beyond s (sealNow p s) := by
  unfold sealNow
  dsimp only
  generalize hv : (if s.cur.recs.isEmpty = true then s else _) = v
  have e : Beyond s v := by
    rw [← hv]; split
    · exact Beyond.refl s
    · refine Beyond.trans ?_ (pairAll_beyond _ _ _ _)
      exact Beyond.of rfl rfl rfl rfl
  refine (e.trans (nextSeg_beyond v)).trans ?_
  refine (placeMark_beyond (nextSeg v).2).trans ?_
  exact ⟨rfl, rfl, rfl, rfl, rfl, [], by simp [State.onCur], rfl⟩

theorem published_beyond (p : BitVec 3) (s : State) : Beyond s (s.published p) := by
  unfold State.published
  refine ((sealNow_beyond p s).trans (releaseHeld_beyond _)).trans ?_
  exact ⟨rfl, rfl, rfl, rfl, rfl, [], by simp [State.onCur], rfl⟩

theorem paid_beyond (c : Charge) (s : State) : Beyond s (s.paid c) := ⟨rfl, rfl, rfl, rfl, rfl, [], by simp [State.paid, State.onCur, charge, chargeTo, chargeMany, State.onTile], rfl⟩

/-- A fence taken up again. -/
theorem fence_waits (i : Instr) (d : Fld) (p : BitVec 3) (s : State) (n : Nat) (hsc : scopeOk s p = true)
    (htk : takeS [] [d] s = .ok ([], s)) (hw : s.cur.wait = some (.fence n none)) :
    fence i d p none s = (fenceWait d none n s).mapError (·.back s) := by
  unfold fence
  rw [needScope_ok hsc]
  dsimp only
  rw [show needRegs [] s = .ok () from rfl]
  dsimp only
  rw [htk]
  dsimp only
  rw [hw]

theorem fence_waitsF (i : Instr) (d b c : Fld) (p : BitVec 3) (s : State) (v : Word) (n : Nat) (f : Option (Nat × Word)) (hsc : scopeOk s p = true)
    (hb : wBusy s.cur b = false) (htk : takeS [c] [d] s = .ok ([v], s)) (hw : s.cur.wait = some (.fence n f)) :
    fence i d p (some (b, c)) s = (fenceWait d f n s).mapError (·.back s) := by
  unfold fence
  rw [needScope_ok hsc]
  dsimp only
  rw [needRegs1 hb]
  dsimp only
  rw [htk]
  dsimp only
  rw [hw]

theorem fence_starts (d : Fld) (p : BitVec 3) (s : State) (hsc : scopeOk s p = true) (htk : takeS [] [d] s = .ok ([], s)) (hs : s.starts)
    (h1 : badPush s.cur = none) (h2 : sharedPushes s.cur = []) :
    fence (.fence d p) d p none s = (fenceWait d none s.cur.openSeg ((s.paid .ord).published p)).mapError (·.back s) := by
  unfold fence
  rw [needScope_ok hsc]
  dsimp only
  rw [show needRegs [] s = .ok () from rfl]
  dsimp only
  rw [htk]
  dsimp only
  rw [hs.2.1]
  dsimp only
  unfold flagOf
  dsimp only
  rw [chargeOnce_paid' hs.2.2, sealRelease_ok (s := s.paid .ord) h1 h2]
  rfl

theorem flagAddr_ok {b : Fld} {p : BitVec 3} {s w : State} {pa : Nat} {e : Tlb} (ha : (s.rw b).toNat % 8 = 0) (hr : (s.rw b).toNat < 2 ^ 56)
    (ht : translateAt .amo p (s.rw b).toNat s = .ok (pa, e, w)) : flagAddr b p s = .ok (pa, w) := by
  unfold flagAddr; dsimp only
  rw [if_neg (by simp [ha]), if_neg (by omega), ht]

theorem fence_startsF (i : Instr) (d b c : Fld) (p : BitVec 3) (s w : State) (v : Word) (pa : Nat) (e : Tlb) (hsc : scopeOk s p = true)
    (hb : wBusy s.cur b = false) (htk : takeS [c] [d] s = .ok ([v], s)) (hs : s.starts) (h1 : badPush s.cur = none)
    (h2 : sharedPushes s.cur = []) (ha : (s.rw b).toNat % 8 = 0) (hr : (s.rw b).toNat < 2 ^ 56)
    (ht : translateAt .amo p (s.rw b).toNat s = .ok (pa, e, w)) :
    fence i d p (some (b, c)) s = (fenceWait d (some (pa, v)) s.cur.openSeg ((w.paid .ord).published p)).mapError (·.back s) := by
  have hc := translateAt_cur ht
  unfold fence
  rw [needScope_ok hsc]
  dsimp only
  rw [needRegs1 hb]
  dsimp only
  rw [htk]
  dsimp only
  rw [hs.2.1]
  dsimp only
  unfold flagOf
  dsimp only
  rw [flagAddr_ok ha hr ht]
  dsimp only
  rw [chargeOnce_paid' (by rw [hc]; exact hs.2.2), sealRelease_ok (s := w.paid .ord) (by show badPush w.cur = _; rw [hc]; exact h1)
    (by show sharedPushes w.cur = _; rw [hc]; exact h2)]
  dsimp only
  unfold lastSealed
  rw [hc]
  rfl

theorem fenceWait_done {d : Fld} {n : Nat} {s : State} (h : fenceDone s n = true) : fenceWait d none n s = .ok (fenceEnd d false s) := by
  unfold fenceWait; rw [h]; rfl

theorem fenceWait_failed {d : Fld} {x : Nat × Word} {n : Nat} {s : State} (h : fenceDone s n = true) (hf : anyFail s.cur = true) :
    fenceWait d (some x) n s = .ok (fenceEnd d true s) := by
  unfold fenceWait; rw [h]; dsimp only; rw [hf]; rfl

theorem fenceWait_flag {d : Fld} {v : Word} {n pa : Nat} {s : State} (h : fenceDone s n = true) (hf : anyFail s.cur = false) :
    fenceWait d (some (pa, v)) n s = .error (.wait .waitMem (.flag n pa v false)
      (pairCur (.flag s.cur.tid s.cur.origin) (leBytes 8 pa ++ leBytes 8 v.toNat) s)) := by
  unfold fenceWait; rw [h]; dsimp only; rw [hf]; rfl

theorem fenceWait_waits {d : Fld} {f : Option (Nat × Word)} {n : Nat} {s : State} (h : fenceDone s n = false) :
    fenceWait d f n s = .error (.wait .waitMem (.fence n f) s) := by
  unfold fenceWait; rw [h]; rfl

theorem word2 (a b : Nat) (ha : a ≤ 65535) (hb : b < 2 ^ 40) :
    (0#8 ++ BitVec.ofNat 16 a ++ BitVec.ofNat 40 b : BitVec 64) = BitVec.ofNat 64 (a * 2 ^ 40 + b) := by
  apply BitVec.eq_of_toNat_eq
  simp only [BitVec.toNat_append, BitVec.toNat_ofNat]
  rw [Nat.mod_eq_of_lt (by omega : a < 2 ^ 16), Nat.mod_eq_of_lt (by omega : b < 2 ^ 40)]
  have e : ∀ x y k : Nat, y < 2 ^ k → x <<< k ||| y = x * 2 ^ k + y := by
    intro x y k h; rw [Nat.shiftLeft_eq, Nat.mul_comm, Nat.two_pow_add_eq_or_of_lt h]
  rw [e _ _ 16 (by omega), e _ _ 40 (by omega)]
  omega

/-- R256: QFENCE at its end, on a state that differs from another in its meter, its marks and its notes of issue alone. -/
theorem qfence_ends {s v : State} {mask : Word} {b : Fld} (hrun : exec (.qfence b) s = finish (qfenceGo mask v)) (c1 : v.core = s.core)
    (c2 : v.cur.wrote = s.cur.wrote) (c3 : v.cur.recs = s.cur.recs) (c4 : v.cur.openSeg = s.cur.openSeg) (c5 : v.cur.pc = s.cur.pc)
    (c6 : v.cur.stamp = s.cur.stamp) (c7 : v.cur.tid = s.cur.tid ∧ v.cur.origin = s.cur.origin)
    (hq : ∀ q < 16, mask.getLsbD q = true → queueBusy s q = false) :
    let lines := (s.cur.wrote.filter fun w => mask.getLsbD w.1).map fun w => w.2.1 / 8
    ∃ t, exec (.qfence b) s = .next t ∧ t.core.vcache = s.core.vcache.filter (fun l => !lines.contains l.line) ∧
      t.cur.wrote = s.cur.wrote.filter (fun w => !mask.getLsbD w.1) ∧ t.cur.pc = s.cur.pc + 4 ∧
      t.cur.recs = s.cur.recs.map (markRec s ((s.cur.wrote.filter fun w => mask.getLsbD w.1).map (·.2)) s.cur.openSeg) := by
  intro lines
  have hb : ∀ q, queueBusy v q = queueBusy s q := by
    intro q; unfold queueBusy sameTask; rw [c1, c7.1, c7.2]
  have hm : ∀ m k, markRec v m k = markRec s m k := by
    intro m k; funext r; unfold markRec recKey; rw [c1, c6]
  have hrun' : exec (.qfence b) s = .next (retire (advance (qfenceEnd mask v))) := by
    rw [hrun]; unfold qfenceGo
    rw [if_pos]
    · rfl
    · unfold busyQueues
      rw [List.isEmpty_iff, List.filter_eq_nil_iff]
      intro q hq'
      have : q < 16 := List.mem_range.mp hq'
      by_cases h : mask.getLsbD q = true
      · simp [hb, hq q this h]
      · simp [h]
  refine ⟨_, hrun', ?_, ?_, ?_, ?_⟩
  · show vcDropAll _ v.core.vcache = _
    rw [c1, c2, List.map_map]; rfl
  · show List.filter _ v.cur.wrote = _
    rw [c2]
  · show v.cur.pc + 4 = _
    rw [c5]
  · show List.map (markRec v _ v.cur.openSeg) v.cur.recs = _
    rw [hm, c3, c4, c2]

theorem phase_gone (a : BitVec 16) (x : Word) : (a - x.extractLsb' 0 16).toNat = (a.toNat + 65536 - x.toNat % 65536) % 65536 := by
  rw [BitVec.toNat_sub]
  have : (x.extractLsb' 0 16).toNat = x.toNat % 65536 := by simp [BitVec.extractLsb'_toNat]
  rw [this]
  congr 1
  have := Nat.mod_lt x.toNat (show 0 < 65536 by decide)
  have := a.isLt
  omega

theorem bar_word (b : Bar) : b.word = BitVec.ofNat 64 (b.init.toNat * 2 ^ 63 + b.ring.toNat * 2 ^ 62 + b.count.toNat * 2 ^ 32 + b.arr.toNat * 2 ^ 16 + b.phase.toNat) := by
  unfold Bar.word
  apply BitVec.eq_of_toNat_eq
  simp only [BitVec.toNat_append, BitVec.toNat_ofNat, BitVec.toNat_ofBool]
  have e : ∀ x y k : Nat, y < 2 ^ k → x <<< k ||| y = x * 2 ^ k + y := by
    intro x y k h; rw [Nat.shiftLeft_eq, Nat.mul_comm, Nat.two_pow_add_eq_or_of_lt h]
  have hb : ∀ x : Bool, x.toNat < 2 ^ 1 := by intro x; cases x <;> decide
  have h1 := hb b.init; have h2 := hb b.ring; have h3 := b.count.isLt; have h4 := b.arr.isLt; have h5 := b.phase.isLt
  rw [e _ _ 1 h2, e _ _ 18 (by decide), e _ _ 12 h3, e _ _ 4 (by decide), e _ _ 12 h4, e _ _ 16 h5]
  omega

end Sys2Proof.Machine
end

