-- ==== Sys2Proof/Laws/Sending.lean ====
section
/-! SUPPORT. Sends, migration, streams and the engine queues at issue (R223, R272, R311, R314). -/

namespace Sys2Proof.Machine

theorem needRegs4 {s : State} {a b c d : Fld} (h : wBusy s.cur a = false) (g : wBusy s.cur b = false) (k : wBusy s.cur c = false)
    (l : wBusy s.cur d = false) : needRegs [a, b, c, d] s = .ok () := by
  unfold needRegs; simp [h, g, k, l, wLoading_off h, wLoading_off g, wLoading_off k, wLoading_off l]

theorem dest_fields (d : Word) : (d.extractLsb' 20 44 != 0 || d.extractLsb' 13 3 != 0) = decide (2 ^ 20 ≤ d.toNat ∨ 2 ^ 13 ≤ d.toNat % 2 ^ 16) := by
  have h := d.isLt
  have e1 : (d.extractLsb' 20 44 != 0) = decide (2 ^ 20 ≤ d.toNat) := by
    rw [Bool.eq_iff_iff, decide_eq_true_eq, bne_iff_ne, Ne, ← BitVec.toNat_inj, BitVec.extractLsb'_toNat, Nat.shiftRight_eq_div_pow]
    show ¬ (d.toNat / 2 ^ 20 % 2 ^ 44 = 0) ↔ _
    omega
  have e2 : (d.extractLsb' 13 3 != 0) = decide (2 ^ 13 ≤ d.toNat % 2 ^ 16) := by
    rw [Bool.eq_iff_iff, decide_eq_true_eq, bne_iff_ne, Ne, ← BitVec.toNat_inj, BitVec.extractLsb'_toNat, Nat.shiftRight_eq_div_pow]
    show ¬ (d.toNat / 2 ^ 13 % 2 ^ 3 = 0) ↔ _
    omega
  rw [e1, e2, Bool.decide_or]

theorem checkSend_eq (s : State) (d h st : Word) : checkSend d h st s = match sendTrap s d h st with | none => .ok () | some (c, v) => trapR c v s := by
  unfold checkSend sendTrap checkHandler
  dsimp only
  rw [dest_fields]
  show (if decide (2 ^ 20 ≤ d.toNat ∨ 2 ^ 13 ≤ d.toNat % 2 ^ 16) = true then _ else _) = _
  simp only [decide_eq_true_eq]
  split
  · rfl
  · rename_i h1
    unfold destCore destCls
    cases h2 : inPartition s (tileOf (d.extractLsb' 0 13)) with
    | false => rfl
    | true =>
      cases h3 : hasLink s (tileOf (d.extractLsb' 0 13)) (d.extractLsb' 16 4) with
      | false => rfl
      | true =>
        simp only [Bool.not_true, Bool.false_eq_true, if_false, Bool.true_eq_false]
        by_cases h4 : h.toNat % 4 = 0
        · have e : (h.toNat % 4 != 0) = false := by simpa using h4
          rw [e, if_neg (Bool.false_ne_true), if_neg (show ¬ (h.toNat % 4 ≠ 0) from not_not.mpr h4)]
          by_cases h5 : 2 ^ 56 ≤ h.toNat
          · rw [if_pos h5, if_pos h5]; rfl
          · rw [if_neg h5, if_neg h5]
            simp only [Bool.or_eq_true, decide_eq_true_eq, show inf48 = 2 ^ 48 - 1 from rfl]
            by_cases h6 : 2 ^ 48 - 1 ≤ st.toNat ∨ st.toNat < satAdd s.cur.stamp.toNat ((lahOf s (d.extractLsb' 16 4)).getD 0)
            · rw [if_pos h6, if_pos h6]; rfl
            · rw [if_neg h6, if_neg h6]
        · have e : (h.toNat % 4 != 0) = true := by simpa using h4
          simp only [e, h4, ne_eq, not_false_eq_true, if_true]; rfl

theorem migrateTo_start {s : State} (hw : s.cur.wait = none) (h1 : badPush s.cur = none) (h2 : sharedPushes s.cur = []) (dest : Option (BitVec 13)) (pc : BitVec 56) :
    migrateTo dest pc s = migrateGo s.cur.openSeg dest pc { s.published (defaultScope s) with fresh := (s.published (defaultScope s)).fresh + 1 } := by
  unfold migrateTo
  rw [hw]
  dsimp only
  rw [sealRelease_ok h1 h2]
  rfl

theorem migrateGo_ready {n : Nat} {s : State} (h1 : segsAcked s n = true) (h2 : written s.cur = true) (dest : Option (BitVec 13)) (pc : BitVec 56) :
    migrateGo n dest pc s = match dest with
      | none => .ok (s.onCur fun t => { t with pc := pc })
      | some d => if d == s.core.id then .ok (s.onCur fun t => { t with pc := pc }) else leave n d pc s := by
  unfold migrateGo; rw [h1, h2]; rfl

theorem leave_may {n : Nat} {s : State} (h : mayAct (.mig s.cur.tid s.cur.origin) s = true) (d : BitVec 13) (pc : BitVec 56) :
    leave n d pc s = .ok (sendMigration d pc (acted (.mig s.cur.tid s.cur.origin) s)) := by
  unfold leave; dsimp only; rw [if_pos h]

theorem pairAll_id (tid : Word) (o : BitVec 13) (l : List (PairWhat × List Byte)) : ∀ s : State, (pairAll tid o l s).core.id = s.core.id := by
  induction l with
  | nil => intro s; rfl
  | cons x l ih =>
    intro s
    have e : (pairRelease x.1 tid o x.2 s).core.id = s.core.id := by unfold pairRelease; split <;> rfl
    exact (ih _).trans e

theorem placeMark_core (s : State) : (placeMark s).core = s.core := by rw [placeMark_eq]

theorem sealNow_id (p : BitVec 3) (s : State) : (sealNow p s).core.id = s.core.id := by
  unfold sealNow
  dsimp only
  generalize hv : (if s.cur.recs.isEmpty = true then s else _) = v
  have e : v.core.id = s.core.id := by
    rw [← hv]; split
    · rfl
    · exact pairAll_id _ _ _ _
  have : (nextSeg v).2.core.id = v.core.id := by
    unfold nextSeg
    split
    · obtain ⟨a, b, c⟩ := errEntry_out (errEntryBytes 5 (BitVec.ofNat 8 v.cur.redel) 0 0 v.core.id v.cur.tid 0 0) v
      exact congrArg CoreSt.id b
    · rfl
  rw [← e, ← this]
  exact congrArg CoreSt.id (placeMark_core (nextSeg v).2)

theorem releaseHeld_id (s : State) : (releaseHeld s).core.id = s.core.id := by
  unfold releaseHeld
  split
  · rfl
  · rw [placeMark_core]; unfold pushHeld; exact pairAll_id _ _ _ _

theorem published_id (p : BitVec 3) (s : State) : (s.published p).core.id = s.core.id := by
  unfold State.published
  exact (releaseHeld_id _).trans (sealNow_id p s)

theorem chargeOnce_busy {e : Charge} {s : State} {f : Fld} : wBusy (chargeOnce e s).cur f = wBusy s.cur f := by
  unfold chargeOnce
  split <;> rfl

theorem strmUndrained_iff {t : Task} {f : Fld} {st : Stream} : strmUndrained t f st = true ↔
    st.pat.out = true ∧ (st.pushed ≠ [] ∨ wBusy t f = true) := by
  unfold strmUndrained
  cases st.pat.out <;> cases st.pushed <;> simp

theorem queueUndrained_iff {t : Task} {f : Fld} {q : QBind} : queueUndrained t f q = true ↔
    q.outb = true ∧ (q.words ≠ [] ∨ 0 < q.flying ∨ wBusy t f = true) := by
  unfold queueUndrained
  cases q.outb <;> cases q.words <;> simp

theorem bits_word0 (bs : List Byte) : (wordIn bs 0).toNat = leNat (bs.take 8) := by
  unfold wordIn leWord
  rw [List.drop_zero, BitVec.toNat_ofNat, Nat.mod_eq_of_lt]
  have h := leNat_lt (bs.take 8)
  have h2 : 256 ^ (bs.take 8).length ≤ 256 ^ 8 := Nat.pow_le_pow_right (by decide) (by rw [List.length_take]; omega)
  exact Nat.lt_of_lt_of_le h h2

theorem patBad_iff (bs : List Byte) (p : Pattern) : patMalformed bs p = true ↔
    (2 ^ 62 ≤ leNat (bs.take 8) ∨ leNat (bs.take 8) / 2 ^ 59 % 2 = 1 ∨ 2 ^ 48 ≤ p.len) := by
  unfold patMalformed
  rw [← bits_word0]
  simp only [Bool.or_eq_true, decide_eq_true_eq, bne_iff_ne, ge_iff_le]
  have h1 : (wordIn bs 0).extractLsb' 62 2 ≠ 0 ↔ 2 ^ 62 ≤ (wordIn bs 0).toNat := by
    have e : (wordIn bs 0).extractLsb' 62 2 = 0 ↔ (wordIn bs 0).toNat / 2 ^ 62 % 4 = 0 := by
      rw [BitVec.toNat_eq, BitVec.extractLsb'_toNat, Nat.shiftRight_eq_div_pow]; rfl
    have := (wordIn bs 0).isLt
    rw [ne_eq, e]; omega
  have h2 : (wordIn bs 0).getLsbD 59 = true ↔ (wordIn bs 0).toNat / 2 ^ 59 % 2 = 1 := by
    simp [BitVec.getLsbD, Nat.testBit_eq_decide_div_mod_eq]
  rw [h1, h2, or_assoc]

theorem patAl_iff (p : Pattern) : patAligned p = true ↔ p.base % 2 ^ p.sz = 0 ∧ ∀ x ∈ p.strides, x % (2 ^ p.sz : Nat) = 0 := by
  unfold patAligned
  simp

theorem sstat_eq (st : Stream) : sstatWord st = BitVec.ofNat 64 (2 ^ 63 + (if st.pat.out then 2 ^ 62 else 0)
    + (if st.pat.len ≤ st.pos then 2 ^ 61 else 0) + (if st.tcm then 2 ^ 60 else 0)
    + 2 ^ 48 * ((st.pushed.length + st.fetched.length) % 2 ^ 12) + st.pos % 2 ^ 48) := by
  unfold sstatWord
  apply BitVec.eq_of_toNat_eq
  simp only [BitVec.toNat_append, BitVec.toNat_ofBool, BitVec.toNat_ofNat]
  have h1 := Nat.mod_lt st.pos (show 0 < 2 ^ 48 by decide)
  have h2 := Nat.mod_lt (st.pushed.length + st.fetched.length) (show 0 < 2 ^ 12 by decide)
  generalize st.pos % 2 ^ 48 = x at h1 ⊢
  generalize (st.pushed.length + st.fetched.length) % 2 ^ 12 = y at h2 ⊢
  have e : ∀ (m k z : Nat), z < 2 ^ k → m <<< k ||| z = m * 2 ^ k + z := by
    intro m k z hz; rw [← Nat.shiftLeft_add_eq_or_of_lt hz, Nat.shiftLeft_eq]
  rw [e _ 48 x h1, e _ 12 y h2]
  by_cases hp : st.pat.len ≤ st.pos <;> cases st.pat.out <;> cases st.tcm <;>
    simp [hp, ge_iff_le, Nat.shiftLeft_eq] <;> omega

theorem clsBound_iff (s : State) (k : BitVec 4) : clsBound s k = true ↔ ∃ t ∈ s.tasks, ∃ q, some q ∈ t.qs.toList ∧ q.cls = some k := by
  unfold clsBound
  rw [List.any_eq_true]
  refine exists_congr fun t => and_congr_right fun _ => ?_
  rw [List.any_eq_true]
  constructor
  · rintro ⟨q, hq, h⟩
    cases q with
    | none => cases h
    | some q => exact ⟨q, hq, by simpa using h⟩
  · rintro ⟨q, hq, h⟩
    exact ⟨some q, hq, by simpa using h⟩

theorem pairRelease_cur (w : PairWhat) (t : Word) (o : BitVec 13) (bs : List Byte) (s : State) : (pairRelease w t o bs s).cur = s.cur := by
  unfold pairRelease; split <;> rfl

theorem pairAll_cur (tid : Word) (o : BitVec 13) (l : List (PairWhat × List Byte)) : ∀ s : State, (pairAll tid o l s).cur = s.cur := by
  induction l with
  | nil => intro s; rfl
  | cons x l ih => intro s; exact (ih _).trans (pairRelease_cur _ _ _ _ s)

theorem escaped_ctr (s : State) : (escapeCur s).cur.partCtr = s.cur.partCtr := by
  show (releaseHeld s).cur.partCtr = _
  unfold releaseHeld
  split
  · rfl
  · rw [placeMark_eq]
    show (pushHeld s).cur.partCtr = _
    unfold pushHeld
    dsimp only
    rw [pairAll_cur]; rfl

theorem enqueue_ok {q : Fin 16} {k : EngKind} {x : Word} {h : BitVec 56} {s : State} (hp : s.cur.partCtr + 1 < 2 ^ 32 - 1) :
    enqueue q k x h s = .ok (s.queued q k x h) := by
  unfold enqueue takePart
  rw [if_pos hp]; rfl

theorem enqueueOp_ok {q : Fin 16} {k : EngKind} {x : Word} {h : BitVec 56} {bs : List Byte} {s : State} (hp : s.cur.partCtr + 1 < 2 ^ 32 - 1) :
    enqueueOp q k x h bs s = .ok (s.queuedOp q k x h bs) := by
  unfold enqueueOp
  rw [enqueue_ok hp]; rfl

theorem issue_ok {i : Instr} {k : EngKind} {bs : List Byte} {s : State} (hp : s.cur.partCtr + 1 < 2 ^ 32 - 1) :
    issueXfer i k bs s = .ok (advance (s.escaped.queuedOp (pbQueue bs) k (pbXid bs) (pbHandler bs) (hashedBlock i bs))) := by
  unfold issueXfer
  rw [enqueueOp_ok (s := escapeCur s) (by rw [escaped_ctr]; exact hp)]; rfl

theorem append32 (a b : Nat) : (0#16 ++ BitVec.ofNat 16 a ++ BitVec.ofNat 32 b : BitVec 64) = BitVec.ofNat 64 (a % 2 ^ 16 * 2 ^ 32 + b % 2 ^ 32) := by
  apply BitVec.eq_of_toNat_eq
  simp only [BitVec.toNat_append, BitVec.toNat_ofNat]
  have h1 := Nat.mod_lt b (show 0 < 2 ^ 32 by decide)
  have h2 := Nat.mod_lt a (show 0 < 2 ^ 16 by decide)
  generalize b % 2 ^ 32 = x at h1 ⊢
  generalize a % 2 ^ 16 = y at h2 ⊢
  rw [← Nat.shiftLeft_add_eq_or_of_lt h2, ← Nat.shiftLeft_add_eq_or_of_lt h1]
  simp only [Nat.shiftLeft_eq]
  omega

theorem cancel_eq (t : Task) (x : Word) (l : List EngOp) : cancelIn t x l = l.map fun o =>
    if sameTask t o.tid o.origin = true ∧ o.xid = x then { o with cancelled := true } else o := by
  unfold cancelIn
  apply List.map_congr_left
  intro o _
  by_cases h : sameTask t o.tid o.origin = true <;> by_cases g : o.xid = x <;> simp [h, g]

theorem blockIssue_ok {i : Instr} {x : Word} {k : EngKind} {s : State} (hp : s.cur.partCtr + 1 < 2 ^ 32 - 1) (h : s.cur.paid = false) :
    finish (blockIssue i x k s) =
      .next (blockCur .waitMem (.block none none) ((s.paid .blk).escaped.queuedOp 9 k 0 0 (hashedBlock i (leBytes 8 x.toNat)))) := by
  unfold blockIssue
  rw [chargeOnce_paid' h, enqueueOp_ok (s := escapeCur (s.paid .blk)) (by rw [escaped_ctr]; exact hp)]; rfl

theorem blockAsync_ok {k : EngKind} {bs : List Byte} {s : State} (hp : s.cur.partCtr + 1 < 2 ^ 32 - 1) (h : s.cur.paid = false) :
    finish (blockAsync k true bs s) = .next ((s.paid .blk).escaped.queuedOp 9 k 0 0 bs).retired ∧
    finish (blockAsync k false bs s) = .next ((s.paid .blk).queuedOp 9 k 0 0 bs).retired := by
  unfold blockAsync
  rw [chargeOnce_paid' h]
  refine ⟨?_, ?_⟩
  · show finish (match enqueueOp 9 k 0 0 bs (escapeCur (s.paid .blk)) with | .error e => .error e | .ok s => .ok (advance s)) = _
    rw [enqueueOp_ok (s := escapeCur (s.paid .blk)) (by rw [escaped_ctr]; exact hp)]; rfl
  · show finish (match enqueueOp 9 k 0 0 bs (s.paid .blk) with | .error e => .error e | .ok s => .ok (advance s)) = _
    rw [enqueueOp_ok (s := s.paid .blk) hp]; rfl

theorem blockSync_first {a b : Fld} {f : Word → State → Res State} {s : State} (ha : wBusy s.cur a = false) (hb : wBusy s.cur b = false)
    (hw : s.cur.wait = none) : blockSync a b f s = f (s.rw b) s := by
  unfold blockSync
  rw [needRegs2 ha hb, hw]

theorem blockSync_answer {a b : Fld} {f : Word → State → Res State} {s : State} (ha : wBusy s.cur a = false) (hb : wBusy s.cur b = false)
    {r : Option Word} {p : Option PendTrap} (hw : s.cur.wait = some (.block r p)) : blockSync a b f s = blockAnswer a r p s := by
  unfold blockSync
  rw [needRegs2 ha hb, hw]

theorem blkstat_word (e : BlkEntry) (m o : Bool) :
    (e.gen ++ e.state ++ BitVec.ofBool e.cow ++ BitVec.ofBool e.tier ++ BitVec.ofBool m ++ BitVec.ofBool o ++ 0#2 ++ e.refcnt ++ e.drain : BitVec 64) =
    BitVec.ofNat 64 (e.gen.toNat * 2 ^ 40 + e.state.toNat * 2 ^ 38 + e.cow.toNat * 2 ^ 37 + e.tier.toNat * 2 ^ 36
      + m.toNat * 2 ^ 35 + o.toNat * 2 ^ 34 + e.refcnt.toNat * 2 ^ 16 + e.drain.toNat) := by
  apply BitVec.eq_of_toNat_eq
  simp only [BitVec.toNat_append, BitVec.toNat_ofBool, BitVec.toNat_ofNat]
  have h : ∀ (m k z : Nat), z < 2 ^ k → m <<< k ||| z = m * 2 ^ k + z := by
    intro m k z hz; rw [← Nat.shiftLeft_add_eq_or_of_lt hz, Nat.shiftLeft_eq]
  have g := e.gen.isLt; have i := e.state.isLt; have j := e.refcnt.isLt; have k := e.drain.isLt
  rw [h _ 16 _ k, h _ 16 _ j, h _ 2 _ (by decide), h _ 1 _ (Bool.toNat_lt o), h _ 1 _ (Bool.toNat_lt m), h _ 1 _ (Bool.toNat_lt _),
    h _ 1 _ (Bool.toNat_lt _), h _ 2 _ i]
  have := Bool.toNat_lt m; have := Bool.toNat_lt o; have := Bool.toNat_lt e.cow; have := Bool.toNat_lt e.tier
  omega

end Sys2Proof.Machine
end

