-- ==== Sys2Proof/Laws/Control.lean ====
section
/-! SUPPORT. Control registers, traps, privilege, address spaces and workspaces (R24, R92, R93, R114, R121 to R123, R352, R412). -/

namespace Sys2Proof.Machine

theorem csrRead_kept (n : BitVec 12) (s : State) : csrRead n s =
    csrRead n { s with cur := s.cur.kept, tile := s.tile.kept, core := s.core.kept } := by
  unfold csrRead; rfl

theorem csrRead_congr (n : BitVec 12) {s t : State} (h1 : t.cur.kept = s.cur.kept) (h2 : t.tile.kept = s.tile.kept)
    (h3 : t.core.kept = s.core.kept) (h4 : t.launch = s.launch) (h5 : t.host = s.host) : csrRead n t = csrRead n s := by
  have : ∀ (x y : State), x.cur = y.cur → x.tile = y.tile → x.core = y.core → x.launch = y.launch → x.host = y.host → csrRead n x = csrRead n y := by
    intro x y e1 e2 e3 e4 e5
    unfold csrRead State.trapvec State.logovf State.spillovf State.vfReg lahOf
    rw [e1, e2, e3, e4, e5]
  rw [csrRead_kept n s, csrRead_kept n t]
  exact this _ _ h1 h2 h3 h4 h5

theorem csr_eq (op : CsrOp) (a b : Fld) (n : BitVec 12) (s : State) :
    exec (csrInstr op a b n) s = finish (csrAccess op (csrInstr op a b n) n a b s) := by
  cases op <;> rfl

theorem csr_denied {op : CsrOp} {a b : Fld} {n : BitVec 12} {s : State} (h : csrAllowed op n a b s.cur.priv = false) :
    exec (csrInstr op a b n) s = .next (takeTrap 0x02 0 false ((encode (csrInstr op a b n)).setWidth 64) s) := by
  rw [csr_eq]
  unfold csrAccess privCheck
  rw [h]; rfl

theorem csr_ok {op : CsrOp} {a b : Fld} {n : BitVec 12} {s u : State} {vs : List Word} (h : csrAllowed op n a b s.cur.priv = true)
    (hm : csrMatrix n = false ∨ ∀ c ∈ s.core.mx.queue, c.started = true) (ht : takeS (if op = .read then [] else [b]) [a] s = .ok (vs, u)) :
    exec (csrInstr op a b n) s = .next
        ((if csrWrites op b then csrApply op n (csrRead n u) (vs.headD 0) (charge .csr u) else charge .csr u).onCur (Task.put a (csrRead n u))).retired := by
  rw [csr_eq]
  unfold csrAccess privCheck
  rw [h, if_pos rfl]
  dsimp only
  rw [if_neg, ht]
  · dsimp only
    rw [writeS_put]; rfl
  · rw [Bool.and_eq_true, List.any_eq_true, not_and]
    rintro h1 ⟨c, hc, hc2⟩
    rcases hm with hm | hm
    · rw [hm] at h1; cases h1
    · rw [hm c hc] at hc2; cases hc2

theorem app_toNat {m n : Nat} (x : BitVec m) (y : BitVec n) : (x ++ y).toNat = x.toNat * 2 ^ n + y.toNat := by
  rw [BitVec.toNat_append, ← Nat.shiftLeft_add_eq_or_of_lt y.isLt, Nat.shiftLeft_eq]

theorem ext_toNat {n : Nat} (x : BitVec n) (i k : Nat) : (x.extractLsb' i k).toNat = x.toNat / 2 ^ i % 2 ^ k := by
  rw [BitVec.extractLsb'_toNat, Nat.shiftRight_eq_div_pow]

theorem bit_toNat (x : Word) (i : Nat) : (x.getLsbD i).toNat = x.toNat / 2 ^ i % 2 := by
  rw [BitVec.getLsbD, Nat.testBit_eq_decide_div_mod_eq]
  rcases Nat.mod_two_eq_zero_or_one (x.toNat / 2 ^ i) with h | h <;> simp [h]

theorem bit1_toNat (x : Word) (i : Nat) : (BitVec.ofBool (x.getLsbD i)).toNat = x.toNat / 2 ^ i % 2 := by
  rw [BitVec.toNat_ofBool, bit_toNat]

theorem own0 (o : BitVec 3) : (o ||| 1#3 <<< 0).getLsbD 0 = true := by simp

theorem own1 (o : BitVec 3) : (o ||| 1#3 <<< 1).getLsbD 1 = true := by simp

theorem own2 (o : BitVec 3) : (o ||| 1#3 <<< 2).getLsbD 2 = true := by simp

theorem set_getD {α : Type} (v : Vector α 16) (k : Nat) (hk : k < 16) (x d : α) : ((v.setIfInBounds k x)[k]?).getD d = x := by
  simp [hk]

theorem one_shl (k : Nat) (hk : k < 16) (e : BitVec 16) (b : Bool) :
    (if b then e ||| (1#16 <<< k) else e &&& ~~~(1#16 <<< k)).getLsbD k = b := by
  cases b <;> simp [hk]

/-- What a write leaves in the fields that it may write. -/
theorem put_fields (n : BitVec 12) (x v : Word) (c : Bool) (s : State) :
    ∀ f ∈ csrFields n.toNat, (csrRead n (csrPut n x v c s)).extractLsb' f.1 f.2 = x.extractLsb' f.1 f.2 := by
  intro f hf
  have hx := x.isLt
  have hl : n.toNat < 4096 := n.isLt
  unfold csrFields at hf
  split at hf
  case h_23 =>
    split at hf
    · rename_i h
      obtain ⟨k, hk, hn⟩ : ∃ k, k < 16 ∧ n.toNat = 0x710 + k := ⟨n.toNat - 0x710, by omega, by omega⟩
      have e : n = BitVec.ofNat 12 (0x710 + k) := by rw [← hn]; simp
      have hr : csrRead n (csrPut n x v c s) = (BitVec.ofBool (x.getLsbD 63) ++ 0#1 ++ x.extractLsb' 56 6 ++ x.extractLsb' 2 54 ++ 0#2 : BitVec 64) := by
        have h1 : csrPut n x v c s = s.onCore fun c => { c with
            pcmEn := if x.getLsbD 63 then c.pcmEn ||| (1#16 <<< k) else c.pcmEn &&& ~~~(1#16 <<< k),
            pcmSlot := c.pcmSlot.setIfInBounds k (x.extractLsb' 56 6), pcmPc := c.pcmPc.setIfInBounds k (x.extractLsb' 2 54) } := by
          have : (n.toNat - 0x710) = k := by omega
          unfold csrPut
          rw [← this]
          split <;> first | omega | skip
          rw [if_pos h]
        have h2 : ∀ t, csrRead n t = pcmWord t.core k := by
          intro t
          have : (n.toNat - 0x710) = k := by omega
          unfold csrRead
          rw [← this]
          dsimp only
          split <;> first | omega | skip
          rw [if_neg (by omega), if_pos h]
        rw [h2, h1]
        unfold pcmWord
        show BitVec.ofBool ((if x.getLsbD 63 then s.core.pcmEn ||| (1#16 <<< k) else s.core.pcmEn &&& ~~~(1#16 <<< k)).getLsbD k) ++ 0#1
          ++ ((s.core.pcmSlot.setIfInBounds k (x.extractLsb' 56 6))[k]?).getD 0 ++ ((s.core.pcmPc.setIfInBounds k (x.extractLsb' 2 54))[k]?).getD 0 ++ 0#2 = _
        rw [one_shl k hk, set_getD _ k hk, set_getD _ k hk]
      rw [hr]
      simp only [List.mem_cons, List.not_mem_nil, or_false] at hf
      rcases hf with rfl | rfl | rfl <;> apply BitVec.eq_of_toNat_eq <;>
        simp (decide := true) only [ext_toNat, app_toNat, bit1_toNat, BitVec.toNat_ofNat] <;> omega
    · cases hf
  all_goals
    rename_i h
    have e : n = BitVec.ofNat 12 n.toNat := by simp
    rw [h] at e
    clear h
    subst e
  all_goals
    clear hl
    have h1 := (BitVec.ofBool s.cur.esc).isLt
    have h2 := (BitVec.ofBool s.cur.pair).isLt
    have h3 := (BitVec.ofBool s.cur.hvy).isLt
    have h4 := (BitVec.ofBool s.cur.inu).isLt
    have h5 := s.cur.priv.isLt
    simp only [List.mem_cons, List.not_mem_nil, or_false] at hf
    (first | subst hf | (rcases hf with rfl | rfl) | (rcases hf with rfl | rfl | rfl)) <;> apply BitVec.eq_of_toNat_eq <;>
    simp (decide := true) only [csrRead, csrPut, writeLaunchReg, seeLaunchReg, putLaunchReg, State.trapvec, State.logovf, State.spillovf, State.onCur, State.onTile, State.onCore, State.onHome, Task.statusByte, sclWord,
      Option.getD_some, if_true, ext_toNat, app_toNat, bit1_toNat, BitVec.toNat_setWidth, BitVec.toNat_ofNat] <;> omega

/-- What a write of a control register leaves alone. -/
structure CsrKeeps (s t : State) : Prop where
  w : t.cur.w = s.cur.w
  pc : t.cur.pc = s.cur.pc
  st : t.cur.st = s.cur.st
  wait : t.cur.wait = s.cur.wait
  frame : t.cur.frame = s.cur.frame
  rest : t.rest = s.rest
  tcm : t.core.tcm = s.core.tcm
  mem : t.home.mem = s.home.mem
  meter : t.tile.meter = s.tile.meter

theorem writeLaunchReg_keeps (n : BitVec 12) (x : Word) (s : State) : CsrKeeps s (writeLaunchReg n x s) := by
  unfold writeLaunchReg putLaunchReg
  have h : ∀ t : Task, (seeLaunchReg n x t).w = t.w ∧ (seeLaunchReg n x t).pc = t.pc ∧ (seeLaunchReg n x t).st = t.st ∧
      (seeLaunchReg n x t).wait = t.wait ∧ (seeLaunchReg n x t).frame = t.frame := by
    intro t; unfold seeLaunchReg; split <;> exact ⟨rfl, rfl, rfl, rfl, rfl⟩
  obtain ⟨h1, h2, h3, h4, h5⟩ := h s.cur
  split <;> exact ⟨h1, h2, h3, h4, h5, rfl, rfl, rfl, rfl⟩

theorem csrPut_keeps (n : BitVec 12) (x v : Word) (c : Bool) (s : State) : CsrKeeps s (csrPut n x v c s) := by
  unfold csrPut
  split <;> first
    | exact ⟨rfl, rfl, rfl, rfl, rfl, rfl, rfl, rfl, rfl⟩
    | exact writeLaunchReg_keeps n x s
    | (split <;> exact ⟨rfl, rfl, rfl, rfl, rfl, rfl, rfl, rfl, rfl⟩)

theorem csrApply_keeps (op : CsrOp) (n : BitVec 12) (old v : Word) (s : State) : CsrKeeps s (csrApply op n old v s) := by
  obtain ⟨h1, h2, h3, h4, h5, h6, h7, h8, h9⟩ := csrPut_keeps n (csrNew op old v) v (op != .set) s
  unfold csrApply
  dsimp only
  split
  · exact ⟨h1, h2, h3, h4, h5, h6, h7, h8, h9⟩
  · exact ⟨h1, h2, h3, h4, h5, h6, h7, h8, h9⟩

theorem csrRead_heavy (n : BitVec 12) (h : n ≠ 0) (s : State) : csrRead n (setHvy s) = csrRead n s := by
  unfold csrRead
  dsimp only
  split
  · rename_i g
    exact absurd (BitVec.eq_of_toNat_eq g) h
  all_goals rfl

theorem csrRead_apply (op : CsrOp) (n : BitVec 12) (old v : Word) (s : State) :
    csrRead n (csrApply op n old v s) = csrRead n (csrPut n (csrNew op old v) v (op != .set) s) := by
  unfold csrApply
  dsimp only
  by_cases h : csrHeavy n = true
  · rw [if_pos h]
    apply csrRead_heavy
    rintro rfl
    revert h; decide
  · rw [if_neg h]

theorem csrApply_hvy {op : CsrOp} {n : BitVec 12} {old v : Word} {s : State} (h : csrHeavy n = true) : (csrApply op n old v s).cur.hvy = true := by
  unfold csrApply
  dsimp only
  rw [if_pos h]; rfl

theorem csrWrites_iff (op : CsrOp) (b : Fld) : csrWrites op b = true ↔ op = .write ∨ (op = .set ∧ b ≠ 0) ∨ (op = .clear ∧ b ≠ 0) := by
  cases op <;> simp [csrWrites]

theorem fmaxn_word (x : Word) : ((clampFmaxn x).setWidth 64 : Word) = if x = 0 then 1 else if 256 < x.toNat then 256 else x := by
  unfold clampFmaxn
  by_cases h : x = 0
  · rw [if_pos h, if_pos h]; rfl
  · rw [if_neg h, if_neg h]
    by_cases g : 256 < x.toNat
    · rw [if_pos g, if_pos (by rw [gt_iff_lt, BitVec.lt_def]; exact g)]; rfl
    · rw [if_neg g, if_neg (by rw [gt_iff_lt, BitVec.lt_def]; exact g)]
      apply BitVec.eq_of_toNat_eq
      rw [BitVec.toNat_setWidth, ext_toNat]
      have := x.isLt
      omega

theorem seven_bit (i : Nat) : (7#64).getLsbD (i + 3) = false := by
  have h : 7 < 2 ^ (i + 3) := Nat.lt_of_lt_of_le (by decide : 7 < 2 ^ 3) (Nat.pow_le_pow_right (by decide) (by omega))
  rw [BitVec.getLsbD, BitVec.toNat_ofNat]
  exact Nat.testBit_lt_two_pow h

theorem three_bits (x : BitVec 61) (a b c : Bool) :
    (∀ i, (x ++ BitVec.ofBool a ++ BitVec.ofBool b ++ BitVec.ofBool c).getLsbD (i + 3) = x.getLsbD i) ∧
    (x ++ BitVec.ofBool a ++ BitVec.ofBool b ++ BitVec.ofBool c).getLsbD 0 = c ∧
    (x ++ BitVec.ofBool a ++ BitVec.ofBool b ++ BitVec.ofBool c).getLsbD 1 = b ∧
    (x ++ BitVec.ofBool a ++ BitVec.ofBool b ++ BitVec.ofBool c).getLsbD 2 = a := by
  refine ⟨fun i => ?_, ?_, ?_, ?_⟩ <;> rw [BitVec.getLsbD_append, BitVec.getLsbD_append, BitVec.getLsbD_append] <;> simp

theorem fstat_clear (t : Task) (v : Word) : (t.clearFstat v).fstat = t.fstat &&& ~~~(v &&& 7) := by
  have hl : ∀ (t : Task), (∀ i, t.fstat.getLsbD (i + 3) = (0#51 ++ t.nrt ++ 0#5 : BitVec 61).getLsbD i) ∧ t.fstat.getLsbD 0 = t.fx ∧
      t.fstat.getLsbD 1 = t.fout ∧ t.fstat.getLsbD 2 = t.fmore := fun t => three_bits _ _ _ _
  apply BitVec.eq_of_getLsbD_eq
  intro i hi
  rw [BitVec.getLsbD_and, BitVec.getLsbD_not, BitVec.getLsbD_and]
  match i with
  | 0 => rw [(hl _).2.1, (hl _).2.1]; show (t.fx && !v.getLsbD 0) = (t.fx && (true && !(v.getLsbD 0 && true))); simp
  | 1 => rw [(hl _).2.2.1, (hl _).2.2.1]; show (t.fout && !v.getLsbD 1) = (t.fout && (true && !(v.getLsbD 1 && true))); simp
  | 2 => rw [(hl _).2.2.2, (hl _).2.2.2]; show (t.fmore && !v.getLsbD 2) = (t.fmore && (true && !(v.getLsbD 2 && true))); simp
  | i + 3 =>
    rw [(hl _).1, (hl _).1, show (7 : Word) = 7#64 from rfl, seven_bit i, decide_eq_true hi]
    simp only [Bool.and_false, Bool.not_false, Bool.and_true]; rfl

theorem ofNat_append2 (x : BitVec 54) : (x ++ 0#2 : BitVec 56) = BitVec.ofNat 56 (4 * x.toNat) := by
  apply BitVec.eq_of_toNat_eq
  rw [app_toNat, BitVec.toNat_ofNat]
  have := x.isLt
  show x.toNat * 2 ^ 2 + 0 = _
  rw [BitVec.toNat_ofNat, Nat.mod_eq_of_lt (by omega)]; omega

theorem pc_field (p : BitVec 56) : p.extractLsb' 2 54 = BitVec.ofNat 54 (p.toNat / 4) := by
  apply BitVec.eq_of_toNat_eq
  rw [ext_toNat, BitVec.toNat_ofNat]; rfl

theorem escalates_iff {s : State} {async : Bool} : escalates s async = true ↔ s.trapvec = 0 ∨ (async = false ∧ s.cur.pc.toNat / 4 = s.trapvec.toNat) := by
  unfold escalates
  have h : s.cur.pc.extractLsb' 2 54 = s.trapvec ↔ s.cur.pc.toNat / 4 = s.trapvec.toNat := by
    rw [BitVec.toNat_eq, ext_toNat]
    have := s.cur.pc.isLt
    omega
  cases async <;> simp [h]

theorem releaseChan_mem (q : QBind) (s : State) : (dropBinding q s).home.mem = s.home.mem ∧ (dropBinding q s).tile = s.tile := by
  unfold dropBinding dropInbound popChan
  dsimp only
  split <;> exact ⟨rfl, rfl⟩

theorem dropAll_mem (l : List QBind) : ∀ s : State, (l.foldl (fun s q => dropBinding q s) s).home.mem = s.home.mem ∧
    (l.foldl (fun s q => dropBinding q s) s).tile = s.tile := by
  induction l with
  | nil => exact fun s => ⟨rfl, rfl⟩
  | cons q l ih =>
    intro s
    obtain ⟨h1, h2⟩ := ih (dropBinding q s)
    obtain ⟨g1, g2⟩ := releaseChan_mem q s
    exact ⟨h1.trans g1, h2.trans g2⟩

theorem errWrite_tile {b : List Byte} {s u : State} (h : errWrite b s = some u) : u.tile = s.tile := by
  unfold errWrite at h
  dsimp only at h
  repeat' split at h
  all_goals first | cases h; done | rw [← Option.some.inj h]

theorem errEntry_tile (b : List Byte) (s : State) : (errEntry b s).tile.escl = s.tile.escl ∧
    (errEntry b s).tile.errs = (errCount 1 s).tile.errs := by
  unfold errEntry
  dsimp only
  split
  · exact ⟨rfl, rfl⟩
  · split
    · cases h : errWrite b (errCount 1 s) with
      | none => exact ⟨rfl, rfl⟩
      | some u => rw [Option.getD_some, errWrite_tile h]; exact ⟨rfl, rfl⟩
    · exact ⟨rfl, rfl⟩

theorem errEntry_escl (b : List Byte) (s : State) : (errEntry b s).tile.escl = s.tile.escl := (errEntry_tile b s).1

theorem errEntry_cur (b : List Byte) (s : State) : (errEntry b s).cur = s.cur := (errEntry_out b s).1

theorem escalateTraps_escl (t : Task) (l : List PendTrap) : ∀ s : State, s.tile.escl = true → (escalateTraps t l s).tile.escl = true := by
  induction l with
  | nil => exact fun s h => h
  | cons p l ih =>
    intro s h
    unfold escalateTraps
    apply ih
    split
    · rfl
    · exact h

theorem flushWs_tile (t : Task) (s : State) : (flushWs t s).tile = s.tile ∧ (flushWs t s).home = s.home := by
  unfold flushWs
  cases t.shadow with
  | true => exact ⟨rfl, rfl⟩
  | false =>
    rw [if_neg (by decide)]
    generalize wsBytes t = bs
    exact ⟨rfl, rfl⟩

theorem endCur_keeps (s : State) : (endCur s).cur.st = .ended ∧ (endCur s).cur.recs = [] ∧ (endCur s).cur.held = [] ∧
    (s.tile.escl = true → (endCur s).tile.escl = true) ∧
    (s.cur.traps = [] → anyFail s.cur = false → (endCur s).home.mem = s.home.mem ∧ (endCur s).tile = s.tile) := by
  refine ⟨rfl, rfl, rfl, fun h => ?_, fun h g => ?_⟩
  · unfold endCur reportFails
    dsimp only
    rw [(flushWs_tile _ _).1, (dropAll_mem _ _).2]
    split
    · exact escalateTraps_escl _ _ _ h
    · exact escalateTraps_escl _ _ _ h
  · unfold endCur reportFails
    dsimp only
    rw [(flushWs_tile _ _).1, (flushWs_tile _ _).2, (dropAll_mem _ _).2, (dropAll_mem _ _).1, h, g]
    exact ⟨rfl, rfl⟩

theorem errCount_min (s : State) : (errCount 1 s).tile.errs.toNat = Nat.min 65535 (s.tile.errs.toNat + 1) := by
  unfold errCount
  show (if s.tile.errs.toNat + 1 > 0xFFFF then 0xFFFF else s.tile.errs + BitVec.ofNat 16 1 : BitVec 16).toNat = _
  have := s.tile.errs.isLt
  rw [show ∀ a b : Nat, Nat.min a b = if a ≤ b then a else b from fun a b => Nat.min_def]
  by_cases h : s.tile.errs.toNat + 1 > 0xFFFF
  · rw [if_pos h]
    show 65535 = _
    split <;> omega
  · rw [if_neg h, BitVec.toNat_add]
    show (s.tile.errs.toNat + 1) % 2 ^ 16 = _
    split <;> omega

theorem le8 (v k : Nat) (h : k < 8) : (leBytes 8 v).getD k 0 = BitVec.ofNat 8 (v / 256 ^ k) := leBytes_getD 8 v k h

theorem errs_unf {bytes : List Byte} {s : State} {pa : Nat} (he : s.launch.errrec ≠ 0) (hq : s.tile.errQ = [])
    (hx : agentXlat s s.launch.errrec = some pa) (hr : refusedAt s s.core.vf pa = false) (hp : anyPoison s.home.poison pa 32 = false) :
    let n := leNat (memGetN s.home.mem pa 8)
    let h := homePut s.home pa (leBytes 8 (n + 1))
    let drop (h : HomeSt) : HomeSt := homePut h (pa + 16) (leBytes 8 (leNat (memGetN h.mem (pa + 16) 8) + 1))
    (n ≥ leNat (memGetN s.home.mem (pa + 8) 8) → errEntry bytes s = { errCount 1 s with home := drop h }) ∧
    (∀ q, ¬ n ≥ leNat (memGetN s.home.mem (pa + 8) 8) → agentXlat s (s.launch.errrec + 32 + 32 * n) = some q →
      refusedAt s s.core.vf q = false → anyPoison h.poison q 32 = false →
      errEntry bytes s = { errCount 1 s with home := homePut h q bytes }) := by
  intro n h drop
  have hunf : errEntry bytes s = (errWrite bytes (errCount 1 s)).getD (errLater bytes (errCount 1 s)) := by
    unfold errEntry
    dsimp only
    rw [show (errCount 1 s).launch.errrec = s.launch.errrec from rfl, if_neg he, show (errCount 1 s).tile.errQ = s.tile.errQ from rfl, hq]
    rfl
  have e1 : ∀ va, agentXlat (errCount 1 s) va = agentXlat s va := fun _ => rfl
  have e2 : ∀ p, refusedAt (errCount 1 s) s.core.vf p = refusedAt s s.core.vf p := fun _ => rfl
  have e3 : ∀ va, agentFaults (errCount 1 s) va = agentFaults s va := fun _ => rfl
  have hw : errWrite bytes (errCount 1 s) = if n ≥ leNat (memGetN s.home.mem (pa + 8) 8) then some { errCount 1 s with home := drop h }
      else if agentFaults s (s.launch.errrec + 32 + 32 * n) then none
      else match agentXlat s (s.launch.errrec + 32 + 32 * n) with
        | none => some { errCount 1 s with home := drop h }
        | some q => if refusedAt s s.core.vf q || anyPoison h.poison q 32 then some { errCount 1 s with home := drop h }
            else some { errCount 1 s with home := homePut h q bytes } := by
    unfold errWrite
    rw [show (errCount 1 s).launch.errrec = s.launch.errrec from rfl, e3, agentFaults_of_some hx, if_neg (by decide), e1, hx]
    dsimp only
    rw [show (errCount 1 s).core.vf = s.core.vf from rfl, e2, hr, show (errCount 1 s).home.poison = s.home.poison from rfl, hp]
    simp only [Bool.or_self, Bool.false_eq_true, if_false]
    rfl
  rw [hunf, hw]
  refine ⟨fun g => by rw [if_pos g]; rfl, fun q g k1 k2 k3 => ?_⟩
  rw [if_neg g, agentFaults_of_some k1, if_neg (by decide), k1]
  dsimp only
  rw [k2, k3]
  rfl

theorem poison_after {p : List Nat} {a n b m : Nat} (h : anyPoison p b m = false) : anyPoison (poisonAfter p a n) b m = false := by
  unfold anyPoison poisonAfter at *
  rw [List.any_eq_false] at *
  intro x hx
  exact h x (List.mem_of_mem_filter hx)

theorem memGetN_congr {m m' : List Host.Cell} (n : Nat) : ∀ (a : Nat), (∀ k < n, memGet m (a + k) = memGet m' (a + k)) →
    memGetN m a n = memGetN m' a n := by
  induction n with
  | zero => intro a _; rfl
  | succ n ih =>
    intro a h
    show memGet m a :: memGetN m (a + 1) n = memGet m' a :: memGetN m' (a + 1) n
    rw [show memGet m a = memGet m' a from h 0 (by omega), ih (a + 1) fun k hk => by
      have := h (k + 1) (by omega); rwa [show a + 1 + k = a + (k + 1) by omega]]

theorem privCheck_ok {i : Instr} {s : State} (h : s.cur.priv ≠ 0) : needService i s = .ok () := by
  unfold needService privCheck
  have : 1 ≤ s.cur.priv := by
    rw [BitVec.le_def]
    have h1 : s.cur.priv.toNat ≠ 0 := fun e => h (BitVec.eq_of_toNat_eq e)
    show 1 ≤ s.cur.priv.toNat
    omega
  rw [if_pos (by simpa using this)]

theorem privCheck_no {i : Instr} {s : State} (h : s.cur.priv = 0) : needService i s = .error (.trap 0x02 0 ((encode i).setWidth 64) s) := by
  unfold needService privCheck
  rw [h]; rfl

theorem pcW_eq (t : Task) : t.pcW = BitVec.ofNat 64 t.pc.toNat := by
  apply BitVec.eq_of_toNat_eq
  show (t.pc.setWidth 64).toNat = _
  rw [BitVec.toNat_setWidth, BitVec.toNat_ofNat]

theorem own_vf {v w : BitVec 6} (h : w = 0 ∨ v = w) : (w != 0 && v != w) = false := by
  rcases h with h | h <;> simp [h]

theorem other_vf {v w : BitVec 6} (h : w ≠ 0) (g : v ≠ w) : (w != 0 && v != w) = true := by
  rw [Bool.and_eq_true, bne_iff_ne, bne_iff_ne]; exact ⟨h, g⟩

theorem halt_no {v w : BitVec 6} (h : v ≠ 0) (g : w = 0 ∨ v = w) : ¬ (decide (v = 0) || (w != 0 && v != w)) = true := by
  rw [own_vf g, Bool.or_false, decide_eq_true_eq]; exact h

theorem halt_yes {v w : BitVec 6} (h : v = 0 ∨ (w ≠ 0 ∧ v ≠ w)) : (decide (v = 0) || (w != 0 && v != w)) = true := by
  rw [Bool.or_eq_true, decide_eq_true_eq]
  exact h.imp_right fun k => other_vf k.1 k.2

theorem asidWord_eq (c : CoreSt) : asidWord c = BitVec.ofNat 64 (c.asidGen.toNat * 65536 + c.asid.toNat) := by
  unfold asidWord
  apply BitVec.eq_of_toNat_eq
  rw [app_toNat, app_toNat, BitVec.toNat_ofNat, BitVec.toNat_ofNat]
  have := c.asidGen.isLt; have := c.asid.isLt
  omega

theorem asidBind_ok {a : Fld} {id : BitVec 16} {new : Bool} {s : State} (h : inFlight s = false) (g : new = true → s.tile.dropsOut = 0) :
    finish (asidBind a id new s) = .next ((bindAsid id s).onCur fun t => t.setW (wIdx a)
      (BitVec.ofNat 64 (s.core.asidGen.toNat * 65536 + s.core.asid.toNat))).retired := by
  unfold asidBind
  rw [if_neg (by rw [h]; cases new <;> simp [g]), asidWord_eq]; rfl

theorem asidBind_waits {a : Fld} {id : BitVec 16} {new : Bool} {s : State} (h : inFlight s = true ∨ (new = true ∧ s.tile.dropsOut ≠ 0)) :
    finish (asidBind a id new s) = .next (blockCur .waitMem (.translations id) s) := by
  unfold asidBind
  rw [if_pos (by rcases h with h | h <;> simp [h])]; rfl

theorem setAsid_get (v : BitVec 6) (id : BitVec 16) (e : AsidEnt) (s : State) : (s.setAsid v id e).asidEnt v id = e :=
  tabGet_tabSet_same _ _ _ _

theorem setAsid_other (v : BitVec 6) (id id2 : BitVec 16) (e : AsidEnt) (s : State) (h : id2 ≠ id) : (s.setAsid v id e).asidEnt v id2 = s.asidEnt v id2 := by
  unfold State.asidEnt State.setAsid
  show tabGet (tabSet s.host.asids _ e) {} _ = _
  apply tabGet_tabSet_other
  unfold asidIdx
  have := id.isLt; have := id2.isLt
  intro g
  exact h (BitVec.eq_of_toNat_eq (by omega))

theorem published_w (p : BitVec 3) (s : State) : (s.published p).cur.w = s.cur.w := by
  have h1 : ∀ u : State, (placeMark u).cur.w = u.cur.w := fun u => by rw [placeMark_eq]
  have h2 : ∀ u : State, (releaseHeld u).cur.w = u.cur.w := by
    intro u
    unfold releaseHeld
    split
    · rfl
    · rw [h1]; unfold pushHeld; dsimp only; rw [pairAll_cur]; rfl
  have h3 : (sealNow p s).cur.w = s.cur.w := by
    unfold sealNow
    dsimp only
    generalize hv : (if s.cur.recs.isEmpty = true then s else _) = v
    have e : v.cur.w = s.cur.w := by
      rw [← hv]
      split
      · rfl
      · unfold pairParts; rw [pairAll_cur]; rfl
    have h : (nextSeg v).2.cur.w = v.cur.w := by
      unfold nextSeg
      split
      · exact congrArg Task.w (errEntry_cur _ _)
      · rfl
    generalize nextSeg v = nv at *
    show (placeMark nv.2).cur.w = s.cur.w
    rw [h1, h, e]
  show (releaseHeld (sealNow p s)).cur.w = _
  rw [h2, h3]

theorem leNat_leBytes (n : Nat) : ∀ v : Nat, leNat (leBytes n v) = v % 256 ^ n := by
  induction n with
  | zero => intro v; simp [leBytes, leNat, Nat.mod_one]
  | succ n ih =>
    intro v
    show (BitVec.ofNat 8 v).toNat + 256 * leNat (leBytes n (v / 256)) = _
    have h : v % 256 ^ (n + 1) = v % 256 + 256 * (v / 256 % 256 ^ n) := by rw [Nat.pow_succ, Nat.mul_comm, Nat.mod_mul]
    rw [ih, BitVec.toNat_ofNat, h]

theorem leWord_leBytes (x : Word) : leWord (leBytes 8 x.toNat) = x := by
  unfold leWord
  apply BitVec.eq_of_toNat_eq
  rw [leNat_leBytes, BitVec.toNat_ofNat]
  have := x.isLt
  show x.toNat % 256 ^ 8 % 2 ^ 64 = x.toNat
  rw [show (256 : Nat) ^ 8 = 2 ^ 64 from by norm_num, Nat.mod_mod, Nat.mod_eq_of_lt this]

theorem flatten8 (l : List (List Byte)) (h : ∀ c ∈ l, c.length = 8) : l.flatten.length = 8 * l.length ∧
    ∀ (k j : Nat), j < 8 → l.flatten.getD (8 * k + j) 0 = (l.getD k []).getD j 0 := by
  induction l with
  | nil => exact ⟨rfl, fun k j _ => by simp⟩
  | cons c l ih =>
    obtain ⟨h1, h2⟩ := ih fun c hc => h c (List.mem_cons_of_mem _ hc)
    have hc : c.length = 8 := h c (List.mem_cons_self ..)
    refine ⟨by rw [List.flatten_cons, List.length_append, h1, hc, List.length_cons]; omega, fun k j hj => ?_⟩
    rw [List.flatten_cons]
    cases k with
    | zero => rw [List.getD_append _ _ _ _ (by omega)]; simp
    | succ k =>
      rw [List.getD_append_right _ _ _ _ (by omega), hc, show 8 * (k + 1) + j - 8 = 8 * k + j by omega, h2 k j hj]; rfl

theorem wsBytes_get (t : Task) (k j : Nat) (hk : k < 16) (hj : j < 8) : (wsBytes t).getD (8 * k + j) 0 = (leBytes 8 (t.wsWord k).toNat).getD j 0 := by
  unfold wsBytes
  rw [(flatten8 _ _).2 k j hj]
  · congr 1
    rw [List.getD_eq_getElem _ _ (by simpa using hk)]
    simp
  · intro c hc
    rw [List.mem_map] at hc
    obtain ⟨i, _, rfl⟩ := hc
    exact leBytes_length _ _

theorem wsBytes_length (t : Task) : (wsBytes t).length = 128 := by
  unfold wsBytes
  rw [(flatten8 _ _).1]
  · simp
  · intro c hc
    rw [List.mem_map] at hc
    obtain ⟨i, _, rfl⟩ := hc
    exact leBytes_length _ _

theorem memGetN_eq (m : List Host.Cell) (n : Nat) : ∀ (a : Nat) (l : List Byte), l.length = n → (∀ k < n, memGet m (a + k) = l.getD k 0) → memGetN m a n = l := by
  induction n with
  | zero => intro a l hl _; rw [List.length_eq_zero_iff] at hl; rw [hl]; rfl
  | succ n ih =>
    intro a l hl h
    match l, hl with
    | b :: l, hl =>
      show memGet m a :: memGetN m (a + 1) n = b :: l
      rw [show memGet m a = b from h 0 (by omega), ih (a + 1) l (by simpa using hl) fun k hk => by
        have := h (k + 1) (by omega); rw [show a + 1 + k = a + (k + 1) by omega]; exact this]

theorem flush_word {m : List Host.Cell} (hm : Memory.wf m = true) (t : Task) (a k : Nat) (hk : k < 16) :
    leWord (memGetN (memPutN m a (wsBytes t)) (a + 8 * k) 8) = t.wsWord k := by
  rw [memGetN_eq _ 8 (a + 8 * k) (leBytes 8 (t.wsWord k).toNat) (leBytes_length _ _), leWord_leBytes]
  intro j hj
  rw [memPutN_read hm, wsBytes_length, if_pos (by omega), show a + 8 * k + j - a = 8 * k + j by omega, wsBytes_get t k j hk hj]

theorem needRegs_all {fs : List Fld} {s : State} (h : ∀ f, wBusy s.cur f = false) : needRegs fs s = .ok () := by
  unfold needRegs; simp [h, fun f => wLoading_off (h f)]

end Sys2Proof.Machine
end

