-- ==== Sys2Proof/Laws/Fields.lean ====
section
/-! SUPPORT. The fields of each format of R85, read back from a word put together from them, and the decoder opcode by opcode. -/

namespace Sys2Proof


theorem at_fmtR_5_6 (op : BitVec 6) (a b c : Fld) (sub : BitVec 6) (m : BitVec 5) : (fmtR op a b c sub m).extractLsb' 5 6 = sub := by
  unfold fmtR
  rw [BitVec.extractLsb'_append_eq_of_le (by decide)]
  rw [BitVec.extractLsb'_append_eq_of_add_le (by decide)]
  exact BitVec.extractLsb'_eq_self

theorem at_fmtR_0_5 (op : BitVec 6) (a b c : Fld) (sub : BitVec 6) (m : BitVec 5) : (fmtR op a b c sub m).extractLsb' 0 5 = m := by
  unfold fmtR
  rw [BitVec.extractLsb'_append_eq_of_add_le (by decide)]
  exact BitVec.extractLsb'_eq_self

theorem opc_fmtR (op : BitVec 6) (a b c : Fld) (sub : BitVec 6) (m : BitVec 5) : opc (fmtR op a b c sub m) = op := by
  unfold fmtR opc
  rw [BitVec.extractLsb'_append_eq_of_le (by decide)]
  rw [BitVec.extractLsb'_append_eq_of_le (by decide)]
  rw [BitVec.extractLsb'_append_eq_of_le (by decide)]
  rw [BitVec.extractLsb'_append_eq_of_le (by decide)]
  rw [BitVec.extractLsb'_append_eq_of_le (by decide)]
  exact BitVec.extractLsb'_eq_self

theorem fA_fmtR (op : BitVec 6) (a b c : Fld) (sub : BitVec 6) (m : BitVec 5) : fA (fmtR op a b c sub m) = a := by
  unfold fmtR fA
  rw [BitVec.extractLsb'_append_eq_of_le (by decide)]
  rw [BitVec.extractLsb'_append_eq_of_le (by decide)]
  rw [BitVec.extractLsb'_append_eq_of_le (by decide)]
  rw [BitVec.extractLsb'_append_eq_of_le (by decide)]
  rw [BitVec.extractLsb'_append_eq_of_add_le (by decide)]
  exact BitVec.extractLsb'_eq_self

theorem fB_fmtR (op : BitVec 6) (a b c : Fld) (sub : BitVec 6) (m : BitVec 5) : fB (fmtR op a b c sub m) = b := by
  unfold fmtR fB
  rw [BitVec.extractLsb'_append_eq_of_le (by decide)]
  rw [BitVec.extractLsb'_append_eq_of_le (by decide)]
  rw [BitVec.extractLsb'_append_eq_of_le (by decide)]
  rw [BitVec.extractLsb'_append_eq_of_add_le (by decide)]
  exact BitVec.extractLsb'_eq_self

theorem fC_fmtR (op : BitVec 6) (a b c : Fld) (sub : BitVec 6) (m : BitVec 5) : fC (fmtR op a b c sub m) = c := by
  unfold fmtR fC
  rw [BitVec.extractLsb'_append_eq_of_le (by decide)]
  rw [BitVec.extractLsb'_append_eq_of_le (by decide)]
  rw [BitVec.extractLsb'_append_eq_of_add_le (by decide)]
  exact BitVec.extractLsb'_eq_self

theorem fO_fmtR (op : BitVec 6) (a b c : Fld) (sub : BitVec 6) (m : BitVec 5) : fO (fmtR op a b c sub m) = (sub).extractLsb' 1 5 := by
  unfold fmtR fO
  rw [BitVec.extractLsb'_append_eq_of_le (by decide)]
  rw [BitVec.extractLsb'_append_eq_of_add_le (by decide)]

theorem at_fmtI_0_16 (op : BitVec 6) (a b : Fld) (i : BitVec 16) : (fmtI op a b i).extractLsb' 0 16 = i := by
  unfold fmtI
  rw [BitVec.extractLsb'_append_eq_of_add_le (by decide)]
  exact BitVec.extractLsb'_eq_self

theorem at_fmtI_6_2 (op : BitVec 6) (a b : Fld) (i : BitVec 16) : (fmtI op a b i).extractLsb' 6 2 = (i).extractLsb' 6 2 := by
  unfold fmtI
  rw [BitVec.extractLsb'_append_eq_of_add_le (by decide)]

theorem at_fmtI_0_6 (op : BitVec 6) (a b : Fld) (i : BitVec 16) : (fmtI op a b i).extractLsb' 0 6 = (i).extractLsb' 0 6 := by
  unfold fmtI
  rw [BitVec.extractLsb'_append_eq_of_add_le (by decide)]

theorem at_fmtI_2_14 (op : BitVec 6) (a b : Fld) (i : BitVec 16) : (fmtI op a b i).extractLsb' 2 14 = (i).extractLsb' 2 14 := by
  unfold fmtI
  rw [BitVec.extractLsb'_append_eq_of_add_le (by decide)]

theorem opc_fmtI (op : BitVec 6) (a b : Fld) (i : BitVec 16) : opc (fmtI op a b i) = op := by
  unfold fmtI opc
  rw [BitVec.extractLsb'_append_eq_of_le (by decide)]
  rw [BitVec.extractLsb'_append_eq_of_le (by decide)]
  rw [BitVec.extractLsb'_append_eq_of_le (by decide)]
  exact BitVec.extractLsb'_eq_self

theorem fA_fmtI (op : BitVec 6) (a b : Fld) (i : BitVec 16) : fA (fmtI op a b i) = a := by
  unfold fmtI fA
  rw [BitVec.extractLsb'_append_eq_of_le (by decide)]
  rw [BitVec.extractLsb'_append_eq_of_le (by decide)]
  rw [BitVec.extractLsb'_append_eq_of_add_le (by decide)]
  exact BitVec.extractLsb'_eq_self

theorem fB_fmtI (op : BitVec 6) (a b : Fld) (i : BitVec 16) : fB (fmtI op a b i) = b := by
  unfold fmtI fB
  rw [BitVec.extractLsb'_append_eq_of_le (by decide)]
  rw [BitVec.extractLsb'_append_eq_of_add_le (by decide)]
  exact BitVec.extractLsb'_eq_self

theorem fC_fmtI (op : BitVec 6) (a b : Fld) (i : BitVec 16) : fC (fmtI op a b i) = (i).extractLsb' 11 5 := by
  unfold fmtI fC
  rw [BitVec.extractLsb'_append_eq_of_add_le (by decide)]

theorem fO_fmtI (op : BitVec 6) (a b : Fld) (i : BitVec 16) : fO (fmtI op a b i) = (i).extractLsb' 6 5 := by
  unfold fmtI fO
  rw [BitVec.extractLsb'_append_eq_of_add_le (by decide)]

theorem at_fmtMP_14_2 (op : BitVec 6) (a b : Fld) (sz : BitVec 2) (o : BitVec 14) : (fmtMP op a b sz o).extractLsb' 14 2 = sz := by
  unfold fmtMP
  rw [BitVec.extractLsb'_append_eq_of_le (by decide)]
  rw [BitVec.extractLsb'_append_eq_of_add_le (by decide)]
  exact BitVec.extractLsb'_eq_self

theorem at_fmtMP_0_14 (op : BitVec 6) (a b : Fld) (sz : BitVec 2) (o : BitVec 14) : (fmtMP op a b sz o).extractLsb' 0 14 = o := by
  unfold fmtMP
  rw [BitVec.extractLsb'_append_eq_of_add_le (by decide)]
  exact BitVec.extractLsb'_eq_self

theorem opc_fmtMP (op : BitVec 6) (a b : Fld) (sz : BitVec 2) (o : BitVec 14) : opc (fmtMP op a b sz o) = op := by
  unfold fmtMP opc
  rw [BitVec.extractLsb'_append_eq_of_le (by decide)]
  rw [BitVec.extractLsb'_append_eq_of_le (by decide)]
  rw [BitVec.extractLsb'_append_eq_of_le (by decide)]
  rw [BitVec.extractLsb'_append_eq_of_le (by decide)]
  exact BitVec.extractLsb'_eq_self

theorem fA_fmtMP (op : BitVec 6) (a b : Fld) (sz : BitVec 2) (o : BitVec 14) : fA (fmtMP op a b sz o) = a := by
  unfold fmtMP fA
  rw [BitVec.extractLsb'_append_eq_of_le (by decide)]
  rw [BitVec.extractLsb'_append_eq_of_le (by decide)]
  rw [BitVec.extractLsb'_append_eq_of_le (by decide)]
  rw [BitVec.extractLsb'_append_eq_of_add_le (by decide)]
  exact BitVec.extractLsb'_eq_self

theorem fB_fmtMP (op : BitVec 6) (a b : Fld) (sz : BitVec 2) (o : BitVec 14) : fB (fmtMP op a b sz o) = b := by
  unfold fmtMP fB
  rw [BitVec.extractLsb'_append_eq_of_le (by decide)]
  rw [BitVec.extractLsb'_append_eq_of_le (by decide)]
  rw [BitVec.extractLsb'_append_eq_of_add_le (by decide)]
  exact BitVec.extractLsb'_eq_self

theorem fO_fmtMP (op : BitVec 6) (a b : Fld) (sz : BitVec 2) (o : BitVec 14) : fO (fmtMP op a b sz o) = (o).extractLsb' 6 5 := by
  unfold fmtMP fO
  rw [BitVec.extractLsb'_append_eq_of_add_le (by decide)]

theorem at_fmtMS_14_2 (op : BitVec 6) (a b : Fld) (sz : BitVec 2) (p : BitVec 3) (n : Bool) (o : BitVec 10) : (fmtMS op a b sz p n o).extractLsb' 14 2 = sz := by
  unfold fmtMS
  rw [BitVec.extractLsb'_append_eq_of_le (by decide)]
  rw [BitVec.extractLsb'_append_eq_of_le (by decide)]
  rw [BitVec.extractLsb'_append_eq_of_le (by decide)]
  rw [BitVec.extractLsb'_append_eq_of_add_le (by decide)]
  exact BitVec.extractLsb'_eq_self

theorem at_fmtMS_11_3 (op : BitVec 6) (a b : Fld) (sz : BitVec 2) (p : BitVec 3) (n : Bool) (o : BitVec 10) : (fmtMS op a b sz p n o).extractLsb' 11 3 = p := by
  unfold fmtMS
  rw [BitVec.extractLsb'_append_eq_of_le (by decide)]
  rw [BitVec.extractLsb'_append_eq_of_le (by decide)]
  rw [BitVec.extractLsb'_append_eq_of_add_le (by decide)]
  exact BitVec.extractLsb'_eq_self

theorem at_fmtMS_0_10 (op : BitVec 6) (a b : Fld) (sz : BitVec 2) (p : BitVec 3) (n : Bool) (o : BitVec 10) : (fmtMS op a b sz p n o).extractLsb' 0 10 = o := by
  unfold fmtMS
  rw [BitVec.extractLsb'_append_eq_of_add_le (by decide)]
  exact BitVec.extractLsb'_eq_self

theorem opc_fmtMS (op : BitVec 6) (a b : Fld) (sz : BitVec 2) (p : BitVec 3) (n : Bool) (o : BitVec 10) : opc (fmtMS op a b sz p n o) = op := by
  unfold fmtMS opc
  rw [BitVec.extractLsb'_append_eq_of_le (by decide)]
  rw [BitVec.extractLsb'_append_eq_of_le (by decide)]
  rw [BitVec.extractLsb'_append_eq_of_le (by decide)]
  rw [BitVec.extractLsb'_append_eq_of_le (by decide)]
  rw [BitVec.extractLsb'_append_eq_of_le (by decide)]
  rw [BitVec.extractLsb'_append_eq_of_le (by decide)]
  exact BitVec.extractLsb'_eq_self

theorem fA_fmtMS (op : BitVec 6) (a b : Fld) (sz : BitVec 2) (p : BitVec 3) (n : Bool) (o : BitVec 10) : fA (fmtMS op a b sz p n o) = a := by
  unfold fmtMS fA
  rw [BitVec.extractLsb'_append_eq_of_le (by decide)]
  rw [BitVec.extractLsb'_append_eq_of_le (by decide)]
  rw [BitVec.extractLsb'_append_eq_of_le (by decide)]
  rw [BitVec.extractLsb'_append_eq_of_le (by decide)]
  rw [BitVec.extractLsb'_append_eq_of_le (by decide)]
  rw [BitVec.extractLsb'_append_eq_of_add_le (by decide)]
  exact BitVec.extractLsb'_eq_self

theorem fB_fmtMS (op : BitVec 6) (a b : Fld) (sz : BitVec 2) (p : BitVec 3) (n : Bool) (o : BitVec 10) : fB (fmtMS op a b sz p n o) = b := by
  unfold fmtMS fB
  rw [BitVec.extractLsb'_append_eq_of_le (by decide)]
  rw [BitVec.extractLsb'_append_eq_of_le (by decide)]
  rw [BitVec.extractLsb'_append_eq_of_le (by decide)]
  rw [BitVec.extractLsb'_append_eq_of_le (by decide)]
  rw [BitVec.extractLsb'_append_eq_of_add_le (by decide)]
  exact BitVec.extractLsb'_eq_self

theorem bit_fmtMS_10 (op : BitVec 6) (a b : Fld) (sz : BitVec 2) (p : BitVec 3) (n : Bool) (o : BitVec 10) : bitAt (fmtMS op a b sz p n o) 10 = n := by
  unfold bitAt fmtMS
  rw [BitVec.getLsbD_append, if_neg (by decide)]
  rw [BitVec.getLsbD_append, if_pos (by decide)]
  cases n <;> rfl

theorem at_fmtJ_0_26 (op : BitVec 6) (o : BitVec 26) : (fmtJ op o).extractLsb' 0 26 = o := by
  unfold fmtJ
  rw [BitVec.extractLsb'_append_eq_of_add_le (by decide)]
  exact BitVec.extractLsb'_eq_self

theorem opc_fmtJ (op : BitVec 6) (o : BitVec 26) : opc (fmtJ op o) = op := by
  unfold fmtJ opc
  rw [BitVec.extractLsb'_append_eq_of_le (by decide)]
  exact BitVec.extractLsb'_eq_self

theorem fA_fmtJ (op : BitVec 6) (o : BitVec 26) : fA (fmtJ op o) = (o).extractLsb' 21 5 := by
  unfold fmtJ fA
  rw [BitVec.extractLsb'_append_eq_of_add_le (by decide)]

theorem fB_fmtJ (op : BitVec 6) (o : BitVec 26) : fB (fmtJ op o) = (o).extractLsb' 16 5 := by
  unfold fmtJ fB
  rw [BitVec.extractLsb'_append_eq_of_add_le (by decide)]

theorem fC_fmtJ (op : BitVec 6) (o : BitVec 26) : fC (fmtJ op o) = (o).extractLsb' 11 5 := by
  unfold fmtJ fC
  rw [BitVec.extractLsb'_append_eq_of_add_le (by decide)]

theorem fO_fmtJ (op : BitVec 6) (o : BitVec 26) : fO (fmtJ op o) = (o).extractLsb' 6 5 := by
  unfold fmtJ fO
  rw [BitVec.extractLsb'_append_eq_of_add_le (by decide)]

theorem at_fmtU_0_21 (op : BitVec 6) (a : Fld) (i : BitVec 21) : (fmtU op a i).extractLsb' 0 21 = i := by
  unfold fmtU
  rw [BitVec.extractLsb'_append_eq_of_add_le (by decide)]
  exact BitVec.extractLsb'_eq_self

theorem opc_fmtU (op : BitVec 6) (a : Fld) (i : BitVec 21) : opc (fmtU op a i) = op := by
  unfold fmtU opc
  rw [BitVec.extractLsb'_append_eq_of_le (by decide)]
  rw [BitVec.extractLsb'_append_eq_of_le (by decide)]
  exact BitVec.extractLsb'_eq_self

theorem fA_fmtU (op : BitVec 6) (a : Fld) (i : BitVec 21) : fA (fmtU op a i) = a := by
  unfold fmtU fA
  rw [BitVec.extractLsb'_append_eq_of_le (by decide)]
  rw [BitVec.extractLsb'_append_eq_of_add_le (by decide)]
  exact BitVec.extractLsb'_eq_self

theorem fB_fmtU (op : BitVec 6) (a : Fld) (i : BitVec 21) : fB (fmtU op a i) = (i).extractLsb' 16 5 := by
  unfold fmtU fB
  rw [BitVec.extractLsb'_append_eq_of_add_le (by decide)]

theorem fC_fmtU (op : BitVec 6) (a : Fld) (i : BitVec 21) : fC (fmtU op a i) = (i).extractLsb' 11 5 := by
  unfold fmtU fC
  rw [BitVec.extractLsb'_append_eq_of_add_le (by decide)]

theorem fO_fmtU (op : BitVec 6) (a : Fld) (i : BitVec 21) : fO (fmtU op a i) = (i).extractLsb' 6 5 := by
  unfold fmtU fO
  rw [BitVec.extractLsb'_append_eq_of_add_le (by decide)]

theorem at_fmtV_0_3 (op : BitVec 6) (a b c o : Fld) (f m : BitVec 3) : (fmtV op a b c o f m).extractLsb' 0 3 = m := by
  unfold fmtV
  rw [BitVec.extractLsb'_append_eq_of_add_le (by decide)]
  exact BitVec.extractLsb'_eq_self

theorem at_fmtV_3_3 (op : BitVec 6) (a b c o : Fld) (f m : BitVec 3) : (fmtV op a b c o f m).extractLsb' 3 3 = f := by
  unfold fmtV
  rw [BitVec.extractLsb'_append_eq_of_le (by decide)]
  rw [BitVec.extractLsb'_append_eq_of_add_le (by decide)]
  exact BitVec.extractLsb'_eq_self

theorem at_fmtV_6_3 (op : BitVec 6) (a b c o : Fld) (f m : BitVec 3) : (fmtV op a b c o f m).extractLsb' 6 3 = (o).extractLsb' 0 3 := by
  unfold fmtV
  rw [BitVec.extractLsb'_append_eq_of_le (by decide)]
  rw [BitVec.extractLsb'_append_eq_of_le (by decide)]
  rw [BitVec.extractLsb'_append_eq_of_add_le (by decide)]

theorem at_fmtV_6_4 (op : BitVec 6) (a b c o : Fld) (f m : BitVec 3) : (fmtV op a b c o f m).extractLsb' 6 4 = (o).extractLsb' 0 4 := by
  unfold fmtV
  rw [BitVec.extractLsb'_append_eq_of_le (by decide)]
  rw [BitVec.extractLsb'_append_eq_of_le (by decide)]
  rw [BitVec.extractLsb'_append_eq_of_add_le (by decide)]

theorem at_fmtV_13_3 (op : BitVec 6) (a b c o : Fld) (f m : BitVec 3) : (fmtV op a b c o f m).extractLsb' 13 3 = (c).extractLsb' 2 3 := by
  unfold fmtV
  rw [BitVec.extractLsb'_append_eq_of_le (by decide)]
  rw [BitVec.extractLsb'_append_eq_of_le (by decide)]
  rw [BitVec.extractLsb'_append_eq_of_le (by decide)]
  rw [BitVec.extractLsb'_append_eq_of_add_le (by decide)]

theorem at_fmtV_11_2 (op : BitVec 6) (a b c o : Fld) (f m : BitVec 3) : (fmtV op a b c o f m).extractLsb' 11 2 = (c).extractLsb' 0 2 := by
  unfold fmtV
  rw [BitVec.extractLsb'_append_eq_of_le (by decide)]
  rw [BitVec.extractLsb'_append_eq_of_le (by decide)]
  rw [BitVec.extractLsb'_append_eq_of_le (by decide)]
  rw [BitVec.extractLsb'_append_eq_of_add_le (by decide)]

theorem at_fmtV_21_3 (op : BitVec 6) (a b c o : Fld) (f m : BitVec 3) : (fmtV op a b c o f m).extractLsb' 21 3 = (a).extractLsb' 0 3 := by
  unfold fmtV
  rw [BitVec.extractLsb'_append_eq_of_le (by decide)]
  rw [BitVec.extractLsb'_append_eq_of_le (by decide)]
  rw [BitVec.extractLsb'_append_eq_of_le (by decide)]
  rw [BitVec.extractLsb'_append_eq_of_le (by decide)]
  rw [BitVec.extractLsb'_append_eq_of_le (by decide)]
  rw [BitVec.extractLsb'_append_eq_of_add_le (by decide)]

theorem opc_fmtV (op : BitVec 6) (a b c o : Fld) (f m : BitVec 3) : opc (fmtV op a b c o f m) = op := by
  unfold fmtV opc
  rw [BitVec.extractLsb'_append_eq_of_le (by decide)]
  rw [BitVec.extractLsb'_append_eq_of_le (by decide)]
  rw [BitVec.extractLsb'_append_eq_of_le (by decide)]
  rw [BitVec.extractLsb'_append_eq_of_le (by decide)]
  rw [BitVec.extractLsb'_append_eq_of_le (by decide)]
  rw [BitVec.extractLsb'_append_eq_of_le (by decide)]
  exact BitVec.extractLsb'_eq_self

theorem fA_fmtV (op : BitVec 6) (a b c o : Fld) (f m : BitVec 3) : fA (fmtV op a b c o f m) = a := by
  unfold fmtV fA
  rw [BitVec.extractLsb'_append_eq_of_le (by decide)]
  rw [BitVec.extractLsb'_append_eq_of_le (by decide)]
  rw [BitVec.extractLsb'_append_eq_of_le (by decide)]
  rw [BitVec.extractLsb'_append_eq_of_le (by decide)]
  rw [BitVec.extractLsb'_append_eq_of_le (by decide)]
  rw [BitVec.extractLsb'_append_eq_of_add_le (by decide)]
  exact BitVec.extractLsb'_eq_self

theorem fB_fmtV (op : BitVec 6) (a b c o : Fld) (f m : BitVec 3) : fB (fmtV op a b c o f m) = b := by
  unfold fmtV fB
  rw [BitVec.extractLsb'_append_eq_of_le (by decide)]
  rw [BitVec.extractLsb'_append_eq_of_le (by decide)]
  rw [BitVec.extractLsb'_append_eq_of_le (by decide)]
  rw [BitVec.extractLsb'_append_eq_of_le (by decide)]
  rw [BitVec.extractLsb'_append_eq_of_add_le (by decide)]
  exact BitVec.extractLsb'_eq_self

theorem fC_fmtV (op : BitVec 6) (a b c o : Fld) (f m : BitVec 3) : fC (fmtV op a b c o f m) = c := by
  unfold fmtV fC
  rw [BitVec.extractLsb'_append_eq_of_le (by decide)]
  rw [BitVec.extractLsb'_append_eq_of_le (by decide)]
  rw [BitVec.extractLsb'_append_eq_of_le (by decide)]
  rw [BitVec.extractLsb'_append_eq_of_add_le (by decide)]
  exact BitVec.extractLsb'_eq_self

theorem fO_fmtV (op : BitVec 6) (a b c o : Fld) (f m : BitVec 3) : fO (fmtV op a b c o f m) = o := by
  unfold fmtV fO
  rw [BitVec.extractLsb'_append_eq_of_le (by decide)]
  rw [BitVec.extractLsb'_append_eq_of_le (by decide)]
  rw [BitVec.extractLsb'_append_eq_of_add_le (by decide)]
  exact BitVec.extractLsb'_eq_self

theorem bit_fmtV_6 (op : BitVec 6) (a b c o : Fld) (f m : BitVec 3) : bitAt (fmtV op a b c o f m) 6 = o.getLsbD 0 := by
  unfold bitAt fmtV
  rw [BitVec.getLsbD_append, if_neg (by decide)]
  rw [BitVec.getLsbD_append, if_neg (by decide)]
  rw [BitVec.getLsbD_append, if_pos (by decide)]

theorem bit_fmtV_7 (op : BitVec 6) (a b c o : Fld) (f m : BitVec 3) : bitAt (fmtV op a b c o f m) 7 = o.getLsbD 1 := by
  unfold bitAt fmtV
  rw [BitVec.getLsbD_append, if_neg (by decide)]
  rw [BitVec.getLsbD_append, if_neg (by decide)]
  rw [BitVec.getLsbD_append, if_pos (by decide)]

theorem bit_fmtV_8 (op : BitVec 6) (a b c o : Fld) (f m : BitVec 3) : bitAt (fmtV op a b c o f m) 8 = o.getLsbD 2 := by
  unfold bitAt fmtV
  rw [BitVec.getLsbD_append, if_neg (by decide)]
  rw [BitVec.getLsbD_append, if_neg (by decide)]
  rw [BitVec.getLsbD_append, if_pos (by decide)]

theorem bit_fmtV_9 (op : BitVec 6) (a b c o : Fld) (f m : BitVec 3) : bitAt (fmtV op a b c o f m) 9 = o.getLsbD 3 := by
  unfold bitAt fmtV
  rw [BitVec.getLsbD_append, if_neg (by decide)]
  rw [BitVec.getLsbD_append, if_neg (by decide)]
  rw [BitVec.getLsbD_append, if_pos (by decide)]

theorem at_fmtX_7_4 (op : BitVec 6) (a b c : Fld) (fn : BitVec 4) (p : BitVec 3) (fl : BitVec 4) : (fmtX op a b c fn p fl).extractLsb' 7 4 = fn := by
  unfold fmtX
  rw [BitVec.extractLsb'_append_eq_of_le (by decide)]
  rw [BitVec.extractLsb'_append_eq_of_le (by decide)]
  rw [BitVec.extractLsb'_append_eq_of_add_le (by decide)]
  exact BitVec.extractLsb'_eq_self

theorem at_fmtX_4_3 (op : BitVec 6) (a b c : Fld) (fn : BitVec 4) (p : BitVec 3) (fl : BitVec 4) : (fmtX op a b c fn p fl).extractLsb' 4 3 = p := by
  unfold fmtX
  rw [BitVec.extractLsb'_append_eq_of_le (by decide)]
  rw [BitVec.extractLsb'_append_eq_of_add_le (by decide)]
  exact BitVec.extractLsb'_eq_self

theorem at_fmtX_0_3 (op : BitVec 6) (a b c : Fld) (fn : BitVec 4) (p : BitVec 3) (fl : BitVec 4) : (fmtX op a b c fn p fl).extractLsb' 0 3 = (fl).extractLsb' 0 3 := by
  unfold fmtX
  rw [BitVec.extractLsb'_append_eq_of_add_le (by decide)]

theorem at_fmtX_0_2 (op : BitVec 6) (a b c : Fld) (fn : BitVec 4) (p : BitVec 3) (fl : BitVec 4) : (fmtX op a b c fn p fl).extractLsb' 0 2 = (fl).extractLsb' 0 2 := by
  unfold fmtX
  rw [BitVec.extractLsb'_append_eq_of_add_le (by decide)]

theorem at_fmtX_3_1 (op : BitVec 6) (a b c : Fld) (fn : BitVec 4) (p : BitVec 3) (fl : BitVec 4) : (fmtX op a b c fn p fl).extractLsb' 3 1 = (fl).extractLsb' 3 1 := by
  unfold fmtX
  rw [BitVec.extractLsb'_append_eq_of_add_le (by decide)]

theorem opc_fmtX (op : BitVec 6) (a b c : Fld) (fn : BitVec 4) (p : BitVec 3) (fl : BitVec 4) : opc (fmtX op a b c fn p fl) = op := by
  unfold fmtX opc
  rw [BitVec.extractLsb'_append_eq_of_le (by decide)]
  rw [BitVec.extractLsb'_append_eq_of_le (by decide)]
  rw [BitVec.extractLsb'_append_eq_of_le (by decide)]
  rw [BitVec.extractLsb'_append_eq_of_le (by decide)]
  rw [BitVec.extractLsb'_append_eq_of_le (by decide)]
  rw [BitVec.extractLsb'_append_eq_of_le (by decide)]
  exact BitVec.extractLsb'_eq_self

theorem fA_fmtX (op : BitVec 6) (a b c : Fld) (fn : BitVec 4) (p : BitVec 3) (fl : BitVec 4) : fA (fmtX op a b c fn p fl) = a := by
  unfold fmtX fA
  rw [BitVec.extractLsb'_append_eq_of_le (by decide)]
  rw [BitVec.extractLsb'_append_eq_of_le (by decide)]
  rw [BitVec.extractLsb'_append_eq_of_le (by decide)]
  rw [BitVec.extractLsb'_append_eq_of_le (by decide)]
  rw [BitVec.extractLsb'_append_eq_of_le (by decide)]
  rw [BitVec.extractLsb'_append_eq_of_add_le (by decide)]
  exact BitVec.extractLsb'_eq_self

theorem fB_fmtX (op : BitVec 6) (a b c : Fld) (fn : BitVec 4) (p : BitVec 3) (fl : BitVec 4) : fB (fmtX op a b c fn p fl) = b := by
  unfold fmtX fB
  rw [BitVec.extractLsb'_append_eq_of_le (by decide)]
  rw [BitVec.extractLsb'_append_eq_of_le (by decide)]
  rw [BitVec.extractLsb'_append_eq_of_le (by decide)]
  rw [BitVec.extractLsb'_append_eq_of_le (by decide)]
  rw [BitVec.extractLsb'_append_eq_of_add_le (by decide)]
  exact BitVec.extractLsb'_eq_self

theorem fC_fmtX (op : BitVec 6) (a b c : Fld) (fn : BitVec 4) (p : BitVec 3) (fl : BitVec 4) : fC (fmtX op a b c fn p fl) = c := by
  unfold fmtX fC
  rw [BitVec.extractLsb'_append_eq_of_le (by decide)]
  rw [BitVec.extractLsb'_append_eq_of_le (by decide)]
  rw [BitVec.extractLsb'_append_eq_of_le (by decide)]
  rw [BitVec.extractLsb'_append_eq_of_add_le (by decide)]
  exact BitVec.extractLsb'_eq_self

theorem bit_fmtX_0 (op : BitVec 6) (a b c : Fld) (fn : BitVec 4) (p : BitVec 3) (fl : BitVec 4) : bitAt (fmtX op a b c fn p fl) 0 = fl.getLsbD 0 := by
  unfold bitAt fmtX
  rw [BitVec.getLsbD_append, if_pos (by decide)]

theorem bit_fmtX_1 (op : BitVec 6) (a b c : Fld) (fn : BitVec 4) (p : BitVec 3) (fl : BitVec 4) : bitAt (fmtX op a b c fn p fl) 1 = fl.getLsbD 1 := by
  unfold bitAt fmtX
  rw [BitVec.getLsbD_append, if_pos (by decide)]

theorem bit_fmtX_2 (op : BitVec 6) (a b c : Fld) (fn : BitVec 4) (p : BitVec 3) (fl : BitVec 4) : bitAt (fmtX op a b c fn p fl) 2 = fl.getLsbD 2 := by
  unfold bitAt fmtX
  rw [BitVec.getLsbD_append, if_pos (by decide)]

theorem bit_fmtX_3 (op : BitVec 6) (a b c : Fld) (fn : BitVec 4) (p : BitVec 3) (fl : BitVec 4) : bitAt (fmtX op a b c fn p fl) 3 = fl.getLsbD 3 := by
  unfold bitAt fmtX
  rw [BitVec.getLsbD_append, if_pos (by decide)]

theorem at_fmtC_4_12 (op : BitVec 6) (a b : Fld) (n : BitVec 12) (fl : BitVec 4) : (fmtC op a b n fl).extractLsb' 4 12 = n := by
  unfold fmtC
  rw [BitVec.extractLsb'_append_eq_of_le (by decide)]
  rw [BitVec.extractLsb'_append_eq_of_add_le (by decide)]
  exact BitVec.extractLsb'_eq_self

theorem at_fmtC_0_2 (op : BitVec 6) (a b : Fld) (n : BitVec 12) (fl : BitVec 4) : (fmtC op a b n fl).extractLsb' 0 2 = (fl).extractLsb' 0 2 := by
  unfold fmtC
  rw [BitVec.extractLsb'_append_eq_of_add_le (by decide)]

theorem opc_fmtC (op : BitVec 6) (a b : Fld) (n : BitVec 12) (fl : BitVec 4) : opc (fmtC op a b n fl) = op := by
  unfold fmtC opc
  rw [BitVec.extractLsb'_append_eq_of_le (by decide)]
  rw [BitVec.extractLsb'_append_eq_of_le (by decide)]
  rw [BitVec.extractLsb'_append_eq_of_le (by decide)]
  rw [BitVec.extractLsb'_append_eq_of_le (by decide)]
  exact BitVec.extractLsb'_eq_self

theorem fA_fmtC (op : BitVec 6) (a b : Fld) (n : BitVec 12) (fl : BitVec 4) : fA (fmtC op a b n fl) = a := by
  unfold fmtC fA
  rw [BitVec.extractLsb'_append_eq_of_le (by decide)]
  rw [BitVec.extractLsb'_append_eq_of_le (by decide)]
  rw [BitVec.extractLsb'_append_eq_of_le (by decide)]
  rw [BitVec.extractLsb'_append_eq_of_add_le (by decide)]
  exact BitVec.extractLsb'_eq_self

theorem fB_fmtC (op : BitVec 6) (a b : Fld) (n : BitVec 12) (fl : BitVec 4) : fB (fmtC op a b n fl) = b := by
  unfold fmtC fB
  rw [BitVec.extractLsb'_append_eq_of_le (by decide)]
  rw [BitVec.extractLsb'_append_eq_of_le (by decide)]
  rw [BitVec.extractLsb'_append_eq_of_add_le (by decide)]
  exact BitVec.extractLsb'_eq_self

theorem fC_fmtC (op : BitVec 6) (a b : Fld) (n : BitVec 12) (fl : BitVec 4) : fC (fmtC op a b n fl) = (n).extractLsb' 7 5 := by
  unfold fmtC fC
  rw [BitVec.extractLsb'_append_eq_of_le (by decide)]
  rw [BitVec.extractLsb'_append_eq_of_add_le (by decide)]

theorem fO_fmtC (op : BitVec 6) (a b : Fld) (n : BitVec 12) (fl : BitVec 4) : fO (fmtC op a b n fl) = (n).extractLsb' 2 5 := by
  unfold fmtC fO
  rw [BitVec.extractLsb'_append_eq_of_le (by decide)]
  rw [BitVec.extractLsb'_append_eq_of_add_le (by decide)]

/-! ### Flags, options and fields that lie across others -/


theorem fl4_0 (a b c d : Bool) : (fl4 a b c d).getLsbD 0 = d := by cases a <;> cases b <;> cases c <;> cases d <;> rfl

theorem fl4_1 (a b c d : Bool) : (fl4 a b c d).getLsbD 1 = c := by cases a <;> cases b <;> cases c <;> cases d <;> rfl

theorem fl4_2 (a b c d : Bool) : (fl4 a b c d).getLsbD 2 = b := by cases a <;> cases b <;> cases c <;> cases d <;> rfl

theorem fl4_3 (a b c d : Bool) : (fl4 a b c d).getLsbD 3 = a := by cases a <;> cases b <;> cases c <;> cases d <;> rfl

theorem fl3_0 (x : BitVec 1) (a b c : Bool) : (x ++ fl3 a b c : BitVec 4).getLsbD 0 = c := by
  rw [BitVec.getLsbD_append, if_pos (by decide)]; cases a <;> cases b <;> cases c <;> rfl

theorem optO_0 (n s r m : Bool) : (optO n s r m).getLsbD 0 = m := by cases n <;> cases s <;> cases r <;> cases m <;> rfl

theorem optO_1 (n s r m : Bool) : (optO n s r m).getLsbD 1 = r := by cases n <;> cases s <;> cases r <;> cases m <;> rfl

theorem optO_2 (n s r m : Bool) : (optO n s r m).getLsbD 2 = s := by cases n <;> cases s <;> cases r <;> cases m <;> rfl

theorem optO_3 (n s r m : Bool) : (optO n s r m).getLsbD 3 = n := by cases n <;> cases s <;> cases r <;> cases m <;> rfl

theorem cat0 {n k : Nat} (x : BitVec n) (y : BitVec k) : (x ++ y).extractLsb' 0 k = y := by
  rw [BitVec.extractLsb'_append_eq_of_add_le (by omega)]; exact BitVec.extractLsb'_eq_self

theorem cat1 {n k : Nat} (x : BitVec n) (y : BitVec k) : (x ++ y).extractLsb' k n = x := by
  rw [BitVec.extractLsb'_append_eq_of_le (by omega), Nat.sub_self]; exact BitVec.extractLsb'_eq_self

theorem join (k n : Nat) (x : BitVec (k + n)) : x.extractLsb' n k ++ x.extractLsb' 0 n = x := by
  apply BitVec.eq_of_getLsbD_eq
  intro i hi
  rw [BitVec.getLsbD_append]
  split
  · rename_i h; rw [BitVec.getLsbD_extractLsb']; simp [h]
  · rename_i h; rw [BitVec.getLsbD_extractLsb']
    have : i - n < k := by omega
    have e : n + (i - n) = i := by omega
    simp [this, e]

theorem exex {w : Nat} (s n t m : Nat) (x : BitVec w) (h : t + m ≤ n) : (x.extractLsb' s n).extractLsb' t m = x.extractLsb' (s + t) m := by
  apply BitVec.eq_of_getLsbD_eq
  intro i hi
  rw [BitVec.getLsbD_extractLsb', BitVec.getLsbD_extractLsb', BitVec.getLsbD_extractLsb']
  have : t + i < n := by omega
  simp [hi, this, Nat.add_assoc]

theorem cut {w : Nat} (s k n : Nat) (x : BitVec w) : x.extractLsb' s (k + n) = x.extractLsb' (s + n) k ++ x.extractLsb' s n := by
  rw [← join k n (x.extractLsb' s (k + n)), exex _ _ _ _ _ (by omega), exex _ _ _ _ _ (by omega), Nat.add_zero]

theorem span_fmtV (op : BitVec 6) (a b : Fld) (o : BitVec 10) (f m : BitVec 3) :
    (fmtV op a b (o.extractLsb' 5 5) (o.extractLsb' 0 5) f m).extractLsb' 6 10 = o := by
  have h1 := fC_fmtV op a b (o.extractLsb' 5 5) (o.extractLsb' 0 5) f m
  have h2 := fO_fmtV op a b (o.extractLsb' 5 5) (o.extractLsb' 0 5) f m
  unfold fC at h1; unfold fO at h2
  rw [cut 6 5 5, h1, h2]
  exact join 5 5 o

theorem span_fmtX (op : BitVec 6) (c : BitVec 15) (fn : BitVec 4) (p : BitVec 3) (fl : BitVec 4) :
    (fmtX op (c.extractLsb' 10 5) (c.extractLsb' 5 5) (c.extractLsb' 0 5) fn p fl).extractLsb' 11 15 = c := by
  have h1 := fA_fmtX op (c.extractLsb' 10 5) (c.extractLsb' 5 5) (c.extractLsb' 0 5) fn p fl
  have h2 := fB_fmtX op (c.extractLsb' 10 5) (c.extractLsb' 5 5) (c.extractLsb' 0 5) fn p fl
  have h3 := fC_fmtX op (c.extractLsb' 10 5) (c.extractLsb' 5 5) (c.extractLsb' 0 5) fn p fl
  unfold fA at h1; unfold fB at h2; unfold fC at h3
  rw [cut 11 5 10, cut 11 5 5, h1, h2, h3, ← cut 0 5 5]
  exact join 5 10 c

theorem bar_fmtX (op : BitVec 6) (a b : Fld) (n : BitVec 6) (fn : BitVec 4) (p : BitVec 3) (fl : BitVec 3) :
    fBar (fmtX op a b (n.extractLsb' 0 5) fn p (n.extractLsb' 5 1 ++ fl : BitVec 4)) = n := by
  unfold fBar
  have h1 := fC_fmtX op a b (n.extractLsb' 0 5) fn p (n.extractLsb' 5 1 ++ fl : BitVec 4)
  have h2 := at_fmtX_3_1 op a b (n.extractLsb' 0 5) fn p (n.extractLsb' 5 1 ++ fl : BitVec 4)
  unfold fC at h1
  rw [h1, h2, cat1]
  exact join 1 5 n

theorem shift_k (k : BitVec 2) (n : BitVec 6) : (0#8 ++ k ++ n : BitVec 16).extractLsb' 6 2 = k := by
  rw [BitVec.extractLsb'_append_eq_of_le (by decide)]
  exact cat0 _ _

theorem top4 (s : Bool) (x : BitVec 3) : (BitVec.ofBool s ++ x : BitVec 4).getLsbD 3 = s := by
  rw [BitVec.getLsbD_append, if_neg (by decide)]
  cases s <;> rfl

/-! ### The decoder, opcode by opcode (R88) -/

theorem op_01 {w : IWord} (h : opc w = 0x01) : decodeRaw w = (match rawAlu w (fA w) (fB w) (fC w) with | some i => .ok i | none => .error .function) := by
  unfold decodeRaw
  rw [h]
  rfl

theorem op_02 {w : IWord} (h : opc w = 0x02) : decodeRaw w = (match rawMul w (fA w) (fB w) (fC w) with | some i => .ok i | none => .error .function) := by
  unfold decodeRaw
  rw [h]
  rfl

theorem op_03 {w : IWord} (h : opc w = 0x03) : decodeRaw w = .ok (.addi (fA w) (fB w) (w.extractLsb' 0 16)) := by
  unfold decodeRaw
  rw [h]
  rfl

theorem op_04 {w : IWord} (h : opc w = 0x04) : decodeRaw w = .ok (.andi (fA w) (fB w) (w.extractLsb' 0 16)) := by
  unfold decodeRaw
  rw [h]
  rfl

theorem op_05 {w : IWord} (h : opc w = 0x05) : decodeRaw w = .ok (.ori (fA w) (fB w) (w.extractLsb' 0 16)) := by
  unfold decodeRaw
  rw [h]
  rfl

theorem op_06 {w : IWord} (h : opc w = 0x06) : decodeRaw w = .ok (.xori (fA w) (fB w) (w.extractLsb' 0 16)) := by
  unfold decodeRaw
  rw [h]
  rfl

theorem op_07 {w : IWord} (h : opc w = 0x07) : decodeRaw w = .ok (.slti (fA w) (fB w) (w.extractLsb' 0 16)) := by
  unfold decodeRaw
  rw [h]
  rfl

theorem op_08 {w : IWord} (h : opc w = 0x08) : decodeRaw w = .ok (.sltin (fA w) (fB w) (w.extractLsb' 0 16)) := by
  unfold decodeRaw
  rw [h]
  rfl

theorem op_09 {w : IWord} (h : opc w = 0x09) : decodeRaw w = (match rawShift w (fA w) (fB w) with | some i => .ok i | none => .error .function) := by
  unfold decodeRaw
  rw [h]
  rfl

theorem op_0A {w : IWord} (h : opc w = 0x0A) : decodeRaw w = .ok (.lhi (fA w) (w.extractLsb' 0 21)) := by
  unfold decodeRaw
  rw [h]
  rfl

theorem op_0B {w : IWord} (h : opc w = 0x0B) : decodeRaw w = .ok (.pchi (fA w) (w.extractLsb' 0 21)) := by
  unfold decodeRaw
  rw [h]
  rfl

theorem op_0C {w : IWord} (h : opc w = 0x0C) : decodeRaw w = .ok (.jal (w.extractLsb' 0 26)) := by
  unfold decodeRaw
  rw [h]
  rfl

theorem op_0D {w : IWord} (h : opc w = 0x0D) : decodeRaw w = .ok (.jalr (fA w) (fB w) (w.extractLsb' 2 14)) := by
  unfold decodeRaw
  rw [h]
  rfl

theorem op_0E {w : IWord} (h : opc w = 0x0E) : decodeRaw w = .ok (.beq (fA w) (fB w) (w.extractLsb' 0 16)) := by
  unfold decodeRaw
  rw [h]
  rfl

theorem op_0F {w : IWord} (h : opc w = 0x0F) : decodeRaw w = .ok (.bne (fA w) (fB w) (w.extractLsb' 0 16)) := by
  unfold decodeRaw
  rw [h]
  rfl

theorem op_10 {w : IWord} (h : opc w = 0x10) : decodeRaw w = .ok (.blt (fA w) (fB w) (w.extractLsb' 0 16)) := by
  unfold decodeRaw
  rw [h]
  rfl

theorem op_11 {w : IWord} (h : opc w = 0x11) : decodeRaw w = .ok (.bge (fA w) (fB w) (w.extractLsb' 0 16)) := by
  unfold decodeRaw
  rw [h]
  rfl

theorem op_12 {w : IWord} (h : opc w = 0x12) : decodeRaw w = .ok (.bltn (fA w) (fB w) (w.extractLsb' 0 16)) := by
  unfold decodeRaw
  rw [h]
  rfl

theorem op_13 {w : IWord} (h : opc w = 0x13) : decodeRaw w = .ok (.bgen (fA w) (fB w) (w.extractLsb' 0 16)) := by
  unfold decodeRaw
  rw [h]
  rfl

theorem op_14 {w : IWord} (h : opc w = 0x14) : decodeRaw w = .ok (.ldp (fA w) (fB w) (w.extractLsb' 14 2) (w.extractLsb' 0 14)) := by
  unfold decodeRaw
  rw [h]
  rfl

theorem op_15 {w : IWord} (h : opc w = 0x15) : decodeRaw w = .ok (.ldpx (fA w) (fB w) (w.extractLsb' 14 2) (w.extractLsb' 0 14)) := by
  unfold decodeRaw
  rw [h]
  rfl

theorem op_16 {w : IWord} (h : opc w = 0x16) : decodeRaw w = .ok (.stp (fA w) (fB w) (w.extractLsb' 14 2) (w.extractLsb' 0 14)) := by
  unfold decodeRaw
  rw [h]
  rfl

theorem op_17 {w : IWord} (h : opc w = 0x17) : decodeRaw w = .ok (.ld (fA w) (fB w) (w.extractLsb' 14 2) (w.extractLsb' 11 3) (bitAt w 10) (w.extractLsb' 0 10)) := by
  unfold decodeRaw
  rw [h]
  rfl

theorem op_18 {w : IWord} (h : opc w = 0x18) : decodeRaw w = .ok (.ldx (fA w) (fB w) (w.extractLsb' 14 2) (w.extractLsb' 11 3) (bitAt w 10) (w.extractLsb' 0 10)) := by
  unfold decodeRaw
  rw [h]
  rfl

theorem op_19 {w : IWord} (h : opc w = 0x19) : decodeRaw w = .ok (.st (fA w) (fB w) (w.extractLsb' 14 2) (w.extractLsb' 11 3) (w.extractLsb' 0 10)) := by
  unfold decodeRaw
  rw [h]
  rfl

theorem op_1A {w : IWord} (h : opc w = 0x1A) : decodeRaw w = .ok (.amo (fA w) (fB w) (fC w) (w.extractLsb' 7 4) (w.extractLsb' 4 3) (bitAt w 2) (bitAt w 1) (bitAt w 0)) := by
  unfold decodeRaw
  rw [h]
  rfl

theorem op_1B {w : IWord} (h : opc w = 0x1B) : decodeRaw w = (match rawOrd w (fA w) (fB w) (fC w) with | some i => .ok i | none => .error .function) := by
  unfold decodeRaw
  rw [h]
  rfl

theorem op_1C {w : IWord} (h : opc w = 0x1C) : decodeRaw w = (match rawMsg w (fA w) (fB w) (fC w) with | some i => .ok i | none => .error .function) := by
  unfold decodeRaw
  rw [h]
  rfl

theorem op_1D {w : IWord} (h : opc w = 0x1D) : decodeRaw w = (match rawTask w (fA w) (fB w) (fC w) with | some i => .ok i | none => .error .function) := by
  unfold decodeRaw
  rw [h]
  rfl

theorem op_1E {w : IWord} (h : opc w = 0x1E) : decodeRaw w = (match rawBar w (fA w) (fB w) with | some i => .ok i | none => .error .function) := by
  unfold decodeRaw
  rw [h]
  rfl

theorem op_1F {w : IWord} (h : opc w = 0x1F) : decodeRaw w = (match rawStrm w (fA w) (fB w) with | some i => .ok i | none => .error .function) := by
  unfold decodeRaw
  rw [h]
  rfl

theorem op_20 {w : IWord} (h : opc w = 0x20) : decodeRaw w = (match rawXfer w (fA w) (fB w) with | some i => .ok i | none => .error .function) := by
  unfold decodeRaw
  rw [h]
  rfl

theorem op_21 {w : IWord} (h : opc w = 0x21) : decodeRaw w = (match rawBlk w (fA w) (fB w) (fC w) with | some i => .ok i | none => .error .function) := by
  unfold decodeRaw
  rw [h]
  rfl

theorem op_22 {w : IWord} (h : opc w = 0x22) : decodeRaw w = (match rawCsr w (fA w) (fB w) with | some i => .ok i | none => .error .function) := by
  unfold decodeRaw
  rw [h]
  rfl

theorem op_23 {w : IWord} (h : opc w = 0x23) : decodeRaw w = (match rawSys w (fA w) (fB w) (fC w) with | some i => .ok i | none => .error .function) := by
  unfold decodeRaw
  rw [h]
  rfl

theorem op_24 {w : IWord} (h : opc w = 0x24) : decodeRaw w = (match rawVArith w (fA w) (fB w) (fC w) with | some i => .ok i | none => .error .function) := by
  unfold decodeRaw
  rw [h]
  rfl

theorem op_25 {w : IWord} (h : opc w = 0x25) : decodeRaw w = (match rawVLogic w (fA w) (fB w) (fC w) with | some i => .ok i | none => .error .function) := by
  unfold decodeRaw
  rw [h]
  rfl

theorem op_26 {w : IWord} (h : opc w = 0x26) : decodeRaw w = (match rawVCvt w (fA w) (fB w) (fC w) with | some i => .ok i | none => .error .function) := by
  unfold decodeRaw
  rw [h]
  rfl

theorem op_27 {w : IWord} (h : opc w = 0x27) : decodeRaw w = (match rawVMem w (fA w) (fB w) (fC w) with | some i => .ok i | none => .error .function) := by
  unfold decodeRaw
  rw [h]
  rfl

theorem op_28 {w : IWord} (h : opc w = 0x28) : decodeRaw w = (match rawVPerm w (fA w) (fB w) (fC w) with | some i => .ok i | none => .error .function) := by
  unfold decodeRaw
  rw [h]
  rfl

theorem op_29 {w : IWord} (h : opc w = 0x29) : decodeRaw w = (match rawVRed w (fA w) (fB w) with | some i => .ok i | none => .error .function) := by
  unfold decodeRaw
  rw [h]
  rfl

theorem op_2A {w : IWord} (h : opc w = 0x2A) : decodeRaw w = .ok (.vtran (fA w) (fB w) (bitAt w 6) (w.extractLsb' 0 3)) := by
  unfold decodeRaw
  rw [h]
  rfl

theorem op_2B {w : IWord} (h : opc w = 0x2B) : decodeRaw w = (match rawMma w (fA w) (fB w) with | some i => .ok i | none => .error .function) := by
  unfold decodeRaw
  rw [h]
  rfl

theorem op_2C {w : IWord} (h : opc w = 0x2C) : decodeRaw w = (match rawMctl w (fA w) (fB w) with | some i => .ok i | none => .error .function) := by
  unfold decodeRaw
  rw [h]
  rfl

theorem op_2D {w : IWord} (h : opc w = 0x2D) : decodeRaw w = (match rawMdrn w (fA w) (fB w) (fC w) with | some i => .ok i | none => .error .function) := by
  unfold decodeRaw
  rw [h]
  rfl

theorem op_2E {w : IWord} (h : opc w = 0x2E) : decodeRaw w = (match rawFalg w (fA w) (fB w) (fC w) with | some i => .ok i | none => .error .function) := by
  unfold decodeRaw
  rw [h]
  rfl

theorem op_2F {w : IWord} (h : opc w = 0x2F) : decodeRaw w = (match rawFcalc w (fA w) (fB w) with | some i => .ok i | none => .error .function) := by
  unfold decodeRaw
  rw [h]
  rfl

theorem op_30 {w : IWord} (h : opc w = 0x30) : decodeRaw w = (match rawFio w (fA w) (fB w) (fC w) with | some i => .ok i | none => .error .function) := by
  unfold decodeRaw
  rw [h]
  rfl

end Sys2Proof
end

