-- ==== Sys2Proof/Laws/Vector.lean ====
section
/-! SUPPORT. Vectors lane by lane (R127 to R172). -/

namespace Sys2Proof.Machine

theorem packBits_lt (w : Nat) : ∀ l : List Nat, packBits w l < 2 ^ (w * l.length) := by
  intro l
  induction l with
  | nil => simp [packBits]
  | cons x l ih =>
    show x % 2 ^ w + 2 ^ w * packBits w l < _
    rw [List.length_cons, Nat.mul_add, Nat.mul_one, Nat.pow_add, Nat.mul_comm (2 ^ (w * l.length))]
    have h1 := Nat.mod_lt x (show 0 < 2 ^ w from Nat.pow_pos (by decide))
    have h2 : 2 ^ w * packBits w l + 2 ^ w ≤ 2 ^ w * 2 ^ (w * l.length) := by
      rw [← Nat.mul_succ]; exact Nat.mul_le_mul_left _ ih
    omega

theorem packBits_get (w : Nat) : ∀ (l : List Nat) (k : Nat), packBits w l / 2 ^ (w * k) % 2 ^ w = l.getD k 0 % 2 ^ w := by
  intro l
  induction l with
  | nil => intro k; simp [packBits]
  | cons x l ih =>
    intro k
    have hp : 0 < 2 ^ w := Nat.pow_pos (by decide)
    show (x % 2 ^ w + 2 ^ w * packBits w l) / _ % _ = _
    cases k with
    | zero => rw [Nat.mul_zero, Nat.pow_zero, Nat.div_one, Nat.add_mul_mod_self_left, Nat.mod_mod]; rfl
    | succ k =>
      rw [Nat.mul_add, Nat.mul_one, Nat.pow_add, Nat.mul_comm (2 ^ (w * k)), ← Nat.div_div_eq_div_mul, Nat.add_mul_div_left _ _ hp,
        Nat.div_eq_of_lt (Nat.mod_lt _ hp), Nat.zero_add, ih]; rfl

theorem elem_lane (w : Nat) (x : BitVec 512) (k : Nat) : elem w x k = (lane w x k).toNat := by
  unfold elem lane
  rw [ext_toNat]

theorem lane_vmap (w : Nat) (_ : 0 < w) (act : Nat → Bool) (old : BitVec 512) (f : Nat → Nat) (k : Nat) (hk : k < 512 / w) :
    lane w (vmap w act old f) k = if act k then BitVec.ofNat w (f k) else lane w old k := by
  apply BitVec.eq_of_toNat_eq
  have hlt : packBits w ((List.range (512 / w)).map fun i => if act i then f i else elem w old i) < 2 ^ 512 := by
    refine Nat.lt_of_lt_of_le (packBits_lt w _) (Nat.pow_le_pow_right (by decide) ?_)
    rw [List.length_map, List.length_range]
    exact Nat.mul_div_le 512 w
  have h1 : (lane w (vmap w act old f) k).toNat = packBits w ((List.range (512 / w)).map fun i => if act i then f i else elem w old i) / 2 ^ (w * k) % 2 ^ w := by
    unfold lane vmap ofElems
    rw [ext_toNat, BitVec.toNat_ofNat, Nat.mod_eq_of_lt hlt]
  rw [h1, packBits_get, List.getD_eq_getElem _ _ (by simpa using hk)]
  simp only [List.getElem_map, List.getElem_range]
  by_cases h : act k = true
  · rw [if_pos h, if_pos h, BitVec.toNat_ofNat]
  · rw [if_neg h, if_neg h, elem_lane]; exact Nat.mod_eq_of_lt (lane w old k).isLt

theorem fmt_pos (f : BitVec 3) : 0 < fmtWidth f := by
  revert f; decide

theorem ofNat_natOf (w : Nat) (i : Int) : BitVec.ofNat w (natOf w i) = BitVec.ofInt w i := by
  apply BitVec.eq_of_toNat_eq
  rw [BitVec.toNat_ofNat, BitVec.toNat_ofInt]
  unfold natOf
  have h := Int.emod_lt_of_pos i (show (0 : Int) < ((2 ^ w : Nat) : Int) by exact_mod_cast Nat.pow_pos (by decide))
  have h2 := Int.emod_nonneg i (show ((2 ^ w : Nat) : Int) ≠ 0 by exact_mod_cast (Nat.pow_pos (n := w) (by decide : 0 < 2)).ne')
  have e : (2 : Int) ^ w = ((2 ^ w : Nat) : Int) := by push_cast; rfl
  rw [e]
  apply Nat.mod_eq_of_lt
  omega

theorem clamp_eq (w : Nat) (z : Int) : clampInt (-(2 ^ (w - 1))) (2 ^ (w - 1) - 1) z = Max.max (-(2 ^ (w - 1))) (Min.min (2 ^ (w - 1) - 1) z) := by
  unfold clampInt
  have : (0 : Int) < 2 ^ (w - 1) := by positivity
  rw [Int.max_def, Int.min_def]
  split <;> split <;> (try split) <;> omega

theorem narrow_eq (f : BitVec 3) (rz sat : Bool) (v : FV) (z : Int) : BitVec.ofNat (fmtWidth f) (vNarrow f rz sat v z) =
    if isFloat f then laneFloat f rz sat v else laneInt (fmtWidth f) sat z := by
  unfold vNarrow
  by_cases h : isFloat f = true
  · rw [if_pos h, if_pos h]; rfl
  · rw [if_neg h, if_neg h]
    dsimp only
    rw [ofNat_natOf]
    unfold laneInt
    cases sat with
    | true => rw [if_pos rfl, if_pos rfl, clamp_eq]
    | false => rfl

theorem int_lane (f : BitVec 3) (x : BitVec (fmtWidth f)) : intOf (fmtWidth f) x.toNat = x.toInt := intOf_toInt _ (fmt_pos f) x

theorem arith_eq (f : BitVec 3) (rz sat : Bool) (ff : FV → FV → FV) (fi : Int → Int → Int) (x y : BitVec (fmtWidth f)) :
    BitVec.ofNat (fmtWidth f) (vArith f rz sat ff fi x.toNat y.toNat) =
    if isFloat f then laneFloat f rz sat (ff (laneFV f x) (laneFV f y)) else laneInt _ sat (fi x.toInt y.toInt) := by
  unfold vArith
  dsimp only
  rw [narrow_eq, int_lane, int_lane]
  by_cases h : isFloat f = true
  · rw [if_pos h, if_pos h, if_pos h]; rfl
  · rw [if_neg h, if_neg h]

theorem ofNat_toNat' {w : Nat} (x : BitVec w) : BitVec.ofNat w x.toNat = x := by simp

theorem cmp_nan (a b : FV) : a.cmp b = none ↔ a = .nan ∨ b = .nan := by
  cases a <;> cases b <;> simp [FV.cmp]

theorem extreme_eq (mx n : Bool) (f : BitVec 3) (x y : BitVec (fmtWidth f)) :
    BitVec.ofNat (fmtWidth f) (vMinMax mx n f x.toNat y.toNat) = extreme mx n f x y := by
  unfold vMinMax extreme
  by_cases h : isFloat f = true
  · rw [if_pos h, if_pos h]
    have hc : ∀ z, decodeF (fmtOf f) (BitVec.toNat z) = laneFV f z := fun _ => rfl
    cases mx with
    | true =>
      rw [if_pos rfl]
      unfold fmaxF
      rw [hc, hc]
      rcases hcmp : (laneFV f x).cmp (laneFV f y) with _ | (_ | _ | _)
      · rw [if_pos ((cmp_nan _ _).1 hcmp)]
      · have h1 : ¬ (laneFV f x = .nan ∨ laneFV f y = .nan) := fun e => by rw [(cmp_nan _ _).2 e] at hcmp; cases hcmp
        rw [if_neg h1, if_pos (Or.inl (by unfold FV.lt; rw [hcmp]; rfl)), if_pos rfl]; exact ofNat_toNat' y
      · have h1 : ¬ (laneFV f x = .nan ∨ laneFV f y = .nan) := fun e => by rw [(cmp_nan _ _).2 e] at hcmp; cases hcmp
        rw [if_neg h1]
        have hlt : (laneFV f x).lt (laneFV f y) = false := by unfold FV.lt; rw [hcmp]; rfl
        have heq : (laneFV f x).eq (laneFV f y) = true := by unfold FV.eq; rw [hcmp]; rfl
        rw [hlt, heq]
        by_cases g : (laneFV f x).isNeg = true
        · rw [g]; simp
        · simp [g]
      · have h1 : ¬ (laneFV f x = .nan ∨ laneFV f y = .nan) := fun e => by rw [(cmp_nan _ _).2 e] at hcmp; cases hcmp
        rw [if_neg h1]
        have hlt : (laneFV f x).lt (laneFV f y) = false := by unfold FV.lt; rw [hcmp]; rfl
        have heq : (laneFV f x).eq (laneFV f y) = false := by unfold FV.eq; rw [hcmp]; rfl
        rw [hlt, heq]; simp
    | false =>
      rw [if_neg Bool.false_ne_true]
      unfold fminF
      rw [hc, hc]
      rcases hcmp : (laneFV f x).cmp (laneFV f y) with _ | (_ | _ | _)
      · rw [if_pos ((cmp_nan _ _).1 hcmp)]
      · have h1 : ¬ (laneFV f x = .nan ∨ laneFV f y = .nan) := fun e => by rw [(cmp_nan _ _).2 e] at hcmp; cases hcmp
        rw [if_neg h1, if_pos (Or.inl (by unfold FV.lt; rw [hcmp]; rfl)), if_neg Bool.false_ne_true]; exact ofNat_toNat' x
      · have h1 : ¬ (laneFV f x = .nan ∨ laneFV f y = .nan) := fun e => by rw [(cmp_nan _ _).2 e] at hcmp; cases hcmp
        rw [if_neg h1]
        have hlt : (laneFV f x).lt (laneFV f y) = false := by unfold FV.lt; rw [hcmp]; rfl
        have heq : (laneFV f x).eq (laneFV f y) = true := by unfold FV.eq; rw [hcmp]; rfl
        rw [hlt, heq]
        by_cases g : (laneFV f x).isNeg = true
        · rw [g]; simp
        · simp [g]
      · have h1 : ¬ (laneFV f x = .nan ∨ laneFV f y = .nan) := fun e => by rw [(cmp_nan _ _).2 e] at hcmp; cases hcmp
        rw [if_neg h1]
        have hlt : (laneFV f x).lt (laneFV f y) = false := by unfold FV.lt; rw [hcmp]; rfl
        have heq : (laneFV f x).eq (laneFV f y) = false := by unfold FV.eq; rw [hcmp]; rfl
        rw [hlt, heq]; simp
  · rw [if_neg h, if_neg h]
    dsimp only
    rw [int_lane, int_lane]
    cases n with
    | true =>
      rw [if_pos rfl, if_pos rfl]
      by_cases g : x.toNat ≤ y.toNat <;> cases mx <;> simp [g]
    | false =>
      rw [if_neg Bool.false_ne_true, if_neg Bool.false_ne_true]
      by_cases g : x.toInt ≤ y.toInt <;> cases mx <;> simp [g]

theorem vOp_ok {c : Charge} {vsrcs srcs : List Fld} {vd : Fld} {part : Bool} {f : List (BitVec 512) → List Word → BitVec 512 → BitVec 512}
    {s u : State} {vs : List (BitVec 512)} {xs : List Word} (h : takeV vsrcs srcs (some (vd, part)) [] s = .ok (vs, xs, u)) :
    finish (vOp c vsrcs srcs vd part f s) =
      .next ((writeV vd (f vs xs ((s.cur.v[vd.toNat]?).getD 0)) (charge c u)).onCur fun t => { t with hvy := true }).retired := by
  unfold vOp
  rw [stripRun_ok (t := advance (setHvy (writeV vd (f vs xs (s.getV vd)) (charge c u)))) (by unfold vOpRun; rw [h])]; rfl

theorem vec_exec {i : Instr} {c : Charge} {vsrcs srcs : List Fld} {vd : Fld} {part : Bool} {f : List (BitVec 512) → List Word → BitVec 512 → BitVec 512}
    {s u : State} {vs : List (BitVec 512)} {xs : List Word} (hi : exec i s = finish (vOp c vsrcs srcs vd part f s))
    (h : takeV vsrcs srcs (some (vd, part)) [] s = .ok (vs, xs, u)) {P : BitVec 512 → Prop} (hp : P (f vs xs ((s.cur.v[vd.toNat]?).getD 0))) :
    ∃ x : BitVec 512, exec i s = .next ((writeV vd x (charge c u)).onCur fun t => { t with hvy := true }).retired ∧ P x :=
  ⟨_, hi.trans (vOp_ok h), hp⟩

theorem vcvt_ok {a b : Fld} {e : BitVec 3} {p : BitVec 2} {st rr : Bool} {f : BitVec 3} {s u : State} {vs : List (BitVec 512)} {xs : List Word}
    (ht : takeV [b] [] (some (a, decide (fmtWidth f < fmtWidth e))) [] s = .ok (vs, xs, u)) :
    let ws := fmtWidth e
    let wd := fmtWidth f
    let n := 512 / Nat.max ws wd
    ∃ x : BitVec 512, exec (.vcvt a b e p st rr f) s = .next ((writeV a x (charge .vcvt u)).onCur fun t => { t with hvy := true }).retired ∧
      ∀ k, k < 512 / wd → lane wd x k =
        if !decide (wd < ws) || (decide (p.toNat * n ≤ k) && decide (k < p.toNat * n + n)) then
          BitVec.ofNat _ (convert e f rr st (lane ws (vsrc vs 0) (if wd < ws then k - p.toNat * n else if ws < wd then p.toNat * n + k else k)).toNat)
        else lane wd ((s.cur.v[a.toNat]?).getD 0) k := by
  intro ws wd n
  refine ⟨_, vOp_ok ht, fun k hk => ?_⟩
  show lane wd (vcvtReg e f p.toNat rr st (src1 vs) _) k = _
  unfold vcvtReg
  dsimp only
  by_cases h : wd < ws
  · rw [if_pos h, if_pos h, lane_vmap _ (fmt_pos f) _ _ _ k hk, elem_lane, decide_eq_true h]; rfl
  · rw [if_neg h, if_neg h, lane_vmap _ (fmt_pos f) _ _ _ k hk, if_pos rfl, elem_lane, decide_eq_false h]; rfl

theorem packBit_get (l : List Nat) (j : Nat) : (packBits 1 l).testBit j = decide (l.getD j 0 % 2 = 1) := by
  rw [Nat.testBit_eq_decide_div_mod_eq]
  have := packBits_get 1 l j
  rw [Nat.one_mul] at this
  rw [show (2 : Nat) ^ 1 = 2 from rfl] at this
  rw [this]

theorem cond_eq (k n f) (x y : BitVec (fmtWidth f)) : vCond k (vOrder n f x.toNat y.toNat) = compares k n f x y := by
  unfold vCond vOrder compares
  have h8 : k.toNat < 8 := k.isLt
  generalize k.toNat = q at h8
  by_cases h : isFloat f = true
  · simp only [h, if_true, true_and]
    have hc : ∀ z, decodeF (fmtOf f) (BitVec.toNat z) = laneFV f z := fun _ => rfl
    rw [hc, hc]
    unfold FV.lt FV.eq
    rcases hcmp : (laneFV f x).cmp (laneFV f y) with _ | (_ | _ | _)
    · rw [if_pos ((cmp_nan _ _).1 hcmp)]
      interval_cases q <;> rfl
    all_goals
      have h1 : ¬ (laneFV f x = .nan ∨ laneFV f y = .nan) := fun e => by rw [(cmp_nan _ _).2 e] at hcmp; cases hcmp
      rw [if_neg h1]
      interval_cases q <;> rfl
  · simp only [h, if_false, false_and, Bool.false_eq_true]
    rw [int_lane, int_lane]
    cases n with
    | true =>
      simp only [if_true]
      rcases Nat.lt_trichotomy x.toNat y.toNat with g | g | g
      · have h1 : ¬ x = y := fun e => by rw [e] at g; omega
        rw [if_pos (by exact_mod_cast g), decide_eq_true g, decide_eq_false h1]
        interval_cases q <;> rfl
      · have h1 : x = y := BitVec.eq_of_toNat_eq g
        subst h1
        rw [if_neg (by omega), if_pos rfl, decide_eq_false (by omega : ¬ x.toNat < x.toNat), decide_eq_true rfl]
        interval_cases q <;> rfl
      · have h1 : ¬ x = y := fun e => by rw [e] at g; omega
        rw [if_neg (by omega), if_neg (by omega), decide_eq_false (by omega : ¬ x.toNat < y.toNat), decide_eq_false h1]
        interval_cases q <;> rfl
    | false =>
      simp only [Bool.false_eq_true, if_false]
      rcases Int.lt_trichotomy x.toInt y.toInt with g | g | g
      · have h1 : ¬ x = y := fun e => by rw [e] at g; omega
        rw [if_pos g, decide_eq_true g, decide_eq_false h1]
        interval_cases q <;> rfl
      · have h1 : x = y := BitVec.eq_of_toInt_eq g
        subst h1
        rw [if_neg (by omega), if_pos rfl, decide_eq_false (by omega : ¬ x.toInt < x.toInt), decide_eq_true rfl]
        interval_cases q <;> rfl
      · have h1 : ¬ x = y := fun e => by rw [e] at g; omega
        rw [if_neg (by omega), if_neg (by omega), decide_eq_false (by omega : ¬ x.toInt < y.toInt), decide_eq_false h1]
        interval_cases q <;> rfl

theorem fmt_lanes (f : BitVec 3) : 512 / fmtWidth f ≤ 128 := by revert f; decide

theorem vcmp_bit (k : BitVec 3) (n m : Bool) (f : BitVec 3) (old : Word) (x y : BitVec 512) (j : Nat) (hj : j < 64) :
    (vcmpMask k n m f old x y).getLsbD j = (decide (j < 512 / fmtWidth f) && (!m || old.getLsbD j) && compares k n f (lane _ x j) (lane _ y j)) := by
  unfold vcmpMask
  dsimp only
  rw [BitVec.getLsbD, BitVec.toNat_ofNat, Nat.testBit_mod_two_pow, decide_eq_true hj, Bool.true_and, packBit_get]
  by_cases h : j < 512 / fmtWidth f
  · rw [List.getD_eq_getElem _ _ (by simpa using h), decide_eq_true h, Bool.true_and]
    simp only [List.getElem_map, List.getElem_range]
    rw [elem_lane, elem_lane, cond_eq]
    cases compares k n f (lane _ x j) (lane _ y j) <;> cases (!m || old.getLsbD j) <;> rfl
  · rw [List.getD_eq_default _ _ (by simpa using h), decide_eq_false h]; rfl

theorem actives_eq (s : State) (m : Bool) (w : Nat) (x : BitVec 512) : activeElems s m w x = (actives w m s.cur.vmask x).map (·.toNat) := by
  unfold activeElems actives
  rw [List.map_map]
  apply List.map_congr_left
  intro k _
  exact elem_lane w x k

theorem column_lane (fn : BitVec 3) (mask : BitVec 16) (x old : BitVec 512) (k : Nat) (hk : k < 16) : lane 32 (columnReg fn mask x old) k =
    if mask.getLsbD k then BitVec.ofNat 32 (columnFn fn (lane 32 x k).toNat) else lane 32 old k := by
  unfold columnReg
  rw [lane_vmap 32 (by decide) _ _ _ k hk, elem_lane]

theorem lane_zero (k : Nat) : lane 32 0 k = 0 := by
  unfold lane; apply BitVec.eq_of_toNat_eq; rw [ext_toNat]; simp

theorem gath_eq (s : State) (m : Bool) (w : Nat) (base : Word) (vi : BitVec 512) :
    gathAddrs s m w base.toNat vi = gathers w m s.cur.vmask base vi := by
  unfold gathAddrs gathers
  rw [show activeOf s m = fun k => !m || s.cur.vmask.getLsbD k from rfl]
  apply List.map_congr_left
  intro k _
  rw [elem_lane]

theorem gathBad_none {s : State} {st : Bool} {n : Nat} {l : List (Nat × Nat)}
    (h : ∀ y ∈ l, y.2 + n ≤ 131072 ∧ (st = true → storeRefused112 s s.cur.priv y.2 n = false ∧ storeRefused26 s y.2 n = false)) :
    gathBad s st n l = none := by
  unfold gathBad
  rw [List.find?_eq_none.mpr, Option.map_none]
  intro y my
  obtain ⟨h1, h2⟩ := h y my
  cases st with
  | false => simp; omega
  | true =>
    obtain ⟨a, b⟩ := h2 rfl
    rw [a, b]; simp; omega

theorem gathRead_ok {s : State} {n : Nat} : ∀ {l : List (Nat × Nat)},
    (∀ y ∈ l, tcmBusy s y.2 n = false ∧ anyPoison s.core.tcmPoison y.2 n = false) →
    gathRead s n l = .ok (l.map fun y => (y.1, leNat (tcmBytes s y.2 n))) := by
  intro l
  induction l with
  | nil => intro _; rfl
  | cons y l ih =>
    intro h
    obtain ⟨h1, h2⟩ := h y List.mem_cons_self
    have hr : tcmRead s y.2 n = .ok (tcmBytes s y.2 n) := by
      unfold tcmRead; rw [h1, h2]; rfl
    unfold gathRead
    rw [hr]; dsimp only
    rw [ih fun z mz => h z (List.mem_cons_of_mem _ mz)]
    rfl

theorem find_gather {w N : Nat} {p : Nat → Bool} {g : Nat → Nat} {k : Nat} (hk : k < N) :
    ((((List.range N).filter p).map fun j => (j, g j)).find? fun y : Nat × Nat => y.1 == k).map (·.2) = if p k then some (g k) else none := by
  by_cases hp : p k = true
  · rw [if_pos hp]
    have : ((((List.range N).filter p).map fun j => (j, g j)).find? fun y : Nat × Nat => y.1 == k) = some (k, g k) := by
      cases hf : ((((List.range N).filter p).map fun j => (j, g j)).find? fun y : Nat × Nat => y.1 == k) with
      | none =>
        have := List.find?_eq_none.mp hf (k, g k) (List.mem_map.mpr ⟨k, List.mem_filter.mpr ⟨List.mem_range.mpr hk, hp⟩, rfl⟩)
        simp at this
      | some z =>
        have h1 := List.mem_of_find?_eq_some hf
        have h2 := List.find?_some hf
        obtain ⟨j, _, rfl⟩ := List.mem_map.mp h1
        have : j = k := by simpa using h2
        rw [this]
    rw [this]; rfl
  · rw [if_neg hp, List.find?_eq_none.mpr]; rfl
    intro y my
    obtain ⟨j, mj, rfl⟩ := List.mem_map.mp my
    intro e
    have : j = k := by simpa using e
    subst this
    exact hp (List.mem_filter.mp mj).2

theorem done_hvy (z : State) : finish (.ok (advance (setHvy z))) = .next (retire (advance (z.onCur fun t => { t with hvy := t.hvy || true }))) := by
  simp only [Bool.or_true]; rfl

theorem vl_done (a : Fld) (bs : List Byte) (z : State) : retire (advance (setHvy (writeV a (bytesV bs) z))) = z.vloads a bs := rfl

theorem strip_paying (f : Fld) (x : BitVec 512) (sz : Nat) (w : State) : ∀ (n k : Nat) (z : State),
    pushStrip f x sz k n (z.paying w) = (pushStrip f x sz k n z).paying w := by
  intro n
  induction n with
  | zero => intro k z; rfl
  | succ n ih =>
    intro k z
    unfold pushStrip
    have e : (z.paying w).cur = z.cur := rfl
    rw [e]
    cases strmOf z.cur f with
    | none => exact ih _ _
    | some st =>
      dsimp only
      by_cases h : st.pos < st.pat.len
      · rw [if_pos h, if_pos h]; exact ih (k + 1) (pushElem f st _ z)
      · rw [if_neg h, if_neg h]; exact ih _ _

theorem vl_paying (a : Fld) (bs : List Byte) (z w : State) :
    writeV a (bytesV bs) (z.paying w) = (writeV a (bytesV bs) z).paying w := by
  unfold writeV
  by_cases h : a < 16
  · rw [if_pos h, if_pos h]; rfl
  · rw [if_neg h, if_neg h]
    have e : (z.paying w).cur = z.cur := rfl
    rw [e]
    cases strmOf z.cur a with
    | none => rfl
    | some st => exact strip_paying _ _ _ _ _ _ _

theorem vlds_run {a b : Fld} {o : BitVec 10} {p : BitVec 3} {s u : State} {x : Word} {e : Tlb} {pa : Nat} (hsc : scopeOk s p = true)
    (htk : takeV [] [b] (some (a, false)) [] s = .ok ([], [x], s)) (haq : aqPending s.cur = false) (hbp : badPush s.cur = none)
    (hsp : sharedPushes s.cur = []) (hr : s.Reaches .load p (address x o.toInt 64) 64 u e pa) {t : State} (h : vloadAt a pa p u = .ok t) :
    exec (.vlds a b o p) s = .next (retire t) := by
  have hstay : autoDest u e pa = none := hr.stays
  have key : ∀ i, vlds i a b o p s = vloadAt a pa p u := by
    intro i
    unfold vlds
    rw [needScope_ok hsc, htk]
    dsimp only
    rw [haq, sealReady_ok hbp hsp, show sharedAddr .load (eaOf ([x].headD 0) o.toInt 64) 64 p s = _ from sharedAddr_ok hr]
    dsimp only [Bool.false_eq_true, if_false]
    rw [hstay]; rfl
  show finish (stripRun a (vlds _ a b o p) s) = _
  rw [stripRun_ok ((key _).trans h)]; rfl

theorem vload_own {a : Fld} {pa : Nat} {p : BitVec 3} {u : State} (hpay : chargeOnce .vmem u = u.paid .vmem)
    (h : (ownBytes u pa 64).all (·.isSome) = true) :
    vloadAt a pa p u = .ok (advance (setHvy (writeV a (bytesV ((ownBytes u pa 64).map fun x => x.getD 0)) (u.paid .vmem)))) := by
  unfold vloadAt loadSource
  rw [if_pos h]
  dsimp only
  rw [hpay]
  unfold serveLocal
  rw [mergeBytes_own _ _ h (by rw [ownBytes_length]; simp)]

theorem vload_line {a : Fld} {pa : Nat} {p : BitVec 3} {u : State} {l : VLine} (hpay : chargeOnce .vmem u = u.paid .vmem)
    (hall : (ownBytes u pa 64).all (·.isSome) = false) (hl : u.core.vcache.find? (fun l => l.line == pa / 64) = some l)
    (hin : freshHome u pa p = false) (hfl : wordInFlight u.cur pa 64 = false) (hpo : l.poison = []) :
    vloadAt a pa p u = .ok (advance (setHvy (writeV a (bytesV (((ownBytes u pa 64).zip ((l.data.drop (pa % 64)).take 64)).map fun x => x.1.getD x.2))
          ((u.paid .vmem).onCore fun c => { c with vcache := vcTouch (pa / 64) c.vcache })))) := by
  unfold vloadAt loadSource
  have h2 : u.core.vcache.find? (fun l => l.line == lineOf pa) = some l := hl
  rw [hall, h2]
  dsimp only
  rw [hin, hfl]
  simp only [Bool.false_eq_true, if_false, Bool.or_self]
  rw [hpo]
  have h4 : l.line = pa / 64 := by
    have := List.find?_some h2; simpa [lineOf] using this
  simp only [List.isEmpty_nil, Bool.not_true, Bool.false_eq_true, if_false]
  rw [hpay, h4]
  rfl

theorem vload_home {a : Fld} {pa : Nat} {p : BitVec 3} {u : State} (hpay : chargeOnce .vmem u = u.paid .vmem)
    (hsrc : loadSource u pa 64 p false = .home) (hlen : u.cur.loads.length < 16) :
    vloadAt a pa p u = .ok (advance (setHvy (((u.paid .vmem).onCur (pushLoad
          { vec := true, dst := a, sz := 64, sext := false, pa := pa, own := ownBytes u pa 64, fill := !freshHome u pa p,
            reply := none, poisoned := false })).paying (chargeAccess pa 64 (charge .vmem u))))) := by
  have hcp : chargeAccess pa 64 (u.paid .vmem) = (u.paid .vmem).paying (chargeAccess pa 64 (charge .vmem u)) := by
    rw [chargeAccess_paying]; unfold chargeAccess; split <;> rfl
  unfold vloadAt
  rw [hsrc]
  dsimp only
  rw [if_neg (by omega), hpay, hcp]
  have hf : fills u pa p false = !freshHome u pa p := by unfold fills; simp
  rw [hf]
  rfl

theorem vload_home_done (u w : State) (l : LoadPend) (hpay : chargeOnce .vmem u = u.paid .vmem) :
    retire (advance (setHvy (((u.paid .vmem).onCur (pushLoad l)).paying w))) =
      (u.completes .vmem fun t => { pushLoad l t with hvy := true }).paying w := by
  unfold State.completes; rw [hpay]; rfl

end Sys2Proof.Machine
end

