-- ==== Sys2Proof/Laws/Matrix.lean ====
section
/-! SUPPORT. The matrix context and its queue (R173 to R198). -/

namespace Sys2Proof.Machine

theorem claim_eq {s : State} (h : s.mxMine) : mxReady s = .ok s.mxClaimed := by
  unfold mxReady State.mxClaimed
  rcases h with h | ⟨h, hq⟩
  · rw [h, if_pos rfl]; rfl
  · have ho : ownsMx s.core s.cur = true := by unfold ownsMx; rw [h]; simp
    rw [h]
    dsimp only
    rw [ho, Bool.not_true, if_neg Bool.false_ne_true, if_neg (by omega), if_neg (by simp)]

theorem claimed_cur (s : State) : s.mxClaimed.cur = s.cur := by
  unfold State.mxClaimed; split <;> rfl

theorem claimed_tile (s : State) : s.mxClaimed.tile = s.tile := by
  unfold State.mxClaimed; split <;> rfl

theorem issue_err {ck : State → Res Unit} {f : State → MxCmd} {e : Bool} {c : Option Charge} {s : State} (h : s.mxMine)
    (he : s.mxClaimed.core.mx.err = true) : finish (mxIssue ck f e c s) =
      .next ((s.mxClaimed.onCur fun t => { t with hvy := true }).onCore fun c =>
        { c with mx := { c.mx with disc := Nat.min 255 (c.mx.disc + 1) } }).retired := by
  unfold mxIssue
  rw [claim_eq h]; dsimp only
  rw [he, if_pos rfl]; rfl

theorem issue_trap {ck : State → Res Unit} {f : State → MxCmd} {e : Bool} {c : Option Charge} {s : State} (h : s.mxMine)
    (he : s.mxClaimed.core.mx.err = false) {x : Stop} (hc : ck s = .error x) : mxIssue ck f e c s = .error x := by
  unfold mxIssue
  rw [claim_eq h]; dsimp only
  rw [he, if_neg Bool.false_ne_true, hc]

theorem issue_trapped {ck : State → Res Unit} {f : State → MxCmd} {e : Bool} {c : Option Charge} {s : State} (h : s.mxMine)
    (he : s.mxClaimed.core.mx.err = false) {cz : BitVec 6} {v : Word} (hc : ck s = trapR cz v s) :
    finish (mxIssue ck f e c s) = .next (takeTrap cz 0 false v s) := by
  rw [issue_trap h he (x := .trap cz 0 v s) hc]; rfl

theorem claimed_part {s : State} (h : s.cur.partCtr + 1 < 2 ^ 32 - 1) : s.mxClaimed.cur.partCtr + 1 < 2 ^ 32 - 1 := by
  rw [claimed_cur]; exact h

theorem claimed_part' {s : State} (c : Charge) (h : s.cur.partCtr + 1 < 2 ^ 32 - 1) : (s.mxClaimed.paid c).cur.partCtr + 1 < 2 ^ 32 - 1 :=
  claimed_part h

theorem mxIssue_ok {ck : State → Res Unit} {f : State → MxCmd} {c : Option Charge} {s : State} {e : Bool} (h : s.mxMine)
    (he : s.mxClaimed.core.mx.err = false) (hc : ck s = .ok ()) :
    mxIssue ck f e c s = mxEnqueue f e (match c with | none => s.mxClaimed | some c => chargeOnce c s.mxClaimed) := by
  simp only [mxIssue, claim_eq h, he, if_neg Bool.false_ne_true, hc]
  all_goals cases c <;> rfl

theorem enq_ok {f : State → MxCmd} {e : Bool} {v : State} (hp : v.cur.partCtr + 1 < 2 ^ 32 - 1) :
    mxEnqueue f e v =
      let w := v.onCur fun t => { t with partCtr := t.partCtr + 1 }
      let w := if e then escapeCur w else w
      .ok (advance (setHvy (pushCmd (f w) w))) := by
  unfold mxEnqueue takePart
  rw [if_pos hp]

theorem escape_part (v : State) : escapeCur (v.onCur fun t => { t with partCtr := t.partCtr + 1 }) =
    v.escaped.onCur fun t => { t with partCtr := t.partCtr + 1 } := by
  have h : ∀ (l : List (PairWhat × List Byte)) (u : State), pairAll v.cur.tid v.cur.origin l (u.onCur fun t => { t with partCtr := t.partCtr + 1 }) =
      (pairAll v.cur.tid v.cur.origin l u).onCur fun t => { t with partCtr := t.partCtr + 1 } := by
    intro l
    unfold pairAll
    induction l with
    | nil => intro u; rfl
    | cons x l ih =>
      intro u
      rw [List.foldl_cons, List.foldl_cons, ← ih]
      congr 1
      unfold pairRelease
      split <;> (split <;> first | rfl | contradiction)
  have e : releaseHeld (v.onCur fun t => { t with partCtr := t.partCtr + 1 }) =
      (releaseHeld v).onCur fun t => { t with partCtr := t.partCtr + 1 } := by
    unfold releaseHeld
    by_cases g : v.cur.held.isEmpty = true
    · rw [if_pos g, if_pos (by exact g)]
    · rw [if_neg g, if_neg (by exact g), placeMark_eq, placeMark_eq]
      have : pushHeld (v.onCur fun t => { t with partCtr := t.partCtr + 1 }) =
          (pushHeld v).onCur fun t => { t with partCtr := t.partCtr + 1 } :=
        h (v.cur.held.map fun h => (.send v.cur.tid v.cur.origin, hashedHeld h))
          ((v.onTile fun x => { x with inject := x.inject ++ v.cur.held,
                                       injectBy := x.injectBy ++ v.cur.held.map fun _ => (v.cur.tid, v.cur.origin) }).onCur fun t =>
            { t with sentOut := t.sentOut + (t.held.filter fun h => match h with | .spawn _ => false | _ => true).length, held := [] })
      rw [this]; rfl
  show (releaseHeld (v.onCur fun t => { t with partCtr := t.partCtr + 1 })).onCur _ = _
  rw [e]; rfl

theorem commanded_eq (fn : MxFn) (acc : Fld) (base : Nat) (bar : Option (BitVec 6)) (ph : BitVec 16) (d x : Word) (f : BitVec 3) (st : Bool)
    (v : State) : Host.Outcome.next (v.commanded fn acc base bar ph d x f st) =
    finish (.ok (advance (setHvy (pushCmd
      { mkCmd (v.onCur fun t => { t with partCtr := t.partCtr + 1 }) fn acc base with bar := bar, barPhase := ph, dst := d, amax := x, fmt := f, sat := st }
      (v.onCur fun t => { t with partCtr := t.partCtr + 1 }))))) := rfl

theorem tile_trap3 {a : Word} {bar : Option (BitVec 6)} {s : State} (h : a.toNat % 64 ≠ 0) : tileCheck a bar s = trapR cALIGN a s := by
  unfold tileCheck; rw [if_pos (by simpa using h)]

theorem tile_trap4 {a : Word} {bar : Option (BitVec 6)} {s : State} (h : a.toNat % 64 = 0) (g : 131072 ≤ a.toNat) :
    tileCheck a bar s = trapR cACCESS a s := by
  unfold tileCheck; rw [if_neg (by simpa using h), if_pos g]

theorem tile_trap8 {a : Word} {n : BitVec 6} {s : State} (h : a.toNat % 64 = 0) (g : a.toNat < 131072) (hb : (s.bar n).init = false) :
    tileCheck a (barOf n true) s = trapR cBARRIER (n.setWidth 64) s := by
  unfold tileCheck; rw [if_neg (by simpa using h), if_neg (by omega)]
  show (if !(s.bar n).init then barTrap n s else Except.ok ()) = _
  rw [hb]; rfl

theorem tile_ok {a : Word} {n : BitVec 6} {w : Bool} {s : State} (h : a.toNat % 64 = 0) (g : a.toNat < 131072)
    (hb : w = true → (s.bar n).init = true) : tileCheck a (barOf n w) s = .ok () := by
  unfold tileCheck; rw [if_neg (by simpa using h), if_neg (by omega)]
  cases w with
  | false => rfl
  | true =>
    show (if !(s.bar n).init then barTrap n s else Except.ok ()) = _
    rw [hb rfl]; rfl

theorem hole_eq (a : Word) (h : a.getLsbD 63 = true) : (a.extractLsb' 17 46 != 0) = decide (a.toNat / 2 ^ 17 ≠ 2 ^ 46) := by
  have h1 : (a.extractLsb' 17 46).toNat = a.toNat / 2 ^ 17 % 2 ^ 46 := by
    rw [BitVec.extractLsb'_toNat, Nat.shiftRight_eq_div_pow]
  have h2 : a.toNat.testBit 63 = true := by rw [← BitVec.testBit_toNat] at h; exact h
  have h3 : 2 ^ 63 ≤ a.toNat := Nat.ge_two_pow_of_testBit h2
  have h4 := a.isLt
  rw [Bool.eq_iff_iff]
  simp only [bne_iff_ne, ne_eq, decide_eq_true_eq]
  constructor
  · intro h e; apply h; apply BitVec.eq_of_toNat_eq; rw [h1, e]; rfl
  · intro h e; apply h
    have e1 : (a.extractLsb' 17 46).toNat = 0 := by rw [e]; rfl
    rw [h1] at e1
    omega

theorem low17 (a : Word) : (a.extractLsb' 0 17).toNat = a.toNat % 2 ^ 17 := by
  rw [BitVec.extractLsb'_toNat, Nat.shiftRight_zero]

theorem settle_eq (f : MxCtx → MxCtx) (hf : ∀ c, (f c).owner = c.owner) (r : List MxCmd) (s : State) (hq : s.core.mx.queue.drop 1 = r)
    (hfq : ∀ c, (f c).queue = c.queue) :
    mxPop (s.onMatrix f) = (s.onMatrix f).popped r := by
  unfold mxPop mxSettle State.popped
  have e1 : (onMx (fun c => { c with queue := c.queue.drop 1, done := c.done + 1 }) (s.onMatrix f)) =
      (s.onMatrix f).onMatrix fun c => { c with queue := r, done := c.done + 1 } := by
    unfold onMx State.onMatrix State.onCore
    dsimp only
    rw [hfq, hq]
  rw [e1]
  generalize s.onMatrix f = z
  have e2 : (z.onMatrix fun c => { c with queue := r, done := c.done + 1 }).core.mx.owner = z.core.mx.owner := rfl
  have e3 : (z.onMatrix fun c => { c with queue := r, done := c.done + 1 }).tasks = z.tasks := rfl
  have e4 : (z.onMatrix fun c => { c with queue := r, done := c.done + 1 }).core.mx.queue = r := rfl
  rw [e2, e3, e4]
  cases ho : z.core.mx.owner with
  | none => rw [if_neg (by simp)]
  | some p =>
    obtain ⟨t, o⟩ := p
    dsimp only
    have : (r.isEmpty && !z.tasks.any fun x => sameTask x t o) = decide (r = [] ∧ some (t, o) ≠ none ∧ ∀ x ∈ z.tasks, some (t, o) ≠ some (x.tid, x.origin)) := by
      rw [Bool.eq_iff_iff]
      simp only [Bool.and_eq_true, List.isEmpty_iff, Bool.not_eq_true', decide_eq_true_eq, List.any_eq_false, sameTask, ne_eq, Option.some.injEq,
        Prod.mk.injEq, reduceCtorEq, not_false_eq_true, true_and, Bool.and_eq_true, beq_iff_eq, not_and]
      constructor
      · rintro ⟨h1, h2⟩; exact ⟨h1, fun x hx a b => h2 x hx a.symm b.symm⟩
      · rintro ⟨h1, h2⟩; exact ⟨h1, fun x hx a b => h2 x hx a.symm b.symm⟩
    rw [this]
    by_cases h : (r = [] ∧ some (t, o) ≠ none ∧ ∀ x ∈ z.tasks, some (t, o) ≠ some (x.tid, x.origin))
    · rw [decide_eq_true h, if_pos rfl, if_pos h]; rfl
    · rw [decide_eq_false h, if_neg Bool.false_ne_true, if_neg h]

theorem pop_eq (r : List MxCmd) (s : State) (hq : s.core.mx.queue.drop 1 = r) : mxPop s = s.popped r :=
  settle_eq id (fun _ => rfl) r s hq (fun _ => rfl)

theorem tcmBytes_getD (s : State) : ∀ (n a k : Nat), k < n → (tcmBytes s a n).getD k 0 = tcmByte s (a + k) := by
  intro n
  induction n with
  | zero => intro a k h; omega
  | succ n ih =>
    intro a k h
    unfold tcmBytes
    cases k with
    | zero => rfl
    | succ k => rw [List.getD_cons_succ, ih _ _ (by omega)]; congr 1; omega

theorem packed8 (bs : List Byte) (i : Nat) : packedElem 8 bs i = (bs.getD i 0).toNat := by
  unfold packedElem
  rw [if_neg (by decide)]
  show leNat ((bs.drop (i * 1)).take 1) = _
  rw [Nat.mul_one]
  rw [List.getD_eq_getElem?_getD, ← List.head?_drop]
  cases bs.drop i with
  | nil => rfl
  | cons b l => simp [leNat]

theorem acc_set (c : MxCtx) (a : Bool) (x : List (BitVec 32)) (k : Bool) (h : List MxHist) (g : Bool) :
    (c.setAcc a x k h g).element a = (fun i => x.getD i 0) ∧ (c.setAcc a x k h g).element (!a) = c.element (!a) ∧
    (if a then (c.setAcc a x k h g).k1 else (c.setAcc a x k h g).k0) = k ∧ (c.setAcc a x k h g).queue = c.queue ∧
    (if a then (c.setAcc a x k h g).k0 else (c.setAcc a x k h g).k1) = (if a then c.k0 else c.k1) ∧ (c.setAcc a x k h g).cur = c.cur := by
  cases a <;> exact ⟨rfl, rfl, rfl, rfl, rfl, rfl⟩

theorem next_head {s : State} {m : MxCmd} {r : List MxCmd} (hq : s.core.mx.queue = m :: r) (h1 : m.started = false)
    (h2 : ∀ n, m.bar = some n → phasePassed (s.bar n) m.barPhase = true) (h3 : m.fn ≠ .mrot) (h4 : mxPresent s m = true) :
    mxNext s = some (0, m) := by
  unfold mxNext
  rw [hq]; dsimp only
  have hr : mxReleased s m = true := by
    unfold mxReleased
    cases hb : m.bar with
    | none => rfl
    | some n => exact h2 n hb
  have h5 : (m.fn != .mrot) = true := by simpa using h3
  rw [h1, h4, hr, h5]; rfl

theorem start_eq {s : State} {m : MxCmd} (hp : s.core.preempt = false) (hh : s.tile.halted = false) (hn : mxNext s = some (0, m)) :
    exec .matrixCmdStart s = .next (mxStart 0 m s) := by
  show done (matrixCmdStart s) = _
  unfold matrixCmdStart engHeld
  rw [hp, hh, hn]; rfl

theorem mark_queue {s : State} {m : MxCmd} {r : List MxCmd} (hq : s.core.mx.queue = m :: r) :
    (markStarted 0 s).core.mx = { s.core.mx with queue := { m with started := true } :: r } := by
  show ({ s.core.mx with queue := modIdx s.core.mx.queue 0 _ } : MxCtx) = _
  rw [hq]; rfl

theorem mark_eq {s : State} {m : MxCmd} {r : List MxCmd} (hq : s.core.mx.queue = m :: r) :
    markStarted 0 s = s.onMatrix fun c => { c with queue := { m with started := true } :: r } := by
  show s.onCore (fun c => { c with mx := { c.mx with queue := modIdx c.mx.queue 0 _ } }) = s.onCore _
  unfold State.onCore
  dsimp only
  rw [hq]; rfl

theorem foldl_congr' {α β : Type} (f : β → α → β) (l : List α) (x : β) : l.foldl f x = l.foldl f x := rfl

/-- MMA and MMAS of two formats that need no scale record. -/
theorem mma_run {s : State} {m : MxCmd} {r : List MxCmd} {k : MxClass} (hp : s.core.preempt = false) (hh : s.tile.halted = false)
    (hq : s.core.mx.queue = m :: r) (h1 : m.started = false)
    (h2 : ∀ n, m.bar = some n → phasePassed (s.bar n) m.barPhase = true) (hfn : m.fn = .mma ∨ m.fn = .mmas)
    (hab : m.fn = .mma → (if m.acc then s.core.mx.absent1 else s.core.mx.absent0) = 0)
    (hk : mxClass m.fmta s.core.mx.cur.fmt = some k) (hf : s.core.mx.cur.fmt = m.fmtb) (hn7 : m.fmta ≠ 7) (hl7 : m.fmtb ≠ 7)
    (hw : fmtWidth m.fmta = 8) (hr : m.base + 4096 ≤ 131072) (hpo : anyPoison s.core.tcmPoison m.base 4096 = false) :
    ∃ t, exec .matrixCmdStart s = .next t ∧ t.core.mx.queue = { m with started := true } :: r ∧
      (if m.acc then t.core.mx.k1 else t.core.mx.k0) = (k == .int8) ∧
      ∀ i, i < 4096 → t.core.mx.element (!m.acc) i = s.core.mx.element (!m.acc) i ∧ t.core.mx.element m.acc i =
        mxElem k (mxRows m.fmta (tcmBytes s m.base 4096) { codes := [], sup := 0, seq := 0 } s.core.mx.cur (i / 64) (i % 64))
          (if m.fn = .mmas then none else some (s.core.mx.element m.acc i)) := by
  have htb : tileBytes m.fmta = 4096 := by unfold tileBytes; rw [hw]
  have hrot : m.fn ≠ .mrot := by rcases hfn with h | h <;> rw [h] <;> decide
  have hlat : (m.fn == .mlatch) = false := by rcases hfn with h | h <;> rw [h] <;> decide
  have hpr : mxPresent s m = true := by
    unfold mxPresent
    rcases hfn with h | h
    · rw [h]; simp only [beq_iff_eq]; exact hab h
    · rw [h]
  have hst := start_eq hp hh (next_head hq h1 h2 hrot hpr)
  have hne : (m.fmta == 7) = false := by simpa using hn7
  have hck : mmaCheck s m = none := by
    unfold mmaCheck
    dsimp only
    rw [hk]; dsimp only
    rw [if_neg (by simp [hf]), htb, if_neg (by omega), if_pos (by simpa using hn7)]
  have hpoi : mxPoison s m = none := by
    unfold mxPoison
    rw [hlat]
    dsimp only [Bool.false_eq_true, if_false]
    simp only [Bool.false_eq_true, if_false, hne, Bool.false_and, htb, hpo]
  have hsc : mxStartCheck s m = none := by
    unfold mxStartCheck
    rw [hlat, if_neg Bool.false_ne_true, hck, hpoi]; rfl
  have hms : mxStart 0 m s = markStarted 0 (mmaRun s m) := by
    unfold mxStart
    rcases hfn with h | h <;> rw [h] <;> dsimp only <;> rw [hsc]
  have hrun : ∃ h g, (mmaRun s m).core.mx = s.core.mx.setAcc m.acc (mxCompute k (m.fn == .mmas) m.fmta (tcmBytes s m.base 4096) { codes := [], sup := 0, seq := 0 } s.core.mx.cur (s.core.mx.acc m.acc)) (k == .int8) h g := by
    unfold mmaRun
    dsimp only
    rw [hk, hne, htb]
    exact ⟨_, _, rfl⟩
  obtain ⟨h, g, hrun⟩ := hrun
  obtain ⟨a1, a2, a3, a4, _, _⟩ := acc_set s.core.mx m.acc (mxCompute k (m.fn == .mmas) m.fmta (tcmBytes s m.base 4096) { codes := [], sup := 0, seq := 0 } s.core.mx.cur (s.core.mx.acc m.acc)) (k == .int8) h g
  rw [← hrun] at a1 a2 a3 a4
  have hq2 : (mmaRun s m).core.mx.queue = m :: r := a4.trans hq
  have hmx := mark_queue hq2
  refine ⟨_, by rw [hst, hms], ?_, ?_, ?_⟩
  · rw [hmx]
  · rw [hmx]; exact a3
  · intro i hi
    rw [hmx]
    constructor
    · exact congrFun a2 i
    · refine (congrFun a1 i).trans ?_
      show (mxCompute _ _ _ _ _ _ _).getD i 0 = _
      unfold mxCompute
      rw [List.getD_eq_getElem?_getD, List.getElem?_map, List.getElem?_range hi]
      show mxElem _ _ (if (m.fn == .mmas) = true then none else some _) = _
      congr 1
      by_cases e : m.fn = .mmas
      · rw [if_pos e, if_pos (by simp [e])]
      · rw [if_neg e, if_neg (by simp [e])]
        congr 1

theorem zip_map {α β γ : Type} (l : List α) (f : α → β) (g : α → γ) : (l.map f).zip (l.map g) = l.map fun k => (f k, g k) := by
  induction l with
  | nil => rfl
  | cons x l ih => simp [ih]

theorem rows_a (s : State) (b : Nat) (f : BitVec 3) (hw : fmtWidth f = 8) (i : Nat) (hi : i < 4096) :
    ((List.range 64).map fun k => packedElem (fmtWidth f) (tcmBytes s b 4096) (64 * (i / 64) + k)) =
      (List.range 64).map fun k => (tcmByte s (b + (64 * (i / 64) + k))).toNat := by
  apply List.map_congr_left
  intro k hk
  have := List.mem_range.mp hk
  rw [hw, packed8, tcmBytes_getD s _ _ _ (by omega)]

theorem freeLatch_eq (s : State) : ∃ l, freeLatch s = (l, { s with fresh := s.fresh + 8258 }) := by
  unfold freeLatch
  dsimp only
  exact ⟨_, rfl⟩

/-- R197: a latch switch empties the histories; what they held is then a checkpoint's. -/
theorem latch_eq {g : MxCtx → Latch} : (fun c : MxCtx => latchSwitch (g c) c) = fun c =>
    { c with cur := g c, hist0 := [], hist1 := [], chk0 := c.chk0 || !c.hist0.isEmpty, chk1 := c.chk1 || !c.hist1.isEmpty } := by
  funext c
  unfold latchSwitch chkAfter
  simp

end Sys2Proof.Machine
end

