-- ==== Sys2Proof/Laws/Function.lean ====
section
/-! SUPPORT. Function registers and their pool (R199 to R218). -/

namespace Sys2Proof.Machine

theorem fidx_nat (f : Fld) : (fIdx f).toNat = f.toNat % 8 := by
  unfold fIdx; rw [ext_toNat]; simp

theorem freg_set_same (f : Fld) (r : FReg) (t : Task) : (setFreg f r t).freg f = r := by
  unfold setFreg Task.freg
  have h : (fIdx f).toNat < 8 := (fIdx f).isLt
  simp [Vector.getElem?_setIfInBounds, h]

theorem freg_set_other {f g : Fld} (r : FReg) (t : Task) (h : fIdx g ≠ fIdx f) : (setFreg f r t).freg g = t.freg g := by
  unfold setFreg Task.freg
  have : (fIdx f).toNat ≠ (fIdx g).toNat := fun e => h (BitVec.eq_of_toNat_eq e).symm
  simp [Vector.getElem?_setIfInBounds, this]

theorem freg_congr {f g : Fld} (t : Task) (h : fIdx g = fIdx f) : t.freg g = t.freg f := by
  unfold Task.freg; rw [h]

/-- Alike but for the pool and the function registers. -/
def poolAlike (s t : State) : Prop :=
  ({ t with core := { t.core with runs := s.core.runs, pool := s.core.pool, poolPoison := s.core.poolPoison }, cur := { t.cur with f := s.cur.f }, rest := s.rest } : State) = s

theorem poolAlike_trans {s t u : State} (h : poolAlike s t) (g : poolAlike t u) : poolAlike s u := by
  unfold poolAlike at *
  rw [← g] at h
  exact h

theorem poolAlike_rfl (s : State) : poolAlike s s := rfl

theorem map_alike (s : State) (p : Task → Bool) (k : Task → Fld) (r : Task → FReg) :
    poolAlike s (s.mapTasks p fun t => setFreg (k t) (r t) t) := by
  unfold poolAlike State.mapTasks
  dsimp only
  cases h : p s.cur
  · simp [h]
  · simp [h, setFreg]

theorem alike_fields {s t : State} (h : poolAlike s t) : t.tile = s.tile ∧ t.home = s.home ∧ t.launch = s.launch ∧ t.host = s.host ∧ t.saved = s.saved := by
  refine ⟨?_, ?_, ?_, ?_, ?_⟩
  · have := congrArg State.tile h; exact this
  · have := congrArg State.home h; exact this
  · have := congrArg State.launch h; exact this
  · have := congrArg State.host h; exact this
  · have := congrArg State.saved h; exact this

theorem core_fields {c d : CoreSt} (h : ({ c with runs := d.runs, pool := d.pool, poolPoison := d.poolPoison } : CoreSt) = d) : c.tcm = d.tcm ∧ c.mx = d.mx ∧
    c.sealed = d.sealed ∧ c.vcache = d.vcache ∧ c.eng = d.eng := by
  refine ⟨?_, ?_, ?_, ?_, ?_⟩
  · have := congrArg CoreSt.tcm h; exact this
  · have := congrArg CoreSt.mx h; exact this
  · have := congrArg CoreSt.sealed h; exact this
  · have := congrArg CoreSt.vcache h; exact this
  · have := congrArg CoreSt.eng h; exact this

theorem compact_alike (s : State) : poolAlike s (compactPool s) := by
  unfold compactPool
  dsimp only
  have step : ∀ (l : List PoolRun) (z : State), poolAlike z (l.foldl (fun s r =>
      s.mapTasks (fun t => t.frame == r.frame && t.st != .ended && !t.shadow) fun t =>
        setFreg (r.reg.setWidth 5) { t.freg (r.reg.setWidth 5) with p := BitVec.ofNat 8 r.at_ } t) z) := by
    intro l
    induction l with
    | nil => intro z; exact poolAlike_rfl z
    | cons r l ih => intro z; exact poolAlike_trans (map_alike z _ (fun _ => r.reg.setWidth 5) _) (ih _)
  refine poolAlike_trans ?_ (step _ _)
  rfl

theorem compact_runs (s : State) : (compactPool s).core.runs = packRuns 0 s.core.runs := by
  unfold compactPool
  dsimp only
  have step : ∀ (l : List PoolRun) (z : State), (l.foldl (fun s r =>
      s.mapTasks (fun t => t.frame == r.frame && t.st != .ended && !t.shadow) fun t =>
        setFreg (r.reg.setWidth 5) { t.freg (r.reg.setWidth 5) with p := BitVec.ofNat 8 r.at_ } t) z).core = z.core := by
    intro l
    induction l with
    | nil => intro z; rfl
    | cons r l ih => intro z; exact (ih _).trans rfl
  rw [step]; rfl

theorem gap_fits (g : Nat) : ∀ (l : List PoolRun) (lo p : Nat), gapFrom g lo l = some p → p + g ≤ 256 := by
  intro l
  induction l with
  | nil =>
    intro lo p h
    unfold gapFrom at h
    split at h
    · injection h; omega
    · cases h
  | cons r l ih =>
    intro lo p h
    unfold gapFrom at h
    split at h
    · rename_i e
      have := Nat.min_le_right r.at_ 256
      injection h with h
      subst h
      exact Nat.le_trans e this
    · exact ih _ _ h

theorem pack_gap (g : Nat) : ∀ (l : List PoolRun) (lo : Nat), lo + (l.map (·.len)).sum + g ≤ 256 →
    ∃ p, gapFrom g lo (packRuns lo l) = some p := by
  intro l
  induction l with
  | nil => intro lo h; exact ⟨lo, by unfold packRuns gapFrom; rw [if_pos (by simpa using h)]⟩
  | cons r l ih =>
    intro lo h
    simp only [List.map_cons, List.sum_cons] at h
    unfold packRuns gapFrom
    dsimp only
    split
    · exact ⟨lo, rfl⟩
    · exact ih (lo + r.len) (by omega)

theorem alloc_ok {g : Nat} {s : State} (hg : g ≤ poolFree s.core) :
    ∃ p v, allocPool g s = some (p, v) ∧ p + g ≤ 256 ∧ poolAlike s v ∧ (∀ q, gapFrom g 0 s.core.runs = some q → q = p ∧ v = s) := by
  unfold allocPool
  rw [if_neg (by omega)]
  cases h : gapFrom g 0 s.core.runs with
  | some p => exact ⟨p, s, rfl, gap_fits g _ _ _ h, poolAlike_rfl s, fun q hq => ⟨by injection hq with e; exact e.symm, rfl⟩⟩
  | none =>
    dsimp only
    have hu : 0 + (s.core.runs.map (·.len)).sum + g ≤ 256 := by
      unfold poolFree poolUsed at hg
      by_cases e : (s.core.runs.map (·.len)).sum ≤ 256
      · omega
      · have : g = 0 := by omega
        subst this
        cases hr : s.core.runs with
        | nil => simp [hr] at e
        | cons r l => rw [hr] at h; unfold gapFrom at h; rw [if_pos (Nat.zero_le _)] at h; cases h
    obtain ⟨p, hp⟩ := pack_gap g s.core.runs 0 hu
    rw [compact_runs, hp]
    exact ⟨p, _, rfl, gap_fits g _ _ _ hp, compact_alike s, fun q hq => by cases hq⟩

theorem release_alike (f : Fld) (s : State) : poolAlike s (releaseF f s) := rfl

theorem releases_alike : ∀ (l : List Fld) (s : State), poolAlike s (releaseAll l s) := by
  intro l
  induction l with
  | nil => intro s; exact poolAlike_rfl s
  | cons f l ih => intro s; exact poolAlike_trans (release_alike f s) (ih _)

theorem release_pool (l : List Fld) : ∀ s : State, (releaseAll l s).core.pool = s.core.pool := by
  induction l with
  | nil => intro s; rfl
  | cons f l ih => intro s; exact (ih _).trans rfl

theorem release_same (f g : Fld) (s : State) (h : fIdx g = fIdx f) : ((releaseF f s).cur.freg g).n = 0 := by
  rw [freg_congr _ h]
  show ((setFreg f _ _).freg f).n = 0
  rw [freg_set_same]

theorem release_other (f g : Fld) (s : State) (h : fIdx g ≠ fIdx f) : (releaseF f s).cur.freg g = s.cur.freg g :=
  freg_set_other _ _ h

theorem releases_zero : ∀ (l : List Fld) (g : Fld) (s : State), (s.cur.freg g).n = 0 → ((releaseAll l s).cur.freg g).n = 0 := by
  intro l
  induction l with
  | nil => intro g s h; exact h
  | cons f l ih =>
    intro g s h
    refine ih g (releaseF f s) ?_
    by_cases e : fIdx g = fIdx f
    · exact release_same f g s e
    · rw [release_other f g s e]; exact h

theorem releases_same : ∀ (l : List Fld) (g : Fld) (s : State), (∃ f ∈ l, fIdx g = fIdx f) → ((releaseAll l s).cur.freg g).n = 0 := by
  intro l
  induction l with
  | nil => rintro g s ⟨f, hf, _⟩; cases hf
  | cons f l ih =>
    rintro g s ⟨x, hx, e⟩
    cases hx with
    | head => exact releases_zero l g _ (release_same f g s e)
    | tail _ hx => exact ih g _ ⟨x, hx, e⟩

theorem releases_other : ∀ (l : List Fld) (g : Fld) (s : State), (∀ f ∈ l, fIdx g ≠ fIdx f) → (releaseAll l s).cur.freg g = s.cur.freg g := by
  intro l
  induction l with
  | nil => intro g s _; rfl
  | cons f l ih =>
    intro g s h
    refine (ih g _ fun x hx => h x (List.mem_cons_of_mem _ hx)).trans (release_other f g s (h f List.mem_cons_self))

theorem fill_get (q : Nat) : ∀ (cs : List Nat) (k : Nat) (T : Tab (BitVec 32)) (j : Nat),
    tabGet ((cs.zip (List.range' k cs.length)).foldl (fun t x => tabSet t (q + x.2) (BitVec.ofNat 32 x.1)) T) 0 j =
      if q + k ≤ j ∧ j < q + k + cs.length then BitVec.ofNat 32 (cs.getD (j - (q + k)) 0) else tabGet T 0 j := by
  intro cs
  induction cs with
  | nil => intro k T j; rw [if_neg (by simp)]; rfl
  | cons c cs ih =>
    intro k T j
    rw [List.length_cons, List.range'_succ, List.zip_cons_cons, List.foldl_cons, ih]
    by_cases h1 : q + (k + 1) ≤ j ∧ j < q + (k + 1) + cs.length
    · rw [if_pos h1, if_pos (by omega)]
      have : j - (q + k) = j - (q + (k + 1)) + 1 := by omega
      rw [this, List.getD_cons_succ]
    · rw [if_neg h1]
      by_cases h2 : j = q + k
      · rw [if_pos (by omega), h2, tabGet_tabSet_same, Nat.sub_self, List.getD_cons_zero]
      · rw [if_neg (by omega), tabGet_tabSet_other _ _ _ _ h2]

theorem chargeN_alike (c : Charge) : ∀ (n : Nat) (s : State), (chargeN c n s) = { s with tile := (chargeN c n s).tile } := by
  intro n
  induction n with
  | zero => intro s; rfl
  | succ n ih => intro s; show chargeN c n (charge c s) = _; rw [ih (charge c s)]; rfl

/-- Retiring changes no field of the state but the PC's context, the other contexts and, in the core, the marks of R202 and R398. -/
theorem retire_fields (u : State) : (retire u).tile = u.tile ∧ (retire u).home = u.home ∧ (retire u).launch = u.launch ∧ (retire u).host = u.host ∧
    (retire u).saved = u.saved ∧ (retire u).core.tcm = u.core.tcm ∧ (retire u).core.mx = u.core.mx ∧ (retire u).core.sealed = u.core.sealed ∧
    (retire u).core.vcache = u.core.vcache ∧ (retire u).core.eng = u.core.eng ∧ (retire u).core.pool = u.core.pool :=
  ⟨rfl, rfl, rfl, rfl, rfl, rfl, rfl, rfl, rfl, rfl, rfl⟩

/-- Moving on with the marks of a function result changes the context alone. -/
theorem marked_fields (fx : Bool) (x : State) : (advance (setHvy (setFx fx x))).core = x.core ∧ (advance (setHvy (setFx fx x))).tile = x.tile ∧
    (advance (setHvy (setFx fx x))).home = x.home ∧ (advance (setHvy (setFx fx x))).launch = x.launch ∧
    (advance (setHvy (setFx fx x))).host = x.host ∧ (advance (setHvy (setFx fx x))).saved = x.saved ∧
    (advance (setHvy (setFx fx x))).cur = { x.cur with fx := x.cur.fx || fx, hvy := true, pc := x.cur.pc + 4 } :=
  ⟨rfl, rfl, rfl, rfl, rfl, rfl, rfl⟩

/-- A result that has room is stored. -/
theorem result_ok {s0 s : State} {c : Charge} {srcs : List Fld} {dst : Fld} {a b : BitVec 32} {cs : List Nat} {fx : Bool} {lrs : List Fld}
    (hst : s.cur.st = .running) (hwt : s.cur.wait = none) (hl : cs.length < 512) (hg : (cs.length + 7) / 8 ≤ poolFree s.core) :
    ∃ t, finish (match storeF s0 dst a b cs lrs (fCharge c srcs cs.length s) with
      | .error e => .error e
      | .ok s => .ok (advance (setHvy (setFx fx s)))) = .next t ∧ s.Computes c srcs dst a b cs fx lrs t := by
  generalize hz : fCharge c srcs cs.length s = z
  have hz' : z = { s with tile := (fCharge c srcs cs.length s).tile } := by rw [← hz]; exact chargeN_alike _ _ _
  have hzc : z.core = s.core := by rw [hz']
  have hzt : z.cur = s.cur := by rw [hz']
  obtain ⟨p, v, h1, h2, h3, h4⟩ := alloc_ok (g := (cs.length + 7) / 8) (s := z) (by rw [hzc]; exact hg)
  unfold storeF granules
  dsimp only
  rw [h1]
  dsimp only
  generalize hw : (releaseAll (dst :: lrs) v) = w
  have ha : poolAlike z w := by rw [← hw]; exact poolAlike_trans h3 (releases_alike _ _)
  have hwp : w.core.pool = v.core.pool := by rw [← hw]; exact release_pool _ _
  refine ⟨_, rfl, ?_⟩
  have hwc : w.cur = { s.cur with f := w.cur.f } := by
    unfold poolAlike at ha
    have := congrArg State.cur ha
    have e : ({ w.cur with f := z.cur.f } : Task) = z.cur := this
    rw [hzt] at e
    have e2 : w.cur = { ({ w.cur with f := s.cur.f } : Task) with f := w.cur.f } := rfl
    rw [e2, e]
  have hwst : w.cur.st = .running := by rw [hwc]; exact hst
  have hwwt : w.cur.wait = none := by rw [hwc]; exact hwt
  have hcore : ({ w.core with runs := s.core.runs, pool := s.core.pool, poolPoison := s.core.poolPoison } : CoreSt) = s.core := by
    have := congrArg State.core ha
    have e : ({ w.core with runs := z.core.runs, pool := z.core.pool, poolPoison := z.core.poolPoison } : CoreSt) = z.core := this
    rw [hzc] at e; exact e
  -- the state after the store, before it retires
  generalize hu : (advance (setHvy (setFx fx ((w.onCore fun co => { co with
      runs := insertRun { at_ := p, len := (cs.length + 7) / 8, frame := w.cur.frame, reg := fIdx dst, rel := none } co.runs,
      pool := (cs.zip (List.range cs.length)).foldl (fun t x => tabSet t (8 * p + x.2) (BitVec.ofNat 32 x.1)) co.pool,
      poolPoison := co.poolPoison.filter fun k => k < 8 * p || 8 * p + cs.length ≤ k }).onCur
      (setFreg dst { a := a, b := b, n := BitVec.ofNat 9 cs.length, p := BitVec.ofNat 8 p }))))) = u
  obtain ⟨m1, m2, m3, m4, m5, m6, m7⟩ := marked_fields fx ((w.onCore fun co => { co with
      runs := insertRun { at_ := p, len := (cs.length + 7) / 8, frame := w.cur.frame, reg := fIdx dst, rel := none } co.runs,
      pool := (cs.zip (List.range cs.length)).foldl (fun t x => tabSet t (8 * p + x.2) (BitVec.ofNat 32 x.1)) co.pool,
      poolPoison := co.poolPoison.filter fun k => k < 8 * p || 8 * p + cs.length ≤ k }).onCur
      (setFreg dst { a := a, b := b, n := BitVec.ofNat 9 cs.length, p := BitVec.ofNat 8 p }))
  rw [hu] at m1 m2 m3 m4 m5 m6 m7
  obtain ⟨r1, r2, r3, r4, r5, r6, r7, r8, r9, r10, r11⟩ := retire_fields u
  have hucur : u.cur = { setFreg dst { a := a, b := b, n := BitVec.ofNat 9 cs.length, p := BitVec.ofNat 8 p } w.cur with
      fx := w.cur.fx || fx, hvy := true, pc := w.cur.pc + 4 } := m7
  have htc : (retire u).cur = { u.cur with st := .running, wait := none, brkSkip := false, pcmSkip := false, paid := false, trapTaken := false } := by
    apply retire_cur_running
    · rw [hucur]; show w.cur.st ≠ _; rw [hwst]; decide
    · rw [hucur]; show w.cur.wait ≠ _; rw [hwwt]; decide
  have hfr : ∀ g, (retire u).cur.freg g = (setFreg dst { a := a, b := b, n := BitVec.ofNat 9 cs.length, p := BitVec.ofNat 8 p } w.cur).freg g := by
    intro g; rw [htc, hucur]; rfl
  have hn : (BitVec.ofNat 9 cs.length).toNat = cs.length := by
    rw [BitVec.toNat_ofNat]; exact Nat.mod_eq_of_lt hl
  have hpool : (retire u).core.pool = (cs.zip (List.range cs.length)).foldl (fun t x => tabSet t (8 * p + x.2) (BitVec.ofNat 32 x.1)) w.core.pool := by
    rw [r11, m1]; rfl
  have hget : ∀ j, tabGet (retire u).core.pool 0 j = if 8 * p ≤ j ∧ j < 8 * p + cs.length then BitVec.ofNat 32 (cs.getD (j - 8 * p) 0)
      else tabGet w.core.pool 0 j := by
    intro j; rw [hpool, List.range_eq_range', fill_get]; rfl
  have hurest : (retire u).tile = z.tile ∧ (retire u).home = z.home ∧ (retire u).launch = z.launch ∧ (retire u).host = z.host ∧ (retire u).saved = z.saved := by
    have e : (retire u).tile = w.tile ∧ (retire u).home = w.home ∧ (retire u).launch = w.launch ∧ (retire u).host = w.host ∧ (retire u).saved = w.saved :=
      ⟨r1.trans m2, r2.trans m3, r3.trans m4, r4.trans m5, r5.trans m6⟩
    obtain ⟨e1, e2, e3, e4, e5⟩ := e
    obtain ⟨f1, f2, f3, f4, f5⟩ := alike_fields ha
    exact ⟨e1.trans f1, e2.trans f2, e3.trans f3, e4.trans f4, e5.trans f5⟩
  have hucore : (retire u).core.tcm = w.core.tcm ∧ (retire u).core.mx = w.core.mx ∧ (retire u).core.sealed = w.core.sealed ∧
      (retire u).core.vcache = w.core.vcache ∧ (retire u).core.eng = w.core.eng := by
    rw [r6, r7, r8, r9, r10, m1]; exact ⟨rfl, rfl, rfl, rfl, rfl⟩
  constructor
  · rw [hfr, freg_set_same]; exact ⟨rfl, rfl⟩
  · rw [hfr, freg_set_same]; exact hn
  · rw [hfr, freg_set_same]
  · unfold State.coefs
    rw [hfr, freg_set_same]
    dsimp only
    rw [hn]
    apply List.ext_getElem
    · simp
    · intro i h5 h6
      simp only [List.length_map, List.length_range] at h5 h6
      rw [List.getElem_map, List.getElem_map, List.getElem_range]
      have hp : (BitVec.ofNat 8 p).toNat = p := by rw [BitVec.toNat_ofNat]; apply Nat.mod_eq_of_lt; omega
      rw [hp, hget, if_pos (by omega)]
      have : 8 * p + i - 8 * p = i := by omega
      rw [this, List.getD_eq_getElem?_getD, List.getElem?_eq_getElem h6]; rfl
  · intro f hf' hne
    rw [hfr, freg_set_other _ _ hne, ← hw]
    exact releases_same _ _ _ ⟨f, List.mem_cons_of_mem _ hf', rfl⟩
  · rw [htc, hucur, hwc]
  · rw [htc, hucur]
  · rw [htc, hucur, hwc]
  · intro q hq
    rw [← hzc] at hq
    obtain ⟨rfl, hv⟩ := h4 q hq
    constructor
    · intro k hk
      rw [hget, if_neg hk, hwp, hv, hzc]
    · intro f hf' hne
      rw [hfr, freg_set_other _ _ hf', ← hw, releases_other, hv, hzt]
      intro g hg'
      cases hg' with
      | head => exact hf'
      | tail _ hx => exact hne g hx
  · rw [hurest.1, hz']
  · rw [htc, hucur, hwc]; exact ⟨rfl, rfl, rfl, rfl⟩
  · obtain ⟨_, e2, e3, e4, e5⟩ := hurest
    obtain ⟨c1, c2, c3, c4, c5⟩ := hucore
    obtain ⟨f1, f2, f3, f4, f5⟩ := core_fields hcore
    exact ⟨by rw [e2, hz'], by rw [e3, hz'], by rw [e4, hz'], by rw [e5, hz'], c1.trans f1, c2.trans f2, c3.trans f3, c4.trans f4, c5.trans f5⟩

/-- A result that has no room. -/
theorem result_full {s0 s : State} {c : Charge} {srcs : List Fld} {dst : Fld} {a b : BitVec 32} {cs : List Nat} {fx : Bool} {lrs : List Fld}
    (hg : poolFree s.core < (cs.length + 7) / 8) :
    finish (match storeF s0 dst a b cs lrs (fCharge c srcs cs.length s) with
      | .error e => .error e
      | .ok s => .ok (advance (setHvy (setFx fx s)))) = .next (takeTrap 0x0B 0 false (BitVec.ofNat 64 ((cs.length + 7) / 8)) s0) := by
  have hzc : (fCharge c srcs cs.length s).core = s.core := by
    have : fCharge c srcs cs.length s = { s with tile := (fCharge c srcs cs.length s).tile } := chargeN_alike _ _ _
    rw [this]
  unfold storeF granules allocPool
  dsimp only
  rw [hzc, if_pos hg]
  rfl

theorem trunc_eq (t : Task) (cs : List Nat) : truncF t cs = truncated t cs := by
  unfold truncF truncated
  dsimp only
  by_cases h : truncLen t.ftol cs > t.fmaxn.toNat
  · have e : Nat.min (truncLen t.ftol cs) t.fmaxn.toNat = t.fmaxn.toNat := by show min _ _ = _; omega
    rw [if_pos h, e, decide_eq_true h]
  · have e : Nat.min (truncLen t.ftol cs) t.fmaxn.toNat = truncLen t.ftol cs := by show min _ _ = _; omega
    rw [if_neg h, e, decide_eq_false h]

theorem trunc_len (t : Task) (cs : List Nat) : (truncated t cs).1.length < 512 := by
  unfold truncated
  dsimp only
  have := t.fmaxn.isLt
  rw [List.length_take]
  have e : Nat.min (truncLen t.ftol cs) t.fmaxn.toNat ≤ t.fmaxn.toNat := Nat.min_le_right _ _
  show min (Nat.min _ _) _ < _
  omega

theorem coefs_nat (s : State) (f : Fld) : coefsOf s.core (s.cur.freg f) = (s.coefs f).map (·.toNat) := by
  unfold coefsOf State.coefs; rw [List.map_map]; rfl

theorem coefs_length (s : State) (f : Fld) : (s.coefs f).length = (s.cur.freg f).n.toNat := by unfold State.coefs; simp

theorem present_ok {s : State} {l : List Fld} (h : ∀ f ∈ l, s.full f) : needFull l s = .ok () ∧ needPresent l s = .ok () := by
  induction l with
  | nil => exact ⟨rfl, rfl⟩
  | cons f l ih =>
    obtain ⟨h1, h2, -⟩ := h f List.mem_cons_self
    obtain ⟨i1, i2⟩ := ih fun g hg => h g (List.mem_cons_of_mem _ hg)
    constructor
    · unfold needFull; rw [if_neg h1]; exact i1
    · unfold needPresent
      rw [List.find?_eq_none.mpr]
      · exact i2
      · intro g _; rw [h2]; simp

theorem full_ok {s : State} {l : List Fld} (h : ∀ f ∈ l, s.full f) : needFull l s = .ok () ∧ needReady l s = .ok () := by
  obtain ⟨h1, h2⟩ := present_ok h
  refine ⟨h1, ?_⟩
  unfold needReady needClean
  rw [h2]
  dsimp only
  rw [if_neg]
  rw [Bool.not_eq_true, List.any_eq_false]
  intro f hf
  unfold poolBad
  rw [Bool.not_eq_true, List.any_eq_false]
  intro k hk
  have := (h f hf).2.2 k hk
  simpa using this

theorem sources_ok {s : State} {l : List Fld} (h : ∀ f ∈ l, s.full f) : fSources l s = .ok () := by
  obtain ⟨h1, h2⟩ := full_ok h
  unfold fSources; rw [h1]; exact h2

theorem empty1 {s : State} {b : Fld} {l : List Fld} (h : (s.cur.freg b).n = 0) : needFull (b :: l) s = trapD cFDOM 3 (b.setWidth 64) s := by
  unfold needFull; rw [if_pos h]; rfl

theorem empty2 {s : State} {b c : Fld} {l : List Fld} (hb : (s.cur.freg b).n ≠ 0) (h : (s.cur.freg c).n = 0) :
    needFull (b :: c :: l) s = trapD cFDOM 3 (c.setWidth 64) s := by
  unfold needFull; rw [if_neg hb]; exact empty1 h

theorem srcs_trap {s : State} {l : List Fld} {x : Stop} (h : needFull l s = .error x) : fSources l s = .error x := by
  unfold fSources; rw [h]

/-- The end of an instruction whose result is a register, both ways. -/
theorem fres {s0 s : State} (hst : s.cur.st = .running) (hwt : s.cur.wait = none) (c : Charge) (srcs : List Fld) (dst : Fld)
    (a b : BitVec 32) (cs : List Nat) (fx : Bool) (lrs : List Fld) (hl : (cs.length) < 512) (tr fx0 : Bool) (cs0 : List Nat)
    (he : (if tr then truncF s.cur cs0 else (cs0, false)) = (cs, fx)) :
    (poolFree s.core < (cs.length + 7) / 8 → finish (fResult s0 c srcs dst a b cs0 tr fx0 lrs s) =
      .next (takeTrap 0x0B 0 false (BitVec.ofNat 64 ((cs.length + 7) / 8)) s0)) ∧
    ((cs.length + 7) / 8 ≤ poolFree s.core → ∃ t, finish (fResult s0 c srcs dst a b cs0 tr fx0 lrs s) = .next t ∧
      s.Computes c srcs dst a b cs (fx || fx0) lrs t) := by
  have e : ∀ r : List Nat × Bool, r = (cs, fx) → (match r with
      | (cs, x) => match storeF s0 dst a b cs lrs (fCharge c srcs cs.length s) with
        | .error e => Except.error e
        | .ok s => Except.ok (advance (setHvy (setFx (x || fx0) s)))) =
      (match storeF s0 dst a b cs lrs (fCharge c srcs cs.length s) with
        | .error e => .error e
        | .ok s => .ok (advance (setHvy (setFx (fx || fx0) s)))) := by
    intro r h; rw [h]
  have e2 : fResult s0 c srcs dst a b cs0 tr fx0 lrs s = (match storeF s0 dst a b cs lrs (fCharge c srcs cs.length s) with
        | .error e => .error e
        | .ok s => .ok (advance (setHvy (setFx (fx || fx0) s)))) := e _ he
  rw [e2]
  exact ⟨fun h => result_full h, fun h => result_ok hst hwt hl h⟩

theorem fresT {s0 s : State} (hst : s.cur.st = .running) (hwt : s.cur.wait = none) (c : Charge) (srcs : List Fld) (dst : Fld)
    (a b : BitVec 32) (cs0 : List Nat) (fx0 : Bool) (lrs : List Fld) :
    (poolFree s.core < ((truncated s.cur cs0).1.length + 7) / 8 → finish (fResult s0 c srcs dst a b cs0 true fx0 lrs s) =
      .next (takeTrap 0x0B 0 false (BitVec.ofNat 64 (((truncated s.cur cs0).1.length + 7) / 8)) s0)) ∧
    (((truncated s.cur cs0).1.length + 7) / 8 ≤ poolFree s.core → ∃ t, finish (fResult s0 c srcs dst a b cs0 true fx0 lrs s) = .next t ∧
      s.Computes c srcs dst a b (truncated s.cur cs0).1 ((truncated s.cur cs0).2 || fx0) lrs t) :=
  fres hst hwt c srcs dst a b _ _ lrs (trunc_len s.cur cs0) true fx0 cs0 (trunc_eq s.cur cs0)

theorem getD_nat (l : List (BitVec 32)) (i : Nat) : fpv ((l.map (·.toNat)).getD i 0) = value (l.getD i 0) := by
  unfold fpv value
  congr 1
  rw [List.getD_eq_getElem?_getD, List.getElem?_map, List.getD_eq_getElem?_getD]
  cases l[i]? <;> rfl

theorem add_eq (s : State) (b c : Fld) (neg : Bool) :
    addCoefs neg (coefsOf s.core (s.cur.freg b)) (coefsOf s.core (s.cur.freg c)) =
      (List.range (Nat.max (s.cur.freg b).n.toNat (s.cur.freg c).n.toNat)).map fun i =>
        nearest ((value ((s.coefs b).getD i 0)).add (if neg then (value ((s.coefs c).getD i 0)).neg else value ((s.coefs c).getD i 0))) := by
  unfold addCoefs
  rw [coefs_nat, coefs_nat, List.length_map, List.length_map, coefs_length, coefs_length]
  apply List.map_congr_left
  intro i _
  dsimp only
  rw [getD_nat, getD_nat]; rfl

theorem mul_eq (s : State) (b c : Fld) :
    mulCoefs (coefsOf s.core (s.cur.freg b)) (coefsOf s.core (s.cur.freg c)) =
      (List.range ((s.cur.freg b).n.toNat + (s.cur.freg c).n.toNat - 1)).map fun i =>
        nearest ((FV.sum ((mulPairs (s.cur.freg b).n.toNat (s.cur.freg c).n.toNat i).map fun z =>
          (value ((s.coefs b).getD z.1 0)).mul (value ((s.coefs c).getD z.2 0)))).mul (.fin false 1 (-1))) := by
  unfold mulCoefs
  rw [coefs_nat, coefs_nat, List.length_map, List.length_map, coefs_length, coefs_length]
  apply List.map_congr_left
  intro i _
  unfold halfFV rne nearest
  congr 3
  apply List.map_congr_left
  intro z _
  rw [getD_nat, getD_nat]

structure Same (s u : State) : Prop where
  st : u.cur.st = s.cur.st
  wait : u.cur.wait = s.cur.wait
  runs : u.core.runs = s.core.runs
  trunc : ∀ cs, truncated u.cur cs = truncated s.cur cs

theorem same_of {s u : State} (h : s.untake u = s) : Same s u := by
  have h1 := congrArg State.cur h
  have h2 := congrArg State.core h
  refine ⟨?_, ?_, ?_, ?_⟩
  · have := congrArg Task.st h1; exact this
  · have := congrArg Task.wait h1; exact this
  · have := congrArg CoreSt.runs h2; exact this
  · intro cs
    have a := congrArg Task.ftol h1
    have b := congrArg Task.fmaxn h1
    have a' : u.cur.ftol = s.cur.ftol := a
    have b' : u.cur.fmaxn = s.cur.fmaxn := b
    unfold truncated; rw [a', b']

theorem same_free {s u : State} (h : Same s u) : poolFree u.core = poolFree s.core := by unfold poolFree poolUsed; rw [h.runs]

theorem fresU {s u : State} (hs : s.starts) (h : Same s u) (c : Charge) (srcs : List Fld) (dst : Fld)
    (a b : BitVec 32) (cs : List Nat) (lrs : List Fld) :
    (poolFree s.core < ((truncated s.cur cs).1.length + 7) / 8 → finish (fResult s c srcs dst a b cs true false lrs u) =
      .next (takeTrap 0x0B 0 false (BitVec.ofNat 64 (((truncated s.cur cs).1.length + 7) / 8)) s)) ∧
    (((truncated s.cur cs).1.length + 7) / 8 ≤ poolFree s.core → ∃ t, finish (fResult s c srcs dst a b cs true false lrs u) = .next t ∧
      u.Computes c srcs dst a b (truncated s.cur cs).1 (truncated s.cur cs).2 lrs t) := by
  have := fresT (s0 := s) (s := u) (by rw [h.st]; exact hs.1) (by rw [h.wait]; exact hs.2.1) c srcs dst a b cs false lrs
  rw [h.trunc, same_free h, Bool.or_false] at this
  exact this

theorem fresV {s u : State} (hs : s.starts) (h : Same s u) (c : Charge) (srcs : List Fld) (dst : Fld)
    (a b : BitVec 32) (cs : List Nat) (lrs : List Fld) (hl : cs.length < 512) :
    (poolFree s.core < (cs.length + 7) / 8 → finish (fResult s c srcs dst a b cs false false lrs u) =
      .next (takeTrap 0x0B 0 false (BitVec.ofNat 64 ((cs.length + 7) / 8)) s)) ∧
    ((cs.length + 7) / 8 ≤ poolFree s.core → ∃ t, finish (fResult s c srcs dst a b cs false false lrs u) = .next t ∧
      u.Computes c srcs dst a b cs false lrs t) := by
  have := fres (s0 := s) (s := u) (by rw [h.st]; exact hs.1) (by rw [h.wait]; exact hs.2.1) c srcs dst a b cs false lrs hl false false cs rfl
  rw [same_free h, Bool.or_false] at this
  exact this

theorem tcmBytes_take (s : State) : ∀ (n m a : Nat), (tcmBytes s a (n + m)).drop n = tcmBytes s (a + n) m ∧ (tcmBytes s a (n + m)).take n = tcmBytes s a n := by
  intro n
  induction n with
  | zero => intro m a; rw [Nat.zero_add]; exact ⟨rfl, rfl⟩
  | succ n ih =>
    intro m a
    rw [show n + 1 + m = (n + m) + 1 from by omega]
    obtain ⟨i1, i2⟩ := ih m (a + 1)
    constructor
    · show (tcmByte s a :: tcmBytes s (a + 1) (n + m)).drop (n + 1) = _
      rw [List.drop_succ_cons, i1]; congr 1; omega
    · show (tcmByte s a :: tcmBytes s (a + 1) (n + m)).take (n + 1) = tcmByte s a :: _
      rw [List.take_succ_cons, i2]

theorem piece (s : State) (a N k n : Nat) (h : k + n ≤ N) : ((tcmBytes s a N).drop k).take n = tcmBytes s (a + k) n := by
  have e1 := (tcmBytes_take s k (N - k) a).1
  rw [show k + (N - k) = N from by omega] at e1
  rw [e1]
  have e2 := (tcmBytes_take s n (N - k - n) (a + k)).2
  rw [show n + (N - k - n) = N - k from by omega] at e2
  exact e2

theorem singles_eq (s : State) (a n : Nat) : singles (tcmBytes s a (4 * n)) n = (List.range n).map fun i => leNat (tcmBytes s (a + 4 * i) 4) := by
  unfold singles
  apply List.map_congr_left
  intro i hi
  have := List.mem_range.mp hi
  rw [piece _ _ _ _ _ (by omega)]

theorem read_ok {s : State} {a n : Nat} (h : tcmBusy s a n = false ∧ anyPoison s.core.tcmPoison a n = false) : tcmRead s a n = .ok (tcmBytes s a n) := by
  unfold tcmRead; rw [h.1, h.2]; rfl

theorem leNat4 (s : State) (a : Nat) : leNat (tcmBytes s a 4) < 2 ^ 32 := by
  have := leNat_lt (tcmBytes s a 4)
  rw [tcmBytes_length] at this; exact this

theorem chargeN_cur (c : Charge) (n : Nat) (s : State) : (chargeN c n s).cur = s.cur := by rw [chargeN_alike]

theorem chargeN_core (c : Charge) (n : Nat) (s : State) : (chargeN c n s).core = s.core := by rw [chargeN_alike]

end Sys2Proof.Machine
end

