-- ==== Sys2Proof/Laws/KeepOps.lean ====
section
/-! SUPPORT. The shared operations keep every memory of the state in canonical form, in the state they answer and in the state a stop carries. -/

namespace Sys2Proof.Machine

theorem State_setVf_mem (v : BitVec 6) (r : VfRegs) {s : State} (hs_s : s.memOk = true) : (State.setVf s v r).memOk = true := by
  unfold State.setVf
  grind (splits := 30) [onCur_mem, onTile_mem, onHost_mem, onCore_mem, onHome_mem, free_mem, memOk_mk, memOk_home, memOk_tcm, memOk_saved, Stop.state]

theorem State_setAsid_mem (vf : BitVec 6) (id : BitVec 16) (e : AsidEnt) {s : State} (hs_s : s.memOk = true) : (State.setAsid s vf id e).memOk = true := by
  unfold State.setAsid
  grind (splits := 30) [onCur_mem, onTile_mem, onHost_mem, onCore_mem, onHome_mem, free_mem, memOk_mk, memOk_home, memOk_tcm, memOk_saved, Stop.state]

theorem putLaunchReg_mem (n : BitVec 12) (v_x : Word) {s : State} (hs_s : s.memOk = true) : (putLaunchReg n v_x s).memOk = true := by
  unfold putLaunchReg
  grind (splits := 30) [onCur_mem, onTile_mem, onHost_mem, onCore_mem, onHome_mem, free_mem, memOk_mk, memOk_home, memOk_tcm, memOk_saved, Stop.state]

theorem State_free_mem  {s : State} (hs_s : s.memOk = true) : (State.free s).2.memOk = true := by
  unfold State.free
  grind (splits := 30) [onCur_mem, onTile_mem, onHost_mem, onCore_mem, onHome_mem, free_mem, memOk_mk, memOk_home, memOk_tcm, memOk_saved, Stop.state]

theorem State_mapTasks_mem (p : Task → Bool) (f : Task → Task) {s : State} (hs_s : s.memOk = true) : (State.mapTasks s p f).memOk = true := by
  unfold State.mapTasks
  grind (splits := 30) [onCur_mem, onTile_mem, onHost_mem, onCore_mem, onHome_mem, free_mem, memOk_mk, memOk_home, memOk_tcm, memOk_saved, Stop.state]

theorem State_setW_mem (k : BitVec 4) (v_x : Word) {s : State} (hs_s : s.memOk = true) : (State.setW s k v_x).memOk = true := by
  unfold State.setW
  grind (splits := 30) [onCur_mem, onTile_mem, onHost_mem, onCore_mem, onHome_mem, free_mem, memOk_mk, memOk_home, memOk_tcm, memOk_saved, Stop.state]

theorem State_ww_mem (f : Fld) (v_x : Word) {s : State} (hs_s : s.memOk = true) : (State.ww s f v_x).memOk = true := by
  unfold State.ww
  grind (splits := 30) [State_setW_mem, onCur_mem, onTile_mem, onHost_mem, onCore_mem, onHome_mem, free_mem, memOk_mk, memOk_home, memOk_tcm, memOk_saved, Stop.state]

theorem chargeMany_mem (vf : BitVec 6) (n : Nat) (nominal : Nat) {s : State} (hs_s : s.memOk = true) : (chargeMany vf n nominal s).memOk = true := by
  unfold chargeMany
  grind (splits := 30) [onCur_mem, onTile_mem, onHost_mem, onCore_mem, onHome_mem, free_mem, memOk_mk, memOk_home, memOk_tcm, memOk_saved, Stop.state]

theorem chargeTo_mem (vf : BitVec 6) (nominal : Nat) {s : State} (hs_s : s.memOk = true) : (chargeTo vf nominal s).memOk = true := by
  unfold chargeTo
  grind (splits := 30) [chargeMany_mem, onCur_mem, onTile_mem, onHost_mem, onCore_mem, onHome_mem, free_mem, memOk_mk, memOk_home, memOk_tcm, memOk_saved, Stop.state]

theorem chargeOpen_mem (vf : BitVec 6) {s : State} (hs_s : s.memOk = true) : (chargeOpen vf s).memOk = true := by
  unfold chargeOpen
  grind (splits := 30) [State_free_mem, chargeTo_mem, onCur_mem, onTile_mem, onHost_mem, onCore_mem, onHome_mem, free_mem, memOk_mk, memOk_home, memOk_tcm, memOk_saved, Stop.state]

theorem charge_mem (c : Charge) {s : State} (hs_s : s.memOk = true) : (charge c s).memOk = true := by
  unfold charge
  grind (splits := 30) [chargeTo_mem, onCur_mem, onTile_mem, onHost_mem, onCore_mem, onHome_mem, free_mem, memOk_mk, memOk_home, memOk_tcm, memOk_saved, Stop.state]

theorem chargeOnce_mem (c : Charge) {s : State} (hs_s : s.memOk = true) : (chargeOnce c s).memOk = true := by
  unfold chargeOnce
  grind (splits := 30) [charge_mem, onCur_mem, onTile_mem, onHost_mem, onCore_mem, onHome_mem, free_mem, memOk_mk, memOk_home, memOk_tcm, memOk_saved, Stop.state]

theorem chargeHome_mem (v_h : Home) (units : Nat) {s : State} (hs_s : s.memOk = true) : (chargeHome v_h units s).memOk = true := by
  unfold chargeHome
  grind (splits := 30) [chargeMany_mem, onCur_mem, onTile_mem, onHost_mem, onCore_mem, onHome_mem, free_mem, memOk_mk, memOk_home, memOk_tcm, memOk_saved, Stop.state]

theorem chargeNet_mem (cluster : Nat) (flits : Nat) {s : State} (hs_s : s.memOk = true) : (chargeNet cluster flits s).memOk = true := by
  unfold chargeNet
  grind (splits := 30) [chargeMany_mem, onCur_mem, onTile_mem, onHost_mem, onCore_mem, onHome_mem, free_mem, memOk_mk, memOk_home, memOk_tcm, memOk_saved, Stop.state]

theorem chargeAccess_mem (pa : Nat) (n : Nat) {s : State} (hs_s : s.memOk = true) : (chargeAccess pa n s).memOk = true := by
  unfold chargeAccess
  grind (splits := 30) [chargeHome_mem, chargeNet_mem, onCur_mem, onTile_mem, onHost_mem, onCore_mem, onHome_mem, free_mem, memOk_mk, memOk_home, memOk_tcm, memOk_saved, Stop.state]

theorem tcmPutByte_mem (a : Nat) (b : Byte) {s : State} (hs_s : s.memOk = true) : (tcmPutByte s a b).memOk = true := by
  unfold tcmPutByte
  grind (splits := 30) [State_mapTasks_mem, memPut_wf, onCur_mem, onTile_mem, onHost_mem, onCore_mem, onHome_mem, free_mem, memOk_mk, memOk_home, memOk_tcm, memOk_saved, Stop.state]

theorem tcmPutBytes_mem (a : Nat) (z0 : List Byte) {s : State} (hs_s : s.memOk = true) : (tcmPutBytes s a z0).memOk = true := by
  induction z0 generalizing s a <;> unfold tcmPutBytes <;> grind (splits := 30) [tcmPutByte_mem, onCur_mem, onTile_mem, onHost_mem, onCore_mem, onHome_mem, free_mem, memOk_mk, memOk_home, memOk_tcm, memOk_saved, Stop.state]

theorem tcmPut_mem (a : Nat) (bs : List Byte) {s : State} (hs_s : s.memOk = true) : (tcmPut s a bs).memOk = true := by
  unfold tcmPut
  grind (splits := 30) [tcmPutBytes_mem, onCur_mem, onTile_mem, onHost_mem, onCore_mem, onHome_mem, free_mem, memOk_mk, memOk_home, memOk_tcm, memOk_saved, Stop.state]

theorem pushElem_mem (f : Fld) (st : Stream) (v_x : Word) {s : State} (hs_s : s.memOk = true) : (pushElem f st v_x s).memOk = true := by
  unfold pushElem
  grind (splits := 30) [onCur_mem, onTile_mem, onHost_mem, onCore_mem, onHome_mem, free_mem, memOk_mk, memOk_home, memOk_tcm, memOk_saved, Stop.state]

theorem moveBefore_mem (f : Fld) (l : Nat) (vals : List Word) {s : State} (hs_s : s.memOk = true) : (moveBefore f l vals s).memOk = true := by
  unfold moveBefore
  grind (splits := 30) [pushElem_mem, foldl_mem, foldl_chunks_tcm, onCur_mem, onTile_mem, onHost_mem, onCore_mem, onHome_mem, free_mem, memOk_mk, memOk_home, memOk_tcm, memOk_saved, Stop.state]

theorem tcmRead_err (a : Nat) (n : Nat) {s : State} {x : Stop} (hs_s : s.memOk = true) (h : tcmRead s a n = .error x) : x.state.memOk = true := by
  unfold tcmRead at h
  grind (splits := 30) [State_free_mem, onCur_mem, onTile_mem, onHost_mem, onCore_mem, onHome_mem, free_mem, memOk_mk, memOk_home, memOk_tcm, memOk_saved, Stop.state]

theorem tcmWrite_mem (a : Nat) (bs : List Byte) {s : State}  {t : State} (hs_s : s.memOk = true) (h : tcmWrite s a bs = .ok t) : t.memOk = true := by
  unfold tcmWrite at h
  grind (splits := 30) [tcmPut_mem, onCur_mem, onTile_mem, onHost_mem, onCore_mem, onHome_mem, free_mem, memOk_mk, memOk_home, memOk_tcm, memOk_saved, Stop.state]

theorem tcmWrite_err (a : Nat) (bs : List Byte) {s : State} {x : Stop} (hs_s : s.memOk = true) (h : tcmWrite s a bs = .error x) : x.state.memOk = true := by
  unfold tcmWrite at h
  grind (splits := 30) [tcmPut_mem, onCur_mem, onTile_mem, onHost_mem, onCore_mem, onHome_mem, free_mem, memOk_mk, memOk_home, memOk_tcm, memOk_saved, Stop.state]

theorem errCount_mem (n : Nat) {s : State} (hs_s : s.memOk = true) : (errCount n s).memOk = true := by
  unfold errCount
  grind (splits := 30) [onCur_mem, onTile_mem, onHost_mem, onCore_mem, onHome_mem, free_mem, memOk_mk, memOk_home, memOk_tcm, memOk_saved, Stop.state]

theorem errWrite_mem (bytes : List Byte) {s : State} {t : State} (hs_s : s.memOk = true) (h : errWrite bytes s = some t) : t.memOk = true := by
  unfold errWrite at h
  grind (splits := 30) [homePut_wf, onCur_mem, onTile_mem, onHost_mem, onCore_mem, onHome_mem, free_mem, memOk_mk, memOk_home, memOk_tcm, memOk_saved, Stop.state]

theorem errLater_mem (bytes : List Byte) {s : State} (hs_s : s.memOk = true) : (errLater bytes s).memOk = true := by
  unfold errLater
  grind (splits := 30) [onCur_mem, onTile_mem, onHost_mem, onCore_mem, onHome_mem, free_mem, memOk_mk, memOk_home, memOk_tcm, memOk_saved, Stop.state]

theorem errEntry_mem (bytes : List Byte) {s : State} (hs_s : s.memOk = true) : (errEntry bytes s).memOk = true := by
  unfold errEntry
  have h : (errCount 1 s).memOk = true := errCount_mem 1 hs_s
  generalize errCount 1 s = u at h
  dsimp only
  split
  · exact h
  · split
    · cases e : errWrite bytes u with
      | none => exact errLater_mem bytes h
      | some v => exact errWrite_mem bytes h e
    · exact errLater_mem bytes h

theorem flushErr_mem (z0 : List (List Byte)) {z1 : State} (hs_z1 : z1.memOk = true) : (flushErr z0 z1).memOk = true := by
  induction z0 generalizing z1 <;> unfold flushErr <;> grind (splits := 30) [→ errWrite_mem, onCur_mem, onTile_mem, onHost_mem, onCore_mem, onHome_mem, free_mem, memOk_mk, memOk_home, memOk_tcm, memOk_saved, Stop.state]

theorem errDrop_mem  {s : State} (hs_s : s.memOk = true) : (errDrop s).memOk = true := by
  unfold errDrop
  grind (splits := 30) [homePut_wf, onCur_mem, onTile_mem, onHost_mem, onCore_mem, onHome_mem, free_mem, memOk_mk, memOk_home, memOk_tcm, memOk_saved, Stop.state]

theorem trapEntry_mem (v_t : Task) (cause : BitVec 6) (detail : BitVec 8) (tepc : Word) (val : Word) {s : State} (hs_s : s.memOk = true) : (trapEntry v_t cause detail tepc val s).memOk = true := by
  unfold trapEntry
  grind (splits := 30) [errEntry_mem, onCur_mem, onTile_mem, onHost_mem, onCore_mem, onHome_mem, free_mem, memOk_mk, memOk_home, memOk_tcm, memOk_saved, Stop.state]

theorem escalateTraps_mem (v_t : Task) (z0 : List PendTrap) {z1 : State} (hs_z1 : z1.memOk = true) : (escalateTraps v_t z0 z1).memOk = true := by
  induction z0 generalizing v_t z1 <;> unfold escalateTraps <;> grind (splits := 30) [trapEntry_mem, onCur_mem, onTile_mem, onHost_mem, onCore_mem, onHome_mem, free_mem, memOk_mk, memOk_home, memOk_tcm, memOk_saved, Stop.state]

theorem popChan_mem (ch : BitVec 3) (k : Nat) {s : State} (hs_s : s.memOk = true) : (popChan ch k s).2.memOk = true := by
  unfold popChan
  grind (splits := 30) [onCur_mem, onTile_mem, onHost_mem, onCore_mem, onHome_mem, free_mem, memOk_mk, memOk_home, memOk_tcm, memOk_saved, Stop.state]

theorem dropInbound_mem (q : QBind) {s : State} (hs_s : s.memOk = true) : (dropInbound q s).memOk = true := by
  unfold dropInbound
  grind (splits := 30) [popChan_mem, onCur_mem, onTile_mem, onHost_mem, onCore_mem, onHome_mem, free_mem, memOk_mk, memOk_home, memOk_tcm, memOk_saved, Stop.state]

theorem flushWs_mem (v_t : Task) {s : State} (hs_s : s.memOk = true) : (flushWs v_t s).memOk = true := by
  unfold flushWs
  grind (splits := 30) [memPutN_wf, onCur_mem, onTile_mem, onHost_mem, onCore_mem, onHome_mem, free_mem, memOk_mk, memOk_home, memOk_tcm, memOk_saved, Stop.state]

theorem dropBinding_mem (q : QBind) {s : State} (hs_s : s.memOk = true) : (dropBinding q s).memOk = true := by
  unfold dropBinding
  grind (splits := 30) [dropInbound_mem, freeChunk_tcm, foldl_mem, foldl_chunks_tcm, onCur_mem, onTile_mem, onHost_mem, onCore_mem, onHome_mem, free_mem, memOk_mk, memOk_home, memOk_tcm, memOk_saved, Stop.state]

theorem reportFails_mem (v_t : Task) {s : State} (hs_s : s.memOk = true) : (reportFails v_t s).memOk = true := by
  unfold reportFails
  grind (splits := 30) [errCount_mem, onCur_mem, onTile_mem, onHost_mem, onCore_mem, onHome_mem, free_mem, memOk_mk, memOk_home, memOk_tcm, memOk_saved, Stop.state]

theorem endCur_mem  {s : State} (hs_s : s.memOk = true) : (endCur s).memOk = true := by
  unfold endCur
  grind (splits := 30) [dropBinding_mem, escalateTraps_mem, flushWs_mem, reportFails_mem, freeRuns_tcm, releaseMx_tcm, freeChunk_tcm, foldl_mem, foldl_chunks_tcm, freeChunk?_tcm, onCur_mem, onTile_mem, onHost_mem, onCore_mem, onHome_mem, free_mem, memOk_mk, memOk_home, memOk_tcm, memOk_saved, Stop.state]

theorem discardCur_mem  {s : State} (hs_s : s.memOk = true) : (discardCur s).memOk = true := by
  unfold discardCur
  grind (splits := 30) [onCur_mem, onTile_mem, onHost_mem, onCore_mem, onHome_mem, free_mem, memOk_mk, memOk_home, memOk_tcm, memOk_saved, Stop.state]

theorem shadowLeave_mem  {s : State} (hs_s : s.memOk = true) : (shadowLeave s).memOk = true := by
  unfold shadowLeave
  grind (splits := 30) [onCur_mem, onTile_mem, onHost_mem, onCore_mem, onHome_mem, free_mem, memOk_mk, memOk_home, memOk_tcm, memOk_saved, Stop.state]

theorem shadowAbandon_mem  {s : State} (hs_s : s.memOk = true) : (shadowAbandon s).memOk = true := by
  unfold shadowAbandon
  grind (splits := 30) [errEntry_mem, shadowLeave_mem, onCur_mem, onTile_mem, onHost_mem, onCore_mem, onHome_mem, free_mem, memOk_mk, memOk_home, memOk_tcm, memOk_saved, Stop.state]

theorem enterTrap_mem (cause : BitVec 6) (detail : BitVec 8) (async : Bool) (val : Word) {s : State} (hs_s : s.memOk = true) : (enterTrap cause detail async val s).memOk = true := by
  unfold enterTrap
  grind (splits := 30) [onCur_mem, onTile_mem, onHost_mem, onCore_mem, onHome_mem, free_mem, memOk_mk, memOk_home, memOk_tcm, memOk_saved, Stop.state]

theorem issued_mem  {s : State} (hs_s : s.memOk = true) : (issued s).memOk = true := by
  unfold issued
  grind (splits := 30) [onCur_mem, onTile_mem, onHost_mem, onCore_mem, onHome_mem, free_mem, memOk_mk, memOk_home, memOk_tcm, memOk_saved, Stop.state]

theorem takeTrap_mem (cause : BitVec 6) (detail : BitVec 8) (async : Bool) (val : Word) {s : State} (hs_s : s.memOk = true) : (takeTrap cause detail async val s).memOk = true := by
  unfold takeTrap
  grind (splits := 30) [discardCur_mem, endCur_mem, enterTrap_mem, issued_mem, shadowAbandon_mem, trapEntry_mem, onCur_mem, onTile_mem, onHost_mem, onCore_mem, onHome_mem, free_mem, memOk_mk, memOk_home, memOk_tcm, memOk_saved, Stop.state]

theorem returnTrap_mem  {s : State} (hs_s : s.memOk = true) : (returnTrap s).memOk = true := by
  unfold returnTrap
  grind (splits := 30) [onCur_mem, onTile_mem, onHost_mem, onCore_mem, onHome_mem, free_mem, memOk_mk, memOk_home, memOk_tcm, memOk_saved, Stop.state]

theorem blockCur_mem (st : TaskSt) (w : Wait) {s : State} (hs_s : s.memOk = true) : (blockCur st w s).memOk = true := by
  unfold blockCur
  grind (splits := 30) [issued_mem, onCur_mem, onTile_mem, onHost_mem, onCore_mem, onHome_mem, free_mem, memOk_mk, memOk_home, memOk_tcm, memOk_saved, Stop.state]

theorem retire_mem  {s : State} (hs_s : s.memOk = true) : (retire s).memOk = true := by
  unfold retire
  grind (splits := 30) [retireCore_tcm, onCur_mem, onTile_mem, onHost_mem, onCore_mem, onHome_mem, free_mem, memOk_mk, memOk_home, memOk_tcm, memOk_saved, Stop.state]

theorem consume_mem (detail : BitVec 8) (val : Word) (addr : Word) {s : State} (hs_s : s.memOk = true) : (consume detail val addr s).memOk = true := by
  unfold consume
  grind (splits := 30) [onCur_mem, onTile_mem, onHost_mem, onCore_mem, onHome_mem, free_mem, memOk_mk, memOk_home, memOk_tcm, memOk_saved, Stop.state]

theorem advance_mem  {s : State} (hs_s : s.memOk = true) : (advance s).memOk = true := by
  unfold advance
  grind (splits := 30) [onCur_mem, onTile_mem, onHost_mem, onCore_mem, onHome_mem, free_mem, memOk_mk, memOk_home, memOk_tcm, memOk_saved, Stop.state]

theorem setHvy_mem  {s : State} (hs_s : s.memOk = true) : (setHvy s).memOk = true := by
  unfold setHvy
  grind (splits := 30) [onCur_mem, onTile_mem, onHost_mem, onCore_mem, onHome_mem, free_mem, memOk_mk, memOk_home, memOk_tcm, memOk_saved, Stop.state]

theorem done_mem  {s : State} {t : State} (hs_s : s.memOk = true) (h : done s = .next t) : t.memOk = true := by
  unfold done at h
  grind (splits := 30) [onCur_mem, onTile_mem, onHost_mem, onCore_mem, onHome_mem, free_mem, memOk_mk, memOk_home, memOk_tcm, memOk_saved, Stop.state]

theorem tlbLookup_mem (fetch : Bool) (va : Nat) {s : State} {y0} {t : State} (hs_s : s.memOk = true) (h : tlbLookup s fetch va = some (y0, t)) : t.memOk = true := by
  unfold tlbLookup at h
  grind (splits := 30) [onCur_mem, onTile_mem, onHost_mem, onCore_mem, onHome_mem, free_mem, memOk_mk, memOk_home, memOk_tcm, memOk_saved, Stop.state]

theorem markDirty_mem (e : Tlb) {s : State}  {t : State} (hs_s : s.memOk = true) (h : markDirty s e = .ok t) : t.memOk = true := by
  unfold markDirty at h
  grind (splits := 30) [onCur_mem, onTile_mem, onHost_mem, onCore_mem, onHome_mem, free_mem, memOk_mk, memOk_home, memOk_tcm, memOk_saved, Stop.state]

theorem markDirty_err (e : Tlb) {s : State} {x : Stop} (hs_s : s.memOk = true) (h : markDirty s e = .error x) : x.state.memOk = true := by
  unfold markDirty at h
  grind (splits := 30) [onCur_mem, onTile_mem, onHost_mem, onCore_mem, onHome_mem, free_mem, memOk_mk, memOk_home, memOk_tcm, memOk_saved, Stop.state]

theorem translate_mem (acc : Access) (va : Nat) {s : State} {y0} {y1} {t : State} (hs_s : s.memOk = true) (h : translate acc va s = .ok (y0, y1, t)) : t.memOk = true := by
  unfold translate at h
  grind (splits := 30) [→ markDirty_mem, → markDirty_err, → tlbLookup_mem, trapR, onCur_mem, onTile_mem, onHost_mem, onCore_mem, onHome_mem, free_mem, memOk_mk, memOk_home, memOk_tcm, memOk_saved, Stop.state]

theorem translate_err (acc : Access) (va : Nat) {s : State} {x : Stop} (hs_s : s.memOk = true) (h : translate acc va s = .error x) : x.state.memOk = true := by
  unfold translate at h
  grind (splits := 30) [→ markDirty_mem, → markDirty_err, → tlbLookup_mem, trapR, onCur_mem, onTile_mem, onHost_mem, onCore_mem, onHome_mem, free_mem, memOk_mk, memOk_home, memOk_tcm, memOk_saved, Stop.state]

theorem translateAt_mem (acc : Access) (scope : BitVec 3) (va : Nat) {s : State} {y0} {y1} {t : State} (hs_s : s.memOk = true) (h : translateAt acc scope va s = .ok (y0, y1, t)) : t.memOk = true := by
  unfold translateAt at h
  grind (splits := 30) [→ translate_mem, → translate_err, trapR, onCur_mem, onTile_mem, onHost_mem, onCore_mem, onHome_mem, free_mem, memOk_mk, memOk_home, memOk_tcm, memOk_saved, Stop.state]

theorem translateAt_err (acc : Access) (scope : BitVec 3) (va : Nat) {s : State} {x : Stop} (hs_s : s.memOk = true) (h : translateAt acc scope va s = .error x) : x.state.memOk = true := by
  unfold translateAt at h
  grind (splits := 30) [→ translate_mem, → translate_err, trapR, onCur_mem, onTile_mem, onHost_mem, onCore_mem, onHome_mem, free_mem, memOk_mk, memOk_home, memOk_tcm, memOk_saved, Stop.state]

theorem mapM_err {α β : Type} {f : α → Res β} (hf : ∀ a x, f a = .error x → x.state.memOk = true) (l : List α) {x : Stop}
    (h : l.mapM f = .error x) : x.state.memOk = true := by
  induction l generalizing x with
  | nil => cases h
  | cons a l ih =>
    rw [List.mapM_cons] at h
    cases ha : f a with
    | error e => rw [ha] at h; cases h; exact hf a _ ha
    | ok b =>
      rw [ha] at h
      cases hl : l.mapM f with
      | error e => rw [hl] at h; cases h; exact ih hl
      | ok bs => rw [hl] at h; cases h

theorem at_mem {x : Stop} {s : State} (a b c d : List Fld) (h : x.state.memOk = true) (hs : s.memOk = true) :
    (x.at s a b c d).state.memOk = true := by
  unfold Stop.at
  split <;> exact hs

theorem back_mem {x : Stop} {s : State} (h : x.state.memOk = true) :
    (x.back s).state.memOk = true := by
  cases x <;> exact h

theorem finish_mem {r : Res State} {t : State} (ok : ∀ t, r = .ok t → t.memOk = true)
    (er : ∀ x, r = .error x → x.state.memOk = true) (h : finish r = .next t) : t.memOk = true := by
  match r, ok, er, h with
  | .ok u, ok, _, h => cases h; exact retire_mem (ok u rfl)
  | .error (.trap c d v u), _, er, h => cases h; exact takeTrap_mem c d false v (er _ rfl)
  | .error (.wait st w u), _, er, h => cases h; exact blockCur_mem st w (er _ rfl)
  | .error (.xrange f l vals u), _, er, h => cases h; exact takeTrap_mem _ _ false _ (moveBefore_mem f l vals (er _ rfl))
  | .error (.err d v a u), _, er, h => cases h; exact consume_mem d v a (er _ rfl)

theorem withHome_mem {s : State} {h : HomeSt} (hs : s.memOk = true) (w : Memory.wf h.mem = true) :
    ({ s with home := h } : State).memOk = true := by
  have e : ({ s with home := h } : State).memOk = (Memory.wf h.mem && Memory.wf s.core.tcm && s.saved.all fun x => Memory.wf x.core.tcm) := rfl
  rw [e, w, memOk_tcm hs, memOk_saved hs]
  rfl

theorem mapError_ok {r : Res State} {f : Stop → Stop} {t : State} (h : r.mapError f = .ok t) : r = .ok t := by
  cases r <;> simp_all [Except.mapError]

theorem mapError_err {r : Res State} {f : Stop → Stop} {x : Stop} (h : r.mapError f = .error x) : ∃ y, r = .error y ∧ x = f y := by
  cases r <;> simp_all [Except.mapError]

end Sys2Proof.Machine
end

