-- ==== Sys2Proof/Laws/KeepOperands.lean ====
section
/-! SUPPORT. Taking and writing operands keeps every memory in canonical form. -/

namespace Sys2Proof.Machine

theorem inStream_err (f : Fld) {s : State} {x : Stop} (hs_s : s.memOk = true) (h : inStream f s = .error x) : x.state.memOk = true := by
  unfold inStream at h
  grind (splits := 30) [strmTrap, trapD, onCur_mem, onTile_mem, onHost_mem, onCore_mem, onHome_mem, free_mem, memOk_mk, memOk_home, memOk_tcm, memOk_saved, Stop.state]

theorem outStream_err (f : Fld) {s : State} {x : Stop} (hs_s : s.memOk = true) (h : outStream f s = .error x) : x.state.memOk = true := by
  unfold outStream at h
  grind (splits := 30) [trapR, strmTrap, trapD, onCur_mem, onTile_mem, onHost_mem, onCore_mem, onHome_mem, free_mem, memOk_mk, memOk_home, memOk_tcm, memOk_saved, Stop.state]

theorem elemVal_err (f : Fld) (e : Elem) {s : State} {x : Stop} (hs_s : s.memOk = true) (h : elemVal f e s = .error x) : x.state.memOk = true := by
  unfold elemVal at h
  grind (splits := 30) [State_free_mem, trapR, onCur_mem, onTile_mem, onHost_mem, onCore_mem, onHome_mem, free_mem, memOk_mk, memOk_home, memOk_tcm, memOk_saved, Stop.state]

theorem popStream_mem (f : Fld) {s : State} {y0} {t : State} (hs_s : s.memOk = true) (h : popStream f s = .ok (y0, t)) : t.memOk = true := by
  unfold popStream at h
  grind (splits := 30) [→ elemVal_err, → inStream_err, notReady, onCur_mem, onTile_mem, onHost_mem, onCore_mem, onHome_mem, free_mem, memOk_mk, memOk_home, memOk_tcm, memOk_saved, Stop.state]

theorem popStream_err (f : Fld) {s : State} {x : Stop} (hs_s : s.memOk = true) (h : popStream f s = .error x) : x.state.memOk = true := by
  unfold popStream at h
  grind (splits := 30) [→ elemVal_err, → inStream_err, notReady, onCur_mem, onTile_mem, onHost_mem, onCore_mem, onHome_mem, free_mem, memOk_mk, memOk_home, memOk_tcm, memOk_saved, Stop.state]

theorem popQueue_mem (f : Fld) {s : State} {y0} {t : State} (hs_s : s.memOk = true) (h : popQueue f s = .ok (y0, t)) : t.memOk = true := by
  unfold popQueue at h
  grind (splits := 30) [popChan_mem, freeChunk_tcm, trapR, notReady, freeChunk?_tcm, onCur_mem, onTile_mem, onHost_mem, onCore_mem, onHome_mem, free_mem, memOk_mk, memOk_home, memOk_tcm, memOk_saved, Stop.state]

theorem popQueue_err (f : Fld) {s : State} {x : Stop} (hs_s : s.memOk = true) (h : popQueue f s = .error x) : x.state.memOk = true := by
  unfold popQueue at h
  grind (splits := 30) [popChan_mem, freeChunk_tcm, trapR, notReady, freeChunk?_tcm, onCur_mem, onTile_mem, onHost_mem, onCore_mem, onHome_mem, free_mem, memOk_mk, memOk_home, memOk_tcm, memOk_saved, Stop.state]

theorem readS_mem (f : Fld) {s : State} {y0} {t : State} (hs_s : s.memOk = true) (h : readS f s = .ok (y0, t)) : t.memOk = true := by
  unfold readS at h
  grind (splits := 30) [→ popQueue_mem, → popQueue_err, → popStream_mem, → popStream_err, regWait, notReady, trapR, onCur_mem, onTile_mem, onHost_mem, onCore_mem, onHome_mem, free_mem, memOk_mk, memOk_home, memOk_tcm, memOk_saved, Stop.state]

theorem readS_err (f : Fld) {s : State} {x : Stop} (hs_s : s.memOk = true) (h : readS f s = .error x) : x.state.memOk = true := by
  unfold readS at h
  grind (splits := 30) [→ popQueue_mem, → popQueue_err, → popStream_mem, → popStream_err, regWait, notReady, trapR, onCur_mem, onTile_mem, onHost_mem, onCore_mem, onHome_mem, free_mem, memOk_mk, memOk_home, memOk_tcm, memOk_saved, Stop.state]

theorem pushOk_err (f : Fld) (st : Stream) (l : Nat) {s : State} {x : Stop} (hs_s : s.memOk = true) (h : pushOk f st l s = .error x) : x.state.memOk = true := by
  unfold pushOk at h
  grind (splits := 30) [trapR, onCur_mem, onTile_mem, onHost_mem, onCore_mem, onHome_mem, free_mem, memOk_mk, memOk_home, memOk_tcm, memOk_saved, Stop.state]

theorem roomS_err (f : Fld) {s : State} {x : Stop} (hs_s : s.memOk = true) (h : roomS f s = .error x) : x.state.memOk = true := by
  unfold roomS at h
  grind (splits := 30) [→ outStream_err, → pushOk_err, regWait, notReady, trapR, notReady, onCur_mem, onTile_mem, onHost_mem, onCore_mem, onHome_mem, free_mem, memOk_mk, memOk_home, memOk_tcm, memOk_saved, Stop.state]

theorem writeS_mem (f : Fld) (v_x : Word) {s : State} (hs_s : s.memOk = true) : (writeS f v_x s).memOk = true := by
  unfold writeS
  grind (splits := 30) [State_ww_mem, pushElem_mem, onCur_mem, onTile_mem, onHost_mem, onCore_mem, onHome_mem, free_mem, memOk_mk, memOk_home, memOk_tcm, memOk_saved, Stop.state]

theorem popStrip_mem (f : Fld) {s : State} {y0} {t : State} (hs_s : s.memOk = true) (h : popStrip f s = .ok (y0, t)) : t.memOk = true := by
  unfold popStrip at h
  grind (splits := 30) [→ elemVal_err, → inStream_err, notReady, onCur_mem, onTile_mem, onHost_mem, onCore_mem, onHome_mem, free_mem, memOk_mk, memOk_home, memOk_tcm, memOk_saved, Stop.state]

theorem popStrip_err (f : Fld) {s : State} {x : Stop} (hs_s : s.memOk = true) (h : popStrip f s = .error x) : x.state.memOk = true := by
  unfold popStrip at h
  have hm : ∀ a x, elemVal f a s = .error x → x.state.memOk = true := fun _ _ h => elemVal_err _ _ hs_s h
  grind (splits := 30) [→ inStream_err, → mapM_err hm, notReady, onCur_mem, onTile_mem, onHost_mem, onCore_mem, onHome_mem, free_mem, memOk_mk, memOk_home, memOk_tcm, memOk_saved, Stop.state]

theorem popTag_mem (f : Fld) {s : State} {y0} {t : State} (hs_s : s.memOk = true) (h : popTag f s = .ok (y0, t)) : t.memOk = true := by
  unfold popTag at h
  grind (splits := 30) [popChan_mem, trapR, notReady, onCur_mem, onTile_mem, onHost_mem, onCore_mem, onHome_mem, free_mem, memOk_mk, memOk_home, memOk_tcm, memOk_saved, Stop.state]

theorem popTag_err (f : Fld) {s : State} {x : Stop} (hs_s : s.memOk = true) (h : popTag f s = .error x) : x.state.memOk = true := by
  unfold popTag at h
  grind (splits := 30) [popChan_mem, trapR, notReady, onCur_mem, onTile_mem, onHost_mem, onCore_mem, onHome_mem, free_mem, memOk_mk, memOk_home, memOk_tcm, memOk_saved, Stop.state]

theorem State_setV_mem (f : Fld) (v_x : BitVec 512) {s : State} (hs_s : s.memOk = true) : (State.setV s f v_x).memOk = true := by
  unfold State.setV
  grind (splits := 30) [onCur_mem, onTile_mem, onHost_mem, onCore_mem, onHome_mem, free_mem, memOk_mk, memOk_home, memOk_tcm, memOk_saved, Stop.state]

theorem vPresent_err (f : Fld) {s : State} {x : Stop} (hs_s : s.memOk = true) (h : vPresent f s = .error x) : x.state.memOk = true := by
  unfold vPresent at h
  grind (splits := 30) [onCur_mem, onTile_mem, onHost_mem, onCore_mem, onHome_mem, free_mem, memOk_mk, memOk_home, memOk_tcm, memOk_saved, Stop.state]

theorem readV_mem (f : Fld) {s : State} {y0} {t : State} (hs_s : s.memOk = true) (h : readV f s = .ok (y0, t)) : t.memOk = true := by
  unfold readV at h
  grind (splits := 30) [→ popStrip_mem, → popStrip_err, → popTag_mem, → popTag_err, → vPresent_err, vregWait, notReady, onCur_mem, onTile_mem, onHost_mem, onCore_mem, onHome_mem, free_mem, memOk_mk, memOk_home, memOk_tcm, memOk_saved, Stop.state]

theorem readV_err (f : Fld) {s : State} {x : Stop} (hs_s : s.memOk = true) (h : readV f s = .error x) : x.state.memOk = true := by
  unfold readV at h
  grind (splits := 30) [→ popStrip_mem, → popStrip_err, → popTag_mem, → popTag_err, → vPresent_err, vregWait, notReady, onCur_mem, onTile_mem, onHost_mem, onCore_mem, onHome_mem, free_mem, memOk_mk, memOk_home, memOk_tcm, memOk_saved, Stop.state]

theorem roomV_err (f : Fld) (part : Bool) {s : State} {x : Stop} (hs_s : s.memOk = true) (h : roomV f part s = .error x) : x.state.memOk = true := by
  unfold roomV at h
  have hm : ∀ st j x, pushOk f st j s = .error x → x.state.memOk = true := fun _ _ _ h => pushOk_err _ _ _ hs_s h
  split at h
  · split at h
    · unfold vregWait notReady at h; split at h <;> (cases h; exact hs_s)
    · split at h
      · exact vPresent_err _ hs_s h
      · cases h
  · split at h
    · unfold notReady at h; cases h; exact hs_s
    · split at h
      · rename_i e; cases h; exact outStream_err _ hs_s e
      · dsimp only at h
        split at h
        · rename_i u e
          have k : u.memOk = true := mapM_err (fun _ _ q => hm _ _ _ q) _ e
          split at h
          · unfold notReady at h; cases h; exact k
          · cases h; exact k
        · rename_i e; cases h; exact mapM_err (fun _ _ q => hm _ _ _ q) _ e
        · split at h
          · unfold notReady at h; cases h; exact hs_s
          · cases h

theorem pushStrip_mem (f : Fld) (v_x : BitVec 512) (sz : Nat) (k : Nat) (z0 : Nat) {z1 : State} (hs_z1 : z1.memOk = true) : (pushStrip f v_x sz k z0 z1).memOk = true := by
  induction z0 generalizing f v_x sz k z1 <;> unfold pushStrip <;> grind (splits := 30) [pushElem_mem, onCur_mem, onTile_mem, onHost_mem, onCore_mem, onHome_mem, free_mem, memOk_mk, memOk_home, memOk_tcm, memOk_saved, Stop.state]

theorem writeV_mem (f : Fld) (v_x : BitVec 512) {s : State} (hs_s : s.memOk = true) : (writeV f v_x s).memOk = true := by
  unfold writeV
  grind (splits := 30) [State_setV_mem, pushStrip_mem, onCur_mem, onTile_mem, onHost_mem, onCore_mem, onHome_mem, free_mem, memOk_mk, memOk_home, memOk_tcm, memOk_saved, Stop.state]

theorem readAllS_mem (z0 : List Fld) {z1 : State} {y0} {t : State} (hs_z1 : z1.memOk = true) (h : readAllS z0 z1 = .ok (y0, t)) : t.memOk = true := by
  induction z0 generalizing z1 y0 t <;> unfold readAllS at h <;> grind (splits := 30) [→ readS_mem, → readS_err, onCur_mem, onTile_mem, onHost_mem, onCore_mem, onHome_mem, free_mem, memOk_mk, memOk_home, memOk_tcm, memOk_saved, Stop.state]

theorem readAllS_err (z0 : List Fld) {z1 : State} {x : Stop} (hs_z1 : z1.memOk = true) (h : readAllS z0 z1 = .error x) : x.state.memOk = true := by
  induction z0 generalizing z1 x <;> unfold readAllS at h <;> grind (splits := 30) [→ readS_mem, → readS_err, onCur_mem, onTile_mem, onHost_mem, onCore_mem, onHome_mem, free_mem, memOk_mk, memOk_home, memOk_tcm, memOk_saved, Stop.state]

theorem readAllV_mem (z0 : List Fld) {z1 : State} {y0} {t : State} (hs_z1 : z1.memOk = true) (h : readAllV z0 z1 = .ok (y0, t)) : t.memOk = true := by
  induction z0 generalizing z1 y0 t <;> unfold readAllV at h <;> grind (splits := 30) [→ readV_mem, → readV_err, onCur_mem, onTile_mem, onHost_mem, onCore_mem, onHome_mem, free_mem, memOk_mk, memOk_home, memOk_tcm, memOk_saved, Stop.state]

theorem readAllV_err (z0 : List Fld) {z1 : State} {x : Stop} (hs_z1 : z1.memOk = true) (h : readAllV z0 z1 = .error x) : x.state.memOk = true := by
  induction z0 generalizing z1 x <;> unfold readAllV at h <;> grind (splits := 30) [→ readV_mem, → readV_err, onCur_mem, onTile_mem, onHost_mem, onCore_mem, onHome_mem, free_mem, memOk_mk, memOk_home, memOk_tcm, memOk_saved, Stop.state]

theorem roomAllS_err (z0 : List Fld) {z1 : State} {x : Stop} (hs_z1 : z1.memOk = true) (h : roomAllS z0 z1 = .error x) : x.state.memOk = true := by
  induction z0 generalizing z1 x <;> unfold roomAllS at h <;> grind (splits := 30) [→ roomS_err, onCur_mem, onTile_mem, onHost_mem, onCore_mem, onHome_mem, free_mem, memOk_mk, memOk_home, memOk_tcm, memOk_saved, Stop.state]

theorem takeS_mem (srcs : List Fld) (dsts : List Fld) {s : State} {y0} {t : State} (hs_s : s.memOk = true) (h : takeS srcs dsts s = .ok (y0, t)) : t.memOk = true := by
  unfold takeS at h
  grind (splits := 30) [→ readAllS_mem, → readAllS_err, → roomAllS_err, at_mem, onCur_mem, onTile_mem, onHost_mem, onCore_mem, onHome_mem, free_mem, memOk_mk, memOk_home, memOk_tcm, memOk_saved, Stop.state]

theorem takeS_err (srcs : List Fld) (dsts : List Fld) {s : State} {x : Stop} (hs_s : s.memOk = true) (h : takeS srcs dsts s = .error x) : x.state.memOk = true := by
  unfold takeS at h
  grind (splits := 30) [→ readAllS_mem, → readAllS_err, → roomAllS_err, at_mem, onCur_mem, onTile_mem, onHost_mem, onCore_mem, onHome_mem, free_mem, memOk_mk, memOk_home, memOk_tcm, memOk_saved, Stop.state]

theorem takeV_mem (vsrcs : List Fld) (srcs : List Fld) (vd : Option (Fld × Bool)) (dsts : List Fld) {s : State} {y0} {y1} {t : State} (hs_s : s.memOk = true) (h : takeV vsrcs srcs vd dsts s = .ok (y0, y1, t)) : t.memOk = true := by
  unfold takeV at h
  grind (splits := 30) [→ readAllS_mem, → readAllS_err, → readAllV_mem, → readAllV_err, → roomAllS_err, → roomV_err, at_mem, onCur_mem, onTile_mem, onHost_mem, onCore_mem, onHome_mem, free_mem, memOk_mk, memOk_home, memOk_tcm, memOk_saved, Stop.state]

theorem takeV_err (vsrcs : List Fld) (srcs : List Fld) (vd : Option (Fld × Bool)) (dsts : List Fld) {s : State} {x : Stop} (hs_s : s.memOk = true) (h : takeV vsrcs srcs vd dsts s = .error x) : x.state.memOk = true := by
  unfold takeV at h
  dsimp only at h
  split at h
  · cases h; exact at_mem _ _ _ _ (readAllV_err _ hs_s ‹_›) hs_s
  · split at h
    · cases h; exact at_mem _ _ _ _ (readAllS_err _ (readAllV_mem _ hs_s ‹_›) ‹_›) hs_s
    · split at h
      · cases h
        rename_i hv
        refine at_mem _ _ _ _ ?_ hs_s
        split at hv
        · cases hv
        · exact roomV_err _ _ hs_s hv
      · split at h
        · cases h; exact at_mem _ _ _ _ (roomAllS_err _ hs_s ‹_›) hs_s
        · cases h

theorem probeStream_mem (f : Fld) {s : State} (hs_s : s.memOk = true) : (probeStream f s).memOk = true := by
  unfold probeStream
  grind (splits := 30) [onCur_mem, onTile_mem, onHost_mem, onCore_mem, onHome_mem, free_mem, memOk_mk, memOk_home, memOk_tcm, memOk_saved, Stop.state]

theorem stripRun_mem {vd : Fld} {run : State → Res State} {s t : State} (hr : ∀ t, run s = .ok t → t.memOk = true)
    (h : stripRun vd run s = .ok t) : t.memOk = true := by
  unfold stripRun at h
  (repeat' split at h) <;> first | cases h | exact hr _ h

theorem stripRun_err {vd : Fld} {run : State → Res State} {s : State} {x : Stop} (hr : ∀ x, run s = .error x → x.state.memOk = true)
    (h : stripRun vd run s = .error x) : x.state.memOk = true := by
  unfold stripRun at h
  split at h
  · rename_i f l s1 e
    have k : s1.memOk = true := hr _ e
    (repeat' split at h) <;> (cases h; exact k)
  · exact hr _ h

end Sys2Proof.Machine
end

