-- ==== Sys2Proof/Laws/KeepTcm.lean ====
section
/-! SUPPORT. The accesses to TCM keep every memory in canonical form. -/

namespace Sys2Proof.Machine

theorem homeRead_err (pa : Nat) (n : Nat) {s : State} {x : Stop} (hs_s : s.memOk = true) (h : homeRead s pa n = .error x) : x.state.memOk = true := by
  unfold homeRead at h
  grind (splits := 30) [State_free_mem, onCur_mem, onTile_mem, onHost_mem, onCore_mem, onHome_mem, free_mem, memOk_mk, memOk_home, memOk_tcm, memOk_saved, Stop.state]

theorem homeWrite_mem (pa : Nat) (bs : List Byte) {s : State} (hs_s : s.memOk = true) : (homeWrite s pa bs).memOk = true := by
  unfold homeWrite
  grind (splits := 30) [homePut_wf, onCur_mem, onTile_mem, onHost_mem, onCore_mem, onHome_mem, free_mem, memOk_mk, memOk_home, memOk_tcm, memOk_saved, Stop.state]

theorem spillRead_mem (ea : Int) (n : Nat) {s : State} {y0} {t : State} (hs_s : s.memOk = true) (h : spillRead s ea n = .ok (y0, t)) : t.memOk = true := by
  unfold spillRead at h
  grind (splits := 30) [chargeAccess_mem, → homeRead_err, → translateAt_mem, → translateAt_err, trapR, onCur_mem, onTile_mem, onHost_mem, onCore_mem, onHome_mem, free_mem, memOk_mk, memOk_home, memOk_tcm, memOk_saved, Stop.state]

theorem spillRead_err (ea : Int) (n : Nat) {s : State} {x : Stop} (hs_s : s.memOk = true) (h : spillRead s ea n = .error x) : x.state.memOk = true := by
  unfold spillRead at h
  grind (splits := 30) [chargeAccess_mem, → homeRead_err, → translateAt_mem, → translateAt_err, trapR, onCur_mem, onTile_mem, onHost_mem, onCore_mem, onHome_mem, free_mem, memOk_mk, memOk_home, memOk_tcm, memOk_saved, Stop.state]

theorem spillWrite_mem (ea : Int) (bs : List Byte) {s : State}  {t : State} (hs_s : s.memOk = true) (h : spillWrite s ea bs = .ok t) : t.memOk = true := by
  unfold spillWrite at h
  grind (splits := 30) [chargeAccess_mem, homeWrite_mem, → translateAt_mem, → translateAt_err, trapR, onCur_mem, onTile_mem, onHost_mem, onCore_mem, onHome_mem, free_mem, memOk_mk, memOk_home, memOk_tcm, memOk_saved, Stop.state]

theorem spillWrite_err (ea : Int) (bs : List Byte) {s : State} {x : Stop} (hs_s : s.memOk = true) (h : spillWrite s ea bs = .error x) : x.state.memOk = true := by
  unfold spillWrite at h
  grind (splits := 30) [chargeAccess_mem, homeWrite_mem, → translateAt_mem, → translateAt_err, trapR, onCur_mem, onTile_mem, onHost_mem, onCore_mem, onHome_mem, free_mem, memOk_mk, memOk_home, memOk_tcm, memOk_saved, Stop.state]

theorem tcmLoad_mem (b : Fld) (ea : Int) (n : Nat) {s : State} {y0} {t : State} (hs_s : s.memOk = true) (h : tcmLoad b ea n s = .ok (y0, t)) : t.memOk = true := by
  unfold tcmLoad at h
  grind (splits := 30) [→ spillRead_mem, → spillRead_err, → tcmRead_err, trapR, onCur_mem, onTile_mem, onHost_mem, onCore_mem, onHome_mem, free_mem, memOk_mk, memOk_home, memOk_tcm, memOk_saved, Stop.state]

theorem tcmLoad_err (b : Fld) (ea : Int) (n : Nat) {s : State} {x : Stop} (hs_s : s.memOk = true) (h : tcmLoad b ea n s = .error x) : x.state.memOk = true := by
  unfold tcmLoad at h
  grind (splits := 30) [→ spillRead_mem, → spillRead_err, → tcmRead_err, trapR, onCur_mem, onTile_mem, onHost_mem, onCore_mem, onHome_mem, free_mem, memOk_mk, memOk_home, memOk_tcm, memOk_saved, Stop.state]

theorem tcmStore_mem (b : Fld) (ea : Int) (bs : List Byte) {s : State}  {t : State} (hs_s : s.memOk = true) (h : tcmStore b ea bs s = .ok t) : t.memOk = true := by
  unfold tcmStore at h
  grind (splits := 30) [→ spillWrite_mem, → spillWrite_err, → tcmWrite_mem, → tcmWrite_err, trapR, onCur_mem, onTile_mem, onHost_mem, onCore_mem, onHome_mem, free_mem, memOk_mk, memOk_home, memOk_tcm, memOk_saved, Stop.state]

theorem tcmStore_err (b : Fld) (ea : Int) (bs : List Byte) {s : State} {x : Stop} (hs_s : s.memOk = true) (h : tcmStore b ea bs s = .error x) : x.state.memOk = true := by
  unfold tcmStore at h
  grind (splits := 30) [→ spillWrite_mem, → spillWrite_err, → tcmWrite_mem, → tcmWrite_err, trapR, onCur_mem, onTile_mem, onHost_mem, onCore_mem, onHome_mem, free_mem, memOk_mk, memOk_home, memOk_tcm, memOk_saved, Stop.state]

theorem loadTcm_mem (ext : Nat → Nat → Word) (a : Fld) (b : Fld) (sz : BitVec 2) (o : BitVec 14) {s : State}  {t : State} (hs_s : s.memOk = true) (h : loadTcm ext a b sz o s = .ok t) : t.memOk = true := by
  unfold loadTcm at h
  grind (splits := 30) [advance_mem, chargeOnce_mem, → takeS_mem, → takeS_err, → tcmLoad_mem, → tcmLoad_err, writeS_mem, onCur_mem, onTile_mem, onHost_mem, onCore_mem, onHome_mem, free_mem, memOk_mk, memOk_home, memOk_tcm, memOk_saved, Stop.state]

theorem loadTcm_err (ext : Nat → Nat → Word) (a : Fld) (b : Fld) (sz : BitVec 2) (o : BitVec 14) {s : State} {x : Stop} (hs_s : s.memOk = true) (h : loadTcm ext a b sz o s = .error x) : x.state.memOk = true := by
  unfold loadTcm at h
  grind (splits := 30) [advance_mem, chargeOnce_mem, → takeS_mem, → takeS_err, → tcmLoad_mem, → tcmLoad_err, writeS_mem, onCur_mem, onTile_mem, onHost_mem, onCore_mem, onHome_mem, free_mem, memOk_mk, memOk_home, memOk_tcm, memOk_saved, Stop.state]

theorem State_untake_mem  {s0 : State} {s : State} (hs_s0 : s0.memOk = true) (hs_s : s.memOk = true) : (State.untake s0 s).memOk = true := by
  unfold State.untake
  grind (splits := 30) [onCur_mem, onTile_mem, onHost_mem, onCore_mem, onHome_mem, free_mem, memOk_mk, memOk_home, memOk_tcm, memOk_saved, Stop.state]

end Sys2Proof.Machine
end

