-- ==== Sys2Proof/Laws/KeepLog.lean ====
section
/-! SUPPORT. What a paired task records, the store log and its segments keep every memory in canonical form. -/

namespace Sys2Proof.Machine

theorem pairRelease_mem (what : PairWhat) (tid : Word) (origin : BitVec 13) (bs : List Byte) {s : State} (hs_s : s.memOk = true) : (pairRelease what tid origin bs s).memOk = true := by
  unfold pairRelease
  grind (splits := 30) [onCur_mem, onTile_mem, onHost_mem, onCore_mem, onHome_mem, free_mem, memOk_mk, memOk_home, memOk_tcm, memOk_saved, Stop.state]

theorem pairCur_mem (what : PairWhat) (bs : List Byte) {s : State} (hs_s : s.memOk = true) : (pairCur what bs s).memOk = true := by
  unfold pairCur
  grind (splits := 30) [pairRelease_mem, onCur_mem, onTile_mem, onHost_mem, onCore_mem, onHome_mem, free_mem, memOk_mk, memOk_home, memOk_tcm, memOk_saved, Stop.state]

theorem acted_mem (what : PairWhat) {s : State} (hs_s : s.memOk = true) : (acted what s).memOk = true := by
  unfold acted
  grind (splits := 30) [onCur_mem, onTile_mem, onHost_mem, onCore_mem, onHome_mem, free_mem, memOk_mk, memOk_home, memOk_tcm, memOk_saved, Stop.state]

theorem pairAll_mem (tid : Word) (origin : BitVec 13) (l : List (PairWhat × List Byte)) {s : State} (hs_s : s.memOk = true) : (pairAll tid origin l s).memOk = true := by
  unfold pairAll
  exact foldl_mem _ _ (fun _ _ h => pairRelease_mem _ _ _ _ h) hs_s

theorem putInPlace_mem (va : Nat) (pa : Nat) (bs : List Byte) {s : State}  {t : State} (hs_s : s.memOk = true) (h : putInPlace va pa bs s = .ok t) : t.memOk = true := by
  unfold putInPlace at h
  grind (splits := 30) [homeWrite_mem, → translateAt_mem, → translateAt_err, onCur_mem, onTile_mem, onHost_mem, onCore_mem, onHome_mem, free_mem, memOk_mk, memOk_home, memOk_tcm, memOk_saved, Stop.state]

theorem putInPlace_err (va : Nat) (pa : Nat) (bs : List Byte) {s : State} {x : Stop} (hs_s : s.memOk = true) (h : putInPlace va pa bs s = .error x) : x.state.memOk = true := by
  unfold putInPlace at h
  grind (splits := 30) [homeWrite_mem, → translateAt_mem, → translateAt_err, onCur_mem, onTile_mem, onHost_mem, onCore_mem, onHome_mem, free_mem, memOk_mk, memOk_home, memOk_tcm, memOk_saved, Stop.state]

theorem pushRec_mem (r : Rec) (scope : BitVec 3) {s : State} (hs_s : s.memOk = true) : (pushRec r scope s).memOk = true := by
  unfold pushRec
  grind (splits := 30) [onCur_mem, onTile_mem, onHost_mem, onCore_mem, onHome_mem, free_mem, memOk_mk, memOk_home, memOk_tcm, memOk_saved, Stop.state]

theorem appendOvf_mem (va : Nat) (r : Rec) (scope : BitVec 3) {s : State}  {t : State} (hs_s : s.memOk = true) (h : appendOvf va r scope s = .ok t) : t.memOk = true := by
  unfold appendOvf at h
  dsimp only at h
  cases e : ovfTakes s (recSize r.data.length) with
  | false => rw [e, if_neg (by simp)] at h; unfold trapR at h; injection h
  | true =>
    rw [e, if_pos rfl] at h
    split at h
    · injection h
    · split at h
      · injection h
      · rename_i e1 _ _ e2
        injection h with h
        rw [← h]
        have k := putInPlace_mem _ _ _ (translateAt_mem _ _ _ hs_s e1) e2
        exact pushRec_mem _ _ (memOk_of (memOk_home k) (memOk_tcm k) (memOk_saved k))

theorem appendOvf_err (va : Nat) (r : Rec) (scope : BitVec 3) {s : State} {x : Stop} (hs_s : s.memOk = true) (h : appendOvf va r scope s = .error x) : x.state.memOk = true := by
  unfold appendOvf at h
  dsimp only at h
  cases e : ovfTakes s (recSize r.data.length) with
  | false => rw [e, if_neg (by simp)] at h; unfold trapR at h; injection h with h; rw [← h]; exact hs_s
  | true =>
    rw [e, if_pos rfl] at h
    split at h
    · rename_i e1; injection h with h; rw [← h]; exact translateAt_err _ _ _ hs_s e1
    · split at h
      · rename_i e1 _ _ e2; injection h with h; rw [← h]; exact putInPlace_err _ _ _ (translateAt_mem _ _ _ hs_s e1) e2
      · injection h

theorem appendAt_mem (va : Nat) (pa : Nat) (idx : Nat) (data : List Byte) (scope : BitVec 3) {s : State}  {t : State} (hs_s : s.memOk = true) (h : appendAt va pa idx data scope s = .ok t) : t.memOk = true := by
  unfold appendAt at h
  grind (splits := 30) [→ appendOvf_mem, → appendOvf_err, pushRec_mem, onCur_mem, onTile_mem, onHost_mem, onCore_mem, onHome_mem, free_mem, memOk_mk, memOk_home, memOk_tcm, memOk_saved, Stop.state]

theorem appendAt_err (va : Nat) (pa : Nat) (idx : Nat) (data : List Byte) (scope : BitVec 3) {s : State} {x : Stop} (hs_s : s.memOk = true) (h : appendAt va pa idx data scope s = .error x) : x.state.memOk = true := by
  unfold appendAt at h
  grind (splits := 30) [→ appendOvf_mem, → appendOvf_err, pushRec_mem, onCur_mem, onTile_mem, onHost_mem, onCore_mem, onHome_mem, free_mem, memOk_mk, memOk_home, memOk_tcm, memOk_saved, Stop.state]

theorem appendRec_mem (va : Nat) (pa : Nat) (data : List Byte) (scope : BitVec 3) {s : State}  {t : State} (hs_s : s.memOk = true) (h : appendRec va pa data scope s = .ok t) : t.memOk = true := by
  unfold appendRec at h
  grind (splits := 30) [→ appendAt_mem, → appendAt_err, onCur_mem, onTile_mem, onHost_mem, onCore_mem, onHome_mem, free_mem, memOk_mk, memOk_home, memOk_tcm, memOk_saved, Stop.state]

theorem appendRec_err (va : Nat) (pa : Nat) (data : List Byte) (scope : BitVec 3) {s : State} {x : Stop} (hs_s : s.memOk = true) (h : appendRec va pa data scope s = .error x) : x.state.memOk = true := by
  unfold appendRec at h
  grind (splits := 30) [→ appendAt_mem, → appendAt_err, onCur_mem, onTile_mem, onHost_mem, onCore_mem, onHome_mem, free_mem, memOk_mk, memOk_home, memOk_tcm, memOk_saved, Stop.state]

theorem placeMark_mem  {s : State} (hs_s : s.memOk = true) : (placeMark s).memOk = true := by
  unfold placeMark
  grind (splits := 30) [onCur_mem, onTile_mem, onHost_mem, onCore_mem, onHome_mem, free_mem, memOk_mk, memOk_home, memOk_tcm, memOk_saved, Stop.state]

theorem pushHeld_mem  {s : State} (hs_s : s.memOk = true) : (pushHeld s).memOk = true := by
  unfold pushHeld
  grind (splits := 30) [pairAll_mem, onCur_mem, onTile_mem, onHost_mem, onCore_mem, onHome_mem, free_mem, memOk_mk, memOk_home, memOk_tcm, memOk_saved, Stop.state]

theorem releaseHeld_mem  {s : State} (hs_s : s.memOk = true) : (releaseHeld s).memOk = true := by
  unfold releaseHeld
  (repeat' split) <;> grind (splits := 30) [placeMark_mem, pushHeld_mem, → mapError_ok, → mapError_err, onCur_mem, onTile_mem, onHost_mem, onCore_mem, onHome_mem, free_mem, memOk_mk, memOk_home, memOk_tcm, memOk_saved, Stop.state]

theorem nextSeg_mem  {s : State} (hs_s : s.memOk = true) : (nextSeg s).2.memOk = true := by
  unfold nextSeg
  grind (splits := 30) [errEntry_mem, onCur_mem, onTile_mem, onHost_mem, onCore_mem, onHome_mem, free_mem, memOk_mk, memOk_home, memOk_tcm, memOk_saved, Stop.state]

theorem pairParts_mem (g : Sealed) {s : State} (hs_s : s.memOk = true) : (pairParts g s).memOk = true := by
  unfold pairParts
  grind (splits := 30) [pairAll_mem, onCur_mem, onTile_mem, onHost_mem, onCore_mem, onHome_mem, free_mem, memOk_mk, memOk_home, memOk_tcm, memOk_saved, Stop.state]

theorem sealNow_mem (scope : BitVec 3) {s : State} (hs_s : s.memOk = true) : (sealNow scope s).memOk = true := by
  unfold sealNow
  grind (splits := 30) [nextSeg_mem, pairParts_mem, placeMark_mem, onCur_mem, onTile_mem, onHost_mem, onCore_mem, onHome_mem, free_mem, memOk_mk, memOk_home, memOk_tcm, memOk_saved, Stop.state]

theorem sealReady_err  {s : State} {x : Stop} (hs_s : s.memOk = true) (h : sealReady s = .error x) : x.state.memOk = true := by
  unfold sealReady at h
  grind (splits := 30) [trapR, onCur_mem, onTile_mem, onHost_mem, onCore_mem, onHome_mem, free_mem, memOk_mk, memOk_home, memOk_tcm, memOk_saved, Stop.state]

theorem sealRelease_mem (scope : BitVec 3) {s : State}  {t : State} (hs_s : s.memOk = true) (h : sealRelease scope s = .ok t) : t.memOk = true := by
  unfold sealRelease at h
  grind (splits := 30) [releaseHeld_mem, sealNow_mem, → sealReady_err, onCur_mem, onTile_mem, onHost_mem, onCore_mem, onHome_mem, free_mem, memOk_mk, memOk_home, memOk_tcm, memOk_saved, Stop.state]

theorem sealRelease_err (scope : BitVec 3) {s : State} {x : Stop} (hs_s : s.memOk = true) (h : sealRelease scope s = .error x) : x.state.memOk = true := by
  unfold sealRelease at h
  grind (splits := 30) [releaseHeld_mem, sealNow_mem, → sealReady_err, onCur_mem, onTile_mem, onHost_mem, onCore_mem, onHome_mem, free_mem, memOk_mk, memOk_home, memOk_tcm, memOk_saved, Stop.state]

theorem escapeCur_mem  {s : State} (hs_s : s.memOk = true) : (escapeCur s).memOk = true := by
  unfold escapeCur
  grind (splits := 30) [releaseHeld_mem, onCur_mem, onTile_mem, onHost_mem, onCore_mem, onHome_mem, free_mem, memOk_mk, memOk_home, memOk_tcm, memOk_saved, Stop.state]

theorem bump_mem  {s : State} (hs_s : s.memOk = true) : (bump s).memOk = true := by
  unfold bump
  grind (splits := 30) [onCur_mem, onTile_mem, onHost_mem, onCore_mem, onHome_mem, free_mem, memOk_mk, memOk_home, memOk_tcm, memOk_saved, Stop.state]

theorem sendMigration_mem (dest : BitVec 13) (pc : BitVec 56) {s : State} (hs_s : s.memOk = true) : (sendMigration dest pc s).memOk = true := by
  unfold sendMigration
  (repeat' split) <;> grind (splits := 30) [flushWs_mem, reportFails_mem, freeChunk_tcm, freeChunk?_tcm, → mapError_ok, → mapError_err, onCur_mem, onTile_mem, onHost_mem, onCore_mem, onHome_mem, free_mem, memOk_mk, memOk_home, memOk_tcm, memOk_saved, Stop.state]

theorem leave_mem (n : Nat) (d : BitVec 13) (pc : BitVec 56) {s : State}  {t : State} (hs_s : s.memOk = true) (h : leave n d pc s = .ok t) : t.memOk = true := by
  unfold leave at h
  grind (splits := 30) [acted_mem, pairCur_mem, sendMigration_mem, onCur_mem, onTile_mem, onHost_mem, onCore_mem, onHome_mem, free_mem, memOk_mk, memOk_home, memOk_tcm, memOk_saved, Stop.state]

theorem leave_err (n : Nat) (d : BitVec 13) (pc : BitVec 56) {s : State} {x : Stop} (hs_s : s.memOk = true) (h : leave n d pc s = .error x) : x.state.memOk = true := by
  unfold leave at h
  grind (splits := 30) [acted_mem, pairCur_mem, sendMigration_mem, onCur_mem, onTile_mem, onHost_mem, onCore_mem, onHome_mem, free_mem, memOk_mk, memOk_home, memOk_tcm, memOk_saved, Stop.state]

theorem migrateGo_mem (n : Nat) (dest : Option (BitVec 13)) (pc : BitVec 56) {s : State}  {t : State} (hs_s : s.memOk = true) (h : migrateGo n dest pc s = .ok t) : t.memOk = true := by
  unfold migrateGo at h
  grind (splits := 30) [→ leave_mem, → leave_err, onCur_mem, onTile_mem, onHost_mem, onCore_mem, onHome_mem, free_mem, memOk_mk, memOk_home, memOk_tcm, memOk_saved, Stop.state]

theorem migrateGo_err (n : Nat) (dest : Option (BitVec 13)) (pc : BitVec 56) {s : State} {x : Stop} (hs_s : s.memOk = true) (h : migrateGo n dest pc s = .error x) : x.state.memOk = true := by
  unfold migrateGo at h
  grind (splits := 30) [→ leave_mem, → leave_err, onCur_mem, onTile_mem, onHost_mem, onCore_mem, onHome_mem, free_mem, memOk_mk, memOk_home, memOk_tcm, memOk_saved, Stop.state]

theorem migrateTo_mem (dest : Option (BitVec 13)) (pc : BitVec 56) {s : State}  {t : State} (hs_s : s.memOk = true) (h : migrateTo dest pc s = .ok t) : t.memOk = true := by
  unfold migrateTo at h
  grind (splits := 30) [bump_mem, → leave_mem, → leave_err, → migrateGo_mem, → migrateGo_err, → sealRelease_mem, → sealRelease_err, onCur_mem, onTile_mem, onHost_mem, onCore_mem, onHome_mem, free_mem, memOk_mk, memOk_home, memOk_tcm, memOk_saved, Stop.state]

theorem migrateTo_err (dest : Option (BitVec 13)) (pc : BitVec 56) {s : State} {x : Stop} (hs_s : s.memOk = true) (h : migrateTo dest pc s = .error x) : x.state.memOk = true := by
  unfold migrateTo at h
  grind (splits := 30) [bump_mem, → leave_mem, → leave_err, → migrateGo_mem, → migrateGo_err, → sealRelease_mem, → sealRelease_err, onCur_mem, onTile_mem, onHost_mem, onCore_mem, onHome_mem, free_mem, memOk_mk, memOk_home, memOk_tcm, memOk_saved, Stop.state]

end Sys2Proof.Machine
end

