-- ==== Sys2Proof/Laws/PerInstr.lean ====
section
/-! SUPPORT. The encoding of each instruction: the decoder reads a well-formed instruction back from its word. -/

namespace Sys2Proof.Laws

/-- R85 to R90: a well-formed instruction that has a word is what the decoder reads from its word. -/
def Enc.Statement (i : Instr) : Prop := i.isStep = false → i.wf = true → decode (encode i) = .ok i

theorem Enc.of_raw {i : Instr} (h : decodeRaw (encode i) = .ok i) : Enc.Statement i := by
  intro _ w
  unfold decode
  rw [h]
  simp [w]

theorem Enc.add (a b c : Fld) : Enc.Statement (.add a b c) := by
  apply Enc.of_raw
  show decodeRaw (fmtR 0x01 a b c 0x00 0) = _
  rw [op_01 (opc_fmtR ..)]
  unfold rawAlu
  simp only [at_fmtR_5_6, at_fmtR_0_5, fA_fmtR, fB_fmtR, fC_fmtR]
  try simp only [fl4_0, fl4_1, fl4_2, fl4_3, fl3_0, optO_0, optO_1, optO_2, optO_3, cat0, cat1, shift_k, top4]
  try rfl

theorem Enc.sub (a b c : Fld) : Enc.Statement (.sub a b c) := by
  apply Enc.of_raw
  show decodeRaw (fmtR 0x01 a b c 0x01 0) = _
  rw [op_01 (opc_fmtR ..)]
  unfold rawAlu
  simp only [at_fmtR_5_6, at_fmtR_0_5, fA_fmtR, fB_fmtR, fC_fmtR]
  try simp only [fl4_0, fl4_1, fl4_2, fl4_3, fl3_0, optO_0, optO_1, optO_2, optO_3, cat0, cat1, shift_k, top4]
  try rfl

theorem Enc.and (a b c : Fld) : Enc.Statement (.and a b c) := by
  apply Enc.of_raw
  show decodeRaw (fmtR 0x01 a b c 0x02 0) = _
  rw [op_01 (opc_fmtR ..)]
  unfold rawAlu
  simp only [at_fmtR_5_6, at_fmtR_0_5, fA_fmtR, fB_fmtR, fC_fmtR]
  try simp only [fl4_0, fl4_1, fl4_2, fl4_3, fl3_0, optO_0, optO_1, optO_2, optO_3, cat0, cat1, shift_k, top4]
  try rfl

theorem Enc.or (a b c : Fld) : Enc.Statement (.or a b c) := by
  apply Enc.of_raw
  show decodeRaw (fmtR 0x01 a b c 0x03 0) = _
  rw [op_01 (opc_fmtR ..)]
  unfold rawAlu
  simp only [at_fmtR_5_6, at_fmtR_0_5, fA_fmtR, fB_fmtR, fC_fmtR]
  try simp only [fl4_0, fl4_1, fl4_2, fl4_3, fl3_0, optO_0, optO_1, optO_2, optO_3, cat0, cat1, shift_k, top4]
  try rfl

theorem Enc.xor (a b c : Fld) : Enc.Statement (.xor a b c) := by
  apply Enc.of_raw
  show decodeRaw (fmtR 0x01 a b c 0x04 0) = _
  rw [op_01 (opc_fmtR ..)]
  unfold rawAlu
  simp only [at_fmtR_5_6, at_fmtR_0_5, fA_fmtR, fB_fmtR, fC_fmtR]
  try simp only [fl4_0, fl4_1, fl4_2, fl4_3, fl3_0, optO_0, optO_1, optO_2, optO_3, cat0, cat1, shift_k, top4]
  try rfl

theorem Enc.andn (a b c : Fld) : Enc.Statement (.andn a b c) := by
  apply Enc.of_raw
  show decodeRaw (fmtR 0x01 a b c 0x05 0) = _
  rw [op_01 (opc_fmtR ..)]
  unfold rawAlu
  simp only [at_fmtR_5_6, at_fmtR_0_5, fA_fmtR, fB_fmtR, fC_fmtR]
  try simp only [fl4_0, fl4_1, fl4_2, fl4_3, fl3_0, optO_0, optO_1, optO_2, optO_3, cat0, cat1, shift_k, top4]
  try rfl

theorem Enc.sll (a b c : Fld) : Enc.Statement (.sll a b c) := by
  apply Enc.of_raw
  show decodeRaw (fmtR 0x01 a b c 0x06 0) = _
  rw [op_01 (opc_fmtR ..)]
  unfold rawAlu
  simp only [at_fmtR_5_6, at_fmtR_0_5, fA_fmtR, fB_fmtR, fC_fmtR]
  try simp only [fl4_0, fl4_1, fl4_2, fl4_3, fl3_0, optO_0, optO_1, optO_2, optO_3, cat0, cat1, shift_k, top4]
  try rfl

theorem Enc.srl (a b c : Fld) : Enc.Statement (.srl a b c) := by
  apply Enc.of_raw
  show decodeRaw (fmtR 0x01 a b c 0x07 0) = _
  rw [op_01 (opc_fmtR ..)]
  unfold rawAlu
  simp only [at_fmtR_5_6, at_fmtR_0_5, fA_fmtR, fB_fmtR, fC_fmtR]
  try simp only [fl4_0, fl4_1, fl4_2, fl4_3, fl3_0, optO_0, optO_1, optO_2, optO_3, cat0, cat1, shift_k, top4]
  try rfl

theorem Enc.sra (a b c : Fld) : Enc.Statement (.sra a b c) := by
  apply Enc.of_raw
  show decodeRaw (fmtR 0x01 a b c 0x08 0) = _
  rw [op_01 (opc_fmtR ..)]
  unfold rawAlu
  simp only [at_fmtR_5_6, at_fmtR_0_5, fA_fmtR, fB_fmtR, fC_fmtR]
  try simp only [fl4_0, fl4_1, fl4_2, fl4_3, fl3_0, optO_0, optO_1, optO_2, optO_3, cat0, cat1, shift_k, top4]
  try rfl

theorem Enc.rol (a b c : Fld) : Enc.Statement (.rol a b c) := by
  apply Enc.of_raw
  show decodeRaw (fmtR 0x01 a b c 0x09 0) = _
  rw [op_01 (opc_fmtR ..)]
  unfold rawAlu
  simp only [at_fmtR_5_6, at_fmtR_0_5, fA_fmtR, fB_fmtR, fC_fmtR]
  try simp only [fl4_0, fl4_1, fl4_2, fl4_3, fl3_0, optO_0, optO_1, optO_2, optO_3, cat0, cat1, shift_k, top4]
  try rfl

theorem Enc.ror (a b c : Fld) : Enc.Statement (.ror a b c) := by
  apply Enc.of_raw
  show decodeRaw (fmtR 0x01 a b c 0x0A 0) = _
  rw [op_01 (opc_fmtR ..)]
  unfold rawAlu
  simp only [at_fmtR_5_6, at_fmtR_0_5, fA_fmtR, fB_fmtR, fC_fmtR]
  try simp only [fl4_0, fl4_1, fl4_2, fl4_3, fl3_0, optO_0, optO_1, optO_2, optO_3, cat0, cat1, shift_k, top4]
  try rfl

theorem Enc.slt (a b c : Fld) : Enc.Statement (.slt a b c) := by
  apply Enc.of_raw
  show decodeRaw (fmtR 0x01 a b c 0x0B 0) = _
  rw [op_01 (opc_fmtR ..)]
  unfold rawAlu
  simp only [at_fmtR_5_6, at_fmtR_0_5, fA_fmtR, fB_fmtR, fC_fmtR]
  try simp only [fl4_0, fl4_1, fl4_2, fl4_3, fl3_0, optO_0, optO_1, optO_2, optO_3, cat0, cat1, shift_k, top4]
  try rfl

theorem Enc.sltn (a b c : Fld) : Enc.Statement (.sltn a b c) := by
  apply Enc.of_raw
  show decodeRaw (fmtR 0x01 a b c 0x0C 0) = _
  rw [op_01 (opc_fmtR ..)]
  unfold rawAlu
  simp only [at_fmtR_5_6, at_fmtR_0_5, fA_fmtR, fB_fmtR, fC_fmtR]
  try simp only [fl4_0, fl4_1, fl4_2, fl4_3, fl3_0, optO_0, optO_1, optO_2, optO_3, cat0, cat1, shift_k, top4]
  try rfl

theorem Enc.min (a b c : Fld) : Enc.Statement (.min a b c) := by
  apply Enc.of_raw
  show decodeRaw (fmtR 0x01 a b c 0x0D 0) = _
  rw [op_01 (opc_fmtR ..)]
  unfold rawAlu
  simp only [at_fmtR_5_6, at_fmtR_0_5, fA_fmtR, fB_fmtR, fC_fmtR]
  try simp only [fl4_0, fl4_1, fl4_2, fl4_3, fl3_0, optO_0, optO_1, optO_2, optO_3, cat0, cat1, shift_k, top4]
  try rfl

theorem Enc.max (a b c : Fld) : Enc.Statement (.max a b c) := by
  apply Enc.of_raw
  show decodeRaw (fmtR 0x01 a b c 0x0E 0) = _
  rw [op_01 (opc_fmtR ..)]
  unfold rawAlu
  simp only [at_fmtR_5_6, at_fmtR_0_5, fA_fmtR, fB_fmtR, fC_fmtR]
  try simp only [fl4_0, fl4_1, fl4_2, fl4_3, fl3_0, optO_0, optO_1, optO_2, optO_3, cat0, cat1, shift_k, top4]
  try rfl

theorem Enc.minn (a b c : Fld) : Enc.Statement (.minn a b c) := by
  apply Enc.of_raw
  show decodeRaw (fmtR 0x01 a b c 0x0F 0) = _
  rw [op_01 (opc_fmtR ..)]
  unfold rawAlu
  simp only [at_fmtR_5_6, at_fmtR_0_5, fA_fmtR, fB_fmtR, fC_fmtR]
  try simp only [fl4_0, fl4_1, fl4_2, fl4_3, fl3_0, optO_0, optO_1, optO_2, optO_3, cat0, cat1, shift_k, top4]
  try rfl

theorem Enc.maxn (a b c : Fld) : Enc.Statement (.maxn a b c) := by
  apply Enc.of_raw
  show decodeRaw (fmtR 0x01 a b c 0x10 0) = _
  rw [op_01 (opc_fmtR ..)]
  unfold rawAlu
  simp only [at_fmtR_5_6, at_fmtR_0_5, fA_fmtR, fB_fmtR, fC_fmtR]
  try simp only [fl4_0, fl4_1, fl4_2, fl4_3, fl3_0, optO_0, optO_1, optO_2, optO_3, cat0, cat1, shift_k, top4]
  try rfl

theorem Enc.clz (a b : Fld) : Enc.Statement (.clz a b) := by
  apply Enc.of_raw
  show decodeRaw (fmtR 0x01 a b 0 0x11 0) = _
  rw [op_01 (opc_fmtR ..)]
  unfold rawAlu
  simp only [at_fmtR_5_6, at_fmtR_0_5, fA_fmtR, fB_fmtR, fC_fmtR]
  try simp only [fl4_0, fl4_1, fl4_2, fl4_3, fl3_0, optO_0, optO_1, optO_2, optO_3, cat0, cat1, shift_k, top4]
  try rfl

theorem Enc.ctz (a b : Fld) : Enc.Statement (.ctz a b) := by
  apply Enc.of_raw
  show decodeRaw (fmtR 0x01 a b 0 0x12 0) = _
  rw [op_01 (opc_fmtR ..)]
  unfold rawAlu
  simp only [at_fmtR_5_6, at_fmtR_0_5, fA_fmtR, fB_fmtR, fC_fmtR]
  try simp only [fl4_0, fl4_1, fl4_2, fl4_3, fl3_0, optO_0, optO_1, optO_2, optO_3, cat0, cat1, shift_k, top4]
  try rfl

theorem Enc.popc (a b : Fld) : Enc.Statement (.popc a b) := by
  apply Enc.of_raw
  show decodeRaw (fmtR 0x01 a b 0 0x13 0) = _
  rw [op_01 (opc_fmtR ..)]
  unfold rawAlu
  simp only [at_fmtR_5_6, at_fmtR_0_5, fA_fmtR, fB_fmtR, fC_fmtR]
  try simp only [fl4_0, fl4_1, fl4_2, fl4_3, fl3_0, optO_0, optO_1, optO_2, optO_3, cat0, cat1, shift_k, top4]
  try rfl

theorem Enc.bswap (a b : Fld) : Enc.Statement (.bswap a b) := by
  apply Enc.of_raw
  show decodeRaw (fmtR 0x01 a b 0 0x14 0) = _
  rw [op_01 (opc_fmtR ..)]
  unfold rawAlu
  simp only [at_fmtR_5_6, at_fmtR_0_5, fA_fmtR, fB_fmtR, fC_fmtR]
  try simp only [fl4_0, fl4_1, fl4_2, fl4_3, fl3_0, optO_0, optO_1, optO_2, optO_3, cat0, cat1, shift_k, top4]
  try rfl

theorem Enc.sel (a b c m : Fld) : Enc.Statement (.sel a b c m) := by
  apply Enc.of_raw
  show decodeRaw (fmtR 0x01 a b c 0x15 m) = _
  rw [op_01 (opc_fmtR ..)]
  unfold rawAlu
  simp only [at_fmtR_5_6, at_fmtR_0_5, fA_fmtR, fB_fmtR, fC_fmtR]
  try simp only [fl4_0, fl4_1, fl4_2, fl4_3, fl3_0, optO_0, optO_1, optO_2, optO_3, cat0, cat1, shift_k, top4]
  try rfl

theorem Enc.mul (a b c : Fld) : Enc.Statement (.mul a b c) := by
  apply Enc.of_raw
  show decodeRaw (fmtR 0x02 a b c 0x00 0) = _
  rw [op_02 (opc_fmtR ..)]
  unfold rawMul
  simp only [at_fmtR_5_6, fA_fmtR, fB_fmtR, fC_fmtR]
  try simp only [fl4_0, fl4_1, fl4_2, fl4_3, fl3_0, optO_0, optO_1, optO_2, optO_3, cat0, cat1, shift_k, top4]
  try rfl

theorem Enc.mulh (a b c : Fld) : Enc.Statement (.mulh a b c) := by
  apply Enc.of_raw
  show decodeRaw (fmtR 0x02 a b c 0x01 0) = _
  rw [op_02 (opc_fmtR ..)]
  unfold rawMul
  simp only [at_fmtR_5_6, fA_fmtR, fB_fmtR, fC_fmtR]
  try simp only [fl4_0, fl4_1, fl4_2, fl4_3, fl3_0, optO_0, optO_1, optO_2, optO_3, cat0, cat1, shift_k, top4]
  try rfl

theorem Enc.mulhn (a b c : Fld) : Enc.Statement (.mulhn a b c) := by
  apply Enc.of_raw
  show decodeRaw (fmtR 0x02 a b c 0x02 0) = _
  rw [op_02 (opc_fmtR ..)]
  unfold rawMul
  simp only [at_fmtR_5_6, fA_fmtR, fB_fmtR, fC_fmtR]
  try simp only [fl4_0, fl4_1, fl4_2, fl4_3, fl3_0, optO_0, optO_1, optO_2, optO_3, cat0, cat1, shift_k, top4]
  try rfl

theorem Enc.div (a b c : Fld) : Enc.Statement (.div a b c) := by
  apply Enc.of_raw
  show decodeRaw (fmtR 0x02 a b c 0x03 0) = _
  rw [op_02 (opc_fmtR ..)]
  unfold rawMul
  simp only [at_fmtR_5_6, fA_fmtR, fB_fmtR, fC_fmtR]
  try simp only [fl4_0, fl4_1, fl4_2, fl4_3, fl3_0, optO_0, optO_1, optO_2, optO_3, cat0, cat1, shift_k, top4]
  try rfl

theorem Enc.divn (a b c : Fld) : Enc.Statement (.divn a b c) := by
  apply Enc.of_raw
  show decodeRaw (fmtR 0x02 a b c 0x04 0) = _
  rw [op_02 (opc_fmtR ..)]
  unfold rawMul
  simp only [at_fmtR_5_6, fA_fmtR, fB_fmtR, fC_fmtR]
  try simp only [fl4_0, fl4_1, fl4_2, fl4_3, fl3_0, optO_0, optO_1, optO_2, optO_3, cat0, cat1, shift_k, top4]
  try rfl

theorem Enc.rem (a b c : Fld) : Enc.Statement (.rem a b c) := by
  apply Enc.of_raw
  show decodeRaw (fmtR 0x02 a b c 0x05 0) = _
  rw [op_02 (opc_fmtR ..)]
  unfold rawMul
  simp only [at_fmtR_5_6, fA_fmtR, fB_fmtR, fC_fmtR]
  try simp only [fl4_0, fl4_1, fl4_2, fl4_3, fl3_0, optO_0, optO_1, optO_2, optO_3, cat0, cat1, shift_k, top4]
  try rfl

theorem Enc.remn (a b c : Fld) : Enc.Statement (.remn a b c) := by
  apply Enc.of_raw
  show decodeRaw (fmtR 0x02 a b c 0x06 0) = _
  rw [op_02 (opc_fmtR ..)]
  unfold rawMul
  simp only [at_fmtR_5_6, fA_fmtR, fB_fmtR, fC_fmtR]
  try simp only [fl4_0, fl4_1, fl4_2, fl4_3, fl3_0, optO_0, optO_1, optO_2, optO_3, cat0, cat1, shift_k, top4]
  try rfl

theorem Enc.clmul (a b c : Fld) : Enc.Statement (.clmul a b c) := by
  apply Enc.of_raw
  show decodeRaw (fmtR 0x02 a b c 0x07 0) = _
  rw [op_02 (opc_fmtR ..)]
  unfold rawMul
  simp only [at_fmtR_5_6, fA_fmtR, fB_fmtR, fC_fmtR]
  try simp only [fl4_0, fl4_1, fl4_2, fl4_3, fl3_0, optO_0, optO_1, optO_2, optO_3, cat0, cat1, shift_k, top4]
  try rfl

theorem Enc.clmulh (a b c : Fld) : Enc.Statement (.clmulh a b c) := by
  apply Enc.of_raw
  show decodeRaw (fmtR 0x02 a b c 0x08 0) = _
  rw [op_02 (opc_fmtR ..)]
  unfold rawMul
  simp only [at_fmtR_5_6, fA_fmtR, fB_fmtR, fC_fmtR]
  try simp only [fl4_0, fl4_1, fl4_2, fl4_3, fl3_0, optO_0, optO_1, optO_2, optO_3, cat0, cat1, shift_k, top4]
  try rfl

theorem Enc.addi (a b : Fld) (i : BitVec 16) : Enc.Statement (.addi a b i) := by
  apply Enc.of_raw
  show decodeRaw (fmtI 0x03 a b i) = _
  rw [op_03 (opc_fmtI ..)]
  simp only [at_fmtI_0_16, fA_fmtI, fB_fmtI]
  try simp only [fl4_0, fl4_1, fl4_2, fl4_3, fl3_0, optO_0, optO_1, optO_2, optO_3, cat0, cat1, shift_k, top4]
  try rfl

theorem Enc.andi (a b : Fld) (i : BitVec 16) : Enc.Statement (.andi a b i) := by
  apply Enc.of_raw
  show decodeRaw (fmtI 0x04 a b i) = _
  rw [op_04 (opc_fmtI ..)]
  simp only [at_fmtI_0_16, fA_fmtI, fB_fmtI]
  try simp only [fl4_0, fl4_1, fl4_2, fl4_3, fl3_0, optO_0, optO_1, optO_2, optO_3, cat0, cat1, shift_k, top4]
  try rfl

theorem Enc.ori (a b : Fld) (i : BitVec 16) : Enc.Statement (.ori a b i) := by
  apply Enc.of_raw
  show decodeRaw (fmtI 0x05 a b i) = _
  rw [op_05 (opc_fmtI ..)]
  simp only [at_fmtI_0_16, fA_fmtI, fB_fmtI]
  try simp only [fl4_0, fl4_1, fl4_2, fl4_3, fl3_0, optO_0, optO_1, optO_2, optO_3, cat0, cat1, shift_k, top4]
  try rfl

theorem Enc.xori (a b : Fld) (i : BitVec 16) : Enc.Statement (.xori a b i) := by
  apply Enc.of_raw
  show decodeRaw (fmtI 0x06 a b i) = _
  rw [op_06 (opc_fmtI ..)]
  simp only [at_fmtI_0_16, fA_fmtI, fB_fmtI]
  try simp only [fl4_0, fl4_1, fl4_2, fl4_3, fl3_0, optO_0, optO_1, optO_2, optO_3, cat0, cat1, shift_k, top4]
  try rfl

theorem Enc.slti (a b : Fld) (i : BitVec 16) : Enc.Statement (.slti a b i) := by
  apply Enc.of_raw
  show decodeRaw (fmtI 0x07 a b i) = _
  rw [op_07 (opc_fmtI ..)]
  simp only [at_fmtI_0_16, fA_fmtI, fB_fmtI]
  try simp only [fl4_0, fl4_1, fl4_2, fl4_3, fl3_0, optO_0, optO_1, optO_2, optO_3, cat0, cat1, shift_k, top4]
  try rfl

theorem Enc.sltin (a b : Fld) (i : BitVec 16) : Enc.Statement (.sltin a b i) := by
  apply Enc.of_raw
  show decodeRaw (fmtI 0x08 a b i) = _
  rw [op_08 (opc_fmtI ..)]
  simp only [at_fmtI_0_16, fA_fmtI, fB_fmtI]
  try simp only [fl4_0, fl4_1, fl4_2, fl4_3, fl3_0, optO_0, optO_1, optO_2, optO_3, cat0, cat1, shift_k, top4]
  try rfl

theorem Enc.slli (a b : Fld) (n : BitVec 6) : Enc.Statement (.slli a b n) := by
  apply Enc.of_raw
  show decodeRaw (fmtI 0x09 a b (0#8 ++ 0#2 ++ n : BitVec 16)) = _
  rw [op_09 (opc_fmtI ..)]
  unfold rawShift
  simp only [at_fmtI_6_2, at_fmtI_0_6, fA_fmtI, fB_fmtI]
  try simp only [cat0, shift_k]
  try rfl

theorem Enc.srli (a b : Fld) (n : BitVec 6) : Enc.Statement (.srli a b n) := by
  apply Enc.of_raw
  show decodeRaw (fmtI 0x09 a b (0#8 ++ 1#2 ++ n : BitVec 16)) = _
  rw [op_09 (opc_fmtI ..)]
  unfold rawShift
  simp only [at_fmtI_6_2, at_fmtI_0_6, fA_fmtI, fB_fmtI]
  try simp only [cat0, shift_k]
  try rfl

theorem Enc.srai (a b : Fld) (n : BitVec 6) : Enc.Statement (.srai a b n) := by
  apply Enc.of_raw
  show decodeRaw (fmtI 0x09 a b (0#8 ++ 2#2 ++ n : BitVec 16)) = _
  rw [op_09 (opc_fmtI ..)]
  unfold rawShift
  simp only [at_fmtI_6_2, at_fmtI_0_6, fA_fmtI, fB_fmtI]
  try simp only [cat0, shift_k]
  try rfl

theorem Enc.roli (a b : Fld) (n : BitVec 6) : Enc.Statement (.roli a b n) := by
  apply Enc.of_raw
  show decodeRaw (fmtI 0x09 a b (0#8 ++ 3#2 ++ n : BitVec 16)) = _
  rw [op_09 (opc_fmtI ..)]
  unfold rawShift
  simp only [at_fmtI_6_2, at_fmtI_0_6, fA_fmtI, fB_fmtI]
  try simp only [cat0, shift_k]
  try rfl

theorem Enc.lhi (a : Fld) (i : BitVec 21) : Enc.Statement (.lhi a i) := by
  apply Enc.of_raw
  show decodeRaw (fmtU 0x0A a i) = _
  rw [op_0A (opc_fmtU ..)]
  simp only [at_fmtU_0_21, fA_fmtU]
  try simp only [fl4_0, fl4_1, fl4_2, fl4_3, fl3_0, optO_0, optO_1, optO_2, optO_3, cat0, cat1, shift_k, top4]
  try rfl

theorem Enc.pchi (a : Fld) (i : BitVec 21) : Enc.Statement (.pchi a i) := by
  apply Enc.of_raw
  show decodeRaw (fmtU 0x0B a i) = _
  rw [op_0B (opc_fmtU ..)]
  simp only [at_fmtU_0_21, fA_fmtU]
  try simp only [fl4_0, fl4_1, fl4_2, fl4_3, fl3_0, optO_0, optO_1, optO_2, optO_3, cat0, cat1, shift_k, top4]
  try rfl

theorem Enc.jal (o : BitVec 26) : Enc.Statement (.jal o) := by
  apply Enc.of_raw
  show decodeRaw (fmtJ 0x0C o) = _
  rw [op_0C (opc_fmtJ ..)]
  simp only [at_fmtJ_0_26]
  try simp only [fl4_0, fl4_1, fl4_2, fl4_3, fl3_0, optO_0, optO_1, optO_2, optO_3, cat0, cat1, shift_k, top4]
  try rfl

theorem Enc.jalr (a b : Fld) (i : BitVec 14) : Enc.Statement (.jalr a b i) := by
  apply Enc.of_raw
  show decodeRaw (fmtI 0x0D a b (i ++ 0#2 : BitVec 16)) = _
  rw [op_0D (opc_fmtI ..)]
  simp only [at_fmtI_2_14, fA_fmtI, fB_fmtI]
  try simp only [cat1]
  try rfl

theorem Enc.beq (a b : Fld) (o : BitVec 16) : Enc.Statement (.beq a b o) := by
  apply Enc.of_raw
  show decodeRaw (fmtI 0x0E a b o) = _
  rw [op_0E (opc_fmtI ..)]
  simp only [at_fmtI_0_16, fA_fmtI, fB_fmtI]
  try simp only [fl4_0, fl4_1, fl4_2, fl4_3, fl3_0, optO_0, optO_1, optO_2, optO_3, cat0, cat1, shift_k, top4]
  try rfl

theorem Enc.bne (a b : Fld) (o : BitVec 16) : Enc.Statement (.bne a b o) := by
  apply Enc.of_raw
  show decodeRaw (fmtI 0x0F a b o) = _
  rw [op_0F (opc_fmtI ..)]
  simp only [at_fmtI_0_16, fA_fmtI, fB_fmtI]
  try simp only [fl4_0, fl4_1, fl4_2, fl4_3, fl3_0, optO_0, optO_1, optO_2, optO_3, cat0, cat1, shift_k, top4]
  try rfl

theorem Enc.blt (a b : Fld) (o : BitVec 16) : Enc.Statement (.blt a b o) := by
  apply Enc.of_raw
  show decodeRaw (fmtI 0x10 a b o) = _
  rw [op_10 (opc_fmtI ..)]
  simp only [at_fmtI_0_16, fA_fmtI, fB_fmtI]
  try simp only [fl4_0, fl4_1, fl4_2, fl4_3, fl3_0, optO_0, optO_1, optO_2, optO_3, cat0, cat1, shift_k, top4]
  try rfl

theorem Enc.bge (a b : Fld) (o : BitVec 16) : Enc.Statement (.bge a b o) := by
  apply Enc.of_raw
  show decodeRaw (fmtI 0x11 a b o) = _
  rw [op_11 (opc_fmtI ..)]
  simp only [at_fmtI_0_16, fA_fmtI, fB_fmtI]
  try simp only [fl4_0, fl4_1, fl4_2, fl4_3, fl3_0, optO_0, optO_1, optO_2, optO_3, cat0, cat1, shift_k, top4]
  try rfl

theorem Enc.bltn (a b : Fld) (o : BitVec 16) : Enc.Statement (.bltn a b o) := by
  apply Enc.of_raw
  show decodeRaw (fmtI 0x12 a b o) = _
  rw [op_12 (opc_fmtI ..)]
  simp only [at_fmtI_0_16, fA_fmtI, fB_fmtI]
  try simp only [fl4_0, fl4_1, fl4_2, fl4_3, fl3_0, optO_0, optO_1, optO_2, optO_3, cat0, cat1, shift_k, top4]
  try rfl

theorem Enc.bgen (a b : Fld) (o : BitVec 16) : Enc.Statement (.bgen a b o) := by
  apply Enc.of_raw
  show decodeRaw (fmtI 0x13 a b o) = _
  rw [op_13 (opc_fmtI ..)]
  simp only [at_fmtI_0_16, fA_fmtI, fB_fmtI]
  try simp only [fl4_0, fl4_1, fl4_2, fl4_3, fl3_0, optO_0, optO_1, optO_2, optO_3, cat0, cat1, shift_k, top4]
  try rfl

theorem Enc.ldp (a b : Fld) (sz : BitVec 2) (o : BitVec 14) : Enc.Statement (.ldp a b sz o) := by
  apply Enc.of_raw
  show decodeRaw (fmtMP 0x14 a b sz o) = _
  rw [op_14 (opc_fmtMP ..)]
  simp only [at_fmtMP_14_2, at_fmtMP_0_14, fA_fmtMP, fB_fmtMP]
  try simp only [fl4_0, fl4_1, fl4_2, fl4_3, fl3_0, optO_0, optO_1, optO_2, optO_3, cat0, cat1, shift_k, top4]
  try rfl

theorem Enc.ldpx (a b : Fld) (sz : BitVec 2) (o : BitVec 14) : Enc.Statement (.ldpx a b sz o) := by
  apply Enc.of_raw
  show decodeRaw (fmtMP 0x15 a b sz o) = _
  rw [op_15 (opc_fmtMP ..)]
  simp only [at_fmtMP_14_2, at_fmtMP_0_14, fA_fmtMP, fB_fmtMP]
  try simp only [fl4_0, fl4_1, fl4_2, fl4_3, fl3_0, optO_0, optO_1, optO_2, optO_3, cat0, cat1, shift_k, top4]
  try rfl

theorem Enc.stp (a b : Fld) (sz : BitVec 2) (o : BitVec 14) : Enc.Statement (.stp a b sz o) := by
  apply Enc.of_raw
  show decodeRaw (fmtMP 0x16 a b sz o) = _
  rw [op_16 (opc_fmtMP ..)]
  simp only [at_fmtMP_14_2, at_fmtMP_0_14, fA_fmtMP, fB_fmtMP]
  try simp only [fl4_0, fl4_1, fl4_2, fl4_3, fl3_0, optO_0, optO_1, optO_2, optO_3, cat0, cat1, shift_k, top4]
  try rfl

theorem Enc.ld (a b : Fld) (sz : BitVec 2) (p : BitVec 3) (na : Bool) (o : BitVec 10) : Enc.Statement (.ld a b sz p na o) := by
  apply Enc.of_raw
  show decodeRaw (fmtMS 0x17 a b sz p na o) = _
  rw [op_17 (opc_fmtMS ..)]
  simp only [at_fmtMS_14_2, at_fmtMS_11_3, at_fmtMS_0_10, fA_fmtMS, fB_fmtMS, bit_fmtMS_10]
  try simp only [fl4_0, fl4_1, fl4_2, fl4_3, fl3_0, optO_0, optO_1, optO_2, optO_3, cat0, cat1, shift_k, top4]
  try rfl

theorem Enc.ldx (a b : Fld) (sz : BitVec 2) (p : BitVec 3) (na : Bool) (o : BitVec 10) : Enc.Statement (.ldx a b sz p na o) := by
  apply Enc.of_raw
  show decodeRaw (fmtMS 0x18 a b sz p na o) = _
  rw [op_18 (opc_fmtMS ..)]
  simp only [at_fmtMS_14_2, at_fmtMS_11_3, at_fmtMS_0_10, fA_fmtMS, fB_fmtMS, bit_fmtMS_10]
  try simp only [fl4_0, fl4_1, fl4_2, fl4_3, fl3_0, optO_0, optO_1, optO_2, optO_3, cat0, cat1, shift_k, top4]
  try rfl

theorem Enc.st (a b : Fld) (sz : BitVec 2) (p : BitVec 3) (o : BitVec 10) : Enc.Statement (.st a b sz p o) := by
  apply Enc.of_raw
  show decodeRaw (fmtMS 0x19 a b sz p false o) = _
  rw [op_19 (opc_fmtMS ..)]
  simp only [at_fmtMS_14_2, at_fmtMS_11_3, at_fmtMS_0_10, fA_fmtMS, fB_fmtMS]
  try simp only [fl4_0, fl4_1, fl4_2, fl4_3, fl3_0, optO_0, optO_1, optO_2, optO_3, cat0, cat1, shift_k, top4]
  try rfl

theorem Enc.amo (a b c : Fld) (op : BitVec 4) (p : BitVec 3) (s rl aq : Bool) : Enc.Statement (.amo a b c op p s rl aq) := by
  apply Enc.of_raw
  show decodeRaw (fmtX 0x1A a b c op p (fl4 false s rl aq)) = _
  rw [op_1A (opc_fmtX ..)]
  simp only [at_fmtX_7_4, at_fmtX_4_3, fA_fmtX, fB_fmtX, fC_fmtX, bit_fmtX_0, bit_fmtX_1, bit_fmtX_2]
  try simp only [fl4_0, fl4_1, fl4_2]
  try rfl

theorem Enc.rel (p : BitVec 3) : Enc.Statement (.rel p) := by
  apply Enc.of_raw
  show decodeRaw (fmtX 0x1B 0 0 0 0x0 p 0) = _
  rw [op_1B (opc_fmtX ..)]
  unfold rawOrd
  simp only [at_fmtX_7_4, at_fmtX_4_3, at_fmtX_0_2, fA_fmtX, fB_fmtX, fC_fmtX, bit_fmtX_0]
  try simp only [fl4_0, fl4_1, fl4_2, fl4_3, fl3_0, optO_0, optO_1, optO_2, optO_3, cat0, cat1, shift_k, top4]
  try rfl

theorem Enc.acq (b : Fld) (p : BitVec 3) : Enc.Statement (.acq b p) := by
  apply Enc.of_raw
  show decodeRaw (fmtX 0x1B 0 b 0 0x1 p 0) = _
  rw [op_1B (opc_fmtX ..)]
  unfold rawOrd
  simp only [at_fmtX_7_4, at_fmtX_4_3, at_fmtX_0_2, fA_fmtX, fB_fmtX, fC_fmtX, bit_fmtX_0]
  try simp only [fl4_0, fl4_1, fl4_2, fl4_3, fl3_0, optO_0, optO_1, optO_2, optO_3, cat0, cat1, shift_k, top4]
  try rfl

theorem Enc.acqTm (b c : Fld) (p : BitVec 3) : Enc.Statement (.acqTm b c p) := by
  apply Enc.of_raw
  show decodeRaw (fmtX 0x1B 0 b c 0x1 p 1) = _
  rw [op_1B (opc_fmtX ..)]
  unfold rawOrd
  simp only [at_fmtX_7_4, at_fmtX_4_3, at_fmtX_0_2, fA_fmtX, fB_fmtX, fC_fmtX, bit_fmtX_0]
  try simp only [fl4_0, fl4_1, fl4_2, fl4_3, fl3_0, optO_0, optO_1, optO_2, optO_3, cat0, cat1, shift_k, top4]
  try rfl

theorem Enc.acqMap (b c : Fld) (p : BitVec 3) : Enc.Statement (.acqMap b c p) := by
  apply Enc.of_raw
  show decodeRaw (fmtX 0x1B 0 b c 0x1 p 2) = _
  rw [op_1B (opc_fmtX ..)]
  unfold rawOrd
  simp only [at_fmtX_7_4, at_fmtX_4_3, at_fmtX_0_2, fA_fmtX, fB_fmtX, fC_fmtX, bit_fmtX_0]
  try simp only [fl4_0, fl4_1, fl4_2, fl4_3, fl3_0, optO_0, optO_1, optO_2, optO_3, cat0, cat1, shift_k, top4]
  try rfl

theorem Enc.acqBelow (b : Fld) (p : BitVec 3) : Enc.Statement (.acqBelow b p) := by
  apply Enc.of_raw
  show decodeRaw (fmtX 0x1B 0 b 0 0x1 p 3) = _
  rw [op_1B (opc_fmtX ..)]
  unfold rawOrd
  simp only [at_fmtX_7_4, at_fmtX_4_3, at_fmtX_0_2, fA_fmtX, fB_fmtX, fC_fmtX, bit_fmtX_0]
  try simp only [fl4_0, fl4_1, fl4_2, fl4_3, fl3_0, optO_0, optO_1, optO_2, optO_3, cat0, cat1, shift_k, top4]
  try rfl

theorem Enc.fence (d : Fld) (p : BitVec 3) : Enc.Statement (.fence d p) := by
  apply Enc.of_raw
  show decodeRaw (fmtX 0x1B d 0 0 0x2 p 0) = _
  rw [op_1B (opc_fmtX ..)]
  unfold rawOrd
  simp only [at_fmtX_7_4, at_fmtX_4_3, at_fmtX_0_2, fA_fmtX, fB_fmtX, fC_fmtX, bit_fmtX_0]
  try simp only [fl4_0, fl4_1, fl4_2, fl4_3, fl3_0, optO_0, optO_1, optO_2, optO_3, cat0, cat1, shift_k, top4]
  try rfl

theorem Enc.fenceF (d b c : Fld) (p : BitVec 3) : Enc.Statement (.fenceF d b c p) := by
  apply Enc.of_raw
  show decodeRaw (fmtX 0x1B d b c 0x2 p 1) = _
  rw [op_1B (opc_fmtX ..)]
  unfold rawOrd
  simp only [at_fmtX_7_4, at_fmtX_4_3, at_fmtX_0_2, fA_fmtX, fB_fmtX, fC_fmtX, bit_fmtX_0]
  try simp only [fl4_0, fl4_1, fl4_2, fl4_3, fl3_0, optO_0, optO_1, optO_2, optO_3, cat0, cat1, shift_k, top4]
  try rfl

theorem Enc.qfence (b : Fld) : Enc.Statement (.qfence b) := by
  apply Enc.of_raw
  show decodeRaw (fmtX 0x1B 0 b 0 0x3 0 0) = _
  rw [op_1B (opc_fmtX ..)]
  unfold rawOrd
  simp only [at_fmtX_7_4, at_fmtX_4_3, at_fmtX_0_2, fA_fmtX, fB_fmtX, fC_fmtX, bit_fmtX_0]
  try simp only [fl4_0, fl4_1, fl4_2, fl4_3, fl3_0, optO_0, optO_1, optO_2, optO_3, cat0, cat1, shift_k, top4]
  try rfl

theorem Enc.logsn (a : Fld) : Enc.Statement (.logsn a) := by
  apply Enc.of_raw
  show decodeRaw (fmtX 0x1B a 0 0 0x4 0 0) = _
  rw [op_1B (opc_fmtX ..)]
  unfold rawOrd
  simp only [at_fmtX_7_4, at_fmtX_4_3, at_fmtX_0_2, fA_fmtX, fB_fmtX, fC_fmtX, bit_fmtX_0]
  try simp only [fl4_0, fl4_1, fl4_2, fl4_3, fl3_0, optO_0, optO_1, optO_2, optO_3, cat0, cat1, shift_k, top4]
  try rfl

theorem Enc.send (a b c : Fld) (any x : Bool) : Enc.Statement (.send a b c any x) := by
  apply Enc.of_raw
  show decodeRaw (fmtX 0x1C a b c 0x0 0 (fl4 false false any x)) = _
  rw [op_1C (opc_fmtX ..)]
  unfold rawMsg
  simp only [at_fmtX_7_4, at_fmtX_0_3, fA_fmtX, fB_fmtX, fC_fmtX, bit_fmtX_0, bit_fmtX_1, bit_fmtX_3]
  try simp only [fl4_0, fl4_1, fl4_3]
  try rfl

theorem Enc.sendm (b : Fld) (any x : Bool) : Enc.Statement (.sendm b any x) := by
  apply Enc.of_raw
  show decodeRaw (fmtX 0x1C 0 b 0 0x1 0 (fl4 false false any x)) = _
  rw [op_1C (opc_fmtX ..)]
  unfold rawMsg
  simp only [at_fmtX_7_4, at_fmtX_0_3, fA_fmtX, fB_fmtX, fC_fmtX, bit_fmtX_0, bit_fmtX_1, bit_fmtX_3]
  try simp only [fl4_0, fl4_1, fl4_3]
  try rfl

theorem Enc.sendc (a b : Fld) (x : Bool) : Enc.Statement (.sendc a b x) := by
  apply Enc.of_raw
  show decodeRaw (fmtX 0x1C a b 0 0x2 0 (fl4 false false false x)) = _
  rw [op_1C (opc_fmtX ..)]
  unfold rawMsg
  simp only [at_fmtX_7_4, at_fmtX_0_3, fA_fmtX, fB_fmtX, fC_fmtX, bit_fmtX_0, bit_fmtX_1, bit_fmtX_3]
  try simp only [fl4_0, fl4_1, fl4_3]
  try rfl

theorem Enc.promise (b : Fld) : Enc.Statement (.promise b) := by
  apply Enc.of_raw
  show decodeRaw (fmtX 0x1C 0 b 0 0x3 0 0) = _
  rw [op_1C (opc_fmtX ..)]
  unfold rawMsg
  simp only [at_fmtX_7_4, at_fmtX_0_3, fA_fmtX, fB_fmtX, fC_fmtX, bit_fmtX_0, bit_fmtX_1, bit_fmtX_3]
  try simp only [fl4_0, fl4_1, fl4_2, fl4_3, fl3_0, optO_0, optO_1, optO_2, optO_3, cat0, cat1, shift_k, top4]
  try rfl

theorem Enc.deposit (a b c : Fld) (x : Bool) : Enc.Statement (.deposit a b c x) := by
  apply Enc.of_raw
  show decodeRaw (fmtX 0x1C a b c 0x4 0 (fl4 false false false x)) = _
  rw [op_1C (opc_fmtX ..)]
  unfold rawMsg
  simp only [at_fmtX_7_4, at_fmtX_0_3, fA_fmtX, fB_fmtX, fC_fmtX, bit_fmtX_0, bit_fmtX_1, bit_fmtX_3]
  try simp only [fl4_0, fl4_1, fl4_3]
  try rfl

theorem Enc.nred (a b c : Fld) (s : Bool) (op : BitVec 3) : Enc.Statement (.nred a b c s op) := by
  apply Enc.of_raw
  show decodeRaw (fmtX 0x1C a b c 0x5 0 (BitVec.ofBool s ++ op : BitVec 4)) = _
  rw [op_1C (opc_fmtX ..)]
  unfold rawMsg
  simp only [at_fmtX_7_4, at_fmtX_0_3, fA_fmtX, fB_fmtX, fC_fmtX, bit_fmtX_0, bit_fmtX_1, bit_fmtX_3]
  try simp only [cat0, top4]
  try rfl

theorem Enc.nrwait (a b : Fld) (st : Bool) : Enc.Statement (.nrwait a b st) := by
  apply Enc.of_raw
  show decodeRaw (fmtX 0x1C a b 0 0x6 0 (fl4 false false false st)) = _
  rw [op_1C (opc_fmtX ..)]
  unfold rawMsg
  simp only [at_fmtX_7_4, at_fmtX_0_3, fA_fmtX, fB_fmtX, fC_fmtX, bit_fmtX_0, bit_fmtX_1, bit_fmtX_3]
  try simp only [fl4_0, fl4_1, fl4_3]
  try rfl

theorem Enc.spawn (b c : Fld) (any : Bool) : Enc.Statement (.spawn b c any) := by
  apply Enc.of_raw
  show decodeRaw (fmtX 0x1D 0 b c 0x0 0 (fl4 false false any false)) = _
  rw [op_1D (opc_fmtX ..)]
  unfold rawTask
  simp only [at_fmtX_7_4, fA_fmtX, fB_fmtX, fC_fmtX, bit_fmtX_0, bit_fmtX_1]
  try simp only [fl4_0, fl4_1]
  try rfl

theorem Enc.wait (a b c : Fld) : Enc.Statement (.wait a b c) := by
  apply Enc.of_raw
  show decodeRaw (fmtX 0x1D a b c 0x3 0 0) = _
  rw [op_1D (opc_fmtX ..)]
  unfold rawTask
  simp only [at_fmtX_7_4, fA_fmtX, fB_fmtX, fC_fmtX, bit_fmtX_0, bit_fmtX_1]
  try simp only [fl4_0, fl4_1, fl4_2, fl4_3, fl3_0, optO_0, optO_1, optO_2, optO_3, cat0, cat1, shift_k, top4]
  try rfl

theorem Enc.migrate (b : Fld) (core : Bool) : Enc.Statement (.migrate b core) := by
  apply Enc.of_raw
  show decodeRaw (fmtX 0x1D 0 b 0 0x4 0 (fl4 false false false core)) = _
  rw [op_1D (opc_fmtX ..)]
  unfold rawTask
  simp only [at_fmtX_7_4, fA_fmtX, fB_fmtX, fC_fmtX, bit_fmtX_0, bit_fmtX_1]
  try simp only [fl4_0, fl4_1]
  try rfl

theorem Enc.setlah (a b c : Fld) : Enc.Statement (.setlah a b c) := by
  apply Enc.of_raw
  show decodeRaw (fmtX 0x1D a b c 0x5 0 0) = _
  rw [op_1D (opc_fmtX ..)]
  unfold rawTask
  simp only [at_fmtX_7_4, fA_fmtX, fB_fmtX, fC_fmtX, bit_fmtX_0, bit_fmtX_1]
  try simp only [fl4_0, fl4_1, fl4_2, fl4_3, fl3_0, optO_0, optO_1, optO_2, optO_3, cat0, cat1, shift_k, top4]
  try rfl

theorem Enc.sweepW (a : Fld) : Enc.Statement (.sweepW a) := by
  apply Enc.of_raw
  show decodeRaw (fmtX 0x1D a 0 0 0x6 0 1) = _
  rw [op_1D (opc_fmtX ..)]
  unfold rawTask
  simp only [at_fmtX_7_4, fA_fmtX, fB_fmtX, fC_fmtX, bit_fmtX_0, bit_fmtX_1]
  try simp only [fl4_0, fl4_1, fl4_2, fl4_3, fl3_0, optO_0, optO_1, optO_2, optO_3, cat0, cat1, shift_k, top4]
  try rfl

theorem Enc.clmask (a b : Fld) : Enc.Statement (.clmask a b) := by
  apply Enc.of_raw
  show decodeRaw (fmtX 0x1D a b 0 0x7 0 0) = _
  rw [op_1D (opc_fmtX ..)]
  unfold rawTask
  simp only [at_fmtX_7_4, fA_fmtX, fB_fmtX, fC_fmtX, bit_fmtX_0, bit_fmtX_1]
  try simp only [fl4_0, fl4_1, fl4_2, fl4_3, fl3_0, optO_0, optO_1, optO_2, optO_3, cat0, cat1, shift_k, top4]
  try rfl

theorem Enc.clunmask (a b : Fld) : Enc.Statement (.clunmask a b) := by
  apply Enc.of_raw
  show decodeRaw (fmtX 0x1D a b 0 0x8 0 0) = _
  rw [op_1D (opc_fmtX ..)]
  unfold rawTask
  simp only [at_fmtX_7_4, fA_fmtX, fB_fmtX, fC_fmtX, bit_fmtX_0, bit_fmtX_1]
  try simp only [fl4_0, fl4_1, fl4_2, fl4_3, fl3_0, optO_0, optO_1, optO_2, optO_3, cat0, cat1, shift_k, top4]
  try rfl

theorem Enc.binit (b : Fld) (n : BitVec 6) : Enc.Statement (.binit b n) := by
  apply Enc.of_raw
  show decodeRaw (fmtBar 0x1E 0 b n 0x0 0) = _
  unfold fmtBar
  rw [op_1E (opc_fmtX ..)]
  unfold rawBar
  simp only [at_fmtX_7_4, fA_fmtX, fB_fmtX, bit_fmtX_0, bar_fmtX]
  try simp only [fl4_0, fl4_1, fl4_2, fl4_3, fl3_0, optO_0, optO_1, optO_2, optO_3, cat0, cat1, shift_k, top4]
  try rfl

theorem Enc.barrive (a : Fld) (n : BitVec 6) (rl : Bool) : Enc.Statement (.barrive a n rl) := by
  apply Enc.of_raw
  show decodeRaw (fmtBar 0x1E a 0 n 0x1 (fl3 false false rl)) = _
  unfold fmtBar
  rw [op_1E (opc_fmtX ..)]
  unfold rawBar
  simp only [at_fmtX_7_4, fA_fmtX, fB_fmtX, bit_fmtX_0, bar_fmtX]
  try simp only [fl3_0]
  try rfl

theorem Enc.bwait (b : Fld) (n : BitVec 6) (aq : Bool) : Enc.Statement (.bwait b n aq) := by
  apply Enc.of_raw
  show decodeRaw (fmtBar 0x1E 0 b n 0x2 (fl3 false false aq)) = _
  unfold fmtBar
  rw [op_1E (opc_fmtX ..)]
  unfold rawBar
  simp only [at_fmtX_7_4, fA_fmtX, fB_fmtX, bit_fmtX_0, bar_fmtX]
  try simp only [fl3_0]
  try rfl

theorem Enc.btest (a : Fld) (n : BitVec 6) : Enc.Statement (.btest a n) := by
  apply Enc.of_raw
  show decodeRaw (fmtBar 0x1E a 0 n 0x3 0) = _
  unfold fmtBar
  rw [op_1E (opc_fmtX ..)]
  unfold rawBar
  simp only [at_fmtX_7_4, fA_fmtX, fB_fmtX, bit_fmtX_0, bar_fmtX]
  try simp only [fl4_0, fl4_1, fl4_2, fl4_3, fl3_0, optO_0, optO_1, optO_2, optO_3, cat0, cat1, shift_k, top4]
  try rfl

theorem Enc.sbind (a b : Fld) (tcm : Bool) : Enc.Statement (.sbind a b tcm) := by
  apply Enc.of_raw
  show decodeRaw (fmtX 0x1F a b 0 0x0 0 (fl4 false false false tcm)) = _
  rw [op_1F (opc_fmtX ..)]
  unfold rawStrm
  simp only [at_fmtX_7_4, fA_fmtX, fB_fmtX, bit_fmtX_0]
  try simp only [fl4_0]
  try rfl

theorem Enc.sunbind (a : Fld) : Enc.Statement (.sunbind a) := by
  apply Enc.of_raw
  show decodeRaw (fmtX 0x1F a 0 0 0x1 0 0) = _
  rw [op_1F (opc_fmtX ..)]
  unfold rawStrm
  simp only [at_fmtX_7_4, fA_fmtX, fB_fmtX, bit_fmtX_0]
  try simp only [fl4_0, fl4_1, fl4_2, fl4_3, fl3_0, optO_0, optO_1, optO_2, optO_3, cat0, cat1, shift_k, top4]
  try rfl

theorem Enc.sstat (a b : Fld) (drain : Bool) : Enc.Statement (.sstat a b drain) := by
  apply Enc.of_raw
  show decodeRaw (fmtX 0x1F a b 0 0x2 0 (fl4 false false false drain)) = _
  rw [op_1F (opc_fmtX ..)]
  unfold rawStrm
  simp only [at_fmtX_7_4, fA_fmtX, fB_fmtX, bit_fmtX_0]
  try simp only [fl4_0]
  try rfl

theorem Enc.qbind (a b : Fld) : Enc.Statement (.qbind a b) := by
  apply Enc.of_raw
  show decodeRaw (fmtX 0x1F a b 0 0x3 0 0) = _
  rw [op_1F (opc_fmtX ..)]
  unfold rawStrm
  simp only [at_fmtX_7_4, fA_fmtX, fB_fmtX, bit_fmtX_0]
  try simp only [fl4_0, fl4_1, fl4_2, fl4_3, fl3_0, optO_0, optO_1, optO_2, optO_3, cat0, cat1, shift_k, top4]
  try rfl

theorem Enc.qunbind (a : Fld) : Enc.Statement (.qunbind a) := by
  apply Enc.of_raw
  show decodeRaw (fmtX 0x1F a 0 0 0x4 0 0) = _
  rw [op_1F (opc_fmtX ..)]
  unfold rawStrm
  simp only [at_fmtX_7_4, fA_fmtX, fB_fmtX, bit_fmtX_0]
  try simp only [fl4_0, fl4_1, fl4_2, fl4_3, fl3_0, optO_0, optO_1, optO_2, optO_3, cat0, cat1, shift_k, top4]
  try rfl

theorem Enc.copy (b : Fld) : Enc.Statement (.copy b) := by
  apply Enc.of_raw
  show decodeRaw (fmtX 0x20 0 b 0 0x0 0 0) = _
  rw [op_20 (opc_fmtX ..)]
  unfold rawXfer
  simp only [at_fmtX_7_4, fA_fmtX, fB_fmtX, bit_fmtX_0]
  try simp only [fl4_0, fl4_1, fl4_2, fl4_3, fl3_0, optO_0, optO_1, optO_2, optO_3, cat0, cat1, shift_k, top4]
  try rfl

theorem Enc.sgrun (b : Fld) : Enc.Statement (.sgrun b) := by
  apply Enc.of_raw
  show decodeRaw (fmtX 0x20 0 b 0 0x1 0 0) = _
  rw [op_20 (opc_fmtX ..)]
  unfold rawXfer
  simp only [at_fmtX_7_4, fA_fmtX, fB_fmtX, bit_fmtX_0]
  try simp only [fl4_0, fl4_1, fl4_2, fl4_3, fl3_0, optO_0, optO_1, optO_2, optO_3, cat0, cat1, shift_k, top4]
  try rfl

theorem Enc.xstat (a b : Fld) (c : Bool) : Enc.Statement (.xstat a b c) := by
  apply Enc.of_raw
  show decodeRaw (fmtX 0x20 a b 0 0x2 0 (fl4 false false false c)) = _
  rw [op_20 (opc_fmtX ..)]
  unfold rawXfer
  simp only [at_fmtX_7_4, fA_fmtX, fB_fmtX, bit_fmtX_0]
  try simp only [fl4_0]
  try rfl

theorem Enc.xcancel (b : Fld) : Enc.Statement (.xcancel b) := by
  apply Enc.of_raw
  show decodeRaw (fmtX 0x20 0 b 0 0x3 0 0) = _
  rw [op_20 (opc_fmtX ..)]
  unfold rawXfer
  simp only [at_fmtX_7_4, fA_fmtX, fB_fmtX, bit_fmtX_0]
  try simp only [fl4_0, fl4_1, fl4_2, fl4_3, fl3_0, optO_0, optO_1, optO_2, optO_3, cat0, cat1, shift_k, top4]
  try rfl

theorem Enc.blkref (a b : Fld) : Enc.Statement (.blkref a b) := by
  apply Enc.of_raw
  show decodeRaw (fmtX 0x21 a b 0 0x0 0 0) = _
  rw [op_21 (opc_fmtX ..)]
  unfold rawBlk
  simp only [at_fmtX_7_4, at_fmtX_0_2, fA_fmtX, fB_fmtX, fC_fmtX, bit_fmtX_0]
  try simp only [fl4_0, fl4_1, fl4_2, fl4_3, fl3_0, optO_0, optO_1, optO_2, optO_3, cat0, cat1, shift_k, top4]
  try rfl

theorem Enc.blkrefNew (a b : Fld) : Enc.Statement (.blkrefNew a b) := by
  apply Enc.of_raw
  show decodeRaw (fmtX 0x21 a b 0 0x0 0 1) = _
  rw [op_21 (opc_fmtX ..)]
  unfold rawBlk
  simp only [at_fmtX_7_4, at_fmtX_0_2, fA_fmtX, fB_fmtX, fC_fmtX, bit_fmtX_0]
  try simp only [fl4_0, fl4_1, fl4_2, fl4_3, fl3_0, optO_0, optO_1, optO_2, optO_3, cat0, cat1, shift_k, top4]
  try rfl

theorem Enc.blkfree (a b : Fld) : Enc.Statement (.blkfree a b) := by
  apply Enc.of_raw
  show decodeRaw (fmtX 0x21 a b 0 0x1 0 0) = _
  rw [op_21 (opc_fmtX ..)]
  unfold rawBlk
  simp only [at_fmtX_7_4, at_fmtX_0_2, fA_fmtX, fB_fmtX, fC_fmtX, bit_fmtX_0]
  try simp only [fl4_0, fl4_1, fl4_2, fl4_3, fl3_0, optO_0, optO_1, optO_2, optO_3, cat0, cat1, shift_k, top4]
  try rfl

theorem Enc.blkcow (a b : Fld) : Enc.Statement (.blkcow a b) := by
  apply Enc.of_raw
  show decodeRaw (fmtX 0x21 a b 0 0x2 0 0) = _
  rw [op_21 (opc_fmtX ..)]
  unfold rawBlk
  simp only [at_fmtX_7_4, at_fmtX_0_2, fA_fmtX, fB_fmtX, fC_fmtX, bit_fmtX_0]
  try simp only [fl4_0, fl4_1, fl4_2, fl4_3, fl3_0, optO_0, optO_1, optO_2, optO_3, cat0, cat1, shift_k, top4]
  try rfl

theorem Enc.blkmoveTier (b c : Fld) : Enc.Statement (.blkmoveTier b c) := by
  apply Enc.of_raw
  show decodeRaw (fmtX 0x21 0 b c 0x3 0 0) = _
  rw [op_21 (opc_fmtX ..)]
  unfold rawBlk
  simp only [at_fmtX_7_4, at_fmtX_0_2, fA_fmtX, fB_fmtX, fC_fmtX, bit_fmtX_0]
  try simp only [fl4_0, fl4_1, fl4_2, fl4_3, fl3_0, optO_0, optO_1, optO_2, optO_3, cat0, cat1, shift_k, top4]
  try rfl

theorem Enc.blkmoveGet (b : Fld) : Enc.Statement (.blkmoveGet b) := by
  apply Enc.of_raw
  show decodeRaw (fmtX 0x21 0 b 0 0x3 0 1) = _
  rw [op_21 (opc_fmtX ..)]
  unfold rawBlk
  simp only [at_fmtX_7_4, at_fmtX_0_2, fA_fmtX, fB_fmtX, fC_fmtX, bit_fmtX_0]
  try simp only [fl4_0, fl4_1, fl4_2, fl4_3, fl3_0, optO_0, optO_1, optO_2, optO_3, cat0, cat1, shift_k, top4]
  try rfl

theorem Enc.blkmovePut (b : Fld) : Enc.Statement (.blkmovePut b) := by
  apply Enc.of_raw
  show decodeRaw (fmtX 0x21 0 b 0 0x3 0 2) = _
  rw [op_21 (opc_fmtX ..)]
  unfold rawBlk
  simp only [at_fmtX_7_4, at_fmtX_0_2, fA_fmtX, fB_fmtX, fC_fmtX, bit_fmtX_0]
  try simp only [fl4_0, fl4_1, fl4_2, fl4_3, fl3_0, optO_0, optO_1, optO_2, optO_3, cat0, cat1, shift_k, top4]
  try rfl

theorem Enc.blkstat (a b : Fld) : Enc.Statement (.blkstat a b) := by
  apply Enc.of_raw
  show decodeRaw (fmtX 0x21 a b 0 0x4 0 0) = _
  rw [op_21 (opc_fmtX ..)]
  unfold rawBlk
  simp only [at_fmtX_7_4, at_fmtX_0_2, fA_fmtX, fB_fmtX, fC_fmtX, bit_fmtX_0]
  try simp only [fl4_0, fl4_1, fl4_2, fl4_3, fl3_0, optO_0, optO_1, optO_2, optO_3, cat0, cat1, shift_k, top4]
  try rfl

theorem Enc.csrr (a : Fld) (n : BitVec 12) : Enc.Statement (.csrr a n) := by
  apply Enc.of_raw
  show decodeRaw (fmtC 0x22 a 0 n 0) = _
  rw [op_22 (opc_fmtC ..)]
  unfold rawCsr
  simp only [at_fmtC_4_12, at_fmtC_0_2, fA_fmtC, fB_fmtC]
  try simp only [fl4_0, fl4_1, fl4_2, fl4_3, fl3_0, optO_0, optO_1, optO_2, optO_3, cat0, cat1, shift_k, top4]
  try rfl

theorem Enc.csrw (a b : Fld) (n : BitVec 12) : Enc.Statement (.csrw a b n) := by
  apply Enc.of_raw
  show decodeRaw (fmtC 0x22 a b n 1) = _
  rw [op_22 (opc_fmtC ..)]
  unfold rawCsr
  simp only [at_fmtC_4_12, at_fmtC_0_2, fA_fmtC, fB_fmtC]
  try simp only [fl4_0, fl4_1, fl4_2, fl4_3, fl3_0, optO_0, optO_1, optO_2, optO_3, cat0, cat1, shift_k, top4]
  try rfl

theorem Enc.csrset (a b : Fld) (n : BitVec 12) : Enc.Statement (.csrset a b n) := by
  apply Enc.of_raw
  show decodeRaw (fmtC 0x22 a b n 2) = _
  rw [op_22 (opc_fmtC ..)]
  unfold rawCsr
  simp only [at_fmtC_4_12, at_fmtC_0_2, fA_fmtC, fB_fmtC]
  try simp only [fl4_0, fl4_1, fl4_2, fl4_3, fl3_0, optO_0, optO_1, optO_2, optO_3, cat0, cat1, shift_k, top4]
  try rfl

theorem Enc.csrclr (a b : Fld) (n : BitVec 12) : Enc.Statement (.csrclr a b n) := by
  apply Enc.of_raw
  show decodeRaw (fmtC 0x22 a b n 3) = _
  rw [op_22 (opc_fmtC ..)]
  unfold rawCsr
  simp only [at_fmtC_4_12, at_fmtC_0_2, fA_fmtC, fB_fmtC]
  try simp only [fl4_0, fl4_1, fl4_2, fl4_3, fl3_0, optO_0, optO_1, optO_2, optO_3, cat0, cat1, shift_k, top4]
  try rfl

theorem Enc.trap (c : BitVec 15) : Enc.Statement (.trap c) := by
  apply Enc.of_raw
  show decodeRaw (fmtX 0x23 (c.extractLsb' 10 5) (c.extractLsb' 5 5) (c.extractLsb' 0 5) 0x0 0 0) = _
  rw [op_23 (opc_fmtX ..)]
  unfold rawSys
  simp only [at_fmtX_7_4, at_fmtX_0_2, fA_fmtX, fB_fmtX, fC_fmtX, bit_fmtX_0, span_fmtX]
  try simp only [fl4_0, fl4_1, fl4_2, fl4_3, fl3_0, optO_0, optO_1, optO_2, optO_3, cat0, cat1, shift_k, top4]
  try rfl

theorem Enc.halt (b : Fld) : Enc.Statement (.halt b) := by
  apply Enc.of_raw
  show decodeRaw (fmtX 0x23 0 b 0 0x2 0 0) = _
  rw [op_23 (opc_fmtX ..)]
  unfold rawSys
  simp only [at_fmtX_7_4, at_fmtX_0_2, fA_fmtX, fB_fmtX, fC_fmtX, bit_fmtX_0]
  try simp only [fl4_0, fl4_1, fl4_2, fl4_3, fl3_0, optO_0, optO_1, optO_2, optO_3, cat0, cat1, shift_k, top4]
  try rfl

theorem Enc.brk (c : BitVec 15) : Enc.Statement (.brk c) := by
  apply Enc.of_raw
  show decodeRaw (fmtX 0x23 (c.extractLsb' 10 5) (c.extractLsb' 5 5) (c.extractLsb' 0 5) 0x3 0 0) = _
  rw [op_23 (opc_fmtX ..)]
  unfold rawSys
  simp only [at_fmtX_7_4, at_fmtX_0_2, fA_fmtX, fB_fmtX, fC_fmtX, bit_fmtX_0, span_fmtX]
  try simp only [fl4_0, fl4_1, fl4_2, fl4_3, fl3_0, optO_0, optO_1, optO_2, optO_3, cat0, cat1, shift_k, top4]
  try rfl

theorem Enc.dbgmark (b : Fld) : Enc.Statement (.dbgmark b) := by
  apply Enc.of_raw
  show decodeRaw (fmtX 0x23 0 b 0 0x4 0 0) = _
  rw [op_23 (opc_fmtX ..)]
  unfold rawSys
  simp only [at_fmtX_7_4, at_fmtX_0_2, fA_fmtX, fB_fmtX, fC_fmtX, bit_fmtX_0]
  try simp only [fl4_0, fl4_1, fl4_2, fl4_3, fl3_0, optO_0, optO_1, optO_2, optO_3, cat0, cat1, shift_k, top4]
  try rfl

theorem Enc.tlbinvPage (b c : Fld) : Enc.Statement (.tlbinvPage b c) := by
  apply Enc.of_raw
  show decodeRaw (fmtX 0x23 0 b c 0x5 0 0) = _
  rw [op_23 (opc_fmtX ..)]
  unfold rawSys
  simp only [at_fmtX_7_4, at_fmtX_0_2, fA_fmtX, fB_fmtX, fC_fmtX, bit_fmtX_0]
  try simp only [fl4_0, fl4_1, fl4_2, fl4_3, fl3_0, optO_0, optO_1, optO_2, optO_3, cat0, cat1, shift_k, top4]
  try rfl

theorem Enc.tlbinvAsid (c : Fld) : Enc.Statement (.tlbinvAsid c) := by
  apply Enc.of_raw
  show decodeRaw (fmtX 0x23 0 0 c 0x5 0 1) = _
  rw [op_23 (opc_fmtX ..)]
  unfold rawSys
  simp only [at_fmtX_7_4, at_fmtX_0_2, fA_fmtX, fB_fmtX, fC_fmtX, bit_fmtX_0]
  try simp only [fl4_0, fl4_1, fl4_2, fl4_3, fl3_0, optO_0, optO_1, optO_2, optO_3, cat0, cat1, shift_k, top4]
  try rfl

theorem Enc.tlbinvVf (c : Fld) : Enc.Statement (.tlbinvVf c) := by
  apply Enc.of_raw
  show decodeRaw (fmtX 0x23 0 0 c 0x5 0 2) = _
  rw [op_23 (opc_fmtX ..)]
  unfold rawSys
  simp only [at_fmtX_7_4, at_fmtX_0_2, fA_fmtX, fB_fmtX, fC_fmtX, bit_fmtX_0]
  try simp only [fl4_0, fl4_1, fl4_2, fl4_3, fl3_0, optO_0, optO_1, optO_2, optO_3, cat0, cat1, shift_k, top4]
  try rfl

theorem Enc.asidset (a b : Fld) : Enc.Statement (.asidset a b) := by
  apply Enc.of_raw
  show decodeRaw (fmtX 0x23 a b 0 0x6 0 0) = _
  rw [op_23 (opc_fmtX ..)]
  unfold rawSys
  simp only [at_fmtX_7_4, at_fmtX_0_2, fA_fmtX, fB_fmtX, fC_fmtX, bit_fmtX_0]
  try simp only [fl4_0, fl4_1, fl4_2, fl4_3, fl3_0, optO_0, optO_1, optO_2, optO_3, cat0, cat1, shift_k, top4]
  try rfl

theorem Enc.asidsetNew (a b c : Fld) : Enc.Statement (.asidsetNew a b c) := by
  apply Enc.of_raw
  show decodeRaw (fmtX 0x23 a b c 0x6 0 1) = _
  rw [op_23 (opc_fmtX ..)]
  unfold rawSys
  simp only [at_fmtX_7_4, at_fmtX_0_2, fA_fmtX, fB_fmtX, fC_fmtX, bit_fmtX_0]
  try simp only [fl4_0, fl4_1, fl4_2, fl4_3, fl3_0, optO_0, optO_1, optO_2, optO_3, cat0, cat1, shift_k, top4]
  try rfl

theorem Enc.swapwp (a b : Fld) : Enc.Statement (.swapwp a b) := by
  apply Enc.of_raw
  show decodeRaw (fmtX 0x23 a b 0 0x7 0 0) = _
  rw [op_23 (opc_fmtX ..)]
  unfold rawSys
  simp only [at_fmtX_7_4, at_fmtX_0_2, fA_fmtX, fB_fmtX, fC_fmtX, bit_fmtX_0]
  try simp only [fl4_0, fl4_1, fl4_2, fl4_3, fl3_0, optO_0, optO_1, optO_2, optO_3, cat0, cat1, shift_k, top4]
  try rfl

theorem Enc.faultreply (a b c : Fld) : Enc.Statement (.faultreply a b c) := by
  apply Enc.of_raw
  show decodeRaw (fmtX 0x23 a b c 0x8 0 0) = _
  rw [op_23 (opc_fmtX ..)]
  unfold rawSys
  simp only [at_fmtX_7_4, at_fmtX_0_2, fA_fmtX, fB_fmtX, fC_fmtX, bit_fmtX_0]
  try simp only [fl4_0, fl4_1, fl4_2, fl4_3, fl3_0, optO_0, optO_1, optO_2, optO_3, cat0, cat1, shift_k, top4]
  try rfl

theorem Enc.eread (a b : Fld) : Enc.Statement (.eread a b) := by
  apply Enc.of_raw
  show decodeRaw (fmtX 0x23 a b 0 0x9 0 0) = _
  rw [op_23 (opc_fmtX ..)]
  unfold rawSys
  simp only [at_fmtX_7_4, at_fmtX_0_2, fA_fmtX, fB_fmtX, fC_fmtX, bit_fmtX_0]
  try simp only [fl4_0, fl4_1, fl4_2, fl4_3, fl3_0, optO_0, optO_1, optO_2, optO_3, cat0, cat1, shift_k, top4]
  try rfl

theorem Enc.vadd (a b c : Fld) (s r m : Bool) (f : BitVec 3) : Enc.Statement (.vadd a b c s r m f) := by
  apply Enc.of_raw
  show decodeRaw (fmtV 0x24 a b c (optO false s r m) f 0) = _
  rw [op_24 (opc_fmtV ..)]
  unfold rawVArith
  simp only [at_fmtV_0_3, at_fmtV_3_3, fA_fmtV, fB_fmtV, fC_fmtV, fO_fmtV, bit_fmtV_6, bit_fmtV_7, bit_fmtV_8, bit_fmtV_9]
  try simp only [optO_0, optO_1, optO_2, optO_3]
  try rfl

theorem Enc.vsub (a b c : Fld) (s r m : Bool) (f : BitVec 3) : Enc.Statement (.vsub a b c s r m f) := by
  apply Enc.of_raw
  show decodeRaw (fmtV 0x24 a b c (optO false s r m) f 1) = _
  rw [op_24 (opc_fmtV ..)]
  unfold rawVArith
  simp only [at_fmtV_0_3, at_fmtV_3_3, fA_fmtV, fB_fmtV, fC_fmtV, fO_fmtV, bit_fmtV_6, bit_fmtV_7, bit_fmtV_8, bit_fmtV_9]
  try simp only [optO_0, optO_1, optO_2, optO_3]
  try rfl

theorem Enc.vmul (a b c : Fld) (s r m : Bool) (f : BitVec 3) : Enc.Statement (.vmul a b c s r m f) := by
  apply Enc.of_raw
  show decodeRaw (fmtV 0x24 a b c (optO false s r m) f 2) = _
  rw [op_24 (opc_fmtV ..)]
  unfold rawVArith
  simp only [at_fmtV_0_3, at_fmtV_3_3, fA_fmtV, fB_fmtV, fC_fmtV, fO_fmtV, bit_fmtV_6, bit_fmtV_7, bit_fmtV_8, bit_fmtV_9]
  try simp only [optO_0, optO_1, optO_2, optO_3]
  try rfl

theorem Enc.vmin (a b c : Fld) (n m : Bool) (f : BitVec 3) : Enc.Statement (.vmin a b c n m f) := by
  apply Enc.of_raw
  show decodeRaw (fmtV 0x24 a b c (optO n false false m) f 3) = _
  rw [op_24 (opc_fmtV ..)]
  unfold rawVArith
  simp only [at_fmtV_0_3, at_fmtV_3_3, fA_fmtV, fB_fmtV, fC_fmtV, fO_fmtV, bit_fmtV_6, bit_fmtV_7, bit_fmtV_8, bit_fmtV_9]
  try simp only [optO_0, optO_1, optO_2, optO_3]
  try rfl

theorem Enc.vmax (a b c : Fld) (n m : Bool) (f : BitVec 3) : Enc.Statement (.vmax a b c n m f) := by
  apply Enc.of_raw
  show decodeRaw (fmtV 0x24 a b c (optO n false false m) f 4) = _
  rw [op_24 (opc_fmtV ..)]
  unfold rawVArith
  simp only [at_fmtV_0_3, at_fmtV_3_3, fA_fmtV, fB_fmtV, fC_fmtV, fO_fmtV, bit_fmtV_6, bit_fmtV_7, bit_fmtV_8, bit_fmtV_9]
  try simp only [optO_0, optO_1, optO_2, optO_3]
  try rfl

theorem Enc.vfma (a b c d : Fld) (f : BitVec 3) : Enc.Statement (.vfma a b c d f) := by
  apply Enc.of_raw
  show decodeRaw (fmtV 0x24 a b c d f 5) = _
  rw [op_24 (opc_fmtV ..)]
  unfold rawVArith
  simp only [at_fmtV_0_3, at_fmtV_3_3, fA_fmtV, fB_fmtV, fC_fmtV, fO_fmtV, bit_fmtV_6, bit_fmtV_7, bit_fmtV_8, bit_fmtV_9]
  try simp only [fl4_0, fl4_1, fl4_2, fl4_3, fl3_0, optO_0, optO_1, optO_2, optO_3, cat0, cat1, shift_k, top4]
  try rfl

theorem Enc.vfms (a b c d : Fld) (f : BitVec 3) : Enc.Statement (.vfms a b c d f) := by
  apply Enc.of_raw
  show decodeRaw (fmtV 0x24 a b c d f 6) = _
  rw [op_24 (opc_fmtV ..)]
  unfold rawVArith
  simp only [at_fmtV_0_3, at_fmtV_3_3, fA_fmtV, fB_fmtV, fC_fmtV, fO_fmtV, bit_fmtV_6, bit_fmtV_7, bit_fmtV_8, bit_fmtV_9]
  try simp only [fl4_0, fl4_1, fl4_2, fl4_3, fl3_0, optO_0, optO_1, optO_2, optO_3, cat0, cat1, shift_k, top4]
  try rfl

theorem Enc.vabs (a b : Fld) (s m : Bool) (f : BitVec 3) : Enc.Statement (.vabs a b s m f) := by
  apply Enc.of_raw
  show decodeRaw (fmtV 0x24 a b 0 (optO false s false m) f 7) = _
  rw [op_24 (opc_fmtV ..)]
  unfold rawVArith
  simp only [at_fmtV_0_3, at_fmtV_3_3, fA_fmtV, fB_fmtV, fC_fmtV, fO_fmtV, bit_fmtV_6, bit_fmtV_7, bit_fmtV_8, bit_fmtV_9]
  try simp only [optO_0, optO_1, optO_2, optO_3]
  try rfl

theorem Enc.vneg (a b : Fld) (s m : Bool) (f : BitVec 3) : Enc.Statement (.vneg a b s m f) := by
  apply Enc.of_raw
  show decodeRaw (fmtV 0x24 a b 1 (optO false s false m) f 7) = _
  rw [op_24 (opc_fmtV ..)]
  unfold rawVArith
  simp only [at_fmtV_0_3, at_fmtV_3_3, fA_fmtV, fB_fmtV, fC_fmtV, fO_fmtV, bit_fmtV_6, bit_fmtV_7, bit_fmtV_8, bit_fmtV_9]
  try simp only [optO_0, optO_1, optO_2, optO_3]
  try rfl

theorem Enc.vand (a b c : Fld) (m : Bool) (f : BitVec 3) : Enc.Statement (.vand a b c m f) := by
  apply Enc.of_raw
  show decodeRaw (fmtV 0x25 a b c (optO false false false m) f 0) = _
  rw [op_25 (opc_fmtV ..)]
  unfold rawVLogic
  simp only [at_fmtV_0_3, at_fmtV_3_3, at_fmtV_21_3, fA_fmtV, fB_fmtV, fC_fmtV, bit_fmtV_6, bit_fmtV_9]
  try simp only [optO_0, optO_3]
  try rfl

theorem Enc.vor (a b c : Fld) (m : Bool) (f : BitVec 3) : Enc.Statement (.vor a b c m f) := by
  apply Enc.of_raw
  show decodeRaw (fmtV 0x25 a b c (optO false false false m) f 1) = _
  rw [op_25 (opc_fmtV ..)]
  unfold rawVLogic
  simp only [at_fmtV_0_3, at_fmtV_3_3, at_fmtV_21_3, fA_fmtV, fB_fmtV, fC_fmtV, bit_fmtV_6, bit_fmtV_9]
  try simp only [optO_0, optO_3]
  try rfl

theorem Enc.vxor (a b c : Fld) (m : Bool) (f : BitVec 3) : Enc.Statement (.vxor a b c m f) := by
  apply Enc.of_raw
  show decodeRaw (fmtV 0x25 a b c (optO false false false m) f 2) = _
  rw [op_25 (opc_fmtV ..)]
  unfold rawVLogic
  simp only [at_fmtV_0_3, at_fmtV_3_3, at_fmtV_21_3, fA_fmtV, fB_fmtV, fC_fmtV, bit_fmtV_6, bit_fmtV_9]
  try simp only [optO_0, optO_3]
  try rfl

theorem Enc.vshl (a b c : Fld) (m : Bool) (f : BitVec 3) : Enc.Statement (.vshl a b c m f) := by
  apply Enc.of_raw
  show decodeRaw (fmtV 0x25 a b c (optO false false false m) f 3) = _
  rw [op_25 (opc_fmtV ..)]
  unfold rawVLogic
  simp only [at_fmtV_0_3, at_fmtV_3_3, at_fmtV_21_3, fA_fmtV, fB_fmtV, fC_fmtV, bit_fmtV_6, bit_fmtV_9]
  try simp only [optO_0, optO_3]
  try rfl

theorem Enc.vshr (a b c : Fld) (n m : Bool) (f : BitVec 3) : Enc.Statement (.vshr a b c n m f) := by
  apply Enc.of_raw
  show decodeRaw (fmtV 0x25 a b c (optO n false false m) f 4) = _
  rw [op_25 (opc_fmtV ..)]
  unfold rawVLogic
  simp only [at_fmtV_0_3, at_fmtV_3_3, at_fmtV_21_3, fA_fmtV, fB_fmtV, fC_fmtV, bit_fmtV_6, bit_fmtV_9]
  try simp only [optO_0, optO_3]
  try rfl

theorem Enc.vcmp (k : BitVec 3) (b c : Fld) (n m : Bool) (f : BitVec 3) : Enc.Statement (.vcmp k b c n m f) := by
  apply Enc.of_raw
  show decodeRaw (fmtV 0x25 (0#2 ++ k : Fld) b c (optO n false false m) f 5) = _
  rw [op_25 (opc_fmtV ..)]
  unfold rawVLogic
  simp only [at_fmtV_0_3, at_fmtV_3_3, at_fmtV_21_3, fA_fmtV, fB_fmtV, fC_fmtV, bit_fmtV_6, bit_fmtV_9]
  try simp only [optO_0, optO_3, cat0]
  try rfl

theorem Enc.vsel (a b c : Fld) (f : BitVec 3) : Enc.Statement (.vsel a b c f) := by
  apply Enc.of_raw
  show decodeRaw (fmtV 0x25 a b c 0 f 6) = _
  rw [op_25 (opc_fmtV ..)]
  unfold rawVLogic
  simp only [at_fmtV_0_3, at_fmtV_3_3, at_fmtV_21_3, fA_fmtV, fB_fmtV, fC_fmtV, bit_fmtV_6, bit_fmtV_9]
  try simp only [fl4_0, fl4_1, fl4_2, fl4_3, fl3_0, optO_0, optO_1, optO_2, optO_3, cat0, cat1, shift_k, top4]
  try rfl

theorem Enc.vsetm (a b : Fld) : Enc.Statement (.vsetm a b) := by
  apply Enc.of_raw
  show decodeRaw (fmtV 0x25 a b 0 0 0 7) = _
  rw [op_25 (opc_fmtV ..)]
  unfold rawVLogic
  simp only [at_fmtV_0_3, at_fmtV_3_3, at_fmtV_21_3, fA_fmtV, fB_fmtV, fC_fmtV, bit_fmtV_6, bit_fmtV_9]
  try simp only [fl4_0, fl4_1, fl4_2, fl4_3, fl3_0, optO_0, optO_1, optO_2, optO_3, cat0, cat1, shift_k, top4]
  try rfl

theorem Enc.vcvt (a b : Fld) (e : BitVec 3) (p : BitVec 2) (s r : Bool) (f : BitVec 3) : Enc.Statement (.vcvt a b e p s r f) := by
  apply Enc.of_raw
  show decodeRaw (fmtV 0x26 a b (e ++ p : Fld) (optO false s r false) f 0) = _
  rw [op_26 (opc_fmtV ..)]
  unfold rawVCvt
  simp only [at_fmtV_0_3, at_fmtV_3_3, at_fmtV_6_3, at_fmtV_13_3, at_fmtV_11_2, fA_fmtV, fB_fmtV, fC_fmtV, bit_fmtV_7, bit_fmtV_8]
  try simp only [optO_1, optO_2, cat0, cat1]
  try rfl

theorem Enc.vqnt (a b c : Fld) (p f : BitVec 3) : Enc.Statement (.vqnt a b c p f) := by
  apply Enc.of_raw
  show decodeRaw (fmtV 0x26 a b c (0#2 ++ p : Fld) f 1) = _
  rw [op_26 (opc_fmtV ..)]
  unfold rawVCvt
  simp only [at_fmtV_0_3, at_fmtV_3_3, at_fmtV_6_3, at_fmtV_13_3, at_fmtV_11_2, fA_fmtV, fB_fmtV, fC_fmtV, bit_fmtV_7, bit_fmtV_8]
  try simp only [cat0]
  try rfl

theorem Enc.vdqnt (a b c : Fld) (p f : BitVec 3) : Enc.Statement (.vdqnt a b c p f) := by
  apply Enc.of_raw
  show decodeRaw (fmtV 0x26 a b c (0#2 ++ p : Fld) f 2) = _
  rw [op_26 (opc_fmtV ..)]
  unfold rawVCvt
  simp only [at_fmtV_0_3, at_fmtV_3_3, at_fmtV_6_3, at_fmtV_13_3, at_fmtV_11_2, fA_fmtV, fB_fmtV, fC_fmtV, bit_fmtV_7, bit_fmtV_8]
  try simp only [cat0]
  try rfl

theorem Enc.vld (a b : Fld) (o : BitVec 10) : Enc.Statement (.vld a b o) := by
  apply Enc.of_raw
  show decodeRaw (fmtV 0x27 a b (o.extractLsb' 5 5) (o.extractLsb' 0 5) 0 0) = _
  rw [op_27 (opc_fmtV ..)]
  unfold rawVMem
  simp only [at_fmtV_0_3, at_fmtV_3_3, fA_fmtV, fB_fmtV, fC_fmtV, bit_fmtV_6, span_fmtV]
  try simp only [fl4_0, fl4_1, fl4_2, fl4_3, fl3_0, optO_0, optO_1, optO_2, optO_3, cat0, cat1, shift_k, top4]
  try rfl

theorem Enc.vst (a b : Fld) (o : BitVec 10) : Enc.Statement (.vst a b o) := by
  apply Enc.of_raw
  show decodeRaw (fmtV 0x27 a b (o.extractLsb' 5 5) (o.extractLsb' 0 5) 0 1) = _
  rw [op_27 (opc_fmtV ..)]
  unfold rawVMem
  simp only [at_fmtV_0_3, at_fmtV_3_3, fA_fmtV, fB_fmtV, fC_fmtV, bit_fmtV_6, span_fmtV]
  try simp only [fl4_0, fl4_1, fl4_2, fl4_3, fl3_0, optO_0, optO_1, optO_2, optO_3, cat0, cat1, shift_k, top4]
  try rfl

theorem Enc.vlds (a b : Fld) (o : BitVec 10) (p : BitVec 3) : Enc.Statement (.vlds a b o p) := by
  apply Enc.of_raw
  show decodeRaw (fmtV 0x27 a b (o.extractLsb' 5 5) (o.extractLsb' 0 5) p 2) = _
  rw [op_27 (opc_fmtV ..)]
  unfold rawVMem
  simp only [at_fmtV_0_3, at_fmtV_3_3, fA_fmtV, fB_fmtV, fC_fmtV, bit_fmtV_6, span_fmtV]
  try simp only [fl4_0, fl4_1, fl4_2, fl4_3, fl3_0, optO_0, optO_1, optO_2, optO_3, cat0, cat1, shift_k, top4]
  try rfl

theorem Enc.vsts (a b : Fld) (o : BitVec 10) (p : BitVec 3) : Enc.Statement (.vsts a b o p) := by
  apply Enc.of_raw
  show decodeRaw (fmtV 0x27 a b (o.extractLsb' 5 5) (o.extractLsb' 0 5) p 3) = _
  rw [op_27 (opc_fmtV ..)]
  unfold rawVMem
  simp only [at_fmtV_0_3, at_fmtV_3_3, fA_fmtV, fB_fmtV, fC_fmtV, bit_fmtV_6, span_fmtV]
  try simp only [fl4_0, fl4_1, fl4_2, fl4_3, fl3_0, optO_0, optO_1, optO_2, optO_3, cat0, cat1, shift_k, top4]
  try rfl

theorem Enc.vgath (a b c : Fld) (m : Bool) (f : BitVec 3) : Enc.Statement (.vgath a b c m f) := by
  apply Enc.of_raw
  show decodeRaw (fmtV 0x27 a b c (optO false false false m) f 4) = _
  rw [op_27 (opc_fmtV ..)]
  unfold rawVMem
  simp only [at_fmtV_0_3, at_fmtV_3_3, fA_fmtV, fB_fmtV, fC_fmtV, bit_fmtV_6]
  try simp only [optO_0]
  try rfl

theorem Enc.vscat (a b c : Fld) (m : Bool) (f : BitVec 3) : Enc.Statement (.vscat a b c m f) := by
  apply Enc.of_raw
  show decodeRaw (fmtV 0x27 a b c (optO false false false m) f 5) = _
  rw [op_27 (opc_fmtV ..)]
  unfold rawVMem
  simp only [at_fmtV_0_3, at_fmtV_3_3, fA_fmtV, fB_fmtV, fC_fmtV, bit_fmtV_6]
  try simp only [optO_0]
  try rfl

theorem Enc.vbcast (a b : Fld) (m : Bool) (f : BitVec 3) : Enc.Statement (.vbcast a b m f) := by
  apply Enc.of_raw
  show decodeRaw (fmtV 0x28 a b 0 (optO false false false m) f 0) = _
  rw [op_28 (opc_fmtV ..)]
  unfold rawVPerm
  simp only [at_fmtV_0_3, at_fmtV_3_3, fA_fmtV, fB_fmtV, fC_fmtV, fO_fmtV, bit_fmtV_6]
  try simp only [optO_0]
  try rfl

theorem Enc.vslide (a b c : Fld) (n : BitVec 5) (f : BitVec 3) : Enc.Statement (.vslide a b c n f) := by
  apply Enc.of_raw
  show decodeRaw (fmtV 0x28 a b c n f 1) = _
  rw [op_28 (opc_fmtV ..)]
  unfold rawVPerm
  simp only [at_fmtV_0_3, at_fmtV_3_3, fA_fmtV, fB_fmtV, fC_fmtV, fO_fmtV, bit_fmtV_6]
  try simp only [fl4_0, fl4_1, fl4_2, fl4_3, fl3_0, optO_0, optO_1, optO_2, optO_3, cat0, cat1, shift_k, top4]
  try rfl

theorem Enc.vperm (a b c : Fld) (m : Bool) (f : BitVec 3) : Enc.Statement (.vperm a b c m f) := by
  apply Enc.of_raw
  show decodeRaw (fmtV 0x28 a b c (optO false false false m) f 2) = _
  rw [op_28 (opc_fmtV ..)]
  unfold rawVPerm
  simp only [at_fmtV_0_3, at_fmtV_3_3, fA_fmtV, fB_fmtV, fC_fmtV, fO_fmtV, bit_fmtV_6]
  try simp only [optO_0]
  try rfl

theorem Enc.vins (a b c : Fld) (f : BitVec 3) : Enc.Statement (.vins a b c f) := by
  apply Enc.of_raw
  show decodeRaw (fmtV 0x28 a b c 0 f 3) = _
  rw [op_28 (opc_fmtV ..)]
  unfold rawVPerm
  simp only [at_fmtV_0_3, at_fmtV_3_3, fA_fmtV, fB_fmtV, fC_fmtV, fO_fmtV, bit_fmtV_6]
  try simp only [fl4_0, fl4_1, fl4_2, fl4_3, fl3_0, optO_0, optO_1, optO_2, optO_3, cat0, cat1, shift_k, top4]
  try rfl

theorem Enc.vext (a b c : Fld) (f : BitVec 3) : Enc.Statement (.vext a b c f) := by
  apply Enc.of_raw
  show decodeRaw (fmtV 0x28 a b c 0 f 4) = _
  rw [op_28 (opc_fmtV ..)]
  unfold rawVPerm
  simp only [at_fmtV_0_3, at_fmtV_3_3, fA_fmtV, fB_fmtV, fC_fmtV, fO_fmtV, bit_fmtV_6]
  try simp only [fl4_0, fl4_1, fl4_2, fl4_3, fl3_0, optO_0, optO_1, optO_2, optO_3, cat0, cat1, shift_k, top4]
  try rfl

theorem Enc.vrsum (b : Fld) (m : Bool) (f : BitVec 3) : Enc.Statement (.vrsum b m f) := by
  apply Enc.of_raw
  show decodeRaw (fmtV 0x29 0 b 0 (optO false false false m) f 0) = _
  rw [op_29 (opc_fmtV ..)]
  unfold rawVRed
  simp only [at_fmtV_0_3, at_fmtV_3_3, at_fmtV_6_4, fA_fmtV, fB_fmtV, bit_fmtV_6]
  try simp only [optO_0]
  try rfl

theorem Enc.vrmax (b : Fld) (m : Bool) (f : BitVec 3) : Enc.Statement (.vrmax b m f) := by
  apply Enc.of_raw
  show decodeRaw (fmtV 0x29 0 b 0 (optO false false false m) f 1) = _
  rw [op_29 (opc_fmtV ..)]
  unfold rawVRed
  simp only [at_fmtV_0_3, at_fmtV_3_3, at_fmtV_6_4, fA_fmtV, fB_fmtV, bit_fmtV_6]
  try simp only [optO_0]
  try rfl

theorem Enc.vrmin (b : Fld) (m : Bool) (f : BitVec 3) : Enc.Statement (.vrmin b m f) := by
  apply Enc.of_raw
  show decodeRaw (fmtV 0x29 0 b 0 (optO false false false m) f 2) = _
  rw [op_29 (opc_fmtV ..)]
  unfold rawVRed
  simp only [at_fmtV_0_3, at_fmtV_3_3, at_fmtV_6_4, fA_fmtV, fB_fmtV, bit_fmtV_6]
  try simp only [optO_0]
  try rfl

theorem Enc.vramax (b : Fld) (m : Bool) (f : BitVec 3) : Enc.Statement (.vramax b m f) := by
  apply Enc.of_raw
  show decodeRaw (fmtV 0x29 0 b 0 (optO false false false m) f 3) = _
  rw [op_29 (opc_fmtV ..)]
  unfold rawVRed
  simp only [at_fmtV_0_3, at_fmtV_3_3, at_fmtV_6_4, fA_fmtV, fB_fmtV, bit_fmtV_6]
  try simp only [optO_0]
  try rfl

theorem Enc.xget (a : Fld) (n : BitVec 4) : Enc.Statement (.xget a n) := by
  apply Enc.of_raw
  show decodeRaw (fmtV 0x29 a 0 0 (0#1 ++ n : Fld) 0 4) = _
  rw [op_29 (opc_fmtV ..)]
  unfold rawVRed
  simp only [at_fmtV_0_3, at_fmtV_3_3, at_fmtV_6_4, fA_fmtV, fB_fmtV, bit_fmtV_6]
  try simp only [cat0]
  try rfl

theorem Enc.vtran (a b : Fld) (m : Bool) (g : BitVec 3) : Enc.Statement (.vtran a b m g) := by
  apply Enc.of_raw
  show decodeRaw (fmtV 0x2A a b 0 (optO false false false m) 0 g) = _
  rw [op_2A (opc_fmtV ..)]
  simp only [at_fmtV_0_3, fA_fmtV, fB_fmtV, bit_fmtV_6]
  try simp only [optO_0]
  try rfl

theorem Enc.mma (a b : Fld) (n : BitVec 6) (w : Bool) : Enc.Statement (.mma a b n w) := by
  apply Enc.of_raw
  show decodeRaw (fmtBar 0x2B a b n 0x0 (fl3 false false w)) = _
  unfold fmtBar
  rw [op_2B (opc_fmtX ..)]
  unfold rawMma
  simp only [at_fmtX_7_4, fA_fmtX, fB_fmtX, bit_fmtX_0, bar_fmtX]
  try simp only [fl3_0]
  try rfl

theorem Enc.mmas (a b : Fld) (n : BitVec 6) (w : Bool) : Enc.Statement (.mmas a b n w) := by
  apply Enc.of_raw
  show decodeRaw (fmtBar 0x2B a b n 0x1 (fl3 false false w)) = _
  unfold fmtBar
  rw [op_2B (opc_fmtX ..)]
  unfold rawMma
  simp only [at_fmtX_7_4, fA_fmtX, fB_fmtX, bit_fmtX_0, bar_fmtX]
  try simp only [fl3_0]
  try rfl

theorem Enc.mzero (a : Fld) : Enc.Statement (.mzero a) := by
  apply Enc.of_raw
  show decodeRaw (fmtX 0x2C a 0 0 0x0 0 0) = _
  rw [op_2C (opc_fmtX ..)]
  unfold rawMctl
  simp only [at_fmtX_7_4, fA_fmtX, fB_fmtX, bit_fmtX_0]
  try simp only [fl4_0, fl4_1, fl4_2, fl4_3, fl3_0, optO_0, optO_1, optO_2, optO_3, cat0, cat1, shift_k, top4]
  try rfl

theorem Enc.mlatch (b : Fld) (n : BitVec 6) (w : Bool) : Enc.Statement (.mlatch b n w) := by
  apply Enc.of_raw
  show decodeRaw (fmtBar 0x2C 0 b n 0x1 (fl3 false false w)) = _
  unfold fmtBar
  rw [op_2C (opc_fmtX ..)]
  unfold rawMctl
  simp only [at_fmtX_7_4, fA_fmtX, fB_fmtX, bit_fmtX_0, bar_fmtX]
  try simp only [fl3_0]
  try rfl

theorem Enc.mrot (n : BitVec 6) : Enc.Statement (.mrot n) := by
  apply Enc.of_raw
  show decodeRaw (fmtBar 0x2C 0 0 n 0x2 0) = _
  unfold fmtBar
  rw [op_2C (opc_fmtX ..)]
  unfold rawMctl
  simp only [at_fmtX_7_4, fA_fmtX, fB_fmtX, bit_fmtX_0, bar_fmtX]
  try simp only [fl4_0, fl4_1, fl4_2, fl4_3, fl3_0, optO_0, optO_1, optO_2, optO_3, cat0, cat1, shift_k, top4]
  try rfl

theorem Enc.mstat (a : Fld) : Enc.Statement (.mstat a) := by
  apply Enc.of_raw
  show decodeRaw (fmtX 0x2C a 0 0 0x3 0 0) = _
  rw [op_2C (opc_fmtX ..)]
  unfold rawMctl
  simp only [at_fmtX_7_4, fA_fmtX, fB_fmtX, bit_fmtX_0]
  try simp only [fl4_0, fl4_1, fl4_2, fl4_3, fl3_0, optO_0, optO_1, optO_2, optO_3, cat0, cat1, shift_k, top4]
  try rfl

theorem Enc.mdrain (a b c : Fld) (s : Bool) (f : BitVec 3) : Enc.Statement (.mdrain a b c s f) := by
  apply Enc.of_raw
  show decodeRaw (fmtX 0x2D a b c 0x0 0 (BitVec.ofBool s ++ f : BitVec 4)) = _
  rw [op_2D (opc_fmtX ..)]
  unfold rawMdrn
  simp only [at_fmtX_7_4, at_fmtX_0_3, fA_fmtX, fB_fmtX, fC_fmtX, bit_fmtX_3]
  try simp only [cat0, top4]
  try rfl

theorem Enc.fadd (a b c : Fld) (l k : Bool) : Enc.Statement (.fadd a b c l k) := by
  apply Enc.of_raw
  show decodeRaw (fmtX 0x2E a b c 0x0 0 (fl4 false false l k)) = _
  rw [op_2E (opc_fmtX ..)]
  unfold rawFalg
  simp only [at_fmtX_7_4, fA_fmtX, fB_fmtX, fC_fmtX, bit_fmtX_0, bit_fmtX_1]
  try simp only [fl4_0, fl4_1]
  try rfl

theorem Enc.fsub (a b c : Fld) (l k : Bool) : Enc.Statement (.fsub a b c l k) := by
  apply Enc.of_raw
  show decodeRaw (fmtX 0x2E a b c 0x1 0 (fl4 false false l k)) = _
  rw [op_2E (opc_fmtX ..)]
  unfold rawFalg
  simp only [at_fmtX_7_4, fA_fmtX, fB_fmtX, fC_fmtX, bit_fmtX_0, bit_fmtX_1]
  try simp only [fl4_0, fl4_1]
  try rfl

theorem Enc.fmul (a b c : Fld) (l k : Bool) : Enc.Statement (.fmul a b c l k) := by
  apply Enc.of_raw
  show decodeRaw (fmtX 0x2E a b c 0x2 0 (fl4 false false l k)) = _
  rw [op_2E (opc_fmtX ..)]
  unfold rawFalg
  simp only [at_fmtX_7_4, fA_fmtX, fB_fmtX, fC_fmtX, bit_fmtX_0, bit_fmtX_1]
  try simp only [fl4_0, fl4_1]
  try rfl

theorem Enc.fscal (a b c : Fld) (k : Bool) : Enc.Statement (.fscal a b c k) := by
  apply Enc.of_raw
  show decodeRaw (fmtX 0x2E a b c 0x3 0 (fl4 false false false k)) = _
  rw [op_2E (opc_fmtX ..)]
  unfold rawFalg
  simp only [at_fmtX_7_4, fA_fmtX, fB_fmtX, fC_fmtX, bit_fmtX_0, bit_fmtX_1]
  try simp only [fl4_0, fl4_1]
  try rfl

theorem Enc.fcomp (a b c : Fld) (l k : Bool) : Enc.Statement (.fcomp a b c l k) := by
  apply Enc.of_raw
  show decodeRaw (fmtX 0x2E a b c 0x4 0 (fl4 false false l k)) = _
  rw [op_2E (opc_fmtX ..)]
  unfold rawFalg
  simp only [at_fmtX_7_4, fA_fmtX, fB_fmtX, fC_fmtX, bit_fmtX_0, bit_fmtX_1]
  try simp only [fl4_0, fl4_1]
  try rfl

theorem Enc.fint (a b : Fld) (k : Bool) : Enc.Statement (.fint a b k) := by
  apply Enc.of_raw
  show decodeRaw (fmtX 0x2F a b 0 0x0 0 (fl4 false false false k)) = _
  rw [op_2F (opc_fmtX ..)]
  unfold rawFcalc
  simp only [at_fmtX_7_4, fA_fmtX, fB_fmtX, bit_fmtX_0]
  try simp only [fl4_0]
  try rfl

theorem Enc.fdiff (a b : Fld) (k : Bool) : Enc.Statement (.fdiff a b k) := by
  apply Enc.of_raw
  show decodeRaw (fmtX 0x2F a b 0 0x1 0 (fl4 false false false k)) = _
  rw [op_2F (opc_fmtX ..)]
  unfold rawFcalc
  simp only [at_fmtX_7_4, fA_fmtX, fB_fmtX, bit_fmtX_0]
  try simp only [fl4_0]
  try rfl

theorem Enc.froot (a b : Fld) (k : Bool) : Enc.Statement (.froot a b k) := by
  apply Enc.of_raw
  show decodeRaw (fmtX 0x2F a b 0 0x2 0 (fl4 false false false k)) = _
  rw [op_2F (opc_fmtX ..)]
  unfold rawFcalc
  simp only [at_fmtX_7_4, fA_fmtX, fB_fmtX, bit_fmtX_0]
  try simp only [fl4_0]
  try rfl

theorem Enc.fext (a b : Fld) (k : Bool) : Enc.Statement (.fext a b k) := by
  apply Enc.of_raw
  show decodeRaw (fmtX 0x2F a b 0 0x3 0 (fl4 false false false k)) = _
  rw [op_2F (opc_fmtX ..)]
  unfold rawFcalc
  simp only [at_fmtX_7_4, fA_fmtX, fB_fmtX, bit_fmtX_0]
  try simp only [fl4_0]
  try rfl

theorem Enc.ffit (a b c : Fld) : Enc.Statement (.ffit a b c) := by
  apply Enc.of_raw
  show decodeRaw (fmtX 0x30 a b c 0x0 0 0) = _
  rw [op_30 (opc_fmtX ..)]
  unfold rawFio
  simp only [at_fmtX_7_4, fA_fmtX, fB_fmtX, fC_fmtX, bit_fmtX_0, bit_fmtX_2]
  try simp only [fl4_0, fl4_1, fl4_2, fl4_3, fl3_0, optO_0, optO_1, optO_2, optO_3, cat0, cat1, shift_k, top4]
  try rfl

theorem Enc.feval (a b c : Fld) (m k : Bool) : Enc.Statement (.feval a b c m k) := by
  apply Enc.of_raw
  show decodeRaw (fmtX 0x30 a b c 0x1 0 (fl4 false m false k)) = _
  rw [op_30 (opc_fmtX ..)]
  unfold rawFio
  simp only [at_fmtX_7_4, fA_fmtX, fB_fmtX, fC_fmtX, bit_fmtX_0, bit_fmtX_2]
  try simp only [fl4_0, fl4_2]
  try rfl

theorem Enc.fldc (a b : Fld) : Enc.Statement (.fldc a b) := by
  apply Enc.of_raw
  show decodeRaw (fmtX 0x30 a b 0 0x2 0 0) = _
  rw [op_30 (opc_fmtX ..)]
  unfold rawFio
  simp only [at_fmtX_7_4, fA_fmtX, fB_fmtX, fC_fmtX, bit_fmtX_0, bit_fmtX_2]
  try simp only [fl4_0, fl4_1, fl4_2, fl4_3, fl3_0, optO_0, optO_1, optO_2, optO_3, cat0, cat1, shift_k, top4]
  try rfl

theorem Enc.fstc (b c : Fld) (k : Bool) : Enc.Statement (.fstc b c k) := by
  apply Enc.of_raw
  show decodeRaw (fmtX 0x30 0 b c 0x3 0 (fl4 false false false k)) = _
  rw [op_30 (opc_fmtX ..)]
  unfold rawFio
  simp only [at_fmtX_7_4, fA_fmtX, fB_fmtX, fC_fmtX, bit_fmtX_0, bit_fmtX_2]
  try simp only [fl4_0, fl4_2]
  try rfl

theorem Enc.fdom (a b c : Fld) : Enc.Statement (.fdom a b c) := by
  apply Enc.of_raw
  show decodeRaw (fmtX 0x30 a b c 0x4 0 0) = _
  rw [op_30 (opc_fmtX ..)]
  unfold rawFio
  simp only [at_fmtX_7_4, fA_fmtX, fB_fmtX, fC_fmtX, bit_fmtX_0, bit_fmtX_2]
  try simp only [fl4_0, fl4_1, fl4_2, fl4_3, fl3_0, optO_0, optO_1, optO_2, optO_3, cat0, cat1, shift_k, top4]
  try rfl

theorem Enc.ftrunc (a b c : Fld) (k : Bool) : Enc.Statement (.ftrunc a b c k) := by
  apply Enc.of_raw
  show decodeRaw (fmtX 0x30 a b c 0x5 0 (fl4 false false false k)) = _
  rw [op_30 (opc_fmtX ..)]
  unfold rawFio
  simp only [at_fmtX_7_4, fA_fmtX, fB_fmtX, fC_fmtX, bit_fmtX_0, bit_fmtX_2]
  try simp only [fl4_0, fl4_2]
  try rfl

theorem Enc.fmov (a b : Fld) (k : Bool) : Enc.Statement (.fmov a b k) := by
  apply Enc.of_raw
  show decodeRaw (fmtX 0x30 a b 0 0x6 0 (fl4 false false false k)) = _
  rw [op_30 (opc_fmtX ..)]
  unfold rawFio
  simp only [at_fmtX_7_4, fA_fmtX, fB_fmtX, fC_fmtX, bit_fmtX_0, bit_fmtX_2]
  try simp only [fl4_0, fl4_2]
  try rfl

theorem Enc.ffree (a : Fld) : Enc.Statement (.ffree a) := by
  apply Enc.of_raw
  show decodeRaw (fmtX 0x30 a 0 0 0x7 0 0) = _
  rw [op_30 (opc_fmtX ..)]
  unfold rawFio
  simp only [at_fmtX_7_4, fA_fmtX, fB_fmtX, fC_fmtX, bit_fmtX_0, bit_fmtX_2]
  try simp only [fl4_0, fl4_1, fl4_2, fl4_3, fl3_0, optO_0, optO_1, optO_2, optO_3, cat0, cat1, shift_k, top4]
  try rfl

theorem Enc.flen (a b : Fld) (k : Bool) : Enc.Statement (.flen a b k) := by
  apply Enc.of_raw
  show decodeRaw (fmtX 0x30 a b 0 0x8 0 (fl4 false false false k)) = _
  rw [op_30 (opc_fmtX ..)]
  unfold rawFio
  simp only [at_fmtX_7_4, fA_fmtX, fB_fmtX, fC_fmtX, bit_fmtX_0, bit_fmtX_2]
  try simp only [fl4_0, fl4_2]
  try rfl

theorem Enc.launchTake (q : BitVec 10) : Enc.Statement (.launchTake q) := fun h => Bool.noConfusion h

theorem Enc.messageArrival (m : Msg) : Enc.Statement (.messageArrival m) := fun h => Bool.noConfusion h

theorem Enc.doneReceive (child : Nat) (status : BitVec 32) : Enc.Statement (.doneReceive child status) := fun h => Bool.noConfusion h

theorem Enc.migrationArrival (m : MigTask) : Enc.Statement (.migrationArrival m) := fun h => Bool.noConfusion h

theorem Enc.twatchExpiry (frame : Nat) : Enc.Statement (.twatchExpiry frame) := fun h => Bool.noConfusion h

theorem Enc.waitTimeout (frame : Nat) : Enc.Statement (.waitTimeout frame) := fun h => Bool.noConfusion h

theorem Enc.granuleFill (frame : Nat) (g : Granule) : Enc.Statement (.granuleFill frame g) := fun h => Bool.noConfusion h

theorem Enc.vtranReply (frame : Nat) : Enc.Statement (.vtranReply frame) := fun h => Bool.noConfusion h

theorem Enc.xrWrite (frame : Nat) : Enc.Statement (.xrWrite frame) := fun h => Bool.noConfusion h

theorem Enc.accParityReplay (a : Bool) : Enc.Statement (.accParityReplay a) := fun h => Bool.noConfusion h

theorem Enc.segmentShip (seg : Nat) : Enc.Statement (.segmentShip seg) := fun h => Bool.noConfusion h

theorem Enc.partApply (p : PartSel) : Enc.Statement (.partApply p) := fun h => Bool.noConfusion h

theorem Enc.segmentAck (seg k : Nat) : Enc.Statement (.segmentAck seg k) := fun h => Bool.noConfusion h

theorem Enc.homeLoad (l : LoadSel) : Enc.Statement (.homeLoad l) := fun h => Bool.noConfusion h

theorem Enc.loadReply (frame k : Nat) : Enc.Statement (.loadReply frame k) := fun h => Bool.noConfusion h

theorem Enc.homeAmo (r : AmoSel) : Enc.Statement (.homeAmo r) := fun h => Bool.noConfusion h

theorem Enc.amoReturn (frame k : Nat) : Enc.Statement (.amoReturn frame k) := fun h => Bool.noConfusion h

theorem Enc.engineWrite (w : EngWrite) : Enc.Statement (.engineWrite w) := fun h => Bool.noConfusion h

theorem Enc.inPlaceDeviceWrite (pa : Nat) (data : List Byte) : Enc.Statement (.inPlaceDeviceWrite pa data) := fun h => Bool.noConfusion h

theorem Enc.commitHorizon (h : BitVec 48) : Enc.Statement (.commitHorizon h) := fun h => Bool.noConfusion h

theorem Enc.acqRequest (reader : BitVec 13) (scope : BitVec 3) : Enc.Statement (.acqRequest reader scope) := fun h => Bool.noConfusion h

theorem Enc.acqAnswer (frame : Nat) (core : BitVec 13) (lines : List Nat) : Enc.Statement (.acqAnswer frame core lines) := fun h => Bool.noConfusion h

theorem Enc.barrierArrival (n : BitVec 6) (a : Arrival) : Enc.Statement (.barrierArrival n a) := fun h => Bool.noConfusion h

theorem Enc.barrierWake (n : BitVec 6) : Enc.Statement (.barrierWake n) := fun h => Bool.noConfusion h

theorem Enc.streamFetch (frame : Nat) (k : BitVec 3) : Enc.Statement (.streamFetch frame k) := fun h => Bool.noConfusion h

theorem Enc.streamDrain (frame : Nat) (k : BitVec 3) : Enc.Statement (.streamDrain frame k) := fun h => Bool.noConfusion h

theorem Enc.engineOpStart (q : BitVec 4) : Enc.Statement (.engineOpStart q) := fun h => Bool.noConfusion h

theorem Enc.copyElement (q : BitVec 4) : Enc.Statement (.copyElement q) := fun h => Bool.noConfusion h

theorem Enc.chainElement (q : BitVec 4) : Enc.Statement (.chainElement q) := fun h => Bool.noConfusion h

theorem Enc.engineOpComplete (q : BitVec 4) : Enc.Statement (.engineOpComplete q) := fun h => Bool.noConfusion h

theorem Enc.nredArrival (c : Contribution) : Enc.Statement (.nredArrival c) := fun h => Bool.noConfusion h

theorem Enc.nredSlotTimeout (slot : Nat) : Enc.Statement (.nredSlotTimeout slot) := fun h => Bool.noConfusion h

theorem Enc.nredResult (r : NredRes) : Enc.Statement (.nredResult r) := fun h => Bool.noConfusion h

theorem Enc.pipSend (l : Nat) : Enc.Statement (.pipSend l) := fun h => Bool.noConfusion h

theorem Enc.pipArrival (l prom : Nat) (hd : PipHead) : Enc.Statement (.pipArrival l prom hd) := fun h => Bool.noConfusion h

theorem Enc.askSend (l : Nat) : Enc.Statement (.askSend l) := fun h => Bool.noConfusion h

theorem Enc.askArrival (l carried : Nat) : Enc.Statement (.askArrival l carried) := fun h => Bool.noConfusion h

theorem Enc.sweepStart (colour : Bool) : Enc.Statement (.sweepStart colour) := fun h => Bool.noConfusion h

theorem Enc.sweepReport (child : Nat) (f : SweepFig) : Enc.Statement (.sweepReport child f) := fun h => Bool.noConfusion h

theorem Enc.sweepEnd (h commit : BitVec 48) : Enc.Statement (.sweepEnd h commit) := fun h => Bool.noConfusion h

theorem Enc.depositArrival (d : Deposit) : Enc.Statement (.depositArrival d) := fun h => Bool.noConfusion h

theorem Enc.channelWordsArrival (ch : BitVec 3) (src : Sender) (words : List Word) : Enc.Statement (.channelWordsArrival ch src words) := fun h => Bool.noConfusion h

theorem Enc.creditReturn (q : BitVec 3) (n : Nat) : Enc.Statement (.creditReturn q n) := fun h => Bool.noConfusion h

theorem Enc.deadLinkReroute (dest : BitVec 10) (reduction lost : Bool) : Enc.Statement (.deadLinkReroute dest reduction lost) := fun h => Bool.noConfusion h

theorem Enc.pageWalk (who : WalkFor) : Enc.Statement (.pageWalk who) := fun h => Bool.noConfusion h

theorem Enc.faultMessage (f : FaultSel) : Enc.Statement (.faultMessage f) := fun h => Bool.noConfusion h

theorem Enc.faultReplyArrival (token : Word) (retry : Bool) : Enc.Statement (.faultReplyArrival token retry) := fun h => Bool.noConfusion h

theorem Enc.refreshEnergyCharge (measured pages : Nat) : Enc.Statement (.refreshEnergyCharge measured pages) := fun h => Bool.noConfusion h

theorem Enc.partitionReset (v : BitVec 6) : Enc.Statement (.partitionReset v) := fun h => Bool.noConfusion h

theorem Enc.clasgWrite (c : BitVec 6) (v : Word) : Enc.Statement (.clasgWrite c v) := fun h => Bool.noConfusion h

theorem Enc.wqcfgWrite (q : BitVec 10) (v : Word) : Enc.Statement (.wqcfgWrite q v) := fun h => Bool.noConfusion h

theorem Enc.equotaWrite (f : BitVec 6) (v : Word) : Enc.Statement (.equotaWrite f v) := fun h => Bool.noConfusion h

theorem Enc.estatResume (f : BitVec 6) : Enc.Statement (.estatResume f) := fun h => Bool.noConfusion h

theorem Enc.loadcmdWrite (f : BitVec 6) (v : Word) : Enc.Statement (.loadcmdWrite f v) := fun h => Bool.noConfusion h

theorem Enc.hostRegisterWrite (f : BitVec 6) (off : BitVec 16) (v : Word) : Enc.Statement (.hostRegisterWrite f off v) := fun h => Bool.noConfusion h

theorem Enc.parityReplay (frame : Nat) (x : RegRef) : Enc.Statement (.parityReplay frame x) := fun h => Bool.noConfusion h

theorem Enc.scrub (f : ScrubFind) : Enc.Statement (.scrub f) := fun h => Bool.noConfusion h

theorem Enc.flitCrcError (l : LinkSel) (within : Bool) : Enc.Statement (.flitCrcError l within) := fun h => Bool.noConfusion h

theorem Enc.pairHashCompare (h : BitVec 64) : Enc.Statement (.pairHashCompare h) := fun h => Bool.noConfusion h

theorem Enc.unassignedEncoding (w : IWord) : Enc.Statement (.unassignedEncoding w) := fun h => Bool.noConfusion h

theorem Enc.sendAccepted (a : SendAns) : Enc.Statement (.sendAccepted a) := fun h => Bool.noConfusion h

theorem Enc.primaryValueForward (r : BitVec 4) (v : Word) : Enc.Statement (.primaryValueForward r v) := fun h => Bool.noConfusion h

theorem Enc.cxlMemAccess (pa : Nat) (write : Option (List Byte)) : Enc.Statement (.cxlMemAccess pa write) := fun h => Bool.noConfusion h

theorem Enc.logdrop : Enc.Statement (.logdrop) := by
  apply Enc.of_raw
  show decodeRaw (fmtX 0x1B 0 0 0 0x5 0 0) = _
  rw [op_1B (opc_fmtX ..)]
  unfold rawOrd
  simp only [at_fmtX_7_4, at_fmtX_4_3, at_fmtX_0_2, fA_fmtX, fB_fmtX, fC_fmtX, bit_fmtX_0]
  try simp only [fl4_0, fl4_1, fl4_2, fl4_3, fl3_0, optO_0, optO_1, optO_2, optO_3, cat0, cat1, shift_k, top4]
  try rfl

theorem Enc.endTask : Enc.Statement (.endTask) := by
  apply Enc.of_raw
  show decodeRaw (fmtX 0x1D 0 0 0 0x1 0 0) = _
  rw [op_1D (opc_fmtX ..)]
  unfold rawTask
  simp only [at_fmtX_7_4, fA_fmtX, fB_fmtX, fC_fmtX, bit_fmtX_0, bit_fmtX_1]
  try simp only [fl4_0, fl4_1, fl4_2, fl4_3, fl3_0, optO_0, optO_1, optO_2, optO_3, cat0, cat1, shift_k, top4]
  try rfl

theorem Enc.yield : Enc.Statement (.yield) := by
  apply Enc.of_raw
  show decodeRaw (fmtX 0x1D 0 0 0 0x2 0 0) = _
  rw [op_1D (opc_fmtX ..)]
  unfold rawTask
  simp only [at_fmtX_7_4, fA_fmtX, fB_fmtX, fC_fmtX, bit_fmtX_0, bit_fmtX_1]
  try simp only [fl4_0, fl4_1, fl4_2, fl4_3, fl3_0, optO_0, optO_1, optO_2, optO_3, cat0, cat1, shift_k, top4]
  try rfl

theorem Enc.sweep : Enc.Statement (.sweep) := by
  apply Enc.of_raw
  show decodeRaw (fmtX 0x1D 0 0 0 0x6 0 0) = _
  rw [op_1D (opc_fmtX ..)]
  unfold rawTask
  simp only [at_fmtX_7_4, fA_fmtX, fB_fmtX, fC_fmtX, bit_fmtX_0, bit_fmtX_1]
  try simp only [fl4_0, fl4_1, fl4_2, fl4_3, fl3_0, optO_0, optO_1, optO_2, optO_3, cat0, cat1, shift_k, top4]
  try rfl

theorem Enc.uret : Enc.Statement (.uret) := by
  apply Enc.of_raw
  show decodeRaw (fmtX 0x20 0 0 0 0x4 0 0) = _
  rw [op_20 (opc_fmtX ..)]
  unfold rawXfer
  simp only [at_fmtX_7_4, fA_fmtX, fB_fmtX, bit_fmtX_0]
  try simp only [fl4_0, fl4_1, fl4_2, fl4_3, fl3_0, optO_0, optO_1, optO_2, optO_3, cat0, cat1, shift_k, top4]
  try rfl

theorem Enc.eret : Enc.Statement (.eret) := by
  apply Enc.of_raw
  show decodeRaw (fmtX 0x23 0 0 0 0x1 0 0) = _
  rw [op_23 (opc_fmtX ..)]
  unfold rawSys
  simp only [at_fmtX_7_4, at_fmtX_0_2, fA_fmtX, fB_fmtX, fC_fmtX, bit_fmtX_0]
  try simp only [fl4_0, fl4_1, fl4_2, fl4_3, fl3_0, optO_0, optO_1, optO_2, optO_3, cat0, cat1, shift_k, top4]
  try rfl

theorem Enc.tlbinvHarvest : Enc.Statement (.tlbinvHarvest) := by
  apply Enc.of_raw
  show decodeRaw (fmtX 0x23 0 0 0 0x5 0 3) = _
  rw [op_23 (opc_fmtX ..)]
  unfold rawSys
  simp only [at_fmtX_7_4, at_fmtX_0_2, fA_fmtX, fB_fmtX, fC_fmtX, bit_fmtX_0]
  try simp only [fl4_0, fl4_1, fl4_2, fl4_3, fl3_0, optO_0, optO_1, optO_2, optO_3, cat0, cat1, shift_k, top4]
  try rfl

theorem Enc.candidateRelease : Enc.Statement (.candidateRelease) := fun h => Bool.noConfusion h

theorem Enc.doneSend : Enc.Statement (.doneSend) := fun h => Bool.noConfusion h

theorem Enc.preemption : Enc.Statement (.preemption) := fun h => Bool.noConfusion h

theorem Enc.contextRestore : Enc.Statement (.contextRestore) := fun h => Bool.noConfusion h

theorem Enc.engineTrapDelivery : Enc.Statement (.engineTrapDelivery) := fun h => Bool.noConfusion h

theorem Enc.completionInterrupt : Enc.Statement (.completionInterrupt) := fun h => Bool.noConfusion h

theorem Enc.completionActivation : Enc.Statement (.completionActivation) := fun h => Bool.noConfusion h

theorem Enc.matrixCmdStart : Enc.Statement (.matrixCmdStart) := fun h => Bool.noConfusion h

theorem Enc.matrixCmdComplete : Enc.Statement (.matrixCmdComplete) := fun h => Bool.noConfusion h

theorem Enc.mrotRotate : Enc.Statement (.mrotRotate) := fun h => Bool.noConfusion h

theorem Enc.granuleRelease : Enc.Statement (.granuleRelease) := fun h => Bool.noConfusion h

theorem Enc.flagWrite : Enc.Statement (.flagWrite) := fun h => Bool.noConfusion h

theorem Enc.acqSweepRequest : Enc.Statement (.acqSweepRequest) := fun h => Bool.noConfusion h

theorem Enc.sweepwaitExpiry : Enc.Statement (.sweepwaitExpiry) := fun h => Bool.noConfusion h

theorem Enc.sweepRequest : Enc.Statement (.sweepRequest) := fun h => Bool.noConfusion h

theorem Enc.sweepRecount : Enc.Statement (.sweepRecount) := fun h => Bool.noConfusion h

theorem Enc.holdingQueueDrain : Enc.Statement (.holdingQueueDrain) := fun h => Bool.noConfusion h

theorem Enc.brambleCopy : Enc.Statement (.brambleCopy) := fun h => Bool.noConfusion h

theorem Enc.brambleReplay : Enc.Statement (.brambleReplay) := fun h => Bool.noConfusion h

theorem Enc.dirtyLogMerge : Enc.Statement (.dirtyLogMerge) := fun h => Bool.noConfusion h

theorem Enc.energyFold : Enc.Statement (.energyFold) := fun h => Bool.noConfusion h

theorem Enc.quantumExpiry : Enc.Statement (.quantumExpiry) := fun h => Bool.noConfusion h

theorem Enc.resetDrainComplete : Enc.Statement (.resetDrainComplete) := fun h => Bool.noConfusion h

theorem Enc.dbgHalt : Enc.Statement (.dbgHalt) := fun h => Bool.noConfusion h

theorem Enc.dbgResume : Enc.Statement (.dbgResume) := fun h => Bool.noConfusion h

theorem Enc.dbgStep : Enc.Statement (.dbgStep) := fun h => Bool.noConfusion h

theorem Enc.dbgSync : Enc.Statement (.dbgSync) := fun h => Bool.noConfusion h

theorem Enc.breakBitStop : Enc.Statement (.breakBitStop) := fun h => Bool.noConfusion h

theorem Enc.pcMatchHandler : Enc.Statement (.pcMatchHandler) := fun h => Bool.noConfusion h

theorem Enc.shadowTimeout : Enc.Statement (.shadowTimeout) := fun h => Bool.noConfusion h

theorem Enc.sampleRecord : Enc.Statement (.sampleRecord) := fun h => Bool.noConfusion h

theorem Enc.blockEntryStep : Enc.Statement (.blockEntryStep) := fun h => Bool.noConfusion h

theorem Enc.blkmoveTransferEnd : Enc.Statement (.blkmoveTransferEnd) := fun h => Bool.noConfusion h

theorem Enc.blkmoveTierCommit : Enc.Statement (.blkmoveTierCommit) := fun h => Bool.noConfusion h

theorem Enc.errorConsumed : Enc.Statement (.errorConsumed) := fun h => Bool.noConfusion h

theorem Enc.activationRedelivery : Enc.Statement (.activationRedelivery) := fun h => Bool.noConfusion h

theorem Enc.pairTimeout : Enc.Statement (.pairTimeout) := fun h => Bool.noConfusion h

theorem Enc.coreSpareSwap : Enc.Statement (.coreSpareSwap) := fun h => Bool.noConfusion h

theorem Enc.columnSpareSwap : Enc.Statement (.columnSpareSwap) := fun h => Bool.noConfusion h

theorem Enc.hbmLaneSpare : Enc.Statement (.hbmLaneSpare) := fun h => Bool.noConfusion h

theorem Enc.tileRetire : Enc.Statement (.tileRetire) := fun h => Bool.noConfusion h

theorem Enc.bringup : Enc.Statement (.bringup) := fun h => Bool.noConfusion h

theorem Enc.hbmRetrain : Enc.Statement (.hbmRetrain) := fun h => Bool.noConfusion h

theorem Enc.packetInjection : Enc.Statement .packetInjection := fun h => Bool.noConfusion h

theorem Enc.checkpointWriteback : Enc.Statement (.checkpointWriteback) := fun h => Bool.noConfusion h

end Sys2Proof.Laws
end

