-- ==== Sys2Proof/Laws/Turns.lean ====
section
/-! SUPPORT. The steps of other agents: candidates, frames, engine queues, the host (R27, R298, R363, R371, R376). -/

namespace Sys2Proof.Machine

theorem link_eq (src : Nat) (m : Msg) (z : State) (h : z.tile.pendPips = []) :
    (linkMessage src m z).tile.cands = z.tile.cands ∧
    (linkMessage src m z).tile.recv = tabSet z.tile.recv src (tabGet z.tile.recv 0 src + 1) ∧
    (linkMessage src m z).tile.inLinks = (z.tile.inLinks.map fun l =>
      if l.src = src ∧ l.cls = m.cls then { l with prom := Nat.max l.prom m.prom, asked := false } else l) ∧
    (linkMessage src m z).tile.recvCnt = (if m.col then (z.tile.recvCnt.1, z.tile.recvCnt.2 + 1) else (z.tile.recvCnt.1 + 1, z.tile.recvCnt.2)) ∧
    (linkMessage src m z).cur = z.cur ∧ (linkMessage src m z).rest = z.rest ∧ (linkMessage src m z).core = z.core := by
  unfold linkMessage applyPips
  dsimp only
  have e : (raiseProm src m.cls m.prom (z.onTile fun t => countReceived m.col { t with recv := tabSet t.recv src (tabGet t.recv 0 src + 1) })).tile.pendPips = [] := h
  rw [e]
  refine ⟨rfl, rfl, ?_, rfl, rfl, rfl, rfl⟩
  show z.tile.inLinks.map _ = _
  apply List.map_congr_left
  intro l _
  have : (l.src == src && l.cls == m.cls) = decide (l.src = src ∧ l.cls = m.cls) := by
    rw [Bool.eq_iff_iff]; simp
  rw [this]
  by_cases g : l.src = src ∧ l.cls = m.cls
  · rw [decide_eq_true g, if_pos rfl, if_pos g]
  · rw [decide_eq_false g, if_neg Bool.false_ne_true, if_neg g]

theorem leastOverflow_nil {s : State} (h : s.tile.overflow = []) : leastOverflow s = none := by unfold leastOverflow; rw [h]; rfl

theorem allCands_place {s : State} (h : s.tile.overflow = []) (hp : ∀ c ∈ s.tile.cands, c.place = .inbox) :
    heapUsed s = false ∧ holdingOf s = [] := by
  unfold heapUsed holdingOf allCands
  rw [h, List.append_nil]
  constructor
  · apply List.any_eq_false.mpr; intro c hc; unfold inPlace; rw [hp c hc]; decide
  · apply List.filter_eq_nil_iff.mpr; intro c hc; unfold inPlace; rw [hp c hc]; decide

theorem place_ok {s : State} {n : Nat} (hi : s.core.inbox = []) (hn : n ≤ s.launch.inbox - s.core.inboxTail) :
    inboxPlace s.core s.launch.inbox n = some (none, s.core.inboxTail) := by
  unfold inboxPlace; dsimp only; rw [hi]; dsimp only; rw [if_pos hn]

theorem addCand_ok {c : Cand} {s : State} (h1 : s.tile.cands.length < 256) (h2 : s.tile.overflow = []) (h3 : ∀ c ∈ s.tile.cands, c.place = .inbox)
    (h4 : c.core = s.core.id) (h5 : c.bytes ≠ 0) (h6 : s.core.inbox = []) (h7 : c.bytes ≤ s.launch.inbox - s.core.inboxTail) :
    addCand c s = some (brambleIdle ((inboxPut s.core.inboxTail none c.payload s).onTile fun t =>
      { t with cands := t.cands ++ [{ c with place := .inbox, off := s.core.inboxTail }] })) := by
  obtain ⟨p1, p2⟩ := allCands_place h2 h3
  unfold addCand
  have hf : decide (s.tile.cands.length ≥ 256) = false := by simpa using h1
  have hh : toHeap c s = false := by unfold toHeap; rw [h2, hf]; rfl
  rw [hh, hf]
  dsimp only
  simp only [Bool.false_eq_true, if_false]
  unfold placeCand enterInbox
  rw [h4, p1, p2, place_ok h6 h7]
  have e : (c.bytes = 0) = False := by simpa using h5
  simp only [bne_self_eq_false, Bool.false_eq_true, if_false, e, decide_false, Bool.or_self, List.isEmpty_nil, if_true]

theorem flat_words (ws : List Word) : ∀ k, k < 8 * ws.length → ((ws.map fun w => leBytes 8 w.toNat).flatten).getD k 0 =
    BitVec.ofNat 8 ((ws.getD (k / 8) 0).toNat / 256 ^ (k % 8)) := by
  induction ws with
  | nil => intro k h; simp at h
  | cons w ws ih =>
    intro k h
    rw [List.map_cons, List.flatten_cons]
    have hl : (leBytes 8 w.toNat).length = 8 := leBytes_length _ _
    generalize hB : leBytes 8 w.toNat = B at hl
    by_cases h8 : k < 8
    · have e1 : k / 8 = 0 := by omega
      have e2 : k % 8 = k := by omega
      rw [e1, e2, List.getD_cons_zero, List.getD_append _ _ _ _ (by omega), ← hB, leBytes_getD _ _ _ h8]
    · rw [List.getD_append_right _ _ _ _ (by omega), hl]
      have e1 : k / 8 = (k - 8) / 8 + 1 := by omega
      have e2 : k % 8 = (k - 8) % 8 := by omega
      rw [e1, e2, List.getD_cons_succ]
      exact ih _ (by simp at h; omega)

theorem flat_length (ws : List Word) : ((ws.map fun w => leBytes 8 w.toNat).flatten).length = 8 * ws.length := by
  induction ws with
  | nil => rfl
  | cons w ws ih => rw [List.map_cons, List.flatten_cons, List.length_append, ih, leBytes_length]; simp; omega

theorem inboxPut_facts (off : Nat) (payload : List Word) (s : State) (hm : Memory.wf s.core.tcm = true) :
    (inboxPut off none payload s).tile = s.tile ∧ (inboxPut off none payload s).launch = s.launch ∧
    (inboxPut off none payload s).core.inbox = s.core.inbox ++ [{ off := off, len := msgBytes (8 * payload.length), live := true }] ∧
    ∀ k, k < 8 * payload.length → ¬ s.wordZero (s.inboxBase + off + (16 + k)) →
      tcmByte (inboxPut off none payload s) (s.inboxBase + off + (16 + k)) = BitVec.ofNat 8 ((payload.getD (k / 8) 0).toNat / 256 ^ (k % 8)) := by
  unfold inboxPut
  dsimp only
  generalize hB : leBytes 16 _ = hdr
  have hl : hdr.length = 16 := by rw [← hB]; exact leBytes_length _ _
  have hf := flat_length payload
  have hg := flat_words payload
  generalize (payload.map fun w => leBytes 8 w.toNat).flatten = body at hf hg
  generalize hz : ({ s with fresh := s.fresh + 2 } : State) = z
  have hzw : ∀ x, ¬ s.wordZero x → ¬ z.wordZero x := by intro x h; rw [← hz]; exact h
  have hzm : Memory.wf z.core.tcm = true := by rw [← hz]; exact hm
  have P := puts_all [(s.inboxBase + off, hdr ++ body)] z hzm
  obtain ⟨b1, _, b3, _⟩ := P.rest
  have hcore := P.core
  have hin : (putAll [(s.inboxBase + off, hdr ++ body)] z).core.inbox = z.core.inbox := by
    have := congrArg CoreSt.inbox hcore; exact this
  have hzt : z.tile = s.tile ∧ z.launch = s.launch ∧ z.core.inbox = s.core.inbox := by rw [← hz]; exact ⟨rfl, rfl, rfl⟩
  have e : tcmPut z (s.inboxBase + off) (hdr ++ body) = putAll [(s.inboxBase + off, hdr ++ body)] z := rfl
  rw [e]
  have hbytes := P.bytes
  generalize putAll [(s.inboxBase + off, hdr ++ body)] z = v at b1 b3 hin hbytes
  refine ⟨b1.trans hzt.1, b3.trans hzt.2.1, ?_, ?_⟩
  · show v.core.inbox ++ [] ++ _ = _
    rw [hin, hzt.2.2, List.append_nil]
  · intro k hk hx
    have h1 := hbytes none (s.inboxBase + off + (16 + k)) (tcmByte z (s.inboxBase + off + (16 + k))) (hzw _ hx) rfl
    refine Eq.trans (b := tcmByte v (s.inboxBase + off + (16 + k))) rfl (h1.trans ?_)
    rw [List.foldl_cons, List.foldl_nil]
    dsimp only
    rw [if_pos (by rw [List.length_append, hl, hf]; omega)]
    have e2 : s.inboxBase + off + (16 + k) - (s.inboxBase + off) = 16 + k := by omega
    rw [e2, List.getElem?_append_right (by omega), hl]
    have e3 : 16 + k - 16 = k := by omega
    rw [e3]
    have := hg k hk
    rw [List.getD_eq_getElem?_getD] at this
    have hlt : k < body.length := by omega
    rw [List.getElem?_eq_getElem hlt] at this ⊢
    exact this

theorem nextSeg_ok {s : State} (h : s.core.segCtr < 2 ^ 40) : nextSeg s = (s.core.segCtr, s.onCore fun c => { c with segCtr := c.segCtr + 1 }) := by
  unfold nextSeg; rw [if_neg (by omega)]

theorem leastBy_none {α : Type} (lt : α → α → Bool) : ∀ l : List α, leastBy lt l = none → l = [] := by
  intro l
  cases l with
  | nil => intro _; rfl
  | cons x r =>
    intro h; unfold leastBy at h
    split at h
    · cases h
    · split at h <;> cases h

theorem leastBy_mem {α : Type} (lt : α → α → Bool) : ∀ (l : List α) (x : α), leastBy lt l = some x → x ∈ l := by
  intro l
  induction l with
  | nil => intro x h; cases h
  | cons y r ih =>
    intro x h; unfold leastBy at h
    split at h
    · injection h with h; subst h; exact List.mem_cons_self
    · rename_i z hz
      split at h
      · injection h with h; subst h; exact List.mem_cons_of_mem _ (ih _ hz)
      · injection h with h; subst h; exact List.mem_cons_self

theorem grant_none {s : State} (h : ∀ m ∈ s.tile.migBuf, m.dest ≠ pairCore s) : grantFrame s = none := by
  unfold grantFrame
  have : (s.tile.migBuf.filter fun m => m.dest == pairCore s) = [] := by
    apply List.filter_eq_nil_iff.mpr; intro m hm; simpa using h m hm
  rw [this]
  rfl

theorem copy_fold (o : List Cand) : ∀ (hs : List Cand) (z : State), (∀ c ∈ hs, c.place = .holding) →
    List.Forall₂ (fun c d : Cand => d = c ∨ (c.place = .holding ∧ d = { c with place := .heap })) o z.tile.cands →
    let t := hs.foldl (fun s c => if heapBytes s + c.bytes ≤ 2 ^ 20 then replaceCand c { c with place := .heap } s else s) z
    List.Forall₂ (fun c d : Cand => d = c ∨ (c.place = .holding ∧ d = { c with place := .heap })) o t.tile.cands ∧
      t.cur = z.cur ∧ t.rest = z.rest ∧ t.core = z.core := by
  intro hs
  induction hs with
  | nil => intro z _ h; exact ⟨h, rfl, rfl, rfl⟩
  | cons c hs ih =>
    intro z hp h
    rw [List.foldl_cons]
    by_cases g : heapBytes z + c.bytes ≤ 2 ^ 20
    · rw [if_pos g]
      have hc := hp c List.mem_cons_self
      exact ih _ (fun x hx => hp x (List.mem_cons_of_mem _ hx)) (by
        show List.Forall₂ _ o (z.tile.cands.map _)
        rw [List.forall₂_map_right_iff]
        refine List.Forall₂.imp ?_ h
        intro a b hab
        by_cases e : b = c
        · rw [if_pos (by simpa using e)]
          subst e
          rcases hab with rfl | ⟨h1, rfl⟩
          · exact .inr ⟨hc, rfl⟩
          · cases hc
        · rw [if_neg (by simpa using e)]
          exact hab)
    · rw [if_neg g]
      exact ih _ (fun x hx => hp x (List.mem_cons_of_mem _ hx)) h

def Kept (P : Cand → Prop) (z t : State) : Prop :=
  t.launch = z.launch ∧ t.host = z.host ∧ t.rest = z.rest ∧ t.core.vf = z.core.vf ∧ t.core.segCtr = z.core.segCtr ∧ t.core.sealed = z.core.sealed ∧
  ∀ c ∈ t.tile.cands ++ t.tile.overflow, P c

theorem addCand_kept {P : Cand → Prop} (hP : ∀ c p o, P c → P { c with place := p, off := o }) {c : Cand} (hc : P c) (h0 : c.bytes = 0)
    {z : State} (hz : ∀ c ∈ z.tile.cands ++ z.tile.overflow, P c) : Kept P z ((addCand c z).getD z) := by
  have hen : ∀ u : State, enterInbox c u = some ({ c with place := .inbox }, u) := by
    intro u; unfold enterInbox; rw [h0]; simp
  have hpl : ∀ u : State, ∀ d v, placeCand c u = some (d, v) → v = u ∧ P d := by
    intro u d v h
    unfold placeCand at h
    split at h
    · injection h with h; injection h with h1 h2; exact ⟨h2.symm, h1 ▸ hP _ _ c.off hc⟩
    · split at h
      · split at h
        · injection h with h; injection h with h1 h2; exact ⟨h2.symm, h1 ▸ hP _ _ c.off hc⟩
        · cases h
      · rw [hen] at h
        dsimp only at h
        split at h
        · injection h with h; injection h with h1 h2; exact ⟨h2.symm, h1 ▸ hP _ _ c.off hc⟩
        · split at h
          · cases h
          · injection h with h; injection h with h1 h2; exact ⟨h2.symm, h1 ▸ hP _ _ c.off hc⟩
  have base : Kept P z z := ⟨rfl, rfl, rfl, rfl, rfl, rfl, hz⟩
  unfold addCand
  dsimp only
  split
  · split
    · refine ⟨rfl, rfl, rfl, rfl, rfl, rfl, ?_⟩
      intro x hx
      rw [List.mem_append] at hx
      rcases hx with hx | hx
      · exact hz x (List.mem_append_left _ hx)
      · rcases List.mem_append.mp hx with hx | hx
        · exact hz x (List.mem_append_right _ hx)
        · rw [List.mem_singleton] at hx; subst hx; exact hP _ _ c.off hc
    · exact base
  · have hev : ∀ h, highestCand z = some h → Kept P z (evict h z) := by
      intro h hh
      have hm : P h := hz h (List.mem_append_left _ (leastBy_mem _ _ _ hh))
      have hk2 : ∀ v : State, (v.tile = z.tile ∧ v.launch = z.launch ∧ v.host = z.host ∧ v.rest = z.rest ∧ v.core.vf = z.core.vf ∧
          v.core.segCtr = z.core.segCtr ∧ v.core.sealed = z.core.sealed) →
          Kept P z (v.onTile fun t => { t with cands := t.cands.erase h, overflow := t.overflow ++ [{ h with place := .heap }] }) := by
        intro v ⟨a1, a2, a3, a4, a5, a6, a7⟩
        refine ⟨a2, a3, a4, a5, a6, a7, ?_⟩
        intro x hx
        have hx : x ∈ v.tile.cands.erase h ++ (v.tile.overflow ++ [{ h with place := .heap }]) := hx
        rw [a1] at hx
        rcases List.mem_append.mp hx with hx | hx
        · exact hz x (List.mem_append_left _ (List.mem_of_mem_erase hx))
        · rcases List.mem_append.mp hx with hx | hx
          · exact hz x (List.mem_append_right _ hx)
          · rw [List.mem_singleton] at hx; subst hx; exact hP _ _ h.off hm
      unfold evict
      dsimp only
      apply hk2
      split
      · unfold freeChunk; exact ⟨rfl, rfl, rfl, rfl, rfl, rfl, rfl⟩
      · exact ⟨rfl, rfl, rfl, rfl, rfl, rfl, rfl⟩
    have fin : ∀ u, Kept P z u → ∀ d, P d → Kept P z (brambleIdle (u.onTile fun t => { t with cands := t.cands ++ [d] })) := by
      intro u ⟨b1, b2, b3, b4, b5, b6, b7⟩ d hd
      refine ⟨b1, b2, b3, b4, b5, b6, ?_⟩
      intro x hx
      have hx : x ∈ (u.tile.cands ++ [d]) ++ u.tile.overflow := hx
      rcases List.mem_append.mp hx with hx | hx
      · rcases List.mem_append.mp hx with hx | hx
        · exact b7 x (List.mem_append_left _ hx)
        · rw [List.mem_singleton] at hx; subst hx; exact hd
      · exact b7 x (List.mem_append_right _ hx)
    have two : ∀ u, placeCand c u = none ∨ ∃ d, placeCand c u = some (d, u) ∧ P d := by
      intro u
      cases h : placeCand c u with
      | none => exact .inl rfl
      | some dv => obtain ⟨d, v⟩ := dv; obtain ⟨rfl, hd⟩ := hpl _ _ _ h; exact .inr ⟨d, rfl, hd⟩
    cases decide (z.tile.cands.length ≥ 256) with
    | false => rcases two z with h | ⟨d, h, hd⟩ <;> dsimp only <;> rw [h]; exact base; exact fin z base d hd
    | true =>
      cases hh : highestCand z with
      | none => rcases two z with h | ⟨d, h, hd⟩ <;> dsimp only <;> rw [h]; exact base; exact fin z base d hd
      | some x => rcases two (evict x z) with h | ⟨d, h, hd⟩ <;> dsimp only <;> rw [h]; exact base; exact fin _ (hev x hh) d hd

theorem kept_trans {P : Cand → Prop} {a b c : State} (h1 : Kept P a b) (h2 : Kept P b c) : Kept P a c :=
  ⟨h2.1.trans h1.1, h2.2.1.trans h1.2.1, h2.2.2.1.trans h1.2.2.1, h2.2.2.2.1.trans h1.2.2.2.1, h2.2.2.2.2.1.trans h1.2.2.2.2.1,
   h2.2.2.2.2.2.1.trans h1.2.2.2.2.2.1, h2.2.2.2.2.2.2⟩

theorem initial_kept (l : Launch) (z : State) (hz : z.tile.cands = [] ∧ z.tile.overflow = []) :
    Kept (fun c => c.key.stamp = l.stamp.toNat ∧ c.key.src = 0 ∧ c.pc = l.entry ∧ c.tag = l.tag) z (addInitial l z) := by
  unfold addInitial
  dsimp only
  generalize (List.filter _ _) = ls
  have : ∀ (ls : List Nat) (z : State), (∀ c ∈ z.tile.cands ++ z.tile.overflow, c.key.stamp = l.stamp.toNat ∧ c.key.src = 0 ∧ c.pc = l.entry ∧ c.tag = l.tag) →
      Kept (fun c => c.key.stamp = l.stamp.toNat ∧ c.key.src = 0 ∧ c.pc = l.entry ∧ c.tag = l.tag) z (ls.foldl (fun s i =>
      match coreOfLeaf l.leaves i with
      | none => s
      | some c => (addCand (initialCand l i (hereCore s (BitVec.ofNat 13 c)).toNat) s).getD s) z) := by
    intro ls
    induction ls with
    | nil => intro z hz; exact ⟨rfl, rfl, rfl, rfl, rfl, rfl, hz⟩
    | cons i ls ih =>
      intro z hz
      rw [List.foldl_cons]
      cases coreOfLeaf l.leaves i with
      | none => exact ih z hz
      | some c =>
        dsimp only
        have h := addCand_kept (P := fun c => c.key.stamp = l.stamp.toNat ∧ c.key.src = 0 ∧ c.pc = l.entry ∧ c.tag = l.tag)
          (fun c p o h => h) (c := initialCand l i (hereCore z (BitVec.ofNat 13 c)).toNat) ⟨rfl, rfl, rfl, rfl⟩ rfl hz
        exact kept_trans h (ih _ h.2.2.2.2.2.2)
  apply this
  rw [hz.1, hz.2]; intro c hc; cases hc

/-- R352: binding a launch's cores touches the counts and the table of bindings alone. -/
structure Bound (s u : State) : Prop where
  cur : u.cur = s.cur
  rest : u.rest = s.rest
  core : u.core = s.core
  tile : u.tile = s.tile
  launch : u.launch = s.launch
  wqs : u.host.wqs = s.host.wqs
  running : u.host.running = s.host.running

theorem bindCores_bound (vf : BitVec 6) (asid : BitVec 16) (ts : List Nat) (s : State) : Bound s (bindCores vf asid ts s) := by
  unfold bindCores
  generalize (List.map _ ts).flatten = cs
  induction cs generalizing s with
  | nil => exact ⟨rfl, rfl, rfl, rfl, rfl, rfl, rfl⟩
  | cons c cs ih =>
    rw [List.foldl_cons]
    have h1 : Bound s (leaveOld c s) := by
      unfold leaveOld
      split
      · exact ⟨rfl, rfl, rfl, rfl, rfl, rfl, rfl⟩
      · split <;> exact ⟨rfl, rfl, rfl, rfl, rfl, rfl, rfl⟩
    obtain ⟨a1, a2, a3, a4, a5, a6, a7⟩ := h1
    dsimp only
    have h2 : ∀ v : State, Bound s v → Bound s ((if c = (leaveOld c s).core.id.toNat then leaveOld c s else joinAsid vf asid (leaveOld c s)).onHost
        fun h => { h with bound := tabSet h.bound c (vf, asid) }) := by
      intro v _
      split
      · exact ⟨a1, a2, a3, a4, a5, a6, a7⟩
      · exact ⟨a1, a2, a3, a4, a5, a6, a7⟩
    obtain ⟨b1, b2, b3, b4, b5, b6, b7⟩ := h2 _ ⟨a1, a2, a3, a4, a5, a6, a7⟩
    obtain ⟨c1, c2, c3, c4, c5, c6, c7⟩ := ih ((if c = (leaveOld c s).core.id.toNat then leaveOld c s else joinAsid vf asid (leaveOld c s)).onHost
        fun h => { h with bound := tabSet h.bound c (vf, asid) })
    exact ⟨c1.trans b1, c2.trans b2, c3.trans b3, c4.trans b4, c5.trans b5, c6.trans b6, c7.trans b7⟩

theorem updCtx_cur' {s : State} {p : Task → Bool} {f : Task → Task} (h : p s.cur = true) : s.updCtx p f = { s with cur := f s.cur } := by
  unfold State.updCtx; rw [if_pos h]

theorem findCtx_cur' {s : State} {p : Task → Bool} (h : p s.cur = true) : s.findCtx p = some s.cur := by
  unfold State.findCtx; rw [List.find?_cons, h]

theorem findCtx_none {s : State} {p : Task → Bool} (h : ∀ t ∈ s.cur :: s.rest, p t = false) : s.findCtx p = none := by
  unfold State.findCtx; exact List.find?_eq_none.mpr fun t ht => by simp [h t ht]

theorem chargeNet_frame (c n : Nat) (s : State) : (chargeNet c n s).cur = s.cur ∧ (chargeNet c n s).rest = s.rest ∧ (chargeNet c n s).home = s.home ∧
    (chargeNet c n s).core = s.core ∧ (chargeNet c n s).host = s.host ∧ (chargeNet c n s).launch = s.launch ∧
    ∃ m, (chargeNet c n s).tile = { s.tile with meter := m } := by
  unfold chargeNet chargeMany
  exact ⟨rfl, rfl, rfl, rfl, rfl, rfl, _, rfl⟩

theorem control_ok {p : Packet} {k : Nat} {s : State} (h : bothDead s k = false) : control k p s = emit p (chargeNet (clusterOf k) 1 s) := by
  unfold control controlTo; rw [h]; rfl

theorem control_lost {p : Packet} {k : Nat} {s : State} (h : bothDead s k = true) :
    control k p s = errEntry (errEntryBytes 6 0 0 1 s.core.id 0 (BitVec.ofNat 64 k) 1) s := by
  unfold control controlTo controlLost; rw [h]; rfl

/-- What packets of one flit that are all sent leave as it was. -/
theorem forward_ok (p : Packet) : ∀ (ks : List Nat) (s : State), (∀ k ∈ ks, bothDead s k = false) →
    let t := ks.foldl (fun s k => control k p s) s
    t.cur = s.cur ∧ t.rest = s.rest ∧ t.core = s.core ∧ t.launch = s.launch ∧ (∃ m, t.tile = { s.tile with meter := m }) ∧
      t.home = { s.home with out := s.home.out ++ ks.map fun _ => p } := by
  intro ks
  induction ks with
  | nil => intro s _; exact ⟨rfl, rfl, rfl, rfl, ⟨_, rfl⟩, by rw [List.map_nil, List.append_nil]; rfl⟩
  | cons k ks ih =>
    intro s h
    rw [List.foldl_cons, control_ok (h k List.mem_cons_self)]
    obtain ⟨c1, c2, c3, c4, c5, c6, m, c7⟩ := chargeNet_frame (clusterOf k) 1 s
    have hb : ∀ x, bothDead (emit p (chargeNet (clusterOf k) 1 s)) x = bothDead s x := by
      intro x; unfold bothDead State.clusterId State.tileId
      show (crossesDead (chargeNet (clusterOf k) 1 s).home.deadLinks _ && _) = _
      rw [c3]; show (crossesDead _ (path (clusterOf (tileOf (chargeNet (clusterOf k) 1 s).core.id)) _ _) && _) = _
      rw [c4]
      show (_ && crossesDead (chargeNet (clusterOf k) 1 s).home.deadLinks (path (clusterOf (tileOf (chargeNet (clusterOf k) 1 s).core.id)) _ _)) = _
      rw [c3, c4]
    obtain ⟨a1, a2, a3, a4, ⟨m2, a5⟩, a6⟩ := ih (emit p (chargeNet (clusterOf k) 1 s)) (fun x hx => by rw [hb]; exact h x (List.mem_cons_of_mem _ hx))
    refine ⟨a1.trans c1, a2.trans c2, a3.trans c4, a4.trans c6, ⟨m2, ?_⟩, ?_⟩
    · rw [a5]; show ({ (chargeNet (clusterOf k) 1 s).tile with meter := m2 } : TileSt) = _; rw [c7]
    · rw [a6]
      show ({ (chargeNet (clusterOf k) 1 s).home with out := ((chargeNet (clusterOf k) 1 s).home.out ++ [p]) ++ _ } : HomeSt) = _
      rw [c3, List.append_assoc]; rfl

theorem sendPip_tile (b : Bool) (p : Nat) (l : OutLink) (s : State) : (sendPip b p l s).tile.horizon = s.tile.horizon ∧ (sendPip b p l s).tile.commit = s.tile.commit ∧
    (sendPip b p l s).tile.sweeping = s.tile.sweeping ∧ (sendPip b p l s).tile.reports = s.tile.reports ∧ (sendPip b p l s).tile.sweepsEnded = s.tile.sweepsEnded ∧
    (sendPip b p l s).tile.outLinks.length = s.tile.outLinks.length := by
  unfold sendPip
  split
  · exact ⟨rfl, rfl, rfl, rfl, rfl, rfl⟩
  · obtain ⟨-, -, -, -, -, -, m, h⟩ := chargeNet_frame (clusterOf l.dst) 1
      (s.onHome fun x => { x with out := x.out ++ [.pip l.dst l.cls p (tabGet s.tile.pairSeq 0 l.dst) b] })
    simp only [State.onTile, h, List.length_map]
    exact ⟨rfl, rfl, rfl, rfl, rfl, rfl⟩

theorem updFirst_none {p : Task → Bool} {f : Task → Task} : ∀ {l : List Task}, (∀ t ∈ l, p t = false) → updFirst p f l = l := by
  intro l
  induction l with
  | nil => intro _; rfl
  | cons t l ih =>
    intro h
    unfold updFirst
    rw [if_neg (by rw [h t List.mem_cons_self]; simp), ih fun x hx => h x (List.mem_cons_of_mem _ hx)]

theorem depositNow_cur {d : Deposit} {s : State} (h : depositTo d s.cur = true) :
    (depositNow d s).1 = { s with cur := takeDeposit (d.word, d.val) s.cur } := by
  unfold depositNow; exact updCtx_cur' h

theorem depositArrival_on {d : Deposit} {s : State} (h1 : d.core = pairCore s) (h2 : foreignPart s d.part = false) :
    exec (.depositArrival d) s = .next (depositNow d s).1 := by
  show Host.Outcome.next _ = _
  rw [if_neg (by rw [h1, h2]; simp)]

theorem sendNote_cur {s : State} {tid : Word} {origin : BitVec 13} (e : SendEnd) (f : Task → Task) (h2 : s.cur.st ≠ .ended) (h3 : s.cur.shadow = false)
    (h4 : sameTask s.cur tid origin = true) : sendNote tid origin e f s = { s with cur := f (sendFail e s.cur) } := by
  have hl : (s.cur.st != .ended && !s.cur.shadow && sameTask s.cur tid origin) = true := by rw [h3, h4]; simpa using h2
  unfold sendNote
  dsimp only
  rw [findCtx_cur' (p := fun t => t.st != .ended && !t.shadow && sameTask t tid origin) hl, if_pos (show (some s.cur).isSome = true from rfl),
    updCtx_cur' (p := fun t => t.st != .ended && !t.shadow && sameTask t tid origin) hl]

theorem errEntry_frame (bs : List Byte) (s : State) : (errEntry bs s).cur = s.cur ∧ (errEntry bs s).rest = s.rest := by
  refine ⟨errEntry_cur bs s, ?_⟩
  have hw : ∀ z v : State, errWrite bs z = some v → v.rest = z.rest := by
    intro z v h; unfold errWrite at h; dsimp only at h
    repeat' split at h
    all_goals first | (injection h with h; subst h; rfl) | cases h
  unfold errEntry
  dsimp only
  split
  · rfl
  · split
    · cases h : errWrite bs (errCount 1 s) with
      | none => rfl
      | some v => exact hw (errCount 1 s) v h
    · rfl

theorem done_next {s t : State} (h : s = t) : (Host.Outcome.next s : Host.Outcome State Fault Refusal) = .next t := by rw [h]

theorem live_cur {s : State} (h1 : s.cur.st ≠ .ended) (h2 : s.cur.shadow = false) : liveAt s.cur.frame s.cur = true := by
  unfold liveAt; rw [h2]; simpa using h1

theorem strm_set {t : Task} {f : Fld} {st : Stream} (x : Option Stream) (h : strmOf t f = some st) : strmOf (setStrm f x t) f = x := by
  unfold strmOf at h ⊢
  unfold setStrm
  dsimp only
  have hlt : f.toNat - 16 < 8 := by
    by_contra g
    rw [Vector.getElem?_eq_none (by omega)] at h; cases h
  rw [Vector.getElem?_setIfInBounds_self_of_lt hlt]
  rfl

theorem fetch_key {s : State} {k : BitVec 3} {st : Stream} (h1 : s.cur.st ≠ .ended) (h2 : s.cur.st ≠ .preempted) (h3 : s.cur.shadow = false)
    (h4 : strmOf s.cur (strmFld k) = some st) (h5 : st.pat.out = false) (h6 : st.fetched.length < strmCap st)
    (h7 : st.pos + st.fetched.length < st.pat.len) (h8 : lastBad st.fetched = false) {e : Elem}
    (he : fetchElem s s.cur st (st.pos + st.fetched.length) = .ok (e, s)) :
    exec (.streamFetch s.cur.frame k) s = .next { s with cur := setStrm (strmFld k) (some { st with fetched := st.fetched ++ [e] }) s.cur } := by
  show Host.Outcome.next (asFrame s.cur.frame _ s) = _
  apply done_next
  unfold asFrame
  rw [live_cur h1 h3, if_pos rfl]
  unfold fetchCur
  dsimp only
  rw [h4]
  dsimp only
  rw [if_neg, he]; rfl
  have hp : (s.cur.st == .preempted) = false := by simpa using h2
  rw [h5, h8, hp]
  simp; omega

/-- A miss that is over leaves the task as it was but for its state. -/
theorem missOver_facts (t : Task) : (missOver t).streams = t.streams ∧ Task.sameWs t (missOver t) ∧ ((missOver t).st = .ended ↔ t.st = .ended) ∧
    (missOver t).shadow = t.shadow := by
  have key : missOver t = t ∨ (t.st = .faulted ∧ missOver t = wake t) := by
    cases h : t.st == TaskSt.faulted
    · left; unfold missOver; rw [h]; rfl
    · have hf : t.st = .faulted := by simpa using h
      unfold missOver
      exact (ite_eq_or_eq _ _ _).elim (fun e => .inr ⟨hf, e⟩) .inl
  rcases key with h | ⟨hf, h⟩
  · rw [h]; exact ⟨rfl, ⟨rfl, rfl⟩, Iff.rfl, rfl⟩
  · rw [h]
    refine ⟨rfl, ⟨rfl, rfl⟩, ?_, rfl⟩
    unfold wake
    rw [hf]
    dsimp only
    split <;> simp

theorem setHead_eq {s : State} {q : Nat} {o : EngOp} {l : List EngOp} (h : s.queue q = o :: l) (f : EngOp → EngOp) :
    setHead q f s = setQueueOps q (f o :: l) s := by unfold setHead; rw [h]

theorem queue_mem {s : State} {q : Nat} {o : EngOp} {l : List EngOp} (h : s.queue q = o :: l) : q < 16 := by
  by_contra g
  unfold State.queue at h
  rw [Vector.getElem?_eq_none (by omega)] at h; cases h

theorem queue_set {s : State} {q : Nat} (h : q < 16) (l : List EngOp) : (setQueueOps q l s).queue q = l := by
  unfold setQueueOps State.queue
  show ((s.core.eng.setIfInBounds q l)[q]?).getD [] = l
  rw [Vector.getElem?_setIfInBounds_self_of_lt h]; rfl

theorem xfer_key {s : State} {q : Nat} {o : EngOp} {l : List EngOp} (hq : s.queue q = o :: l) (h1 : o.started = true) (h2 : o.finished = false)
    (h3 : engHeld s = false) : xferStep q s = match o.kind with
      | .copy src dst st dt scl sr dr => copyStep q o src dst st dt scl sr dr s
      | .chain _ => chainStep q o s
      | _ => (s, none) := by
  unfold xferStep
  rw [hq]; dsimp only; rw [h1, h2, h3]; rfl

/-- What a multicast that reaches every tile leaves as it was. -/
theorem controlAll_ok (p : Packet) (s : State) (h : ∀ d ∈ treeTiles s, bothDead s d = false) :
    (controlAll p s).cur = s.cur ∧ (controlAll p s).rest = s.rest ∧
      ∃ m, (controlAll p s).tile = { s.tile with meter := m } ∧ (controlAll p s).home.out = s.home.out ++ [p] := by
  have key : ∀ (ks : List Nat) (z : State), (∀ k ∈ ks, bothDead z k = false) →
      let t := ks.foldl (fun s t => if bothDead s t then controlLost t false s else chargeTile t s) z
      t.cur = z.cur ∧ t.rest = z.rest ∧ ∃ m, t.tile = { z.tile with meter := m } ∧ t.home.out = z.home.out := by
    intro ks
    induction ks with
    | nil => intro z _; exact ⟨rfl, rfl, _, rfl, rfl⟩
    | cons k ks ih =>
      intro z hz
      rw [List.foldl_cons, if_neg (by rw [hz k List.mem_cons_self]; simp)]
      obtain ⟨c1, c2, c3, c4, _, _, m, c7⟩ := chargeNet_frame (clusterOf k) 1 z
      have hb : ∀ x, bothDead (chargeTile k z) x = bothDead z x := by
        intro x; unfold bothDead State.clusterId State.tileId chargeTile; rw [c3, c4]
      obtain ⟨a1, a2, m2, a3, a4⟩ := ih (chargeTile k z) (fun x hx => by rw [hb]; exact hz x (List.mem_cons_of_mem _ hx))
      refine ⟨a1.trans c1, a2.trans c2, m2, ?_, ?_⟩
      · rw [a3]; show ({ (chargeNet (clusterOf k) 1 z).tile with meter := m2 } : TileSt) = _; rw [c7]
      · rw [a4]; show (chargeNet (clusterOf k) 1 z).home.out = _; rw [c3]
  obtain ⟨a1, a2, m, a3, a4⟩ := key ((treeTiles s).filter fun t => t != s.tileId) (emit p s) (fun k hk => h k (List.mem_filter.mp hk).1)
  unfold controlAll
  exact ⟨a1, a2, m, a3, a4⟩

theorem putEntry_core (i : Nat) (e : BlkEntry) (s : State) : (putEntry i e s).core = s.core := by
  unfold putEntry
  dsimp only
  repeat' split
  all_goals rfl

/-- What a failure of a named task leaves as it was. -/
theorem failNamed_frame (tid : Word) (origin : BitVec 13) (n : Nat) (dead : Bool) (s : State) :
    (failNamed tid origin n dead s).core = s.core ∧ (failNamed tid origin n dead s).tile.faults = s.tile.faults ∧
    (failNamed tid origin n dead s).tile.walkSerial = s.tile.walkSerial ∧ (failNamed tid origin n dead s).home = s.home := by
  unfold failNamed
  split
  · exact ⟨rfl, rfl, rfl, rfl⟩
  · unfold failOf State.updCtx
    repeat' split
    all_goals exact ⟨rfl, rfl, rfl, rfl⟩

theorem noteWalk_frame (w : WalkFor) (m : Miss) (s : State) :
    (noteWalk w m s).core = s.core ∧ (noteWalk w m s).tile.faults = s.tile.faults ∧
    (noteWalk w m s).tile.walkSerial = s.tile.walkSerial ∧ (noteWalk w m s).home = s.home := by
  unfold noteWalk
  dsimp only
  split
  · exact ⟨rfl, rfl, rfl, rfl⟩
  · exact failNamed_frame _ _ _ _ _

theorem chargeOpen_frame (v : BitVec 6) (s : State) : ∃ m f, chargeOpen v s = { s with tile := { s.tile with meter := m }, fresh := f } := by
  unfold chargeOpen chargeTo; dsimp only; repeat' split
  all_goals exact ⟨_, _, rfl⟩

theorem foldl_inv {α β : Type} (P : β → Prop) (f : β → α → β) (h : ∀ b a, P b → P (f b a)) : ∀ (l : List α) (b : β), P b → P (l.foldl f b) := by
  intro l; induction l with
  | nil => intro b hb; exact hb
  | cons a l ih => intro b hb; exact ih _ (h b a hb)

theorem stopVf_frame (v : BitVec 6) (c : BitVec 2) (s : State) : (stopVf v c s).tile = s.tile ∧ (stopVf v c s).cur = s.cur ∧ (stopVf v c s).rest = s.rest ∧
    (stopVf v c s).core.tcm = s.core.tcm ∧ (stopVf v c s).home.mem = s.home.mem := by
  unfold stopVf; dsimp only; repeat' split
  all_goals exact ⟨rfl, rfl, rfl, rfl, rfl⟩

theorem setVf_get (v : BitVec 6) (r : VfRegs) (s : State) : (s.setVf v r).vfReg v = r := by
  unfold State.setVf State.vfReg; exact tabGet_tabSet_same _ _ _ _

theorem setVf_set (v : BitVec 6) (r q : VfRegs) (s : State) : ((s.setVf v r).setVf v q).vfReg v = q := setVf_get _ _ _

theorem chargeIdle_frame (s : State) : (chargeIdle s).tile = s.tile ∧ (chargeIdle s).cur = s.cur ∧ (chargeIdle s).rest = s.rest ∧
    (chargeIdle s).core = s.core ∧ (chargeIdle s).home = s.home := by
  have one : ∀ (v : BitVec 6) (z : State), (idleOne v z).tile = z.tile ∧ (idleOne v z).cur = z.cur ∧ (idleOne v z).rest = z.rest ∧
      (idleOne v z).core = z.core ∧ (idleOne v z).home = z.home := fun v z => ⟨rfl, rfl, rfl, rfl, rfl⟩
  have h := foldl_inv (fun t : State => t.tile = s.tile ∧ t.cur = s.cur ∧ t.rest = s.rest ∧ t.core = s.core ∧ t.home = s.home)
    (fun s c => idleOne (residentOf s c) s) (fun b a hb => by
      obtain ⟨a1, a2, a3, a4, a5⟩ := one (residentOf b a) b
      exact ⟨a1.trans hb.1, a2.trans hb.2.1, a3.trans hb.2.2.1, a4.trans hb.2.2.2.1, a5.trans hb.2.2.2.2⟩) (List.range 64) s ⟨rfl, rfl, rfl, rfl, rfl⟩
  unfold chargeIdle
  generalize (List.range 64).foldl (fun s c => idleOne (residentOf s c) s) s = z at h
  obtain ⟨a1, a2, a3, a4, a5⟩ := one 0 z
  exact ⟨a1.trans h.1, a2.trans h.2.1, a3.trans h.2.2.1, a4.trans h.2.2.2.1, a5.trans h.2.2.2.2⟩

theorem withdraw_nil {s : State} (h : s.core.mx.queue = []) : withdrawMrot s = s := by unfold withdrawMrot; rw [h]

theorem tabGet?_map {α : Type} (g : Nat → α → α) (l : Tab α) (k : Nat) :
    tabGet? (l.map fun x => (x.1, g x.1 x.2)) k = (tabGet? l k).map (g k) := by
  induction l with
  | nil => rfl
  | cons x l ih =>
    rw [List.map_cons]
    unfold tabGet?
    by_cases h : x.1 = k
    · rw [if_pos h, if_pos h, h]; rfl
    · rw [if_neg h, if_neg h]; exact ih

/-- What marking the functions that this core does not run leaves of a function's registers. -/
theorem markOthers (s : State) (v : BitVec 6) :
    ({ s with host := { s.host with vfs := s.host.vfs.map fun x => if x.1 == s.core.vf.toNat then x else (x.1, markSaved x.2) } } : State).vfReg v =
      if v = s.core.vf then s.vfReg v else markSaved (s.vfReg v) := by
  have e : (s.host.vfs.map fun x => if x.1 == s.core.vf.toNat then x else (x.1, markSaved x.2)) =
      s.host.vfs.map fun x => (x.1, (fun k r => if k == s.core.vf.toNat then r else markSaved r) x.1 x.2) := by
    apply List.map_congr_left; intro x _; dsimp only; split <;> rfl
  unfold State.vfReg tabGet
  show (tabGet? (s.host.vfs.map _) _).getD _ = _
  rw [e, tabGet?_map (fun k r => if k == s.core.vf.toNat then r else markSaved r)]
  by_cases h : v = s.core.vf
  · rw [if_pos h, h]
    cases tabGet? s.host.vfs s.core.vf.toNat <;> simp
  · rw [if_neg h]
    have hn : (v.toNat == s.core.vf.toNat) = false := by simpa using fun g => h (BitVec.eq_of_toNat_eq g)
    cases tabGet? s.host.vfs v.toNat with
    | none => rfl
    | some r => simp [hn]

theorem saveMx_frame (c : CoreSt) : (saveMx c).tcm = c.tcm ∧ (saveMx c).vf = c.vf ∧ (saveMx c).id = c.id := by
  unfold saveMx; split <;> exact ⟨rfl, rfl, rfl⟩

theorem setVf_other {v w : BitVec 6} (h : w ≠ v) (r : VfRegs) (s : State) : (s.setVf v r).vfReg w = s.vfReg w := by
  unfold State.setVf State.vfReg
  exact tabGet_tabSet_other _ _ _ _ (fun g => h (BitVec.eq_of_toNat_eq g))

theorem withdraw_frame (s : State) : (withdrawMrot s).home = s.home ∧ (withdrawMrot s).host = s.host ∧ (withdrawMrot s).core.vf = s.core.vf := by
  unfold withdrawMrot
  repeat' split
  all_goals exact ⟨rfl, rfl, rfl⟩

theorem restoreCore_frame (s : State) : (restoreCore s).core.vf = s.core.vf ∧ (restoreCore s).launch = s.launch ∧ (restoreCore s).saved = s.saved ∧
    (restoreCore s).host = s.host := by
  unfold restoreCore absentMx reclaimMx
  dsimp only
  repeat' split
  all_goals exact ⟨rfl, rfl, rfl, rfl⟩

theorem over_frame (tag : BitVec 16) (s : State) : (launchOver tag s).core = s.core ∧ (launchOver tag s).cur = s.cur ∧ (launchOver tag s).rest = s.rest := by
  unfold launchOver; dsimp only; split <;> exact ⟨rfl, rfl, rfl⟩

theorem completion_frame (q : BitVec 10) (i : Nat) (tag : BitVec 16) (st : BitVec 32) (c : BitVec 8) (s : State) :
    (completionEntry q i tag st c s).core = s.core ∧ (completionEntry q i tag st c s).cur = s.cur ∧ (completionEntry q i tag st c s).rest = s.rest := by
  unfold completionEntry
  dsimp only
  generalize leBytes 8 _ ++ leBytes 8 _ = bs
  generalize (tabGet s.host.wqs {} q.toNat).qbase.toNat * 2048 + _ + _ = a
  split <;> exact ⟨rfl, rfl, rfl⟩

theorem endReset_frame (s : State) (r : RunInfo) : (endReset s r).core = s.core ∧ (endReset s r).cur = s.cur ∧ (endReset s r).rest = s.rest := by
  unfold endReset
  dsimp only
  have hf : s.free.2.core = s.core ∧ s.free.2.cur = s.cur ∧ s.free.2.rest = s.rest := ⟨rfl, rfl, rfl⟩
  generalize s.free.1.extractLsb' 0 32 = st
  generalize s.free.2 = z at hf
  obtain ⟨a, b, c⟩ := over_frame r.tag (completionEntry r.wq r.idx r.tag st 7 z)
  obtain ⟨d, e, f⟩ := completion_frame r.wq r.idx r.tag st 7 z
  exact ⟨a.trans (d.trans hf.1), b.trans (e.trans hf.2.1), c.trans (f.trans hf.2.2)⟩

theorem leaves_eq {u v : State} (h : u.home.mem = v.home.mem) (pa : Nat) : readLeaves u pa = readLeaves v pa ∧ readRoles u pa = readRoles v pa := by
  unfold readLeaves readRoles cw32 cw64; rw [h]; exact ⟨rfl, rfl⟩

theorem loaded (z : State) (f : BitVec 6) (L : List LeafMap) (R : List (Nat × Nat)) (I : Tab Nat) :
    let t := setLoadst f 0 (z.setVf f { z.vfReg f with leaves := L, roles := R, images := I })
    (t.vfReg f).loadBusy = false ∧ (t.vfReg f).loadst = 0 ∧ (t.vfReg f).leaves = L ∧ (t.vfReg f).roles = R ∧ t.home = z.home := by
  intro t
  have : t.vfReg f = { z.vfReg f with leaves := L, roles := R, images := I, loadst := 0, loadBusy := false } := by
    show (setLoadst _ _ _).vfReg f = _
    unfold setLoadst; rw [setVf_set, setVf_get]
  rw [this]; exact ⟨rfl, rfl, rfl, rfl, rfl⟩

theorem loadst_get (z : State) (f : BitVec 6) (c : BitVec 8) : ((setLoadst f c z).vfReg f).loadBusy = false ∧ ((setLoadst f c z).vfReg f).loadst = c := by
  unfold setLoadst; rw [setVf_get]; exact ⟨rfl, rfl⟩

theorem errorEntry_tile (k : BitVec 8) (t : Task) (e : BitVec 8 × Word × Word) (s : State) :
    (errorEntry k t e s).cur = s.cur ∧ (errorEntry k t e s).rest = s.rest := by
  unfold errorEntry
  generalize errEntryBytes _ _ _ _ _ _ _ _ = bs
  exact errEntry_frame bs s

theorem drop_frame : ∀ (l : List QBind) (z : State), (l.foldl (fun s q => dropBinding q s) z).cur = z.cur ∧ (l.foldl (fun s q => dropBinding q s) z).rest = z.rest := by
  intro l
  induction l with
  | nil => intro z; exact ⟨rfl, rfl⟩
  | cons q l ih =>
    intro z
    rw [List.foldl_cons]
    have h : (dropBinding q z).cur = z.cur ∧ (dropBinding q z).rest = z.rest := by
      unfold dropBinding dropInbound
      split
      · exact ⟨rfl, rfl⟩
      · unfold popChan; dsimp only; repeat' split
        all_goals exact ⟨rfl, rfl⟩
    exact ⟨(ih _).1.trans h.1, (ih _).2.trans h.2⟩

/-- What withdrawing an action leaves of the issuing task, and what it touches. -/
structure Dropped (q : List PairItem) (s v : State) : Prop where
  cur : ∃ n a, v.cur = { s.cur with sentOut := n, amos := a }
  home : v.home = s.home
  escl : v.tile.escl = s.tile.escl
  pairQ : v.core.pairQ = q
  pairOk : v.core.pairOk = s.core.pairOk
  id : v.core.id = s.core.id
  launch : v.launch = s.launch

theorem dropAction_dropped (what : PairWhat) (s : State) : Dropped s.core.pairQ s (dropAction what s) := by
  have same : Dropped s.core.pairQ s s := ⟨⟨_, _, rfl⟩, rfl, rfl, rfl, rfl, rfl, rfl⟩
  unfold dropAction
  cases what with
  | part seg k => exact ⟨⟨_, _, rfl⟩, rfl, rfl, rfl, rfl, rfl, rfl⟩
  | send tid origin =>
    dsimp only
    cases nextSend (tid, origin) s with
    | none => exact same
    | some k =>
      dsimp only
      unfold sendEnded sendNote
      dsimp only
      split
      · unfold State.updCtx
        split
        · exact ⟨⟨_, _, rfl⟩, rfl, rfl, rfl, rfl, rfl, rfl⟩
        · exact ⟨⟨_, _, rfl⟩, rfl, rfl, rfl, rfl, rfl, rfl⟩
      · exact ⟨⟨_, _, rfl⟩, rfl, rfl, rfl, rfl, rfl, rfl⟩
  | engine tid origin seg part => exact ⟨⟨_, _, rfl⟩, rfl, rfl, rfl, rfl, rfl, rfl⟩
  | unit => 
    show Dropped _ _ (mxPop s)
    unfold mxPop mxSettle
    repeat' split
    all_goals exact ⟨⟨_, _, rfl⟩, rfl, rfl, rfl, rfl, rfl, rfl⟩
  | amo tid origin n =>
    refine ⟨?_, rfl, rfl, rfl, rfl, rfl, rfl⟩
    show ∃ n a, (if sameTask s.cur tid origin then _ else s.cur) = _
    split
    · exact ⟨_, _, rfl⟩
    · exact ⟨_, _, rfl⟩
  | flag => exact same
  | mig => exact same

theorem dropItem_dropped (x : PairItem) (s : State) : Dropped (s.core.pairQ.erase x) s (dropItem x s) := by
  have h := dropAction_dropped x.what (s.onCore fun c => { c with pairQ := c.pairQ.erase x })
  exact ⟨h.cur, h.home, h.escl, h.pairQ, h.pairOk, h.id, h.launch⟩

theorem dropItems_dropped (t : Task) (s : State) : ∃ q, Dropped q s (dropItems t s) := by
  unfold dropItems
  generalize List.filter _ _ = l
  have : ∀ (l : List PairItem) (z : State), (∃ q, Dropped q s z) → ∃ q, Dropped q s (l.foldl (fun s x => dropItem x s) z) := by
    intro l
    induction l with
    | nil => intro z h; exact h
    | cons x l ih =>
      intro z ⟨q, h⟩
      rw [List.foldl_cons]
      apply ih
      have d := dropItem_dropped x z
      obtain ⟨n, a, h1⟩ := h.cur
      obtain ⟨m, b, d1⟩ := d.cur
      exact ⟨_, ⟨m, b, by rw [d1, h1]⟩, d.home.trans h.home, d.escl.trans h.escl, d.pairQ, d.pairOk.trans h.pairOk, d.id.trans h.id, d.launch.trans h.launch⟩
  exact this l s ⟨_, ⟨_, _, rfl⟩, rfl, rfl, rfl, rfl, rfl, rfl⟩

theorem dropItems_nil (t : Task) {s : State} (h : s.core.pairQ = []) : dropItems t s = s := by unfold dropItems; rw [h]; rfl

theorem mismatch_cur {s : State} {x : PairItem} (h1 : s.cur.st ≠ .ended) (h2 : s.cur.shadow = false) (h3 : sameTask s.cur x.tid x.origin = true) :
    mismatch x s = { s with cur := errOf 2 0 0 { s.cur with esc := s.cur.pairEsc } } := by
  have hl : (s.cur.st != .ended && !s.cur.shadow && sameTask s.cur x.tid x.origin) = true := by rw [h2, h3]; simpa using h1
  unfold mismatch
  dsimp only
  rw [findCtx_cur' (p := fun t => t.st != .ended && !t.shadow && sameTask t x.tid x.origin) hl, if_pos (show (some s.cur).isSome = true from rfl),
    updCtx_cur' (p := fun t => t.st != .ended && !t.shadow && sameTask t x.tid x.origin) hl]

/-- R411: what a mismatch of the oldest action leaves. -/
theorem mismatched {s : State} {x : PairItem} {l : List PairItem} (h0 : s.core.pairQ = x :: l) (h1 : s.cur.st ≠ .ended) (h2 : s.cur.shadow = false)
    (h3 : sameTask s.cur x.tid x.origin = true) (h4 : s.cur.errPend = none) :
    let t := mismatch x (dropItem x s)
    t.core.pairQ = l ∧ t.core.pairOk = s.core.pairOk ∧ t.cur.errPend = some (2, 0, 0) ∧ t.cur.esc = s.cur.pairEsc ∧ t.cur.w = s.cur.w ∧ t.home = s.home := by
  have d := dropItem_dropped x s
  obtain ⟨n, a, hc⟩ := d.cur
  generalize dropItem x s = z at d hc
  have e1 : z.cur.st ≠ .ended := by rw [hc]; exact h1
  have e2 : z.cur.shadow = false := by rw [hc]; exact h2
  have e3 : sameTask z.cur x.tid x.origin = true := by rw [hc]; exact h3
  intro t
  have ht : t = { z with cur := errOf 2 0 0 { z.cur with esc := z.cur.pairEsc } } := mismatch_cur e1 e2 e3
  rw [ht]
  refine ⟨?_, d.pairOk, ?_, ?_, ?_, d.home⟩
  · show z.core.pairQ = l; rw [d.pairQ, h0, List.erase_cons_head]
  all_goals
    rw [hc]
    unfold errOf
    rw [if_neg (by rw [show ({ s.cur with sentOut := n, amos := a, esc := s.cur.pairEsc } : Task).errPend = none from h4]; simp)]

theorem restoreCore_plain {y : State} (h : y.core.mxSaved = none) : restoreCore y =
    { y with cur := restoreTask y y.cur, rest := y.rest.map (restoreTask y), core := { y.core with preempt := false } } := by
  unfold restoreCore
  dsimp only
  rw [if_neg (by rw [h]; simp)]
  rfl

/-- The spare in place of the core whose contexts have been stopped. -/
def spareSwapped (z : State) : State :=
  ((chargeOpen 0 (restoreCore z)).onTile fun t => { t with spareCore := true }).onHost fun h => { h with replReq := true }

theorem least_le {α : Type} (lt : α → α → Bool) (asym : ∀ a b, lt a b = true → lt b a = false)
    (trans : ∀ a b c, lt b a = false → lt c b = false → lt c a = false) :
    ∀ (l : List α) (x : α), leastBy lt l = some x → ∀ y ∈ l, lt y x = false := by
  intro l
  induction l with
  | nil => intro x h; cases h
  | cons a l ih =>
    intro x h y hy
    unfold leastBy at h
    have irr : ∀ a, lt a a = false := by
      intro a
      cases e : lt a a with
      | false => rfl
      | true => have := asym a a e; rw [e] at this; exact this
    cases hl : leastBy lt l with
    | none =>
      rw [hl] at h; injection h with h; subst h
      cases hy with
      | head => exact irr _
      | tail _ hy =>
        cases l with
        | nil => cases hy
        | cons b l =>
          unfold leastBy at hl
          split at hl
          · cases hl
          · split at hl <;> cases hl
    | some z =>
      rw [hl] at h
      dsimp only at h
      split at h
      · rename_i e
        injection h with h; subst h
        cases hy with
        | head => exact asym _ _ e
        | tail _ hy => exact ih _ hl _ hy
      · rename_i e
        injection h with h; subst h
        cases hy with
        | head => exact irr _
        | tail _ hy => exact trans _ _ _ (by simpa using e) (ih _ hl _ hy)

theorem keyLt_asym (a b : ActKey) (h : keyLt a b = true) : keyLt b a = false := by
  unfold keyLt at *
  rcases a with ⟨a1, a2, a3⟩
  rcases b with ⟨b1, b2, b3⟩
  simp at *
  omega

theorem keyLt_nt (a b c : ActKey) (h : keyLt b a = false) (g : keyLt c b = false) : keyLt c a = false := by
  unfold keyLt at *
  rcases a with ⟨a1, a2, a3⟩
  rcases b with ⟨b1, b2, b3⟩
  rcases c with ⟨c1, c2, c3⟩
  simp at *
  omega

theorem keyLt_tri (a b : ActKey) (h : keyLt b a = false) (g : keyLt a b = false) : a = b := by
  unfold keyLt at *
  rcases a with ⟨a1, a2, a3⟩
  rcases b with ⟨b1, b2, b3⟩
  simp at *
  omega

theorem choice_asym (a b : Choice) (h : choiceLt a b = true) : choiceLt b a = false := by
  unfold choiceLt at *
  rcases a with ⟨ay, ak, as, ap⟩
  rcases b with ⟨bh, bk, bs, bp⟩
  have h1 := keyLt_asym ak bk
  have h2 := keyLt_asym bk ak
  cases ay <;> cases bh <;> simp_all
  all_goals
    rcases h with h | ⟨rfl, h⟩
    · exact ⟨h1 h, fun e => by subst e; rw [h1 h] at h; cases h⟩
    · exact ⟨by cases e : keyLt ak ak <;> simp_all, by omega⟩

theorem choice_nt (a b c : Choice) (h : choiceLt b a = false) (g : choiceLt c b = false) : choiceLt c a = false := by
  unfold choiceLt at *
  rcases a with ⟨ay, ak, as, ap⟩
  rcases b with ⟨bh, bk, bs, bp⟩
  rcases c with ⟨ch, ck, cs, cp⟩
  have h1 := keyLt_nt ak bk ck
  have h2 := keyLt_tri ak bk
  have h3 := keyLt_tri bk ck
  have h4 := keyLt_tri ak ck
  have h5 := keyLt_nt bk ck ak
  have h6 := keyLt_nt ck ak bk
  cases ay <;> cases bh <;> cases ch <;> simp_all
  all_goals
    intro e
    subst e
    have e := h3 h.1
    subst e
    have x1 := h.2 rfl
    have x2 := g.2 rfl
    omega

end Sys2Proof.Machine
end

