-- ==== Sys2Proof/Tests/Slice0.lean ====
section
/-! SUPPORT. Tests: ill-formed terms that are refused, words written out from the encoding tables of the specification and its worked
words, single steps, and a state that meets the hypotheses of each statement. -/

namespace Sys2Proof.Tests

open Sys2Proof Sys2Proof.Machine

/-! ### Ill-formed terms, one for each check -/

theorem test_wf_src : (Instr.add 1 25 2 : Instr).wf = false := by decide
theorem test_wf_dst : (Instr.add 24 1 2 : Instr).wf = false := by decide
theorem test_wf_w : (Instr.jalr 1 16 0 : Instr).wf = false := by decide
theorem test_wf_vd : (Instr.vld 24 1 0 : Instr).wf = false := by decide
theorem test_wf_vdm : (Instr.vadd 16 1 2 false false true 0 : Instr).wf = false := by decide
theorem test_wf_fn : (Instr.fadd 8 1 2 false false : Instr).wf = false := by decide
theorem test_wf_acc : (Instr.mzero 2 : Instr).wf = false := by decide
theorem test_wf_stream : (Instr.sunbind 24 : Instr).wf = false := by decide
theorem test_wf_queue : (Instr.qunbind 25 : Instr).wf = false := by decide
theorem test_wf_arith_format : (Instr.vadd 1 2 3 false false false 3 : Instr).wf = false := by decide
theorem test_wf_rounding : (Instr.vadd 1 2 3 false true false 5 : Instr).wf = false := by decide
theorem test_wf_unsigned : (Instr.vmin 1 2 3 true false 0 : Instr).wf = false := by decide
theorem test_wf_nq4 : (Instr.vand 1 2 3 false 7 : Instr).wf = false := by decide
theorem test_wf_shift_format : (Instr.vshl 1 2 3 false 0 : Instr).wf = false := by decide
theorem test_wf_condition : (Instr.vcmp 7 1 2 false false 0 : Instr).wf = false := by decide
theorem test_wf_part : (Instr.vcvt 1 2 0 2 false false 1 : Instr).wf = false := by decide
theorem test_wf_partial : (Instr.vcvt 16 2 0 1 false false 1 : Instr).wf = false := by decide
theorem test_wf_nq_part : (Instr.vqnt 1 2 3 4 1 : Instr).wf = false := by decide
theorem test_wf_slide : (Instr.vslide 1 2 3 17 0 : Instr).wf = false := by decide
theorem test_wf_size : (Instr.ldpx 1 2 3 0 : Instr).wf = false := by decide
theorem test_wf_atomic : (Instr.amo 1 2 3 11 0 false false false : Instr).wf = false := by decide
theorem test_wf_fmax : (Instr.amo 1 2 3 10 0 false false false : Instr).wf = false := by decide
theorem test_wf_cas : (Instr.amo 25 2 3 9 0 false false false : Instr).wf = false := by decide
theorem test_wf_nred : (Instr.nred 1 2 3 false 5 : Instr).wf = false := by decide
theorem test_wf_xstat : (Instr.xstat 1 2 true : Instr).wf = false := by decide
theorem test_wf_csr : (Instr.csrr 1 0x00B : Instr).wf = false := by decide
theorem test_wf_barrier : (Instr.mma 0 1 5 false : Instr).wf = false := by decide
theorem test_wf_drain : (Instr.mdrain 0 1 2 false 7 : Instr).wf = false := by decide

/-! ### Words (R79, R85 to R90) -/

/-- R79, R101: register arithmetic; R103, R104. -/
theorem test_decode_alu :
    decode (0b000010_00001_00010_00011_0000_110_0000 : BitVec 32) = .ok (.div 1 2 3) ∧
    decode (0b000010_00100_00101_00110_0001_110_0000 : BitVec 32) = .ok (.clmul 4 5 6) ∧
    decode (0b000011_00011_00000_0000000000010000 : BitVec 32) = .ok (.addi 3 0 16) ∧
    decode (0b001001_00101_00101_0000000000010000 : BitVec 32) = .ok (.slli 5 5 16) ∧
    decode (0b001010_00101_000000010010001101000 : BitVec 32) = .ok (.lhi 5 0x2468) := by
  decide

/-- R79, R108, R109: branches and jumps. -/
theorem test_decode_branch :
    decode (0b001111_00011_00000_1111111111111111 : BitVec 32) = .ok (.bne 3 0 (-1)) ∧
    decode (0b001110_00001_00010_1111111111111000 : BitVec 32) = .ok (.beq 1 2 (-8)) ∧
    decode (0b001100_11111111111111111111111111 : BitVec 32) = .ok (.jal (-1)) ∧
    decode (0b001101_00000_01111_0000000000000000 : BitVec 32) = .ok (.jalr 0 15 0) := by
  decide

/-- R111: private memory. -/
theorem test_decode_private :
    decode (0b010110_00101_01110_11_11111111111111 : BitVec 32) = .ok (.stp 5 14 3 (-1)) ∧
    decode (0b010100_00101_01110_11_11111111111111 : BitVec 32) = .ok (.ldp 5 14 3 (-1)) := by
  decide

/-- R244: shared memory. -/
theorem test_decode_shared :
    decode (0b010111_00011_00100_11_101_0_0000000010 : BitVec 32) = .ok (.ld 3 4 3 5 false 2) ∧
    decode (0b011000_00010_01001_01_000_1_1111111111 : BitVec 32) = .ok (.ldx 2 9 1 0 true (-1)) ∧
    decode (0b011001_00011_00010_11_001_0_0000000000 : BitVec 32) = .ok (.st 3 2 3 1 0) := by
  decide

/-- R252, R253: atomics. -/
theorem test_decode_atomic :
    decode (0b011010_00011_00100_00101_0000_101_0000 : BitVec 32) = .ok (.amo 3 4 5 0 5 false false false) ∧
    decode (0b011010_00001_00010_00011_1001_101_0001 : BitVec 32) = .ok (.amo 1 2 3 9 5 false false true) := by
  decide

/-- R246 to R257: ordering. -/
theorem test_decode_order :
    decode (0b011011_00000_00000_00000_0000_101_0000 : BitVec 32) = .ok (.rel 5) ∧
    decode (0b011011_00000_00110_00000_0001_101_0000 : BitVec 32) = .ok (.acq 6 5) ∧
    decode (0b011011_00000_00010_00000_0001_100_0011 : BitVec 32) = .ok (.acqBelow 2 4) ∧
    decode (0b011011_00001_00000_00000_0010_101_0000 : BitVec 32) = .ok (.fence 1 5) ∧
    decode (0b011011_00000_00100_00000_0011_000_0000 : BitVec 32) = .ok (.qfence 4) ∧
    decode (0b011011_00101_00000_00000_0100_000_0000 : BitVec 32) = .ok (.logsn 5) ∧
    decode (0b011011_00000_00000_00000_0101_000_0000 : BitVec 32) = .ok (.logdrop) := by
  decide

/-- R284, R288, R313 to R318: messages. -/
theorem test_decode_message :
    decode (0b011100_00100_00101_00110_0000_000_0000 : BitVec 32) = .ok (.send 4 5 6 false false) ∧
    decode (0b011100_00000_00101_00000_0001_000_0000 : BitVec 32) = .ok (.sendm 5 false false) ∧
    decode (0b011100_00011_00101_00000_0010_000_0000 : BitVec 32) = .ok (.sendc 3 5 false) ∧
    decode (0b011100_00000_00010_00000_0011_000_0000 : BitVec 32) = .ok (.promise 2) ∧
    decode (0b011100_00100_00101_00110_0100_000_0000 : BitVec 32) = .ok (.deposit 4 5 6 false) ∧
    decode (0b011100_00000_00101_00110_0101_000_1101 : BitVec 32) = .ok (.nred 0 5 6 true 5) ∧
    decode (0b011100_00011_00110_00000_0110_000_0000 : BitVec 32) = .ok (.nrwait 3 6 false) := by
  decide

/-- R117 to R120, R320 to R324: tasks. -/
theorem test_decode_task :
    decode (0b011101_00000_00101_00110_0000_000_0000 : BitVec 32) = .ok (.spawn 5 6 false) ∧
    decode (0b011101_00100_00101_00110_0011_000_0000 : BitVec 32) = .ok (.wait 4 5 6) ∧
    decode (0b011101_00000_00101_00000_0100_000_0000 : BitVec 32) = .ok (.migrate 5 false) ∧
    decode (0b011101_00011_00100_00101_0101_000_0000 : BitVec 32) = .ok (.setlah 3 4 5) ∧
    decode (0b011101_00011_00000_00000_0110_000_0001 : BitVec 32) = .ok (.sweepW 3) ∧
    decode (0b011101_00000_00000_00000_0110_000_0000 : BitVec 32) = .ok (.sweep) ∧
    decode (0b011101_00011_00100_00000_0111_000_0000 : BitVec 32) = .ok (.clmask 3 4) := by
  decide

/-- R259: barriers. -/
theorem test_decode_barrier :
    decode (0b011110_00000_00010_00101_0000_000_0000 : BitVec 32) = .ok (.binit 2 5) ∧
    decode (0b011110_00011_00000_01000_0001_000_1001 : BitVec 32) = .ok (.barrive 3 40 true) ∧
    decode (0b011110_00000_00011_01000_0010_000_1001 : BitVec 32) = .ok (.bwait 3 40 true) ∧
    decode (0b011110_00100_00000_00101_0011_000_0000 : BitVec 32) = .ok (.btest 4 5) := by
  decide

/-- R270 to R275: streams and queues. -/
theorem test_decode_stream :
    decode (0b011111_10000_00101_00000_0000_000_0000 : BitVec 32) = .ok (.sbind 16 5 false) ∧
    decode (0b011111_10000_00000_00000_0001_000_0000 : BitVec 32) = .ok (.sunbind 16) ∧
    decode (0b011111_00011_10010_00000_0010_000_0000 : BitVec 32) = .ok (.sstat 3 18 false) ∧
    decode (0b011111_11010_00100_00000_0011_000_0000 : BitVec 32) = .ok (.qbind 26 4) ∧
    decode (0b011111_11010_00000_00000_0100_000_0000 : BitVec 32) = .ok (.qunbind 26) := by
  decide

/-- R276 to R281: transfers. -/
theorem test_decode_transfer :
    decode (0b100000_00000_00101_00000_0000_000_0000 : BitVec 32) = .ok (.copy 5) ∧
    decode (0b100000_00000_00101_00000_0001_000_0000 : BitVec 32) = .ok (.sgrun 5) ∧
    decode (0b100000_00011_00100_00000_0010_000_0000 : BitVec 32) = .ok (.xstat 3 4 false) ∧
    decode (0b100000_00011_00000_00000_0010_000_0001 : BitVec 32) = .ok (.xstat 3 0 true) ∧
    decode (0b100000_00000_00100_00000_0011_000_0000 : BitVec 32) = .ok (.xcancel 4) := by
  decide

/-- R387 to R394: blocks. -/
theorem test_decode_block :
    decode (0b100001_00011_00100_00000_0000_000_0000 : BitVec 32) = .ok (.blkref 3 4) ∧
    decode (0b100001_00011_00100_00000_0000_000_0001 : BitVec 32) = .ok (.blkrefNew 3 4) ∧
    decode (0b100001_00011_00100_00000_0001_000_0000 : BitVec 32) = .ok (.blkfree 3 4) ∧
    decode (0b100001_00011_00100_00000_0010_000_0000 : BitVec 32) = .ok (.blkcow 3 4) ∧
    decode (0b100001_00000_00100_00101_0011_000_0000 : BitVec 32) = .ok (.blkmoveTier 4 5) ∧
    decode (0b100001_00000_00110_00000_0011_000_0001 : BitVec 32) = .ok (.blkmoveGet 6) ∧
    decode (0b100001_00011_00100_00000_0100_000_0000 : BitVec 32) = .ok (.blkstat 3 4) := by
  decide

/-- R114: control registers. -/
theorem test_decode_csr :
    decode (0b100010_00000_00111_000000001001_0010 : BitVec 32) = .ok (.csrset 0 7 9) := by
  decide

/-- R121, R352 to R356, R379 to R382, R421: system instructions. -/
theorem test_decode_system :
    decode (0b100011_000000000000101_0000_000_0000 : BitVec 32) = .ok (.trap 5) ∧
    decode (0b100011_000000000000000_0001_000_0000 : BitVec 32) = .ok (.eret) ∧
    decode (0b100011_000000000000101_0011_000_0000 : BitVec 32) = .ok (.brk 5) ∧
    decode (0b100011_00000_00100_00000_0010_000_0000 : BitVec 32) = .ok (.halt 4) ∧
    decode (0b100011_00011_00100_00000_0110_000_0000 : BitVec 32) = .ok (.asidset 3 4) ∧
    decode (0b100011_00011_00100_00101_0110_000_0001 : BitVec 32) = .ok (.asidsetNew 3 4 5) ∧
    decode (0b100011_00000_00100_00101_0101_000_0000 : BitVec 32) = .ok (.tlbinvPage 4 5) ∧
    decode (0b100011_00011_00100_00000_0111_000_0000 : BitVec 32) = .ok (.swapwp 3 4) ∧
    decode (0b100011_00011_00100_00101_1000_000_0000 : BitVec 32) = .ok (.faultreply 3 4 5) ∧
    decode (0b100011_00011_00100_00000_1001_000_0000 : BitVec 32) = .ok (.eread 3 4) := by
  decide

/-- R155 to R169: vectors. -/
theorem test_decode_vector :
    decode (0b100100_00101_00110_00111_0000_100_1000 : BitVec 32) = .ok (.vadd 5 6 7 false false true 1) ∧
    decode (0b100101_00010_00010_00011_0000_000_0101 : BitVec 32) = .ok (.vcmp 2 2 3 false false 0) ∧
    decode (0b100110_00100_00001_00010_0010_001_1000 : BitVec 32) = .ok (.vcvt 4 1 0 2 true false 3) ∧
    decode (0b100111_00001_00000_0000010000000000 : BitVec 32) = .ok (.vld 1 0 16) ∧
    decode (0b101001_00000_00010_00000_0000_000_0000 : BitVec 32) = .ok (.vrsum 2 false 0) ∧
    decode (0b101001_00011_00000_00000_0010_100_0100 : BitVec 32) = .ok (.xget 3 5) ∧
    decode (0b101010_00010_00011_00000_0000_000_0000 : BitVec 32) = .ok (.vtran 2 3 false 0) := by
  decide

/-- R181 to R195: the matrix unit. -/
theorem test_decode_matrix :
    decode (0b101100_00000_00111_00000_0001_000_0000 : BitVec 32) = .ok (.mlatch 7 0 false) ∧
    decode (0b101100_00001_00000_00000_0000_000_0000 : BitVec 32) = .ok (.mzero 1) ∧
    decode (0b101100_00000_00000_00011_0010_000_0000 : BitVec 32) = .ok (.mrot 3) ∧
    decode (0b101100_00100_00000_00000_0011_000_0000 : BitVec 32) = .ok (.mstat 4) ∧
    decode (0b101101_00000_01000_01001_0000_000_1001 : BitVec 32) = .ok (.mdrain 0 8 9 true 1) ∧
    decode (0b101101_00001_01000_00000_0000_000_0000 : BitVec 32) = .ok (.mdrain 1 8 0 false 0) := by
  decide

/-- R208 to R218: function registers. -/
theorem test_decode_function :
    decode (0b101110_00001_00010_00011_0000_000_0000 : BitVec 32) = .ok (.fadd 1 2 3 false false) ∧
    decode (0b101110_00100_00001_00001_0010_000_0001 : BitVec 32) = .ok (.fmul 4 1 1 false true) ∧
    decode (0b101111_00010_00001_00000_0001_000_0000 : BitVec 32) = .ok (.fdiff 2 1 false) ∧
    decode (0b101111_00011_00001_00000_0010_000_0000 : BitVec 32) = .ok (.froot 3 1 false) ∧
    decode (0b110000_00001_00101_00110_0000_000_0000 : BitVec 32) = .ok (.ffit 1 5 6) ∧
    decode (0b110000_00111_00001_01000_0001_000_0100 : BitVec 32) = .ok (.feval 7 1 8 true false) ∧
    decode (0b110000_00010_00111_00000_0010_000_0000 : BitVec 32) = .ok (.fldc 2 7) ∧
    decode (0b110000_00000_00010_00111_0011_000_0000 : BitVec 32) = .ok (.fstc 2 7 false) ∧
    decode (0b110000_00001_00010_00011_0100_000_0000 : BitVec 32) = .ok (.fdom 1 2 3) ∧
    decode (0b110000_00100_00001_00000_1000_000_0000 : BitVec 32) = .ok (.flen 4 1 false) := by
  decide

/-! ### Single steps -/

/-- One step of the instruction of a word, its general registers set beforehand, and what is read of the next state. -/
def after {α : Type} (w : Nat) (rs : List (BitVec 4 × Word)) (read : State → α) : Option α :=
  match step ((rs.foldl (fun s r => s.setW r.1 r.2) State.reset).withFetchWord 32 w) with
  | .next t => some (read t)
  | _ => none

/-- R79: the first line of the listing, and the PC after it. -/
theorem test_step_addi : after 0x0C600010 [] (fun t => (t.getW 3, t.cur.pc)) = some (16, 0x100004) := by decide
/-- R101: the worked value of SRA, whose shift amount is taken modulo 64. -/
theorem test_step_sra : after 0x04221900 [(2, 0x8000000000000010), (3, 68)] (fun t => t.getW 1) = some 0xF800000000000001 := by decide
/-- R103: -7 divided by 2 is -3. -/
theorem test_step_div : after 0x08221860 [(2, 0xFFFFFFFFFFFFFFF9), (3, 2)] (fun t => t.getW 1) = some 0xFFFFFFFFFFFFFFFD := by decide
/-- R103: 7 divided by 0. -/
theorem test_step_div_zero : after 0x08221860 [(2, 7), (3, 0)] (fun t => t.getW 1) = some 0xFFFFFFFFFFFFFFFF := by decide
/-- R105: LHI of the worked constant. -/
theorem test_step_lhi : after 0x28A02468 [] (fun t => t.getW 5) = some 0x24680000 := by decide
/-- R79: BNE back by one word while the registers differ, on when they are equal. -/
theorem test_step_bne : after 0x3C60FFFF [(3, 1)] (fun t => t.cur.pc) = some 0xFFFFC ∧
    after 0x3C60FFFF [] (fun t => t.cur.pc) = some 0x100004 := by decide
/-- R108: the link of a backward JAL. -/
theorem test_step_jal : after 0x33FFFFFF [] (fun t => (t.getW 15, t.cur.pc)) = some (0x100004, 0xFFFFC) := by decide
/-- R109: RET. -/
theorem test_step_ret : after 0x340F0000 [(15, 0x2000)] (fun t => t.cur.pc) = some 0x2000 := by decide
/-- R111: STP below w14 writes the bytes of w5, least significant first. -/
theorem test_step_stp : after 0x58AEFFFF [(14, 0x10000), (5, 0x1234)] (fun t => (tcmByte t 0xFFF8, tcmByte t 0xFFF9)) = some (0x34, 0x12) := by decide
/-- R111, R123: a misaligned LDP traps; with no handler its task ends. -/
theorem test_step_ldp_align : after 0x50AEFFFF [(14, 0x10001)] (fun t => t.cur.st) = some .ended := by decide
/-- R118: END. -/
theorem test_step_end : after 0x74000080 [] (fun t => (t.cur.st, t.cur.slot)) = some (.ended, none) := by decide
/-- R114: FMAXN is clamped. -/
theorem test_step_fmaxn : after 0x88054011 [(5, 0x201)] (fun t => t.cur.fmaxn) = some 256 := by decide
/-- R80: w0 reads 0 and discards a write. -/
theorem test_step_w0 : after 0x0C000010 [] (fun t => (t.getW 0, t.cur.pc)) = some (0, 0x100004) := by decide
/-- R90: an unassigned word raises ILLEGAL, which escalates with no handler. -/
theorem test_step_illegal : after 0xFFFFFFFF [] (fun t => (t.cur.st, t.tile.escl)) = some (.ended, true) := by decide
/-- R119: YIELD leaves its task ready. -/
theorem test_step_yield : after 0x74000100 [] (fun t => (t.cur.st, t.cur.pc)) = some (.ready, 0x100004) := by decide

/-! ### States that meet the hypotheses of the statements -/

/-- The first context runs, with nothing pending. -/
def base : State := State.reset.withFetchWord 32 0

def goes (r : Host.Outcome State Fault Refusal) : Bool := match r with | .next _ => true | _ => false

theorem base_starts : base.starts := ⟨rfl, rfl, rfl⟩
theorem base_issues : base.issues := ⟨rfl, by decide⟩

theorem witness_DecodeEncode : (Instr.add 1 2 3).isStep = false ∧ (Instr.add 1 2 3).wf = true ∧ decode 0x0C600010 = .ok (.addi 3 0 16) := by
  decide
theorem witness_StepKeepsMemory : base.memOk = true ∧ goes (step base) = true := by decide
theorem witness_StepRunsDecoded : base.sched = .core :: [] ∧ State.proceeds [] { base with sched := [] } ∧
    ∃ pa e u, translate .fetch base.cur.pc.toNat (running { base with sched := [] }) = .ok (pa, e, u) ∧ pa < 2 ^ 42 ∧ lostRead u pa = false ∧
      refusedAt u u.core.vf pa = false ∧ anyPoison u.home.poison pa 4 = false :=
  ⟨rfl, ⟨by decide, rfl, rfl, rfl, rfl, rfl, rfl⟩, _, _, _, rfl, by decide, by decide, by decide, by decide⟩
theorem witness_StepRunsDecoded_none : ({ base with sched := [] } : State).sched = [] ∧ pickInternal { base with sched := [] } = none ∧
    (∃ i, decode 0x0C600010 = .ok i) ∧ ∃ e, decode 0 = .error e := ⟨rfl, by decide +kernel, ⟨_, rfl⟩, _, rfl⟩
theorem witness_StepRunsDecoded_event : ({ base with sched := [.event .hbmRetrain] } : State).sched = .event .hbmRetrain :: [] := rfl
theorem witness_ContextChosen : errorAt base = none ∧ shadowAt base = none ∧ chosen [] base = some 0 := by decide

/-- A pattern of singles: some input or output, of a length. -/
def pat (out : Bool) (n : Int) : Pattern := { base := 0, sz := 2, out := out, strides := [4], bounds := [(0, n)], counts := [n], fill := 7 }
def bound (out : Bool) (n : Int) (fetched : List Elem) : State :=
  base.onCur (setStrm 16 (some { pat := pat out n, tcm := true, pos := 0, fetched := fetched, pushed := [], bad := none }))
theorem witness_FieldReads_stream : strmOf base.cur 16 = none ∧
    (∃ st, strmOf (bound false 1 [.val 5]).cur 16 = some st ∧ st.pat.out = false ∧ st.pos < st.pat.len ∧ st.fetched = .val 5 :: [] ∧
      ([5] : List Word).length = Nat.min (64 / 2 ^ st.pat.sz) (st.pat.len - st.pos)) ∧
    (∃ st, strmOf (bound false 0 []).cur 16 = some st ∧ st.pat.out = false ∧ st.pat.len ≤ st.pos) ∧
    ∃ st, strmOf (bound true 0 []).cur 16 = some st ∧ st.pat.out = true ∧ st.bad = none ∧ st.pat.len ≤ st.pos :=
  ⟨rfl, ⟨_, rfl, by decide⟩, ⟨_, rfl, by decide⟩, ⟨_, rfl, by decide⟩⟩
def queued (outb : Bool) (cls : Option (BitVec 4)) (ws : List Word) : State :=
  (base.onCur (setQueue 26 (some { outb := outb, cls := cls, ch := 3, peer := 9, words := ws, credits := 8 }))).onCore fun c =>
    { c with chan := c.chan.set 3 [(9, 4)] }
theorem witness_FieldReads_queue : queueOf base.cur 26 = none ∧
    (∃ q, queueOf (queued false none []).cur 26 = some q ∧ q.outb = false ∧ q.cls = none ∧
      (queued false none []).core.chan[q.ch.toNat] = (9, 4) :: []) ∧
    (∃ q, queueOf (queued false (some 2) [6]).cur 26 = some q ∧ q.outb = false ∧ q.cls = some 2 ∧ q.words = 6 :: []) ∧
    (∃ q, queueOf (queued true none []).cur 26 = some q ∧ q.outb = true ∧ q.words.length < 8) ∧
    ∃ q, queueOf (queued true none (List.replicate 8 0)).cur 26 = some q ∧ q.outb = true ∧ 8 ≤ q.words.length :=
  ⟨rfl, ⟨_, rfl, by decide⟩, ⟨_, rfl, by decide⟩, ⟨_, rfl, by decide⟩, ⟨_, rfl, by decide⟩⟩
theorem witness_FieldReads_q : base.cur.q0 = [] ∧ base.cur.q1.length < 8 ∧
    (base.onCur fun t => { t with q0 := [3] }).cur.q0 = 3 :: [] ∧ 8 ≤ (base.onCur fun t => { t with q1 := List.replicate 8 0 }).cur.q1.length := by
  decide
theorem witness_FieldReads_order : ∃ x u y v, takeS [1] [] base = .ok ([x], u) ∧ takeS [2] [] u = .ok ([y], v) := ⟨_, _, _, _, rfl, rfl⟩
theorem witness_FieldReads_writes : (∀ f ∈ [(1 : Fld), 16, 25, 26], wBusy base.cur f = false) ∧
    (∃ st, strmOf (bound true 1 []).cur 16 = some st ∧ st.pat.out = true ∧ elemInb st.pat st.pos = true) ∧
    wBusy (queued true none []).cur 26 = false ∧ wBusy (bound true 1 []).cur 16 = false :=
  ⟨by decide, ⟨_, rfl, by decide⟩, by decide, by decide⟩
theorem witness_FieldReads_stop : ∃ e, takeS [16] [] base = .error e := ⟨_, rfl⟩

theorem witness_RegisterArithmetic : ∃ r, regOp (.sel 15 1 2 3) = some r ∧ (∀ f ∈ r.dst :: r.srcs, f < 16 ∧ wBusy base.cur f = false) ∧
    base.issues ∧ ∃ xs u, takeS r.srcs [r.dst] base = .ok (xs, u) := ⟨_, rfl, by decide, base_issues, _, _, rfl⟩
theorem witness_Branches : (∃ b, branchOp (.beq 1 2 (-8)) = some b ∧ ∃ x y u, takeS [b.a, b.b] [] base = .ok ([x, y], u) ∧ u.issues ∧
      b.cond x y = true ∧ 0 ≤ (base.cur.pc.toNat : Int) + 4 * b.off) ∧
    ∃ b, branchOp (.bge 1 2 (-1)) = some b ∧ ∃ x y u, takeS [b.a, b.b] [] (base.onCur fun t => { t with pc := 0 }) = .ok ([x, y], u) ∧
      b.cond x y = true ∧ ((base.onCur fun t => { t with pc := 0 }).cur.pc.toNat : Int) + 4 * b.off < 0 :=
  ⟨⟨_, rfl, _, _, _, rfl, base_issues, by decide, by decide⟩, ⟨_, rfl, _, _, _, rfl, by decide, by decide⟩⟩
theorem witness_Jumps : wBusy base.cur 15 = false ∧ 0 ≤ (base.cur.pc.toNat : Int) + 4 * (-1) ∧
    takeS [2] [1] (base.setW 2 8) = .ok ([8], base.setW 2 8) ∧ takeS [2] [1] (base.setW 2 2) = .ok ([2], base.setW 2 2) ∧
    takeS [0] [1] base = .ok ([0], base) := ⟨by decide, by decide, rfl, rfl, rfl⟩
theorem witness_CompletionFrame : base.starts ∧ (fun t : Task => t.setW 3 5) { base.cur with paid := true } =
    { base.cur.setW 3 5 with paid := true } ∧ (base.cur.setW 3 5).st = .running ∧ (base.cur.setW 3 5).wait = none ∧
    (base.cur.setW 3 5).wp = base.cur.wp := ⟨base_starts, rfl, rfl, rfl, rfl⟩
theorem witness_PrivateLoads : takeS [0] [1] base = .ok ([0], base) ∧ base.inTcm 0 (address 0 8 8) 8 ∧ tcmBusy base 64 8 = false ∧
    anyPoison base.core.tcmPoison 64 8 = false ∧ address 1 0 8 % 8 ≠ 0 ∧ address 0 (-1) 8 < 0 ∧ isSpill base 0 (address 0 (-1) 8) = false ∧
    base.inTcm 0 (address 0 0 8) 8 ∧ storeRefused26 base (address 0 0 8).toNat 8 = true :=
  ⟨rfl, ⟨by decide, by decide, by decide, by decide⟩, by decide, by decide, by decide, by decide, by decide,
    ⟨by decide, by decide, by decide, by decide⟩, by decide⟩
theorem witness_PrivateStore : ∃ u, takeS [0, 1] [] base = .ok ([0, 0], u) ∧ u.starts ∧ u.memOk = true ∧ u.cur.slot.isSome = true ∧
    u.inTcm 0 (address 0 0x1000 8) 8 ∧ storeRefused112 u u.cur.priv 0x8000 8 = false ∧ storeRefused26 u 0x8000 8 = false ∧
    tcmBusyW u 0x8000 8 = false :=
  ⟨_, rfl, base_starts, by decide, by decide, ⟨by decide, by decide, by decide, by decide⟩, by decide, by decide, by decide⟩
/-- A page that stage 1 and stage 2 let a task read and write. -/
def mapped : State := base.onCore fun c => { c with dtlb := [{ fetchTlb base with va := 0x200000 }] }
def spilling : State := { mapped.setW 14 0x200 with launch := { mapped.launch with spillovf := 0x8000 } }
theorem witness_SpillOverflow : takeS [14] [1] (base.setW 14 0x200) = .ok ([0x200], base.setW 14 0x200) ∧
    (base.setW 14 0x200).spillovf = 0 ∧
    (let bot : Int := (base.spillBot base.cur.frame : Int); bot - 65536 ≤ address 0x200 0 8 ∧ address 0x200 0 8 < bot) ∧
    spilling.spillovf ≠ 0 ∧ (∃ pa e u, translate .load 0x20FE00 spilling = .ok (pa, e, u) ∧ lostRead u pa = false ∧
      refusedAt u u.core.vf pa = false ∧ anyPoison u.home.poison pa 8 = false) ∧
    ∃ pa e u, translate .store 0x20FE00 spilling = .ok (pa, e, u) ∧ lostTo u pa = false ∧ refusedAt u u.core.vf pa = false :=
  ⟨rfl, by decide, by decide, by decide, ⟨_, _, _, rfl, by decide, by decide, by decide⟩, ⟨_, _, _, rfl, by decide, by decide⟩⟩

def shared : State := mapped.setW 2 0x200000
theorem reaches_load : ∃ u e pa, shared.Reaches .load 1 (address 0x200000 0 8) 8 u e pa ∧ (ownBytes u pa 8).all (·.isSome) = false ∧
    (u.core.vcache.find? fun l => l.line == pa / 64) = none ∧ u.cur.loads.length < 16 ∧ wordInFlight u.cur pa 8 = false ∧
    lostRead u pa = false ∧ refusedAt u u.core.vf pa = false ∧ anyPoison u.home.poison pa 8 = false :=
  ⟨_, _, _, ⟨by decide, by decide, by decide, rfl, by decide, by decide⟩, by decide, by decide, by decide, by decide, by decide,
    by decide, by decide⟩
theorem witness_SharedLoads : shared.starts ∧ scopeOk shared 1 = true ∧ takeS [2] [1] shared = .ok ([0x200000], shared) ∧
    aqPending shared.cur = false ∧ badPush shared.cur = none ∧ sharedPushes shared.cur = [] := ⟨⟨rfl, rfl, rfl⟩, by decide, rfl, by decide, by decide, by decide⟩
/-- The same with the line of its page in the view cache. -/
def cached : State := shared.onCore fun c => { c with vcache := [{ line := 0x200000 / 64, data := List.replicate 64 0, poison := [] }] }
theorem witness_SharedLoads_line : ∃ u e, cached.Reaches .load 1 (address 0x200000 0 8) 8 u e 0x200000 ∧ (ownBytes u 0x200000 8).all (·.isSome) = false ∧
    (u.core.vcache.find? fun l => l.line == 0x200000 / 64) = some { line := 32768, data := List.replicate 64 0, poison := [] } ∧
    freshHome u 0x200000 1 = false ∧ wordInFlight u.cur 0x200000 8 = false :=
  ⟨_, _, ⟨by decide, by decide, by decide, rfl, by decide, by decide⟩, by decide, by decide, by decide, by decide⟩
def recorded8 : State := shared.onCur fun t => { t with recs := [{ pa := 0x200000, data := [1, 2, 3, 4, 5, 6, 7, 8], idx := 0, marked := false, ovf := false }] }
theorem witness_SharedLoads_own : ∃ u e pa, recorded8.Reaches .load 1 (address 0x200000 0 8) 8 u e pa ∧ (ownBytes u pa 8).all (·.isSome) = true :=
  ⟨_, _, _, ⟨by decide, by decide, by decide, rfl, by decide, by decide⟩, by decide⟩
def pendLoad (reply : Option (Option (List Byte))) (vec : Bool) : State := shared.onCur fun t => { t with loads := [
  { vec := vec, dst := 1, sz := 8, sext := true, pa := 0x31000000000, own := List.replicate 8 none, fill := true, reply := reply, poisoned := false }] }
theorem witness_LoadArrives : ∃ l, (pendLoad none false).cur.loads[0]? = some l ∧ (pendLoad none false).cur.frame = 0 ∧
    (pendLoad none false).cur.shadow = false ∧ l.reply = none ∧ loadMay 0 (pendLoad none false).cur = true ∧ secondary (pendLoad none false) = false ∧ lostRead (pendLoad none false) l.pa = false ∧
    refusedAt (pendLoad none false) (pendLoad none false).core.vf l.pa = false ∧ anyPoison (pendLoad none false).home.poison l.pa l.sz = false :=
  ⟨_, rfl, rfl, rfl, rfl, by decide, by decide, by decide, by decide, by decide⟩
theorem witness_LoadArrives_reply : (∃ l, (pendLoad (some (some [1])) false).cur.loads[0]? = some l ∧ l.reply = some (some [1]) ∧ l.vec = false ∧ l.sz ∈ [1, 2, 4, 8]) ∧
    ∃ l, (pendLoad (some (some [1])) true).cur.loads[0]? = some l ∧ l.reply = some (some [1]) ∧ l.vec = true :=
  ⟨⟨_, rfl, by decide⟩, ⟨_, rfl, by decide⟩⟩
theorem witness_SharedStores : ∃ u, takeS [2, 1] [] shared = .ok ([0x200000, 0], u) ∧ u.starts ∧ ∃ v e pa, u.Reaches .store 1 (address 0x200000 0 8) 8 v e pa ∧
    16 + (if (v.cur.recs.filter fun r => !r.ovf).isEmpty then 32 else 0) ≤ logFree v ∧ shared.core.segCtr < 2 ^ 40 ∧ paired shared = false :=
  ⟨_, rfl, ⟨rfl, rfl, rfl⟩, _, _, _, ⟨by decide, by decide, by decide, rfl, by decide, by decide⟩, by decide, by decide, by decide⟩
theorem witness_Atomics : ∃ u, takeS [2, 3] [1] shared = .ok ([0x200000, 0], u) ∧ u.starts ∧ scopeOk shared 1 = true ∧
    ∃ v e pa, u.Reaches .amo 1 0x200000 8 v e pa :=
  ⟨_, rfl, ⟨rfl, rfl, rfl⟩, by decide, _, _, _, ⟨by decide, by decide, by decide, rfl, by decide, by decide⟩⟩
def pendAmo (ret : Option Word) : State := shared.onCur fun t => { t with amos := [
  { dst := 1, req := { op := 0, s32 := false, pa := 0x31000000000, v := 3, e := 0 }, after := none, aq := false, ret := ret, failed := false,
    poisoned := false, num := 0 }] }
theorem witness_AtomicAtHome : ∃ a, (pendAmo none).memOk = true ∧ amoWaits 0 0 (pendAmo none).cur = true ∧ (pendAmo none).cur.amos[0]? = some a ∧
    amoMay (pendAmo none) (pendAmo none).cur 0 a = true ∧ a.req.op < 11 ∧ lostRead (pendAmo none) a.req.pa = false ∧
    refusedAt (pendAmo none) (pendAmo none).core.vf a.req.pa = false ∧ anyPoison (pendAmo none).home.poison a.req.pa 8 = false :=
  ⟨_, by decide, by decide, rfl, by decide, by decide, by decide, by decide, by decide⟩
theorem witness_AtomicAtHome_stops :
    lostTo { pendAmo none with home := { (pendAmo none).home with deadLinks := [(0, 1)] } } 0x5000000000 = true ∧
    refusedAt { pendAmo none with home := { (pendAmo none).home with deadMask := 1 } } 0 0x31000000000 = true ∧
    anyPoison [0x31000000000 / 8] 0x31000000000 8 = true := by decide
theorem witness_AtomicReturns : ∃ a, (pendAmo (some 4)).cur.amos[0]? = some a ∧ a.ret = some 4 := ⟨_, rfl, rfl⟩
def engWrite : EngWrite := { pa := 0x31000000008, data := [1, 2], key := { stamp := 5, writer := 1, seg := 1, part := 1, idx := 0 }, vf := 0, launchTag := 3 }
theorem witness_KeyedWrites : base.memOk = true ∧ refusedFrom base (clusterOf (engWrite.key.writer / 8)) (BitVec.ofNat 6 engWrite.vf) engWrite.pa = false ∧
    engWrite.pa % 8 + engWrite.data.length ≤ 8 ∧ tabGet? base.home.tags (engWrite.pa / 8) = none ∧
    (∃ t, tabGet? { base.home with tags := [(engWrite.pa / 8, { launch := 3, key := engWrite.key })] }.tags (engWrite.pa / 8) = some t ∧
      t.launch = engWrite.launchTag ∧ wkeyLt t.key engWrite.key = false) ∧
    (0 ≤ commitFig base ∧ 0 ≤ localLow base) ∧ localLow base < 2 ^ 48 - 1 :=
  ⟨by decide, by decide, by decide, by decide, ⟨_, rfl, by decide⟩, by decide, by decide⟩
def sealedAt (parts : List SegPart) : State := base.onCore fun c => { c with sealed := [
  { num := 4, stamp := 7, tid := 0, origin := 0, scope := 1, bytes := 48, shipped := !parts.isEmpty, parts := parts,
    recs := [{ pa := 0x31000000000, data := [1, 2, 3, 4, 5, 6, 7, 8], idx := 0, marked := false, ovf := false }], upTo := 0, lostIdx := [] }] }
theorem witness_SegmentSteps : (∃ g, nextShip (sealedAt []) = some g ∧ g ∈ (sealedAt []).core.sealed) ∧
    (∃ g p r, (sealedAt (partsOf [⟨0x31000000000, [1], 0, false, false⟩])).core.sealed[0]? = some g ∧ g.parts[0]? = some p ∧ p.st = 0 ∧ p.recs = [r] ∧ mayAct (.part 4 0) base = true ∧ secondary base = false ∧
      lostTo base r.pa = false ∧ refusedAt base base.core.vf r.pa = false) ∧
    ∃ g p, (sealedAt [⟨none, [], 1, false⟩]).core.sealed[0]? = some g ∧ g.parts[0]? = some p ∧ p.st = 1 ∧ ∀ q ∈ g.parts.eraseIdx 0, q.st = 2 :=
  ⟨⟨_, rfl, by decide⟩, ⟨_, _, ⟨0x31000000000, [1], 0, false, false⟩, rfl, rfl, rfl, rfl, by decide, by decide, by decide, by decide⟩,
    ⟨_, _, rfl, rfl, rfl, by decide⟩⟩
theorem witness_Acquire : (∃ p ns, base.named (.acq 1 1) = some (p, ns) ∧ scopeOk base p = true ∧ (acqCores base p ns).filter (fun c => c != base.core.id) = [] ∧
      ownAcked ((awaited base base.core.id).map (·.num)) base = true ∧ base.cur.loads = []) ∧
    (∃ p ns, shared.named (.acqTm 1 2 1) = some (p, ns)) ∧ (∃ p ns, (base.setW 2 1).named (.acqMap 1 2 1) = some (p, ns)) ∧ base.starts ∧
    wBusy base.cur 1 = false ∧ Min.min ((base.rw 1).toNat % 2 ^ 48) base.cur.stamp.toNat ≤ base.tile.commit :=
  ⟨⟨_, _, rfl, by decide, by decide, by decide, by decide⟩, ⟨_, _, rfl⟩, ⟨_, _, rfl⟩, base_starts, by decide, by decide⟩
/-- A load is outstanding. -/
def loading : State := pendLoad none false
theorem witness_Acquire_waits : (∃ ns, loading.named (.acq 3 1) = some (1, ns)) ∧ scopeOk loading 1 = true ∧ loading.starts ∧ loading.cur.loads ≠ [] ∧
    Min.min ((loading.rw 1).toNat % 2 ^ 48) loading.cur.stamp.toNat ≤ loading.tile.commit ∧
    (let s := base.onCur fun t => { t with stamp := 5, w := t.w.set 1 9 }
     s.tile.commit < Min.min ((s.rw 1).toNat % 2 ^ 48) s.cur.stamp.toNat) :=
  ⟨⟨_, rfl⟩, by decide, ⟨rfl, rfl, rfl⟩, by decide, by decide, by decide⟩
def acquiring (cs : List (BitVec 13)) : State := base.onCur fun t => { t with wait := some (.acq cs [] []), st := .waitMem }
theorem witness_AcquireAnswers : coreInScope 1 1 base.core.id = true ∧ awaited base 1 = [] ∧ awaited (sealedAt []) 1 ≠ [] ∧
    (acquiring [9]).cur.wait = some (.acq [9] [] []) ∧ (acquiring [9]).cur.st ≠ .ended ∧ (acquiring [9]).cur.shadow = false ∧
    (acquiring []).cur.wait = some (.acq [] [] []) ∧ ownAcked [] (acquiring []) = true ∧ (acquiring []).cur.loads = [] ∧
    (let s := base.onCur fun t => { t with wait := some (.acqBelow 0) }
     s.cur.wait = some (.acqBelow 0) ∧ 0 ≤ s.tile.commit ∧ s.cur.loads = []) ∧
    (let s := base.onCur fun t => { t with wait := some (.acqBelow 7) }
     ∃ y ∈ s.tasks, y.wait = some (.acqBelow 7) ∧ s.tile.commit < 7) :=
  ⟨by decide, by decide, by decide, rfl, by decide, rfl, rfl, by decide, rfl, by decide, _, List.mem_cons_self .., rfl, by decide⟩
theorem witness_Fences : takeS [] [1] base = .ok ([], base) ∧ base.starts ∧ scopeOk base 1 = true ∧ badPush base.cur = none ∧
    sharedPushes base.cur = [] ∧ fenceDone ((base.paid .ord).published 1) base.cur.openSeg = true :=
  ⟨rfl, base_starts, by decide, by decide, by decide, by decide⟩
def fencing (w : Wait) (n : Nat) : State := shared.onCur fun t => { t with wait := some w, fails := n, failDead := decide (0 < n) }
theorem witness_Fences_flag : (∃ v, takeS [3] [1] shared = .ok ([v], shared)) ∧ wBusy shared.cur 2 = false ∧ shared.starts ∧
    (shared.rw 2).toNat % 8 = 0 ∧ (shared.rw 2).toNat < 2 ^ 56 ∧ ∃ e w, translateAt .amo 1 0x200000 shared = .ok (0x200000, e, w) ∧
      fenceDone ((w.paid .ord).published 1) shared.cur.openSeg = true ∧ anyFail ((w.paid .ord).published 1).cur = false :=
  ⟨⟨_, rfl⟩, by decide, ⟨rfl, rfl, rfl⟩, by decide, by decide, _, _, rfl, by decide, by decide⟩
theorem witness_Fences_outstanding : fenceDone ((loading.paid .ord).published 1) loading.cur.openSeg = false ∧ loading.starts :=
  ⟨by decide, rfl, rfl, rfl⟩
theorem witness_Fences_wait : (fencing (.fence 0 none) 1).cur.wait = some (.fence 0 none) ∧ fenceDone (fencing (.fence 0 none) 1) 0 = true ∧
    (∀ n, fenceDone (fencing (.fence 0 (some (0x31000000000, 5))) n) 0 = true) ∧ anyFail (fencing (.fence 0 (some (0x31000000000, 5))) 1).cur = true ∧
    anyFail (fencing (.fence 0 (some (0x31000000000, 5))) 0).cur = false ∧
    (fencing (.flag 0 0x31000000000 5 true) 0).cur.wait = some (.flag 0 0x31000000000 5 true) ∧
    (let s := fencing (.flag 0 0x31000000000 5 false) 0
     s.cur.wait = some (.flag 0 0x31000000000 5 false) ∧ s.cur.shadow = false ∧ mayAct (.flag s.cur.tid s.cur.origin) s = true ∧ secondary s = false ∧
       lostTo s 0x31000000000 = false ∧ refusedAt s s.core.vf 0x31000000000 = false) :=
  ⟨rfl, by decide, fun _ => rfl, by decide, by decide, rfl, by decide⟩
theorem witness_LogInstructions : wBusy base.cur 1 = false ∧ (∀ q < 16, (base.rw 1).getLsbD q = true → queueBusy base q = false) ∧
    takeS [] [1] base = .ok ([], base) ∧ base.cur.openSeg < 2 ^ 40 ∧ base.starts ∧
    (fencing (.qfence 3) 0).cur.wait = some (.qfence 3) ∧ (∀ q < 16, (3 : Word).getLsbD q = true → queueBusy (fencing (.qfence 3) 0) q = false) :=
  ⟨by decide, by decide, rfl, by decide, base_starts, rfl, by decide⟩
def barred (b : Bar) : State := base.onTile fun t => { t with bars := t.bars.set 5 b }
theorem witness_Barriers : wBusy base.cur 1 = false ∧ base.starts ∧ (base.tile.bars[5].arr = 0 ∧ barWaited base 5 = false ∧ (base.rw 1).toNat ≤ 4095) ∧
    ((barred { init := true, count := 2 }).tile.bars[5].init = true ∧ (barred { init := true, count := 2 }).tile.bars[5].ring = false ∧
      (barred { init := true, count := 2 }).tile.bars[5].arr < 2 ∧ scopeOk base 1 = true) ∧
    (barred { init := true, count := 2, phase := 1 }).tile.bars[5].phase.toNat = 1 ∧ base.tile.bars[5].init = false :=
  ⟨by decide, base_starts, by decide, by decide, by decide, by decide⟩
theorem witness_Barriers_arrivals : (let b := (barred { init := true, count := 2, ring := true }).tile.bars[5]
      b.init = true ∧ b.ring = true ∧ b.arr < b.count) ∧
    (let s := (barred { init := true, count := 2 }).onCur fun t => { t with arrives := [(1, 5)] }
     s.cur.arrives.find? (fun x => x.2 == 5) = some (1, 5) ∧ s.cur.shadow = false) ∧
    (let s := base.onCur fun t => { t with st := .waitMsg, wait := some (.bwait 5 0) }
     s.cur.st = .waitMsg ∧ s.cur.wait = some (.bwait 5 0) ∧ (({ phase := 1 } : Bar).phase - 0).toNat ≠ 0 ∧ (({ phase := 1 } : Bar).phase - 0).toNat ≤ 32767) ∧
    segsAcked ((base.paid .bar).published 1) base.cur.openSeg = true ∧
    (let s := (sealedAt []).onCur fun t => { t with openSeg := 9 }
     segsAcked ((s.paid .bar).published 1) s.cur.openSeg = false) := by decide
theorem witness_HeldOperations : base.cur.esc = false ∧ coreHeld base + (Held.deposit ⟨0, 0, 1, 0, 0, 0, 0, 0⟩).bytes ≤ 8192 := by decide
/-- A link of class 0 from this tile to itself, in a partition of function 0. -/
def linked : State := { base with
  tile := { base.tile with lah := [(0, 2)], outLinks := [{ dst := 0, cls := 0, sent := 0, pipped := false, kept := none }] },
  launch := { base.launch with links := [{ cls := 0, from0 := 0, from1 := 0, to0 := 0, to1 := 0 }], lahDecl := [(0, 2)] } }
theorem witness_SendInstructions : wBusy base.cur 1 = false ∧ sendTrap (linked.setW 3 9) 0 0 9 = none ∧ sendTrap base (2 ^ 20) 0 0 = some (4, 2 ^ 20) := by decide
theorem reads_words {r : Res (List Word)} {P : List Word → Bool} (h : (match r with | .ok x => P x | .error _ => false) = true) :
    ∃ ws, r = .ok ws ∧ P ws = true := by
  split at h
  · next x => exact ⟨x, rfl, h⟩
  · cases h
/-- A descriptor of `linked`: word by word from 0x8000 on. -/
def described (ws : List Nat) : State := linked.onCore fun c => { c with tcm := memPutN c.tcm 0x8000 (ws.map fun w => leBytes 8 w).flatten }
theorem witness_SendInstructions_memory : (∃ ws, readDesc 0x8000 4 (described [0, 0x400, 9, 2 ^ 32 * 8 + 0x9000]) = .ok ws ∧
      (match descPayload 0x8000 (wordsAt ws 3) (wordsAt ws 2) (described [0, 0x400, 9, 2 ^ 32 * 8 + 0x9000]) with | .ok _ => true | .error _ => false) = true) ∧
    (∃ ws, readDesc 0x8000 5 (described [0, 0x400, 9, 2 ^ 32 * 8 + 0x9000, 0]) = .ok ws ∧ (wordsAt ws 4 == 0) = true) ∧
    ∃ ws, readDesc 0x8000 5 (described [1, 0x400, 9, 2 ^ 32 * 8 + 0x9000, 1]) = .ok ws ∧ decide (wordsAt ws 4 ≠ 0 ∧ (wordsAt ws 0).extractLsb' 0 16 ≠ 0 ∧
      outsideClusters linked (wordsAt ws 4) = 0 ∧ hasLink linked 0 ((wordsAt ws 0).extractLsb' 16 4) = true ∧ (wordsAt ws 0).toNat < 2 ^ 20) = true :=
  ⟨reads_words (by decide), reads_words (by decide), reads_words (by decide)⟩
theorem witness_TileMessages : depositOk 0x1000000 base = true ∧ depositOk 0 base = false ∧
    base.cur.partCtr + 1 < 2 ^ 32 - 1 ∧ (nredUnit base 0).2 = true ∧
    (nredUnit { base with launch := { base.launch with slices := 4 } } 5).2 = false ∧ redResult base 0 = none ∧
    (redResult { base with tile := { base.tile with redTab := [(0, { tag := 0, op := 0, s32 := false, value := 7, late := false, miss := 0, laten := 0 })] } } 0).isSome = true := by decide
theorem witness_Spawn : (base.rw 1).toNat % 4 = 0 ∧ (base.rw 1).toNat < 2 ^ 56 ∧ base.cur.stamp.toNat ≤ (base.rw 2).toNat ∧
    (base.rw 2).toNat < 2 ^ 48 - 1 ∧ ((2 : Word).toNat % 4 ≠ 0) := by decide
theorem witness_EndOfTask : base.cur.shadow = false ∧ badPush base.cur = none ∧ undrained base.cur = [] ∧
    undrained (bound true 1 [] |>.onCur fun t => setStrm 16 (some { pat := pat true 1, tcm := true, pos := 1, fetched := [], pushed := [⟨0, 1, 0⟩], bad := none }) t).cur ≠ [] := by
  decide
theorem witness_EndOfTask_shadow : (base.onCur fun t => { t with shadow := true }).starts ∧ base.starts := ⟨⟨rfl, rfl, rfl⟩, base_starts⟩
theorem witness_TaskInstructions_yield : (slotless [{ base.cur with st := .ready, slot := none }]).isSome = true := by decide
theorem witness_TaskInstructions : base.cur.hvy = false ∧ slotless base.rest = none ∧ events base 0 = 0 ∧
    (base.onCur fun t => { t with wait := some (.event 0 true true) }).cur.wait = some (.event 0 true true) ∧
    (base.onCur fun t => { t with wait := some (.sweep 0) }).cur.wait = some (.sweep 0) ∧ 0 ≤ base.tile.sweepsEnded := by decide
theorem witness_SetLookahead : lahOf base 0 = none ∧ lahOf linked 0 = some 2 ∧ ((3 : Word).toNat < 2 ^ 48 - 1) := by decide
/-- A migratory launch with one leaf on each core of the first tile. -/
def launched : State := { base with launch := { base.launch with migratory := true, leaves := [⟨0, 0, 7, 0, 1⟩] } }
theorem witness_Migrate : migHeld base = false ∧ migRefused base = true ∧ migRefused launched = false ∧ migCoreOk launched 3 = true ∧
    migCoreOk launched (2 ^ 13) = false ∧ launched.starts ∧ badPush launched.cur = none ∧ sharedPushes launched.cur = [] ∧
    segsAcked ((launched.paid .task).published (defaultScope launched)) launched.cur.openSeg = true ∧ written launched.cur = true ∧
    mayAct (.mig launched.cur.tid launched.cur.origin) launched = true ∧ written loading.cur = false :=
  ⟨by decide, by decide, by decide, by decide, by decide, ⟨rfl, rfl, rfl⟩, by decide, by decide, by decide, by decide, by decide, by decide⟩
theorem witness_Migrate_leaves : (∀ d, (fencing (.leave 0 (some d)) 0).cur.wait = some (.leave 0 (some d)) ∧ segsAcked (fencing (.leave 0 (some d)) 0) 0 = true ∧
      written (fencing (.leave 0 (some d)) 0).cur = true) ∧
    (let s := { launched with core := { launched.core with dtlb := [{ fetchTlb base with va := 0x200000, pa := 0x5000000000 }] } }.setW 2 0x200000
     migRefused s = false ∧ (s.rw 2).toNat < 2 ^ 56 ∧ ∃ pa e u, translate .load (s.rw 2).toNat s = .ok (pa, e, u) ∧ migDest u pa = none) :=
  ⟨fun _ => ⟨rfl, rfl, rfl⟩, by decide, by decide, _, _, _, rfl, by decide⟩
/-- Words in TCM, from address 0x8000 on. -/
def ctl (ws : List Nat) : State := base.onCore fun c => { c with tcm := memPutN c.tcm 0x8000 (ws.map fun w => leBytes 8 w).flatten }
def ctlAddr : Word := 0x8000000000008000
theorem witness_StreamInstructions : wBusy base.cur 1 = false ∧
    (∃ bs, readBlock ctlAddr 32 3 (ctl [0x200000000000040]) = .ok (bs, ctl [0x200000000000040]) ∧
      ¬ (2 ^ 62 ≤ leNat (bs.take 8) ∨ leNat (bs.take 8) / 2 ^ 59 % 2 = 1 ∨ 2 ^ 48 ≤ (patternOf bs).len) ∧
      (patternOf bs).base % 2 ^ (patternOf bs).sz = 0 ∧ ∀ x ∈ (patternOf bs).strides, x % (2 ^ (patternOf bs).sz : Nat) = 0) ∧
    (∃ bs, readBlock ctlAddr 32 3 (ctl [0x200000000000041]) = .ok (bs, ctl [0x200000000000041]) ∧
      ¬ (patternOf bs).base % 2 ^ (patternOf bs).sz = 0) ∧
    (∃ bs, readBlock ctlAddr 32 3 (ctl [0x4000000000000000]) = .ok (bs, ctl [0x4000000000000000]) ∧ 2 ^ 62 ≤ leNat (bs.take 8)) ∧
    strmOf base.cur 16 = none ∧ (∃ st, strmOf (bound true 2 []).cur 16 = some st ∧ st.bad = none ∧ st.pushed = []) ∧
    takeS [] [1] (bound true 2 []) = .ok ([], bound true 2 []) :=
  ⟨by decide, ⟨_, rfl, by decide, by decide⟩, ⟨_, rfl, by decide⟩, ⟨_, rfl, by decide⟩, rfl, ⟨_, rfl, by decide⟩, rfl⟩
theorem witness_StreamInstructions_queue : queueOf base.cur 26 = none ∧ qbindMalformed 0x4000000000000002 = false ∧
    (0x4000000000000002 : Word).getLsbD 62 = true ∧ qbindMalformed 0x8000000000030009 = false ∧ inPartition base (tileOf 9) = true ∧
    (∃ q, queueOf (queued false none []).cur 26 = some q ∧ (queued false none []).cur.paid = false ∧ ¬ (q.outb = true ∧ q.words ≠ [])) ∧
    ∃ q, queueOf (queued true none (List.replicate 8 0)).cur 26 = some q ∧ q.outb = true ∧ q.words ≠ [] ∧ q.parts = [] :=
  ⟨rfl, by decide, by decide, by decide, by decide, ⟨_, rfl, by decide⟩, ⟨_, rfl, by decide⟩⟩
theorem reads {d : Word} {a k : Nat} {s : State} {P : List Byte → State → Bool}
    (h : (match readBlock d a k s with | .ok x => P x.1 x.2 | .error _ => false) = true) :
    ∃ bs u, readBlock d a k s = .ok (bs, u) ∧ P bs u = true := by
  split at h
  · next x hx => exact ⟨x.1, x.2, hx, h⟩
  · cases h
def copyFits (bs : List Byte) (u : State) : Bool :=
  let src := patternOf (bs.take 96)
  let dst := patternOf ((bs.drop 96).take 96)
  decide (patMalformed (bs.take 96) src = false ∧ src.sz = dst.sz ∧ src.len = dst.len ∧ patAligned src = true ∧ patAligned dst = true ∧
    (leWord (bs.take 8)).toNat % 64 = 0 ∧ u.cur.paid = false ∧ u.cur.partCtr + 1 < 2 ^ 32 - 1)
def copyOff (bs : List Byte) (_ : State) : Bool :=
  decide ((patternOf (bs.take 96)).sz ≠ (patternOf ((bs.drop 96).take 96)).sz ∧ (leWord (bs.take 8)).toNat % 64 ≠ 0)
theorem witness_TransferInstructions_fits : ∃ bs u, readBlock ctlAddr 64 8 base = .ok (bs, u) ∧ copyFits bs u = true := reads (by decide)
theorem witness_TransferInstructions_off : ∃ bs u, readBlock ctlAddr 64 8 (ctl [0x200000000000041]) = .ok (bs, u) ∧ copyOff bs u = true :=
  reads (by decide)
theorem witness_TransferInstructions : takeS [] [1] base = .ok ([], base) ∧ base.cur.inu = false ∧
    (base.onCur fun t => { t with inu := true }).cur.inu = true := ⟨rfl, by decide, by decide⟩
theorem witness_BlockInstructions : base.starts ∧ base.cur.partCtr + 1 < 2 ^ 32 - 1 ∧ (∃ pa e u, translateAt .amo 0 0x200000 shared = .ok (pa, e, u)) ∧
    (base.onCur fun t => { t with wait := some (.block none (some ⟨0x09, 1, 4, none⟩)) }).cur.wait = some (.block none (some ⟨0x09, 1, 4, none⟩)) ∧
    (base.onCur fun t => { t with wait := some (.block (some 4) none) }).cur.wait = some (.block (some 4) none) ∧
    (∃ ws, readWords (ctl [0, 0x800000000000, 0x900000000040]) 0x8000 3 = .ok ws ∧ (wordsAt ws 1).toNat / 2 ^ 32 % 64 = 0 ∧
      (wordsAt ws 2).toNat % 2 ^ 32 = 64 ∧ storeRefused112 base base.cur.priv 0x8000 64 = false ∧ storeRefused112 base base.cur.priv 0x9000 8 = false) ∧
    (∃ ws, readWords (ctl [0, 0x800100000000, 64]) 0x8000 3 = .ok ws ∧ (wordsAt ws 1).toNat / 2 ^ 32 % 64 ≠ 0) ∧
    (base.vfReg base.core.vf).btbase = 0 ∧ ((base.setVf 0 { base.vfReg 0 with btbase := 1, btcnt := 4 }).vfReg 0).btcnt = 4 :=
  ⟨base_starts, by decide, ⟨_, _, _, rfl⟩, rfl, rfl, ⟨_, rfl, by decide⟩, ⟨_, rfl, by decide⟩, by decide, by decide⟩
theorem witness_ControlRegisters : csrAllowed .write 0x100 1 2 0 = false ∧ csrAllowed .write 0x101 1 2 0 = true ∧ csrMatrix 0x101 = false ∧
    takeS [2] [1] base = .ok ([0], base) ∧ base.issues ∧ csrAllowed .write 0x401 1 2 0 = true ∧ csrAllowed .clear 0x402 1 2 0 = true ∧
    csrHeavy 0x401 = true ∧ (∀ c ∈ base.core.mx.queue, c.started = true) :=
  ⟨by decide, by decide, by decide, rfl, base_issues, by decide, by decide, by decide, by decide⟩
/-- Stage 1 maps the first 64 GB to themselves. -/
def paged : State :=
  let put (a : Nat) (w : Nat) (s : State) : State := s.onHome fun h => { h with mem := memPutN h.mem a (leBytes 8 w) }
  (put 0x31000002000 0x31000004001 (put 0x31000004000 0x400000000000003F base)).setAsid 0 0 { root := 0x31000002000, gen := 0, count := 1 }
def recorded (next cap : Nat) : State :=
  let s := { paged with launch := { paged.launch with errrec := 0x300000 } }
  s.onHome fun h => { h with mem := memPutN h.mem 0x300000 (leBytes 8 next ++ leBytes 8 cap) }
theorem witness_TrapEntry : base.cur.shadow = false ∧ base.trapvec = 0 ∧
    ({ base with launch := { base.launch with trapvec := 0x500 } } : State).trapvec ≠ 0 ∧ base.cur.traps = [] ∧ anyFail base.cur = false ∧ base.launch.errrec = 0 ∧ (recorded 0 4).tile.errQ = [] ∧
    agentXlat (recorded 0 4) 0x300000 = some 0x300000 ∧ refusedAt (recorded 0 4) (recorded 0 4).core.vf 0x300000 = false ∧
    anyPoison (recorded 0 4).home.poison 0x300000 32 = false ∧ Memory.wf (recorded 0 4).home.mem = true ∧
    agentXlat (recorded 0 4) (0x300000 + 32 + 32 * 0) = some 0x300020 ∧
    leNat (memGetN (recorded 0 4).home.mem 0x300008 8) = 4 ∧ leNat (memGetN (recorded 4 4).home.mem 0x300000 8) = 4 := by decide
def service : State := base.onCur fun t => { t with priv := 1 }
theorem witness_SystemInstructions : base.cur.priv = 0 ∧ service.cur.priv ≠ 0 ∧ service.cur.wait = none ∧ wBusy service.cur 1 = false ∧ service.core.vf = 0 ∧
    (service.vfReg 1).cause = 0 ∧ (stopVf 1 2 service |>.vfReg 1).cause ≠ 0 ∧ scLog service = false ∧
    scLog (service.onCore fun c => { c with dbgctl := 8 }) = true ∧ brkEn service = false ∧
    (let s := service.onCore fun c => { c with dbgctl := 1 }
     brkEn s = true ∧ brkTask s = false ∧ matchesDbg (s.vfReg s.core.vf) s.cur = true ∧ s.cur.shadow = false) ∧
    (service.onCur fun t => { t with wait := some (.translations 0) }).cur.wait = some (.translations 0) ∧
    (service.onCore fun c => { c with vf := 2 }).core.vf ≠ 0 := by decide
theorem witness_AddressSpace : service.starts ∧ inFlight service = false ∧ inFlight { service with rest := [{ base.cur with wait := some (.walk 0 .load false) }] } = true ∧
    (service.asidEnt service.core.vf 3).count = 0 ∧ (0x31000002000 : Word).toNat % 8192 = 0 ∧ (0x31000002000 : Word).toNat < 2 ^ 52 ∧
    (service.asidEnt 0 3).gen ≠ 15 ∧ (service.onCur fun t => { t with wait := some (.translations 3) }).cur.wait = some (.translations 3) ∧
    0 < ((service.setAsid 0 3 { root := 0, gen := 0, count := 2 }).asidEnt service.core.vf 3).count ∧ (3 : BitVec 16) ≠ service.core.asid :=
  ⟨⟨rfl, rfl, rfl⟩, by decide, by decide, by decide, by decide, by decide, by decide, by decide, by decide, by decide⟩
theorem witness_SwapWorkspace : service.launch.live = false ∧ (∀ t ∈ service.rest, ¬ (t.st ≠ .ended ∧ t.wp.toNat = 0x8000)) ∧
    tcmBusy service 0x8000 128 = false ∧ anyPoison service.core.tcmPoison 0x8000 128 = false ∧ Memory.wf service.core.tcm = true ∧
    service.cur.wp.toNat ≠ 0x8000 ∧ service.cur.wp.toNat % 128 = 0 ∧ service.cur.shadow = false ∧ (∀ f, wBusy service.cur f = false) := by decide
theorem witness_FaultReply : service.starts ∧ badPush service.cur = none ∧ sharedPushes service.cur = [] ∧
    segsAcked ((service.paid .sys).published 5) service.cur.openSeg = true ∧ ((0 : Word).extractLsb' 6 6).toNat = service.clusterId ∧
    (service.onCur fun t => { t with wait := some (.reply 0 0 1) }).cur.wait = some (.reply 0 0 1) :=
  ⟨⟨rfl, rfl, rfl⟩, by decide, by decide, by decide, by decide, rfl⟩
theorem witness_VectorElements : ∃ r, vecOp (.vadd 1 2 3 false false false 0) = some r ∧
    ∃ vs xs u, takeV r.vsrcs r.srcs (some (r.dst, r.part)) [] base = .ok (vs, xs, u) := ⟨_, rfl, _, _, _, rfl⟩
theorem witness_VectorScalars : (∃ vs xs u, takeV [1, 2] [] none [] base = .ok (vs, xs, u)) ∧ takeS [2] [1] base = .ok ([0], base) ∧
    (∃ vs xs u, takeV [1] [2] none [3] base = .ok (vs, xs, u)) ∧ (∃ r, reduces (.vrsum 1 false 0) = some r) ∧ base.cur.xrPend.length < 15 ∧
    (∃ vs xs u, takeV [1, 2] [] (some (3, true)) [] base = .ok (vs, xs, u)) ∧
    (let d := ((0 : BitVec 4).toNat + 16 - base.cur.xseq.toNat) % 16
     d = 0) ∧
    (let s := base.onCur fun t => { t with xrPend := [{ val := 9 }] }
     (((1 : BitVec 4).toNat + 16 - s.cur.xseq.toNat) % 16 = 1 ∧ s.cur.xrPend.length = 1 ∧ s.cur.wait ≠ some (.xget s.cur.xseq) ∧ s.cur.st ≠ .ended)) :=
  ⟨⟨_, _, _, rfl⟩, rfl, ⟨_, _, _, rfl⟩, ⟨_, rfl⟩, by decide, ⟨_, _, _, rfl⟩, by decide, by decide⟩
def outward : State :=
  base.onCur (setStrm 16 (some { pat := { pat true 1 with base := 0x8000 }, tcm := true, pos := 0, fetched := [], pushed := [], bad := none }))
def columned : State := base.onCur fun t => { t with vtPend := [{ num := 1, vd := 3, src := 0, fn := 0, mask := 0xFFFF }] }
theorem witness_ColumnUnit : (∃ vs xs u, takeV [1] [] (some (2, false)) [] base = .ok (vs, xs, u)) ∧
    (∃ vs xs u, takeV [1] [] (some (16, false)) [] outward = .ok (vs, xs, u)) ∧
    ((base.tasks.map (·.vtPend)).flatten).length < 4 ∧ (∃ r, columned.cur.vtPend = r :: [] ∧ ∀ x ∈ (columned.tasks.map (·.vtPend)).flatten, r.num ≤ x.num) :=
  ⟨⟨_, _, _, rfl⟩, ⟨_, _, _, rfl⟩, by decide, ⟨_, rfl, by decide⟩⟩
theorem witness_VectorMemory : base.starts ∧ takeV [] [2] (some (1, false)) [] base = .ok ([], [0], base) ∧
    base.inTcm 2 (address 0 (0x8000 / 64) 64) 64 ∧ tcmBusy base 0x8000 64 = false ∧ anyPoison base.core.tcmPoison 0x8000 64 = false ∧
    (∃ d u, takeV [1] [2] none [] base = .ok ([d], [0], u) ∧ u.starts ∧ u.memOk = true ∧ u.cur.slot.isSome = true ∧ tcmBusyW u 0x8000 64 = false) ∧
    storeRefused112 base base.cur.priv 0x8000 64 = false ∧ storeRefused26 base 0x8000 64 = false :=
  ⟨base_starts, rfl, ⟨by decide, by decide, by decide, by decide⟩, by decide, by decide,
    ⟨_, _, rfl, ⟨rfl, rfl, rfl⟩, by decide, by decide, by decide⟩, by decide, by decide⟩
theorem witness_VectorMemory_gather : (∃ vi x u, takeV [3] [2] (some (1, false)) [] (base.setW 2 0x8000) = .ok ([vi], [x], u) ∧
      x.toNat % (fmtWidth 0 / 8) = 0 ∧ ∀ y ∈ gathers (fmtWidth 0) false 0 x vi, y.2 + fmtWidth 0 / 8 ≤ 131072 ∧
        tcmBusy base y.2 (fmtWidth 0 / 8) = false ∧ anyPoison base.core.tcmPoison y.2 (fmtWidth 0 / 8) = false) ∧
    ∃ vi d x u, takeV [3, 1] [2] none [] (base.setW 2 0x8000) = .ok ([vi, d], [x], u) ∧ u.starts ∧ u.memOk = true :=
  ⟨⟨_, _, _, rfl, by decide, by decide +kernel⟩, _, _, _, _, rfl, ⟨rfl, rfl, rfl⟩, by decide⟩
theorem witness_VectorMemory_shared : shared.starts ∧ scopeOk shared 1 = true ∧
    takeV [] [2] (some (1, false)) [] shared = .ok ([], [0x200000], shared) ∧ (∃ u e pa, shared.Reaches .load 1 (address 0x200000 0 64) 64 u e pa ∧
      (ownBytes u pa 64).all (·.isSome) = false ∧ u.cur.loads.length < 16) ∧
    ∃ d u, takeV [1] [2] none [] shared = .ok ([d], [0x200000], u) ∧ ∃ v e pa, u.Reaches .store 1 (address 0x200000 0 64) 64 v e pa ∧
      80 + (if (v.cur.recs.filter fun r => !r.ovf).isEmpty then 32 else 0) ≤ logFree v :=
  ⟨⟨rfl, rfl, rfl⟩, by decide, rfl, ⟨_, _, _, ⟨by decide, by decide, by decide, rfl, by decide, by decide⟩, by decide, by decide⟩,
    _, _, rfl, _, _, _, ⟨by decide, by decide, by decide, rfl, by decide, by decide⟩, by decide⟩
def mxErr : State := base.onMatrix fun m => { m with owner := some (base.cur.tid, base.cur.origin), err := true }
theorem witness_MatrixInstructions : base.starts ∧ base.mxMine ∧ base.mxClaimed.core.mx.err = false ∧ mxErr.mxMine ∧ mxErr.mxClaimed.core.mx.err = true ∧
    base.cur.partCtr + 1 < 2 ^ 32 - 1 ∧ ((0x1FFC0 : Word).toNat % 64 = 0 ∧ (0x1FFC0 : Word).toNat < 131072) ∧ (base.bar 5).init = false ∧
    ((barred { init := true, count := 8 }).bar 5).init = true ∧ ((barred { init := true, count := 8 }).bar 5).count = 8 ∧
    storeRefused112 base base.cur.priv 0x8000 (tileLen 3) = false ∧ 0x8000 + tileLen 3 ≤ 131072 ∧ takeS [] [1] base = .ok ([], base) :=
  ⟨base_starts, .inl rfl, rfl, .inr ⟨rfl, by decide⟩, rfl, by decide, by decide, by decide, by decide, by decide, by decide, by decide, rfl⟩
/-- One command in the matrix queue, over a tile at 0x8000. -/
def commandOf (fn : MxFn) (fmt : BitVec 3) (started : Bool) : State := base.onMatrix fun m => { m with owner := some (base.cur.tid, base.cur.origin), queue := [
  { fn := fn, acc := false, base := 0x8000, fmta := fmt, fmtb := fmt, ptrA := 0, ptrB := 0, bar := none, barPhase := 0, dst := 0x8000000000008000, amax := 0,
    fmt := fmt, sat := false, tid := 0, origin := 0, stamp := 0, seg := 0, part := 0, priv := 0, started := started, moved := 0 }] }
theorem witness_MatrixCommands : ∀ fn ∈ [MxFn.mzero, .mdrain, .mma, .mmas, .mlatch, .mrot], ∀ started, let s := commandOf fn 5 started
    s.core.preempt = false ∧ s.tile.halted = false ∧ (∃ m, s.core.mx.queue = m :: [] ∧ m.started = started ∧ m.fn = fn ∧ m.bar = none) ∧
      s.core.mx.absent0 = 0 ∧ anyPoison s.core.tcmPoison 0x8000 4096 = false ∧ 0x8000 + 4096 ≤ 131072 ∧ 64 * 0 < tileLen 5 := by
  intro fn _ started
  exact ⟨rfl, rfl, ⟨_, rfl, rfl, rfl, rfl⟩, rfl, rfl, by decide, by decide⟩
theorem witness_MatrixCommands_formats : (commandOf .mma 3 false).core.mx.cur.fmt = 3 ∧
    ((commandOf .mma 5 false).onMatrix fun m => { m with cur := { m.cur with fmt := 5 } }).core.mx.cur.fmt = 5 := ⟨rfl, rfl⟩
/-- f1 holds 2 T1 + 2 T3 on [-2, 2]. -/
def functions : State :=
  (base.onCur fun t => { t with f := t.f.set 1 { a := 0xC0000000, b := 0x40000000, n := 4, p := 0 } }).onCore fun c =>
    { c with pool := [(1, 0x40000000), (3, 0x40000000)], runs := [{ at_ := 0, len := 1, frame := 0, reg := 1, rel := none }] }
theorem witness_FunctionAlgebra : functions.starts ∧ functions.full 1 ∧ (functions.cur.freg 2).n = 0 ∧
    (truncated functions.cur [0x40000000]).1.length ≤ 8 ∧ (1 + 7) / 8 ≤ poolFree functions.core ∧
    ((functions.onCore fun c => { c with runs := [{ at_ := 0, len := 256, frame := 0, reg := 1, rel := none }] }).core.runs.map (·.len)).sum = 256 ∧
    enclosed (functions.cur.freg 1) [0x3F800000] = true ∧ enclosed (functions.cur.freg 1) [0, 0x40000000, 0, 0x40000000] = false :=
  ⟨⟨rfl, rfl, rfl⟩, by unfold State.full; decide, by decide, by decide, by decide, by decide, by decide, by decide⟩
theorem witness_FunctionRecords : takeS [3] [] functions = .ok ([0], functions) ∧ takeS [2, 3] [] functions = .ok ([0, 0], functions) ∧
    (let s := functions.onCore fun c => { c with tcm := memPutN c.tcm 0x8008 (leBytes 4 256) }
     leNat (tcmBytes s 0x8008 4) = 256 ∧ tcmBusy s 0x8000 16 = false ∧ anyPoison s.core.tcmPoison 0x8000 16 = false) ∧
    domOk 0xC0000000 0x40000000 = true ∧ domOk 0 0 = false ∧ storeRefused112 functions functions.cur.priv 0x8000 32 = false ∧
    storeRefused26 functions 0x8000 32 = false ∧ tcmBusyW functions 0x8000 32 = false ∧ (value 0).lt (value 0x3F800000) = true :=
  ⟨rfl, rfl, by decide, by decide, by decide, by decide, by decide, by decide, by decide⟩
theorem witness_FunctionReads : takeS [] [4] functions = .ok ([], functions) ∧ functions.full 1 ∧
    (∃ u, takeV [] [] (some (3, false)) [] functions = .ok ([], [], u)) ∧ ∃ u y, takeV [2] [] (some (3, false)) [] functions = .ok ([y], [], u) :=
  ⟨rfl, by unfold State.full; decide, ⟨_, rfl⟩, _, _, rfl⟩
/-! #### Agents' steps -/

/-- A launch on the first two tiles; this core is the first of tile `t`. -/
def placed (t : Nat) : State := { base with
  launch := { base.launch with live := true, tag := 5, leaves := [⟨0, 0, 15, 0, 1⟩] }, core := { base.core with id := BitVec.ofNat 13 (8 * t) } }
theorem placed_root : (placed 0).parent = none ∧ (placed 0).kids = [1] := by decide +kernel
theorem placed_child : (placed 1).parent = some 0 ∧ (placed 1).kids = [] := by decide +kernel
/-- Four tiles in a row of groups: tile 0 above tiles 1 and 4, tile 4 above tile 5. -/
def middle : State := { base with
  launch := { base.launch with live := true, leaves := [⟨0, 0, 47, 0, 1⟩] }, core := { base.core with id := 32 } }
theorem middle_tree : middle.parent = some 0 ∧ middle.kids = [5] := by decide +kernel
theorem placed_three : ({ placed 0 with launch := { (placed 0).launch with leaves := [⟨0, 0, 23, 0, 1⟩] } } : State).kids = [1, 2] := by decide +kernel

def someMsg : Msg :=
  { dest := 0, any := false, mc := false, cls := 0, stamp := 9, score := 8, handler := 0x400, payload := [1, 2, 3], seq := 0,
    prom := 12, col := false, part := 0, tag := 5, leaf := 1, mig := false }
def someCand : Cand :=
  { key := { stamp := 9, src := 2, seq := 0 }, cls := some 0, core := 0, pc := 0x400, mig := false, priv := 0, w1 := 24, w2 := 8,
    w3 := 0, payload := [1, 2, 3], tag := 5, leaf := 1, xferid := 0, traps := [], place := .inbox, bytes := 48, off := 0, handler0 := false }
def someMig : MigTask := { w := Vector.replicate 16 0, pc := 0x800, status := 1, tid := 3, origin := 9, stamp := 4, key := someCand.key, dest := 0, col := false, part := 0 }
def waiting (cs : List Cand) : State :=
  { placed 0 with tile := { (placed 0).tile with cands := cs, launchProm := 2 ^ 48 - 1 }, cur := { base.cur with stamp := 20 } }
theorem witness_ActivationSteps_arrival : (placed 0).memOk = true ∧ someMsg.part = (placed 0).core.vf ∧ (placed 0).home.deadMask.getLsbD someMsg.part.toNat = false ∧
    (placed 0).tile.retired = false ∧ someMsg.any = false ∧ someMsg.mc = false ∧ tileOf someMsg.dest = pairTile (placed 0) ∧
    hereCore (placed 0) someMsg.dest = (placed 0).core.id ∧ tileOf someMsg.score ≠ pairTile (placed 0) ∧
    someMsg.seq = tabGet (placed 0).tile.recv 0 (tileOf someMsg.score) % 2 ^ 32 ∧ 48 + 16 ≤ (placed 0).launch.inbox ∧ (placed 0).core.inbox = [] ∧
    48 ≤ (placed 0).launch.inbox - (placed 0).core.inboxTail ∧ (placed 0).tile.cands.length < 256 ∧ (placed 0).tile.overflow = [] ∧
    (∀ c ∈ (placed 0).tile.cands, c.place = .inbox) ∧ (placed 0).tile.pendPips = [] := by decide
theorem witness_ActivationSteps_release : (∀ m ∈ (waiting [someCand]).tile.migBuf, m.dest ≠ pairCore (waiting [someCand])) ∧
    lowestCand (waiting [someCand]) = some someCand ∧ someCand.place = .inbox ∧ someCand.core = (waiting [someCand]).core.id ∧ someCand.handler0 = false ∧
    candMasked (waiting [someCand]) someCand = false ∧ (∀ l ∈ linkProms (waiting [someCand]), linkAllows (waiting [someCand]) someCand l = true) ∧
    (waiting [someCand]).tile.overflow = [] ∧ (waiting [someCand]).launch.live = true ∧ (waiting [someCand]).core.preempt = false ∧
    freeFrame (waiting [someCand]) = some 1 ∧ (waiting [someCand]).core.segCtr < 2 ^ 40 := by decide
theorem witness_ActivationSteps_migration : tileOf someMig.dest = pairTile base ∧ foreignPart base someMig.part = false ∧ someMig.dest = pairCore base ∧
    base.tile.migBuf = [] ∧ base.core.preempt = false ∧ freeFrame base = some 1 ∧ base.core.segCtr < 2 ^ 40 ∧
    freeFrame { base with launch := { base.launch with frames := 1 } } = none := by decide
theorem witness_ActivationSteps_holding : holdingOf (waiting [{ someCand with place := .holding }]) = { someCand with place := .holding } :: [] ∧
    someCand.bytes = 16 + (8 * someCand.payload.length + 15) / 16 * 16 ∧ someCand.bytes ≤ base.launch.inbox - base.core.inboxTail ∧ base.core.inbox = [] ∧
    base.core.preempt = false ∧ base.tile.halted = false ∧ leastOverflow { base with tile := { base.tile with overflow := [someCand] } } = some someCand := by
  decide
/-- A record of one leaf on core 0, at the head of work queue 0. -/
def launchable (cfg : Nat) : State := { base with
  host := { base.host with
    wqs := [(0, { en := true, tail := 1, qbase := 0x200 })],
    vfs := [(0, { ctxbase := 1, leaves := [⟨0, 0, 0, 0, 1⟩], roles := [(0, 0)] })] },
  home := { base.home with mem := memPutN (memPutN base.home.mem 0x100000 (leBytes 4 (2 ^ 25))) 0x100028 (leBytes 8 cfg) } }
def goodCfg : Nat := 8 + 32 * 2 ^ 8 + 4 * 2 ^ 16 + 2 ^ 24
def headOf (s : State) : Wq := tabGet s.host.wqs {} 0
theorem chooses {s : State} {v : VfRegs} {r : RecBytes} {n : Nat}
    (h : (((v.leaves.map (·.launch)).dedup).filter fun n => mapsFit v r (mapsOf v n)) = [n]) : chooseMaps s v r = mapsOf v n := by
  unfold chooseMaps
  simp [h, Nat.mod_one]
theorem chosen_one {s : State} {w : Wq} (hw : s.host.wqs = [(0, w)]) (he : eligible s w = true) : chosenQueue s = some 0 := by
  unfold chosenQueue
  simp [hw, he, leastBy]
theorem launchable_maps (s : State) : chooseMaps s ((launchable goodCfg).vfReg 0) (headRec (launchable goodCfg) (headOf (launchable goodCfg))) = [⟨0, 0, 0, 0, 1⟩] :=
  chooses (n := 0) (by decide +kernel)
theorem launchable_chosen : chosenQueue (launchable goodCfg) = some 0 :=
  chosen_one (w := headOf (launchable goodCfg)) rfl (by
    have h : chooseMaps (launchable goodCfg) ((launchable goodCfg).vfReg (headOf (launchable goodCfg)).vf)
      (headRec (launchable goodCfg) (headOf (launchable goodCfg))) = [⟨0, 0, 0, 0, 1⟩] := launchable_maps _
    simp only [eligible, h]
    decide +kernel)
theorem witness_ActivationSteps_launch : chosenQueue (launchable goodCfg) = some 0 ∧
    validate (launchable goodCfg) 0 (headRec (launchable goodCfg) (headOf (launchable goodCfg))) [⟨0, 0, 0, 0, 1⟩] = .ok ∧
    (launchable goodCfg).tileId ∈ mapTiles [⟨0, 0, 0, 0, 1⟩] ∧
    validate (launchable 0) 0 (headRec (launchable 0) (headOf (launchable 0))) [⟨0, 0, 0, 0, 1⟩] ≠ .ok :=
  ⟨launchable_chosen, by decide +kernel, by decide +kernel, by decide +kernel⟩
def sending : State := { placed 1 with tile := { (placed 1).tile with inject := [.msg someMsg], injectBy := [(0, 8)], unaccepted := [.send 0 8] } }
def aDeposit (frame : Nat) : Deposit := { core := 0, frame := frame, word := 3, val := 7, tid := base.cur.tid, orig := base.cur.origin, src := 9, part := 0 }
theorem witness_MessageSteps_deposits : (∀ n, (aDeposit n).core = pairCore base ∧ foreignPart base (aDeposit n).part = false) ∧
    depositTo (aDeposit 0) base.cur = true ∧ base.cur.deposits = [] ∧ written base.cur = true ∧ stalled loading.cur = false ∧ written loading.cur = false ∧
    (∀ t ∈ base.cur :: base.rest, depositTo (aDeposit 9) t = false) ∧ ({ aDeposit 0 with part := 2 } : Deposit).core = pairCore base ∧
    foreignPart base 2 = true := ⟨fun _ => ⟨rfl, (by decide : foreignPart base 0 = false)⟩, by decide, by decide, by decide, by decide, by decide, by decide, by decide, by decide⟩
theorem witness_MessageSteps : sending.tile.unaccepted[0]? = some (.send 0 8) ∧ sending.cur.st ≠ .ended ∧ sending.cur.shadow = false ∧
    sameTask sending.cur 0 sending.cur.origin = true ∧ sameTask sending.cur 5 8 = false ∧ sending.tile.inject[0]? = some (.msg someMsg) ∧
    sending.tile.injectBy[0]? = some (0, 8) ∧ paired sending = false ∧ mayOvertake sending 0 (.msg someMsg) = true ∧ tileOf someMsg.dest ≠ sending.tileId ∧
    lostToTile sending (tileOf someMsg.dest) = false ∧
    (let s := { sending with tile := { sending.tile with inject := [.msg someMsg, .msg someMsg] } }
     s.tile.inject[1]? = some (.msg someMsg) ∧ mayOvertake s 1 (.msg someMsg) = false) := by decide
theorem witness_MessageSteps_ends : (let s := { base with tile := { base.tile with unaccepted := [.words base.cur.tid base.cur.origin 0 2, .mig 1 0] } }
      s.tile.unaccepted[0]? = some (.words base.cur.tid base.cur.origin 0 2) ∧ sameTask s.cur base.cur.tid base.cur.origin = true ∧
        s.tile.unaccepted[1]? = some (.mig 1 0)) ∧
    (∃ q, inboundOf (queued false none []) 3 = some q ∧ q.peer = 9) ∧ inboundOf base 3 = none ∧
    (base.onCur (setQueue 26 (some { outb := true, cls := none, ch := 3, peer := 9, words := [], credits := 3 }))).cur.qs[(0 : Fin 4)] =
      some { outb := true, cls := none, ch := 3, peer := 9, words := [], credits := 3 } ∧
    (let s := { base with home := { base.home with deadLinks := [(0, 1), (0, 8)], out := [.launchReg 0 0] } }
     bothDead s 144 = true ∧ ∃ p ∈ s.home.out, isBroadcast p = true) ∧ bothDead base 144 = false :=
  ⟨by decide, ⟨_, rfl, by decide⟩, rfl, by decide, ⟨by decide, _, List.mem_cons_self .., rfl⟩, by decide⟩
theorem witness_MessageSteps_injection : injectable base = [] ∧ injectable sending = [.message 0] ∧ (∀ c ∈ sending.tasks, wordsToSend c = none) ∧
    injectable { sending with tile := { sending.tile with inject := [.msg someMsg, .msg { someMsg with dest := 2304 }], injectBy := [(0, 8), (0, 8)] } } =
      [.message 0, .message 1] := ⟨by decide, by decide +kernel, by decide, by decide +kernel⟩
theorem witness_MessageSteps_links : (let s := { base with home := { base.home with retx := tabSet base.home.retx (linkNum (.hub 0)) 15 } }
      tabGet s.home.retx 0 (linkNum (.hub 0)) + 1 ≥ 16 ∧ tabGet s.home.laneSpares 0 (linkNum (.hub 0)) = 0) ∧ hasLane (.hub 0) = true ∧
    hasLane (.clusters 0 1) = false := by decide
theorem witness_PromiseSteps : (∃ x, linked.tile.outLinks[0]? = some x ∧ x.kept = none ∧ x.sent = 0 ∧ pOut linked x.dst x.cls ≤ 2 ^ 48 - 1) ∧ secondary linked = false ∧
    (let s := { base with tile := { base.tile with inLinks := [{ src := 1, cls := 0, prom := 4, asked := false }] } }
     ∃ x, s.tile.inLinks[0]? = some x ∧ reached (tabGet s.tile.recv 0 x.src) 0 = true ∧ reached (tabGet s.tile.recv 0 x.src) 5 = false ∧
       foreignPart s 0 = false ∧ foreignPart s 2 = true ∧ askDue s { x with asked := true } = false) ∧
    (let s := { waiting [someCand] with tile := { (waiting [someCand]).tile with inLinks := [{ src := 1, cls := 0, prom := 4, asked := false }] } }
     ∃ x, s.tile.inLinks[0]? = some x ∧ askDue s x = true) :=
  ⟨⟨_, rfl, by decide⟩, by decide, ⟨_, rfl, by decide⟩, _, rfl, by decide⟩
theorem witness_PromiseSteps_sends : (∃ x : OutLink, x = { dst := 1, cls := 0, sent := 0, pipped := false, kept := none } ∧ pOut (placed 0) x.dst x.cls > x.sent ∧
      pOut (placed 0) x.dst x.cls ≥ x.sent + (placed 0).tile.pquant.toNat) := ⟨_, rfl, by decide⟩
def swept (t : Nat) : State := { placed t with tile := { (placed t).tile with sweeping := true, sweepWanted := true } }
theorem witness_PromiseSteps_sweep : (lowestCand (waiting [someCand])).isSome = true ∧ (placed 0).launch.live = true ∧ (placed 0).tile.frozen = false ∧
    (swept 0).tile.sweeping = true ∧ (placed 0).tile.colour ≠ true ∧ (placed 0).tile.sweeping = false ∧ (swept 0).parent = none ∧ (swept 0).tile.sweepWanted = true ∧
    (placed 0).kids ≠ [] ∧ (∀ k ∈ (placed 0).kids, bothDead (placed 0) k = false) ∧ bothDead (placed 1) 0 = false ∧ secondary (placed 1) = false ∧
    (∀ d ∈ (placed 0).tile.kidsDone, d.1 ≠ 1) ∧ (1 ∈ (placed 0).kids) := by decide +kernel
/-- A tile of the middle of the tree, in a sweep. -/
def midSweep : State := { middle with tile := { middle.tile with sweeping := true } }
theorem witness_PromiseSteps_reports : midSweep.tile.sweeping = true ∧ midSweep.kids = [5] ∧ midSweep.tile.reports = [] ∧ midSweep.parent = some 0 ∧
    secondary midSweep = false ∧ bothDead midSweep 0 = false ∧ (∀ k ∈ midSweep.kids, bothDead midSweep k = false) ∧
    (let s := { swept 0 with launch := { (swept 0).launch with leaves := [⟨0, 0, 23, 0, 1⟩] } }
     1 ∈ s.kids ∧ (∀ r ∈ s.tile.reports, r.1 ≠ 1) ∧ ∃ o ∈ s.kids, o ≠ 1 ∧ ∀ r ∈ s.tile.reports, r.1 ≠ o) ∧
    (swept 1).tile.sweeping = true ∧ (swept 1).parent.isSome = true ∧ (swept 1).kids = [] := by decide +kernel
/-- A launch on one tile, with nothing left to do. -/
def finished (leaf1 t : Nat) : State := { base with
  cur := { base.cur with st := .ended }, launch := { base.launch with live := true, leaves := [⟨0, 0, leaf1, 0, 1⟩] },
  core := { base.core with id := BitVec.ofNat 13 (8 * t) }, tile := { base.tile with launchProm := 2 ^ 48 - 1, horizon := 2 ^ 48 - 1 } }
theorem witness_PromiseSteps_end : mayFinish (finished 7 0) = true ∧ (finished 7 0).parent = none ∧ mayFinish (finished 15 1) = true ∧
    (finished 15 1).parent = some 0 ∧ bothDead (finished 15 1) 0 = false ∧ mayFinish base = false := by decide +kernel
/-- One operation at the head of an engine queue, started or not. -/
def engOp (k : EngKind) (started finished : Bool) : EngOp :=
  { kind := k, tid := base.cur.tid, origin := base.cur.origin, stamp := 0, seg := 0, part := 0, priv := 0, mig := false, xid := 4, handler := 0x400,
    started := started, cancelled := false, moved := 0, at_ := 0, code := 0, stop := none, finished := finished, prog := none, sub := 0, elem := none, bytes := 0 }
def engine (q : Fin 16) (o : EngOp) : State := base.onCore fun c => { c with eng := c.eng.set q [o] }
def onePat (out : Bool) : Pattern := { pat out 1 with base := 0x8000 }
theorem witness_EngineSteps_streams : (∃ st, strmOf (bound false 2 []).cur (strmFld 0) = some st ∧ st.pat.out = false ∧ st.fetched.length < strmCap st ∧ 0 < st.pat.len ∧
      lastBad st.fetched = false ∧ elemInb st.pat 0 = true ∧ elemInb { st.pat with bounds := [(1, 2)] } 0 = false ∧ elemOut st.pat true 0 = false ∧
      anyPoison base.core.tcmPoison (elemAddr st.pat 0).toNat 4 = false) ∧
    ∃ st, strmOf (base.onCur (setStrm 16 (some { pat := onePat true, tcm := true, pos := 1, fetched := [], pushed := [⟨0, 9, 0⟩], bad := none }))).cur (strmFld 0) = some st ∧
      st.pushed = ⟨0, 9, 0⟩ :: [] ∧ mxSource base.core (elemAddr st.pat 0).toNat 4 = false :=
  ⟨⟨_, rfl, by decide⟩, _, rfl, by decide⟩
theorem witness_EngineSteps_engines : (∀ k f g, (engine 2 (engOp k f g)).queue (2 : BitVec 4).toNat = engOp k f g :: []) ∧
    (∀ k f g, engHeld (engine 2 (engOp k f g)) = false) ∧ (onePat false).len = 1 ∧ elemOut (onePat false) true 0 = false ∧
    elemInb { onePat false with bounds := [(1, 1)] } 0 = false ∧ elemInb (onePat true) 0 = true ∧
    elemOut { onePat false with base := 131072 } true 0 = true ∧ sameTask base.cur (engOp (.chain 64) true true).tid (engOp (.chain 64) true true).origin = true :=
  ⟨fun _ _ _ => rfl, fun _ _ _ => rfl, by decide, by decide, by decide, by decide, by decide, by decide⟩
theorem witness_EngineSteps_chain : ∃ bs u v, engRead false 0x200000 64 0 shared = .ok (bs, u) ∧
    chainSkips { engOp (.chain 0x200000) true false with at_ := 0x200000 } (chainElem bs) u = .ok (false, v) := ⟨_, _, _, rfl, rfl⟩
theorem witness_EngineSteps_interrupts : base.cur.inu = false ∧ (base.onCur fun t => { t with comps := [{ handler := 0x400, xid := 4, status := 1, op := (0, 1) }] }).cur.comps = [{ handler := 0x400, xid := 4, status := 1, op := (0, 1) }] ∧
    ownsMx base.core base.cur = false ∧ base.cur.st ≠ .ended ∧ base.cur.shadow = false := by decide
def part0 : Contribution := { tag := 5, op := 0, s32 := false, src := .child 1, unit := 0, vals := [(0, 1)], late := false, resultLate := false, missing := 0, more := false, part := 0 }
theorem witness_ReductionSteps : foreignPart (placed 0) part0.part = false ∧ foreignPart (placed 0) 2 = true ∧ (∀ o ∈ (placed 0).tile.owed, owes part0 o = false) ∧
    (placed 0).tile.redSlots = [] ∧ slotFull { placed 0 with launch := { (placed 0).launch with slices := 4 } } (newSlot part0) = false ∧
    (placed 0).parent = none ∧ (unfolded (newSlot part0).vals).length < 64 ∧ (∀ d ∈ treeTiles (placed 0), bothDead (placed 0) d = false) ∧
    (let s := { placed 0 with tile := { (placed 0).tile with redSlots := List.replicate 16 { newSlot part0 with tag := 9 } } }
     (∀ r ∈ s.tile.redSlots, r.tag ≠ part0.tag) ∧ s.tile.redSlots.length = 16) ∧
    (let s := { placed 0 with tile := { (placed 0).tile with redSlots := [newSlot part0] } }
     s.tile.redSlots[0]? = some (newSlot part0) ∧ s.tile.frozen = false) := by decide +kernel
/-- A block table of four entries at 0x400000, entry 1 of generation 2. -/
def blocks (refcnt drain : Nat) : State :=
  let s := base.setVf 0 { base.vfReg 0 with btbase := 0x40, btcnt := 4 }
  s.onHome fun h => { h with mem := memPutN h.mem (entryPa s 1) (leBytes 8 (2 * 2 ^ 40 + 2 ^ 38 + 7) ++ leBytes 8 (refcnt * 2 ^ 16 + drain)) }
theorem witness_ReductionSteps_heads : ∀ k f g, (engine 9 (engOp k f g)).queue 9 = engOp k f g :: [] ∧ engHeld (engine 9 (engOp k f g)) = false ∧
    secondary (engine 9 (engOp k f g)) = false ∧ opMay (engOp k f g) (engine 9 (engOp k f g)) = true := fun _ _ _ => ⟨rfl, rfl, rfl, Bool.or_true _⟩
theorem witness_ReductionSteps_blocks : blkCheck 0x200000001 (blkTrap 0x02 0x200000001) (blocks 1 0) = none ∧ (getEntry (blocks 1 0) 1).refcnt = 1 ∧
    (getEntry (blocks 0xFFFF 0) 1).refcnt = 0xFFFF ∧ (getEntry (blocks 3 2) 1).drain = 2 ∧ freeHead ((blocks 1 0).vfReg 0) false = noEntry ∧
    moveLives { handle := 0x200000001, entry := 1, pbn := 7, tier := false, gen := 2, spare := 2 }
      ((blocks 1 0).onHome fun h => { h with moves := [{ vf := 0, entry := 1, spare := 2, committed := false }] }) = true := by decide
def missing (va : Nat) (s : State) : State := s.onCur fun t => { t with st := .faulted, wait := some (.walk va .load false) }
def faultAt (posted : Bool) : FaultRec :=
  { walker := 0, serial := 0, vf := 0, asid := 0, gen := 0, va := 0x500000, word0 := 0x500000, lvl := 0, perm := false, malf := false, s2walk := false,
    s2 := false, acc := .load, who := [{ who := .task 0, vf := 0, tid := base.cur.tid, origin := base.cur.origin, page := 0x500000 / 65536 }], core := 0,
    posted := posted, toCore := 0 }
def faulted (posted : Bool) : State := { missing 0x500000 base with tile := { base.tile with faults := [faultAt posted] } }
def walksTo (s : State) (va : Nat) : Except WalkFault Tlb :=
  walkVa (walkDeny s s.core.vf) s.home s.core.vf s.core.asid s.core.asidGen (s.asidEnt s.core.vf s.core.asid).root.toNat (s.vfReg s.core.vf).s2root.toNat va
theorem witness_TranslationSteps : missOf (.task 0) base = none ∧ missOf (.task 0) (missing 0x500000 base) = some { va := 0x500000, acc := .load, priv := 0 } ∧
    (∃ e, walksTo (missing 0x500000 paged) 0x500000 = .ok e ∧ rights2 e .load = true) ∧ (∃ f, walksTo (missing 0x500000 base) 0x500000 = .error f) ∧
    (missing 0x500000 base).tile.faults = [] ∧ samePage (faulted false) 0x500008 (faultAt false) = true ∧
    askerOf (.task 0) { va := 0x500000, acc := .load, priv := 0 } (faulted false) ∈ (faultAt false).who ∧
    askerOf (.stream 0 1) { va := 0x500000, acc := .load, priv := 0 } (faulted false) ∉ (faultAt false).who :=
  ⟨by decide, by decide, ⟨_, rfl, by decide⟩, ⟨_, rfl⟩, rfl, by decide, by decide, by decide⟩
def serving : State :=
  let s := (faulted false).setVf 0 { base.vfReg 0 with svccore := 9, svchand := 0x100 }
  { s with host := { s.host with running := [{ tag := 1, vf := 0, wq := 0, idx := 0, cores := [(9, 9)], svc := true, paired := false, started := true }] } }
theorem witness_TranslationSteps_service : (serving.vfReg 0).svchand ≠ 0 ∧ svcResident serving 0 = true ∧ (serving.vfReg 0).svccore ≠ serving.core.id ∧
    (faultAt false).posted = false ∧ (base.vfReg 0).svchand = 0 ∧ (faulted true).tile.faults = [faultAt true] ∧ (faultAt true).posted = true ∧
    faultToken (faulted true).clusterId (faultAt true) ≠ 1 ∧ taskMiss (faulted true).cur = some { va := 0x500000, acc := .load, priv := 0 } ∧
    (faultAt true).who = [askerOf (.task (faulted true).cur.frame) { va := 0x500000, acc := .load, priv := 0 } (faulted true)] ∧
    (faulted true).cur.st = .faulted ∧ (faulted true).cur.shadow = false ∧
    (base.onCore fun c => { c with dirty := List.replicate 32 (0, 0) }).core.dirty.length = 32 ∧ base.core.dirty.length < 32 := by decide
def stopping : State :=
  let s := base.setVf 0 { base.vfReg 0 with cause := 1, equota := 5, ecnt := 9, saving := true }
  { s with core := { s.core with preempt := true } }
def halved : State := { base with host := { base.host with clasg := [(0, { mode := 2, nshr := 1, shr0 := 0, shr1 := 3 })] } }
theorem witness_PartitionSteps : (stopping.vfReg 0).cause = 1 ∧ (stopping.vfReg 0).ecnt.toNat < (10 : Word).toNat ∧ resetting stopping 0 = false ∧
    ¬ ((stopping.vfReg 0).ecnt.toNat < (9 : Word).toNat) ∧ ((base.setVf 0 { base.vfReg 0 with cause := 2 }).vfReg 0).cause = 2 ∧ resetting base 0 = false ∧
    (base.vfReg 0).cause ≠ 2 ∧ stopping.core.preempt = true ∧ quiet stopping = true ∧ stopping.core.mx.queue = [] ∧
    (stopping.vfReg stopping.core.vf).saving = true ∧ ((base.setVf 3 { base.vfReg 3 with saving := true }).vfReg 3).saving = true ∧ base.core.preempt = false ∧
    base.core.vf ≠ 3 ∧ zeroed base 3 base.clusterId = false ∧ base.home.deadMask = 0 ∧
    (0 : Nat) < 3 ∧ ({ base with host := { base.host with vfs := [(3, { epages := 2 })] } } : State).host.vfs = [(3, { epages := 2 })] := by decide
theorem witness_PartitionSteps_sharers : (tabGet base.host.clasg {} base.clusterId).mode ≠ 2 ∧ (tabGet halved.host.clasg {} halved.clusterId).mode = 2 ∧
    quiet halved = true ∧ halved.core.sealed = [] ∧ (incoming halved 3).refused = [] ∧ nextSharer halved (tabGet halved.host.clasg {} halved.clusterId) = some 1 ∧
    halved.core.mx.queue = [] ∧ zeroed halved 0 halved.clusterId = true := by decide
theorem witness_PartitionSteps_restore : (let s := { base with cur := { base.cur with st := .preempted }, core := { base.core with preempt := true } }
     s.core.preempt = true ∧ (s.vfReg s.core.vf).cause = 0 ∧ s.core.mxSaved = none ∧ s.cur.st = .preempted ∧ s.cur.shadow = false ∧ strmMissing s.cur = false ∧
     s.cur.wait = none ∧
     ({ s with core := { s.core with mxSaved := some { owner := some (s.cur.tid, s.cur.origin) } } } : State).core.mxSaved =
       some { owner := some (s.cur.tid, s.cur.origin) }) ∧
    (mxErr.core.mx.owner = some (base.cur.tid, base.cur.origin)) ∧ base.core.mx.owner = none ∧
    eventCome base base.cur (.bwait 0 0) = false ∧ eventCome base base.cur .mxContext = true ∧ ({ base.cur with hvy := true } : Task).priv = 0 := by
  decide
theorem witness_HostSteps : ((clasgNames (tabGet base.host.clasg {} 0) ++ clasgNames (clasgOf 0x4000000000000003)).all fun v => (base.vfReg v).stopped) = false ∧
    ((clasgNames (tabGet base.host.clasg {} 0) ++ clasgNames (clasgOf 0)).all fun v => ((base.setVf 0 { base.vfReg 0 with stopped := true }).vfReg v).stopped) = true ∧
    (headOf base).head = (headOf base).tail ∧ (headOf base).en = false ∧ (headOf (launchable 0)).en = true ∧ hasSaved base 3 = false ∧ exposed base 3 = true ∧
    exposed { base with host := { base.host with devFail := true, devStep := 3 } } 3 = false ∧ (tabGet base.host.wqs {} 5).vf = 0 ∧
    (base.vfReg 0).stopped = false ∧ (base.vfReg 0).dbgbusy = false ∧ ((0x1000000000000000 : Word).extractLsb' 60 3).toNat ∈ [1, 2, 3, 4] ∧
    ((0 : Word).extractLsb' 60 3).toNat ∉ [1, 2, 3, 4] ∧
    (∃ d h, homeOf 0x200000 = some (.hbm d h)) ∧ containerBad base 0x100000 = true ∧ base.host.devFail = false ∧ base.host.devStep.toNat < 7 :=
  ⟨by decide, by decide, by decide, by decide, by decide, by decide, by decide, by decide, by decide, by decide, by decide, by decide, by decide,
    ⟨_, _, rfl⟩, by decide, by decide, by decide⟩
theorem witness_ErrorSteps : (let s := (base.onCore fun c => { c with twLimit := 5 }).onCur fun t => { t with st := .waitMsg }
     s.core.twLimit ≠ 0 ∧ s.tile.frozen = false ∧ s.cur.shadow = false ∧ s.cur.st = .waitMsg ∧ keepsWait s.cur.wait = false) ∧
    (let s := (base.onCore fun c => { c with twLimit := 5 }).onCur fun t => { t with st := .waitMem, wait := some .shadow }
     s.core.twLimit ≠ 0 ∧ s.cur.st = .waitMem ∧ keepsWait s.cur.wait = true) ∧ base.core.twLimit = 0 ∧
    (let s := base.onCur fun t => { t with wait := some (.event 4 true false), st := .waitMsg }
     s.cur.wait = some (.event 4 true false) ∧ s.cur.st = .waitMsg ∧ s.cur.shadow = false) ∧
    base.cur.errPend = none ∧ ({ base.cur with st := .preempted } : Task).st = .preempted ∧
    (let s := base.onCur fun t => { t with errPend := some (1, 0, 0) }
     s.cur.errPend = some (1, 0, 0) ∧ s.cur.st ≠ .ended ∧ s.cur.st ≠ .preempted ∧ s.cur.recover = false ∧ s.cur.shadow = false ∧ s.cur.esc = false ∧
        s.cur.redel < 2 ∧ s.core.pairQ = []) ∧
    (let s := base.onCur fun t => { t with errPend := some (2, 0, 0), recover := true, st := .waitMem }
     s.cur.recover = true ∧ s.cur.errPend = some (2, 0, 0) ∧ s.cur.st = .waitMem ∧ s.cur.stopped = false ∧ s.tile.halted = false) ∧
    produces 0 false 3 { frame := 0, reg := 3, vreg := none } = true ∧ produces 0 true 3 { frame := 0, reg := 3, vreg := none } = false ∧
    (0x200000 / 8 ∉ base.home.poison) := by decide
/-- The same core in a paired launch: the primary's at tile 0, the secondary's at tile 2. -/
def paired0 : State := { placed 0 with launch := { (placed 0).launch with paired := true } }
def paired2 : State := { placed 2 with launch := { (placed 2).launch with paired := true } }
def anItem : PairItem := { what := .send base.cur.tid base.cur.origin, tid := base.cur.tid, origin := base.cur.origin, hash := 5 }
theorem witness_ErrorSteps_pairs : (let s := { paired0 with core := { paired0.core with pairQ := [anItem] } }
     s.core.pairQ = anItem :: [] ∧ s.cur.st ≠ .ended ∧ s.cur.shadow = false ∧ sameTask s.cur anItem.tid anItem.origin = true ∧ s.cur.errPend = none ∧
       s.tile.frozen = false ∧ s.core.preempt = false ∧ anItem.hash ≠ 6) ∧
    paired0.core.pairQ = [] ∧ secondary paired0 = false ∧ secondary paired2 = true ∧
    (∀ t ∈ paired2.cur :: paired2.rest, awaitsAmo 3 t = none ∧ awaitsLoad 3 t = none ∧ awaitsBlock t = false) ∧
    (let t := { loading.cur with loads := loading.cur.loads.map fun l => { l with dst := 3, vec := false, reply := none } }
     awaitsAmo 3 t = none ∧ awaitsLoad 3 t = some 0) ∧
    awaitsAmo 3 { (pendAmo none).cur with amos := (pendAmo none).cur.amos.map fun a => { a with dst := 3, ret := none, poisoned := false } } = some 0 := by decide
theorem witness_ErrorSteps_spares : base.tile.spareCore = false ∧ quiet base = true ∧ base.core.preempt = false ∧ stopping.core.preempt = true ∧
    base.core.mx.queue = [] ∧ base.core.mx.owner = none ∧ base.core.mxSaved = none ∧
    (let s := { finished 7 0 with launch := base.launch, tile := { base.tile with spareCore := true } }
     s.tile.spareCore = true ∧ s.tile.retired = false ∧ s.cur.st = .ended ∧ s.rest = [] ∧ s.launch.live = false ∧ s.saved = []) := by decide
theorem witness_ErrorSteps_encodings : (∃ i, decode 0x0C600010 = .ok i) ∧ ∃ e, decode 0xFFFFFFFF = .error e := ⟨⟨_, rfl⟩, _, rfl⟩
def commandIs (op v tile : Nat) : State := base.setVf (BitVec.ofNat 6 v) { base.vfReg (BitVec.ofNat 6 v) with dbgbusy := true, dbgcmd := BitVec.ofNat 63 (op * 2 ^ 60 + tile) }
theorem witness_DebugCommands : (∀ op ∈ [1, 2, 3, 4], cmdOf (commandIs op 0 0) (BitVec.ofNat 3 op) = some 0 ∧ cmdOf base (BitVec.ofNat 3 op) = none) ∧
    inPartitionOf (commandIs 1 0 0) 0 (cmdTile (commandIs 1 0 0) 0) = true ∧ haltsHere (commandIs 1 0 0) (cmdTile (commandIs 1 0 0) 0) = true ∧
    inPartitionOf (commandIs 1 0 1) 0 (cmdTile (commandIs 1 0 1) 0) = true ∧ haltsHere (commandIs 1 0 1) (cmdTile (commandIs 1 0 1) 0) = false ∧
    cmdOf (commandIs 1 3 0) 1 = some 3 ∧ inPartitionOf (commandIs 1 3 0) 3 (cmdTile (commandIs 1 3 0) 3) = false ∧
    cmdCore (commandIs 3 0 0) 0 = base.core.id ∧ cmdCore (commandIs 3 0 1024) 0 ≠ base.core.id ∧
    ({ commandIs 3 0 0 with tile := { base.tile with halted := true } } : State).tile.halted = true ∧ base.tile.halted = false ∧
    (commandIs 4 0 0).core.vf = 0 ∧ (commandIs 4 3 0).core.vf ≠ 3 ∧ cmdOf (commandIs 4 3 0) 4 = some 3 := by decide
/-- A match point, or a break bit, at the PC. -/
def pointed : State :=
  let s := (mapped.onCur fun t => { t with pcmSkip := false, brkSkip := false }).onCore fun c =>
    { c with dbgctl := 7, pcmEn := 1, pcmPc := c.pcmPc.set 0 (base.cur.pc.extractLsb' 2 54) }
  (s.setVf 0 { s.vfReg 0 with mhtab := 0x40000, brkmap := 0x50000, brkva := 0x10, brklen := 1 }).onHome fun h => { h with mem := memPut h.mem 0x280000 1 }
def found (r : Res (Word × State)) : Bool := match r with | .ok _ => true | .error _ => false
theorem witness_DebugEvents : pcMatch pointed = some 0 ∧ found (matchEntry 0 pointed) = true ∧ brkHits pointed = true ∧ brkTask pointed = true ∧
    (let s := pointed.onCore fun c => { c with dbgctl := 5 }
     brkHits s = true ∧ brkTask s = false) ∧ pcMatch base = none ∧ brkHits base = false := by decide
def handled : State :=
  { pointed with cur := { base.cur with shadow := true }, core := { base.core with shMatch := some 0 }, rest := [{ base.cur with wait := some .shadow }] }
theorem witness_DebugEvents_shadow : handled.cur.shadow = true ∧ handled.cur.st ≠ .ended ∧ handled.core.shMatch = some 0 ∧
    handled.rest = [{ base.cur with wait := some .shadow }] ∧ ({ base.cur with wait := some .shadow } : Task).wait = some .shadow ∧
    base.cur.shadow = false ∧ ∀ t ∈ base.rest, t.shadow = false := ⟨rfl, by decide, rfl, rfl, rfl, rfl, by decide⟩
theorem witness_DebugEvents_sample : ((base.setVf 0 { base.vfReg 0 with smpint := 5 }).vfReg base.core.vf).smpint ≠ 0 ∧ base.cur.st = .running ∧
    (base.vfReg base.core.vf).smpint = 0 ∧ ({ base.cur with st := .ready } : Task).st ≠ .running := by decide

end Sys2Proof.Tests
end

section
/-! Register arithmetic (R101 to R105): the operations that have no equation yet, the three shapes of an instruction, the table, O8. -/

namespace Sys2Proof.Machine

/-! ### The operations as `regOp` writes them -/

theorem aluRol_eq (x y : Word) :
    aluRol x y = BitVec.ofNat 64 (x.toNat * 2 ^ (y.toNat % 64) + x.toNat / 2 ^ (64 - y.toNat % 64)) :=
  rol_eq x _ (Nat.mod_lt _ (by decide))

theorem aluRor_eq (x y : Word) :
    aluRor x y = BitVec.ofNat 64 (x.toNat / 2 ^ (y.toNat % 64) + x.toNat * 2 ^ (64 - y.toNat % 64)) :=
  ror_eq x _ (Nat.mod_lt _ (by decide))

theorem flagW_ltS (x y : Word) : flagW (ltS x y) = truth (x.toInt < y.toInt) := by rw [ltS_iff, flagW_eq]

theorem flagW_ltU (x y : Word) : flagW (ltU x y) = truth (x.toNat < y.toNat) := by rw [ltU_iff, flagW_eq]

/-- R104: the immediate of SLTI is compared as a signed number. -/
theorem slti_eq (x : Word) (i : BitVec 16) : flagW (ltS x (i.signExtend 64)) = truth (x.toInt < i.toInt) := by
  rw [flagW_ltS, sext_toInt]

/-- R104: the immediate of SLTIN is compared as an unsigned number. -/
theorem sltin_eq (x : Word) (i : BitVec 16) : flagW (ltU x (i.setWidth 64)) = truth (x.toNat < i.toNat) := by
  rw [flagW_ltU, zext_toNat]

/-- R101: SEL takes its first value where its third operand is not 0. -/
theorem select_eq (x y k : Word) : (if k != 0 then x else y) = if k = 0 then y else x := by
  by_cases h : k = 0 <;> simp [h]

/-! ### The shapes: two sources, one source, three, none -/

section Shapes
variable {a b d m : Fld} {s u : State} {xs : List Word}

theorem rrr_wrote (c : Charge) {f g : Word → Word → Word} (hfg : ∀ x y, f x y = g x y) (h : takeS [b, d] [a] s = .ok (xs, u)) :
    finish (rrr c f a b d s) = .next (u.wrote c a (bi g s.cur.pc.toNat xs)) := by
  rw [rrr_eq h, finish_ok, hfg]; rfl

theorem rr_wrote (c : Charge) {f g : Word → Word} (hfg : ∀ x, f x = g x) (h : takeS [b] [a] s = .ok (xs, u)) :
    finish (rr c f a b s) = .next (u.wrote c a (un g s.cur.pc.toNat xs)) := by
  rw [rr_eq h, finish_ok, hfg]; rfl

theorem rzero_wrote {x : State → Word} {v : Word} (hv : x s = v) (h : takeS [] [a] s = .ok (xs, u)) :
    finish (rzero x a s) = .next (u.wrote .alu a v) := by
  rw [rzero_eq h, finish_ok, hv]; rfl

theorem execSel_wrote (h : takeS [b, d, m] [a] s = .ok (xs, u)) : execSel a b d m s =
    .next (u.wrote .alu a (if (xs.drop 2).headD 0 = 0 then (xs.drop 1).headD 0 else xs.headD 0)) := by
  match xs, takeS_length h with
  | [x, y, k], _ =>
    unfold execSel
    rw [h]
    exact congrArg (fun v => Host.Outcome.next (u.wrote .alu a v)) (select_eq x y k)

end Shapes

/-- R81, R101 to R105: with its operands taken, an instruction of the table writes the table's value and completes. -/
theorem exec_regOp {i : Instr} {r : RegOp} {s u : State} {xs : List Word} (hr : regOp i = some r)
    (ht : takeS r.srcs [r.dst] s = .ok (xs, u)) : exec i s = .next (u.wrote r.cls r.dst (r.val s.cur.pc.toNat xs)) := by
  -- `( … :)` types a row before it meets the goal, so that `exec` is unfolded with the operation known.
  cases i with
  | add => cases hr; exact (rrr_wrote .alu aluAdd_eq ht :)
  | sub => cases hr; exact (rrr_wrote .alu aluSub_eq ht :)
  | and => cases hr; exact (rrr_wrote (f := aluAnd) .alu (fun _ _ => rfl) ht :)
  | or => cases hr; exact (rrr_wrote (f := aluOr) .alu (fun _ _ => rfl) ht :)
  | xor => cases hr; exact (rrr_wrote (f := aluXor) .alu (fun _ _ => rfl) ht :)
  | andn => cases hr; exact (rrr_wrote .alu aluAndn_eq ht :)
  | sll => cases hr; exact (rrr_wrote .alu (fun x y => sll_eq x (shAmt y)) ht :)
  | srl => cases hr; exact (rrr_wrote .alu (fun x y => srl_eq x (shAmt y)) ht :)
  | sra => cases hr; exact (rrr_wrote .alu (fun x y => sra_eq x (shAmt y)) ht :)
  | rol => cases hr; exact (rrr_wrote .alu aluRol_eq ht :)
  | ror => cases hr; exact (rrr_wrote .alu aluRor_eq ht :)
  | slt => cases hr; exact (rrr_wrote .alu flagW_ltS ht :)
  | sltn => cases hr; exact (rrr_wrote .alu flagW_ltU ht :)
  | min => cases hr; exact (rrr_wrote .alu aluMin_eq ht :)
  | max => cases hr; exact (rrr_wrote .alu aluMax_eq ht :)
  | minn => cases hr; exact (rrr_wrote .alu aluMinn_eq ht :)
  | maxn => cases hr; exact (rrr_wrote .alu aluMaxn_eq ht :)
  | clz => cases hr; exact (rr_wrote .alu clzW_eq ht :)
  | ctz => cases hr; exact (rr_wrote .alu ctzW_eq ht :)
  | popc => cases hr; exact (rr_wrote .alu popcW_eq ht :)
  | bswap => cases hr; exact (rr_wrote (f := bswapW) .alu (fun _ => rfl) ht :)
  | sel => cases hr; exact (execSel_wrote ht :)
  | mul => cases hr; exact (rrr_wrote .mul mulLo_eq ht :)
  | mulh => cases hr; exact (rrr_wrote (f := mulHiS) .mul (fun _ _ => rfl) ht :)
  | mulhn => cases hr; exact (rrr_wrote (f := mulHiU) .mul (fun _ _ => rfl) ht :)
  | div => cases hr; exact (rrr_wrote .div divS_eq ht :)
  | divn => cases hr; exact (rrr_wrote .div divU_eq ht :)
  | rem => cases hr; exact (rrr_wrote .div remS_eq ht :)
  | remn => cases hr; exact (rrr_wrote .div remU_eq ht :)
  | clmul => cases hr; exact (rrr_wrote .mul clmulLo_eq ht :)
  | clmulh => cases hr; exact (rrr_wrote .mul clmulHi_eq ht :)
  | addi a b imm => cases hr; exact (rr_wrote .alu (fun x => addi_eq x imm) ht :)
  | andi a b imm => cases hr; exact (rr_wrote .alu (fun x => congrArg (x &&& ·) (zext_eq imm)) ht :)
  | ori a b imm => cases hr; exact (rr_wrote .alu (fun x => congrArg (x ||| ·) (zext_eq imm)) ht :)
  | xori a b imm => cases hr; exact (rr_wrote .alu (fun x => congrArg (x ^^^ ·) (zext_eq imm)) ht :)
  | slti a b imm => cases hr; exact (rr_wrote .alu (fun x => slti_eq x imm) ht :)
  | sltin a b imm => cases hr; exact (rr_wrote .alu (fun x => sltin_eq x imm) ht :)
  | slli a b n => cases hr; exact (rr_wrote .alu (fun x => sll_eq x n.toNat) ht :)
  | srli a b n => cases hr; exact (rr_wrote .alu (fun x => srl_eq x n.toNat) ht :)
  | srai a b n => cases hr; exact (rr_wrote .alu (fun x => sra_eq x n.toNat) ht :)
  | roli a b n => cases hr; exact (rr_wrote .alu (fun x => rol_eq x n.toNat n.isLt) ht :)
  | lhi a imm => cases hr; exact (rzero_wrote (x := fun _ => upperImm imm) (upperImm_eq imm) ht :)
  | pchi a imm => cases hr; exact (rzero_wrote (x := fun s => s.cur.pcW + upperImm imm) (pchi_eq s.cur.pc imm) ht :)
  | _ => cases hr

/-- R80: the destination reads the value, unless it is w0. -/
theorem wrote_getW {s : State} (hs : s.issues) (c : Charge) {a : Fld} (v : Word) (ha : a < 16) :
    (s.wrote c a v).getW (wIdx a) = if wIdx a = 0 then 0 else v := by
  have hread : (s.wrote c a v).getW (wIdx a) = (s.cur.setW (wIdx a) v).getW (wIdx a) := by
    unfold State.getW; rw [wrote_cur hs c a v ha]; rfl
  rw [hread]
  split
  · next h0 => rw [h0]; exact Task.getW_zero _
  · next h0 => exact Task.getW_setW_same _ _ _ h0

theorem wrote_pc {s : State} (hs : s.issues) (c : Charge) {a : Fld} (v : Word) (ha : a < 16) :
    (s.wrote c a v).cur.pc = s.cur.pc + 4 := by rw [wrote_cur hs c a v ha]

namespace Settled

/-- Settles O8: the table's rows over taken operands; with general registers the operands are there, and the frame is that of one
register written. -/
theorem registerArithmetic : Obligations.RegisterArithmetic := by
  refine ⟨fun i r s hr hf hs => ?_, fun i r s u xs hr ht => exec_regOp hr ht⟩
  have ht : takeS r.srcs [r.dst] s = .ok (r.srcs.map s.rw, s) :=
    takeS_w r.srcs [r.dst] (fun f h => (hf f h).1) (fun f h => (hf f h).2)
  have hd : r.dst < 16 := (hf r.dst (List.mem_cons_self ..)).1
  exact ⟨_, exec_regOp hr ht, wrote_getW hs _ _ hd, wrote_pc hs _ _ hd, wrote_charged s _ _ _ hd, wrote_frame hs _ _ _ hd⟩

end Settled

end Sys2Proof.Machine
end

section
/-! Traps and the error agent (R121 to R123, R412, R413): entering the handler, escalating, the entry's words, O36. -/

namespace Sys2Proof.Machine

/-! ### Taking a trap -/

/-- R119: the state in which a trap is taken: that a synchronous trap other than STALL is the issue of an instruction. -/
def State.trapping (s : State) (cause : BitVec 6) (async : Bool) : State :=
  if async = true ∨ cause = 0x12 then s else { s with rest := s.rest.map unyield }

theorem trapping_eq (s : State) (cause : BitVec 6) (async : Bool) :
    (if async || cause == cSTALL then s else issued s) = s.trapping cause async := by
  unfold State.trapping
  by_cases h : async = true ∨ cause = 0x12
  · rw [if_pos h, if_pos (by simpa [cSTALL] using h)]
  · rw [if_neg h, if_neg (by simpa [cSTALL] using h)]; rfl

@[simp] theorem trapping_cur (s : State) (cause : BitVec 6) (async : Bool) : (s.trapping cause async).cur = s.cur := by
  unfold State.trapping; split <;> rfl

@[simp] theorem trapping_core (s : State) (cause : BitVec 6) (async : Bool) : (s.trapping cause async).core = s.core := by
  unfold State.trapping; split <;> rfl

@[simp] theorem trapping_trapvec (s : State) (cause : BitVec 6) (async : Bool) : (s.trapping cause async).trapvec = s.trapvec := by
  unfold State.trapping; split <;> rfl

theorem escalates_trapping (s : State) (cause : BitVec 6) (async : Bool) :
    escalates (s.trapping cause async) async = escalates s async := by
  unfold escalates; rw [trapping_trapvec, trapping_cur]

/-- R122, R123: outside the shadow context a trap escalates or enters the handler. -/
theorem takeTrap_eq {s : State} (hsh : s.cur.shadow = false) (cause : BitVec 6) (detail : BitVec 8) (async : Bool) (v : Word) :
    takeTrap cause detail async v s =
      if escalates s async then endCur (discardCur (trapEntry s.cur cause detail s.cur.pcW v (s.trapping cause async)))
      else enterTrap cause detail async v (s.trapping cause async) := by
  unfold takeTrap
  rw [trapping_eq]
  dsimp only
  rw [trapping_cur, hsh, if_neg (by decide), escalates_trapping]

/-- R122: the handler's context, with whole numbers. -/
theorem enterTrap_eq (cause : BitVec 6) (detail : BitVec 8) (async : Bool) (v : Word) (s : State) :
    enterTrap cause detail async v s = { s with cur := { s.cur with
      tcDetail := detail, tcAsync := async, tcCause := cause, tepc := BitVec.ofNat 54 (s.cur.pc.toNat / 4), tval := v,
      pc := BitVec.ofNat 56 (4 * s.trapvec.toNat), wait := none, paid := false, trapTaken := false, st := .running } } := by
  rw [← pc_field, ← ofNat_append2]; rfl

theorem trapEntry_cur (t : Task) (cause : BitVec 6) (detail : BitVec 8) (tepc v : Word) (s : State) :
    (trapEntry t cause detail tepc v s).cur = s.cur := errEntry_cur _ _

/-- R123: what an escalated trap leaves: the task ended, nothing held, and the entry's memory and count. -/
theorem escalated_keeps (t : Task) (cause : BitVec 6) (detail : BitVec 8) (v : Word) (w : State) :
    let e := endCur (discardCur (trapEntry t cause detail t.pcW v w))
    e.cur.st = .ended ∧ e.cur.recs = [] ∧ e.cur.held = [] ∧ e.tile.escl = true ∧
      (w.cur.traps = [] → anyFail w.cur = false →
        let u := errEntry (errEntryBytes 1 (BitVec.ofNat 8 t.redel) cause detail w.core.id t.tid (BitVec.ofNat 64 t.pc.toNat) v) w
        e.home.mem = u.home.mem ∧ e.tile.errs = u.tile.errs) := by
  intro e
  obtain ⟨hst, hrecs, hheld, hescl, hquiet⟩ := endCur_keeps (discardCur (trapEntry t cause detail t.pcW v w))
  refine ⟨hst, hrecs, hheld, hescl rfl, fun ht hf => ?_⟩
  have hcur : (discardCur (trapEntry t cause detail t.pcW v w)).cur = { w.cur with recs := [], held := [] } := by
    rw [← trapEntry_cur t cause detail t.pcW v w]; rfl
  obtain ⟨hmem, htile⟩ := hquiet (by rw [hcur]; exact ht) (by rw [hcur]; exact hf)
  rw [← pcW_eq]
  exact ⟨hmem, (congrArg TileSt.errs htile :)⟩

theorem exec_trap (c : BitVec 15) (s : State) :
    exec (.trap c) s = .next (takeTrap 0x16 0 false (BitVec.ofNat 64 c.toNat) (charge .sys s)) := by
  rw [← zext_eq]; rfl

theorem exec_eret (s : State) : exec .eret s = .next { charge .sys s with
    cur := { s.cur with pc := BitVec.ofNat 56 (4 * s.cur.tepc.toNat), brkSkip := true, trapTaken := false },
    rest := s.rest.map unyield } := by
  rw [← ofNat_append2]; rfl

/-- R122: with a handler, and not at the handler's own first instruction unless asynchronous, a trap enters it. -/
theorem takeTrap_enters {s : State} {async : Bool} (hsh : s.cur.shadow = false) (hv : s.trapvec ≠ 0)
    (ha : async = true ∨ s.cur.pc.toNat / 4 ≠ s.trapvec.toNat) (cause : BitVec 6) (detail : BitVec 8) (v : Word) :
    takeTrap cause detail async v s = { s.trapping cause async with cur := { s.cur with
      tcDetail := detail, tcAsync := async, tcCause := cause, tepc := BitVec.ofNat 54 (s.cur.pc.toNat / 4), tval := v,
      pc := BitVec.ofNat 56 (4 * s.trapvec.toNat), wait := none, paid := false, trapTaken := false, st := .running } } := by
  have hno : ¬ escalates s async = true := by
    rw [escalates_iff]
    rintro (h0 | ⟨hs, hpc⟩)
    · exact hv h0
    · exact ha.elim (by simp [hs]) (absurd hpc)
  rw [takeTrap_eq hsh, if_neg hno, enterTrap_eq, trapping_cur, trapping_trapvec]

/-- R123: else it escalates. -/
theorem takeTrap_escalates {s : State} {async : Bool} (hsh : s.cur.shadow = false)
    (he : s.trapvec = 0 ∨ (async = false ∧ s.cur.pc.toNat / 4 = s.trapvec.toNat)) (cause : BitVec 6) (detail : BitVec 8) (v : Word) :
    let t := takeTrap cause detail async v s
    t.cur.st = .ended ∧ t.cur.recs = [] ∧ t.cur.held = [] ∧ t.tile.escl = true ∧
    (s.cur.traps = [] → anyFail s.cur = false →
      let u := errEntry (errEntryBytes 1 (BitVec.ofNat 8 s.cur.redel) cause detail s.core.id s.cur.tid
        (BitVec.ofNat 64 s.cur.pc.toNat) v) (s.trapping cause async)
      t.home.mem = u.home.mem ∧ t.tile.errs = u.tile.errs) := by
  rw [takeTrap_eq hsh, if_pos (escalates_iff.mpr he)]
  have h := escalated_keeps s.cur cause detail v (s.trapping cause async)
  rwa [trapping_cur, trapping_core] at h

/-! ### The words of the error record -/

/-- A word written in place, byte by byte. -/
theorem homePut_word_get {h : HomeSt} (w : Memory.wf h.mem = true) (a v x : Nat) : memGet (homePut h a (leBytes 8 v)).mem x =
    if a ≤ x ∧ x < a + 8 then BitVec.ofNat 8 (v / 256 ^ (x - a)) else memGet h.mem x := by
  show memGet (memPutN h.mem a (leBytes 8 v)) x = _
  rw [memPutN_read w, leBytes_length]
  split
  · next hx => exact le8 v (x - a) (by omega)
  · rfl

/-- The words beyond a written one read as before. -/
theorem homePut_word_other {h : HomeSt} (w : Memory.wf h.mem = true) {a b n : Nat} (v : Nat) (hab : a + 8 ≤ b) :
    memGetN (homePut h a (leBytes 8 v)).mem b n = memGetN h.mem b n :=
  memGetN_congr n b fun k _ => by rw [homePut_word_get w, if_neg (by omega)]

/-- A word of shared memory as a number. -/
def State.homeWord (s : State) (a : Nat) : Nat := leNat (memGetN s.home.mem a 8)

section Record
variable {bytes : List Byte} {s : State} {pa : Nat} (he : s.launch.errrec ≠ 0) (hq : s.tile.errQ = [])
  (hx : agentXlat s s.launch.errrec = some pa) (hr : refusedAt s s.core.vf pa = false) (hp : anyPoison s.home.poison pa 32 = false)
  (hwf : Memory.wf s.home.mem = true)
include he hq hx hr hp hwf

/-- R413: where the record is full, an entry adds 1 to NEXT and 1 to DROP. -/
theorem errEntry_full_memory (hn : s.homeWord (pa + 8) ≤ s.homeWord pa) (x : Nat) : memGet (errEntry bytes s).home.mem x =
    if pa ≤ x ∧ x < pa + 8 then BitVec.ofNat 8 ((s.homeWord pa + 1) / 256 ^ (x - pa))
    else if pa + 16 ≤ x ∧ x < pa + 24 then BitVec.ofNat 8 ((s.homeWord (pa + 16) + 1) / 256 ^ (x - pa - 16))
    else memGet s.home.mem x := by
  rw [(errs_unf he hq hx hr hp).1 hn]
  show memGet (homePut _ (pa + 16) (leBytes 8 _)).mem x = _
  rw [homePut_word_get (homePut_wf _ _ hwf), homePut_word_get hwf, homePut_word_other hwf _ (by omega)]
  by_cases h1 : pa ≤ x ∧ x < pa + 8
  · rw [if_pos h1, if_neg (by omega), if_pos h1]; rfl
  · rw [if_neg h1, if_neg h1, Nat.sub_add_eq]; rfl

/-- R413: where the record has room, an entry adds 1 to NEXT and stands at the index it took. -/
theorem errEntry_room_memory (hlen : bytes.length = 32) {q : Nat} (hn : s.homeWord pa < s.homeWord (pa + 8))
    (hxq : agentXlat s (s.launch.errrec + 32 + 32 * s.homeWord pa) = some q) (hrq : refusedAt s s.core.vf q = false)
    (hpq : anyPoison s.home.poison q 32 = false) (x : Nat) : memGet (errEntry bytes s).home.mem x =
    if q ≤ x ∧ x < q + 32 then bytes.getD (x - q) 0
    else if pa ≤ x ∧ x < pa + 8 then BitVec.ofNat 8 ((s.homeWord pa + 1) / 256 ^ (x - pa)) else memGet s.home.mem x := by
  rw [(errs_unf he hq hx hr hp).2 q (Nat.not_le.mpr hn) hxq hrq (poison_after hpq)]
  show memGet (memPutN (homePut s.home pa (leBytes 8 _)).mem q bytes) x = _
  rw [memPutN_read (homePut_wf _ _ hwf), hlen, homePut_word_get hwf]; rfl

end Record

theorem errEntry_errs (bytes : List Byte) (s : State) :
    (errEntry bytes s).tile.errs.toNat = Nat.min 65535 (s.tile.errs.toNat + 1) := by
  rw [(errEntry_tile bytes s).2, errCount_min]

namespace Settled

/-- Settles O36: a trap enters its handler or escalates, TRAP and ERET by their equations, the error record with and without room. -/
theorem trapEntry : Obligations.TrapEntry :=
  ⟨⟨fun cause detail _ v _ hsh =>
      ⟨fun ⟨hv, ha⟩ => takeTrap_enters hsh hv ha cause detail v, fun he => takeTrap_escalates hsh he cause detail v⟩,
    exec_trap, exec_eret⟩,
   fun bytes s _ he hq hx hr hp hlen hwf => ⟨errEntry_errs bytes s, errEntry_full_memory he hq hx hr hp hwf,
    fun _ hn hxq hrq hpq => errEntry_room_memory he hq hx hr hp hwf hlen hn hxq hrq hpq⟩⟩

end Settled

end Sys2Proof.Machine
end

section
/-! The column unit (R169 to R172): issuing a request, the oldest request's reply, its lanes, O43. -/

namespace Sys2Proof.Machine

/-! ### VTRAN -/

/-- R169, R171: the request that VTRAN makes of its source: the next number of the core, and the lanes that the reply writes. -/
def vtRequest (a : Fld) (m : Bool) (g : BitVec 3) (src : BitVec 512) (s : State) : VtPend :=
  { num := vtNext s, vd := a, src := src, fn := g, mask := if m then s.cur.vmask.extractLsb' 0 16 else 0xFFFF }

/-- R171: with fewer than four requests of the core out and its operands taken, VTRAN adds its request and completes. -/
theorem vtran_ok {a b : Fld} {m : Bool} {s u : State} {vs : List (BitVec 512)} {xs : List Word} (hout : (vtOut s).length < 4)
    (ht : takeV [b] [] (some (a, m)) [] s = .ok (vs, xs, u)) (g : BitVec 3) :
    vtran a b m g s = .ok (advance ((charge .vtran u).onCur fun t =>
      { t with hvy := true, vtPend := t.vtPend ++ [vtRequest a m g (vsrc vs 0) s] })) := by
  unfold vtran
  rw [if_neg (Nat.not_le.mpr hout), ht]; rfl

/-- R10: where VTRAN completes, no element of its strip leaves its range. -/
theorem execVtran_ok {a b : Fld} {m : Bool} {g : BitVec 3} {s t : State} (h : vtran a b m g s = .ok t) :
    exec (.vtran a b m g) s = .next (retire t) := by
  have hnow : vtranNow a b m g s =
      .ok (t.cur.vtPend.getLast?.elim t fun r => writeV r.vd (columnReg r.fn r.mask r.src 0) t) := by
    unfold vtranNow; rw [h]
  show execVtran a b m g s = _
  unfold execVtran
  rw [stripRun_ok hnow]
  exact congrArg finish h

/-! ### VTRAN_REPLY -/

/-- The requests of the issuing context that stay out once a reply has come. -/
def State.awaiting (s : State) (l : List VtPend) : State := s.onCur fun t => { t with vtPend := l }

/-- R172: the reply to the issuing context's first request: it waits while an older request of the core is out. -/
theorem vtranReply_cur {s : State} {r : VtPend} {l : List VtPend} (he : s.cur.st ≠ .ended) (hsh : s.cur.shadow = false)
    (hr : s.cur.vtPend = r :: l) : vtranReply s.cur.frame s =
      if (vtOut s).any fun x => x.num < r.num then s else vtranWrite r (s.awaiting l) := by
  have hlive : (liveAt s.cur.frame s.cur && !s.cur.vtPend.isEmpty) = true := by
    rw [hr]; simp [liveAt, he, hsh]
  unfold vtranReply
  dsimp only
  rw [findCtx_cur (p := fun t => liveAt s.cur.frame t && !t.vtPend.isEmpty) hlive,
    updCtx_cur (p := fun t => liveAt s.cur.frame t && !t.vtPend.isEmpty) hlive]
  have hfirst : (some s.cur).bind vtFirst = some r := congrArg List.head? hr
  have hrest : (s.onCur fun t => { t with vtPend := t.vtPend.drop 1 }) = s.awaiting l :=
    (congrArg (fun q => s.awaiting (q.drop 1)) hr :)
  rw [hfirst, hrest]
  dsimp only
  rw [asFrame_cur (show (s.awaiting l).cur.frame = s.cur.frame from rfl) hsh he]

/-- R172: the reply to the core's oldest request is delivered. -/
theorem exec_vtranReply_oldest {s : State} {r : VtPend} {l : List VtPend} (he : s.cur.st ≠ .ended) (hsh : s.cur.shadow = false)
    (hr : s.cur.vtPend = r :: l) (hold : ∀ x ∈ vtOut s, r.num ≤ x.num) :
    exec (.vtranReply s.cur.frame) s = .next (vtranWrite r (s.awaiting l)) := by
  have hnone : (vtOut s).any (fun x => x.num < r.num) = false :=
    List.any_eq_false.mpr fun x hx => by simpa using hold x hx
  show Host.Outcome.next (vtranReply s.cur.frame s) = _
  rw [vtranReply_cur he hsh hr, hnone, if_neg Bool.false_ne_true]

/-- R169: what a reply writes: the function of its active lanes; in the others the register's old value, or 0 in a strip. -/
def replyReg (r : VtPend) (s : State) : BitVec 512 := columnReg r.fn r.mask r.src (if r.vd < 16 then s.getV r.vd else 0)

theorem replyReg_lane (r : VtPend) (s : State) (k : Nat) (hk : k < 16) : lane 32 (replyReg r s) k =
    if r.mask.getLsbD k then BitVec.ofNat 32 (columnFn r.fn (lane 32 r.src k).toNat)
    else if r.vd < 16 then lane 32 ((s.cur.v[r.vd.toNat]?).getD 0) k else 0 := by
  unfold replyReg
  rw [column_lane _ _ _ _ k hk]
  by_cases hv : r.vd < 16
  · rw [if_pos hv, if_pos hv]; rfl
  · rw [if_neg hv, if_neg hv, lane_zero]

/-- What a reply writes does not depend on the requests that stay out. -/
theorem vtranWrite_awaiting (r : VtPend) (s : State) (l : List VtPend) :
    vtranWrite r (s.awaiting l) = writeV r.vd (replyReg r s) (s.awaiting l) := rfl

namespace Settled

/-- Settles O43: VTRAN's request over the operands it takes, and the reply to the core's oldest request, to a register or, as the model
reads R169 and R172 (log entry 44), pushed by the reply to a stream. -/
theorem columnUnit : Obligations.ColumnUnit := by
  intro a b m g s mask out
  refine ⟨fun vs xs u hout ht => execVtran_ok (vtran_ok hout ht g), fun r l he hsh hr hold => ?_⟩
  have hreply := (exec_vtranReply_oldest he hsh hr hold).trans (congrArg Host.Outcome.next (vtranWrite_awaiting r s l))
  refine ⟨replyReg r s, fun hv => ?_, fun _ => hreply, replyReg_lane r s⟩
  have hreg (t : State) : writeV r.vd (replyReg r s) t = t.setV r.vd (replyReg r s) := if_pos hv
  rw [hreply, hreg]; rfl

end Settled

end Sys2Proof.Machine
end

section
/-! Barriers (R186, R258 to R262): the state that BTEST reads, the four instructions, the arrivals, the wake, O23. -/

namespace Sys2Proof.Machine

/-! ### The state of a barrier -/

/-- R258: the fields of BTEST's word at their places. -/
theorem Bar.word_eq (b : Bar) : b.word = BitVec.ofNat 64
    (b.init.toNat * 2 ^ 63 + b.ring.toNat * 2 ^ 62 + b.count.toNat * 2 ^ 32 + b.arr.toNat * 2 ^ 16 + b.phase.toNat) := by
  apply BitVec.eq_of_toNat_eq
  have hinit := Bool.toNat_le b.init
  have hring := Bool.toNat_le b.ring
  unfold Bar.word
  simp only [app_toNat, BitVec.toNat_ofBool, BitVec.toNat_ofNat]
  omega

/-- R262: how far a barrier's phase is past the phase that the low half of a register names, modulo 2^16. -/
theorem phaseGone_toNat (b : Bar) (x : Word) :
    (b.phase - x.extractLsb' 0 16).toNat = (b.phase.toNat + 65536 - x.toNat % 65536) % 65536 := by
  rw [BitVec.toNat_sub, ext_toNat]
  omega

theorem phasePassed_iff (b : Bar) (p : BitVec 16) :
    phasePassed b p = true ↔ 1 ≤ (b.phase - p).toNat ∧ (b.phase - p).toNat ≤ 32767 := by
  simp [phasePassed]

/-- R260: a barrier after BINIT of a count. -/
def Bar.setUp (b : Bar) (x : Word) : Bar :=
  if x = 0 then { b with init := false } else { b with init := true, count := x.extractLsb' 0 12 }

/-! ### The instructions -/

/-- R261: a context whose arrival on a barrier is on its way, its register to receive the phase. -/
def Task.sendArrival (a : Fld) (n : BitVec 6) (t : Task) : Task := { t with arrives := t.arrives ++ [(a, n)] }

section Instructions
variable {a : Fld} {n : BitVec 6} {s : State}

theorem finish_barTrap (n : BitVec 6) (s : State) : finish (barTrap n s) = .next (takeTrap 0x13 0 false (n.setWidth 64) s) := rfl

/-- R260: BINIT with its count register there. -/
theorem binit_eq (ha : wBusy s.cur a = false) : binit a n s =
    if (s.bar n).arr ≠ 0 ∨ barWaited s n = true ∨ 4095 < (s.rw a).toNat then barTrap n s
    else .ok (advance ((charge .bar s).setBar n ((s.bar n).setUp (s.rw a)))) := by
  have hcount : s.rw a > 4095 ↔ 4095 < (s.rw a).toNat := Iff.rfl
  unfold binit
  rw [needRegs1 ha]
  dsimp only
  by_cases hbusy : (s.bar n).arr ≠ 0 ∨ barWaited s n = true
  · rw [if_pos (by simpa using hbusy), if_pos (hbusy.imp_right .inl)]
  · obtain ⟨harr, hwait⟩ := not_or.mp hbusy
    rw [if_neg (by simpa using hbusy)]
    by_cases hbig : 4095 < (s.rw a).toNat
    · rw [if_pos (hcount.mpr hbig), if_pos (.inr (.inr hbig))]
    · rw [if_neg (hcount.not.mpr hbig), if_neg (not_or.mpr ⟨harr, not_or.mpr ⟨hwait, hbig⟩⟩)]
      rfl

/-- R261: BARRIVE whose scope is allowed, at its first issue: the traps, then the arrival, after the seal of `.rl`. -/
theorem barrive_eq (i : Instr) {rl : Bool} (hscope : rl = true → scopeOk s 1 = true) (ha : wBusy s.cur a = false) (hs : s.starts) :
    barrive i a n rl s =
      if (s.bar n).init = false ∨ (s.bar n).ring = true then barTrap n s
      else if rl = true then
        match sealRelease 1 (s.paid .bar) with
        | .error e => .error e
        | .ok u => if segsAcked u s.cur.openSeg then .ok (advance (u.onCur (Task.sendArrival a n)))
                   else .error (.wait .waitMem (.acks s.cur.openSeg) u)
      else .ok (advance ((s.paid .bar).onCur (Task.sendArrival a n))) := by
  obtain ⟨_, hwait, hpaid⟩ := hs
  have hpriv : privCheck (!rl || scopeOk s 1) i s = .ok () := if_pos (match rl, hscope with
    | false, _ => rfl
    | true, hlimit => hlimit rfl)
  have htrap : (!(s.bar n).init || (s.bar n).ring) = true ↔ (s.bar n).init = false ∨ (s.bar n).ring = true := by simp
  unfold barrive
  rw [hpriv, needRegs1 ha, hwait, chargeOnce_paid' hpaid]
  dsimp only
  by_cases h : (s.bar n).init = false ∨ (s.bar n).ring = true
  · rw [if_pos h, if_pos (htrap.mpr h)]
  · rw [if_neg h, if_neg (htrap.not.mpr h)]
    rfl

/-- R262: BWAIT at its first issue. -/
theorem bwait_eq (aq : Bool) (ha : wBusy s.cur a = false) (hs : s.starts) : bwait a n aq s =
    if (s.bar n).init then bwaitGo n ((s.rw a).extractLsb' 0 16) aq (s.paid .bar) else barTrap n s := by
  obtain ⟨_, hwait, hpaid⟩ := hs
  unfold bwait
  rw [hwait, needRegs1 ha, chargeOnce_paid' hpaid]
  cases (s.bar n).init <;> rfl

/-- R260: BINIT of an idle barrier that nothing waits on. -/
theorem exec_binit_idle (ha : wBusy s.cur a = false) (hs : s.starts) (harr : (s.bar n).arr = 0) (hwait : barWaited s n = false)
    (hx : (s.rw a).toNat ≤ 4095) : exec (.binit a n) s =
      .next ((s.setBar n ((s.bar n).setUp (s.rw a))).completes .bar id) := by
  obtain ⟨_, _, hpaid⟩ := hs
  rw [completes_charge (s := s.setBar n _) hpaid .bar id fun _ => rfl]
  show finish (binit a n s) = _
  rw [binit_eq ha, if_neg (not_or.mpr ⟨not_not.mpr harr, not_or.mpr ⟨ne_true_of_eq_false hwait, Nat.not_lt.mpr hx⟩⟩)]
  rfl

theorem exec_binit_traps (ha : wBusy s.cur a = false) (h : (s.bar n).arr ≠ 0 ∨ barWaited s n = true ∨ 4095 < (s.rw a).toNat) :
    exec (.binit a n) s = .next (takeTrap 0x13 0 false (n.setWidth 64) s) := by
  show finish (binit a n s) = _
  rw [binit_eq ha, if_pos h, finish_barTrap]

theorem exec_barrive_sends (ha : wBusy s.cur a = false) (hs : s.starts) (hi : (s.bar n).init = true) (hr : (s.bar n).ring = false) :
    exec (.barrive a n false) s = .next (s.completes .bar (Task.sendArrival a n)) := by
  show finish (barrive (.barrive a n false) a n false s) = _
  rw [barrive_eq _ (fun h => Bool.noConfusion h) ha hs, if_neg (not_or.mpr ⟨ne_false_of_eq_true hi, ne_true_of_eq_false hr⟩)]
  unfold State.completes
  rw [chargeOnce_paid' hs.2.2]
  rfl

/-- R261: BARRIVE.rl publishes, then arrives or waits as its segments are acknowledged. -/
theorem exec_barrive_release (ha : wBusy s.cur a = false) (hs : s.starts) (hi : (s.bar n).init = true) (hr : (s.bar n).ring = false)
    (hscope : scopeOk s 1 = true) (hbad : badPush s.cur = none) (hpush : sharedPushes s.cur = []) :
    exec (.barrive a n true) s = .next (if segsAcked ((s.paid .bar).published 1) s.cur.openSeg then
        (((s.paid .bar).published 1).onCur (Task.sendArrival a n)).retired
      else blockCur .waitMem (.acks s.cur.openSeg) ((s.paid .bar).published 1)) := by
  have hseal : sealRelease 1 (s.paid .bar) = .ok ((s.paid .bar).published 1) := sealRelease_ok (s := s.paid .bar) hbad hpush 1
  show finish (barrive (.barrive a n true) a n true s) = _
  rw [barrive_eq _ (fun _ => hscope) ha hs, if_neg (not_or.mpr ⟨ne_false_of_eq_true hi, ne_true_of_eq_false hr⟩), if_pos rfl, hseal]
  dsimp only
  split <;> rfl

theorem exec_barrive_traps (ha : wBusy s.cur a = false) (hs : s.starts) (h : (s.bar n).init = false ∨ (s.bar n).ring = true) :
    exec (.barrive a n false) s = .next (takeTrap 0x13 0 false (n.setWidth 64) s) := by
  show finish (barrive (.barrive a n false) a n false s) = _
  rw [barrive_eq _ (fun h => Bool.noConfusion h) ha hs, if_pos h, finish_barTrap]

/-- R262: BWAIT of an initialised barrier passes when the phase has, else waits. -/
theorem exec_bwait_init (aq : Bool) (ha : wBusy s.cur a = false) (hs : s.starts) (hi : (s.bar n).init = true) :
    exec (.bwait a n aq) s = .next (if phasePassed (s.bar n) ((s.rw a).extractLsb' 0 16) then
        (s.onCore fun c => { c with vcache := if aq then [] else c.vcache }).completes .bar id
      else blockCur .waitMsg (.bwait n ((s.rw a).extractLsb' 0 16)) (s.paid .bar)) := by
  have hbar : (s.paid .bar).bar n = s.bar n := rfl
  show finish (bwait a n aq s) = _
  rw [bwait_eq aq ha hs, if_pos hi]
  unfold bwaitGo
  rw [hbar]
  split
  · unfold State.completes
    rw [chargeOnce_paid' (s := s.onCore _) hs.2.2]
    cases aq <;> rfl
  · rfl

theorem exec_bwait_traps (aq : Bool) (ha : wBusy s.cur a = false) (hs : s.starts) (hi : (s.bar n).init = false) :
    exec (.bwait a n aq) s = .next (takeTrap 0x13 0 false (n.setWidth 64) s) := by
  show finish (bwait a n aq s) = _
  rw [bwait_eq aq ha hs, if_neg (ne_true_of_eq_false hi), finish_barTrap]

/-- R262: BTEST traps on no barrier. -/
theorem exec_btest (ha : wBusy s.cur a = false) (hs : s.starts) :
    exec (.btest a n) s = .next (s.completes .bar fun t => t.setW (wIdx a) (s.bar n).word) := by
  obtain ⟨_, _, hpaid⟩ := hs
  rw [completes_charge hpaid .bar _ fun t => setW_paid _ _ t]
  show execBtest a n s = _
  unfold execBtest
  rw [needRegs1 ha]
  rfl

end Instructions

/-! ### The arrivals -/

/-- R261: a barrier after one arrival: the last of the count ends the phase. -/
def Bar.arrived (b : Bar) : Bar :=
  if b.arr + 1 = b.count then { b with arr := 0, phase := b.phase + 1, ring := false } else { b with arr := b.arr + 1 }

/-- R186: a barrier after the arrival of a ring: its phase is the ring's, unless the arrival ends it. -/
def Bar.ringArrived (b : Bar) : Bar := if b.arr + 1 = b.count then b.arrived else { b.arrived with ring := true }

/-- R261: an arrival joins the phase in progress. -/
theorem barArrive_eq (b : Bar) : barArrive b = (b.phase, b.arrived) := by
  unfold barArrive Bar.arrived
  split <;> rfl

/-- Below the count one arrival more does not wrap, so only the last arrival leaves none counted. -/
theorem ringArrive_eq {b : Bar} (h : b.arr < b.count) : ringArrive b = b.ringArrived := by
  have hwrap : b.arr + 1 ≠ 0 := by bv_omega
  unfold ringArrive Bar.ringArrived
  rw [barArrive_eq]
  dsimp only
  unfold Bar.arrived
  by_cases hlast : b.arr + 1 = b.count
  · rw [if_pos hlast, if_pos hlast]; rfl
  · rw [if_neg hlast, if_neg hlast]; exact if_neg hwrap

section Arrivals
variable {n : BitVec 6} {s : State}

/-- An arrival on a barrier that is not set up changes nothing (log entry 3). -/
theorem barrierArrival_uninit (h : (s.bar n).init = false) (x : Arrival) : barrierArrival n x s = s := by
  unfold barrierArrival
  rw [h]; rfl

theorem barrierArrival_otherTask (h : (s.bar n).init = true) :
    barrierArrival n .otherTask s = if (s.bar n).ring then s else s.setBar n (s.bar n).arrived := by
  unfold barrierArrival
  rw [h, barArrive_eq]; rfl

theorem barrierArrival_otherMrot (h : (s.bar n).init = true) (hc : (s.bar n).arr < (s.bar n).count) :
    barrierArrival n .otherMrot s = s.setBar n (s.bar n).ringArrived := by
  unfold barrierArrival
  rw [h, ringArrive_eq hc]; rfl

/-- R186: the MROT at the head of the queue starts with the phase that it joins. -/
theorem barrierArrival_ownMrot (h : (s.bar n).init = true) (hc : (s.bar n).arr < (s.bar n).count) {m : MxCmd} {q : List MxCmd}
    (hq : s.core.mx.queue = m :: q) (hfn : m.fn = .mrot) (hst : m.started = false) (hbar : m.bar = some n) :
    barrierArrival n .ownMrot s = (s.setBar n (s.bar n).ringArrived).onCore fun c =>
      { c with mx := { c.mx with queue := { m with started := true, barPhase := (s.bar n).phase } :: q } } := by
  have hwaits : mrotWaits s n = true := by unfold mrotWaits; rw [hq]; simp [hfn, hst, hbar]
  have hstart : startMrot s n = s.onCore fun c =>
      { c with mx := { c.mx with queue := { m with started := true, barPhase := (s.bar n).phase } :: q } } := by
    unfold startMrot State.onCore
    dsimp only
    rw [hq]
  unfold barrierArrival
  rw [h, ringArrive_eq hc]
  dsimp only
  rw [hwaits, hstart]
  rfl

/-- R261: the arrival of the issuing context: its register receives the phase that it joins. -/
theorem barrierArrival_ownTask_cur (h : (s.bar n).init = true) (hr : (s.bar n).ring = false) {x : Fld × BitVec 6}
    (hx : s.cur.arrives.find? (fun x => x.2 == n) = some x) (hsh : s.cur.shadow = false) :
    barrierArrival n (.ownTask s.cur.frame) s = (s.setBar n (s.bar n).arrived).onCur fun t =>
      { t.setW (wIdx x.1) ((s.bar n).phase.setWidth 64) with arrives := t.arrives.erase x } := by
  have hon : arrivesOn n s.cur = true :=
    List.any_eq_true.mpr ⟨x, List.mem_of_find?_eq_some hx, List.find?_some (p := fun x : Fld × BitVec 6 => x.2 == n) hx⟩
  have hcur : (s.cur.frame == s.cur.frame && !s.cur.shadow && arrivesOn n s.cur) = true := by simp [hsh, hon]
  unfold barrierArrival
  dsimp only
  rw [h, findCtx_cur (p := fun t => t.frame == s.cur.frame && !t.shadow && arrivesOn n t) hcur]
  dsimp only
  rw [hx, hr]
  dsimp only
  rw [if_neg Bool.false_ne_true, updCtx_cur (p := fun t => t.frame == s.cur.frame && !t.shadow && arrivesOn n t) hcur, barArrive_eq]
  rfl

/-- R262, R31: BARRIER_WAKE finds the issuing context waiting on a phase gone by. -/
theorem barrierWake_cur {p : BitVec 16} (hst : s.cur.st = .waitMsg) (hw : s.cur.wait = some (.bwait n p))
    (hp : phasePassed (s.bar n) p = true) : ∃ t, exec (.barrierWake n) s = .next t ∧ t.cur = wake s.cur := by
  refine ⟨_, rfl, if_pos ?_⟩
  simp [hst, hw, hp]

end Arrivals

namespace Settled

/-- Settles O23: the four instructions by the equations above, then the arrivals and the wake. That an arrival which meets a barrier given
to a ring, or not set up, leaves it as it stands is the model's reading (log entries 91 and 3). -/
theorem barriers : Obligations.Barriers := by
  refine ⟨fun a n s ha hs => ?_, fun n s => ?_⟩
  · intro b x
    refine ⟨exec_binit_idle ha hs, exec_binit_traps ha, exec_barrive_sends ha hs, fun hi hr hscope hbad hpush => ?_,
      exec_barrive_traps ha hs, fun aq hi => ?_, fun aq => exec_bwait_traps aq ha hs, ?_⟩
    · have hrel := exec_barrive_release ha hs hi hr hscope hbad hpush
      exact ⟨fun hack => hrel.trans (congrArg _ (if_pos hack)), fun hack => hrel.trans (congrArg _ (if_neg (ne_true_of_eq_false hack)))⟩
    · have hwait := exec_bwait_init aq ha hs hi
      intro gone
      have hgone : phasePassed b (x.extractLsb' 0 16) = true ↔ 1 ≤ gone ∧ gone ≤ 32767 := by
        rw [phasePassed_iff, phaseGone_toNat]
      exact ⟨fun hlo hhi => hwait.trans (congrArg _ (if_pos (hgone.mpr ⟨hlo, hhi⟩))),
        fun hno => hwait.trans (congrArg _ (if_neg (hgone.not.mpr (by omega))))⟩
    · rw [exec_btest ha hs, Bar.word_eq]; rfl
  · intro b last next set
    have hnext : next = b.arrived := by simp only [next, last, decide_eq_true_eq]; rfl
    have hring : (if last then next else { next with ring := true }) = b.ringArrived := by
      rw [hnext]; simp only [last, decide_eq_true_eq]; rfl
    rw [hring, hnext]
    refine ⟨fun hi y => congrArg _ (barrierArrival_uninit hi y), fun hi hr => ?_,
      fun hi hc => congrArg _ (barrierArrival_otherMrot hi hc),
      fun hi m q hq hfn hst hbar hc => congrArg _ (barrierArrival_ownMrot hi hc hq hfn hst hbar),
      fun hi hr y hy hsh => congrArg _ (barrierArrival_ownTask_cur hi hr hy hsh), fun hi hr => ?_, ?_⟩
    · exact congrArg _ ((barrierArrival_otherTask hi).trans (if_neg (ne_true_of_eq_false hr)))
    · exact congrArg _ ((barrierArrival_otherTask hi).trans (if_pos hr))
    · refine ⟨_, rfl, fun p hst hw hne hle => ?_⟩
      obtain ⟨t, ht, hcur⟩ := barrierWake_cur hst hw ((phasePassed_iff b p).mpr ⟨Nat.pos_of_ne_zero hne, hle⟩)
      cases ht
      exact hcur

end Settled

end Sys2Proof.Machine
end

section
/-! Virtual time (R284 to R288, R293, R302, R317, R318, R322): PROMISE, DEPOSIT, NRED, NRWAIT, O26; SETLAH, O30. -/

namespace Sys2Proof.Machine

section VirtualTime
variable {a b c : Fld} {s : State}

/-! ### PROMISE and DEPOSIT -/

/-- R317: PROMISE sends its pips at once, on the links of the class that its register names or on all of them. -/
theorem exec_promise (hb : wBusy s.cur b = false) : exec (.promise b) s =
    .next (sendPips (s.tile.outLinks.filter fun l => (s.rw b).getLsbD 63 || l.cls == (s.rw b).extractLsb' 0 4) (charge .msg s)).retired := by
  show finish (promise b s) = _
  unfold promise
  rw [needRegs1 hb]; rfl

/-- R318: the deposit that a descriptor, a value and a task identifier name. -/
def depositOf (d v tid : Word) (s : State) : Deposit :=
  { core := destCore d, frame := (d.extractLsb' 16 6).toNat, word := (d.extractLsb' 24 4).toNat, val := v, tid := tid,
    orig := d.extractLsb' 32 13, src := s.core.id, part := s.core.vf }

/-- R318: a descriptor in order is a held operation; any other traps before anything is charged. -/
theorem deposit_eq (x : Bool) (ha : wBusy s.cur a = false) (hb : wBusy s.cur b = false) (hc : wBusy s.cur c = false) :
    deposit a b c x s = if depositOk (s.rw a) s then
        .ok (advance (sendOp (.deposit (depositOf (s.rw a) (s.rw b) (s.rw c) s)) x (charge .msg s)))
      else trapR cACCESS (s.rw a) s := by
  unfold deposit
  rw [needRegs3 ha hb hc]
  dsimp only
  cases depositOk (s.rw a) s <;> rfl

/-! ### NRED -/

/-- R284: the value that NRED contributes: the register, or its low half. -/
def nredOperand (s32 : Bool) (x : Word) : Word := if s32 then BitVec.ofNat 64 (x.toNat % 2 ^ 32) else x

theorem nredOperand_low (s32 : Bool) (x : Word) :
    (if s32 then (x.extractLsb' 0 32).setWidth 64 else x) = nredOperand s32 x := by
  have hlow : ((x.extractLsb' 0 32).setWidth 64 : Word) = BitVec.ofNat 64 (x.toNat % 2 ^ 32) := by
    rw [zext_eq, ext_toNat, Nat.pow_zero, Nat.div_one]
  rw [hlow]; rfl

/-- R284, R285: the contribution of the issuing task to a tag, of a unit its leaf holds. -/
def nredShare (s32 : Bool) (op : BitVec 3) (x tag : Word) (u : Nat) (s : State) : Contribution :=
  { tag := tag.extractLsb' 0 16, op := op, s32 := s32, src := .own, unit := u, vals := [(u, nredOperand s32 x)], late := false,
    resultLate := false, missing := 0, more := false, part := s.core.vf }

/-- R284, R285: NRED at its first issue: queue 10 for a unit of the task's leaf, else one more error of the tile. -/
theorem nred_eq (s32 : Bool) (op : BitVec 3) (ha : wBusy s.cur a = false) (hb : wBusy s.cur b = false) (hc : wBusy s.cur c = false)
    (hs : s.starts) : nred a b c s32 op s =
      if (nredUnit s (s.rw a)).2 then
        match enqueueOp 10 (.nred (nredShare s32 op (s.rw b) (s.rw c) (nredUnit s (s.rw a)).1 s)) 0 0
          (hashedOp (.nred a b c s32 op) (((s.rw c).extractLsb' 0 16).setWidth 64) (nredOperand s32 (s.rw b))) (s.paid .msg) with
        | .error e => .error e
        | .ok u => .ok (advance u)
      else .ok (advance (errCount 1 (s.paid .msg))) := by
  obtain ⟨_, _, hpaid⟩ := hs
  unfold nred
  rw [needRegs3 ha hb hc, nredOperand_low, chargeOnce_paid' hpaid]
  rfl

/-- R223, R285: with a part of the open segment left, the contribution takes it and enters queue 10. -/
theorem exec_nred_own (s32 : Bool) (op : BitVec 3) (ha : wBusy s.cur a = false) (hb : wBusy s.cur b = false)
    (hc : wBusy s.cur c = false) (hs : s.starts) (hpart : s.cur.partCtr + 1 < 2 ^ 32 - 1) (hown : (nredUnit s (s.rw a)).2 = true) :
    exec (.nred a b c s32 op) s =
      .next ((s.paid .msg).queuedOp 10 (.nred (nredShare s32 op (s.rw b) (s.rw c) (nredUnit s (s.rw a)).1 s)) 0 0
        (hashedOp (.nred a b c s32 op) (((s.rw c).extractLsb' 0 16).setWidth 64) (nredOperand s32 (s.rw b)))).retired := by
  show finish (nred a b c s32 op s) = _
  rw [nred_eq s32 op ha hb hc hs, if_pos hown, enqueueOp_ok (s := s.paid .msg) hpart]; rfl

theorem exec_nred_foreign (s32 : Bool) (op : BitVec 3) (ha : wBusy s.cur a = false) (hb : wBusy s.cur b = false)
    (hc : wBusy s.cur c = false) (hs : s.starts) (hown : (nredUnit s (s.rw a)).2 = false) :
    exec (.nred a b c s32 op) s = .next (errCount 1 (s.paid .msg)).retired := by
  show finish (nred a b c s32 op s) = _
  rw [nred_eq s32 op ha hb hc hs, if_neg (ne_true_of_eq_false hown)]; rfl

/-! ### NRWAIT -/

/-- R288: NRWAIT at its first issue reads its tag, and the tile's table under it. -/
theorem exec_nrwait (st : Bool) (ha : wBusy s.cur a = false) (hb : wBusy s.cur b = false) (hs : s.starts) :
    exec (.nrwait a b st) s = .next (match redResult s ((s.rw b).extractLsb' 0 16) with
      | some r => s.completes .msg fun t => t.setW (wIdx a) (if st then nredStatus r else nredValue r)
      | none => blockCur .waitMsg (.nrwait ((s.rw b).extractLsb' 0 16)) (s.paid .msg)) := by
  obtain ⟨_, hwait, hpaid⟩ := hs
  have htab (tag : BitVec 16) : redResult (s.paid .msg) tag = redResult s tag := rfl
  show finish (nrwait a b st s) = _
  unfold nrwait State.completes
  rw [hwait, needRegs2 ha hb, chargeOnce_paid' hpaid]
  unfold nrwaitGo
  rw [htab]
  cases redResult s ((s.rw b).extractLsb' 0 16) <;> rfl

/-! ### SETLAH -/

/-- R322: the tile with another lookahead of a class. -/
def State.setLah (s : State) (cls : BitVec 4) (l : Nat) : State := s.onTile fun t => { t with lah := tabSet t.lah cls.toNat l }

/-- R322: SETLAH of a class without a link. -/
theorem exec_setlah_unlinked (ha : wBusy s.cur a = false) (hb : wBusy s.cur b = false) (hc : wBusy s.cur c = false)
    (hcls : lahOf s ((s.rw b).extractLsb' 0 4) = none) :
    exec (.setlah a b c) s = .next (takeTrap 0x14 0 false (((s.rw b).extractLsb' 0 4).setWidth 64) s) := by
  show finish (setlah a b c s) = _
  unfold setlah
  rw [needRegs3 ha hb hc]
  dsimp only
  rw [hcls]; rfl

/-- R322: SETLAH of a class with a link: infinity traps, a lower value is answered and not taken, any other is taken. -/
theorem exec_setlah_linked (ha : wBusy s.cur a = false) (hb : wBusy s.cur b = false) (hc : wBusy s.cur c = false) (hs : s.starts)
    {old : Nat} (hcls : lahOf s ((s.rw b).extractLsb' 0 4) = some old) : exec (.setlah a b c) s =
      .next (if 2 ^ 48 - 1 ≤ (s.rw c).toNat then takeTrap 0x0E 0 false (s.rw c) s
        else if (s.rw c).toNat < old then s.completes .task fun t => t.setW (wIdx a) (BitVec.ofNat 64 (2 ^ 63 + old))
        else (s.setLah ((s.rw b).extractLsb' 0 4) (s.rw c).toNat).completes .task fun t => t.setW (wIdx a) (BitVec.ofNat 64 old)) := by
  obtain ⟨_, _, hpaid⟩ := hs
  have hinf : (s.rw c).toNat ≥ inf48 ↔ 2 ^ 48 - 1 ≤ (s.rw c).toNat := Iff.rfl
  rw [completes_charge hpaid .task _ (setW_paid _ _), completes_charge (s := s.setLah _ _) hpaid .task _ (setW_paid _ _)]
  show finish (setlah a b c s) = _
  unfold setlah
  rw [needRegs3 ha hb hc]
  dsimp only
  rw [hcls]
  dsimp only
  by_cases htop : 2 ^ 48 - 1 ≤ (s.rw c).toNat
  · rw [if_pos htop, if_pos (hinf.mpr htop)]; rfl
  · rw [if_neg htop, if_neg (hinf.not.mpr htop)]
    by_cases hlow : (s.rw c).toNat < old
    · rw [if_pos hlow, if_pos hlow]; rfl
    · rw [if_neg hlow, if_neg hlow]; rfl

end VirtualTime

namespace Settled

/-- Settles O26: each instruction by its equation above. -/
theorem tileMessages : Obligations.TileMessages := by
  intro a b c x s ha hb hc hs
  have hdep : exec (.deposit a b c x) s = finish _ := congrArg finish (deposit_eq x ha hb hc)
  have hwait (st : Bool) := exec_nrwait st ha hb hs
  refine ⟨exec_promise hb, fun hok => ?_, fun hbad => ?_, fun s32 op hpart hown => exec_nred_own s32 op ha hb hc hs hpart hown,
    fun s32 op hown => exec_nred_foreign s32 op ha hb hc hs hown, fun st r hr => ?_, fun st hr => ?_⟩
  · rw [hdep, if_pos hok]; rfl
  · rw [hdep, if_neg (ne_true_of_eq_false hbad)]; rfl
  · rw [hwait st, hr]
  · rw [hwait st, hr]

/-- Settles O30: the class without a link, then the three outcomes of one with a link. -/
theorem setLookahead : Obligations.SetLookahead := by
  intro a b c s ha hb hc hs cls l
  refine ⟨exec_setlah_unlinked ha hb hc, fun old hold => ?_⟩
  have hset := exec_setlah_linked ha hb hc hs hold
  refine ⟨fun htop => ?_, fun hfin hlow => ?_, fun hfin hup => ?_⟩
  · rw [hset, if_pos htop]
  · rw [hset, if_neg (Nat.not_le.mpr hfin), if_pos hlow]
  · rw [hset, if_neg (Nat.not_le.mpr hfin), if_neg (Nat.not_lt.mpr hup)]; rfl

end Settled

end Sys2Proof.Machine
end

section
/-! The encoding (R79, R85 to R90): the decoder answers no step, encoding and decoding agree, the words written out field by field, O1, O2. -/

namespace Sys2Proof.Machine

/-! ### A word decodes to no step of another agent -/

/-- What a table of the decoder answers is an encoded instruction. -/
def encoded (r : Option Instr) : Bool := r.all fun i => !i.isStep

@[simp] theorem rawAlu_encoded (w : IWord) (a b c : Fld) : encoded (rawAlu w a b c) = true := by
  unfold rawAlu; repeat' split
  all_goals rfl

@[simp] theorem rawMul_encoded (w : IWord) (a b c : Fld) : encoded (rawMul w a b c) = true := by
  unfold rawMul; repeat' split
  all_goals rfl

@[simp] theorem rawShift_encoded (w : IWord) (a b : Fld) : encoded (rawShift w a b) = true := by
  unfold rawShift; repeat' split
  all_goals rfl

@[simp] theorem rawOrd_encoded (w : IWord) (a b c : Fld) : encoded (rawOrd w a b c) = true := by
  unfold rawOrd; repeat' split
  all_goals rfl

@[simp] theorem rawMsg_encoded (w : IWord) (a b c : Fld) : encoded (rawMsg w a b c) = true := by
  unfold rawMsg; repeat' split
  all_goals rfl

@[simp] theorem rawTask_encoded (w : IWord) (a b c : Fld) : encoded (rawTask w a b c) = true := by
  unfold rawTask; repeat' split
  all_goals rfl

@[simp] theorem rawBar_encoded (w : IWord) (a b : Fld) : encoded (rawBar w a b) = true := by
  unfold rawBar; repeat' split
  all_goals rfl

@[simp] theorem rawStrm_encoded (w : IWord) (a b : Fld) : encoded (rawStrm w a b) = true := by
  unfold rawStrm; repeat' split
  all_goals rfl

@[simp] theorem rawXfer_encoded (w : IWord) (a b : Fld) : encoded (rawXfer w a b) = true := by
  unfold rawXfer; repeat' split
  all_goals rfl

@[simp] theorem rawBlk_encoded (w : IWord) (a b c : Fld) : encoded (rawBlk w a b c) = true := by
  unfold rawBlk; repeat' split
  all_goals rfl

@[simp] theorem rawCsr_encoded (w : IWord) (a b : Fld) : encoded (rawCsr w a b) = true := by
  unfold rawCsr; repeat' split
  all_goals rfl

@[simp] theorem rawSys_encoded (w : IWord) (a b c : Fld) : encoded (rawSys w a b c) = true := by
  unfold rawSys; repeat' split
  all_goals rfl

@[simp] theorem rawVArith_encoded (w : IWord) (a b c : Fld) : encoded (rawVArith w a b c) = true := by
  unfold rawVArith; repeat' split
  all_goals rfl

@[simp] theorem rawVLogic_encoded (w : IWord) (a b c : Fld) : encoded (rawVLogic w a b c) = true := by
  unfold rawVLogic; repeat' split
  all_goals rfl

@[simp] theorem rawVCvt_encoded (w : IWord) (a b c : Fld) : encoded (rawVCvt w a b c) = true := by
  unfold rawVCvt; repeat' split
  all_goals rfl

@[simp] theorem rawVMem_encoded (w : IWord) (a b c : Fld) : encoded (rawVMem w a b c) = true := by
  unfold rawVMem; repeat' split
  all_goals rfl

@[simp] theorem rawVPerm_encoded (w : IWord) (a b c : Fld) : encoded (rawVPerm w a b c) = true := by
  unfold rawVPerm; repeat' split
  all_goals rfl

@[simp] theorem rawVRed_encoded (w : IWord) (a b : Fld) : encoded (rawVRed w a b) = true := by
  unfold rawVRed; repeat' split
  all_goals rfl

@[simp] theorem rawMma_encoded (w : IWord) (a b : Fld) : encoded (rawMma w a b) = true := by
  unfold rawMma; repeat' split
  all_goals rfl

@[simp] theorem rawMctl_encoded (w : IWord) (a b : Fld) : encoded (rawMctl w a b) = true := by
  unfold rawMctl; repeat' split
  all_goals rfl

@[simp] theorem rawMdrn_encoded (w : IWord) (a b c : Fld) : encoded (rawMdrn w a b c) = true := by
  unfold rawMdrn; repeat' split
  all_goals rfl

@[simp] theorem rawFalg_encoded (w : IWord) (a b c : Fld) : encoded (rawFalg w a b c) = true := by
  unfold rawFalg; repeat' split
  all_goals rfl

@[simp] theorem rawFcalc_encoded (w : IWord) (a b : Fld) : encoded (rawFcalc w a b) = true := by
  unfold rawFcalc; repeat' split
  all_goals rfl

@[simp] theorem rawFio_encoded (w : IWord) (a b c : Fld) : encoded (rawFio w a b c) = true := by
  unfold rawFio; repeat' split
  all_goals rfl

/-- An answer of the decoder is an encoded instruction or the reason for ILLEGAL. -/
def encodedOrIllegal : Except DecodeError Instr → Bool
  | .ok i => !i.isStep
  | .error _ => true

/-- R88: an opcode whose instructions a table names. -/
theorem encodedOrIllegal_named {r : Option Instr} {i : Instr} (hi : r = some i) (hr : encoded r = true) :
    encodedOrIllegal (.ok i) = true := by
  subst hi; exact hr

/-- R88: of the major opcodes each names one instruction, or the table of its instructions. -/
theorem decodeRaw_encoded (w : IWord) : encodedOrIllegal (decodeRaw w) = true := by
  unfold decodeRaw
  dsimp only
  repeat' split
  all_goals first | rfl | exact encodedOrIllegal_named ‹_ = some _› (by simp)

theorem decodeRaw_isStep {w : IWord} {i : Instr} (h : decodeRaw w = .ok i) : i.isStep = false := by
  have he := decodeRaw_encoded w
  rw [h] at he
  simpa [encodedOrIllegal] using he

/-- R90: a word decodes to the instruction that its fields name, when it is that instruction's word and the instruction is well-formed. -/
theorem decode_ok_iff {w : IWord} {i : Instr} : decode w = .ok i ↔ decodeRaw w = .ok i ∧ encode i = w ∧ i.wf = true := by
  unfold decode
  cases decodeRaw w with
  | error e => simp
  | ok j =>
    by_cases hw : encode j = w
    · by_cases hj : j.wf = true
      · simp only [hw, hj, bne_self_eq_false, if_true, Bool.false_eq_true, if_false, Except.ok.injEq]
        exact ⟨fun h => h ▸ ⟨rfl, hw, hj⟩, And.left⟩
      · simp only [hw, hj, bne_self_eq_false, Bool.false_eq_true, if_false, Except.ok.injEq]
        exact ⟨nofun, fun ⟨h, _, hwf⟩ => absurd (h ▸ hwf) hj⟩
    · simp only [bne_iff_ne.mpr hw, if_true, Except.ok.injEq]
      exact ⟨nofun, fun ⟨h, he, _⟩ => absurd (h ▸ he) hw⟩

/-! ### Encoding, instruction by instruction -/

open Laws in
/-- R85 to R90: each encoded instruction is read back from its word; the steps of other agents have none. -/
theorem decode_encode (i : Instr) : Enc.Statement i := match i with
  | .add .. => Enc.add _ _ _ | .sub .. => Enc.sub _ _ _ | .and .. => Enc.and _ _ _ | .or .. => Enc.or _ _ _
  | .xor .. => Enc.xor _ _ _ | .andn .. => Enc.andn _ _ _ | .sll .. => Enc.sll _ _ _ | .srl .. => Enc.srl _ _ _
  | .sra .. => Enc.sra _ _ _ | .rol .. => Enc.rol _ _ _ | .ror .. => Enc.ror _ _ _ | .slt .. => Enc.slt _ _ _
  | .sltn .. => Enc.sltn _ _ _ | .min .. => Enc.min _ _ _ | .max .. => Enc.max _ _ _ | .minn .. => Enc.minn _ _ _
  | .maxn .. => Enc.maxn _ _ _ | .clz .. => Enc.clz _ _ | .ctz .. => Enc.ctz _ _ | .popc .. => Enc.popc _ _
  | .bswap .. => Enc.bswap _ _ | .sel .. => Enc.sel _ _ _ _ | .mul .. => Enc.mul _ _ _ | .mulh .. => Enc.mulh _ _ _
  | .mulhn .. => Enc.mulhn _ _ _ | .div .. => Enc.div _ _ _ | .divn .. => Enc.divn _ _ _ | .rem .. => Enc.rem _ _ _
  | .remn .. => Enc.remn _ _ _ | .clmul .. => Enc.clmul _ _ _ | .clmulh .. => Enc.clmulh _ _ _
  | .addi .. => Enc.addi _ _ _ | .andi .. => Enc.andi _ _ _ | .ori .. => Enc.ori _ _ _ | .xori .. => Enc.xori _ _ _
  | .slti .. => Enc.slti _ _ _ | .sltin .. => Enc.sltin _ _ _ | .slli .. => Enc.slli _ _ _
  | .srli .. => Enc.srli _ _ _ | .srai .. => Enc.srai _ _ _ | .roli .. => Enc.roli _ _ _ | .lhi .. => Enc.lhi _ _
  | .pchi .. => Enc.pchi _ _ | .jal .. => Enc.jal _ | .jalr .. => Enc.jalr _ _ _ | .beq .. => Enc.beq _ _ _
  | .bne .. => Enc.bne _ _ _ | .blt .. => Enc.blt _ _ _ | .bge .. => Enc.bge _ _ _ | .bltn .. => Enc.bltn _ _ _
  | .bgen .. => Enc.bgen _ _ _ | .ldp .. => Enc.ldp _ _ _ _ | .ldpx .. => Enc.ldpx _ _ _ _
  | .stp .. => Enc.stp _ _ _ _ | .ld .. => Enc.ld _ _ _ _ _ _ | .ldx .. => Enc.ldx _ _ _ _ _ _
  | .st .. => Enc.st _ _ _ _ _ | .amo .. => Enc.amo _ _ _ _ _ _ _ _ | .rel .. => Enc.rel _ | .acq .. => Enc.acq _ _
  | .acqTm .. => Enc.acqTm _ _ _ | .acqMap .. => Enc.acqMap _ _ _ | .acqBelow .. => Enc.acqBelow _ _
  | .fence .. => Enc.fence _ _ | .fenceF .. => Enc.fenceF _ _ _ _ | .qfence .. => Enc.qfence _
  | .logsn .. => Enc.logsn _ | .send .. => Enc.send _ _ _ _ _ | .sendm .. => Enc.sendm _ _ _
  | .sendc .. => Enc.sendc _ _ _ | .promise .. => Enc.promise _ | .deposit .. => Enc.deposit _ _ _ _
  | .nred .. => Enc.nred _ _ _ _ _ | .nrwait .. => Enc.nrwait _ _ _ | .spawn .. => Enc.spawn _ _ _
  | .wait .. => Enc.wait _ _ _ | .migrate .. => Enc.migrate _ _ | .setlah .. => Enc.setlah _ _ _
  | .sweepW .. => Enc.sweepW _ | .clmask .. => Enc.clmask _ _ | .clunmask .. => Enc.clunmask _ _
  | .binit .. => Enc.binit _ _ | .barrive .. => Enc.barrive _ _ _ | .bwait .. => Enc.bwait _ _ _
  | .btest .. => Enc.btest _ _ | .sbind .. => Enc.sbind _ _ _ | .sunbind .. => Enc.sunbind _
  | .sstat .. => Enc.sstat _ _ _ | .qbind .. => Enc.qbind _ _ | .qunbind .. => Enc.qunbind _ | .copy .. => Enc.copy _
  | .sgrun .. => Enc.sgrun _ | .xstat .. => Enc.xstat _ _ _ | .xcancel .. => Enc.xcancel _
  | .blkref .. => Enc.blkref _ _ | .blkrefNew .. => Enc.blkrefNew _ _ | .blkfree .. => Enc.blkfree _ _
  | .blkcow .. => Enc.blkcow _ _ | .blkmoveTier .. => Enc.blkmoveTier _ _ | .blkmoveGet .. => Enc.blkmoveGet _
  | .blkmovePut .. => Enc.blkmovePut _ | .blkstat .. => Enc.blkstat _ _ | .csrr .. => Enc.csrr _ _
  | .csrw .. => Enc.csrw _ _ _ | .csrset .. => Enc.csrset _ _ _ | .csrclr .. => Enc.csrclr _ _ _
  | .trap .. => Enc.trap _ | .halt .. => Enc.halt _ | .brk .. => Enc.brk _ | .dbgmark .. => Enc.dbgmark _
  | .tlbinvPage .. => Enc.tlbinvPage _ _ | .tlbinvAsid .. => Enc.tlbinvAsid _ | .tlbinvVf .. => Enc.tlbinvVf _
  | .asidset .. => Enc.asidset _ _ | .asidsetNew .. => Enc.asidsetNew _ _ _ | .swapwp .. => Enc.swapwp _ _
  | .faultreply .. => Enc.faultreply _ _ _ | .eread .. => Enc.eread _ _ | .vadd .. => Enc.vadd _ _ _ _ _ _ _
  | .vsub .. => Enc.vsub _ _ _ _ _ _ _ | .vmul .. => Enc.vmul _ _ _ _ _ _ _ | .vmin .. => Enc.vmin _ _ _ _ _ _
  | .vmax .. => Enc.vmax _ _ _ _ _ _ | .vfma .. => Enc.vfma _ _ _ _ _ | .vfms .. => Enc.vfms _ _ _ _ _
  | .vabs .. => Enc.vabs _ _ _ _ _ | .vneg .. => Enc.vneg _ _ _ _ _ | .vand .. => Enc.vand _ _ _ _ _
  | .vor .. => Enc.vor _ _ _ _ _ | .vxor .. => Enc.vxor _ _ _ _ _ | .vshl .. => Enc.vshl _ _ _ _ _
  | .vshr .. => Enc.vshr _ _ _ _ _ _ | .vcmp .. => Enc.vcmp _ _ _ _ _ _ | .vsel .. => Enc.vsel _ _ _ _
  | .vsetm .. => Enc.vsetm _ _ | .vcvt .. => Enc.vcvt _ _ _ _ _ _ _ | .vqnt .. => Enc.vqnt _ _ _ _ _
  | .vdqnt .. => Enc.vdqnt _ _ _ _ _ | .vld .. => Enc.vld _ _ _ | .vst .. => Enc.vst _ _ _
  | .vlds .. => Enc.vlds _ _ _ _ | .vsts .. => Enc.vsts _ _ _ _ | .vgath .. => Enc.vgath _ _ _ _ _
  | .vscat .. => Enc.vscat _ _ _ _ _ | .vbcast .. => Enc.vbcast _ _ _ _ | .vslide .. => Enc.vslide _ _ _ _ _
  | .vperm .. => Enc.vperm _ _ _ _ _ | .vins .. => Enc.vins _ _ _ _ | .vext .. => Enc.vext _ _ _ _
  | .vrsum .. => Enc.vrsum _ _ _ | .vrmax .. => Enc.vrmax _ _ _ | .vrmin .. => Enc.vrmin _ _ _
  | .vramax .. => Enc.vramax _ _ _ | .xget .. => Enc.xget _ _ | .vtran .. => Enc.vtran _ _ _ _
  | .mma .. => Enc.mma _ _ _ _ | .mmas .. => Enc.mmas _ _ _ _ | .mzero .. => Enc.mzero _
  | .mlatch .. => Enc.mlatch _ _ _ | .mrot .. => Enc.mrot _ | .mstat .. => Enc.mstat _
  | .mdrain .. => Enc.mdrain _ _ _ _ _ | .fadd .. => Enc.fadd _ _ _ _ _ | .fsub .. => Enc.fsub _ _ _ _ _
  | .fmul .. => Enc.fmul _ _ _ _ _ | .fscal .. => Enc.fscal _ _ _ _ | .fcomp .. => Enc.fcomp _ _ _ _ _
  | .fint .. => Enc.fint _ _ _ | .fdiff .. => Enc.fdiff _ _ _ | .froot .. => Enc.froot _ _ _
  | .fext .. => Enc.fext _ _ _ | .ffit .. => Enc.ffit _ _ _ | .feval .. => Enc.feval _ _ _ _ _
  | .fldc .. => Enc.fldc _ _ | .fstc .. => Enc.fstc _ _ _ | .fdom .. => Enc.fdom _ _ _
  | .ftrunc .. => Enc.ftrunc _ _ _ _ | .fmov .. => Enc.fmov _ _ _ | .ffree .. => Enc.ffree _
  | .flen .. => Enc.flen _ _ _ | .logdrop => Enc.logdrop | .endTask => Enc.endTask | .yield => Enc.yield
  | .sweep => Enc.sweep | .uret => Enc.uret | .eret => Enc.eret | .tlbinvHarvest => Enc.tlbinvHarvest
  | .launchTake .. | .messageArrival .. | .doneReceive .. | .migrationArrival .. | .twatchExpiry .. | .waitTimeout ..
  | .granuleFill .. | .vtranReply .. | .xrWrite .. | .accParityReplay .. | .segmentShip .. | .partApply ..
  | .segmentAck .. | .homeLoad .. | .loadReply .. | .homeAmo .. | .amoReturn .. | .engineWrite ..
  | .inPlaceDeviceWrite .. | .commitHorizon .. | .acqRequest .. | .acqAnswer .. | .barrierArrival ..
  | .barrierWake .. | .streamFetch .. | .streamDrain .. | .engineOpStart .. | .copyElement .. | .chainElement ..
  | .engineOpComplete .. | .nredArrival .. | .nredSlotTimeout .. | .nredResult .. | .pipSend .. | .pipArrival ..
  | .askSend .. | .askArrival .. | .sweepStart .. | .sweepReport .. | .sweepEnd .. | .depositArrival ..
  | .channelWordsArrival .. | .creditReturn .. | .deadLinkReroute .. | .pageWalk .. | .faultMessage ..
  | .faultReplyArrival .. | .refreshEnergyCharge .. | .partitionReset .. | .clasgWrite .. | .wqcfgWrite ..
  | .equotaWrite .. | .estatResume .. | .loadcmdWrite .. | .hostRegisterWrite .. | .parityReplay .. | .scrub ..
  | .flitCrcError .. | .pairHashCompare .. | .unassignedEncoding .. | .sendAccepted .. | .primaryValueForward ..
  | .cxlMemAccess .. | .candidateRelease | .doneSend | .preemption | .contextRestore | .engineTrapDelivery
  | .completionInterrupt | .completionActivation | .matrixCmdStart | .matrixCmdComplete | .mrotRotate
  | .granuleRelease | .flagWrite | .acqSweepRequest | .sweepwaitExpiry | .sweepRequest | .sweepRecount
  | .holdingQueueDrain | .brambleCopy | .brambleReplay | .dirtyLogMerge | .energyFold | .quantumExpiry
  | .resetDrainComplete | .dbgHalt | .dbgResume | .dbgStep | .dbgSync | .breakBitStop | .pcMatchHandler
  | .shadowTimeout | .sampleRecord | .blockEntryStep | .blkmoveTransferEnd | .blkmoveTierCommit | .errorConsumed
  | .activationRedelivery | .pairTimeout | .coreSpareSwap | .columnSpareSwap | .hbmLaneSpare | .tileRetire | .bringup
  | .hbmRetrain | .checkpointWriteback | .packetInjection => fun h => Bool.noConfusion h

/-! ### ILLEGAL words (R90) -/

theorem decode_ne_of_error {w : IWord} {e : DecodeError} (h : decode w = .error e) (i : Instr) : decode w ≠ .ok i :=
  fun hi => nomatch h.symm.trans hi

theorem decode_ne_ok {w : IWord} (h : ∀ i, decodeRaw w ≠ .ok i) (i : Instr) : decode w ≠ .ok i :=
  fun hi => h i (decode_ok_iff.mp hi).1

theorem opc_toNat (w : IWord) : (opc w).toNat = w.toNat / 2 ^ 26 := by
  unfold opc
  rw [BitVec.extractLsb'_toNat, Nat.shiftRight_eq_div_pow]
  exact Nat.mod_eq_of_lt (by have := w.isLt; omega)

/-- R88: the opcodes 0 and 0x31 to 0x3F are unassigned. -/
theorem decodeRaw_unassigned {w : IWord} (h : w.toNat / 2 ^ 26 = 0 ∨ 0x31 ≤ w.toNat / 2 ^ 26) (i : Instr) : decodeRaw w ≠ .ok i := by
  rw [← opc_toNat] at h
  unfold decodeRaw
  dsimp only
  split <;> first | omega | nofun

/-- R206: an instruction of opcode 0x2E whose word decodes has a function register as its destination. -/
theorem decode_falg {w : IWord} (ho : w.toNat / 2 ^ 26 = 0x2E) (ha : w.extractLsb' 21 5 = 9) (i : Instr) : decode w ≠ .ok i := by
  intro h
  obtain ⟨hraw, -, hwf⟩ := decode_ok_iff.mp h
  rw [op_2E (by apply BitVec.eq_of_toNat_eq; rw [opc_toNat, ho]; rfl), show fA w = 9 from ha] at hraw
  unfold rawFalg at hraw
  dsimp only at hraw
  split at hraw
  · next hi =>
    cases hraw
    split at hi
    all_goals cases hi
    all_goals cases hwf
  · cases hraw

namespace Settled

/-- Settles O1: each instruction by its own lemma; a word is compared with its instruction's encoding, bit for bit, by the decoder. -/
theorem decodeEncode : Obligations.DecodeEncode :=
  ⟨decode_encode, fun _ _ h =>
    have ⟨hraw, hw, hwf⟩ := decode_ok_iff.mp h
    ⟨hw, hwf, decodeRaw_isStep hraw⟩⟩

/-- Settles O2: the sample words by running the decoder, the unassigned opcodes by its table. -/
theorem encodingSamples : Obligations.EncodingSamples :=
  ⟨by decide, by decide, by decide, by decide, by decide, fun _ h => decode_ne_ok (decodeRaw_unassigned h),
    decode_ne_of_error (e := .requiredZero) (by decide), decode_ne_of_error (e := .function) (by decide),
    fun _ => decode_falg⟩

end Settled

end Sys2Proof.Machine
end

section
/-! Reset and issue (R6, R10, R30 to R32, R90 to R94, R110): what reset leaves, the issue of the decoded word, the context chosen, O4, O5, O6. -/

namespace Sys2Proof.Machine

/-! ### The issue of the word at the PC -/

/-- R30 to R32, R91: where nothing comes before the chosen context's next instruction, the core's turn is its fetch. -/
theorem coreTurn_proceeds {late : List Nat} {s : State} (h : s.proceeds late) : coreTurn late s = fetchRun (running s) := by
  obtain ⟨hbramble, hstands, hstep, hsettle, hchosen, hboundary, -⟩ := h
  have hpre : s.core.preempt = false := by
    unfold coreStands at hstands
    simp only [Bool.or_eq_false_iff] at hstands
    exact hstands.1.2
  unfold coreTurn issue issueChosen
  simp only [hbramble, hstands, hstep, hsettle, hchosen, hpre, Bool.false_and, Bool.false_eq_true, if_false, if_true]
  unfold issueCur
  simp only [hboundary]

/-- R241, R401: bytes of a home that is reached, not refused and not poisoned. -/
theorem homeRead_ok {s : State} {pa n : Nat} (hl : lostRead s pa = false) (hr : refusedAt s s.core.vf pa = false)
    (hp : anyPoison s.home.poison pa n = false) : homeRead s pa n = .ok (memGetN s.home.mem pa n) := by
  unfold homeRead
  rw [hl, hr, hp]; rfl

/-- The word at a physical address, its first byte the least significant. -/
def wordAt (m : List Host.Cell) (pa : Nat) : IWord := memGet m (pa + 3) ++ memGet m (pa + 2) ++ memGet m (pa + 1) ++ memGet m pa

/-- The state in which a fetched word runs: the break bits of its line read (R419), its destination registers noted (R398). -/
def State.fetching (va : Nat) (w : IWord) (u : State) : State :=
  (fillLine va u).onCore fun c => { c with dst := destReg w, vdst := destVec w }

/-- R110, R241, R401: a fetch that translates to memory that may be read runs the word it finds. -/
theorem fetchRun_ok {s u : State} {e : Tlb} {pa : Nat} (hsh : s.cur.shadow = false)
    (ht : translate .fetch s.cur.pc.toNat s = .ok (pa, e, u)) (hpa : pa < 2 ^ 42) (hl : lostRead u pa = false)
    (hr : refusedAt u u.core.vf pa = false) (hp : anyPoison u.home.poison pa 4 = false) :
    let w := wordAt u.home.mem pa
    fetchRun s = exec (fetchedInstr w) (u.fetching s.cur.pc.toNat w) := by
  intro w
  have hcur : (fillLine s.cur.pc.toNat u).cur.shadow = false := by
    have hfill : (fillLine s.cur.pc.toNat u).cur = u.cur := by unfold fillLine; split <;> rfl
    rw [hfill, (translate_cur ht).1, hsh]
  have hw : fetchWord s = .ok (w, fillLine s.cur.pc.toNat u) := by
    unfold fetchWord
    simp only [ht, homeRead_ok hl hr hp, if_neg (Nat.not_le.mpr hpa)]
    rfl
  unfold fetchRun runWord
  rw [hw]
  dsimp only
  rw [hcur]; rfl

theorem fetchedInstr_ok {w : IWord} {i : Instr} (h : decode w = .ok i) : fetchedInstr w = i := by
  unfold fetchedInstr; rw [h]

theorem fetchedInstr_illegal {w : IWord} (h : ∀ i, decode w ≠ .ok i) : fetchedInstr w = .unassignedEncoding w := by
  unfold fetchedInstr
  cases hd : decode w with
  | ok i => exact absurd hd (h i)
  | error e => rfl

/-- A step that is the core's: by a turn, by a turn that passes frames over, or with no turn laid down and no step due. -/
theorem step_coreTurn {s : State} {late : List Nat} {ts : List Turn}
    (h : (s.sched = .core :: ts ∧ late = []) ∨ s.sched = .late late :: ts ∨ (s.sched = [] ∧ pickInternal s = none ∧ late = [] ∧ ts = [])) :
    step s = logged s (coreTurn late { s with sched := ts }) := by
  unfold step
  obtain ⟨hs, rfl⟩ | hs | ⟨hs, hpick, rfl, rfl⟩ := h
  · rw [hs]; rfl
  · rw [hs]; rfl
  · have hself : { s with sched := [] } = s := hs ▸ rfl
    rw [hs, hself]
    dsimp only
    unfold ownTurn
    rw [hpick]

theorem step_event {s : State} {i : Instr} {ts : List Turn} (h : s.sched = .event i :: ts) :
    step s = logged s (exec i { s with sched := ts }) := by
  unfold step; rw [h]; rfl

/-! ### The context chosen -/

/-- R30, R119: an issuable context, as the choice compares it. -/
def Task.asChoice (t : Task) (k : Nat) : Choice :=
  { yields := t.wait == some .yielded, key := t.key, slot := match t.slot with | none => 4 | some x => x.val, pos := k }

theorem choiceOf_eq_some {s : State} {k : Nat} {c : Choice} : choiceOf s k = some c ↔ issuable (bring k s) = true ∧ (bring k s).cur.asChoice k = c := by
  unfold choiceOf
  by_cases h : issuable (bring k s) = true
  · simp only [h, if_true, Option.some.injEq, true_and]; rfl
  · simp [h]

/-- With no frame passed over, the contexts compared are those that may issue. -/
theorem mem_choices {s : State} {c : Choice} :
    c ∈ ((contexts s).filter fun k => !passedOver [] s k).filterMap (choiceOf s) ↔
      ∃ k ≤ s.rest.length, issuable (bring k s) = true ∧ (bring k s).cur.asChoice k = c := by
  simp only [contexts, passedOver, List.contains_nil, Bool.not_false, List.filter_true, List.mem_filterMap, List.mem_range,
    choiceOf_eq_some, Nat.lt_succ_iff]

theorem chosen_none_late {s : State} {k : Nat} (he : errorAt s = none) (hs : shadowAt s = none) (h : chosen [] s = some k) :
    k ≤ s.rest.length ∧ issuable (bring k s) = true ∧
      ∀ j ≤ s.rest.length, issuable (bring j s) = true → choiceLt ((bring j s).cur.asChoice j) ((bring k s).cur.asChoice k) = false := by
  unfold chosen at h
  rw [he, hs] at h
  obtain ⟨c, hc, rfl⟩ := Option.map_eq_some_iff.mp h
  obtain ⟨k, hk, hi, rfl⟩ := mem_choices.mp (leastBy_mem _ _ _ hc)
  exact ⟨hk, hi, fun j hj hij => least_le choiceLt choice_asym choice_nt _ _ hc _ (mem_choices.mpr ⟨j, hj, hij, rfl⟩)⟩

/-- What it says of two issuable contexts that the second does not go before the first. -/
theorem choiceLt_asChoice {a b : Task} {j k : Nat} (h : choiceLt (b.asChoice j) (a.asChoice k) = false) :
    (a.wait = some .yielded → b.wait = some .yielded) ∧
      ((a.wait = some .yielded ↔ b.wait = some .yielded) → keyLt b.key a.key = false ∧
        (b.key = a.key → ∀ x y, a.slot = some x → b.slot = some y → x ≤ y)) := by
  unfold choiceLt Task.asChoice at h
  by_cases hy : b.wait = some .yielded ↔ a.wait = some .yielded
  · have hne : ((b.wait == some Wait.yielded) != (a.wait == some Wait.yielded)) = false := by
      rw [bne_eq_false_iff_eq, Bool.eq_iff_iff, beq_iff_eq, beq_iff_eq]; exact hy
    dsimp only at h
    rw [hne, if_neg Bool.false_ne_true, Bool.or_eq_false_iff, Bool.and_eq_false_iff, decide_eq_false_iff_not] at h
    refine ⟨hy.mpr, fun _ => ⟨h.1, fun hkey x y hx hyy => ?_⟩⟩
    rcases h.2 with hd | hslot
    · exact absurd hkey (beq_eq_false_iff_ne.mp hd)
    · rw [hx, hyy] at hslot
      exact Nat.not_lt.mp hslot
  · have hne : ((b.wait == some Wait.yielded) != (a.wait == some Wait.yielded)) = true := by
      rw [bne_iff_ne, ne_eq, Bool.eq_iff_iff, beq_iff_eq, beq_iff_eq]; exact hy
    dsimp only at h
    rw [hne, if_pos rfl] at h
    exact ⟨fun ha => absurd ha (beq_eq_false_iff_ne.mp h), fun hab => absurd hab.symm hy⟩

namespace Settled

/-- Settles O4: each value by evaluation at reset. -/
theorem resetState : Obligations.ResetState := by
  refine ⟨by decide, by decide, by decide, by decide, by decide, by decide, by decide, by decide, by decide, by decide, by decide,
    fun k => ?_, fun v => ⟨rfl, rfl, rfl, rfl, rfl, rfl, rfl, rfl, rfl⟩, fun q => ⟨rfl, rfl, rfl, rfl⟩⟩
  exact Vector.getElem_replicate k.isLt

/-- Settles O5: the core's turn fetches the word at the PC and executes what it decodes to; an event's turn executes the step it names. -/
theorem stepRunsDecoded : Obligations.StepRunsDecoded := by
  refine ⟨?_, fun s i ts h => step_event h⟩
  intro s u late ts e pa hturn r hgo ht hpa hl hr hp w v
  have hrun : step s = logged s (exec (fetchedInstr w) v) := by
    rw [step_coreTurn hturn, coreTurn_proceeds hgo, fetchRun_ok (s := running r) hgo.2.2.2.2.2.2 ht hpa hl hr hp]; rfl
  exact ⟨fun i hi => by rw [hrun, fetchedInstr_ok hi], fun hi => by rw [hrun, fetchedInstr_illegal hi]⟩

/-- Settles O6: the choice is the least of the contexts that may issue, in the order of `choiceLt`. -/
theorem contextChosen : Obligations.ContextChosen := fun _ _ he hs h =>
  have ⟨hk, hi, hleast⟩ := chosen_none_late he hs h
  ⟨hk, hi, fun j hj hij => choiceLt_asChoice (hleast j hj hij)⟩

end Settled

end Sys2Proof.Machine
end

section
/-! Branches and jumps (R107 to R109), and what completing an instruction adds (R99, R119): O9, O10, O11. -/

namespace Sys2Proof.Machine

/-! ### Targets -/

/-- R107: whether an exact address lies in the address space. -/
def inSpace (z : Int) : Prop := 0 ≤ z ∧ z < 2 ^ 56

theorem jumpTo_in {z : Int} (h : inSpace z) (back s : State) :
    jumpTo z back s = .ok (s.onCur fun x => { x with pc := BitVec.ofInt 56 z }) := by
  obtain ⟨h0, h1⟩ := h
  unfold jumpTo
  rw [if_neg (by simp only [Bool.or_eq_true, decide_eq_true_eq]; omega)]

theorem jumpTo_out {z : Int} (h : z < 0 ∨ 2 ^ 56 ≤ z) (back s : State) :
    jumpTo z back s = .error (.trap 0x04 0 (BitVec.ofInt 64 z) back) := by
  unfold jumpTo
  rw [if_pos (by simp only [Bool.or_eq_true, decide_eq_true_eq]; omega)]; rfl

theorem relTarget_eq (s : State) (k : Int) : relTarget s k = (s.cur.pc.toNat : Int) + 4 * k := by
  unfold relTarget; omega

/-- The context goes on at an address, charged as a branch. -/
def State.went (s : State) (p : BitVec 56) : State := retire ((charge .br s).onCur fun x => { x with pc := p })

/-! ### Branches -/

/-- R107: the condition of each branch, as its table row gives it. -/
theorem exec_branchOp {i : Instr} {b : Branch} (hb : branchOp i = some b) (s : State) :
    ∃ o : BitVec 16, b.off = o.toInt ∧ exec i s = finish (branch b.cond b.a b.b o s) := by
  have hcond {f g : Word → Word → Bool} (h : ∀ x y, f x y = g x y) (a b : Fld) (o : BitVec 16) :
      finish (branch f a b o s) = finish (branch g a b o s) := by rw [funext fun x => funext (h x)]
  have heq (x y : Word) : (x == y) = decide (x.toNat = y.toNat) := by
    rw [Bool.eq_iff_iff, beq_iff_eq, decide_eq_true_eq]; exact ⟨congrArg _, BitVec.eq_of_toNat_eq⟩
  cases i with
  | beq a b o => cases hb; exact ⟨o, rfl, hcond heq a b o⟩
  | bne a b o => cases hb; exact ⟨o, rfl, hcond (fun x y => by rw [bne, heq, ← decide_not]) a b o⟩
  | blt a b o => cases hb; exact ⟨o, rfl, hcond ltS_iff a b o⟩
  | bge a b o => cases hb; exact ⟨o, rfl, hcond (fun x y => by rw [ltS_iff, ← decide_not]; exact decide_eq_decide.mpr Int.not_lt) a b o⟩
  | bltn a b o => cases hb; exact ⟨o, rfl, hcond ltU_iff a b o⟩
  | bgen a b o => cases hb; exact ⟨o, rfl, hcond (fun x y => by rw [ltU_iff, ← decide_not]; exact decide_eq_decide.mpr Nat.not_lt) a b o⟩
  | _ => cases hb

section Branches
variable {i : Instr} {b : Branch} {s u : State} {x y : Word} (hb : branchOp i = some b) (ht : takeS [b.a, b.b] [] s = .ok ([x, y], u))
include hb ht

/-- R107: a branch to an address of the address space, or one not taken, goes there. -/
theorem exec_branch_goes {target : Int} (htarget : target = (s.cur.pc.toNat : Int) + 4 * (if b.cond x y then b.off else 1))
    (h : inSpace target ∨ ¬ b.cond x y) : exec i s = .next (u.went (BitVec.ofInt 56 target)) := by
  obtain ⟨o, ho, hrun⟩ := exec_branchOp hb s
  rw [hrun, branch_eq ht]
  by_cases hc : b.cond x y = true
  · have hin := h.resolve_right (not_not_intro hc)
    rw [if_pos hc, ho] at htarget
    rw [if_pos hc, relTarget_eq, ← htarget, jumpTo_in hin]; rfl
  · rw [if_neg hc] at htarget
    rw [if_neg hc, htarget, ← (takeS_pc ht).1, ← pc_next]; rfl

/-- R107, R122: a taken branch whose target lies outside the address space traps. -/
theorem exec_branch_traps (hc : b.cond x y) (h : (s.cur.pc.toNat : Int) + 4 * b.off < 0 ∨ 2 ^ 56 ≤ (s.cur.pc.toNat : Int) + 4 * b.off) :
    exec i s = .next (takeTrap 0x04 0 false (BitVec.ofInt 64 ((s.cur.pc.toNat : Int) + 4 * b.off)) (charge .br s)) := by
  obtain ⟨o, ho, hrun⟩ := exec_branchOp hb s
  rw [ho] at h ⊢
  rw [hrun, branch_eq ht, if_pos hc, relTarget_eq, jumpTo_out h]; rfl

end Branches

/-- Operands leave the core's function and the meter as they were. -/
theorem charged_takeS {src dst : List Fld} {s u t : State} {xs : List Word} {n : Nat} (ht : takeS src dst s = .ok (xs, u)) (h : u.charged t n) :
    s.charged t n := by
  obtain ⟨-, hvf, htile⟩ := takeS_pc ht
  unfold State.charged at h ⊢
  rwa [hvf, htile] at h

/-! ### Jumps -/

/-- R108, R109: the state after a jump that writes a link: the link first, then the target. -/
def State.linked (s : State) (a : Fld) (link : Word) (p : BitVec 56) : State :=
  retire ((charge .br s).onCur fun t => { Task.put a link t with pc := p })

theorem put_w {a : Fld} (ha : a < 16) (x : Word) (t : Task) : Task.put a x t = t.setW (wIdx a) x :=
  congrArg State.cur (writeS_w ha x { State.reset with cur := t })

/-- R99, R107: a jump whose link goes to a general register. -/
theorem linked_frame {s : State} (hs : s.issues) {a : Fld} (ha : a < 16) (link : Word) (p : BitVec 56) :
    (s.linked a link p).getW (wIdx a) = (if wIdx a = 0 then 0 else link) ∧ (s.linked a link p).cur.pc = p ∧
      s.charged (s.linked a link p) 1400 ∧ Frame [wIdx a] s (s.linked a link p) := by
  let v : State := (charge .br s).onCur fun t => { t.setW (wIdx a) link with pc := p }
  have hv : s.linked a link p = retire v := congrArg (fun f => retire ((charge .br s).onCur f)) (funext fun t => by rw [put_w ha])
  have hkept : v.cur.kept = s.cur.kept := (setW_kept s.cur (wIdx a) link : )
  obtain ⟨hcharge, hpc, hget, hframe⟩ := retired_frame (v := v) hs .br [wIdx a] hkept (Task.setW_st ..) (Task.setW_wait ..)
    (fun k hk => Task.getW_setW_other s.cur _ _ link (by simpa using hk)) rfl (Task.setW_wp ..)
  rw [hv]
  refine ⟨?_, hpc, hcharge, hframe⟩
  rw [hget]
  show (s.cur.setW (wIdx a) link).getW (wIdx a) = _
  split
  · next h0 => rw [h0]; exact Task.getW_zero _
  · next h0 => exact Task.getW_setW_same _ _ _ h0

theorem writeS_linked (a : Fld) (link : Word) (p : BitVec 56) (s : State) :
    writeS a link (s.onCur fun t => { t with pc := p }) = s.onCur fun t => { Task.put a link t with pc := p } := by
  rw [writeS_put]
  exact congrArg (fun t => { s with cur := t }) (put_pc a link s.cur p)

/-- The link of a jump is the address of the instruction after it. -/
def Task.link (t : Task) : Word := BitVec.ofNat 64 (t.pc.toNat + 4)

section Jal
variable {o : BitVec 26} {s : State} (hb : wBusy s.cur 15 = false)
include hb

theorem exec_jal_in (h : inSpace ((s.cur.pc.toNat : Int) + 4 * o.toInt)) :
    exec (.jal o) s = .next (s.linked 15 s.cur.link (BitVec.ofInt 56 ((s.cur.pc.toNat : Int) + 4 * o.toInt))) := by
  show execJal o s = _
  unfold execJal
  rw [hb, relTarget_eq, jumpTo_in h]
  simp only [Bool.false_eq_true, if_false]
  have hww (t : State) (x : Word) : t.ww 15 x = writeS 15 x t := rfl
  rw [finish_ok, hww, writeS_linked, show s.cur.pcW + 4 = s.cur.link from link_val s.cur.pc]; rfl

theorem exec_jal_out (h : (s.cur.pc.toNat : Int) + 4 * o.toInt < 0 ∨ 2 ^ 56 ≤ (s.cur.pc.toNat : Int) + 4 * o.toInt) :
    exec (.jal o) s = .next (takeTrap 0x04 0 false (BitVec.ofInt 64 ((s.cur.pc.toNat : Int) + 4 * o.toInt)) (charge .br s)) := by
  show execJal o s = _
  unfold execJal
  rw [hb, relTarget_eq, jumpTo_out h]; rfl

end Jal

section Jalr
variable {a b : Fld} {i : BitVec 14} {s : State} {x : Word} (ht : takeS [b] [a] s = .ok ([x], s))
include ht

/-- R109: JALR's target, checked for alignment before its range. -/
theorem exec_jalr_eq : exec (.jalr a b i) s = finish (
    let z : Int := (x.toNat : Int) + 4 * i.toInt
    if z % 4 ≠ 0 then trapR cALIGN (BitVec.ofInt 64 z) (charge .br s)
    else match jumpTo z (charge .br s) (charge .br s) with
      | .error e => .error e
      | .ok u => .ok (writeS a s.cur.link u)) := by
  show execJalr a b i s = _
  unfold execJalr
  rw [ht, Int.mul_comm 4]
  have hlink : (charge .br s).cur.pcW + 4 = s.cur.link := link_val s.cur.pc
  simp only [hlink, bne_iff_ne, ne_eq, ofInt_low] <;> rfl

theorem exec_jalr_in (h4 : ((x.toNat : Int) + 4 * i.toInt) % 4 = 0) (h : inSpace ((x.toNat : Int) + 4 * i.toInt)) :
    exec (.jalr a b i) s = .next (s.linked a s.cur.link (BitVec.ofInt 56 ((x.toNat : Int) + 4 * i.toInt))) := by
  rw [exec_jalr_eq ht]
  dsimp only
  rw [if_neg (not_not_intro h4), jumpTo_in h]
  dsimp only
  rw [writeS_linked]; rfl

theorem exec_jalr_misaligned (h4 : ((x.toNat : Int) + 4 * i.toInt) % 4 ≠ 0) :
    exec (.jalr a b i) s = .next (takeTrap 0x03 0 false (BitVec.ofInt 64 ((x.toNat : Int) + 4 * i.toInt)) (charge .br s)) := by
  rw [exec_jalr_eq ht]
  dsimp only
  rw [if_pos h4]; rfl

theorem exec_jalr_out (h4 : ((x.toNat : Int) + 4 * i.toInt) % 4 = 0)
    (h : (x.toNat : Int) + 4 * i.toInt < 0 ∨ 2 ^ 56 ≤ (x.toNat : Int) + 4 * i.toInt) :
    exec (.jalr a b i) s = .next (takeTrap 0x04 0 false (BitVec.ofInt 64 ((x.toNat : Int) + 4 * i.toInt)) (charge .br s)) := by
  rw [exec_jalr_eq ht]
  dsimp only
  rw [if_neg (not_not_intro h4), jumpTo_out h]; rfl

end Jalr

/-! ### Completion -/

/-- R99, R119, R202, R398: completing an instruction that changes its context moves the PC, charges and changes nothing else. -/
theorem completes_frame {c : Charge} {f : Task → Task} {s : State} (hs : s.starts)
    (hp : f { s.cur with paid := true } = { f s.cur with paid := true }) (hst : (f s.cur).st = .running) (hw : (f s.cur).wait = none) :
    (s.completes c f).cur.pc = (f s.cur).pc + 4 ∧ s.charged (s.completes c f) c.nominal ∧ Frame [] (s.onCur f) (s.completes c f) := by
  have hu : (s.onCur f).issues := ⟨hst, by rw [State.onCur_cur, hw]; nofun⟩
  obtain ⟨hcharge, hpc, -, hframe⟩ := retired_frame
    (v := { charge c s with cur := { f s.cur with pc := (f s.cur).pc + 4, paid := true } }) hu c [] rfl rfl rfl (fun _ _ => rfl) rfl rfl
  rw [completes_eq hs c f hp]
  exact ⟨hpc, hcharge, hframe⟩

namespace Settled

/-- Settles O9: the six conditions by the table, then a branch that goes and one that traps. -/
theorem branches : Obligations.Branches := by
  refine ⟨?_, fun i b s u x y hb ht => exec_branch_traps hb ht⟩
  intro i b s u x y hb ht hu target h
  obtain ⟨hcharge, hpc, hframe⟩ := goto_frame hu (BitVec.ofInt 56 target)
  exact ⟨_, exec_branch_goes hb ht rfl (h.imp_left id), hpc, charged_takeS ht hcharge, hframe⟩

/-- Settles O10: JAL and JALR by their equations, with the frame of a jump that writes a general register. -/
theorem jumps : Obligations.Jumps := by
  refine ⟨fun o s hs hb h0 h1 => ⟨_, exec_jal_in hb ⟨h0, h1⟩, linked_frame hs (a := 15) (by decide) _ _⟩, fun o s hb => exec_jal_out hb, ?_⟩
  intro a b i s x ht target link
  exact ⟨fun h4 h0 h1 => ⟨exec_jalr_in ht h4 ⟨h0, h1⟩, fun ha hs => ⟨_, exec_jalr_in ht h4 ⟨h0, h1⟩, linked_frame hs ha _ _⟩⟩,
    exec_jalr_misaligned ht, exec_jalr_out ht⟩

/-- Settles O11. -/
theorem completionFrame : Obligations.CompletionFrame := fun _ _ _ hs hp hst hw _ => completes_frame hs hp hst hw

end Settled

end Sys2Proof.Machine
end

section
/-! Private memory (R24 to R26, R111, R112, R378): O12, O13, O14. -/

namespace Sys2Proof.Machine

/-! ### What operands leave as it was -/

section Taken
variable {src dst : List Fld} {s u : State} {xs : List Word} (ht : takeS src dst s = .ok (xs, u))
include ht

/-- Operands change nothing but streams, queues, the channels and inbox of the core and the credits that leave it. -/
theorem takeS_keeps {α : Type} (g : State → α) (hg : g (s.untake u) = g u) : g u = g s := by
  rw [← hg, takeS_untake ht]

theorem takeS_isSpill (b : Fld) (ea : Int) : isSpill u b ea = isSpill s b ea := takeS_keeps ht (isSpill · b ea) rfl

theorem takeS_any (p : Task → Bool)
    (hp : p { u.cur with streams := s.cur.streams, qs := s.cur.qs, q0 := s.cur.q0 } = p u.cur) : u.tasks.any p = s.tasks.any p := by
  refine takeS_keeps ht (·.tasks.any p) ?_
  show List.any (List.filter _ (_ :: u.rest)) p = List.any (List.filter _ (u.cur :: u.rest)) p
  have hsame : ((s.untake u).cur.st != .ended && !(s.untake u).cur.shadow) = (u.cur.st != .ended && !u.cur.shadow) := rfl
  rw [List.filter_cons, List.filter_cons, hsame]
  split
  · exact congrArg (· || _) hp
  · rfl

theorem takeS_refused112 (a n : Nat) : storeRefused112 u u.cur.priv a n = storeRefused112 s s.cur.priv a n := by
  unfold storeRefused112
  rw [takeS_any ht _ rfl]
  exact takeS_keeps ht (fun z => z.cur.priv == 0 && ((z.launch.live && overlaps a n z.logBase (z.inboxEnd - z.logBase)) || _)) rfl

theorem takeS_refused26 (a n : Nat) : storeRefused26 u a n = storeRefused26 s a n := by
  unfold storeRefused26; rw [takeS_any ht _ rfl]

/-- R81, R97: what a stopped instruction leaves: its operands untaken and its charge kept. -/
theorem takeS_untake_charged (c : Charge) : s.untake (chargeOnce c u) = chargeOnce c s := by
  have h : s.untake (chargeOnce c u) = chargeOnce c (s.untake u) := by
    unfold chargeOnce
    show _ = if u.cur.paid = true then _ else _
    split <;> rfl
  rw [h, takeS_untake ht]

theorem takeS_starts (hs : s.starts) : u.starts := by
  obtain ⟨hst, hw, hp⟩ := hs
  exact ⟨(takeS_keeps ht (·.cur.st) rfl).trans hst, (takeS_keeps ht (·.cur.wait) rfl).trans hw, (takeS_keeps ht (·.cur.paid) rfl).trans hp⟩

end Taken

/-! ### The checks of an access -/

section Checks
variable {b : Fld} {ea : Int} {n : Nat} {bs : List Byte} {s : State}

/-- R111: an address outside the TCM. -/
def outside (ea : Int) (n : Nat) : Prop := ea < 0 ∨ 131072 < ea + n

theorem tcmLoad_misaligned (h : ea % (n : Int) ≠ 0) : tcmLoad b ea n s = trapR cALIGN (BitVec.ofInt 64 ea) s := by
  unfold tcmLoad; rw [if_pos (bne_iff_ne.mpr h)]

theorem tcmLoad_outside (h : ea % (n : Int) = 0) (hsp : isSpill s b ea = false) (ho : outside ea n) :
    tcmLoad b ea n s = trapR cACCESS (BitVec.ofInt 64 ea) s := by
  unfold tcmLoad
  rw [if_neg (by simpa using h), if_neg (by simp [hsp]), if_pos (by simpa [outside] using ho)]

theorem tcmLoad_spill (h : ea % (n : Int) = 0) (hsp : isSpill s b ea = true) : tcmLoad b ea n s = spillRead s ea n := by
  unfold tcmLoad; rw [if_neg (by simpa using h), if_pos hsp]

theorem tcmStore_misaligned (h : ea % (bs.length : Int) ≠ 0) : tcmStore b ea bs s = trapR cALIGN (BitVec.ofInt 64 ea) s := by
  unfold tcmStore; dsimp only; rw [if_pos (bne_iff_ne.mpr h)]

theorem tcmStore_outside (h : ea % (bs.length : Int) = 0) (hsp : isSpill s b ea = false) (ho : outside ea bs.length) :
    tcmStore b ea bs s = trapR cACCESS (BitVec.ofInt 64 ea) s := by
  unfold tcmStore; dsimp only
  rw [if_neg (by simpa using h), if_neg (by simp [hsp]), if_pos (by simpa [outside] using ho)]

theorem tcmStore_spill (h : ea % (bs.length : Int) = 0) (hsp : isSpill s b ea = true) : tcmStore b ea bs s = spillWrite s ea bs := by
  unfold tcmStore; dsimp only; rw [if_neg (by simpa using h), if_pos hsp]

theorem tcmStore_refused (h : s.inTcm b ea bs.length)
    (hr : storeRefused112 s s.cur.priv ea.toNat bs.length = true ∨ storeRefused26 s ea.toNat bs.length = true) :
    tcmStore b ea bs s = trapR cACCESS (BitVec.ofInt 64 ea) s := by
  obtain ⟨halign, hlow, hhigh, hsp⟩ := h
  unfold tcmStore; dsimp only
  rw [if_neg (by simpa using halign), if_neg (by simp [hsp]), if_neg (by simp; omega), if_pos (by simpa using hr)]

end Checks

/-! ### LDP, LDPX and STP -/

section Loads
variable {a b : Fld} {sz : BitVec 2} {o : BitVec 14} {s z : State} {x : Word} (ht : takeS [b] [a] s = .ok ([x], s))
include ht

/-- R111: LDP and LDPX in one form: the bytes of the checked read, each with its extension, go to the destination. -/
theorem exec_load_private : let r := tcmLoad b (address x o.toInt (2 ^ sz.toNat)) (2 ^ sz.toNat) (chargeOnce .tcm s)
    exec (.ldp a b sz o) s = finish (r.bind fun q => .ok (advance (writeS a (sextBytes (2 ^ sz.toNat) (leNat q.1)) q.2))) ∧
    exec (.ldpx a b sz o) s = finish (r.bind fun q => .ok (advance (writeS a (zextBytes (2 ^ sz.toNat) (leNat q.1)) q.2))) := by
  have h (ext : Nat → Nat → Word) : loadTcm ext a b sz o s =
      (tcmLoad b (address x o.toInt (2 ^ sz.toNat)) (2 ^ sz.toNat) (chargeOnce .tcm s)).bind fun q =>
        .ok (advance (writeS a (ext (2 ^ sz.toNat) (leNat q.1)) q.2)) := by
    unfold loadTcm
    rw [ht]
    dsimp only
    rw [show eaOf = address from rfl]
    cases tcmLoad b (address x o.toInt (2 ^ sz.toNat)) (2 ^ sz.toNat) (chargeOnce .tcm s) <;> rfl
  exact ⟨congrArg finish (h sextBytes), congrArg finish (h zextBytes)⟩

theorem exec_load_traps {c : BitVec 6} {v : Word} 
    (h : tcmLoad b (address x o.toInt (2 ^ sz.toNat)) (2 ^ sz.toNat) (chargeOnce .tcm s) = trapR c v z) :
    exec (.ldp a b sz o) s = .next (takeTrap c 0 false v z) ∧ exec (.ldpx a b sz o) s = .next (takeTrap c 0 false v z) := by
  obtain ⟨h1, h2⟩ := exec_load_private ht
  rw [h1, h2, h]; exact ⟨rfl, rfl⟩

theorem exec_load_ok {bs : List Byte} (hlen : bs.length = 2 ^ sz.toNat)
    (h : tcmLoad b (address x o.toInt (2 ^ sz.toNat)) (2 ^ sz.toNat) (chargeOnce .tcm s) = .ok (bs, z)) :
    exec (.ldp a b sz o) s = .next (retire (advance (writeS a ((BitVec.ofNat (8 * 2 ^ sz.toNat) (leNat bs)).signExtend 64) z))) ∧
    exec (.ldpx a b sz o) s = .next (retire (advance (writeS a (BitVec.ofNat 64 (leNat bs)) z))) := by
  have hn : 2 ^ sz.toNat ≤ 8 := Nat.pow_le_pow_right (j := 3) (by decide) (by omega)
  have hv : leNat bs < 256 ^ (2 ^ sz.toNat) := hlen ▸ leNat_lt bs
  obtain ⟨h1, h2⟩ := exec_load_private ht
  rw [h1, h2, h, ← sext_eq _ _ (Nat.pos_iff_ne_zero.mp (Nat.two_pow_pos _)), ← zext_small _ _ hn hv]
  exact ⟨rfl, rfl⟩

end Loads

section Store
variable {a b : Fld} {sz : BitVec 2} {o : BitVec 14} {s u z : State} {x d : Word} (ht : takeS [b, a] [] s = .ok ([x, d], u))
include ht

theorem exec_stp_ok (h : tcmStore b (address x o.toInt (2 ^ sz.toNat)) (leBytes (2 ^ sz.toNat) d.toNat) (chargeOnce .tcm u) = .ok z) :
    exec (.stp a b sz o) s = .next (retire (advance z)) := by
  show execStp a b sz o s = _
  unfold execStp
  rw [ht]
  dsimp only
  rw [show eaOf = address from rfl, h]; rfl

/-- R81: STP takes no operand where it traps. -/
theorem exec_stp_traps {c : BitVec 6} {v : Word}
    (h : tcmStore b (address x o.toInt (2 ^ sz.toNat)) (leBytes (2 ^ sz.toNat) d.toNat) (chargeOnce .tcm u) = trapR c v (chargeOnce .tcm u)) :
    exec (.stp a b sz o) s = .next (takeTrap c 0 false v (chargeOnce .tcm s)) := by
  show execStp a b sz o s = _
  unfold execStp
  rw [ht]
  dsimp only
  rw [show eaOf = address from rfl, h]
  unfold trapR Stop.back finish
  dsimp only
  rw [takeS_untake_charged ht]

end Store

namespace Settled

/-- Settles O12: the checked read, then each check that fails. -/
theorem privateLoads : Obligations.PrivateLoads := by
  refine ⟨?_, ?_⟩
  · intro a b sz o s x hs ht n ea hin hbusy hpoison
    have hload := tcmLoad_ok hin hbusy hpoison .tcm
    rw [← chargeOnce_paid hs] at hload
    obtain ⟨h1, h2⟩ := exec_load_ok ht (tcmBytes_length ..) hload
    rw [h1, h2, writeS_put, writeS_put]
    exact ⟨rfl, rfl⟩
  · intro a b sz o s u x d hs n ea trap
    refine ⟨fun ht => ⟨fun h => exec_load_traps ht (tcmLoad_misaligned h), fun h hsp ho => exec_load_traps ht (tcmLoad_outside h ?_ ho)⟩, ?_⟩
    · rw [chargeOnce_paid hs]; exact hsp
    · intro ht
      have hu := takeS_starts ht hs
      have hlen : (leBytes n d.toNat).length = n := leBytes_length ..
      refine ⟨fun h => exec_stp_traps ht (tcmStore_misaligned (by rwa [hlen])), fun h hsp ho => exec_stp_traps ht
        (tcmStore_outside (by rwa [hlen]) ?_ (by rwa [hlen])), fun hin hr => exec_stp_traps ht (tcmStore_refused ?_ ?_)⟩
      · rw [chargeOnce_paid hu]; exact (takeS_isSpill ht b ea).trans hsp
      · obtain ⟨halign, hlow, hhigh, hsp⟩ := hin
        rw [chargeOnce_paid hu, hlen]
        exact ⟨halign, hlow, hhigh, (takeS_isSpill ht b ea).trans hsp⟩
      · rw [chargeOnce_paid hu, hlen, refused112_paid, refused26_paid, takeS_refused26 ht]
        exact hr.imp_left (takeS_refused112 ht .. ▸ ·)

/-- Settles O13: the checked write puts one range. -/
theorem privateStore : Obligations.PrivateStore := by
  intro a b sz o s u x d ht hu hm hsl n ea hin h112 h26 hbusy
  have hlen : (leBytes n d.toNat).length = n := leBytes_length ..
  have hstore := tcmStore_ok (bs := leBytes n d.toNat) (by rwa [hlen]) (by rwa [hlen]) (by rwa [hlen]) (by rwa [hlen]) .tcm
  rw [← chargeOnce_paid hu] at hstore
  refine ⟨_, exec_stp_ok ht hstore, ?_⟩
  have hall := stores_ok hu hm hsl .tcm true false [(ea.toNat, leBytes n d.toNat)] (by
    intro w hw
    rw [List.mem_singleton.mp hw]
    exact hlen.symm ▸ h26)
  rw [hvy_false] at hall
  rw [chargeOnce_paid hu]
  exact hall

/-- Settles O14: a redirected access, in place at its address of the overflow area. -/
theorem spillOverflow : Obligations.SpillOverflow := by
  intro a sz o s x d hs n ea bot va z halign hlow hhigh
  have hz : z = s.paidFor .tcm := chargeOnce_paid hs .tcm
  have hsp : isSpill z 14 ea = true := by
    rw [hz]
    show (_ && decide (bot - 65536 ≤ ea) && decide (ea < bot)) = true
    rw [decide_eq_true hlow, decide_eq_true hhigh]; rfl
  have hva : spillVa z ea = va := by rw [hz]; rfl
  have hovf : z.spillovf = s.spillovf := by rw [hz]; rfl
  refine ⟨fun ht => ⟨fun h0 => exec_load_traps ht ?_, ?_⟩, fun ht => ⟨fun h0 => exec_stp_traps ht ?_, ?_⟩⟩
  · rw [tcmLoad_spill halign hsp]
    unfold spillRead
    rw [if_pos (hovf.trans h0)]; rfl
  · intro hne pa e u htr hl hr hp v
    refine exec_load_ok ht (memGetN_length ..) ?_
    rw [tcmLoad_spill halign hsp]
    unfold spillRead
    rw [if_neg (fun h => hne (hovf.symm.trans h)), hva, htr]
    dsimp only
    rw [homeRead_ok hl hr hp]
  · have hlen : (leBytes n d.toNat).length = n := leBytes_length ..
    rw [tcmStore_spill (by rwa [hlen]) hsp]
    unfold spillWrite
    rw [if_pos (hovf.trans h0)]; rfl
  · intro hne pa e u htr hl hr
    have hlen : (leBytes n d.toNat).length = n := leBytes_length ..
    refine exec_stp_ok ht ?_
    rw [tcmStore_spill (by rwa [hlen]) hsp]
    unfold spillWrite
    rw [if_neg (fun h => hne (hovf.symm.trans h)), hva, htr]
    dsimp only
    unfold homeWrite
    rw [hlen, chargeAccess_paying]
    have hl' : lostTo (u.paying (chargeAccess pa n u)) pa = false := hl
    have hr' : refusedAt (u.paying (chargeAccess pa n u)) (u.paying (chargeAccess pa n u)).core.vf pa = false := hr
    rw [hl', hr']; rfl

end Settled

end Sys2Proof.Machine
end

section
/-! Loads, stores and atomics of shared memory, at issue and at their homes (R222 to R253, R443): O15, O16, O17. -/

namespace Sys2Proof.Machine

/-! ### Loads -/

theorem Reaches.starts {acc : Access} {p : BitVec 3} {s u : State} {ea : Int} {n pa : Nat} {e : Tlb} (h : s.Reaches acc p ea n u e pa)
    (hs : s.starts) : u.starts := by
  unfold State.starts
  rw [(translate_cur h.xlat).1]; exact hs

/-- R244, R268: a load whose address passes its checks and stays on its core is served. -/
theorem exec_load_shared {sext na : Bool} {a b : Fld} {sz : BitVec 2} {p : BitVec 3} {o : BitVec 10} {s u : State} {x : Word} {e : Tlb}
    {pa : Nat} (hsc : scopeOk s p = true) (ht : takeS [b] [a] s = .ok ([x], s)) (haq : aqPending s.cur = false) (hbad : badPush s.cur = none)
    (hpush : sharedPushes s.cur = []) (hr : s.Reaches .load p (address x o.toInt (2 ^ sz.toNat)) (2 ^ sz.toNat) u e pa) :
    exec (if sext then .ld a b sz p na o else .ldx a b sz p na o) s = finish (loadAt sext na a pa (2 ^ sz.toNat) p u) := by
  have h (i : Instr) : loadShared sext i a b sz p na o s = loadAt sext na a pa (2 ^ sz.toNat) p u := by
    unfold loadShared
    rw [needScope_ok hsc, ht]
    dsimp only
    rw [haq, sealReady_ok hbad hpush, show eaOf = address from rfl, sharedAddr_ok hr]
    dsimp only
    rw [show autoDest u e pa = none from hr.stays]; rfl
  cases sext
  · exact congrArg finish (h (.ldx a b sz p na o))
  · exact congrArg finish (h (.ld a b sz p na o))

section Served
variable {sext na : Bool} {a : Fld} {pa : Nat} {k : BitVec 2} {p : BitVec 3} {u : State} (hp : u.cur.paid = false)
include hp

/-- R225: a load whose bytes all stand in its task's own records. -/
theorem loadAt_own (h : (ownBytes u pa (2 ^ k.toNat)).all (·.isSome) = true) :
    finish (loadAt sext na a pa (2 ^ k.toNat) p u) =
      .next (u.completes .smem (Task.put a (extend sext (2 ^ k.toNat) ((ownBytes u pa (2 ^ k.toNat)).map fun x => x.getD 0)))) := by
  unfold loadAt loadSource serveLocal
  rw [if_pos h]
  dsimp only
  rw [finish_ok, retire_put hp, loadExt_eq, mergeBytes_own _ _ h (by rw [ownBytes_length, List.length_replicate])]

/-- R225, R242: a load that its line of the view cache serves. -/
theorem loadAt_cached {l : VLine} (h : (ownBytes u pa (2 ^ k.toNat)).all (·.isSome) = false)
    (hl : u.core.vcache.find? (fun l => l.line == pa / 64) = some l) (hna : na = false) (hfresh : freshHome u pa p = false)
    (hfl : wordInFlight u.cur pa (2 ^ k.toNat) = false) (hpoison : l.poison.contains (pa / 8) = false) :
    finish (loadAt sext na a pa (2 ^ k.toNat) p u) = .next ((u.onCore fun c => { c with vcache := vcTouch (pa / 64) c.vcache }).completes .smem
      (Task.put a (extend sext (2 ^ k.toNat)
        (((ownBytes u pa (2 ^ k.toNat)).zip ((l.data.drop (pa % 64)).take (2 ^ k.toNat))).map fun x => x.1.getD x.2)))) := by
  have hline : l.line = pa / 64 := by simpa using List.find?_some hl
  have hsrc : loadSource u pa (2 ^ k.toNat) p na = .cached l := by
    unfold loadSource lineOf
    rw [if_neg (Bool.not_eq_true _ ▸ h), hl, hna, hfresh, hfl]; rfl
  unfold loadAt
  rw [hsrc]
  dsimp only
  rw [hpoison, if_neg Bool.false_ne_true, finish_ok, retire_put (s := u.onCore _) hp, loadExt_eq, hline]; rfl

/-- R225, R242, R244: any other load goes to its home. -/
theorem loadAt_home (h : (ownBytes u pa (2 ^ k.toNat)).all (·.isSome) = false)
    (hw : u.core.vcache.find? (fun l => l.line == pa / 64) = none ∨ na = true ∨ freshHome u pa p = true ∨
      wordInFlight u.cur pa (2 ^ k.toNat) = true) (hroom : u.cur.loads.length < 16) :
    finish (loadAt sext na a pa (2 ^ k.toNat) p u) = .next ((u.completes .smem fun t =>
      { t with loads := t.loads ++ [{ vec := false, dst := a, sz := 2 ^ k.toNat, sext := sext, pa := pa, own := ownBytes u pa (2 ^ k.toNat),
                                       fill := !na && !freshHome u pa p, reply := none, poisoned := false, num := t.reqNum,
                                       marks := t.marks }],
               reqNum := t.reqNum + 1 }).paying (chargeAccess pa (2 ^ k.toNat) (charge .smem u))) := by
  have hsrc : loadSource u pa (2 ^ k.toNat) p na = .home := by
    unfold loadSource lineOf
    rw [if_neg (Bool.not_eq_true _ ▸ h)]
    split
    · rfl
    · next hl => rw [if_pos (by simpa [hl, or_assoc] using hw)]
  unfold loadAt
  rw [hsrc]
  dsimp only
  rw [if_neg (Nat.not_le.mpr hroom), finish_ok, completes_charge hp .smem _ fun _ => rfl, chargeAccess_paying]; rfl

end Served

/-! ### A load at its home, and its reply -/

section Replies
variable {frame k : Nat} {s : State} {l : LoadPend} (hk : s.cur.loads[k]? = some l) (hf : s.cur.frame = frame) (hsh : s.cur.shadow = false)
include hk hf hsh

/-- R225, R231, R242, R443: a load that its home serves. -/
theorem homeLoad_served (hrep : l.reply = none) (hmay : loadMay k s.cur = true) (hsec : secondary s = false) (hl : lostRead s l.pa = false)
    (hr : refusedAt s s.core.vf l.pa = false) (hp : anyPoison s.home.poison l.pa l.sz = false) :
    homeLoad frame k s = (s.onCur fun t =>
      { t with loads := t.loads.modify k fun l => { l with reply := some (some (memGetN s.home.mem l.pa l.sz)) } }).onCore fun c =>
        { c with vcache := vcAfterHome l.fill s.home l.pa l.sz c.vcache } := by
  have hwait : (loadWaits frame k s.cur && loadMay k s.cur) = true := by
    unfold loadWaits
    rw [hk, hmay, hf, hsh]
    simp [hrep]
  have hturn : s.cur.loads.modify k (loadAtHome s) =
      s.cur.loads.modify k fun l => { l with reply := some (some (memGetN s.home.mem l.pa l.sz)) } := by
    refine modify_congr hk ?_
    unfold loadAtHome
    rw [hl, hr, hp]; rfl
  unfold homeLoad
  dsimp only
  rw [findCtx_cur hwait]
  dsimp only
  rw [hk, hsec, updCtx_cur hwait]
  unfold loadBrings modIdx
  dsimp only
  rw [if_neg Bool.false_ne_true, show lostRead (s.onCur _) l.pa = false from hl,
    show refusedAt (s.onCur _) (s.onCur _).core.vf l.pa = false from hr,
    show anyPoison (s.onCur _).home.poison l.pa l.sz = false from hp, if_neg Bool.false_ne_true, if_neg Bool.false_ne_true,
    if_neg Bool.false_ne_true]
  exact congrArg (fun ls => (s.onCur fun t => { t with loads := ls }).onCore
    fun c => { c with vcache := vcAfterHome l.fill s.home l.pa l.sz c.vcache }) hturn

/-- R244, R245: the reply of a load, whose write leaves the loads of its context. -/
theorem loadReply_writes {bs : List Byte} (hrep : l.reply = some (some bs)) (he : s.cur.st ≠ .ended)
    (hsame : (loadWrite l bs s).cur.frame = s.cur.frame ∧ (loadWrite l bs s).cur.shadow = s.cur.shadow ∧
      (loadWrite l bs s).cur.loads = s.cur.loads) :
    loadReply frame k s = (loadWrite l bs s).onCur (Task.loaded k) := by
  have hans (t : Task) (h : t.frame = frame ∧ t.shadow = false ∧ t.loads = s.cur.loads) : loadReplied frame k t = true := by
    obtain ⟨h1, h2, h3⟩ := h
    unfold loadReplied
    rw [h1, h2, h3, hk]
    simp [hrep]
  obtain ⟨g1, g2, g3⟩ := hsame
  unfold loadReply
  rw [findCtx_cur (hans _ ⟨hf, hsh, rfl⟩)]
  dsimp only
  rw [hk]
  dsimp only
  rw [hrep]
  dsimp only
  rw [asFrame_cur hf hsh he, updCtx_cur (hans _ ⟨g1.trans hf, g2.trans hsh, g3⟩)]
  exact congrArg (fun f => (loadWrite l bs s).onCur f) (funext (dropLoad_eq k))

end Replies

/-- The sizes of a scalar access. -/
theorem scalarSize {n : Nat} (h : n ∈ [1, 2, 4, 8]) : ∃ k : BitVec 2, n = 2 ^ k.toNat := by
  simp only [List.mem_cons, List.not_mem_nil, or_false] at h
  obtain rfl | rfl | rfl | rfl := h
  exacts [⟨0, rfl⟩, ⟨1, rfl⟩, ⟨2, rfl⟩, ⟨3, rfl⟩]

/-! ### Stores -/

/-- R223, R234, R244: a store that its log has room for. -/
theorem exec_st_logs {a b : Fld} {sz : BitVec 2} {p : BitVec 3} {o : BitVec 10} {s u v : State} {x d : Word} {e : Tlb} {pa : Nat}
    (hu : u.starts) (hsc : scopeOk s p = true) (ht : takeS [b, a] [] s = .ok ([x, d], u))
    (hr : u.Reaches .store p (address x o.toInt (2 ^ sz.toNat)) (2 ^ sz.toNat) v e pa)
    (hroom : 16 + (if (v.cur.recs.filter fun r => !r.ovf).isEmpty then 32 else 0) ≤ logFree v) :
    exec (.st a b sz p o) s = .next (v.completes .smem fun t =>
      { t with recs := t.recs ++ [{ pa := pa, data := leBytes (2 ^ sz.toNat) d.toNat, idx := t.recCtr, marked := false, ovf := false }],
               floor := if t.floor < p then p else t.floor, recCtr := t.recCtr + 1 }) := by
  have hn : 2 ^ sz.toNat ≤ 8 := Nat.pow_le_pow_right (j := 3) (by decide) (by omega)
  have hsize : recSize (leBytes (2 ^ sz.toNat) d.toNat).length = 16 := by
    rw [leBytes_length]; exact if_neg (by omega)
  have hcharged := chargeOnce_paid (Reaches.starts hr hu) .smem
  show finish (storeShared (.st a b sz p o) a b sz p o s) = _
  unfold storeShared
  rw [needScope_ok hsc, ht]
  dsimp only
  rw [show eaOf = address from rfl, sharedAddr_ok hr]
  dsimp only
  rw [show autoDest v e pa = none from hr.stays]
  dsimp only
  unfold appendRec
  rw [appendAt_room (by rw [hsize, hcharged, logFree_paid]; exact hroom)]; rfl

/-- R226, R235, R246: REL publishes. -/
theorem exec_rel {p : BitVec 3} {s : State} (hs : s.starts) (hsc : scopeOk s p = true) (hbad : badPush s.cur = none)
    (hpush : sharedPushes s.cur = []) : exec (.rel p) s = .next ((s.paid .ord).published p).retired := by
  show finish (rel (.rel p) p s) = _
  unfold rel
  rw [needScope_ok hsc, chargeOnce_paid' hs.2.2]
  dsimp only
  rw [sealRelease_ok (s := s.paid .ord) hbad hpush]; rfl

/-- R311, R333: what a release of held sends does where no pair is compared. -/
theorem releaseHeld_off {s : State} (hp : paired s = false) : ∃ by' marks', releaseHeld s = { s with
    cur := { s.cur with held := [], sentOut := (releaseHeld s).cur.sentOut, marks := if s.cur.held = [] then s.cur.marks else s.cur.marks + 1 },
    tile := { s.tile with inject := s.tile.inject ++ s.cur.held, injectBy := by', injectMarks := marks' } } := by
  unfold releaseHeld
  by_cases hh : s.cur.held = []
  · rw [if_pos (by rw [hh]; rfl), if_pos hh, hh, List.append_nil, ← hh]; exact ⟨_, _, rfl⟩
  · rw [if_neg (by simpa using hh), if_neg hh, pushHeld_off hp, placeMark_eq]; exact ⟨_, _, rfl⟩

/-! ### Atomics -/

section Perform
variable {s : State} {r : AmoReq}

theorem amoPerform_lost (hl : lostTo s r.pa = true) : amoPerform s r = .lost := by
  unfold amoPerform; rw [if_pos hl]

theorem amoPerform_refused (hl : lostTo s r.pa = false) (hr : refusedAt s s.core.vf r.pa = true) : amoPerform s r = .refused := by
  unfold amoPerform; rw [if_neg (by simp [hl]), if_pos hr]

theorem amoPerform_poison (hl : lostTo s r.pa = false) (hr : refusedAt s s.core.vf r.pa = false)
    (hp : anyPoison s.home.poison r.pa (if r.s32 then 4 else 8) = true) : amoPerform s r = .poison := by
  unfold amoPerform; rw [if_neg (by simp [hl]), if_neg (by simp [hr]), if_pos hp]

theorem amoPerform_value (hl : lostRead s r.pa = false) (hr : refusedAt s s.core.vf r.pa = false)
    (hp : anyPoison s.home.poison r.pa (if r.s32 then 4 else 8) = false) :
    amoPerform s r = .value (amoAtHome r s.home).1 (amoAtHome r s.home).2 := by
  have hto : lostTo s r.pa = false := by
    unfold lostRead at hl
    exact (Bool.or_eq_false_iff.mp hl).1
  unfold amoPerform
  rw [if_neg (by simp [hto]), if_neg (by simp [hr]), if_neg (Bool.not_eq_true _ ▸ hp), hl]; rfl

end Perform

section Amo
variable {frame k : Nat} {s : State} {a : AmoPend} (hk : s.cur.amos[k]? = some a)
include hk

/-- R230, R253: a step of an atomic at its home. -/
theorem homeAmo_eq (hw : amoWaits frame k s.cur = true) (hmay : amoMay s s.cur k a = true) :
    let turn (f : AmoPend → AmoPend) (s : State) : State :=
      (acted (.amo s.cur.tid s.cur.origin a.num) s).onCur fun t => { t with amos := t.amos.modify k f }
    homeAmo frame k s = match amoPerform s a.req with
      | .value old h => turn (fun a => { a with ret := some (BitVec.ofNat 64 old) }) { s with home := h }
      | .unheard h => failOf s.cur 1 true (turn (fun a => { a with ret := some 0, failed := true }) { s with home := h })
      | .lost => failOf s.cur 1 true (turn (fun a => { a with ret := some 0, failed := true }) s)
      | .refused => failOf s.cur 1 false (turn (fun a => { a with ret := some 0, failed := true }) s)
      | .poison => turn (fun a => { a with poisoned := true }) s := by
  intro turn
  have hsec : secondary s = false := by
    unfold amoMay at hmay
    simpa using (Bool.and_eq_true_iff.mp hmay).2
  have hset (f : AmoPend → AmoPend) (h : HomeSt) : acted (.amo s.cur.tid s.cur.origin a.num)
      (({ s with home := h } : State).updCtx (amoWaits frame k) fun t => { t with amos := modIdx t.amos k f }) =
        turn f { s with home := h } := by
    rw [updCtx_cur (s := { s with home := h }) hw, acted_onCur]; rfl
  unfold homeAmo
  rw [findCtx_cur hw]
  dsimp only
  rw [hk]
  dsimp only
  simp only [hsec, hmay, Bool.false_and, Bool.not_true, Bool.false_eq_true, if_false]
  cases amoPerform s a.req with
  | value old h => exact hset _ h
  | unheard h => exact congrArg (failOf s.cur 1 true) (hset _ h)
  | lost => exact congrArg (failOf s.cur 1 true) (hset _ s.home)
  | refused => exact congrArg (failOf s.cur 1 false) (hset _ s.home)
  | poison => exact hset _ s.home

end Amo

/-- R241, R251: a failure of the issuing task, found by its name. -/
theorem failOf_cur {s : State} {t : Task} (h : s.cur.frame = t.frame ∧ s.cur.tid = t.tid ∧ s.cur.origin = t.origin ∧ s.cur.st = t.st ∧
    s.cur.shadow = false) (he : t.st ≠ .ended) (n : Nat) (dead : Bool) : failOf t n dead s = s.onCur (accessFails n dead) := by
  obtain ⟨h1, h2, h3, h4, h5⟩ := h
  unfold failOf
  rw [if_neg (by simpa using he), updCtx_cur]
  simpa [h1, h2, h3, h4, h5] using he

/-- R230, R253: the value that an atomic leaves at its home, for each operand size. -/
theorem atomic_at_home (r : AmoReq) (h : HomeSt) (hw : Memory.wf h.mem = true) :
    let n := if r.s32 then 4 else 8
    let old := BitVec.ofNat (8 * n) (leNat (memGetN h.mem r.pa n))
    BitVec.ofNat 64 (amoAtHome r h).1 = old.setWidth 64 ∧ (amoAtHome r h).2 = { h with mem := (amoAtHome r h).2.mem } ∧
      ∀ x, memGet (amoAtHome r h).2.mem x = if r.pa ≤ x ∧ x < r.pa + n
        then (atomicNew r.op old (r.v.setWidth (8 * n)) (r.e.setWidth (8 * n))).extractLsb' (8 * (x - r.pa)) 8 else memGet h.mem x := by
  intro n old
  have hn : 0 < 8 * n ∧ 8 * n ≤ 64 := by cases h : r.s32 <;> simp [n, h]
  have hbits : (if r.s32 then 32 else 64) = 8 * n := by cases h : r.s32 <;> simp [n, h]
  have hlt : leNat (memGetN h.mem r.pa n) < 2 ^ (8 * n) := by
    have := leNat_lt (memGetN h.mem r.pa n)
    rwa [memGetN_length, show (256 : Nat) = 2 ^ 8 from rfl, ← Nat.pow_mul] at this
  have hold : leNat (memGetN h.mem r.pa n) = old.toNat := (Nat.mod_eq_of_lt hlt).symm
  have hcut (x : Word) : x.toNat % 2 ^ (8 * n) = (x.setWidth (8 * n)).toNat := (BitVec.toNat_setWidth ..).symm
  unfold amoAtHome
  simp only [hbits, Nat.mul_div_cancel_left n (show 0 < 8 by decide), hcut, hold]
  refine ⟨?_, trivial, fun x => ?_⟩
  · apply BitVec.eq_of_toNat_eq
    rw [BitVec.toNat_ofNat, BitVec.toNat_setWidth]
  · rw [memPutN_read hw, leBytes_length]
    refine if_ctx_congr Iff.rfl (fun hx => ?_) fun _ => rfl
    have hk : x - r.pa < n := by omega
    rw [leBytes_getD _ _ _ hk, byte_of_word _ _ _ hk, amoNew_eq _ _ hn.1]

namespace Settled

/-- Settles O15: the three sources of a load, its turn at its home, and its reply. -/
theorem sharedLoads : Obligations.SharedLoads := by
  refine ⟨?_, ?_⟩
  · intro sext a b sz p na o s u x e pa hs hsc ht haq hbad hpush n hr run own inScope line
    have hrun : run = finish (loadAt sext na a pa n p u) := exec_load_shared hsc ht haq hbad hpush hr
    have hp : u.cur.paid = false := (Reaches.starts hr hs).2.2
    rw [hrun]
    exact ⟨loadAt_own hp, fun ho => ⟨fun l hl hna hin hfl hpo => loadAt_cached hp ho hl hna hin hfl hpo, loadAt_home hp ho⟩⟩
  · intro frame k s l bs hk hf hsh
    refine ⟨fun hrep hmay hsec hl hr hp => ?_, fun hrep he hv hsz => ?_, fun hrep he hv => ?_⟩
    · show done (homeLoad frame k s) = _
      rw [homeLoad_served hk hf hsh hrep hmay hsec hl hr hp]
      unfold vcAfterHome lineOf
      simp only [beq_iff_if]; rfl
    · obtain ⟨z, hz⟩ := scalarSize hsz
      have hwrite : loadWrite l bs s = s.onCur (Task.put l.dst (extend l.sext l.sz ((l.own.zip bs).map fun x => x.1.getD x.2))) := by
        unfold loadWrite
        dsimp only
        rw [hv, if_neg Bool.false_ne_true, writeS_put, hz, loadExt_eq]; rfl
      have hsame := put_same l.dst (extend l.sext l.sz ((l.own.zip bs).map fun x => x.1.getD x.2)) s.cur
      show done (loadReply frame k s) = _
      rw [loadReply_writes hk hf hsh hrep he (by rw [hwrite]; exact ⟨hsame.1, hsame.2.1, hsame.2.2.1⟩), hwrite]; rfl
    · have hwrite : loadWrite l bs s = writeV l.dst (bytesV ((l.own.zip bs).map fun x => x.1.getD x.2)) s := by
        unfold loadWrite
        dsimp only
        rw [hv]; rfl
      show done (loadReply frame k s) = _
      rw [loadReply_writes hk hf hsh hrep he (by rw [hwrite]; exact writeV_same ..), hwrite]; rfl

/-- Settles O16: a store that is logged, REL, and what a publication leaves where no pair is compared. -/
theorem sharedStores : Obligations.SharedStores := by
  refine ⟨fun a b sz p o s u v x d e pa hu hsc ht hr hroom => exec_st_logs hu hsc ht hr hroom, ?_⟩
  intro p s hs hsc hbad hpush
  refine ⟨exec_rel hs hsc hbad hpush, fun hctr hp => ?_⟩
  intro t
  obtain ⟨by', marks', hrel⟩ := releaseHeld_off (s := sealNow p s) (by rw [sealNow_off hp hctr]; exact hp)
  have ht : t = (releaseHeld (sealNow p s)).onCur fun t => { t with esc := true } := rfl
  rw [ht, hrel, sealNow_off hp hctr]
  refine ⟨rfl, ?_, rfl, rfl, rfl, rfl, rfl, rfl, rfl⟩
  by_cases hh : s.cur.held = []
  · simp only [State.onCur, hh, if_true]
  · simp only [State.onCur, hh, if_false]

/-- Settles O17: the issue of an atomic, its step at its home, and its return. -/
theorem atomics : Obligations.Atomics := by
  refine ⟨?_, ?_, ?_⟩
  · intro a b c op p s32 rl aq s u v x d es e pa ht hu hsc hrl n hr w y z
    have hcur := (translate_cur hr.xlat).1
    have hw : (if v.cur.paid then v else chargeAccess pa n (chargeOnce .amo v)) = w := by
      have hp : v.cur.paid = false := (Reaches.starts hr hu).2.2
      rw [hp, chargeOnce_paid' hp]; rfl
    have hcore := amoCore_eq pa aq
    show finish (amo (.amo a b c op p s32 rl aq) a b c op p s32 rl aq s) = _
    unfold amo amoSrcs
    rw [needScope_ok hsc, ht]
    dsimp only
    rw [sharedAddr_ok hr]
    dsimp only
    rw [show autoDest v e pa = none from hr.stays, hw]
    dsimp only
    cases rl with
    | false =>
      unfold amoIssue
      rw [if_neg Bool.false_ne_true, List.headD_eq_head?_getD, funext hcore]; rfl
    | true =>
      have hwcur : w.cur = (v.paid .amo).cur := by
        show (chargeAccess pa n (v.paid .amo)).cur = _
        rw [chargeAccess_paying]; rfl
      have hstreams : w.cur.streams = u.cur.streams := by rw [hwcur, ← hcur]; rfl
      have hbadw : badPush w.cur = badPush u.cur := by unfold badPush; rw [hstreams]
      have hpushw : sharedPushes w.cur = sharedPushes u.cur := by
        rw [hwcur]
        show sharedPushes v.cur = _
        rw [hcur]
      obtain ⟨hbad, hpush⟩ := hrl rfl
      have hseal := sealRelease_ok (s := w) (hbadw.trans hbad) (hpushw.trans hpush) p
      have hlast : lastSealed w = v.cur.openSeg := by unfold lastSealed; rw [hwcur]; rfl
      unfold amoIssue
      rw [if_pos rfl, hseal, List.headD_eq_head?_getD, funext hcore, hlast]; rfl
  · intro frame k s a hm hw hk hmay hop n old run what turned
    have hrun : run = done (homeAmo frame k s) := rfl
    have hfail (f : AmoPend → AmoPend) (h : HomeSt) (he : s.cur.st ≠ .ended) (dead : Bool) :
        failOf s.cur 1 dead ((acted what { s with home := h }).onCur (turned f)) =
          (acted what { s with home := h }).onCur fun t => accessFails 1 dead (turned f t) := by
      have hsh : s.cur.shadow = false := by
        unfold amoWaits at hw
        simp only [Bool.and_eq_true, Bool.not_eq_true'] at hw
        exact hw.1.2
      refine failOf_cur ?_ he 1 dead
      rw [State.onCur_cur, acted_cur]
      exact ⟨rfl, rfl, rfl, rfl, hsh⟩
    rw [hrun, homeAmo_eq hk hw hmay]
    refine ⟨fun hl he => ?_, fun hl hr he => ?_, fun hl hr hp => ?_, fun hl hr hp => ?_⟩
    · rw [amoPerform_lost hl]; exact congrArg done (hfail _ s.home he true)
    · rw [amoPerform_refused hl hr]; exact congrArg done (hfail _ s.home he false)
    · rw [amoPerform_poison hl hr hp]; rfl
    · obtain ⟨hret, hhome, hmem⟩ := atomic_at_home a.req s.home (memOk_home hm)
      rw [amoPerform_value hl hr hp]
      dsimp only
      rw [acted_home, hret, hhome]
      refine ⟨_, rfl, ?_, rfl, hmem⟩
      show turned _ (acted what s).cur = _
      rw [acted_cur]
  · intro frame k s a v hk hf hsh he hret
    have hret' (t : Task) (h : t.frame = frame ∧ t.shadow = false ∧ t.amos = s.cur.amos) : amoReturns frame k t = true := by
      obtain ⟨h1, h2, h3⟩ := h
      unfold amoReturns
      rw [h1, h2, h3, hk]
      simp [hret]
    obtain ⟨g1, g2, -, g4⟩ := put_same a.dst v s.cur
    show done (amoReturn frame k s) = _
    unfold amoReturn
    rw [findCtx_cur (hret' _ ⟨hf, hsh, rfl⟩)]
    dsimp only
    rw [hk]
    dsimp only
    rw [hret]
    dsimp only
    rw [asFrame_cur (s := s.onCore _) hf hsh he, writeS_put, updCtx_cur (s := (s.onCore _).onCur _) (hret' _ ⟨g1.trans hf, g2.trans hsh, g4⟩),
      show amoCore a.req.pa a.aq = _ from funext (amoCore_eq a.req.pa a.aq)]
    exact congrArg (fun l => done ((s.onCore fun c =>
      { c with vcache := if a.aq then [] else c.vcache.filter fun l => l.line ≠ a.req.pa / 64 }).onCur fun t =>
        { t.put a.dst v with amos := l.eraseIdx k })) g4

end Settled

end Sys2Proof.Machine
end

section
/-! Keyed writes, segments, acquiring, fences and the log's own instructions (R222 to R257): O18 to O22. -/

namespace Sys2Proof.Machine

/-! ### Keyed writes -/

section Keyed
variable {h : HomeSt} {launch pa : Nat} {key : WKey} {bs : List Byte}

/-- R224, R240: a keyed write is applied where its word's tag is of another launch or lower. -/
theorem homeKeyed_applied (ht : ∀ g, tabGet? h.tags (pa / 8) = some g → g.launch ≠ launch ∨ wkeyLt g.key key = true) :
    homeKeyed h launch key pa bs = { homePut h pa bs with tags := tabSet h.tags (pa / 8) { launch := launch, key := key } } := by
  unfold homeKeyed tagBeaten
  cases hg : tabGet? h.tags (pa / 8) with
  | none => rfl
  | some g => exact if_pos (by simpa using ht g hg)

theorem homeKeyed_beaten {g : TagEnt} (hg : tabGet? h.tags (pa / 8) = some g) (hl : g.launch = launch) (hk : wkeyLt g.key key = false) :
    homeKeyed h launch key pa bs = h := by
  unfold homeKeyed tagBeaten
  rw [hg]
  exact if_neg (by simp [hl, hk])

/-- A write that lies in one word is one keyed write. -/
theorem homeKeyedN_word (hw : pa % 8 + bs.length ≤ 8) (bump : Bool) (n : Nat) :
    homeKeyedN h launch key pa bs bump (n + 1) = homeKeyed h launch key pa bs := by
  unfold homeKeyedN
  exact if_pos (by omega)

end Keyed

theorem noMemory_of_refused {s : State} {c pa : Nat} {vf : BitVec 6} (h : refusedFrom s c vf pa = false) : noMemory s pa = false := by
  unfold refusedFrom at h
  simp only [Bool.or_eq_false_iff] at h
  exact h.1.2

/-! ### Segments -/

/-- An action performed changes nothing but the record of what was compared. -/
theorem acted_same {α : Type} (what : PairWhat) (s : State) (g : State → α)
    (h : g (s.onCore fun c => { c with pairOk := c.pairOk.erase what }) = g s) : g (acted what s) = g s := by
  unfold acted
  split
  · rfl
  · exact h

theorem find_segment {s : State} {g : Sealed} (hg : g ∈ s.core.sealed) (hone : ∀ x ∈ s.core.sealed, x.num = g.num → x = g) :
    (s.core.sealed.find? fun x => x.num == g.num) = some g := by
  cases hf : s.core.sealed.find? fun x => x.num == g.num with
  | none => exact absurd (List.find?_eq_none.mp hf g hg) (by simp)
  | some x => rw [hone x (List.mem_of_find?_eq_some hf) (by simpa using List.find?_some hf)]

/-- Changing the parts of a segment leaves the others as they were. -/
theorem filter_setPart (l : List Sealed) (n k : Nat) (f : SegPart → SegPart) :
    (l.map fun x => if x.num == n then { x with parts := modIdx x.parts k f } else x).filter (fun x => x.num != n) =
      l.filter fun x => x.num ≠ n := by
  induction l with
  | nil => rfl
  | cons x l ih =>
    by_cases hx : x.num = n
    · simp only [List.map_cons, hx, beq_self_eq_true, if_true, List.filter_cons, bne_self_eq_false, ne_eq, not_true, decide_false,
        Bool.false_eq_true, if_false, ih]
    · rw [List.map_cons, if_neg (by simpa using hx), List.filter_cons, if_pos (by simpa using hx), ih, List.filter_cons,
        if_pos (by simpa using hx)]

theorem last_part_acked {l : List SegPart} {k : Nat} (h : ∀ q ∈ l.eraseIdx k, q.st = 2) :
    (modIdx l k fun p => { p with st := 2 }).all (fun p => p.st == 2) = true := by
  rw [List.all_eq_true]
  intro q hq
  obtain ⟨j, hj⟩ := List.mem_iff_getElem?.mp hq
  unfold modIdx at hj
  rw [List.getElem?_modify] at hj
  obtain ⟨p, hp, rfl⟩ := Option.map_eq_some_iff.mp hj
  by_cases hjk : k = j
  · simp [hjk]
  · simpa [hjk] using h p (List.mem_eraseIdx_iff_getElem?.mpr ⟨j, fun e => hjk e.symm, hp⟩)

theorem recLines_mem {rs : List Rec} {r : Rec} (h : r ∈ rs) : r.pa / 64 ∈ recLines rs :=
  List.mem_dedup.mpr (List.mem_map_of_mem (f := fun r => lineOf r.pa) h)

theorem onCur_congr {s : State} {f g : Task → Task} (h : f s.cur = g s.cur) : s.onCur f = s.onCur g :=
  congrArg (fun t => { s with cur := t }) h

/-! ### ACQ -/

/-- R227, R249: an ACQ that names cores, at its issue. -/
theorem exec_acq_starts {i : Instr} {p : BitVec 3} {names : List (BitVec 13)} {s : State} (hn : s.named i = some (p, names))
    (hsc : scopeOk s p = true) (hs : s.starts) :
    let cs := acqCores s p names
    let others := cs.filter fun c => c != s.core.id
    exec i s = finish (acqGo others ((if cs.contains s.core.id then awaited s s.core.id else []).map (·.num))
      (if cs.contains s.core.id then answerLines s s.core.id else [])
      (placeMark ((s.paid .ord).onHome fun h => { h with out := h.out ++ others.map fun c => .acqReq c p }))) := by
  intro cs others
  obtain ⟨f, hexec, hf⟩ := named_acq hn
  rw [hexec]
  unfold acqSet
  rw [needScope_ok hsc]
  dsimp only
  rw [hs.2.1]
  dsimp only
  rw [hf]
  dsimp only
  rw [chargeOnce_paid' hs.2.2]; rfl

theorem exec_acq_waits {i : Instr} {p : BitVec 3} {names cs : List (BitVec 13)} {own lines : List Nat} {s : State}
    (hn : s.named i = some (p, names)) (hsc : scopeOk s p = true) (hw : s.cur.wait = some (.acq cs own lines)) :
    exec i s = finish (acqGo cs own lines s) := by
  obtain ⟨f, hexec, -⟩ := named_acq hn
  rw [hexec]
  unfold acqSet
  rw [needScope_ok hsc]
  dsimp only
  rw [hw]

theorem acqGo_ends {own lines : List Nat} {s : State} (ho : ownAcked own s = true) (hl : s.cur.loads = []) :
    acqGo [] own lines s = .ok (advance (s.onCore fun c => { c with vcache := c.vcache.filter fun l => !lines.contains l.line })) := by
  unfold acqGo
  rw [ho, hl]; rfl

theorem acqGo_waits {cs : List (BitVec 13)} {own lines : List Nat} {s : State} (h : cs ≠ [] ∨ ownAcked own s = false ∨ s.cur.loads ≠ []) :
    acqGo cs own lines s = .error (.wait .waitMem (.acq cs own lines) s) := by
  unfold acqGo
  refine if_neg fun hc => ?_
  simp only [Bool.and_eq_true, List.isEmpty_iff] at hc
  obtain ⟨⟨hcs, ho⟩, hl⟩ := hc
  rcases h with h | h | h
  · exact h hcs
  · exact absurd ho (by simp [h])
  · exact h hl

section Below
variable {b : Fld} {p : BitVec 3} {s : State} (hsc : scopeOk s p = true)
include hsc

theorem exec_acqBelow_starts (hb : wBusy s.cur b = false) (hs : s.starts) : exec (.acqBelow b p) s =
    finish (acqBelowGo (Min.min ((s.rw b).toNat % 2 ^ 48) s.cur.stamp.toNat) true (placeMark (s.paid .ord))) := by
  show finish (acqBelow (.acqBelow b p) b p s) = _
  unfold acqBelow
  rw [needScope_ok hsc]
  dsimp only
  rw [hs.2.1]
  dsimp only
  rw [needRegs1 hb, chargeOnce_paid' hs.2.2, ← Nat.min_eq_min]

theorem exec_acqBelow_waits {n : Nat} (hw : s.cur.wait = some (.acqBelow n)) : exec (.acqBelow b p) s = finish (acqBelowGo n false s) := by
  show finish (acqBelow (.acqBelow b p) b p s) = _
  unfold acqBelow
  rw [needScope_ok hsc]
  dsimp only
  rw [hw]

end Below

theorem acqBelowGo_ends {n : Nat} {ask : Bool} {s : State} (h : n ≤ s.tile.commit) (hl : s.cur.loads = []) :
    acqBelowGo n ask s = .ok (advance (s.onCore fun c => { c with vcache := [] })) := by
  unfold acqBelowGo
  exact if_pos (by simp [h, hl])

theorem acqBelowGo_waits {n : Nat} {ask : Bool} {s : State} (h : s.cur.loads ≠ [] ∨ s.tile.commit < n) :
    acqBelowGo n ask s = .error (.wait .waitMem (.acqBelow n) (if ask && s.tile.commit < n then wantSweep s else s)) := by
  unfold acqBelowGo
  refine if_neg fun hc => ?_
  simp only [ge_iff_le, Bool.and_eq_true, decide_eq_true_eq, List.isEmpty_iff] at hc
  rcases h with h | h
  · exact h hc.2
  · omega

/-! ### Fences -/

theorem translateAt_paid_published {acc : Access} {q p : BitVec 3} {va pa : Nat} {e : Tlb} {s w : State}
    (h : translateAt acc q va s = .ok (pa, e, w)) (c : Charge) : Beyond s ((w.paid c).published p) :=
  ((translateAt_beyond h).trans (paid_beyond c w)).trans (published_beyond p _)

theorem paid_published_beyond (c : Charge) (p : BitVec 3) (s : State) : Beyond s ((s.paid c).published p) :=
  (paid_beyond c s).trans (published_beyond p _)

/-- R81: a fence that stops after its operands were read leaves what is beyond them as it is. -/
theorem finish_back_wait {st : TaskSt} {w : Wait} {s u : State} (h : Beyond s u) :
    finish ((Except.error (Stop.wait st w u) : Res State).mapError (·.back s)) = .next (blockCur st w u) := by
  show Host.Outcome.next (blockCur st w (s.untake u)) = _
  rw [h.untake]

theorem finish_fenceEnd (d : Fld) (noflag : Bool) (s u : State) :
    finish ((Except.ok (fenceEnd d noflag u) : Res State).mapError (·.back s)) = .next (u.fenced d noflag).retired := by
  show Host.Outcome.next (retire (fenceEnd d noflag u)) = _
  rw [fenceEnd_eq]

theorem exec_fence (d : Fld) (p : BitVec 3) (s : State) : exec (.fence d p) s = finish (fence (.fence d p) d p none s) := rfl

theorem exec_fenceF (d b c : Fld) (p : BitVec 3) (s : State) :
    exec (.fenceF d b c p) s = finish (fence (.fenceF d b c p) d p (some (b, c)) s) := rfl

/-- R250: a fence whose flag has been written. -/
theorem fence_flagged {d b c : Fld} {p : BitVec 3} {s : State} {v x : Word} {n pa : Nat} (hsc : scopeOk s p = true)
    (ht : takeS [c] [d] s = .ok ([v], s)) (hb : wBusy s.cur b = false) (hw : s.cur.wait = some (.flag n pa x true)) :
    exec (.fenceF d b c p) s = .next (s.onCur (Task.put d 0)).retired := by
  rw [exec_fenceF]
  unfold fence
  rw [needScope_ok hsc]
  dsimp only
  rw [needRegs1 hb]
  dsimp only
  rw [ht]
  dsimp only
  rw [hw]
  dsimp only
  rw [writeS_put]; rfl

/-- R224, R228, R250: the flag of a fence written at its home. -/
theorem flagWrite_written {s : State} {n pa : Nat} {v : Word} (hw : s.cur.wait = some (.flag n pa v false)) (hsh : s.cur.shadow = false)
    (hmay : mayAct (.flag s.cur.tid s.cur.origin) s = true) (hsec : secondary s = false) (hl : lostTo s pa = false)
    (hr : refusedAt s s.core.vf pa = false) :
    flagWrite s = (((acted (.flag s.cur.tid s.cur.origin) s).onCur fun t => { t with wait := some (.flag n pa v true) }).onHome fun h =>
      homeKeyed h s.launch.tag.toNat { stamp := s.cur.stamp.toNat, writer := s.core.id.toNat, seg := n, part := 2 ^ 32 - 1, idx := 0 } pa
        (leBytes 8 v.toNat)).paying (chargeAccess pa 8 s) := by
  have hready : flagReady s s.cur = true := by
    unfold flagReady flagWaits
    rw [hw, hmay]
    simp [hsh]
  unfold flagWrite
  rw [findCtx_cur hready]
  dsimp only
  rw [hw]
  dsimp only
  rw [chargeAccess_paying]
  have hl' : lostTo (s.paying (chargeAccess pa 8 s)) pa = false := hl
  have hr' : refusedAt (s.paying (chargeAccess pa 8 s)) (s.paying (chargeAccess pa 8 s)).core.vf pa = false := hr
  have hp' : paired (s.paying (chargeAccess pa 8 s)) = paired s := rfl
  rw [hsec, if_neg Bool.false_ne_true, hl', if_neg Bool.false_ne_true, hr', if_neg Bool.false_ne_true,
    updCtx_cur (s := s.paying (chargeAccess pa 8 s)) (p := flagReady (s.paying (chargeAccess pa 8 s))) hready, acted_onCur]
  unfold acted
  rw [hp']
  cases paired s <;> rfl

/-! ### QFENCE and LOGSN -/

theorem exec_qfence_starts {b : Fld} {s : State} (hb : wBusy s.cur b = false) (hs : s.starts) :
    exec (.qfence b) s = finish (qfenceGo (s.rw b) (placeMark (s.paid .ord))) := by
  show finish (qfence b s) = _
  unfold qfence
  rw [hs.2.1]
  dsimp only
  rw [needRegs1 hb, chargeOnce_paid' hs.2.2]

theorem qfenceGo_waits {mask : Word} {s : State} {q : Nat} (hq : q < 16) (hm : mask.getLsbD q = true) (hbusy : queueBusy s q = true) :
    qfenceGo mask s = .error (.wait .waitMem (.qfence mask) s) := by
  unfold qfenceGo busyQueues
  refine if_neg fun h => ?_
  have := List.filter_eq_nil_iff.mp (List.isEmpty_iff.mp h) q (List.mem_range.mpr hq)
  simp [hm, hbusy] at this

theorem logsnWord_eq {s : State} (h : s.cur.openSeg < 2 ^ 40) :
    logsnWord s = BitVec.ofNat 64 (Min.min s.core.sealed.length 65535 * 2 ^ 40 + s.cur.openSeg) :=
  word2 _ _ (Nat.min_le_right ..) h

namespace Settled

/-- Settles O18: the write by its word's tag, the device's write by none, and the tags below the horizon. -/
theorem keyedWrites : Obligations.KeyedWrites := by
  refine ⟨?_, ?_⟩
  · intro w s hm href hword tag
    have hrun : exec (.engineWrite w) s = .next (s.onHome fun h => homeKeyed h w.launchTag w.key w.pa w.data) := by
      show done (if _ then _ else _) = _
      rw [href]
      simp only [homeKeyedN_word hword]; rfl
    refine ⟨fun ht => ?_, fun g hg hl hk => ?_, ?_⟩
    · refine ⟨_, hrun, ?_⟩
      rw [State.onHome, homeKeyed_applied ht]
      exact ⟨tabGet?_tabSet_same _ _ _, fun k hk => tabGet?_tabSet_other _ _ _ hk, memPutN_read (memOk_home hm) _ _, rfl⟩
    · rw [hrun, State.onHome, homeKeyed_beaten hg hl hk]
    · have hdev : exec (.inPlaceDeviceWrite w.pa w.data) s = .next (s.onHome fun h => homePut h w.pa w.data) := by
        show done (if _ then _ else _) = _
        rw [noMemory_of_refused href]; rfl
      exact ⟨_, hdev, rfl, memPutN_read (memOk_home hm) _ _, rfl⟩
  · intro h s
    have hrun : exec (.commitHorizon h) s = .next (if h.toNat > Nat.min (commitFig s) (localLow s) then s else
        s.onHome fun x => { x with tags := x.tags.filter fun e => !(e.2.launch == s.launch.tag.toNat && e.2.key.stamp < h.toNat) }) := rfl
    refine ⟨fun hc hl => ?_, fun hlow => ?_⟩
    · rw [hrun, if_neg (Nat.not_lt.mpr (Nat.le_min.mpr ⟨hc, hl⟩))]
      refine ⟨_, rfl, fun e => ?_, rfl⟩
      simp only [State.onHome, List.mem_filter, Bool.not_eq_true', ← Bool.not_eq_true, Bool.and_eq_true, beq_iff_eq, decide_eq_true_eq]
    · rw [hrun, if_pos]
      rcases hlow with hlow | hlow
      · exact Nat.lt_of_le_of_lt (Nat.min_le_left ..) hlow
      · exact Nat.lt_of_le_of_lt (Nat.min_le_right ..) hlow

/-- Settles O19: a segment ships, is applied part by part, and its last acknowledgement frees it. -/
theorem segmentSteps : Obligations.SegmentSteps := by
  intro s g hg hone
  have hfind := find_segment hg hone
  refine ⟨fun hnext => ?_, fun k p r l hk hst hrecs hmay hsec hl hr => ?_, fun k p hk hst hrest => ?_⟩
  · show done (segmentShip g.num s) = _
    unfold segmentShip
    rw [hnext]
    dsimp only
    rw [if_neg (by simp), chargeParts_paying]
    simp only [beq_iff_if]; rfl
  · show done (partApplyOwn g.num k s) = _
    have h1 : secondary (acted (.part g.num k) s) = secondary s := acted_same _ s secondary rfl
    have h2 : lostTo (acted (.part g.num k) s) r.pa = lostTo s r.pa := acted_same _ s (lostTo · r.pa) rfl
    have h3 : refusedAt (acted (.part g.num k) s) (acted (.part g.num k) s).core.vf r.pa = refusedAt s s.core.vf r.pa :=
      acted_same _ s (fun s => refusedAt s s.core.vf r.pa) rfl
    have h4 : (acted (.part g.num k) s).launch = s.launch := acted_same _ s State.launch rfl
    have h5 : (acted (.part g.num k) s).core.id = s.core.id := acted_same _ s (·.core.id) rfl
    unfold partApplyOwn
    rw [hfind]
    dsimp only
    rw [hk]
    dsimp only
    rw [hst, hmay, hrecs]
    dsimp only
    rw [h1, hsec, h2, hl, h3, hr]
    unfold setPart homeRecs segKey
    simp only [beq_iff_if, State.onCore_launch, State.onCore_core, h4, h5]; rfl
  · have hrun : exec (.segmentAck g.num k) s = .next (answerAcq ((setPart g.num k (fun p => { p with st := 2 }) s).onCore fun c =>
        { c with sealed := c.sealed.filter (fun x => x.num != g.num), ovf := c.ovf - ovfBytes g.recs,
                 ackedLines := (c.ackedLines ++ (recLines g.recs).map fun l => (g.scope, l)).dedup,
                 vcache := vcDropAll (recLines g.recs) c.vcache })) := by
      show done (segmentAck g.num k s) = _
      unfold segmentAck
      rw [hfind]
      dsimp only
      rw [hk]
      dsimp only
      rw [hst, last_part_acked hrest]; rfl
    refine ⟨_, hrun, filter_setPart .., fun l hl => ?_⟩
    have hl' : l ∈ s.core.vcache.filter fun x => !(recLines g.recs).contains x.line := hl
    rw [List.mem_filter] at hl'
    refine ⟨hl'.1, fun r hr e => ?_⟩
    have := hl'.2
    rw [e] at this
    simp [recLines_mem hr] at this

/-- Settles O20: an ACQ at its issue and taken up again, with the requests and answers of other cores. -/
theorem acquire : Obligations.Acquire := by
  refine ⟨?_, ?_, ?_⟩
  · intro i p names s hn hsc cs others mine own lines asked
    have hasked : asked.core = (s.paid .ord).core ∧ asked.cur.loads = s.cur.loads := by
      show (placeMark _).core = _ ∧ (placeMark _).cur.loads = _
      rw [placeMark_eq]; exact ⟨rfl, rfl⟩
    have hown : ownAcked own asked = ownAcked own s := by unfold ownAcked; rw [hasked.1]; rfl
    refine ⟨fun hs ho hacked hloads => ?_, fun hs h => ?_, fun o l hw hacked hloads => ?_⟩
    · rw [exec_acq_starts hn hsc hs]
      show finish (acqGo others own lines asked) = _
      rw [ho, acqGo_ends (hown.trans hacked) (hasked.2.trans hloads)]; rfl
    · rw [exec_acq_starts hn hsc hs]
      show finish (acqGo others own lines asked) = _
      rw [acqGo_waits (by rw [hown, hasked.2]; exact h)]; rfl
    · rw [exec_acq_waits hn hsc hw, acqGo_ends hacked hloads]; rfl
  · intro b p s hsc
    refine ⟨?_, fun n hw hn hl => ?_, fun y hy n hw hn => ?_⟩
    · intro hb hs t u
      have hu : u.tile.commit = s.tile.commit ∧ u.cur.loads = s.cur.loads := by
        show (placeMark _).tile.commit = _ ∧ (placeMark _).cur.loads = _
        rw [placeMark_eq]; exact ⟨rfl, rfl⟩
      have hrun : exec (.acqBelow b p) s = finish (acqBelowGo t true u) := exec_acqBelow_starts hsc hb hs
      refine ⟨fun ht hl => ?_, fun ht hl => ?_, fun ht => ?_⟩
      · rw [hrun, acqBelowGo_ends (hu.1.symm ▸ ht) (hu.2.trans hl)]; rfl
      · rw [hrun, acqBelowGo_waits (.inl (by rw [hu.2]; exact hl)), hu.1, if_neg (by simpa using ht)]; rfl
      · rw [hrun, acqBelowGo_waits (.inr (hu.1.symm ▸ ht)), hu.1, if_pos (by simpa using ht)]; rfl
    · rw [exec_acqBelow_waits hsc hw, acqBelowGo_ends hn hl]; rfl
    · show done (if _ then _ else _) = _
      rw [if_pos (List.any_eq_true.mpr ⟨y, hy, by rw [hw]; exact decide_eq_true hn⟩)]; rfl
  · intro s
    refine ⟨fun reader scope hin h => ?_, fun reader scope hin h => ?_, fun core lines cs own ls hw he hsh hc => ?_⟩
    · show (if _ then done _ else done _) = _
      rw [hin, if_pos rfl, if_pos rfl, h]; rfl
    · show (if _ then done _ else done _) = _
      rw [hin, if_pos rfl, if_neg (by simpa using h)]; rfl
    · show done (s.updCtx _ _) = _
      rw [updCtx_cur (by unfold liveAt; simp [he, hsh])]
      refine congrArg done (onCur_congr ?_)
      rw [hw]
      dsimp only
      rw [if_pos (by simpa using hc)]

/-- Settles O21: a fence at its issue, taken up again, and its flag's write. -/
theorem fences : Obligations.Fences := by
  refine ⟨fun d p s hsc => ⟨?_, fun n ht hw hdone => ?_, ?_, ?_, fun b c v n pa x ht hb hw => fence_flagged hsc ht hb hw⟩, ?_⟩
  · intro ht hs hbad hpush u
    rw [exec_fence, fence_starts d p s hsc ht hs hbad hpush]
    refine ⟨fun hdone => ?_, fun hdone => ?_⟩
    · rw [fenceWait_done hdone, finish_fenceEnd]
    · rw [fenceWait_waits hdone, finish_back_wait (paid_published_beyond ..)]
  · rw [exec_fence, fence_waits _ d p s n hsc ht hw, fenceWait_done hdone, finish_fenceEnd]
  · intro b c v pa e w ht hb hs hbad hpush halign hrange htr u
    rw [exec_fenceF, fence_startsF _ d b c p s w v pa e hsc hb ht hs hbad hpush halign hrange htr]
    have hu : Beyond s u := translateAt_paid_published htr .ord
    refine ⟨fun hdone hf => ?_, fun hdone hf => ?_, fun hdone => ?_⟩
    · rw [fenceWait_failed hdone hf, finish_fenceEnd]
    · rw [fenceWait_flag hdone hf]; exact finish_back_wait (hu.trans (pairRelease_beyond ..))
    · rw [fenceWait_waits hdone, finish_back_wait hu]
  · intro b c v n pa x ht hb hw hdone
    rw [exec_fenceF, fence_waitsF _ d b c p s v n _ hsc hb ht hw]
    refine ⟨fun hf => ?_, fun hf => ?_⟩
    · rw [fenceWait_failed hdone hf, finish_fenceEnd]
    · rw [fenceWait_flag hdone hf]; exact finish_back_wait (pairRelease_beyond ..)
  · intro s n pa v hw hsh what hmay hsec hl hr
    exact congrArg done (flagWrite_written hw hsh hmay hsec hl hr)

/-- Settles O22: QFENCE at its issue and taken up again, LOGSN and LOGDROP. -/
theorem logInstructions : Obligations.LogInstructions := by
  intro s drained ends
  refine ⟨fun b hb hs hd => ?_, fun b mask hw hd => ?_, fun b hb hs hd => ?_, fun a ht hp hseg => ?_, fun hs => ?_⟩
  · exact qfence_ends (exec_qfence_starts hb hs) (placeMark_core _) (by rw [placeMark_eq]; rfl) (by rw [placeMark_eq]; rfl)
      (by rw [placeMark_eq]; rfl) (by rw [placeMark_eq]; rfl) (by rw [placeMark_eq]; rfl) (by rw [placeMark_eq]; exact ⟨rfl, rfl⟩) hd
  · have hrun : exec (.qfence b) s = finish (qfenceGo mask s) := by
      show finish (qfence b s) = _
      unfold qfence; rw [hw]
    exact qfence_ends hrun rfl rfl rfl rfl rfl rfl ⟨rfl, rfl⟩ hd
  · obtain ⟨q, hq, hm, hbusy⟩ : ∃ q < 16, (s.rw b).getLsbD q = true ∧ queueBusy s q = true := by
      by_contra hno
      exact hd fun q hq hm => by
        cases hb : queueBusy s q
        · rfl
        · exact absurd ⟨q, hq, hm, hb⟩ hno
    rw [exec_qfence_starts hb hs, qfenceGo_waits hq hm (by rw [placeMark_eq]; exact hbusy)]; rfl
  · show finish (match takeS [] [a] s with | .error e => .error e | .ok (_, s) => .ok (advance (writeS a (logsnWord s) (charge .ord s)))) = _
    rw [ht]
    dsimp only
    rw [finish_ok, retire_put hp, logsnWord_eq hseg]
  · have hu : s.issues := ⟨hs.1, by rw [hs.2.1]; nofun⟩
    have hcur := retire_cur_running (s := advance (((charge .ord s).onCore fun c => { c with ovf := c.ovf - ovfBytes s.cur.recs }).onCur
      fun t => { dropPushes t with recs := [], recCtr := 0, floor := 0 })) (by show s.cur.st ≠ _; rw [hs.1]; decide) hu.2
    refine ⟨_, rfl, ?_⟩
    rw [hcur]
    exact ⟨rfl, rfl, rfl, rfl, rfl, rfl, rfl, charge_charged .ord s⟩

end Settled

end Sys2Proof.Machine
end

section
/-! Sends and tasks (R44 to R46, R117 to R120, R309 to R324): O24, O25, O27, O28, O29, O31. -/

namespace Sys2Proof.Machine

/-! ### Held operations and sends -/

/-- R314: a handler and a stamp that pass. -/
theorem checkHandler_ok {h st : Word} {least : Nat} {s : State} (h4 : h.toNat % 4 = 0) (hr : h.toNat < 2 ^ 56) (hl : least ≤ st.toNat)
    (hi : st.toNat < 2 ^ 48 - 1) : checkHandler h st least s = .ok () := by
  unfold checkHandler
  rw [if_neg (by simpa using h4), if_neg (Nat.not_le.mpr hr), if_neg]
  simp only [Bool.or_eq_true, decide_eq_true_eq, show inf48 = 2 ^ 48 - 1 from rfl]
  omega

theorem checkHandler_misaligned {h st : Word} {least : Nat} {s : State} (h4 : h.toNat % 4 ≠ 0) :
    checkHandler h st least s = trapR cALIGN h s := by
  unfold checkHandler
  rw [if_pos (bne_iff_ne.mpr h4)]

theorem checkHandler_outside {h st : Word} {least : Nat} {s : State} (h4 : h.toNat % 4 = 0) (hr : 2 ^ 56 ≤ h.toNat) :
    checkHandler h st least s = trapR cACCESS h s := by
  unfold checkHandler
  rw [if_neg (by simpa using h4), if_pos hr]

theorem checkHandler_stamp {h st : Word} {least : Nat} {s : State} (h4 : h.toNat % 4 = 0) (hr : h.toNat < 2 ^ 56)
    (hs : 2 ^ 48 - 1 ≤ st.toNat ∨ st.toNat < least) : checkHandler h st least s = trapR cLAHVIOL st s := by
  unfold checkHandler
  rw [if_neg (by simpa using h4), if_neg (Nat.not_le.mpr hr), if_pos]
  simp only [Bool.or_eq_true, decide_eq_true_eq]
  exact hs

section Send
variable {a b c : Fld} {any x : Bool} {s : State}

theorem exec_send (ha : wBusy s.cur a = false) (hb : wBusy s.cur b = false) (hc : wBusy s.cur c = false) (hq : wBusy s.cur 25 = false) :
    exec (.send a b c any x) s = finish ((checkSend (s.rw a) (s.rw b) (s.rw c) s).bind fun _ =>
      .ok (advance (sendOp (.msg (mkMsg s (destCore (s.rw a)) (destCls (s.rw a)) any false (s.rw b) (s.rw c) s.cur.q1)) x
        ((charge .msg s).onCur fun t => { t with q1 := [] })))) := by
  show finish (send a b c any x s) = _
  unfold send
  rw [needRegs4 ha hb hc hq]
  dsimp only
  cases checkSend (s.rw a) (s.rw b) (s.rw c) s <;> rfl

/-- R315: SENDM, its descriptor and payload read. -/
theorem exec_sendm {ws pl : List Word} (hb : wBusy s.cur b = false) (hd : readDesc (s.rw b) 4 s = .ok ws)
    (hpl : descPayload (s.rw b) (wordsAt ws 3) (wordsAt ws 2) s = .ok pl)
    (hc : checkSend (wordsAt ws 0) (wordsAt ws 1) (wordsAt ws 2) s = .ok ()) : exec (.sendm b any x) s =
      .next (sendOp (.msg (mkMsg s (destCore (wordsAt ws 0)) (destCls (wordsAt ws 0)) any false (wordsAt ws 1) (wordsAt ws 2) pl)) x
        (charge .msg s)).retired := by
  show finish (sendm b any x s) = _
  unfold sendm
  rw [needRegs1 hb]
  dsimp only
  rw [hd]
  dsimp only
  rw [hpl]
  dsimp only
  rw [hc]; rfl

/-- R316: SENDC of an empty set of tiles sends nothing. -/
theorem exec_sendc_empty {ws : List Word} (ha : wBusy s.cur a = false) (hb : wBusy s.cur b = false) (hp : s.cur.paid = false)
    (hd : readDesc (s.rw b) 5 s = .ok ws) (he : wordsAt ws 4 = 0 ∨ (wordsAt ws 0).extractLsb' 0 16 = 0) :
    exec (.sendc a b x) s = .next (s.completes .msg fun t => t.setW (wIdx a) 1) := by
  show finish (sendc a b x s) = _
  unfold sendc
  rw [needRegs2 ha hb]
  dsimp only
  rw [hd]
  dsimp only
  rw [if_pos (by simpa using he), completes_charge hp .msg _ (setW_paid _ _)]; rfl

/-- R316: the tiles of a multicast all have links. -/
theorem mcastTiles_linked {cvec d : Word} {cls : BitVec 4}
    (h : ∀ c < 64, cvec.getLsbD c = true → ∀ t < 16, d.getLsbD t = true → hasLink s (16 * c + t) cls = true) :
    ((mcastTiles cvec (d.extractLsb' 0 16)).any fun t => !hasLink s t cls) = false := by
  rw [List.any_eq_false]
  intro t ht
  obtain ⟨l, hl, htl⟩ := List.mem_flatten.mp ht
  obtain ⟨c, hc, rfl⟩ := List.mem_map.mp hl
  obtain ⟨k, hk, rfl⟩ := List.mem_map.mp htl
  obtain ⟨hc64, hcset⟩ := List.mem_filter.mp hc
  obtain ⟨hk16, hkset⟩ := List.mem_filter.mp hk
  have hk16 := List.mem_range.mp hk16
  have hbit : d.getLsbD k = true := by simpa [hk16] using hkset
  simpa [Nat.mul_comm] using h c (List.mem_range.mp hc64) hcset k hk16 hbit

theorem exec_sendc {ws pl : List Word} (ha : wBusy s.cur a = false) (hb : wBusy s.cur b = false) (hd : readDesc (s.rw b) 5 s = .ok ws)
    (hv : wordsAt ws 4 ≠ 0) (hm : (wordsAt ws 0).extractLsb' 0 16 ≠ 0) (ho : outsideClusters s (wordsAt ws 4) = 0)
    (hlink : ((mcastTiles (wordsAt ws 4) ((wordsAt ws 0).extractLsb' 0 16)).any fun t => !hasLink s t (destCls (wordsAt ws 0))) = false)
    (hpl : descPayload (s.rw b) (wordsAt ws 3) (wordsAt ws 2) s = .ok pl) (hres : (wordsAt ws 0).toNat < 2 ^ 20)
    (hc : checkHandler (wordsAt ws 1) (wordsAt ws 2) (satAdd s.cur.stamp.toNat ((lahOf s (destCls (wordsAt ws 0))).getD 0)) s = .ok ()) :
    exec (.sendc a b x) s = .next (sendOp (.mcast (mkMsg s 0 (destCls (wordsAt ws 0)) true true (wordsAt ws 1) (wordsAt ws 2) pl)
      (wordsAt ws 4) ((wordsAt ws 0).extractLsb' 0 16)) x ((charge .msg s).ww a 0)).retired := by
  have hres' : ((wordsAt ws 0).extractLsb' 20 44 != 0) = false := by
    rw [bne_eq_false_iff_eq, ← BitVec.toNat_inj, BitVec.extractLsb'_toNat, Nat.shiftRight_eq_div_pow, Nat.div_eq_of_lt hres]; rfl
  show finish (sendc a b x s) = _
  unfold sendc
  rw [needRegs2 ha hb]
  dsimp only
  rw [hd]
  dsimp only
  rw [if_neg (by simpa using ⟨hv, hm⟩), if_neg (by simp [ho]), if_neg (by simp [hlink]), hpl]
  dsimp only
  rw [hres', hc]; rfl

theorem exec_spawn (hb : wBusy s.cur b = false) (hc : wBusy s.cur c = false) (hq : wBusy s.cur 25 = false) :
    exec (.spawn b c any) s = finish ((checkHandler (s.rw b) (s.rw c) s.cur.stamp.toNat s).bind fun _ =>
      .ok (advance (sendOp (.spawn { mkMsg s s.core.id 0 any false (s.rw b) (s.rw c) s.cur.q1 with mig := s.cur.mig }) false
        ((charge .task s).onCur fun t => { t with q1 := [] })))) := by
  show finish (spawn b c any s) = _
  unfold spawn
  rw [needRegs3 hb hc hq]
  dsimp only
  cases checkHandler (s.rw b) (s.rw c) s.cur.stamp.toNat s <;> rfl

end Send

/-! ### END, YIELD, WAIT -/

/-- R118: END at its first issue. -/
theorem exec_end {s : State} (hs : s.starts) : exec .endTask s = finish (
    if s.cur.shadow then .ok (shadowLeave (s.paid .task))
    else match badPush s.cur with
      | some b => trapR b.1 (BitVec.ofNat 64 b.2) (s.paid .task)
      | none =>
        if (undrained s.cur).isEmpty then .ok (endCur (releaseHeld (sealNow (defaultScope s) (s.paid .task))))
        else .error (.wait .waitMem (.ending (undrained s.cur)) (s.paid .task))) := by
  show finish (endT s) = _
  unfold endT
  rw [chargeOnce_paid' hs.2.2]
  dsimp only
  cases s.cur.shadow <;> cases badPush s.cur <;> cases (undrained s.cur).isEmpty <;> rfl

/-- What an ended task holds no more. -/
theorem retire_endCur (u : State) : (retire (endCur u)).cur.st = .ended ∧ (retire (endCur u)).cur.slot = none ∧
    (retire (endCur u)).cur.recs = [] ∧ (retire (endCur u)).cur.held = [] ∧ (retire (endCur u)).cur.hvy = false ∧
    (retire (endCur u)).cur.streams = Vector.replicate 8 none ∧ (retire (endCur u)).cur.qs = Vector.replicate 6 none :=
  ⟨rfl, rfl, rfl, rfl, rfl, rfl, rfl⟩

/-- R120: the end of a WAIT: the result written, the deposit latch cleared where it is reported. -/
def State.waited (s : State) (a : Fld) (x : Word) : State :=
  (s.onCur fun t => { t.setW (wIdx a) x with depl := t.depl && !x.getLsbD 0 }).retired

theorem finish_waitEnd (a : Fld) (x : Word) (s : State) : finish (.ok (waitEnd a x s)) = .next (s.waited a x) := by
  have hput (t : Task) : (if x.getLsbD 0 then { t with depl := false } else t).setW (wIdx a) x =
      { t.setW (wIdx a) x with depl := t.depl && !x.getLsbD 0 } := by
    cases x.getLsbD 0
    · rw [Bool.not_false, Bool.and_true]
      unfold Task.setW
      split <;> rfl
    · rw [Bool.not_true, Bool.and_false]
      unfold Task.setW
      split <;> rfl
  have hww : (if x.getLsbD 0 then s.onCur fun t => { t with depl := false } else s).ww a x =
      s.onCur fun t => (if x.getLsbD 0 then { t with depl := false } else t).setW (wIdx a) x := by cases x.getLsbD 0 <;> rfl
  rw [finish_ok]
  unfold waitEnd State.waited State.retired
  rw [hww, funext hput]

section Wait
variable {a b c : Fld} {s : State}

theorem waitGo_holds {m : BitVec 8} {timed gone : Bool} (h : events s m ≠ 0 ∨ (m = 0 ∧ timed = false)) :
    waitGo a m timed gone s = .ok (waitEnd a ((events s m).setWidth 64) s) := by
  unfold waitGo
  exact if_pos (by simpa using h)

/-- R120: no event holds, and there is something to wait for. -/
theorem waitGo_none {m : BitVec 8} {timed gone : Bool} (h : events s m = 0) (hw : m ≠ 0 ∨ timed = true) : waitGo a m timed gone s =
    if gone then .ok (waitEnd a (1#64 <<< 63) s) else .error (.wait .waitMsg (.event m timed false) s) := by
  unfold waitGo
  refine if_neg ?_
  simp only [h, bne_self_eq_false, Bool.false_or, Bool.and_eq_true, beq_iff_eq, Bool.not_eq_true']
  rintro ⟨hm, ht⟩
  exact hw.elim (· hm) fun hw => Bool.false_ne_true (ht.symm.trans hw)

theorem exec_wait_starts {m : BitVec 8} (hm : m = (s.rw b).extractLsb' 0 8 &&& 0xFD) (ha : wBusy s.cur a = false)
    (hb : wBusy s.cur b = false) (hc : wBusy s.cur c = false) (hs : s.starts)
    (hbound : ∀ k, 2 ≤ k → k < 8 → m.getLsbD k = true → ((s.cur.qs[k - 2]?).join).isSome = true) :
    exec (.wait a b c) s = finish (waitGo a m (s.rw c != 0) false (s.paid .task)) := by
  have hnone : unboundIn s.cur m = none := by
    refine List.find?_eq_none.mpr fun k hk => ?_
    obtain ⟨j, hj, rfl⟩ := List.mem_map.mp hk
    have hj := List.mem_range.mp hj
    cases hbit : m.getLsbD (j + 2)
    · simp
    · simpa using Option.isSome_iff_ne_none.mp (hbound (j + 2) (by omega) (by omega) hbit)
  show finish (waitT a b c s) = _
  unfold waitT
  rw [hs.2.1]
  dsimp only
  rw [needRegs3 ha hb hc, chargeOnce_paid' hs.2.2, ← hm]
  dsimp only
  rw [hnone]

theorem exec_wait_again {m : BitVec 8} {timed gone : Bool} (hw : s.cur.wait = some (.event m timed gone)) :
    exec (.wait a b c) s = finish (waitGo a m timed gone s) := by
  show finish (waitT a b c s) = _
  unfold waitT
  rw [hw]

/-- R324: CLMASK and CLUNMASK. -/
theorem maskOp_eq (f : BitVec 16 → BitVec 16 → BitVec 16) (ha : wBusy s.cur a = false) (hb : wBusy s.cur b = false)
    (hp : s.cur.paid = false) : finish (maskOp f a b s) = .next (s.completes .task fun t =>
      { t with classMask := f t.classMask ((s.rw b).extractLsb' 0 16) }.setW (wIdx a) (t.classMask.setWidth 64)) := by
  unfold maskOp
  rw [needRegs2 ha hb, completes_charge hp .task]
  · rfl
  · exact fun t => setW_paid _ _ { t with classMask := f t.classMask ((s.rw b).extractLsb' 0 16) }

theorem exec_sweepW (ha : wBusy s.cur a = false) : exec (.sweepW a) s = finish (match s.cur.wait with
    | some (.sweep n) =>
      if s.tile.sweepsEnded ≥ n then .ok (advance ((chargeOnce .task s).ww a (BitVec.ofNat 64 s.tile.horizon)))
      else .error (.wait .waitMsg (.sweep n) (chargeOnce .task s))
    | _ => .error (.wait .waitMsg (.sweep (s.tile.sweepsStarted + 1)) (wantSweep (chargeOnce .task s)))) := by
  show finish (sweepW a s) = _
  unfold sweepW
  rw [needRegs1 ha] <;> rfl

end Wait

/-! ### MIGRATE -/

section Migrate
variable {b : Fld} {s : State} (hb : wBusy s.cur b = false) (hq : wBusy s.cur 25 = false) (hs : s.starts) (hheld : migHeld s = false)
include hb hq hs hheld

theorem exec_migrate_refused (h : migRefused s = true) (core : Bool) :
    exec (.migrate b core) s = .next (takeTrap 0x0D 0 false (s.cur.statusByte.setWidth 64) s) := by
  show finish (migrate b core s) = _
  unfold migrate
  rw [hs.2.1]
  dsimp only
  rw [needRegs2 hb hq]
  dsimp only
  rw [hheld, h]; rfl

variable (hfree : migRefused s = false)
include hfree

theorem exec_migrate_core : exec (.migrate b true) s = finish (if migCoreOk s (s.rw b) then
      migrateTo (some ((s.rw b).extractLsb' 0 13)) (s.cur.pc + 4) (s.paid .task) else trapR cACCESS (s.rw b) s) := by
  show finish (migrate b true s) = _
  unfold migrate
  rw [hs.2.1]
  dsimp only
  rw [needRegs2 hb hq]
  dsimp only
  rw [hheld, hfree, chargeOnce_paid' hs.2.2]
  cases migCoreOk s (s.rw b) <;> rfl

theorem exec_migrate_addr {pa : Nat} {e : Tlb} {u : State} (hr : (s.rw b).toNat < 2 ^ 56)
    (ht : translate .load (s.rw b).toNat s = .ok (pa, e, u)) :
    exec (.migrate b false) s = finish (migrateTo (migDest u pa) (s.cur.pc + 4) (u.paid .task)) := by
  have hp : u.cur.paid = false := by rw [(translate_cur ht).1]; exact hs.2.2
  show finish (migrate b false s) = _
  unfold migrate
  rw [hs.2.1]
  dsimp only
  rw [needRegs2 hb hq]
  dsimp only
  rw [hheld, hfree, if_neg Bool.false_ne_true, if_neg Bool.false_ne_true, if_neg Bool.false_ne_true, if_neg (Nat.not_le.mpr hr), ht]
  dsimp only
  rw [chargeOnce_paid' hp]

end Migrate

theorem exec_migrate_leaves {b : Fld} {k : Bool} {s : State} {n : Nat} {d : Option (BitVec 13)} (hw : s.cur.wait = some (.leave n d)) :
    exec (.migrate b k) s = finish (migrateGo n d (s.cur.pc + 4) s) := by
  show finish (migrate b k s) = _
  unfold migrate
  rw [hw]

section Departs
variable {n : Nat} {d : BitVec 13} {pc : BitVec 56} {s : State} 

theorem migrateGo_stays (ha : segsAcked s n = true) (hw : written s.cur = true) (hd : d = s.core.id) :
    migrateGo n (some d) pc s = .ok (s.onCur fun t => { t with pc := pc }) := by
  rw [migrateGo_ready ha hw]
  exact if_pos (by simpa using hd)

theorem migrateGo_leaves (ha : segsAcked s n = true) (hw : written s.cur = true) (hd : d ≠ s.core.id)
    (hmay : mayAct (.mig s.cur.tid s.cur.origin) s = true) :
    migrateGo n (some d) pc s = .ok (sendMigration d pc (acted (.mig s.cur.tid s.cur.origin) s)) := by
  rw [migrateGo_ready ha hw]
  dsimp only
  rw [if_neg (by simpa using hd), leave_may hmay]

theorem migrateGo_waits {dest : Option (BitVec 13)} (h : segsAcked s n = false ∨ written s.cur = false) :
    migrateGo n dest pc s = .error (.wait .waitMem (.leave n dest) s) := by
  unfold migrateGo
  exact if_pos (by simpa using h)

end Departs

namespace Settled

/-- Settles O24: the operation joins those held, which an escaped activation or a release point sends. -/
theorem heldOperations : Obligations.HeldOperations := by
  intro h x s ops queued out
  refine ⟨fun he => ?_, fun he hx => ?_, fun he hx hroom => ?_⟩
  · unfold sendOp
    rw [if_pos he]; rfl
  · have hne : (hold h s).cur.held.isEmpty = false := by
      show (s.cur.held ++ [h]).isEmpty = false
      simp
    unfold sendOp releaseHeld
    rw [if_neg (by simp [he]), if_pos (by simpa using hx), hne]; rfl
  · unfold sendOp
    rw [if_neg (by simp [he]), if_neg (by simp [hx]; omega)]; rfl

/-- Settles O25: SEND by its checks, SENDM and SENDC by their descriptors. -/
theorem sendInstructions : Obligations.SendInstructions := by
  refine ⟨?_, ?_⟩
  · intro a b c any x s ha hb hc hq hs
    have hrun := exec_send (any := any) (x := x) ha hb hc hq
    rw [checkSend_eq] at hrun
    exact ⟨fun h => by rw [hrun, h]; rfl, fun cause v h => by rw [hrun, h]; rfl⟩
  · intro a b any x s ws pl ha hb hs p d msg
    refine ⟨fun hd hpl h => ?_, fun hd he => exec_sendc_empty ha hb hs.2.2 hd he, fun hd hv hm ho hl hpl hres hc => ?_⟩
    · exact exec_sendm hb hd hpl (by rw [checkSend_eq, h])
    · exact exec_sendc ha hb hd hv hm ho (mcastTiles_linked hl) hpl hres hc

/-- Settles O27: SPAWN by its checks in order. -/
theorem spawn : Obligations.Spawn := by
  intro b c any s hb hc hq hs h st
  have hrun := exec_spawn (any := any) hb hc hq
  refine ⟨fun h4 hr hl hi => ?_, fun h4 => ?_, fun h4 hr => ?_, fun h4 hr hst => ?_⟩
  · rw [hrun, checkHandler_ok h4 hr hl hi]; rfl
  · rw [hrun, checkHandler_misaligned h4]; rfl
  · rw [hrun, checkHandler_outside h4 hr]; rfl
  · rw [hrun, checkHandler_stamp h4 hr hst]; rfl

/-- Settles O28: END drained, END that waits, and END of the shadow context. -/
theorem endOfTask : Obligations.EndOfTask := by
  intro s hs
  have hrun := exec_end hs
  refine ⟨fun hsh hbad hd => ⟨?_, retire_endCur _⟩, fun hsh hbad hd => ?_, fun hsh => ?_⟩
  · rw [hrun, hsh, hbad, hd]; rfl
  · rw [hrun, hsh, hbad, if_neg Bool.false_ne_true]
    dsimp only
    rw [if_neg (by simpa using hd)]; rfl
  · rw [hrun, hsh]; rfl

/-- Settles O29: each task instruction by its equation. -/
theorem taskInstructions : Obligations.TaskInstructions := by
  intro a b c s ha hb hc
  refine ⟨fun hs h => ?_, fun hs y hh hy => ?_, ?_, fun hs => ?_, fun hs => ?_, fun n hw hn => ?_, fun hs => maskOp_eq _ ha hb hs.2.2,
    fun hs => maskOp_eq _ ha hb hs.2.2⟩
  · show finish (.ok (State.onCur (if s.cur.hvy then _ else match slotless s.rest with | none => _ | some t => _) _)) = _
    rcases h with h | h
    · rw [if_pos h]; rfl
    · rw [h]; split <;> rfl
  · show finish (.ok (State.onCur (if s.cur.hvy then _ else match slotless s.rest with | none => _ | some t => _) _)) = _
    rw [hh, if_neg Bool.false_ne_true, hy]
    simp only [beq_iff_eq]; rfl
  · intro ends bound
    refine ⟨?_, ?_⟩
    · intro hs m hbound
      have hrun : exec (.wait a b c) s = finish (waitGo a m (s.rw c != 0) false (s.paid .task)) := exec_wait_starts rfl ha hb hc hs hbound
      have hev : events (s.paid .task) m = events s m := rfl
      refine ⟨fun h => ?_, fun he hw => ?_⟩
      · rw [hrun, waitGo_holds (by rw [hev]; simpa using h), finish_waitEnd]; rfl
      · rw [hrun, waitGo_none (hev.trans he) (by simpa using hw)]; rfl
    · intro m timed gone hw
      refine ⟨fun h => ?_, fun he hm hg => ?_⟩
      · rw [exec_wait_again hw, waitGo_holds (.inl h), finish_waitEnd]; rfl
      · rw [exec_wait_again hw, waitGo_none he hm, if_pos hg, finish_waitEnd]; rfl
  · rw [completes_charge (s := s.onTile _) hs.2.2 .task _ fun _ => rfl]; rfl
  · rw [exec_sweepW ha, hs.2.1, chargeOnce_paid' hs.2.2]; rfl
  · rw [exec_sweepW ha, hw]
    dsimp only
    rw [if_pos hn]; rfl

/-- Settles O31: refused, to a core, taken up again, and by address. -/
theorem migrate : Obligations.Migrate := by
  intro b s hb hq core what
  refine ⟨fun hs hh hr => exec_migrate_refused hb hq hs hh hr true, fun hs hh hr hc => ?_, ?_, ?_, ?_⟩
  · rw [exec_migrate_core hb hq hs hh hr, hc]; rfl
  · intro hs hh hr hc hbad hpush p u
    have hid : u.core.id = s.core.id := published_id _ (s.paid .task)
    have hrun : exec (.migrate b true) s = finish (migrateGo s.cur.openSeg (some core) (s.cur.pc + 4) u) := by
      rw [exec_migrate_core hb hq hs hh hr, hc, if_pos rfl, migrateTo_start (s := s.paid .task) hs.2.1 hbad hpush]; rfl
    refine ⟨fun hack hwr he => ?_, fun hack hwr he hmay => ?_, fun hw => ?_⟩
    · rw [hrun, migrateGo_stays hack hwr (he.trans hid.symm)]; rfl
    · rw [hrun, migrateGo_leaves hack hwr (fun e => he (e.trans hid)) hmay]; rfl
    · rw [hrun, migrateGo_waits hw]; rfl
  · intro k n d hw hack hwr
    refine ⟨fun he => ?_, fun he hmay => ?_⟩
    · rw [exec_migrate_leaves hw, migrateGo_stays hack hwr he]; rfl
    · rw [exec_migrate_leaves hw, migrateGo_leaves hack hwr he hmay]; rfl
  · intro hs hh hr hrange pa e u ht hbad hpush hdest p v hack hwr
    have hcur := (translate_cur ht).1
    have hbad' : badPush (u.paid .task).cur = none := by show badPush u.cur = none; rw [hcur]; exact hbad
    have hpush' : sharedPushes (u.paid .task).cur = [] := by show sharedPushes u.cur = []; rw [hcur]; exact hpush
    have hwait : (u.paid .task).cur.wait = none := by show u.cur.wait = none; rw [hcur]; exact hs.2.1
    have hseg : (u.paid .task).cur.openSeg = s.cur.openSeg := by show u.cur.openSeg = _; rw [hcur]
    rw [exec_migrate_addr hb hq hs hh hr hrange ht, hdest, migrateTo_start hwait hbad' hpush', hseg]
    show finish (migrateGo s.cur.openSeg none (s.cur.pc + 4) v) = _
    rw [migrateGo_ready hack hwr]; rfl

end Settled

end Sys2Proof.Machine
end

section
/-! Stream and queue bindings, transfers and block instructions at issue (R272 to R281, R335, R336, R384 to R394): O32, O33, O34. -/

namespace Sys2Proof.Machine

/-! ### Streams -/

section Streams
variable {a b d : Fld} {tcm dr : Bool} {s u : State} {bs : List Byte} {st : Stream}

/-- R272: SBIND after its descriptor is read. -/
theorem exec_sbind (hb : wBusy s.cur b = false) (hr : readBlock (s.rw b) 32 3 s = .ok (bs, u)) : exec (.sbind a b tcm) s = finish (
    if (strmOf u.cur a).isSome then strmTrap 0x01 a u
    else if patMalformed bs (patternOf bs) then strmTrap 0x02 a u
    else if patAligned (patternOf bs) then .ok (advance (setHvy ((charge .strm u).onCur (setStrm a
      (some { pat := patternOf bs, tcm := tcm, pos := 0, fetched := [], pushed := [], bad := none })))))
    else trapR cALIGN (BitVec.ofNat 64 (patternOf bs).base) u) := by
  show finish (sbind a b tcm s) = _
  unfold sbind
  rw [needRegs1 hb]
  dsimp only
  rw [hr]
  dsimp only
  cases patAligned (patternOf bs) <;> rfl

theorem drained_clear (h : st.bad = none) (hd : strmUndrained s.cur a st = false) : drained a st s = .ok () := by
  unfold drained; rw [h, hd]; rfl

theorem drained_waits (h : st.bad = none) (hd : strmUndrained s.cur a st = true) :
    drained a st s = .error (.wait .waitMem (.drain [a]) s) := by
  unfold drained; rw [h, hd]; rfl

theorem exec_sunbind (hst : strmOf s.cur a = some st) (hp : s.cur.paid = false) : exec (.sunbind a) s =
    finish ((drained a st (s.paid .strm)).bind fun _ => .ok (advance ((s.paid .strm).onCur (setStrm a none)))) := by
  show finish (sunbind a s) = _
  unfold sunbind
  rw [hst]
  dsimp only
  rw [chargeOnce_paid' hp]
  cases drained a st (s.paid .strm) <;> rfl

theorem strm_clear {t : Task} (h : st.pat.out = false ∨ (st.pushed = [] ∧ wBusy t a = false)) : strmUndrained t a st = false := by
  rw [← Bool.not_eq_true, strmUndrained_iff]
  rintro ⟨ho, hw⟩
  rcases h with h | ⟨hpu, hbusy⟩
  · exact Bool.false_ne_true (h.symm.trans ho)
  · exact hw.elim (· hpu) fun hw => Bool.false_ne_true (hbusy.symm.trans hw)

end Streams

/-! ### Queues -/

section Queues
variable {a b : Fld} {s : State}

/-- R275, R336: the bindings that QBIND refuses. -/
def State.qbindBad (s : State) (a : Fld) (x : Word) : Prop :=
  (queueOf s.cur a).isSome = true ∨ qbindMalformed x = true ∨ (x.getLsbD 62 = true ∧ x.getLsbD 63 = true) ∨
    (x.getLsbD 62 = true ∧ ∃ t ∈ s.tasks, ∃ q, some q ∈ t.qs.toList ∧ q.cls = some (x.extractLsb' 0 4))

/-- R275: the queue register bound. -/
def State.qbound (s : State) (a : Fld) (x : Word) (cls : Option (BitVec 4)) : State := (charge .strm s).onCur fun t => { t with
  qs := t.qs.setIfInBounds (a.toNat - 26) (some { outb := x.getLsbD 63, cls := cls, ch := x.extractLsb' 16 3,
                                                   peer := x.extractLsb' 0 13, words := [], credits := 8 }),
  hvy := true }

theorem qbindBad_iff {x : Word} : s.qbindBad a x ↔ ((queueOf s.cur a).isSome || qbindMalformed x) = true ∨
    (x.getLsbD 62 && x.getLsbD 63) = true ∨ (x.getLsbD 62 && clsBound s (x.extractLsb' 0 4)) = true := by
  simp only [Bool.or_eq_true, Bool.and_eq_true, clsBound_iff, State.qbindBad, or_assoc]

theorem exec_qbind_bad (hb : wBusy s.cur b = false) (h : s.qbindBad a (s.rw b)) :
    exec (.qbind a b) s = .next (takeTrap 0x05 0 false (a.setWidth 64) s) := by
  show finish (qbind a b s) = _
  unfold qbind
  rw [needRegs1 hb]
  dsimp only
  by_cases h1 : ((queueOf s.cur a).isSome || qbindMalformed (s.rw b)) = true
  · rw [if_pos h1]; rfl
  · by_cases h2 : ((s.rw b).getLsbD 62 && (s.rw b).getLsbD 63) = true
    · rw [if_neg h1, if_pos h2]; rfl
    · rw [if_neg h1, if_neg h2, if_pos (((qbindBad_iff.mp h).resolve_left h1).resolve_left h2)]; rfl

/-- R275, R335, R336: a binding that QBIND takes: to a class, outbound, or inbound, which drops the words of another peer. -/
theorem exec_qbind (hb : wBusy s.cur b = false) (h : ¬ s.qbindBad a (s.rw b)) : exec (.qbind a b) s =
    if (!(s.rw b).getLsbD 62 && !inPartition s (tileOf ((s.rw b).extractLsb' 0 13))) then .next (takeTrap 0x04 0 false (s.rw b) s)
    else
      let u := s.qbound a (s.rw b) (if (s.rw b).getLsbD 62 then some ((s.rw b).extractLsb' 0 4) else none)
      .next (if (s.rw b).getLsbD 63 || (s.rw b).getLsbD 62 then u
        else dropWrong ((s.rw b).extractLsb' 16 3) ((s.rw b).extractLsb' 0 13) u).retired := by
  rw [qbindBad_iff] at h
  obtain ⟨h1, h2, h3⟩ := not_or.mp h |>.imp id not_or.mp
  show finish (qbind a b s) = _
  unfold qbind
  rw [needRegs1 hb]
  dsimp only
  rw [if_neg h1, if_neg h2, if_neg h3]
  split <;> rfl

theorem exec_qunbind {q : QBind} (hq : queueOf s.cur a = some q) (hp : s.cur.paid = false) : exec (.qunbind a) s = finish (
    if queueUndrained s.cur a q then .error (.wait .waitMem (.drain [a]) (s.paid .strm))
    else .ok (advance ((dropBinding q (s.paid .strm)).onCur (setQueue a none)))) := by
  show finish (qunbind a s) = _
  unfold qunbind
  rw [hq]
  dsimp only
  rw [chargeOnce_paid' hp]; rfl

end Queues

/-! ### Transfers -/

section Transfers
variable {a b : Fld} {s u : State} {bs : List Byte}

/-- R278: the shapes of a copy's two patterns agree. -/
def copyFits (src dst : Pattern) (scl : Bool) : Prop := src.sz = dst.sz ∧ src.len = dst.len ∧ (scl = true → src.sz = 3 ∧ src.len % 256 = 0)

theorem copyFits_iff {src dst : Pattern} {scl : Bool} : ¬ copyFits src dst scl ↔
    (src.sz != dst.sz || src.len != dst.len || (scl && (src.sz != 3 || src.len % 256 != 0))) = true := by
  unfold copyFits
  cases scl <;> simp [imp_iff_not_or, or_assoc]

section CopyOp
variable {x : Word} (hbad : (patMalformed (bs.take 96) (patternOf (bs.take 96)) ||
  patMalformed ((bs.drop 96).take 96) (patternOf ((bs.drop 96).take 96))) = false)
include hbad

theorem copyOp_unfit (h : ¬ copyFits (patternOf (bs.take 96)) (patternOf ((bs.drop 96).take 96)) ((wordIn bs 192).getLsbD 2)) :
    copyOp x bs s = trapD cACCESS 0x11 x s := by
  unfold copyOp
  dsimp only
  rw [if_neg (ne_true_of_eq_false hbad), if_pos (copyFits_iff.mp h)]

variable (hfits : copyFits (patternOf (bs.take 96)) (patternOf ((bs.drop 96).take 96)) ((wordIn bs 192).getLsbD 2))
include hfits

theorem copyOp_misaligned (h : patAligned (patternOf (bs.take 96)) = false ∨ patAligned (patternOf ((bs.drop 96).take 96)) = false) :
    copyOp x bs s = trapR cALIGN x s := by
  unfold copyOp
  dsimp only
  rw [if_neg (ne_true_of_eq_false hbad), if_neg (fun g => copyFits_iff.mpr g hfits), if_pos (by simpa using h)]

theorem copyOp_ok (h1 : patAligned (patternOf (bs.take 96)) = true) (h2 : patAligned (patternOf ((bs.drop 96).take 96)) = true) :
    copyOp x bs s = .ok (.copy (patternOf (bs.take 96)) (patternOf ((bs.drop 96).take 96)) ((wordIn bs 192).getLsbD 3)
      ((wordIn bs 192).getLsbD 4) ((wordIn bs 192).getLsbD 2) (wordIn bs 216) (wordIn bs 224)) := by
  unfold copyOp
  dsimp only
  rw [if_neg (ne_true_of_eq_false hbad), if_neg (fun g => copyFits_iff.mpr g hfits), if_neg (by simp [h1, h2])]

end CopyOp

theorem exec_copy (hb : wBusy s.cur b = false) (hr : readBlock (s.rw b) 64 8 s = .ok (bs, u)) : exec (.copy b) s =
    finish ((copyOp (s.rw b) bs u).bind fun k => issueXfer (.copy b) k bs (chargeOnce .xfer u)) := by
  show finish (copyI b s) = _
  unfold copyI
  rw [needRegs1 hb]
  dsimp only
  rw [hr]
  dsimp only
  cases copyOp (s.rw b) bs u <;> rfl

theorem exec_sgrun (hb : wBusy s.cur b = false) (hr : readBlock (s.rw b) 64 8 s = .ok (bs, u)) : exec (.sgrun b) s = finish (
    if (wordIn bs 0).toNat % 64 = 0 then issueXfer (.sgrun b) (.chain (wordIn bs 0).toNat) bs (chargeOnce .xfer u)
    else trapR cALIGN (s.rw b) u) := by
  show finish (sgrun b s) = _
  unfold sgrun
  rw [needRegs1 hb]
  dsimp only
  rw [hr]
  by_cases h : (wordIn bs 0).toNat % 64 = 0 <;> simp [h]

/-- R278: an operation of a transfer queue, issued. -/
theorem finish_issue {i : Instr} {k : EngKind} (hp : u.cur.paid = false) (hc : u.cur.partCtr + 1 < 2 ^ 32 - 1) :
    finish (issueXfer i k bs (chargeOnce .xfer u)) =
      .next ((u.paid .xfer).escaped.queuedOp (pbQueue bs) k (pbXid bs) (pbHandler bs) (hashedBlock i bs)).retired := by
  rw [chargeOnce_paid' hp, issue_ok (s := u.paid .xfer) hc]; rfl

/-- R281: the state of the task's operations in a queue. -/
theorem xstatWord_eq (s : State) (q : Nat) :
    xstatWord s q = if q < 4 ∨ q = 10 then
      BitVec.ofNat 64 ((((s.core.eng[q]?).getD []).filter fun o => sameTask s.cur o.tid o.origin).length % 2 ^ 16 * 2 ^ 32 +
        (match ((s.core.eng[q]?).getD []).head? with
          | none => 0 | some o => if sameTask s.cur o.tid o.origin then o.moved else 0) % 2 ^ 32)
      else 0 := by
  unfold xstatWord
  dsimp only
  rw [append32]
  simp only [Bool.or_eq_true, decide_eq_true_eq, beq_iff_eq]
  cases (s.core.eng[q]?).getD [] <;> rfl

theorem exec_xstat {d : Bool} (hb : wBusy s.cur b = false) (ht : takeS [] [a] s = .ok ([], u)) : exec (.xstat a b d) s =
    .next ((charge .xfer s).onCur (Task.put a (if d then (if s.cur.xferid = 0 then 0 else s.cur.xstatus)
      else xstatWord s ((s.rw b).toNat % 16)))).retired := by
  have hregs : needRegs (if d then [] else [b]) s = .ok () := by
    cases d
    · exact needRegs1 hb
    · rfl
  show finish (xstat a b d s) = _
  unfold xstat
  rw [hregs]
  dsimp only
  rw [ht]
  dsimp only
  rw [writeS_put]; rfl

/-- R280: where a completion handler returns to, as a trap names it. -/
theorem uepc_word (p : BitVec 54) : ((p ++ 0#2 : BitVec 56).toNat : Word) = BitVec.ofNat 64 (p.toNat * 4) := by
  rw [app_toNat]; rfl

end Transfers

/-! ### Blocks -/

/-- R388 to R390: the instructions that wait for the answer of their entry step. -/
theorem exec_block_answered {a b : Fld} {s : State} (ha : wBusy s.cur a = false) (hb : wBusy s.cur b = false) {i : Instr}
    (hi : i ∈ [Instr.blkref a b, .blkrefNew a b, .blkfree a b, .blkcow a b]) {r : Option Word} {p : Option PendTrap}
    (hw : s.cur.wait = some (.block r p)) : exec i s = finish (blockAnswer a r p s) := by
  have hf : ∃ f, exec i s = finish (blockSync a b f s) := by
    simp only [List.mem_cons, List.not_mem_nil, or_false] at hi
    obtain rfl | rfl | rfl | rfl := hi <;> exact ⟨_, rfl⟩
  obtain ⟨f, hf⟩ := hf
  rw [hf, blockSync_answer ha hb hw]

/-- R389: BLKREF.new checks its tier. -/
theorem exec_blkrefNew {a b : Fld} {s : State} (ha : wBusy s.cur a = false) (hb : wBusy s.cur b = false) (hw : s.cur.wait = none) :
    exec (.blkrefNew a b) s = finish (if 1 < (s.rw b).toNat then trapD cBLOCK 0x07 (s.rw b) s
      else blockIssue (.blkrefNew a b) (s.rw b) (.blkrefNew (s.rw b)) s) := by
  show finish (blockSync a b (fun t s => if t > 1 then _ else _) s) = _
  rw [blockSync_first ha hb hw]
  rfl

theorem exec_blkcow {a b : Fld} {s : State} (ha : wBusy s.cur a = false) (hb : wBusy s.cur b = false) (hw : s.cur.wait = none) :
    exec (.blkcow a b) s = finish (blkcow (.blkcow a b) (s.rw b) s) := by
  show finish (blockSync a b (blkcow (.blkcow a b)) s) = _
  rw [blockSync_first ha hb hw]

/-- R391: the fields of a move's descriptor, as the instruction checks them. -/
theorem blkmove_fields (w1 w2 : Word) :
    let off := w1.toNat % 2 ^ 16
    let ta := w1.toNat / 2 ^ 32
    let len := w2.toNat % 2 ^ 32
    let sa := w2.toNat / 2 ^ 32
    let fits : Prop := w1.toNat / 2 ^ 16 % 2 ^ 16 = 0 ∧ off % 64 = 0 ∧ len % 64 = 0 ∧ 0 < len ∧ off + len ≤ 65536 ∧ ta + len ≤ 131072 ∧
      sa + 8 ≤ 131072
    let off' := (w1.extractLsb' 0 16).toNat
    let ta' := (w1.extractLsb' 32 17).toNat
    let len' := (w2.extractLsb' 0 17).toNat
    let sa' := (w2.extractLsb' 32 17).toNat
    let bad := w1.extractLsb' 16 16 != 0 || w1.extractLsb' 49 15 != 0 || w2.extractLsb' 17 15 != 0 || w2.extractLsb' 49 15 != 0 ||
      off' % 64 != 0 || len' % 64 != 0 || len' == 0 || decide (off' + len' > 65536) || decide (ta' + len' > 131072) ||
      decide (sa' + 8 > 131072)
    ((ta' % 64 != 0 || sa' % 8 != 0) = true ↔ ta % 64 ≠ 0 ∨ sa % 8 ≠ 0) ∧ (bad = true ↔ ¬ fits) ∧
      (fits → off' = off ∧ ta' = ta ∧ len' = len ∧ sa' = sa) := by
  have hne {k : Nat} (x : BitVec k) : (x != 0) = true ↔ x.toNat ≠ 0 := by
    rw [bne_iff_ne, ne_eq, ← BitVec.toNat_inj]; rfl
  have h1 := w1.isLt
  have h2 := w2.isLt
  simp only [Bool.or_eq_true, hne, ext_toNat, bne_iff_ne, beq_iff_eq, decide_eq_true_eq, Nat.reducePow, Nat.div_one]
  generalize w1.toNat = x at h1 ⊢
  generalize w2.toNat = y at h2 ⊢
  have hsplit (z : Nat) : z / 562949953421312 = z / 4294967296 / 131072 := (Nat.div_div_eq_div_mul z 4294967296 131072).symm
  have hlow : y % 4294967296 = y % 131072 + 131072 * (y / 131072 % 32768) := by omega
  have hx : x / 4294967296 < 4294967296 := by omega
  have hy : y / 4294967296 < 4294967296 := by omega
  rw [hsplit x, hsplit y, hlow]
  generalize x / 4294967296 = x2 at hx ⊢
  generalize y / 4294967296 = y2 at hy ⊢
  generalize x / 65536 % 65536 = x1
  generalize x % 65536 = x0
  generalize y / 131072 % 32768 = y1
  generalize y % 131072 = y0
  refine ⟨by omega, by omega, ?_⟩
  rintro ⟨-, -, -, hlen, hend, hta, hsa⟩
  have hy1 : y1 = 0 := by omega
  subst hy1
  exact ⟨trivial, by omega, by omega, by omega⟩

section Move
variable {b : Fld} {s : State} {ws : List Word} (hb : wBusy s.cur b = false) (h32 : (s.rw b).toNat % 32 = 0)
  (hr : (s.rw b).toNat + 32 ≤ 131072) (hws : readWords s (s.rw b).toNat 3 = .ok ws)
include hb h32 hr hws

/-- R391: a move's descriptor read: its alignment, its other fields, and its operation. -/
theorem exec_blkmove (get : Bool) : 
    let w1 := (wordsAt ws 1).toNat
    let w2 := (wordsAt ws 2).toNat
    let off := w1 % 2 ^ 16
    let ta := w1 / 2 ^ 32
    let len := w2 % 2 ^ 32
    let sa := w2 / 2 ^ 32
    let fits : Prop := w1 / 2 ^ 16 % 2 ^ 16 = 0 ∧ off % 64 = 0 ∧ len % 64 = 0 ∧ 0 < len ∧ off + len ≤ 65536 ∧ ta + len ≤ 131072 ∧
      sa + 8 ≤ 131072
    ((ta % 64 ≠ 0 ∨ sa % 8 ≠ 0) → blkmove get b s = trapR cALIGN (s.rw b) s) ∧
    (ta % 64 = 0 → sa % 8 = 0 → ¬ fits → blkmove get b s = trapR cACCESS (s.rw b) s) ∧
    (ta % 64 = 0 → sa % 8 = 0 → fits → (get = true → storeRefused112 s s.cur.priv ta len = false ∧ storeRefused112 s s.cur.priv sa 8 = false) →
      blkmove get b s = blockAsync (if get then .get (wordsAt ws 0) off ta len sa else .put (wordsAt ws 0) off ta len sa) (!get)
        (hashedBlock (if get then .blkmoveGet b else .blkmovePut b) (wordBytes ws)) s) := by
  intro w1 w2 off ta len sa fits
  obtain ⟨halign, hbad, hsame⟩ := blkmove_fields (wordsAt ws 1) (wordsAt ws 2)
  refine ⟨fun h => ?_, fun h1 h2 h => ?_, fun h1 h2 h hget => ?_⟩
  all_goals
    unfold blkmove
    rw [needRegs1 hb]
    dsimp only
    rw [if_neg (by simpa using h32), if_neg (Nat.not_lt.mpr hr), hws]
    dsimp only
  · rw [if_pos (halign.mpr h)]
  · rw [if_neg (fun e => (halign.mp e).elim (· h1) (· h2)), if_pos (hbad.mpr h)]
  · obtain ⟨e1, e2, e3, e4⟩ := hsame h
    rw [if_neg (fun e => (halign.mp e).elim (· h1) (· h2)), if_neg (fun e => hbad.mp e h), e1, e2, e3, e4]
    refine if_neg fun e => ?_
    cases get
    · exact Bool.false_ne_true e
    · obtain ⟨g1, g2⟩ := hget rfl
      rw [Bool.true_and, Bool.or_eq_true] at e
      exact e.elim (fun e => Bool.false_ne_true (g1.symm.trans e)) (fun e => Bool.false_ne_true (g2.symm.trans e))

end Move

/-- R394: the word of BLKSTAT. -/
theorem blkstatWord_eq (s : State) (x : Word) :
    let e := getEntry s (x.toNat % 2 ^ 32)
    blkstatWord s x = BitVec.ofNat 64 (e.gen.toNat * 2 ^ 40 + e.state.toNat * 2 ^ 38 + e.cow.toNat * 2 ^ 37 + e.tier.toNat * 2 ^ 36
      + (if e.gen.toNat = x.toNat / 2 ^ 32 % 2 ^ 24 then 0 else 2 ^ 35) + (if (oldCopy s (x.toNat % 2 ^ 32)).isSome then 2 ^ 34 else 0)
      + e.refcnt.toNat * 2 ^ 16 + e.drain.toNat) := by
  intro e
  have hindex : hIndex x = x.toNat % 2 ^ 32 := by unfold hIndex; rw [ext_toNat, Nat.pow_zero, Nat.div_one]
  have hgen : (e.gen != hGen x).toNat * 2 ^ 35 = if e.gen.toNat = x.toNat / 2 ^ 32 % 2 ^ 24 then 0 else 2 ^ 35 := by
    have hiff : e.gen = hGen x ↔ e.gen.toNat = x.toNat / 2 ^ 32 % 2 ^ 24 := by
      rw [← BitVec.toNat_inj]; unfold hGen; rw [ext_toNat]
    by_cases h : e.gen = hGen x
    · rw [if_pos (hiff.mp h), h, bne_self_eq_false]; rfl
    · rw [if_neg (fun g => h (hiff.mpr g)), show (e.gen != hGen x) = true from bne_iff_ne.mpr h]; rfl
  have hold : (oldCopy s (x.toNat % 2 ^ 32)).isSome.toNat * 2 ^ 34 = if (oldCopy s (x.toNat % 2 ^ 32)).isSome then 2 ^ 34 else 0 := by
    cases (oldCopy s (x.toNat % 2 ^ 32)).isSome <;> rfl
  unfold blkstatWord
  rw [hindex, blkstat_word, hgen, hold]

theorem hInRange_iff (s : State) (x : Word) :
    hInRange s x = true ↔ (s.vfReg s.core.vf).btbase ≠ 0 ∧ x.toNat % 2 ^ 32 < (s.vfReg s.core.vf).btcnt.toNat := by
  unfold hInRange hIndex
  rw [Bool.and_eq_true, bne_iff_ne, decide_eq_true_eq, ext_toNat, Nat.pow_zero, Nat.div_one]

theorem exec_blkstat {a b : Fld} {s : State} (ha : wBusy s.cur a = false) (hb : wBusy s.cur b = false) : exec (.blkstat a b) s = finish (
    if hInRange s (s.rw b) then .ok (advance ((charge .blk s).ww a (blkstatWord s (s.rw b))))
    else trapD cBLOCK 0x01 (s.rw b) (charge .blk s)) := by
  show finish (blkstat a b s) = _
  unfold blkstat
  rw [needRegs2 ha hb]
  dsimp only
  cases hInRange s (s.rw b) <;> rfl

namespace Settled

/-- Settles O32: each binding by its checks in order. -/
theorem streamInstructions : Obligations.StreamInstructions := by
  intro a b s hb
  refine ⟨?_, fun hn => ?_, ?_, ?_, ?_, fun hn => ?_, fun q hq hp h => ?_, fun q hq hp h => ⟨?_, fun ho hparts => ?_⟩⟩
  · intro tcm bs u hr p w0 bad aligned
    have hrun := exec_sbind (a := a) (tcm := tcm) hb hr
    have hbad : patMalformed bs p = true ↔ bad := patBad_iff bs p
    have hal : patAligned p = true ↔ aligned := patAl_iff p
    refine ⟨fun h => ?_, fun h hb => ?_, fun h hb ha => ?_, fun h hb ha => ?_⟩
    · rw [hrun, if_pos h]; rfl
    · rw [hrun, h, if_neg (by simp), if_pos (hbad.mpr hb)]; rfl
    · rw [hrun, h, if_neg (by simp), if_neg (hbad.not.mpr hb), if_neg (hal.not.mpr ha)]; rfl
    · rw [hrun, h, if_neg (by simp), if_neg (hbad.not.mpr hb), if_pos (hal.mpr ha)]; rfl
  · show finish (sunbind a s) = _
    unfold sunbind
    rw [hn]; rfl
  · intro st hst hbad hp u
    have hrun := exec_sunbind hst hp
    refine ⟨fun h => ?_, fun ho hw => ?_⟩
    · rw [hrun, drained_clear (s := s.paid .strm) hbad (strm_clear h)]
      unfold State.completes
      rw [chargeOnce_paid' hp]; rfl
    · rw [hrun, drained_waits (s := s.paid .strm) hbad (strmUndrained_iff.mpr ⟨ho, hw⟩)]; rfl
  · intro dr d st u ht hst hbad hp h
    have hdrain : (if dr then drained a st (s.paid .strm) else .ok ()) = .ok () := by
      cases dr with
      | false => rfl
      | true => exact drained_clear (s := s.paid .strm) hbad (strm_clear (h.resolve_left (by decide)))
    show finish (sstat d a dr s) = _
    unfold sstat
    rw [ht]
    dsimp only
    rw [hst]
    dsimp only
    rw [chargeOnce_paid' hp, hdrain]
    dsimp only
    unfold State.completes
    rw [writeS_put, sstat_eq, chargeOnce_paid' hp]; rfl
  · intro x ch peer bad bound
    have hnot (h : ¬ bad) := exec_qbind (a := a) hb h
    refine ⟨exec_qbind_bad hb, fun h hc => ?_, fun h hc hp => ?_, fun h hc hp ho => ?_, fun h hc hp ho => ?_⟩
    · rw [hnot h, hc]
      simp only [Bool.not_true, Bool.false_and, Bool.false_eq_true, if_false, Bool.or_true, if_true]; rfl
    · rw [hnot h, hc, hp]; rfl
    · rw [hnot h, hc, hp, ho]; rfl
    · rw [hnot h, hc, hp, ho]; rfl
  · show finish (qunbind a s) = _
    unfold qunbind
    rw [hn]; rfl
  · rw [exec_qunbind hq hp, if_pos (queueUndrained_iff.mpr h)]; rfl
  · rw [exec_qunbind hq hp, if_neg (queueUndrained_iff.not.mpr h)]; rfl
  · unfold dropBinding dropInbound
    rw [ho, hparts]; rfl

/-- Settles O33: COPY and SGRUN by their checks, then the status, cancellation and return. -/
theorem transferInstructions : Obligations.TransferInstructions := by
  intro a b s hb
  refine ⟨?_, ?_, ?_, fun hi => ?_, fun hi => ?_⟩
  · intro bs u hr hp hc word q issued src dst bad scl fits
    have hcopy := exec_copy hb hr
    have hsg := exec_sgrun hb hr
    refine ⟨fun h => ?_, fun h hf => ?_, fun h hf ha => ?_, fun h hf ha hd => ?_, fun h => ?_, fun h => ?_⟩
    · rw [hcopy]
      unfold copyOp
      dsimp only
      rw [if_pos h]; rfl
    · rw [hcopy, copyOp_unfit h hf]; rfl
    · rw [hcopy, copyOp_misaligned h hf ha]; rfl
    · rw [hcopy, copyOp_ok h hf ha hd]
      exact finish_issue hp hc
    · rw [hsg, if_neg (show ¬ (wordIn bs 0).toNat % 64 = 0 from h)]; rfl
    · rw [hsg, if_pos (show (wordIn bs 0).toNat % 64 = 0 from h)]
      exact finish_issue hp hc
  · intro u ht q mine ops moved
    refine ⟨exec_xstat hb ht, ?_⟩
    rw [exec_xstat hb ht, if_neg Bool.false_ne_true, xstatWord_eq] <;> rfl
  · refine ⟨s.core.eng.mapIdx fun q l => if q < 4 then cancelIn s.cur (s.rw b) l else l, ?_, fun q h => ?_⟩
    · show finish (xcancel b s) = _
      unfold xcancel
      rw [needRegs1 hb]; rfl
    · rw [Vector.getElem_mapIdx, cancel_eq]
  · show finish (uret s) = _
    unfold uret
    dsimp only
    rw [show (charge .xfer s).cur.inu = false from hi, uepc_word]; rfl
  · show finish (uret s) = _
    unfold uret
    dsimp only
    rw [show (charge .xfer s).cur.inu = true from hi]; rfl

/-- Settles O34: the synchronous instructions, the moves and BLKSTAT. -/
theorem blockInstructions : Obligations.BlockInstructions := by
  intro a b c s ha hb hc x sync waits
  refine ⟨?_, fun hs h => ?_, fun hs h => ?_, fun hs h8 h => ?_, fun i hi r hw => ?_, fun i hi r p hw => ?_, ?_, ?_, ?_⟩
  · intro hs hpart
    obtain ⟨-, hw, hp⟩ := hs
    refine ⟨?_, ?_, fun ht => ?_, fun pa e u h8 hr htr => ?_, ?_⟩
    · show finish (blockSync a b _ s) = _
      rw [blockSync_first ha hb hw]
      exact blockIssue_ok hpart hp
    · show finish (blockSync a b _ s) = _
      rw [blockSync_first ha hb hw]
      exact blockIssue_ok hpart hp
    · rw [exec_blkrefNew ha hb hw, if_neg (Nat.not_lt.mpr ht)]
      exact blockIssue_ok hpart hp
    · have hcur := translateAt_cur htr
      rw [exec_blkcow ha hb hw]
      unfold blkcow
      rw [if_neg (by simpa using h8), if_neg (Nat.not_le.mpr hr), htr]
      exact blockIssue_ok (by rw [hcur]; exact hpart) (by rw [hcur]; exact hp)
    · show finish (match needRegs [b, c] s with | .error e => .error e | .ok _ => _) = _
      rw [needRegs2 hb hc]
      exact (blockAsync_ok hpart hp).1
  · rw [exec_blkrefNew ha hb hs.2.1, if_pos h]; rfl
  · rw [exec_blkcow ha hb hs.2.1]
    unfold blkcow
    rw [if_pos (by simpa using h)]; rfl
  · rw [exec_blkcow ha hb hs.2.1]
    unfold blkcow
    rw [if_neg (by simpa using h8), if_pos h]; rfl
  · rw [exec_block_answered ha hb hi hw]; rfl
  · rw [exec_block_answered ha hb hi hw]; rfl
  · intro ws h32 hr hws hs hpart w1 w2 off ta len sa fits
    obtain ⟨hput1, hput2, hput3⟩ := exec_blkmove hb h32 hr hws false
    obtain ⟨-, -, hget⟩ := exec_blkmove hb h32 hr hws true
    refine ⟨fun h => congrArg finish (hput1 h), fun h1 h2 h => congrArg finish (hput2 h1 h2 h), fun h1 h2 h => ?_, fun h1 h2 h g1 g2 => ?_⟩
    · exact (congrArg finish (hput3 h1 h2 h (fun h => absurd h Bool.false_ne_true))).trans (blockAsync_ok hpart hs.2.2).1
    · exact (congrArg finish (hget h1 h2 h fun _ => ⟨g1, g2⟩)).trans (blockAsync_ok hpart hs.2.2).2
  · intro h
    rw [exec_blkstat ha hb, if_neg]
    · rfl
    · rw [hInRange_iff]
      rintro ⟨h1, h2⟩
      exact h.elim h1 (Nat.not_le.mpr h2)
  · intro h1 h2 e
    rw [exec_blkstat ha hb, if_pos ((hInRange_iff ..).mpr ⟨h1, h2⟩), blkstatWord_eq]; rfl

end Settled

end Sys2Proof.Machine
end

section
/-! The control registers (R92, R93, R114 to R116): an access over general registers, what it returns, writes and leaves, O35. -/

namespace Sys2Proof.Machine

/-- The state in which an access that writes has changed its register, before its destination is written. -/
def State.csrWritten (op : CsrOp) (n : BitVec 12) (v : Word) (s : State) : State := csrApply op n (csrRead n s) v (charge .csr s)

/-- An access that writes, complete: the old value in its destination. -/
def State.csrDone (op : CsrOp) (a : Fld) (n : BitVec 12) (v : Word) (s : State) : State :=
  ((s.csrWritten op n v).onCur fun t => t.setW (wIdx a) (csrRead n s)).retired

theorem csrWritten_keeps (op : CsrOp) (n : BitVec 12) (v : Word) (s : State) : CsrKeeps (charge .csr s) (s.csrWritten op n v) :=
  csrApply_keeps op n (csrRead n s) v (charge .csr s)

theorem setW_put {a : Fld} (ha : a < 16) (x : Word) : Task.put a x = fun t => t.setW (wIdx a) x :=
  funext fun t => put_w ha x t

theorem takeS_csr {op : CsrOp} {a b : Fld} {s : State} (ha : a < 16) (hb : b < 16) (wa : wBusy s.cur a = false) (wb : wBusy s.cur b = false) :
    takeS (if op = .read then [] else [b]) [a] s = .ok (if op = .read then [] else [s.rw b], s) := by
  split
  · exact takeS_w [] [a] (by simpa using ha) (by simpa using wa)
  · exact takeS_w [b] [a] (by simpa using ⟨ha, hb⟩) (by simpa using ⟨wa, wb⟩)

theorem exec_csr_reads {op : CsrOp} {a b : Fld} {n : BitVec 12} {s : State} (h : csrAllowed op n a b s.cur.priv = true)
    (hm : csrMatrix n = false ∨ ∀ c ∈ s.core.mx.queue, c.started = true) (ha : a < 16) (hb : b < 16) (wa : wBusy s.cur a = false)
    (wb : wBusy s.cur b = false) (hw : csrWrites op b = false) : exec (csrInstr op a b n) s = .next (s.wrote .csr a (csrRead n s)) := by
  rw [csr_ok h hm (takeS_csr ha hb wa wb), hw, if_neg Bool.false_ne_true]
  unfold State.wrote
  rw [writeS_put]
  rfl

theorem exec_csr_writes {op : CsrOp} {a b : Fld} {n : BitVec 12} {s : State} (h : csrAllowed op n a b s.cur.priv = true)
    (hm : csrMatrix n = false ∨ ∀ c ∈ s.core.mx.queue, c.started = true) (ha : a < 16) (hb : b < 16) (wa : wBusy s.cur a = false)
    (wb : wBusy s.cur b = false) (hw : csrWrites op b = true) : exec (csrInstr op a b n) s = .next (s.csrDone op a n (s.rw b)) := by
  have hop : op ≠ .read := by rintro rfl; cases hw
  rw [csr_ok h hm (takeS_csr ha hb wa wb), if_pos hw, setW_put ha, if_neg hop]
  rfl

theorem setW_retired_cur {v : State} (k : BitVec 4) (x : Word) (hv : v.issues) : (v.onCur fun t => t.setW k x).retired.cur =
    { v.cur.setW k x with pc := v.cur.pc + 4, st := .running, wait := none, brkSkip := false, pcmSkip := false, paid := false, trapTaken := false } := by
  obtain ⟨h1, h2⟩ := hv
  have e : (advance (v.onCur fun t => t.setW k x)).cur = { v.cur.setW k x with pc := v.cur.pc + 4 } := by
    show { v.cur.setW k x with pc := (v.cur.setW k x).pc + 4 } = _
    unfold Task.setW; split <;> rfl
  have g1 : (v.cur.setW k x).st = v.cur.st := by unfold Task.setW; split <;> rfl
  have g2 : (v.cur.setW k x).wait = v.cur.wait := by unfold Task.setW; split <;> rfl
  unfold State.retired
  rw [retire_cur_running, e]
  · rw [e]; show (v.cur.setW k x).st ≠ _; rw [g1, h1]; decide
  · rw [e]; show (v.cur.setW k x).wait ≠ _; rw [g2]; exact h2

section
variable {op : CsrOp} {a b : Fld} {n : BitVec 12} {v : Word} {s : State}

theorem csrWritten_issues (hs : s.issues) : (s.csrWritten op n v).issues :=
  have k := csrWritten_keeps op n v s
  ⟨k.st.trans hs.1, by rw [k.wait]; exact hs.2⟩

theorem csrDone_cur (hs : s.issues) : (s.csrDone op a n v).cur = { (s.csrWritten op n v).cur.setW (wIdx a) (csrRead n s) with
    pc := s.cur.pc + 4, st := .running, wait := none, brkSkip := false, pcmSkip := false, paid := false, trapTaken := false } := by
  unfold State.csrDone
  rw [setW_retired_cur _ _ (csrWritten_issues hs), (csrWritten_keeps op n v s).pc]
  rfl

theorem csrDone_getW (hs : s.issues) (k : BitVec 4) : (s.csrDone op a n v).getW k =
    ((s.csrWritten op n v).cur.setW (wIdx a) (csrRead n s)).getW k := by
  unfold State.getW
  rw [csrDone_cur hs]
  rfl

theorem csrWritten_getW (k : BitVec 4) : (s.csrWritten op n v).cur.getW k = s.cur.getW k := by
  unfold Task.getW
  rw [(csrWritten_keeps op n v s).w]
  rfl

theorem csrDone_getW_dst (hs : s.issues) : (s.csrDone op a n v).getW (wIdx a) = if wIdx a = 0 then 0 else csrRead n s := by
  rw [csrDone_getW hs]
  split
  · next h0 => rw [h0]; rfl
  · next h0 => exact Task.getW_setW_same _ _ _ h0

theorem csrDone_getW_other (hs : s.issues) (k : BitVec 4) (hk : k ≠ wIdx a) : (s.csrDone op a n v).getW k = s.getW k := by
  rw [csrDone_getW hs, Task.getW_setW_other _ _ _ _ hk, csrWritten_getW]
  rfl

/-- What the write left in the register is what is read once the access has completed. -/
theorem csrDone_read (hs : s.issues) : csrRead n (s.csrDone op a n v) =
    csrRead n (csrPut n (csrNew op (csrRead n s) v) v (op != .set) (charge .csr s)) := by
  rw [← csrRead_apply]
  apply csrRead_congr n
  · exact (congrArg Task.kept (csrDone_cur hs)).trans (setW_kept _ (wIdx a) (csrRead n s))
  · rfl
  · exact runs_kept _ _
  · rfl
  · rfl

theorem csrDone_charged : s.charged (s.csrDone op a n v) Charge.csr.nominal := by
  have h : (s.csrDone op a n v).tile.meter = (charge .csr s).tile.meter := (csrWritten_keeps op n v s).meter
  unfold State.charged
  rw [h]
  exact charge_charged .csr s

theorem csrDone_hvy (hs : s.issues) (h : csrHeavy n = true) : (s.csrDone op a n v).cur.hvy = true := by
  rw [csrDone_cur hs]
  show ((s.csrWritten op n v).cur.setW (wIdx a) (csrRead n s)).hvy = true
  have e : ∀ (t : Task) k x, (t.setW k x).hvy = t.hvy := by intro t k x; unfold Task.setW; split <;> rfl
  rw [e]
  exact csrApply_hvy h

theorem csrDone_fields (hs : s.issues) (f : Nat × Nat) (hf : f ∈ csrFields n.toNat) :
    (csrRead n (s.csrDone op a n v)).extractLsb' f.1 f.2 = (csrNew op (csrRead n s) v).extractLsb' f.1 f.2 := by
  rw [csrDone_read hs, put_fields n _ _ _ _ f hf]

end

namespace Settled

/-- Settles O35: a denied access traps; one over general registers returns the old value, and what a write leaves is read through the
register of the completed state. -/
theorem controlRegisters : Obligations.ControlRegisters := by
  intro op a b n s
  refine ⟨csr_denied, fun h hm vs u ht => csr_ok h hm ht, ?_⟩
  intro h hm ha hb wa wb hs v new writes
  have hnew : csrNew op (csrRead n s) v = new := by cases op <;> rfl
  cases hw : csrWrites op b with
  | false =>
    have no : ¬ writes := fun g => Bool.false_ne_true (hw.symm.trans ((csrWrites_iff op b).2 g))
    refine ⟨_, exec_csr_reads h hm ha hb wa wb hw, wrote_getW hs _ _ ha, wrote_pc hs _ _ ha, wrote_charged s _ _ _ ha,
      fun _ => wrote_frame hs _ _ _ ha, fun g => absurd g no, fun g => absurd g no, fun g => absurd g no, fun g => absurd g no,
      fun g => absurd g no⟩
  | true =>
    have yes : writes := (csrWrites_iff op b).1 hw
    have keeps := csrWritten_keeps op n v s
    refine ⟨_, exec_csr_writes h hm ha hb wa wb hw, csrDone_getW_dst hs, by rw [csrDone_cur hs], csrDone_charged,
      fun g => absurd yes g, fun _ => ⟨csrDone_getW_other hs, keeps.tcm, keeps.mem, congrArg (List.map unyield) keeps.rest⟩,
      fun _ f hf => ?_, ?_, ?_, fun _ => csrDone_hvy hs⟩
    · rw [csrDone_fields hs f hf, hnew]
    · rintro - rfl
      rw [csrDone_read hs, hnew]
      exact fmaxn_word new
    · rintro - rfl
      rw [csrDone_read hs]
      show csrRead 0x402 (if (op != .set) = true then (charge .csr s).onCur fun t => t.clearFstat v else charge .csr s) = _
      by_cases e : op = .set
      · rw [if_neg (by simpa using e), if_pos e]
        rfl
      · rw [if_pos (by simpa using e), if_neg e]
        exact fstat_clear s.cur v

end Settled

end Sys2Proof.Machine
end

section
/-! The service instructions and the debugger's (R89, R353, R356, R360, R379 to R382, R421): who may run them, HALT, TLBINV, EREAD, BREAK
and DBGMARK, O37. -/

namespace Sys2Proof.Machine

/-! ### Privilege (R89) -/

section
variable {i : Instr} {s : State}

theorem halt_denied {b : Fld} (h : s.cur.priv = 0) : halt i b s = .error (.trap 0x02 0 ((encode i).setWidth 64) s) := by
  unfold halt; rw [privCheck_no h]

theorem tlbinv_denied {fs : List Fld} {f : State → Res State} (h : s.cur.priv = 0) :
    tlbinv i fs f s = .error (.trap 0x02 0 ((encode i).setWidth 64) s) := by
  unfold tlbinv; rw [privCheck_no h]

theorem asidset_denied {a b : Fld} {c : Option Fld} (h : s.cur.priv = 0) :
    asidset i a b c s = .error (.trap 0x02 0 ((encode i).setWidth 64) s) := by
  unfold asidset; rw [privCheck_no h]

theorem swapwp_denied {a b : Fld} (h : s.cur.priv = 0) : swapwp i a b s = .error (.trap 0x02 0 ((encode i).setWidth 64) s) := by
  unfold swapwp; rw [privCheck_no h]

theorem faultreply_denied {a b c : Fld} (h : s.cur.priv = 0) : faultreply i a b c s = .error (.trap 0x02 0 ((encode i).setWidth 64) s) := by
  unfold faultreply; rw [privCheck_no h]

theorem eread_denied {a b : Fld} (h : s.cur.priv = 0) : eread i a b s = .error (.trap 0x02 0 ((encode i).setWidth 64) s) := by
  unfold eread; rw [privCheck_no h]

end

/-- R89: the ten instructions that need service privilege. -/
theorem exec_service_denied {a b c : Fld} {s : State} (h : s.cur.priv = 0) : ∀ i ∈ [Instr.halt b, .tlbinvPage b c, .tlbinvAsid c, .tlbinvVf c,
    .tlbinvHarvest, .asidset a b, .asidsetNew a b c, .swapwp a b, .faultreply a b c, .eread a b],
    exec i s = .next (takeTrap 0x02 0 false ((encode i).setWidth 64) s) := by
  simp only [List.forall_mem_cons, List.not_mem_nil, false_implies, implies_true, and_true]
  exact ⟨congrArg finish (halt_denied h), congrArg finish (tlbinv_denied h), congrArg finish (tlbinv_denied h), congrArg finish (tlbinv_denied h),
    congrArg finish (tlbinv_denied h), congrArg finish (asidset_denied h), congrArg finish (asidset_denied h), congrArg finish (swapwp_denied h),
    congrArg finish (faultreply_denied h), congrArg finish (eread_denied h)⟩

/-! ### BREAK and DBGMARK (R421) -/

/-- R421: what makes BREAK stop its task. -/
theorem brk_stops_iff {s : State} : (brkEn s && !brkTask s && matchesDbg (s.vfReg s.core.vf) s.cur && !s.cur.shadow) = true ↔
    brkEn s = true ∧ brkTask s = false ∧ matchesDbg (s.vfReg s.core.vf) s.cur = true ∧ s.cur.shadow = false := by
  simp [and_assoc]

theorem exec_brk_stops {s : State} (c : BitVec 15) (h : brkEn s = true ∧ brkTask s = false ∧ matchesDbg (s.vfReg s.core.vf) s.cur = true ∧
    s.cur.shadow = false) : exec (.brk c) s = .next (retire (stopTask false (charge .sys s))) := by
  show finish (if _ then _ else _) = _
  rw [if_pos (brk_stops_iff.2 h)]
  rfl

theorem exec_brk_traps {s : State} (c : BitVec 15) (h : ¬ (brkEn s = true ∧ brkTask s = false ∧ matchesDbg (s.vfReg s.core.vf) s.cur = true ∧
    s.cur.shadow = false)) : exec (.brk c) s = .next (takeTrap 0x17 0 false (BitVec.ofNat 64 s.cur.pc.toNat) (charge .sys s)) := by
  show finish (if _ then _ else _) = _
  rw [if_neg fun g => h (brk_stops_iff.1 g), pcW_eq]
  rfl

theorem exec_dbgmark {b : Fld} {s : State} (hb : wBusy s.cur b = false) : exec (.dbgmark b) s =
    .next (slog s.cur.tid (ctxNum s.cur) 14 ((s.rw b).extractLsb' 0 32) (charge .sys s)).retired := by
  show finish (match needRegs [b] s with | .error e => .error e | .ok _ => _) = _
  rw [needRegs1 hb]
  rfl

theorem slog_off {s : State} (h : scLog s = false) (tid : Word) (ctx : BitVec 3) (state : BitVec 4) (value : BitVec 32) :
    slog tid ctx state value s = s := by
  unfold slog
  rw [h]
  rfl

/-! ### HALT (R380) -/

theorem exec_halt_foreign {b : Fld} {s : State} (hb : wBusy s.cur b = false) (hp : s.cur.priv ≠ 0)
    (h : (s.rw b).extractLsb' 0 6 = 0 ∨ (s.core.vf ≠ 0 ∧ (s.rw b).extractLsb' 0 6 ≠ s.core.vf)) :
    exec (.halt b) s = .next (takeTrap 0x02 0 false ((encode (.halt b)).setWidth 64) s) := by
  show finish (halt (.halt b) b s) = _
  unfold halt
  rw [privCheck_ok hp, needRegs1 hb]
  dsimp only
  rw [if_pos (halt_yes h)]
  rfl

theorem exec_halt {b : Fld} {s : State} (hb : wBusy s.cur b = false) (hp : s.cur.priv ≠ 0) (h0 : (s.rw b).extractLsb' 0 6 ≠ 0)
    (hv : s.core.vf = 0 ∨ (s.rw b).extractLsb' 0 6 = s.core.vf) : exec (.halt b) s = .next (if (s.vfReg ((s.rw b).extractLsb' 0 6)).cause = 0 then
      stopVf ((s.rw b).extractLsb' 0 6) 2 ((charge .sys s).setVf ((s.rw b).extractLsb' 0 6)
        { s.vfReg ((s.rw b).extractLsb' 0 6) with code := (s.rw b).extractLsb' 16 16 })
      else charge .sys s).retired := by
  show finish (halt (.halt b) b s) = _
  unfold halt
  rw [privCheck_ok hp, needRegs1 hb]
  dsimp only
  rw [if_neg (halt_no h0 hv)]
  rfl

/-! ### EREAD (R382) -/

theorem ereadWord_eq (v : BitVec 6) (x : Word) (s : State) : ereadWord v (x.extractLsb' 8 2) s =
    if x.toNat / 256 % 4 = 0 then (s.vfReg v).ecnt else if x.toNat / 256 % 4 = 1 then (s.vfReg v).equota
    else if x.toNat / 256 % 4 = 2 then estatWord (s.vfReg v) else BitVec.ofNat 64 (tabGet s.tile.meter 0 v.toNat) := by
  have hx : (x.extractLsb' 8 2).toNat = x.toNat / 256 % 4 := ext_toNat x 8 2
  unfold ereadWord
  rw [hx]
  split
  · next h => rw [if_pos h]
  · next h => rw [if_neg (by omega), if_pos h]
  · next h => rw [if_neg (by omega), if_neg (by omega), if_pos h]
  · next h0 h1 h2 => rw [if_neg h0, if_neg h1, if_neg h2]

theorem exec_eread_own {a b : Fld} {s : State} (ha : wBusy s.cur a = false) (hb : wBusy s.cur b = false) (hp : s.cur.priv ≠ 0)
    (hv : s.core.vf = 0 ∨ (s.rw b).extractLsb' 0 6 = s.core.vf) : exec (.eread a b) s = .next (((charge .sys s).onCur fun t =>
      t.setW (wIdx a) (ereadWord ((s.rw b).extractLsb' 0 6) ((s.rw b).extractLsb' 8 2) (charge .sys s))).retired) := by
  show finish (eread (.eread a b) a b s) = _
  unfold eread
  rw [privCheck_ok hp, needRegs2 ha hb]
  dsimp only
  rw [own_vf hv]
  rfl

theorem exec_eread_foreign {a b : Fld} {s : State} (ha : wBusy s.cur a = false) (hb : wBusy s.cur b = false) (hp : s.cur.priv ≠ 0)
    (h : s.core.vf ≠ 0) (hv : (s.rw b).extractLsb' 0 6 ≠ s.core.vf) :
    exec (.eread a b) s = .next (takeTrap 0x02 0 false ((encode (.eread a b)).setWidth 64) s) := by
  show finish (eread (.eread a b) a b s) = _
  unfold eread
  rw [privCheck_ok hp, needRegs2 ha hb]
  dsimp only
  rw [other_vf h hv]
  rfl

/-! ### TLBINV (R358 to R361) -/

/-- TLBINV at its issue: its part is done, and it waits for the other clusters. -/
theorem tlbinv_issue {i : Instr} {fs : List Fld} {f : State → Res State} {s u : State} (p : Packet) (hp : s.cur.priv ≠ 0) (hw : s.cur.wait = none)
    (hn : needRegs fs s = .ok ()) (hf : f s = .ok (tellOthers p u)) :
    finish (tlbinv i fs f s) = .next (blockCur .waitMem (.translations 0) (charge .sys (tellOthers p u))) := by
  unfold tlbinv
  rw [privCheck_ok hp, hw, hn]
  dsimp only
  rw [hf]
  dsimp only
  unfold othersGo
  have waits : (charge .sys (tellOthers p u)).tile.dropsOut ≠ 0 := Nat.succ_ne_zero u.tile.dropsOut
  rw [if_neg waits]
  rfl

/-- TLBINV while it waits, and when the last answer has come. -/
theorem tlbinv_waiting {i : Instr} {fs : List Fld} {f : State → Res State} {s : State} {n : BitVec 16} (hp : s.cur.priv ≠ 0)
    (hw : s.cur.wait = some (.translations n)) :
    finish (tlbinv i fs f s) = .next (if s.tile.dropsOut = 0 then s.retired else blockCur .waitMem (.translations 0) s) := by
  unfold tlbinv
  rw [privCheck_ok hp, hw]
  dsimp only
  unfold othersGo
  split <;> rfl

theorem exec_tlbinv_waiting {b c : Fld} {s : State} {n : BitVec 16} (hp : s.cur.priv ≠ 0) (hw : s.cur.wait = some (.translations n)) :
    ∀ i ∈ [Instr.tlbinvPage b c, .tlbinvAsid b, .tlbinvVf b, .tlbinvHarvest],
      exec i s = .next (if s.tile.dropsOut = 0 then s.retired else blockCur .waitMem (.translations 0) s) := by
  simp only [List.forall_mem_cons, List.not_mem_nil, false_implies, implies_true, and_true]
  exact ⟨tlbinv_waiting hp hw, tlbinv_waiting hp hw, tlbinv_waiting hp hw, tlbinv_waiting hp hw⟩

theorem exec_tlbinvPage {b c : Fld} {s : State} (hp : s.cur.priv ≠ 0) (hw : s.cur.wait = none) (hb : wBusy s.cur b = false)
    (hc : wBusy s.cur c = false) : exec (.tlbinvPage b c) s = .next (blockCur .waitMem (.translations 0) (charge .sys (tellOthers
      (.tlbDrop s.core.vf (some ((s.rw c).extractLsb' 0 16)) (some ((s.rw b).toNat % 2 ^ 56)))
      (dropTlb (fun e => e.vf == s.core.vf && e.asid == (s.rw c).extractLsb' 0 16 && covers ((s.rw b).toNat % 2 ^ 56) e) s)))) :=
  tlbinv_issue _ hp hw (needRegs2 hb hc) rfl

theorem exec_tlbinvAsid {b : Fld} {s : State} (hp : s.cur.priv ≠ 0) (hw : s.cur.wait = none) (hb : wBusy s.cur b = false) :
    exec (.tlbinvAsid b) s = .next (blockCur .waitMem (.translations 0) (charge .sys (tellOthers
      (.tlbDrop s.core.vf (some ((s.rw b).extractLsb' 0 16)) none)
      (dropTlb (fun e => e.vf == s.core.vf && e.asid == (s.rw b).extractLsb' 0 16) s)))) :=
  tlbinv_issue _ hp hw (needRegs1 hb) rfl

theorem exec_tlbinvVf {b : Fld} {s : State} (hp : s.cur.priv ≠ 0) (hw : s.cur.wait = none) (hb : wBusy s.cur b = false)
    (hv : s.core.vf = 0 ∨ (s.rw b).extractLsb' 0 6 = s.core.vf) :
    exec (.tlbinvVf b) s = .next (blockCur .waitMem (.translations 0) (charge .sys (tellOthers
      (.tlbDrop ((s.rw b).extractLsb' 0 6) none none) (dropTlb (fun e => e.vf == (s.rw b).extractLsb' 0 6) s)))) := by
  refine tlbinv_issue _ hp hw (needRegs1 hb) ?_
  dsimp only
  rw [own_vf hv]
  rfl

theorem exec_tlbinvVf_foreign {b : Fld} {s : State} (hp : s.cur.priv ≠ 0) (hw : s.cur.wait = none) (hb : wBusy s.cur b = false)
    (h : s.core.vf ≠ 0) (hv : (s.rw b).extractLsb' 0 6 ≠ s.core.vf) :
    exec (.tlbinvVf b) s = .next (takeTrap 0x02 0 false ((encode (.tlbinvVf b)).setWidth 64) s) := by
  show finish (tlbinv _ _ _ s) = _
  unfold tlbinv
  rw [privCheck_ok hp, hw, needRegs1 hb]
  dsimp only
  rw [other_vf h hv]
  rfl

/-- R359: one record of the dirty log merged into its two leaf entries. -/
def merged (s : State) (pa : Nat) (h : HomeSt) : HomeSt := if noMemory s pa then h else setD pa h

theorem merged_out (s : State) (pa : Nat) (h : HomeSt) : (merged s pa h).out = h.out := by
  unfold merged setD
  split
  · rfl
  · split <;> rfl

theorem mergeDirty_out (s : State) (l : List (Nat × Nat)) : ∀ h : HomeSt,
    (l.foldl (fun h r => merged s r.2 (merged s r.1 h)) h).out = h.out := by
  induction l with
  | nil => exact fun h => rfl
  | cons r l ih => exact fun h => (ih _).trans ((merged_out s r.2 _).trans (merged_out s r.1 h))

theorem exec_tlbinvHarvest {s : State} (hp : s.cur.priv ≠ 0) (hw : s.cur.wait = none) :
    exec .tlbinvHarvest s = .next (blockCur .waitMem (.translations 0) (charge .sys (tellOthers (.harvest s.core.vf) (mergeDirty s)))) :=
  tlbinv_issue _ hp hw rfl rfl

theorem harvested_eq (s : State) : tellOthers (.harvest s.core.vf) (mergeDirty s) = { s with
    core := { s.core with dirty := [] }, tile := { s.tile with dropsOut := s.tile.dropsOut + 1 },
    home := { (s.core.dirty.foldl (fun h r => merged s r.2 (merged s r.1 h)) s.home) with out := s.home.out ++ [.harvest s.core.vf] } } := by
  rw [← mergeDirty_out s s.core.dirty s.home]
  rfl

theorem covers_eq (va : Nat) : covers va = fun e => decide (e.va ≤ va ∧ va < e.va + 2 ^ e.bits) :=
  funext fun _ => (Bool.decide_and ..).symm

namespace Settled

/-- Settles O37: the equation of each instruction, by the case of its row. -/
theorem systemInstructions : Obligations.SystemInstructions := by
  refine ⟨fun a b c s h => exec_service_denied h, ?_⟩
  intro a b c s ha hb hc v x done drop awaits merge
  refine ⟨exec_brk_stops, exec_brk_traps, fun h => ?_, fun h => exec_dbgmark hb, fun hp => ⟨exec_halt_foreign hb hp, ?_, ?_, ?_, ?_, ?_, ?_⟩⟩
  · rw [exec_dbgmark hb, slog_off (s := charge .sys s) h]
  · intro h0 hv hcause
    rw [exec_halt hb hp h0 hv, if_neg hcause]
  · intro h0 hv hcause
    rw [exec_halt hb hp h0 hv, if_pos hcause]
  · intro hw
    refine ⟨?_, exec_tlbinvAsid hp hw hb, exec_tlbinvVf hp hw hb, exec_tlbinvVf_foreign hp hw hb, ?_⟩
    · intro va
      rw [exec_tlbinvPage hp hw hb hc, covers_eq]
      rfl
    · rw [exec_tlbinvHarvest hp hw, harvested_eq]
      rfl
  · exact fun n hw => exec_tlbinv_waiting hp hw
  · intro hv
    rw [exec_eread_own ha hb hp hv, ereadWord_eq]
    rfl
  · exact exec_eread_foreign ha hb hp

end Settled

end Sys2Proof.Machine
end

section
/-! Address spaces, workspaces and fault replies (R352, R353, R356, R381): ASIDSET in its two forms, SWAPWP, FAULTREPLY, O38 to O40. -/

namespace Sys2Proof.Machine

/-! ### Binding an address space (R352) -/

theorem leaveAsid_ent (vf : BitVec 6) (j k : BitVec 16) (s : State) : (leaveAsid vf j s).asidEnt vf k =
    if k = j then { s.asidEnt vf j with count := (s.asidEnt vf j).count - 1 } else s.asidEnt vf k := by
  unfold leaveAsid
  split
  · next h => rw [h, setAsid_get]
  · next h => exact setAsid_other vf j k _ s h

theorem joinAsid_ent (vf : BitVec 6) (j k : BitVec 16) (s : State) : (joinAsid vf j s).asidEnt vf k =
    if k = j then { s.asidEnt vf j with count := (s.asidEnt vf j).count + 1 } else s.asidEnt vf k := by
  unfold joinAsid
  split
  · next h => rw [h, setAsid_get]
  · next h => exact setAsid_other vf j k _ s h

/-- What the table of address spaces holds once the core is bound to an identifier. -/
theorem bindAsid_ent (id k : BitVec 16) (s : State) : (bindAsid id s).asidEnt s.core.vf k =
    (joinAsid s.core.vf id (leaveAsid s.core.vf s.core.asid s)).asidEnt s.core.vf k := rfl

theorem bindAsid_gen (id : BitVec 16) (s : State) : (bindAsid id s).core.asidGen = (s.asidEnt s.core.vf id).gen := by
  show ((joinAsid s.core.vf id (leaveAsid s.core.vf s.core.asid s)).asidEnt s.core.vf id).gen = _
  rw [joinAsid_ent, if_pos rfl, leaveAsid_ent]
  split
  · next h => rw [h]
  · rfl

theorem bindAsid_counts {id : BitVec 16} {s : State} (h : id ≠ s.core.asid) :
    ((bindAsid id s).asidEnt s.core.vf id).count = (s.asidEnt s.core.vf id).count + 1 ∧
    ((bindAsid id s).asidEnt s.core.vf s.core.asid).count = (s.asidEnt s.core.vf s.core.asid).count - 1 := by
  rw [bindAsid_ent, bindAsid_ent, joinAsid_ent, joinAsid_ent, if_pos rfl, if_neg (Ne.symm h), leaveAsid_ent, leaveAsid_ent, if_pos rfl, if_neg h]
  exact ⟨rfl, rfl⟩

/-- R353: an address space renewed: at the wrap of its generation its entries and walks are dropped as well. -/
theorem renewAsid_ent (vf : BitVec 6) (id : BitVec 16) (root : Word) (s : State) : (renewAsid vf id root s).asidEnt vf id =
    { s.asidEnt vf id with root := root.extractLsb' 0 52, gen := (s.asidEnt vf id).gen + 1 } := by
  unfold renewAsid
  dsimp only
  split <;> exact setAsid_get ..

theorem renewAsid_next {vf : BitVec 6} {id : BitVec 16} {s : State} (root : Word) (h : (s.asidEnt vf id).gen ≠ 15) : renewAsid vf id root s =
    s.setAsid vf id { s.asidEnt vf id with root := root.extractLsb' 0 52, gen := (s.asidEnt vf id).gen + 1 } := by
  have next : (s.asidEnt vf id).gen + 1 ≠ 0 := fun e => h (by bv_omega)
  unfold renewAsid
  dsimp only
  rw [if_neg next]

/-! ### ASIDSET (R353) -/

section
variable {a b c : Fld} {s : State}

/-- The state in which ASIDSET has bound the core and completed. -/
def State.asidBound (s : State) (a : Fld) (id : BitVec 16) : State :=
  ((bindAsid id s).onCur fun t => t.setW (wIdx a) (BitVec.ofNat 64 (s.core.asidGen.toNat * 65536 + s.core.asid.toNat))).retired

theorem finish_asidBind (a : Fld) (id : BitVec 16) (s : State) (new : Bool) : finish (asidBind a id new s) =
    .next (if inFlight s = true ∨ (new = true ∧ s.tile.dropsOut ≠ 0) then blockCur .waitMem (.translations id) s else s.asidBound a id) := by
  split
  · next h => exact asidBind_waits h
  · next h =>
    rw [not_or, not_and, not_not, Bool.not_eq_true] at h
    exact asidBind_ok h.1 h.2

theorem exec_asidset (hp : s.cur.priv ≠ 0) (ha : wBusy s.cur a = false) (hb : wBusy s.cur b = false) (hs : s.starts) :
    exec (.asidset a b) s = finish (asidBind a ((s.rw b).extractLsb' 0 16) false (s.paid .sys)) := by
  show finish (asidset (.asidset a b) a b none s) = _
  unfold asidset
  rw [privCheck_ok hp]
  dsimp only
  rw [needRegs2 ha hb, hs.2.1, chargeOnce_paid' hs.2.2]

theorem exec_asidset_waiting {n : BitVec 16} (hp : s.cur.priv ≠ 0) (ha : wBusy s.cur a = false) (hb : wBusy s.cur b = false)
    (hw : s.cur.wait = some (.translations n)) : exec (.asidset a b) s = finish (asidBind a n false s) := by
  show finish (asidset (.asidset a b) a b none s) = _
  unfold asidset
  rw [privCheck_ok hp]
  dsimp only
  rw [needRegs2 ha hb, hw]
  rfl

theorem exec_asidsetNew_waiting {n : BitVec 16} (hp : s.cur.priv ≠ 0) (ha : wBusy s.cur a = false) (hb : wBusy s.cur b = false)
    (hc : wBusy s.cur c = false) (hw : s.cur.wait = some (.translations n)) :
    exec (.asidsetNew a b c) s = finish (asidBind a n true s) := by
  show finish (asidset (.asidsetNew a b c) a b (some c) s) = _
  unfold asidset
  rw [privCheck_ok hp]
  dsimp only
  rw [needRegs3 ha hb hc, hw]
  rfl

/-- R353: ASIDSET.new at its issue. -/
theorem exec_asidsetNew (hp : s.cur.priv ≠ 0) (ha : wBusy s.cur a = false) (hb : wBusy s.cur b = false) (hc : wBusy s.cur c = false)
    (hs : s.starts) : exec (.asidsetNew a b c) s = finish
      (if (s.rw c).toNat % 8192 ≠ 0 ∨ 2 ^ 52 ≤ (s.rw c).toNat then trapR cACCESS (s.rw c) s
       else if 0 < (s.asidEnt s.core.vf ((s.rw b).extractLsb' 0 16)).count ∧ (s.rw b).extractLsb' 0 16 ≠ s.core.asid then
         .ok (advance ((s.paid .sys).ww a (BitVec.ofNat 64 (2 ^ 63 + (s.asidEnt s.core.vf ((s.rw b).extractLsb' 0 16)).count))))
       else asidBind a ((s.rw b).extractLsb' 0 16) true (tellOthers (.asidRoot s.core.vf ((s.rw b).extractLsb' 0 16) (s.rw c))
         (renewAsid s.core.vf ((s.rw b).extractLsb' 0 16) (s.rw c) (s.paid .sys)))) := by
  show finish (asidset (.asidsetNew a b c) a b (some c) s) = _
  unfold asidset
  rw [privCheck_ok hp]
  dsimp only
  rw [needRegs3 ha hb hc, hs.2.1, chargeOnce_paid' hs.2.2]
  simp only [Bool.or_eq_true, bne_iff_ne, decide_eq_true_eq, Bool.and_eq_true, ge_iff_le, gt_iff_lt]

/-- R353: the other dies are told, so the first issue always waits. -/
theorem asidBind_told (id : BitVec 16) (p : Packet) (u : State) : finish (asidBind a id true (tellOthers p u)) =
    .next (blockCur .waitMem (.translations id) (tellOthers p u)) :=
  asidBind_waits (.inr ⟨rfl, Nat.succ_ne_zero u.tile.dropsOut⟩)

end

/-! ### SWAPWP (R381) -/

section
variable {a b : Fld} {s : State}

/-- R381: a workspace that lies in a carve-out, or that another task has. -/
def State.wsTaken (s : State) (n : Nat) : Prop :=
  (s.launch.live = true ∧ overlaps n 128 s.logBase (s.inboxEnd - s.logBase) = true) ∨ ∃ t ∈ s.rest, t.st ≠ .ended ∧ t.wp.toNat = n

theorem wsTaken_iff (n : Nat) : ((s.launch.live && overlaps n 128 s.logBase (s.inboxEnd - s.logBase))
    || s.rest.any (fun t => t.st != .ended && t.wp.toNat == n)) = true ↔ s.wsTaken n := by
  simp only [State.wsTaken, Bool.or_eq_true, Bool.and_eq_true, List.any_eq_true, bne_iff_ne, beq_iff_eq]

theorem exec_swapwp_misaligned (hf : ∀ f, wBusy s.cur f = false) (hp : s.cur.priv ≠ 0) (h : (s.rw b).toNat % 128 ≠ 0) :
    exec (.swapwp a b) s = .next (takeTrap 0x03 0 false (s.rw b) s) := by
  show finish (swapwp (.swapwp a b) a b s) = _
  unfold swapwp
  rw [privCheck_ok hp, needRegs_all hf]
  dsimp only
  rw [if_pos (by simpa using h)]
  rfl

theorem exec_swapwp_taken (hf : ∀ f, wBusy s.cur f = false) (hp : s.cur.priv ≠ 0) (h : (s.rw b).toNat % 128 = 0)
    (hx : 131072 < (s.rw b).toNat + 128 ∨ s.wsTaken (s.rw b).toNat) : exec (.swapwp a b) s = .next (takeTrap 0x04 0 false (s.rw b) s) := by
  show finish (swapwp (.swapwp a b) a b s) = _
  unfold swapwp
  rw [privCheck_ok hp, needRegs_all hf]
  dsimp only
  rw [if_neg (by simpa using h)]
  by_cases hout : 131072 < (s.rw b).toNat + 128
  · rw [if_pos hout]
    rfl
  · rw [if_neg hout, if_pos ((wsTaken_iff _).2 (hx.resolve_left hout))]
    rfl

theorem exec_swapwp (hf : ∀ f, wBusy s.cur f = false) (hp : s.cur.priv ≠ 0) (h : (s.rw b).toNat % 128 = 0)
    (hin : (s.rw b).toNat + 128 ≤ 131072) (hx : ¬ s.wsTaken (s.rw b).toNat) (hbusy : tcmBusy s (s.rw b).toNat 128 = false)
    (hpoison : anyPoison s.core.tcmPoison (s.rw b).toNat 128 = false) : exec (.swapwp a b) s =
      .next (retire ((swapIn ((s.rw b).extractLsb' 0 17) (swapOut (charge .sys s))).ww a (s.cur.wp.setWidth 64))) := by
  show finish (swapwp (.swapwp a b) a b s) = _
  unfold swapwp
  rw [privCheck_ok hp, needRegs_all hf]
  dsimp only
  rw [if_neg (by simpa using h), if_neg (by omega), if_neg fun g => hx ((wsTaken_iff _).1 g), read_ok ⟨hbusy, hpoison⟩]
  rfl

/-- The context that SWAPWP leaves behind, as TCM holds it. -/
theorem swapOut_tcm (h : s.cur.shadow = false) : (swapOut s).core.tcm = memPutN s.core.tcm s.cur.wp.toNat (wsBytes { s.cur with pc := s.cur.pc + 4 }) := by
  unfold swapOut flushWs
  generalize wsBytes { s.cur with pc := s.cur.pc + 4 } = bs
  rw [if_neg (by simp [h])]
  rfl

theorem swapOut_cur (s : State) : (swapOut s).cur = s.cur := by
  unfold swapOut flushWs
  generalize wsBytes { s.cur with pc := s.cur.pc + 4 } = bs
  split <;> rfl

theorem swapOut_word (h : s.cur.shadow = false) (hm : Memory.wf s.core.tcm = true) (k : Nat) (hk : k < 16) :
    leWord (memGetN (swapOut s).core.tcm (s.cur.wp.toNat + 8 * k) 8) = { s.cur with pc := s.cur.pc + 4 }.wsWord k := by
  rw [swapOut_tcm h, flush_word hm _ _ _ hk]

theorem swapOut_outside (h : s.cur.shadow = false) (hm : Memory.wf s.core.tcm = true) (y : Nat)
    (hy : y < s.cur.wp.toNat ∨ s.cur.wp.toNat + 128 ≤ y) : memGet (swapOut s).core.tcm y = memGet s.core.tcm y := by
  rw [swapOut_tcm h, memPutN_read hm, wsBytes_length, if_neg (by omega)]

/-- The words of another workspace are not those that SWAPWP writes. -/
theorem swapOut_other (h : s.cur.shadow = false) (hm : Memory.wf s.core.tcm = true) (n k : Nat) (hk : k < 16) (hn : n % 128 = 0)
    (hwp : s.cur.wp.toNat % 128 = 0) (hne : s.cur.wp.toNat ≠ n) :
    memGetN (swapOut s).core.tcm (n + 8 * k) 8 = memGetN s.core.tcm (n + 8 * k) 8 :=
  memGetN_congr 8 _ fun j hj => swapOut_outside h hm _ (by omega)

theorem swapIn_getW (n : BitVec 17) (u : State) (k : BitVec 4) (hk : k ≠ 0) :
    (swapIn n u).cur.getW k = leWord (memGetN u.core.tcm (n.toNat + 8 * k.toNat) 8) := by
  have hk' : k.toNat ≠ 0 := fun e => hk (BitVec.eq_of_toNat_eq e)
  unfold Task.getW
  rw [if_neg hk]
  show (Vector.ofFn _)[k.toNat] = _
  rw [Vector.getElem_ofFn, if_neg hk']

theorem retire_ww_cur {v : State} (hv : v.issues) (x : Word) : (retire (v.ww a x)).cur = { v.cur.setW (wIdx a) x with
    st := .running, wait := none, brkSkip := false, pcmSkip := false, paid := false, trapTaken := false } := by
  apply retire_cur_running
  · show (v.cur.setW (wIdx a) x).st ≠ _
    rw [Task.setW_st, hv.1]
    decide
  · show (v.cur.setW (wIdx a) x).wait ≠ _
    rw [Task.setW_wait]
    exact hv.2

theorem swapIn_issues {n : BitVec 17} (hs : s.issues) : (swapIn n (swapOut (charge .sys s))).issues := by
  have hcur : (swapOut (charge .sys s)).cur = s.cur := swapOut_cur (charge .sys s)
  generalize swapOut (charge .sys s) = u at hcur ⊢
  exact ⟨(congrArg Task.st hcur).trans hs.1, fun e => hs.2 ((congrArg Task.wait hcur).symm.trans e)⟩

/-- What SWAPWP has done once it has retired, register by register and field by field. -/
theorem swapped_cur {n : BitVec 17} (hs : s.issues) (x : Word) : (retire ((swapIn n (swapOut (charge .sys s))).ww a x)).cur =
    { (swapIn n (swapOut (charge .sys s))).cur.setW (wIdx a) x with
      st := .running, wait := none, brkSkip := false, pcmSkip := false, paid := false, trapTaken := false } :=
  retire_ww_cur (swapIn_issues hs) x

theorem swapped_getW {n : BitVec 17} (hs : s.issues) (x : Word) (k : BitVec 4) (hk : k ≠ 0) :
    (retire ((swapIn n (swapOut (charge .sys s))).ww a x)).getW k =
      if k = wIdx a then x else leWord (memGetN (swapOut (charge .sys s)).core.tcm (n.toNat + 8 * k.toNat) 8) := by
  have e : (retire ((swapIn n (swapOut (charge .sys s))).ww a x)).getW k = ((swapIn n (swapOut (charge .sys s))).cur.setW (wIdx a) x).getW k := by
    unfold State.getW
    rw [swapped_cur hs]
    rfl
  rw [e]
  split
  · next h => rw [← h]; exact Task.getW_setW_same _ _ _ hk
  · next h => rw [Task.getW_setW_other _ _ _ _ h, swapIn_getW _ _ _ hk]

end

/-! ### FAULTREPLY (R356) -/

/-- R356: the answer that FAULTREPLY gives once its segments are acknowledged: whether the token's walk waits here, then its effect. -/
def State.replied (a : Fld) (token ans : Word) (u : State) : State :=
  if (faultWaits token u).1 = true then
    (((faultWaits token u).2.onHome fun h => { h with out := h.out ++ [.faultAns token (ans == 0)] }).onCur fun t => t.setW (wIdx a) 0).retired
  else ((faultWaits token u).2.onCur fun t => t.setW (wIdx a) 1).retired

theorem finish_replyGo (a : Fld) (n : Nat) (token ans : Word) (s : State) : finish (replyGo a n token ans s) =
    .next (if segsAcked s n = true then s.replied a token ans else blockCur .waitMem (.reply n token ans) s) := by
  unfold replyGo State.replied
  dsimp only
  cases segsAcked s n with
  | false => rfl
  | true => cases (faultWaits token s).1 <;> rfl

theorem faultWaits_eq (token : Word) (u : State) : faultWaits token u =
    if token.toNat / 64 % 64 = u.clusterId then
      (u.tile.faults.any fun f => faultToken u.clusterId f == token && f.posted && f.toCore == u.core.id, u)
    else (u.free.1.getLsbD 0, u.free.2) := by
  have h : (token.extractLsb' 6 6).toNat = token.toNat / 64 % 64 := ext_toNat token 6 6
  unfold faultWaits
  rw [h]

section
variable {a b c : Fld} {s : State}

theorem exec_faultreply_malformed (hp : s.cur.priv ≠ 0) (ha : wBusy s.cur a = false) (hb : wBusy s.cur b = false) (hc : wBusy s.cur c = false)
    (hs : s.starts) (h : 1 < (s.rw c).toNat) : exec (.faultreply a b c) s = .next (takeTrap 0x04 0 false (s.rw c) s) := by
  show finish (faultreply (.faultreply a b c) a b c s) = _
  unfold faultreply
  rw [privCheck_ok hp, needRegs3 ha hb hc, hs.2.1]
  dsimp only
  rw [if_pos (by rw [gt_iff_lt, BitVec.lt_def]; exact h)]
  rfl

theorem exec_faultreply (hp : s.cur.priv ≠ 0) (ha : wBusy s.cur a = false) (hb : wBusy s.cur b = false) (hc : wBusy s.cur c = false)
    (hs : s.starts) (h : (s.rw c).toNat ≤ 1) (hbad : badPush s.cur = none) (hpush : sharedPushes s.cur = []) :
    exec (.faultreply a b c) s = finish (replyGo a s.cur.openSeg (s.rw b) (s.rw c) ((s.paid .sys).published 5)) := by
  show finish (faultreply (.faultreply a b c) a b c s) = _
  unfold faultreply
  rw [privCheck_ok hp, needRegs3 ha hb hc, hs.2.1]
  dsimp only
  rw [if_neg (by rw [gt_iff_lt, BitVec.lt_def]; exact Nat.not_lt.2 h), chargeOnce_paid' hs.2.2,
    sealRelease_ok (s := s.paid .sys) hbad hpush]
  rfl

theorem exec_faultreply_waiting {n : Nat} {token ans : Word} (hp : s.cur.priv ≠ 0) (ha : wBusy s.cur a = false) (hb : wBusy s.cur b = false)
    (hc : wBusy s.cur c = false) (hw : s.cur.wait = some (.reply n token ans)) :
    exec (.faultreply a b c) s = finish (replyGo a n token ans s) := by
  show finish (faultreply (.faultreply a b c) a b c s) = _
  unfold faultreply
  rw [privCheck_ok hp, needRegs3 ha hb hc, hw]

end

namespace Settled

/-- Settles O38: the issue and the wait of the two forms, then what renewing and binding leave in the table. -/
theorem addressSpace : Obligations.AddressSpace := by
  intro a b c s ha hb hc hp id vf root old u bound
  have hasRoot (h1 : root.toNat % 8192 = 0) (h2 : root.toNat < 2 ^ 52) : ¬ (root.toNat % 8192 ≠ 0 ∨ 2 ^ 52 ≤ root.toNat) := by omega
  refine ⟨fun hs => ⟨?_, ?_, ?_, ?_, ?_⟩, fun n hw => ⟨?_, ?_⟩, ⟨renewAsid_ent .., renewAsid_next _⟩, rfl, bindAsid_gen .., bindAsid_counts⟩
  · intro h
    rw [exec_asidset hp ha hb hs]
    exact asidBind_ok h (fun g => nomatch g)
  · intro h
    rw [exec_asidset hp ha hb hs]
    exact asidBind_waits (.inl h)
  · intro h
    rw [exec_asidsetNew hp ha hb hc hs, if_pos h]
    rfl
  · intro h1 h2 h3 h4
    rw [exec_asidsetNew hp ha hb hc hs, if_neg (hasRoot h1 h2), if_pos ⟨h3, h4⟩]
    rfl
  · intro h1 h2 h3 v
    rw [exec_asidsetNew hp ha hb hc hs, if_neg (hasRoot h1 h2), if_neg, asidBind_told]
    · rfl
    · rintro ⟨h4, h5⟩
      exact h3.elim (Nat.ne_of_gt h4) h5
  · rw [exec_asidset_waiting hp ha hb hw, finish_asidBind]
    simp only [Bool.false_eq_true, false_and, or_false]
    rfl
  · rw [exec_asidsetNew_waiting hp ha hb hc hw, finish_asidBind]
    simp only [true_and]
    rfl

/-- Settles O39: the two traps, and the workspace left and entered, read word by word. -/
theorem swapWorkspace : Obligations.SwapWorkspace := by
  intro a b s hf hp hsh x n taken
  refine ⟨exec_swapwp_misaligned hf hp, fun h hx => exec_swapwp_taken hf hp h hx, ?_⟩
  intro halign hin hfree hbusy hpoison hm hs hne hwp word
  have hn : (x.extractLsb' 0 17).toNat = n := by
    rw [ext_toNat]
    show n / 2 ^ 0 % 2 ^ 17 = n
    omega
  have hword : ∀ k < 16, leWord (memGetN (swapOut (charge .sys s)).core.tcm ((x.extractLsb' 0 17).toNat + 8 * k) 8) = word k := by
    intro k hk
    rw [hn, swapOut_other (s := charge .sys s) hsh hm n k hk halign hwp hne]
    rfl
  have hold : (s.cur.wp.setWidth 64 : Word) = BitVec.ofNat 64 s.cur.wp.toNat := by
    apply BitVec.eq_of_toNat_eq
    rw [BitVec.toNat_setWidth, BitVec.toNat_ofNat]
  refine ⟨_, exec_swapwp hf hp halign hin hfree hbusy hpoison, ?_, fun k hk => ?_, ?_, ?_, fun k hk => ?_, ?_, ?_⟩
  · rw [swapped_cur hs]
    exact (congrArg BitVec.toNat (Task.setW_wp ..)).trans hn
  · rw [swapped_getW hs _ _ hk, hold, hword _ k.isLt]
  · rw [swapped_cur hs, ← hword 0 (by decide)]
    exact Task.setW_pc ..
  · rw [swapped_cur hs, ← hword 0 (by decide)]
    exact Task.setW_mig ..
  · refine (swapOut_word (s := charge .sys s) hsh hm k.toNat k.isLt).trans ?_
    have hk' : k.toNat ≠ 0 := fun e => hk (BitVec.eq_of_toNat_eq e)
    unfold Task.wsWord
    rw [if_neg hk', BitVec.ofNat_toNat, BitVec.setWidth_eq]
    rfl
  · exact swapOut_word (s := charge .sys s) hsh hm 0 (by decide)
  · exact swapOut_outside (s := charge .sys s) hsh hm

/-- Settles O40: the seal and its wait, then the answer. -/
theorem faultReply : Obligations.FaultReply := by
  intro a b c s ha hb hc hp reply
  have hreply : ∀ token ans u, State.replied a token ans u = reply token ans u := by
    intro token ans u
    unfold State.replied
    rw [faultWaits_eq]
  refine ⟨exec_faultreply_malformed hp ha hb hc, fun hs h hbad hpush => ?_, fun n token ans hw => ?_⟩
  · intro u
    rw [exec_faultreply hp ha hb hc hs h hbad hpush, finish_replyGo, hreply]
  · rw [exec_faultreply_waiting hp ha hb hc hw, finish_replyGo, hreply]

end Settled

end Sys2Proof.Machine
end

section
/-! The operand fields (R80 to R83, R266, R335): what one field gives and takes, the order of several, and what a stop leaves, O7. -/

namespace Sys2Proof.Machine

/-! ### One source, one destination -/

section
variable {f : Fld} {s u : State} {x : Word} {e : Stop}

theorem takeS_reads (h : readS f s = .ok (x, u)) : takeS [f] [] s = .ok ([x], u) := by
  unfold takeS readAllS
  rw [h]
  rfl

theorem takeS_read_stops (h : readS f s = .error e) : takeS [f] [] s = .error (e.at s [f] [] [] []) := by
  unfold takeS readAllS
  rw [h]

theorem readS_of_takeS (h : takeS [f] [] s = .ok ([x], u)) : readS f s = .ok (x, u) := by
  cases hr : readS f s with
  | error e => rw [takeS_read_stops hr] at h; cases h
  | ok r =>
    rw [takeS_reads (x := r.1) (u := r.2) hr] at h
    cases h
    rfl

theorem takeS_roomy (h : roomS f s = .ok ()) : takeS [] [f] s = .ok ([], s) := by
  unfold takeS readAllS roomAllS
  rw [h]
  rfl

theorem takeS_room_stops (h : roomS f s = .error e) : takeS [] [f] s = .error (e.at s [] [f] [] []) := by
  unfold takeS readAllS roomAllS
  rw [h]

/-- R81: fields are read in their order. -/
theorem takeS_pair {b c : Fld} {v : State} {y : Word} (hb : takeS [b] [] s = .ok ([x], u)) (hc : takeS [c] [] u = .ok ([y], v)) :
    takeS [b, c] [] s = .ok ([x, y], v) := by
  unfold takeS readAllS readAllS
  rw [readS_of_takeS hb]
  dsimp only
  rw [readS_of_takeS hc]
  rfl

/-- R81: a stop among the operands is that of the state before any was taken. -/
theorem stop_at_cases (e : Stop) (s : State) (ss sd vs vd : List Fld) :
    (∃ c d v, e.at s ss sd vs vd = .trap c d v s) ∨ (∃ f l ws, e.at s ss sd vs vd = .xrange f l ws s) ∨
    (∃ st w, e.at s ss sd vs vd = .wait st w s) ∨ ∃ d v a n, e.at s ss sd vs vd = .err d v a { s with fresh := n } := by
  cases e with
  | trap c d v t => exact .inl ⟨c, d, v, rfl⟩
  | xrange f l ws t => exact .inr (.inl ⟨f, l, ws, rfl⟩)
  | wait st w t => cases w <;> exact .inr (.inr (.inl ⟨st, _, rfl⟩))
  | err d v a t => exact .inr (.inr (.inr ⟨d, v, a, t.fresh, rfl⟩))

theorem takeS_stop {srcs dsts : List Fld} (h : takeS srcs dsts s = .error e) : ∃ e' : Stop, e = e'.at s srcs dsts [] [] := by
  unfold takeS at h
  split at h
  · cases h
    exact ⟨_, rfl⟩
  · split at h
    · cases h
      exact ⟨_, rfl⟩
    · cases h

end

/-! ### General registers -/

theorem rw_zero {f : Fld} {s : State} : (if wIdx f = 0 then 0 else s.rw f) = s.rw f := by
  split
  · next h => unfold State.rw State.getW; rw [h]; exact (Task.getW_zero _).symm
  · rfl

theorem setW_getW (t : Task) (j k : BitVec 4) (x : Word) : (t.setW j x).getW k = if k = j ∧ k ≠ 0 then x else t.getW k := by
  by_cases hk : k = j
  · subst hk
    by_cases h0 : k = 0
    · rw [if_neg (by simp [h0]), h0]
      rfl
    · rw [if_pos ⟨rfl, h0⟩, Task.getW_setW_same _ _ _ h0]
  · rw [if_neg fun h => hk h.1, Task.getW_setW_other _ _ _ _ hk]

/-! ### Stream registers (R266) -/

section
variable {f : Fld} {s : State} {st : Stream}

theorem inStream_unbound (h : strmOf s.cur f = none) : inStream f s = .error (.trap 0x06 5 (f.setWidth 64) s) := by
  unfold inStream
  rw [h]
  rfl

theorem inStream_output (h : strmOf s.cur f = some st) (ho : st.pat.out = true) :
    inStream f s = .error (.trap 0x06 4 (f.setWidth 64) s) := by
  unfold inStream
  rw [h]
  dsimp only
  rw [if_pos ho]
  rfl

theorem inStream_exhausted (h : strmOf s.cur f = some st) (ho : st.pat.out = false) (hl : st.pat.len ≤ st.pos) :
    inStream f s = .error (.trap 0x06 3 (f.setWidth 64) s) := by
  unfold inStream
  rw [h]
  dsimp only
  rw [ho, if_neg Bool.false_ne_true, if_pos hl]
  rfl

theorem inStream_ok (h : strmOf s.cur f = some st) (ho : st.pat.out = false) (hl : st.pos < st.pat.len) : inStream f s = .ok st := by
  unfold inStream
  rw [h]
  dsimp only
  rw [ho, if_neg Bool.false_ne_true, if_neg (Nat.not_le.2 hl)]

theorem popStream_stops {e : Stop} (h : inStream f s = .error e) : popStream f s = .error e := by
  unfold popStream
  rw [h]

theorem popStream_val {v : Word} {l : List Elem} (h : inStream f s = .ok st) (hf : st.fetched = .val v :: l) :
    popStream f s = .ok (v, s.onCur (setStrm f (some { st with pos := st.pos + 1, fetched := l }))) := by
  unfold popStream
  rw [h]
  dsimp only
  rw [hf]
  rfl

theorem popStream_empty (h : inStream f s = .ok st) (hf : st.fetched = []) : popStream f s = notReady .waitMem s := by
  unfold popStream
  rw [h]
  dsimp only
  rw [hf]

/-- R83, R266: a strip whose elements have all been fetched. -/
theorem popStrip_vals {vs : List Word} {l : List Elem} (h : inStream f s = .ok st) (hf : st.fetched = vs.map .val ++ l)
    (hn : vs.length = Nat.min (64 / 2 ^ st.pat.sz) (st.pat.len - st.pos)) : popStrip f s =
      .ok (BitVec.ofNat 512 (packBits (8 * 2 ^ st.pat.sz) (vs.map (·.toNat) ++ List.replicate (64 / 2 ^ st.pat.sz - vs.length) st.pat.fill.toNat)),
        s.onCur (setStrm f (some { st with pos := st.pos + vs.length, fetched := l }))) := by
  have hlen : (vs.map Elem.val).length = vs.length := List.length_map ..
  have hfew : ¬ st.fetched.length < vs.length := by rw [hf, List.length_append, hlen]; omega
  have htake : st.fetched.take vs.length = vs.map .val := by rw [hf, List.take_left' hlen]
  have hdrop : st.fetched.drop vs.length = l := by rw [hf, List.drop_left' hlen]
  unfold popStrip
  rw [h]
  dsimp only
  rw [← hn, htake, mapM_val, hdrop, decide_eq_false hfew, Bool.false_and, if_neg Bool.false_ne_true]

theorem readV_strm (h1 : 16 ≤ f) (h2 : f < 24) : readV f s = popStrip f s := by
  unfold readV
  rw [if_neg (by bv_omega), if_pos h2]

theorem takeV_reads {x : BitVec 512} {u : State} (h : readV f s = .ok (x, u)) : takeV [f] [] none [] s = .ok ([x], [], u) := by
  unfold takeV readAllV
  rw [h]
  rfl

theorem roomS_strm (h1 : 16 ≤ f) (h2 : f < 24) (hb : wBusy s.cur f = false) : roomS f s = match outStream f s with
    | .error e => .error e
    | .ok st => match pushOk f st st.pos s with
      | .error e => .error e
      | .ok _ => if st.pushed.length ≥ strmCap st then notReady .waitMem s else .ok () := by
  unfold roomS
  rw [hb, if_neg Bool.false_ne_true, if_neg (by bv_omega), if_pos h2] <;> rfl

theorem roomS_strm_stops {e : Stop} (h1 : 16 ≤ f) (h2 : f < 24) (hb : wBusy s.cur f = false) (h : outStream f s = .error e) :
    roomS f s = .error e := by
  rw [roomS_strm h1 h2 hb, h]

theorem outStream_unbound (h : strmOf s.cur f = none) : outStream f s = .error (.trap 0x06 5 (f.setWidth 64) s) := by
  unfold outStream
  rw [h]
  rfl

theorem outStream_input (h : strmOf s.cur f = some st) (ho : st.pat.out = false) :
    outStream f s = .error (.trap 0x06 4 (f.setWidth 64) s) := by
  unfold outStream
  rw [h]
  dsimp only
  rw [ho]
  rfl

theorem outStream_full (h : strmOf s.cur f = some st) (ho : st.pat.out = true) (hbad : st.bad = none) (hl : st.pat.len ≤ st.pos) :
    outStream f s = .error (.trap 0x06 3 (f.setWidth 64) s) := by
  unfold outStream
  rw [h]
  dsimp only
  rw [ho, hbad, if_neg (by decide)]
  dsimp only
  rw [if_pos hl]
  rfl

/-- R266: an element written to a stream takes its place at the position; one out of bounds is dropped. -/
theorem writeS_strm (h1 : 16 ≤ f) (h2 : f < 24) (h : strmOf s.cur f = some st) (x : Word) : writeS f x s = pushElem f st x s := by
  unfold writeS
  rw [if_neg (by bv_omega), if_pos h2, h]

theorem pushElem_strm (h : strmOf s.cur f = some st) (x : Word) : strmOf (pushElem f st x s).cur f =
    some { st with pos := st.pos + 1, pushed := if elemInb st.pat st.pos then st.pushed ++ [⟨st.pos, x, s.cur.recCtr⟩] else st.pushed } :=
  strm_set (t := { s.cur with recCtr := if elemInb st.pat st.pos && !st.tcm then s.cur.recCtr + 1 else s.cur.recCtr }) _ h

end

/-! ### Queue registers (R80, R335 to R337) -/

section
variable {f : Fld} {s : State} {q : QBind}

theorem queueOf_setQueue {t : Task} (h : queueOf t f = some q) (x : Option QBind) : queueOf (setQueue f x t) f = x := by
  have hlt : f.toNat - 26 < 6 := by
    by_contra g
    unfold queueOf at h
    rw [Vector.getElem?_eq_none (by omega)] at h
    cases h
  show ((t.qs.setIfInBounds (f.toNat - 26) x)[f.toNat - 26]?).join = x
  rw [Vector.getElem?_setIfInBounds_self_of_lt hlt]
  rfl

theorem popQueue_unbound (h : queueOf s.cur f = none) : popQueue f s = .error (.trap 0x05 0 (f.setWidth 64) s) := by
  unfold popQueue
  rw [h]
  rfl

theorem popQueue_outbound (h : queueOf s.cur f = some q) (ho : q.outb = true) : popQueue f s = .error (.trap 0x05 0 (f.setWidth 64) s) := by
  unfold popQueue
  rw [h]
  dsimp only
  rw [if_pos ho]
  rfl

/-- R332: a word popped from a class binding; the last of a message frees its space in the inbox. -/
theorem popQueue_class {k : BitVec 4} {x : Word} {l : List Word} (h : queueOf s.cur f = some q) (ho : q.outb = false) (hc : q.cls = some k)
    (hw : q.words = x :: l) : popQueue f s = .ok (x, (s.onCur (setQueue f (some { q with words := l, parts := (popPart q.parts).1 }))).onCore
      (freeChunk? (popPart q.parts).2)) := by
  unfold popQueue
  rw [h]
  dsimp only
  rw [ho, if_neg Bool.false_ne_true, hc]
  dsimp only
  rw [hw]

theorem popQueue_channel {p : BitVec 13} {x : Word} {l : List (BitVec 13 × Word)} (h : queueOf s.cur f = some q) (ho : q.outb = false)
    (hc : q.cls = none) (hw : s.core.chan[q.ch.toNat] = (p, x) :: l) : popQueue f s = .ok (x,
      (s.onCore fun c => { c with chan := c.chan.set q.ch.toNat l }).onHome fun h => { h with out := h.out ++ [.credit p q.ch 1] }) := by
  unfold popQueue
  rw [h]
  dsimp only
  rw [ho, if_neg Bool.false_ne_true, hc]
  dsimp only
  unfold popChan
  rw [hw]
  rfl

theorem popQueue_channel_empty (h : queueOf s.cur f = some q) (ho : q.outb = false) (hc : q.cls = none) (hw : s.core.chan[q.ch.toNat] = []) :
    popQueue f s = notReady .waitMsg s := by
  unfold popQueue
  rw [h]
  dsimp only
  rw [ho, if_neg Bool.false_ne_true, hc]
  dsimp only
  unfold popChan
  rw [hw]
  rfl

theorem roomS_q (h1 : 26 ≤ f) (hb : wBusy s.cur f = false) : roomS f s = match queueOf s.cur f with
    | none => .error (.trap 0x05 0 (f.setWidth 64) s)
    | some q => if q.outb = false then .error (.trap 0x05 0 (f.setWidth 64) s) else if 8 ≤ q.words.length then notReady .waitMsg s else .ok () := by
  unfold roomS
  rw [hb, if_neg Bool.false_ne_true, if_neg (by bv_omega), if_neg (by bv_omega), if_neg (by bv_omega), if_neg (by bv_omega)]
  cases queueOf s.cur f with
  | none => rfl
  | some q =>
    dsimp only
    simp only [Bool.not_eq_true', ge_iff_le]
    rfl

theorem writeS_q (h1 : 26 ≤ f) (h : queueOf s.cur f = some q) (x : Word) :
    writeS f x s = s.onCur (setQueue f (some { q with words := q.words ++ [x] })) := by
  unfold writeS
  rw [if_neg (by bv_omega), if_neg (by bv_omega), if_neg (by bv_omega), if_neg (by bv_omega), h]

/-- R312: q1 holds the outgoing message. -/
theorem roomS_q1 (hb : wBusy s.cur 25 = false) : roomS 25 s = if 8 ≤ s.cur.q1.length then .error (.trap 0x05 0 25 s) else .ok () := by
  unfold roomS
  rw [hb, if_neg Bool.false_ne_true, if_neg (by decide), if_neg (by decide), if_pos rfl]
  rfl

end

namespace Settled

/-- Settles O7: reads, then writes: the case of each kind of field. -/
theorem fieldReads : Obligations.FieldReads := by
  refine ⟨⟨?_, ?_, ?_, ?_, ?_, ?_⟩, ?_, ?_, ?_, ?_⟩
  · intro f s hf hb
    rw [rw_zero]
    exact takeS_reads (readS_w hf hb)
  · intro f s h1 h2 trap
    have stops {e : Stop} (h : inStream f s = .error e) : takeS [f] [] s = .error (e.at s [f] [] [] []) :=
      takeS_read_stops ((readS_strm h1 h2 s).trans (popStream_stops h))
    refine ⟨fun h => stops (inStream_unbound h), fun st h => ⟨fun ho => stops (inStream_output h ho),
      fun ho hl => stops (inStream_exhausted h ho hl), fun ho hl => ?_⟩⟩
    have hin := inStream_ok h ho hl
    refine ⟨fun v l hf => takeS_reads ((readS_strm h1 h2 s).trans (popStream_val hin hf)),
      fun hf => takeS_read_stops ((readS_strm h1 h2 s).trans (popStream_empty hin hf)), ?_⟩
    intro vs l hf n hn
    exact takeV_reads ((readV_strm h1 h2).trans (popStrip_vals hin hf hn))
  · refine fun s => ⟨fun x l h => takeS_reads ?_, fun h => takeS_read_stops (e := .trap 0x05 0 24 s) ?_⟩
    · show (match s.cur.q0 with | [] => _ | x :: r => _) = _
      rw [h]
    · show (match s.cur.q0 with | [] => _ | x :: r => _) = _
      rw [h]
      rfl
  · intro f s h1
    have stops {e : Stop} (h : popQueue f s = .error e) : takeS [f] [] s = .error (e.at s [f] [] [] []) :=
      takeS_read_stops ((readS_q h1 s).trans h)
    refine ⟨fun h => stops (popQueue_unbound h), fun q h => ⟨fun ho => stops (popQueue_outbound h ho), ?_, ?_, ?_⟩⟩
    · exact fun ho hc p x l hw => takeS_reads ((readS_q h1 s).trans (popQueue_channel h ho hc hw))
    · exact fun ho hc hw => stops (popQueue_channel_empty h ho hc hw)
    · intro ho k x l hc hw
      exact ⟨_, takeS_reads ((readS_q h1 s).trans (popQueue_class h ho hc hw)), _, queueOf_setQueue h _, rfl⟩
  · exact fun b c s u v x y => takeS_pair
  · intro srcs dsts s e h
    obtain ⟨e', rfl⟩ := takeS_stop h
    exact stop_at_cases e' s srcs dsts [] []
  · intro f s x hf hb
    refine ⟨takeS_roomy (roomS_w hf hb), fun k => ?_⟩
    rw [writeS_w hf]
    exact setW_getW s.cur (wIdx f) k x
  · intro f s x h1 h2 hb trap
    have stops {e : Stop} (h : outStream f s = .error e) : takeS [] [f] s = .error (e.at s [] [f] [] []) :=
      takeS_room_stops (roomS_strm_stops h1 h2 hb h)
    refine ⟨fun h => stops (outStream_unbound h), fun st h => ⟨fun ho => stops (outStream_input h ho),
      fun ho hbad hl => stops (outStream_full h ho hbad hl), ?_⟩⟩
    rw [writeS_strm h1 h2 h]
    exact ⟨_, pushElem_strm h x, rfl, rfl, rfl⟩
  · intro s x hb
    refine ⟨fun h => takeS_roomy ?_, fun h => takeS_room_stops (e := .trap 0x05 0 25 s) ?_, rfl⟩
    · rw [roomS_q1 hb, if_neg (Nat.not_le.2 h)]
    · rw [roomS_q1 hb, if_pos h]
  · intro f s x h1 hb
    have room := roomS_q h1 hb
    refine ⟨fun h => takeS_room_stops (e := .trap 0x05 0 (f.setWidth 64) s) (by rw [room, h]), fun q h => ?_⟩
    rw [h] at room
    dsimp only at room
    refine ⟨fun ho => takeS_room_stops (e := .trap 0x05 0 (f.setWidth 64) s) (by rw [room, if_pos ho]), fun ho hw => takeS_roomy ?_,
      fun ho hw => takeS_room_stops (e := .wait .waitMsg (.operand [] [] [] []) s) ?_, ?_⟩
    · rw [room, if_neg (by simp [ho]), if_neg (Nat.not_le.2 hw)]
    · rw [room, if_neg (by simp [ho]), if_pos hw]
      rfl
    · rw [writeS_q h1 h]
      exact queueOf_setQueue h _

end Settled

end Sys2Proof.Machine
end

section
/-! Vectors (R83, R149, R150, R155 to R168): the table of element instructions row by row, the mask, XR and the reductions, O41 and O42. -/

namespace Sys2Proof.Machine

/-! ### What it means that a row describes an instruction -/

/-- R83, R150: the instruction completes, and its destination holds the row's values where the row writes and its old ones elsewhere. -/
def VecOp.describes (r : VecOp) (i : Instr) : Prop :=
  ∀ (s u : State) (vs : List (BitVec 512)) (xs : List Word), takeV r.vsrcs r.srcs (some (r.dst, r.part)) [] s = .ok (vs, xs, u) →
    ∃ x : BitVec 512, exec i s = .next ((writeV r.dst x (charge r.cls u)).onCur fun t => { t with hvy := true }).retired ∧
      ∀ k, k < 512 / r.w → lane r.w x k =
        if r.writes s.cur.vmask xs k then r.val s.cur.vmask vs xs k else lane r.w ((s.cur.v[r.dst.toNat]?).getD 0) k

/-- An instruction that maps its elements under a mask. -/
theorem describes_of_vmap {r : VecOp} {i : Instr} (hw : 0 < r.w) (act : State → List Word → Nat → Bool)
    (g : State → List (BitVec 512) → List Word → Nat → Nat)
    (hi : ∀ s, exec i s = finish (vOp r.cls r.vsrcs r.srcs r.dst r.part (fun vs xs old => vmap r.w (act s xs) old (g s vs xs)) s))
    (hact : ∀ s xs k, act s xs k = r.writes s.cur.vmask xs k)
    (hval : ∀ s vs xs k, BitVec.ofNat r.w (g s vs xs k) = r.val s.cur.vmask vs xs k) : r.describes i := by
  intro s u vs xs ht
  refine vec_exec (hi s) ht fun k hk => ?_
  rw [lane_vmap _ hw _ _ _ k hk, hact, hval]

/-- An instruction that writes every element. -/
theorem describes_of_whole {r : VecOp} {i : Instr} (hw : 0 < r.w) (g : State → List (BitVec 512) → List Word → Nat → Nat)
    (hi : ∀ s, exec i s = finish (vOp r.cls r.vsrcs r.srcs r.dst r.part (fun vs xs _ => vmap r.w (fun _ => true) 0 (g s vs xs)) s))
    (hwrites : ∀ mask xs k, r.writes mask xs k = true)
    (hval : ∀ s vs xs k, BitVec.ofNat r.w (g s vs xs k) = r.val s.cur.vmask vs xs k) : r.describes i := by
  intro s u vs xs ht
  refine vec_exec (hi s) ht fun k hk => ?_
  rw [lane_vmap _ hw _ _ _ k hk, if_pos rfl, if_pos (hwrites ..), hval]

/-! ### Rows of one shape -/

section
variable {i : Instr} {a b c d : Fld} {m : Bool} {f : BitVec 3}

theorem describes_vec2 {g : Nat → Nat → Nat} {v : BitVec (fmtWidth f) → BitVec (fmtWidth f) → BitVec (fmtWidth f)}
    (hi : ∀ s, exec i s = finish (vBin .valu a b c m f g s)) (hg : ∀ x y, BitVec.ofNat (fmtWidth f) (g x.toNat y.toNat) = v x y) :
    (vec2 a b c m (fmtWidth f) v).describes i := by
  refine describes_of_vmap (fmt_pos f) (fun s _ => activeOf s m)
    (fun s vs _ k => g (elem (fmtWidth f) (src1 vs) k) (elem (fmtWidth f) (src2 vs) k)) hi (fun _ _ _ => rfl) fun s vs xs k => ?_
  rw [elem_lane, elem_lane]
  exact hg _ _

theorem describes_arith {st r : Bool} {gf : FV → FV → FV} {gi : Int → Int → Int}
    (hi : ∀ s, exec i s = finish (vBin .valu a b c m f (vArith f r st gf gi) s)) : (arith a b c st r m f gf gi).describes i :=
  describes_vec2 hi fun x y => arith_eq f r st gf gi x y

theorem describes_unary {st : Bool} {gf : FV → FV} {gi hi' : Int → Int} (hgi : ∀ z, gi z = hi' z)
    (hi : ∀ s, exec i s = finish (vUn .valu a b m f (vSign f st gf gi) s)) : (unary a b m f st gf hi').describes i := by
  refine describes_of_vmap (fmt_pos f) (fun s _ => activeOf s m) (fun s vs _ k => vSign f st gf gi (elem (fmtWidth f) (src1 vs) k))
    hi (fun _ _ _ => rfl) fun s vs xs k => ?_
  show BitVec.ofNat (fmtWidth f) (vSign f st gf gi _) = if isFloat f then _ else laneInt _ st (hi' _)
  unfold vSign
  rw [narrow_eq, elem_lane, int_lane, hgi]
  by_cases h : isFloat f = true
  · rw [if_pos h, if_pos h, if_pos h]
    rfl
  · rw [if_neg h, if_neg h]
    rfl

theorem describes_fused {neg : Bool} (hi : ∀ s, exec i s = finish (vFma neg a b c d f s)) : (fused neg a b c d f).describes i := by
  refine describes_of_vmap (fmt_pos f) (fun _ _ _ => true) (fun s vs _ k =>
    vFused neg f (elem (fmtWidth f) (src1 vs) k) (elem (fmtWidth f) (src2 vs) k) (elem (fmtWidth f) (src3 vs) k)) hi (fun _ _ _ => rfl)
    fun s vs xs k => ?_
  rw [elem_lane, elem_lane, elem_lane]
  show BitVec.ofNat (fmtWidth f) (vFused neg f _ _ _) = if isFloat f then _ else _
  unfold vFused
  dsimp only
  rw [narrow_eq, int_lane, int_lane, int_lane]
  by_cases h : isFloat f = true
  · rw [if_pos h, if_pos h, if_pos h]
    rfl
  · rw [if_neg h, if_neg h]
    rfl

end

/-! ### Shifts, logic and single rows -/

theorem shl_elem (f : BitVec 3) (x y : BitVec (fmtWidth f)) : BitVec.ofNat (fmtWidth f) (vShl f x.toNat y.toNat) =
    BitVec.ofNat _ (x.toNat * 2 ^ (y.toNat % fmtWidth f)) := by
  apply BitVec.eq_of_toNat_eq
  rw [BitVec.toNat_ofNat, BitVec.toNat_ofNat]
  exact Nat.mod_mod _ _

theorem shr_elem (n : Bool) (f : BitVec 3) (x y : BitVec (fmtWidth f)) : BitVec.ofNat (fmtWidth f) (vShr n f x.toNat y.toNat) =
    if n then BitVec.ofNat _ (x.toNat / 2 ^ (y.toNat % fmtWidth f)) else BitVec.ofInt _ (x.toInt / 2 ^ (y.toNat % fmtWidth f)) := by
  unfold vShr
  cases n with
  | true => rfl
  | false =>
    rw [if_neg Bool.false_ne_true, if_neg Bool.false_ne_true, int_lane]
    exact ofNat_natOf _ _

theorem abs_eq (z : Int) : (if z < 0 then -z else z) = (z.natAbs : Int) := by
  split <;> omega

theorem ofNat_mod (w x : Nat) : BitVec.ofNat w (x % 2 ^ w) = BitVec.ofNat w x := by
  apply BitVec.eq_of_toNat_eq
  rw [BitVec.toNat_ofNat, BitVec.toNat_ofNat, Nat.mod_mod]

section
variable (a b c : Fld) (f : BitVec 3)

theorem describes_vsel : ∀ r, vecOp (.vsel a b c f) = some r → r.describes (.vsel a b c f) := by
  rintro _ ⟨⟩
  refine describes_of_vmap (fmt_pos f) (fun _ _ _ => true) (fun s vs _ k =>
    if s.cur.vmask.getLsbD k then elem (fmtWidth f) (src1 vs) k else elem (fmtWidth f) (src2 vs) k) (fun _ => rfl) (fun _ _ _ => rfl)
    fun s vs xs k => ?_
  rw [elem_lane, elem_lane]
  show _ = lane (fmtWidth f) (if s.cur.vmask.getLsbD k then vsrc vs 0 else vsrc vs 1) k
  split <;> exact ofNat_toNat' _

theorem describes_vdqnt (p : BitVec 3) : ∀ r, vecOp (.vdqnt a b c p f) = some r → r.describes (.vdqnt a b c p f) := by
  rintro _ ⟨⟩
  refine describes_of_whole (fmt_pos f) (fun _ vs _ k => nqValue (fmtOf f) (elem 4 (src1 vs) (p.toNat * (512 / fmtWidth f) + k))
    (decodeF fp32 (nqScale (elem 32 (src2 vs) 0) (elem 32 (src2 vs) 1 % 256)))) (fun _ => rfl) (fun _ _ _ => rfl) fun s vs xs k => ?_
  rw [elem_lane, elem_lane, elem_lane]
  rfl

theorem describes_vbcast (m : Bool) : ∀ r, vecOp (.vbcast a b m f) = some r → r.describes (.vbcast a b m f) := by
  rintro _ ⟨⟩
  exact describes_of_vmap (fmt_pos f) (fun s _ => activeOf s m) (fun _ _ xs _ => (xs.headD 0).toNat % 2 ^ fmtWidth f) (fun _ => rfl)
    (fun _ _ _ => rfl) fun s vs xs k => ofNat_mod _ _

theorem describes_vslide (n : BitVec 5) : ∀ r, vecOp (.vslide a b c n f) = some r → r.describes (.vslide a b c n f) := by
  rintro _ ⟨⟩
  refine describes_of_whole (fmt_pos f) (fun _ vs _ k => if k + n.toNat < 512 / fmtWidth f then elem (fmtWidth f) (src1 vs) (k + n.toNat)
    else elem (fmtWidth f) (src2 vs) (k + n.toNat - 512 / fmtWidth f)) (fun _ => rfl) (fun _ _ _ => rfl) fun s vs xs k => ?_
  rw [elem_lane, elem_lane]
  show _ = if k + n.toNat < 512 / fmtWidth f then _ else _
  split <;> exact ofNat_toNat' _

theorem describes_vperm (m : Bool) : ∀ r, vecOp (.vperm a b c m f) = some r → r.describes (.vperm a b c m f) := by
  rintro _ ⟨⟩
  refine describes_of_vmap (fmt_pos f) (fun s _ => activeOf s m)
    (fun _ vs _ k => elem (fmtWidth f) (src1 vs) (elem (fmtWidth f) (src2 vs) k % (512 / fmtWidth f))) (fun _ => rfl) (fun _ _ _ => rfl)
    fun s vs xs k => ?_
  rw [elem_lane, elem_lane]
  exact ofNat_toNat' _

theorem describes_vins : ∀ r, vecOp (.vins a b c f) = some r → r.describes (.vins a b c f) := by
  rintro _ ⟨⟩
  exact describes_of_vmap (fmt_pos f) (fun _ xs k => k == ((xs.drop 1).headD 0).toNat % (512 / fmtWidth f))
    (fun _ _ xs _ => (xs.headD 0).toNat % 2 ^ fmtWidth f) (fun _ => rfl) (fun _ _ _ => rfl) fun s vs xs k => ofNat_mod _ _

end

/-- Every row of the table describes its instruction. -/
theorem vecOp_describes {i : Instr} {r : VecOp} (h : vecOp i = some r) : r.describes i := by
  unfold vecOp at h
  split at h
  case h_1 => cases h; exact describes_arith fun _ => rfl
  case h_2 => cases h; exact describes_arith fun _ => rfl
  case h_3 => cases h; exact describes_arith fun _ => rfl
  case h_4 => cases h; exact describes_vec2 (fun _ => rfl) (extreme_eq _ _ _)
  case h_5 => cases h; exact describes_vec2 (fun _ => rfl) (extreme_eq _ _ _)
  case h_6 => cases h; exact describes_fused fun _ => rfl
  case h_7 => cases h; exact describes_fused fun _ => rfl
  case h_8 => cases h; exact describes_unary abs_eq fun _ => rfl
  case h_9 => cases h; exact describes_unary (fun _ => rfl) fun _ => rfl
  case h_10 => cases h; exact describes_vec2 (fun _ => rfl) fun x y => ofNat_toNat' (x &&& y)
  case h_11 => cases h; exact describes_vec2 (fun _ => rfl) fun x y => ofNat_toNat' (x ||| y)
  case h_12 => cases h; exact describes_vec2 (fun _ => rfl) fun x y => ofNat_toNat' (x ^^^ y)
  case h_13 => cases h; exact describes_vec2 (fun _ => rfl) (shl_elem _)
  case h_14 => cases h; exact describes_vec2 (fun _ => rfl) (shr_elem _ _)
  case h_15 => exact describes_vsel _ _ _ _ _ h
  case h_16 => cases h; exact fun _ _ _ _ ht => vcvt_ok ht
  case h_17 => exact describes_vdqnt _ _ _ _ _ _ h
  case h_18 => exact describes_vbcast _ _ _ _ _ h
  case h_19 => exact describes_vslide _ _ _ _ _ _ h
  case h_20 => exact describes_vperm _ _ _ _ _ _ h
  case h_21 => exact describes_vins _ _ _ _ _ h
  case h_22 => cases h

/-! ### The mask and single elements (R157, R158, R165) -/

/-- A vector instruction complete: its task is heavy (R34). -/
def State.heavyRetired (u : State) : State := (u.onCur fun t => { t with hvy := true }).retired

theorem exec_vcmp {k : BitVec 3} {b c : Fld} {n m : Bool} {f : BitVec 3} {s u : State} {vs : List (BitVec 512)} {xs : List Word}
    (ht : takeV [b, c] [] none [] s = .ok (vs, xs, u)) : exec (.vcmp k b c n m f) s = .next ((charge .valu u).onCur fun t =>
      { t with vmask := vcmpMask k n m f u.cur.vmask (vsrc vs 0) (vsrc vs 1) }).heavyRetired := by
  show finish (vcmp k b c n m f s) = _
  unfold vcmp
  rw [ht]
  rfl

theorem exec_vsetm {a b : Fld} {s u : State} {xs : List Word} (ht : takeS [b] [a] s = .ok (xs, u)) : exec (.vsetm a b) s =
    .next ((charge .valu u).onCur fun t => { Task.put a t.vmask t with vmask := xsrc xs 0 }).heavyRetired := by
  show finish (vsetm a b s) = _
  unfold vsetm
  rw [ht]
  dsimp only
  rw [writeS_put]
  rfl

theorem vextWord_eq (f : BitVec 3) (x : BitVec 512) (k : Word) : vextWord f x k =
    if isFloat f then BitVec.ofNat 64 (lane (fmtWidth f) x (k.toNat % (512 / fmtWidth f))).toNat
    else BitVec.ofInt 64 (lane (fmtWidth f) x (k.toNat % (512 / fmtWidth f))).toInt := by
  unfold vextWord
  dsimp only
  rw [elem_lane, int_lane]

theorem exec_vext {a b c : Fld} {f : BitVec 3} {s u : State} {vs : List (BitVec 512)} {xs : List Word}
    (ht : takeV [b] [c] none [a] s = .ok (vs, xs, u)) : exec (.vext a b c f) s =
    .next ((charge .vperm u).onCur (Task.put a (vextWord f (vsrc vs 0) (xsrc xs 0)))).heavyRetired := by
  show finish (vext a b c f s) = _
  unfold vext
  rw [ht]
  dsimp only
  rw [writeS_put]
  rfl

/-- R83, R149: operands taken leave the mask. -/
theorem takeV_vmask {vsrcs srcs dsts : List Fld} {vd : Option (Fld × Bool)} {s u : State} {vs : List (BitVec 512)} {xs : List Word}
    (h : takeV vsrcs srcs vd dsts s = .ok (vs, xs, u)) : u.cur.vmask = s.cur.vmask := by
  have e := takeV_untake h
  rw [← e]
  rfl

/-! ### XR (R166 to R168) -/

/-- R167: a write of XR that waits its turn. -/
def State.xrSent (c : Charge) (x : Word) (u : State) : State :=
  ((charge c u).onCur fun t => { t with xrPend := t.xrPend ++ [{ val := x }] }).heavyRetired

theorem reduce_ok {b : Fld} {m : Bool} {f : BitVec 3} {g : List Nat → Word} {s u : State} {vs : List (BitVec 512)} {xs : List Word}
    (hx : s.cur.xrPend.length < 15) (ht : takeV [b] [] none [] s = .ok (vs, xs, u)) : finish (vReduce b m f g s) =
      .next (u.xrSent .vred (g ((actives (fmtWidth f) m s.cur.vmask (vsrc vs 0)).map (·.toNat)))) := by
  unfold vReduce
  rw [if_neg (Nat.not_le.2 hx), ht]
  dsimp only
  rw [actives_eq]
  rfl

theorem exec_reduces {i : Instr} {b : Fld} {m : Bool} {f : BitVec 3} {g : List Nat → Word} {s u : State} {vs : List (BitVec 512)} {xs : List Word}
    (hi : reduces i = some (b, m, f, g)) (hx : s.cur.xrPend.length < 15) (ht : takeV [b] [] none [] s = .ok (vs, xs, u)) :
    exec i s = .next (u.xrSent .vred (g ((actives (fmtWidth f) m s.cur.vmask (vsrc vs 0)).map (·.toNat)))) := by
  unfold reduces at hi
  split at hi
  case h_1 => cases hi; exact reduce_ok hx ht
  case h_2 => cases hi; exact reduce_ok hx ht
  case h_3 => cases hi; exact reduce_ok hx ht
  case h_4 => cases hi; exact reduce_ok hx ht
  case h_5 => cases hi

/-- R160: the parameters of a block: its code, its effective scale and whether it is invalid, from the two words of the second source. -/
theorem vqntScale_eq (y : BitVec 512) :
    let sup := decodeF fp32 (lane 32 y 0).toNat
    let amax := decodeF fp32 (lane 32 y 1).toNat
    let scale (j : Nat) : Nat := roundF fp32 false false (sup.mul (.fin false (j + 1) (-8)))
    let code := ((List.range 256).find? fun j => amax.le (decodeF fp32 (scale j))).getD 255
    let bad := (match sup with | .fin neg m _ => neg || m == 0 | _ => true) || amax == .nan || amax.lt zeroFV ||
      (decodeF fp32 (scale code)).eq zeroFV
    vqntScale y = if bad then (255, zeroFV, true) else (code, decodeF fp32 (scale code), false) := by
  intro sup amax scale code bad
  have hbad : bad = (vqntBad sup amax || (decodeF fp32 (scale code)).eq zeroFV) := rfl
  unfold vqntScale
  rw [elem_lane, elem_lane, hbad]
  show (if vqntBad sup amax = true then _ else _) = _
  cases h : vqntBad sup amax with
  | true => rfl
  | false =>
    rw [if_neg Bool.false_ne_true, Bool.false_or]
    rfl

theorem xrResult_eq (k : Nat) (bad : Bool) (h : bad = true → k = 255) :
    xrResult k bad = if bad then BitVec.ofNat 64 (2 ^ 63 + 255) else BitVec.ofNat 64 k := by
  unfold xrResult
  cases bad with
  | true => rw [h rfl]; rfl
  | false => rfl

/-- R160: the codes that VQNT writes: one block of the destination, the rest kept. -/
def vqntReg (p f : BitVec 3) (src old : BitVec 512) (sc : FV) (bad : Bool) : BitVec 512 :=
  vmap 4 (fun i => decide (p.toNat * (512 / fmtWidth f) ≤ i) && decide (i < p.toNat * (512 / fmtWidth f) + 512 / fmtWidth f)) old
    fun i => if bad then 0 else nqQuant (decodeF (fmtOf f) (elem (fmtWidth f) src (i - p.toNat * (512 / fmtWidth f)))) sc

theorem exec_vqnt {a b c : Fld} {p f : BitVec 3} {s u : State} {vs : List (BitVec 512)} {xs : List Word} (hx : s.cur.xrPend.length < 15)
    (ht : takeV [b, c] [] (some (a, true)) [] s = .ok (vs, xs, u)) {k : Nat} {sc : FV} {bad : Bool} (hs : vqntScale (vsrc vs 1) = (k, sc, bad)) :
    exec (.vqnt a b c p f) s = .next ((writeV a (vqntReg p f (vsrc vs 0) (s.getV a) sc bad)
      (charge .vcvt u)).onCur fun t => { t with xrPend := t.xrPend ++ [{ val := xrResult k bad }] }).heavyRetired := by
  have hs' : vqntScale (src2 vs) = (k, sc, bad) := hs
  show finish (stripRun a (vqnt a b c p f) s) = _
  have hrun : vqnt a b c p f s = .ok (advance (setHvy ((writeV a (vqntReg p f (vsrc vs 0) (s.getV a) sc bad)
      (charge .vcvt u)).onCur (xrPush (xrResult k bad))))) := by
    unfold vqnt
    rw [if_neg (Nat.not_le.2 hx), ht]
    dsimp only
    rw [hs']
    rfl
  rw [stripRun_ok hrun]
  rfl

/-- R168: how many writes of XR are between the one that XGET names and the last applied. -/
theorem xget_distance (q x : BitVec 4) : (q - x).toNat = (q.toNat + 16 - x.toNat) % 16 := by
  rw [BitVec.toNat_sub]
  have := x.isLt
  omega

theorem exec_xget_reads {a : Fld} {q : BitVec 4} {s u : State} (ht : takeS [] [a] s = .ok ([], u)) (hp : s.cur.paid = false)
    (hd : (q - s.cur.xseq).toNat = 0 ∨ s.cur.xrPend.length < (q - s.cur.xseq).toNat) :
    exec (.xget a q) s = .next (s.completes .vred fun t => { Task.put a t.xr t with hvy := true }) := by
  have hread : finish (.ok (advance (setHvy (writeS a s.cur.xr (chargeOnce .vred s))))) =
      .next (s.completes .vred fun t => { Task.put a t.xr t with hvy := true }) := by
    rw [chargeOnce_paid' hp, writeS_put]
    unfold State.completes
    rw [chargeOnce_paid' hp]
    rfl
  show finish (xget a q s) = _
  unfold xget
  rw [ht]
  dsimp only
  split
  · exact hread
  · rw [if_pos (by simpa using hd)]
    exact hread

theorem exec_xget_waits {a : Fld} {q : BitVec 4} {s u : State} (ht : takeS [] [a] s = .ok ([], u)) (hw : s.cur.wait = none)
    (hst : s.cur.st = .running) (h0 : 0 < (q - s.cur.xseq).toNat) (hd : (q - s.cur.xseq).toNat ≤ s.cur.xrPend.length) :
    exec (.xget a q) s = .next (blockCur .running (.xget q) s) := by
  have hheld : heldBack s = .running := by
    unfold heldBack
    rw [hst]
    rfl
  show finish (xget a q s) = _
  unfold xget
  rw [ht]
  dsimp only
  rw [hw, if_neg (by simp), if_neg (by simp only [Bool.or_eq_true, decide_eq_true_eq]; omega), hheld]
  rfl

/-- XR_WRITE: the oldest write of the context is applied, unless an XGET has yet to read the one before it. -/
theorem exec_xrWrite {x : XrPend} {r : List XrPend} {s : State} (he : s.cur.st ≠ .ended) (hsh : s.cur.shadow = false)
    (hx : s.cur.xrPend = x :: r) (hw : s.cur.wait ≠ some (.xget s.cur.xseq)) : exec (.xrWrite s.cur.frame) s =
      .next (s.onCur fun t => { t with xr := x.val, xseq := t.xseq + 1, xrPend := r }) := by
  have hlive : (liveAt s.cur.frame s.cur && !s.cur.xrPend.isEmpty && s.cur.wait != some (.xget s.cur.xseq)) = true := by
    rw [live_cur he hsh, hx]
    simpa using hw
  show done (s.updCtx (fun t => liveAt s.cur.frame t && !t.xrPend.isEmpty && t.wait != some (.xget t.xseq)) _) = _
  rw [updCtx_cur (p := fun t => liveAt s.cur.frame t && !t.xrPend.isEmpty && t.wait != some (.xget t.xseq)) hlive]
  refine congrArg Host.Outcome.next (onCur_congr ?_)
  rw [hx]

namespace Settled

/-- Settles O41: every row of the table describes its instruction. -/
theorem vectorElements : Obligations.VectorElements :=
  fun _ _ s u vs xs h ht => vecOp_describes h s u vs xs ht

/-- Settles O42: the mask, an element, the writes of XR in their order. -/
theorem vectorScalars : Obligations.VectorScalars := by
  intro a b c k n m f p s heavy
  refine ⟨fun vs xs u ht => ⟨_, exec_vcmp ht, fun j hj => ?_⟩, fun xs u ht => exec_vsetm ht, ?_,
    fun i b m f g hi hx vs xs u ht => exec_reduces hi hx ht, ?_, ?_, fun x r he hsh hx hw => exec_xrWrite he hsh hx hw⟩
  · rw [vcmp_bit _ _ _ _ _ _ _ j hj, takeV_vmask ht]
  · intro vs xs u ht x
    rw [exec_vext ht, vextWord_eq]
    rfl
  · intro hx vs xs u ht sup amax scale code bad w
    have hscale : vqntScale (vsrc vs 1) = (if bad then 255 else code, if bad then zeroFV else decodeF fp32 (scale code), bad) := by
      refine (vqntScale_eq (vsrc vs 1)).trans ?_
      show (if bad = true then _ else _) = _
      cases bad <;> rfl
    refine ⟨vqntReg p f (vsrc vs 0) (s.getV a) (if bad then zeroFV else decodeF fp32 (scale code)) bad, (exec_vqnt hx ht hscale).trans ?_,
      fun j hj => ?_⟩
    · rw [xrResult_eq _ bad fun h => if_pos h]
      cases bad <;> rfl
    · unfold vqntReg
      rw [lane_vmap 4 (by decide) _ _ _ j hj, elem_lane]
      simp only [Bool.and_eq_true, decide_eq_true_eq]
      cases bad <;> rfl
  · intro q u ht d
    have hd : (q - s.cur.xseq).toNat = d := xget_distance q s.cur.xseq
    refine ⟨fun h hp => exec_xget_reads ht hp (by rw [hd]; exact h), fun h0 h1 hw hst => exec_xget_waits ht hw hst (by rw [hd]; exact h0)
      (by rw [hd]; exact h1)⟩

end Settled

end Sys2Proof.Machine
end

section
/-! The vector memory forms (R162, R163, R225, R234, R244): TCM in one piece and by elements, shared memory, O44. -/

namespace Sys2Proof.Machine

/-! ### TCM in one piece (R162) -/

section
variable {a b : Fld} {o : BitVec 10} {s u : State} {x : Word}

theorem exec_vld {bs : List Byte} {z : State} (ht : takeV [] [b] (some (a, false)) [] s = .ok ([], [x], u))
    (h : tcmLoad b (address x o.toInt 64) 64 (chargeOnce .vmem u) = .ok (bs, z)) : exec (.vld a b o) s = .next (z.vloads a bs) := by
  have hrun : vld a b o s = .ok (advance (setHvy (writeV a (bytesV bs) z))) := by
    unfold vld
    rw [ht]
    dsimp only
    rw [show eaOf = address from rfl, show [x].headD 0 = x from rfl, h]
  show finish (stripRun a (vld a b o) s) = _
  rw [stripRun_ok hrun, finish_ok, vl_done]

theorem exec_vst {d : BitVec 512} {z : State} (ht : takeV [a] [b] none [] s = .ok ([d], [x], u))
    (h : tcmStore b (address x o.toInt 64) (leBytes 64 d.toNat) (chargeOnce .vmem u) = .ok z) : exec (.vst a b o) s =
      .next (retire (advance (z.onCur fun t => { t with hvy := t.hvy || true }))) := by
  show finish (vst a b o s) = _
  unfold vst
  rw [ht]
  dsimp only
  rw [show eaOf = address from rfl, show [x].headD 0 = x from rfl, show vBytes (src1 [d]) = leBytes 64 d.toNat from rfl, h]
  exact done_hvy z

end

/-! ### TCM by elements (R163) -/

section
variable {a b c : Fld} {m : Bool} {f : BitVec 3} {s u : State} {base : Word} {vi d : BitVec 512}

/-- What a gather leaves in its destination. -/
def gathReg (w : Nat) (old : BitVec 512) (r : List (Nat × Nat)) : BitVec 512 :=
  vmap w (fun _ => true) 0 fun i => ((r.find? fun y => y.1 == i).map (·.2)).getD (elem w old i)

theorem exec_vgath (ht : takeV [c] [b] (some (a, m)) [] s = .ok ([vi], [base], u)) (hal : base.toNat % (fmtWidth f / 8) = 0)
    (hl : ∀ y ∈ gathers (fmtWidth f) m s.cur.vmask base vi, y.2 + fmtWidth f / 8 ≤ 131072 ∧ tcmBusy s y.2 (fmtWidth f / 8) = false ∧
      anyPoison s.core.tcmPoison y.2 (fmtWidth f / 8) = false) : exec (.vgath a b c m f) s =
    .next ((writeV a (gathReg (fmtWidth f) (s.getV a) ((gathers (fmtWidth f) m s.cur.vmask base vi).map fun y =>
      (y.1, leNat (tcmBytes s y.2 (fmtWidth f / 8))))) (charge .vmem u)).onCur fun t => { t with hvy := true }).retired := by
  have hrun : vgath a b c m f s = .ok (advance (setHvy (writeV a (gathReg (fmtWidth f) (s.getV a)
      ((gathers (fmtWidth f) m s.cur.vmask base vi).map fun y => (y.1, leNat (tcmBytes s y.2 (fmtWidth f / 8))))) (charge .vmem u)))) := by
    unfold vgath
    rw [ht]
    dsimp only
    rw [if_neg (by simpa using hal), show src1 [vi] = vi from rfl, show [base].headD 0 = base from rfl, gath_eq,
      gathBad_none (st := false) fun y hy => ⟨(hl y hy).1, fun h => absurd h Bool.false_ne_true⟩, gathRead_ok fun y hy => (hl y hy).2]
    rfl
  show finish (stripRun a (vgath a b c m f) s) = _
  rw [stripRun_ok hrun]
  rfl

/-- R150, R163: a masked element of a gather keeps its old value. -/
theorem gathReg_lane (old : BitVec 512) (mask : Word) (g : Nat → Nat) (k : Nat) (hk : k < 512 / fmtWidth f) :
    lane (fmtWidth f) (gathReg (fmtWidth f) old ((gathers (fmtWidth f) m mask base vi).map fun y => (y.1, g y.2))) k =
      if !m || mask.getLsbD k then BitVec.ofNat _ (g (base.toNat + (lane (fmtWidth f) vi k).toNat * (fmtWidth f / 8)))
      else lane (fmtWidth f) old k := by
  have hlist : (gathers (fmtWidth f) m mask base vi).map (fun y => (y.1, g y.2)) =
      ((List.range (512 / fmtWidth f)).filter fun k => !m || mask.getLsbD k).map fun k =>
        (k, g (base.toNat + (lane (fmtWidth f) vi k).toNat * (fmtWidth f / 8))) := by
    unfold gathers
    rw [List.map_map]
    rfl
  unfold gathReg
  rw [lane_vmap _ (fmt_pos f) _ _ _ k hk, if_pos rfl, hlist, find_gather (w := fmtWidth f) (p := fun k => !m || mask.getLsbD k)
    (g := fun k => g (base.toNat + (lane (fmtWidth f) vi k).toNat * (fmtWidth f / 8))) hk]
  by_cases h : (!m || mask.getLsbD k) = true
  · rw [if_pos h, if_pos h]
    rfl
  · rw [if_neg h, if_neg h, Option.getD_none, elem_lane]
    exact ofNat_toNat' _

theorem scatWrite_putAll (w : Nat) (x : BitVec 512) (l : List (Nat × Nat)) (z : State) :
    scatWrite w x l z = putAll (l.map fun y => (y.2, leBytes (w / 8) (lane w x y.1).toNat)) z := by
  unfold scatWrite putAll
  rw [List.foldl_map]
  simp only [elem_lane]

theorem exec_vscat (ht : takeV [c, a] [b] none [] s = .ok ([vi, d], [base], u)) (hal : base.toNat % (fmtWidth f / 8) = 0)
    (hl : ∀ y ∈ gathers (fmtWidth f) m s.cur.vmask base vi, y.2 + fmtWidth f / 8 ≤ 131072 ∧
      storeRefused112 s s.cur.priv y.2 (fmtWidth f / 8) = false ∧ storeRefused26 s y.2 (fmtWidth f / 8) = false ∧
      tcmBusyW s y.2 (fmtWidth f / 8) = false) : exec (.vscat a b c m f) s =
    .next (retire (advance ((putAll ((gathers (fmtWidth f) m s.cur.vmask base vi).map fun y =>
      (y.2, leBytes (fmtWidth f / 8) (lane (fmtWidth f) d y.1).toNat)) (charge .vmem u)).onCur fun t => { t with hvy := t.hvy || true }))) := by
  have hfree : ((gathers (fmtWidth f) m s.cur.vmask base vi).find? fun y => tcmBusyW s y.2 (fmtWidth f / 8)) = none := by
    rw [List.find?_eq_none]
    intro y hy
    simp [(hl y hy).2.2.2]
  show finish (vscat a b c m f s) = _
  unfold vscat
  rw [ht]
  dsimp only
  rw [if_neg (by simpa using hal), show src1 [vi, d] = vi from rfl, show [base].headD 0 = base from rfl, gath_eq,
    gathBad_none fun y hy => ⟨(hl y hy).1, fun _ => ⟨(hl y hy).2.1, (hl y hy).2.2.1⟩⟩]
  dsimp only
  rw [hfree]
  dsimp only
  rw [scatWrite_putAll]
  exact done_hvy _

/-- A state whose context has not been charged for its instruction, charged: as a store of it sees it. -/
theorem charge_payAs (c : Charge) (h : u.cur.paid = false) : charge c u = u.payAs false c := by
  unfold State.payAs
  rw [← h]
  rfl

end

/-! ### Shared memory (R162, R225, R234) -/

section
variable {a b : Fld} {o : BitVec 10} {p : BitVec 3} {s u v : State} {x : Word} {e : Tlb} {pa : Nat}

theorem loadSource_home (h : (ownBytes u pa 64).all (·.isSome) = false)
    (hw : u.core.vcache.find? (fun l => l.line == pa / 64) = none ∨ freshHome u pa p = true ∨ wordInFlight u.cur pa 64 = true) :
    loadSource u pa 64 p false = .home := by
  unfold loadSource lineOf
  rw [if_neg (Bool.not_eq_true _ ▸ h)]
  split
  · rfl
  · next hl => rw [if_pos (by simpa [hl] using hw)]

/-- R234: VSTS appends one record of 64 bytes. -/
theorem exec_vsts {d : BitVec 512} (hu : u.starts) (hsc : scopeOk s p = true) (ht : takeV [a] [b] none [] s = .ok ([d], [x], u))
    (hr : u.Reaches .store p (address x o.toInt 64) 64 v e pa)
    (hroom : 80 + (if (v.cur.recs.filter fun r => !r.ovf).isEmpty then 32 else 0) ≤ logFree v) :
    exec (.vsts a b o p) s = .next (v.completes .vmem fun t =>
      { t with recs := t.recs ++ [{ pa := pa, data := leBytes 64 d.toNat, idx := t.recCtr, marked := false, ovf := false }],
               floor := if t.floor < p then p else t.floor, recCtr := t.recCtr + 1, hvy := true }) := by
  have hsize : recSize (leBytes 64 d.toNat).length = 80 := by rw [leBytes_length]; rfl
  have hcharged := chargeOnce_paid (Reaches.starts hr hu) .vmem
  show finish (vsts (.vsts a b o p) a b o p s) = _
  unfold vsts
  rw [needScope_ok hsc, ht]
  dsimp only
  rw [show eaOf = address from rfl, show sharedAddr .store (address ([x].headD 0) o.toInt 64) 64 p u = _ from sharedAddr_ok hr]
  dsimp only
  rw [show autoDest v e pa = none from hr.stays, show vBytes (src1 [d]) = leBytes 64 d.toNat from rfl]
  dsimp only
  unfold appendRec
  rw [appendAt_room (by rw [hsize, hcharged, logFree_paid]; exact hroom)]
  rfl

end

namespace Settled

/-- Settles O44: the four forms of TCM by what they read or store, then the two of shared memory. -/
theorem vectorMemory : Obligations.VectorMemory := by
  refine ⟨⟨?_, ?_, ?_, ?_⟩, ?_, ?_⟩
  · intro a b o s x hs ht ea hin hbusy hpoison
    have hload := tcmLoad_ok hin hbusy hpoison .vmem
    rw [← chargeOnce_paid hs] at hload
    rw [exec_vld ht hload, chargeOnce_paid' hs.2.2]
  · intro a b o s u x d ht hu hm hsl ea hin h112 h26 hbusy
    have hlen : (leBytes 64 d.toNat).length = 64 := leBytes_length ..
    have hvst (z : State) := exec_vst (o := o) (z := z) ht
    generalize leBytes 64 d.toNat = bs at hlen hvst ⊢
    have hstore := tcmStore_ok (bs := bs) (by rwa [hlen]) (by rwa [hlen]) (by rwa [hlen]) (by rwa [hlen]) .vmem
    rw [← chargeOnce_paid hu] at hstore
    refine ⟨_, hvst _ hstore, ?_⟩
    rw [chargeOnce_paid hu]
    exact stores_ok hu hm hsl .vmem true true [(ea.toNat, bs)] (by
      intro w hw
      rw [List.mem_singleton.mp hw]
      exact hlen.symm ▸ h26)
  · intro a b c m f s u base vi ht w l hal hl
    exact ⟨_, exec_vgath ht hal hl, fun k hk => gathReg_lane _ _ (fun y => leNat (tcmBytes s y (fmtWidth f / 8))) k hk⟩
  · intro a b c m f s u base vi d ht hu hm hsl w l hal hl
    refine ⟨_, exec_vscat ht hal fun y hy => ?_, ?_⟩
    · obtain ⟨h1, h2, h3, -, h5⟩ := hl y hy
      exact ⟨h1, h2, h3, h5⟩
    · rw [charge_payAs .vmem hu.2.2]
      refine stores_ok hu hm hsl .vmem false true _ fun z hz => ?_
      obtain ⟨y, hy, rfl⟩ := List.mem_map.mp hz
      obtain ⟨-, -, -, h4, -⟩ := hl y hy
      dsimp only
      rwa [leBytes_length]
  · intro a b o p s u x e pa hs hsc ht haq hbad hpush hr run own inScope line
    have hpay : chargeOnce .vmem u = u.paid .vmem := chargeOnce_paid' (Reaches.starts hr hs).2.2 .vmem
    refine ⟨fun hown => ?_, fun hown => ⟨fun l hl hin hfl hpo => ?_, fun hw hroom => ?_⟩⟩
    · exact (vlds_run hsc ht haq hbad hpush hr (vload_own hpay hown)).trans (congrArg _ (vl_done ..))
    · exact (vlds_run hsc ht haq hbad hpush hr (vload_line hpay hown hl hin hfl hpo)).trans (congrArg _ (vl_done ..))
    · exact (vlds_run hsc ht haq hbad hpush hr (vload_home hpay (loadSource_home hown hw) hroom)).trans
        (congrArg _ (vload_home_done u _ _ hpay))
  · exact fun a b o p s u v x d e pa hu hsc ht hr hroom => exec_vsts hu hsc ht hr hroom

end Settled

end Sys2Proof.Machine
end

section
/-! The matrix unit (R173 to R189, R195, R197): its instructions at issue, MSTAT, the start and the completion of its commands, O45 and O46. -/

namespace Sys2Proof.Machine

/-! ### Issue (R174, R175, R181, R195) -/

section
variable {acc b c : Fld} {n : BitVec 6} {w st : Bool} {f : BitVec 3} {s : State}

theorem claimed_bar (s : State) (n : BitVec 6) : s.mxClaimed.bar n = s.bar n := by
  unfold State.bar
  rw [claimed_tile]

theorem claimed_rw (s : State) (b : Fld) : s.mxClaimed.rw b = s.rw b := by
  unfold State.rw State.getW
  rw [claimed_cur]

theorem claimed_paid (hs : s.starts) (c : Charge) : chargeOnce c s.mxClaimed = s.mxClaimed.paid c :=
  chargeOnce_paid' (by rw [claimed_cur]; exact hs.2.2) c

theorem paid_partCtr (s : State) (c : Charge) : (s.mxClaimed.paid c).cur.partCtr = s.cur.partCtr  := by
  have h := congrArg Task.partCtr (claimed_cur s)
  exact h

/-- R175: a command that passes its checks enters the queue, charged where its instruction is. -/
theorem issue_commands {ck : State → Res Unit} {g : State → MxCmd} {cost : Option Charge} {v : State} {fn : MxFn} {base : Nat}
    {bar : Option (BitVec 6)} {ph : BitVec 16} {d x : Word} (hm : s.mxMine) (he : s.mxClaimed.core.mx.err = false)
    (hp : s.cur.partCtr + 1 < 2 ^ 32 - 1) (hc : ck s = .ok ()) (hcost : (match cost with | none => s.mxClaimed | some c => chargeOnce c s.mxClaimed) = v)
    (hv : v.cur.partCtr = s.cur.partCtr) (hg : g (v.onCur fun t => { t with partCtr := t.partCtr + 1 }) =
      { mkCmd (v.onCur fun t => { t with partCtr := t.partCtr + 1 }) fn acc base with
        bar := bar, barPhase := ph, dst := d, amax := x, fmt := f, sat := st }) :
    finish (mxIssue ck g false cost s) = .next (v.commanded fn acc base bar ph d x f st) := by
  have hissue : mxIssue ck g false cost s = mxEnqueue g false v := by
    refine (mxIssue_ok hm he hc).trans ?_
    subst hcost
    cases cost <;> rfl
  rw [hissue, enq_ok (by rw [hv]; exact hp)]
  dsimp only
  rw [if_neg Bool.false_ne_true, hg, commanded_eq]

theorem exec_tile {fn : MxFn} {cost : Option Charge} {v : State} (hb : wBusy s.cur b = false) (hm : s.mxMine)
    (he : s.mxClaimed.core.mx.err = false) (hp : s.cur.partCtr + 1 < 2 ^ 32 - 1)
    (h1 : (s.rw b).toNat % 64 = 0) (h2 : (s.rw b).toNat < 131072) (h3 : w = true → (s.bar n).init = true)
    (hcost : (match cost with | none => s.mxClaimed | some c => chargeOnce c s.mxClaimed) = v) (hv : v.cur.partCtr = s.cur.partCtr)
    (hbar : v.bar n = s.bar n) (hrw : v.rw b = s.rw b) :
    finish (mxTile fn acc b n w cost s) = .next (v.commanded fn acc (s.rw b).toNat (if w then some n else none) (s.bar n).phase 0 0 0 false) := by
  unfold mxTile
  rw [needRegs1 hb]
  dsimp only
  refine issue_commands hm he hp (tile_ok h1 h2 h3) hcost hv ?_
  rw [← hbar, ← hrw]
  rfl

theorem tile_traps {fn : MxFn} {cost : Option Charge} {cz : BitVec 6} {x : Word} (hb : wBusy s.cur b = false) (hm : s.mxMine)
    (he : s.mxClaimed.core.mx.err = false) (hc : tileCheck (s.rw b) (barOf n w) s = trapR cz x s) :
    finish (mxTile fn acc b n w cost s) = .next (takeTrap cz 0 false x s) := by
  unfold mxTile
  rw [needRegs1 hb]
  exact issue_trapped hm he hc

/-- R181: the checks of MMA, MMAS and MLATCH on their tile and their barrier. -/
theorem exec_tile_traps (hb : wBusy s.cur b = false) (hm : s.mxMine) (he : s.mxClaimed.core.mx.err = false) {cz : BitVec 6} {x : Word}
    (hc : tileCheck (s.rw b) (barOf n w) s = trapR cz x s) :
    ∀ i ∈ [Instr.mma acc b n w, .mmas acc b n w, .mlatch b n w], exec i s = .next (takeTrap cz 0 false x s) := by
  simp only [List.forall_mem_cons, List.not_mem_nil, false_implies, implies_true, and_true]
  exact ⟨tile_traps hb hm he hc, tile_traps hb hm he hc, tile_traps hb hm he hc⟩

/-- R195: after an engine error the command is counted and discarded. -/
theorem exec_matrix_discarded (hb : wBusy s.cur b = false) (hc : wBusy s.cur c = false) (hm : s.mxMine) (he : s.mxClaimed.core.mx.err = true) :
    ∀ i ∈ [Instr.mma acc b n w, .mmas acc b n w, .mlatch b n w, .mzero acc, .mrot n, .mdrain acc b c st f],
      exec i s = .next ((s.mxClaimed.onCur fun t => { t with hvy := true }).onCore fun c =>
        { c with mx := { c.mx with disc := Nat.min 255 (c.mx.disc + 1) } }).retired := by
  have tile (fn : MxFn) (acc : Fld) (cost : Option Charge) : finish (mxTile fn acc b n w cost s) =
      .next ((s.mxClaimed.onCur fun t => { t with hvy := true }).onCore fun c =>
        { c with mx := { c.mx with disc := Nat.min 255 (c.mx.disc + 1) } }).retired := by
    unfold mxTile
    rw [needRegs1 hb]
    exact issue_err hm he
  have drain : finish (mdrain acc b c st f s) = .next ((s.mxClaimed.onCur fun t => { t with hvy := true }).onCore fun c =>
      { c with mx := { c.mx with disc := Nat.min 255 (c.mx.disc + 1) } }).retired := by
    unfold mdrain
    rw [needRegs2 hb hc]
    exact issue_err hm he
  simp only [List.forall_mem_cons, List.not_mem_nil, false_implies, implies_true, and_true]
  exact ⟨tile _ _ _, tile _ _ _, tile _ _ _, issue_err hm he, issue_err hm he, drain⟩

theorem exec_mzero (hs : s.starts) (hm : s.mxMine) (he : s.mxClaimed.core.mx.err = false) (hp : s.cur.partCtr + 1 < 2 ^ 32 - 1) :
    exec (.mzero acc) s = .next ((s.mxClaimed.paid .mctl).commanded .mzero acc 0 none 0 0 0 0 false) :=
  issue_commands hm he hp rfl (claimed_paid hs .mctl) (paid_partCtr s .mctl) rfl

/-- R186: MROT needs a barrier of eight arrivals. -/
theorem exec_mrot_traps (hm : s.mxMine) (he : s.mxClaimed.core.mx.err = false) (h : ¬ ((s.bar n).init = true ∧ (s.bar n).count = 8)) :
    exec (.mrot n) s = .next (takeTrap 0x13 0 false (n.setWidth 64) s) := by
  refine issue_trapped hm he (if_neg ?_)
  rw [Bool.and_eq_true, beq_iff_eq]
  exact h

theorem exec_mrot (hs : s.starts) (hm : s.mxMine) (he : s.mxClaimed.core.mx.err = false) (hp : s.cur.partCtr + 1 < 2 ^ 32 - 1)
    (h : (s.bar n).init = true ∧ (s.bar n).count = 8) :
    exec (.mrot n) s = .next ((s.mxClaimed.paid .mctl).commanded .mrot 0 0 (some n) (s.bar n).phase 0 0 0 false) := by
  refine issue_commands hm he hp (if_pos ?_) (claimed_paid hs .mctl) (paid_partCtr s .mctl) ?_
  · rw [Bool.and_eq_true, beq_iff_eq]
    exact h
  · rw [← claimed_bar]
    rfl

/-! ### MDRAIN (R188) -/

/-- R188: the checks of MDRAIN, in their order. -/
theorem mdrainCheck_eq (a x : Word) (f : BitVec 3) (s : State) : mdrainCheck a x f s =
    if a.getLsbD 63 = true ∧ a.toNat / 2 ^ 17 ≠ 2 ^ 46 then trapR cACCESS a s
    else if (if a.getLsbD 63 then a.toNat % 2 ^ 17 else a.toNat) % 64 ≠ 0 then trapR cALIGN a s
    else if ¬ (if a.getLsbD 63 then a.toNat % 2 ^ 17 + tileLen f ≤ 131072 ∧ storeRefused112 s s.cur.priv (a.toNat % 2 ^ 17) (tileLen f) = false
        else a.toNat + tileLen f ≤ 2 ^ 56) then trapR cACCESS a s
    else if x.toNat % 4 ≠ 0 then trapR cALIGN x s
    else if 2 ^ 56 ≤ x.toNat then trapR cACCESS x s
    else .ok () := by
  unfold mdrainCheck
  dsimp only
  rw [low17, show tileBytes f = tileLen f from rfl]
  by_cases ht : a.getLsbD 63 = true
  · simp only [ht, if_true, hole_eq a ht, true_and, decide_eq_true_eq, bne_iff_ne, Bool.or_eq_true, not_and_or, Nat.not_le,
      Bool.not_eq_false, ge_iff_le, gt_iff_lt]
  · simp only [ht, if_false, false_and, bne_iff_ne, Nat.not_le, ge_iff_le, gt_iff_lt, Bool.false_eq_true]

theorem mdrain_traps {cz : BitVec 6} {x : Word} (hb : wBusy s.cur b = false) (hc : wBusy s.cur c = false) (hm : s.mxMine)
    (he : s.mxClaimed.core.mx.err = false) (hck : mdrainCheck (s.rw b) (s.rw c) f s = trapR cz x s) :
    exec (.mdrain acc b c st f) s = .next (takeTrap cz 0 false x s) := by
  show finish (mdrain acc b c st f s) = _
  unfold mdrain
  rw [needRegs2 hb hc]
  exact issue_trapped hm he hck

/-- R188, R254: MDRAIN; one that touches shared memory escapes. -/
theorem exec_mdrain (hs : s.starts) (hb : wBusy s.cur b = false) (hc : wBusy s.cur c = false) (hm : s.mxMine)
    (he : s.mxClaimed.core.mx.err = false) (hp : s.cur.partCtr + 1 < 2 ^ 32 - 1) (hck : mdrainCheck (s.rw b) (s.rw c) f s = .ok ()) :
    exec (.mdrain acc b c st f) s = .next ((if (s.rw b).getLsbD 63 = true ∧ s.rw c = 0 then s.mxClaimed.paid .mdrn
      else (s.mxClaimed.paid .mdrn).escaped).commanded .mdrain acc 0 none 0 (s.rw b) (s.rw c) f st) := by
  show finish (mdrain acc b c st f s) = _
  unfold mdrain
  rw [needRegs2 hb hc]
  dsimp only
  rw [mxIssue_ok hm he hck]
  dsimp only
  rw [claimed_paid hs, enq_ok (claimed_part' .mdrn hp)]
  dsimp only
  rw [escape_part]
  by_cases h : (s.rw b).getLsbD 63 = true ∧ s.rw c = 0
  · rw [if_neg (by simp [h.1, h.2]), if_pos h, commanded_eq]
    rfl
  · have escapes : (!(s.rw b).getLsbD 63 || s.rw c != 0) = true := by
      rw [Bool.or_eq_true, Bool.not_eq_true', bne_iff_ne, ← Bool.not_eq_true, ← not_and_or]
      exact h
    rw [if_pos escapes, if_neg h, commanded_eq]
    rfl

end

/-! ### MSTAT (R187) -/

theorem mstatWord_eq (s : State) : mstatWord s = BitVec.ofNat 64 (s.core.mx.done.toNat * 2 ^ 32 + s.core.mx.disc % 256 * 2 ^ 24
    + s.core.mx.hist1.length % 32 * 2 ^ 19 + s.core.mx.hist0.length % 32 * 2 ^ 14 + s.core.mx.k1.toNat * 2 ^ 13 + s.core.mx.k0.toNat * 2 ^ 12
    + ((headWaits s).map fun n => 2 ^ 11 + n.toNat * 2 ^ 4).getD 0 + s.core.mx.queue.length % 16) := by
  have h0 := s.core.mx.done.isLt
  have h1 := Bool.toNat_lt s.core.mx.k1
  have h2 := Bool.toNat_lt s.core.mx.k0
  unfold mstatWord
  apply BitVec.eq_of_toNat_eq
  cases headWaits s with
  | none =>
    simp (decide := true) only [app_toNat, BitVec.toNat_ofNat, BitVec.toNat_ofBool, Option.isSome_none, Option.getD_none, Option.map_none,
      Bool.toNat_false, show (0 : BitVec 6).toNat = 0 from rfl]
    omega
  | some n =>
    have h3 := n.isLt
    simp (decide := true) only [app_toNat, BitVec.toNat_ofNat, BitVec.toNat_ofBool, Option.isSome_some, Option.getD_some, Option.map_some,
      Bool.toNat_true]
    omega

theorem exec_mstat {d : Fld} {s : State} (ht : takeS [] [d] s = .ok ([], s)) : exec (.mstat d) s =
    .next ((charge .mctl s).onCur fun t => { Task.put d (mstatWord s) t with hvy := true }).retired := by
  show finish (mstat d s) = _
  unfold mstat
  rw [ht]
  dsimp only
  rw [writeS_put]
  rfl

namespace Settled

/-- Settles O45: the context claimed, then each check and the command. -/
theorem matrixInstructions : Obligations.MatrixInstructions := by
  refine ⟨?_, ?_⟩
  · intro acc b c n w st f s hs hb hc hm u a bar ph trap
    have claimed := claimed_cur s
    have part : u.cur.partCtr = s.cur.partCtr := congrArg Task.partCtr claimed
    refine ⟨exec_matrix_discarded hb hc hm, fun he hp => ⟨?_, ?_, exec_mzero hs hm he hp, exec_mrot_traps hm he,
      fun h1 h2 => exec_mrot hs hm he hp ⟨h1, h2⟩, ?_⟩⟩
    · intro i hi
      refine ⟨fun h => exec_tile_traps hb hm he (tile_trap3 h) i hi, fun h1 h2 => exec_tile_traps hb hm he (tile_trap4 h1 h2) i hi, ?_⟩
      rintro h1 h2 rfl h3
      exact exec_tile_traps hb hm he (tile_trap8 h1 h2 h3) i hi
    · intro h1 h2 h3
      exact ⟨exec_tile hb hm he hp h1 h2 h3 rfl part (claimed_bar s n) (claimed_rw s b),
        exec_tile hb hm he hp h1 h2 h3 rfl part (claimed_bar s n) (claimed_rw s b),
        exec_tile hb hm he hp h1 h2 h3 (claimed_paid hs .mctl) part (claimed_bar s n) (claimed_rw s b)⟩
    · intro x tcm t hole base fits
      have checks := mdrainCheck_eq a x f s
      refine ⟨fun h1 h2 => ?_, fun h1 h2 => ?_, fun h1 h2 h3 => ?_, fun h1 h2 h3 h4 => ?_, fun h1 h2 h3 h4 h5 => ?_,
        fun h1 h2 h3 h4 h5 => ?_⟩
      · exact mdrain_traps hb hc hm he (checks.trans (if_pos ⟨h1, h2⟩))
      · exact mdrain_traps hb hc hm he (checks.trans ((if_neg h1).trans (if_pos h2)))
      · exact mdrain_traps hb hc hm he (checks.trans ((if_neg h1).trans ((if_neg (not_not.2 h2)).trans (if_pos h3))))
      · exact mdrain_traps hb hc hm he (checks.trans ((if_neg h1).trans ((if_neg (not_not.2 h2)).trans ((if_neg (not_not.2 h3)).trans (if_pos h4)))))
      · exact mdrain_traps hb hc hm he (checks.trans ((if_neg h1).trans ((if_neg (not_not.2 h2)).trans ((if_neg (not_not.2 h3)).trans
          ((if_neg (not_not.2 h4)).trans (if_pos h5))))))
      · exact exec_mdrain hs hb hc hm he hp (checks.trans ((if_neg h1).trans ((if_neg (not_not.2 h2)).trans ((if_neg (not_not.2 h3)).trans
          ((if_neg (not_not.2 h4)).trans (if_neg (Nat.not_le.2 h5)))))))
  · intro d s ht m waits
    have hw : headWaits s = waits := rfl
    rw [exec_mstat ht, mstatWord_eq, hw]

end Settled

end Sys2Proof.Machine
end

section
/-! The commands of the matrix unit (R174, R177 to R181, R184, R185, R188, R197, R399): what starts, what it computes, what completes, O46. -/

namespace Sys2Proof.Machine

/-! ### What one element of an accumulator becomes (R178, R179) -/

theorem bytes_row (x : List Byte) (n : Nat) : ((List.range 64).map fun k => packedElem 8 x (64 * n + k)) =
    (List.range 64).map fun k => (x.getD (64 * n + k) 0).toNat :=
  List.map_congr_left fun _ _ => packed8 ..

/-- R179: the exact sum of an integer command. -/
theorem mxElem_int (s : State) (m : MxCmd) (l : Latch) (hl : l.fmt = 5) (i : Nat) (hi : i < 4096) (old : Option (BitVec 32)) :
    mxElem .int8 (mxRows 5 (tcmBytes s m.base 4096) { codes := [], sup := 0, seq := 0 } l (i / 64) (i % 64)) old =
      BitVec.ofInt 32 ((old.map (·.toInt)).getD 0 + ((List.range 64).map fun k =>
        (tcmByte s (m.base + (64 * (i / 64) + k))).toInt * (l.tile.getD (64 * (i % 64) + k) 0).toInt).sum) := by
  unfold mxElem mxDotI mxRows
  dsimp only
  rw [hl, rows_a s m.base 5 rfl i hi, show fmtWidth 5 = 8 from rfl, bytes_row, zip_map, List.map_map]
  simp only [Function.comp_def, intOf_toInt 8 (by decide)]
  cases old <;> rfl

theorem mxValue_float {f : BitVec 3} (h : f ≠ 7) (x : Nat) : mxValue f x = decodeF (fmtOf f) x := if_neg h

/-- R178: the exact sum of a command on the 8-bit formats, rounded once. -/
theorem mxElem_float (s : State) (m : MxCmd) (l : Latch) {f g : BitVec 3} (hf : f ≠ 7) (hg : g ≠ 7) (wf : fmtWidth f = 8) (wg : fmtWidth g = 8)
    (hl : l.fmt = g) (i : Nat) (hi : i < 4096) (old : Option (BitVec 32)) :
    let d := FV.sum ((List.range 64).map fun k => (decodeF (fmtOf f) (tcmByte s (m.base + (64 * (i / 64) + k))).toNat).mul
      (decodeF (fmtOf g) (l.tile.getD (64 * (i % 64) + k) 0).toNat))
    mxElem .float8 (mxRows f (tcmBytes s m.base 4096) { codes := [], sup := 0, seq := 0 } l (i / 64) (i % 64)) old =
      BitVec.ofNat 32 (roundF fp32 false false ((old.map fun o => (decodeF fp32 o.toNat).add d).getD d)) := by
  intro d
  have hdot : mxDot8 (mxRows f (tcmBytes s m.base 4096) { codes := [], sup := 0, seq := 0 } l (i / 64) (i % 64)) = d := by
    unfold mxDot8 mxProducts mxRows
    dsimp only
    rw [hl, if_neg (not_or.2 ⟨hf, hg⟩), rows_a s m.base f wf i hi, wg, bytes_row, zip_map, List.map_map]
    simp only [Function.comp_def, mxValue_float hf, mxValue_float hg]
    rfl
  unfold mxElem
  rw [hdot]
  cases old <;> rfl

/-! ### Commands that start (R175, R184, R185) -/

section
variable {s : State} {m : MxCmd} {r : List MxCmd} (hp : s.core.preempt = false) (hh : s.tile.halted = false) (hq : s.core.mx.queue = m :: r)
  (h1 : m.started = false) (h2 : ∀ n, m.bar = some n → phasePassed (s.bar n) m.barPhase = true)
include hp hh hq h1 h2

/-- R175: the head starts once its barrier has passed and its accumulator is present. -/
theorem head_starts (h3 : m.fn ≠ .mrot) (h4 : mxPresent s m = true) : exec .matrixCmdStart s = .next (mxStart 0 m s) :=
  start_eq hp hh (next_head hq h1 h2 h3 h4)

theorem mzero_starts (hf : m.fn = .mzero) : exec .matrixCmdStart s =
    .next (markStarted 0 (onMx (fun c => c.setAcc m.acc [] false [] false) s)) := by
  rw [head_starts hp hh hq h1 h2 (by rw [hf]; decide) (by unfold mxPresent; rw [hf])]
  unfold mxStart
  rw [hf]

theorem mdrain_starts (hf : m.fn = .mdrain) (h4 : (if m.acc then s.core.mx.absent1 else s.core.mx.absent0) = 0) :
    exec .matrixCmdStart s = .next (s.onMatrix fun c => { c with queue := { m with started := true } :: r }) := by
  have present : mxPresent s m = true := by
    unfold mxPresent
    rw [hf]
    exact beq_iff_eq.2 h4
  have start : mxStart 0 m s = markStarted 0 s := by unfold mxStart; rw [hf]
  rw [head_starts hp hh hq h1 h2 (by rw [hf]; decide) present, start, mark_eq hq]

/-- R185: MLATCH reads its tile into the loading buffer. -/
theorem mlatch_starts (hf : m.fn = .mlatch) (hfmt : m.fmtb ∈ [(1 : BitVec 3), 2, 3, 4, 5]) (hin : m.base + tileLen m.fmtb ≤ 131072)
    (hpo : anyPoison s.core.tcmPoison m.base (tileLen m.fmtb) = false) :
    exec .matrixCmdStart s = .next (s.onMatrix fun c =>
      { c with queue := { m with started := true } :: r,
               load := { fmt := m.fmtb, tile := tcmBytes s m.base (tileLen m.fmtb), codes := [], sup := 0 } }) := by
  have supported : (m.fmtb == 0 || m.fmtb == 6) = false ∧ m.fmtb ≠ 7 := by
    generalize m.fmtb = f at hfmt
    revert f
    decide
  obtain ⟨hok, h7⟩ := supported
  have notRec : (m.fmtb == 7) = false := by simpa using h7
  have hcheck : mxStartCheck s m = none := by
    have hl : mlatchCheck s m = none := by
      unfold mlatchCheck
      rw [hok, if_neg Bool.false_ne_true, show tileBytes m.fmtb = tileLen m.fmtb from rfl, if_neg (Nat.not_lt.2 hin), if_pos (by simpa using h7)]
    have hpo' : mxPoison s m = none := by
      unfold mxPoison
      rw [hf]
      dsimp only
      rw [show (MxFn.mlatch == MxFn.mlatch) = true from rfl, if_pos rfl, notRec, Bool.false_and, if_neg Bool.false_ne_true,
        show tileBytes m.fmtb = tileLen m.fmtb from rfl, hpo, if_neg Bool.false_ne_true]
    unfold mxStartCheck
    rw [hf]
    dsimp only
    rw [show (MxFn.mlatch == MxFn.mlatch) = true from rfl, if_pos rfl, hl, hpo']
    rfl
  have hrun : mlatchRun s m = s.onMatrix fun c =>
      { c with load := { fmt := m.fmtb, tile := tcmBytes s m.base (tileLen m.fmtb), codes := [], sup := 0 } } := by
    unfold mlatchRun
    dsimp only
    rw [notRec]
    rfl
  have start : mxStart 0 m s = markStarted 0 (mlatchRun s m) := by
    unfold mxStart
    rw [hf]
    dsimp only
    rw [hcheck]
  rw [head_starts hp hh hq h1 h2 (by rw [hf]; decide) (by unfold mxPresent; rw [hf]), start, hrun]
  exact congrArg Host.Outcome.next (mark_eq (s := s.onMatrix fun c =>
    { c with load := { fmt := m.fmtb, tile := tcmBytes s m.base (tileLen m.fmtb), codes := [], sup := 0 } }) hq)

end

theorem mzero_marked {s : State} {m : MxCmd} {r : List MxCmd} (hq : s.core.mx.queue = m :: r) :
    (markStarted 0 (onMx (fun c => c.setAcc m.acc [] false [] false) s)).core.mx =
      { s.core.mx.setAcc m.acc [] false [] false with queue := { m with started := true } :: r } := by
  obtain ⟨-, -, -, hqueue, -⟩ := acc_set s.core.mx m.acc [] false [] false
  exact mark_queue (s := onMx (fun c => c.setAcc m.acc [] false [] false) s) (hqueue.trans hq)

/-! ### Commands that complete (R174, R185, R186, R188) -/

section
variable {s : State} {m : MxCmd} {r : List MxCmd} (hq : s.core.mx.queue = m :: r)
include hq

theorem exec_complete (h1 : m.started = true) : exec .matrixCmdComplete s = .next (match m.fn with
    | .mrot => s
    | .mlatch => mxPop (onMx (fun c => latchSwitch c.load c) s)
    | .mdrain => if engHeld s then s else (drainStep m s).1
    | .mma | .mmas | .mzero => mxPop s) := by
  show done (mxComplete s).1 = _
  unfold mxComplete
  rw [hq]
  dsimp only
  rw [h1, Bool.not_true, if_neg Bool.false_ne_true]
  cases m.fn with
  | mdrain =>
    dsimp only
    split <;> rfl
  | _ => rfl

theorem tail_of_queue : s.core.mx.queue.drop 1 = r := by rw [hq]; rfl

theorem compute_completes (h1 : m.started = true) (hf : m.fn = .mma ∨ m.fn = .mmas ∨ m.fn = .mzero) : exec .matrixCmdComplete s = .next (s.popped r) := by
  rw [exec_complete hq h1, ← pop_eq r s (tail_of_queue hq)]
  rcases hf with h | h | h <;> rw [h]

/-- R185: the latch takes effect; the histories begin anew. -/
theorem mlatch_completes (h1 : m.started = true) (hf : m.fn = .mlatch) : exec .matrixCmdComplete s = .next ((s.onMatrix fun c =>
    { c with cur := c.load, hist0 := [], hist1 := [], chk0 := c.chk0 || !c.hist0.isEmpty, chk1 := c.chk1 || !c.hist1.isEmpty }).popped r) := by
  rw [exec_complete hq h1, hf]
  dsimp only
  rw [← latch_eq]
  exact congrArg Host.Outcome.next (settle_eq (fun c => latchSwitch c.load c) (fun _ => rfl) r s (tail_of_queue hq) (fun _ => rfl))

theorem mdrain_completes (h1 : m.started = true) (hp : s.core.preempt = false) (hh : s.tile.halted = false) (hf : m.fn = .mdrain) :
    exec .matrixCmdComplete s = .next (drainStep m s).1 := by
  have free : engHeld s = false := by unfold engHeld; rw [hp, hh]; rfl
  rw [exec_complete hq h1, hf]
  dsimp only
  rw [free, if_neg Bool.false_ne_true]

omit hq in
theorem tcmPut_queue (s : State) (a : Nat) (bs : List Byte) : (tcmPut s a bs).core.mx.queue = s.core.mx.queue := by
  obtain ⟨F, -, -, -, halike⟩ := puts_tasks bs s a
  have e := congrArg (fun c : CoreSt => c.mx.queue) halike.1
  exact e

/-- R188: the next 64 bytes of a drain to TCM. -/
theorem drainStep_tcm (ht : m.dst.getLsbD 63 = true) (hm : 64 * m.moved < tileLen m.fmt) : (drainStep m s).1 =
    (tcmPut s (m.dst.toNat % 2 ^ 17 + 64 * m.moved) (drainUnit (s.core.mx.kind m.acc) m.fmt m.sat (s.core.mx.acc m.acc) m.moved)).onMatrix fun c =>
      { c with queue := { m with moved := m.moved + 1 } :: r } := by
  have hqueue : (tcmPut s (m.dst.toNat % 2 ^ 17 + 64 * m.moved)
      (drainUnit (s.core.mx.kind m.acc) m.fmt m.sat (s.core.mx.acc m.acc) m.moved)).core.mx.queue = m :: r := (tcmPut_queue ..).trans hq
  unfold drainStep
  rw [show tileBytes m.fmt = tileLen m.fmt from rfl, if_neg (Nat.not_le.2 hm), ht]
  dsimp only
  rw [Bool.not_true, Bool.false_and, if_neg Bool.false_ne_true, if_pos rfl, low17]
  unfold engWrite
  rw [if_pos rfl, if_pos rfl]
  generalize tcmPut s _ _ = z at hqueue ⊢
  show z.onCore (fun c => { c with mx := { c.mx with queue := modIdx c.mx.queue 0 _ } }) = z.onCore _
  unfold State.onCore
  dsimp only
  rw [hqueue]
  rfl

/-- R189: the end of a drain without an absolute maximum. -/
theorem drainStep_end (hm : tileLen m.fmt ≤ 64 * m.moved) (hx : m.amax = 0) : (drainStep m s).1 = s.popped r := by
  unfold drainStep
  rw [show tileBytes m.fmt = tileLen m.fmt from rfl, if_pos hm]
  unfold drainAmo
  rw [if_pos hx]
  exact pop_eq r s (tail_of_queue hq)

/-- R186: the rotation, once the phase that the MROT joined has completed. -/
theorem mrot_completes (h1 : m.started = true) (hf : m.fn = .mrot) (h2 : ∀ n, m.bar = some n → phasePassed (s.bar n) m.barPhase = true) : ∃ l, exec .mrotRotate s =
    .next (({ s with fresh := s.fresh + 8258 }.onMatrix fun c =>
      { c with cur := l, hist0 := [], hist1 := [], chk0 := c.chk0 || !c.hist0.isEmpty, chk1 := c.chk1 || !c.hist1.isEmpty }).popped r) := by
  have released : mxReleased s m = true := by
    unfold mxReleased
    cases hb : m.bar with
    | none => rfl
    | some n => exact h2 n hb
  obtain ⟨l, hl⟩ := freeLatch_eq s
  refine ⟨l, ?_⟩
  show done (mrotRotate s) = _
  unfold mrotRotate
  rw [hq]
  dsimp only
  rw [hf, h1, released, hl]
  dsimp only
  rw [← latch_eq (g := fun _ => l)]
  exact congrArg Host.Outcome.next
    (settle_eq (latchSwitch l) (fun _ => rfl) r { s with fresh := s.fresh + 8258 } (tail_of_queue hq) (fun _ => rfl))

end

/-! ### The replay after a parity error (R197, R399) -/

theorem replay_plain {s : State} {x : Bool} (h : s.core.mx.chk x = false) : exec (.accParityReplay x) s = .next s := by
  show done (accParityReplay x s) = _
  unfold accParityReplay
  rw [h]
  rfl

theorem updCtx_keeps (p : Task → Bool) (f : Task → Task) (s : State) : (s.updCtx p f).core = s.core ∧ (s.updCtx p f).fresh = s.fresh ∧
    (s.updCtx p f).tile = s.tile ∧ (s.updCtx p f).home = s.home := by
  unfold State.updCtx
  split <;> exact ⟨rfl, rfl, rfl, rfl⟩

/-- R399: of a checkpoint's base a free value tells whether it is intact. -/
theorem replay_checkpoint {s : State} {x : Bool} (h : s.core.mx.chk x = true) : ∃ t, exec (.accParityReplay x) s = .next t ∧
    t.core.mx = s.core.mx ∧ t.fresh = s.fresh + 1 ∧ t.tile = s.tile ∧ t.home = s.home ∧
    ((Config.freeWord s.fresh).getLsbD 0 = false → t = { s with fresh := s.fresh + 1 }) := by
  have hrun : exec (.accParityReplay x) s = .next (if (Config.freeWord s.fresh).getLsbD 0 = false then { s with fresh := s.fresh + 1 }
      else match s.core.mx.owner with
      | none => { s with fresh := s.fresh + 1 }
      | some (t, o) => { s with fresh := s.fresh + 1 }.updCtx (fun u : Task => u.st != TaskSt.ended && !u.shadow && sameTask u t o) (errOf 1 0 0)) := by
    show done (accParityReplay x s) = _
    unfold accParityReplay
    rw [h, Bool.not_true, if_neg Bool.false_ne_true]
    show done (if (!(Config.freeWord s.fresh).getLsbD 0) = true then _ else _) = _
    cases (Config.freeWord s.fresh).getLsbD 0 <;> rfl
  refine ⟨_, hrun, ?_⟩
  split
  · exact ⟨rfl, rfl, rfl, rfl, fun _ => rfl⟩
  · next hfree =>
    split
    · exact ⟨rfl, rfl, rfl, rfl, fun hf => absurd hf hfree⟩
    · obtain ⟨hcore, hfresh, htile, hhome⟩ := updCtx_keeps _ _ _
      exact ⟨congrArg CoreSt.mx hcore, hfresh, htile, hhome, fun hf => absurd hf hfree⟩

namespace Settled

/-- Settles O46: the start of each command, its completion, the replay. -/
theorem matrixCommands : Obligations.MatrixCommands := by
  intro s m r hp hh hq mx going free
  refine ⟨fun h1 h2 => ⟨?_, fun hf h4 => mdrain_starts hp hh hq h1 h2 hf h4, ?_, fun hf => mlatch_starts hp hh hq h1 h2 hf⟩,
    fun h1 => ⟨compute_completes hq h1, mlatch_completes hq h1, ?_, ?_, mrot_completes hq h1⟩, fun x h => replay_plain (x := x) (by cases x <;> exact h),
    fun x h => replay_checkpoint (x := x) (by cases x <;> exact h)⟩
  · intro hf
    obtain ⟨hacc, hother, -, -, -, -⟩ := acc_set mx m.acc [] false [] false
    have hmx := mzero_marked hq
    refine ⟨_, mzero_starts hp hh hq h1 h2 hf, by rw [hmx], fun i => ⟨?_, ?_⟩, ?_, fun x => rfl⟩
    · rw [hmx]
      exact congrFun hacc i
    · rw [hmx]
      exact congrFun hother i
    · rw [hmx]
      cases m.acc <;> exact ⟨rfl, rfl⟩
  · intro hf habs old a b reads
    refine ⟨fun ha hb hl ⟨hin, hpo⟩ => ?_, fun f g hfset hgset ha hb hl ⟨hin, hpo⟩ => ?_⟩
    · have hk : mxClass m.fmta mx.cur.fmt = some .int8 := by rw [ha, hl]; rfl
      obtain ⟨t, hrun, hqueue, hkind, helem⟩ := mma_run hp hh hq h1 h2 hf habs hk (hl.trans hb.symm) (by rw [ha]; decide) (by rw [hb]; decide)
        (by rw [ha]; rfl) hin hpo
      refine ⟨t, hrun, hqueue, hkind, fun i hi => ⟨(helem i hi).1, ?_⟩⟩
      rw [(helem i hi).2, ha]
      exact mxElem_int s m mx.cur hl i hi (old i)
    · have float : ∀ f : BitVec 3, f = 3 ∨ f = 4 → f ≠ 7 ∧ fmtWidth f = 8 := by decide
      obtain ⟨hf7, wf⟩ := float f hfset
      obtain ⟨hg7, wg⟩ := float g hgset
      have hk : mxClass m.fmta mx.cur.fmt = some .float8 := by
        rw [ha, hl]
        rcases hfset with rfl | rfl <;> rcases hgset with rfl | rfl <;> rfl
      obtain ⟨t, hrun, hqueue, hkind, helem⟩ := mma_run hp hh hq h1 h2 hf habs hk (hl.trans hb.symm) (by rw [ha]; exact hf7)
        (by rw [hb]; exact hg7) (by rw [ha]; exact wf) hin hpo
      refine ⟨t, hrun, hqueue, hkind, fun i hi => ⟨(helem i hi).1, ?_⟩⟩
      intro d
      rw [(helem i hi).2, ha]
      exact mxElem_float s m mx.cur hf7 hg7 wf wg hl i hi (old i)
  · intro hf ht hm
    rw [mdrain_completes hq h1 hp hh hf, drainStep_tcm hq ht hm]
    rfl
  · intro hf hm hx
    rw [mdrain_completes hq h1 hp hh hf, drainStep_end hq hm hx]

end Settled

end Sys2Proof.Machine
end

section
/-! The function instructions (R199 to R218), as equations of their execution: the algebra, the instructions with scalar operands or
records, the reads, O47 to O49. -/

namespace Sys2Proof.Machine

/-! ### An instruction whose result is a register (R201 to R204) -/

/-- An instruction that leaves `r` in a register, or takes FPOOL where the pool has no room for it; `u` is the state with its
operands taken. -/
def State.yields (s u : State) (run : Host.Outcome State Fault Refusal) (cls : Charge) (srcs : List Fld) (dst : Fld) (a b : BitVec 32)
    (r : List Nat × Bool) (lrs : List Fld) : Prop :=
  (poolFree s.core < (r.1.length + 7) / 8 → run = .next (takeTrap 0x0B 0 false (BitVec.ofNat 64 ((r.1.length + 7) / 8)) s)) ∧
  ((r.1.length + 7) / 8 ≤ poolFree s.core → ∃ t, run = .next t ∧ u.Computes cls srcs dst a b r.1 r.2 lrs t)

theorem same_self (s : State) : Same s s := ⟨rfl, rfl, rfl, fun _ => rfl⟩

section
variable {s u : State} {run : Host.Outcome State Fault Refusal} {c : Charge} {srcs : List Fld} {dst : Fld} {a b : BitVec 32} {cs : List Nat}
  {lrs : List Fld} (hs : s.starts)
include hs

theorem yields_truncated (h : Same s u) (hrun : run = finish (fResult s c srcs dst a b cs true false lrs u)) {r : List Nat} (hr : cs = r) :
    s.yields u run c srcs dst a b (truncated s.cur r) lrs := by
  subst hr hrun
  exact fresU hs h c srcs dst a b cs lrs

theorem yields_whole (h : Same s u) (hrun : run = finish (fResult s c srcs dst a b cs false false lrs u)) (hl : cs.length < 512) :
    s.yields u run c srcs dst a b (cs, false) lrs := by
  subst hrun
  exact fresV hs h c srcs dst a b cs lrs hl

theorem yields_inexact {fx : Bool} (hrun : run = finish (fResult s c srcs dst a b cs true fx lrs s)) :
    s.yields s run c srcs dst a b ((truncated s.cur cs).1, (truncated s.cur cs).2 || fx) lrs := by
  subst hrun
  exact fresT hs.1 hs.2.1 c srcs dst a b cs fx lrs

end

theorem coefs_short (s : State) (f : Fld) : ((s.coefs f).map (·.toNat)).length < 512 := by
  rw [List.length_map, coefs_length]
  exact (s.cur.freg f).n.isLt

theorem fIdx_toNat (f : Fld) : (fIdx f).toNat = f.toNat % 8 := by
  unfold fIdx
  rw [BitVec.extractLsb'_toNat, Nat.shiftRight_zero]

/-! ### The algebra (R208 to R211) -/

section
variable {s : State} {a b c : Fld} {l k : Bool}

theorem fBin_ok (f : List Nat → List Nat → List Nat) (hb : s.full b) (hc : s.full c) (ha : (s.cur.freg b).a = (s.cur.freg c).a)
    (hd : (s.cur.freg b).b = (s.cur.freg c).b) : fBin f a b c l k s = fResult s .falg [b, c] a (s.cur.freg b).a (s.cur.freg b).b
      (f (coefsOf s.core (s.cur.freg b)) (coefsOf s.core (s.cur.freg c))) true false (lastReads b k ++ lastReads c l) s := by
  obtain ⟨h1, h2⟩ := full_ok (s := s) (l := [b, c]) (by simp [hb, hc])
  unfold fBin
  rw [h1]
  dsimp only
  rw [ha, hd, bne_self_eq_false, bne_self_eq_false, Bool.or_false, if_neg Bool.false_ne_true, h2]
  rfl

theorem fBin_empty {f : List Nat → List Nat → List Nat} {x : Stop} (h : needFull [b, c] s = .error x) : fBin f a b c l k s = .error x := by
  unfold fBin
  rw [h]

theorem fBin_unequal {f : List Nat → List Nat → List Nat} (hb : (s.cur.freg b).n ≠ 0) (hc : (s.cur.freg c).n ≠ 0)
    (h : (s.cur.freg b).a ≠ (s.cur.freg c).a ∨ (s.cur.freg b).b ≠ (s.cur.freg c).b) :
    fBin f a b c l k s = trapD cFDOM 1 (c.setWidth 64) s := by
  have both : needFull [b, c] s = .ok () := by
    unfold needFull
    rw [if_neg hb]
    unfold needFull
    rw [if_neg hc]
    rfl
  unfold fBin
  rw [both]
  dsimp only
  rw [if_pos (by simpa [bne_iff_ne] using h)]
  rfl

theorem fUn_ok (f : FReg → List Nat → List Nat) (hb : s.full b) : fUn f a b k s = fResult s .fcalc [b] a (s.cur.freg b).a (s.cur.freg b).b
    (f (s.cur.freg b) ((s.coefs b).map (·.toNat))) true false (lastReads b k) s := by
  unfold fUn
  rw [sources_ok (by simp [hb])]
  dsimp only
  rw [coefs_nat]
  rfl

theorem fUn_empty {f : FReg → List Nat → List Nat} {x : Stop} (h : needFull [b] s = .error x) : fUn f a b k s = .error x := by
  unfold fUn
  rw [srcs_trap h]

theorem fmov_ok (hb : s.full b) : fmov a b k s = fResult s .fio [b] a (s.cur.freg b).a (s.cur.freg b).b
    ((s.coefs b).map (·.toNat)) false false (lastReads b k) s := by
  unfold fmov
  rw [sources_ok (by simp [hb])]
  dsimp only
  rw [coefs_nat]
  rfl

theorem fmov_empty {x : Stop} (h : needFull [b] s = .error x) : fmov a b k s = .error x := by
  unfold fmov
  rw [srcs_trap h]

theorem fcomp_empty {x : Stop} (h : needFull [b, c] s = .error x) : fcomp a b c l k s = .error x := by
  unfold fcomp
  rw [srcs_trap h]

theorem fcomp_open (hb : s.full b) (hc : s.full c) (h : enclosed (s.cur.freg b) ((s.coefs c).map (·.toNat)) = false) :
    fcomp a b c l k s = trapD cFDOM 2 (c.setWidth 64) s := by
  unfold fcomp
  rw [sources_ok (by simp [hb, hc])]
  dsimp only
  rw [coefs_nat, h]
  rfl

/-- R209: the composite, sampled at as many points as it may have coefficients. -/
theorem fcomp_ok (hb : s.full b) (hc : s.full c) (h : enclosed (s.cur.freg b) ((s.coefs c).map (·.toNat)) = true) :
    let m0 := ((s.cur.freg b).n.toNat - 1) * ((s.cur.freg c).n.toNat - 1) + 1
    let m := Nat.min m0 256
    fcomp a b c l k s = fResult s .falg [b, c] a (s.cur.freg c).a (s.cur.freg c).b (transformF ((List.range m).map fun j =>
      clenshaw ((s.coefs b).map (·.toNat)) (toUnit (s.cur.freg b) (fpv (clenshaw ((s.coefs c).map (·.toNat)) (tauOf j m))))))
      true (decide (256 < m0)) (lastReads b k ++ lastReads c l) s := by
  intro m0 m
  unfold fcomp
  rw [sources_ok (by simp [hb, hc])]
  dsimp only
  rw [coefs_nat, coefs_nat, h]
  unfold compCoefs
  rw [List.length_map, List.length_map, coefs_length, coefs_length]
  rfl

end

namespace Settled

/-- Settles O47: the algebra of function registers. -/
theorem functionAlgebra : Obligations.FunctionAlgebra := by
  intro a b c l k s hs p q x y n two one trap stores
  refine ⟨fun h => ?_, fun hb hc => ?_, fun hb hc hd => ?_, fun hb hc ha hd => ⟨?_, ?_, ?_⟩, fun hb hc => ⟨fun h => ?_, fun h => ?_⟩,
    fun hb => ⟨?_, ?_, ?_⟩⟩
  · have empty2 := empty1 (l := [c]) h
    have empty1 := empty1 (l := []) h
    simp only [two, one, List.cons_append, List.nil_append, List.forall_mem_cons, List.not_mem_nil, false_implies, implies_true, and_true]
    exact ⟨congrArg finish (fBin_empty empty2), congrArg finish (fBin_empty empty2), congrArg finish (fBin_empty empty2),
      congrArg finish (fUn_empty empty1), congrArg finish (fUn_empty empty1), congrArg finish (fmov_empty empty1),
      congrArg finish (fcomp_empty empty2)⟩
  · have empty := empty2 (l := []) hb hc
    simp only [two, List.cons_append, List.nil_append, List.forall_mem_cons, List.not_mem_nil, false_implies, implies_true, and_true]
    exact ⟨congrArg finish (fBin_empty empty), congrArg finish (fBin_empty empty), congrArg finish (fBin_empty empty),
      congrArg finish (fcomp_empty empty)⟩
  · simp only [two, List.forall_mem_cons, List.not_mem_nil, false_implies, implies_true, and_true]
    exact ⟨congrArg finish (fBin_unequal hb hc hd), congrArg finish (fBin_unequal hb hc hd), congrArg finish (fBin_unequal hb hc hd)⟩
  · exact yields_truncated hs (same_self s) (congrArg finish (fBin_ok (addCoefs false) hb hc ha hd)) (add_eq s b c false)
  · exact yields_truncated hs (same_self s) (congrArg finish (fBin_ok (addCoefs true) hb hc ha hd)) (add_eq s b c true)
  · exact yields_truncated hs (same_self s) (congrArg finish (fBin_ok mulCoefs hb hc ha hd)) (mul_eq s b c)
  · exact congrArg finish (fcomp_open hb hc h)
  · exact yields_inexact hs (congrArg finish (fcomp_ok hb hc h))
  · exact yields_truncated hs (same_self s) (congrArg finish (fUn_ok diffCoefs hb)) rfl
  · exact yields_truncated hs (same_self s) (congrArg finish (fUn_ok intCoefs hb)) rfl
  · exact yields_whole hs (same_self s) (congrArg finish (fmov_ok hb)) (coefs_short s b)

end Settled

/-! ### The instructions with scalar operands or records (R208, R214, R216 to R218) -/

section
variable {s u : State} {a b c : Fld} {k : Bool}

theorem fscal_ok {x : Word} (ht : takeS [c] [] s = .ok ([x], u)) (hb : s.full b) : fscal a b c k s = fResult s .falg [b] a (s.cur.freg b).a
    (s.cur.freg b).b ((s.coefs b).map fun y => nearest ((value (x.setWidth 32)).mul (value y))) true false (lastReads b k) u := by
  have low : x.toNat % 2 ^ 32 = (x.setWidth 32).toNat := (BitVec.toNat_setWidth ..).symm
  unfold fscal
  rw [ht]
  dsimp only
  rw [sources_ok (by simp [hb])]
  dsimp only
  rw [coefs_nat, List.map_map, List.headD_cons, low]
  rfl

/-- R218: FTRUNC by FTOL where its operand is 0, and else at the length that it names. -/
theorem ftrunc_ok {x : Word} (ht : takeS [c] [] s = .ok ([x], u)) (hb : s.full b) : ftrunc a b c k s = fResult s .fio [b] a (s.cur.freg b).a
    (s.cur.freg b).b (if x.toNat = 0 then (s.coefs b).map (·.toNat) else ((s.coefs b).map (·.toNat)).take (Nat.min x.toNat 256))
    (decide (x.toNat = 0)) false (lastReads b k) u := by
  unfold ftrunc
  rw [ht]
  dsimp only
  rw [sources_ok (by simp [hb])]
  dsimp only
  rw [coefs_nat]
  rfl

theorem ftrunc_yields {x : Word} (hs : s.starts) (ht : takeS [c] [] s = .ok ([x], u)) (hb : s.full b) :
    s.yields u (exec (.ftrunc a b c k) s) .fio [b] a (s.cur.freg b).a (s.cur.freg b).b (if x = 0 then truncated s.cur ((s.coefs b).map (·.toNat))
      else (((s.coefs b).map (·.toNat)).take (Nat.min x.toNat 256), false)) (lastReads b k) := by
  have run : exec (.ftrunc a b c k) s = _ := congrArg finish (ftrunc_ok ht hb)
  have same := same_of (takeS_untake ht)
  by_cases h : x = 0
  · rw [if_pos h]
    rw [if_pos (by rw [h]; rfl), decide_eq_true (by rw [h]; rfl)] at run
    exact yields_truncated hs same run rfl
  · have h0 : ¬ x.toNat = 0 := fun h0 => h (BitVec.eq_of_toNat_eq h0)
    rw [if_neg h]
    rw [if_neg h0, decide_eq_false h0] at run
    exact yields_whole hs same run (Nat.lt_of_le_of_lt (List.length_take_le' ..) (coefs_short s b))

section
variable {x y : Word} (ht : takeS [b, c] [] s = .ok ([x, y], u))
include ht

theorem ffit_length (h : y.toNat < 1 ∨ 256 < y.toNat) : ffit a b c s = trapD cFDOM 5 (a.setWidth 64) s := by
  unfold ffit
  rw [ht]
  dsimp only
  rw [List.drop_one, List.tail_cons, List.headD_cons, if_pos (by simpa using h)]
  rfl

theorem ffit_of_length (h1 : 1 ≤ y.toNat) (h2 : y.toNat ≤ 256) : ffit a b c s =
    if x.toNat % 4 ≠ 0 then trapR cALIGN x s
    else if 131072 < x.toNat + 4 * y.toNat then trapR cACCESS x s
    else match tcmRead s x.toNat (4 * y.toNat) with
      | .error e => .error e
      | .ok bs => fResult s .fio [] a (s.cur.freg a).a (s.cur.freg a).b (transformF (singles bs y.toNat)) true false [] u := by
  have inRange : ¬ ((decide (y.toNat < 1) || decide (y.toNat > 256)) = true) := by
    simp only [Bool.or_eq_true, decide_eq_true_eq]
    omega
  unfold ffit
  rw [ht]
  dsimp only
  rw [List.drop_one, List.tail_cons, List.headD_cons, List.headD_cons, if_neg inRange]
  simp only [bne_iff_ne] <;> rfl

theorem fdom_bad (h : domOk (x.setWidth 32) (y.setWidth 32) = false) : fdom a b c s = trapD cFDOM 4 (a.setWidth 64) s := by
  unfold fdom
  rw [ht]
  dsimp only
  rw [List.drop_one, List.tail_cons, List.headD_cons, List.headD_cons, h]
  rfl

theorem exec_fdom (h : domOk (x.setWidth 32) (y.setWidth 32) = true) : exec (.fdom a b c) s = .next ((fCharge .fio [a] 0 u).onCur fun t =>
    { t with f := t.f.setIfInBounds (a.toNat % 8) { t.freg a with a := x.setWidth 32, b := y.setWidth 32 }, hvy := true }).retired := by
  rw [← fIdx_toNat]
  show finish (fdom a b c s) = _
  unfold fdom
  rw [ht]
  dsimp only
  rw [List.drop_one, List.tail_cons, List.headD_cons, List.headD_cons, h]
  rfl

end

/-! ### Records in TCM (R216, R217) -/

theorem single_at (s : State) (p N k : Nat) (h : k + 4 ≤ N) : single (tcmBytes s p N) k = BitVec.ofNat 32 (leNat (tcmBytes s (p + k) 4)) := by
  unfold single
  rw [piece _ _ _ _ _ h]

/-- R217: FLDC reads the head of its record, then the coefficients. -/
theorem fldc_eq {xs : List Word} {x : Word} (ht : takeS [b] [] s = .ok (x :: xs, u)) : fldc a b s =
    if x.toNat % 16 ≠ 0 then trapR cALIGN x s
    else if 131072 < x.toNat + 16 then trapR cACCESS x s
    else match tcmRead s x.toNat 16 with
      | .error e => .error e
      | .ok h =>
        if (single h 8).toNat < 1 ∨ 256 < (single h 8).toNat then trapD cFDOM 5 (a.setWidth 64) s
        else if 131072 < x.toNat + 16 + 4 * (single h 8).toNat then trapR cACCESS x s
        else if domOk (single h 0) (single h 4) = false then trapD cFDOM 4 (a.setWidth 64) s
        else match tcmRead s (x.toNat + 16) (4 * (single h 8).toNat) with
          | .error e => .error e
          | .ok bs => fResult s .fio [] a (single h 0) (single h 4) (singles bs (single h 8).toNat) false false [] s := by
  unfold fldc
  rw [ht]
  dsimp only
  simp only [List.headD_cons, bne_iff_ne, Bool.or_eq_true, decide_eq_true_eq, Bool.not_eq_true', gt_iff_lt] <;> rfl

theorem record_eq (s : State) (b : Fld) : coefRecord (s.cur.freg b) (coefsOf s.core (s.cur.freg b)) =
    leBytes 4 (s.cur.freg b).a.toNat ++ leBytes 4 (s.cur.freg b).b.toNat ++ leBytes 4 (s.cur.freg b).n.toNat ++ leBytes 4 0 ++
      ((s.coefs b).map fun y => leBytes 4 y.toNat).flatten := by
  unfold coefRecord
  rw [coefs_nat, List.length_map, coefs_length, List.map_map]
  rfl

theorem words_length (l : List Nat) : ((l.map (leBytes 4)).flatten).length = 4 * l.length := by
  induction l with
  | nil => rfl
  | cons x l ih =>
    rw [List.map_cons, List.flatten_cons, List.length_append, ih, leBytes_length, List.length_cons]
    omega

theorem record_length (r : FReg) (cs : List Nat) : (coefRecord r cs).length = 16 + 4 * cs.length := by
  unfold coefRecord
  simp only [List.length_append, leBytes_length, words_length]

/-- R217: FSTC checks the place of its record, then writes it. -/
theorem fstc_eq {xs : List Word} {x : Word} (ht : takeS [c] [] s = .ok (x :: xs, u)) (hb : s.full b) : fstc b c k s =
    if x.toNat % 16 ≠ 0 then trapR cALIGN x s
    else if 131072 < x.toNat + (16 + 4 * (s.cur.freg b).n.toNat) then trapR cACCESS x s
    else if (storeRefused112 s s.cur.priv x.toNat (16 + 4 * (s.cur.freg b).n.toNat) ||
      storeRefused26 s x.toNat (16 + 4 * (s.cur.freg b).n.toNat)) = true then trapR cACCESS x s
    else match tcmWrite s x.toNat (coefRecord (s.cur.freg b) (coefsOf s.core (s.cur.freg b))) with
      | .error e => .error e
      | .ok s => .ok (advance (setHvy (releaseAll (lastReads b k) (fCharge .fio [b] 0 s)))) := by
  unfold fstc
  rw [ht]
  dsimp only
  rw [sources_ok (by simp [hb])]
  simp only [List.headD_cons, bne_iff_ne, gt_iff_lt] <;> rfl

theorem record_written {p : Nat} (h : tcmBusyW s p (16 + 4 * (s.cur.freg b).n.toNat) = false) :
    tcmWrite s p (coefRecord (s.cur.freg b) (coefsOf s.core (s.cur.freg b))) =
      .ok (tcmPut s p (coefRecord (s.cur.freg b) (coefsOf s.core (s.cur.freg b)))) := by
  unfold tcmWrite
  rw [record_length, coefs_nat, List.length_map, coefs_length, h]
  rfl

end

namespace Settled

/-- Settles O48: the function instructions with scalar operands or records. -/
theorem functionRecords : Obligations.FunctionRecords := by
  intro a b c k s hs trap stores p words readable
  refine ⟨fun u x ht hb => ⟨?_, ftrunc_yields hs ht hb⟩, fun u x y ht => ⟨?_, ?_, ?_, ?_⟩, fun u x ht => ?_, fun u x ht hb => ?_, fun u x y ht => ?_⟩
  · exact yields_truncated hs (same_of (takeS_untake ht)) (congrArg finish (fscal_ok ht hb)) rfl
  · exact fun h => congrArg finish (ffit_length ht h)
  · exact fun h1 h2 h3 => congrArg finish ((ffit_of_length ht h1 h2).trans (if_pos h3))
  · exact fun h1 h2 h3 h4 => congrArg finish ((ffit_of_length ht h1 h2).trans ((if_neg (not_not.2 h3)).trans (if_pos h4)))
  · intro h1 h2 h3 h4 hread
    have run := (ffit_of_length (a := a) ht h1 h2).trans ((if_neg (not_not.2 h3)).trans (if_neg (Nat.not_lt.2 h4)))
    rw [read_ok hread] at run
    dsimp only at run
    rw [singles_eq] at run
    exact yields_truncated hs (same_of (takeS_untake ht)) (congrArg finish run) rfl
  · intro n da db ready
    have head : ready → fldc a b s = if n < 1 ∨ 256 < n then trapD cFDOM 5 (a.setWidth 64) s
        else if 131072 < x.toNat + 16 + 4 * n then trapR cACCESS x s
        else if domOk da db = false then trapD cFDOM 4 (a.setWidth 64) s
        else match tcmRead s (x.toNat + 16) (4 * n) with
          | .error e => .error e
          | .ok bs => fResult s .fio [] a da db (singles bs n) false false [] s := by
      intro ⟨h1, h2, hread⟩
      rw [fldc_eq ht, if_neg (not_not.2 h1), if_neg (Nat.not_lt.2 h2), read_ok hread]
      dsimp only
      have len : (single (tcmBytes s x.toNat 16) 8).toNat = n := by
        rw [single_at _ _ _ _ (by decide), BitVec.toNat_ofNat]
        exact Nat.mod_eq_of_lt (leNat4 ..)
      rw [len, single_at _ _ _ 0 (by decide), single_at _ _ _ 4 (by decide)]
      rfl
    refine ⟨fun h => ?_, fun h1 h2 => ?_, fun hr h => ?_, fun hr h1 h2 h3 => ?_, fun hr h1 h2 h3 h4 => ?_, fun hr h1 h2 h3 h4 hread => ?_⟩
    · exact congrArg finish ((fldc_eq ht).trans (if_pos h))
    · exact congrArg finish ((fldc_eq ht).trans ((if_neg (not_not.2 h1)).trans (if_pos h2)))
    · exact congrArg finish ((head hr).trans (if_pos h))
    · exact congrArg finish ((head hr).trans ((if_neg (by omega)).trans (if_pos h3)))
    · exact congrArg finish ((head hr).trans ((if_neg (by omega)).trans ((if_neg (by omega)).trans (if_pos h4))))
    · have run := (head hr).trans ((if_neg (by omega)).trans ((if_neg (by omega)).trans (if_neg (by rw [h4]; decide))))
      rw [read_ok hread] at run
      dsimp only at run
      rw [singles_eq] at run
      exact yields_whole hs (same_self s) (congrArg finish run) (by rw [List.length_map, List.length_range]; omega)
  · intro n rec_
    refine ⟨fun h => ?_, fun h1 h2 => ?_, fun h1 h2 h3 h4 h5 => ?_⟩
    · exact congrArg finish ((fstc_eq ht hb).trans (if_pos h))
    · refine congrArg finish (show fstc b c k s = trapR cACCESS x s from (fstc_eq ht hb).trans ((if_neg (not_not.2 h1)).trans ?_))
      rcases h2 with h | h | h
      · exact if_pos h
      · exact ite_eq_left_iff.2 fun _ => if_pos (by rw [h]; rfl)
      · exact ite_eq_left_iff.2 fun _ => if_pos (by rw [h, Bool.or_true])
    · have run := (fstc_eq (k := k) ht hb).trans ((if_neg (not_not.2 h1)).trans ((if_neg (Nat.not_lt.2 h2)).trans (if_neg (by rw [h3, h4]; decide))))
      rw [record_written h5, record_eq] at run
      exact congrArg finish run
  · intro da db ok
    have dom : domOk da db = true ↔ ok := by
      show ((isFinFV (value da) && isFinFV (value db)) && (value da).lt (value db)) = true ↔ _
      rw [Bool.and_eq_true, Bool.and_eq_true, and_assoc]
    exact ⟨fun h => congrArg finish (fdom_bad ht (Bool.not_eq_true _ ▸ mt dom.1 h)), fun h => exec_fdom ht (dom.2 h)⟩

end Settled

/-! ### The reads (R200, R202, R212, R213, R215, R218) -/

section
variable {s u : State} {a b c : Fld} {m k : Bool}

/-- A register read out: the marks of `.lr` and the charge, before the result is written. -/
def State.readOut (u : State) (cls : Charge) (b : Fld) (k : Bool) : State := releaseAll (lastReads b k) (fCharge cls [b] 0 u)

theorem fCharge_alike (cls : Charge) (l : List Fld) (n : Nat) (s : State) : (fCharge cls l n s).core = s.core ∧ (fCharge cls l n s).cur = s.cur :=
  ⟨chargeN_core .., chargeN_cur ..⟩

/-- R202: a run of a register given up waits for its instruction to leave the replay queue. -/
def State.givesUp (s : State) (a : Fld) (r : PoolRun) : PoolRun :=
  if r.frame = s.cur.frame ∧ r.reg = (a.extractLsb' 0 3) ∧ r.rel = none then PoolRun.mk r.at_ r.len r.frame r.reg (some 9) else r

theorem exec_ffree : exec (.ffree a) s = .next (((fCharge .fio [a] 0 s).onCore fun co => { co with runs := co.runs.map (s.givesUp a) }).onCur fun t =>
    { t with f := t.f.setIfInBounds (a.toNat % 8) { t.freg a with n := 0, absent := 0 } }).heavyRetired := by
  have runs (l : List PoolRun) : releaseRuns (fCharge .fio [a] 0 s).cur.frame (fIdx a) l = l.map (s.givesUp a) := by
    unfold State.givesUp
    unfold releaseRuns fIdx
    rw [(fCharge_alike ..).2]
    simp only [Bool.and_eq_true, beq_iff_eq, Option.isNone_iff_eq_none, and_assoc]
  show finish (.ok (advance (setHvy (releaseF a (fCharge .fio [a] 0 s))))) = _
  unfold releaseF
  simp only [runs]
  rw [← fIdx_toNat]
  rfl

theorem flenWord_eq (co : CoreSt) (r : FReg) : flenWord co r =
    BitVec.ofNat 64 (r.n.toNat + (r.n.toNat + 7) / 8 * 2 ^ 16 + (256 - (co.runs.map (·.len)).sum) * 2 ^ 32) := by
  have hn := r.n.isLt
  unfold flenWord granules poolFree poolUsed
  refine BitVec.eq_of_toNat_eq ?_
  simp only [app_toNat, BitVec.toNat_ofNat]
  have hfree : 256 - (co.runs.map (·.len)).sum < 2 ^ 9 := by omega
  generalize 256 - (co.runs.map (·.len)).sum = free at *
  rw [Nat.mod_eq_of_lt hfree, Nat.mod_eq_of_lt (by omega : (r.n.toNat + 7) / 8 < 2 ^ 9)]
  omega

theorem exec_flen (ht : takeS [] [a] s = .ok ([], s)) : exec (.flen a b k) s = .next ((s.readOut .fio b k).onCur (Task.put a
    (BitVec.ofNat 64 ((s.cur.freg b).n.toNat + ((s.cur.freg b).n.toNat + 7) / 8 * 2 ^ 16 + (256 - (s.core.runs.map (·.len)).sum) * 2 ^ 32)))).heavyRetired := by
  show finish (flen a b k s) = _
  unfold flen
  rw [ht]
  dsimp only
  rw [writeS_put, flenWord_eq]
  rfl

theorem exec_fext (ht : takeS [] [a] s = .ok ([], s)) (hb : s.full b) : exec (.fext a b k) s = .next ((s.readOut .fcalc b k).onCur (Task.put a
    (BitVec.ofNat 64 (roundUp (FV.sum ((s.coefs b).map fun x => (value x).abs)))))).heavyRetired := by
  have word : extWord (coefsOf s.core (s.cur.freg b)) = BitVec.ofNat 64 (roundUp (FV.sum ((s.coefs b).map fun x => (value x).abs))) := by
    unfold extWord
    rw [coefs_nat, List.map_map]
    rfl
  show finish (fext a b k s) = _
  unfold fext
  rw [ht]
  dsimp only
  rw [sources_ok (by simp [hb])]
  dsimp only
  rw [writeS_put, word]
  rfl

theorem exec_fext_empty (ht : takeS [] [a] s = .ok ([], s)) (h : (s.cur.freg b).n = 0) :
    exec (.fext a b k) s = .next (takeTrap 0x0A 0x03 false (b.setWidth 64) s) := by
  show finish (fext a b k s) = _
  unfold fext
  rw [ht]
  dsimp only
  rw [srcs_trap (empty1 (l := []) h)]
  rfl

/-- R213: the lanes that FROOT writes. -/
def rootLanes (l : List Nat) : BitVec 512 := vmap 32 (fun _ => true) 0 fun i => l.getD i (canonNaN fp32)

theorem exec_froot (ht : takeV [] [] (some (a, false)) [] s = .ok ([], [], u)) (hb : s.full b) :
    let r := rootsOf (s.cur.freg b) ((s.coefs b).map (·.toNat))
    exec (.froot a b k) s = .next ((writeV a (rootLanes r.1) (s.readOut .fcalc b k)).onCur fun t =>
      { t with nrt := BitVec.ofNat 5 r.2.1, fmore := t.fmore || r.2.2 }).heavyRetired := by
  intro r
  have run : froot a b k s = .ok (advance (setHvy ((writeV a (rootLanes r.1) (s.readOut .fcalc b k)).onCur fun t =>
      { t with nrt := BitVec.ofNat 5 r.2.1, fmore := t.fmore || r.2.2 }))) := by
    unfold froot
    rw [ht]
    dsimp only
    rw [sources_ok (by simp [hb])]
    dsimp only
    rw [coefs_nat]
    rfl
  show finish (stripRun a (froot a b k) s) = _
  rw [stripRun_ok run]
  rfl

/-- R215: whether a lane of FEVAL lies outside the domain. -/
def outsideDomain (p : FReg) (v : FV) : Bool := decide (v = .nan) || v.lt (value p.a) || (value p.b).lt v

theorem evalLane_eq (p : FReg) (cs : List Nat) (x : BitVec 32) : evalLane p cs x.toNat =
    if outsideDomain p (value x) then none else some (clenshaw cs (toUnit p (value x))) := by
  have nan : (fpv x.toNat == FV.nan) = decide (value x = .nan) := rfl
  unfold evalLane outsideDomain
  dsimp only
  rw [nan]
  rfl

/-- R215: what FEVAL leaves in its destination. -/
def evalLanes (s : State) (m : Bool) (p : FReg) (cs : List Nat) (y old : BitVec 512) : BitVec 512 :=
  vmap 32 (activeOf s m) old fun i => (evalLane p cs (elem 32 y i)).getD (canonNaN fp32)

/-- R215: whether FEVAL sets FOUT. -/
def evalOutside (s : State) (m : Bool) (p : FReg) (y : BitVec 512) : Bool :=
  (List.range 16).any fun i => activeOf s m i && outsideDomain p (value (lane 32 y i))

theorem exec_feval {y : BitVec 512} (ht : takeV [c] [] (some (a, m)) [] s = .ok ([y], [], u)) (hb : s.full b) :
    exec (.feval a b c m k) s = .next ((writeV a (evalLanes s m (s.cur.freg b) ((s.coefs b).map (·.toNat)) y (s.getV a))
      (u.readOut .fio b k)).onCur fun t => { t with fout := t.fout || evalOutside s m (s.cur.freg b) y }).heavyRetired := by
  have none_iff (i : Nat) : (evalLane (s.cur.freg b) ((s.coefs b).map (·.toNat)) (elem 32 y i)).isNone =
      outsideDomain (s.cur.freg b) (value (lane 32 y i)) := by
    rw [elem_lane, evalLane_eq]
    cases outsideDomain (s.cur.freg b) (value (lane 32 y i)) <;> rfl
  have run : feval a b c m k s = .ok (advance (setHvy ((writeV a (evalLanes s m (s.cur.freg b) ((s.coefs b).map (·.toNat)) y (s.getV a))
      (u.readOut .fio b k)).onCur fun t => { t with fout := t.fout || evalOutside s m (s.cur.freg b) y }))) := by
    unfold feval
    rw [ht]
    dsimp only
    rw [sources_ok (by simp [hb])]
    dsimp only
    rw [coefs_nat]
    unfold src1
    rw [List.headD_cons]
    simp only [none_iff]
    rfl
  show finish (stripRun a (feval a b c m k) s) = _
  rw [stripRun_ok run]
  rfl

end

/-! ### The worked examples: 2 T1 + 2 T3 on [-2, 2] -/

/-- The coefficients of the chapter's example. -/
def exampleCoefs : List Nat := [0, 0x40000000, 0, 0x40000000]

/-- Its domain. -/
def exampleDomain : FReg := { a := 0xC0000000, b := 0x40000000, n := 4, p := 0 }

theorem example_mul : mulCoefs exampleCoefs exampleCoefs = [0x40800000, 0, 0x40C00000, 0, 0x40800000, 0, 0x40000000] := by decide

theorem example_diff : diffCoefs exampleDomain exampleCoefs = [0x40800000, 0, 0x40C00000] := by decide

theorem example_int : intCoefs exampleDomain exampleCoefs = [0xBF000000, 0, 0, 0, 0x3F000000] := by decide

theorem example_ext : extWord exampleCoefs = 0x40800000 := by decide

theorem example_eval : clenshaw exampleCoefs (toUnit exampleDomain (fpv 0x3F800000)) = 0xBF800000 := by decide

theorem example_eval_low : clenshaw exampleCoefs (toUnit exampleDomain (fpv 0xC0000000)) = 0xC0800000 := by decide

theorem example_open : enclosed exampleDomain exampleCoefs = false := by decide

namespace Settled

/-- Settles O49: the function registers read out, and the worked examples. -/
theorem functionReads : Obligations.FunctionReads := by
  refine ⟨fun a b c m k s hs => ⟨exec_ffree, fun ht => ⟨exec_flen ht, exec_fext ht, exec_fext_empty ht⟩, fun u ht hb => ?_,
    fun u y ht hb => ?_⟩, example_mul, example_diff, example_int, example_ext, example_eval, example_eval_low, example_open⟩
  · intro r
    refine ⟨_, exec_froot ht hb, fun i hi => ?_⟩
    unfold rootLanes
    rw [lane_vmap 32 (by decide) _ _ _ i hi, if_pos rfl]
    rfl
  · intro runs v outside
    refine ⟨_, exec_feval ht hb, fun i hi => ?_⟩
    unfold evalLanes
    rw [lane_vmap 32 (by decide) _ _ _ i hi, elem_lane, evalLane_eq]
    show (if runs i then BitVec.ofNat 32 ((if outside i then none else some _).getD _) else _) = if runs i then _ else _
    cases runs i
    · rfl
    · cases outside i <;> rfl

end Settled

end Sys2Proof.Machine
end

section
/-! Launches taken, messages that become candidates, candidates that start tasks, tasks that migrate in, the holding queue and the heap
(R27, R28, R37, R298 to R300, R309, R310, R332, R432, R434), O50. -/

namespace Sys2Proof.Machine

/-! ### MESSAGE_ARRIVAL (R298, R309) -/

theorem tcmByte_congr {s t : State} (hc : t.cur = s.cur) (hr : t.rest = s.rest) (hcore : t.core = s.core) (x : Nat) : tcmByte t x = tcmByte s x := by
  unfold tcmByte State.wsOwner State.tasks
  rw [hc, hr, hcore]

theorem mkCand_cls (s : State) (m : Msg) (key : ActKey) (core : BitVec 13) : mkCand s m key (some m.cls) core =
    { key := key, cls := some m.cls, core := core, pc := m.handler, mig := classMig s m.cls, priv := if s.launch.svc then 1 else 0,
      w1 := BitVec.ofNat 64 (8 * m.payload.length), w2 := m.score.setWidth 64, w3 := m.cls.setWidth 64, payload := m.payload, tag := m.tag,
      leaf := m.leaf, xferid := 0, traps := [], place := .inbox, bytes := 16 + (8 * m.payload.length + 15) / 16 * 16, off := 0,
      handler0 := m.handler == 0 } := rfl

/-- A message that its tile takes, whose inbox is empty and has room. -/
theorem arrival_taken {m : Msg} {s : State} (hpart : foreignPart s m.part = false) (hret : s.tile.retired = false) (hany : m.any = false)
    (hmc : m.mc = false) (hdest : tileOf m.dest = pairTile s) (hhere : hereCore s m.dest = s.core.id) (hsrc : tileOf m.score ≠ pairTile s)
    (hseq : m.seq = tabGet s.tile.recv 0 (tileOf m.score) % 2 ^ 32)
    (hlen : msgBytes (8 * m.payload.length) + 16 ≤ s.launch.inbox) (hin : s.core.inbox = [])
    (hroom : msgBytes (8 * m.payload.length) ≤ s.launch.inbox - s.core.inboxTail) (hfull : s.tile.cands.length < 256)
    (hover : s.tile.overflow = []) (hplace : ∀ c ∈ s.tile.cands, c.place = .inbox) : messageArrival m s =
      linkMessage (tileOf m.score) m (brambleIdle ((inboxPut s.core.inboxTail none m.payload s).onTile fun t =>
        { t with cands := t.cands ++ [{ mkCand s m { stamp := m.stamp.toNat, src := tileOf m.score + 1, seq := tabGet s.tile.recv 0 (tileOf m.score) }
          (some m.cls) s.core.id with place := .inbox, off := s.core.inboxTail }] })) := by
  have small : tooBig s m = false := decide_eq_false (Nat.not_lt.2 hlen)
  have core : chooseCore false m.dest s = s.core.id := hhere
  have add := addCand_ok (c := mkCand s m { stamp := m.stamp.toNat, src := tileOf m.score + 1, seq := tabGet s.tile.recv 0 (tileOf m.score) }
    (some m.cls) s.core.id) hfull hover hplace rfl (Nat.ne_of_gt (Nat.lt_of_lt_of_le (by decide : 0 < 16) (Nat.le_add_right ..))) hin hroom
  unfold messageArrival
  dsimp only
  rw [hpart, hret, hany, hmc, decide_eq_false (not_not.2 hdest), decide_eq_false hsrc, ← hseq, bne_self_eq_false]
  simp only [Bool.or_false, Bool.not_false, Bool.and_false, Bool.and_self, Bool.false_eq_true, if_false]
  rw [small, if_neg Bool.false_ne_true]
  rw [core, add]
  rfl

/-! ### CANDIDATE_RELEASE (R27, R300) -/

/-- R300: a candidate of the table that its links, the masks and the heap let go. -/
theorem mayRelease_ok {c : Cand} {s : State} (hplace : c.place = .inbox) (hmask : candMasked s c = false)
    (hlinks : ∀ l ∈ linkProms s, linkAllows s c l = true) (hover : ∀ o ∈ s.tile.overflow, keyLt c.key o.key = true)
    (hlive : s.launch.live = true) (hpre : s.core.preempt = false) : mayRelease s c = true := by
  unfold mayRelease
  rw [hplace, hmask, List.all_eq_true.2 hlinks, hlive, hpre]
  cases h : leastOverflow s with
  | none => rfl
  | some o => simpa [candLt] using hover o (leastBy_mem _ _ _ h)

theorem release_starts {c : Cand} {f : Nat} {s : State} (hmig : ∀ m ∈ s.tile.migBuf, m.dest ≠ pairCore s) (hlow : lowestCand s = some c)
    (hmay : mayRelease s c = true) (hcore : c.core = s.core.id) (h0 : c.handler0 = false) (hf : freeFrame s = some f) :
    candidateRelease s = launchStarted s.launch.tag (startTask c f (dropCand c s)) := by
  unfold candidateRelease releaseCand
  rw [grant_none hmig]
  dsimp only
  rw [hlow]
  dsimp only
  rw [hmay, if_pos rfl, hcore, bne_self_eq_false, if_neg Bool.false_ne_true, h0, if_neg Bool.false_ne_true, hf]

/-- R27: the task that a candidate starts, and what its start leaves. -/
theorem startTask_ok (c : Cand) (f : Nat) {s : State} (hseg : s.core.segCtr < 2 ^ 40) : startTask c f s =
    addTask (newTask ((applyLaunchRegs s).onCore fun x => { x with segCtr := x.segCtr + 1 }) c f s.core.segCtr)
      ((applyLaunchRegs s).onCore fun x => { x with segCtr := x.segCtr + 1, serial := x.serial + 1 }) := by
  unfold startTask
  rw [nextSeg_ok (s := applyLaunchRegs s) hseg]
  rfl

theorem startW_list (s : State) (c : Cand) (f : Nat) : (startW s c f).toList = [0, c.w1, c.w2, c.w3, 0, 0, 0, 0, 0, 0, 0, 0, 0, 0,
    BitVec.ofNat 64 (s.spillBot f + s.launch.spill), 0] := rfl

/-! ### MIGRATION_ARRIVAL (R44, R46) -/

/-- R46: a task that arrives is counted and waits for its frame. -/
def State.withPending (s : State) (m : MigTask) : State :=
  (s.onTile (countReceived m.col)).onTile fun t => { t with migBuf := t.migBuf ++ [m] }

theorem arrival_pending {m : MigTask} {s : State} (hdest : tileOf m.dest = pairTile s) (hpart : foreignPart s m.part = false)
    (hcore : m.dest = pairCore s) (hroom : s.tile.migBuf.length < 16) : migrationArrival m s =
      if s.core.preempt then s.withPending m else (grantFrame (s.withPending m)).getD (s.withPending m) := by
  have hd : (m.dest != pairCore (s.onTile (countReceived m.col))) = false := by
    rw [hcore]
    exact bne_self_eq_false _
  unfold migrationArrival
  rw [hdest, hpart, bne_self_eq_false, decide_eq_false (Nat.not_le.2 hroom), Bool.or_false, Bool.or_false, if_neg Bool.false_ne_true]
  dsimp only
  rw [hd, if_neg Bool.false_ne_true]
  rfl

/-- R46: the only pending task takes a free frame. -/
theorem grant_only {m : MigTask} {f : Nat} {s : State} (hm : s.tile.migBuf = [m]) (hd : m.dest = pairCore s) (hf : freeFrame s = some f)
    (hseg : s.core.segCtr < 2 ^ 40) : grantFrame s = some (addTask (arrivedTask (s.onCore fun c => { c with segCtr := c.segCtr + 1 }) m f s.core.segCtr)
      ((s.onCore fun c => { c with segCtr := c.segCtr + 1 }).onTile fun t => { t with migBuf := t.migBuf.erase m })) := by
  have only : leastBy (fun a b : MigTask => keyLt a.key b.key) (s.tile.migBuf.filter fun m => m.dest == pairCore s) = some m := by
    rw [hm, List.filter_cons_of_pos (by rw [hd]; exact beq_self_eq_true _)]
    rfl
  unfold grantFrame
  rw [only, hf]
  dsimp only
  rw [nextSeg_ok hseg]

theorem grant_without_frame {s : State} (hf : freeFrame s = none) : grantFrame s = none := by
  unfold grantFrame
  rw [hf]
  cases leastBy (fun a b : MigTask => keyLt a.key b.key) (s.tile.migBuf.filter fun m => m.dest == pairCore s) <;> rfl

/-- R44: the status byte that a task brings with it, without its bit 0. -/
theorem arrived_status (s : State) (m : MigTask) (f seg : Nat) : (arrivedTask s m f seg).statusByte = m.status &&& 0xFE := by
  show BitVec.ofBool (m.status.getLsbD 7) ++ BitVec.ofBool (m.status.getLsbD 6) ++ BitVec.ofBool (m.status.getLsbD 5) ++
    BitVec.ofBool (m.status.getLsbD 4) ++ m.status.extractLsb' 2 2 ++ BitVec.ofBool (m.status.getLsbD 1) ++ 0#1 = _
  refine BitVec.eq_of_getLsbD_eq fun i hi => ?_
  interval_cases i <;> simp only [BitVec.getLsbD_append, BitVec.getLsbD_and, BitVec.getLsbD_ofBool, BitVec.getLsbD_extractLsb'] <;> simp

/-! ### The holding queue and the heap (R309, R310) -/

/-- A message that is put in the inbox changes no other field of the tile, and of the inbox its end. -/
theorem inboxPut_kept (off : Nat) (ws : List Word) (s : State) : (inboxPut off none ws s).tile = s.tile ∧
    (inboxPut off none ws s).core.inbox = s.core.inbox ++ [{ off := off, len := msgBytes (8 * ws.length), live := true }] := by
  unfold inboxPut
  dsimp only
  generalize leBytes 16 _ ++ (ws.map fun w => leBytes 8 w.toNat).flatten = bs
  obtain ⟨F, -, -, -, hcore, htile, -⟩ := puts_tasks bs { s with fresh := s.fresh + 2 } (s.inboxBase + off)
  have inbox : (tcmPutBytes { s with fresh := s.fresh + 2 } (s.inboxBase + off) bs).core.inbox = s.core.inbox := by
    have e := congrArg CoreSt.inbox hcore
    exact e
  refine ⟨htile, ?_⟩
  show (tcmPutBytes { s with fresh := s.fresh + 2 } (s.inboxBase + off) bs).core.inbox ++ [] ++ _ = _
  rw [inbox, List.append_nil]

theorem drain_first {c : Cand} {l : List Cand} {s : State} (hl : holdingOf s = c :: l) (hcore : c.core = s.core.id) (hb : c.bytes ≠ 0)
    (hin : s.core.inbox = []) (hroom : c.bytes ≤ s.launch.inbox - s.core.inboxTail) : holdingDrain s =
      replaceCand c { c with place := .inbox, off := s.core.inboxTail } (inboxPut s.core.inboxTail none c.payload s) := by
  unfold holdingDrain enterInbox
  rw [hl]
  dsimp only
  rw [hcore, bne_self_eq_false, decide_eq_false hb, Bool.or_self, if_neg Bool.false_ne_true, place_ok hin hroom]

theorem bramble_free {s : State} (hp : s.core.preempt = false) (hh : s.tile.halted = false) : brambleHeld s = false := by
  unfold brambleHeld
  rw [hp, hh]
  rfl

/-- R310: the bramble thread moves candidates of a full holding queue to the heap. -/
theorem copied {s : State} (hp : s.core.preempt = false) (hh : s.tile.halted = false) : ∃ t, exec .brambleCopy s = .next t ∧
    List.Forall₂ (fun c d : Cand => d = c ∨ (c.place = .holding ∧ 16 ≤ (holdingOf s).length ∧ d = { c with place := .heap })) s.tile.cands
      t.tile.cands ∧ t.cur = s.cur ∧ t.rest = s.rest ∧ t.core.inbox = s.core.inbox := by
  by_cases hfull : (holdingOf s).length < 16
  · refine ⟨s, ?_, List.forall₂_same.2 fun _ _ => .inl rfl, rfl, rfl, rfl⟩
    show done (brambleCopy s) = _
    unfold brambleCopy
    rw [decide_eq_true hfull, Bool.true_or, if_pos rfl]
    rfl
  · have held : ∀ c ∈ holdingOf s, c.place = .holding := fun c hc => beq_iff_eq.1 (List.mem_filter.1 hc).2
    obtain ⟨hcands, hcur, hrest, hcore⟩ := copy_fold s.tile.cands (holdingOf s) s held (List.forall₂_same.2 fun _ _ => .inl rfl)
    refine ⟨brambleIdle _, ?_, ?_, hcur, hrest, (congrArg CoreSt.inbox hcore : _)⟩
    · show done (brambleCopy s) = _
      unfold brambleCopy
      rw [decide_eq_false hfull, bramble_free hp hh, Bool.or_self, if_neg Bool.false_ne_true]
      rfl
    · exact hcands.imp fun a b h => h.imp_right fun ⟨h1, h2⟩ => ⟨h1, Nat.not_lt.1 hfull, h2⟩

theorem replayed {c : Cand} {s : State} (hp : s.core.preempt = false) (hh : s.tile.halted = false) (hc : leastOverflow s = some c)
    (hroom : s.tile.cands.length < 256) : brambleReplay s =
      brambleIdle (s.onTile fun t => { t with cands := t.cands ++ [c], overflow := t.overflow.erase c }) := by
  unfold brambleReplay
  rw [bramble_free hp hh, if_neg Bool.false_ne_true, hc]
  exact if_pos hroom

/-! ### LAUNCH_TAKE (R432, R434) -/

/-- The unit with the head record of a queue taken. -/
def State.recordTaken (s : State) (q : Nat) : State :=
  { s with host := { s.host with wqs := tabSet s.host.wqs q { tabGet s.host.wqs {} q with head := (tabGet s.host.wqs {} q).head + 1 }, rr := q } }

section
variable {s : State} {q : Nat}

theorem launch_other (h : chosenQueue s ≠ some q) : launchTake q s = s := by
  unfold launchTake
  exact if_pos (bne_iff_ne.2 h)

theorem launch_chosen (h : chosenQueue s = some q) : launchTake q s =
    let w := tabGet s.host.wqs {} q
    let ms := chooseMaps s (s.vfReg w.vf) (headRec s w)
    match validate s w.vf (headRec s w) ms with
    | .ok => startLaunch q w (headRec s w) ms (s.recordTaken q)
    | c => completionEntry (BitVec.ofNat 10 q) w.head.toNat 0 0 c.num (s.recordTaken q) := by
  unfold launchTake
  rw [h, bne_self_eq_false, if_neg Bool.false_ne_true]
  rfl

/-- R434: a launch whose tiles take this one in. -/
theorem startLaunch_here {w : Wq} {r : RecBytes} {ms : List LeafMap} (hmine : s.tileId ∈ mapTiles ms) :
    ∃ t, startLaunch q w r ms s = t ∧ t.launch = launchOf s q w r ms (freshTag s) ∧ t.core.vf = w.vf ∧ t.core.segCtr = 0 ∧ t.core.sealed = [] ∧
      t.rest = [] ∧ t.host.wqs = s.host.wqs ∧ t.host.running.map (·.idx) = s.host.running.map (·.idx) ++ [w.head.toNat] ∧
      ∀ c ∈ t.tile.cands, c.key.stamp = (recStamp r).toNat ∧ c.key.src = 0 ∧ c.pc = t.launch.entry ∧ c.tag = t.launch.tag := by
  have mine : (takesTiles r ms).contains s.tileId = true := by
    rw [List.contains_iff_mem]
    unfold takesTiles
    split
    · exact List.mem_append_left _ hmine
    · exact hmine
  refine ⟨_, rfl, ?_⟩
  unfold startLaunch
  dsimp only
  rw [mine, Bool.not_true, if_neg Bool.false_ne_true]
  have bound := bindCores_bound w.vf w.asid (takesTiles r ms) (({ s with fresh := s.fresh + 2 } : State).onHost fun h =>
    { h with running := h.running ++ [{ tag := freshTag s, vf := w.vf, wq := BitVec.ofNat 10 q, idx := w.head.toNat, cores := ms.map leafCores,
                                        svc := w.svc, paired := (launchOf s q w r ms (freshTag s)).paired, started := false }] })
  generalize bindCores w.vf w.asid (takesTiles r ms) _ = z at bound ⊢
  have kept := initial_kept (launchOf s q w r ms (freshTag s))
    ((launchCore w.asid w.vf { z with launch := launchOf s q w r ms (freshTag s), cur := {}, rest := [] }).onTile fun t =>
      launchTile t (launchOf s q w r ms (freshTag s)) (edgesOf ms (launchOf s q w r ms (freshTag s)).links)
        (pairTile (launchCore w.asid w.vf { z with launch := launchOf s q w r ms (freshTag s), cur := {}, rest := [] }))) ⟨rfl, rfl⟩
  obtain ⟨hlaunch, hhost, hrest, hvf, hseg, hsealed, hcands⟩ := kept
  refine ⟨hlaunch, hvf, hseg, hsealed, hrest, ?_, ?_, fun c hc => ?_⟩
  · rw [hhost]
    exact bound.wqs
  · rw [hhost]
    refine (congrArg (List.map (·.idx)) bound.running).trans ?_
    exact List.map_append
  · rw [hlaunch]
    exact hcands c (List.mem_append_left _ hc)

end

namespace Settled

/-- Settles O50: each step that makes, places or starts an activation. -/
theorem activationSteps : Obligations.ActivationSteps := by
  intro s
  refine ⟨?_, ?_, ?_, ?_, ?_, fun hp hh => ⟨copied hp hh, fun c hc hroom => ?_⟩, fun q => ?_⟩
  · intro m src n len off cand hmem hpart hdead hret hany hmc hdest hhere hsrc hseq hlen hin hroom hfull hover hplace hpips
    have hforeign : foreignPart s m.part = false := by
      unfold foreignPart
      rw [hpart] at hdead ⊢
      rw [hdead, bne_self_eq_false]
      rfl
    have run := arrival_taken hforeign hret hany hmc hdest hhere hsrc hseq hlen hin hroom hfull hover hplace
    obtain ⟨htile, -, -, hbytes⟩ := inboxPut_facts off m.payload s (memOk_tcm hmem)
    rw [mkCand_cls] at run
    generalize inboxPut off none m.payload s = v at run htile hbytes
    obtain ⟨hcands, hrecv, hlinks, hcnt, hcur, hrest, hcore⟩ := link_eq src m (brambleIdle (v.onTile fun t => { t with cands := t.cands ++ [cand] }))
      ((congrArg TileSt.pendPips htile).trans hpips)
    refine ⟨_, congrArg Host.Outcome.next run, ?_, ?_, ?_, ?_, fun k hk hx => ?_⟩
    · refine hcands.trans ?_
      show v.tile.cands ++ [cand] = _
      rw [htile]
    · rw [hrecv, tabGet_tabSet_same]
      show tabGet v.tile.recv 0 src + 1 = _
      rw [htile]
    · refine hlinks.trans ?_
      show v.tile.inLinks.map _ = s.tile.inLinks.map _
      rw [htile]
    · have cnt : (brambleIdle (v.onTile fun t => { t with cands := t.cands ++ [cand] })).tile.recvCnt = s.tile.recvCnt :=
        (congrArg TileSt.recvCnt htile : v.tile.recvCnt = s.tile.recvCnt)
      rw [cnt] at hcnt
      cases hcol : m.col <;> rw [hcol] at hcnt <;> exact hcnt
    · exact (tcmByte_congr hcur hrest hcore _).trans (hbytes k hk hx)
  · intro c f hmig hlow hplace hcore h0 hmask hlinks hover hlive hpre hf hseg
    refine ⟨_, newTask ((applyLaunchRegs (dropCand c s)).onCore fun x => { x with segCtr := x.segCtr + 1 }) c f s.core.segCtr,
      congrArg Host.Outcome.next (release_starts hmig hlow (mayRelease_ok hplace hmask hlinks hover hlive hpre) hcore h0 hf), ?_⟩
    rw [startTask_ok c f (s := dropCand c s) hseg]
    exact ⟨rfl, rfl, rfl, rfl, rfl, rfl, rfl, rfl, rfl, rfl, rfl, startW_list .., rfl, rfl, rfl, rfl, rfl, rfl, rfl, rfl, rfl, rfl, rfl, rfl, rfl⟩
  · intro m f hdest hpart hcore hempty hpre hf hseg
    have run := arrival_pending hdest hpart hcore (by rw [hempty]; decide)
    rw [if_neg (ne_true_of_eq_false hpre), grant_only (s := s.withPending m) (m := m) (f := f) (congrArg (· ++ [m]) hempty) hcore hf hseg] at run
    refine ⟨_, arrivedTask ((s.withPending m).onCore fun c => { c with segCtr := c.segCtr + 1 }) m f s.core.segCtr,
      congrArg Host.Outcome.next run, ?_, rfl, rfl, rfl, rfl, rfl, arrived_status .., rfl, rfl, rfl, rfl, rfl, rfl⟩
    show (s.tile.migBuf ++ [m]).erase m = []
    rw [hempty]
    exact List.erase_cons_head ..
  · intro m hdest hpart hcore hroom hf
    have run := arrival_pending hdest hpart hcore hroom
    rw [grant_without_frame (s := s.withPending m) hf, Option.getD_none, ite_self] at run
    exact ⟨_, congrArg Host.Outcome.next run, rfl, rfl, rfl⟩
  · intro c l hl hcore hbytes hin hroom
    obtain ⟨htile, hinbox⟩ := inboxPut_kept s.core.inboxTail c.payload s
    refine ⟨_, congrArg Host.Outcome.next (drain_first hl hcore (by omega) hin hroom), ?_, ?_⟩
    · show (inboxPut s.core.inboxTail none c.payload s).tile.cands.map _ = _
      rw [htile]
      exact List.map_congr_left fun x _ => if_congr beq_iff_eq rfl rfl
    · refine hinbox.trans ?_
      rw [hin, hbytes]
      rfl
  · exact ⟨_, congrArg Host.Outcome.next (replayed hp hh hc hroom), rfl, rfl, rfl, rfl⟩
  · intro w r ms taken
    refine ⟨fun h => congrArg Host.Outcome.next (launch_other h), fun h hv => ?_, fun h hv hmine => ?_⟩
    · refine congrArg Host.Outcome.next ((launch_chosen h).trans ?_)
      show (match validate s w.vf r ms with | .ok => _ | c => _) = _
      generalize validate s w.vf r ms = code at hv ⊢
      rw [BitVec.ofNat_toNat, BitVec.setWidth_eq]
      cases code with
      | ok => exact absurd rfl hv
      | _ => rfl
    · have run := launch_chosen h
      dsimp only at run
      rw [hv] at run
      obtain ⟨t, ht, hlaunch, hvf, hseg, hsealed, hrest, hwqs, hrunning, hcands⟩ := startLaunch_here (s := s.recordTaken q.toNat) (q := q.toNat)
        (w := w) (r := r) (ms := ms) hmine
      refine ⟨t, congrArg Host.Outcome.next (run.trans ht), ?_, ?_, ?_, ?_, ?_, ?_, ?_, hvf, hseg, hsealed, hrest, hwqs, hrunning, hcands⟩ <;>
        rw [hlaunch] <;> rfl

end Settled

end Sys2Proof.Machine
end

section
/-! What arrives for a task of the core, what leaves its tile, what is counted (R241, R251, R306, R318, R326, R333, R335, R339, R364, R405,
R441), O51. -/

namespace Sys2Proof.Machine

/-! ### Deposits (R318, R339) -/

theorem takeDeposit_now {x : Nat × Word} {t : Task} (h : t.deposits = []) (hw : stalled t = true ∨ written t = true) :
    takeDeposit x t = putDeposit x t := by
  have now : (t.deposits.isEmpty && (stalled t || written t)) = true := by simpa [h] using hw
  unfold takeDeposit
  rw [now, if_pos rfl]

theorem takeDeposit_kept {x : Nat × Word} {t : Task} (h : t.deposits ≠ [] ∨ (stalled t = false ∧ written t = false)) :
    takeDeposit x t = { t with deposits := t.deposits ++ [x] } := by
  have later : (t.deposits.isEmpty && (stalled t || written t)) = false := by
    rcases h with h | ⟨h1, h2⟩
    · rw [List.isEmpty_eq_false_iff.2 h, Bool.false_and]
    · rw [h1, h2, Bool.or_self, Bool.and_false]
  unfold takeDeposit
  rw [later, if_neg Bool.false_ne_true]

theorem updCtx_none {p : Task → Bool} {f : Task → Task} {s : State} (h : ∀ t ∈ s.cur :: s.rest, p t = false) : s.updCtx p f = s := by
  unfold State.updCtx
  rw [if_neg (ne_true_of_eq_false (h s.cur List.mem_cons_self)), updFirst_none fun t ht => h t (List.mem_cons_of_mem _ ht)]

theorem depositArrival_foreign {d : Deposit} {s : State} (h : d.core ≠ pairCore s ∨ foreignPart s d.part = true) :
    exec (.depositArrival d) s = .next s := by
  have away : (d.core != pairCore s || foreignPart s d.part) = true := by simpa [bne_iff_ne] using h
  exact congrArg Host.Outcome.next (if_pos away)

theorem settled_deposits {t : Task} (h : written t = true) :
    settleDeposits t = { t.deposits.foldl (fun t x => putDeposit x t) t with deposits := [] } := by
  unfold settleDeposits
  exact if_pos h

/-! ### The end of a send (R228, R241, R251) -/

/-- The state with one of what was injected and not accepted taken off its list. -/
def State.answered (s : State) (k : Nat) : State := { s with tile := { s.tile with unaccepted := s.tile.unaccepted.eraseIdx k } }

theorem exec_sendAccepted {s : State} {k : Nat} {u : Unacc} (e : SendEnd) (h : s.tile.unaccepted[k]? = some u) : exec (.sendAccepted ⟨k, e⟩) s =
    .next (match u with
      | .send tid origin => sendEnded tid origin e (s.answered k)
      | .words tid origin q n => wordsEnded tid origin q n e (s.answered k)
      | .mig _ _ => if e == .accepted then s.answered k else errCount 1 ((s.answered k).onTile fun x => { x with ffail := true })) := by
  show done (sendAccepted k e s) = _
  unfold sendAccepted
  simp only [h]
  cases u <;> rfl

/-- R241, R251: what a send that was not accepted counts at its task. -/
theorem sendFail_counts {e : SendEnd} (he : e ≠ .accepted) (t : Task) : (sendFail e t).fails = t.fails + 1 ∧
    (sendFail e t).failDead = (t.failDead || e == .dead) ∧ (sendFail e t).failRefused = (t.failRefused || e == .refused || e == .big) ∧
    (sendFail e t).failBig = (t.failBig || e == .big) := by
  cases e with
  | accepted => exact absurd rfl he
  | refused => exact ⟨rfl, (Bool.or_false _).symm, by simp [sendFail], (Bool.or_false _).symm⟩
  | big => exact ⟨rfl, (Bool.or_false _).symm, by simp [sendFail], (Bool.or_true _).symm⟩
  | dead => exact ⟨rfl, (Bool.or_true _).symm, ((Bool.or_false _).trans (Bool.or_false _)).symm, (Bool.or_false _).symm⟩

theorem sendFail_sent (e : SendEnd) (t : Task) : (sendFail e t).sentOut = t.sentOut := by cases e <;> rfl

/-- R241: a send of a task that has ended is reported by its tile. -/
theorem sendNote_ended {s : State} {tid : Word} {origin : BitVec 13} {e : SendEnd} {f : Task → Task} (he : e ≠ .accepted)
    (h : ∀ t ∈ s.cur :: s.rest, (t.st == .ended || t.shadow || !sameTask t tid origin) = true) :
    sendNote tid origin e f s = errCount 1 (s.onTile fun x => { x with ffail := true }) := by
  have none : s.findCtx (fun t => t.st != TaskSt.ended && !t.shadow && sameTask t tid origin) = none := findCtx_none fun t ht => by
    have := h t ht
    rw [← Bool.not_eq_true', Bool.not_and, Bool.not_and, Bool.not_not, ← this]
    unfold bne
    rw [Bool.not_not]
  have other : (e == SendEnd.accepted) = false := by
    cases e with
    | accepted => exact absurd rfl he
    | _ => rfl
  unfold sendNote
  dsimp only
  rw [none, other]
  rfl

/-! ### PACKET_INJECTION (R294, R306, R333) -/

section
variable {s : State} {k : Nat} {h : Held}

theorem inject_behind (hk : s.tile.inject[k]? = some h) (hmay : mayOvertake s k h = false) : inject (.message k) s = s := by
  show injectAt k s = s
  unfold injectAt
  rw [hk]
  dsimp only
  rw [hmay]
  rfl

theorem injectable_moves {x : InjSel} (h : inject x s = s) : x ∉ injectable s := by
  intro hx
  have := (List.mem_filter.1 hx).2
  rw [h, bne_self_eq_false] at this
  exact absurd this Bool.false_ne_true

theorem mayOvertake_not (hb : 16 < k ∨ (∃ m ∈ s.tile.injectMarks, 0 < m ∧ m ≤ k) ∨ ∃ a ∈ s.tile.inject.take k, staysBehind s a h = true) :
    mayOvertake s k h = false := by
  unfold mayOvertake
  rcases hb with hb | ⟨m, hm, hb⟩ | ⟨a, ha, hb⟩
  · rw [decide_eq_false (Nat.not_le.2 hb), Bool.false_and, Bool.false_and]
  · rw [List.any_eq_true.2 ⟨m, hm, by simpa using hb⟩, Bool.not_true, Bool.and_false, Bool.false_and]
  · rw [List.any_eq_true.2 ⟨a, ha, hb⟩, Bool.not_true, Bool.and_false]

end

/-- R333: the only operation of the lane is what leaves. -/
theorem injectable_only {s : State} (hone : s.tile.inject.length = 1) (hwords : ∀ c ∈ s.tasks, wordsToSend c = none)
    (hmoves : inject (.message 0) s ≠ s) : injectable s = [.message 0] := by
  have nowords : (s.tasks.filter fun t => (wordsToSend t).isSome) = [] := List.filter_eq_nil_iff.2 fun t ht => by rw [hwords t ht]; decide
  unfold injectable
  rw [hone, nowords]
  exact List.filter_cons_of_pos (bne_iff_ne.2 hmoves)

section
variable {s : State} {k : Nat} {m : Msg} {b : Word × BitVec 13} (hm : s.tile.inject[k]? = some (.msg m)) (hb : s.tile.injectBy[k]? = some b)
  (hpair : paired s = false) (hmay : mayOvertake s k (.msg m) = true) (haway : tileOf m.dest ≠ s.tileId)
include hm hb hpair hmay haway

theorem inject_message : inject (.message k) s = injectMsg b m (popInject k s) := by
  have hsend : sendMay s k b = true := by unfold sendMay; rw [hpair]; rfl
  have hacted : acted (.send b.1 b.2) (popInject k s) = popInject k s := acted_off hpair
  have hsec : secondary s = false := by unfold secondary; rw [hpair]; rfl
  have hown : (tileOf m.dest == (popInject k s).tileId) = false := beq_eq_false_iff_ne.2 haway
  show injectAt k s = _
  unfold injectAt
  rw [hm]
  dsimp only
  rw [hb, Option.getD_some, hmay, hsend, hsec, hacted]
  show ((injectOp (.msg m) b (popInject k s)).getD s) = _
  unfold injectOp
  dsimp only
  rw [hown]
  rfl

end

/-- R294, R306: what a unicast to another tile leaves. -/
theorem injectMsg_sent {b : Word × BitVec 13} {m : Msg} {s : State} (hlost : lostToTile s (tileOf m.dest) = false) :
    let p := pOut s (tileOf m.dest) m.cls
    let n := tabGet s.tile.pairSeq 0 (tileOf m.dest)
    let t := injectMsg b m s
    t.home.out = s.home.out ++ [.msg { m with prom := p, col := s.tile.colour, seq := n } n p s.tile.colour] ∧
    t.tile.inject = s.tile.inject ∧ t.tile.injectBy = s.tile.injectBy ∧ t.tile.unaccepted = s.tile.unaccepted ++ [.send b.1 b.2] ∧
    tabGet t.tile.pairSeq 0 (tileOf m.dest) = (n + 1) % 2 ^ 32 ∧ t.tile.mred = Nat.min s.tile.mred m.stamp.toNat ∧
    t.tile.sentCnt = (if s.tile.colour then (s.tile.sentCnt.1, s.tile.sentCnt.2 + 1) else (s.tile.sentCnt.1 + 1, s.tile.sentCnt.2)) ∧
    t.cur = s.cur ∧ t.rest = s.rest := by
  intro p n t
  have drawn : drawSeq (tileOf m.dest) { m with prom := p, col := s.tile.colour, seq := n } s = s.onTile fun t => countSent m.stamp.toNat
      { t with pairSeq := tabSet t.pairSeq (tileOf m.dest) ((tabGet t.pairSeq 0 (tileOf m.dest) + 1) % 2 ^ 32),
               outLinks := t.outLinks.map fun l => if l.dst == tileOf m.dest && l.cls == m.cls then { l with sent := Nat.max l.sent p } else l } := by
    unfold drawSeq
    rw [hlost]
    rfl
  obtain ⟨hcur, hrest, hhome, hcore, -, -, meter, htile⟩ := chargeNet_frame (clusterOf (tileOf m.dest)) (flits (8 * m.payload.length))
    (drawSeq (tileOf m.dest) { m with prom := p, col := s.tile.colour, seq := n } s)
  rw [drawn] at hcur hrest hhome hcore htile
  have run : t = emit (.msg { m with prom := p, col := s.tile.colour, seq := n } n p s.tile.colour) (waitAccept b
      (chargeNet (clusterOf (tileOf m.dest)) (flits (8 * m.payload.length))
        (drawSeq (tileOf m.dest) { m with prom := p, col := s.tile.colour, seq := n } s))) := by
    have arrives : lostToTile (chargeNet (clusterOf (tileOf m.dest)) (flits (8 * m.payload.length))
        (drawSeq (tileOf m.dest) { m with prom := p, col := s.tile.colour, seq := n } s)) (tileOf m.dest) = false := hlost
    show injectMsg b m s = _
    unfold injectMsg
    exact if_neg (ne_true_of_eq_false arrives)
  rw [run, drawn]
  generalize chargeNet _ _ _ = z at hcur hrest hhome hcore htile
  refine ⟨?_, (congrArg TileSt.inject htile :), (congrArg TileSt.injectBy htile :),
    ?_, ?_, (congrArg TileSt.mred htile :), (congrArg TileSt.sentCnt htile :), hcur, hrest⟩
  · show z.home.out ++ _ = _
    rw [hhome]
    rfl
  · show z.tile.unaccepted ++ _ = _
    rw [htile]
    rfl
  · show tabGet z.tile.pairSeq 0 (tileOf m.dest) = _
    rw [htile]
    exact tabGet_tabSet_same ..

/-! ### Queue channels (R335) -/

theorem channelWords_here {s : State} {ch : BitVec 3} {src : BitVec 13} {ws : List Word} {part : BitVec 6} (hp : foreignPart s part = false) :
    ((∀ q, inboundOf s ch = some q → q.peer = src) → channelWords ch ⟨src, part⟩ ws s = { s with core := { s.core with
      chan := s.core.chan.set ch.toNat ((s.core.chan[ch.toNat] ++ ws.map fun w => (src, w)).take 8) } }) ∧
    (∀ q, inboundOf s ch = some q → q.peer ≠ src → channelWords ch ⟨src, part⟩ ws s = emit (.credit src ch ws.length) s) := by
  unfold channelWords
  rw [hp, if_neg Bool.false_ne_true]
  cases hin : inboundOf s ch with
  | none => exact ⟨fun _ => rfl, fun q hq => nomatch hq⟩
  | some q =>
    dsimp only
    refine ⟨fun h => ?_, fun r hr hne => ?_⟩
    · exact if_neg (by rw [h q rfl, bne_self_eq_false]; exact Bool.false_ne_true)
    · injection hr with hr
      exact if_pos (bne_iff_ne.2 (hr ▸ hne))

/-- R335: credits return to the outbound binding of their channel. -/
theorem credit_returned {s : State} {ch : BitVec 3} {n : Nat} {i : Fin 4} {b : QBind} (hst : s.cur.st ≠ .ended) (hsh : s.cur.shadow = false)
    (hq : s.cur.qs[i] = some b) (hout : b.outb = true) (hcls : b.cls = none) (hch : b.ch = ch) (hcr : b.credits < 8) :
    exec (.creditReturn ch n) s = .next { s with cur := addCredit ch n s.cur } ∧
      (addCredit ch n s.cur).qs[i] = some { b with credits := Nat.min 8 (b.credits + n) } := by
  have owes : owesCredit ch b = true := by
    unfold owesCredit
    rw [hout, hcls, hch, decide_eq_true hcr, beq_self_eq_true]
    rfl
  have mem : some b ∈ s.cur.qs.toList := by
    rw [← hq]
    exact Vector.mem_toList_iff.2 (Vector.getElem_mem _)
  constructor
  · refine congrArg Host.Outcome.next (updCtx_cur' ?_)
    have live : (s.cur.st != TaskSt.ended) = true := bne_iff_ne.2 hst
    rw [live, hsh]
    exact List.any_eq_true.2 ⟨some b, mem, owes⟩
  · show (s.cur.qs.map _)[i] = _
    rw [Fin.getElem_fin, Vector.getElem_map]
    rw [Fin.getElem_fin] at hq
    rw [hq]
    exact congrArg some (if_pos owes)

namespace Settled

/-- Settles O51: deposits, the ends of sends, injection, channels, link faults. -/
theorem messageSteps : Obligations.MessageSteps := by
  intro s
  refine ⟨fun d hcore hpart hto => ⟨fun h hw => ?_, fun h => ?_⟩, fun d hcore hpart hto => ?_, fun d h => depositArrival_foreign h,
    fun t hw => ⟨?_, fun x hx => ?_⟩, fun k e tid origin hk hst hsh hsame => ⟨?_, rfl, fun he => sendFail_counts he _⟩, fun k e tid origin hk he hgone => ?_,
    fun k q n tid origin hk hst hsh hsame => ?_, fun k x f hk => exec_sendAccepted _ hk, fun h => ?_, fun x h => ?_, fun x y l h => ?_,
    ?_, fun k h hk hmay => ⟨inject_behind hk hmay, injectable_moves (inject_behind hk hmay)⟩, fun k h _ hb => mayOvertake_not hb, ?_,
    fun ch src ws part hp => congrArg Host.Outcome.next (if_pos hp), fun ch n i b hst hsh hq hout hcls hch hcr => ?_, fun d red lost h => ?_,
    fun d hdead ⟨p, hp, hbr⟩ => ?_, fun l within => ?_⟩
  · rw [depositArrival_on hcore hpart, depositNow_cur hto, takeDeposit_now h hw]
    rfl
  · rw [depositArrival_on hcore hpart, depositNow_cur hto, takeDeposit_kept h]
  · rw [depositArrival_on hcore hpart]
    exact congrArg Host.Outcome.next (updCtx_none hto)
  · rw [settled_deposits hw]
  · rw [settled_deposits hw, hx]
    rfl
  · rw [exec_sendAccepted e hk]
    refine congrArg Host.Outcome.next ((sendNote_cur (s := s.answered k) e _ hst hsh hsame).trans ?_)
    rw [sendFail_sent]
    rfl
  · rw [exec_sendAccepted e hk]
    refine ⟨_, congrArg Host.Outcome.next (sendNote_ended (s := s.answered k) he hgone), rfl, rfl⟩
  · rw [exec_sendAccepted .accepted hk]
    refine congrArg Host.Outcome.next (updCtx_cur' (s := s.answered k) ?_)
    have live : (s.cur.st != TaskSt.ended) = true := bne_iff_ne.2 hst
    show (s.cur.st != TaskSt.ended && !s.cur.shadow && sameTask s.cur tid origin) = true
    rw [live, hsh, hsame]
    rfl
  · show done (packetInjection s) = _
    unfold packetInjection
    rw [h]
    rfl
  · show done (packetInjection s) = _
    unfold packetInjection
    rw [h]
    rfl
  · have bound : (Config.freeWord s.fresh).toNat % (injectable s).length < (injectable s).length := Nat.mod_lt _ (by rw [h]; exact Nat.succ_pos _)
    refine ⟨(injectable s).getD ((Config.freeWord s.fresh).toNat % (injectable s).length) (.message 0), ?_, ?_⟩
    · rw [List.getD_eq_getElem _ _ bound]
      exact List.getElem_mem _
    · show done (packetInjection s) = _
      unfold packetInjection
      rw [h]
      rfl
  · intro k m b hm hb hpair hmay haway hlost dst n left p t
    have run : t = injectMsg b m (popInject k s) := inject_message hm hb hpair hmay haway
    obtain ⟨hout, hinject, hby, hun, hseq, hmred, hsent, hcur, hrest⟩ := injectMsg_sent (b := b) (m := m) (s := popInject k s) hlost
    rw [← run] at hout hinject hby hun hseq hmred hsent hcur hrest
    refine ⟨fun hk hone hwords => ?_, hout, hinject, hby, hun, hseq, hmred, hsent, hcur, hrest⟩
    have moves : inject (.message 0) s ≠ s := by
      intro heq
      have shorter : t.tile.inject.length = 0 := by
        rw [hinject]
        show (s.tile.inject.eraseIdx k).length = 0
        rw [List.length_eraseIdx, hone, hk]
        rfl
      have same : t = s := (congrArg (fun j => inject (.message j) s) hk).trans heq
      rw [same, hone] at shorter
      exact absurd shorter (by decide)
    show done (packetInjection s) = _
    unfold packetInjection
    rw [injectable_only hone hwords moves]
    exact congrArg (fun j => Host.Outcome.next (inject (.message j) s)) hk.symm
  · intro ch src ws part hp
    obtain ⟨own, other⟩ := channelWords_here (ch := ch) (src := src) (ws := ws) hp
    exact ⟨fun h => congrArg Host.Outcome.next (own h), fun q hq hne => congrArg Host.Outcome.next (other q hq hne)⟩
  · obtain ⟨hrun, hqs⟩ := credit_returned (n := n) hst hsh hq hout hcls hch hcr
    exact ⟨_, hrun, hqs, rfl, rfl, rfl, rfl⟩
  · refine congrArg Host.Outcome.next (if_neg ?_)
    rcases h with h | h | h <;> simp [h]
  · refine congrArg Host.Outcome.next (if_pos ?_)
    rw [hdead, List.any_eq_true.2 ⟨p, hp, hbr⟩]
    rfl
  · intro k n
    refine ⟨fun h => congrArg Host.Outcome.next (if_pos h), fun h hl hs => ?_, fun h hl => ?_⟩
    · refine congrArg Host.Outcome.next ((if_neg (Nat.not_lt.2 h)).trans (if_pos ?_))
      rw [hl, hs]
      rfl
    · refine congrArg Host.Outcome.next ((if_neg (Nat.not_lt.2 h)).trans (if_neg ?_))
      rcases hl with hl | hl <;> simp [hl, k]

end Settled

end Sys2Proof.Machine
end

section
/-! Promises, asks and pips of the links, sweeps, the end of a launch on a tile (R41, R42, R239, R303 to R307, R329, R435, R441), O52. -/

namespace Sys2Proof.Machine

/-! ### Pips and asks (R303, R304, R329) -/

section
variable {s : State} {l : Nat} {x : OutLink} (hx : s.tile.outLinks[l]? = some x)
include hx

theorem exec_pipSend : exec (.pipSend l) s = .next (if pipDue s x then sendPip false (pOut s x.dst x.cls) x s else s) := by
  show done (pipSend l s) = _
  unfold pipSend
  rw [hx]
  rfl

theorem exec_askArrival (carried : Nat) : exec (.askArrival l carried) s = .next (if pOut s x.dst x.cls > carried then
    sendPip false (pOut s x.dst x.cls) x s else s.onTile fun t => { t with
      outLinks := t.outLinks.map fun y => if y == x then { y with kept := some carried } else y }) := by
  show done (askArrival l carried s) = _
  unfold askArrival
  rw [hx]
  rfl

end

theorem pipDue_iff (s : State) (x : OutLink) : pipDue s x = true ↔ (x.kept.any fun k => decide (pOut s x.dst x.cls > k)) = true ∨
    (pOut s x.dst x.cls > x.sent ∧ pOut s x.dst x.cls ≥ x.sent + s.tile.pquant.toNat) := by
  unfold pipDue
  rw [Bool.or_eq_true, Bool.and_eq_true, decide_eq_true_eq, decide_eq_true_eq]
  cases x.kept <;> rfl

section
variable {s : State} {l : Nat} {x : InLink} (hx : s.tile.inLinks[l]? = some x)
include hx

theorem exec_askSend : exec (.askSend l) s = .next (if askDue s x && !secondary s then
    emit (.ask x.src x.cls x.prom) (chargeTile x.src (s.onTile fun t =>
      { t with inLinks := t.inLinks.map fun y => if y == x then { y with asked := true } else y })) else s) := by
  show done (askSend l s) = _
  unfold askSend
  rw [hx]
  rfl

theorem exec_pipArrival (p after : Nat) (part : BitVec 6) : exec (.pipArrival l p ⟨after, part⟩) s = .next (if foreignPart s part then s
    else if reached (tabGet s.tile.recv 0 x.src) after then raiseProm x.src x.cls p s
    else s.onTile fun t => { t with
      inLinks := t.inLinks.map fun y => if y == x then { y with asked := false } else y,
      pendPips := t.pendPips ++ [{ src := x.src, cls := x.cls, prom := p, after := after }] }) := by
  show done (pipArrival l p ⟨after, part⟩ s) = _
  unfold pipArrival
  rw [hx]
  rfl

end

/-! ### Sweeps (R239, R305 to R307) -/

theorem sweepWait_due {s : State} (hlive : s.launch.live = true) (hfr : s.tile.frozen = false)
    (h : (lowestCand s).isSome = true ∨ (tileIdle s = true ∧ linksDone s = false)) :
    (s.launch.live && !s.tile.frozen && ((lowestCand s).isSome || (tileIdle s && !linksDone s))) = true := by
  rw [hlive, hfr]
  rcases h with h | ⟨h1, h2⟩
  · rw [h]
    rfl
  · rw [h1, h2, Bool.not_false, Bool.and_self, Bool.or_true]
    rfl

theorem kids_congr {s t : State} (hl : t.launch = s.launch) (hc : t.core = s.core) : t.kids = s.kids := by
  unfold State.kids treeTiles State.tileId
  rw [hl, hc]

theorem bothDead_congr {s t : State} (hh : t.home = s.home) (hc : t.core = s.core) (k : Nat) : bothDead t k = bothDead s k := by
  unfold bothDead State.clusterId State.tileId
  rw [hh, hc]

/-- A packet for each child, where a path to each is left. -/
theorem forward_kids {p : Packet} {s z : State} (hl : z.launch = s.launch) (hc : z.core = s.core) (hh : z.home = s.home)
    (h : ∀ k ∈ s.kids, bothDead s k = false) : (forward p z).cur = z.cur ∧ (forward p z).rest = z.rest ∧ (forward p z).core = s.core ∧
      (forward p z).kids = s.kids ∧ (∃ m, (forward p z).tile = { z.tile with meter := m }) ∧
      (forward p z).home.out = s.home.out ++ s.kids.map fun _ => p := by
  have kids := kids_congr hl hc
  obtain ⟨hcur, hrest, hcore, hlaunch, htile, hhome⟩ := forward_ok p z.kids z fun k hk => (bothDead_congr hh hc k).trans (h k (kids ▸ hk))
  refine ⟨hcur, hrest, hcore.trans hc, (kids_congr hlaunch hcore).trans kids, htile, ?_⟩
  unfold forward
  rw [hhome, kids, hh]

/-- R306: the tile when a sweep of a colour starts. -/
def State.sweepBegun (s : State) (col : Bool) : State :=
  s.onTile fun t => { t with
    colour := col, mred := inf48, sweeping := true, reports := [], sweepsStarted := t.sweepsStarted + 1,
    sweepWanted := if s.parent.isNone then false else t.sweepWanted,
    sentCnt := if col then (t.sentCnt.1, 0) else (0, t.sentCnt.2),
    recvCnt := if col then (t.recvCnt.1, 0) else (0, t.recvCnt.2) }

theorem sweepStart_ok {s : State} {col : Bool} (hcol : s.tile.colour ≠ col) (hidle : s.tile.sweeping = false)
    (hroot : s.parent = none → s.tile.sweepWanted = true) (hreach : ∀ k ∈ s.kids, bothDead s k = false) (hkids : s.kids ≠ []) :
    sweepStart col s = forward (.sweepStart col) (s.sweepBegun col) := by
  have goes : (s.tile.colour == col || s.tile.sweeping || (s.parent.isNone && !s.tile.sweepWanted)) = false := by
    rw [beq_eq_false_iff_ne.2 hcol, hidle]
    cases hp : s.parent with
    | none => rw [hroot hp]; rfl
    | some p => rfl
  obtain ⟨-, -, -, hk, -⟩ := forward_kids (p := .sweepStart col) (s := s) (z := s.sweepBegun col) rfl rfl rfl hreach
  have more : (forward (.sweepStart col) (s.sweepBegun col)).kids.isEmpty = false := by
    rw [hk]
    exact List.isEmpty_eq_false_iff.2 hkids
  unfold sweepStart
  rw [goes, if_neg Bool.false_ne_true]
  exact if_neg (ne_true_of_eq_false more)

/-- R306: a report of a child that is still awaited. -/
theorem sweepReport_heard {s : State} {k : Nat} {f : SweepFig} (hs : s.tile.sweeping = true) (hk : k ∈ s.kids) (hnew : ∀ r ∈ s.tile.reports, r.1 ≠ k) :
    sweepReport k f s = reportUp (s.onTile fun t => { t with reports := t.reports ++ [(k, f)] }) := by
  have none : s.tile.reports.any (fun r => r.1 == k) = false := List.any_eq_false.2 fun r hr => by simpa using hnew r hr
  unfold sweepReport
  rw [hs, List.contains_iff_mem.2 hk, none]
  rfl

theorem reportUp_waits {s : State} (h : allReported s = false) : reportUp s = s := by
  unfold reportUp
  rw [h]
  cases s.parent <;> rfl

theorem reportUp_sends {s : State} {p : Nat} (hp : s.parent = some p) (h : allReported s = true) (hsec : secondary s = false) :
    reportUp s = control p (.sweepUp p (sweepFig s)) s := by
  unfold reportUp
  rw [hp, h, hsec]
  rfl

/-- R306: the figures of a tile whose only child has reported. -/
theorem sweepFig_one {s : State} {k : Nat} {f : SweepFig} (h : s.tile.reports = [(k, f)]) : sweepFig s =
    { sent := (if s.tile.colour then s.tile.sentCnt.1 else s.tile.sentCnt.2) + f.sent,
      received := (if s.tile.colour then s.tile.recvCnt.1 else s.tile.recvCnt.2) + f.received,
      least := minList [s.tile.mred, localLow s, f.least], commit := minList [commitFig s, f.commit] } := by
  unfold sweepFig
  dsimp only
  rw [h]
  rfl

theorem sweepRecount_ok {s : State} (hs : s.tile.sweeping = true) (hp : s.parent.isSome = true) (hkids : s.kids ≠ [])
    (hreach : ∀ k ∈ s.kids, bothDead s k = false) :
    sweepRecount s = forward .sweepRecount (s.onTile fun t => { t with reports := [] }) := by
  have inner : s.parent.isNone = false := by rw [← Option.not_isSome, hp]; rfl
  obtain ⟨-, -, -, hk, -⟩ := forward_kids (p := .sweepRecount) (s := s) (z := s.onTile fun t => { t with reports := [] }) rfl rfl rfl hreach
  have more : (forward .sweepRecount (s.onTile fun t => { t with reports := [] })).kids.isEmpty = false := by
    rw [hk]
    exact List.isEmpty_eq_false_iff.2 hkids
  unfold sweepRecount
  rw [hs, inner, Bool.false_and, Bool.not_true, Bool.or_self, if_neg Bool.false_ne_true]
  exact if_neg (ne_true_of_eq_false more)

/-- R307: the pips of a sweep change the links alone. -/
theorem sweepPips_tile (h : Nat) (s : State) : let t := (sweepPips h s).tile
    t.horizon = s.tile.horizon ∧ t.commit = s.tile.commit ∧ t.sweeping = s.tile.sweeping ∧ t.reports = s.tile.reports ∧
      t.sweepsEnded = s.tile.sweepsEnded ∧ t.outLinks.length = s.tile.outLinks.length := by
  refine foldl_inv (fun z : State => z.tile.horizon = s.tile.horizon ∧ z.tile.commit = s.tile.commit ∧ z.tile.sweeping = s.tile.sweeping ∧
    z.tile.reports = s.tile.reports ∧ z.tile.sweepsEnded = s.tile.sweepsEnded ∧ z.tile.outLinks.length = s.tile.outLinks.length)
    _ (fun z l hz => ?_) s.tile.outLinks s ⟨rfl, rfl, rfl, rfl, rfl, rfl⟩
  obtain ⟨a1, a2, a3, a4, a5, a6⟩ := hz
  obtain ⟨b1, b2, b3, b4, b5, b6⟩ := sendPip_tile true (Nat.max (pOut z l.dst l.cls) (satAdd h (leastLah z))) l z
  exact ⟨b1.trans a1, b2.trans a2, b3.trans a3, b4.trans a4, b5.trans a5, b6.trans a6⟩

/-- R306: the end of a sweep at a leaf of the tree. -/
theorem sweepEnd_leaf {s : State} (h commit : Nat) (hs : s.tile.sweeping = true) (hp : s.parent.isSome = true) (hkids : s.kids = []) :
    sweepEnd h commit s = sweepPips h (s.onTile fun t => { t with
      horizon := h, commit := commit, sweeping := false, reports := [], sweepsEnded := t.sweepsEnded + 1 }) := by
  have agrees : endAgrees h commit s = true := by unfold endAgrees; rw [hp]; rfl
  have none : (s.onTile fun t => { t with horizon := h, commit := commit, sweeping := false, reports := [],
                                          sweepsEnded := t.sweepsEnded + 1 }).kids = [] := hkids
  unfold sweepEnd forward
  rw [hs, agrees]
  dsimp only
  rw [none]
  rfl

/-! ### Done messages (R41, R42, R435) -/

theorem mayFinish_live {s : State} (h : mayFinish s = true) : s.launch.live = true := by
  cases hl : s.launch.live with
  | true => rfl
  | false =>
    unfold mayFinish at h
    simp [hl] at h

theorem exec_doneSend {s : State} (h : mayFinish s = true) : exec .doneSend s = .next (match s.parent with
    | some p => control p (.doneMsg p (statusWord s)) (s.onTile fun t => { t with doneSent := true })
    | none => launchOver s.launch.tag (completionEntry s.launch.wq s.launch.idx s.launch.tag (statusWord s) 0
        (s.onTile fun t => { t with doneSent := true }))) := by
  show done (doneSend s) = _
  unfold doneSend
  rw [h, Bool.not_true, if_neg Bool.false_ne_true]
  cases s.parent <;> rfl

/-- R37: what the end of a launch leaves. -/
theorem launchOver_own {s : State} (h : s.launch.live = true) : let t := launchOver s.launch.tag s
    t.launch.live = false ∧ t.tile = s.tile ∧ t.home.mem = s.home.mem ∧ (∀ r ∈ t.host.running, r.tag ≠ s.launch.tag) ∧
      ∀ e ∈ t.home.tags, e.2.launch ≠ s.launch.tag.toNat := by
  have own : (s.launch.live && s.launch.tag == s.launch.tag) = true := by rw [h, beq_self_eq_true]; rfl
  have run : launchOver s.launch.tag s = { (s.onHost fun h => { h with running := h.running.filter fun r => r.tag != s.launch.tag }).onHome fun h =>
      { h with tags := h.tags.filter fun e => e.2.launch != s.launch.tag.toNat } with launch := { s.launch with live := false } } := if_pos own
  intro t
  rw [show t = _ from run]
  exact ⟨rfl, rfl, rfl, fun r hr => bne_iff_ne.1 (List.mem_filter.1 hr).2, fun e he => bne_iff_ne.1 (List.mem_filter.1 he).2⟩

/-- R435: an entry of a completion ring changes memory alone. -/
theorem completion_kept (q : BitVec 10) (i : Nat) (tag : BitVec 16) (st : BitVec 32) (c : BitVec 8) (s : State) :
    (completionEntry q i tag st c s).launch = s.launch ∧ (completionEntry q i tag st c s).tile = s.tile := by
  unfold completionEntry
  dsimp only
  generalize leBytes 8 _ ++ leBytes 8 _ = bs
  generalize (tabGet s.host.wqs {} q.toNat).qbase.toNat * 2048 + _ + _ = a
  split <;> exact ⟨rfl, rfl⟩

namespace Settled

/-- Settles O52: the promises of the links, the steps of a sweep, the done messages. -/
theorem promiseSteps : Obligations.PromiseSteps := by
  refine ⟨fun s => ⟨fun l x hx => ?_, fun l x hx => ⟨fun hd hsec => ?_, fun h => ?_, fun p after part hp => ?_, fun p after part hp =>
    ⟨fun hr => ?_, fun hr => ?_⟩⟩⟩, fun s => ⟨⟨fun hlive hfr h => ?_, fun hfr => ?_⟩, ⟨fun hp => ?_, fun p hp => ?_⟩, ?_,
    fun k f hs hk hnew ⟨o, ho, hne, hmiss⟩ => ?_, fun k p f hs hkids hrep hp hsec hdead => ?_, fun hs hp hkids hreach => ?_,
    fun h commit hs hp hkids => ?_, fun k st hk hnew => ?_, fun h => ?_, fun p h hp hdead => ?_, fun h hp => ?_⟩⟩
  · intro p out sent
    have pip : sendPip false p x s = sent := rfl
    refine ⟨fun h => ?_, fun h1 h2 => ?_, fun carried => ⟨fun h => ?_, fun h => ?_⟩⟩
    · rw [exec_pipSend hx, if_pos ((pipDue_iff s x).2 h), pip]
    · rw [exec_pipSend hx, if_neg fun h => ((pipDue_iff s x).1 h).elim (fun h => Bool.false_ne_true (h1.symm.trans h)) h2]
    · rw [exec_askArrival hx carried, if_pos h, pip]
    · rw [exec_askArrival hx carried, if_neg (Nat.not_lt.2 h)]
      rfl
  · rw [exec_askSend hx, hd, hsec]
    rfl
  · rw [exec_askSend hx, if_neg (by rcases h with h | h <;> simp [h])]
  · rw [exec_pipArrival hx, if_pos hp]
  · rw [exec_pipArrival hx, if_neg (ne_true_of_eq_false hp), if_pos hr]
    rfl
  · rw [exec_pipArrival hx, if_neg (ne_true_of_eq_false hp), if_neg (ne_true_of_eq_false hr)]
    rfl
  · exact congrArg Host.Outcome.next (if_pos (sweepWait_due hlive hfr h))
  · exact congrArg Host.Outcome.next (if_neg (by simp [hfr]))
  · show done (match s.parent with | none => _ | some p => _) = _
    rw [hp]
    rfl
  · intro heard
    have run : exec .sweepRequest s = .next (if secondary s then heard else control p .sweepReq heard) := by
      show done (match s.parent with | none => _ | some p => _) = _
      rw [hp]
      rfl
    refine ⟨fun h => ?_, fun h hd => ?_, fun h hd => ?_⟩
    · rw [run, if_pos h]
    · rw [run, if_neg (ne_true_of_eq_false h), control_ok (s := heard) hd]
    · rw [run, if_neg (ne_true_of_eq_false h), control_lost (s := heard) hd]
  · intro col hcol hidle hroot hreach hkids cut
    obtain ⟨-, -, -, -, ⟨e, htile⟩, hout⟩ := forward_kids (p := .sweepStart col) (s := s) (z := s.sweepBegun col) rfl rfl rfl hreach
    exact ⟨_, e, congrArg Host.Outcome.next (sweepStart_ok hcol hidle hroot hreach hkids), htile, hout⟩
  · refine congrArg Host.Outcome.next ((sweepReport_heard hs hk hnew).trans (reportUp_waits ?_))
    refine List.all_eq_false.2 ⟨o, ho, ?_⟩
    rw [Bool.not_eq_true]
    refine List.any_eq_false.2 fun r hr => ?_
    rcases List.mem_append.1 hr with hr | hr
    · simpa using hmiss r hr
    · rw [List.mem_singleton.1 hr]
      simpa using hne.symm
  · intro pick fig
    have run := sweepReport_heard (f := f) hs (hkids ▸ List.mem_singleton.2 rfl : k ∈ s.kids) (by rw [hrep]; exact fun r hr => nomatch hr)
    have reports : (s.onTile fun t => { t with reports := t.reports ++ [(k, f)] }) = { s with tile := { s.tile with reports := [(k, f)] } } := by
      unfold State.onTile
      dsimp only
      rw [hrep]
      rfl
    rw [reports] at run
    have all : allReported { s with tile := { s.tile with reports := [(k, f)] } } = true := by
      have kids : State.kids { s with tile := { s.tile with reports := [(k, f)] } } = [k] := hkids
      unfold allReported
      rw [kids]
      simp
    rw [reportUp_sends (s := { s with tile := { s.tile with reports := [(k, f)] } }) hp all hsec,
      control_ok (s := { s with tile := { s.tile with reports := [(k, f)] } }) hdead, sweepFig_one rfl] at run
    exact congrArg Host.Outcome.next run
  · obtain ⟨hcur, hrest, hcore, -, ⟨e, htile⟩, hout⟩ := forward_kids (p := .sweepRecount) (s := s) (z := s.onTile fun t => { t with reports := [] }) rfl rfl rfl hreach
    exact ⟨_, e, congrArg Host.Outcome.next (sweepRecount_ok hs hp hkids hreach), htile, hcur, hrest, hcore, hout⟩
  · obtain ⟨a1, a2, a3, a4, a5, a6⟩ := sweepPips_tile h.toNat (s.onTile fun t => { t with
      horizon := h.toNat, commit := commit.toNat, sweeping := false, reports := [], sweepsEnded := t.sweepsEnded + 1 })
    exact ⟨_, congrArg Host.Outcome.next (sweepEnd_leaf h.toNat commit.toNat hs hp hkids), a1, a2, a3, a4, a5, a6⟩
  · have none : s.tile.kidsDone.any (fun d => d.1 == k) = false := List.any_eq_false.2 fun d hd => by simpa using hnew d hd
    refine congrArg Host.Outcome.next (if_pos ?_)
    rw [List.contains_iff_mem.2 hk, none]
    rfl
  · show done (doneSend s) = _
    unfold doneSend
    rw [h]
    rfl
  · rw [exec_doneSend h, hp]
    exact congrArg Host.Outcome.next (control_ok (s := s.onTile fun t => { t with doneSent := true }) hdead)
  · rw [exec_doneSend h, hp]
    obtain ⟨hlaunch, htile⟩ := completion_kept s.launch.wq s.launch.idx s.launch.tag (statusWord s) 0 (s.onTile fun t => { t with doneSent := true })
    have hmem : ∀ a, a = (tabGet s.host.wqs {} s.launch.wq.toNat).qbase.toNat * 2048 + 2048 * 2 ^ (tabGet s.host.wqs {} s.launch.wq.toNat).qctl.toNat +
        16 * (s.launch.idx % 2 ^ (tabGet s.host.wqs {} s.launch.wq.toNat).qctl.toNat) → noMemory s a = false →
        (completionEntry s.launch.wq s.launch.idx s.launch.tag (statusWord s) 0 (s.onTile fun t => { t with doneSent := true })).home.mem =
          memPutN s.home.mem a (leBytes 8 ((1#1 ++ 0#15 ++ s.launch.tag ++ statusWord s : BitVec 64)).toNat ++ leBytes 8 0) := fun a ha hn => by
      subst ha
      have hn' : noMemory (s.onTile fun t => { t with doneSent := true }) _ = false := hn
      unfold completionEntry
      exact congrArg (fun z : State => z.home.mem) (if_neg (ne_true_of_eq_false hn'))
    generalize completionEntry s.launch.wq s.launch.idx s.launch.tag (statusWord s) 0 (s.onTile fun t => { t with doneSent := true }) = z at *
    have hz : z.launch = s.launch := hlaunch
    obtain ⟨h1, h2, h3, h4, h5⟩ := launchOver_own (s := z) (by rw [hz]; exact mayFinish_live h)
    rw [hz] at h1 h2 h3 h4 h5
    exact ⟨_, rfl, h1, (congrArg TileSt.doneSent (h2.trans htile) :), h4, h5, fun hn => h3.trans (hmem _ rfl hn)⟩

end Settled

end Sys2Proof.Machine
end

section
/-! The stream unit and the engine queues (R91, R202, R254, R265 to R268, R276, R278 to R283, R374, R425), O53. -/

namespace Sys2Proof.Machine

/-! ### Streams (R266 to R268) -/

theorem fetchElem_fill {s : State} {t : Task} {st : Stream} {l : Nat} (h : elemInb st.pat l = false) :
    fetchElem s t st l = .ok (.val st.pat.fill, s) := by
  unfold fetchElem
  dsimp only
  rw [h]
  rfl

theorem fetchElem_tcm {s : State} {t : Task} {st : Stream} {l : Nat} (hin : elemInb st.pat l = true) (htcm : st.tcm = true)
    (hout : elemOut st.pat true l = false) (hp : anyPoison s.core.tcmPoison (elemAddr st.pat l).toNat (2 ^ st.pat.sz) = false) :
    fetchElem s t st l = .ok (.val (zextBytes (2 ^ st.pat.sz) (leNat (tcmBytes s (elemAddr st.pat l).toNat (2 ^ st.pat.sz)))), s) := by
  unfold fetchElem
  dsimp only
  rw [hin, htcm, hout, hp]
  rfl

theorem tcmPut_streams (s : State) (a : Nat) (bs : List Byte) : (tcmPut s a bs).cur.streams = s.cur.streams := by
  obtain ⟨F, hF, hcur, -⟩ := puts_tasks bs s a
  have e := congrArg Task.streams (hF s.cur)
  show (tcmPutBytes s a bs).cur.streams = _
  rw [hcur]
  exact e

theorem tcmByte_tcmPut {s : State} (a : Nat) (bs : List Byte) {x : Nat} (hm : s.memOk = true) (hx : ¬ s.wordZero x) :
    tcmByte (tcmPut s a bs) x = if a ≤ x ∧ x < a + bs.length then bs.getD (x - a) 0 else tcmByte s x :=
  tcmBytes_put bs s a x (memOk_tcm hm) hx

theorem missOver_set (st : Option Stream) (f : Fld) (t : Task) : (missOver (setStrm f st t)).streams = (setStrm f st t).streams ∧
    Task.sameWs t (missOver (setStrm f st t)) ∧ ((missOver (setStrm f st t)).st = .ended ↔ t.st = .ended) ∧
      (missOver (setStrm f st t)).shadow = t.shadow :=
  missOver_facts (setStrm f st t)

/-- A change of the issuing context that keeps its workspace and its life changes no byte of TCM outside a word 0. -/
theorem tcmByte_onCur {s : State} {g : Task → Task} {x : Nat} (hws : Task.sameWs s.cur (g s.cur)) (hst : (g s.cur).st = .ended ↔ s.cur.st = .ended)
    (hsh : (g s.cur).shadow = s.cur.shadow) (hx : ¬ s.wordZero x) : tcmByte (s.onCur g) x = tcmByte s x := by
  have same (l : List Task) : List.Forall₂ Task.sameWs l l := List.forall₂_same.2 fun _ _ => ⟨rfl, rfl⟩
  refine tcmByte_sameWs ?_ rfl hx
  have live : ((g s.cur).st != TaskSt.ended && !(g s.cur).shadow) = (s.cur.st != TaskSt.ended && !s.cur.shadow) := by
    rw [hsh, Bool.eq_iff_iff]
    simp [hst]
  show List.Forall₂ Task.sameWs ((s.cur :: s.rest).filter _) ((g s.cur :: s.rest).filter _)
  rw [List.filter_cons, List.filter_cons, live]
  split
  · exact .cons hws (same _)
  · exact same _

/-- R268: a pushed element of TCM is stored. -/
theorem drain_tcm {s : State} {k : BitVec 3} {st : Stream} {e : Pushed} {r : List Pushed} (hst : s.cur.st ≠ .ended) (hsh : s.cur.shadow = false)
    (hstrm : strmOf s.cur (strmFld k) = some st) (hpush : st.pushed = e :: r) (htcm : st.tcm = true)
    (hmx : mxSource s.core (elemAddr st.pat e.l).toNat (2 ^ st.pat.sz) = false) : exec (.streamDrain s.cur.frame k) s =
      .next ((tcmPut s (elemAddr st.pat e.l).toNat (leBytes (2 ^ st.pat.sz) e.v.toNat)).onCur fun t =>
        missOver (setStrm (strmFld k) (some { st with pushed := r, bad := none, miss := false }) t)) := by
  have kept : strmOf (tcmPut s (elemAddr st.pat e.l).toNat (leBytes (2 ^ st.pat.sz) e.v.toNat)).cur (strmFld k) = some st := by
    unfold strmOf at hstrm ⊢
    rw [tcmPut_streams]
    exact hstrm
  show done (asFrame s.cur.frame (fun s => (drainCur k s).1) s) = _
  rw [asFrame_cur rfl hsh hst]
  unfold drainCur
  dsimp only
  rw [hstrm]
  dsimp only
  rw [hpush]
  dsimp only
  rw [if_pos htcm, hmx, if_neg Bool.false_ne_true]
  unfold drainEnd
  rw [kept]
  dsimp only
  rw [hpush]
  rfl

/-! ### The heads of the queues (R276, R278, R282, R283) -/

section
variable {s : State} {q : Nat} {o : EngOp} {l : List EngOp} (hq : s.queue q = o :: l)
include hq

theorem stopHead_eq (code : Nat) (t : Option PendTrap) : stopHead q code t s = setQueueOps q ({ o with code := code, stop := t, finished := true } :: l) s :=
  setHead_eq hq _

/-- R254: the head starts when nothing keeps it. -/
theorem opStart_eq (hs : o.started = false) (hc : o.cancelled = false) (hh : engHeld s = false) (h9 : q ≠ 9) : engineOpStart q s =
    if opMay o s then setHead q (fun o => { o with started := true, at_ := match o.kind with | .chain h => h | _ => 0 }) (opActed o s) else s := by
  unfold engineOpStart
  rw [hq]
  dsimp only
  rw [hs, hc, hh, decide_eq_false h9]
  cases opMay o s <;> rfl

omit hq in
theorem opActed_queue (o : EngOp) (s : State) (q : Nat) : (opActed o s).queue q = s.queue q := by
  unfold opActed acted
  split
  · split <;> rfl
  · rfl

section
variable (hs : o.started = true) (hf : o.finished = false) (hh : engHeld s = false) (hc : o.cancelled = false)
include hs hf hh hc

section
variable {src dst : Pattern} {st dt scl : Bool} {sr dr : Word} (hk : o.kind = .copy src dst st dt scl sr dr) (hscl : scl = true → o.moved / 256 ≤ o.sub)
include hk hscl

/-- One element of a copy whose scale records are all moved. -/
theorem copy_step : (if headKind q true s then (xferStep q s).1 else s) =
    if src.len ≤ o.moved then stopHead q 0 none s
    else if elemOut src st o.moved = true ∨ elemOut dst dt o.moved = true then xrangeStop q o.moved s
    else match moveElem q o src dst st dt o.moved s with
      | .error e => copyStop q e s
      | .ok s => setHead q (fun o' => { o' with moved := o.moved + 1, bytes := o'.bytes + (if elemInb dst o.moved then 1 else 0) }) s := by
  have head : headKind q true s = true := by
    unfold headKind
    rw [hq]
    dsimp only
    rw [hk]
  have records : (scl && decide (o.sub < o.moved / 256)) = false := by
    cases hb : scl with
    | false => rfl
    | true => exact decide_eq_false (Nat.not_lt.2 (hscl hb))
  rw [head, if_pos rfl, xfer_key hq hs hf hh, hk]
  dsimp only
  unfold copyStep
  dsimp only
  rw [hc, records, if_neg Bool.false_ne_true, if_neg Bool.false_ne_true]
  simp only [ge_iff_le, Bool.or_eq_true, apply_ite Prod.fst]
  cases moveElem q o src dst st dt o.moved s <;> rfl

end

section
variable {h : Nat} (hk : o.kind = .chain h) (he : o.elem = none)
include hk he

/-- The next element of a chain. -/
theorem chain_step : (if headKind q false s then (xferStep q s).1 else s) =
    if o.at_ = 0 then stopHead q 0 none s
    else (match engRead false o.at_ 64 o.priv s with
      | .error e => (copyStop q e s, some e)
      | .ok (bs, s1) =>
        match chainSkips o (chainElem bs) s1 with
        | .error x => (copyStop q x s, some x)
        | .ok (true, s2) => (chainNext q o (chainElem bs).next s2, none)
        | .ok (false, s2) =>
          if (chainElem bs).src + (chainElem bs).len > 2 ^ 56 || (chainElem bs).dst + (chainElem bs).len > 2 ^ 56 then
            (xrangeStop q o.moved s2, none)
          else chainFinish q o (chainElem bs).src (chainElem bs).dst (chainElem bs).len (chainElem bs).next
            (setHead q (fun o => { o with elem := some ((chainElem bs).src, (chainElem bs).dst, (chainElem bs).len, (chainElem bs).next),
                                          sub := 0 }) s2)).1 := by
  have head : headKind q false s = true := by
    unfold headKind
    rw [hq]
    dsimp only
    rw [hk]
    rfl
  rw [head, if_pos rfl, xfer_key hq hs hf hh, hk]
  dsimp only
  unfold chainStep
  rw [he]
  dsimp only
  rw [hc, if_neg Bool.false_ne_true]
  exact apply_ite Prod.fst ..

end

end

/-! ### Completion and its delivery (R91, R279, R280) -/

theorem complete_head (hf : o.finished = true) (hh : engHeld s = false) (hc : o.cancelled = false ∨ o.started = true) :
    engineOpComplete q s = deliverDone q o (setQueueOps q l s) := by
  have ran : (o.cancelled && !o.started) = false := by rcases hc with h | h <;> simp [h]
  unfold engineOpComplete
  rw [hq]
  dsimp only
  rw [ran, if_neg Bool.false_ne_true, hf, hh]
  rfl

end

theorem deliver_nothing {s : State} {q : Nat} {o : EngOp} (h : o.handler = 0) (hs : o.stop = none) : deliverDone q o s = s := by
  unfold deliverDone
  dsimp only
  rw [if_pos h, hs]

/-- R279: a completion with a handler reaches the issuing task. -/
theorem deliver_handler {s : State} {q : Nat} {o : EngOp} (h : o.handler ≠ 0) (hs : o.stop = none) (hst : s.cur.st ≠ .ended)
    (hsh : s.cur.shadow = false) (hsame : sameTask s.cur o.tid o.origin = true) : deliverDone q o s = { s with cur := { s.cur with
      comps := s.cur.comps ++ [{ handler := o.handler, xid := o.xid, status := complStatus q o, op := (o.seg, o.part) }],
      traps := s.cur.traps ++ [] } } := by
  have live : (s.cur.st != TaskSt.ended && !s.cur.shadow && sameTask s.cur o.tid o.origin) = true := by
    rw [hsh, hsame, bne_iff_ne.2 hst]
    rfl
  unfold deliverDone
  dsimp only
  rw [if_neg h, hs, findCtx_cur' (p := fun t => t.st != TaskSt.ended && !t.shadow && sameTask t o.tid o.origin) live, if_pos (show (some s.cur).isSome = true from rfl),
    updCtx_cur' (p := fun t => t.st != TaskSt.ended && !t.shadow && sameTask t o.tid o.origin) live]

theorem interrupt_eq {s : State} {c : Compl} {cs : List Compl} (h : s.cur.comps = c :: cs) (hst : s.cur.st ≠ .ended) (hsh : s.cur.shadow = false) :
    exec .completionInterrupt s = .next (if s.cur.inu then s else s.onCur fun t =>
      { t with comps := cs, uepc := t.pc.extractLsb' 2 54, xferid := c.xid, xstatus := c.status, inu := true, pc := c.handler, wait := none,
               paid := false, st := .running }) := by
  have live : (s.cur.st == TaskSt.ended) = false := beq_eq_false_iff_ne.2 hst
  show execCompletionInterrupt s = _
  unfold execCompletionInterrupt
  rw [h]
  dsimp only
  rw [live, hsh]
  cases s.cur.inu <;> rfl

/-- R279: a completion whose task has ended becomes a candidate. -/
theorem activation_eq {s : State} {o : Orphan} {os : List Orphan} (h : s.core.orphans = o :: os) (hfull : s.tile.cands.length < 256)
    (hover : s.tile.overflow = []) (hplace : ∀ c ∈ s.tile.cands, c.place = .inbox) : completionActivation s =
      (brambleIdle ((s.onCore fun x => { x with orphans := os }).onTile fun t =>
        { t with cands := t.cands ++ [{ completionCand s o with place := .inbox }] })).onTile fun t => { t with localSeq := t.localSeq + 1 } := by
  obtain ⟨hheap, hhold⟩ := allCands_place (s := s.onCore fun x => { x with orphans := os }) hover hplace
  have room : decide (s.tile.cands.length ≥ 256) = false := decide_eq_false (Nat.not_le.2 hfull)
  have table : toHeap (completionCand s o) (s.onCore fun x => { x with orphans := os }) = false := by
    unfold toHeap
    show ((!s.tile.overflow.isEmpty || decide (s.tile.cands.length ≥ 256)) && _) = _
    rw [hover, room]
    rfl
  have add : addCand (completionCand s o) (s.onCore fun x => { x with orphans := os }) = some (brambleIdle
      ((s.onCore fun x => { x with orphans := os }).onTile fun t => { t with cands := t.cands ++ [{ completionCand s o with place := .inbox }] })) := by
    have placed : placeCand (completionCand s o) (s.onCore fun x => { x with orphans := os }) =
        some ({ completionCand s o with place := .inbox }, s.onCore fun x => { x with orphans := os }) := by
      have enters : enterInbox (completionCand s o) (s.onCore fun x => { x with orphans := os }) =
          some ({ completionCand s o with place := .inbox }, s.onCore fun x => { x with orphans := os }) := if_pos (Bool.or_true _)
      unfold placeCand
      rw [hheap, hhold, enters]
      exact if_neg (ne_true_of_eq_false (bne_self_eq_false s.core.id))
    unfold addCand
    rw [table]
    dsimp only
    rw [if_neg Bool.false_ne_true, show decide ((s.onCore fun x => { x with orphans := os }).tile.cands.length ≥ 256) = false from room]
    dsimp only
    rw [placed]
  unfold completionActivation
  rw [h]
  dsimp only
  rw [add]

/-- R91: the oldest trap of an engine, where the matrix unit is not the task's. -/
theorem trapDelivery_eq {s : State} {p : PendTrap} {ps : List PendTrap} (h : s.cur.traps = p :: ps) (hst : s.cur.st ≠ .ended)
    (hsh : s.cur.shadow = false) (hmx : ownsMx s.core s.cur = false) : exec .engineTrapDelivery s =
      .next ((takeTrap p.cause p.detail (p.cause != cSTALL) p.val { s with cur := { s.cur with traps := ps, wait := none, paid := false } }).onCur
        fun t => { t with trapTaken := true }) := by
  have live : (s.cur.st == TaskSt.ended || s.cur.shadow) = false := by
    rw [beq_eq_false_iff_ne.2 hst, hsh]
    rfl
  have kept : mxTrapTaken p s = s := by
    unfold mxTrapTaken
    rw [hmx]
    rfl
  show execEngineTrapDelivery s = _
  unfold execEngineTrapDelivery
  rw [h]
  dsimp only
  rw [live, if_neg Bool.false_ne_true, kept]
  rfl

/-- R151: a granule of a vector register is present again, its value as it stood. -/
theorem granuleFill_vreg {s : State} (i : BitVec 4) (hst : s.cur.st ≠ .ended) (hsh : s.cur.shadow = false) :
    ∃ t, exec (.granuleFill s.cur.frame (.vreg i)) s = .next t ∧ t.cur = { s.cur with vAbsent := s.cur.vAbsent &&& ~~~(1#16 <<< i.toNat) } ∧
      t.rest = s.rest ∧ t.core = s.core ∧ t.home = s.home := by
  obtain ⟨m, f, hcharge⟩ := chargeOpen_frame 0 s
  refine ⟨_, rfl, ?_⟩
  unfold granuleFill
  rw [hcharge]
  dsimp only
  rw [updCtx_cur' (s := { s with tile := { s.tile with meter := m }, fresh := f }) (live_cur hst hsh)]
  exact ⟨rfl, rfl, rfl, rfl⟩

namespace Settled

/-- Settles O53: the streams, the heads of the engine queues, what completes. -/
theorem engineSteps : Obligations.EngineSteps := by
  intro s
  refine ⟨fun k st h1 h2 h3 h4 => ?_, fun k st e r hm h1 h2 h3 hpush htcm => ?_, fun q o l hq hs hc hh h9 => ⟨fun hm => ?_, fun h hm hk => ?_,
    fun hm hk => ?_⟩, fun q o l src dst st dt scl sr dr hq hk hs hf hh hc hscl => ?_, fun q o l h hq hk hs hf hh hc he => ?_,
    fun q o l hq hf hh hc => ⟨fun h0 hstop => ?_, fun h0 hstop hst hsh hsame => ?_⟩, fun c cs hcs hst hsh => ⟨fun hi => ?_, fun hi => ?_⟩,
    fun o os ho hfull hover hplace => ?_, fun p ps hp hst hsh hmx => trapDelivery_eq hp hst hsh hmx, fun i hst hsh => ?_, rfl⟩
  · intro l n a hout hcap hlen hbad
    exact ⟨fun hin => fetch_key h1 h2 h3 h4 hout hcap hlen hbad (fetchElem_fill hin),
      fun hin htcm hrange hpoison => fetch_key h1 h2 h3 h4 hout hcap hlen hbad (fetchElem_tcm hin htcm hrange hpoison)⟩
  · intro n a hmx
    refine ⟨_, drain_tcm h1 h2 h3 hpush htcm hmx, ?_, fun b hb => ?_⟩
    · obtain ⟨hstr, -⟩ := missOver_set (some { st with pushed := r, bad := none, miss := false }) (strmFld k) (tcmPut s a (leBytes n e.v.toNat)).cur
      have kept : strmOf (tcmPut s a (leBytes n e.v.toNat)).cur (strmFld k) = some st := by
        unfold strmOf at h3 ⊢
        rw [tcmPut_streams]
        exact h3
      have set := strm_set (some { st with pushed := r, bad := none, miss := false }) kept
      unfold strmOf at set ⊢
      show ((missOver (setStrm _ _ (tcmPut s a (leBytes n e.v.toNat)).cur)).streams[_]?).join = _
      rw [hstr]
      exact set
    · obtain ⟨-, hws, hended, hshadow⟩ := missOver_set (some { st with pushed := r, bad := none, miss := false }) (strmFld k)
        (tcmPut s a (leBytes n e.v.toNat)).cur
      refine (tcmByte_onCur (s := tcmPut s a (leBytes n e.v.toNat)) (g := fun t =>
        missOver (setStrm (strmFld k) (some { st with pushed := r, bad := none, miss := false }) t)) hws hended hshadow
        (puts_zero (leBytes n e.v.toNat) hb)).trans ?_
      rw [tcmByte_tcmPut a _ hm hb, leBytes_length]
  · exact congrArg Host.Outcome.next ((opStart_eq hq hs hc hh fun h => h9 (BitVec.eq_of_toNat_eq h)).trans (if_neg (ne_true_of_eq_false hm)))
  · refine congrArg Host.Outcome.next ((opStart_eq hq hs hc hh fun h => h9 (BitVec.eq_of_toNat_eq h)).trans ((if_pos hm).trans ?_))
    rw [setHead_eq ((opActed_queue o s q.toNat).trans hq)]
    rw [hk]
  · refine congrArg Host.Outcome.next ((opStart_eq hq hs hc hh fun h => h9 (BitVec.eq_of_toNat_eq h)).trans ((if_pos hm).trans ?_))
    rw [setHead_eq ((opActed_queue o s q.toNat).trans hq)]
    cases hkind : o.kind with
    | chain h => exact absurd hkind (hk h)
    | _ => rfl
  · have step := copy_step hq hs hf hh hc hk hscl
    refine ⟨fun hlen => ?_, fun hlen hout => ?_, fun hlen hsrc hdst hin hind hdt => ?_⟩
    · exact congrArg Host.Outcome.next (step.trans ((if_pos hlen).trans (stopHead_eq hq 0 none)))
    · exact congrArg Host.Outcome.next (step.trans ((if_neg (Nat.not_le.2 hlen)).trans (if_pos hout)))
    · have inRange : ¬ (elemOut src st o.moved = true ∨ elemOut dst dt o.moved = true) := by
        rw [hsrc, hdst]
        decide
      have moved : moveElem q.toNat o src dst st dt o.moved s = .ok (tcmPut s (elemAddr dst o.moved).toNat (leBytes (2 ^ src.sz) src.fill.toNat)) := by
        unfold moveElem
        dsimp only
        rw [hin, if_neg Bool.false_ne_true]
        dsimp only
        rw [hind, if_pos rfl, hdt]
        rfl
      refine congrArg Host.Outcome.next (step.trans ((if_neg (Nat.not_le.2 hlen)).trans ((if_neg inRange).trans ?_)))
      rw [moved, hind]
      rfl
  · have step := chain_step hq hs hf hh hc hk he
    refine ⟨fun h0 => ?_, fun bs u v h0 hread hskip => ?_, fun bs u v h0 hread hskip hfar => ?_⟩
    · exact congrArg Host.Outcome.next (step.trans ((if_pos h0).trans (stopHead_eq hq 0 none)))
    · refine congrArg Host.Outcome.next (step.trans ((if_neg h0).trans ?_))
      rw [hread]
      dsimp only
      rw [hskip]
    · refine congrArg Host.Outcome.next (step.trans ((if_neg h0).trans ?_))
      rw [hread]
      dsimp only
      rw [hskip]
      dsimp only
      rw [if_pos (by simpa using hfar)]
  · exact congrArg Host.Outcome.next ((complete_head hq hf hh hc).trans (deliver_nothing h0 hstop))
  · intro status
    exact ⟨_, congrArg Host.Outcome.next ((complete_head hq hf hh hc).trans (deliver_handler (s := setQueueOps q.toNat l s) h0 hstop hst hsh hsame)),
      rfl, rfl, rfl⟩
  · exact ⟨_, (interrupt_eq hcs hst hsh).trans (congrArg Host.Outcome.next (if_neg (ne_true_of_eq_false hi))), rfl, rfl, rfl, rfl, rfl, rfl, rfl,
      rfl, rfl, rfl, rfl⟩
  · exact (interrupt_eq hcs hst hsh).trans (congrArg Host.Outcome.next (if_pos hi))
  · exact ⟨_, { completionCand s o with place := .inbox }, congrArg Host.Outcome.next (activation_eq ho hfull hover hplace), rfl, rfl, rfl, rfl, rfl,
      rfl, rfl, rfl, rfl, rfl, rfl, rfl⟩
  · exact granuleFill_vreg i hst hsh

end Settled

end Sys2Proof.Machine
end

section
/-! Network reductions at a router, and the head of the block queue (R284 to R288, R386, R388 to R393), O54. -/

namespace Sys2Proof.Machine

/-! ### Contributions and slots (R284 to R287) -/

theorem parent_congr {s t : State} (hl : t.launch = s.launch) (hc : t.core = s.core) : t.parent = s.parent := by
  unfold State.parent treeTiles State.tileId
  rw [hl, hc]

theorem slotFull_congr {s t : State} (hl : t.launch = s.launch) (hc : t.core = s.core) (r : RedSlot) : slotFull t r = slotFull s r := by
  unfold slotFull ownUnits State.tileId
  rw [kids_congr hl hc, hl, hc]

section
variable {s : State} {c : Contribution} {k : Nat} (hsrc : c.src = .child k)
include hsrc

theorem exec_nredArrival : exec (.nredArrival c) s = .next (if foreignPart s c.part then s else (decideArrival c s).getD s) := by
  show done (nredArrival c s) = _
  unfold nredArrival
  rw [hsrc]
  rfl

/-- R286: an arrival that no owed record awaits goes to a slot. -/
theorem decide_merges (hlate : c.late = false) (howed : ∀ o ∈ s.tile.owed, owes c o = false) : decideArrival c s = mergeArrival c s := by
  have first : doubled s c = false := by
    unfold doubled
    rw [hsrc]
  unfold decideArrival
  rw [hlate, if_neg Bool.false_ne_true, if_neg (ne_true_of_eq_false (List.any_eq_false.2 fun o ho => ne_true_of_eq_false (howed o ho))), first,
    if_neg Bool.false_ne_true]

theorem newSlot_child : (newSlot c).kids = (if c.more then [] else [k]) ∧ (newSlot c).units = [] ∧ (newSlot c).op = c.op ∧
    (newSlot c).late = c.resultLate ∧ (newSlot c).missing = c.missing := by
  unfold newSlot mergeSlot
  rw [hsrc]
  exact ⟨rfl, rfl, rfl, Bool.false_or _, Nat.zero_add _⟩

end

theorem find_new_tag {s : State} {c : Contribution} (h : ∀ r ∈ s.tile.redSlots, r.tag ≠ c.tag) :
    (s.tile.redSlots.find? fun r => r.tag == c.tag) = none :=
  List.find?_eq_none.2 fun r hr => by simpa using h r hr

/-- R286: a contribution of a new tag opens a slot. -/
theorem merge_opens {s : State} {c : Contribution} (hnew : ∀ r ∈ s.tile.redSlots, r.tag ≠ c.tag) (hroom : s.tile.redSlots.length < 16)
    (hfull : slotFull s (newSlot c) = false) (hunf : c.op ≠ 7 ∨ s.parent = none ∨ (unfolded (newSlot c).vals).length < 64) :
    mergeArrival c s = some (s.onTile fun t => { t with redSlots := t.redSlots ++ [newSlot c] }) := by
  have kept : spill (newSlot c) s = (newSlot c, s) := by
    refine if_pos ?_
    rw [show (newSlot c).op = c.op from rfl]
    rcases hunf with h | h | h
    · rw [bne_iff_ne.2 h]
      rfl
    · rw [h, Option.isNone_none, Bool.or_true, Bool.true_or]
    · rw [decide_eq_true h, Bool.or_true]
  have open_ : slotFull (s.onTile fun t => { t with redSlots := t.redSlots ++ [newSlot c] }) (newSlot c) = false :=
    (slotFull_congr rfl rfl _).trans hfull
  unfold mergeArrival
  dsimp only
  rw [find_new_tag hnew]
  dsimp only
  rw [if_neg (Nat.not_le.2 hroom), kept]
  dsimp only
  rw [open_]
  rfl

theorem merge_waits {s : State} {c : Contribution} (hnew : ∀ r ∈ s.tile.redSlots, r.tag ≠ c.tag) (hfull : s.tile.redSlots.length = 16) :
    mergeArrival c s = none := by
  unfold mergeArrival
  dsimp only
  rw [find_new_tag hnew]
  exact if_pos (Nat.le_of_eq hfull.symm)

/-- R286: what the root sends when the timer of a slot has run out. -/
def State.lateResult (s : State) (r : RedSlot) : NredRes := { rootResult r (slotMissing s r) with late := true }

/-- The root without the slot, its result in the table. -/
def State.slotClosed (s : State) (r : RedSlot) : State :=
  (s.onTile fun t => { t with redSlots := t.redSlots.erase r, late := t.late || true }).onTile (storeResult (s.lateResult r))

theorem exec_slotTimeout {s : State} {n : Nat} {r : RedSlot} (hr : s.tile.redSlots[n]? = some r) (hfr : s.tile.frozen = false) (hroot : s.parent = none) :
    exec (.nredSlotTimeout n) s = .next ((controlAll (.redRes (s.lateResult r)) (s.slotClosed r)).onTile fun t => { t with
      owed := owedAdd (owedOf (s.onTile fun t => { t with redSlots := t.redSlots.erase r, late := t.late || true }) r) t.owed }) := by
  have root : (s.onTile fun t => { t with redSlots := t.redSlots.erase r, late := t.late || true }).parent = none :=
    (parent_congr rfl rfl).trans hroot
  show execNredSlotTimeout n s = _
  unfold execNredSlotTimeout
  rw [hr]
  dsimp only
  rw [hfr, if_neg Bool.false_ne_true]
  unfold forwardSlot
  dsimp only
  rw [Bool.true_or, if_pos rfl, if_pos rfl, root]
  rfl

theorem slotTimeout_root {s : State} {n : Nat} {r : RedSlot} (hr : s.tile.redSlots[n]? = some r) (hfr : s.tile.frozen = false)
    (hroot : s.parent = none) (hreach : ∀ d ∈ treeTiles s, bothDead s d = false) :
    ∃ t, exec (.nredSlotTimeout n) s = .next t ∧ t.home.out = s.home.out ++ [.redRes (s.lateResult r)] ∧
      t.tile.redSlots = s.tile.redSlots.erase r ∧ t.tile.late = true ∧ tabGet? t.tile.redTab (r.tag.toNat % 16) = some (s.lateResult r) ∧
      t.cur = s.cur ∧ t.rest = s.rest := by
  obtain ⟨hcur, hrest, m, htile, hout⟩ := controlAll_ok (.redRes (s.lateResult r)) (s.slotClosed r) fun d hd =>
    (bothDead_congr (s := s) (t := s.slotClosed r) rfl rfl d).trans (hreach d hd)
  have tab : tabGet? (s.slotClosed r).tile.redTab (r.tag.toNat % 16) = some (s.lateResult r) := tabGet?_tabSet_same ..
  have late : (s.slotClosed r).tile.late = true := Bool.or_true _
  have sent := exec_slotTimeout hr hfr hroot
  generalize controlAll (.redRes (s.lateResult r)) (s.slotClosed r) = z at *
  exact ⟨_, sent, hout, (congrArg TileSt.redSlots htile :), (congrArg TileSt.late htile :).trans late,
    (congrArg (fun t => tabGet? t.redTab (r.tag.toNat % 16)) htile :).trans tab, hcur, hrest⟩

/-! ### The head of the block queue (R386, R388, R389, R392, R393) -/

/-- R409: a synchronous step outside the secondary stands. -/
theorem entry_sync {s : State} {o : EngOp} (hsec : secondary s = false) {r : State} (hk : blockEntryStep s = syncStep o r s) : exec .blockEntryStep s = .next r := by
  refine congrArg Host.Outcome.next (hk.trans ?_)
  unfold syncStep
  rw [hsec]
  rfl

section
variable {s : State} {o : EngOp} {l : List EngOp} (hq : s.queue 9 = o :: l) (hh : engHeld s = false)
include hq hh

section
variable (hm : opMay o s = true)
include hm

theorem entryStep_eq : blockEntryStep s = match o.kind, o.prog with
    | .blkref h, _ => syncStep o (blkrefStep o h s) s
    | .blkrefNew t, _ => syncStep o (blkrefNewStep o t s) s
    | .blkfree h, _ => syncStep o (blkfreeStep o h s) s
    | .blkcow pa, none => syncStep o (blkcowStart o pa s) s
    | .blkcow pa, some p => syncStep o (blkcowGo o pa p s) s
    | .get h _ _ _ sa, none => moveStart o false h sa s
    | .get _ off ta len _, some p => moveUnit o false off ta len p s
    | .put h _ _ _ sa, none => moveStart o true h sa s
    | .put _ off ta len _, some p => moveUnit o true off ta len p s
    | .tier h t, none => tierStart o h t s
    | .tier _ _, some p => tierUnit o p s
    | _, _ => s := by
  unfold blockEntryStep
  rw [hq]
  dsimp only
  rw [hh, hm]
  exact if_neg Bool.false_ne_true

theorem entry_blkref {h : Word} (hk : o.kind = .blkref h) : blockEntryStep s = syncStep o (blkrefStep o h s) s := by
  rw [entryStep_eq hq hh hm, hk]

theorem entry_blkrefNew {t : Word} (hk : o.kind = .blkrefNew t) : blockEntryStep s = syncStep o (blkrefNewStep o t s) s := by
  rw [entryStep_eq hq hh hm, hk]

theorem entry_blkfree {h : Word} (hk : o.kind = .blkfree h) : blockEntryStep s = syncStep o (blkfreeStep o h s) s := by
  rw [entryStep_eq hq hh hm, hk]

theorem entry_get {h : Word} {off ta len sa : Nat} (hk : o.kind = .get h off ta len sa) (hp : o.prog = none) :
    blockEntryStep s = moveStart o false h sa s := by
  rw [entryStep_eq hq hh hm, hk, hp]

end

/-- R392: the end of a transfer whose units have all been moved. -/
theorem transfer_ends {h : Word} {off ta len sa : Nat} {p : BlkProg} (hk : o.kind = .get h off ta len sa ∨ o.kind = .put h off ta len sa)
    (hp : o.prog = some p) (hlen : len ≤ o.moved) : blkmoveTransferEnd s = transferEnd p len sa s := by
  have finished : (decide (o.moved < len) || engHeld s) = false := by
    rw [hh, decide_eq_false (Nat.not_lt.2 hlen)]
    rfl
  unfold blkmoveTransferEnd
  rw [hq]
  dsimp only
  rcases hk with hk | hk <;>
  · rw [hk, hp]
    exact if_neg (ne_true_of_eq_false finished)

theorem tier_commits {h w : Word} {p : BlkProg} (hk : o.kind = .tier h w) (hp : o.prog = some p) (hlen : 65536 ≤ o.moved)
    (hlive : moveLives p s = true) : blkmoveTierCommit s = blkPop (tierCommit p s) := by
  have finished : (decide (o.moved < 65536) || engHeld s || !moveLives p s) = false := by
    rw [hh, decide_eq_false (Nat.not_lt.2 hlen), hlive]
    rfl
  unfold blkmoveTierCommit
  rw [hq]
  dsimp only
  rw [hk, hp]
  exact if_neg (ne_true_of_eq_false finished)

end

section
variable {s : State} {o : EngOp} {h : Word} (hc : blkCheck h (blkTrap 0x02 h) s = none)
include hc

theorem blkref_counts (hr : (getEntry s (hIndex h)).refcnt ≠ 0xFFFF) : blkrefStep o h s =
    blkAnswer o (some (((getEntry s (hIndex h)).refcnt + 1).setWidth 64)) none (putEntry (hIndex h) { getEntry s (hIndex h) with
      refcnt := (getEntry s (hIndex h)).refcnt + 1,
      cow := (getEntry s (hIndex h)).cow || decide ((getEntry s (hIndex h)).refcnt + 1 ≥ 2) } s) := by
  unfold blkrefStep
  rw [hc]
  exact if_neg (by simpa using hr)

theorem blkref_full (hr : (getEntry s (hIndex h)).refcnt = 0xFFFF) : blkrefStep o h s = blkAnswer o none (some (blkTrap 0x03 h)) s := by
  unfold blkrefStep
  rw [hc]
  exact if_pos (by simpa using hr)

theorem blkfree_counts (hr : (getEntry s (hIndex h)).refcnt ≠ 1) : blkfreeStep o h s =
    blkAnswer o (some (((getEntry s (hIndex h)).refcnt - 1).setWidth 64)) none
      (putEntry (hIndex h) { getEntry s (hIndex h) with refcnt := (getEntry s (hIndex h)).refcnt - 1 } s) := by
  have more : (getEntry s (hIndex h)).refcnt - 1 ≠ 0 := fun h0 => hr (by bv_omega)
  have drop : blkDrop (hIndex h) s = putEntry (hIndex h) { getEntry s (hIndex h) with refcnt := (getEntry s (hIndex h)).refcnt - 1 } s :=
    if_pos (bne_iff_ne.2 more)
  unfold blkfreeStep
  rw [hc]
  dsimp only
  rw [drop]

end

theorem blkrefNew_empty {s : State} {o : EngOp} {w : Word} (h : freeHead (s.vfReg s.core.vf) (w == 1) = noEntry) :
    blkrefNewStep o w s = blkAnswer o none (some (blkTrap 0x04 w)) s := by
  have none : blkAlloc (w == 1) s = none := by
    unfold blkAlloc popFree
    dsimp only
    rw [h, beq_self_eq_true, if_pos rfl]
  unfold blkrefNewStep
  rw [none]

theorem get_starts {s : State} {o : EngOp} {h : Word} {sa : Nat} (hc : blkCheck h (hgenTrap h) s = none) : moveStart o false h sa s =
    setHead 9 (fun o => { o with started := true, prog := some { handle := h, entry := hIndex h, pbn := (getEntry s (hIndex h)).pbn.toNat,
                                                                 tier := (getEntry s (hIndex h)).tier, gen := (getEntry s (hIndex h)).gen, spare := 0 } })
      (putEntry (hIndex h) { getEntry s (hIndex h) with drain := (getEntry s (hIndex h)).drain + 1 } s) := by
  unfold moveStart
  rw [hc]
  rfl

/-- R393: the two entries change places, the block that transfers still use with the spare one. -/
theorem tierCommit_used {s : State} {p : BlkProg} (h : (getEntry s p.entry).drain ≠ 0) :
    let e := getEntry s p.entry
    let n := getEntry s p.spare
    let put := putEntry p.spare { n with pbn := e.pbn, tier := e.tier, drain := e.drain, state := 3 }
      (putEntry p.entry { e with pbn := n.pbn, tier := n.tier, drain := 0, state := 1 } s)
    let own : MoveRec := { vf := s.core.vf, entry := p.entry, spare := p.spare, committed := false }
    tierCommit p s = { put with home := { put.home with
      moves := put.home.moves.map fun m => if m == own then { m with committed := true } else m } } := by
  intro e n put own
  have vf : (putEntry p.entry { e with pbn := n.pbn, tier := n.tier, drain := 0, state := 1 } s).core.vf = s.core.vf :=
    congrArg CoreSt.vf (putEntry_core ..)
  unfold tierCommit
  dsimp only
  rw [if_neg h, vf]
  rfl

namespace Settled

/-- Settles O54: the slots of a router, and the steps of the block queue. -/
theorem reductionSteps : Obligations.ReductionSteps := by
  intro s
  refine ⟨fun c k hsrc hf => ?_, fun c k hsrc hf hlate howed hnew hroom hfull hunf => ⟨?_, newSlot_child hsrc⟩,
    fun c k hsrc hf hlate howed hnew hfull => ?_, fun n r hr hfr hroot hreach => ?_, fun r => rfl, fun o l hq hh hsec hm => ⟨fun h hk hc hr => ?_,
    fun h hk hc hr => ?_, fun h hk hc hr => ?_, fun w hk h => ?_, fun h off ta len sa hk hp hc => ?_, fun h off ta len sa p hk hp hlen => ?_,
    fun h w p hk hp hlen hlive hdrain => ?_⟩⟩
  · rw [exec_nredArrival hsrc, if_pos hf]
  · rw [exec_nredArrival hsrc, if_neg (ne_true_of_eq_false hf), decide_merges hsrc hlate howed, merge_opens hnew hroom hfull hunf]
    rfl
  · rw [exec_nredArrival hsrc, if_neg (ne_true_of_eq_false hf), decide_merges hsrc hlate howed, merge_waits hnew hfull]
    rfl
  · have sent := slotTimeout_root hr hfr hroot hreach
    intro missing res
    have value : s.lateResult r = res := rfl
    exact value ▸ sent
  · exact entry_sync hsec ((entry_blkref hq hh hm hk).trans (by rw [blkref_counts hc hr]))
  · exact entry_sync hsec ((entry_blkref hq hh hm hk).trans (by rw [blkref_full hc hr]))
  · exact entry_sync hsec ((entry_blkfree hq hh hm hk).trans (by rw [blkfree_counts hc hr]))
  · exact entry_sync hsec ((entry_blkrefNew hq hh hm hk).trans (by rw [blkrefNew_empty h]))
  · exact congrArg Host.Outcome.next ((entry_get hq hh hm hk hp).trans (get_starts hc))
  · have ended : exec .blkmoveTransferEnd s = .next (transferEnd p len sa s) := congrArg Host.Outcome.next (transfer_ends hq hh hk hp hlen)
    rw [ended]
    rfl
  · exact congrArg Host.Outcome.next ((tier_commits hq hh hk hp hlen hlive).trans (congrArg blkPop (tierCommit_used hdrain)))

end Settled

end Sys2Proof.Machine
end

section
/-! Walks, the fault table, its messages and replies, and the merge of the dirty log (R348 to R351, R354 to R356, R359), O55. -/

namespace Sys2Proof.Machine

/-! ### PAGE_WALK (R348 to R351) -/

theorem pageWalk_idle {w : WalkFor} {s : State} (hm : missOf w s = none) (hw : w ≠ .agent) : exec (.pageWalk w) s = .next s := by
  show done (pageWalk w s) = _
  unfold pageWalk
  rw [hm]
  exact congrArg done (if_neg (mt eq_of_beq hw))

section
variable {w : WalkFor} {m : Miss} {s : State} (hm : missOf w s = some m)
include hm

/-- R351: a miss in a page of which no walk stands in the table is walked. -/
theorem pageWalk_walks (hnew : ∀ f ∈ s.tile.faults, samePage s m.va f = false) : exec (.pageWalk w) s = .next (walkMiss w m s) := by
  have fresh : s.tile.faults.any (samePage s m.va) = false := List.any_eq_false.2 fun f hf => ne_true_of_eq_false (hnew f hf)
  have unknown : (s.tile.faults.any fun f => samePage s m.va f && f.who.contains (askerOf w m s)) = false :=
    List.any_eq_false.2 fun f hf => by rw [hnew f hf]; exact Bool.false_ne_true
  show done (pageWalk w s) = _
  unfold pageWalk
  rw [hm]
  dsimp only
  rw [unknown, fresh]
  rfl

/-- R351: a second requester of a page joins the walk that waits; the first one is told no second time. -/
theorem pageWalk_joins {f : FaultRec} (hf : s.tile.faults = [f]) (hp : samePage s m.va f = true) :
    exec (.pageWalk w) s = .next (if askerOf w m s ∈ f.who then s
      else s.onTile fun t => { t with faults := [{ f with who := f.who ++ [askerOf w m s] }] }) := by
  show done (pageWalk w s) = _
  unfold pageWalk
  rw [hm]
  dsimp only
  rw [hf, List.any_cons, List.any_nil, Bool.or_false, List.any_cons, List.any_nil, Bool.or_false, hp, Bool.true_and, if_pos rfl]
  by_cases known : askerOf w m s ∈ f.who
  · rw [List.contains_iff_mem.2 known, if_pos known]
    rfl
  · rw [Bool.eq_false_iff.2 (mt List.contains_iff_mem.1 known), if_neg known, if_neg Bool.false_ne_true]
    unfold State.onTile
    dsimp only
    rw [hf, List.map_cons, hp]
    rfl

end

theorem walkMiss_fills {w : WalkFor} {m : Miss} {s : State} {e : Tlb} (he : walkOf (walkDeny s s.core.vf) m s = .ok e)
    (hr : rights1 e m.acc m.priv = false ∨ rights2 e m.acc = true) : walkMiss w m s = fillTlbs m e s := by
  have granted : (missRights1 e m && !missRights2 e m) = false := by
    unfold missRights1 missRights2
    rcases hr with h | h <;> rw [h]
    · rfl
    · exact Bool.and_false _
  unfold walkMiss
  rw [he]
  exact if_neg (ne_true_of_eq_false granted)

theorem walkMiss_faults {w : WalkFor} {m : Miss} {s : State} {f : WalkFault} (hf : walkOf (walkDeny s s.core.vf) m s = .error f) :
    walkMiss w m s = addFault w m f (noteWalk w m s) := by
  unfold walkMiss
  rw [hf]

theorem fillTlbs_core (m : Miss) (e : Tlb) (s : State) : (fillTlbs m e s).core =
    if m.acc = .fetch then { s.core with itlb := tlbFill 32 s.core.itlb e } else { s.core with dtlb := tlbFill 64 s.core.dtlb e } := by
  show (if m.acc == .fetch then { s.core with itlb := tlbFill 32 s.core.itlb e } else { s.core with dtlb := tlbFill 64 s.core.dtlb e }) = _
  by_cases h : m.acc = .fetch
  · rw [if_pos (beq_iff_eq.2 h), if_pos h]
  · rw [if_neg (mt eq_of_beq h), if_neg h]

/-- R350: the task that missed in the page walked tries again. -/
theorem fillTlbs_wakes {m n : Miss} {s : State} (e : Tlb) (hst : s.cur.st = .faulted) (hn : taskMiss s.cur = some n)
    (hp : n.va / 65536 = m.va / 65536) : (fillTlbs m e s).cur = wake s.cur := by
  have missed : (s.cur.st == .faulted && match taskMiss s.cur with | none => false | some x => x.va / 65536 == m.va / 65536) = true := by
    rw [hst, hn]
    dsimp only
    rw [hp, beq_self_eq_true, beq_self_eq_true, Bool.and_self]
  exact if_pos missed

theorem addFault_adds {w : WalkFor} {m : Miss} {f : WalkFault} {z : State} (h : z.tile.faults.length < 256) :
    ∃ r, (addFault w m f z).tile.faults = z.tile.faults ++ [r] ∧ (addFault w m f z).tile.walkSerial = z.tile.walkSerial + 1 ∧
      (addFault w m f z).cur = z.cur ∧ (addFault w m f z).rest = z.rest ∧ (addFault w m f z).core = z.core ∧
      r.va = m.va ∧ r.acc = m.acc ∧ r.vf = z.core.vf ∧ r.asid = z.core.asid ∧ r.gen = z.core.asidGen ∧ r.who = [askerOf w m z] ∧
      r.posted = false ∧ r.word0 = f.word0 ∧ r.lvl = f.lvl ∧ r.perm = f.perm ∧ r.malf = f.malf ∧ r.s2 = f.s2 := by
  unfold addFault
  rw [if_neg (Nat.not_le.2 h)]
  exact ⟨_, rfl, rfl, rfl, rfl, rfl, rfl, rfl, rfl, rfl, rfl, rfl, rfl, rfl, rfl, rfl, rfl, rfl⟩

/-- R241: a walk that no lost or refused read stops is no failure of its task. -/
theorem noteWalk_none {w : WalkFor} {m : Miss} {s : State}
    (h : walkOf (fun pa => s.home.poison.contains (pa / 8)) m s = walkOf (walkDeny s s.core.vf) m s) : noteWalk w m s = s := by
  unfold noteWalk
  dsimp only
  rw [h, beq_self_eq_true, Bool.or_true, if_pos rfl]

/-! ### FAULT_MESSAGE (R354, R355) -/

theorem exec_faultMessage {k : Nat} {f : FaultRec} {s : State} (hk : s.tile.faults[k]? = some f) :
    exec (.faultMessage (.own k)) s = .next (postFault f s) := by
  show done (match s.tile.faults[k]? with | none => s | some f => postFault f s) = _
  rw [hk]
  rfl

theorem postFault_sends {f : FaultRec} {s : State} (hf : f.posted = false) (hh : (s.vfReg (faultVf f)).svchand ≠ 0)
    (hr : svcResident s (faultVf f) = true) (hc : (s.vfReg (faultVf f)).svccore ≠ s.core.id) :
    postFault f s = emit (.fault (s.vfReg (faultVf f)).svccore (faultWords s f)) (markPosted f (s.vfReg (faultVf f)).svccore s) := by
  have served : ¬ (decide ((s.vfReg (faultVf f)).svchand = 0) || !svcResident s (faultVf f)) = true := by
    rw [hr, decide_eq_false hh]
    exact Bool.false_ne_true
  unfold postFault
  dsimp only
  rw [hf, if_neg Bool.false_ne_true, if_neg served, if_neg (mt eq_of_beq hc)]

theorem postFault_refused {f : FaultRec} {s : State} (hf : f.posted = false) (hh : (s.vfReg (faultVf f)).svchand = 0) (hw : f.who = []) :
    postFault f s = s.onTile fun t => { t with faults := t.faults.erase f } := by
  unfold postFault
  dsimp only
  rw [hf, hh, if_neg Bool.false_ne_true]
  unfold settleFault
  rw [hw]
  rfl

/-! ### FAULT_REPLY_ARRIVAL (R356) -/

/-- The reply without its packet in the channel. -/
def State.replyTaken (s : State) (token : Word) (retry : Bool) : State :=
  s.onHome fun h => { h with out := h.out.erase (.faultAns token retry) }

theorem reply_settles {s : State} {token : Word} {f : FaultRec} (b : Bool) (hf : s.tile.faults = [f]) (hp : f.posted = true)
    (ht : faultToken s.clusterId f = token) :
    exec (.faultReplyArrival token b) s =
      .next (let s1 := (s.replyTaken token b).onTile fun t => { t with faults := [] }; if b then s1 else f.who.foldl refuseFor s1) := by
  have found : ((s.replyTaken token b).tile.faults.find? fun f => f.posted && faultToken (s.replyTaken token b).clusterId f == token) = some f := by
    show (s.tile.faults.find? fun f => f.posted && faultToken s.clusterId f == token) = _
    rw [hf, List.find?_cons, hp, ht, beq_self_eq_true]
    rfl
  have alone : (s.replyTaken token b).onTile (fun t => { t with faults := t.faults.erase f }) = (s.replyTaken token b).onTile fun t => { t with faults := [] } := by
    show ({ s.replyTaken token b with tile := { s.tile with faults := s.tile.faults.erase f } } : State) = _
    rw [hf, List.erase_cons_head]
    rfl
  show done (match (s.replyTaken token b).tile.faults.find? fun f => f.posted && faultToken (s.replyTaken token b).clusterId f == token with
    | none => s.replyTaken token b | some f => settleFault f b (s.replyTaken token b)) = _
  rw [found]
  show done (settleFault f b (s.replyTaken token b)) = _
  unfold settleFault
  rw [alone]
  rfl

theorem reply_stale {s : State} {token : Word} (b : Bool) (h : ∀ f ∈ s.tile.faults, ¬ (f.posted = true ∧ faultToken s.clusterId f = token)) :
    exec (.faultReplyArrival token b) s = .next (s.replyTaken token b) := by
  have unknown : ((s.replyTaken token b).tile.faults.find? fun f => f.posted && faultToken (s.replyTaken token b).clusterId f == token) = none :=
    List.find?_eq_none.2 fun f hf => by
      rw [Bool.and_eq_true, beq_iff_eq]
      exact h f hf
  show done (match (s.replyTaken token b).tile.faults.find? fun f => f.posted && faultToken (s.replyTaken token b).clusterId f == token with
    | none => s.replyTaken token b | some f => settleFault f b (s.replyTaken token b)) = _
  rw [unknown]
  rfl

/-- R356: the refused task of the issuing context goes on with the refusal. -/
theorem refuseFor_cur {s : State} {m : Miss} (hst : s.cur.st = .faulted) (hsh : s.cur.shadow = false) (hm : taskMiss s.cur = some m) :
    refuseFor s (askerOf (.task s.cur.frame) m s) = { s with cur := { s.cur with wait := some (.walk m.va m.acc true), st := .ready } } := by
  have here : liveAt s.cur.frame s.cur = true := live_cur (by rw [hst]; decide) hsh
  have missed : missOf (.task s.cur.frame) s = some m := by
    show (s.findCtx (liveAt s.cur.frame)).bind taskMiss = _
    rw [findCtx_cur' here]
    exact hm
  have own : ((askerOf (.task s.cur.frame) m s).vf != s.core.vf) = false := bne_self_eq_false ..
  unfold refuseFor
  rw [own, if_neg Bool.false_ne_true]
  show (match missOf (.task s.cur.frame) s with | none => _ | some m' => _) = _
  rw [missed]
  dsimp only
  rw [show (askerOf (askerOf (.task s.cur.frame) m s).who m s != askerOf (.task s.cur.frame) m s) = false from bne_self_eq_false _,
    if_neg Bool.false_ne_true]
  show s.updCtx (liveAt s.cur.frame) _ = _
  rw [updCtx_cur' here, hst]
  rfl

theorem reply_refuses {s : State} {token : Word} {f : FaultRec} {m : Miss} (hw : f.who = [askerOf (.task s.cur.frame) m s])
    (hst : s.cur.st = .faulted) (hsh : s.cur.shadow = false) (hm : taskMiss s.cur = some m) :
    (let s1 := (s.replyTaken token false).onTile fun t => { t with faults := [] }; if false then s1 else f.who.foldl refuseFor s1) =
      ((s.replyTaken token false).onTile fun t => { t with faults := [] }).onCur fun t => { t with wait := some (.walk m.va m.acc true), st := .ready } := by
  dsimp only
  rw [if_neg Bool.false_ne_true, hw]
  exact refuseFor_cur (s := (s.replyTaken token false).onTile fun t => { t with faults := [] }) hst hsh hm

namespace Settled

/-- Settles O55: walks and what answers them. -/
theorem translationSteps : Obligations.TranslationSteps := by
  intro s
  refine ⟨fun w hm hw => pageWalk_idle hm hw, fun w m hm hnew => ⟨fun e he hr => ?_, fun f hf hroom => ?_⟩, fun w m f hm hf hp => ?_,
    fun k f hk hf => ⟨fun hh hr hc => ?_, fun hh hw => ?_⟩, fun token f hf hp ht => ⟨?_, fun m hw hst hsh hmiss => ?_⟩,
    fun token b h => reply_stale b h, fun h => ?_, fun h => ?_⟩
  · refine ⟨_, (pageWalk_walks hm hnew).trans (congrArg _ (walkMiss_fills he hr)), rfl, fillTlbs_core m e s, rfl,
      fun n hst hn hpage => fillTlbs_wakes e hst hn hpage⟩
  · obtain ⟨hcore, hfaults, hserial, -⟩ := noteWalk_frame w m s
    obtain ⟨r, h1, h2, h3, h4, h5, hva, hacc, hvf, hasid, hgen, hwho, hposted, hrest⟩ :=
      addFault_adds (w := w) (m := m) (f := f) (z := noteWalk w m s) (hfaults ▸ hroom)
    exact ⟨_, r, (pageWalk_walks hm hnew).trans (congrArg _ (walkMiss_faults hf)), hfaults ▸ h1, hserial ▸ h2, hva, hacc, hcore ▸ hvf, hcore ▸ hasid,
      hcore ▸ hgen, hwho, hposted, hrest.1, hrest.2.1, hrest.2.2.1, hrest.2.2.2.1, hrest.2.2.2.2, h3, h4, h5.trans hcore, fun h => noteWalk_none h⟩
  · intro a
    exact ⟨fun known => (pageWalk_joins hm hf hp).trans (congrArg _ (if_neg known)), fun known => (pageWalk_joins hm hf hp).trans (congrArg _ (if_pos known))⟩
  · exact ⟨_, (exec_faultMessage hk).trans (congrArg _ (postFault_sends hf hh hr hc)), rfl, rfl, rfl, rfl⟩
  · exact (exec_faultMessage hk).trans (congrArg _ (postFault_refused hf hh hw))
  · exact reply_settles true hf hp ht
  · refine ⟨_, (reply_settles false hf hp ht).trans (congrArg _ (reply_refuses hw hst hsh hmiss)), rfl, rfl, rfl, rfl⟩
  · exact congrArg done (if_pos h)
  · exact congrArg done (if_neg (Nat.not_le.2 h))

end Settled

end Sys2Proof.Machine
end

section
/-! Energy, pre-emption and restore, shared clusters, the reset of a function (R365, R366, R369 to R377, R435), O56. -/

namespace Sys2Proof.Machine

/-! ### Energy (R369 to R372) -/

theorem addEcnt_frame (v : BitVec 6) (n : Nat) (s : State) : (addEcnt v n s).tile = s.tile ∧ (addEcnt v n s).cur = s.cur ∧
    (addEcnt v n s).rest = s.rest ∧ (addEcnt v n s).core = s.core ∧ (addEcnt v n s).home = s.home := ⟨rfl, rfl, rfl, rfl, rfl⟩

theorem foldMeter_frame (s : State) : (foldMeter s).tile.meter = (s.tile.meter.map fun x => (x.1, x.2 % 1000000)) ∧ (foldMeter s).cur = s.cur ∧
    (foldMeter s).rest = s.rest ∧ (foldMeter s).core = s.core ∧ (foldMeter s).home = s.home := by
  have folded := foldl_inv (fun t : State => t.tile = s.tile ∧ t.cur = s.cur ∧ t.rest = s.rest ∧ t.core = s.core ∧ t.home = s.home)
    (fun s (x : Nat × Nat) => addEcnt (BitVec.ofNat 6 x.1) (x.2 / 1000000) s) (fun b x hb => hb) s.tile.meter s ⟨rfl, rfl, rfl, rfl, rfl⟩
  obtain ⟨htile, hcur, hrest, hcore, hhome⟩ := folded
  exact ⟨congrArg (fun t : TileSt => t.meter.map fun x : Nat × Nat => (x.1, x.2 % 1000000)) htile, hcur, hrest, hcore, hhome⟩

theorem quotaStops_frame (s : State) : (quotaStops s).tile = s.tile ∧ (quotaStops s).cur = s.cur ∧ (quotaStops s).rest = s.rest ∧
    (quotaStops s).core.tcm = s.core.tcm ∧ (quotaStops s).home.mem = s.home.mem := by
  refine foldl_inv (fun t : State => t.tile = s.tile ∧ t.cur = s.cur ∧ t.rest = s.rest ∧ t.core.tcm = s.core.tcm ∧ t.home.mem = s.home.mem)
    _ (fun b x hb => ?_) s.host.vfs s ⟨rfl, rfl, rfl, rfl, rfl⟩
  dsimp only
  split
  · obtain ⟨h1, h2, h3, h4, h5⟩ := stopVf_frame (BitVec.ofNat 6 x.1) 1 b
    obtain ⟨b1, b2, b3, b4, b5⟩ := hb
    exact ⟨h1.trans b1, h2.trans b2, h3.trans b3, h4.trans b4, h5.trans b5⟩
  · exact hb

theorem addEcnt_get (v : BitVec 6) (n : Nat) (s : State) :
    (addEcnt v n s).vfReg v = { s.vfReg v with ecnt := (s.vfReg v).ecnt + BitVec.ofNat 64 n } := setVf_get ..

theorem addEcnt_other {v w : BitVec 6} (h : w ≠ v) (n : Nat) (s : State) : (addEcnt v n s).vfReg w = s.vfReg w := setVf_other h ..

/-- R370: the refresh energy of one function, and what is left of it for the physical function. -/
theorem refreshCharge_one {s : State} {measured pages f : Nat} {r : VfRegs} (hf : f ≠ 0) (hp : pages ≠ 0) (hv : s.host.vfs = [(f, r)]) :
    refreshCharge measured pages s = addEcnt 0 (measured - measured * r.epages.toNat / pages)
      (addEcnt (BitVec.ofNat 6 f) (measured * r.epages.toNat / pages) s) := by
  have virtual : (s.host.vfs.filter fun x => x.1 != 0) = [(f, r)] := by
    rw [hv]
    exact List.filter_cons_of_pos (bne_iff_ne.2 hf)
  unfold refreshCharge
  dsimp only
  rw [virtual, List.map_singleton, List.sum_singleton, List.foldl_cons, List.foldl_nil, if_neg hp]

theorem sixBit {f : Nat} (h : f < 64) : (BitVec.ofNat 6 f).toNat = f := by
  rw [BitVec.toNat_ofNat]
  exact Nat.mod_eq_of_lt h

theorem vfReg_only {s : State} {f : Nat} {r : VfRegs} (hlt : f < 64) (h0 : f ≠ 0) (hv : s.host.vfs = [(f, r)]) :
    s.vfReg (BitVec.ofNat 6 f) = r ∧ s.vfReg 0 = {} := by
  have num : (BitVec.ofNat 6 f).toNat = f := sixBit hlt
  unfold State.vfReg
  rw [hv, num]
  constructor
  · show (if f = f then some r else none).getD {} = r
    rw [if_pos rfl]
    rfl
  · show (if f = 0 then some r else none).getD {} = {}
    rw [if_neg h0]
    rfl

/-! ### EQUOTA_WRITE (R372) -/

theorem equotaWrite_eq (v : BitVec 6) (x : Word) (s : State) : equotaWrite v x s =
    if (s.vfReg v).cause = 1 ∧ (s.vfReg v).ecnt.toNat < x.toNat ∧ resetting s v = false
    then resumeVf v (s.setVf v { s.vfReg v with equota := x }) else s.setVf v { s.vfReg v with equota := x } := by
  unfold equotaWrite
  dsimp only
  refine if_congr ?_ rfl rfl
  rw [Bool.and_eq_true, Bool.and_eq_true, beq_iff_eq, decide_eq_true_iff, Bool.not_eq_true', and_assoc]
  rfl

/-! ### Pre-emption (R33, R375) -/

/-- R339: of a stopped task only registers are written by its deposits. -/
theorem settle_regs (t : Task) : ∃ w d ds, settleDeposits t = { t with w := w, depl := d, deposits := ds } ∧ (t.deposits = [] → w = t.w) := by
  unfold settleDeposits
  split
  · have folded : ∀ l : List (Nat × Word), ∃ w d, l.foldl (fun t x => putDeposit x t) t = { t with w := w, depl := d } ∧ (l = [] → w = t.w) := by
      intro l
      induction l using List.reverseRecOn with
      | nil => exact ⟨t.w, t.depl, rfl, fun _ => rfl⟩
      | append_singleton l x ih =>
        obtain ⟨w, d, hl, -⟩ := ih
        rw [List.foldl_append, hl]
        refine ⟨(({ t with w := w, depl := d } : Task).setW (BitVec.ofNat 4 x.1) x.2).w, true, ?_, fun h => absurd h (by simp)⟩
        rw [List.foldl_cons, List.foldl_nil]
        unfold putDeposit Task.setW
        split <;> rfl
    obtain ⟨w, d, hl, hw⟩ := folded t.deposits
    rw [hl]
    exact ⟨w, d, [], rfl, hw⟩
  · exact ⟨t.w, t.depl, t.deposits, rfl, fun _ => rfl⟩

theorem stopOne_ended {x : Task} (h : x.st = .ended) : stopOne x = x := if_pos (beq_iff_eq.2 h)

theorem stopOne_live {x : Task} (h : x.st ≠ .ended) : (stopOne x).st = .preempted ∧ (stopOne x).pc = x.pc ∧
    (stopOne x).wait = (if x.wait.any leavesWait then none else x.wait) ∧ (x.deposits = [] → (stopOne x).w = x.w) ∧
    ∀ k : Fin 8, (stopOne x).streams[k] = x.streams[k].map unfetch := by
  obtain ⟨w, d, ds, hs, hw⟩ := settle_regs x
  unfold stopOne
  rw [if_neg (mt eq_of_beq h), hs]
  exact ⟨rfl, rfl, rfl, hw, fun k => Vector.getElem_map ..⟩

theorem saveMx_owned {c : CoreSt} {o : Word × BitVec 13} (h : c.mx.owner = some o) :
    saveMx c = { c with mxSaved := some { c.mx with hist0 := [], hist1 := [], chk0 := true, chk1 := true }, mx := {} } := by
  unfold saveMx
  rw [h]
  rfl

theorem saveMx_free {c : CoreSt} (h : c.mx.owner = none) : saveMx c = c := by
  unfold saveMx
  rw [h]
  rfl

/-- The functions that the core does not run, their saving at its end. -/
def State.othersSaved (s : State) : State :=
  s.onHost fun h => { h with vfs := h.vfs.map fun x => if x.1 == s.core.vf.toNat then x else (x.1, markSaved x.2) }

theorem othersSaved_own (s : State) : s.othersSaved.vfReg s.core.vf = s.vfReg s.core.vf := (markOthers s s.core.vf).trans (if_pos rfl)

theorem othersSaved_other {s : State} {v : BitVec 6} (h : v ≠ s.core.vf) : s.othersSaved.vfReg v = markSaved (s.vfReg v) :=
  (markOthers s v).trans (if_neg h)

theorem preemption_waits {s : State} (h : s.core.preempt = false ∨ quiet s = false) : preemption s = s.othersSaved := by
  have idle : (s.core.preempt && quiet s) = false := by
    rcases h with h | h <;> rw [h]
    · rfl
    · exact Bool.and_false _
  exact if_neg (ne_true_of_eq_false idle)

theorem preemption_saves {s : State} (hp : s.core.preempt = true) (hq : quiet s = true) :
    preemption s = (chargeOpen 0 (stopTasks (withdrawMrot s.othersSaved))).setVf s.core.vf (markSaved (s.vfReg s.core.vf)) := by
  have due : (s.core.preempt && quiet s) = true := by
    rw [hp, hq]
    rfl
  obtain ⟨m, f, hz⟩ := chargeOpen_frame 0 (stopTasks (withdrawMrot s.othersSaved))
  obtain ⟨hhome, hhost, hvf⟩ := withdraw_frame s.othersSaved
  have own : (chargeOpen 0 (stopTasks (withdrawMrot s.othersSaved))).core.vf = s.core.vf := by
    rw [hz]
    exact (saveMx_frame _).2.1.trans hvf
  have host : (chargeOpen 0 (stopTasks (withdrawMrot s.othersSaved))).host = s.othersSaved.host := by
    rw [hz]
    exact hhost
  have regs : (chargeOpen 0 (stopTasks (withdrawMrot s.othersSaved))).vfReg s.core.vf = s.vfReg s.core.vf := by
    unfold State.vfReg
    rw [host]
    exact othersSaved_own s
  refine (if_pos due).trans ?_
  exact (congrArg (fun v => (chargeOpen 0 (stopTasks (withdrawMrot s.othersSaved))).setVf v (markSaved ((chargeOpen 0 (stopTasks (withdrawMrot s.othersSaved))).vfReg v))) own).trans (congrArg (fun r => (chargeOpen 0 (stopTasks (withdrawMrot s.othersSaved))).setVf s.core.vf (markSaved r)) regs)

theorem preemption_home (s : State) : (preemption s).home = s.home := by
  by_cases h : s.core.preempt = true ∧ quiet s = true
  · obtain ⟨m, f, hz⟩ := chargeOpen_frame 0 (stopTasks (withdrawMrot s.othersSaved))
    rw [preemption_saves h.1 h.2, hz]
    exact (withdraw_frame s.othersSaved).1
  · rw [preemption_waits ((not_and_or.1 h).imp Bool.eq_false_iff.2 Bool.eq_false_iff.2)]
    rfl

/-- R33: a function that another core runs has been saved. -/
theorem preemption_other {s : State} {v : BitVec 6} (hv : v ≠ s.core.vf) : (preemption s).vfReg v = markSaved (s.vfReg v) := by
  by_cases h : s.core.preempt = true ∧ quiet s = true
  · obtain ⟨m, f, hz⟩ := chargeOpen_frame 0 (stopTasks (withdrawMrot s.othersSaved))
    rw [preemption_saves h.1 h.2, setVf_other hv, hz]
    refine Eq.trans ?_ (othersSaved_other hv)
    exact congrArg (fun h : HostSt => tabGet h.vfs {} v.toNat) (withdraw_frame s.othersSaved).2.1
  · rw [preemption_waits ((not_and_or.1 h).imp Bool.eq_false_iff.2 Bool.eq_false_iff.2)]
    exact othersSaved_other hv

theorem markSaved_saving {r : VfRegs} (h : r.saving = true) : markSaved r = { r with saving := false, stopped := true } := if_pos h

/-! ### Restore (R33, R376, R377) -/

theorem contextRestore_runs {s : State} (hp : s.core.preempt = true) (hc : (s.vfReg s.core.vf).cause = 0) :
    exec .contextRestore s = .next (restoreCore (chargeOpen 0 s)) := by
  refine congrArg done (if_pos ?_)
  rw [hp, hc]
  rfl

theorem contextRestore_none {s : State} (h : s.core.preempt = false ∨ (s.vfReg s.core.vf).cause ≠ 0) : exec .contextRestore s = .next s := by
  refine congrArg done (if_neg ?_)
  rw [Bool.and_eq_true, beq_iff_eq]
  exact fun both => h.elim (fun h => absurd (both.1.symm.trans h) (by decide)) fun h => h both.2

/-- R198: what the owner's context holds once it is restored. -/
theorem restoreCore_saved {y : State} {m : MxCtx} (h : y.core.mxSaved = some m) : (restoreCore y).core.preempt = false ∧
    (restoreCore y).core.mxSaved = none ∧ (restoreCore y).core.mx.owner = m.owner ∧ (restoreCore y).core.mx.queue = m.queue ∧
    (restoreCore y).core.mx.acc0 = m.acc0 ∧ (restoreCore y).core.mx.acc1 = m.acc1 := by
  have back : reclaimMx y = y.onCore fun c => { c with mx := m, mxSaved := none } := by
    unfold reclaimMx
    rw [h]
  unfold restoreCore
  dsimp only
  rw [h, if_pos (show (some m).isSome = true from rfl), back]
  unfold absentMx
  repeat' split
  all_goals exact ⟨rfl, rfl, rfl, rfl, rfl, rfl⟩

theorem markAbsent_frame (t : Task) : ∃ v f, markAbsent t = { t with vAbsent := v, f := f } := by
  unfold markAbsent
  split
  · exact ⟨_, _, rfl⟩
  · exact ⟨_, _, rfl⟩

theorem markAbsent_heavy {t : Task} (hh : t.hvy = true) (hp : t.priv = 0) :
    markAbsent t = { t with vAbsent := 0xFFFF, f := t.f.map fun r => { r with absent := allGranules r } } := by
  unfold markAbsent
  rw [hh, hp]
  rfl

/-- R33: a context without a missing push goes on in the state that its event gives. -/
theorem restoreTask_plain {s : State} {t : Task} (hst : t.st = .preempted) (hsh : t.shadow = false) (hm : strmMissing t = false) :
    restoreTask s t = { markAbsent t with st := restoredSt s t } := by
  unfold restoreTask
  rw [hst, hsh, hm]
  rfl

theorem restoredSt_free {s : State} {t : Task} (h : t.wait = none) : restoredSt s t = .ready := by
  unfold restoredSt
  rw [h]

theorem restoredSt_waits {s : State} {t : Task} {w : Wait} (h : t.wait = some w) :
    restoredSt s t = if eventCome s t w then .ready else waitsIn s t w := by
  unfold restoredSt
  rw [h]

/-! ### QUANTUM_EXPIRY (R365) -/

theorem quantumExpiry_none {s : State} (h : (tabGet s.host.clasg {} s.clusterId).mode ≠ 2 ∨ quiet s = false ∨ s.core.sealed ≠ []) :
    quantumExpiry s = s := by
  refine if_pos ?_
  rw [Bool.or_eq_true, Bool.or_eq_true, bne_iff_ne, Bool.not_eq_true', Bool.not_eq_true', List.isEmpty_eq_false_iff, or_assoc]
  exact h

/-- The cluster with its next sharer named. -/
def State.turned (s : State) (k : Nat) : State :=
  s.onHost fun h => { h with clasg := tabSet h.clasg s.clusterId { tabGet s.host.clasg {} s.clusterId with cur := k } }

theorem quantumExpiry_switches {s : State} {g : Clasg} {k : Nat} {v : BitVec 6} (hg : g = tabGet s.host.clasg {} s.clusterId) (hm : g.mode = 2)
    (hq : quiet s = true) (hs : s.core.sealed = []) (hk : nextSharer s g = some k) (hv : [g.shr0, g.shr1, g.shr2, g.shr3][k]? = some v)
    (hx : s.core.mx.queue = []) : quantumExpiry s = switchTo v (chargeOpen 0 (stopTasks (s.turned k))) := by
  subst hg
  have due : ((tabGet s.host.clasg {} s.clusterId).mode != 2 || !quiet s || !s.core.sealed.isEmpty) = false := by
    rw [hm, hq, hs]
    rfl
  unfold quantumExpiry
  dsimp only
  rw [due, hk]
  dsimp only
  rw [hv]
  show switchTo v (chargeOpen 0 (stopTasks (withdrawMrot (s.turned k)))) = _
  rw [withdraw_nil (s := s.turned k) hx]

/-- What the arrival of a sharer leaves of the state that its registers were read into. -/
theorem sharerRuns_frame (v : BitVec 6) (y : State) :
    let t := if (y.vfReg v).cause == 0 then restoreCore y else y.onCore fun c => { c with preempt := true }
    t.core.vf = y.core.vf ∧ t.launch = y.launch ∧ t.saved = y.saved ∧ t.host = y.host := by
  intro t
  by_cases h : ((y.vfReg v).cause == 0) = true
  · rw [show t = restoreCore y from if_pos h]
    exact restoreCore_frame y
  · rw [show t = y.onCore fun c => { c with preempt := true } from if_neg h]
    exact ⟨rfl, rfl, rfl, rfl⟩

theorem switchTo_frame {v : BitVec 6} {z : State} (hr : (incoming z v).refused = []) : (switchTo v z).host = z.host ∧
    (switchTo v z).core.vf = (incoming z v).core.vf ∧ (switchTo v z).launch = (incoming z v).launch ∧
    (switchTo v z).saved.head? = some (saveCtx z) := by
  unfold switchTo
  dsimp only
  rw [hr, List.foldl_nil]
  obtain ⟨hvf, hlaunch, hsaved, hhost⟩ := sharerRuns_frame v { z with
    cur := (incoming z v).tasks.headD {}, rest := (incoming z v).tasks.drop 1, launch := (incoming z v).launch,
    tile := keepTile z.tile (incoming z v).tile,
    core := { (incoming z v).core with itlb := z.core.itlb, dtlb := z.core.dtlb, brkLines := z.core.brkLines },
    home := { clearSpm (inSpm z.clusterId) z.home with
      mem := putCells (clearSpm (inSpm z.clusterId) z.home).mem (incoming z v).spm,
      tags := putTags (clearSpm (inSpm z.clusterId) z.home).tags (incoming z v).spmTags,
      poison := (clearSpm (inSpm z.clusterId) z.home).poison ++ (incoming z v).spmPoison },
    saved := saveCtx z :: z.saved.filter fun y => y.vf != v && y.vf != (saveCtx z).vf }
  exact ⟨hhost, hvf, hlaunch, congrArg List.head? hsaved⟩

/-! ### PARTITION_RESET, RESET_DRAIN_COMPLETE (R366, R435) -/

theorem partitionReset_frame (v : BitVec 6) (s : State) : (partitionReset v s).home.deadMask = s.home.deadMask ||| (1#64 <<< v.toNat) ∧
    ((partitionReset v s).vfReg v).stopped = true ∧ ((partitionReset v s).vfReg v).saving = false ∧
    (partitionReset v s).tile.l2tlb = (s.tile.l2tlb.filter fun e => !(e.vf == v)) ∧ (partitionReset v s).saved = (s.saved.filter fun x => x.vf != v) := by
  unfold partitionReset
  dsimp only
  refine ⟨?_, congrArg VfRegs.stopped (setVf_get ..), congrArg VfRegs.saving (setVf_get ..), ?_, ?_⟩ <;>
  · cases s.core.vf == v || zeroed s v s.clusterId <;> rfl

theorem partitionReset_own {v : BitVec 6} {s : State} (h : s.core.vf = v ∨ zeroed s v s.clusterId = true) : (partitionReset v s).cur = {} ∧
    (partitionReset v s).rest = [] ∧ (partitionReset v s).core.tcm = [] ∧ (partitionReset v s).launch.live = false ∧ (partitionReset v s).tile.cands = [] := by
  have mine : (s.core.vf == v || zeroed s v s.clusterId) = true := by
    rw [Bool.or_eq_true, beq_iff_eq]
    exact h
  unfold partitionReset
  dsimp only
  rw [mine, if_pos rfl]
  exact ⟨rfl, rfl, rfl, rfl, rfl⟩

theorem partitionReset_other {v : BitVec 6} {s : State} (h : s.core.vf ≠ v) (hz : zeroed s v s.clusterId = false) : (partitionReset v s).cur = s.cur ∧
    (partitionReset v s).rest = s.rest ∧ (partitionReset v s).core.tcm = s.core.tcm ∧ (partitionReset v s).launch = s.launch := by
  have foreign : (s.core.vf == v || zeroed s v s.clusterId) = false := by
    rw [hz, beq_false_of_ne h]
    rfl
  unfold partitionReset
  dsimp only
  rw [foreign, if_neg Bool.false_ne_true]
  exact ⟨rfl, rfl, rfl, rfl⟩

theorem resetEnd_frame (v : BitVec 6) (s : State) : (resetEnd v s).core = s.core ∧ (resetEnd v s).cur = s.cur ∧ (resetEnd v s).rest = s.rest :=
  foldl_inv (fun t : State => t.core = s.core ∧ t.cur = s.cur ∧ t.rest = s.rest) endReset (fun b r hb => by
    obtain ⟨h1, h2, h3⟩ := endReset_frame b r
    exact ⟨h1.trans hb.1, h2.trans hb.2.1, h3.trans hb.2.2⟩) _ _ ⟨rfl, rfl, rfl⟩

theorem resetDrain_frame (s : State) : (resetDrain s).home.deadMask = 0 ∧ (resetDrain s).core = s.core ∧ (resetDrain s).cur = s.cur ∧
    (resetDrain s).rest = s.rest := by
  have folded := foldl_inv (fun t : State => t.core = s.core ∧ t.cur = s.cur ∧ t.rest = s.rest) (fun s (v : Nat) => resetEnd (BitVec.ofNat 6 v) s)
    (fun b v hb => by
      obtain ⟨h1, h2, h3⟩ := resetEnd_frame (BitVec.ofNat 6 v) b
      exact ⟨h1.trans hb.1, h2.trans hb.2.1, h3.trans hb.2.2⟩) ((List.range 64).filter fun v => s.home.deadMask.getLsbD v) s ⟨rfl, rfl, rfl⟩
  exact ⟨rfl, folded⟩

theorem resetDrain_none {s : State} (h : s.home.deadMask = 0) : resetDrain s = s := by
  have none : ((List.range 64).filter fun v => s.home.deadMask.getLsbD v) = [] :=
    List.filter_eq_nil_iff.2 fun v _ => by
      rw [h, show (0 : BitVec 64).getLsbD v = false from BitVec.getLsbD_zero]
      exact Bool.false_ne_true
  unfold resetDrain
  rw [none]
  exact congrArg (fun d => ({ s with home := { s.home with deadMask := d } } : State)) h.symm

namespace Settled

/-- Settles O56: metering, pre-emption, sharing and reset of a function. -/
theorem partitionSteps : Obligations.PartitionSteps := by
  intro s
  refine ⟨?_, fun measured pages f r h0 hlt hp hv => ?_, fun v x => ⟨fun h => ?_, fun h => ?_, fun hc hr => ?_, fun h => ?_⟩,
    ⟨_, rfl, preemption_home s, fun v hv hsav => (preemption_other hv).trans (markSaved_saving hsav), fun h => ?_, fun hp hq hmx => ?_⟩,
    fun x => ⟨stopOne_ended, stopOne_live⟩, fun c => ⟨saveMx_free, fun o ho => ?_⟩, fun hp hc hs => ?_, fun hp hc m hs => ?_, contextRestore_none,
    fun t hst hsh hm => ?_, fun t hh hp => ?_, ?_, fun h => congrArg done (quantumExpiry_none h),
    fun g k v hg hm hq hs hr hk hv hmx => ?_, fun v => ⟨_, rfl, ?_⟩, fun h => congrArg done (resetDrain_none h), ⟨_, rfl, resetDrain_frame s⟩⟩
  · obtain ⟨hmeter, h1, h2, h3, h4⟩ := foldMeter_frame s
    obtain ⟨i0, i1, i2, i3, i4⟩ := chargeIdle_frame (foldMeter s)
    obtain ⟨q0, q1, q2, q3, q4⟩ := quotaStops_frame (chargeIdle (foldMeter s))
    exact ⟨_, rfl, by rw [q0, i0, hmeter], by rw [q1, i1, h1], by rw [q2, i2, h2], by rw [q3, i3, h3], by rw [q4, i4, h4]⟩
  · have hf : f ≠ 0 := Nat.pos_iff_ne_zero.1 h0
    have apart : BitVec.ofNat 6 f ≠ 0 := fun g => hf ((sixBit hlt).symm.trans (congrArg BitVec.toNat g))
    obtain ⟨own, zero⟩ := vfReg_only hlt hf hv
    intro share
    refine ⟨_, congrArg done (refreshCharge_one hf (Nat.pos_iff_ne_zero.1 hp) hv), ?_, ?_, rfl, rfl, rfl, rfl⟩
    · rw [addEcnt_other apart, addEcnt_get, own]
    · rw [addEcnt_get, addEcnt_other apart.symm, zero]
      exact BitVec.zero_add _
  · refine ⟨_, congrArg done ((equotaWrite_eq v x s).trans (if_pos h)), ?_, rfl, rfl⟩
    unfold resumeVf
    rw [setVf_set, setVf_get]
  · exact congrArg done ((equotaWrite_eq v x s).trans (if_neg h))
  · refine congrArg done (if_pos ?_)
    rw [hc, hr]
    rfl
  · refine congrArg done (if_neg ?_)
    rw [Bool.and_eq_true, beq_iff_eq, Bool.not_eq_true']
    exact fun both => h.elim (fun h => h both.1) fun h => absurd (both.2.symm.trans h) (by decide)
  · rw [preemption_waits h]
    exact ⟨rfl, rfl, rfl⟩
  · obtain ⟨m, f, hz⟩ := chargeOpen_frame 0 (stopTasks s.othersSaved)
    rw [preemption_saves hp hq, withdraw_nil (s := s.othersSaved) hmx, setVf_get, hz]
    exact ⟨rfl, rfl, rfl, markSaved_saving⟩
  · rw [saveMx_owned ho]
    exact ⟨rfl, _, rfl, ho, rfl, rfl, rfl, rfl, rfl⟩
  · obtain ⟨m, f, hz⟩ := chargeOpen_frame 0 s
    refine ⟨_, (contextRestore_runs hp hc).trans (congrArg _ (restoreCore_plain (by rw [hz]; exact hs))), ?_, ?_, ?_⟩ <;>
    · rw [hz]
  · obtain ⟨k, f, hz⟩ := chargeOpen_frame 0 s
    exact ⟨_, contextRestore_runs hp hc, restoreCore_saved (by rw [hz]; exact hs)⟩
  · obtain ⟨v, f, ha⟩ := markAbsent_frame t
    rw [restoreTask_plain hst hsh hm, ha]
    exact ⟨rfl, rfl, rfl, restoredSt_free, fun w => restoredSt_waits⟩
  · rw [markAbsent_heavy hh hp]
    exact ⟨rfl, rfl, rfl, fun k => congrArg FReg.absent (Vector.getElem_map ..)⟩
  · obtain ⟨m, f, hz⟩ := chargeOpen_frame 0 s
    exact ⟨_, congrArg done hz, rfl, rfl, rfl, rfl⟩
  · obtain ⟨m, f, hz⟩ := chargeOpen_frame 0 (stopTasks (s.turned k))
    obtain ⟨htcm, hvf, hid⟩ := saveMx_frame { s.core with runs := s.core.runs.filter fun r => r.rel.isNone }
    have arrives : incoming (chargeOpen 0 (stopTasks (s.turned k))) v = incoming s v := by
      rw [hz]
      unfold incoming
      exact congrArg (fun i => (s.saved.find? fun x => x.vf == v).getD
        { vf := v, spm := [], spmTags := [], spmPoison := [], tasks := [], core := { id := i, vf := v }, tile := {}, launch := {}, refused := [] }) hid
    obtain ⟨shost, svf, slaunch, ssaved⟩ := switchTo_frame (arrives ▸ hr)
    refine ⟨_, _, congrArg done (quantumExpiry_switches hg hm hq hs hk hv hmx), ?_, arrives ▸ svf, arrives ▸ slaunch, ssaved, ?_, ?_, ?_⟩
    · rw [shost, hz]
      exact congrArg Clasg.cur (tabGet_tabSet_same ..)
    · rw [hz]
      exact hvf
    · rw [hz]
      exact htcm
    · rw [hz]
      rfl
  · obtain ⟨h1, h2, h3, h4, h5⟩ := partitionReset_frame v s
    exact ⟨h1, h2, h3, h4, h5, partitionReset_own, partitionReset_other⟩

end Settled

end Sys2Proof.Machine
end

section
/-! What the host writes, a container, and bring-up (R5, R77, R222, R363, R371, R383, R418, R424, R429 to R431, R437, R438), O57. -/

namespace Sys2Proof.Machine

/-! ### Clusters and work queues (R363, R430) -/

theorem wqcfg_sets {s : State} {q : BitVec 10} (x : Word) (h : (tabGet s.host.wqs {} q.toNat).head = (tabGet s.host.wqs {} q.toNat).tail)
    (he : (tabGet s.host.wqs {} q.toNat).en = false) : wqcfgWrite q x s =
      s.onHost fun h => { h with wqs := tabSet h.wqs q.toNat { tabGet s.host.wqs {} q.toNat with
        en := x.getLsbD 63, pri := x.extractLsb' 60 2, svc := x.getLsbD 59, vf := x.extractLsb' 48 6, asid := x.extractLsb' 0 16 } } := by
  refine if_pos ?_
  rw [h, he, beq_self_eq_true]
  rfl

theorem wqcfg_busy {s : State} {q : BitVec 10} (x : Word) (h : (tabGet s.host.wqs {} q.toNat).head ≠ (tabGet s.host.wqs {} q.toNat).tail ∨
    (tabGet s.host.wqs {} q.toNat).en = true) : wqcfgWrite q x s = s := by
  refine if_neg ?_
  rw [Bool.and_eq_true, beq_iff_eq, Bool.not_eq_true']
  exact fun idle => h.elim (fun h => h idle.1) fun h => absurd (idle.2.symm.trans h) (by decide)

/-! ### The register window of a function (R371, R383, R418, R424, R429) -/

section
variable {s : State} {v : BitVec 6} {x : Word}

theorem hostWrite_hidden (off : BitVec 16) (h : exposed s v = false) : exec (.hostRegisterWrite v off x) s = .next s := by
  refine congrArg done (if_pos ?_)
  rw [h]
  rfl

theorem hostWrite_window {off : BitVec 16} {r : VfRegs} (hoff : off.toNat < 0x8000) (hr : winWrite s v off.toNat x (s.vfReg v) = r)
    (he : exposed s v = true) : exec (.hostRegisterWrite v off x) s = .next (s.setVf v r) := by
  refine congrArg done ((if_neg ?_).trans ((if_neg (Nat.not_le.2 hoff)).trans (congrArg _ hr)))
  rw [he]
  exact Bool.false_ne_true

theorem hostWrite_ring {q k : Nat} (hq : q < 1024) (hk : k < 32) (he : exposed s v = true) :
    exec (.hostRegisterWrite v (BitVec.ofNat 16 (0x8000 + 32 * q + k)) x) s = .next (ringWrite v q k x s) := by
  have num : (BitVec.ofNat 16 (0x8000 + 32 * q + k)).toNat = 0x8000 + 32 * q + k := by
    rw [BitVec.toNat_ofNat]
    exact Nat.mod_eq_of_lt (by omega)
  have queue : (0x8000 + 32 * q + k - 0x8000) / 32 = q := by omega
  have reg : (0x8000 + 32 * q + k) % 32 = k := by omega
  refine congrArg done ((if_neg ?_).trans ?_)
  · rw [he]
    exact Bool.false_ne_true
  · rw [num, if_pos (by omega), queue, reg]

/-- R424: the four commands. -/
theorem dbgKnown_iff (x : Word) : dbgKnown x = true ↔ (x.extractLsb' 60 3).toNat ∈ [1, 2, 3, 4] := by
  unfold dbgKnown
  rw [Bool.and_eq_true, decide_eq_true_iff, decide_eq_true_iff]
  simp only [List.mem_cons, List.not_mem_nil, or_false]
  omega

theorem command_taken (hb : (s.vfReg v).dbgbusy = false) (hx : (x.extractLsb' 60 3).toNat ∈ [1, 2, 3, 4]) :
    winWrite s v 0x78 x (s.vfReg v) = { s.vfReg v with dbgcmd := x.extractLsb' 0 63, dbgbusy := true } := by
  refine if_neg ?_
  rw [hb, (dbgKnown_iff x).2 hx]
  exact Bool.false_ne_true

theorem command_dropped (h : (s.vfReg v).dbgbusy = true ∨ (x.extractLsb' 60 3).toNat ∉ [1, 2, 3, 4]) :
    winWrite s v 0x78 x (s.vfReg v) = s.vfReg v := by
  refine if_pos ?_
  rw [Bool.or_eq_true, Bool.not_eq_true', ← Bool.not_eq_true, dbgKnown_iff]
  exact h

end

theorem ring_tail {s : State} {v : BitVec 6} {q : Nat} (x : Word) (hv : (tabGet s.host.wqs {} q).vf = v) :
    ringWrite v q 0x10 x s = s.onHost fun h => { h with wqs := tabSet h.wqs q { tabGet s.host.wqs {} q with tail := x.extractLsb' 0 32 } } :=
  if_neg (by rw [hv, bne_self_eq_false]; exact Bool.false_ne_true)

theorem ring_base {s : State} {v : BitVec 6} {q : Nat} (x : Word) (hv : (tabGet s.host.wqs {} q).vf = v)
    (h : (tabGet s.host.wqs {} q).head = (tabGet s.host.wqs {} q).tail) :
    ringWrite v q 0 x s = s.onHost fun h => { h with wqs := tabSet h.wqs q { tabGet s.host.wqs {} q with qbase := x.extractLsb' 11 41 } } :=
  (if_neg (by rw [hv, bne_self_eq_false]; exact Bool.false_ne_true)).trans (if_pos (beq_iff_eq.2 h))

/-! ### CXL_MEM_ACCESS (R222) -/

theorem cxlAccess_hbm {s : State} {pa d h : Nat} (bs : List Byte) (hh : homeOf pa = some (.hbm d h)) :
    cxlAccess pa (some bs) s = s.onHome fun h => homePut h pa bs := by
  have served : (noMemory s pa || sharedSpm s pa) = false := by
    unfold noMemory sharedSpm
    rw [hh]
    rfl
  exact if_neg (ne_true_of_eq_false served)

/-! ### LOADCMD_WRITE (R437) -/

/-- The function with its command, a free value taken. -/
def State.loadTold (s : State) (f : BitVec 6) (x : Word) : State :=
  { s with fresh := s.fresh + 1 }.setVf f { s.vfReg f with loadcmd := x.extractLsb' 6 46 }

theorem loadContainer_bad {s : State} {f : BitVec 6} {x : Word} (h : containerBad s ((x.extractLsb' 6 46).toNat * 64) = true) :
    loadContainer f x s = setLoadst f 1 (s.loadTold f x) :=
  if_pos h

/-- R437: a container that is well-formed is refused for one of three reasons, or its leaf maps and roles stand in the function. -/
theorem loadContainer_good {s : State} {f : BitVec 6} {x : Word} (h : containerBad s ((x.extractLsb' 6 46).toNat * 64) = false) :
    let pa := (x.extractLsb' 6 46).toNat * 64
    let t := loadContainer f x s
    (t.vfReg f).loadBusy = false ∧ ((t.vfReg f).loadst = 2 ∨ (t.vfReg f).loadst = 3 ∨ (t.vfReg f).loadst = 4 ∨
      ((t.vfReg f).loadst = 0 ∧ (t.vfReg f).leaves = readLeaves t pa ∧ (t.vfReg f).roles = readRoles s pa)) := by
  have roles (pa : Nat) : readRoles (s.loadTold f x) pa = readRoles s pa := (leaves_eq rfl pa).2
  intro pa t
  have load : t = loadContainer f x s := rfl
  clear_value t
  unfold loadContainer at load
  dsimp only at load
  split at load
  · next bad => exact absurd bad (ne_true_of_eq_false h)
  split at load
  · exact load ▸ ⟨(loadst_get _ f 2).1, .inl (loadst_get _ f 2).2⟩
  split at load
  · exact load ▸ ⟨(loadst_get _ f 3).1, .inr (.inl (loadst_get _ f 3).2)⟩
  split at load
  · exact load ▸ ⟨(loadst_get _ f 4).1, .inr (.inr (.inl (loadst_get _ f 4).2))⟩
  split at load
  · exact load ▸ ⟨(loadst_get _ f 3).1, .inr (.inl (loadst_get _ f 3).2)⟩
  · obtain ⟨busy, code, leaves, cores, home⟩ := loaded _ f _ _ _
    rw [← load] at busy code leaves cores home
    exact ⟨busy, .inr (.inr (.inr ⟨code, leaves.trans (leaves_eq (congrArg HomeSt.mem home.symm) pa).1, cores.trans (roles pa)⟩))⟩

/-! ### Bring-up (R438) -/

/-- What a step of bring-up leaves as it was. -/
def bringKeeps (s t : State) : Prop := t.host = s.host ∧ t.cur = s.cur ∧ t.rest = s.rest ∧ t.core = s.core ∧ t.home.mem = s.home.mem

theorem bridgeLane_keeps (x : Word) (s : State) : bringKeeps s (bridgeLane x s) := by
  unfold bridgeLane
  split
  · exact ⟨rfl, rfl, rfl, rfl, rfl⟩
  · exact ⟨rfl, rfl, rfl, rfl, rfl⟩

theorem trainLanes_keeps (s : State) : bringKeeps s (trainLanes s) := by
  unfold trainLanes
  generalize List.range 384 = l
  exact ⟨rfl, rfl, rfl, rfl, rfl⟩

theorem selfTest_keeps (x : Word) (s : State) : bringKeeps s (selfTest x s) := ⟨rfl, rfl, rfl, rfl, rfl⟩

theorem bringup_over {s : State} (h : s.host.devFail = true ∨ 7 ≤ s.host.devStep.toNat) : bringup s = s := by
  refine if_pos ?_
  rw [Bool.or_eq_true, decide_eq_true_iff]
  exact h

theorem bringup_goes {s : State} (hf : s.host.devFail = false) (hs : s.host.devStep.toNat < 7) : (bringup s).host.devStep = s.host.devStep + 1 ∧
    (bringup s).cur = s.cur ∧ (bringup s).rest = s.rest ∧ (bringup s).core = s.core ∧ (bringup s).home.mem = s.home.mem := by
  have due : (s.host.devFail || decide (s.host.devStep.toNat ≥ 7)) = false := by
    rw [hf, decide_eq_false (Nat.not_le.2 hs)]
    rfl
  obtain ⟨x, z, hx, hz⟩ : ∃ x z, s.free = (x, z) ∧ bringKeeps s z := ⟨_, _, rfl, rfl, rfl, rfl, rfl, rfl⟩
  have kept : ∀ t, bringKeeps (z.onHost fun h => { h with devStep := s.host.devStep + 1 }) t → t.host.devStep = s.host.devStep + 1 ∧ t.cur = s.cur ∧
      t.rest = s.rest ∧ t.core = s.core ∧ t.home.mem = s.home.mem := fun t ht => by
    obtain ⟨-, zcur, zrest, zcore, zmem⟩ := hz
    obtain ⟨host, cur, rest, core, mem⟩ := ht
    exact ⟨congrArg HostSt.devStep host, cur.trans zcur, rest.trans zrest, core.trans zcore, mem.trans zmem⟩
  unfold bringup
  rw [due, if_neg Bool.false_ne_true, hx]
  dsimp only
  split
  · obtain ⟨-, zcur, zrest, zcore, zmem⟩ := hz
    exact ⟨rfl, zcur, zrest, zcore, zmem⟩
  split
  · exact kept _ (bridgeLane_keeps ..)
  split
  · exact kept _ (trainLanes_keeps _)
  split
  · exact kept _ (selfTest_keeps ..)
  split
  · exact kept _ ⟨rfl, rfl, rfl, rfl, rfl⟩
  · exact kept _ ⟨rfl, rfl, rfl, rfl, rfl⟩

namespace Settled

/-- Settles O57: the writes of the host, a container, and bring-up. -/
theorem hostSteps : Obligations.HostSteps := by
  intro s
  refine ⟨fun c x => ⟨fun h => congrArg done (if_pos h), fun h => congrArg done (if_neg (ne_true_of_eq_false h))⟩,
    fun q x => ⟨fun h he => congrArg done (wqcfg_sets x h he), fun h => congrArg done (wqcfg_busy x h)⟩, fun v x => ?_,
    fun v x q hq he => ?_, fun pa bs => ⟨rfl, fun d h hh => ?_⟩, fun f x => ⟨fun h => ?_, fun h => ⟨_, rfl, loadContainer_good h⟩⟩, ?_, rfl⟩
  · intro r sets
    refine ⟨hostWrite_hidden, hostWrite_window (by decide) rfl, hostWrite_window (by decide) rfl, hostWrite_window (by decide) rfl,
      fun h => hostWrite_window (by decide) (if_neg (ne_true_of_eq_false h)),
      fun h => ⟨hostWrite_window (by decide) (if_pos h), hostWrite_window (by decide) (if_pos h), hostWrite_window (by decide) (if_pos h),
        hostWrite_window (by decide) (if_pos h)⟩,
      fun h => ⟨hostWrite_window (by decide) (if_neg (ne_true_of_eq_false h)), hostWrite_window (by decide) (if_neg (ne_true_of_eq_false h)),
        hostWrite_window (by decide) (if_neg (ne_true_of_eq_false h)), hostWrite_window (by decide) (if_neg (ne_true_of_eq_false h))⟩,
      hostWrite_window (by decide) rfl, hostWrite_window (by decide) rfl, hostWrite_window (by decide) rfl, hostWrite_window (by decide) rfl,
      hostWrite_window (by decide) rfl, hostWrite_window (by decide) rfl, hostWrite_window (by decide) rfl,
      fun hb hx => hostWrite_window (by decide) (command_taken hb hx), fun h => hostWrite_window (by decide) (command_dropped h)⟩
  · intro w put hv
    exact ⟨(hostWrite_ring hq (by decide) he).trans (congrArg _ (ring_tail x hv)),
      fun h => (hostWrite_ring (k := 0) hq (by decide) he).trans (congrArg _ (ring_base x hv h))⟩
  · exact ⟨_, congrArg done (cxlAccess_hbm bs hh), rfl, rfl, rfl, rfl, rfl, rfl⟩
  · refine ⟨_, congrArg done (loadContainer_bad h), ?_, rfl, rfl⟩
    unfold setLoadst State.loadTold
    rw [setVf_set, setVf_get]
  · by_cases h : s.host.devFail = true ∨ 7 ≤ s.host.devStep.toNat
    · exact ⟨s, congrArg done (bringup_over h), .inl rfl, rfl, rfl, rfl, rfl, fun hf hs => absurd h (not_or.2 ⟨ne_true_of_eq_false hf, Nat.not_le.2 hs⟩),
        fun _ => rfl⟩
    · obtain ⟨hf, hs⟩ := not_or.1 h
      obtain ⟨step, cur, rest, core, mem⟩ := bringup_goes (Bool.eq_false_iff.2 hf) (Nat.not_le.1 hs)
      exact ⟨_, rfl, .inr step, cur, rest, core, mem, fun _ _ => step, fun ended => absurd ended h⟩

end Settled

end Sys2Proof.Machine
end

section
/-! Stalls and timeouts, errors consumed, redelivery, pairs, spares and retirement (R90, R94, R95, R120, R398, R402, R404 to R411, R414 to
R416), O58. -/

namespace Sys2Proof.Machine

/-! ### A task that stalls (R94, R95, R120) -/

/-- R97: a task that waits for a message or for memory. -/
def Task.waits (t : Task) : Prop := t.st = .waitMsg ∨ t.st = .waitMem

theorem Task.waits.live {t : Task} (h : t.waits) : t.st ≠ .ended ∧ t.st ≠ .preempted ∧ t.st ≠ .pending ∧ t.st ≠ .running := by
  rcases h with h | h <;>
  · rw [h]
    decide

theorem Task.waits.num {t : Task} (h : t.waits) : stallNum t.st = if t.st = .waitMsg then 3 else 4 := by
  rcases h with h | h <;>
  · rw [h]
    rfl

/-- R95: the watch of a task that waits ends its wait, or leaves a trap for its next boundary. -/
theorem twatch_stalls {s : State} (hw : s.core.twLimit ≠ 0) (hf : s.tile.frozen = false) (hsh : s.cur.shadow = false) (hst : s.cur.waits) :
    exec (.twatchExpiry s.cur.frame) s = .next { s with cur := stallTask s.core.twWall s.cur } := by
  obtain ⟨ended, preempted, pending, -⟩ := hst.live
  have watched : (liveAt s.cur.frame s.cur && s.cur.st != .preempted && s.cur.st != .pending) = true := by
    rw [live_cur ended hsh, bne_iff_ne.2 preempted, bne_iff_ne.2 pending]
    rfl
  have counts : (decide (s.core.twLimit = 0) || s.tile.frozen) = false := by
    rw [hf, decide_eq_false hw]
    rfl
  exact congrArg done ((if_neg (ne_true_of_eq_false counts)).trans
    (updCtx_cur' (p := fun t => liveAt s.cur.frame t && t.st != .preempted && t.st != .pending) watched))

theorem stallTask_leaves {t : Task} (wall : Bool) (hst : t.waits) (hk : keepsWait t.wait = false) : stallTask wall t = { t with
    traps := t.traps ++ [{ cause := 0x12, detail := if wall then 1 else 0, val := if t.st = .waitMsg then 3 else 4, op := none }],
    wait := none, paid := false, st := .ready } := by
  obtain ⟨-, -, -, running⟩ := hst.live
  unfold stallTask
  dsimp only
  rw [hk, if_neg Bool.false_ne_true, hst.num, if_neg (mt eq_of_beq running)]
  rfl

theorem stallTask_keeps {t : Task} (wall : Bool) (hst : t.waits) (hk : keepsWait t.wait = true) : stallTask wall t = { t with
    traps := t.traps ++ [{ cause := 0x12, detail := if wall then 1 else 0, val := if t.st = .waitMsg then 3 else 4, op := none }] } := by
  unfold stallTask
  dsimp only
  rw [hk, if_pos rfl, hst.num]
  rfl

theorem twatch_off {s : State} (f : Nat) (h : s.core.twLimit = 0 ∨ s.tile.frozen = true) : exec (.twatchExpiry f) s = .next s :=
  congrArg done (if_pos (by rw [Bool.or_eq_true, decide_eq_true_iff]; exact h))

theorem timeout_ends {s : State} {m : BitVec 8} (hw : s.cur.wait = some (.event m true false)) (hst : s.cur.st = .waitMsg) (hsh : s.cur.shadow = false) :
    exec (.waitTimeout s.cur.frame) s = .next { s with cur := { s.cur with wait := some (.event m true true), st := .ready } } := by
  obtain ⟨ended, preempted, -, -⟩ := Task.waits.live (.inl hst)
  have waiting : (liveAt s.cur.frame s.cur && s.cur.st != .preempted) = true := by
    rw [live_cur ended hsh, bne_iff_ne.2 preempted]
    rfl
  have timed : timedOut s.cur = { s.cur with wait := some (.event m true true), st := .ready } := by
    unfold timedOut
    rw [hw]
  exact congrArg done ((updCtx_cur' (p := fun t => liveAt s.cur.frame t && t.st != .preempted) waiting).trans
    (congrArg (fun t => ({ s with cur := t } : State)) timed))

/-! ### ERROR_CONSUMED (R404 to R406) -/

theorem errorConsumed_none {s : State} (h : s.cur.errPend = none) : exec .errorConsumed s = .next s := by
  show done (errorConsumed s) = _
  unfold errorConsumed
  rw [h]
  rfl

theorem errorConsumed_saved {s : State} (h : s.cur.st = .preempted) : exec .errorConsumed s = .next s := by
  show done (errorConsumed s) = _
  unfold errorConsumed
  rw [h]
  cases s.cur.errPend <;> rfl

theorem errorConsumed_eq {s : State} {e : BitVec 8 × Word × Word} (he : s.cur.errPend = some e) (h1 : s.cur.st ≠ .ended) (h2 : s.cur.st ≠ .preempted)
    (hr : s.cur.recover = false) (hsh : s.cur.shadow = false) : exec .errorConsumed s =
      .next (if !s.cur.esc && decide (s.cur.redel < 2) then dropWork s else endOnError e (s.onCur fun t => { t with errPend := none })) := by
  have taken : (s.cur.st == .ended || s.cur.st == .preempted || s.cur.recover) = false := by
    rw [beq_false_of_ne h1, beq_false_of_ne h2, hr]
    rfl
  show done (errorConsumed s) = _
  unfold errorConsumed
  rw [he]
  dsimp only
  rw [taken, hsh]
  rfl

/-- R404: the activation has ended, and the error of an escaped one is told. -/
theorem endOnError_ends (e : BitVec 8 × Word × Word) (s : State) : (endOnError e s).cur.st = .ended ∧ (endOnError e s).cur.recs = [] ∧
    (endOnError e s).cur.held = [] ∧ (endOnError e s).tile.escl = true := by
  unfold endOnError
  dsimp only
  generalize errorEntry (if s.cur.esc then 3 else 4) s.cur e s = w
  obtain ⟨q, hdropped⟩ := dropItems_dropped s.cur (w.onTile fun x => { x with escl := true })
  obtain ⟨hst, hrecs, hheld, hescl, -⟩ := endCur_keeps (discardCur (dropItems s.cur (w.onTile fun x => { x with escl := true })))
  exact ⟨hst, hrecs, hheld, hescl hdropped.escl⟩

/-- R405: what is left of the activation that will run again. -/
theorem dropWork_cur (s : State) : ∃ n a, (dropWork s).cur = { s.cur with
    sentOut := n, amos := a, recs := [], held := [], q1 := [], streams := Vector.replicate 8 none, qs := Vector.replicate 6 none, classMask := 0,
    loads := [], vtPend := [], xrPend := [], recCtr := 0, partCtr := 0, floor := 0, wrote := [], wait := none, paid := false, trapTaken := false,
    deposits := [], f := Vector.replicate 8 {}, recover := true, st := .waitMem } := by
  obtain ⟨q, hdropped⟩ := dropItems_dropped s.cur s
  obtain ⟨n, a, hcur⟩ := hdropped.cur
  obtain ⟨kept, -⟩ := drop_frame (s.cur.qs.toList.filterMap id) (discardCur (dropItems s.cur s))
  refine ⟨n, a, ?_⟩
  unfold dropWork
  dsimp only [State.onCur, State.onCore]
  rw [kept]
  unfold discardCur
  dsimp only [State.onCur, State.onCore]
  rw [hcur]

theorem dropWork_rest {s : State} (h : s.core.pairQ = []) : (dropWork s).rest = s.rest := by
  obtain ⟨-, kept⟩ := drop_frame (s.cur.qs.toList.filterMap id) (discardCur (dropItems s.cur s))
  exact kept.trans (congrArg (fun z => (discardCur z).rest) (dropItems_nil s.cur h))

/-! ### ACTIVATION_REDELIVERY (R405, R406) -/

theorem redelivery_restarts {s : State} {e : BitVec 8 × Word × Word} (hr : s.cur.recover = true) (he : s.cur.errPend = some e)
    (hst : s.cur.st = .waitMem) (hs : s.cur.stopped = false) (hh : s.tile.halted = false) : redelivery s =
      if e.1 == 2 then (errorEntry 2 s.cur e { s with cur := restart s.cur }).onTile fun x => { x with pmis := true }
      else errorEntry 2 s.cur e { s with cur := restart s.cur } := by
  have due : mayRestart s s.cur = true := by
    unfold mayRestart
    rw [hr, hst, hs, hh]
    rfl
  unfold redelivery
  rw [findCtx_cur' due]
  dsimp only
  rw [updCtx_cur' due, he]
  rfl

/-! ### PARITY_REPLAY, SCRUB (R398, R402) -/

theorem parityReplay_again {s : State} {f : Nat} {vec : Bool} {r : BitVec 4} (h : ∃ e ∈ s.core.replay, produces f vec r e = true) :
    parityReplay f vec r s = chargeOpen 0 s :=
  if_pos (List.any_eq_true.2 h)

theorem parityReplay_lost {s : State} {vec : Bool} {r : BitVec 4} (hst : s.cur.st ≠ .ended) (hsh : s.cur.shadow = false)
    (h : ∀ e ∈ s.core.replay, produces s.cur.frame vec r e = false) (he : s.cur.errPend = none) :
    parityReplay s.cur.frame vec r s = { s.free.2 with cur := { s.cur with errPend := some (1, s.free.1, 0) } } := by
  have unknown : s.core.replay.any (produces s.cur.frame vec r) = false := List.any_eq_false.2 fun e hm => ne_true_of_eq_false (h e hm)
  have pending : errOf 1 s.free.1 0 s.cur = { s.cur with errPend := some (1, s.free.1, 0) } := by
    unfold errOf
    rw [he]
    rfl
  refine (if_neg (ne_true_of_eq_false unknown)).trans ?_
  exact (updCtx_cur' (s := s.free.2) (live_cur hst hsh)).trans (congrArg (fun t => ({ s.free.2 with cur := t } : State)) pending)

theorem produces_general (f : Nat) (r : BitVec 4) (e : Replay) : produces f false r e = true ↔ e.frame = f ∧ e.reg = r ∧ r ≠ 0 := by
  unfold produces
  rw [if_neg Bool.false_ne_true, Bool.and_eq_true, Bool.and_eq_true, beq_iff_eq, beq_iff_eq, bne_iff_ne]

theorem produces_vector (f : Nat) (r : BitVec 4) (e : Replay) : produces f true r e = true ↔ e.frame = f ∧ e.vreg = some r := by
  unfold produces
  rw [if_pos rfl, Bool.and_eq_true, beq_iff_eq, beq_iff_eq]

theorem addMark_new {k : Nat} {l : List Nat} (h : k ∉ l) : addMark k l = l ++ [k] := if_neg (mt List.contains_iff_mem.1 h)

theorem addMark_known {k : Nat} {l : List Nat} (h : k ∈ l) : addMark k l = l := if_pos (List.contains_iff_mem.2 h)

/-! ### Pairs (R409 to R411) -/

theorem pairHashCompare_head {s : State} {x : PairItem} {l : List PairItem} (hq : s.core.pairQ = x :: l) (h : BitVec 64) :
    exec (.pairHashCompare h) s = .next (if x.hash == h then matched x s else mismatch x (dropItem x s)) := by
  show done (pairHashCompare h s) = _
  unfold pairHashCompare
  rw [hq]
  rfl

theorem pairTimeout_head {s : State} {x : PairItem} {l : List PairItem} (hq : s.core.pairQ = x :: l) :
    exec .pairTimeout s = .next (if s.tile.frozen || s.core.preempt then s else mismatch x (dropItem x s)) := by
  show done (pairTimeout s) = _
  unfold pairTimeout
  rw [hq]
  rfl

theorem pairQueue_empty {s : State} (hq : s.core.pairQ = []) : (∀ h : BitVec 64, exec (.pairHashCompare h) s = .next s) ∧ exec .pairTimeout s = .next s := by
  constructor
  · intro h
    show done (pairHashCompare h s) = _
    unfold pairHashCompare
    rw [hq]
    rfl
  · show done (pairTimeout s) = _
    unfold pairTimeout
    rw [hq]
    rfl

theorem pairTimeout_still {s : State} (h : s.tile.frozen = true ∨ s.core.preempt = true) : exec .pairTimeout s = .next s := by
  cases hq : s.core.pairQ with
  | nil => exact (pairQueue_empty hq).2
  | cons x l =>
    rw [pairTimeout_head hq, if_pos]
    rw [Bool.or_eq_true]
    exact h

/-- R411: the action goes on, and its task has escaped. -/
theorem matched_cur {s : State} {x : PairItem} {l : List PairItem} (hq : s.core.pairQ = x :: l) (hst : s.cur.st ≠ .ended) (hsh : s.cur.shadow = false)
    (hx : sameTask s.cur x.tid x.origin = true) : matched x s =
      { s with cur := { s.cur with pairEsc := true }, core := { s.core with pairQ := l, pairOk := s.core.pairOk ++ [x.what] } } := by
  have own : (s.cur.st != .ended && !s.cur.shadow && sameTask s.cur x.tid x.origin) = true := by
    rw [bne_iff_ne.2 hst, hsh, hx]
    rfl
  have rest : s.core.pairQ.erase x = l := by
    rw [hq]
    exact List.erase_cons_head x l
  unfold matched
  rw [updCtx_cur' (s := s.onCore fun c => { c with pairQ := c.pairQ.erase x, pairOk := c.pairOk ++ [x.what] })
    (p := fun t => t.st != .ended && !t.shadow && sameTask t x.tid x.origin) own]
  dsimp only [State.onCore]
  rw [rest]

/-! #### PRIMARY_VALUE_FORWARD (R409) -/

/-- Whether a task awaits a value that the primary may give it. -/
def Task.awaits (r : BitVec 4) (t : Task) : Bool := t.st != .ended && ((awaitsAmo r t).isSome || (awaitsLoad r t).isSome || awaitsBlock t)

theorem forward_primary {s : State} (r : BitVec 4) (v : Word) (h : secondary s = false) : exec (.primaryValueForward r v) s = .next s := by
  refine congrArg done (if_pos ?_)
  rw [h]
  rfl

section
variable {s : State} {r : BitVec 4} {v : Word} (hs : secondary s = true)
include hs

theorem forward_taken (h : s.cur.awaits r = true) : exec (.primaryValueForward r v) s = .next (forwardCur r v s) := by
  refine congrArg done ((if_neg ?_).trans (if_pos h))
  rw [hs]
  exact Bool.false_ne_true

theorem forward_register (h : ∀ t ∈ s.cur :: s.rest, t.st = .ended ∨ (awaitsAmo r t = none ∧ awaitsLoad r t = none ∧ awaitsBlock t = false)) :
    exec (.primaryValueForward r v) s = .next (s.setW r v) := by
  have idle (t : Task) (ht : t ∈ s.cur :: s.rest) : t.awaits r = false := by
    unfold Task.awaits
    rcases h t ht with h | ⟨ha, hl, hb⟩
    · rw [h]
      rfl
    · rw [ha, hl, hb]
      exact Bool.and_false _
  have others : s.rest.findIdx? (Task.awaits r) = none := List.findIdx?_eq_none_iff.2 fun t ht => idle t (List.mem_cons_of_mem _ ht)
  show done (primaryForward r v s) = _
  unfold primaryForward
  dsimp only
  rw [hs]
  exact congrArg done ((if_neg (ne_true_of_eq_false (idle s.cur List.mem_cons_self))).trans
    (by rw [show s.rest.findIdx? (fun t => t.st != .ended && ((awaitsAmo r t).isSome || (awaitsLoad r t).isSome || awaitsBlock t)) = none from others]))

end

theorem forwardCur_amo {s : State} {r : BitVec 4} {k : Nat} (v : Word) (h : awaitsAmo r s.cur = some k) :
    (forwardCur r v s).cur = { s.cur with amos := modIdx s.cur.amos k fun a => { a with ret := some v } } ∧ (forwardCur r v s).rest = s.rest ∧
      (forwardCur r v s).home = s.home := by
  unfold forwardCur
  rw [h]
  dsimp only
  unfold acted
  split
  · exact ⟨rfl, rfl, rfl⟩
  · exact ⟨rfl, rfl, rfl⟩

theorem forwardCur_load {s : State} {r : BitVec 4} {k : Nat} (v : Word) (ha : awaitsAmo r s.cur = none) (h : awaitsLoad r s.cur = some k) :
    forwardCur r v s = ({ s with cur := dropLoad k s.cur } : State).setW r v := by
  unfold forwardCur
  rw [ha, h]
  rfl

/-! ### Spares and retirement (R414 to R416) -/

theorem coreSpareSwap_none {s : State} (h : s.tile.spareCore = true ∨ quiet s = false) : exec .coreSpareSwap s = .next s := by
  refine congrArg done (if_pos ?_)
  rw [Bool.or_eq_true, Bool.not_eq_true']
  exact h

theorem coreSpareSwap_eq {s : State} (hs : s.tile.spareCore = false) (hq : quiet s = true) : coreSpareSwap s =
    ((chargeOpen 0 (if s.core.preempt then s else restoreCore (stopTasks (withdrawMrot s)))).onTile fun t => { t with spareCore := true }).onHost
      fun h => { h with replReq := true } := by
  refine if_neg ?_
  rw [hs, hq]
  exact Bool.false_ne_true

theorem endTasks_none {s : State} (h : s.cur.st = .ended) (hr : s.rest = []) : endTasks s = s := by
  unfold endTasks
  rw [h, beq_self_eq_true, if_pos rfl]
  dsimp only
  rw [hr]
  rfl

/-- R416: a tile on which nothing runs retires. -/
theorem tileRetire_idle {s : State} (hs : s.tile.spareCore = true) (hr : s.tile.retired = false) (hc : s.cur.st = .ended) (ho : s.rest = [])
    (hl : s.launch.live = false) (hv : s.saved = []) : exec .tileRetire s = .next { s with
      tile := emptyTile s.tile, host := { s.host with retiredTiles := s.host.retiredTiles ++ [s.tileId], replReq := true } } := by
  have due : (!s.tile.spareCore || s.tile.retired) = false := by
    rw [hs, hr]
    rfl
  show done (tileRetire s) = _
  unfold tileRetire
  have unsaved : retireSaved s.saved s = s := by
    rw [hv]
    rfl
  rw [due, if_neg Bool.false_ne_true, unsaved]
  unfold retireWork
  dsimp only
  rw [hl, if_neg Bool.false_ne_true, endTasks_none hc ho]
  rfl

theorem tileRetire_none {s : State} (h : s.tile.spareCore = false ∨ s.tile.retired = true) : exec .tileRetire s = .next s := by
  refine congrArg done (if_pos ?_)
  rw [Bool.or_eq_true, Bool.not_eq_true']
  exact h

/-! ### UNASSIGNED_ENCODING (R90) -/

theorem unassigned_known {s : State} {w : IWord} {i : Instr} (h : decode w = .ok i) : exec (.unassignedEncoding w) s = .next s := by
  show execUnassignedEncoding w s = _
  unfold execUnassignedEncoding
  rw [h]
  rfl

theorem unassigned_traps {s : State} {w : IWord} (h : ∀ i, decode w ≠ .ok i) :
    exec (.unassignedEncoding w) s = .next (takeTrap 0x01 0 false (w.setWidth 64) s) := by
  show execUnassignedEncoding w s = _
  unfold execUnassignedEncoding
  cases hd : decode w with
  | ok i => exact absurd hd (h i)
  | error e => rfl

namespace Settled

/-- Settles O58: errors, redelivery, pairs, spares and retirement. -/
theorem errorSteps : Obligations.ErrorSteps := by
  intro s
  refine ⟨fun hw hf hsh hst hk => ?_, fun hw hf hsh hst hk => ?_, twatch_off _, fun m => timeout_ends, errorConsumed_none, errorConsumed_saved,
    fun e he h1 h2 hr hsh => ⟨fun h => ?_, fun hesc hre => ?_⟩, fun e hr he hst hs hh => ?_, fun vec r hst hsh => ⟨fun h => ?_, fun h he => ?_⟩,
    fun f r e => ⟨produces_general f r e, produces_vector f r e⟩, ⟨rfl, fun pa => ⟨rfl, fun h => ?_, fun h => ?_⟩⟩, pairQueue_empty,
    fun x l hq hst hsh hx => ⟨?_, fun he => ⟨fun h hne => ?_, fun hf hp => ?_⟩⟩, pairTimeout_still, fun r v => forward_primary r v,
    fun r v hs => ⟨forward_register hs, fun k hst ha => ?_, fun k hst ha hl => ?_⟩, fun hs hq hp => ?_, fun hs hq hp hmx ho hm => ?_,
    coreSpareSwap_none, rfl, ?_, tileRetire_idle, tileRetire_none, fun w => ⟨fun ⟨i, hi⟩ => unassigned_known hi, unassigned_traps⟩⟩
  · rw [twatch_stalls hw hf hsh hst, stallTask_leaves _ hst hk]
  · rw [twatch_stalls hw hf hsh hst, stallTask_keeps _ hst hk]
  · have last : (!s.cur.esc && decide (s.cur.redel < 2)) = false := by
      rcases h with h | h
      · rw [h]
        rfl
      · rw [decide_eq_false (Nat.not_lt.2 h)]
        exact Bool.and_false _
    exact ⟨_, (errorConsumed_eq he h1 h2 hr hsh).trans (congrArg _ (if_neg (ne_true_of_eq_false last))), endOnError_ends e _⟩
  · have again : (!s.cur.esc && decide (s.cur.redel < 2)) = true := by
      rw [hesc, decide_eq_true hre]
      rfl
    obtain ⟨n, a, hcur⟩ := dropWork_cur s
    refine ⟨_, (errorConsumed_eq he h1 h2 hr hsh).trans (congrArg _ (if_pos again)), ?_⟩
    rw [hcur]
    exact ⟨rfl, rfl, rfl, rfl, rfl, rfl, he, rfl, rfl, dropWork_rest⟩
  · obtain ⟨hcur, hrest⟩ := errorEntry_tile 2 s.cur e { s with cur := restart s.cur }
    have told := redelivery_restarts hr he hst hs hh
    generalize errorEntry 2 s.cur e { s with cur := restart s.cur } = z at *
    have kept : (redelivery s).cur = restart s.cur ∧ (redelivery s).rest = s.rest := by
      rw [told]
      split
      · exact ⟨hcur, hrest⟩
      · exact ⟨hcur, hrest⟩
    refine ⟨_, rfl, ?_⟩
    rw [kept.1, kept.2]
    refine ⟨rfl, rfl, rfl, rfl, rfl, rfl, rfl, rfl, rfl, rfl, rfl, rfl, rfl, fun h => ?_⟩
    rw [told, if_pos (beq_iff_eq.2 h)]
    rfl
  · obtain ⟨m, f, hz⟩ := chargeOpen_frame 0 s
    exact ⟨_, congrArg done ((parityReplay_again h).trans hz), rfl, rfl, rfl⟩
  · exact ⟨_, _, congrArg done (parityReplay_lost hst hsh h he), rfl, rfl, rfl⟩
  · exact congrArg (fun l => done { s with home := { s.home with poison := l } }) (addMark_new h)
  · exact congrArg (fun l => done { s with home := { s.home with poison := l } }) (addMark_known h)
  · exact ⟨_, (pairHashCompare_head hq x.hash).trans (congrArg _ ((if_pos (beq_self_eq_true _)).trans (matched_cur hq hst hsh hx))), rfl, rfl, rfl, rfl, rfl⟩
  · exact ⟨_, (pairHashCompare_head hq h).trans (congrArg _ (if_neg (mt eq_of_beq hne))), mismatched hq hst hsh hx he⟩
  · refine ⟨_, (pairTimeout_head hq).trans (congrArg _ (if_neg ?_)), mismatched hq hst hsh hx he⟩
    rw [hf, hp]
    exact Bool.false_ne_true
  · have awaited : s.cur.awaits r = true := by
      unfold Task.awaits
      rw [ha, bne_iff_ne.2 hst]
      rfl
    exact ⟨_, forward_taken hs awaited, forwardCur_amo v ha⟩
  · have awaited : s.cur.awaits r = true := by
      unfold Task.awaits
      rw [ha, hl, bne_iff_ne.2 hst]
      rfl
    exact (forward_taken hs awaited).trans (congrArg _ (forwardCur_load v ha hl))
  · obtain ⟨m, f, hz⟩ := chargeOpen_frame 0 s
    refine ⟨_, congrArg done (coreSpareSwap_eq hs hq), ?_⟩
    rw [hp, if_pos rfl, hz]
    exact ⟨rfl, rfl, rfl, rfl, rfl, rfl⟩
  · have unsaved : (stopTasks s).core.mxSaved = none := (congrArg CoreSt.mxSaved (saveMx_free (c := { s.core with runs := s.core.runs.filter fun r => r.rel.isNone }) ho)).trans hm
    obtain ⟨m, f, hz⟩ := chargeOpen_frame 0 (restoreCore (stopTasks s))
    intro z
    refine ⟨_, congrArg done (coreSpareSwap_eq hs hq), ?_⟩
    rw [hp, if_neg Bool.false_ne_true, withdraw_nil hmx, hz, restoreCore_plain unsaved]
    exact ⟨rfl, rfl, rfl, rfl, rfl, rfl⟩
  · exact ⟨_, _, _, rfl, Nat.mod_lt _ (by decide), rfl, rfl, rfl, rfl, rfl⟩

end Settled

end Sys2Proof.Machine
end

section
/-! The debugger's commands, break bits, match handlers and samples (R419 to R427), O59 and O60. -/

namespace Sys2Proof.Machine

/-! ### Commands (R424 to R426) -/

section
variable {s : State} {v : BitVec 6}

theorem dbgHalt_none (h : cmdOf s 1 = none) : exec .dbgHalt s = .next s := by
  show done (dbgHalt s) = _
  unfold dbgHalt
  rw [h]
  rfl

theorem dbgHalt_some (h : cmdOf s 1 = some v) : exec .dbgHalt s = .next (cmdDone v
    (if inPartitionOf s v (cmdTile s v) = false then s else if haltsHere s (cmdTile s v) then haltTile s
      else s.onTile fun t => { t with frozen := true })) := by
  show done (dbgHalt s) = _
  unfold dbgHalt
  rw [h]
  dsimp only
  cases inPartitionOf s v (cmdTile s v) <;> rfl

theorem dbgResume_none (h : cmdOf s 2 = none) : exec .dbgResume s = .next s := by
  show done (dbgResume s) = _
  unfold dbgResume
  rw [h]
  rfl

theorem dbgResume_some (h : cmdOf s 2 = some v) : exec .dbgResume s = .next (cmdDone v
    (if inPartitionOf s v (cmdTile s v) = false then s else if haltsHere s (cmdTile s v) then resumeTile s
      else s.onTile fun t => { t with frozen := t.halted })) := by
  show done (dbgResume s) = _
  unfold dbgResume
  rw [h]
  dsimp only
  cases inPartitionOf s v (cmdTile s v) <;> rfl

theorem dbgStep_none (h : cmdOf s 3 = none) : exec .dbgStep s = .next s := by
  show done (dbgStep s) = _
  unfold dbgStep
  rw [h]
  rfl

theorem dbgStep_some (h : cmdOf s 3 = some v) : exec .dbgStep s = .next
    (if cmdCore s v == s.core.id && s.tile.halted then (unstopAll s).onCore fun c => { c with dbgStep := true } else cmdDone v s) := by
  show done (dbgStep s) = _
  unfold dbgStep
  rw [h]
  rfl

theorem dbgSync_none (h : cmdOf s 4 = none) : exec .dbgSync s = .next s := by
  show execDbgSync s = _
  unfold execDbgSync
  rw [h]
  rfl

theorem dbgSync_some (h : cmdOf s 4 = some v) : exec .dbgSync s = .next (cmdDone v (dropLines v s)) := by
  show execDbgSync s = _
  unfold execDbgSync
  rw [h]
  rfl

end

theorem dropLines_own {s : State} {v : BitVec 6} (h : s.core.vf = v) : dropLines v s = { s with core := { s.core with brkLines := [] } } :=
  if_pos (beq_iff_eq.2 h)

theorem dropLines_other {s : State} {v : BitVec 6} (h : s.core.vf ≠ v) : dropLines v s = s := if_neg (mt eq_of_beq h)

namespace Settled

/-- Settles O59: each command completes, and does what it names. -/
theorem debugCommands : Obligations.DebugCommands := by
  intro s
  refine ⟨dbgHalt_none, fun v hv => ⟨fun hp => ?_, fun hp hh => ?_, fun hp hh => ?_⟩, dbgResume_none, fun v hv => ⟨fun hp => ?_, fun hp hh => ?_,
    fun hp hh => ?_⟩, dbgStep_none, fun v hv => ⟨fun hc hh => ?_, fun h => ?_⟩, dbgSync_none, fun v hv => ⟨fun h => ?_, fun h => ?_⟩,
    fun v u => ⟨setVf_get .., fun w hw => setVf_other hw ..⟩, fun t => ⟨fun h => if_neg (ne_true_of_eq_false h), fun h => if_pos h⟩⟩
  · rw [dbgHalt_some hv, if_pos hp]
  · rw [dbgHalt_some hv, if_neg (ne_false_of_eq_true hp), if_pos hh]
    rfl
  · rw [dbgHalt_some hv, if_neg (ne_false_of_eq_true hp), if_neg (ne_true_of_eq_false hh)]
    rfl
  · rw [dbgResume_some hv, if_pos hp]
  · rw [dbgResume_some hv, if_neg (ne_false_of_eq_true hp), if_pos hh]
    rfl
  · rw [dbgResume_some hv, if_neg (ne_false_of_eq_true hp), if_neg (ne_true_of_eq_false hh)]
    rfl
  · rw [dbgStep_some hv, hc, hh, beq_self_eq_true]
    rfl
  · rw [dbgStep_some hv, if_neg]
    rw [Bool.and_eq_true, beq_iff_eq]
    exact fun both => h.elim (fun h => h both.1) fun h => absurd (both.2.symm.trans h) (by decide)
  · rw [dbgSync_some hv, dropLines_own h]
  · rw [dbgSync_some hv, dropLines_other h]

end Settled

/-! ### Break bits and match handlers (R419 to R423) -/

theorem breakStop_none {s : State} (h : brkHits s = false) : exec .breakBitStop s = .next s := by
  refine congrArg done (if_pos ?_)
  rw [h]
  rfl

theorem breakStop_hits {s : State} (h : brkHits s = true) :
    exec .breakBitStop s = .next (if brkTask s then takeTrap cBREAKI 0 false s.cur.pcW s else stopTask true s) := by
  refine congrArg done (if_neg ?_)
  rw [h]
  exact Bool.false_ne_true

theorem pcMatch_starts {s u : State} {m : Fin 16} {e : Word} (hm : pcMatch s = some m) (he : matchEntry m s = .ok (e, u)) :
    exec .pcMatchHandler s = .next (startShadow m e u) := by
  show execPcMatchHandler s = _
  unfold execPcMatchHandler
  rw [hm]
  dsimp only
  rw [he]
  rfl

theorem pcMatch_none {s : State} (hm : pcMatch s = none) : exec .pcMatchHandler s = .next s := by
  show execPcMatchHandler s = _
  unfold execPcMatchHandler
  rw [hm]
  rfl

/-- R422: what the handler finds in its registers. -/
theorem startShadow_regs (m : Fin 16) (e : Word) (u : State) : (startShadow m e u).cur.w[1] = u.cur.tid ∧
    (startShadow m e u).cur.w[2] = u.cur.pc.setWidth 64 ∧ (startShadow m e u).cur.w[3] = u.cur.wp.setWidth 64 ∧
    (startShadow m e u).cur.w[4] = BitVec.ofNat 64 m.val := by
  show (((((u.core.shW.set 1 u.cur.tid).set 2 u.cur.pcW).set 3 (u.cur.wp.setWidth 64)).set 4 (BitVec.ofNat 64 m.val)))[1] = _ ∧
    (((((u.core.shW.set 1 u.cur.tid).set 2 u.cur.pcW).set 3 (u.cur.wp.setWidth 64)).set 4 (BitVec.ofNat 64 m.val)))[2] = _ ∧
    (((((u.core.shW.set 1 u.cur.tid).set 2 u.cur.pcW).set 3 (u.cur.wp.setWidth 64)).set 4 (BitVec.ofNat 64 m.val)))[3] = _ ∧
    (((((u.core.shW.set 1 u.cur.tid).set 2 u.cur.pcW).set 3 (u.cur.wp.setWidth 64)).set 4 (BitVec.ofNat 64 m.val)))[4] = _
  simp [Task.pcW]

theorem shadowTimeout_none {s : State} (h : s.cur.shadow = false) (hr : ∀ t ∈ s.rest, t.shadow = false) : exec .shadowTimeout s = .next s := by
  have none : (s.rest.findIdx? fun t => t.shadow && t.st != .ended) = none := List.findIdx?_eq_none_iff.2 fun t ht => by
    rw [hr t ht]
    rfl
  show done (shadowTimeout s) = _
  unfold shadowTimeout
  rw [h, if_neg Bool.false_ne_true, none]
  rfl

theorem shadowTimeout_cur {s : State} (h : s.cur.shadow = true) (he : s.cur.st ≠ .ended) : exec .shadowTimeout s = .next (shadowAbandon s) :=
  congrArg done ((if_pos h).trans (if_neg (mt eq_of_beq he)))

/-- R423: the task that waited for the handler goes on past its match point. -/
theorem shadowLeave_one {s : State} {t : Task} (hr : s.rest = [t]) (hw : t.wait = some .shadow) : shadowLeave s = { s with
    cur := { s.cur with st := .ended }, rest := [{ t with wait := none, pcmSkip := true, st := .ready }],
    core := { s.core with shW := s.cur.w, shMatch := none } } := by
  have waits : (t.wait == some Wait.shadow) = true := beq_iff_eq.2 hw
  unfold shadowLeave
  rw [hr, List.find?_cons, waits]
  dsimp only
  rw [List.map_cons, List.map_nil, waits, if_pos rfl]

theorem shadowAbandon_one {s : State} {m : Fin 16} {t : Task} (hm : s.core.shMatch = some m) (hr : s.rest = [t]) (hw : t.wait = some .shadow) :
    (shadowAbandon s).cur.st = .ended ∧ (shadowAbandon s).rest = [{ t with wait := none, pcmSkip := true, st := .ready }] ∧
      (shadowAbandon s).core.pcmEn = s.core.pcmEn &&& ~~~(1#16 <<< m.val) ∧ (shadowAbandon s).core.shW = s.cur.w ∧
      (shadowAbandon s).core.shMatch = none := by
  unfold shadowAbandon
  dsimp only
  rw [hm]
  generalize errEntryBytes _ _ _ _ _ _ _ _ = bs
  obtain ⟨hcur, hcore, -⟩ := errEntry_out bs s
  rw [shadowLeave_one ((errEntry_frame bs s).2.trans hr) hw]
  exact ⟨rfl, rfl, (congrArg (fun c : CoreSt => c.pcmEn &&& ~~~(1#16 <<< m.val)) hcore :), congrArg Task.w hcur, rfl⟩

namespace Settled

/-- Settles O60: break bits, match handlers, their timeout, and samples. -/
theorem debugEvents : Obligations.DebugEvents := by
  intro s
  refine ⟨fun h hb => ?_, fun h hb => ?_, breakStop_none, fun m e u hm he => ?_, pcMatch_none,
    fun m t0 hsh hst hm hr hw => ⟨_, shadowTimeout_cur hsh hst, shadowAbandon_one hm hr hw⟩, shadowTimeout_none,
    fun h => congrArg done (if_pos h), fun h hst => ?_, fun h hst => ?_⟩
  · rw [breakStop_hits h, if_neg (ne_true_of_eq_false hb)]
    rfl
  · rw [breakStop_hits h, if_pos hb]
    rfl
  · obtain ⟨h1, h2, h3, h4⟩ := startShadow_regs m e u
    exact ⟨_, pcMatch_starts hm he, rfl, rfl, rfl, rfl, h1, h2, h3, h4, rfl, rfl⟩
  · exact congrArg done ((if_neg h).trans (if_pos (beq_iff_eq.2 hst)))
  · exact congrArg done ((if_neg h).trans (if_neg (mt eq_of_beq hst)))

end Settled

end Sys2Proof.Machine
end

section
/-! The memories stay in canonical form: what each instruction does (O3). A lemma for each function of the model that makes a state of one;
its proof cites the lemmas of the functions it calls. -/

namespace Sys2Proof.Machine

/-- The state that a result leaves, at its end or where it stops, has its memories in canonical form. -/
def keepsMem (r : Res State) : Prop := (∀ t, r = .ok t → t.memOk = true) ∧ ∀ x, r = .error x → x.state.memOk = true

theorem keepsMem_ok {t : State} (h : t.memOk = true) : keepsMem (.ok t) :=
  ⟨fun _ e => by cases e; exact h, fun _ e => by cases e⟩

theorem keepsMem_error {x : Stop} (h : x.state.memOk = true) : keepsMem (.error x) :=
  ⟨fun _ e => (by cases e), fun _ e => by cases e; exact h⟩

/-- A result of an instruction that takes its operands back keeps the memories. -/
theorem keepsMem_back {r : Res State} {s : State} (h : keepsMem r) : keepsMem (r.mapError fun x => x.back s) := by
  cases r with
  | ok t => exact keepsMem_ok (h.1 t rfl)
  | error x => exact keepsMem_error (back_mem (h.2 x rfl))

theorem keepsMem_of {r : Res State} (ok : ∀ t, r = .ok t → t.memOk = true) (er : ∀ x, r = .error x → x.state.memOk = true) : keepsMem r :=
  ⟨ok, er⟩

theorem getD_mem {o : Option State} {s : State} (hs : s.memOk = true) (h : ∀ t, o = some t → t.memOk = true) : (o.getD s).memOk = true := by
  cases o with
  | none => exact hs
  | some t => exact h t rfl

theorem saveMx_tcm (c : CoreSt) : (saveMx c).tcm = c.tcm := (saveMx_frame c).1

section
variable {s t s0 : State} {x : Stop} (hs : s.memOk = true)
include hs

/-! ### Register arithmetic -/

theorem rrr_keeps (c : Charge) (f : Word → Word → Word) (fa fb fc : Fld) : keepsMem (rrr c f fa fb fc s) := by
  unfold rrr
  grind [advance_mem, charge_mem, writeS_mem, → takeS_err, → takeS_mem, keepsMem_ok, keepsMem_error]

theorem rr_keeps (c : Charge) (f : Word → Word) (fa fb : Fld) : keepsMem (rr c f fa fb s) := by
  unfold rr
  grind [advance_mem, charge_mem, writeS_mem, → takeS_err, → takeS_mem, keepsMem_ok, keepsMem_error]

theorem rzero_keeps (f : State → Word) (a : Fld) : keepsMem (rzero f a s) := by
  unfold rzero
  grind [advance_mem, charge_mem, writeS_mem, → takeS_err, → takeS_mem, keepsMem_ok, keepsMem_error]

/-! ### MIGRATE -/

theorem migrateTo_keeps (dest : Option (BitVec 13)) (pc : BitVec 56) : keepsMem (migrateTo dest pc s) :=
  keepsMem_of (fun _ => migrateTo_mem _ _ hs) fun _ => migrateTo_err _ _ hs

/-! ### Shared memory -/

theorem privCheck_err (ok : Bool) (i : Instr) (h : privCheck ok i s = .error x) : x.state.memOk = true := by
  unfold privCheck at h
  grind [trapR, Stop.state]

theorem needScope_err (p : BitVec 3) (i : Instr) (h : needScope p i s = .error x) : x.state.memOk = true := by
  unfold needScope at h
  grind [→ privCheck_err]

theorem checkEa_err (ea : Int) (n : Nat) (h : checkEa ea n s = .error x) : x.state.memOk = true := by
  unfold checkEa at h
  grind [trapR, Stop.state]

theorem sharedAddr_mem (acc : Access) (ea : Int) (n : Nat) (p : BitVec 3) {y0 y1} (h : sharedAddr acc ea n p s = .ok (y0, y1, t)) :
    t.memOk = true := by
  unfold sharedAddr at h
  grind [trapR, → translate_mem]

theorem sharedAddr_err (acc : Access) (ea : Int) (n : Nat) (p : BitVec 3) (h : sharedAddr acc ea n p s = .error x) :
    x.state.memOk = true := by
  unfold sharedAddr at h
  grind [trapR, → checkEa_err, → translate_err, → translate_mem, Stop.state]

theorem loadAt_keeps (sext na : Bool) (a : Fld) (pa n : Nat) (p : BitVec 3) : keepsMem (loadAt sext na a pa n p s) := by
  unfold loadAt
  grind [advance_mem, chargeAccess_mem, charge_mem, free_mem, onCore_mem, onCur_mem, unitBusy, writeS_mem, memOk_home, memOk_tcm,
    memOk_saved, Stop.state, keepsMem_ok, keepsMem_error]

theorem loadShared_keeps (sext : Bool) (i : Instr) (a b : Fld) (sz : BitVec 2) (p : BitVec 3) (na : Bool) (o : BitVec 10) :
    keepsMem (loadShared sext i a b sz p na o s) := by
  unfold loadShared
  split
  · next e => exact keepsMem_error (needScope_err hs _ _ e)
  split
  · next e => exact keepsMem_error (takeS_err _ _ hs e)
  · next e =>
    have h1 := takeS_mem _ _ hs e
    dsimp only
    split
    · exact keepsMem_error h1
    split
    · next e => exact keepsMem_error (sealReady_err h1 e)
    split
    · next e => exact keepsMem_error (sharedAddr_err h1 _ _ _ _ e)
    · next e =>
      have h2 := sharedAddr_mem h1 _ _ _ _ e
      split
      · exact migrateTo_keeps h2 ..
      · exact loadAt_keeps h2 ..
  · next e => exact keepsMem_ok (takeS_mem _ _ hs e)

theorem storeShared_keeps (i : Instr) (a b : Fld) (sz : BitVec 2) (p : BitVec 3) (o : BitVec 10) : keepsMem (storeShared i a b sz p o s)
    := by
  unfold storeShared
  split
  · next e => exact keepsMem_error (needScope_err hs _ _ e)
  split
  · next e => exact keepsMem_error (takeS_err _ _ hs e)
  · next e =>
    have h1 := takeS_mem _ _ hs e
    dsimp only
    split
    · next e => exact keepsMem_error (back_mem (sharedAddr_err h1 _ _ _ _ e))
    · next e =>
      have h2 := sharedAddr_mem h1 _ _ _ _ e
      split
      · exact keepsMem_back (migrateTo_keeps h2 ..)
      split
      · next e => exact keepsMem_error (back_mem (appendRec_err _ _ _ _ (chargeOnce_mem _ h2) e))
      · next e => exact keepsMem_ok (advance_mem (appendRec_mem _ _ _ _ (chargeOnce_mem _ h2) e))
  · next e => exact keepsMem_ok (takeS_mem _ _ hs e)

theorem amoIssue_mem (a : Fld) (r : AmoReq) (aq : Bool) (after : Option Nat) : (amoIssue a r aq after s).memOk = true := hs

theorem amo_keeps (i : Instr) (a b c : Fld) (op : BitVec 4) (p : BitVec 3) (s32 rl aq : Bool) : keepsMem (amo i a b c op p s32 rl aq s) :=
    by
  unfold amo
  split
  · next e => exact keepsMem_error (needScope_err hs _ _ e)
  split
  · next e => exact keepsMem_error (takeS_err _ _ hs e)
  · next e =>
    have h1 := takeS_mem _ _ hs e
    dsimp only
    split
    · next e => exact keepsMem_error (back_mem (sharedAddr_err h1 _ _ _ _ e))
    · next pa tlb s1 e =>
      have h2 := sharedAddr_mem h1 _ _ _ _ e
      have h3 : (if s1.cur.paid then s1 else chargeAccess pa (if s32 then 4 else 8) (chargeOnce .amo s1)).memOk = true := by
        split
        · exact h2
        · exact chargeAccess_mem _ _ (chargeOnce_mem _ h2)
      split
      · exact keepsMem_back (migrateTo_keeps h2 ..)
      split
      · split
        · next e => exact keepsMem_error (back_mem (sealRelease_err _ h3 e))
        · next e => exact keepsMem_ok (amoIssue_mem (pairCur_mem _ _ (sealRelease_mem _ h3 e)) ..)
      · exact keepsMem_ok (amoIssue_mem (pairCur_mem _ _ (escapeCur_mem h3)) ..)
  · next e => exact keepsMem_ok (takeS_mem _ _ hs e)

/-! ### Publishing, acquiring, fences and barriers -/

theorem needRegs_err (fs : List Fld) (h : needRegs fs s = .error x) : x.state.memOk = true := by
  unfold needRegs at h
  grind [Stop.state]

theorem rel_keeps (i : Instr) (p : BitVec 3) : keepsMem (rel i p s) := by
  unfold rel
  grind [advance_mem, chargeOnce_mem, → needScope_err, → sealRelease_err, → sealRelease_mem, keepsMem_ok, keepsMem_error]

theorem acqGo_keeps (cs : List (BitVec 13)) (own lines : List Nat) : keepsMem (acqGo cs own lines s) := by
  unfold acqGo
  grind [advance_mem, onCore_mem, memOk_home, memOk_tcm, memOk_saved, Stop.state, keepsMem_ok, keepsMem_error]

theorem acqSet_keeps (i : Instr) (p : BitVec 3) {cores : State → Res (List (BitVec 13))}
    (hc : ∀ z, z.memOk = true → ∀ x, cores z = .error x → x.state.memOk = true) : keepsMem (acqSet i p cores s) := by
  unfold acqSet
  split
  · next e => exact keepsMem_error (needScope_err hs _ _ e)
  split
  · exact acqGo_keeps hs ..
  split
  · next e => exact keepsMem_error (hc s hs _ e)
  · have h1 := chargeOnce_mem .ord hs
    refine acqGo_keeps (placeMark_mem (s := (chargeOnce .ord s).onHome _) ?_) ..
    exact h1

theorem readWords_err (a : ℕ) (n : ℕ) (h : readWords s a n = .error x) : x.state.memOk = true := by
  induction n generalizing a x with
  | zero => cases h
  | succ n ih =>
    unfold readWords at h
    split at h
    · next e => cases h; exact tcmRead_err _ _ hs e
    split at h
    · next e => cases h; exact ih _ e
    · cases h

theorem acqBitmap_err (b c : Fld) (h : acqBitmap b c s = .error x) : x.state.memOk = true := by
  unfold acqBitmap at h
  grind [trapR, → needRegs_err, → readWords_err, Stop.state]

theorem wantSweep_mem : (wantSweep s).memOk = true := hs

theorem acqBelowGo_keeps (n : Nat) (ask : Bool) : keepsMem (acqBelowGo n ask s) := by
  unfold acqBelowGo
  grind [advance_mem, onCore_mem, wantSweep_mem, memOk_home, memOk_tcm, memOk_saved, Stop.state, keepsMem_ok, keepsMem_error]

theorem acqBelow_keeps (i : Instr) (b : Fld) (p : BitVec 3) : keepsMem (acqBelow i b p s) := by
  unfold acqBelow
  grind [acqBelowGo_keeps, chargeOnce_mem, placeMark_mem, → needRegs_err, → needScope_err, keepsMem_error]

theorem fenceEnd_mem (d : Fld) (noflag : Bool) : (fenceEnd d noflag s).memOk = true := by
  unfold fenceEnd
  grind [advance_mem, onCur_mem, onTile_mem, writeS_mem]

theorem flagAddr_mem (b : Fld) (scope : BitVec 3) {y0} (h : flagAddr b scope s = .ok (y0, t)) : t.memOk = true := by
  unfold flagAddr at h
  grind [trapR, → translateAt_mem]

theorem flagAddr_err (b : Fld) (scope : BitVec 3) (h : flagAddr b scope s = .error x) : x.state.memOk = true := by
  unfold flagAddr at h
  grind [trapR, → translateAt_err, Stop.state]

theorem fenceWait_keeps (d : Fld) (flag : Option (Nat × Word)) (seg : Nat) : keepsMem (fenceWait d flag seg s) := by
  unfold fenceWait
  grind [fenceEnd_mem, pairCur_mem, Stop.state, keepsMem_ok, keepsMem_error]

theorem flagOf_mem (f : Option (Fld × Fld)) (p : BitVec 3) (vs : List Word) {y0} (h : flagOf f p vs s = .ok (y0, t)) : t.memOk = true := by
  unfold flagOf at h
  grind [→ flagAddr_mem]

theorem flagOf_err (f : Option (Fld × Fld)) (p : BitVec 3) (vs : List Word) (h : flagOf f p vs s = .error x) : x.state.memOk = true := by
  unfold flagOf at h
  grind [→ flagAddr_err]

theorem fence_keeps (i : Instr) (d : Fld) (p : BitVec 3) (f : Option (Fld × Fld)) : keepsMem (fence i d p f s) := by
  unfold fence
  split
  · next e => exact keepsMem_error (needScope_err hs _ _ e)
  dsimp only
  split
  · next e => exact keepsMem_error (needRegs_err hs _ e)
  split
  · next e => exact keepsMem_error (takeS_err _ _ hs e)
  · next vs s1 e =>
    have h1 := takeS_mem _ _ hs e
    split
    · exact keepsMem_back (fenceWait_keeps h1 ..)
    · exact keepsMem_ok (advance_mem (writeS_mem _ _ h1))
    · exact keepsMem_error (back_mem h1)
    split
    · next e => exact keepsMem_error (back_mem (flagOf_err h1 _ _ _ e))
    · next flag s2 e =>
      have h2 := flagOf_mem h1 _ _ _ e
      split
      · next e => exact keepsMem_error (back_mem (sealRelease_err _ (chargeOnce_mem _ h2) e))
      · next e => exact keepsMem_back (fenceWait_keeps (sealRelease_mem _ (chargeOnce_mem _ h2) e) ..)

theorem qfenceEnd_mem (mask : Word) : (qfenceEnd mask s).memOk = true := hs

theorem qfenceGo_keeps (mask : Word) : keepsMem (qfenceGo mask s) := by
  unfold qfenceGo
  grind [advance_mem, qfenceEnd_mem, Stop.state, keepsMem_ok, keepsMem_error]

theorem qfence_keeps (b : Fld) : keepsMem (qfence b s) := by
  unfold qfence
  grind [chargeOnce_mem, placeMark_mem, qfenceGo_keeps, → needRegs_err, keepsMem_error]

theorem setBar_mem (n : BitVec 6) (b : Bar) : (State.setBar s n b).memOk = true := hs

theorem binit_keeps (b : Fld) (n : BitVec 6) : keepsMem (binit b n s) := by
  unfold binit
  grind [advance_mem, barTrap, charge_mem, setBar_mem, trapR, → needRegs_err, Stop.state, keepsMem_ok, keepsMem_error]

theorem barrive_keeps (i : Instr) (a : Fld) (n : BitVec 6) (rl : Bool) : keepsMem (barrive i a n rl s) := by
  unfold barrive
  grind [advance_mem, barTrap, chargeOnce_mem, onCur_mem, trapR, → needRegs_err, → privCheck_err, → sealRelease_err, → sealRelease_mem,
    Stop.state, keepsMem_ok, keepsMem_error]

theorem bwaitGo_keeps (n : BitVec 6) (p : BitVec 16) (aq : Bool) : keepsMem (bwaitGo n p aq s) := by
  unfold bwaitGo
  grind [advance_mem, onCore_mem, memOk_home, memOk_tcm, memOk_saved, Stop.state, keepsMem_ok, keepsMem_error]

theorem bwait_keeps (b : Fld) (n : BitVec 6) (aq : Bool) : keepsMem (bwait b n aq s) := by
  unfold bwait
  grind [barTrap, bwaitGo_keeps, chargeOnce_mem, trapR, → needRegs_err, Stop.state, keepsMem_error]

/-! ### Control registers -/

theorem writeLaunchReg_mem (n : BitVec 12) (w : Word) : (writeLaunchReg n w s).memOk = true := by
  unfold writeLaunchReg
  grind [onCur_mem, onHome_mem, putLaunchReg_mem, memOk_home, memOk_tcm, memOk_saved]

theorem csrPut_mem (n : BitVec 12) (w v : Word) (clears : Bool) : (csrPut n w v clears s).memOk = true := by
  unfold csrPut
  grind [onCore_mem, onCur_mem, onTile_mem, writeLaunchReg_mem, memOk_home, memOk_tcm, memOk_saved]

theorem tileRegWrite_mem (n : BitVec 12) (set clr : Word) : (tileRegWrite n set clr s).memOk = true := by
  unfold tileRegWrite
  grind [csrPut_mem]

theorem csrApply_mem (op : CsrOp) (n : BitVec 12) (old v : Word) : (csrApply op n old v s).memOk = true := by
  unfold csrApply
  grind [csrPut_mem, setHvy_mem]

theorem csrAccess_keeps (op : CsrOp) (i : Instr) (n : BitVec 12) (a b : Fld) : keepsMem (csrAccess op i n a b s) := by
  unfold csrAccess
  grind [advance_mem, charge_mem, csrApply_mem, unitBusy, writeS_mem, → privCheck_err, → takeS_err, → takeS_mem, Stop.state, keepsMem_ok,
    keepsMem_error]

/-! ### Messages, promises and reductions -/

theorem hold_mem (o : Held) : (hold o s).memOk = true := hs

theorem sendOp_mem (o : Held) (express : Bool) : (sendOp o express s).memOk = true := by
  unfold sendOp
  grind [hold_mem, onCur_mem, pushHeld_mem, releaseHeld_mem]

theorem sendPip_mem (sweep : Bool) (p : Nat) (l : OutLink) : (sendPip sweep p l s).memOk = true := by
  unfold sendPip
  repeat' split
  all_goals exact hs

theorem sendPips_mem (ls : List OutLink) : (sendPips ls s).memOk = true := by
  unfold sendPips
  grind [sendPip_mem, foldl_mem]

theorem promise_keeps (b : Fld) : keepsMem (promise b s) := by
  unfold promise
  grind [advance_mem, charge_mem, sendPips_mem, → needRegs_err, keepsMem_ok, keepsMem_error]

theorem checkHandler_err (w st : Word) (least : Nat) (h : checkHandler w st least s = .error x) : x.state.memOk = true := by
  unfold checkHandler at h
  grind [trapR, Stop.state]

theorem checkSend_err (d w st : Word) (h : checkSend d w st s = .error x) : x.state.memOk = true := by
  unfold checkSend at h
  grind [trapR, → checkHandler_err, Stop.state]

theorem send_keeps (a b c : Fld) (any express : Bool) : keepsMem (send a b c any express s) := by
  unfold send
  grind [advance_mem, charge_mem, onCur_mem, sendOp_mem, → checkSend_err, → needRegs_err, keepsMem_ok, keepsMem_error]

theorem readDesc_err (w : Word) (n : Nat) (h : readDesc w n s = .error x) : x.state.memOk = true := by
  unfold readDesc at h
  grind [trapR, → readWords_err, Stop.state]

theorem descPayload_err (w w3 w2 : Word) (h : descPayload w w3 w2 s = .error x) : x.state.memOk = true := by
  unfold descPayload at h
  grind [trapR, → readWords_err, Stop.state]

theorem sendm_keeps (b : Fld) (any express : Bool) : keepsMem (sendm b any express s) := by
  unfold sendm
  grind [advance_mem, charge_mem, sendOp_mem, → checkSend_err, → descPayload_err, → needRegs_err, → readDesc_err, keepsMem]

theorem sendc_keeps (a b : Fld) (express : Bool) : keepsMem (sendc a b express s) := by
  unfold sendc
  grind [State_ww_mem, advance_mem, charge_mem, sendOp_mem, trapR, → checkHandler_err, → descPayload_err, → needRegs_err, → readDesc_err,
    Stop.state, keepsMem]

theorem deposit_keeps (a b c : Fld) (express : Bool) : keepsMem (deposit a b c express s) := by
  unfold deposit
  grind [advance_mem, charge_mem, sendOp_mem, trapR, → needRegs_err, Stop.state, keepsMem_ok, keepsMem_error]

theorem pushEng_mem (q : Fin 16) (o : EngOp) : (pushEng q o s).memOk = true := hs

theorem takePart_mem (h : takePart s = .ok t) : t.memOk = true := by
  unfold takePart at h
  grind [onCur_mem, → sealRelease_mem]

theorem takePart_err (h : takePart s = .error x) : x.state.memOk = true := by
  unfold takePart at h
  grind [→ sealRelease_err]

theorem enqueue_mem (q : Fin 16) (k : EngKind) (xid : Word) (handler : BitVec 56) (h : enqueue q k xid handler s = .ok t) :
    t.memOk = true := by
  unfold enqueue at h
  grind [pushEng_mem, → takePart_mem]

theorem enqueue_err (q : Fin 16) (k : EngKind) (xid : Word) (handler : BitVec 56) (h : enqueue q k xid handler s = .error x) :
    x.state.memOk = true := by
  unfold enqueue at h
  grind [→ takePart_err]

theorem pairEngine_mem (bs : List Byte) : (pairEngine bs s).memOk = true := by
  unfold pairEngine
  grind [pairCur_mem]

theorem enqueueOp_mem (q : Fin 16) (k : EngKind) (xid : Word) (handler : BitVec 56) (bs : List Byte) (h : enqueueOp q k xid handler bs s =
    .ok t) : t.memOk = true := by
  unfold enqueueOp at h
  grind [pairEngine_mem, → enqueue_mem]

theorem enqueueOp_err (q : Fin 16) (k : EngKind) (xid : Word) (handler : BitVec 56) (bs : List Byte) (h : enqueueOp q k xid handler bs s =
    .error x) : x.state.memOk = true := by
  unfold enqueueOp at h
  grind [→ enqueue_err]

theorem nred_keeps (a b c : Fld) (s32 : Bool) (op : BitVec 3) : keepsMem (nred a b c s32 op s) := by
  unfold nred
  grind [advance_mem, chargeOnce_mem, errCount_mem, → enqueueOp_err, → enqueueOp_mem, → needRegs_err, keepsMem_ok, keepsMem_error]

theorem nrwaitGo_keeps (a : Fld) (tag : BitVec 16) (st : Bool) : keepsMem (nrwaitGo a tag st s) := by
  unfold nrwaitGo
  grind [State_ww_mem, advance_mem, Stop.state, keepsMem_ok, keepsMem_error]

theorem nrwait_keeps (a b : Fld) (st : Bool) : keepsMem (nrwait a b st s) := by
  unfold nrwait
  grind [chargeOnce_mem, nrwaitGo_keeps, → needRegs_err, keepsMem_error]

/-! ### Task instructions -/

theorem endT_keeps : keepsMem (endT s) := by
  unfold endT
  grind [chargeOnce_mem, endCur_mem, releaseHeld_mem, sealNow_mem, shadowLeave_mem, trapR, Stop.state, keepsMem_ok, keepsMem_error]

theorem waitEnd_mem (a : Fld) (ev : Word) : (waitEnd a ev s).memOk = true := by
  unfold waitEnd
  repeat' split
  all_goals exact hs

theorem waitGo_keeps (a : Fld) (m : BitVec 8) (timed gone : Bool) : keepsMem (waitGo a m timed gone s) := by
  unfold waitGo
  grind [waitEnd_mem, Stop.state, keepsMem_ok, keepsMem_error]

theorem waitT_keeps (a b c : Fld) : keepsMem (waitT a b c s) := by
  unfold waitT
  grind [chargeOnce_mem, trapR, waitGo_keeps, → needRegs_err, Stop.state, keepsMem_error]

theorem spawn_keeps (b c : Fld) (any : Bool) : keepsMem (spawn b c any s) := by
  unfold spawn
  grind [advance_mem, charge_mem, onCur_mem, sendOp_mem, → checkHandler_err, → needRegs_err, keepsMem_ok, keepsMem_error]

theorem migrate_keeps (b : Fld) (core : Bool) : keepsMem (migrate b core s) := by
  unfold migrate
  grind [chargeOnce_mem, trapR, → migrateGo_err, → migrateGo_mem, → migrateTo_err, → migrateTo_mem, → needRegs_err, → translate_err,
    → translate_mem, Stop.state, keepsMem]

theorem setlah_keeps (a b c : Fld) : keepsMem (setlah a b c s) := by
  unfold setlah
  grind [State_ww_mem, advance_mem, charge_mem, onTile_mem, trapR, → needRegs_err, Stop.state, keepsMem_ok, keepsMem_error]

theorem sweepW_keeps (a : Fld) : keepsMem (sweepW a s) := by
  unfold sweepW
  grind [State_ww_mem, advance_mem, chargeOnce_mem, wantSweep_mem, → needRegs_err, Stop.state, keepsMem_ok, keepsMem_error]

theorem maskOp_keeps (f : BitVec 16 → BitVec 16 → BitVec 16) (a b : Fld) : keepsMem (maskOp f a b s) := by
  unfold maskOp
  grind [State_ww_mem, advance_mem, charge_mem, onCur_mem, → needRegs_err, keepsMem_ok, keepsMem_error]

/-! ### Streams and queues -/

theorem readShared_mem (va : ℕ) (n : ℕ) {y0} (h : readShared va s n = .ok (y0, t)) : t.memOk = true := by
  induction n generalizing va s y0 t with
  | zero => cases h; exact hs
  | succ n ih =>
    unfold readShared at h
    split at h
    · cases h
    · next e =>
      split at h
      · cases h
      split at h
      · cases h
      · next e' => cases h; exact ih (translateAt_mem _ _ _ hs e) _ e'

theorem readShared_err (va : ℕ) (n : ℕ) (h : readShared va s n = .error x) : x.state.memOk = true := by
  induction n generalizing va s x with
  | zero => cases h
  | succ n ih =>
    unfold readShared at h
    split at h
    · next e => cases h; exact translateAt_err _ _ _ hs e
    · next e =>
      have h1 := translateAt_mem _ _ _ hs e
      split at h
      · next e' => cases h; exact homeRead_err _ _ h1 e'
      split at h
      · next e' => cases h; exact ih h1 _ e'
      · cases h

theorem readBlock_mem (d : Word) (align k : Nat) {y0} (h : readBlock d align k s = .ok (y0, t)) : t.memOk = true := by
  unfold readBlock at h
  grind [trapR, → readShared_mem]

theorem readBlock_err (d : Word) (align k : Nat) (h : readBlock d align k s = .error x) : x.state.memOk = true := by
  unfold readBlock at h
  grind [trapR, → readShared_err, → tcmRead_err, Stop.state]

theorem sbind_keeps (a b : Fld) (tcm : Bool) : keepsMem (sbind a b tcm s) := by
  unfold sbind
  grind [advance_mem, charge_mem, onCur_mem, setHvy_mem, strmTrap, trapD, trapR, → needRegs_err, → readBlock_err, → readBlock_mem,
    Stop.state, keepsMem_ok, keepsMem_error]

theorem drained_err (a : Fld) (st : Stream) (h : drained a st s = .error x) : x.state.memOk = true := by
  unfold drained at h
  grind [trapR, Stop.state]

theorem sunbind_keeps (a : Fld) : keepsMem (sunbind a s) := by
  unfold sunbind
  grind [advance_mem, chargeOnce_mem, onCur_mem, strmTrap, trapD, → drained_err, Stop.state, keepsMem_ok, keepsMem_error]

theorem sstat_keeps (a b : Fld) (drain : Bool) : keepsMem (sstat a b drain s) := by
  unfold sstat
  grind [advance_mem, chargeOnce_mem, strmTrap, trapD, writeS_mem, → drained_err, → takeS_err, Stop.state, keepsMem_ok, keepsMem_error]

theorem dropWrong_mem (ch : BitVec 3) (peer : BitVec 13) : (dropWrong ch peer s).memOk = true := hs

theorem qbind_keeps (a b : Fld) : keepsMem (qbind a b s) := by
  unfold qbind
  grind [advance_mem, charge_mem, dropWrong_mem, onCur_mem, queueTrap, setHvy_mem, trapR, → needRegs_err, Stop.state, keepsMem_ok,
    keepsMem_error]

theorem qunbind_keeps (a : Fld) : keepsMem (qunbind a s) := by
  unfold qunbind
  grind [advance_mem, chargeOnce_mem, dropBinding_mem, onCur_mem, queueTrap, trapR, Stop.state, keepsMem_ok, keepsMem_error]

/-! ### Copies and chains -/

theorem issueXfer_keeps (i : Instr) (k : EngKind) (bs : List Byte) : keepsMem (issueXfer i k bs s) := by
  unfold issueXfer
  grind [advance_mem, escapeCur_mem, → enqueueOp_err, → enqueueOp_mem, keepsMem_ok, keepsMem_error]

theorem copyOp_err (pb : Word) (bs : List Byte) (h : copyOp pb bs s = .error x) : x.state.memOk = true := by
  unfold copyOp at h
  grind [trapD, trapR, Stop.state]

theorem copyI_keeps (b : Fld) : keepsMem (copyI b s) := by
  unfold copyI
  grind [chargeOnce_mem, issueXfer_keeps, → copyOp_err, → needRegs_err, → readBlock_err, → readBlock_mem, keepsMem_error]

theorem sgrun_keeps (b : Fld) : keepsMem (sgrun b s) := by
  unfold sgrun
  grind [chargeOnce_mem, issueXfer_keeps, trapR, → needRegs_err, → readBlock_err, → readBlock_mem, Stop.state, keepsMem_error]

theorem xstat_keeps (a b : Fld) (c : Bool) : keepsMem (xstat a b c s) := by
  unfold xstat
  grind [advance_mem, charge_mem, writeS_mem, → needRegs_err, → takeS_err, keepsMem_ok, keepsMem_error]

theorem xcancel_keeps (b : Fld) : keepsMem (xcancel b s) := by
  unfold xcancel
  grind [advance_mem, charge_mem, onCore_mem, → needRegs_err, memOk_home, memOk_tcm, memOk_saved, keepsMem_ok, keepsMem_error]

theorem uret_keeps : keepsMem (uret s) := by
  unfold uret
  grind [charge_mem, onCur_mem, trapR, Stop.state, keepsMem_ok, keepsMem_error]

/-! ### Block instructions -/

theorem putEntry_mem (i : Nat) (e : BlkEntry) : (putEntry i e s).memOk = true := by
  unfold putEntry
  grind [homePut_wf, onHome_mem, memOk_home, memOk_tcm, memOk_saved]

theorem blockAnswer_keeps (a : Fld) (ans : Option Word) (trap : Option PendTrap) : keepsMem (blockAnswer a ans trap s) := by
  unfold blockAnswer
  grind [State_ww_mem, advance_mem, trapD, Stop.state, keepsMem_ok, keepsMem_error]

theorem blockIssue_keeps (i : Instr) (w : Word) (k : EngKind) : keepsMem (blockIssue i w k s) := by
  unfold blockIssue
  grind [chargeOnce_mem, escapeCur_mem, → enqueueOp_err, → enqueueOp_mem, Stop.state, keepsMem_error]

theorem blockSync_keeps (a b : Fld) {issue : Word → State → Res State} (hf : ∀ w z, z.memOk = true → keepsMem (issue w z)) : keepsMem
    (blockSync a b issue s) := by
  unfold blockSync
  split
  · next e => exact keepsMem_error (needRegs_err hs _ e)
  split
  · exact blockAnswer_keeps hs ..
  · exact hf _ s hs

theorem blkcow_keeps (i : Instr) (va : Word) : keepsMem (blkcow i va s) := by
  unfold blkcow
  grind [blockIssue_keeps, trapR, → translateAt_err, → translateAt_mem, Stop.state, keepsMem_error]

theorem blockAsync_keeps (k : EngKind) (escapes : Bool) (bs : List Byte) : keepsMem (blockAsync k escapes bs s) := by
  unfold blockAsync
  grind [advance_mem, chargeOnce_mem, escapeCur_mem, → enqueueOp_err, → enqueueOp_mem, keepsMem_ok, keepsMem_error]

theorem blkmove_keeps (get : Bool) (b : Fld) : keepsMem (blkmove get b s) := by
  unfold blkmove
  grind [blockAsync_keeps, trapR, → needRegs_err, → readWords_err, Stop.state, keepsMem_error]

theorem blkstat_keeps (a b : Fld) : keepsMem (blkstat a b s) := by
  unfold blkstat
  grind [State_ww_mem, advance_mem, charge_mem, trapD, → needRegs_err, Stop.state, keepsMem_ok, keepsMem_error]

/-! ### Branches and jumps -/

theorem jumpTo_keeps (target : Int) (h0 : s0.memOk = true) : keepsMem (jumpTo target s0 s) := by
  unfold jumpTo
  split
  · exact keepsMem_error h0
  · exact keepsMem_ok hs

theorem branch_keeps (taken : Word → Word → Bool) (a b : Fld) (o : BitVec 16) : keepsMem (branch taken a b o s) := by
  unfold branch
  grind [advance_mem, charge_mem, jumpTo_keeps, → takeS_err, → takeS_mem, keepsMem_ok, keepsMem_error]

/-! ### Break bits, matches and the state-change log -/

theorem fillLine_mem (va : Nat) : (fillLine va s).memOk = true := by
  unfold fillLine
  repeat' split
  all_goals exact hs

theorem dropLines_mem (v : BitVec 6) : (dropLines v s).memOk = true := by
  unfold dropLines
  repeat' split
  all_goals exact hs

theorem haltTile_mem : (haltTile s).memOk = true := hs

theorem stopTask_mem (skip : Bool) : (stopTask skip s).memOk = true := hs

theorem ringPut_mem (w0 w1 : Word) : (ringPut w0 w1 s).memOk = true := by
  unfold ringPut
  grind [homePut_wf, onHome_mem, memOk_home, memOk_tcm, memOk_saved]

theorem slog_mem (tid : Word) (ctx : BitVec 3) (state : BitVec 4) (value : BitVec 32) : (slog tid ctx state value s).memOk = true := by
  unfold slog
  grind [State_free_mem, ringPut_mem]

theorem slogTask_mem (before : State) (u : Task) : (slogTask before u s).memOk = true := by
  unfold slogTask
  split
  · exact hs
  · next n _ =>
    extract_lets old
    generalize ((match old with | none => none | some u => stNum u before.tile.halted) == some n) = b
    cases b
    · exact slog_mem hs ..
    · exact hs

theorem slogBramble_mem (before : State) : (slogBramble before s).memOk = true := by
  unfold slogBramble
  split
  · exact hs
  · exact slog_mem (s := s.free.2) hs ..

theorem slogDiff_mem (before : State) : (slogDiff before s).memOk = true := by
  unfold slogDiff
  split
  · exact hs
  · exact slogBramble_mem (foldl_mem _ _ (fun _ _ hz => slogTask_mem hz _ _) hs) _

/-! ### System instructions -/

theorem needService_err (i : Instr) (h : needService i s = .error x) : x.state.memOk = true := by
  unfold needService at h
  grind [→ privCheck_err]

theorem stopVf_mem (v : BitVec 6) (cause : BitVec 2) : (stopVf v cause s).memOk = true := by
  unfold stopVf
  grind [State_setVf_mem, onCore_mem, onHome_mem, memOk_home, memOk_tcm, memOk_saved]

theorem halt_keeps (i : Instr) (b : Fld) : keepsMem (halt i b s) := by
  unfold halt
  grind [State_setVf_mem, advance_mem, charge_mem, stopVf_mem, trapR, → needRegs_err, → needService_err, Stop.state, keepsMem_ok,
    keepsMem_error]

theorem dropTlb_mem (p : Tlb → Bool) : (dropTlb p s).memOk = true := hs

theorem tellOthers_mem (p : Packet) : (tellOthers p s).memOk = true := hs

theorem othersGo_keeps : keepsMem (othersGo s) := by
  unfold othersGo
  grind [advance_mem, Stop.state, keepsMem_ok, keepsMem_error]

theorem tlbinv_keeps (i : Instr) (fs : List Fld) {f : State → Res State} (hf : ∀ z, z.memOk = true → keepsMem (f z)) : keepsMem (tlbinv i
    fs f s) := by
  unfold tlbinv
  split
  · next e => exact keepsMem_error (needService_err hs _ e)
  split
  · exact othersGo_keeps hs
  split
  · next e => exact keepsMem_error (needRegs_err hs _ e)
  split
  · next e => exact keepsMem_error ((hf s hs).2 _ e)
  · next e => exact othersGo_keeps (charge_mem _ ((hf s hs).1 _ e))

theorem mergeDirty_mem : (mergeDirty s).memOk = true := by
  have home := foldl_setD_wf s s.core.dirty (memOk_home hs)
  have tcm := memOk_tcm hs
  have saved := memOk_saved hs
  exact memOk_of home tcm saved

theorem leaveAsid_mem (vf : BitVec 6) (id : BitVec 16) : (leaveAsid vf id s).memOk = true := hs

theorem joinAsid_mem (vf : BitVec 6) (id : BitVec 16) : (joinAsid vf id s).memOk = true := hs

theorem takeAsid_mem (id : BitVec 16) : (takeAsid id s).memOk = true := hs

theorem bindAsid_mem (id : BitVec 16) : (bindAsid id s).memOk = true := hs

theorem renewAsid_mem (vf : BitVec 6) (id : BitVec 16) (root : Word) : (renewAsid vf id root s).memOk = true := by
  unfold renewAsid
  grind [State_setAsid_mem, dropTlb_mem, onTile_mem]

theorem asidBind_keeps (a : Fld) (id : BitVec 16) (new : Bool) : keepsMem (asidBind a id new s) := by
  unfold asidBind
  grind [State_ww_mem, advance_mem, bindAsid_mem, Stop.state, keepsMem_ok, keepsMem_error]

theorem asidset_keeps (i : Instr) (a b : Fld) (c : Option Fld) : keepsMem (asidset i a b c s) := by
  unfold asidset
  grind [State_ww_mem, advance_mem, asidBind_keeps, chargeOnce_mem, renewAsid_mem, tellOthers_mem, trapR, → needRegs_err,
    → needService_err, Stop.state, keepsMem_ok, keepsMem_error]

theorem swapOut_mem : (swapOut s).memOk = true := by
  unfold swapOut
  grind [flushWs_mem]

theorem swapIn_mem (n : BitVec 17) : (swapIn n s).memOk = true := hs

theorem swapwp_keeps (i : Instr) (a b : Fld) : keepsMem (swapwp i a b s) := by
  unfold swapwp
  grind [State_ww_mem, charge_mem, swapIn_mem, swapOut_mem, trapR, → needRegs_err, → needService_err, → tcmRead_err, Stop.state, keepsMem]

theorem faultWaits_mem (token : Word) : (faultWaits token s).2.memOk = true := by
  unfold faultWaits
  grind [State_free_mem]

theorem replyGo_keeps (a : Fld) (n : Nat) (token ans : Word) : keepsMem (replyGo a n token ans s) := by
  unfold replyGo
  grind [State_ww_mem, advance_mem, faultWaits_mem, onHome_mem, memOk_home, memOk_tcm, memOk_saved, Stop.state, keepsMem_ok, keepsMem_error]

theorem faultreply_keeps (i : Instr) (a b c : Fld) : keepsMem (faultreply i a b c s) := by
  unfold faultreply
  grind [chargeOnce_mem, replyGo_keeps, trapR, → needRegs_err, → needService_err, → sealRelease_err, → sealRelease_mem, Stop.state,
    keepsMem_error]

theorem eread_keeps (i : Instr) (a b : Fld) : keepsMem (eread i a b s) := by
  unfold eread
  grind [State_ww_mem, advance_mem, charge_mem, trapR, → needRegs_err, → needService_err, Stop.state, keepsMem_ok, keepsMem_error]

/-! ### Vector instructions -/

theorem vOpRun_keeps (c : Charge) (vsrcs srcs : List Fld) (vd : Fld) (part : Bool) (f : List (BitVec 512) → List Word → BitVec 512 →
    BitVec 512) : keepsMem (vOpRun c vsrcs srcs vd part f s) := by
  unfold vOpRun
  grind [advance_mem, charge_mem, setHvy_mem, writeV_mem, → takeV_err, → takeV_mem, keepsMem_ok, keepsMem_error]

theorem vOp_keeps (c : Charge) (vsrcs srcs : List Fld) (vd : Fld) (part : Bool) (f : List (BitVec 512) → List Word → BitVec 512 → BitVec
    512) : keepsMem (vOp c vsrcs srcs vd part f s) := by
  unfold vOp
  grind [vOpRun_keeps, → stripRun_err, → stripRun_mem, keepsMem]

theorem vBin_keeps (c : Charge) (a b d : Fld) (m : Bool) (f : BitVec 3) (g : Nat → Nat → Nat) : keepsMem (vBin c a b d m f g s) := by
  unfold vBin
  grind [vOp_keeps]

theorem vFma_keeps (neg : Bool) (a b c d : Fld) (f : BitVec 3) : keepsMem (vFma neg a b c d f s) := by
  unfold vFma
  grind [vOp_keeps]

theorem vUn_keeps (c : Charge) (a b : Fld) (m : Bool) (f : BitVec 3) (g : Nat → Nat) : keepsMem (vUn c a b m f g s) := by
  unfold vUn
  grind [vOp_keeps]

theorem vcmp_keeps (k : BitVec 3) (b c : Fld) (n m : Bool) (f : BitVec 3) : keepsMem (vcmp k b c n m f s) := by
  unfold vcmp
  grind [advance_mem, charge_mem, onCur_mem, setHvy_mem, → takeV_err, → takeV_mem, keepsMem_ok, keepsMem_error]

theorem vsel_keeps (a b c : Fld) (f : BitVec 3) : keepsMem (vsel a b c f s) := by
  unfold vsel
  grind [vOp_keeps]

theorem vsetm_keeps (a b : Fld) : keepsMem (vsetm a b s) := by
  unfold vsetm
  grind [advance_mem, charge_mem, onCur_mem, setHvy_mem, writeS_mem, → takeS_err, → takeS_mem, keepsMem_ok, keepsMem_error]

theorem vqnt_keeps (a b c : Fld) (p f : BitVec 3) : keepsMem (vqnt a b c p f s) := by
  unfold vqnt
  grind [advance_mem, charge_mem, onCur_mem, setHvy_mem, unitBusy, writeV_mem, → takeV_err, → takeV_mem, Stop.state, keepsMem_ok,
    keepsMem_error]

theorem vld_keeps (a b : Fld) (o : BitVec 10) : keepsMem (vld a b o s) := by
  unfold vld
  grind [advance_mem, chargeOnce_mem, setHvy_mem, writeV_mem, → takeV_err, → takeV_mem, → tcmLoad_err, → tcmLoad_mem, keepsMem_ok,
    keepsMem_error]

theorem vst_keeps (a b : Fld) (o : BitVec 10) : keepsMem (vst a b o s) := by
  unfold vst
  grind [advance_mem, back_mem, chargeOnce_mem, setHvy_mem, → takeV_err, → takeV_mem, → tcmStore_err, → tcmStore_mem, keepsMem]

theorem vloadAt_keeps (a : Fld) (pa : Nat) (p : BitVec 3) : keepsMem (vloadAt a pa p s) := by
  unfold vloadAt
  grind [advance_mem, chargeAccess_mem, chargeOnce_mem, free_mem, onCore_mem, onCur_mem, setHvy_mem, unitBusy, writeV_mem, memOk_home,
    memOk_tcm, memOk_saved, Stop.state, keepsMem_ok, keepsMem_error]

theorem vlds_keeps (i : Instr) (a b : Fld) (o : BitVec 10) (p : BitVec 3) : keepsMem (vlds i a b o p s) := by
  unfold vlds
  split
  · next e => exact keepsMem_error (needScope_err hs _ _ e)
  split
  · next e => exact keepsMem_error (takeV_err _ _ _ _ hs e)
  · next e =>
    have h1 := takeV_mem _ _ _ _ hs e
    split
    · exact keepsMem_error h1
    split
    · next e => exact keepsMem_error (sealReady_err h1 e)
    split
    · next e => exact keepsMem_error (sharedAddr_err h1 _ _ _ _ e)
    · next e =>
      have h2 := sharedAddr_mem h1 _ _ _ _ e
      split
      · exact migrateTo_keeps h2 ..
      · exact vloadAt_keeps h2 ..

theorem vsts_keeps (i : Instr) (a b : Fld) (o : BitVec 10) (p : BitVec 3) : keepsMem (vsts i a b o p s) := by
  unfold vsts
  split
  · next e => exact keepsMem_error (needScope_err hs _ _ e)
  split
  · next e => exact keepsMem_error (takeV_err _ _ _ _ hs e)
  · next e =>
    have h1 := takeV_mem _ _ _ _ hs e
    dsimp only
    split
    · next e => exact keepsMem_error (back_mem (sharedAddr_err h1 _ _ _ _ e))
    · next e =>
      have h2 := sharedAddr_mem h1 _ _ _ _ e
      split
      · exact keepsMem_back (migrateTo_keeps h2 ..)
      split
      · next e => exact keepsMem_error (back_mem (appendRec_err _ _ _ _ (chargeOnce_mem _ h2) e))
      · next e => exact keepsMem_ok (advance_mem (setHvy_mem (appendRec_mem _ _ _ _ (chargeOnce_mem _ h2) e)))

theorem gathRead_err (n : ℕ) (l : List (ℕ × ℕ)) (h : gathRead s n l = .error x) : x.state.memOk = true := by
  induction l generalizing x with
  | nil => cases h
  | cons y l ih =>
    unfold gathRead at h
    split at h
    · next e => cases h; exact tcmRead_err _ _ hs e
    split at h
    · next e => cases h; exact ih e
    · cases h

theorem vgath_keeps (a b c : Fld) (m : Bool) (f : BitVec 3) : keepsMem (vgath a b c m f s) := by
  unfold vgath
  grind [advance_mem, back_mem, charge_mem, setHvy_mem, trapR, writeV_mem, → gathRead_err, → takeV_err, → takeV_mem, Stop.state, keepsMem]

theorem scatWrite_mem (w : Nat) (v : BitVec 512) (l : List (Nat × Nat)) : (scatWrite w v l s).memOk = true := by
  unfold scatWrite
  grind [tcmPut_mem, foldl_mem]

theorem vscat_keeps (a b c : Fld) (m : Bool) (f : BitVec 3) : keepsMem (vscat a b c m f s) := by
  unfold vscat
  grind [advance_mem, charge_mem, scatWrite_mem, setHvy_mem, trapR, → takeV_err, → takeV_mem, Stop.state, keepsMem_ok, keepsMem_error]

theorem vext_keeps (a b c : Fld) (f : BitVec 3) : keepsMem (vext a b c f s) := by
  unfold vext
  grind [advance_mem, charge_mem, setHvy_mem, writeS_mem, → takeV_err, → takeV_mem, keepsMem_ok, keepsMem_error]

theorem vReduce_keeps (b : Fld) (m : Bool) (f : BitVec 3) (g : List Nat → Word) : keepsMem (vReduce b m f g s) := by
  unfold vReduce
  grind [advance_mem, charge_mem, onCur_mem, setHvy_mem, unitBusy, → takeV_err, → takeV_mem, Stop.state, keepsMem_ok, keepsMem_error]

theorem xget_keeps (a : Fld) (n : BitVec 4) : keepsMem (xget a n s) := by
  unfold xget
  grind [advance_mem, chargeOnce_mem, setHvy_mem, writeS_mem, → takeS_err, Stop.state, keepsMem_ok, keepsMem_error]

theorem vtran_keeps (a b : Fld) (m : Bool) (g : BitVec 3) : keepsMem (vtran a b m g s) := by
  unfold vtran
  grind [advance_mem, charge_mem, onCur_mem, setHvy_mem, unitBusy, → takeV_err, → takeV_mem, Stop.state, keepsMem_ok, keepsMem_error]

theorem vtranNow_keeps (a b : Fld) (m : Bool) (g : BitVec 3) : keepsMem (vtranNow a b m g s) := by
  unfold vtranNow
  grind [vtran_keeps, writeV_mem, keepsMem]

/-! ### Matrix instructions -/

theorem claimMx_mem : (claimMx s).memOk = true := hs

theorem discardMx_mem : (discardMx s).memOk = true := hs

theorem mxReady_mem (h : mxReady s = .ok t) : t.memOk = true := by
  unfold mxReady at h
  grind [claimMx_mem]

theorem mxReady_err (h : mxReady s = .error x) : x.state.memOk = true := by
  unfold mxReady at h
  grind [Stop.state]

theorem pushCmd_mem (m : MxCmd) : (pushCmd m s).memOk = true := hs

theorem mxEnqueue_keeps (f : State → MxCmd) (escapes : Bool) : keepsMem (mxEnqueue f escapes s) := by
  unfold mxEnqueue
  grind [advance_mem, escapeCur_mem, pushCmd_mem, setHvy_mem, → takePart_err, → takePart_mem, keepsMem_ok, keepsMem_error]

theorem mxIssue_keeps {checks : State → Res Unit} (hc : ∀ z, z.memOk = true → ∀ x, checks z = .error x → x.state.memOk = true) (f : State
    → MxCmd) (escapes : Bool)
    (c : Option Charge) : keepsMem (mxIssue checks f escapes c s) := by
  unfold mxIssue
  split
  · next e => exact keepsMem_error (mxReady_err hs e)
  · next u e =>
    have hu := mxReady_mem hs e
    split
    · exact keepsMem_ok (advance_mem (setHvy_mem (discardMx_mem hu)))
    split
    · next e => exact keepsMem_error (hc s hs _ e)
    · cases c with
      | none => exact mxEnqueue_keeps hu ..
      | some c => exact mxEnqueue_keeps (chargeOnce_mem _ hu) ..

theorem tileCheck_err (a : Word) (bar : Option (BitVec 6)) (h : tileCheck a bar s = .error x) : x.state.memOk = true := by
  unfold tileCheck at h
  grind [barTrap, trapR, Stop.state]

theorem mxTile_keeps (fn : MxFn) (acc b : Fld) (n : BitVec 6) (w : Bool) (c : Option Charge) : keepsMem (mxTile fn acc b n w c s) := by
  unfold mxTile
  split
  · next e h => exact keepsMem_error (needRegs_err hs _ h)
  · exact mxIssue_keeps hs (fun z hz _ => tileCheck_err hz _ _) ..

theorem mstat_keeps (a : Fld) : keepsMem (mstat a s) := by
  unfold mstat
  grind [advance_mem, charge_mem, setHvy_mem, writeS_mem, → takeS_err, keepsMem_ok, keepsMem_error]

theorem mdrainCheck_err (d w : Word) (f : BitVec 3) (h : mdrainCheck d w f s = .error x) : x.state.memOk = true := by
  unfold mdrainCheck at h
  grind [trapR, Stop.state]

theorem mdrain_keeps (a b c : Fld) (st : Bool) (f : BitVec 3) : keepsMem (mdrain a b c st f s) := by
  unfold mdrain
  split
  · next e h => exact keepsMem_error (needRegs_err hs _ h)
  · exact mxIssue_keeps hs (fun z hz _ => mdrainCheck_err hz _ _ _) ..

theorem seqBump_mem (m : MxCmd) (b : Bool) : (seqBump m b s).memOk = true := hs

theorem mmaRun_mem (m : MxCmd) : (mmaRun s m).memOk = true := by
  unfold mmaRun
  grind [charge_mem, onCore_mem, seqBump_mem, memOk_home, memOk_tcm, memOk_saved]

theorem mlatchRun_mem (m : MxCmd) : (mlatchRun s m).memOk = true := by
  unfold mlatchRun
  grind [onCore_mem, seqBump_mem, memOk_home, memOk_tcm, memOk_saved]

/-! ### Function registers -/

theorem compactPool_mem : (compactPool s).memOk = true := by
  unfold compactPool
  grind [State_mapTasks_mem, onCore_mem, memOk_home, memOk_tcm, memOk_saved, foldl_mem]

theorem allocPool_mem (g : Nat) {y} (h : allocPool g s = some (y, t)) : t.memOk = true := by
  unfold allocPool at h
  grind [compactPool_mem, Option.map_eq_some_iff]

theorem releaseF_mem (f : Fld) : (releaseF f s).memOk = true := hs

theorem releaseAll_mem (l : List Fld) : (releaseAll l s).memOk = true := by
  unfold releaseAll
  grind [releaseF_mem, foldl_mem]

omit hs in
theorem storeF_err (h0 : s0.memOk = true) (f : Fld) (a b : BitVec 32) (cs : List Nat) (lrs : List Fld) (h : storeF s0 f a b cs lrs s =
    .error x) :
    x.state.memOk = true := by
  unfold storeF at h
  dsimp only at h
  split at h
  · exact trapR_err _ _ h0 h
  · cases h

theorem storeF_mem (f : Fld) (a b : BitVec 32) (cs : List Nat) (lrs : List Fld) (h : storeF s0 f a b cs lrs s = .ok t) : t.memOk = true :=
    by
  unfold storeF at h
  dsimp only at h
  split at h
  · cases h
  · next p u e =>
    cases h
    exact releaseAll_mem (allocPool_mem hs _ e) _

theorem setFx_mem (b : Bool) : (setFx b s).memOk = true := hs

theorem needFull_err (l : List Fld) (h : needFull l s = .error x) : x.state.memOk = true := by
  induction l with
  | nil => cases h
  | cons f r ih =>
    unfold needFull at h
    split at h
    · exact trapD_err _ _ _ hs h
    · exact ih h

theorem needPresent_err (l : List Fld) (h : needPresent l s = .error x) : x.state.memOk = true := by
  induction l with
  | nil => cases h
  | cons f r ih =>
    unfold needPresent at h
    split at h
    · cases h; exact hs
    · exact ih h

theorem needClean_err (l : List Fld) (h : needClean l s = .error x) : x.state.memOk = true := by
  unfold needClean at h
  grind [free_mem, Stop.state]

theorem needReady_err (l : List Fld) (h : needReady l s = .error x) : x.state.memOk = true := by
  unfold needReady at h
  grind [→ needClean_err, → needPresent_err]

theorem fSources_err (l : List Fld) (h : fSources l s = .error x) : x.state.memOk = true := by
  unfold fSources at h
  grind [→ needFull_err, → needReady_err]

theorem chargeN_mem (c : Charge) (n : Nat) : (chargeN c n s).memOk = true := by
  induction n generalizing s with
  | zero => exact hs
  | succ n ih => exact ih (charge_mem c hs)

theorem fCharge_mem (c : Charge) (srcs : List Fld) (n : Nat) : (fCharge c srcs n s).memOk = true := by
  unfold fCharge
  grind [chargeN_mem]

theorem fResult_keeps (h0 : s0.memOk = true) (c : Charge) (srcs : List Fld) (fa : Fld) (a b : BitVec 32) (cs : List Nat) (trunc fx : Bool)
    (lrs : List Fld) : keepsMem (fResult s0 c srcs fa a b cs trunc fx lrs s) := by
  unfold fResult
  dsimp only
  split
  · next e => exact keepsMem_error (storeF_err h0 _ _ _ _ _ e)
  · next e => exact keepsMem_ok (advance_mem (setHvy_mem (setFx_mem (storeF_mem (fCharge_mem hs ..) _ _ _ _ _ e) _)))

theorem fBin_keeps (f : List Nat → List Nat → List Nat) (a b c : Fld) (l k : Bool) : keepsMem (fBin f a b c l k s) := by
  unfold fBin
  grind [fResult_keeps, fdomTrap, trapD, → needFull_err, → needReady_err, Stop.state, keepsMem_error]

theorem fscal_keeps (a b c : Fld) (k : Bool) : keepsMem (fscal a b c k s) := by
  unfold fscal
  grind [fResult_keeps, → fSources_err, → takeS_err, → takeS_mem, keepsMem_error]

theorem fcomp_keeps (a b c : Fld) (l k : Bool) : keepsMem (fcomp a b c l k s) := by
  unfold fcomp
  grind [fResult_keeps, fdomTrap, trapD, → fSources_err, Stop.state, keepsMem_error]

theorem fUn_keeps (f : FReg → List Nat → List Nat) (a b : Fld) (k : Bool) : keepsMem (fUn f a b k s) := by
  unfold fUn
  grind [fResult_keeps, → fSources_err, keepsMem_error]

theorem fext_keeps (a b : Fld) (k : Bool) : keepsMem (fext a b k s) := by
  unfold fext
  grind [advance_mem, fCharge_mem, releaseAll_mem, setHvy_mem, writeS_mem, → fSources_err, → takeS_err, keepsMem_ok, keepsMem_error]

theorem froot_keeps (a b : Fld) (k : Bool) : keepsMem (froot a b k s) := by
  unfold froot
  grind [advance_mem, fCharge_mem, onCur_mem, releaseAll_mem, setHvy_mem, writeV_mem, → fSources_err, → takeV_err, keepsMem_ok,
    keepsMem_error]

theorem ffit_keeps (a b c : Fld) : keepsMem (ffit a b c s) := by
  unfold ffit
  grind [fResult_keeps, fdomTrap, trapD, trapR, → takeS_err, → takeS_mem, → tcmRead_err, Stop.state, keepsMem_error]

theorem feval_keeps (a b c : Fld) (m k : Bool) : keepsMem (feval a b c m k s) := by
  unfold feval
  grind [advance_mem, fCharge_mem, onCur_mem, releaseAll_mem, setHvy_mem, writeV_mem, → fSources_err, → takeV_err, → takeV_mem,
    keepsMem_ok, keepsMem_error]

theorem fldc_keeps (a b : Fld) : keepsMem (fldc a b s) := by
  unfold fldc
  grind [fResult_keeps, fdomTrap, trapD, trapR, → takeS_err, → tcmRead_err, Stop.state, keepsMem_error]

theorem fstc_keeps (b c : Fld) (k : Bool) : keepsMem (fstc b c k s) := by
  unfold fstc
  grind [advance_mem, fCharge_mem, releaseAll_mem, setHvy_mem, trapR, → fSources_err, → takeS_err, → tcmWrite_err, → tcmWrite_mem,
    Stop.state, keepsMem_ok, keepsMem_error]

theorem fdom_keeps (a b c : Fld) : keepsMem (fdom a b c s) := by
  unfold fdom
  grind [advance_mem, fCharge_mem, fdomTrap, onCur_mem, setHvy_mem, trapD, → takeS_err, → takeS_mem, Stop.state, keepsMem_ok,
    keepsMem_error]

theorem ftrunc_keeps (a b c : Fld) (k : Bool) : keepsMem (ftrunc a b c k s) := by
  unfold ftrunc
  grind [fResult_keeps, → fSources_err, → takeS_err, → takeS_mem, keepsMem_error]

theorem fmov_keeps (a b : Fld) (k : Bool) : keepsMem (fmov a b k s) := by
  unfold fmov
  grind [fResult_keeps, → fSources_err, keepsMem_error]

theorem flen_keeps (a b : Fld) (k : Bool) : keepsMem (flen a b k s) := by
  unfold flen
  grind [advance_mem, fCharge_mem, releaseAll_mem, setHvy_mem, writeS_mem, → takeS_err, keepsMem_ok, keepsMem_error]

end

end Sys2Proof.Machine
end

section
/-! The memories stay in canonical form: what the steps of other agents do (O3). -/

namespace Sys2Proof.Machine

section
variable {s t s0 : State} {x : Stop} (hs : s.memOk = true)
include hs

/-! ### Contexts found by frame -/

theorem updCtx_mem (p : Task → Bool) (f : Task → Task) : (State.updCtx s p f).memOk = true := by
  unfold State.updCtx
  repeat' split
  all_goals exact hs

theorem failOf_mem (u : Task) (n : Nat) (dead : Bool) : (failOf u n dead s).memOk = true := by
  unfold failOf
  grind [errCount_mem, onTile_mem, updCtx_mem]

theorem failNamed_mem (tid : Word) (origin : BitVec 13) (n : Nat) (dead : Bool) : (failNamed tid origin n dead s).memOk = true := by
  unfold failNamed
  grind [errCount_mem, failOf_mem, onTile_mem]

theorem emit_mem (p : Packet) : (emit p s).memOk = true := hs

theorem asCtx_mem (k : Nat) {f : State → State} (hf : ∀ z, z.memOk = true → (f z).memOk = true) : (asCtx k f s).memOk = true := by
  unfold asCtx
  split
  · exact hs
  · dsimp only
    split
    · exact hf _ hs
    · exact hf _ hs

theorem asFrame_mem (frame : Nat) {f : State → State} (hf : ∀ z, z.memOk = true → (f z).memOk = true) : (asFrame frame f s).memOk = true
    := by
  unfold asFrame
  split
  · exact hf s hs
  split
  · exact hs
  · exact asCtx_mem hs _ hf

theorem controlLost_mem (tile : Nat) (reduction : Bool) : (controlLost tile reduction s).memOk = true := by
  unfold controlLost
  grind [errEntry_mem, onTile_mem]

theorem chargeTile_mem (tile : Nat) : (chargeTile tile s).memOk = true := hs

theorem controlTo_mem (reduction : Bool) (tile : Nat) (p : Packet) : (controlTo reduction tile p s).memOk = true := by
  unfold controlTo
  grind [chargeTile_mem, controlLost_mem, emit_mem]

theorem control_mem (tile : Nat) (p : Packet) : (control tile p s).memOk = true := by
  unfold control
  grind [controlTo_mem]

theorem controlRed_mem (c : Contribution) (missing : Nat) : (controlRed c missing s).memOk = true := by
  unfold controlRed
  grind [controlTo_mem]

theorem controlAll_mem (p : Packet) : (controlAll p s).memOk = true := by
  unfold controlAll
  grind [chargeTile_mem, controlLost_mem, emit_mem, foldl_mem]

/-! ### Homes, the log agent, acquiring and barriers -/

theorem loadBrings_mem (u : Task) (l : LoadPend) : (loadBrings u l s).memOk = true := by
  unfold loadBrings
  grind [failOf_mem, onCore_mem, memOk_home, memOk_tcm, memOk_saved]

theorem primaryBytes_mem (n : Nat) : (primaryBytes n s).2.memOk = true := hs

theorem loadForward_mem (p : Task → Bool) (k : Nat) (l : LoadPend) : (loadForward p k l s).memOk = true := by
  unfold loadForward
  grind [primaryBytes_mem, updCtx_mem]

theorem homeLoad_mem (frame k : Nat) : (homeLoad frame k s).memOk = true := by
  unfold homeLoad
  grind [loadBrings_mem, loadForward_mem, updCtx_mem]

theorem loadWrite_mem (l : LoadPend) (bs : List Byte) : (loadWrite l bs s).memOk = true := by
  unfold loadWrite
  grind [writeS_mem, writeV_mem]

theorem loadReply_mem (frame k : Nat) : (loadReply frame k s).memOk = true := by
  unfold loadReply
  dsimp only
  repeat' split
  · exact hs
  · exact hs
  · exact hs
  · exact updCtx_mem (asFrame_mem hs frame fun z hz => loadWrite_mem hz _ _) ..
  · exact updCtx_mem (s := s.free.2) hs ..
  · exact updCtx_mem hs ..

theorem homeAmo_mem (frame k : Nat) : (homeAmo frame k s).memOk = true := by
  unfold homeAmo
  split
  · exact hs
  split
  · exact hs
  dsimp only
  split
  · exact acted_mem _ (updCtx_mem ((free_mem s).trans hs) ..)
  split
  · exact hs
  split
  · next e => exact acted_mem _ (updCtx_mem (withHome_mem hs (amoPerform_value_wf (memOk_home hs) e)) ..)
  · next e => exact failOf_mem (acted_mem _ (updCtx_mem (withHome_mem hs (amoPerform_unheard_wf (memOk_home hs) e)) ..)) ..
  · exact failOf_mem (acted_mem _ (updCtx_mem hs ..)) ..
  · exact failOf_mem (acted_mem _ (updCtx_mem hs ..)) ..
  · exact acted_mem _ (updCtx_mem hs ..)

theorem amoReturn_mem (frame k : Nat) : (amoReturn frame k s).memOk = true := by
  unfold amoReturn
  split
  · exact hs
  split
  · exact hs
  · next a _ =>
    have hc : (s.onCore (amoCore a.req.pa a.aq)).memOk = true := hs
    dsimp only
    split
    · exact updCtx_mem (asFrame_mem hc frame fun z hz => writeS_mem _ _ hz) ..
    · exact updCtx_mem ((free_mem _).trans hc) ..

theorem chargePart_mem (p : SegPart) : (chargePart p s).memOk = true := by
  unfold chargePart
  repeat' split
  all_goals exact hs

theorem segmentShip_mem (seg : Nat) : (segmentShip seg s).memOk = true := by
  unfold segmentShip
  grind [chargePart_mem, onCore_mem, memOk_home, memOk_tcm, memOk_saved, foldl_mem]

theorem setPart_mem (seg k : Nat) (f : SegPart → SegPart) : (setPart seg k f s).memOk = true := hs

theorem partFails_mem (g : Sealed) (p : SegPart) (dead : Bool) : (partFails g p dead s).memOk = true := by
  unfold partFails
  grind [failNamed_mem, onCore_mem, memOk_home, memOk_tcm, memOk_saved]

theorem partApplyOwn_mem (seg k : Nat) : (partApplyOwn seg k s).memOk = true := by
  unfold partApplyOwn
  grind [acted_mem, homeRecs_wf, onHome_mem, partFails_mem, setPart_mem, memOk_home, memOk_tcm, memOk_saved]

theorem answerAcq_mem : (answerAcq s).memOk = true := hs

theorem segmentAck_mem (seg k : Nat) : (segmentAck seg k s).memOk = true := by
  unfold segmentAck
  repeat' split
  all_goals exact hs

theorem flagWrite_mem : (flagWrite s).memOk = true := by
  unfold flagWrite
  grind [acted_mem, chargeAccess_mem, failOf_mem, homeKeyed_wf, onHome_mem, updCtx_mem, memOk_home, memOk_tcm, memOk_saved]

theorem startMrot_mem (n : BitVec 6) : (startMrot s n).memOk = true := hs

theorem barrierArrival_mem (n : BitVec 6) (a : Arrival) : (barrierArrival n a s).memOk = true := by
  unfold barrierArrival
  grind [setBar_mem, startMrot_mem, updCtx_mem]

/-! ### Engines -/

theorem engXlat_mem (acc : Access) (va : Nat) (priv : BitVec 2) {y} (h : engXlat acc va priv s = .ok (y, t)) : t.memOk = true := by
  unfold engXlat at h
  grind [→ markDirty_mem, → tlbLookup_mem]

theorem engReadPa_mem (pa n : Nat) {y} (h : engReadPa pa n s = .ok (y, t)) : t.memOk = true := by
  unfold engReadPa at h
  grind [chargeAccess_mem]

theorem engRead_mem (tcm : Bool) (a n : Nat) (priv : BitVec 2) {y} (h : engRead tcm a n priv s = .ok (y, t)) : t.memOk = true := by
  unfold engRead at h
  grind [→ engReadPa_mem, → engXlat_mem]

theorem noteWrote_mem (k : EngKey) (pa n : Nat) : (noteWrote k pa n s).memOk = true := by
  unfold noteWrote
  grind [updCtx_mem]

theorem homeWriteKeyed_mem (k : EngKey) (pa : Nat) (bs : List Byte) : (homeWriteKeyed k pa bs s).memOk = true := by
  unfold homeWriteKeyed
  grind [failNamed_mem, homeKeyedN_wf, noteWrote_mem, onHome_mem, memOk_home, memOk_tcm, memOk_saved]

theorem engWritePa_mem (k : EngKey) (pa : Nat) (bs : List Byte) : (engWritePa k pa bs s).memOk = true := by
  unfold engWritePa
  grind [chargeAccess_mem, homeWriteKeyed_mem]

theorem engWrite_mem (k : EngKey) (tcm : Bool) (a : Nat) (bs : List Byte) (priv : BitVec 2) (h : engWrite k tcm a bs priv s = .ok t) :
    t.memOk = true := by
  unfold engWrite at h
  grind [engWritePa_mem, tcmPut_mem, → engXlat_mem]

theorem setQueueOps_mem (q : Nat) (l : List EngOp) : (setQueueOps q l s).memOk = true := hs

theorem setHead_mem (q : Nat) (f : EngOp → EngOp) : (setHead q f s).memOk = true := hs

theorem stopHead_mem (q code : Nat) (d : Option PendTrap) : (stopHead q code d s).memOk = true := hs

theorem headFails_mem (q : Nat) (dead : Bool) : (headFails q dead s).memOk = true := by
  unfold headFails
  grind [failNamed_mem]

theorem copyStop_mem (q : Nat) (e : EStop) : (copyStop q e s).memOk = true := by
  unfold copyStop
  grind [headFails_mem, stopHead_mem]

theorem opActed_mem (o : EngOp) : (opActed o s).memOk = true := by
  unfold opActed
  grind [acted_mem]

theorem engineOpStart_mem (q : Nat) : (engineOpStart q s).memOk = true := by
  unfold engineOpStart
  grind [opActed_mem, setHead_mem]

theorem xrangeStop_mem (q l : Nat) : (xrangeStop q l s).memOk = true := hs

theorem moveRec_mem (k : EngKey) (priv : BitVec 2) (src : Word) (dst : Word) (off : ℕ) (n : ℕ) (h : moveRec k priv src dst off s n = .ok
    t) : t.memOk = true := by
  induction n generalizing k off s with
  | zero => cases h; exact hs
  | succ n ih =>
    unfold moveRec at h
    extract_lets at_ out at h
    split at h
    · cases h
    split at h
    · cases h
    split at h
    · cases h
    · next e =>
      split at h
      · cases h
      · next e' => exact ih (engWrite_mem (engRead_mem hs _ _ _ _ e) _ _ _ _ _ e') _ _ h

theorem moveElem_mem (q : Nat) (o : EngOp) (src dst : Pattern) (stcm dtcm : Bool) (l : Nat) (h : moveElem q o src dst stcm dtcm l s = .ok
    t) : t.memOk = true := by
  unfold moveElem at h
  grind [→ engRead_mem, → engWrite_mem]

theorem copyStep_mem (q : Nat) (o : EngOp) (src dst : Pattern) (stcm dtcm scl : Bool) (srec drec : Word) :
    (copyStep q o src dst stcm dtcm scl srec drec s).1.memOk = true := by
  unfold copyStep
  grind [copyStop_mem, setHead_mem, stopHead_mem, xrangeStop_mem, → moveElem_mem, → moveRec_mem]

theorem chargeRunUnit_mem (start i pa : Nat) : (chargeRunUnit start i pa s).memOk = true := by
  unfold chargeRunUnit
  grind [chargeAccess_mem]

theorem chainByte_mem (k : EngKey) (priv : BitVec 2) (src dst i : Nat) (h : chainByte k priv src dst i s = .ok t) : t.memOk = true := by
  unfold chainByte at h
  grind [chargeRunUnit_mem, homeWriteKeyed_mem, → engXlat_mem]

theorem chainMove_mem (q : ℕ) (priv : BitVec 2) (src : ℕ) (dst : ℕ) (n : ℕ) : (chainMove q priv src dst s n).1.memOk = true := by
  induction n generalizing s with
  | zero => exact hs
  | succ n ih =>
    unfold chainMove
    split
    · exact hs
    split
    · exact hs
    · next e => exact ih (setHead_mem (chainByte_mem hs _ _ _ _ _ e) _ _)

theorem chainNext_mem (q : Nat) (o : EngOp) (next : Nat) : (chainNext q o next s).memOk = true := by
  unfold chainNext
  grind [setHead_mem, stopHead_mem]

theorem chainSkips_mem (o : EngOp) (e : ChainElem) {y} (h : chainSkips o e s = .ok (y, t)) : t.memOk = true := by
  unfold chainSkips at h
  grind [→ engRead_mem]

theorem chainFinish_mem (q : Nat) (o : EngOp) (src dst len next : Nat) : (chainFinish q o src dst len next s).1.memOk = true := by
  unfold chainFinish
  grind [chainMove_mem, chainNext_mem, copyStop_mem]

theorem chainStep_mem (q : Nat) (o : EngOp) : (chainStep q o s).1.memOk = true := by
  unfold chainStep
  grind [chainFinish_mem, chainNext_mem, copyStop_mem, setHead_mem, stopHead_mem, xrangeStop_mem, → chainSkips_mem, → engRead_mem]

theorem xferStep_mem (q : Nat) : (xferStep q s).1.memOk = true := by
  unfold xferStep
  grind [chainStep_mem, copyStep_mem]

theorem deliverTrap_mem (tid : Word) (origin : BitVec 13) (p : PendTrap) : (deliverTrap tid origin p s).memOk = true := by
  unfold deliverTrap
  grind [trapEntry_mem, updCtx_mem]

theorem deliverDone_mem (q : Nat) (o : EngOp) : (deliverDone q o s).memOk = true := by
  unfold deliverDone
  grind [deliverTrap_mem, onCore_mem, updCtx_mem, memOk_home, memOk_tcm, memOk_saved]

theorem engineOpComplete_mem (q : Nat) : (engineOpComplete q s).memOk = true := by
  unfold engineOpComplete
  grind [deliverDone_mem, setQueueOps_mem]

theorem mxTrapTaken_mem (p : PendTrap) : (mxTrapTaken p s).memOk = true := by
  unfold mxTrapTaken
  repeat' split
  all_goals exact hs

/-! ### Streams, channels and the column unit -/

theorem fetchShared_mem (u : Task) (va n : Nat) {y} (h : fetchShared s u va n = .ok (y, t)) : t.memOk = true := by
  unfold fetchShared at h
  grind [chargeAccess_mem, onCore_mem, onCur_mem, primaryBytes_mem, → engXlat_mem, memOk_home, memOk_tcm, memOk_saved]

theorem fetchElem_mem (u : Task) (st : Stream) (l : Nat) {y} (h : fetchElem s u st l = .ok (y, t)) : t.memOk = true := by
  unfold fetchElem at h
  dsimp only at h
  split at h
  · cases h; exact hs
  split at h
  · cases h; exact hs
  split at h
  · cases h; exact hs
  · exact fetchShared_mem hs _ _ _ h

theorem fetchCur_mem (k : BitVec 3) : (fetchCur k s).1.memOk = true := by
  unfold fetchCur
  dsimp only
  repeat' split
  all_goals grind [→ fetchElem_mem, onCur_mem]

theorem drainMiss_mem (f : Fld) : (drainMiss f s).memOk = true := by
  unfold drainMiss
  repeat' split
  all_goals exact hs

theorem drainEnd_mem (f : Fld) : (drainEnd f s).memOk = true := by
  unfold drainEnd
  repeat' split
  all_goals exact hs

theorem drainBad_mem (f : Fld) (b : BitVec 6 × Nat) : (drainBad f b s).memOk = true := by
  unfold drainBad
  repeat' split
  all_goals exact hs

theorem drainShared_mem (f : Fld) (e : Pushed) (va n : Nat) : (drainShared f e va n s).1.memOk = true := by
  unfold drainShared
  grind [drainBad_mem, drainEnd_mem, drainMiss_mem, → appendAt_mem, → engXlat_mem]

theorem drainCur_mem (k : BitVec 3) : (drainCur k s).1.memOk = true := by
  unfold drainCur
  grind [drainEnd_mem, drainShared_mem, tcmPut_mem]

theorem channelWords_mem (ch : BitVec 3) (src : Sender) (ws : List Word) : (channelWords ch src ws s).memOk = true := by
  unfold channelWords
  repeat' split
  all_goals exact hs

theorem sendWords_mem (k : Nat) : (sendWords k s).memOk = true := by
  unfold sendWords
  grind [chargeNet_mem, emit_mem, onCur_mem, onTile_mem]

theorem vtranWrite_mem (r : VtPend) : (vtranWrite r s).memOk = true := by
  unfold vtranWrite
  grind [writeV_mem]

theorem vtranReply_mem (frame : Nat) : (vtranReply frame s).memOk = true := by
  unfold vtranReply
  dsimp only
  repeat' split
  · exact hs
  · exact hs
  · exact asFrame_mem (updCtx_mem hs _ _) frame fun z hz => vtranWrite_mem hz _

theorem granuleFill_mem (frame : Nat) (g : Granule) : (granuleFill frame g s).memOk = true := by
  unfold granuleFill
  grind [chargeOpen_mem, onCore_mem, updCtx_mem, memOk_home, memOk_tcm, memOk_saved]

theorem releaseGranules_mem : (releaseGranules s).memOk = true := hs

/-! ### Network reductions -/

theorem spill_mem (r : RedSlot) : (spill r s).2.memOk = true := by
  unfold spill
  grind [controlRed_mem]

theorem forwardSlot_mem (r : RedSlot) (timeout : Bool) : (forwardSlot r timeout s).memOk = true := by
  unfold forwardSlot
  grind [controlAll_mem, controlRed_mem, onTile_mem]

theorem lateArrival_mem (c : Contribution) (owed : Bool) : (lateArrival c owed s).memOk = true := by
  unfold lateArrival
  grind [controlRed_mem, errCount_mem, onTile_mem]

theorem mergeArrival_mem (c : Contribution) (h : mergeArrival c s = some t) : t.memOk = true := by
  unfold mergeArrival at h
  grind [forwardSlot_mem, onTile_mem, spill_mem]

theorem decideArrival_mem (c : Contribution) (h : decideArrival c s = some t) : t.memOk = true := by
  unfold decideArrival at h
  grind [errCount_mem, lateArrival_mem, onTile_mem, → mergeArrival_mem]

theorem nredArrival_mem (c : Contribution) : (nredArrival c s).memOk = true := by
  unfold nredArrival
  split
  · split
    · exact hs
    · exact getD_mem hs fun t => decideArrival_mem hs _
  · split
    · exact hs
    split
    · split
      · exact stopHead_mem hs ..
      split
      · exact hs
      · next e => exact stopHead_mem (decideArrival_mem hs _ e) ..
    · exact hs

/-! ### The matrix unit -/

theorem onMx_mem (f : MxCtx → MxCtx) : (onMx f s).memOk = true := hs

theorem mxSettle_mem : (mxSettle s).memOk = true := by
  unfold mxSettle
  repeat' split
  all_goals exact hs

theorem mxFail_mem (i : Nat) (m : MxCmd) (f : MxFail) : (mxFail i m f s).memOk = true := by
  unfold mxFail
  grind [deliverTrap_mem, mxSettle_mem, onMx_mem]

theorem markStarted_mem (i : Nat) : (markStarted i s).memOk = true := hs

theorem mxStart_mem (i : Nat) (m : MxCmd) : (mxStart i m s).memOk = true := by
  unfold mxStart
  grind [markStarted_mem, mlatchRun_mem, mmaRun_mem, mxFail_mem, onMx_mem]

theorem matrixCmdStart_mem : (matrixCmdStart s).memOk = true := by
  unfold matrixCmdStart
  grind [mxStart_mem]

theorem mxPop_mem : (mxPop s).memOk = true := by
  unfold mxPop
  grind [mxSettle_mem, onMx_mem]

theorem unitAsk_mem (m : MxCmd) (k : Nat) (bs : List Byte) : (unitAsk m k bs s).memOk = true := by
  unfold unitAsk
  grind [pairRelease_mem]

theorem drainAmo_mem (m : MxCmd) : (drainAmo m s).1.memOk = true := by
  unfold drainAmo
  split
  · exact mxPop_mem hs
  split
  · exact mxFail_mem hs ..
  · exact hs
  · next pa s1 e =>
    have h1 := engXlat_mem hs _ _ _ e
    dsimp only
    split
    · exact unitAsk_mem hs ..
    split
    · exact mxPop_mem (acted_mem _ hs)
    have h2 := acted_mem (unitWhat m m.moved) (chargeAccess_mem pa 4 h1)
    split
    · next e => exact mxPop_mem (withHome_mem h2 (amoPerform_value_wf (memOk_home h2) e))
    · next e => exact mxPop_mem (failNamed_mem (withHome_mem h2 (amoPerform_unheard_wf (memOk_home h2) e)) ..)
    · exact mxPop_mem (failNamed_mem h2 ..)
    · exact mxPop_mem (failNamed_mem h2 ..)
    · exact mxFail_mem h2 ..

theorem drainStep_mem (m : MxCmd) : (drainStep m s).1.memOk = true := by
  unfold drainStep
  split
  · exact drainAmo_mem hs m
  extract_lets bs tcm a what
  have hw : (if tcm then s else acted what s).memOk = true := by
    split
    · exact hs
    · exact acted_mem _ hs
  split
  · exact unitAsk_mem hs ..
  split
  · exact mxFail_mem hs ..
  · exact mxFail_mem hs ..
  · exact hs
  · next e => exact onMx_mem (engWrite_mem hw _ _ _ _ _ e) _

theorem mxComplete_mem : (mxComplete s).1.memOk = true := by
  unfold mxComplete
  split
  · exact hs
  split
  · exact hs
  split
  · exact hs
  · exact mxPop_mem (onMx_mem hs _)
  · split
    · exact hs
    · exact drainStep_mem hs _
  · exact mxPop_mem hs
  · exact mxPop_mem hs
  · exact mxPop_mem hs

theorem freeLatch_mem : (freeLatch s).2.memOk = true := hs

theorem mrotRotate_mem : (mrotRotate s).memOk = true := by
  unfold mrotRotate
  grind [freeLatch_mem, mxPop_mem, onMx_mem]

theorem accParityReplay_mem (a : Bool) : (accParityReplay a s).memOk = true := by
  unfold accParityReplay
  grind [State_free_mem, updCtx_mem]

/-! ### The block table -/

theorem pushFree_mem (i : Nat) : (pushFree i s).memOk = true := by
  unfold pushFree
  grind [State_setVf_mem, putEntry_mem]

theorem popFree_mem (tier : Bool) {y} (h : popFree tier s = some (y, t)) : t.memOk = true := by
  unfold popFree at h
  grind [State_setVf_mem]

theorem blkAlloc_mem (tier : Bool) {y} (h : blkAlloc tier s = some (y, t)) : t.memOk = true := by
  unfold blkAlloc at h
  grind [putEntry_mem, → popFree_mem]

theorem blkRetire_mem (i : Nat) (e : BlkEntry) : (blkRetire i e s).memOk = true := by
  unfold blkRetire
  grind [pushFree_mem, putEntry_mem]

theorem dropMove_mem (p : MoveRec → Bool) : (dropMove p s).memOk = true := hs

theorem abandonMove_mem (i : Nat) : (abandonMove i s).memOk = true := by
  unfold abandonMove
  grind [dropMove_mem, pushFree_mem]

theorem blkDrop_mem (i : Nat) : (blkDrop i s).memOk = true := by
  unfold blkDrop
  grind [abandonMove_mem, blkRetire_mem, putEntry_mem]

theorem decDrain_mem (i : Nat) : (decDrain i s).memOk = true := by
  unfold decDrain
  grind [dropMove_mem, pushFree_mem, putEntry_mem]

theorem blkPop_mem : (blkPop s).memOk = true := by
  unfold blkPop
  grind [opActed_mem, setQueueOps_mem]

theorem blkAnswer_mem (o : EngOp) (ans : Option Word) (trap : Option PendTrap) : (blkAnswer o ans trap s).memOk = true := by
  unfold blkAnswer
  grind [blkPop_mem, updCtx_mem]

theorem blkFail_mem (o : EngOp) (p : PendTrap) (sadr : Option Nat) : (blkFail o p sadr s).memOk = true := by
  unfold blkFail
  grind [blkPop_mem, deliverTrap_mem, tcmPut_mem]

theorem blkrefStep_mem (o : EngOp) (w : Word) : (blkrefStep o w s).memOk = true := by
  unfold blkrefStep
  grind [blkAnswer_mem, putEntry_mem]

theorem blkrefNewStep_mem (o : EngOp) (w : Word) : (blkrefNewStep o w s).memOk = true := by
  unfold blkrefNewStep
  grind [blkAnswer_mem, → blkAlloc_mem]

theorem blkfreeStep_mem (o : EngOp) (w : Word) : (blkfreeStep o w s).memOk = true := by
  unfold blkfreeStep
  grind [blkAnswer_mem, blkDrop_mem]

theorem cowConsume_mem (o : EngOp) (pa : Nat) : (cowConsume o pa s).memOk = true := by
  unfold cowConsume
  grind [State_free_mem, blkPop_mem, failNamed_mem, updCtx_mem]

theorem blkcowStart_mem (o : EngOp) (pa : Nat) : (blkcowStart o pa s).memOk = true := by
  unfold blkcowStart
  grind [blkAnswer_mem, chargeAccess_mem, cowConsume_mem, putEntry_mem, setHead_mem, → blkAlloc_mem]

theorem blkPoison_mem (o : EngOp) (pa : Nat) : (blkPoison o pa s).memOk = true := by
  unfold blkPoison
  grind [blkPop_mem, deliverTrap_mem]

theorem blkStop_mem (o : EngOp) (e : EStop) (pa : Nat) : (blkStop o e pa s).memOk = true := by
  unfold blkStop
  grind [blkPoison_mem, failNamed_mem]

theorem blkcowGo_mem (o : EngOp) (pa : Nat) (p : BlkProg) : (blkcowGo o pa p s).memOk = true := by
  unfold blkcowGo
  grind [blkAnswer_mem, blkDrop_mem, blkStop_mem, chargeAccess_mem, cowConsume_mem, decDrain_mem, engWritePa_mem, homePut_wf, onHome_mem,
    setHead_mem, updCtx_mem, → engReadPa_mem, memOk_home, memOk_tcm, memOk_saved]

theorem moveStart_mem (o : EngOp) (put : Bool) (w : Word) (sadr : Nat) : (moveStart o put w sadr s).memOk = true := by
  unfold moveStart
  grind [blkFail_mem, putEntry_mem, setHead_mem]

theorem moveUnit_mem (o : EngOp) (put : Bool) (off tadr len : Nat) (p : BlkProg) : (moveUnit o put off tadr len p s).memOk = true := by
  unfold moveUnit
  grind [blkPoison_mem, blkStop_mem, decDrain_mem, engWritePa_mem, setHead_mem, tcmPut_mem, → engReadPa_mem, → engRead_mem]

theorem tierStart_mem (o : EngOp) (w v : Word) : (tierStart o w v s).memOk = true := by
  unfold tierStart
  grind [blkFail_mem, blkPop_mem, onHome_mem, putEntry_mem, setHead_mem, → popFree_mem, memOk_home, memOk_tcm, memOk_saved]

theorem chargeUnit_mem (src dst : Nat) : (chargeUnit src dst s).memOk = true := by
  unfold chargeUnit
  repeat' split
  all_goals exact hs

theorem tierUnit_mem (o : EngOp) (p : BlkProg) : (tierUnit o p s).memOk = true := by
  unfold tierUnit
  grind [abandonMove_mem, blkPoison_mem, blkPop_mem, blkStop_mem, chargeUnit_mem, copyTags_mem, homePut_wf, onHome_mem, putEntry_mem,
    setHead_mem, memOk_home, memOk_tcm, memOk_saved]

theorem syncStep_mem (o : EngOp) {r : State} (hr : r.memOk = true) : (syncStep o r s).memOk = true := by
  unfold syncStep
  dsimp only
  generalize (r.findCtx _).isSome = b
  split
  · exact hs
  · exact hr

theorem blockEntryStep_mem : (blockEntryStep s).memOk = true := by
  unfold blockEntryStep
  split
  · exact hs
  split
  · exact hs
  split
  · exact syncStep_mem hs _ (blkrefStep_mem hs _ _)
  · exact syncStep_mem hs _ (blkrefNewStep_mem hs _ _)
  · exact syncStep_mem hs _ (blkfreeStep_mem hs _ _)
  · exact syncStep_mem hs _ (blkcowStart_mem hs _ _)
  · exact syncStep_mem hs _ (blkcowGo_mem hs _ _ _)
  · exact moveStart_mem hs ..
  · exact moveUnit_mem hs ..
  · exact moveStart_mem hs ..
  · exact moveUnit_mem hs ..
  · exact tierStart_mem hs ..
  · exact tierUnit_mem hs ..
  · exact hs

theorem transferEnd_mem (p : BlkProg) (len sadr : Nat) : (transferEnd p len sadr s).memOk = true := by
  unfold transferEnd
  grind [blkPop_mem, decDrain_mem, tcmPut_mem]

theorem blkmoveTransferEnd_mem : (blkmoveTransferEnd s).memOk = true := by
  unfold blkmoveTransferEnd
  grind [transferEnd_mem]

theorem tierCommit_mem (p : BlkProg) : (tierCommit p s).memOk = true := by
  unfold tierCommit
  grind [dropMove_mem, onHome_mem, pushFree_mem, putEntry_mem, memOk_home, memOk_tcm, memOk_saved]

theorem blkmoveTierCommit_mem : (blkmoveTierCommit s).memOk = true := by
  unfold blkmoveTierCommit
  grind [blkPop_mem, tierCommit_mem]

/-! ### Candidates and the start of activations -/

theorem inboxPut_mem (off : Nat) (pad : Option InChunk) (payload : List Word) : (inboxPut off pad payload s).memOk = true := by
  unfold inboxPut
  grind [onCore_mem, tcmPut_mem, memOk_mk, memOk_home, memOk_tcm, memOk_saved]

theorem enterInbox_mem (c : Cand) {y} (h : enterInbox c s = some (y, t)) : t.memOk = true := by
  unfold enterInbox at h
  grind [inboxPut_mem]

theorem brambleIdle_mem : (brambleIdle s).memOk = true := hs

theorem placeCand_mem (c : Cand) {y} (h : placeCand c s = some (y, t)) : t.memOk = true := by
  unfold placeCand at h
  grind [→ enterInbox_mem]

theorem evict_mem (c : Cand) : (evict c s).memOk = true := by
  unfold evict
  repeat' split
  all_goals exact hs

theorem addCand_mem (c : Cand) (h : addCand c s = some t) : t.memOk = true := by
  unfold addCand at h
  grind [brambleIdle_mem, evict_mem, onTile_mem, → placeCand_mem]

theorem addLocal_mem (m : Msg) (cls : Option (BitVec 4)) (h : addLocal m cls s = some t) : t.memOk = true := by
  unfold addLocal at h
  grind [onTile_mem, → addCand_mem, Option.map_eq_some_iff]

theorem completionActivation_mem : (completionActivation s).memOk = true := by
  unfold completionActivation
  grind [onCore_mem, onTile_mem, → addCand_mem, memOk_home, memOk_tcm, memOk_saved]

theorem applyLaunchRegs_mem : (applyLaunchRegs s).memOk = true := hs

theorem addTask_mem (u : Task) : (addTask u s).memOk = true := hs

theorem startTask_mem (c : Cand) (frame : Nat) : (startTask c frame s).memOk = true := by
  unfold startTask
  grind [addTask_mem, applyLaunchRegs_mem, nextSeg_mem, onCore_mem, memOk_home, memOk_tcm, memOk_saved]

theorem grantFrame_mem (h : grantFrame s = some t) : t.memOk = true := by
  unfold grantFrame at h
  grind [addTask_mem, nextSeg_mem, onTile_mem]

theorem deliverWords_mem (c : Cand) (cls : BitVec 4) : (deliverWords c cls s).memOk = true := by
  unfold deliverWords
  grind [freeChunk_tcm, onCore_mem, updCtx_mem, memOk_home, memOk_tcm, memOk_saved]

theorem dropCand_mem (c : Cand) : (dropCand c s).memOk = true := hs

theorem launchStarted_mem (tag : BitVec 16) : (launchStarted tag s).memOk = true := hs

theorem releaseCand_mem (c : Cand) : (releaseCand c s).memOk = true := by
  unfold releaseCand
  grind [deliverWords_mem, dropCand_mem, launchStarted_mem, onTile_mem, startTask_mem]

theorem candidateRelease_mem : (candidateRelease s).memOk = true := by
  unfold candidateRelease
  grind [releaseCand_mem, → grantFrame_mem]

theorem replaceCand_mem (a b : Cand) : (replaceCand a b s).memOk = true := hs

theorem holdingDrain_mem : (holdingDrain s).memOk = true := by
  unfold holdingDrain
  grind [replaceCand_mem, → enterInbox_mem]

theorem brambleCopy_mem : (brambleCopy s).memOk = true := by
  unfold brambleCopy
  grind [brambleIdle_mem, replaceCand_mem, foldl_mem]

theorem brambleReplay_replay_mem : (brambleReplay.replay s).memOk = true := by
  unfold brambleReplay.replay
  grind [brambleIdle_mem, replaceCand_mem, → enterInbox_mem]

theorem brambleReplay_mem : (brambleReplay s).memOk = true := by
  unfold brambleReplay
  grind [brambleIdle_mem, brambleReplay_replay_mem, onTile_mem]

/-! ### Arrivals, injection and migration -/

theorem raiseProm_mem (src : Nat) (cls : BitVec 4) (p : Nat) : (raiseProm src cls p s).memOk = true := hs

theorem applyPips_mem (src : Nat) : (applyPips src s).memOk = true := by
  unfold applyPips
  grind [onTile_mem, raiseProm_mem, foldl_mem]

theorem seqGap_mem (src have_ seq : Nat) : (seqGap src have_ seq s).memOk = true := by
  unfold seqGap
  grind [errEntry_mem, onTile_mem]

theorem linkMessage_mem (src : Nat) (m : Msg) : (linkMessage src m s).memOk = true := by
  unfold linkMessage
  grind [applyPips_mem, onTile_mem, raiseProm_mem]

theorem messageArrival_mem (m : Msg) : (messageArrival m s).memOk = true := by
  unfold messageArrival
  grind [linkMessage_mem, seqGap_mem, → addCand_mem]

theorem depositNow_mem (d : Deposit) : (depositNow d s).1.memOk = true := by
  unfold depositNow
  grind [updCtx_mem]

theorem sendNote_mem (tid : Word) (origin : BitVec 13) (e : SendEnd) (f : Task → Task) : (sendNote tid origin e f s).memOk = true := by
  unfold sendNote
  grind [errCount_mem, onTile_mem, updCtx_mem]

theorem sendEnded_mem (tid : Word) (origin : BitVec 13) (e : SendEnd) : (sendEnded tid origin e s).memOk = true := by
  unfold sendEnded
  grind [sendNote_mem]

theorem wordsEnded_mem (tid : Word) (origin : BitVec 13) (k n : Nat) (e : SendEnd) : (wordsEnded tid origin k n e s).memOk = true := by
  unfold wordsEnded
  grind [updCtx_mem]

theorem sendAccepted_mem (k : Nat) (e : SendEnd) : (sendAccepted k e s).memOk = true := by
  unfold sendAccepted
  grind [errCount_mem, onTile_mem, sendEnded_mem, wordsEnded_mem]

theorem drawSeq_mem (dst : Nat) (m : Msg) : (drawSeq dst m s).memOk = true := hs

theorem waitAccept_mem (by_ : Word × BitVec 13) : (waitAccept by_ s).memOk = true := hs

theorem injectMsg_mem (by_ : Word × BitVec 13) (m : Msg) : (injectMsg by_ m s).memOk = true := by
  unfold injectMsg
  grind [chargeNet_mem, drawSeq_mem, emit_mem, sendEnded_mem, waitAccept_mem]

theorem injectMcast_mem (by_ : Word × BitVec 13) (m : Msg) (cvec : Word) (mask : BitVec 16) :
    (injectMcast by_ m cvec mask s).memOk = true := by
  unfold injectMcast
  grind [chargeNet_mem, drawSeq_mem, emit_mem, sendEnded_mem, waitAccept_mem, foldl_mem]

theorem popInject_mem (k : Nat) : (popInject k s).memOk = true := hs

theorem bigCopy_mem (by_ : Word × BitVec 13) : (bigCopy by_ s).memOk = true := by
  unfold bigCopy
  grind [sendNote_mem]

theorem injectSelf_mem (by_ : Word × BitVec 13) (m : Msg) (h : injectSelf by_ m s = some t) : t.memOk = true := by
  unfold injectSelf at h
  grind [sendEnded_mem, → addLocal_mem, Option.map_eq_some_iff]

theorem injectOp_mem (o : Held) (by_ : Word × BitVec 13) (h : injectOp o by_ s = some t) : t.memOk = true := by
  unfold injectOp at h
  grind [bigCopy_mem, chargeNet_mem, depositNow_mem, emit_mem, errCount_mem, injectMcast_mem, injectMsg_mem, onTile_mem, sendEnded_mem,
    waitAccept_mem, → addLocal_mem, → injectSelf_mem, Option.map_eq_some_iff]

theorem mirrorOp_mem (o : Held) (by_ : Word × BitVec 13) (h : mirrorOp o by_ s = some t) : t.memOk = true := by
  unfold mirrorOp at h
  grind [bigCopy_mem, sendEnded_mem, → addLocal_mem, → injectOp_mem, → injectSelf_mem, Option.map_eq_some_iff]

theorem injectAt_mem (k : Nat) : (injectAt k s).memOk = true := by
  unfold injectAt
  split
  · exact hs
  dsimp only
  split
  · exact hs
  · refine getD_mem hs fun t e => ?_
    split at e
    · exact mirrorOp_mem (acted_mem _ (popInject_mem hs _)) _ _ e
    · exact injectOp_mem (acted_mem _ (popInject_mem hs _)) _ _ e

theorem sendWordsCur_mem : (sendWordsCur s).memOk = true := by
  unfold sendWordsCur
  grind [sendWords_mem]

theorem inject_mem (y : InjSel) : (inject y s).memOk = true := by
  cases y with
  | message k => exact injectAt_mem hs k
  | words frame => exact asFrame_mem hs frame fun z hz => sendWordsCur_mem hz

theorem packetInjection_mem : (packetInjection s).memOk = true := by
  unfold packetInjection
  grind [State_free_mem, inject_mem]

theorem migrationArrival_mem (m : MigTask) : (migrationArrival m s).memOk = true := by
  unfold migrationArrival
  dsimp only
  repeat' split
  · exact hs
  · exact hs
  · exact hs
  · exact getD_mem (s := (s.onTile _).onTile _) hs fun t => grantFrame_mem (s := (s.onTile _).onTile _) hs

/-! ### Virtual time and completion -/

theorem pipSend_mem (l : Nat) : (pipSend l s).memOk = true := by
  unfold pipSend
  grind [sendPip_mem]

theorem pipArrival_mem (l prom : Nat) (hd : PipHead) : (pipArrival l prom hd s).memOk = true := by
  unfold pipArrival
  repeat' split
  all_goals exact hs

theorem askSend_mem (l : Nat) : (askSend l s).memOk = true := by
  unfold askSend
  repeat' split
  all_goals exact hs

theorem askArrival_mem (l carried : Nat) : (askArrival l carried s).memOk = true := by
  unfold askArrival
  grind [onTile_mem, sendPip_mem]

theorem reportUp_mem : (reportUp s).memOk = true := by
  unfold reportUp
  grind [control_mem]

theorem forward_mem (p : Packet) : (forward p s).memOk = true := by
  unfold forward
  grind [control_mem, foldl_mem]

theorem sweepStart_mem (colour : Bool) : (sweepStart colour s).memOk = true := by
  unfold sweepStart
  grind [forward_mem, onTile_mem, reportUp_mem]

theorem sweepReport_mem (child : Nat) (f : SweepFig) : (sweepReport child f s).memOk = true := by
  unfold sweepReport
  grind [onTile_mem, reportUp_mem]

theorem sweepRecount_mem : (sweepRecount s).memOk = true := by
  unfold sweepRecount
  grind [forward_mem, onTile_mem, reportUp_mem]

theorem sweepPips_mem (n : Nat) : (sweepPips n s).memOk = true := by
  unfold sweepPips
  grind [sendPip_mem, foldl_mem]

theorem sweepEnd_mem (n commit : Nat) : (sweepEnd n commit s).memOk = true := by
  unfold sweepEnd
  grind [forward_mem, onTile_mem, sweepPips_mem]

theorem completionEntry_mem (q : BitVec 10) (idx : Nat) (tag : BitVec 16) (status : BitVec 32) (code : BitVec 8) :
    (completionEntry q idx tag status code s).memOk = true := by
  unfold completionEntry
  grind [homePut_wf, onHome_mem, memOk_home, memOk_tcm, memOk_saved]

theorem launchOver_mem (tag : BitVec 16) : (launchOver tag s).memOk = true := by
  unfold launchOver
  grind [onHome_mem, onHost_mem, memOk_mk, memOk_home, memOk_tcm, memOk_saved]

theorem doneSend_mem : (doneSend s).memOk = true := by
  unfold doneSend
  grind [completionEntry_mem, control_mem, launchOver_mem, onTile_mem]

/-! ### The launch unit and the loader -/

theorem addInitial_mem (l : Launch) : (addInitial l s).memOk = true := by
  unfold addInitial
  refine foldl_mem _ _ (fun z i hz => ?_) hs
  split
  · exact hz
  · exact getD_mem hz fun t => addCand_mem hz _

theorem leaveOld_mem (core : Nat) : (leaveOld core s).memOk = true := by
  unfold leaveOld
  repeat' split
  all_goals exact hs

theorem bindCores_mem (vf : BitVec 6) (asid : BitVec 16) (ts : List Nat) : (bindCores vf asid ts s).memOk = true := by
  unfold bindCores
  grind [joinAsid_mem, leaveOld_mem, onHost_mem, foldl_mem]

theorem launchCore_mem (asid : BitVec 16) (vf : BitVec 6) : (launchCore asid vf s).memOk = true := hs

theorem startLaunch_mem (q : Nat) (w : Wq) (r : RecBytes) (ms : List LeafMap) : (startLaunch q w r ms s).memOk = true := by
  unfold startLaunch
  grind [addInitial_mem, bindCores_mem, launchCore_mem, onHost_mem, onTile_mem, memOk_mk, memOk_home, memOk_tcm, memOk_saved]

theorem launchTake_mem (q : Nat) : (launchTake q s).memOk = true := by
  unfold launchTake
  grind [completionEntry_mem, onHost_mem, startLaunch_mem]

theorem copyPart_mem (pa : Nat) (p : Nat × Nat) (dst : Nat) : (copyPart pa p dst s).memOk = true := by
  unfold copyPart
  grind [homePut_wf, onHome_mem, memOk_home, memOk_tcm, memOk_saved]

theorem relocHome_mem (a base : Nat) : (relocHome a base s).memOk = true := by
  unfold relocHome
  grind [homePut_wf, onHome_mem, memOk_home, memOk_tcm, memOk_saved]

theorem relocTcm_mem (a base : Nat) : (relocTcm a base s).memOk = true := by
  unfold relocTcm
  grind [tcmPut_mem]

theorem relocate_mem (pa r : Nat) (b : RoleBase) (mine : Bool) (e : Word) : (relocate s pa r b mine e).memOk = true := by
  unfold relocate
  grind [State_free_mem, relocHome_mem, relocTcm_mem]

theorem loadImage_mem (pa r fanout : Nat) (cores : List Nat) : (loadImage pa r fanout cores s).memOk = true := by
  unfold loadImage
  grind [emit_mem, tcmPut_mem, foldl_mem]

theorem loadRole_mem (pa r : Nat) (b : RoleBase) (roles : List (Nat × Nat)) : (loadRole pa r b roles s).memOk = true := by
  unfold loadRole
  grind [copyPart_mem, loadImage_mem, relocate_mem, foldl_mem]

theorem relocRecord_mem (pa : Nat) (rel : Bool) (base : Nat → RoleBase) (n : Nat) : (relocRecord pa rel base n s).memOk = true := by
  unfold relocRecord
  grind [homePut_wf, onHome_mem, memOk_home, memOk_tcm, memOk_saved]

theorem setLoadst_mem (f : BitVec 6) (code : BitVec 8) : (setLoadst f code s).memOk = true := hs

theorem loadContainer_mem (f : BitVec 6) (v : Word) : (loadContainer f v s).memOk = true := by
  unfold loadContainer
  grind [State_setVf_mem, loadRole_mem, relocRecord_mem, setLoadst_mem, memOk_mk, memOk_home, memOk_tcm, memOk_saved, foldl_mem]

/-! ### Walks and faults -/

theorem addFault_mem (w : WalkFor) (m : Miss) (f : WalkFault) : (addFault w m f s).memOk = true := by
  unfold addFault
  grind [free_mem, onTile_mem]

theorem fillTlbs_mem (m : Miss) (e : Tlb) : (fillTlbs m e s).memOk = true := by
  unfold fillTlbs
  repeat' split
  all_goals exact hs

theorem noteWalk_mem (w : WalkFor) (m : Miss) : (noteWalk w m s).memOk = true := by
  unfold noteWalk
  grind [failNamed_mem]

theorem walkMiss_mem (w : WalkFor) (m : Miss) : (walkMiss w m s).memOk = true := by
  unfold walkMiss
  grind [addFault_mem, fillTlbs_mem, noteWalk_mem]

theorem pageWalk_mem (w : WalkFor) : (pageWalk w s).memOk = true := by
  unfold pageWalk
  grind [flushErr_mem, onTile_mem, walkMiss_mem]

theorem streamRefused_mem (k : BitVec 3) (va : Nat) : (streamRefused k va s).memOk = true := by
  unfold streamRefused
  grind [drainBad_mem, onCur_mem]

theorem refuseFor_mem (a : Asker) : (refuseFor s a).memOk = true := by
  unfold refuseFor
  split
  · have home := memOk_home hs
    have tcm := memOk_tcm hs
    have saved := memOk_saved hs
    refine memOk_of home tcm ?_
    rw [List.all_map]
    refine List.all_eq_true.2 fun y hy => ?_
    have := List.all_eq_true.1 saved y hy
    dsimp only [Function.comp]
    split
    · exact this
    · exact this
  split
  · exact hs
  split
  · exact hs
  split
  · exact updCtx_mem hs ..
  · exact asFrame_mem hs _ fun z hz => streamRefused_mem hz ..
  · split
    · split
      · exact hs
      · exact mxFail_mem hs ..
    · exact copyStop_mem hs ..
  · exact errDrop_mem hs

theorem settleFault_mem (f : FaultRec) (retry : Bool) : (settleFault f retry s).memOk = true := by
  unfold settleFault
  grind [onTile_mem, refuseFor_mem, foldl_mem]

theorem faultReplyArrival_mem (token : Word) (retry : Bool) : (faultReplyArrival token retry s).memOk = true := by
  unfold faultReplyArrival
  grind [onHome_mem, settleFault_mem, memOk_home, memOk_tcm, memOk_saved]

theorem markPosted_mem (f : FaultRec) (core : BitVec 13) : (markPosted f core s).memOk = true := hs

theorem startFault_mem (v : BitVec 6) (ws : List Word) (hand : BitVec 54) (h : startFault v ws hand s = some t) : t.memOk = true := by
  unfold startFault at h
  grind [onTile_mem, startTask_mem, memOk_mk, memOk_home, memOk_tcm, memOk_saved]

theorem postFault_mem (f : FaultRec) : (postFault f s).memOk = true := by
  unfold postFault
  dsimp only
  split
  · exact hs
  split
  · exact settleFault_mem hs _ _
  split
  · exact getD_mem hs fun t => startFault_mem (markPosted_mem hs _ _) _ _ _
  · exact emit_mem (markPosted_mem hs _ _) _

theorem foreignFault_mem (ws : List Word) : (foreignFault ws s).memOk = true := by
  unfold foreignFault
  generalize (if ((ws[2]?).getD 0).getLsbD 5 then 0 else s.core.vf) = v
  dsimp only
  split
  · exact emit_mem hs _
  split
  · exact getD_mem hs fun t => startFault_mem hs _ _ _
  · exact hs

/-! ### Energy, pre-emption and shared clusters -/

theorem addEcnt_mem (v : BitVec 6) (n : Nat) : (addEcnt v n s).memOk = true := hs

theorem foldMeter_mem : (foldMeter s).memOk = true := by
  unfold foldMeter
  grind [addEcnt_mem, onTile_mem, foldl_mem]

theorem idleOne_mem (v : BitVec 6) : (idleOne v s).memOk = true := hs

theorem chargeIdle_mem : (chargeIdle s).memOk = true := by
  unfold chargeIdle
  grind [idleOne_mem, foldl_mem]

theorem quotaStops_mem : (quotaStops s).memOk = true := by
  unfold quotaStops
  grind [stopVf_mem, foldl_mem]

theorem refreshCharge_mem (measured pages : Nat) : (refreshCharge measured pages s).memOk = true := by
  unfold refreshCharge
  grind [addEcnt_mem, foldl_mem]

theorem withdrawMrot_mem : (withdrawMrot s).memOk = true := by
  unfold withdrawMrot
  repeat' split
  all_goals exact hs

theorem stopTasks_mem : (stopTasks s).memOk = true := by
  unfold stopTasks
  grind [saveMx_tcm, memOk_mk, memOk_home, memOk_tcm, memOk_saved]

theorem preemption_mem : (preemption s).memOk = true := by
  unfold preemption
  grind [State_setVf_mem, chargeOpen_mem, onHost_mem, stopTasks_mem, withdrawMrot_mem]

theorem reclaimMx_mem : (reclaimMx s).memOk = true := by
  unfold reclaimMx
  repeat' split
  all_goals exact hs

theorem absentMx_mem : (absentMx s).memOk = true := by
  unfold absentMx
  repeat' split
  all_goals exact hs

theorem restoreCore_mem : (restoreCore s).memOk = true := by
  unfold restoreCore
  grind [absentMx_mem, onCore_mem, reclaimMx_mem, memOk_home, memOk_tcm, memOk_saved]

theorem contextRestore_mem : (contextRestore s).memOk = true := by
  unfold contextRestore
  grind [chargeOpen_mem, restoreCore_mem]

theorem resumeVf_mem (v : BitVec 6) : (resumeVf v s).memOk = true := hs

theorem equotaWrite_mem (v : BitVec 6) (w : Word) : (equotaWrite v w s).memOk = true := by
  unfold equotaWrite
  grind [State_setVf_mem, resumeVf_mem]

/-- A context saved for later is one of those whose TCM is kept in canonical form. -/
theorem incoming_tcm (v : BitVec 6) : Memory.wf (incoming s v).core.tcm = true := by
  unfold incoming
  cases e : s.saved.find? fun x => x.vf == v with
  | none => rfl
  | some y => exact List.all_eq_true.1 (memOk_saved hs) y (List.mem_of_find?_eq_some e)

theorem switchTo_mem (v : BitVec 6) : (switchTo v s).memOk = true := by
  have home := putCells_wf (incoming s v).spm (clearSpm_wf (inSpm s.clusterId) (memOk_home hs))
  have tcm := memOk_tcm hs
  have saved := List.all_eq_true.1 (memOk_saved hs)
  unfold switchTo
  extract_lets out x h src s1
  have h1 : s1.memOk = true := by
    refine memOk_of home (incoming_tcm hs v) ?_
    refine List.all_eq_true.2 fun y hy => ?_
    rcases List.mem_cons.1 hy with rfl | hy
    · exact tcm
    · exact saved y (List.mem_filter.1 hy).1
  refine foldl_mem _ _ (fun z a hz => refuseFor_mem hz a) ?_
  split
  · exact restoreCore_mem h1
  · exact h1

theorem quantumExpiry_mem : (quantumExpiry s).memOk = true := by
  unfold quantumExpiry
  grind [chargeOpen_mem, onHost_mem, stopTasks_mem, switchTo_mem, withdrawMrot_mem]

theorem zeroOwn_mem : (zeroOwn s).memOk = true := by
  have home := memOk_home hs
  have saved := memOk_saved hs
  exact memOk_of home rfl saved

theorem partitionReset_mem (v : BitVec 6) : (partitionReset v s).memOk = true := by
  unfold partitionReset
  grind [State_setVf_mem, clearSpm_wf, dropTlb_mem, onHome_mem, onTile_mem, zeroOwn_mem, memOk_mk, memOk_home, memOk_tcm, memOk_saved]

theorem endReset_mem (r : RunInfo) : (endReset s r).memOk = true := by
  unfold endReset
  grind [State_free_mem, completionEntry_mem, launchOver_mem]

theorem resetEnd_mem (v : BitVec 6) : (resetEnd v s).memOk = true := by
  unfold resetEnd
  grind [State_setVf_mem, endReset_mem, foldl_mem]

theorem resetDrain_mem : (resetDrain s).memOk = true := by
  unfold resetDrain
  grind [onHome_mem, resetEnd_mem, memOk_home, memOk_tcm, memOk_saved, foldl_mem]

/-! ### The host and bring-up -/

theorem clasgWrite_mem (c : BitVec 6) (w : Word) : (clasgWrite c w s).memOk = true := by
  unfold clasgWrite
  grind [onHost_mem]

theorem wqcfgWrite_mem (q : BitVec 10) (w : Word) : (wqcfgWrite q w s).memOk = true := by
  unfold wqcfgWrite
  grind [onHost_mem]

theorem ringWrite_mem (v : BitVec 6) (q k : Nat) (w : Word) : (ringWrite v q k w s).memOk = true := by
  unfold ringWrite
  grind [onHost_mem]

theorem hostWrite_mem (v : BitVec 6) (off : Nat) (w : Word) : (hostWrite v off w s).memOk = true := by
  unfold hostWrite
  grind [State_setVf_mem, ringWrite_mem]

theorem cxlAccess_mem (pa : Nat) (w : Option (List Byte)) : (cxlAccess pa w s).memOk = true := by
  unfold cxlAccess
  grind [homePut_wf, onHome_mem, memOk_home, memOk_tcm, memOk_saved]

theorem trainLanes_mem : (trainLanes s).memOk = true := by
  unfold trainLanes
  grind [onHome_mem, memOk_home, memOk_tcm, memOk_saved]

theorem selfTest_mem (w : Word) : (selfTest w s).memOk = true := hs

theorem bridgeLane_mem (w : Word) : (bridgeLane w s).memOk = true := by
  unfold bridgeLane
  repeat' split
  all_goals exact hs

theorem bringup_mem : (bringup s).memOk = true := by
  unfold bringup
  grind [bridgeLane_mem, free_mem, onHost_mem, onTile_mem, selfTest_mem, trainLanes_mem]

/-! ### Errors and recovery -/

theorem twatchExpiry_mem (frame : Nat) : (twatchExpiry frame s).memOk = true := by
  unfold twatchExpiry
  grind [updCtx_mem]

theorem dropAction_mem (what : PairWhat) : (dropAction what s).memOk = true := by
  unfold dropAction
  grind [State_mapTasks_mem, mxPop_mem, onCore_mem, popInject_mem, sendEnded_mem, setPart_mem, memOk_home, memOk_tcm, memOk_saved]

theorem dropItem_mem (p : PairItem) : (dropItem p s).memOk = true := by
  unfold dropItem
  grind [dropAction_mem, onCore_mem, memOk_home, memOk_tcm, memOk_saved]

theorem dropItems_mem (u : Task) : (dropItems u s).memOk = true := by
  unfold dropItems
  grind [dropItem_mem, foldl_mem]

theorem errorEntry_mem (kind : BitVec 8) (u : Task) (e : BitVec 8 × Word × Word) : (errorEntry kind u e s).memOk = true := by
  unfold errorEntry
  grind [errEntry_mem]

theorem endOnError_mem (e : BitVec 8 × Word × Word) : (endOnError e s).memOk = true := by
  unfold endOnError
  grind [discardCur_mem, dropItems_mem, endCur_mem, errorEntry_mem, onTile_mem]

theorem dropWork_mem : (dropWork s).memOk = true := by
  unfold dropWork
  grind [discardCur_mem, dropBinding_mem, dropItems_mem, freeRuns_tcm, onCore_mem, onCur_mem, memOk_home, memOk_tcm, memOk_saved, foldl_mem]

theorem errorConsumed_mem : (errorConsumed s).memOk = true := by
  unfold errorConsumed
  grind [dropWork_mem, endOnError_mem, onCur_mem, shadowAbandon_mem, memOk_mk, memOk_home, memOk_tcm, memOk_saved]

theorem redelivery_mem : (redelivery s).memOk = true := by
  unfold redelivery
  grind [errorEntry_mem, onTile_mem, updCtx_mem]

theorem parityReplay_mem (frame : Nat) (vec : Bool) (r : BitVec 4) : (parityReplay frame vec r s).memOk = true := by
  unfold parityReplay
  grind [State_free_mem, chargeOpen_mem, updCtx_mem]

theorem memError_mem (e : ErrSite) (double : Bool) : (memError e double s).memOk = true := by
  unfold memError
  grind [onCore_mem, onHome_mem, updCtx_mem, memOk_home, memOk_tcm, memOk_saved]

theorem scrub_mem (f : ScrubFind) : (scrub f s).memOk = true := by
  unfold scrub
  repeat' split
  all_goals exact hs

theorem flitError_mem (l : LinkSel) (within : Bool) : (flitError l within s).memOk = true := by
  unfold flitError
  grind [onHome_mem, onHost_mem, memOk_home, memOk_tcm, memOk_saved]

theorem mismatch_mem (p : PairItem) : (mismatch p s).memOk = true := by
  unfold mismatch
  grind [errEntry_mem, onTile_mem, updCtx_mem]

theorem matched_mem (p : PairItem) : (matched p s).memOk = true := by
  unfold matched
  grind [onCore_mem, updCtx_mem, memOk_home, memOk_tcm, memOk_saved]

theorem pairHashCompare_mem (v : BitVec 64) : (pairHashCompare v s).memOk = true := by
  unfold pairHashCompare
  grind [dropItem_mem, matched_mem, mismatch_mem]

theorem pairTimeout_mem : (pairTimeout s).memOk = true := by
  unfold pairTimeout
  grind [dropItem_mem, mismatch_mem]

theorem forwardCur_mem (r : BitVec 4) (v : Word) : (forwardCur r v s).memOk = true := by
  unfold forwardCur
  grind [State_setW_mem, acted_mem, blkPop_mem, onCur_mem]

theorem primaryForward_mem (r : BitVec 4) (v : Word) : (primaryForward r v s).memOk = true := by
  unfold primaryForward
  dsimp only
  repeat' split
  · exact hs
  · exact forwardCur_mem hs ..
  · exact State_setW_mem _ _ hs
  · exact asCtx_mem hs _ fun z hz => forwardCur_mem hz ..

theorem tileGone_mem (n : Nat) : (tileGone n s).memOk = true := by
  unfold tileGone
  grind [errEntry_mem, onCore_mem, onHost_mem, onTile_mem, memOk_home, memOk_tcm, memOk_saved]

theorem coreSpareSwap_mem : (coreSpareSwap s).memOk = true := by
  unfold coreSpareSwap
  grind [chargeOpen_mem, onHost_mem, onTile_mem, restoreCore_mem, stopTasks_mem, withdrawMrot_mem]

theorem hbmLaneSpare_mem : (hbmLaneSpare s).memOk = true := hs

theorem endAll_mem (n : ℕ) : (endAll s n).memOk = true := by
  induction n generalizing s with
  | zero => exact hs
  | succ n ih =>
    refine ih (asCtx_mem hs n fun z hz => ?_)
    split
    · exact hz
    · exact endCur_mem (discardCur_mem hz)

theorem endTasks_mem : (endTasks s).memOk = true := by
  unfold endTasks
  grind [discardCur_mem, endAll_mem, endCur_mem]

theorem retireWork_mem : (retireWork s).memOk = true := by
  unfold retireWork
  grind [endTasks_mem, errEntry_mem, onTile_mem]

theorem retireSaved_mem (l : List SavedCtx) (hl : ∀ y ∈ l, Memory.wf y.core.tcm = true) : (retireSaved l s).memOk = true := by
  induction l generalizing s with
  | nil => exact hs
  | cons y l ih =>
    have hy := hl y (List.mem_cons_self ..)
    have home := memOk_home hs
    have tcm := memOk_tcm hs
    have saved := memOk_saved hs
    unfold retireSaved
    have hz := retireWork_mem (s := { s with cur := y.tasks.headD {}, rest := y.tasks.drop 1, core := y.core, tile := y.tile, launch :=
    y.launch })
      (memOk_of home hy saved)
    have zhome := memOk_home hz
    have ztcm := memOk_tcm hz
    refine ih (memOk_of zhome tcm ?_) fun w hw => hl w (List.mem_cons_of_mem _ hw)
    dsimp only
    rw [List.all_map]
    refine List.all_eq_true.2 fun w hw => ?_
    dsimp only [Function.comp]
    split
    · exact ztcm
    · exact List.all_eq_true.1 saved w hw

theorem tileRetire_mem : (tileRetire s).memOk = true := by
  unfold tileRetire
  split
  · exact hs
  · exact (onHost_mem _ _).trans (retireWork_mem (retireSaved_mem hs s.saved fun y hy => List.all_eq_true.1 (memOk_saved hs) y hy))

/-! ### The debugger and trace -/

theorem cmdDone_mem (v : BitVec 6) : (cmdDone v s).memOk = true := hs

theorem dbgHalt_mem : (dbgHalt s).memOk = true := by
  unfold dbgHalt
  repeat' split
  all_goals exact hs

theorem unstopAll_mem : (unstopAll s).memOk = true := hs

theorem resumeTile_mem : (resumeTile s).memOk = true := hs

theorem dbgResume_mem : (dbgResume s).memOk = true := by
  unfold dbgResume
  repeat' split
  all_goals exact hs

theorem dbgStep_mem : (dbgStep s).memOk = true := by
  unfold dbgStep
  repeat' split
  all_goals exact hs

theorem stepOver_mem : (stepOver s).memOk = true := by
  unfold stepOver
  grind [cmdDone_mem, onCore_mem, memOk_home, memOk_tcm, memOk_saved]

theorem breakStop_mem : (breakStop s).memOk = true := by
  unfold breakStop
  grind [stopTask_mem, takeTrap_mem]

theorem matchEntry_mem (m : Fin 16) {y0} (h : matchEntry m s = .ok (y0, t)) : t.memOk = true := by
  unfold matchEntry at h
  grind [chargeAccess_mem, → sharedAddr_mem]

theorem matchEntry_err (m : Fin 16) (h : matchEntry m s = .error x) : x.state.memOk = true := by
  unfold matchEntry at h
  grind [→ homeRead_err, → sharedAddr_err, → sharedAddr_mem]

theorem startShadow_mem (m : Fin 16) (entry : Word) : (startShadow m entry s).memOk = true := hs

theorem shadowTimeout_mem : (shadowTimeout s).memOk = true := by
  unfold shadowTimeout
  repeat' split
  · exact hs
  · exact shadowAbandon_mem hs
  · exact hs
  · exact asCtx_mem hs _ fun z hz => shadowAbandon_mem hz

theorem sampleRecord_mem : (sampleRecord s).memOk = true := by
  unfold sampleRecord
  grind [slog_mem]

/-! ### Steps over -/

theorem running_mem : (running s).memOk = true := hs

/-! ### Turns of the environment -/

theorem dropCached_mem (vf : BitVec 6) (asid : Option (BitVec 16)) (va : Option Nat) : (dropCached vf asid va s).memOk = true := hs

theorem harvestSaved_mem (vf : BitVec 6) : (harvestSaved vf s).memOk = true := by
  have tcm := memOk_tcm hs
  have saved := memOk_saved hs
  refine memOk_of (foldl_setD_wf s _ (memOk_home hs)) tcm ?_
  unfold harvestSaved
  rw [List.all_map]
  refine List.all_eq_true.2 fun y hy => ?_
  have := List.all_eq_true.1 saved y hy
  dsimp only [Function.comp]
  split
  · exact this
  · exact this

theorem harvested_mem (vf : BitVec 6) : (harvested vf s).memOk = true := by
  unfold harvested
  grind [harvestSaved_mem, mergeDirty_mem]

theorem answered_mem : (answered s).memOk = true := hs

theorem energyFolded_mem (v : BitVec 6) (n : Nat) : (energyFolded v n s).memOk = true := by
  unfold energyFolded
  grind [addEcnt_mem, quotaStops_mem]

end

end Sys2Proof.Machine
end

section
/-! The memories stay in canonical form: every arm of `exec`, the issue of an instruction, a turn, a step, O3. -/

namespace Sys2Proof.Machine

/-- What the end of an instruction leaves. -/
theorem finish_keeps {r : Res State} {t : State} (k : keepsMem r) (h : finish r = .next t) : t.memOk = true :=
  finish_mem k.1 k.2 h

theorem stripRun_keeps {vd : Fld} {run : State → Res State} {s : State} (k : keepsMem (run s)) : keepsMem (stripRun vd run s) :=
  keepsMem_of (fun _ => stripRun_mem k.1) fun _ => stripRun_err k.2

section
variable {s t : State} {x : Stop} (hs : s.memOk = true)
include hs

theorem regWait_keeps (f : Fld) : keepsMem (regWait f s) := by
  unfold regWait
  split
  · exact keepsMem_error hs
  · exact keepsMem_error hs

theorem loadTcm_keeps (ext : Nat → Nat → Word) (a b : Fld) (sz : BitVec 2) (o : BitVec 14) : keepsMem (loadTcm ext a b sz o s) :=
  keepsMem_of (fun _ => loadTcm_mem _ _ _ _ _ hs) fun _ => loadTcm_err _ _ _ _ _ hs

/-! ### Scalar -/

theorem execSel_mem (a b c m : Fld) (h : execSel a b c m s = .next t) : t.memOk = true := by
  refine finish_keeps ?_ h
  split
  · next e => exact keepsMem_error (takeS_err _ _ hs e)
  · next e => exact keepsMem_ok (advance_mem (writeS_mem _ _ (charge_mem _ (takeS_mem _ _ hs e))))
  · next e => exact keepsMem_ok (takeS_mem _ _ hs e)

theorem execJal_mem (o : BitVec 26) (h : execJal o s = .next t) : t.memOk = true := by
  refine finish_keeps ?_ h
  split
  · exact regWait_keeps hs _
  have hc := charge_mem .br hs
  have hj := jumpTo_keeps hc (relTarget s o.toInt) hc
  dsimp only
  split
  · next e => exact keepsMem_error (hj.2 _ e)
  · next e => exact keepsMem_ok (State_ww_mem _ _ (hj.1 _ e))

theorem execJalr_mem (a b : Fld) (i : BitVec 14) (h : execJalr a b i s = .next t) : t.memOk = true := by
  refine finish_keeps ?_ h
  split
  · next e => exact keepsMem_error (takeS_err _ _ hs e)
  · next x z e =>
    have hz := charge_mem .br (takeS_mem _ _ hs e)
    have hj := jumpTo_keeps hz ((x.toNat : Int) + i.toInt * 4) hz
    dsimp only
    split
    · exact keepsMem_error hz
    split
    · next e => exact keepsMem_error (hj.2 _ e)
    · next e => exact keepsMem_ok (writeS_mem _ _ (hj.1 _ e))
  · next e => exact keepsMem_ok (takeS_mem _ _ hs e)

theorem execStp_mem (a b : Fld) (sz : BitVec 2) (o : BitVec 14) (h : execStp a b sz o s = .next t) : t.memOk = true := by
  refine finish_keeps ?_ h
  split
  · next e => exact keepsMem_error (takeS_err _ _ hs e)
  · next e =>
    have h1 := chargeOnce_mem .tcm (takeS_mem _ _ hs e)
    dsimp only
    split
    · next e => exact keepsMem_error (back_mem (tcmStore_err _ _ _ h1 e))
    · next e => exact keepsMem_ok (advance_mem (tcmStore_mem _ _ _ h1 e))
  · next e => exact keepsMem_ok (takeS_mem _ _ hs e)

/-! ### Ordering -/

theorem execAcq_mem (b : Fld) (p : BitVec 3) (h : execAcq b p s = .next t) : t.memOk = true := by
  refine finish_keeps (acqSet_keeps hs _ _ fun z hz x e => ?_) h
  split at e
  · next e' => cases e; exact needRegs_err hz _ e'
  · cases e

theorem execAcqTm_mem (b c : Fld) (p : BitVec 3) (h : execAcqTm b c p s = .next t) : t.memOk = true := by
  refine finish_keeps (acqSet_keeps hs _ _ fun z hz x e => ?_) h
  split at e
  · next e' => cases e; exact needRegs_err hz _ e'
  · cases e

theorem execAcqMap_mem (b c : Fld) (p : BitVec 3) (h : execAcqMap b c p s = .next t) : t.memOk = true :=
  finish_keeps (acqSet_keeps hs _ _ fun _ hz _ => acqBitmap_err hz _ _) h

theorem execLogsn_mem (a : Fld) (h : execLogsn a s = .next t) : t.memOk = true := by
  refine finish_keeps ?_ h
  split
  · next e => exact keepsMem_error (takeS_err _ _ hs e)
  · next e => exact keepsMem_ok (advance_mem (writeS_mem _ _ (charge_mem _ (takeS_mem _ _ hs e))))

theorem execLogdrop_mem (h : execLogdrop s = .next t) : t.memOk = true := by
  have hc := charge_mem .ord hs
  refine finish_keeps (keepsMem_ok (advance_mem ?_)) h
  exact hc

theorem execBtest_mem (a : Fld) (n : BitVec 6) (h : execBtest a n s = .next t) : t.memOk = true := by
  refine finish_keeps ?_ h
  split
  · next e => exact keepsMem_error (needRegs_err hs _ e)
  · exact keepsMem_ok (advance_mem (State_ww_mem _ _ (charge_mem _ hs)))

/-! ### Blocks -/

theorem execBlkref_mem (a b : Fld) (h : execBlkref a b s = .next t) : t.memOk = true :=
  finish_keeps (blockSync_keeps hs _ _ fun _ _ hz => blockIssue_keeps hz ..) h

theorem execBlkrefNew_mem (a b : Fld) (h : execBlkrefNew a b s = .next t) : t.memOk = true := by
  refine finish_keeps (blockSync_keeps hs _ _ fun w z hz => ?_) h
  split
  · exact keepsMem_error hz
  · exact blockIssue_keeps hz ..

theorem execBlkfree_mem (a b : Fld) (h : execBlkfree a b s = .next t) : t.memOk = true :=
  finish_keeps (blockSync_keeps hs _ _ fun _ _ hz => blockIssue_keeps hz ..) h

theorem execBlkcow_mem (a b : Fld) (h : execBlkcow a b s = .next t) : t.memOk = true :=
  finish_keeps (blockSync_keeps hs _ _ fun _ _ hz => blkcow_keeps hz ..) h

theorem execBlkmoveTier_mem (b c : Fld) (h : execBlkmoveTier b c s = .next t) : t.memOk = true := by
  refine finish_keeps ?_ h
  split
  · next e => exact keepsMem_error (needRegs_err hs _ e)
  · exact blockAsync_keeps hs ..

/-! ### Tasks and system -/

theorem execYield_mem (h : execYield s = .next t) : t.memOk = true := by
  have ha := advance_mem (charge_mem .task hs)
  refine finish_keeps (keepsMem_ok ((onCur_mem _ _).trans ?_)) h
  split
  · exact ha
  split
  · exact ha
  · exact ha

theorem execSweep_mem (h : execSweep s = .next t) : t.memOk = true :=
  finish_keeps (keepsMem_ok (advance_mem (wantSweep_mem (charge_mem _ hs)))) h

theorem execTrap_mem (c : BitVec 15) (h : execTrap c s = .next t) : t.memOk = true :=
  finish_keeps (keepsMem_error (x := .trap _ _ _ _) (charge_mem .sys hs)) h

theorem execEret_mem (h : execEret s = .next t) : t.memOk = true := by
  have hr := returnTrap_mem (charge_mem .sys hs)
  cases h
  exact hr

theorem execBrk_mem (c : BitVec 15) (h : execBrk c s = .next t) : t.memOk = true := by
  have hc := charge_mem .sys hs
  refine finish_keeps ?_ h
  split
  · exact keepsMem_ok (stopTask_mem hc _)
  · exact keepsMem_error hc

theorem execDbgmark_mem (b : Fld) (h : execDbgmark b s = .next t) : t.memOk = true := by
  refine finish_keeps ?_ h
  split
  · next e => exact keepsMem_error (needRegs_err hs _ e)
  · exact keepsMem_ok (advance_mem (slog_mem (charge_mem _ hs) ..))

theorem execTlbinvPage_mem (b c : Fld) (h : execTlbinvPage b c s = .next t) : t.memOk = true :=
  finish_keeps (tlbinv_keeps hs _ _ fun _ hz => keepsMem_ok (tellOthers_mem (dropTlb_mem hz _) _)) h

theorem execTlbinvAsid_mem (c : Fld) (h : execTlbinvAsid c s = .next t) : t.memOk = true :=
  finish_keeps (tlbinv_keeps hs _ _ fun _ hz => keepsMem_ok (tellOthers_mem (dropTlb_mem hz _) _)) h

theorem execTlbinvVf_mem (c : Fld) (h : execTlbinvVf c s = .next t) : t.memOk = true := by
  refine finish_keeps (tlbinv_keeps hs _ _ fun z hz => ?_) h
  dsimp only
  split
  · exact keepsMem_error hz
  · exact keepsMem_ok (tellOthers_mem (dropTlb_mem hz _) _)

theorem execTlbinvHarvest_mem (h : execTlbinvHarvest s = .next t) : t.memOk = true :=
  finish_keeps (tlbinv_keeps hs _ _ fun _ hz => keepsMem_ok (tellOthers_mem (mergeDirty_mem hz) _)) h

/-! ### Units -/

theorem execVtran_mem (a b : Fld) (m : Bool) (g : BitVec 3) (h : execVtran a b m g s = .next t) : t.memOk = true := by
  refine finish_keeps ?_ h
  have now := stripRun_keeps (vd := a) (vtranNow_keeps hs a b m g)
  split
  · next e => exact keepsMem_error (now.2 _ e)
  · exact vtran_keeps hs ..

theorem execMzero_mem (a : Fld) (h : execMzero a s = .next t) : t.memOk = true :=
  finish_keeps (mxIssue_keeps hs (fun _ _ _ e => by cases e) ..) h

theorem execMrot_mem (n : BitVec 6) (h : execMrot n s = .next t) : t.memOk = true := by
  refine finish_keeps (mxIssue_keeps hs (fun z hz x e => ?_) ..) h
  split at e
  · cases e
  · exact trapR_err _ _ hz e

theorem execFfree_mem (a : Fld) (h : execFfree a s = .next t) : t.memOk = true :=
  finish_keeps (keepsMem_ok (advance_mem (setHvy_mem (releaseF_mem (fCharge_mem hs ..) _)))) h

/-! ### Other agents -/

theorem execDoneReceive_mem (child : Nat) (status : BitVec 32) (h : execDoneReceive child status s = .next t) : t.memOk = true := by
  refine done_mem ?_ h
  split
  · exact hs
  · exact hs

theorem execPartApply_mem (p : PartSel) (h : execPartApply p s = .next t) : t.memOk = true := by
  cases p with
  | own seg k => exact done_mem (partApplyOwn_mem hs ..) h
  | foreign p =>
    refine done_mem ?_ h
    split
    · exact withHome_mem hs (homeRecs_wf _ _ _ (memOk_home hs))
    · exact hs

theorem execHomeLoad_mem (l : LoadSel) (h : execHomeLoad l s = .next t) : t.memOk = true := by
  cases l with
  | own frame k => exact done_mem (homeLoad_mem hs ..) h
  | foreign => exact done_mem hs h

theorem execHomeAmo_mem (r : AmoSel) (h : execHomeAmo r s = .next t) : t.memOk = true := by
  cases r with
  | own frame k => exact done_mem (homeAmo_mem hs ..) h
  | foreign r vf core =>
    unfold execHomeAmo at h
    dsimp only at h
    split at h
    · exact done_mem hs h
    · exact done_mem (withHome_mem hs (amoAtHome_wf r (memOk_home hs))) h

theorem execEngineWrite_mem (w : EngWrite) (h : execEngineWrite w s = .next t) : t.memOk = true := by
  refine done_mem ?_ h
  split
  · exact hs
  · exact withHome_mem hs (homeKeyedN_wf _ _ _ _ _ _ (memOk_home hs))

theorem execInPlaceDeviceWrite_mem (pa : Nat) (data : List Byte) (h : execInPlaceDeviceWrite pa data s = .next t) : t.memOk = true := by
  refine done_mem ?_ h
  split
  · exact hs
  · exact withHome_mem hs (homePut_wf _ _ (memOk_home hs))

theorem execCommitHorizon_mem (n : BitVec 48) (h : execCommitHorizon n s = .next t) : t.memOk = true := by
  refine done_mem ?_ h
  split
  · exact hs
  · exact hs

theorem execAcqRequest_mem (reader : BitVec 13) (scope : BitVec 3) (h : execAcqRequest reader scope s = .next t) : t.memOk = true := by
  unfold execAcqRequest at h
  extract_lets l at h
  split at h
  · exact done_mem (emit_mem hs _) h
  · refine done_mem ?_ h
    exact hs

theorem execBarrierWake_mem (n : BitVec 6) (h : execBarrierWake n s = .next t) : t.memOk = true :=
  done_mem (State_mapTasks_mem _ _ hs) h

theorem execXferStep_mem (q : Nat) (b : Bool) (h : done (if headKind q b s then (xferStep q s).1 else s) = .next t) : t.memOk = true := by
  refine done_mem ?_ h
  split
  · exact xferStep_mem hs _
  · exact hs

theorem execNredSlotTimeout_mem (slot : Nat) (h : execNredSlotTimeout slot s = .next t) : t.memOk = true := by
  unfold execNredSlotTimeout at h
  split at h
  · exact done_mem hs h
  · refine done_mem ?_ h
    split
    · exact hs
    · exact forwardSlot_mem hs ..

theorem execDepositArrival_mem (d : Deposit) (h : execDepositArrival d s = .next t) : t.memOk = true := by
  refine done_mem ?_ h
  split
  · exact hs
  · exact depositNow_mem hs _

theorem execDeadLinkReroute_mem (dest : BitVec 10) (r l : Bool) (h : execDeadLinkReroute dest r l s = .next t) : t.memOk = true := by
  refine done_mem ?_ h
  split
  · exact controlLost_mem hs ..
  · exact hs

theorem execFaultMessage_mem (f : FaultSel) (h : execFaultMessage f s = .next t) : t.memOk = true := by
  cases f with
  | own k =>
    refine done_mem ?_ h
    split
    · exact hs
    · exact postFault_mem hs _
  | foreign ws => exact done_mem (foreignFault_mem hs _) h

theorem execEstatResume_mem (v : BitVec 6) (h : execEstatResume v s = .next t) : t.memOk = true := by
  refine done_mem ?_ h
  split
  · exact resumeVf_mem hs _
  · exact hs

theorem execUnassignedEncoding_mem (w : IWord) (h : execUnassignedEncoding w s = .next t) : t.memOk = true := by
  unfold execUnassignedEncoding at h
  split at h
  · exact done_mem hs h
  · exact done_mem (takeTrap_mem _ _ _ _ hs) h

theorem execEngineTrapDelivery_mem (h : execEngineTrapDelivery s = .next t) : t.memOk = true := by
  unfold execEngineTrapDelivery at h
  split at h
  · exact done_mem hs h
  split at h
  · exact done_mem hs h
  · next p ps _ _ =>
    have hm := mxTrapTaken_mem hs p
    refine done_mem ((onCur_mem _ _).trans (takeTrap_mem _ _ _ _ ?_)) h
    exact hm

theorem execCompletionInterrupt_mem (h : execCompletionInterrupt s = .next t) : t.memOk = true := by
  unfold execCompletionInterrupt at h
  split at h
  · exact done_mem hs h
  split at h
  · exact done_mem hs h
  · exact done_mem (s := s.onCur _) hs h

theorem execAcqSweepRequest_mem (h : execAcqSweepRequest s = .next t) : t.memOk = true := by
  refine done_mem ?_ h
  split
  · exact wantSweep_mem hs
  · exact hs

theorem execSweepwaitExpiry_mem (h : execSweepwaitExpiry s = .next t) : t.memOk = true := by
  refine done_mem ?_ h
  split
  · exact wantSweep_mem hs
  · exact hs

theorem execSweepRequest_mem (h : execSweepRequest s = .next t) : t.memOk = true := by
  refine done_mem ?_ h
  split
  · exact wantSweep_mem hs
  dsimp only
  split
  · exact hs
  · exact control_mem (s := s.onTile _) hs ..

theorem execDirtyLogMerge_mem (h : execDirtyLogMerge s = .next t) : t.memOk = true := by
  refine done_mem ?_ h
  split
  · exact mergeDirty_mem hs
  · exact hs

theorem execDbgSync_mem (h : execDbgSync s = .next t) : t.memOk = true := by
  refine done_mem ?_ h
  split
  · exact hs
  · exact cmdDone_mem (dropLines_mem hs _) _

theorem execPcMatchHandler_mem (h : execPcMatchHandler s = .next t) : t.memOk = true := by
  unfold execPcMatchHandler at h
  split at h
  · exact done_mem hs h
  split at h
  · next e => exact done_mem (startShadow_mem (matchEntry_mem hs _ e) ..) h
  · next e => exact finish_keeps (keepsMem_error (matchEntry_err hs _ e)) h
end

theorem exec_mem_of_instr {s t : State} {i : Instr} (hi : i.isStep = false) (hs : s.memOk = true) (h : exec i s = .next t) :
    t.memOk = true := by
  cases i
  case add | sub | and | or | xor | andn | sll | srl | sra | rol | ror | slt | sltn | min | max | minn | maxn | mul | mulh | mulhn
      | div | divn | rem | remn | clmul | clmulh =>
    exact finish_keeps (rrr_keeps hs ..) h
  case clz | ctz | popc | bswap | addi | andi | ori | xori | slti | sltin | slli | srli | srai | roli =>
    exact finish_keeps (rr_keeps hs ..) h
  case sel => exact execSel_mem hs _ _ _ _ h
  case lhi | pchi => exact finish_keeps (rzero_keeps hs ..) h
  case jal => exact execJal_mem hs _ h
  case jalr => exact execJalr_mem hs _ _ _ h
  case beq | bne | blt | bge | bltn | bgen => exact finish_keeps (branch_keeps hs ..) h
  case ldp | ldpx => exact finish_keeps (loadTcm_keeps hs ..) h
  case stp => exact execStp_mem hs _ _ _ _ h
  case ld | ldx => exact finish_keeps (loadShared_keeps hs ..) h
  case st => exact finish_keeps (storeShared_keeps hs ..) h
  case amo => exact finish_keeps (amo_keeps hs ..) h
  case rel => exact finish_keeps (rel_keeps hs ..) h
  case acq => exact execAcq_mem hs _ _ h
  case acqTm => exact execAcqTm_mem hs _ _ _ h
  case acqMap => exact execAcqMap_mem hs _ _ _ h
  case acqBelow => exact finish_keeps (acqBelow_keeps hs ..) h
  case fence | fenceF => exact finish_keeps (fence_keeps hs ..) h
  case qfence => exact finish_keeps (qfence_keeps hs ..) h
  case logsn => exact execLogsn_mem hs _ h
  case send => exact finish_keeps (send_keeps hs ..) h
  case sendm => exact finish_keeps (sendm_keeps hs ..) h
  case sendc => exact finish_keeps (sendc_keeps hs ..) h
  case promise => exact finish_keeps (promise_keeps hs ..) h
  case deposit => exact finish_keeps (deposit_keeps hs ..) h
  case nred => exact finish_keeps (nred_keeps hs ..) h
  case nrwait => exact finish_keeps (nrwait_keeps hs ..) h
  case spawn => exact finish_keeps (spawn_keeps hs ..) h
  case wait => exact finish_keeps (waitT_keeps hs ..) h
  case migrate => exact finish_keeps (migrate_keeps hs ..) h
  case setlah => exact finish_keeps (setlah_keeps hs ..) h
  case sweepW => exact finish_keeps (sweepW_keeps hs ..) h
  case clmask | clunmask => exact finish_keeps (maskOp_keeps hs ..) h
  case binit => exact finish_keeps (binit_keeps hs ..) h
  case barrive => exact finish_keeps (barrive_keeps hs ..) h
  case bwait => exact finish_keeps (bwait_keeps hs ..) h
  case btest => exact execBtest_mem hs _ _ h
  case sbind => exact finish_keeps (sbind_keeps hs ..) h
  case sunbind => exact finish_keeps (sunbind_keeps hs ..) h
  case sstat => exact finish_keeps (sstat_keeps hs ..) h
  case qbind => exact finish_keeps (qbind_keeps hs ..) h
  case qunbind => exact finish_keeps (qunbind_keeps hs ..) h
  case copy => exact finish_keeps (copyI_keeps hs ..) h
  case sgrun => exact finish_keeps (sgrun_keeps hs ..) h
  case xstat => exact finish_keeps (xstat_keeps hs ..) h
  case xcancel => exact finish_keeps (xcancel_keeps hs ..) h
  case blkref => exact execBlkref_mem hs _ _ h
  case blkrefNew => exact execBlkrefNew_mem hs _ _ h
  case blkfree => exact execBlkfree_mem hs _ _ h
  case blkcow => exact execBlkcow_mem hs _ _ h
  case blkmoveTier => exact execBlkmoveTier_mem hs _ _ h
  case blkmoveGet | blkmovePut => exact finish_keeps (blkmove_keeps hs ..) h
  case blkstat => exact finish_keeps (blkstat_keeps hs ..) h
  case csrr | csrw | csrset | csrclr => exact finish_keeps (csrAccess_keeps hs ..) h
  case trap => exact execTrap_mem hs _ h
  case halt => exact finish_keeps (halt_keeps hs ..) h
  case brk c => exact execBrk_mem hs c h
  case dbgmark => exact execDbgmark_mem hs _ h
  case tlbinvPage => exact execTlbinvPage_mem hs _ _ h
  case tlbinvAsid => exact execTlbinvAsid_mem hs _ h
  case tlbinvVf => exact execTlbinvVf_mem hs _ h
  case asidset | asidsetNew => exact finish_keeps (asidset_keeps hs ..) h
  case swapwp => exact finish_keeps (swapwp_keeps hs ..) h
  case faultreply => exact finish_keeps (faultreply_keeps hs ..) h
  case eread => exact finish_keeps (eread_keeps hs ..) h
  case vadd | vsub | vmul | vmin | vmax | vand | vor | vxor | vshl | vshr => exact finish_keeps (vBin_keeps hs ..) h
  case vfma | vfms => exact finish_keeps (vFma_keeps hs ..) h
  case vabs | vneg => exact finish_keeps (vUn_keeps hs ..) h
  case vcmp => exact finish_keeps (vcmp_keeps hs ..) h
  case vsel => exact finish_keeps (vsel_keeps hs ..) h
  case vsetm => exact finish_keeps (vsetm_keeps hs ..) h
  case vcvt | vdqnt | vbcast | vslide | vperm | vins => exact finish_keeps (vOp_keeps hs ..) h
  case vqnt => exact finish_keeps (stripRun_keeps (vqnt_keeps hs ..)) h
  case vld => exact finish_keeps (stripRun_keeps (vld_keeps hs ..)) h
  case vst => exact finish_keeps (vst_keeps hs ..) h
  case vlds => exact finish_keeps (stripRun_keeps (vlds_keeps hs ..)) h
  case vsts => exact finish_keeps (vsts_keeps hs ..) h
  case vgath => exact finish_keeps (stripRun_keeps (vgath_keeps hs ..)) h
  case vscat => exact finish_keeps (vscat_keeps hs ..) h
  case vext => exact finish_keeps (vext_keeps hs ..) h
  case vrsum | vrmax | vrmin | vramax => exact finish_keeps (vReduce_keeps hs ..) h
  case xget => exact finish_keeps (xget_keeps hs ..) h
  case vtran => exact execVtran_mem hs _ _ _ _ h
  case mma | mmas | mlatch => exact finish_keeps (mxTile_keeps hs ..) h
  case mzero => exact execMzero_mem hs _ h
  case mrot => exact execMrot_mem hs _ h
  case mstat => exact finish_keeps (mstat_keeps hs ..) h
  case mdrain => exact finish_keeps (mdrain_keeps hs ..) h
  case fadd | fsub | fmul => exact finish_keeps (fBin_keeps hs ..) h
  case fscal => exact finish_keeps (fscal_keeps hs ..) h
  case fcomp => exact finish_keeps (fcomp_keeps hs ..) h
  case fint | fdiff => exact finish_keeps (fUn_keeps hs ..) h
  case froot => exact finish_keeps (stripRun_keeps (froot_keeps hs ..)) h
  case fext => exact finish_keeps (fext_keeps hs ..) h
  case ffit => exact finish_keeps (ffit_keeps hs ..) h
  case feval => exact finish_keeps (stripRun_keeps (feval_keeps hs ..)) h
  case fldc => exact finish_keeps (fldc_keeps hs ..) h
  case fstc => exact finish_keeps (fstc_keeps hs ..) h
  case fdom => exact finish_keeps (fdom_keeps hs ..) h
  case ftrunc => exact finish_keeps (ftrunc_keeps hs ..) h
  case fmov => exact finish_keeps (fmov_keeps hs ..) h
  case ffree => exact execFfree_mem hs _ h
  case flen => exact finish_keeps (flen_keeps hs ..) h
  case logdrop => exact execLogdrop_mem hs h
  case endTask => exact finish_keeps (endT_keeps hs ..) h
  case yield => exact execYield_mem hs h
  case sweep => exact execSweep_mem hs h
  case uret => exact finish_keeps (uret_keeps hs ..) h
  case eret => exact execEret_mem hs h
  case tlbinvHarvest => exact execTlbinvHarvest_mem hs h
  all_goals cases hi

theorem exec_mem_of_step {s t : State} {i : Instr} (hi : i.isStep = true) (hs : s.memOk = true) (h : exec i s = .next t) :
    t.memOk = true := by
  cases i
  case launchTake => exact done_mem (launchTake_mem hs ..) h
  case messageArrival => exact done_mem (messageArrival_mem hs ..) h
  case doneReceive => exact execDoneReceive_mem hs _ _ h
  case migrationArrival => exact done_mem (migrationArrival_mem hs ..) h
  case twatchExpiry => exact done_mem (twatchExpiry_mem hs ..) h
  case waitTimeout | xrWrite | acqAnswer | creditReturn => exact done_mem (updCtx_mem hs ..) h
  case granuleFill => exact done_mem (granuleFill_mem hs ..) h
  case vtranReply => exact done_mem (vtranReply_mem hs ..) h
  case accParityReplay => exact done_mem (accParityReplay_mem hs ..) h
  case segmentShip => exact done_mem (segmentShip_mem hs ..) h
  case partApply => exact execPartApply_mem hs _ h
  case segmentAck => exact done_mem (segmentAck_mem hs ..) h
  case homeLoad => exact execHomeLoad_mem hs _ h
  case loadReply => exact done_mem (loadReply_mem hs ..) h
  case homeAmo => exact execHomeAmo_mem hs _ h
  case amoReturn => exact done_mem (amoReturn_mem hs ..) h
  case engineWrite => exact execEngineWrite_mem hs _ h
  case inPlaceDeviceWrite => exact execInPlaceDeviceWrite_mem hs _ _ h
  case commitHorizon => exact execCommitHorizon_mem hs _ h
  case acqRequest => exact execAcqRequest_mem hs _ _ h
  case barrierArrival => exact done_mem (barrierArrival_mem hs ..) h
  case barrierWake => exact execBarrierWake_mem hs _ h
  case streamFetch => exact done_mem (asFrame_mem hs _ fun _ hz => fetchCur_mem hz _) h
  case streamDrain => exact done_mem (asFrame_mem hs _ fun _ hz => drainCur_mem hz _) h
  case engineOpStart => exact done_mem (engineOpStart_mem hs ..) h
  case copyElement | chainElement => exact execXferStep_mem hs _ _ h
  case engineOpComplete => exact done_mem (engineOpComplete_mem hs ..) h
  case nredArrival => exact done_mem (nredArrival_mem hs ..) h
  case nredSlotTimeout => exact execNredSlotTimeout_mem hs _ h
  case nredResult => exact done_mem (s := s.onTile _) hs h
  case pipSend => exact done_mem (pipSend_mem hs ..) h
  case pipArrival => exact done_mem (pipArrival_mem hs ..) h
  case askSend => exact done_mem (askSend_mem hs ..) h
  case askArrival => exact done_mem (askArrival_mem hs ..) h
  case sweepStart => exact done_mem (sweepStart_mem hs ..) h
  case sweepReport => exact done_mem (sweepReport_mem hs ..) h
  case sweepEnd => exact done_mem (sweepEnd_mem hs ..) h
  case depositArrival => exact execDepositArrival_mem hs _ h
  case channelWordsArrival => exact done_mem (channelWords_mem hs ..) h
  case deadLinkReroute => exact execDeadLinkReroute_mem hs _ _ _ h
  case pageWalk => exact done_mem (pageWalk_mem hs ..) h
  case faultMessage => exact execFaultMessage_mem hs _ h
  case faultReplyArrival => exact done_mem (faultReplyArrival_mem hs ..) h
  case refreshEnergyCharge => exact done_mem (refreshCharge_mem hs ..) h
  case partitionReset => exact done_mem (partitionReset_mem hs ..) h
  case clasgWrite => exact done_mem (clasgWrite_mem hs ..) h
  case wqcfgWrite => exact done_mem (wqcfgWrite_mem hs ..) h
  case equotaWrite => exact done_mem (equotaWrite_mem hs ..) h
  case estatResume => exact execEstatResume_mem hs _ h
  case loadcmdWrite => exact done_mem (loadContainer_mem hs ..) h
  case hostRegisterWrite => exact done_mem (hostWrite_mem hs ..) h
  case parityReplay => exact done_mem (parityReplay_mem hs ..) h
  case scrub => exact done_mem (scrub_mem hs ..) h
  case flitCrcError => exact done_mem (flitError_mem hs ..) h
  case pairHashCompare => exact done_mem (pairHashCompare_mem hs ..) h
  case unassignedEncoding => exact execUnassignedEncoding_mem hs _ h
  case sendAccepted => exact done_mem (sendAccepted_mem hs ..) h
  case primaryValueForward => exact done_mem (primaryForward_mem hs ..) h
  case cxlMemAccess => exact done_mem (cxlAccess_mem hs ..) h
  case candidateRelease => exact done_mem (candidateRelease_mem hs ..) h
  case doneSend => exact done_mem (doneSend_mem hs ..) h
  case preemption => exact done_mem (preemption_mem hs ..) h
  case contextRestore => exact done_mem (contextRestore_mem hs ..) h
  case engineTrapDelivery => exact execEngineTrapDelivery_mem hs h
  case completionInterrupt => exact execCompletionInterrupt_mem hs h
  case completionActivation => exact done_mem (completionActivation_mem hs ..) h
  case matrixCmdStart => exact done_mem (matrixCmdStart_mem hs ..) h
  case matrixCmdComplete => exact done_mem (mxComplete_mem hs) h
  case mrotRotate => exact done_mem (mrotRotate_mem hs ..) h
  case granuleRelease => exact done_mem (releaseGranules_mem hs ..) h
  case flagWrite => exact done_mem (flagWrite_mem hs ..) h
  case acqSweepRequest => exact execAcqSweepRequest_mem hs h
  case sweepwaitExpiry => exact execSweepwaitExpiry_mem hs h
  case sweepRequest => exact execSweepRequest_mem hs h
  case sweepRecount => exact done_mem (sweepRecount_mem hs ..) h
  case holdingQueueDrain => exact done_mem (holdingDrain_mem hs ..) h
  case brambleCopy => exact done_mem (brambleCopy_mem hs ..) h
  case brambleReplay => exact done_mem (brambleReplay_mem hs ..) h
  case dirtyLogMerge => exact execDirtyLogMerge_mem hs h
  case energyFold => exact done_mem (quotaStops_mem (chargeIdle_mem (foldMeter_mem hs))) h
  case quantumExpiry => exact done_mem (quantumExpiry_mem hs ..) h
  case resetDrainComplete => exact done_mem (resetDrain_mem hs ..) h
  case dbgHalt => exact done_mem (dbgHalt_mem hs ..) h
  case dbgResume => exact done_mem (dbgResume_mem hs ..) h
  case dbgStep => exact done_mem (dbgStep_mem hs ..) h
  case dbgSync => exact execDbgSync_mem hs h
  case breakBitStop => exact done_mem (breakStop_mem hs ..) h
  case pcMatchHandler => exact execPcMatchHandler_mem hs h
  case shadowTimeout => exact done_mem (shadowTimeout_mem hs ..) h
  case sampleRecord => exact done_mem (sampleRecord_mem hs ..) h
  case blockEntryStep => exact done_mem (blockEntryStep_mem hs ..) h
  case blkmoveTransferEnd => exact done_mem (blkmoveTransferEnd_mem hs ..) h
  case blkmoveTierCommit => exact done_mem (blkmoveTierCommit_mem hs ..) h
  case errorConsumed => exact done_mem (errorConsumed_mem hs ..) h
  case activationRedelivery => exact done_mem (redelivery_mem hs ..) h
  case pairTimeout => exact done_mem (pairTimeout_mem hs ..) h
  case coreSpareSwap => exact done_mem (coreSpareSwap_mem hs ..) h
  case columnSpareSwap => exact done_mem (s := (s.onTile _).onHost _) hs h
  case hbmLaneSpare => exact done_mem (hbmLaneSpare_mem hs ..) h
  case tileRetire => exact done_mem (tileRetire_mem hs ..) h
  case bringup => exact done_mem (bringup_mem hs ..) h
  case hbmRetrain => exact done_mem hs h
  case checkpointWriteback => exact done_mem (chargeOpen_mem _ hs) h
  case packetInjection => exact done_mem (packetInjection_mem hs ..) h
  all_goals cases hi

/-- Every instruction, and every step of another agent, keeps the memories. -/
theorem exec_mem {s t : State} (i : Instr) (hs : s.memOk = true) (h : exec i s = .next t) : t.memOk = true := by
  cases hi : i.isStep with
  | false => exact exec_mem_of_instr hi hs h
  | true => exact exec_mem_of_step hi hs h

/-! ### The issue of an instruction -/

section
variable {s t : State} {x : Stop} (hs : s.memOk = true)
include hs

theorem fetchWord_mem {w : IWord} (h : fetchWord s = .ok (w, t)) : t.memOk = true := by
  unfold fetchWord at h
  dsimp only at h
  split at h
  · cases h
  · next e =>
    split at h
    · cases h
    split at h
    · cases h
    · cases h; exact fillLine_mem (translate_mem _ _ hs e) _

theorem fetchWord_err (h : fetchWord s = .error x) : x.state.memOk = true := by
  unfold fetchWord at h
  dsimp only at h
  split at h
  · next e => cases h; exact translate_err _ _ hs e
  · next e =>
    have h1 := translate_mem _ _ hs e
    split at h
    · exact trapR_err _ _ h1 h
    split at h
    · next e => cases h; exact homeRead_err _ _ h1 e
    · cases h

theorem runWord_mem (w : IWord) (h : runWord w s = .next t) : t.memOk = true := by
  unfold runWord at h
  split at h
  · exact done_mem (shadowAbandon_mem hs) h
  · refine exec_mem _ ?_ h
    exact hs

theorem fetchRun_mem (h : fetchRun s = .next t) : t.memOk = true := by
  unfold fetchRun at h
  split at h
  · next e => exact runWord_mem (fetchWord_mem hs e) _ h
  split at h
  · exact done_mem (shadowAbandon_mem hs) h
  · next e _ => exact finish_keeps (keepsMem_error (fetchWord_err hs e)) h

theorem issueCur_mem (h : issueCur s = .next t) : t.memOk = true := by
  have hr : (running s).memOk = true := hs
  unfold issueCur at h
  dsimp only at h
  split at h
  · exact exec_mem _ hr h
  · exact fetchRun_mem hr h

theorem bring_mem (k : Nat) : (bring k s).memOk = true := by
  unfold bring
  split
  · exact hs
  split
  · exact hs
  · exact hs

theorem settle_mem (h : settle s = some t) : t.memOk = true := by
  unfold settle at h
  split at h
  · cases h; exact releaseGranules_mem hs
  split at h
  · cases h; exact State_mapTasks_mem _ _ hs
  split at h
  · cases h; exact bring_mem hs _
  split at h
  · cases h; exact updCtx_mem hs ..
  · cases h

theorem issueChosen_mem (late : List Nat) (h : issueChosen late s = .next t) : t.memOk = true := by
  unfold issueChosen at h
  split at h
  · cases h; exact hs
  split at h
  · exact issueCur_mem hs h
  · exact issueCur_mem (bring_mem (s := s.onCur demote) hs _) h

theorem issueXget_mem (h : issueXget s = .next t) : t.memOk = true := by
  unfold issueXget at h
  split at h
  · cases h; exact hs
  · exact fetchRun_mem (s := running _) (bring_mem hs _) h

theorem issueStopping_mem (h : issueStopping s = .next t) : t.memOk = true := by
  unfold issueStopping at h
  split at h
  · exact issueCur_mem (bring_mem hs _) h
  · exact issueXget_mem hs h

theorem brambleStep_mem : (brambleStep s).memOk = true := by
  unfold brambleStep
  split
  · exact brambleReplay_mem hs
  · exact brambleCopy_mem hs

theorem issue_mem (late : List Nat) (h : issue late s = .next t) : t.memOk = true := by
  unfold issue at h
  split at h
  · cases h; exact brambleStep_mem hs
  split at h
  · exact issueStopping_mem hs h
  split at h
  · cases h; exact hs
  split at h
  · next e => cases h; exact settle_mem hs e
  · exact issueChosen_mem hs _ h

omit hs in
theorem endStep_mem {r : Host.Outcome State Fault Refusal} (hr : ∀ z, r = .next z → z.memOk = true) (h : endStep r = .next t) :
    t.memOk = true := by
  cases r with
  | next z =>
    cases h
    split
    · exact stepOver_mem (hr z rfl)
    · exact hr z rfl
  | fault => cases h
  | refused => cases h

theorem coreTurn_mem (late : List Nat) (h : coreTurn late s = .next t) : t.memOk = true := by
  unfold coreTurn at h
  split at h
  · exact endStep_mem (fun _ => issue_mem hs _) h
  · exact issue_mem hs _ h

/-! ### A turn -/

theorem ownTurn_mem (h : ownTurn s = .next t) : t.memOk = true := by
  unfold ownTurn at h
  split at h
  · exact exec_mem _ hs h
  · exact coreTurn_mem hs _ h

theorem takeTurn_mem (u : Turn) (h : takeTurn u s = .next t) : t.memOk = true := by
  cases u with
  | core => exact coreTurn_mem hs _ h
  | late frames => exact coreTurn_mem hs _ h
  | event i => exact exec_mem i hs h
  | others stamps busy => cases h; exact hs
  | ended tag => cases h; exact launchOver_mem hs _
  | launchReg n v => cases h; exact putLaunchReg_mem _ _ hs
  | tileReg n set clr => cases h; exact tileRegWrite_mem hs ..
  | otherCores commits waits room => cases h; exact hs
  | started tag => cases h; exact launchStarted_mem hs _
  | tlbDrop vf asid va => cases h; exact dropCached_mem hs ..
  | harvest vf => cases h; exact harvested_mem hs _
  | dropped => cases h; exact answered_mem hs
  | asidRoot vf id root => cases h; exact renewAsid_mem hs ..
  | asidCount vf id n => cases h; exact State_setAsid_mem _ _ _ hs
  | tileGone k => cases h; exact tileGone_mem hs _
  | energy v n => cases h; exact energyFolded_mem hs ..
  | memError e double => cases h; exact memError_mem hs ..

omit hs in
theorem logged_mem {r : Host.Outcome State Fault Refusal} (before : State) (hr : ∀ z, r = .next z → z.memOk = true)
    (h : logged before r = .next t) : t.memOk = true := by
  cases r with
  | next z => cases h; exact slogDiff_mem (hr z rfl) _
  | fault => cases h
  | refused => cases h

theorem step_mem (h : step s = .next t) : t.memOk = true := by
  unfold step at h
  split at h
  · exact logged_mem s (fun _ => ownTurn_mem hs) h
  · next u us _ =>
    have hq : ({ s with sched := us } : State).memOk = true := hs
    exact logged_mem s (fun _ => takeTurn_mem hq u) h
end

namespace Settled

/-- Settles O3: each function of the model that makes a state of one keeps the canonical form of its memories, `exec` by cases on the
instruction, and a step is one turn with the state-change log after it. -/
theorem stepKeepsMemory : Obligations.StepKeepsMemory := by
  intro s t hs h
  exact step_mem hs h

end Settled

end Sys2Proof.Machine
end
